-- ==== Sys2Proof/Word.lean ====
section
/-!
DEFINITION. The words of the machine and the closed sets of names that instructions carry:
conditions, rounding modes, widths, orders, scopes, spaces (spec/02 R54, R55, R65, R67), and the base
instructions of a hod (spec/13 R469). Plain data only; nothing here acts on a state.
-/

namespace Sys2Proof

/-- A byte of a store. -/
abbrev Byte := BitVec 8
/-- A 32-bit register value or instruction word (R40, R49). -/
abbrev W32 := BitVec 32
/-- A 64-bit value in a register pair (R44). -/
abbrev W64 := BitVec 64
/-- A lane mask of W = 64 bits, bit t for thread t (R40, R48). -/
abbrev Mask := BitVec 64

/-- The conditions of ICMP and `ucmp`, in code order (R65). -/
inductive IntCond
  | eq | ne | lt | le | gt | ge | ltz | gez
deriving DecidableEq, Repr, Inhabited

/-- The conditions of FCMP, in code order (R65, R140). -/
inductive FloatCond
  | eq | ne | lt | le | gt | ge | unord | ord
deriving DecidableEq, Repr, Inhabited

/-- The conditions of `brc` and `lbrk`, in code order (R101). -/
inductive BranchCond
  | eqz | nez | ltz | gez | gtz | lez | kall | kany
deriving DecidableEq, Repr, Inhabited

/-- The element types of the arithmetic majors, in code order (R146). -/
inductive FloatType
  | f32 | f16x2 | bf16x2
deriving DecidableEq, Repr, Inhabited

/-- Rounding modes in code order; `rs` only for `cvt` (R65, R144). -/
inductive Rounding
  | rne | rz | ru | rd | rna | rs
deriving DecidableEq, Repr, Inhabited

/-- The reduction operations of `xred`, `xscn` and `swr`, in code order (R161). -/
inductive ReduceOp
  | addS32 | addF32 | minS32 | maxS32 | fmin | fmax | and | or
deriving DecidableEq, Repr, Inhabited

/-- The shift kinds of `shi`, in code order (R65). -/
inductive ShiftKind
  | shl | shr | sar | rol
deriving DecidableEq, Repr, Inhabited

/-- Order codes of the M format (R54). -/
inductive Order
  | relaxed | acquire | release | sc
deriving DecidableEq, Repr, Inhabited

/-- Scope codes (R54). -/
inductive Scope
  | group | team | cluster | die | module | domain
deriving DecidableEq, Repr, Inhabited

/-- Width codes of loads and stores (R55). -/
inductive Width
  | b8 | b16 | b32 | b64 | b128 | s8 | s16
deriving DecidableEq, Repr, Inhabited

/-- The space field of atomics (R55). -/
inductive Space
  | unit | die | global | cluster
deriving DecidableEq, Repr, Inhabited

/-- The type indices of `cvt` (R150). -/
inductive NumType
  | s32 | z32 | s8 | z8 | f32 | f16 | bf16 | e4m3 | e5m2
deriving DecidableEq, Repr, Inhabited

/-- The function codes of `aact` (R304). -/
inductive Activation
  | relu | gelu | silu | sigm | tanh | erf
deriving DecidableEq, Repr, Inhabited

/-! ### The base instructions of a hod: RV64IMAC (R469) -/

/-- Conditional branches of RV64I. -/
inductive RvBranch
  | beq | bne | blt | bge | bltu | bgeu
deriving DecidableEq, Repr, Inhabited

/-- Loads of RV64I. -/
inductive RvLoad
  | lb | lh | lw | ld | lbu | lhu | lwu
deriving DecidableEq, Repr, Inhabited

/-- Stores of RV64I. -/
inductive RvStore
  | sb | sh | sw | sd
deriving DecidableEq, Repr, Inhabited

/-- Register-immediate operations of RV64I; shifts carry their amount in the immediate's low bits. -/
inductive RvOpImm
  | addi | slti | sltiu | xori | ori | andi | slli | srli | srai
deriving DecidableEq, Repr, Inhabited

/-- Register-immediate operations on words of RV64I. -/
inductive RvOpImm32
  | addiw | slliw | srliw | sraiw
deriving DecidableEq, Repr, Inhabited

/-- Register-register operations of RV64I and M. -/
inductive RvOp
  | add | sub | sll | slt | sltu | xor | srl | sra | or | and
  | mul | mulh | mulhsu | mulhu | div | divu | rem | remu
deriving DecidableEq, Repr, Inhabited

/-- Register-register operations on words of RV64I and M. -/
inductive RvOp32
  | addw | subw | sllw | srlw | sraw | mulw | divw | divuw | remw | remuw
deriving DecidableEq, Repr, Inhabited

/-- Atomic memory operations of the A extension. -/
inductive RvAmo
  | swap | add | xor | and | or | min | max | minu | maxu
deriving DecidableEq, Repr, Inhabited

/-- A base instruction of RV64IMAC, after expansion of a compressed one; ECALL and EBREAK are rows of their own. -/
inductive HodInstr
  | lui (rd : Nat) (imm : BitVec 20)
  | auipc (rd : Nat) (imm : BitVec 20)
  | jal (rd : Nat) (off : BitVec 21)
  | jalr (rd rs1 : Nat) (imm : BitVec 12)
  | branch (c : RvBranch) (rs1 rs2 : Nat) (off : BitVec 13)
  | load (w : RvLoad) (rd rs1 : Nat) (imm : BitVec 12)
  | store (w : RvStore) (rs1 rs2 : Nat) (imm : BitVec 12)
  | opImm (op : RvOpImm) (rd rs1 : Nat) (imm : BitVec 12)
  | opImm32 (op : RvOpImm32) (rd rs1 : Nat) (imm : BitVec 12)
  | op (op : RvOp) (rd rs1 rs2 : Nat)
  | op32 (op : RvOp32) (rd rs1 rs2 : Nat)
  | fence (fm pred succ rd rs1 : Nat)
  | lr (dword aq rl : Bool) (rd rs1 : Nat)
  | sc (dword aq rl : Bool) (rd rs1 rs2 : Nat)
  | amo (op : RvAmo) (dword aq rl : Bool) (rd rs1 rs2 : Nat)
deriving DecidableEq, Repr, Inhabited

/-! ### Operands of the event rows -/

/-- One team of a placement chosen by the work scheduler: the team's index in its launch, the
physical core, the base of its unit-store allocation there (R410, R433), and its group slots in
ascending GROUP_IX. -/
structure Seat where
  teamIx : Nat
  core : Nat
  base : Nat
  slots : List Nat
deriving DecidableEq, Repr, Inhabited

/-- What a host port or a peer agent does in one access: a read of n bytes, a write of bytes, or a
64-bit atomic add (R222, R439). -/
inductive OuterAct
  | read (n : Nat)
  | write (bytes : List Byte)
  | atomicAdd (x : W64)
deriving DecidableEq, Repr, Inhabited

/-- Where a host access goes: the first memory window, the module's HBM, or the host's own memory. -/
inductive HostTarget
  | window (off : Nat)
  | hbm (pa : Nat)
  | hostMemory (pa : Nat)
deriving DecidableEq, Repr, Inhabited

/-- What another member of a collective sends in the header exchange and after it (R448): its rank
and module, the fields compared, the CRC of its MOD table, and its data (a root, a block or granules). -/
structure MemberMessage where
  module : Nat
  rank : Nat
  fn : Nat
  etype : Nat
  ng : Nat
  nv : Nat
  logl : Nat
  root : Nat
  canonical : Bool
  nrank : Nat
  modCrc : W32
  /-- A sum overflowed to an infinity where the member formed its root (R452). -/
  overflow : Bool
  counts : List Nat
  data : List Byte
deriving DecidableEq, Repr, Inhabited

/-- How a collective instance ends for this member after its header exchange (R459). -/
inductive InstanceEnd
  | ok
  | aborted
  | unreachable
  | translation
  | dataError
deriving DecidableEq, Repr, Inhabited

/-- An SPDM exchange of the host (R487, R489): open an authenticated session, read a measurement,
close the session. -/
inductive SpdmAct
  | openSession
  | readMeasurement (index : Nat)
  | setIdeKeys
  | closeSession
deriving DecidableEq, Repr, Inhabited

end Sys2Proof
end

