-- ==== Sys2Proof/Machine/Map.lean ====
section
/-!
DEFINITION. Finite maps as plain data: a list of (key, value) pairs with rising keys. A map with a default lists
no entry equal to the default, so that equal contents are equal lists.
-/

namespace Sys2Proof.Machine

/-- A finite map from natural numbers, its entries in rising order of key. -/
structure Map (α : Type) where
  entries : List (Nat × α)
deriving DecidableEq, Repr, Inhabited

/-- Sets the value at key k in a list of entries with rising keys. -/
def insertEntry {α : Type} (k : Nat) (v : α) : List (Nat × α) → List (Nat × α)
  | [] => [(k, v)]
  | (j, w) :: rest =>
    if k < j then (k, v) :: (j, w) :: rest
    else if k = j then (k, v) :: rest
    else (j, w) :: insertEntry k v rest

/-- The value at key k in a list of entries. -/
def findEntry {α : Type} (k : Nat) : List (Nat × α) → Option α
  | [] => none
  | (j, w) :: rest => if k = j then some w else findEntry k rest

/-- The map with no entry. -/
def Map.empty {α : Type} : Map α := ⟨[]⟩
/-- The value at key k, if there is one. -/
def Map.find {α : Type} (m : Map α) (k : Nat) : Option α := findEntry k m.entries
/-- The value at key k, or the default d. -/
def Map.get {α : Type} (m : Map α) (k : Nat) (d : α) : α := (m.find k).getD d
/-- Sets the value at key k. -/
def Map.set {α : Type} (m : Map α) (k : Nat) (v : α) : Map α := ⟨insertEntry k v m.entries⟩
/-- Removes key k. -/
def Map.erase {α : Type} (m : Map α) (k : Nat) : Map α := ⟨m.entries.filter fun e => e.1 ≠ k⟩
/-- Sets the value at key k in a map whose unlisted keys hold zero. -/
def Map.setZ {n : Nat} (m : Map (BitVec n)) (k : Nat) (v : BitVec n) : Map (BitVec n) :=
  if v = 0 then m.erase k else m.set k v
/-- The value at key k in a map whose unlisted keys hold zero. -/
def Map.getZ {n : Nat} (m : Map (BitVec n)) (k : Nat) : BitVec n := m.get k 0
/-- Changes the value at key k, if there is one. -/
def Map.modify {α : Type} (m : Map α) (k : Nat) (f : α → α) : Map α :=
  match m.find k with
  | some v => m.set k (f v)
  | none => m
/-- The keys, rising. -/
def Map.keys {α : Type} (m : Map α) : List Nat := m.entries.map Prod.fst
/-- The values, in rising order of key. -/
def Map.values {α : Type} (m : Map α) : List α := m.entries.map Prod.snd
/-- Applies f to every entry. -/
def Map.mapValues {α : Type} (m : Map α) (f : Nat → α → α) : Map α := ⟨m.entries.map fun e => (e.1, f e.1 e.2)⟩
/-- The entries that p keeps. -/
def Map.keep {α : Type} (m : Map α) (p : Nat → α → Bool) : Map α := ⟨m.entries.filter fun e => p e.1 e.2⟩

end Sys2Proof.Machine
end

