-- ==== Sys2Proof/Syntax.lean ====
section
/-!
DEFINITION. The instructions of the machine: one constructor for each row of spec/opcode_table.json, in the
table's order. A Spavy instruction (R49 to R68) carries first the switch marker S as m, then its fields; a
register field is the number of R41 (0 to 95 for v registers, 96 to 127 for g registers), an immediate is its
bits, and a closed set of codes is a named set. Rows of a hod (R472 to R476) carry RISC-V fields. A row that no
word encodes is an event of the machine: its operands say which agent acts and what the spec leaves to it.
-/

namespace Sys2Proof

/-- The one set of instructions: the rows of spec/opcode_table.json. -/
inductive Instr
  | add (m : Bool) (d a b : Nat)
  | sub (m : Bool) (d a b : Nat)
  | and (m : Bool) (d a b : Nat)
  | or (m : Bool) (d a b : Nat)
  | xor (m : Bool) (d a b : Nat)
  | andn (m : Bool) (d a b : Nat)
  | minS32 (m : Bool) (d a b : Nat)
  | maxS32 (m : Bool) (d a b : Nat)
  | minZ32 (m : Bool) (d a b : Nat)
  | maxZ32 (m : Bool) (d a b : Nat)
  | addsatS32 (m : Bool) (d a b : Nat)
  | subsatS32 (m : Bool) (d a b : Nat)
  | addsatZ32 (m : Bool) (d a b : Nat)
  | subsatZ32 (m : Bool) (d a b : Nat)
  | absd (m : Bool) (d a b : Nat)
  | abs (m : Bool) (d a : Nat)
  | shl (m : Bool) (d a b : Nat)
  | shr (m : Bool) (d a b : Nat)
  | sar (m : Bool) (d a b : Nat)
  | rol (m : Bool) (d a b : Nat)
  | ror (m : Bool) (d a b : Nat)
  | mul (m : Bool) (d a b : Nat)
  | mulhS32 (m : Bool) (d a b : Nat)
  | mulhZ32 (m : Bool) (d a b : Nat)
  | mulhSz32 (m : Bool) (d a b : Nat)
  | divS32 (m : Bool) (d a b : Nat)
  | divZ32 (m : Bool) (d a b : Nat)
  | remS32 (m : Bool) (d a b : Nat)
  | remZ32 (m : Bool) (d a b : Nat)
  | mad (m : Bool) (d a b : Nat)
  | msb (m : Bool) (d a b : Nat)
  | clz (m : Bool) (d a : Nat)
  | ctz (m : Bool) (d a : Nat)
  | popc (m : Bool) (d a : Nat)
  | brev (m : Bool) (d a : Nat)
  | bswap (m : Bool) (d a : Nat)
  | sxb (m : Bool) (d a : Nat)
  | sxh (m : Bool) (d a : Nat)
  | zxh (m : Bool) (d a : Nat)
  | bfxS32 (m : Bool) (d a b : Nat)
  | bfxZ32 (m : Bool) (d a b : Nat)
  | bfi (m : Bool) (d a b : Nat)
  | addi (m : Bool) (d a : Nat) (i : BitVec 10)
  | andi (m : Bool) (d a : Nat) (i : BitVec 10)
  | ori (m : Bool) (d a : Nat) (i : BitVec 10)
  | xori (m : Bool) (d a : Nat) (i : BitVec 10)
  | shi (m : Bool) (d a : Nat) (k : ShiftKind) (n : Nat)
  | muli (m : Bool) (d a : Nat) (i : BitVec 10)
  | movl (m : Bool) (d : Nat) (lit : BitVec 32)
  | addl (m : Bool) (d : Nat) (lit : BitVec 32)
  | andl (m : Bool) (d : Nat) (lit : BitVec 32)
  | orl (m : Bool) (d : Nat) (lit : BitVec 32)
  | lea (m : Bool) (h d a b : Nat)
  | icmp (m : Bool) (c : IntCond) (k a b : Nat)
  | fcmp (m : Bool) (c : FloatCond) (k a b : Nat)
  | sel (m : Bool) (k d a b : Nat)
  | mov (m : Bool) (d a : Nat)
  | kbit (m : Bool) (d k : Nat)
  | tid (m : Bool) (d : Nat)
  | sysv (m : Bool) (d n : Nat)
  | fadd (m : Bool) (f : FloatType) (d a b : Nat)
  | fsub (m : Bool) (f : FloatType) (d a b : Nat)
  | fmul (m : Bool) (f : FloatType) (d a b : Nat)
  | ffma (m : Bool) (f : FloatType) (d a b : Nat)
  | fmin (m : Bool) (d a b : Nat)
  | fmax (m : Bool) (d a b : Nat)
  | fminnum (m : Bool) (d a b : Nat)
  | fmaxnum (m : Bool) (d a b : Nat)
  | fabs (m : Bool) (d a : Nat)
  | fneg (m : Bool) (d a : Nat)
  | fcpys (m : Bool) (d a b : Nat)
  | fxsgn (m : Bool) (d a b : Nat)
  | fcls (m : Bool) (d a : Nat)
  | cvt (m : Bool) (r : Rounding) (d a : Nat) (src dst : NumType)
  | frnd (m : Bool) (r : Rounding) (d a : Nat)
  | rcp (m : Bool) (d a : Nat)
  | rsq (m : Bool) (d a : Nat)
  | sqrt (m : Bool) (d a : Nat)
  | exp2 (m : Bool) (d a : Nat)
  | log2 (m : Bool) (d a : Nat)
  | sin (m : Bool) (d a : Nat)
  | cos (m : Bool) (d a : Nat)
  | tanh (m : Bool) (d a : Nat)
  | sigm (m : Bool) (d a : Nat)
  | erf (m : Bool) (d a : Nat)
  | gelu (m : Bool) (d a : Nat)
  | silu (m : Bool) (d a : Nat)
  | idx (m : Bool) (d a b : Nat)
  | upw (m : Bool) (d a n : Nat)
  | dnw (m : Bool) (d a n : Nat)
  | xorw (m : Bool) (d a n : Nat)
  | rotw (m : Bool) (d a n : Nat)
  | xred (m : Bool) (o : ReduceOp) (d a : Nat)
  | xscn (m : Bool) (o : ReduceOp) (d a : Nat)
  | ballot (m : Bool) (k a : Nat)
  | all (m : Bool) (d a : Nat)
  | any (m : Bool) (d a : Nat)
  | uni (m : Bool) (d a : Nat)
  | xbc (m : Bool) (d a b : Nat)
  | ld (m : Bool) (wid : Width) (d a : Nat) (o : Order) (c : Scope)
  | st (m : Bool) (wid : Width) (d a : Nat) (o : Order) (c : Scope)
  | ldc (m : Bool) (wid : Width) (d a : Nat) (o : Order) (c : Scope) (s : Nat)
  | stc (m : Bool) (wid : Width) (d a : Nat) (o : Order) (c : Scope) (s : Nat)
  | ldd (m : Bool) (wid : Width) (d a : Nat) (o : Order) (c : Scope)
  | std (m : Bool) (wid : Width) (d a : Nat) (o : Order) (c : Scope)
  | ldg (m : Bool) (wid : Width) (d a : Nat) (o : Order) (c : Scope) (s : Nat)
  | stg (m : Bool) (wid : Width) (d a : Nat) (o : Order) (c : Scope) (s : Nat)
  | atomAdd (m : Bool) (d a : Nat) (o : Order) (c : Scope) (p : Space)
  | atomXch (m : Bool) (d a : Nat) (o : Order) (c : Scope) (p : Space)
  | atomMinS32 (m : Bool) (d a : Nat) (o : Order) (c : Scope) (p : Space)
  | atomMaxS32 (m : Bool) (d a : Nat) (o : Order) (c : Scope) (p : Space)
  | atomMinZ32 (m : Bool) (d a : Nat) (o : Order) (c : Scope) (p : Space)
  | atomMaxZ32 (m : Bool) (d a : Nat) (o : Order) (c : Scope) (p : Space)
  | atomAnd (m : Bool) (d a : Nat) (o : Order) (c : Scope) (p : Space)
  | atomOr (m : Bool) (d a : Nat) (o : Order) (c : Scope) (p : Space)
  | atomXor (m : Bool) (d a : Nat) (o : Order) (c : Scope) (p : Space)
  | atomAddB64 (m : Bool) (d a : Nat) (o : Order) (c : Scope) (p : Space)
  | atomXchB64 (m : Bool) (d a : Nat) (o : Order) (c : Scope) (p : Space)
  | atomMinS64 (m : Bool) (d a : Nat) (o : Order) (c : Scope) (p : Space)
  | atomMaxS64 (m : Bool) (d a : Nat) (o : Order) (c : Scope) (p : Space)
  | atomMinZ64 (m : Bool) (d a : Nat) (o : Order) (c : Scope) (p : Space)
  | atomMaxZ64 (m : Bool) (d a : Nat) (o : Order) (c : Scope) (p : Space)
  | atomCasB64 (m : Bool) (d a : Nat) (o : Order) (c : Scope) (p : Space)
  | atomfFadd (m : Bool) (d a : Nat) (o : Order) (c : Scope) (p : Space)
  | atomfFmin (m : Bool) (d a : Nat) (o : Order) (c : Scope) (p : Space)
  | atomfFmax (m : Bool) (d a : Nat) (o : Order) (c : Scope) (p : Space)
  | atomfAddBf16x2 (m : Bool) (d a : Nat) (o : Order) (c : Scope) (p : Space)
  | atomoFadd (m : Bool) (d a : Nat) (o : Order) (c : Scope) (p : Space)
  | atomoClose (m : Bool) (a : Nat) (o : Order) (c : Scope) (p : Space)
  | cas (m : Bool) (d a : Nat) (o : Order) (c : Scope) (p : Space)
  | pop (m : Bool) (d q : Nat)
  | popnb (m : Bool) (d k q : Nat)
  | push (m : Bool) (d q : Nat)
  | pushnb (m : Bool) (d q : Nat)
  | swp (m : Bool) (d i : Nat)
  | swr (m : Bool) (o : ReduceOp) (d i b : Nat)
  | nop (m : Bool)
  | yield (m : Bool)
  | pause (m : Bool)
  | pauseExpiry (core slot frag : Nat)
  | uadd (m : Bool) (d a b : Nat)
  | usub (m : Bool) (d a b : Nat)
  | uand (m : Bool) (d a b : Nat)
  | uor (m : Bool) (d a b : Nat)
  | uxor (m : Bool) (d a b : Nat)
  | uandn (m : Bool) (d a b : Nat)
  | uminS32 (m : Bool) (d a b : Nat)
  | umaxS32 (m : Bool) (d a b : Nat)
  | uminZ32 (m : Bool) (d a b : Nat)
  | umaxZ32 (m : Bool) (d a b : Nat)
  | uaddsatS32 (m : Bool) (d a b : Nat)
  | usubsatS32 (m : Bool) (d a b : Nat)
  | uaddsatZ32 (m : Bool) (d a b : Nat)
  | usubsatZ32 (m : Bool) (d a b : Nat)
  | uabsd (m : Bool) (d a b : Nat)
  | uabs (m : Bool) (d a : Nat)
  | ushl (m : Bool) (d a b : Nat)
  | ushr (m : Bool) (d a b : Nat)
  | usar (m : Bool) (d a b : Nat)
  | urol (m : Bool) (d a b : Nat)
  | uror (m : Bool) (d a b : Nat)
  | umul (m : Bool) (d a b : Nat)
  | umulhS32 (m : Bool) (d a b : Nat)
  | umulhZ32 (m : Bool) (d a b : Nat)
  | umulhSz32 (m : Bool) (d a b : Nat)
  | udivS32 (m : Bool) (d a b : Nat)
  | udivZ32 (m : Bool) (d a b : Nat)
  | uremS32 (m : Bool) (d a b : Nat)
  | uremZ32 (m : Bool) (d a b : Nat)
  | uaddi (m : Bool) (d a : Nat) (i : BitVec 10)
  | umovl (m : Bool) (d : Nat) (lit : BitVec 32)
  | uaddl (m : Bool) (d : Nat) (lit : BitVec 32)
  | uandl (m : Bool) (d : Nat) (lit : BitVec 32)
  | uorl (m : Bool) (d : Nat) (lit : BitVec 32)
  | ulea (m : Bool) (h d a b : Nat)
  | ucmp (m : Bool) (c : IntCond) (d a b : Nat)
  | kand (m : Bool) (kd ka kb : Nat)
  | kor (m : Bool) (kd ka kb : Nat)
  | kxor (m : Bool) (kd ka kb : Nat)
  | kandn (m : Bool) (kd ka kb : Nat)
  | knot (m : Bool) (kd ka : Nat)
  | kfrom (m : Bool) (kd g : Nat)
  | kto (m : Bool) (g ka : Nat)
  | kpopc (m : Bool) (d ka : Nat)
  | umov (m : Bool) (d a : Nat)
  | rdlow (m : Bool) (d ka : Nat)
  | rdth (m : Bool) (d a b : Nat)
  | bra (m : Bool) (o : BitVec 24)
  | brc (m : Bool) (c : BranchCond) (r : Nat) (o : BitVec 14)
  | call (m : Bool) (o : BitVec 24)
  | ret (m : Bool)
  | jmpt (m : Bool) (a : Nat) (table : List W32)
  | callt (m : Bool) (a : Nat) (table : List W32)
  | bdiv (m : Bool) (k : Nat) (o : BitVec 21) (reconv : BitVec 32)
  | join (m : Bool)
  | joinl (m : Bool)
  | disp (m : Bool) (k : Nat) (o : BitVec 21) (live : BitVec 32)
  | exit (m : Bool)
  | exitg (m : Bool)
  | loop (m : Bool) (lv cnt len : Nat) (incd inca incb incta inctb : BitVec 4) (incacc : BitVec 5) (step : Nat)
  | lbrk (m : Bool) (c : BranchCond) (r : Nat) (o : BitVec 14)
  | spwn (m : Bool) (f n : Nat) (entry : BitVec 32)
  | spwnf (m : Bool) (entry : BitVec 32)
  | tspn (m : Bool) (h a : Nat)
  | cpyi (m : Bool) (h a : Nat)
  | cpyo (m : Bool) (h a : Nat)
  | cpyg (m : Bool) (h a b : Nat)
  | cpys (m : Bool) (h a b : Nat)
  | tmvl (m : Bool) (h a : Nat)
  | cpyx (m : Bool) (h a : Nat)
  | copyTransferStart (core agent : Nat)
  | rcfg (m : Bool) (d a r : Nat)
  | rawait (m : Bool) (d k r : Nat)
  | rrel (m : Bool) (k r : Nat)
  | rnst (m : Bool) (d r : Nat)
  | kldj (m : Bool) (h a : Nat)
  | kbias (m : Bool) (h a : Nat)
  | kclamp (m : Bool) (h a : Nat)
  | kseed (m : Bool) (h a : Nat)
  | ksweep (m : Bool) (h a b : Nat)
  | sweep (core : Nat)
  | kread (m : Bool) (h a : Nat)
  | khealth (m : Bool) (h b : Nat)
  | kcal (m : Bool) (h : Nat)
  | sqcfg (m : Bool) (h a b : Nat)
  | sqbeg (m : Bool) (h b : Nat)
  | sqsig (m : Bool) (h t : Nat)
  | sqmap (m : Bool) (h a b : Nat)
  | sqend (m : Bool) (h : Nat)
  | sqrst (m : Bool) (h b : Nat)
  | fence (m : Bool) (o : Order) (c : Scope) (ks : Nat)
  | cwait (m : Bool) (c n : Nat)
  | hwait (m : Bool) (a : Nat)
  | htest (m : Bool) (d a : Nat)
  | hcancel (m : Bool) (a : Nat)
  | hstat (m : Bool) (d a : Nat)
  | barT (m : Bool) (id : Nat)
  | barTe (m : Bool) (d id : Nat)
  | barC (m : Bool) (id : Nat)
  | barCx (m : Bool) (id : Nat)
  | barP (m : Bool) (id : Nat)
  | arriveP (m : Bool) (d id : Nat)
  | waitP (m : Bool) (a : Nat)
  | packageBarrierRelease (launch id : Nat)
  | mbatch (m : Bool) (d : Nat)
  | mwait (m : Bool) (d a : Nat)
  | marg (m : Bool) (n : Nat)
  | sysrd (m : Bool) (d n : Nat)
  | syswr (m : Bool) (d n : Nat)
  | trap (m : Bool) (c : Nat)
  | tret (m : Bool)
  | brk (m : Bool) (c : Nat)
  | itld (m : Bool) (i a : Nat)
  | itst (m : Bool) (i a : Nat)
  | qcfg (m : Bool) (a q : Nat)
  | dreg (m : Bool) (p s a b : Nat)
  | dclr (m every : Bool) (s : Nat)
  | mmaAcc (m : Bool) (c a b : Nat) (q : Bool) (x y : Nat)
  | mmaSet (m : Bool) (c a b : Nat) (q : Bool) (x y : Nat)
  | mmaSub (m : Bool) (c a b : Nat) (q : Bool) (x y : Nat)
  | mmah (m : Bool) (a : Nat)
  | mmag (m : Bool) (a : Nat)
  | matrixOperationBegin (core slot replays : Nat)
  | batchEnd (core slot beats : Nat)
  | tcfg (m : Bool) (t dup : Nat) (axis : Bool) (cols rows wd : Nat)
  | tmovi (m : Bool) (t a : Nat) (p : Bool)
  | tmovo (m : Bool) (t a : Nat) (p : Bool)
  | tzero (m : Bool) (t : Nat)
  | azero (m : Bool) (n b : Nat)
  | adrn (m q : Bool) (n a b : Nat)
  | afil (m : Bool) (n a b : Nat)
  | tdmap (m : Bool) (t a : Nat)
  | aact (m q : Bool) (d s : Nat) (f : Activation)
  | aadd (m q : Bool) (d s t : Nat)
  | aemul (m q : Bool) (d s t : Nat)
  | ascal (m q : Bool) (d s g : Nat)
  | abias (m q : Bool) (d s g : Nat)
  | arsum (m q : Bool) (d s : Nat)
  | armax (m q : Bool) (d s : Nat)
  | acpy (m q : Bool) (d s : Nat)
  | recon (m : Bool) (a : Nat) (cont p : Bool)
  | recoff (m : Bool)
  | rmark (m : Bool) (d : Nat)
  | trvs (m : Bool) (d a : Nat)
  | rlog (m : Bool) (a : Nat)
  | rgrad (m : Bool) (v c : Nat)
  | rstat (m : Bool) (d n : Nat)
  | callr (m : Bool) (h a : Nat)
  | crsct (m : Bool) (h a : Nat)
  | cagth (m : Bool) (h a : Nat)
  | ca2a (m : Bool) (h a : Nat)
  | cbcst (m : Bool) (h a : Nat)
  | cstat (m : Bool) (d n : Nat)
  | headerExchange (core slot : Nat) (peers : List MemberMessage) (ending : InstanceEnd)
  | collectiveTimeout (core slot : Nat)
  | variableLatencyResult (core slot ix : Nat) (threads : Mask)
  | operationRetire (core agent cls : Nat)
  | faultResponse (ctx : Nat)
  | hcpyCpyi (rd rs1 : Nat)
  | hcpyCpyo (rd rs1 : Nat)
  | hcpyCpyg (rd rs1 rs2 : Nat)
  | hcpyCpys (rd rs1 rs2 : Nat)
  | hcpyTmvl (rd rs1 : Nat)
  | hcpyCpyx (rd rs1 : Nat)
  | hringAwait (rd rs1 rs2 : Nat)
  | hringRel (rd rs1 rs2 : Nat)
  | hringStat (rd rs2 : Nat)
  | hqPop (rd rs2 : Nat)
  | hqPopnb (rd rs2 : Nat)
  | hqPush (rs1 rs2 : Nat)
  | hqPushnb (rd rs1 rs2 : Nat)
  | hwtWait (rd rs1 : Nat)
  | hwtTest (rd rs1 : Nat)
  | hwtCnt (rd : Nat)
  | hwtCancel (rd rs1 : Nat)
  | hodInstruction (compressed : Bool) (i : HodInstr)
  | ecall
  | ebreak (compressed : Bool)
  | reservationExpiry (core : Nat) (store : Bool)
  | start (store : Bool) (value : W32)
  | stop (store : Bool) (value : W32)
  | release (store : Bool) (value : W32)
  | launch (port ring : Nat)
  | task (port ring : Nat)
  | waitValue (port ring : Nat)
  | waitValueRecheck (port ring : Nat)
  | signal (port ring : Nat)
  | barrier (port ring : Nat)
  | contextCreate (port ring : Nat)
  | contextDestroy (port ring : Nat)
  | resume (port ring : Nat)
  | teamPlacement (launch : Nat) (seats : List Seat)
  | launchEnd (launch : Nat)
  | spawnTimeout (die bin : Nat)
  | handOverStallFlush (die bin : Nat)
  | epoch (launch : Nat)
  | spawnTeamStart (die formed : Nat) (seat : Seat)
  | taskStart (die task : Nat) (seat : Seat)
  | taskCommit (die task : Nat)
  | preemptionRequest (ctx launch team bound elapsed retire : Nat)
  | drainBoundExpiry (team elapsed retire : Nat)
  | restore (launch : Nat) (seats : List Seat)
  | timesliceRotation (launch : Nat)
  | peerUnreachable (peer : Nat)
  | laneFailure (link : Nat)
  | portFailure (link : Nat)
  | flitResend (link : Nat)
  | translationInvalidation (port : Nat)
  | preEmpt (port elapsed retire : Nat)
  | returnToService (port : Nat)
  | computeReset (port : Nat)
  | fullReset (port : Nat)
  | firmwareUpdate (port : Nat) (verified : Bool) (version : Nat)
  | firmwareHeartbeat
  | heartbeatTimeout
  | securityWrite (port : Nat)
  | halt (core : Nat)
  | freeze (core : Nat)
  | debugResume (core : Nat)
  | bpen (core : Nat)
  | powerGood (failStage : Nat) (degraded : List Nat)
  | throttling (level : Nat)
  | illegalInstruction (word info1 : W32)
  | moduleReset
  | comparatorDrift (core : Nat)
  | hostAccess (port : Nat) (target : HostTarget) (act : OuterAct)
  | peerAccess (peer pa : Nat) (act : OuterAct)
  | faultRingRptrAdvance (ctx rptr : Nat)
  | spdmSession (port : Nat) (act : SpdmAct)
  | debugAttach (core : Nat) (on : Bool)
deriving DecidableEq, Repr, Inhabited

end Sys2Proof
end

