-- ==== Sys2Proof/Machine/State.lean ====
section
/-!
DEFINITION. The state of the machine as plain data: everything the spec gives an Atvar 380 module, and the few
fields of the model's own (tick, turns, cur, ir, portFails). INVENTORY.md lists each field with its rule and reset value.
-/

namespace Sys2Proof.Machine

/-! ### Stops -/

/-- Why the machine stops with a fault. -/
inductive Fault
  /-- Raised by a meaning that acts for a fragment or a hod when the current agent is none; the step never asks
  for that. Safe: no state of the machine is reached by it. -/
  | noAgent
deriving DecidableEq, Repr, Inhabited

/-- Why a step is refused. -/
inductive Refusal
  /-- Raised by exec for an instruction without a meaning in the model. Safe: nothing follows from it. -/
  | notModelled (mnemonic : String)
deriving DecidableEq, Repr, Inhabited

/-! ### Memory -/

/-- The bytes of every store of the module and of what lies behind its ports, in one list with rising addresses
and no byte equal to zero, which is what an unlisted address reads as (R486; notes/assumptions/1.md gives the
places of the stores in the list). -/
structure Memory where
  cells : List Host.Cell
deriving DecidableEq, Repr, Inhabited

/-- Addresses rise strictly, and each is above lo. -/
def cellsRise (lo : Nat) : List Host.Cell → Bool
  | [] => true
  | (a, _) :: rest => decide (lo ≤ a) && cellsRise (a + 1) rest

/-- The canonical form of memory: rising addresses, and no byte equal to zero. -/
def Memory.wf (m : Memory) : Bool := cellsRise 0 m.cells && m.cells.all fun c => c.2 ≠ 0

/-! ### Groups (03, 04) -/

/-- What a fragment waits for, beyond what its next instruction shows by itself (R86). -/
inductive Wait
  | none
  /-- At a `join` or `joinl` whose entry reconverges here (R93); lateral is `joinl`. -/
  | join (lateral : Bool)
  /-- At a barrier that it has arrived at: fn 0 `bar.t`, 1 `bar.te`, 2 `bar.c`, 3 `bar.cx`, with the destination of
  `bar.te`, the threads that were active there, and what the loop levels that end there have stepped the destination
  by, which the flag that lands later still receives (R173). -/
  | barrier (fn id d : Nat) (active : Mask) (step : W32)
  /-- At `bar.p` (fn 4) or `wait.p` (fn 6), for the counter of package barrier id to pass a phase (R121). -/
  | phase (fn id phase : Nat)
  /-- After `pause` (R87). -/
  | paused
deriving DecidableEq, Repr, Inhabited

/-- The fault that a fragment's instruction is parked on (R191): its number, the TRAPINFO1 of a refusal, and whether the
host has refused it. -/
structure FragFault where
  id : Nat
  info1 : W32
  refused : Bool
deriving DecidableEq, Repr, Inhabited

/-- A fragment (R86, R88): its thread set, execution mask and innermost split instance. -/
structure Fragment where
  pc : W32
  threads : Mask
  k0 : Mask
  inner : Option Nat
  wait : Wait
  /-- The barrier or phase that a fragment in handler mode was waiting for when it was taken there, and waits for again at
  `tret` (R126). -/
  saved : Wait
  /-- The fragment that a trap took into handler mode (R126). -/
  trapping : Bool
  /-- The fragment owns the loop levels (R108). -/
  looping : Bool
  fault : Option FragFault
  /-- Threads whose records a stalled `disp` or `spwn` has handed over already, all that it hands over, and its PC (R105, R106). -/
  handed : Mask
  handing : Mask
  handAt : W32
  /-- The handle that an `hwait` at a PC read when it began to wait (R117). -/
  awaits : Option (W32 × W32)
deriving DecidableEq, Repr, Inhabited

/-- A split entry (R88). -/
structure Split where
  mask : Mask
  takenPc : W32
  fallPc : W32
  reconvPc : W32
  num : Nat
  parent : Option Nat
  /-- Rises with the order of creation among the live entries of the group. -/
  age : Nat
deriving DecidableEq, Repr, Inhabited

/-- An open loop level (R109, R110, R173): its body, its increments and its stepping register. -/
structure LoopLevel where
  level : Nat
  start : W32
  stop : W32
  incd : Int
  inca : Int
  incb : Int
  incta : Nat
  inctb : Nat
  incacc : Nat
  stepReg : Nat
deriving DecidableEq, Repr, Inhabited

/-- An iterator slot (R163); rank 0 is an invalid record. -/
structure IterSlot where
  offset : W64
  space : Nat
  elem : Nat
  rank : Nat
  finished : Bool
  resume : W32
  size : List Nat
  stride : List Int
  index : List Nat
deriving DecidableEq, Repr, Inhabited

/-- A sweep parked on a page fault (R170): its fragment and place, the threads, run length and FPMODE that it issued
with, its slot as it was before the sweep, the rank and run offset whose element faulted, the values staged for lower
ranks, the partial accumulator of that rank and the flags so far. -/
structure Staging where
  frag : Nat
  pc : W32
  active : Mask
  len : Nat
  fpmode : W32
  slot : Nat
  before : IterSlot
  rank : Nat
  off : Nat
  staged : List W64
  acc : W64
  flags : BitVec 5
deriving DecidableEq, Repr, Inhabited

/-- A handle word on its way to g register reg (R115), and the result word of its operation if that has retired. -/
structure HandleDest where
  reg : Nat
  word : W32
  result : Option W32
deriving DecidableEq, Repr, Inhabited

/-- A variable-latency result that has not landed (R62): the bank that issued it (R127), and what it writes. -/
structure Pend where
  handlerBank : Bool
  /-- The instruction's first word. -/
  word : W32
  /-- The threads that were active at issue, and those whose values have not landed. -/
  issued : Mask
  threads : Mask
  /-- Values by v register × 64 + thread. -/
  vals : Map W32
  /-- A mask destination, with the value of its bits. -/
  mask : Option (Nat × Mask)
  /-- A handle word for a g register (R115). -/
  handle : Option HandleDest
  /-- Flags to raise when it has landed (R134). -/
  flags : BitVec 5
  /-- A handler-issued or interrupted sweep's slot, for R165. -/
  sweep : Option Nat
  /-- The flags whose trap FPMODE enabled at issue (R114, R133). -/
  trapen : BitVec 5
  /-- The number that it shares with the accesses that still have to give it its values, 0 for none. -/
  stamp : Nat
deriving DecidableEq, Repr, Inhabited

/-- The operation of an atomic (R199 to R201). -/
inductive AtomOp
  | add | xch | minS32 | maxS32 | minZ32 | maxZ32 | and | or | xor
  | addB64 | xchB64 | minS64 | maxS64 | minZ64 | maxZ64 | casB64 | cas | fadd | fmin | fmax | addBf16
deriving DecidableEq, Repr, Inhabited

/-- A staged contribution of an ordered atomic (R203): home, target, key and value, in order of staging. -/
structure Staged where
  home : Nat
  target : Nat
  key : Nat
  value : W32
deriving DecidableEq, Repr, Inhabited

/-- What is still to be done of an access that has issued. -/
inductive LateWork
  /-- A load into v d of its thread, with the bytes that it has read (R195, R219). -/
  | load (w : Width) (d : Nat) (got : List (Option Byte))
  /-- A store, with the bytes that it has yet to write, lowest first (R220). -/
  | store (bytes : List Byte)
  /-- An atomic, with its operand registers; the old value goes to v d of its thread (R198). -/
  | atomic (op : AtomOp) (args : List W32) (d : Nat)
  /-- The elements of a sweep that a thread reads, with the bytes that it has read: op, ELEM, d and FPMODE of the sweep, and what they
  are combined with (R166, R167, R169). -/
  | sweep (op : Option ReduceOp) (elem d : Nat) (fpmode : W32) (acc : W64) (got : List (Option Byte))
  /-- A contribution to be staged, and the fold of what is staged for a target (R203, R204). -/
  | stage (e : Staged)
  | close
  /-- A hod's load into x rd, and an AMO of it (R469). -/
  | hodLoad (w : RvLoad) (rd : Nat) (got : List (Option Byte))
  | amo (op : RvAmo) (dword : Bool) (v : W64) (rd : Nat)
  /-- A `fence` of the threads of a fragment (R212). -/
  | fence (threads : Mask)
  /-- A release write of the listed bytes has been performed before accesses of the listed threads that it orders: those that stand
  before it. They are performed before an acquire that can synchronise with it (R209, R213). -/
  | mark (threads : Mask)
deriving DecidableEq, Repr, Inhabited

/-- An access of a thread that has issued and is not performed, or a fence or mark between such accesses (R211 to R213): the number of
its instruction, its order code and scope, its effective address and the places of its bytes, the next one first. -/
structure Late where
  stamp : Nat
  thread : Nat
  order : Order
  scope : Scope
  addr : Nat
  places : List Nat
  work : LateWork
deriving DecidableEq, Repr, Inhabited

/-- Memory as it stood, from which plain loads of some threads may still read (R211, R214), but for bytes, by thread and place, of which
a thread has seen a later state. -/
structure View where
  mem : Memory
  threads : Mask
  seen : List (Nat × Nat)
deriving DecidableEq, Repr, Inhabited

/-- The step of a STEPREG that the marker at the end of a loop body holds up (R62, R173): the register field, its stride, and the
threads of the fragment. -/
structure DueStep where
  reg : Nat
  stride : W32
  threads : Mask
deriving DecidableEq, Repr, Inhabited

/-- A fixed-latency instruction that is still in progress: the threads of its fragment, its flags (R134), and what the v registers that
it writes held, by register × 64 + thread (R113). -/
structure InProgress where
  threads : Mask
  flags : BitVec 5
  old : List (Nat × W32)
deriving DecidableEq, Repr, Inhabited

/-- A range that a `dreg` is registering (R224): its space, base and length, and whether an overlapping range of another team has
arrived together with it, so that both trap. -/
structure RangeClaim where
  space : Nat
  base : Nat
  len : Nat
  met : Bool
deriving DecidableEq, Repr, Inhabited

/-- A g register that holds a handle whose operation has not retired (R115). -/
structure PendingReg where
  handlerBank : Bool
  reg : Nat
  cls : Nat
  seq : Nat
deriving DecidableEq, Repr, Inhabited

/-- A held arithmetic trap (R135). -/
structure HeldTrap where
  word : W32
  flags : BitVec 5
deriving DecidableEq, Repr, Inhabited

/-- How far an asynchronous operation has come (R20, R21, R118). -/
inductive Phase
  | issued
  | begun
  /-- Its work is done; the word is its result. -/
  | done (result : W32)
deriving DecidableEq, Repr, Inhabited


/-- A layout record; space is 0 global, 1 die store, 2 unit store. -/
structure LayoutRec where
  base : Nat
  scale : Nat
  size : List Nat
  stride : List Int
  boxr : Nat
  boxc : Nat
  format : Nat
  cw : Nat
  rank : Nat
  rowdim : Nat
  coldim : Nat
  space : Nat
  db : Nat
  axis : Bool
  sym : Bool
  osplit : Bool
  thresh : Nat
  origin : List Int
deriving DecidableEq, Repr, Inhabited

/-- A copy descriptor (R252), its fields as numbers. -/
structure CopyDesc where
  lrec : Nat
  img : Nat
  origin : List Int
  salt : Nat
  ring : Bool
  queue : Bool
  stoch : Bool
  ispace : Nat
  rnum : Nat
  qnum : Nat
  grow : Nat
  token : W32
  dst : Nat
  len : Nat
  sspace : Nat
  dspace : Nat
  transpose : Bool
  flip : Bool
  xw : Nat
deriving DecidableEq, Repr, Inhabited

/-- What the result word of a copy reports beside its status (R261). -/
structure CopyFlags where
  splitovf : Bool
  nanblk : Bool
  sat : Bool
  dup : Nat
deriving DecidableEq, Repr, Inhabited

/-- A copy as it was issued (R254): its function 0 to 5, descriptor, the record read at issue or at its start, the row
indices, and the physical address of the slot of a RING copy. -/
structure CopyCmd where
  fn : Nat
  desc : CopyDesc
  record : Option LayoutRec
  rows : List Int
  slotAddr : Option Nat
  /-- For an operand-fetch copy of `mmah` or `mmag` (R276), the bytes of its staging image. -/
  fetch : Nat
  /-- The checks of R272 have passed; the header of a source image as they read it. -/
  started : Bool
  header : List Byte
  /-- The sectors written (R270), bits formed for later ones as address, value and mask, what the copy reports, and the flags in
  the header that it has written. -/
  done : Nat
  buffer : List (Nat × Nat × Nat)
  flags : CopyFlags
  headFlags : CopyFlags
  /-- Memory as it stood when the engine read some of the sources (R28, R271). -/
  looks : List Memory
deriving DecidableEq, Repr, Inhabited

/-! ### The matrix engine (07) -/

/-- The control state of a tile register that the front end keeps (R280, R284). -/
structure TileShape where
  rows : Nat
  cols : Nat
  width : Nat
  axis : Bool
  mapped : Bool
  dupcap : Nat
deriving DecidableEq, Repr, Inhabited

/-- A tile register of a team as created (R280). -/
def TileShape.created : TileShape := ⟨32, 32, 8, false, false, 0⟩
/-- The first column of the appended block (R280). -/
def TileShape.kbase (t : TileShape) : Nat := if t.mapped then t.cols - 32 else 0

/-- The data of a tile register; bytes that a map does not list are zero, and the default of MAP is stored whole. -/
structure TileData where
  dup : Nat
  map : List Byte
  exps : Map Byte
  mants : Map Byte
deriving DecidableEq, Repr, Inhabited

/-- An accumulator tile: its sticky overflow bit and its values by row × 256 + column, zero where not listed. -/
structure AccData where
  ovf : Bool
  vals : Map W32
deriving DecidableEq, Repr, Inhabited

/-- A part of `mmah` or `mmag` (R294, R295): its table entry, the first row and count, the class 0 number of its
operand-fetch copy with the STATUS it retired with, and the staging tile and image. -/
structure MmagPart where
  entry : Nat
  first : Nat
  count : Nat
  copySeq : Nat
  result : Option Nat
  ts : Nat
  shape : TileShape
  stg : Nat
deriving DecidableEq, Repr, Inhabited

/-- What a class 1 operation does (R283, R290 to R304), with its operands and their shapes fixed at issue (R284). -/
inductive MatrixWork
  | tcfg (t : Nat)
  | tmovi (t : Nat) (sh : TileShape) (space addr : Nat)
  | tmovo (t : Nat) (sh : TileShape) (space addr : Nat)
  | tzero (t : Nat)
  | azero (n : Nat)
  | adrn (n rows cols space addr fmt width : Nat) (axis : Bool)
  | afil (n rows cols space addr : Nat)
  | tdmap (t : Nat) (sh : TileShape) (addr : Option Nat)
  /-- mode 0 acc, 1 set, 2 sub (R290). -/
  | mma (mode c a b : Nat) (sa sb : TileShape)
  /-- `mmah` and `mmag`; next is the first part not yet dealt with. -/
  | mmag (mode c a : Nat) (sa : TileShape) (parts : List MmagPart) (next : Nat)
  /-- An AOP function (R304) with the shape of S; x is the function code, the scale or the bias address. -/
  | aop (fn d s t rows cols : Nat) (x : W32)
  /-- Skipped by the step sequencer (R308). -/
  | skipped
deriving DecidableEq, Repr, Inhabited

/-- A batch of a group (R305, R313): the number it was sealed with, the level it began at, and its replays so far. -/
structure Batch where
  last : Nat
  level : Option Nat
  replays : Nat
deriving DecidableEq, Repr, Inhabited

/-! ### The adjoint engine (08) -/

/-- An entry of a log in its 32-byte layout (R320), as numbers. -/
structure LogEntry where
  kind : Nat
  major : Nat
  fn : Nat
  slot : Nat
  dst : Nat
  opa : Nat
  opb : Nat
  modes : Nat
  shape : Nat
  wa : Nat
  wb : Nat
  doff : Nat
  aux : Nat
  proda : Nat
  aux2 : Nat
  carry : Nat
deriving DecidableEq, Repr, Inhabited

/-- A key of an origin table with its entry (R342): g29, DST, MAJOR and FN, the entry's index and offset, the shape of
its output, and whether it owns a carry buffer. -/
structure Origin where
  index : Nat
  dst : Nat
  major : Nat
  fn : Nat
  entry : Nat
  entryAt : Nat
  rows : Nat
  cols : Nat
  carry : Bool
deriving DecidableEq, Repr, Inhabited

/-- A log context of a team (R317, R346): the space and first segment of its log, its current segment and the earlier
ones, newest first, the counts that the headers receive at a write-back, and the producer and origin tables. -/
structure LogCtx where
  space : Nat
  first : Nat
  seg : Nat
  seglen : Nat
  earlier : List Nat
  /-- Entries in the current segment, and the global index of its first one. -/
  nent : Nat
  base : Nat
  dtop : Nat
  /-- Bytes and entries reserved by operations issued and not accepted (R325). -/
  reserved : Nat
  reservedEntries : Nat
  defsave : Nat
  gw : Nat
  /-- The latest entry that wrote each value id (R320), and whether it is a `tmovi` or `afil` (R323). -/
  producers : Map (Nat × Bool)
  /-- In order of writing (R342). -/
  origins : List Origin
  /-- Group slots that record into the log. -/
  members : List Nat
deriving DecidableEq, Repr, Inhabited

/-- The log a group refers to (R327): its space and first segment, and the next index as its context left it. -/
structure LogRef where
  space : Nat
  first : Nat
  final : Nat
deriving DecidableEq, Repr, Inhabited

/-- An item of an entry's saved data (R321). -/
inductive LogItem
  | tile (t : Nat) (sh : TileShape)
  | acc (n rows cols : Nat)
  | indices (n rows cols : Nat)
  | desc (bytes : List Byte)
  /-- The image of the staging tile of a part of `mmah` or `mmag`. -/
  | part (b : Nat) (sh : TileShape)
  | tileMap (t : Nat)
  | carry (rows cols : Nat)
deriving DecidableEq, Repr, Inhabited

/-- Where an accepted entry lies: its index, and the offsets of the entry and of its saved data in the log's space. -/
structure LogPlace where
  index : Nat
  space : Nat
  entryAt : Nat
  dataAt : Nat
deriving DecidableEq, Repr, Inhabited

/-- What an operation that a group records will log (R320, R325): the entry, of which acceptance fills in what the
order fixes, its items, the index of a sequenced operation (R342), the shape of its output, its place once accepted, and the
value ids that it writes beside its destination. -/
structure LogPlan where
  entry : LogEntry
  items : List LogItem
  index : Option Nat
  rows : Nat
  cols : Nat
  place : Option LogPlace
  also : List Nat
deriving DecidableEq, Repr, Inhabited

/-- Progress of a `trvs` (R334, R346): the fragment's thread set and the place of its instruction, its mark operand, its log,
the number of entries left in the log below the last reversed one, the count so far and its flags. -/
structure Reversal where
  threads : Mask
  pc : W32
  mark : Nat
  /-- The log that it reverses. -/
  log : Option LogRef
  next : Nat
  count : Nat
  ovf : Bool
  nan : Bool
  /-- The tiles and accumulators that it reads or writes (R344). -/
  owns : List Nat
  /-- It stopped at an entry boundary for a save or a debug halt (R346). -/
  paused : Bool
deriving DecidableEq, Repr, Inhabited

/-! ### The step sequencer (09) -/

/-- How a slot is configured (R348, R359). -/
structure SeqCfg where
  gridx : Nat
  gridy : Nat
  theta : BitVec 16
  refresh : Nat
  tbase : Nat
  tspace : Nat
deriving DecidableEq, Repr, Inhabited

/-- A sequencer slot (R348); its number is 256 once its binding has been freed with operations outstanding. -/
structure SeqSlot where
  team : Nat
  num : Nat
  cfg : SeqCfg
  stepno : Nat
  openBy : Option Nat
  skip : List Nat
  signedMap : List Nat
  signedCount : Nat
  skipped : Nat
  suppressed : Nat
  /-- The number of the step that the maps describe, and whether the engine has it open (R364). -/
  mapStep : Option Nat
  mapOpen : Bool
deriving DecidableEq, Repr, Inhabited

/-- What a class 3 operation does (R359 to R365), with its slot and the configuration at issue. -/
inductive SeqWork
  /-- No physical slot was free. -/
  | sqfull
  | sqcfg (phys : Nat) (cfg : SeqCfg) (keep : Bool)
  | sqbeg (phys stepno : Nat)
  | sqsig (phys : Nat) (cfg : SeqCfg) (tile : Nat) (sh : TileShape) (index : Nat)
  | sqmap (phys : Nat) (cfg : SeqCfg) (addr : Nat)
  | sqend (phys : Nat) (cfg : SeqCfg)
  | sqrst (phys : Nat) (cfg : SeqCfg)
  | sqfree
deriving DecidableEq, Repr, Inhabited

/-! ### The sampling engine (10) -/

/-- A node of a kiln (R370). -/
structure KNode where
  up : Bool
  clamp : Bool
  bias : Int
  colour : Nat
  count : Nat
deriving DecidableEq, Repr, Inhabited

/-- A node as it stands when the kiln is claimed. -/
def KNode.atClaim : KNode := ⟨false, false, 0, 255, 0⟩

/-- One coupling of a node: its weight, whether it names an import slot, and the index. -/
structure Coupling where
  weight : Int
  imp : Bool
  index : Nat
deriving DecidableEq, Repr, Inhabited

/-- The couplings of a kiln: held ones by node (dense and sparse), or where streamed blocks lie (R377, R378). -/
inductive Couplings
  | held (byNode : List (List Coupling))
  | streamed (space src maxdeg : Nat)
deriving DecidableEq, Repr, Inhabited

/-- The fields of KSTAT that operations change, as the retired ones have left them (R372). -/
structure KilnShown where
  degraded : Bool
  seeded : Bool
  phys : Bool
  cmode : Nat
  lag : Nat
  nnodes : Nat
deriving DecidableEq, Repr, Inhabited

/-- The state of a core's kiln (R370); nodes not listed are as at claim. -/
structure Kiln where
  claim : Option Nat
  nodes : Map KNode
  nnodes : Nat
  cmode : Nat
  couplings : Couplings
  /-- Import slots: source LOGICAL_CORE and node. -/
  imports : List (Nat × Nat)
  /-- The LOGICAL_COREs whose kilns the import slots are registered with (R381, R389). -/
  registered : List Nat
  phys : Bool
  key : W64
  sweep : Nat
  origin : Nat
  burn : Nat
  lag : Nat
  seeded : Bool
  /-- STATE vectors by sweep index, newest first; the one at `kseed` has index none. -/
  history : List (Option Nat × List Bool)
  degraded : Bool
  lastHealth : Nat
  failures : Nat
  calibrations : Nat
  /-- The comparators have drifted since their calibration (R376). -/
  drifted : Bool
  /-- A sweep that has begun: its next colour class, and the values of the import slots in it (R379, R381). -/
  sweeping : Option (Nat × List Bool)
  shown : KilnShown
deriving DecidableEq, Repr, Inhabited

/-- A kiln as it stands right after bring-up and whenever a claim ends (R370, R371). -/
def Kiln.fresh : Kiln where
  claim := none
  nodes := Map.empty
  nnodes := 0
  cmode := 0
  couplings := .held []
  imports := []
  registered := []
  phys := false
  key := 0
  sweep := 0
  origin := 0
  burn := 0
  lag := 0
  seeded := false
  history := []
  degraded := false
  lastHealth := 0
  failures := 0
  calibrations := 0
  drifted := false
  sweeping := none
  shown := ⟨false, false, false, 0, 0, 0⟩

/-- What a class 2 operation does (R384), its descriptor as read at issue. -/
inductive KilnWork
  | kldj (src cmode space nnodes maxdeg imp nimp : Nat)
  | kbias (src first count : Nat)
  | kclamp (addr : Nat)
  | kseed (key : W64) (origin burn : Nat) (phys : Bool) (lag : Nat)
  | ksweep (ncol : Nat) (queue : Option (Nat × W32)) (beta count finished : Nat)
  | kread (dst what first count written : Nat)
  | khealth (limit : Nat)
  | kcal
deriving DecidableEq, Repr, Inhabited

/-! ### The collective engine (12) -/

/-- The transfer of a member (R452 to R455): the bytes of its destination, its receive counts, the flag bits of its result word, and
the sectors written. -/
structure CollTransfer where
  bytes : List Byte
  counts : List Nat
  bits : Nat
  done : Nat
deriving DecidableEq, Repr, Inhabited

/-- A collective as it was issued (R443 to R447): its function, the descriptor's fields with absolute addresses, the
communicator, the send counts, and the instance it became (R444). -/
structure CollCmd where
  fn : Nat
  etype : Nat
  arrival : Bool
  rootform : Bool
  /-- Arrival mode was requested and canonical mode runs (R463). -/
  subst : Bool
  queue : Option (Nat × W32)
  src : Nat
  dst : Nat
  logl : Nat
  ng : Nat
  nv : Nat
  root : Nat
  sendCounts : List Nat
  rcnt : Nat
  rcap : Nat
  ckey : W64
  nrank : Nat
  myrank : Nat
  members : List Nat
  timeout : Nat
  ckeySeq : Nat
  /-- The other members' messages, once the headers have agreed (R448), and the failure that ends it after that. -/
  exchanged : Option (List MemberMessage × Option Nat)
  /-- What it writes, once its source has been read (R455). -/
  transfer : Option CollTransfer
deriving DecidableEq, Repr, Inhabited

/-! ### Asynchronous operations (01) -/

/-- The command of an outstanding operation, by engine class (R19). -/
inductive Cmd
  | copy (c : CopyCmd)
  | matrix (w : MatrixWork) (log : Option LogPlan)
  | kiln (w : KilnWork)
  | seqr (w : SeqWork)
  | coll (c : CollCmd)
  | task (id : Nat)
deriving DecidableEq, Repr, Inhabited

/-- An asynchronous operation issued and not retired (R20 to R23). -/
structure Op where
  seq : Nat
  phase : Phase
  cancel : Bool
  /-- The outstanding fault it is parked on (R29). -/
  parked : Option Nat
  /-- Tiles (0 to 15) and accumulators (32 to 63) it owns from issue to retirement (R285). -/
  owns : List Nat
  /-- MERR bits, and OVF or NAN of its work, reported at retirement (R287). -/
  merr : BitVec 4
  cmd : Cmd
  /-- The order of acceptance by the engine (R283, R357, R385, R444), 0 before it. -/
  order : Nat
  /-- The tick of its issue. -/
  stamp : Nat
  /-- How many of its accesses to the stores its engine has made, one sector each (R220), and what it has read in them. -/
  written : Nat
  got : List Byte
deriving DecidableEq, Repr, Inhabited

/-- The counters and outstanding operations of one class of a group (R22, R23), oldest operation first. -/
structure ClassState where
  nextSeq : Nat
  /-- The sequence number given last, 0 before the first. -/
  last : Nat
  ops : List Op
deriving DecidableEq, Repr, Inhabited

/-- A class as a new group has it (R23). -/
def ClassState.created : ClassState := ⟨1, 0, []⟩

/-- A group (R40, R88, R124, R130). Registers that a map does not list hold zero. -/
structure Group where
  team : Nat
  gix : Nat
  frags : List Fragment
  /-- The rotating pointer into the fragments (R86). -/
  ptr : Nat
  /-- Resident split entries, oldest first (R88, R91). -/
  splits : List Split
  /-- Spilled entries with their slots, in spill order (R91). -/
  spilled : List (Nat × Split)
  nextSplit : Nat
  /-- v registers, by register × 64 + thread. -/
  v : Map W32
  /-- The handler bank of v80 to v95 (R127). -/
  hv : Map W32
  /-- g1 to g31, by number. -/
  g : Map W32
  /-- The handler bank of g24 to g31 (R127). -/
  hg : Map W32
  /-- k1 to k7; k0 is each fragment's own. -/
  k : Map Mask
  /-- lc0 to lc2, i0 to i2 and σ0 to σ2 by level (R109, R173). -/
  lc : Map W32
  li : Map W32
  lsig : Map W32
  /-- Open loop levels of the looping fragment, innermost first. -/
  loops : List LoopLevel
  its : Map IterSlot
  /-- Sweeps parked by the interrupted code and by the handler. -/
  staging : Option Staging
  hstaging : Option Staging
  fpmode : W32
  fpflags : W32
  held : Option HeldTrap
  srcnt : Map W32
  spcnt : Map W32
  trapCause : W32
  trapPc : W32
  trapInfo0 : W32
  trapInfo1 : W32
  handler : Bool
  /-- Parked under R62 until every variable-latency result has landed, by the interrupted code and by the handler. -/
  marker : Bool
  hmarker : Bool
  /-- The outstanding recoverable faults that the group's interrupted code and its handler are parked on (R191). -/
  park : Option Nat
  hpark : Option Nat
  hfault : Option FragFault
  /-- As Fragment.awaits, for the handler. -/
  hawaits : Option (W32 × W32)
  pend : List Pend
  pendingRegs : List PendingReg
  /-- Classes 0 to 7; a class not listed is as created. -/
  classes : Map ClassState
  merr : BitVec 4
  /-- Operations of the open batch (R305), the level it began at with its replays (R313), and the sealed batches that
  have not ended, oldest first. -/
  batch : Nat
  openLevel : Option Nat
  openReplays : Nat
  batches : List Batch
  /-- The open step: its slot's team-relative and physical numbers and STEPNO (R353). -/
  step : Option (Nat × Nat × Nat)
  /-- The latest `sqsig` of each index in the open step: its sequence number, and its decision once retired (R354). -/
  signatures : Map (Nat × Option Bool)
  recording : Bool
  lost : Bool
  recErr : Nat
  log : Option LogRef
  reversal : Option Reversal
  /-- Gradient bindings by value id (R332). -/
  binds : Map Nat
  /-- For each package barrier, the threads that have reached it through `arrive.p` or `bar.p` in its current phase
  (R119, R121). -/
  arrived : Map Mask
  /-- Records formed into the group (R412); 0 if none. -/
  reccnt : Nat
  /-- Accesses that have issued and are not performed, in order of issue (R211, R214). -/
  late : List Late
  /-- What memory was, as loads of the group may still see it, oldest first (R214). -/
  views : List View
  /-- Fixed-latency instructions that are still in progress (R113, R134). -/
  overlap : List InProgress
  /-- Steps that follow once every outstanding result has landed (R62, R173). -/
  due : List DueStep
  /-- A range on its way to the launch's range directory (R224). -/
  claim : Option RangeClaim
deriving DecidableEq, Repr, Inhabited

/-! ### Teams and launches (11) -/

/-- A kernel table entry (R79), or the shape of a task (R417). -/
structure Kernel where
  entry : Nat
  trapEntry : Option Nat
  groups : Nat
  tiles : Nat
  accs : Nat
  trapTiles : Nat
  unit : Nat
  clw : Nat
  clh : Nat
  spawnPool : Nat
  det : Nat
  caps : Nat
deriving DecidableEq, Repr, Inhabited

/-- The code section of an image with the word map's tagged word indices (R76, R77). -/
structure Image where
  code : List W32
  tagged : List Nat
deriving DecidableEq, Repr, Inhabited

/-- A registered write range (R223): its space, base, length and, for a window range, where it was resolved. -/
structure WriteRange where
  space : Nat
  base : Nat
  len : Nat
deriving DecidableEq, Repr, Inhabited

/-- A merge buffer entry with its tag (R226). -/
structure MergeEntry where
  addr : W64
  data : W32
  mask : Nat
  space : Nat
  lthread : Nat
deriving DecidableEq, Repr, Inhabited

/-- What a merge entry's word names: a virtual address, a place of a die store, an offset in a team's allocation, or
nothing any more. -/
inductive MergeTarget
  | virt (va : Nat)
  | place (key : Nat)
  | member (team off : Nat)
  | gone
deriving DecidableEq, Repr, Inhabited

/-- A merge entry as the merge uses it (R228). -/
structure MergeItem where
  lthread : Nat
  data : W32
  mask : Nat
  target : MergeTarget
deriving DecidableEq, Repr, Inhabited

/-- A team placed on a core (R40, R177, R408, R412). -/
structure Team where
  launch : Nat
  teamIx : Nat
  logicalCore : Nat
  core : Nat
  /-- Physical base of its unit-store allocation (R177). -/
  base : Nat
  kernel : Kernel
  /-- 0 grid, 1 spawn, 2 task, 3 handler task (R412). -/
  kind : Nat
  /-- Group slots in ascending GROUP_IX. -/
  slots : List Nat
  proghint : W32
  task : Option Nat
  taskHandle : W32
  taskArgs : List W32
  taskWr : List W32
  /-- Teams of the issuing die's half of the cluster and of the other half, row-major (R178, R411). -/
  ownHalf : List Nat
  otherHalf : List Nat
  /-- Shapes the front end keeps (R284); a tile or accumulator not listed is as created. -/
  tileShapes : Map TileShape
  accShapes : Map (Nat × Nat)
  tiles : Map TileData
  accs : Map AccData
  ranges : Map WriteRange
  merge : List MergeEntry
  /-- For each team barrier, the group slot whose arrival came last (R120). -/
  lastArrival : Map Nat
  logs : List LogCtx
  lhsrc : W32
  shsrc : W32
  /-- Elapsed time is not modelled; a team of a destroyed or ended launch stops issue (R404, R409). -/
  stopped : Bool
  /-- A pre-emption in progress: 0 none, 1 drain, 2 save, 3 flush (R428), and the bound of its request in µs. -/
  leaving : Nat
  bound : Nat
deriving DecidableEq, Repr, Inhabited

/-- A package barrier of a launch (R121, R440): its phase counter, and whether a plumb identifier is bound. -/
structure PackageBarrier where
  phase : Nat
  bound : Bool
deriving DecidableEq, Repr, Inhabited

/-- A record of the pallet former (R105, R415). -/
structure Rec where
  entry : W32
  regs : List W32
  lthread : Nat
  spcnt : Nat
deriving DecidableEq, Repr, Inhabited

/-- A bin of a die's pallet former (R413). -/
structure Bin where
  launch : Nat
  entry : W32
  recs : List Rec
deriving DecidableEq, Repr, Inhabited

/-- A group formed from records that waits for a spawn team (R414, R415). -/
structure Formed where
  launch : Nat
  entry : W32
  recs : List Rec
  index : Nat
deriving DecidableEq, Repr, Inhabited

/-- A skewed region descriptor (R183). -/
structure TileRegion where
  base : Nat
  pitch : Nat
  rows : Nat
  skewed : Bool
deriving DecidableEq, Repr, Inhabited

/-- How a launch ends other than by completing (R401): STATUS, DETAIL, TEAM, PC and INFO. -/
structure Ending where
  status : Nat
  detail : Nat
  team : W32
  pc : W32
  info0 : W32
  info1 : W32
deriving DecidableEq, Repr, Inhabited

/-- A launch (R406); key CTX × 2^20 + LNUM, its CTXTAG (R402). -/
structure Launch where
  port : Nat
  ring : Nat
  serial : Nat
  tag : W32
  intr : Bool
  gen : Nat
  image : Image
  kernel : Kernel
  hkernel : Option Kernel
  cogrid : Bool
  tslice : Bool
  restart : Bool
  mergepriv : Bool
  latclass : Nat
  db : List W64
  gridx : Nat
  gridy : Nat
  dieWin : Nat
  mb : Nat
  spill : W64
  lrt : W64
  lrtn : Nat
  timeout : Nat
  key : W64
  spbuf : W64
  spbufn : Nat
  rpoolOff : Nat
  rpoolSz : Nat
  estimate : Nat
  regions : List TileRegion
  compl : W64
  /-- DETMODE.FORM (R33). -/
  form : Nat
  /-- Grid teams not yet placed, and grid teams that have ended. -/
  unplaced : List Nat
  ended : List Nat
  /-- Base of its window in each die store that holds one (R179). -/
  windows : Map Nat
  barriers : Map PackageBarrier
  /-- Entries that ended teams left for the next merge (R228). -/
  mergeLeft : List MergeItem
  /-- Next formation index, and records held for an epoch (R414, R415). -/
  formIx : Nat
  spheld : List Rec
  ending : Option Ending
deriving DecidableEq, Repr, Inhabited

/-- A read or write range of a task (R417); space 255 is unused. -/
structure TaskRange where
  base : Nat
  len : Nat
  space : Nat
deriving DecidableEq, Repr, Inhabited

/-- How far a task has come (R419 to R422). -/
inductive TaskState
  | queued
  | started (team : Nat)
  | completed
  | failed (err : Nat)
  | cancelled
deriving DecidableEq, Repr, Inhabited

/-- A task in a die's dependence table (R417 to R423). -/
structure Task where
  launch : Nat
  die : Nat
  kernel : Kernel
  tix : Nat
  restart : Bool
  reads : List TaskRange
  writes : List TaskRange
  args : List W32
  /-- Pool offsets of renamed write ranges (R420). -/
  renamed : List (Option Nat)
  state : TaskState
  /-- Tasks to commit before it starts, to complete before it starts, to complete and to commit before it commits. -/
  startAfterCommit : List Nat
  startAfterComplete : List Nat
  commitAfterComplete : List Nat
  commitAfterCommit : List Nat
  /-- Tasks whose writes it reads (R422). -/
  readsFrom : List Nat
  handler : Bool
  handle : W32
  /-- A host task's packet: port, ring, serial, tag, interrupt and COMPL. -/
  host : Option (Nat × Nat × Nat × W32 × Bool × W64)
  /-- Fault record that a handler task's unit store starts with (R423). -/
  record : List Byte
  /-- Renamed sectors copied back (R421). -/
  copied : Nat
deriving DecidableEq, Repr, Inhabited

/-- A context (R403). -/
structure Context where
  live : Bool
  gen : Nat
  port : Nat
  root : Nat
  savepool : W64
  savepoolsz : Nat
  faultRing : W64
  faultResp : W64
  secure : Bool
  /-- A destroy in progress: its packet (port, ring, serial, tag, interrupt, COMPL) and the items discarded. -/
  destroying : Option (Nat × Nat × Nat × W32 × Bool × W64)
  discarded : Nat
  /-- An answer could not be read; the device reads again after the host's next WPTR write (R491). -/
  respStuck : Bool
deriving DecidableEq, Repr, Inhabited

/-! ### What a core holds besides its groups -/

/-- A hardware queue (R171, R424). -/
structure Queue where
  owner : Option Nat
  items : List W32
  drops : Nat
deriving DecidableEq, Repr, Inhabited

/-- A slot ring (R262); its reservations, oldest first, by agent and sequence number. -/
structure SlotRing where
  owner : Option Nat
  base : Nat
  slotsz : Nat
  count : Nat
  rdi : Nat
  nfill : Nat
  reserved : List (Nat × Nat)
deriving DecidableEq, Repr, Inhabited

/-- A range scoreboard entry of a core (R27): its owner and the sectors of the unit store, as spans lo to hi − 1. -/
structure ScoreEntry where
  core : Nat
  /-- The group slot, or 64 and 65 for the load and store hods. -/
  agent : Nat
  seq : Nat
  spans : List (Nat × Nat)
deriving DecidableEq, Repr, Inhabited

/-- The margin registers of a core (R309, R310). -/
structure Margin where
  stepdn : Bool
  pend : Bool
  req : Nat
  level : Nat
  replays : Nat
deriving DecidableEq, Repr, Inhabited

/-- A hod (R465 to R471); key 2 × core + 1 for the store hod. -/
structure Hod where
  claim : Option Nat
  /-- 0 off, 1 loading, 2 running, 3 halted, 4 debug halt. -/
  status : Nat
  cause : Nat
  haltPc : W64
  pc : W64
  /-- x1 to x31; zero where not listed. -/
  x : Map W64
  istore : Map Byte
  dstore : Map Byte
  nextSeq : Nat
  ops : List Op
  /-- Result words of retired copies among the 64 most recently issued (R474). -/
  results : Map W32
  /-- The reserved granule, by the place of its first byte in memory or its hod address (R471). -/
  reservation : Option Nat
  /-- As Group.late and Group.views, for window accesses (R478). -/
  late : List Late
  views : List View
deriving DecidableEq, Repr, Inhabited

/-- A hod after bring-up: off and unclaimed (R465). -/
def Hod.off : Hod := ⟨none, 0, 0, 0, 0, Map.empty, Map.empty, Map.empty, 1, [], Map.empty, none, [], []⟩
/-- A hod that is freed: off, with the cause of its last halt (R466; notes/assumptions/29.md). -/
def Hod.freed (h : Hod) : Hod := { Hod.off with cause := h.cause }

/-- Debug state of a core (R496). -/
structure Debug where
  halted : Bool
  frozen : Bool
  bpen : Bool
  attached : Bool
deriving DecidableEq, Repr, Inhabited

/-! ### Host side (05, 11, 14) -/

/-- A recoverable fault whose record is outstanding or held back (R191, R192, R491). -/
structure FaultRecord where
  ctx : Nat
  bytes : List Byte
  delivered : Bool
  /-- The host's ACTION: 0 retry, 1 fail. -/
  answer : Option Nat
deriving DecidableEq, Repr, Inhabited

/-- A cached table entry: its context, the start and size of what it maps, the entry, and the place in memory that it was read at
(R188). -/
structure TlbEntry where
  ctx : Nat
  base : Nat
  size : Nat
  entry : W64
  place : Nat
deriving DecidableEq, Repr, Inhabited

/-- A work ring (R397); key 64 × port + ring. -/
structure WorkRing where
  base : W64
  size : W32
  enable : Bool
  intren : Bool
  halted : Bool
  wptr : W32
  rptr : W32
  /-- CODE, RPTR and the first 8 header bytes of the last halt. -/
  error : List Byte
  /-- Serials of packets consumed and not completed (R398, R400). -/
  openPackets : List Nat
  /-- What a held barrier packet waits for. -/
  barrier : Option (List Nat)
  /-- The packet that holds the ring (R400), with its serial. -/
  held : Option (Nat × List Byte)
deriving DecidableEq, Repr, Inhabited

/-- A port's mailbox (R488): its fields, the command in progress with the arguments it was started with, and whether
it has been taken up. -/
structure Mailbox where
  op : W32
  mstat : W32
  args : List Byte
  current : Option (Nat × List Byte)
  begun : Bool
deriving DecidableEq, Repr, Inhabited

/-- An entry of the error log (R493). -/
structure LogLine where
  kind : Nat
  site : Nat
  core : Nat
  ctx : Nat
  addr : W64
  count : W32
deriving DecidableEq, Repr, Inhabited

/-- An entry of the security region table (R489). -/
structure SecRegion where
  base : Nat
  units : Nat
  secure : Bool
deriving DecidableEq, Repr, Inhabited

/-- A team taken off its core by save (R428 to R432): its save area, and what restore puts back. -/
structure SavedTeam where
  uid : Nat
  team : Team
  groups : List Group
  queues : List (Nat × Queue)
  rings : List (Nat × SlotRing)
  seqSlots : List SeqSlot
  kiln : Option Kiln
  area : W64
  total : Nat
  unitBytes : List Host.Cell
  /-- Groups, by GROUP_IX, with a deferred store failure. -/
  deferred : List Nat
deriving DecidableEq, Repr, Inhabited

/-- Who the current instruction acts for. -/
inductive Agent
  /-- Fragment number frag of the group in a core's slot. -/
  | group (core slot frag : Nat)
  | hod (core : Nat) (store : Bool)
  /-- An event of the machine. -/
  | none
deriving DecidableEq, Repr, Inhabited

/-- An agent of the memory model (R208): a group in a core's slot, a hod, a host port or a peer module. -/
inductive Actor
  | group (core slot : Nat)
  | hod (core : Nat) (store : Bool)
  | host
  | peer
deriving DecidableEq, Repr, Inhabited

/-- One turn of the machine: an agent's next instruction, or an event. -/
inductive Turn
  | group (core slot : Nat)
  | hod (core : Nat) (store : Bool)
  | event (i : Instr)
  /-- An error of the hardware itself meets the next access of a group: a machine check at its next load or atomic,
  with its SITE (R492). -/
  | groupError (core slot site : Nat)
  /-- The same at a hod's next access (R471 cause 11), and in the oldest begun operation of a class (R492). -/
  | hodError (core : Nat) (store : Bool)
  | opError (core agent cls : Nat)
  /-- The same in the copy-back of a completed task (R419 ERR 5). -/
  | taskError (task : Nat)
  /-- An error that the hardware corrects, which only the error log shows (R492, R493). -/
  | corrected (site core : Nat)
  /-- A group's next instruction, whose accesses are left to be performed later (R211, R214), and whose register write
  and flags may overlap what is in flight (R63, R134). -/
  | groupLate (core slot : Nat)
  /-- A hod's next instruction in the same way (R478). -/
  | hodLate (core : Nat) (store : Bool)
  /-- An access that a turn of a group or a hod has left behind is performed, or its piece of a number (R181, R219, R220); a plain load
  reads view number src, or memory as it stands where there is none. -/
  | perform (a : Actor) (ix piece src : Nat)
  /-- Loads of a group or a hod may from now on read memory as it stands, until they are ordered after something later (R214). -/
  | view (a : Actor)
  /-- The kiln of a core runs one colour class (R378). -/
  | colour (core : Nat)
  /-- A walker fills the translation buffers with the leaf of an address (R188). -/
  | fill (ctx va : Nat)
  /-- The copy engine reads sources of copy number seq of an agent, for sectors that it writes later (R28, R271). -/
  | look (core agent seq : Nat)
  /-- An event in which an uncorrectable error meets the accesses that the host's port makes for its packets: those that write, or
  those that read (R400, R401). -/
  | eventError (i : Instr) (write : Bool)
  /-- A die takes a new copy of what `cstat` reads (R462). -/
  | statusCopy (die : Nat)
deriving DecidableEq, Repr, Inhabited

/-- A firmware image in a slot: its bytes, its version, and its measurement (R497, R498). -/
structure FwImage where
  bytes : List Byte
  version : Nat
  measure : List Byte
deriving DecidableEq, Repr, Inhabited

/-! ### The module -/

/-- The machine: an Atvar 380 module. -/
structure State where
  /-- The model's own: free values are taken at this counter, which every step advances. -/
  tick : Nat
  /-- The model's own: whose turns come next; when it is empty, a free value names the turn. -/
  turns : List Turn
  /-- The model's own: who the instruction now performed acts for, and its first word. -/
  cur : Agent
  ir : W32
  mem : Memory
  tlb : List TlbEntry
  /-- Groups by 64 × core + slot. -/
  groups : Map Group
  /-- Teams by number; numbers are never used again. -/
  teams : Map Team
  nextTeam : Nat
  launches : Map Launch
  /-- The next launch number (R402). -/
  nextLaunch : Nat
  contexts : Map Context
  saved : List SavedTeam
  /-- Packets consumed so far, and acceptance order of operations so far. -/
  nextSerial : Nat
  nextOrder : Nat
  /-- By 8 × core + queue, and by 16 × core + ring. -/
  queues : Map Queue
  rings : Map SlotRing
  scoreboard : List ScoreEntry
  margins : Map Margin
  /-- By 2^14 × core + a number that stands for a physical slot; one that has been freed keeps its number while operations name it. -/
  seqSlots : Map SeqSlot
  kilns : Map Kiln
  hods : Map Hod
  debugs : Map Debug
  staging : List Staged
  /-- Pallet formers by die. -/
  bins : List (Nat × Bin)
  formed : List (Nat × Formed)
  tasks : Map Task
  nextTask : Nat
  /-- Reset level of a die: 0 in service, 1 compute, 2 full (R494). -/
  dieReset : Map Nat
  /-- Collectives: keys used by each context, and instance counters by key (R444). -/
  ckeys : List (Nat × W64)
  instances : List (W64 × Nat)
  unreachable : List Nat
  linksDown : List Nat
  lanesDown : List Nat
  /-- LINKS and OUT as a die copied them last (R462). -/
  dieStatus : Map (Nat × Nat)
  /-- Group slots with a store to an unreachable peer that no release has reported (R438), by 64 × core + slot. -/
  deferred : List Nat
  faults : Map FaultRecord
  nextFault : Nat
  ready : Bool
  failed : Bool
  stage : Nat
  workRings : Map WorkRing
  mailboxes : Map Mailbox
  errorLog : Map LogLine
  errorWptr : W32
  secRegions : List SecRegion
  /-- Blocks that the security configuration makes secure (R489): 16 × core + class for an engine, + 8 and + 9 for the hods, + 10 for
  the store engine, and 16 × 384 for the controller. -/
  secBlocks : List Nat
  /-- SPDM sessions open at each port (R487, R489). -/
  sessions : List Nat
  /-- Ports whose IDE keys have been set (R482). -/
  ide : List Nat
  /-- SPDM measurements by index (R487). -/
  measurements : Map (List Byte)
  /-- Active firmware slot and its version (R484, R497). -/
  fwSlot : Nat
  fwVersion : Nat
  /-- The images in the slots, 0 for A and 1 for B (R497). -/
  fwImages : Map FwImage
  /-- A firmware update past its quiesce: the port and the target slot (R498). -/
  update : Option (Nat × Nat)
  /-- The model's own: in the event now performed, an uncorrectable error meets the writes, or the reads, of the host's port. -/
  portFails : Option Bool
deriving DecidableEq, Repr, Inhabited

/-- The machine right after reset, before POWER_GOOD (R484, R486): not ready, stage 1, every store zero, no context,
no launch, no team. Values the spec gives no reset for are zero or empty (notes/assumptions/9.md). -/
def State.reset : State where
  tick := 0
  turns := []
  cur := .none
  ir := 0
  mem := ⟨[]⟩
  tlb := []
  groups := Map.empty
  teams := Map.empty
  nextTeam := 0
  launches := Map.empty
  nextLaunch := 1
  contexts := Map.empty
  saved := []
  nextSerial := 0
  nextOrder := 0
  queues := Map.empty
  rings := Map.empty
  scoreboard := []
  margins := Map.empty
  seqSlots := Map.empty
  kilns := Map.empty
  hods := Map.empty
  debugs := Map.empty
  staging := []
  bins := []
  formed := []
  tasks := Map.empty
  nextTask := 0
  dieReset := Map.empty
  ckeys := []
  instances := []
  unreachable := []
  linksDown := []
  lanesDown := []
  dieStatus := Map.empty
  deferred := []
  faults := Map.empty
  nextFault := 0
  ready := false
  failed := false
  stage := 1
  workRings := Map.empty
  mailboxes := Map.empty
  errorLog := Map.empty
  errorWptr := 0
  secRegions := []
  secBlocks := []
  sessions := []
  ide := []
  measurements := Map.empty
  fwSlot := 0
  fwVersion := 0
  fwImages := Map.empty
  update := none
  portFails := none

end Sys2Proof.Machine
end

