-- ==== Sys2Proof/Config.lean ====
section
/-!
DEFINITION. What an implementation fixes and what the spec leaves free: constants with no body, which nothing can
evaluate. Each is named in notes/assumptions (2, 6, 7, 8, 10). A free value of the machine is taken at State.tick, which
every step advances.
-/

namespace Sys2Proof.Machine

/-! ### Who acts next (R7, R232, R433; notes/assumptions/2.md) -/

/-- The turn taken at a tick when no turn is listed. -/
opaque Config.schedule : Nat → Turn

/-- A choice the spec leaves open at a tick, told apart by a salt. -/
opaque Config.choice : Nat → Nat → Nat

/-! ### Values the spec does not state (notes/assumptions/6.md) -/

/-- The Atvar 380's own special functions (R155), by function number and input. -/
opaque Config.specialFunction : Nat → W32 → W32
/-- The derivative the adjoint engine uses for an activation (R341), by code and input. -/
opaque Config.activationSlope : Nat → W32 → W32
/-- The decision of a sampling site in physical mode (R376), by tick and node. -/
opaque Config.physicalDecision : Nat → Nat → Bool
/-- A health count (R383), by tick. -/
opaque Config.healthCount : Nat → Nat
/-- A word the spec leaves open, by tick and salt. -/
opaque Config.freeWord : Nat → Nat → W32
/-- A byte of a device encoding (R429; notes/assumptions/7.md), by tick and place. -/
opaque Config.freeByte : Nat → Nat → Byte

/-! ### What the part fixes (notes/assumptions/8.md) -/

/-- Physical cores that are fused off (R14, R485). -/
opaque Config.fusedCore : Nat → Bool
/-- Whether a die's coping die is present (R16). -/
opaque Config.copingDie : Nat → Bool
/-- What bring-up learns from the switches (R436), and from it the number of modules of the domain, from 1 to 256, and this
module's index, below that number. -/
opaque Config.domainFound : Nat
opaque Config.indexFound : Nat
def Config.domainSize : Nat := Config.domainFound % 256 + 1
def Config.moduleIndex : Nat := Config.indexFound % Config.domainSize
/-- The firmware slot that the boot at a tick selects, and the image in a slot then (R484, R486, R497). -/
opaque Config.bootSlot : Nat → Nat
opaque Config.slotImage : Nat → Nat → List Byte
/-- Of the bytes of a firmware image: whether its signature verifies, its version, and its measurement (R487, R497, R498). -/
opaque Config.fwVerifies : List Byte → Bool
opaque Config.fwVersionOf : List Byte → Nat
opaque Config.fwMeasure : List Byte → List Byte
/-- Whether the part offers the capability of an ID (R485), where in its block of the window its structure lies, its
VERSION, and the bytes of a body that the spec does not give. -/
opaque Config.offers : Nat → Bool
opaque Config.capOffset : Nat → Nat
opaque Config.capVersion : Nat → Nat
opaque Config.capBody : Nat → Nat → Byte
/-- The SPDM measurement (R487) of an index that is taken at a tick. -/
opaque Config.measurement : Nat → Nat → List Byte
/-- Whether a stored security image makes a block secure (R489). -/
opaque Config.secureBlock : List Byte → Nat → Bool
/-- What the HBM of a die holds once a full reset at a tick has taken it down (R494), by offset. -/
opaque Config.lostHbm : Nat → Nat → List Host.Cell
/-- Whether an access of a host port or of a peer module at a tick counts as secure (R489). -/
opaque Config.outerSecure : Nat → Bool

end Sys2Proof.Machine
end

