-- ==== Sys2Proof/Machine/Memory.lean ====
section
/-!
DEFINITION. The named operations over memory: bytes and numbers, the places of the stores (notes/assumptions/1.md), and
stores that end the reservations of hods (R471).
-/

namespace Sys2Proof.Machine

/-! ### Bytes -/

/-- The byte at address a in a list of cells; an unlisted one is zero. -/
def findCell (a : Nat) : List Host.Cell → Byte
  | [] => 0
  | (x, b) :: rest => if a = x then b else if a < x then 0 else findCell a rest

/-- Sets the byte at address a, keeping the canonical form. -/
def putCell (a : Nat) (b : Byte) : List Host.Cell → List Host.Cell
  | [] => if b = 0 then [] else [(a, b)]
  | (x, c) :: rest =>
    if a < x then (if b = 0 then (x, c) :: rest else (a, b) :: (x, c) :: rest)
    else if a = x then (if b = 0 then rest else (a, b) :: rest)
    else (x, c) :: putCell a b rest

/-- The byte at a place of memory. -/
def Memory.byte (m : Memory) (a : Nat) : Byte := findCell a m.cells
/-- Writes one byte. -/
def Memory.put (m : Memory) (a : Nat) (b : Byte) : Memory := ⟨putCell a b m.cells⟩
/-- Writes bytes from address a up. -/
def Memory.putBytes (m : Memory) (a : Nat) : List Byte → Memory
  | [] => m
  | b :: rest => (m.put a b).putBytes (a + 1) rest
/-- n bytes from address a up. -/
def Memory.bytes (m : Memory) (a n : Nat) : List Byte := (List.range n).map fun i => m.byte (a + i)
/-- Sets every byte from lo to hi − 1 to zero. -/
def Memory.clear (m : Memory) (lo hi : Nat) : Memory := ⟨m.cells.filter fun c => c.1 < lo || hi ≤ c.1⟩

/-- The number that bytes hold, the first least significant (R5). -/
def leNat : List Byte → Nat
  | [] => 0
  | b :: rest => b.toNat + 256 * leNat rest
/-- The low n bytes of a number, least significant first. -/
def leBytes : Nat → Nat → List Byte
  | 0, _ => []
  | n + 1, v => BitVec.ofNat 8 v :: leBytes n (v / 256)
/-- The signed value of the low n bits of v. -/
def signedOf (n v : Nat) : Int := if v % 2 ^ n < 2 ^ (n - 1) then (v % 2 ^ n : Nat) else (v % 2 ^ n : Nat) - (2 ^ n : Nat)
/-- A number at a byte offset of a block, n bytes wide. -/
def field (block : List Byte) (off n : Nat) : Nat := leNat ((block.drop off).take n)
/-- Bytes off to off + n − 1 of a block are zero. -/
def zeros (block : List Byte) (off n : Nat) : Bool := field block off n == 0

/-- Bytes as a map from 0 up; zero bytes are not listed. -/
def byteMap (b : List Byte) : Map Byte :=
  ⟨((List.range b.length).zip b).filter fun e => e.2 ≠ 0⟩

/-- A length in whole 32-byte sectors. -/
def pad32 (n : Nat) : Nat := (n + 31) / 32 * 32
/-- Bytes padded with zeros to whole sectors. -/
def padded (b : List Byte) : List Byte := b ++ List.replicate (pad32 b.length - b.length) 0

/-! ### Places of the stores in memory (notes/assumptions/1.md) -/

/-- A byte of a core's unit store. -/
def unitKey (core phys : Nat) : Nat := 2 ^ 60 + core * 2 ^ 24 + phys
/-- A byte of a die store. -/
def dieKey (die off : Nat) : Nat := 2 ^ 61 + die * 2 ^ 29 + off
/-- A byte of a die's HBM. -/
def hbmKey (die off : Nat) : Nat := die * 2 ^ 38 + off
/-- A byte behind a host port. -/
def hostKey (port pa : Nat) : Nat := 2 ^ 48 * (1 + port) + pa
/-- A byte of a peer module. -/
def peerKey (peer pa : Nat) : Nat := 2 ^ 56 + peer * 2 ^ 48 + pa

/-- The die of a core (R14). -/
def dieOf (core : Nat) : Nat := core / 48
/-- The key of a group slot. -/
def slotKey (core slot : Nat) : Nat := 64 * core + slot

/-- The first place of the 8-byte granule that a place lies in (R471). -/
def granuleOf (a : Nat) : Nat := a / 8 * 8

/-- A hod loses its reservation when another agent writes a byte of its granule (R471). -/
def Hod.afterWrite (h : Hod) (a n : Nat) : Hod :=
  match h.reservation with
  | some r => if r < a + n ∧ a < r + 8 ∧ 0 < n then { h with reservation := none } else h
  | none => h

/-- Performs a store of bytes at a place by an agent that is no hod. -/
def State.storeBytes (s : State) (a : Nat) (bytes : List Byte) : State :=
  { s with mem := s.mem.putBytes a bytes, hods := s.hods.mapValues fun _ h => h.afterWrite a bytes.length }
/-- Performs a store of bytes at a place by hod k (R471). -/
def State.storeByHod (s : State) (k a : Nat) (bytes : List Byte) : State :=
  { s with
    mem := s.mem.putBytes a bytes
    hods := s.hods.mapValues fun j h => if j = k then h else h.afterWrite a bytes.length }
/-- Performs a store of bytes whose places are listed byte by byte. -/
def State.scatter (s : State) : List (Nat × Byte) → State
  | [] => s
  | (a, b) :: rest => (s.storeBytes a [b]).scatter rest
/-- The bytes at listed places. -/
def State.gather (s : State) (keys : List Nat) : List Byte := keys.map s.mem.byte

end Sys2Proof.Machine
end

