-- ==== Sys2Proof/Machine/Crc.lean ====
section
/-!
DEFINITION. CRC-32C (Castagnoli), as the save areas, the firmware slots and the collectives' headers use it (R75, R429,
R448; notes/assumptions/11.md).
-/

namespace Sys2Proof.Machine

/-- One bit of the reflected division by the Castagnoli polynomial. -/
def crcBit (r : W32) : W32 := if r.getLsbD 0 then (r >>> 1) ^^^ 0x82F63B78#32 else r >>> 1
/-- One byte. -/
def crcByte (r : W32) (b : Byte) : W32 := (List.range 8).foldl (fun r _ => crcBit r) (r ^^^ b.setWidth 32)
/-- The CRC-32C of bytes. -/
def crc32c (b : List Byte) : W32 := b.foldl crcByte 0xFFFFFFFF#32 ^^^ 0xFFFFFFFF#32

end Sys2Proof.Machine
end

