-- ==== Sys2Proof/Machine/Float.lean ====
section
/-!
DEFINITION. Numbers of the machine: exact dyadic values, the formats of R143, RoundInt and RoundToFormat of R144,
and the arithmetic of R145 to R147 over them. Every value is exact until RoundToFormat rounds it.
-/

namespace Sys2Proof.Machine

/-- A value as the rounding rules see it: a NaN (signalling or not), an infinity, or (−1)^neg × mant × 2^exp. -/
inductive Num
  | nan (signalling : Bool)
  | inf (neg : Bool)
  | fin (neg : Bool) (mant : Nat) (exp : Int)
deriving DecidableEq, Repr, Inhabited

/-- The exception flags in the bit order of FPFLAGS (R134): NX 0, UF 1, OF 2, DZ 3, NV 4. -/
abbrev Flags := BitVec 5

def flagNX : Flags := 1
def flagUF : Flags := 2
def flagOF : Flags := 4
def flagDZ : Flags := 8
def flagNV : Flags := 16

/-- A floating-point format of R143: field widths, bias, and whether the top exponent holds an infinity. -/
structure Fmt where
  ebits : Nat
  fbits : Nat
  hasInf : Bool
deriving DecidableEq, Repr, Inhabited

def f32 : Fmt := ⟨8, 23, true⟩
def f16 : Fmt := ⟨5, 10, true⟩
def bf16 : Fmt := ⟨8, 7, true⟩
def e4m3 : Fmt := ⟨4, 3, false⟩
def e5m2 : Fmt := ⟨5, 2, true⟩

/-- The exponent bias. -/
def Fmt.bias (F : Fmt) : Nat := 2 ^ (F.ebits - 1) - 1
/-- The exponent of the smallest normal. -/
def Fmt.emin (F : Fmt) : Int := 1 - (F.bias : Int)
/-- The sign bit's place. -/
def Fmt.signBit (F : Fmt) : Nat := F.ebits + F.fbits
/-- The canonical NaN (R143). -/
def Fmt.qnan (F : Fmt) : Nat :=
  if F.hasInf then (2 ^ F.ebits - 1) * 2 ^ F.fbits + 2 ^ (F.fbits - 1) else 2 ^ (F.ebits + F.fbits) - 1
/-- The bits of the largest finite magnitude. -/
def Fmt.maxBits (F : Fmt) : Nat :=
  if F.hasInf then (2 ^ F.ebits - 1) * 2 ^ F.fbits - 1 else 2 ^ (F.ebits + F.fbits) - 2
/-- The bits of +∞ in a format that has one. -/
def Fmt.infBits (F : Fmt) : Nat := (2 ^ F.ebits - 1) * 2 ^ F.fbits

/-- The value of a bit pattern; with daz a subnormal reads as zero of its sign (R133, R145). -/
def decodeNum (F : Fmt) (daz : Bool) (w : Nat) : Num :=
  let neg := w / 2 ^ F.signBit % 2 == 1
  let e := w / 2 ^ F.fbits % 2 ^ F.ebits
  let f := w % 2 ^ F.fbits
  if e = 2 ^ F.ebits - 1 ∧ F.hasInf then
    if f = 0 then .inf neg else .nan (f < 2 ^ (F.fbits - 1))
  else if ¬ F.hasInf ∧ e * 2 ^ F.fbits + f = 2 ^ (F.ebits + F.fbits) - 1 then .nan false
  else if e = 0 then
    if daz then .fin neg 0 0 else .fin neg f (F.emin - F.fbits)
  else .fin neg (f + 2 ^ F.fbits) (F.emin - F.fbits + (e - 1 : Int))

/-- DAZ acts on f32, f16 and bf16 only (R133). -/
def Fmt.dazApplies (F : Fmt) : Bool := F.hasInf && !(F.ebits == 5 && F.fbits == 2)

/-- A rounding mode with its draw, as RoundToFormat takes it (R144). -/
inductive RMode
  | rne | rz | ru | rd | rna
  | rs (draw : Nat)
deriving DecidableEq, Repr, Inhabited

/-- RoundInt (R144) of the signed dyadic (−1)^neg × mant × 2^exp, as a signed integer. -/
def roundInt (neg : Bool) (mant : Nat) (exp : Int) (mode : RMode) : Int :=
  if 0 ≤ exp then (if neg then -1 else 1) * ((mant * 2 ^ exp.toNat : Nat) : Int)
  else
    let d := 2 ^ (-exp).toNat
    let z : Int := if neg then -(mant : Int) else mant
    let lo := z.fdiv d
    let r := (z.fmod d).toNat
    if r = 0 then lo
    else
      match mode with
      | .rne => if 2 * r < d then lo else if d < 2 * r then lo + 1 else if lo % 2 = 0 then lo else lo + 1
      | .rna => if 2 * r < d then lo else if d < 2 * r then lo + 1 else if neg then lo else lo + 1
      | .rz => if neg then lo + 1 else lo
      | .ru => lo + 1
      | .rd => lo
      | .rs draw => if draw < r * 65536 / d then lo + 1 else lo

/-- floor(log2) of a non-zero dyadic magnitude. -/
def ilog2 (mant : Nat) (exp : Int) : Int := (Nat.log2 mant : Int) + exp

/-- Whether m₁ × 2^e₁ ≤ m₂ × 2^e₂. -/
def magLe (m₁ : Nat) (e₁ : Int) (m₂ : Nat) (e₂ : Int) : Bool :=
  let e := min e₁ e₂
  decide (m₁ * 2 ^ (e₁ - e).toNat ≤ m₂ * 2 ^ (e₂ - e).toNat)

/-- The bits of ± mant × 2^e in F, for a magnitude that F holds exactly. -/
def encodeFinite (F : Fmt) (neg : Bool) (mant : Nat) (exp : Int) : Nat :=
  let s := if neg then 2 ^ F.signBit else 0
  if mant = 0 then s
  else
    let e := max (ilog2 mant exp) F.emin
    let q := e - F.fbits
    let k := if 0 ≤ exp - q then mant * 2 ^ (exp - q).toNat else mant / 2 ^ (q - exp).toNat
    s + (e - F.emin).toNat * 2 ^ F.fbits + k

/-- The largest finite magnitude of F as a significand and exponent. -/
def Fmt.maxMant (F : Fmt) : Nat := F.maxBits % 2 ^ F.fbits + 2 ^ F.fbits
def Fmt.maxExp (F : Fmt) : Int := F.emin - F.fbits + ((F.maxBits / 2 ^ F.fbits : Nat) : Int) - 1

/-- RoundToFormat for a floating-point format (R144): the bits and the flags raised; ftz is FPMODE.FTZ. -/
def roundTo (F : Fmt) (ftz : Bool) (x : Num) (mode : RMode) : Nat × Flags :=
  match x with
  | .nan _ => (F.qnan, 0)
  | .inf neg =>
    let s := if neg then 2 ^ F.signBit else 0
    if F.hasInf then (s + F.infBits, 0) else (s + F.maxBits, flagNV)
  | .fin neg mant exp =>
    let s := if neg then 2 ^ F.signBit else 0
    if mant = 0 then (s, 0)
    else
      let big := !magLe mant exp F.maxMant F.maxExp
      let mode := match mode with
        | .rs d => if big then .rne else .rs d
        | m => m
      let e := max (ilog2 mant exp) F.emin
      let q := e - F.fbits
      let n := (roundInt neg mant (exp - q) mode).natAbs
      let exact := magLe n q mant exp && magLe mant exp n q
      let tiny := decide (n < 2 ^ F.fbits) && decide (e = F.emin)
      if !magLe n q F.maxMant F.maxExp then
        let toMax := match mode with
          | .rz => true
          | .ru => neg
          | .rd => !neg
          | _ => false
        if !F.hasInf || toMax then (s + F.maxBits, flagOF ||| flagNX) else (s + F.infBits, flagOF ||| flagNX)
      else
        let fl := if exact then 0 else if tiny then flagNX ||| flagUF else flagNX
        if tiny && decide (n ≠ 0) && ftz && F.dazApplies then (s, fl ||| flagUF ||| flagNX)
        else (encodeFinite F neg n q, fl)

/-- RoundToFormat for an integer format with range lo to hi (R144). -/
def roundToInt (lo hi : Int) (x : Num) (mode : RMode) : Int × Flags :=
  match x with
  | .nan _ => (0, flagNV)
  | .inf neg => (if neg then lo else hi, flagNV)
  | .fin neg mant exp =>
    -- beyond 2^40 the value is out of every range, so that no large power is formed
    if mant ≠ 0 ∧ 40 < ilog2 mant exp then (if neg then lo else hi, flagNV)
    else
      let y := roundInt neg mant exp mode
      if hi < y then (hi, flagNV)
      else if y < lo then (lo, flagNV)
      else
        let exact := match exp with
          | .ofNat _ => true
          | .negSucc k => decide (mant % 2 ^ (k + 1) = 0)
        (y, if exact then 0 else flagNX)

/-- Flags of reading operands: NV for each signalling NaN (R145). -/
def snanFlags : List Num → Flags
  | [] => 0
  | .nan true :: _ => flagNV
  | _ :: rest => snanFlags rest

/-- A number is a NaN. -/
def Num.isNan : Num → Bool
  | .nan _ => true
  | _ => false

/-- The signed integer numerator of a finite value at exponent e, at or below its own. -/
def scaled (neg : Bool) (mant : Nat) (exp e : Int) : Int :=
  (if neg then -1 else 1) * ((mant * 2 ^ (exp - e).toNat : Nat) : Int)

/-- The value −x. -/
def Num.negate : Num → Num
  | .nan s => .nan s
  | .inf n => .inf (!n)
  | .fin n m e => .fin (!n) m e

/-- The exact sum with its invalid flag; an exact zero sum of unlike signs has sign zeroNeg (R145, R146). -/
def addNum (zeroNeg : Bool) (x y : Num) : Num × Flags :=
  match x, y with
  | .nan _, _ => (.nan false, 0)
  | _, .nan _ => (.nan false, 0)
  | .inf a, .inf b => if a = b then (.inf a, 0) else (.nan false, flagNV)
  | .inf a, .fin _ _ _ => (.inf a, 0)
  | .fin _ _ _, .inf b => (.inf b, 0)
  | .fin n₁ m₁ e₁, .fin n₂ m₂ e₂ =>
    if m₁ = 0 ∧ m₂ = 0 then (.fin (if n₁ = n₂ then n₁ else zeroNeg) 0 0, 0)
    else if m₁ = 0 then (.fin n₂ m₂ e₂, 0)
    else if m₂ = 0 then (.fin n₁ m₁ e₁, 0)
    else
      let e := min e₁ e₂
      let z := scaled n₁ m₁ e₁ e + scaled n₂ m₂ e₂ e
      if z = 0 then (.fin zeroNeg 0 0, 0) else (.fin (z < 0) z.natAbs e, 0)

/-- The exact product with its invalid flag (R145). -/
def mulNum (x y : Num) : Num × Flags :=
  match x, y with
  | .nan _, _ => (.nan false, 0)
  | _, .nan _ => (.nan false, 0)
  | .inf a, .inf b => (.inf (a != b), 0)
  | .inf a, .fin b m _ => if m = 0 then (.nan false, flagNV) else (.inf (a != b), 0)
  | .fin a m _, .inf b => if m = 0 then (.nan false, flagNV) else (.inf (a != b), 0)
  | .fin n₁ m₁ e₁, .fin n₂ m₂ e₂ => (.fin (n₁ != n₂) (m₁ * m₂) (if m₁ * m₂ = 0 then 0 else e₁ + e₂), 0)

/-- Whether x < y among values that are not NaN, with −0 equal to +0. -/
def ltNum (x y : Num) : Bool :=
  match x, y with
  | .inf a, .inf b => a && !b
  | .inf a, _ => a
  | _, .inf b => !b
  | .fin n₁ m₁ e₁, .fin n₂ m₂ e₂ =>
    let e := min e₁ e₂
    decide (scaled n₁ m₁ e₁ e < scaled n₂ m₂ e₂ e)
  | _, _ => false

/-- Whether x = y among values that are not NaN, with −0 equal to +0. -/
def eqNum (x y : Num) : Bool := !x.isNan && !y.isNan && !ltNum x y && !ltNum y x

/-- The sign of a value that is not a NaN. -/
def Num.isNeg : Num → Bool
  | .nan _ => false
  | .inf n => n
  | .fin n _ _ => n

/-- The value is ±0. -/
def Num.isZero : Num → Bool
  | .fin _ 0 _ => true
  | _ => false

/-- The rounding of FPMODE.RM (R133). -/
def rmOf (fpmode : W32) : RMode :=
  match fpmode.toNat % 4 with
  | 0 => .rne
  | 1 => .rz
  | 2 => .ru
  | _ => .rd

/-- The mode of a fn field, with the draw of rs (R149, R150). -/
def modeOf (r : Rounding) (draw : Nat) : RMode :=
  match r with
  | .rne => .rne
  | .rz => .rz
  | .ru => .ru
  | .rd => .rd
  | .rna => .rna
  | .rs => .rs draw

def dazOf (fpmode : W32) : Bool := fpmode.getLsbD 2
def ftzOf (fpmode : W32) : Bool := fpmode.getLsbD 3
/-- The sign of an exact zero sum: minus only under rd (R146). -/
def zeroNegOf (mode : RMode) : Bool := mode == .rd

/-- An f32 register value as a number. -/
def f32Num (daz : Bool) (x : W32) : Num := decodeNum f32 daz x.toNat

/-- One element of fadd (R146). -/
def fpAdd (F : Fmt) (fpmode : W32) (a b : Nat) : Nat × Flags :=
  let x := decodeNum F (dazOf fpmode) a
  let y := decodeNum F (dazOf fpmode) b
  let (z, fl) := addNum (zeroNegOf (rmOf fpmode)) x y
  let (r, fl2) := roundTo F (ftzOf fpmode) z (rmOf fpmode)
  (r, fl ||| fl2 ||| snanFlags [x, y])

/-- One element of fsub (R146). -/
def fpSub (F : Fmt) (fpmode : W32) (a b : Nat) : Nat × Flags :=
  let x := decodeNum F (dazOf fpmode) a
  let y := decodeNum F (dazOf fpmode) b
  let (z, fl) := addNum (zeroNegOf (rmOf fpmode)) x y.negate
  let (r, fl2) := roundTo F (ftzOf fpmode) z (rmOf fpmode)
  (r, fl ||| fl2 ||| snanFlags [x, y])

/-- One element of fmul (R146). -/
def fpMul (F : Fmt) (fpmode : W32) (a b : Nat) : Nat × Flags :=
  let x := decodeNum F (dazOf fpmode) a
  let y := decodeNum F (dazOf fpmode) b
  let (z, fl) := mulNum x y
  let (r, fl2) := roundTo F (ftzOf fpmode) z (rmOf fpmode)
  (r, fl ||| fl2 ||| snanFlags [x, y])

/-- One element of ffma: one rounding, and NV for 0 × ∞ whatever the addend (R145, R146). -/
def fpFma (F : Fmt) (fpmode : W32) (a b d : Nat) : Nat × Flags :=
  let x := decodeNum F (dazOf fpmode) a
  let y := decodeNum F (dazOf fpmode) b
  let c := decodeNum F (dazOf fpmode) d
  let zeroInf := match x, y with
    | .inf _, .fin _ 0 _ => flagNV
    | .fin _ 0 _, .inf _ => flagNV
    | _, _ => 0
  let (p, _) := mulNum x y
  let (z, fl) := addNum (zeroNegOf (rmOf fpmode)) p c
  let (r, fl2) := roundTo F (ftzOf fpmode) z (rmOf fpmode)
  (r, zeroInf ||| fl ||| fl2 ||| snanFlags [x, y, c])

/-- The exact bits of a value that F holds exactly. -/
def exactBits (F : Fmt) (x : Num) : Nat := (roundTo F false x .rne).1

/-- minimum, maximum, minimumNumber and maximumNumber of R147 on f32 bits, after DAZ. -/
def fpMinMax (isMax isNum : Bool) (fpmode : W32) (a b : Nat) : Nat × Flags :=
  let x := decodeNum f32 (dazOf fpmode) a
  let y := decodeNum f32 (dazOf fpmode) b
  let fl := snanFlags [x, y]
  let less := ltNum x y || (eqNum x y && x.isNeg && !y.isNeg)
  if x.isNan && y.isNan then (f32.qnan, fl)
  else if x.isNan then (if isNum then exactBits f32 y else f32.qnan, fl)
  else if y.isNan then (if isNum then exactBits f32 x else f32.qnan, fl)
  else if isMax then (exactBits f32 (if less then y else x), fl)
  else (exactBits f32 (if less then x else y), fl)

/-- The outcome of an FCMP condition and its flags (R140). -/
def fpCompare (c : FloatCond) (fpmode : W32) (a b : Nat) : Bool × Flags :=
  let x := decodeNum f32 (dazOf fpmode) a
  let y := decodeNum f32 (dazOf fpmode) b
  let unord := x.isNan || y.isNan
  let quiet := snanFlags [x, y]
  let loud : Flags := if unord then flagNV else 0
  match c with
  | .eq => (eqNum x y, quiet)
  | .ne => (!eqNum x y, quiet)
  | .lt => (!unord && ltNum x y, loud)
  | .le => (!unord && !ltNum y x, loud)
  | .gt => (!unord && ltNum y x, loud)
  | .ge => (!unord && !ltNum x y, loud)
  | .unord => (unord, quiet)
  | .ord => (!unord, quiet)

/-- frnd (R149): an integral f32 value, never NX. -/
def fpRoundIntegral (r : Rounding) (fpmode : W32) (a : Nat) : Nat × Flags :=
  match decodeNum f32 (dazOf fpmode) a with
  | .nan s => (f32.qnan, if s then flagNV else 0)
  | .inf n => (exactBits f32 (.inf n), 0)
  | .fin n m e =>
    if m = 0 then (exactBits f32 (.fin n 0 0), 0)
    else (exactBits f32 (.fin n (roundInt n m e (modeOf r 0)).natAbs 0), 0)

/-- The class mask of fcls (R148). -/
def fpClass (a : Nat) : W32 :=
  match decodeNum f32 false a with
  | .nan true => 1
  | .nan false => 2
  | .inf true => 4
  | .inf false => 512
  | .fin n m _ =>
    if m = 0 then (if n then 32 else 64)
    else if m < 2 ^ 23 then (if n then 16 else 128)
    else (if n then 8 else 256)

/-- The format of a floating-point type of `cvt`. -/
def typeFmt : NumType → Option Fmt
  | .f32 => some f32
  | .f16 => some f16
  | .bf16 => some bf16
  | .e4m3 => some e4m3
  | .e5m2 => some e5m2
  | _ => none

/-- The range of an integer type of `cvt` (R143). -/
def typeRange : NumType → Int × Int
  | .s32 => (-2147483648, 2147483647)
  | .z32 => (0, 4294967295)
  | .s8 => (-128, 127)
  | .z8 => (0, 255)
  | _ => (0, 0)

/-- The source value of a conversion, from the low bits of a register (R150). -/
def cvtSource (s : NumType) (daz : Bool) (a : W32) : Num :=
  match s with
  | .s32 => .fin a.msb a.toInt.natAbs 0
  | .z32 => .fin false a.toNat 0
  | .s8 => let x := (BitVec.ofNat 8 a.toNat).toInt; .fin (x < 0) x.natAbs 0
  | .z8 => .fin false (a.toNat % 256) 0
  | .f32 => decodeNum f32 daz a.toNat
  | .f16 => decodeNum f16 daz (a.toNat % 65536)
  | .bf16 => decodeNum bf16 daz (a.toNat % 65536)
  | .e4m3 => decodeNum e4m3 false (a.toNat % 256)
  | .e5m2 => decodeNum e5m2 false (a.toNat % 256)

/-- An integer type's source is an integer. -/
def isIntType : NumType → Bool
  | .s32 | .z32 | .s8 | .z8 => true
  | _ => false

/-- A conversion (R150, R151): the register value and the flags. With FTZ set a subnormal result of a widening conversion is flushed, with
UF and NX, although R151 says that widening raises nothing: DEDUCED (notes/assumptions/31.md). -/
def convert (src dst : NumType) (mode : RMode) (fpmode : W32) (a : W32) : W32 × Flags :=
  let x := cvtSource src (dazOf fpmode) a
  match typeFmt dst with
  | none =>
    let (lo, hi) := typeRange dst
    let (y, fl) := roundToInt lo hi x mode
    let fl := if isIntType src then 0 else fl
    (BitVec.ofInt 32 y, fl)
  | some F =>
    let (r, fl) := roundTo F (ftzOf fpmode) x mode
    (BitVec.ofNat 32 r, fl ||| snanFlags [x])

/-- KeyedDraw (R152). -/
def keyedDraw (key c : W64) : Nat :=
  let x := c ^^^ key
  let x := (x ^^^ (x >>> 30)) * 0xA3B195E42C7D6F0B
  let x := (x ^^^ (x >>> 29)) * 0x5D1E8C37F40A92C5
  let x := x ^^^ (x >>> 32)
  x.toNat / 281474976710656

/-- A value clamped into a range. -/
def clampInt (lo hi z : Int) : Int := if z < lo then lo else if hi < z then hi else z

end Sys2Proof.Machine
end

