-- ==== Sys2Proof/Machine/Reduce.lean ====
section
/-!
DEFINITION. The operations that reductions, scans and sweeps combine values with (R161), the elements of sweeps (R166), and how a
sweep joins those of a rank (R167).
-/

namespace Sys2Proof.Machine

/-- The signed minimum and maximum (R112). -/
def aluMinS (a b : W32) : W32 := if a.slt b then a else b
def aluMaxS (a b : W32) : W32 := if a.slt b then b else a
/-- A result in f32 bits as a register value. -/
def f32Result (r : Nat × Flags) : W32 × Flags := (BitVec.ofNat 32 r.1, r.2)
/-- The union of flags. -/
def flagUnion (l : List Flags) : Flags := l.foldl (· ||| ·) 0
/-- The low and high halves of a 64-bit value. -/
def lowWord (v : W64) : W32 := v.setWidth 32
def highWord (v : W64) : W32 := (v >>> 32).setWidth 32

/-- Identity(op). -/
def reduceIdentity : ReduceOp → W32
  | .addS32 => 0
  | .addF32 => 0x80000000
  | .minS32 => 0x7FFFFFFF
  | .maxS32 => 0x80000000
  | .fmin => 0x7F800000
  | .fmax => 0xFF800000
  | .and => 0xFFFFFFFF
  | .or => 0

/-- Combine(op, x, y) with the flags it raises. -/
def reduceCombine (o : ReduceOp) (fpmode x y : W32) : W32 × Flags :=
  match o with
  | .addS32 => (x + y, 0)
  | .addF32 => f32Result (fpAdd f32 fpmode x.toNat y.toNat)
  | .minS32 => (aluMinS x y, 0)
  | .maxS32 => (aluMaxS x y, 0)
  | .fmin => f32Result (fpMinMax false false fpmode x.toNat y.toNat)
  | .fmax => f32Result (fpMinMax true false fpmode x.toNat y.toNat)
  | .and => (x &&& y, 0)
  | .or => (x ||| y, 0)

/-- The bytes of an element. -/
def elemBytes (elem : Nat) : Nat := [1, 2, 4, 8, 1, 2].getD elem 4

/-- An element widened by its ELEM (R166). -/
def widenElement (elem : Nat) (bytes : List Byte) : W64 :=
  match elem with
  | 4 => (BitVec.ofInt 32 (signedOf 8 (leNat bytes))).setWidth 64
  | 5 => (BitVec.ofInt 32 (signedOf 16 (leNat bytes))).setWidth 64
  | _ => BitVec.ofNat 64 (leNat bytes)

/-- How a sweep joins the elements of a rank: `swp` takes the one element, `swr` combines (R166, R167). -/
def sweepJoin (o : Option ReduceOp) (fpmode : W32) (acc v : W64) : W64 × Flags :=
  match o with
  | none => (v, 0)
  | some o => let (r, fl) := reduceCombine o fpmode (lowWord acc) (lowWord v); (r.setWidth 64, fl)
/-- The value a rank starts from. -/
def sweepStart (o : Option ReduceOp) : W64 :=
  match o with
  | none => 0
  | some o => (reduceIdentity o).setWidth 64

/-- The value of a rank from its elements' values, from a partial accumulator on. -/
def sweepRank (o : Option ReduceOp) (fpmode : W32) (acc : W64) (vals : List W64) : W64 × Flags :=
  vals.foldl (fun (st : W64 × Flags) v => let (r, fl) := sweepJoin o fpmode st.1 v; (r, st.2 ||| fl)) (acc, 0)

end Sys2Proof.Machine
end

