-- ==== Sys2Proof/Machine/RvArith.lean ====
section
/-!
DEFINITION. The arithmetic of RV64IMAC (R469): registers and immediates, branches, loaded values and atomic memory operations.
-/

namespace Sys2Proof.Machine

/-- The low 32 bits, sign-extended. -/
def sext32 (v : W64) : W64 := (v.setWidth 32).signExtend 64
/-- A signed product's high 64 bits from two integers. -/
def highProduct (a b : Int) : W64 := BitVec.ofInt 64 (a * b / 2 ^ 64)
/-- Signed and unsigned quotients and remainders of n bits; division by zero gives all ones and the dividend. -/
def divSigned {n : Nat} (a b : BitVec n) : BitVec n := if b = 0 then -1 else BitVec.ofInt n (a.toInt.tdiv b.toInt)
def remSigned {n : Nat} (a b : BitVec n) : BitVec n := if b = 0 then a else BitVec.ofInt n (a.toInt.tmod b.toInt)
def divUnsigned {n : Nat} (a b : BitVec n) : BitVec n := if b = 0 then -1 else BitVec.ofNat n (a.toNat / b.toNat)
def remUnsigned {n : Nat} (a b : BitVec n) : BitVec n := if b = 0 then a else BitVec.ofNat n (a.toNat % b.toNat)
/-- A truth as a register value. -/
def flag64 (b : Bool) : W64 := if b then 1 else 0

/-- A register-register operation. -/
def rvOp (op : RvOp) (a b : W64) : W64 :=
  match op with
  | .add => a + b
  | .sub => a - b
  | .sll => a <<< (b.toNat % 64)
  | .slt => flag64 (a.slt b)
  | .sltu => flag64 (a.ult b)
  | .xor => a ^^^ b
  | .srl => a >>> (b.toNat % 64)
  | .sra => a.sshiftRight (b.toNat % 64)
  | .or => a ||| b
  | .and => a &&& b
  | .mul => a * b
  | .mulh => highProduct a.toInt b.toInt
  | .mulhsu => highProduct a.toInt b.toNat
  | .mulhu => highProduct a.toNat b.toNat
  | .div => divSigned a b
  | .divu => divUnsigned a b
  | .rem => remSigned a b
  | .remu => remUnsigned a b
/-- A register-register operation on words. -/
def rvOp32 (op : RvOp32) (a b : W64) : W64 :=
  let u : W32 := a.setWidth 32
  let v : W32 := b.setWidth 32
  let r : W32 := match op with
    | .addw => u + v
    | .subw => u - v
    | .sllw => u <<< (v.toNat % 32)
    | .srlw => u >>> (v.toNat % 32)
    | .sraw => u.sshiftRight (v.toNat % 32)
    | .mulw => u * v
    | .divw => divSigned u v
    | .divuw => divUnsigned u v
    | .remw => remSigned u v
    | .remuw => remUnsigned u v
  r.signExtend 64
/-- The operation of a register-immediate instruction; a shift takes its amount from the immediate's low bits. -/
def rvImm (op : RvOpImm) (a : W64) (imm : BitVec 12) : W64 :=
  let i : W64 := imm.signExtend 64
  match op with
  | .addi => a + i
  | .slti => flag64 (a.slt i)
  | .sltiu => flag64 (a.ult i)
  | .xori => a ^^^ i
  | .ori => a ||| i
  | .andi => a &&& i
  | .slli => a <<< (imm.toNat % 64)
  | .srli => a >>> (imm.toNat % 64)
  | .srai => a.sshiftRight (imm.toNat % 64)
/-- The same on words. -/
def rvImm32 (op : RvOpImm32) (a : W64) (imm : BitVec 12) : W64 :=
  let u : W32 := a.setWidth 32
  let r : W32 := match op with
    | .addiw => u + imm.signExtend 32
    | .slliw => u <<< (imm.toNat % 32)
    | .srliw => u >>> (imm.toNat % 32)
    | .sraiw => u.sshiftRight (imm.toNat % 32)
  r.signExtend 64
/-- A branch is taken. -/
def rvTaken (c : RvBranch) (a b : W64) : Bool :=
  match c with
  | .beq => a == b
  | .bne => a != b
  | .blt => a.slt b
  | .bge => !a.slt b
  | .bltu => a.ult b
  | .bgeu => !a.ult b
/-- The bytes of a load, and the register value that they give. -/
def rvLoadBytes : RvLoad → Nat
  | .lb | .lbu => 1
  | .lh | .lhu => 2
  | .lw | .lwu => 4
  | .ld => 8
def rvLoaded (w : RvLoad) (v : Nat) : W64 :=
  match w with
  | .lb => BitVec.ofInt 64 (signedOf 8 v)
  | .lh => BitVec.ofInt 64 (signedOf 16 v)
  | .lw => BitVec.ofInt 64 (signedOf 32 v)
  | _ => BitVec.ofNat 64 v
/-- The bytes of a store. -/
def rvStoreBytes : RvStore → Nat
  | .sb => 1
  | .sh => 2
  | .sw => 4
  | .sd => 8
/-- What an atomic memory operation on n bits stores. -/
def rvAmo {n : Nat} (op : RvAmo) (old v : BitVec n) : BitVec n :=
  match op with
  | .swap => v
  | .add => old + v
  | .xor => old ^^^ v
  | .and => old &&& v
  | .or => old ||| v
  | .min => if old.slt v then old else v
  | .max => if old.slt v then v else old
  | .minu => if old.ult v then old else v
  | .maxu => if old.ult v then v else old
/-- The same on 4 or 8 bytes of memory. -/
def amoBytes (op : RvAmo) (dword : Bool) (old : Nat) (v : W64) : Nat :=
  if dword then (rvAmo op (BitVec.ofNat 64 old) v).toNat else (rvAmo op (BitVec.ofNat 32 old) (v.setWidth 32 : W32)).toNat
/-- A loaded word or doubleword as a register value. -/
def amoLoaded (dword : Bool) (v : Nat) : W64 := if dword then BitVec.ofNat 64 v else BitVec.ofInt 64 (signedOf 32 v)

end Sys2Proof.Machine
end

