-- ==== Sys2Proof/WellFormed.lean ====
section
/-!
DEFINITION. Which instructions are well formed: every register number in its field, destinations of lane
instructions in v0 to v95 (R42), handle destinations in g0 to g31 (R58), register groups aligned (R44), and the
field limits of R53 to R68 and of the owning chapters that can be read off the instruction words alone.
-/

namespace Sys2Proof

/-- A 7-bit register field (R41). -/
def n7 (r : Nat) : Bool := decide (r < 128)
/-- A lane destination names a v register (R42). -/
def vReg (r : Nat) : Bool := decide (r < 96)
/-- A handle destination names a g register (R58). -/
def gReg (r : Nat) : Bool := decide (96 ≤ r ∧ r < 128)

/-- How many registers a width code fills (R55). -/
def widthRegs : Width → Nat
  | .b64 => 2
  | .b128 => 4
  | _ => 1

/-- A register group of n registers is aligned and stays inside its class (R44). -/
def regGroupOk (r n : Nat) : Bool :=
  decide ((r < 96 ∧ r % n = 0 ∧ r + n ≤ 96) ∨ (96 ≤ r ∧ (r - 96) % n = 0 ∧ r + n ≤ 128))

/-- The block of G = 2 g registers of `kfrom` and `kto` with W = 64 (R68). -/
def gBlockOk (r : Nat) : Bool := decide (96 ≤ r ∧ r ≤ 126 ∧ (r - 96) % 2 = 0)

/-- The number of 1 bits of a word. -/
def popCount {n : Nat} (x : BitVec n) : Nat := (List.range n).countP fun k => x.getLsbD k

/-- The system registers that `sysrd` may name (R46, R47, R412, R466, R477). -/
def sysReadable (n : Nat) : Bool :=
  decide (n ≤ 0x009 ∨ n = 0x010 ∨ n = 0x011 ∨ (0x018 ≤ n ∧ n ≤ 0x01B) ∨ (0x020 ≤ n ∧ n ≤ 0x027) ∨ n = 0x030
    ∨ n = 0x031 ∨ n = 0x040 ∨ n = 0x050 ∨ n = 0x060 ∨ n = 0x070 ∨ (0x080 ≤ n ∧ n ≤ 0x084)
    ∨ (0x088 ≤ n ∧ n ≤ 0x091) ∨ (0x100 ≤ n ∧ n ≤ 0x107) ∨ (0x110 ≤ n ∧ n ≤ 0x112) ∨ (0x118 ≤ n ∧ n ≤ 0x11A))

/-- The system registers with a writable field, so that `syswr` may name them (R46). -/
def sysWritable (n : Nat) : Bool :=
  decide (n = 0x010 ∨ n = 0x011 ∨ (0x018 ≤ n ∧ n ≤ 0x01B) ∨ n = 0x030 ∨ n = 0x031 ∨ n = 0x060 ∨ n = 0x080
    ∨ n = 0x110 ∨ n = 0x111 ∨ n = 0x118 ∨ n = 0x119)

/-- The limits of the shape word of `tcfg` beyond its field widths (R60, R281). -/
def tcfgOk (dup : Nat) (axis : Bool) (cols rows : Nat) : Bool :=
  decide (dup ≤ 32) && (!axis || decide ((rows + 1) % 32 = 0)) && (decide (dup = 0) || (!axis && decide (cols ≠ 0)))

/-- The value ids and accumulators that `rgrad` accepts (R332). -/
def rgradOk (v c : Nat) : Bool :=
  decide ((v = 127 ∧ c = 127) ∨ ((v ≤ 15 ∨ (32 ≤ v ∧ v ≤ 63)) ∧ (c ≤ 31 ∨ c = 127)))

/-- The fields of a base instruction of a hod are in range (R469). -/
def HodInstr.wellFormed : HodInstr → Bool
  | .lui rd _ => decide (rd < 32)
  | .auipc rd _ => decide (rd < 32)
  | .jal rd off => decide (rd < 32) && !off.getLsbD 0
  | .jalr rd rs1 _ => decide (rd < 32 ∧ rs1 < 32)
  | .branch _ rs1 rs2 off => decide (rs1 < 32 ∧ rs2 < 32) && !off.getLsbD 0
  | .load _ rd rs1 _ => decide (rd < 32 ∧ rs1 < 32)
  | .store _ rs1 rs2 _ => decide (rs1 < 32 ∧ rs2 < 32)
  | .opImm fn rd rs1 imm => decide (rd < 32 ∧ rs1 < 32) &&
      (match fn with
       | .slli | .srli | .srai => decide (imm.toNat < 64)
       | _ => true)
  | .opImm32 fn rd rs1 imm => decide (rd < 32 ∧ rs1 < 32) &&
      (match fn with
       | .addiw => true
       | _ => decide (imm.toNat < 32))
  | .op _ rd rs1 rs2 => decide (rd < 32 ∧ rs1 < 32 ∧ rs2 < 32)
  | .op32 _ rd rs1 rs2 => decide (rd < 32 ∧ rs1 < 32 ∧ rs2 < 32)
  | .fence fm pred succ rd rs1 => decide (fm < 16 ∧ pred < 16 ∧ succ < 16 ∧ rd < 32 ∧ rs1 < 32)
  | .lr _ _ _ rd rs1 => decide (rd < 32 ∧ rs1 < 32)
  | .sc _ _ _ rd rs1 rs2 => decide (rd < 32 ∧ rs1 < 32 ∧ rs2 < 32)
  | .amo _ _ _ _ rd rs1 rs2 => decide (rd < 32 ∧ rs1 < 32 ∧ rs2 < 32)

/-- The instruction breaks no limit that its words alone can break (R53). -/
def Instr.wellFormed : Instr → Bool
  | .add _ d a b => vReg d && n7 a && n7 b
  | .sub _ d a b => vReg d && n7 a && n7 b
  | .and _ d a b => vReg d && n7 a && n7 b
  | .or _ d a b => vReg d && n7 a && n7 b
  | .xor _ d a b => vReg d && n7 a && n7 b
  | .andn _ d a b => vReg d && n7 a && n7 b
  | .minS32 _ d a b => vReg d && n7 a && n7 b
  | .maxS32 _ d a b => vReg d && n7 a && n7 b
  | .minZ32 _ d a b => vReg d && n7 a && n7 b
  | .maxZ32 _ d a b => vReg d && n7 a && n7 b
  | .addsatS32 _ d a b => vReg d && n7 a && n7 b
  | .subsatS32 _ d a b => vReg d && n7 a && n7 b
  | .addsatZ32 _ d a b => vReg d && n7 a && n7 b
  | .subsatZ32 _ d a b => vReg d && n7 a && n7 b
  | .absd _ d a b => vReg d && n7 a && n7 b
  | .abs _ d a => vReg d && n7 a
  | .shl _ d a b => vReg d && n7 a && n7 b
  | .shr _ d a b => vReg d && n7 a && n7 b
  | .sar _ d a b => vReg d && n7 a && n7 b
  | .rol _ d a b => vReg d && n7 a && n7 b
  | .ror _ d a b => vReg d && n7 a && n7 b
  | .mul _ d a b => vReg d && n7 a && n7 b
  | .mulhS32 _ d a b => vReg d && n7 a && n7 b
  | .mulhZ32 _ d a b => vReg d && n7 a && n7 b
  | .mulhSz32 _ d a b => vReg d && n7 a && n7 b
  | .divS32 _ d a b => vReg d && n7 a && n7 b
  | .divZ32 _ d a b => vReg d && n7 a && n7 b
  | .remS32 _ d a b => vReg d && n7 a && n7 b
  | .remZ32 _ d a b => vReg d && n7 a && n7 b
  | .mad _ d a b => vReg d && n7 a && n7 b
  | .msb _ d a b => vReg d && n7 a && n7 b
  | .clz _ d a => vReg d && n7 a
  | .ctz _ d a => vReg d && n7 a
  | .popc _ d a => vReg d && n7 a
  | .brev _ d a => vReg d && n7 a
  | .bswap _ d a => vReg d && n7 a
  | .sxb _ d a => vReg d && n7 a
  | .sxh _ d a => vReg d && n7 a
  | .zxh _ d a => vReg d && n7 a
  | .bfxS32 _ d a b => vReg d && n7 a && n7 b
  | .bfxZ32 _ d a b => vReg d && n7 a && n7 b
  | .bfi _ d a b => vReg d && n7 a && n7 b
  | .addi _ d a _ => vReg d && n7 a
  | .andi _ d a _ => vReg d && n7 a
  | .ori _ d a _ => vReg d && n7 a
  | .xori _ d a _ => vReg d && n7 a
  | .shi _ d a _ n => vReg d && n7 a && decide (n < 32)
  | .muli _ d a _ => vReg d && n7 a
  | .movl _ d _ => vReg d
  | .addl _ d _ => vReg d
  | .andl _ d _ => vReg d
  | .orl _ d _ => vReg d
  | .lea _ h d a b => decide (h < 8) && vReg d && n7 a && n7 b
  | .icmp _ c k a b => decide (k < 8) && n7 a && n7 b && decide (((c == .ltz || c == .gez) → b = 0))
  | .fcmp _ _ k a b => decide (k < 8) && n7 a && n7 b
  | .sel _ k d a b => decide (k < 8) && vReg d && n7 a && n7 b
  | .mov _ d a => vReg d && n7 a
  | .kbit _ d k => vReg d && decide (k < 8)
  | .tid _ d => vReg d
  | .sysv _ d n => vReg d && decide (n < 128) && decide (n < 4)
  | .fadd _ _ d a b => vReg d && n7 a && n7 b
  | .fsub _ _ d a b => vReg d && n7 a && n7 b
  | .fmul _ _ d a b => vReg d && n7 a && n7 b
  | .ffma _ _ d a b => vReg d && n7 a && n7 b
  | .fmin _ d a b => vReg d && n7 a && n7 b
  | .fmax _ d a b => vReg d && n7 a && n7 b
  | .fminnum _ d a b => vReg d && n7 a && n7 b
  | .fmaxnum _ d a b => vReg d && n7 a && n7 b
  | .fabs _ d a => vReg d && n7 a
  | .fneg _ d a => vReg d && n7 a
  | .fcpys _ d a b => vReg d && n7 a && n7 b
  | .fxsgn _ d a b => vReg d && n7 a && n7 b
  | .fcls _ d a => vReg d && n7 a
  | .cvt _ _ d a src dst => vReg d && n7 a && decide (src ≠ dst)
  | .frnd _ r d a => vReg d && n7 a && decide (r ≠ .rs)
  | .rcp _ d a => vReg d && n7 a
  | .rsq _ d a => vReg d && n7 a
  | .sqrt _ d a => vReg d && n7 a
  | .exp2 _ d a => vReg d && n7 a
  | .log2 _ d a => vReg d && n7 a
  | .sin _ d a => vReg d && n7 a
  | .cos _ d a => vReg d && n7 a
  | .tanh _ d a => vReg d && n7 a
  | .sigm _ d a => vReg d && n7 a
  | .erf _ d a => vReg d && n7 a
  | .gelu _ d a => vReg d && n7 a
  | .silu _ d a => vReg d && n7 a
  | .idx _ d a b => vReg d && n7 a && n7 b
  | .upw _ d a n => vReg d && n7 a && decide (n < 128) && decide (1 ≤ n ∧ n ≤ 7)
  | .dnw _ d a n => vReg d && n7 a && decide (n < 128) && decide (1 ≤ n ∧ n ≤ 7)
  | .xorw _ d a n => vReg d && n7 a && decide (n < 128) && decide (1 ≤ n ∧ n ≤ 7)
  | .rotw _ d a n => vReg d && n7 a && decide (n < 128) && decide (1 ≤ n ∧ n ≤ 7)
  | .xred _ _ d a => vReg d && n7 a
  | .xscn _ _ d a => vReg d && n7 a
  | .ballot _ k a => decide (k < 8) && n7 a
  | .all _ d a => vReg d && n7 a
  | .any _ d a => vReg d && n7 a
  | .uni _ d a => vReg d && n7 a
  | .xbc _ d a b => vReg d && n7 a && n7 b
  | .ld _ wid d a o _ => vReg d && n7 a && decide (o ≠ .release ∧ regGroupOk d (widthRegs wid))
  | .st _ wid d a o _ => n7 d && n7 a && decide (o ≠ .acquire ∧ wid ≠ .s8 ∧ wid ≠ .s16 ∧ regGroupOk d (widthRegs wid))
  | .ldc _ wid d a o _ s => vReg d && n7 a && decide (s < 4) && decide (o ≠ .release ∧ regGroupOk d (widthRegs wid))
  | .stc _ wid d a o _ s => n7 d && n7 a && decide (s < 4) && decide (o ≠ .acquire ∧ wid ≠ .s8 ∧ wid ≠ .s16 ∧ regGroupOk d (widthRegs wid))
  | .ldd _ wid d a o _ => vReg d && n7 a && decide (o ≠ .release ∧ regGroupOk d (widthRegs wid))
  | .std _ wid d a o _ => n7 d && n7 a && decide (o ≠ .acquire ∧ wid ≠ .s8 ∧ wid ≠ .s16 ∧ regGroupOk d (widthRegs wid))
  | .ldg _ wid d a o _ s => vReg d && n7 a && decide (s < 4) && decide (o ≠ .release ∧ regGroupOk d (widthRegs wid))
  | .stg _ wid d a o _ s => n7 d && n7 a && decide (s < 4) && decide (o ≠ .acquire ∧ wid ≠ .s8 ∧ wid ≠ .s16 ∧ regGroupOk d (widthRegs wid))
  | .atomAdd _ d a _ _ p => vReg d && n7 a && decide ((p = .global → a % 2 = 0))
  | .atomXch _ d a _ _ p => vReg d && n7 a && decide ((p = .global → a % 2 = 0))
  | .atomMinS32 _ d a _ _ p => vReg d && n7 a && decide ((p = .global → a % 2 = 0))
  | .atomMaxS32 _ d a _ _ p => vReg d && n7 a && decide ((p = .global → a % 2 = 0))
  | .atomMinZ32 _ d a _ _ p => vReg d && n7 a && decide ((p = .global → a % 2 = 0))
  | .atomMaxZ32 _ d a _ _ p => vReg d && n7 a && decide ((p = .global → a % 2 = 0))
  | .atomAnd _ d a _ _ p => vReg d && n7 a && decide ((p = .global → a % 2 = 0))
  | .atomOr _ d a _ _ p => vReg d && n7 a && decide ((p = .global → a % 2 = 0))
  | .atomXor _ d a _ _ p => vReg d && n7 a && decide ((p = .global → a % 2 = 0))
  | .atomAddB64 _ d a _ _ p => vReg d && n7 a && decide (d % 2 = 0 ∧ (p = .global → a % 2 = 0))
  | .atomXchB64 _ d a _ _ p => vReg d && n7 a && decide (d % 2 = 0 ∧ (p = .global → a % 2 = 0))
  | .atomMinS64 _ d a _ _ p => vReg d && n7 a && decide (d % 2 = 0 ∧ (p = .global → a % 2 = 0))
  | .atomMaxS64 _ d a _ _ p => vReg d && n7 a && decide (d % 2 = 0 ∧ (p = .global → a % 2 = 0))
  | .atomMinZ64 _ d a _ _ p => vReg d && n7 a && decide (d % 2 = 0 ∧ (p = .global → a % 2 = 0))
  | .atomMaxZ64 _ d a _ _ p => vReg d && n7 a && decide (d % 2 = 0 ∧ (p = .global → a % 2 = 0))
  | .atomCasB64 _ d a _ _ p => vReg d && n7 a && decide (d % 2 = 0 ∧ d ≤ 92 ∧ (p = .global → a % 2 = 0))
  | .atomfFadd _ d a _ _ p => vReg d && n7 a && decide ((p = .global → a % 2 = 0))
  | .atomfFmin _ d a _ _ p => vReg d && n7 a && decide ((p = .global → a % 2 = 0))
  | .atomfFmax _ d a _ _ p => vReg d && n7 a && decide ((p = .global → a % 2 = 0))
  | .atomfAddBf16x2 _ d a _ _ p => vReg d && n7 a && decide ((p = .global → a % 2 = 0))
  | .atomoFadd _ d a _ _ p => vReg d && n7 a && decide ((p = .global → a % 2 = 0))
  | .atomoClose _ a _ _ p => n7 a && decide ((p = .global → a % 2 = 0))
  | .cas _ d a _ _ p => vReg d && n7 a && decide (d % 2 = 0 ∧ (p = .global → a % 2 = 0))
  | .pop _ d q => vReg d && decide (q < 8)
  | .popnb _ d k q => vReg d && decide (k < 8) && decide (q < 8)
  | .push _ d q => n7 d && decide (q < 8)
  | .pushnb _ d q => n7 d && decide (q < 8)
  | .swp _ d i => vReg d && decide (i < 4)
  | .swr _ _ d i b => vReg d && decide (i < 4) && n7 b
  | .nop _ => true
  | .yield _ => true
  | .pause _ => true
  | .pauseExpiry _ _ _ => true
  | .uadd _ d a b => n7 d && n7 a && n7 b
  | .usub _ d a b => n7 d && n7 a && n7 b
  | .uand _ d a b => n7 d && n7 a && n7 b
  | .uor _ d a b => n7 d && n7 a && n7 b
  | .uxor _ d a b => n7 d && n7 a && n7 b
  | .uandn _ d a b => n7 d && n7 a && n7 b
  | .uminS32 _ d a b => n7 d && n7 a && n7 b
  | .umaxS32 _ d a b => n7 d && n7 a && n7 b
  | .uminZ32 _ d a b => n7 d && n7 a && n7 b
  | .umaxZ32 _ d a b => n7 d && n7 a && n7 b
  | .uaddsatS32 _ d a b => n7 d && n7 a && n7 b
  | .usubsatS32 _ d a b => n7 d && n7 a && n7 b
  | .uaddsatZ32 _ d a b => n7 d && n7 a && n7 b
  | .usubsatZ32 _ d a b => n7 d && n7 a && n7 b
  | .uabsd _ d a b => n7 d && n7 a && n7 b
  | .uabs _ d a => n7 d && n7 a
  | .ushl _ d a b => n7 d && n7 a && n7 b
  | .ushr _ d a b => n7 d && n7 a && n7 b
  | .usar _ d a b => n7 d && n7 a && n7 b
  | .urol _ d a b => n7 d && n7 a && n7 b
  | .uror _ d a b => n7 d && n7 a && n7 b
  | .umul _ d a b => n7 d && n7 a && n7 b
  | .umulhS32 _ d a b => n7 d && n7 a && n7 b
  | .umulhZ32 _ d a b => n7 d && n7 a && n7 b
  | .umulhSz32 _ d a b => n7 d && n7 a && n7 b
  | .udivS32 _ d a b => n7 d && n7 a && n7 b
  | .udivZ32 _ d a b => n7 d && n7 a && n7 b
  | .uremS32 _ d a b => n7 d && n7 a && n7 b
  | .uremZ32 _ d a b => n7 d && n7 a && n7 b
  | .uaddi _ d a _ => n7 d && n7 a
  | .umovl _ d _ => n7 d
  | .uaddl _ d _ => n7 d
  | .uandl _ d _ => n7 d
  | .uorl _ d _ => n7 d
  | .ulea _ h d a b => decide (h < 8) && n7 d && n7 a && n7 b
  | .ucmp _ c d a b => n7 d && n7 a && n7 b && decide (((c == .ltz || c == .gez) → b = 0))
  | .kand _ kd ka kb => decide (kd < 8) && decide (ka < 8) && decide (kb < 8)
  | .kor _ kd ka kb => decide (kd < 8) && decide (ka < 8) && decide (kb < 8)
  | .kxor _ kd ka kb => decide (kd < 8) && decide (ka < 8) && decide (kb < 8)
  | .kandn _ kd ka kb => decide (kd < 8) && decide (ka < 8) && decide (kb < 8)
  | .knot _ kd ka => decide (kd < 8) && decide (ka < 8)
  | .kfrom _ kd g => decide (kd < 8) && n7 g && decide (gBlockOk g)
  | .kto _ g ka => n7 g && decide (ka < 8) && decide (gBlockOk g)
  | .kpopc _ d ka => n7 d && decide (ka < 8)
  | .umov _ d a => n7 d && n7 a
  | .rdlow _ d ka => n7 d && decide (ka < 8)
  | .rdth _ d a b => n7 d && vReg a && n7 b
  | .bra _ _ => true
  | .brc _ c r _ => n7 r && decide (((c = .kall ∨ c = .kany) → r < 8))
  | .call _ _ => true
  | .ret _ => true
  | .jmpt _ a table => n7 a && decide (1 ≤ table.length ∧ table.length ≤ 128)
  | .callt _ a table => n7 a && decide (1 ≤ table.length ∧ table.length ≤ 128)
  | .bdiv _ k _ reconv => decide (k < 8) && decide (2 ≤ reconv.toNat ∧ reconv.toNat ≤ 131071)
  | .join _ => true
  | .joinl _ => true
  | .disp _ k _ live => decide (k < 8) && decide (popCount live ≤ 14)
  | .exit _ => true
  | .exitg _ => true
  | .loop _ lv cnt len _ _ _ _ _ _ step => decide (lv < 8) && n7 cnt && decide (len < 256) && n7 step && decide (lv < 3 ∧ 1 ≤ len)
  | .lbrk _ c r _ => n7 r && decide (((c = .kall ∨ c = .kany) → r < 8))
  | .spwn _ f n _ => decide (f < 128) && decide (n < 16) && decide (f < 96 ∧ n ≤ 14 ∧ f + n ≤ 96)
  | .spwnf _ _ => true
  | .tspn _ h a => gReg h && n7 a
  | .cpyi _ h a => gReg h && n7 a
  | .cpyo _ h a => gReg h && n7 a
  | .cpyg _ h a b => gReg h && n7 a && n7 b
  | .cpys _ h a b => gReg h && n7 a && n7 b
  | .tmvl _ h a => gReg h && n7 a
  | .cpyx _ h a => gReg h && n7 a
  | .copyTransferStart _ _ => true
  | .rcfg _ d a r => n7 d && n7 a && decide (r < 16)
  | .rawait _ d k r => n7 d && decide (k < 64) && decide (r < 16)
  | .rrel _ k r => decide (k < 64) && decide (r < 16)
  | .rnst _ d r => n7 d && decide (r < 16)
  | .kldj _ h a => gReg h && n7 a
  | .kbias _ h a => gReg h && n7 a
  | .kclamp _ h a => gReg h && n7 a
  | .kseed _ h a => gReg h && n7 a
  | .ksweep _ h a b => gReg h && n7 a && n7 b
  | .sweep _ => true
  | .kread _ h a => gReg h && n7 a
  | .khealth _ h b => gReg h && n7 b
  | .kcal _ h => gReg h
  | .sqcfg _ h a b => gReg h && n7 a && n7 b
  | .sqbeg _ h b => gReg h && n7 b
  | .sqsig _ h t => gReg h && decide (t < 16)
  | .sqmap _ h a b => gReg h && n7 a && n7 b
  | .sqend _ h => gReg h
  | .sqrst _ h b => gReg h && n7 b
  | .fence _ _ _ ks => decide (ks < 128)
  | .cwait _ c n => decide (c < 8) && decide (n < 128)
  | .hwait _ a => n7 a
  | .htest _ d a => n7 d && n7 a
  | .hcancel _ a => n7 a
  | .hstat _ d a => n7 d && n7 a
  | .barT _ id => decide (id < 4)
  | .barTe _ d id => n7 d && decide (id < 4)
  | .barC _ id => decide (id < 2)
  | .barCx _ id => decide (id < 2)
  | .barP _ id => decide (id < 8)
  | .arriveP _ d id => n7 d && decide (id < 8)
  | .waitP _ a => n7 a
  | .packageBarrierRelease _ _ => true
  | .mbatch _ d => n7 d
  | .mwait _ d a => n7 d && n7 a
  | .marg _ n => decide (n < 8)
  | .sysrd _ d n => n7 d && decide (n < 4096) && decide (sysReadable n)
  | .syswr _ d n => n7 d && decide (n < 4096) && decide (sysWritable n)
  | .trap _ c => decide (c < 128)
  | .tret _ => true
  | .brk _ c => decide (c < 128)
  | .itld _ i a => decide (i < 4) && n7 a
  | .itst _ i a => decide (i < 4) && n7 a
  | .qcfg _ a q => n7 a && decide (q < 8)
  | .dreg _ p s a b => decide (p < 4) && decide (s < 8) && n7 a && n7 b && decide (p < 3 ∧ (p = 0 → a % 2 = 0))
  | .dclr _ every s => decide (s < 8) && decide ((every = true → s = 0))
  | .mmaAcc _ c a b _ x y => decide (c < 32) && decide (a < 16) && decide (b < 16) && decide (x < 4) && decide (y < 4)
  | .mmaSet _ c a b _ x y => decide (c < 32) && decide (a < 16) && decide (b < 16) && decide (x < 4) && decide (y < 4)
  | .mmaSub _ c a b _ x y => decide (c < 32) && decide (a < 16) && decide (b < 16) && decide (x < 4) && decide (y < 4)
  | .mmah _ a => n7 a
  | .mmag _ a => n7 a
  | .matrixOperationBegin _ _ _ => true
  | .batchEnd _ _ _ => true
  | .tcfg _ t dup axis cols rows wd => decide (t < 16) && decide (dup < 64) && decide (cols < 8) && decide (rows < 256) && decide (wd < 8) && decide (wd < 7 ∧ tcfgOk dup axis cols rows)
  | .tmovi _ t a _ => decide (t < 16) && n7 a
  | .tmovo _ t a _ => decide (t < 16) && n7 a
  | .tzero _ t => decide (t < 16)
  | .azero _ n b => decide (n < 32) && n7 b
  | .adrn _ _ n a b => decide (n < 32) && n7 a && n7 b
  | .afil _ n a b => decide (n < 32) && n7 a && n7 b
  | .tdmap _ t a => decide (t < 16) && n7 a
  | .aact _ _ d s _ => decide (d < 32) && decide (s < 32)
  | .aadd _ _ d s t => decide (d < 32) && decide (s < 32) && decide (t < 32)
  | .aemul _ _ d s t => decide (d < 32) && decide (s < 32) && decide (t < 32)
  | .ascal _ _ d s g => decide (d < 32) && decide (s < 32) && n7 g
  | .abias _ _ d s g => decide (d < 32) && decide (s < 32) && n7 g
  | .arsum _ _ d s => decide (d < 32) && decide (s < 32)
  | .armax _ _ d s => decide (d < 32) && decide (s < 32)
  | .acpy _ _ d s => decide (d < 32) && decide (s < 32)
  | .recon _ a _ _ => n7 a
  | .recoff _ => true
  | .rmark _ d => n7 d
  | .trvs _ d a => n7 d && n7 a
  | .rlog _ a => n7 a
  | .rgrad _ v c => decide (v < 128) && decide (c < 128) && decide (rgradOk v c)
  | .rstat _ d n => n7 d && decide (n < 128) && decide (n < 3)
  | .callr _ h a => gReg h && n7 a
  | .crsct _ h a => gReg h && n7 a
  | .cagth _ h a => gReg h && n7 a
  | .ca2a _ h a => gReg h && n7 a
  | .cbcst _ h a => gReg h && n7 a
  | .cstat _ d n => gReg d && decide (n < 128) && decide (d ≠ 96 ∧ n < 3)
  | .headerExchange _ _ _ _ => true
  | .collectiveTimeout _ _ => true
  | .variableLatencyResult _ _ _ _ => true
  | .operationRetire _ _ _ => true
  | .faultResponse _ => true
  | .hcpyCpyi rd rs1 => decide (rd < 32) && decide (rs1 < 32)
  | .hcpyCpyo rd rs1 => decide (rd < 32) && decide (rs1 < 32)
  | .hcpyCpyg rd rs1 rs2 => decide (rd < 32) && decide (rs1 < 32) && decide (rs2 < 32)
  | .hcpyCpys rd rs1 rs2 => decide (rd < 32) && decide (rs1 < 32) && decide (rs2 < 32)
  | .hcpyTmvl rd rs1 => decide (rd < 32) && decide (rs1 < 32)
  | .hcpyCpyx rd rs1 => decide (rd < 32) && decide (rs1 < 32)
  | .hringAwait rd rs1 rs2 => decide (rd < 32) && decide (rs1 < 32) && decide (rs2 < 32)
  | .hringRel rd rs1 rs2 => decide (rd < 32) && decide (rs1 < 32) && decide (rs2 < 32)
  | .hringStat rd rs2 => decide (rd < 32) && decide (rs2 < 32)
  | .hqPop rd rs2 => decide (rd < 32) && decide (rs2 < 32)
  | .hqPopnb rd rs2 => decide (rd < 32) && decide (rs2 < 32)
  | .hqPush rs1 rs2 => decide (rs1 < 32) && decide (rs2 < 32)
  | .hqPushnb rd rs1 rs2 => decide (rd < 32) && decide (rs1 < 32) && decide (rs2 < 32)
  | .hwtWait rd rs1 => decide (rd < 32) && decide (rs1 < 32)
  | .hwtTest rd rs1 => decide (rd < 32) && decide (rs1 < 32)
  | .hwtCnt rd => decide (rd < 32)
  | .hwtCancel rd rs1 => decide (rd < 32) && decide (rs1 < 32)
  | .hodInstruction _ i => i.wellFormed
  | .ecall => true
  | .ebreak _ => true
  | .reservationExpiry _ _ => true
  | .start _ _ => true
  | .stop _ _ => true
  | .release _ _ => true
  | .launch _ _ => true
  | .task _ _ => true
  | .waitValue _ _ => true
  | .waitValueRecheck _ _ => true
  | .signal _ _ => true
  | .barrier _ _ => true
  | .contextCreate _ _ => true
  | .contextDestroy _ _ => true
  | .resume _ _ => true
  | .teamPlacement _ _ => true
  | .launchEnd _ => true
  | .spawnTimeout _ _ => true
  | .handOverStallFlush _ _ => true
  | .epoch _ => true
  | .spawnTeamStart _ _ _ => true
  | .taskStart _ _ _ => true
  | .taskCommit _ _ => true
  | .preemptionRequest _ _ _ _ _ _ => true
  | .drainBoundExpiry _ _ _ => true
  | .restore _ _ => true
  | .timesliceRotation _ => true
  | .peerUnreachable _ => true
  | .laneFailure _ => true
  | .portFailure _ => true
  | .flitResend _ => true
  | .translationInvalidation _ => true
  | .preEmpt _ _ _ => true
  | .returnToService _ => true
  | .computeReset _ => true
  | .fullReset _ => true
  | .firmwareUpdate _ _ _ => true
  | .firmwareHeartbeat => true
  | .heartbeatTimeout => true
  | .securityWrite _ => true
  | .halt _ => true
  | .freeze _ => true
  | .debugResume _ => true
  | .bpen _ => true
  | .powerGood _ _ => true
  | .throttling _ => true
  | .illegalInstruction _ _ => true
  | .moduleReset => true
  | .comparatorDrift _ => true
  | .hostAccess _ _ _ => true
  | .peerAccess _ _ _ => true
  | .faultRingRptrAdvance _ _ => true
  | .spdmSession _ _ => true
  | .debugAttach _ _ => true

end Sys2Proof
end

