-- ==== Sys2Proof/Machine/Late.lean ====
section
/-!
DEFINITION. Accesses that have issued and are not performed: what a load yields (R195) and an atomic leaves (R198 to
R204), which of two accesses of an agent comes first (R196, R198, R211, R212), and performing one, whole or by its
indivisible pieces (R181, R219, R220).
-/

namespace Sys2Proof.Machine

/-! ### Loads (R55, R195) -/

/-- The bytes and registers of a width (R55). -/
def widthBytes : Width → Nat
  | .b8 | .s8 => 1
  | .b16 | .s16 => 2
  | .b32 => 4
  | .b64 => 8
  | .b128 => 16
/-- A loaded value as registers (R195). -/
def widen (w : Width) (bytes : List Byte) : List W32 :=
  match w with
  | .s8 => [BitVec.ofInt 32 (signedOf 8 (leNat bytes))]
  | .s16 => [BitVec.ofInt 32 (signedOf 16 (leNat bytes))]
  | _ => (List.range (widthRegs w)).map fun i => BitVec.ofNat 32 (field bytes (4 * i) 4)

/-! ### Atomics (R199 to R202) -/

/-- The bytes of the location. -/
def AtomOp.size : AtomOp → Nat
  | .addB64 | .xchB64 | .minS64 | .maxS64 | .minZ64 | .maxZ64 | .casB64 => 8
  | _ => 4
/-- The operand registers, from d up: the value, and for a compare and swap what it compares with. -/
def AtomOp.regs : AtomOp → Nat
  | .addB64 | .xchB64 | .minS64 | .maxS64 | .minZ64 | .maxZ64 | .cas => 2
  | .casB64 => 4
  | _ => 1
/-- Host memory takes the form (R202). -/
def AtomOp.supported : AtomOp → Bool
  | .add | .xch | .addB64 | .xchB64 | .cas | .casB64 => true
  | _ => false
/-- An unordered floating-point sum, which deterministic mode refuses (R201). -/
def AtomOp.unordered : AtomOp → Bool
  | .fadd | .addBf16 => true
  | _ => false

/-- The bf16 sum of half i of two packed values (R201). -/
def bf16Sum (a b i : Nat) : Nat := (fpAdd bf16 0 (a / 2 ^ (16 * i) % 2 ^ 16) (b / 2 ^ (16 * i) % 2 ^ 16)).1 % 2 ^ 16

/-- The new value of a location from the operand registers and the old value (R199 to R201: FPMODE zero, no flags). -/
def AtomOp.value (op : AtomOp) (args : List W32) (old : Nat) : Nat :=
  let a : W32 := args.getD 0 0
  let m : W32 := BitVec.ofNat 32 old
  let p : W64 := args.getD 1 0 ++ a
  let n : W64 := BitVec.ofNat 64 old
  match op with
  | .add => (m + a).toNat
  | .xch => a.toNat
  | .minS32 => (if m.slt a then m else a).toNat
  | .maxS32 => (if m.slt a then a else m).toNat
  | .minZ32 => (if m.ult a then m else a).toNat
  | .maxZ32 => (if m.ult a then a else m).toNat
  | .and => (m &&& a).toNat
  | .or => (m ||| a).toNat
  | .xor => (m ^^^ a).toNat
  | .addB64 => (n + p).toNat
  | .xchB64 => p.toNat
  | .minS64 => (if n.slt p then n else p).toNat
  | .maxS64 => (if n.slt p then p else n).toNat
  | .minZ64 => (if n.ult p then n else p).toNat
  | .maxZ64 => (if n.ult p then p else n).toNat
  | .cas => if old = (args.getD 1 0).toNat then a.toNat else old
  | .casB64 => if old = (args.getD 3 0 ++ args.getD 2 0 : W64).toNat then p.toNat else old
  | .fadd => (fpAdd f32 0 old a.toNat).1
  | .fmin => (fpMinMax false false 0 old a.toNat).1
  | .fmax => (fpMinMax true false 0 old a.toNat).1
  | .addBf16 => bf16Sum old a.toNat 0 + bf16Sum old a.toNat 1 * 2 ^ 16

/-- An old value in registers. -/
def oldRegs (size old : Nat) : List W32 := (List.range (size / 4)).map fun i => BitVec.ofNat 32 (old / 2 ^ (32 * i))

/-! ### Ordered atomics (R204) -/

/-- Inserts a contribution after those of equal or lower key, so that equal keys keep their staging order. -/
def insertStaged (e : Staged) : List Staged → List Staged
  | [] => [e]
  | x :: rest => if e.key < x.key then e :: x :: rest else x :: insertStaged e rest
/-- Contributions in ascending key, then ascending sequence (R204). -/
def sortStaged (l : List Staged) : List Staged := l.foldl (fun acc e => insertStaged e acc) []

/-- Folds what is staged for one target, as one indivisible access (R204). -/
def State.closeTarget (s : State) (keys : List Nat) : State :=
  let target := keys.headD 0
  let mine := sortStaged (s.staging.filter fun e => e.target = target)
  let v := mine.foldl (fun v e => (fpAdd f32 0 v e.value.toNat).1) (leNat (s.gather keys))
  ({ s with staging := s.staging.filter fun e => e.target ≠ target }).scatter (keys.zip (leBytes 4 v))

/-! ### Which access comes first (R196, R198, R211, R212) -/

/-- Not a fence or mark. -/
def Late.isAccess (e : Late) : Bool :=
  match e.work with
  | .fence _ | .mark _ => false
  | _ => true
/-- It reads, and it writes; an atomic does both (R212), and a contribution counts as a write. -/
def Late.reads (e : Late) : Bool :=
  match e.work with
  | .load .. | .sweep .. | .hodLoad .. | .atomic .. | .amo .. | .close => true
  | _ => false
def Late.writes (e : Late) : Bool :=
  match e.work with
  | .store _ | .atomic .. | .amo .. | .stage _ | .close => true
  | _ => false
/-- A plain load, which may read what memory was (R214). -/
def Late.plainRead (e : Late) : Bool :=
  match e.work with
  | .load .. | .sweep .. | .hodLoad .. => e.order != .sc
  | _ => false
/-- An acquire read, and a release write; an sc access is both (R211). -/
def Late.acquires (e : Late) : Bool := e.reads && (e.order == .acquire || e.order == .sc)
def Late.releases (e : Late) : Bool := e.writes && (e.order == .release || e.order == .sc)
/-- The row of R211 that a touches a byte that b touches. -/
def Late.meets (a b : Late) : Bool := a.places.any b.places.contains

/-- Access a, issued earlier, is performed before b whoever looks on: accesses of a thread to one byte, writes of one instruction to one
byte in ascending thread order (R196, R198), what follows an acquire read, and what stands on either side of an sc access (R211,
R218). A release write may be performed before what it orders, as long as nobody can tell (owedIn). -/
def Late.comesFirst (a b : Late) : Bool :=
  a.isAccess && b.isAccess &&
    ((a.thread == b.thread || (a.stamp == b.stamp && a.writes && b.writes)) && a.meets b ||
      a.thread == b.thread && (a.acquires || a.order == .sc || b.order == .sc))

/-- The listed accesses that come before what is needed: those that pick takes; those of the threads of mask; and those that come
before one of need or before one of these, by comesFirst, by a release write of their thread, or by a release or sc fence before a
write of its threads (R211, R212). It answers for each whether it is one, with the threads and accesses needed so far. -/
def owedIn (pick : Late → Bool) (mask : Mask) (need : List Late) : List Late → List Bool × Mask × List Late
  | [] => ([], mask, need)
  | e :: rest =>
    let (fs, mask, need) := owedIn pick mask need rest
    match e.work with
    | .fence ts =>
      if mask &&& ts != 0 || need.any fun k => k.writes && ts.getLsbD k.thread then (false :: fs, mask ||| ts, need)
      else (false :: fs, mask, need)
    | .mark _ => (false :: fs, mask, need)
    | _ =>
      if pick e || mask.getLsbD e.thread || need.any (fun k => e.comesFirst k || k.releases && k.thread == e.thread) then
        (true :: fs, mask, e :: need)
      else (false :: fs, mask, need)
/-- Which accesses of a list they are. -/
def owedFlags (pick : Late → Bool) (mask : Mask) (need l : List Late) : List Bool := (owedIn pick mask need l).1
/-- The accesses of threads of a mask that a list holds, with what comes before them. -/
def owedBy (mask : Mask) (l : List Late) : List Bool := owedFlags (fun _ => false) mask [] l
/-- The accesses of a list, which issued before write e, that e orders and that may come after it. -/
def Late.owing (e : Late) (before : List Late) : List Late :=
  ((owedFlags (fun _ => false) (if e.releases then BitVec.twoPow 64 e.thread else 0) [e] before).zip before).filterMap fun p =>
    if p.1 then some p.2 else none

/-- Fences and marks of which no access is left are over. -/
def trimLate (seen : List Late) : List Late → List Late
  | [] => []
  | e :: rest =>
    match e.work with
    | .fence ts | .mark ts =>
      if (owedBy ts seen).any id then e :: trimLate (seen ++ [e]) rest else trimLate seen rest
    | _ => e :: trimLate (seen ++ [e]) rest

/-- The mark of write e for the accesses of threads ts that stand before it, at a scope (R213). -/
def Late.markFor (e : Late) (ts : Mask) (c : Scope) : Late := { e with order := .release, scope := c, work := .mark ts }
/-- The marks that write e leaves behind release and sc fences of its thread (R212, R213). -/
def Late.fenceMarks (e : Late) (seen : List Late) : List Late → List Late
  | [] => []
  | f :: rest =>
    match f.work with
    | .fence ts =>
      if ts.getLsbD e.thread && (owedBy ts seen).any id then f :: e.markFor ts f.scope :: e.fenceMarks (seen ++ [f]) rest
      else f :: e.fenceMarks (seen ++ [f]) rest
    | _ => f :: e.fenceMarks (seen ++ [f]) rest
/-- A list in which write e, its entry of number ix, has left its marks: after fences of its thread, and for a release write before it. -/
def Late.withMarks (e : Late) (ix : Nat) (l : List Late) : List Late :=
  let marked := l.any fun m => !m.isAccess && m.stamp == e.stamp && m.thread == e.thread && m.places != []
  if marked || !e.writes then l
  else
    let before := l.take ix
    let own := if e.releases && (owedBy (BitVec.twoPow 64 e.thread) before).any id then [e.markFor (BitVec.twoPow 64 e.thread) e.scope] else []
    e.fenceMarks [] before ++ own ++ l.drop ix

/-! ### Performing (R181, R219, R220) -/

/-- What performing does to an access: the state, what is left of it, and the registers and flags that its agent is to receive. -/
structure Performed where
  s : State
  left : Option Late
  regs : List (Nat × W32)
  flags : Flags
deriving DecidableEq, Repr, Inhabited

/-- The registers from d up with their values. -/
def regsFrom (d : Nat) (vals : List W32) : List (Nat × W32) := vals.zipIdx.map fun p => (d + p.2, p.1)
/-- The halves of x rd. -/
def hodRegs (rd : Nat) (v : W64) : List (Nat × W32) := [(rd, lowWord v), (rd + 32, highWord v)]

/-- A load once it has read those of its bytes that are due. -/
def readDue (mem : Memory) (places : List Nat) (due : Nat → Bool) (got : List (Option Byte)) : List (Option Byte) :=
  got.zipIdx.map fun p => if p.1.isNone && due p.2 then some (mem.byte (places.getD p.2 0)) else p.1
/-- What a load has read, once that is all. -/
def allRead (got : List (Option Byte)) : Option (List Byte) :=
  if got.all Option.isSome then some (got.map (·.getD 0)) else none
/-- The values of the elements that a sweep has read, each of n bytes. -/
def elementsOf (elem : Nat) (b : List Byte) : List W64 :=
  let n := elemBytes elem
  (List.range (b.length / n)).map fun i => widenElement elem ((b.drop (n * i)).take n)

/-- The key of a hod. -/
def hodKey (core : Nat) (store : Bool) : Nat := 2 * core + store.toNat
/-- Performs the store of an agent. -/
def State.scatterBy (s : State) (a : Actor) (l : List (Nat × Byte)) : State :=
  match a with
  | .hod core store => l.foldl (fun s p => s.storeByHod (hodKey core store) p.1 [p.2]) s
  | _ => s.scatter l

/-- Performs one piece of an access, or all that is left of it: of a load, what lies in an aligned 8-byte word; of a sweep, an element;
of a store, what lies in the next 32-byte sector; anything else whole. Plain loads read mem. -/
def Late.perform (e : Late) (a : Actor) (piece : Option Nat) (mem : Memory) (s : State) : Performed :=
  let word (i : Nat) : Bool := piece.all fun k => decide ((e.addr + i) / 8 - e.addr / 8 = k)
  match e.work with
  | .load w d got =>
    let got := readDue mem e.places word got
    match allRead got with
    | some b => ⟨s, none, regsFrom d (widen w b), 0⟩
    | none => ⟨s, some { e with work := .load w d got }, [], 0⟩
  | .hodLoad w rd got =>
    let got := readDue mem e.places word got
    match allRead got with
    | some b => ⟨s, none, hodRegs rd (rvLoaded w (leNat b)), 0⟩
    | none => ⟨s, some { e with work := .hodLoad w rd got }, [], 0⟩
  | .sweep o elem d fpmode acc got =>
    let got := readDue mem e.places (fun i => piece.all fun k => decide (i / elemBytes elem = k)) got
    match allRead got with
    | some b =>
      let r := sweepRank o fpmode acc (elementsOf elem b)
      ⟨s, none, regsFrom d (if o = none ∧ elem = 3 then [lowWord r.1, highWord r.1] else [lowWord r.1]), r.2⟩
    | none => ⟨s, some { e with work := .sweep o elem d fpmode acc got }, [], 0⟩
  | .store bytes =>
    let n := if piece.isSome then min bytes.length (32 - e.addr % 32) else bytes.length
    let s := s.scatterBy a ((e.places.take n).zip (bytes.take n))
    if bytes.length ≤ n then ⟨s, none, [], 0⟩
    else ⟨s, some { e with addr := e.addr + n, places := e.places.drop n, work := .store (bytes.drop n) }, [], 0⟩
  | .atomic op args d =>
    let old := leNat (s.gather e.places)
    ⟨s.scatter (e.places.zip (leBytes op.size (op.value args old))), none, regsFrom d (oldRegs op.size old), 0⟩
  | .amo op dword v rd =>
    let old := leNat (s.gather e.places)
    ⟨s.scatterBy a (e.places.zip (leBytes (if dword then 8 else 4) (amoBytes op dword old v))), none, hodRegs rd (amoLoaded dword old), 0⟩
  | .stage c => ⟨{ s with staging := s.staging ++ [c] }, none, [], 0⟩
  | .close => ⟨s.closeTarget e.places, none, [], 0⟩
  | .fence _ | .mark _ => ⟨s, none, [], 0⟩

/-- The registers and flags that a thread is to receive join the result of their instruction. -/
def Group.receive (g : Group) (e : Late) (regs : List (Nat × W32)) (fl : Flags) : Group :=
  { g with pend := g.pend.map fun p =>
    if p.stamp = e.stamp then
      { p with vals := regs.foldl (fun m r => m.set (r.1 * 64 + e.thread) r.2) p.vals, flags := p.flags ||| fl } else p }
/-- A hod receives the register of a load or AMO. -/
def Hod.receive (h : Hod) (regs : List (Nat × W32)) : Hod :=
  match regs with
  | [(rd, lo), (_, hi)] => if rd = 0 then h else { h with x := h.x.setZ rd (hi ++ lo) }
  | _ => h

/-- The threads whose access of instruction number n is not performed, so that no value of it can land. -/
def Group.outstanding (g : Group) (n : Nat) : Mask :=
  g.late.foldl (fun k e => if e.stamp = n ∧ e.isAccess then k ||| BitVec.twoPow 64 e.thread else k) 0

end Sys2Proof.Machine
end

