-- ==== Sys2Proof/Machine/Accesses.lean ====
section
/-!
DEFINITION. When the accesses that agents have left behind are performed: the scopes of agents (R208, R209), what a load may still
read (R214), what an acquire must find performed (R213, R218), and the performing of one access, of those that an instruction
awaits, and of all.
-/

namespace Sys2Proof.Machine

/-! ### Agents and scopes (R208, R209, R478) -/

/-- The core that an agent belongs to. -/
def Actor.core : Actor → Option Nat
  | .group core _ | .hod core _ => some core
  | .host | .peer => none
/-- The team of a group, or the team that claims a hod. -/
def State.actorTeam (s : State) : Actor → Option Nat
  | .group core slot => (s.groups.find (slotKey core slot)).map (·.team)
  | .hod core store => (s.hods.find (hodKey core store)).bind (·.claim)
  | .host | .peer => none
/-- The team scope of x has y: the groups of its team, and the hods of its core. -/
def State.inTeam (s : State) (x y : Actor) : Bool :=
  match y with
  | .hod core _ => x.core == some core
  | _ => (s.actorTeam x).isSome && s.actorTeam x == s.actorTeam y
/-- y is a group of another team of x's cluster. -/
def State.inCluster (s : State) (x y : Actor) : Bool :=
  match y, s.actorTeam x, s.actorTeam y with
  | .group _ _, some u, some w => (s.teams.find u).any fun t => (t.ownHalf ++ t.otherHalf).contains w
  | _, _, _ => false
/-- Scope c of agent x includes y. -/
def State.includes (s : State) (c : Scope) (x y : Actor) : Bool :=
  x == y ||
    match c with
    | .group => false
    | .team => s.inTeam x y
    | .cluster => s.inTeam x y || s.inCluster x y
    | .die => x.core.any fun p => y.core.any fun q => dieOf p == dieOf q
    | .module => x != .peer && y != .peer
    | .domain => true

/-! ### What agents have left behind -/

/-- The accesses of an agent that are not performed. -/
def State.lateOf (s : State) : Actor → List Late
  | .group core slot => ((s.groups.find (slotKey core slot)).map (·.late)).getD []
  | .hod core store => ((s.hods.find (hodKey core store)).map (·.late)).getD []
  | .host | .peer => []
/-- What memory was, as an agent may still see it. -/
def State.viewsOf (s : State) : Actor → List View
  | .group core slot => ((s.groups.find (slotKey core slot)).map (·.views)).getD []
  | .hod core store => ((s.hods.find (hodKey core store)).map (·.views)).getD []
  | .host | .peer => []
def State.setLate (s : State) (a : Actor) (l : List Late) : State :=
  match a with
  | .group core slot => { s with groups := s.groups.modify (slotKey core slot) fun g => { g with late := l } }
  | .hod core store => { s with hods := s.hods.modify (hodKey core store) fun h => { h with late := l } }
  | .host | .peer => s
def State.setViews (s : State) (a : Actor) (l : List View) : State :=
  match a with
  | .group core slot => { s with groups := s.groups.modify (slotKey core slot) fun g => { g with views := l } }
  | .hod core store => { s with hods := s.hods.modify (hodKey core store) fun h => { h with views := l } }
  | .host | .peer => s
/-- The agents that can leave accesses behind. -/
def State.actors (s : State) : List Actor :=
  s.groups.keys.map (fun k => .group (k / 64) (k % 64)) ++ s.hods.keys.map fun k => .hod (k / 2) (k % 2 == 1)

/-! ### What loads may still read (R211, R214) -/

/-- A view serves access e: its thread may read it, and has seen no later state of a byte of e. -/
def View.serves (v : View) (e : Late) : Bool :=
  v.threads.getLsbD e.thread && e.places.all fun p => !v.seen.contains (e.thread, p)
/-- Views without the given threads. -/
def dropViews (ts : Mask) (l : List View) : List View :=
  (l.map fun v => { v with threads := v.threads &&& ~~~ts }).filter fun v => v.threads != 0
/-- Views after access e has seen view number src, or memory itself where there is none: its thread sees no earlier state of its bytes
any more (R211), and after an acquire nothing earlier at all (R213). -/
def viewsAfter (e : Late) (src : Nat) (l : List View) : List View :=
  let l := l.zipIdx.map fun p => if p.2 < src then { p.1 with seen := e.places.map (fun k => (e.thread, k)) ++ p.1.seen } else p.1
  if e.acquires then dropViews (BitVec.twoPow 64 e.thread) l else l
/-- Nobody sees an earlier state of memory any more. -/
def State.forgetViews (s : State) : State := s.actors.foldl (fun s a => if s.viewsOf a = [] then s else s.setViews a []) s
/-- The threads of an agent whose loads may read what memory is now, until something orders them after more: those of fragments that do
not wait for others. -/
def State.viewers (s : State) : Actor → Mask
  | .group core slot =>
    ((s.groups.find (slotKey core slot)).map fun g =>
      g.frags.foldl (fun m f => if f.wait = .none then m ||| f.threads else m) 0).getD 0
  | .hod _ _ => 1
  | .host | .peer => 0
/-- The turn that takes a view. -/
def State.takeView (s : State) (a : Actor) : State :=
  if s.viewers a = 0 then s else s.setViews a (s.viewsOf a ++ [⟨s.mem, s.viewers a, []⟩])

/-! ### Performing one access -/

/-- Access number ix of an agent is performed, or its piece; a plain load reads view number src if that serves it, else memory. -/
def State.performAt (s : State) (a : Actor) (ix : Nat) (piece : Option Nat) (src : Nat) : State :=
  match (s.lateOf a)[ix]? with
  | none => s
  | some e =>
    let vs := s.viewsOf a
    let served := e.plainRead && (vs[src]?).any fun v => v.serves e
    let p := e.perform a piece (if served then ((vs[src]?).map (·.mem)).getD s.mem else s.mem) s
    let late := match p.left with
      | some e' => (s.lateOf a).set ix e'
      | none => (s.lateOf a).eraseIdx ix
    let s := (p.s.setLate a late).setViews a (viewsAfter e (if served then src else vs.length) vs)
    match a with
    | .group core slot => { s with groups := s.groups.modify (slotKey core slot) fun g => g.receive e p.regs p.flags }
    | .hod core store => { s with hods := s.hods.modify (hodKey core store) fun h => h.receive p.regs }
    | _ => s

/-- Fences and marks of which nothing is left go. -/
def State.trim (s : State) (a : Actor) : State := s.setLate a (trimLate [] (s.lateOf a))

/-- The name of an access among those of its agent. -/
def Late.name (e : Late) : Nat × Nat := (e.stamp, e.thread)
/-- The place of a named access in a list. -/
def findLate (n : Nat × Nat) (l : List Late) : Option Nat := l.findIdx? fun e => e.isAccess && e.name == n
/-- The names of the flagged accesses. -/
def namesOf (fs : List Bool) (l : List Late) : List (Nat × Nat) :=
  (fs.zip l).filterMap fun p => if p.1 then some p.2.name else none

/-- A byte of a core's unit store lies in a sector that an entry of the range scoreboard covers (R28). -/
def State.covered (s : State) (key : Nat) : Bool :=
  s.scoreboard.any fun e => e.spans.any fun p =>
    decide (unitKey e.core (32 * p.1) ≤ key) && decide (key < unitKey e.core (32 * p.2))

/-- Performs named accesses of an agent whole; none while a copy is writing where one goes (R28). -/
def State.performNamed (a : Actor) : List (Nat × Nat) → State → Option State
  | [], s => some (s.trim a)
  | n :: rest, s =>
    match findLate n (s.lateOf a) with
    | none => State.performNamed a rest s
    | some ix =>
      if (((s.lateOf a)[ix]?).map fun e => e.places.any s.covered).getD false then none
      else State.performNamed a rest (s.performAt a ix none (s.viewsOf a).length)

/-! ### Acquires (R213, R218) -/

/-- The threads whose accesses before entry e of y an acquire by x at scope c has to find performed: those of a mark of the bytes read
(of any, where the bytes are not given), and for an sc access or fence those of an earlier sc fence, if each scope includes the
other agent. -/
def State.claims (s : State) (x : Actor) (c : Scope) (places : Option (List Nat)) (sc : Bool) (y : Actor) (e : Late) : Mask :=
  let near := s.includes e.scope y x && s.includes c x y
  match e.work with
  | .mark ts => if near && places.all fun l => e.places.any l.contains then ts else 0
  | .fence ts => if near && sc && e.order == .sc then ts else 0
  | _ => 0
/-- The accesses of y that an acquire has to find performed. -/
def State.claimed (s : State) (x : Actor) (c : Scope) (places : Option (List Nat)) (sc : Bool) (y : Actor) : List (Nat × Nat) :=
  let l := s.lateOf y
  let flags := l.zipIdx.map fun p => owedBy (s.claims x c places sc y p.1) (l.take p.2)
  namesOf ((List.range l.length).map fun i => flags.any fun f => f.getD i false) l
/-- The state once an acquire by x at scope c finds performed what it must; none while a copy keeps some of that back. -/
def State.acquire (s : State) (x : Actor) (c : Scope) (places : Option (List Nat)) (sc : Bool) : Option State :=
  s.actors.foldl (fun o y => o.bind fun s =>
    match s.claimed x c places sc y with
    | [] => some s
    | l => State.performNamed y l s) (some s)

/-! ### What an instruction or a turn performs -/

/-- A named access of an agent is performed, or its piece, after what it acquires; none while a copy is writing where something of it
goes (R28). -/
def State.act (s : State) (a : Actor) (n : Nat × Nat) (piece : Option Nat) (src : Nat) : Option State :=
  match (findLate n (s.lateOf a)).bind fun ix => (s.lateOf a)[ix]? with
  | none => some s
  | some e =>
    (if e.acquires then s.acquire a e.scope (some e.places) (e.order == .sc) else some s).bind fun s =>
      match findLate n (s.lateOf a) with
      | none => some s
      | some ix =>
        if e.places.any s.covered then none
        else
          let l := e.withMarks ix (s.lateOf a)
          let s := s.setLate a l
          some ((s.performAt a ((findLate n l).getD ix) piece src).trim a)
/-- The same for a list of them, each whole. -/
def State.actAll (a : Actor) : List (Nat × Nat) → State → Option State
  | [], s => some s
  | n :: rest, s => (s.act a n none (s.viewsOf a).length).bind (State.actAll a rest)

/-- The turn of an access that has issued: it is performed, or its piece, once what comes first has been. A write is not performed
before an acquire that it orders, so that an acquire never waits for another. -/
def State.performTurn (s : State) (a : Actor) (ix piece src : Nat) : State :=
  match (s.lateOf a)[ix]? with
  | none => s
  | some e =>
    let before := (s.lateOf a).take ix
    if e.isAccess && before.all (fun k => !k.comesFirst e) && !(e.writes && (e.owing before).any Late.acquires) then
      (s.act a e.name (some piece) src).getD s
    else s

/-- The state once every access that threads of an agent have issued, and what comes before them, is performed. -/
def State.drain (s : State) (a : Actor) (threads : Mask) : Option State :=
  State.actAll a (namesOf (owedBy threads (s.lateOf a)) (s.lateOf a)) s
/-- The same for those of a kind. -/
def State.drainSome (s : State) (a : Actor) (pick : Late → Bool) : Option State :=
  State.actAll a (namesOf (owedFlags pick 0 [] (s.lateOf a)) (s.lateOf a)) s

/-- Every access that an agent has issued is performed, and nothing of them is left. -/
def State.finishAll (s : State) (a : Actor) : State :=
  if s.lateOf a = [] then s
  else
    (((s.lateOf a).filter Late.isAccess).foldl (fun s e =>
      match findLate e.name (s.lateOf a) with
      | none => s
      | some ix => s.performAt a ix none (s.viewsOf a).length) s).setLate a []

end Sys2Proof.Machine
end

