-- ==== Sys2Proof/Machine/Logs.lean ====
section
/-!
DEFINITION. The logs of record mode as the adjoint engine keeps them: segment headers (R319), entries (R320) with their
saved data (R321), the entries that acceptance writes with the producer and origin tables (R322, R342), and leaving a
log (R329).
-/

namespace Sys2Proof.Machine

/-! ### Values, images and items (R280, R298, R321) -/

/-- No index or offset. -/
def noIndex : Nat := 0xFFFFFFFF

/-- Bytes of the canonical image of a tile (R233). -/
def TileShape.imageSize (sh : TileShape) : Nat :=
  32 + (if sh.mapped then 32 else 0) + pad32 (sh.rows * sh.cols / 32) + pad32 (sh.rows * sh.cols)
/-- Bytes of an item, in whole sectors (R321). -/
def LogItem.size : LogItem → Nat
  | .tile _ sh => sh.imageSize
  | .acc _ rows cols => 32 + rows * cols * 4
  | .indices _ rows _ => pad32 (rows * 2)
  | .desc b => b.length
  | .part _ sh => sh.imageSize
  | .tileMap _ => 32
  | .carry rows cols => rows * cols * 4
/-- Bytes of an entry's saved data. -/
def itemsSize (l : List LogItem) : Nat := (l.map LogItem.size).foldl (· + ·) 0
/-- The value ids that an entry's operation writes; a reuse entry writes none. -/
def LogPlan.writes (p : LogPlan) : List Nat :=
  if p.entry.kind = 1 then (if p.entry.dst ≠ 0xFF then [p.entry.dst] else []) ++ p.also else []
/-- An operation's need (R325). -/
def LogPlan.need (p : LogPlan) : Nat := 32 + itemsSize p.items

/-! ### Places in a log -/

/-- The place of offset off of a team's unit store (space 0) or die-store window (space 1). -/
def State.storeKey (s : State) (t : Team) (space off : Nat) : Nat :=
  if space = 0 then unitKey t.core (t.base + off)
  else
    let base := ((s.launches.find t.launch).bind fun l => l.windows.find (dieOf t.core)).getD 0
    dieKey (dieOf t.core) (base + off)
/-- The bytes of that store that a team may name. -/
def State.storeEnd (s : State) (t : Team) (space : Nat) : Nat :=
  if space = 0 then t.kernel.unit else ((s.launches.find t.launch).map (·.dieWin)).getD 0
/-- Bytes of such a store. -/
def State.storeRead (s : State) (t : Team) (space off n : Nat) : List Byte := s.mem.bytes (s.storeKey t space off) n
/-- Writes bytes of such a store. -/
def State.storeWrite (s : State) (t : Team) (space off : Nat) (b : List Byte) : State :=
  s.storeBytes (s.storeKey t space off) b

/-- Writes n of the 32-byte sectors of an image at offset off, from sector number first on, in ascending order (R220). -/
def State.writeImage (s : State) (t : Team) (space off : Nat) (b : List Byte) (first n : Nat) : State :=
  (List.range n).foldl (fun s i => s.storeWrite t space (off + 32 * (first + i)) ((b.drop (32 * (first + i))).take 32)) s

/-! ### Entries (R320) -/

/-- The 32 bytes of an entry. -/
def LogEntry.bytes (e : LogEntry) : List Byte :=
  leBytes 1 e.kind ++ leBytes 1 e.major ++ leBytes 1 e.fn ++ leBytes 1 e.slot ++ leBytes 1 e.dst ++ leBytes 1 e.opa ++
    leBytes 1 e.opb ++ leBytes 1 e.modes ++ leBytes 2 e.shape ++ leBytes 1 e.wa ++ leBytes 1 e.wb ++ leBytes 4 e.doff ++
    leBytes 4 e.aux ++ leBytes 4 e.proda ++ leBytes 4 e.aux2 ++ leBytes 4 e.carry
/-- The entry that 32 bytes hold. -/
def readEntry (b : List Byte) : LogEntry where
  kind := field b 0 1
  major := field b 1 1
  fn := field b 2 1
  slot := field b 3 1
  dst := field b 4 1
  opa := field b 5 1
  opb := field b 6 1
  modes := field b 7 1
  shape := field b 8 2
  wa := field b 10 1
  wb := field b 11 1
  doff := field b 12 4
  aux := field b 16 4
  proda := field b 20 4
  aux2 := field b 24 4
  carry := field b 28 4

/-! ### Contexts -/

/-- The context of a team that serves a log. -/
def Team.logFor (t : Team) (r : Option LogRef) : Option LogCtx :=
  match r with
  | none => none
  | some r => t.logs.find? fun c => c.space = r.space ∧ c.first = r.first
/-- Puts a context back. -/
def Team.putLog (t : Team) (c : LogCtx) : Team :=
  { t with logs := t.logs.map fun d => if d.space = c.space ∧ d.first = c.first then c else d }
/-- More than one group records into a log (R307). -/
def LogCtx.shared (c : LogCtx) : Bool := decide (1 < c.members.length)
/-- The offset past the last entry of the current segment, from the segment's start. -/
def LogCtx.entryEnd (c : LogCtx) : Nat := 64 + 32 * c.nent
/-- The global index of the next entry. -/
def LogCtx.next (c : LogCtx) : Nat := c.base + c.nent
/-- Free bytes of the current segment (R333). -/
def LogCtx.free (c : LogCtx) : Nat := c.dtop - c.entryEnd - c.reserved

/-- The device writes a context's D fields into the header of its current segment, with a NEXT (R319). -/
def State.writeBack (s : State) (t : Team) (c : LogCtx) (next : Nat) : State :=
  s.storeWrite t c.space (c.seg + 0x10)
    (leBytes 4 c.nent ++ leBytes 4 c.base ++ leBytes 4 c.dtop ++ leBytes 4 (c.earlier.headD noIndex) ++ leBytes 4 next ++
      leBytes 28 0)

/-! ### Acceptance (R322, R325, R342) -/

/-- The key of an origin. -/
def Origin.sameKey (a : Origin) (index dst major fn : Nat) : Bool :=
  a.index == index && a.dst == dst && a.major == major && a.fn == fn

/-- Sets a key of the origin table to an entry; the least recently written of more than 1,024 goes. -/
def setOrigin (o : Origin) (l : List Origin) : List Origin :=
  let l := (l.filter fun p => !p.sameKey o.index o.dst o.major o.fn) ++ [o]
  l.drop (l.length - 1024)

/-- Writes the entry of an accepted operation at the end of its log: its index and data offset, producers and origin as
the order fixes them. A reuse entry of an origin without a carry buffer gets one of zeros. -/
def State.acceptEntry (s : State) (t : Team) (r : Option LogRef) (slot : Nat) (p : LogPlan) :
    State × Team × LogPlan :=
  match t.logFor r with
  | none => (s, t, p)
  | some c =>
    let e := p.entry
    let origin := c.origins.find? fun o => o.sameKey (p.index.getD 0) e.dst e.major e.fn
    let reuse := e.kind = 2
    let items := if reuse ∧ !(origin.any fun o => !o.carry) then [] else p.items
    let size := itemsSize items
    let dtop := c.dtop - size
    let product := e.kind = 1 ∧ (e.major = 0x38 ∨ e.major = 0x39 ∨ e.major = 0x3B)
    let producer (v : Nat) : Nat := ((c.producers.find v).map (·.1)).getD noIndex
    let e :=
      { e with
        slot := slot
        doff := if items = [] then noIndex else dtop
        proda := if reuse then (origin.map (·.entry)).getD noIndex else if product then producer e.opa else noIndex
        aux2 := if e.kind = 1 ∧ (e.major = 0x38 ∨ e.major = 0x3B) then producer e.opb else e.aux2 }
    let at_ := c.seg + c.entryEnd
    let s := s.storeWrite t c.space at_ e.bytes
    let carries := items.any fun i =>
      match i with
      | .carry _ _ => true
      | _ => false
    let s :=
      match carries, origin with
      | true, some o =>
        (s.storeWrite t c.space (c.seg + dtop) (List.replicate size 0)).storeWrite t c.space (o.entryAt + 0x1C)
          (leBytes 4 c.next)
      | _, _ => s
    let origins :=
      if reuse then
        c.origins.map fun o =>
          if carries && o.sameKey (p.index.getD 0) e.dst e.major e.fn then { o with carry := true } else o
      else
        match p.index with
        | some i => setOrigin ⟨i, e.dst, e.major, e.fn, c.next, at_, p.rows, p.cols, false⟩ c.origins
        | none => c.origins
    let loads := e.major = 0x3A ∧ (e.fn = 1 ∨ e.fn = 6)
    let c' :=
      { c with
        nent := c.nent + 1, dtop := dtop, origins := origins
        reserved := c.reserved - p.need, reservedEntries := c.reservedEntries - 1
        producers := p.writes.foldl (fun m v => m.set v (c.next, loads)) c.producers }
    (s, t.putLog c', { p with entry := e, items := items, place := some ⟨c.next, c.space, at_, c.seg + dtop⟩ })

/-! ### Leaving a log (R329) -/

/-- A group slot stops recording into a log; when no other group records into it, the headers are written back and the
context is free. -/
def State.leaveLog (s : State) (uid slot : Nat) (r : Option LogRef) : State :=
  match s.teams.find uid with
  | none => s
  | some t =>
    match t.logFor r with
    | none => s
    | some c =>
      if !c.members.contains slot then s
      else
        let c := { c with members := c.members.filter (· ≠ slot) }
        if c.members = [] then
          let s := s.writeBack t c noIndex
          let logs := t.logs.filter fun d => !(d.space == c.space && d.first == c.first)
          { s with
            teams := s.teams.set uid { t with logs := logs }
            groups := s.groups.mapValues fun _ g =>
              if g.team = uid then { g with log := g.log.map fun q =>
                if q.space = c.space ∧ q.first = c.first then { q with final := c.next } else q }
              else g }
        else { s with teams := s.teams.set uid (t.putLog c) }

end Sys2Proof.Machine
end

