-- ==== Sys2Proof/Machine/Ops.lean ====
section
/-!
DEFINITION. The named operations over memory, registers and groups that every meaning uses: bytes of a store, v, g
and k registers (R40 to R45, R97), completing an instruction (R62, R109, R173), issuing an asynchronous operation
(R20, R22), taking a trap (R126) and returning from one (R129).
-/

namespace Sys2Proof.Machine

/-- What a meaning answers. -/
abbrev Out := Host.Outcome State Fault Refusal

/-- The fragment of a `trvs` still stands at it, or is in handler mode meanwhile (R346). -/
def Group.reversing (g : Group) : Option Reversal :=
  g.reversal.bind fun r => if g.frags.any fun f => f.threads = r.threads ∧ (f.pc = r.pc ∨ f.trapping) then some r else none

/-! ### Masks -/

/-- The threads of a mask, in ascending order. -/
def threadsOf (k : Mask) : List Nat := (List.range 64).filter fun t => k.getLsbD t
/-- The number of threads of a mask. -/
def countOf (k : Mask) : Nat := (threadsOf k).length
/-- The lowest thread of a mask, or 64. -/
def lowestOf (k : Mask) : Nat := (threadsOf k).headD 64
/-- The mask of the threads that p holds for. -/
def maskOf (p : Nat → Bool) : Mask :=
  (List.range 64).foldl (fun m t => if p t then m ||| BitVec.twoPow 64 t else m) 0

/-! ### Groups and fragments -/

/-- Where an instruction of a group acts: the core, slot and fragment, with their state, team and launch. -/
structure Ctx where
  core : Nat
  slot : Nat
  frag : Nat
  g : Group
  f : Fragment
  team : Team
  launch : Launch
deriving DecidableEq, Repr, Inhabited

/-- The fragment that the current agent names, with its group, team and launch. -/
def State.ctx (s : State) : Option Ctx :=
  match s.cur with
  | .group core slot frag =>
    match s.groups.find (slotKey core slot) with
    | none => none
    | some g =>
      match g.frags[frag]?, s.teams.find g.team with
      | some f, some t =>
        match s.launches.find t.launch with
        | some l => some ⟨core, slot, frag, g, f, t, l⟩
        | none => none
      | _, _ => none
  | _ => none

/-- Acts for the current fragment. -/
def onFrag (s : State) (act : Ctx → Out) : Out :=
  match s.ctx with
  | some x => act x
  | none => .fault .noAgent

/-- Changes one fragment of a group. -/
def Group.setFrag (g : Group) (i : Nat) (f : Fragment) : Group := { g with frags := g.frags.set i f }
/-- Stores a group back. -/
def State.putGroup (s : State) (core slot : Nat) (g : Group) : State :=
  { s with groups := s.groups.set (slotKey core slot) g }
def Ctx.put (x : Ctx) (s : State) (g : Group) : State := s.putGroup x.core x.slot g
/-- Changes a team. -/
def State.putTeam (s : State) (uid : Nat) (t : Team) : State := { s with teams := s.teams.set uid t }
def State.modTeam (s : State) (uid : Nat) (f : Team → Team) : State := { s with teams := s.teams.modify uid f }
def Ctx.die (x : Ctx) : Nat := dieOf x.core
/-- The launch's CTXTAG, its context and its number (R402). -/
def Ctx.tag (x : Ctx) : W32 := BitVec.ofNat 32 x.team.launch
def Ctx.ctxNum (x : Ctx) : Nat := x.team.launch / 2 ^ 20

/-! ### Registers (R40 to R45, R97, R127) -/

/-- Register v r of thread t, from the handler bank for v80 to v95 if hb. -/
def Group.readV (g : Group) (hb : Bool) (r t : Nat) : W32 :=
  if hb && 80 ≤ r then g.hv.getZ (r * 64 + t) else g.v.getZ (r * 64 + t)
/-- Writes register v r of thread t. -/
def Group.writeV (g : Group) (hb : Bool) (r t : Nat) (x : W32) : Group :=
  if hb && 80 ≤ r then { g with hv := g.hv.setZ (r * 64 + t) x } else { g with v := g.v.setZ (r * 64 + t) x }
/-- Register g n; g0 reads zero (R45). -/
def Group.readG (g : Group) (hb : Bool) (n : Nat) : W32 :=
  if n = 0 then 0 else if hb && 24 ≤ n then g.hg.getZ n else g.g.getZ n
/-- Register g n of the bank belongs to the handler's bank. -/
def bankOf (hb : Bool) (n : Nat) : Bool := hb && decide (24 ≤ n)
/-- Writes g n without touching its pending state; g0 discards it (R45). -/
def Group.putG (g : Group) (hb : Bool) (n : Nat) (x : W32) : Group :=
  if n = 0 then g else if hb && 24 ≤ n then { g with hg := g.hg.setZ n x } else { g with g := g.g.setZ n x }
/-- g n holds a handle whose operation has not retired (R115). -/
def Group.isPending (g : Group) (hb : Bool) (n : Nat) : Bool :=
  g.pendingRegs.any fun p => p.reg = n && p.handlerBank == bankOf hb n
/-- g n stops being pending. -/
def Group.unpend (g : Group) (hb : Bool) (n : Nat) : Group :=
  { g with pendingRegs := g.pendingRegs.filter fun p => !(p.reg = n && p.handlerBank == bankOf hb n) }
/-- Writes g n (R45, R115). -/
def Group.writeG (g : Group) (hb : Bool) (n : Nat) (x : W32) : Group := (g.putG hb n x).unpend hb n

/-- A register field as thread t reads it: a v register, or a g register broadcast (R41, R42). -/
def Ctx.lane (x : Ctx) (r t : Nat) : W32 :=
  if r < 96 then x.g.readV x.g.handler r t else x.g.readG x.g.handler (r - 96)
/-- A register field read uniformly (R43). -/
def Ctx.uni (x : Ctx) (r : Nat) : W32 :=
  if r < 96 then (if x.f.k0 = 0 then 0 else x.g.readV x.g.handler r (lowestOf x.f.k0))
  else x.g.readG x.g.handler (r - 96)
/-- Mask k n as the fragment sees it (R97). -/
def Ctx.mask (x : Ctx) (n : Nat) : Mask := if n = 0 then x.f.k0 else x.g.k.getZ n
/-- One of the register fields is a pending g register, so that the fragment waits (R115). -/
def Ctx.waitsOn (x : Ctx) (fields : List Nat) : Bool :=
  fields.any fun r => 96 ≤ r && x.g.isPending x.g.handler (r - 96)

/-- Writes v r of each listed thread. -/
def Group.writeLanes (g : Group) (hb : Bool) (r : Nat) (f : Nat → W32) : List Nat → Group
  | [] => g
  | t :: rest => (g.writeV hb r t (f t)).writeLanes hb r f rest
/-- Writes a register field uniformly: every active thread of a v register, or a g register (R43). -/
def Ctx.writeUni (x : Ctx) (g : Group) (r : Nat) (v : W32) : Group :=
  if r < 96 then g.writeLanes g.handler r (fun _ => v) (threadsOf x.f.k0) else g.writeG g.handler (r - 96) v
/-- A lane instruction writes mask n: only the bits of active (R97). -/
def Ctx.writeMaskLane (x : Ctx) (g : Group) (n : Nat) (active v : Mask) : Group :=
  if n = 0 then g.setFrag x.frag { x.f with k0 := (x.f.k0 &&& ~~~active) ||| (v &&& active) }
  else { g with k := g.k.setZ n ((g.k.getZ n &&& ~~~active) ||| (v &&& active)) }
/-- A uniform instruction writes mask n (R97). -/
def Ctx.writeMaskUni (x : Ctx) (g : Group) (n : Nat) (v : Mask) : Group :=
  if n = 0 then g.setFrag x.frag { x.f with k0 := v &&& x.f.threads }
  else { g with k := g.k.setZ n ((g.k.getZ n &&& ~~~x.f.threads) ||| (v &&& x.f.threads)) }

/-! ### Completing an instruction (R62, R109, R173) -/

/-- Steps register field r by σ, a v register in the threads of k0 (R173). A step is a write of the register: a pending handle stops
being pending (R115). DESIGN CHOICE (notes/assumptions/33.md): whether the step waits for the retirement instead is open. -/
def Group.stepField (g : Group) (k0 : Mask) (r : Nat) (σ : W32) : Group :=
  if r < 96 then g.writeLanes false r (fun t => g.readV false r t + σ) (threadsOf k0)
  else g.writeG false (r - 96) (g.readG false (r - 96) + σ)
/-- Steps the STEPREG of a loop level by its stride, for a fragment with execution mask k0 (R173): later, once every outstanding result
has landed, where the group parks on them for threads `due` (R62). -/
def Group.stepRegister (g : Group) (due : Option Mask) (k0 : Mask) (l : LoopLevel) : Group :=
  match due with
  | none => g.stepField k0 l.stepReg (g.lsig.getZ l.level)
  | some ts => { g with due := g.due ++ [⟨l.stepReg, g.lsig.getZ l.level, ts⟩] }
/-- The threads of a set that are active in their fragments. -/
def Group.activeIn (g : Group) (ts : Mask) : Mask := g.frags.foldl (fun m f => m ||| (f.k0 &&& f.threads &&& ts)) 0
/-- The steps that waited for results. -/
def Group.stepDue (g : Group) : Group :=
  g.due.foldl (fun g d => g.stepField (g.activeIn d.threads) d.reg d.stride) { g with due := [] }

/-- A fragment that owns the loops and reaches pc: where a body ends, its level steps and the body repeats or the
level closes (R109). Each level steps its own STEPREG at the end of its own iteration, as R108 numbers the levels; R173's last sentence
names them the other way round (DEDUCED, notes/assumptions/34.md). -/
def loopEnds (due : Option Mask) (k0 : Mask) (pc : W32) : List LoopLevel → Group → W32 × Group
  | [], g => (pc, { g with loops := [] })
  | l :: rest, g =>
    if pc = l.stop then
      let g := g.stepRegister due k0 l
      let n := g.lc.getZ l.level - 1
      let g := { g with lc := g.lc.setZ l.level n, li := g.li.setZ l.level (g.li.getZ l.level + 1) }
      if n = 0 then loopEnds due k0 pc rest g else (l.start, { g with loops := l :: rest })
    else (pc, { g with loops := l :: rest })

/-- Moves fragment i to pc, ending loop passes that end there; later says that the steps wait for results. -/
def Group.gotoStep (g : Group) (i : Nat) (later : Bool) (pc : W32) : Group :=
  match g.frags[i]? with
  | none => g
  | some f =>
    if f.looping && !g.handler then
      let (pc, g) := loopEnds (if later then some f.threads else none) f.k0 pc g.loops g
      g.setFrag i { f with pc := pc, looping := !g.loops.isEmpty }
    else g.setFrag i { f with pc := pc }
/-- Moves fragment i to pc, ending loop passes that end there. -/
def Group.goto (g : Group) (i : Nat) (pc : W32) : Group := g.gotoStep i false pc

/-- A marked instruction parks the group until every outstanding variable-latency result has landed (R62). -/
def Group.park62 (g : Group) (m : Bool) : Group :=
  if m && !g.pend.isEmpty then (if g.handler then { g with hmarker := true } else { g with marker := true }) else g

/-- What the levels that end at pc, of the open ones from the innermost out, step register field d by (R173). -/
def Group.stepsOf (g : Group) (d : Nat) (pc : W32) : List LoopLevel → W32
  | [] => 0
  | l :: rest =>
    if pc = l.stop then
      (if l.stepReg = d then g.lsig.getZ l.level else 0) +
        (if g.lc.getZ l.level - 1 = 0 then g.stepsOf d pc rest else 0)
    else 0
/-- Fragment i goes on to pc after an instruction whose marker is m: where the group parks on outstanding results, the steps of a body
that ends here follow these (R62, R173). -/
def Group.move (g : Group) (i : Nat) (m : Bool) (pc : W32) : Group :=
  (g.gotoStep i (m && !g.pend.isEmpty) pc).park62 m

/-- Completes an instruction of n words: the fragment moves on, and a marker parks the group (R62). -/
def Group.advance (g : Group) (i : Nat) (m : Bool) (n : Nat) : Group :=
  match g.frags[i]? with
  | none => g
  | some f => g.move i m (f.pc + BitVec.ofNat 32 (4 * n))

/-- Completes an instruction of n words that leaves the group as g. -/
def Ctx.done (x : Ctx) (s : State) (g : Group) (m : Bool) (n : Nat) : Out :=
  .next (x.put s (g.advance x.frag m n))

/-! ### Asynchronous operations (R19 to R24, R115) -/

/-- A class of a group. -/
def Group.cls (g : Group) (c : Nat) : ClassState := g.classes.get c ClassState.created
/-- The sequence number after n (R20). -/
def seqAfter (n : Nat) : Nat := if n = 0xFFFFFF then 1 else n + 1
/-- Sequence number n of class c counts as retired (R24). -/
def Group.retired (g : Group) (c n : Nat) : Bool := !(g.cls c).ops.any fun o => o.seq = n
/-- The class is full, so that an issue stalls (R22). -/
def Group.full (g : Group) (c : Nat) : Bool := decide (127 ≤ (g.cls c).ops.length)
/-- A handle (R26). -/
def handleWord (c inst n : Nat) : W32 := BitVec.ofNat 32 (c * 2 ^ 28 + inst * 2 ^ 24 + n)

/-- Gives an operation of class c its sequence number and adds it to the outstanding ones (R20). -/
def Group.issueOp (g : Group) (c : Nat) (cmd : Cmd) (owns : List Nat) (order stamp : Nat) : Group :=
  let k := g.cls c
  let op : Op := ⟨k.nextSeq, .issued, false, none, owns, 0, cmd, order, stamp, 0, []⟩
  { g with classes := g.classes.set c { nextSeq := seqAfter k.nextSeq, last := k.nextSeq, ops := k.ops ++ [op] } }

/-- The handle of the operation issued last in class c is on its way to g n; n = 0 asks for none (R58, R62). -/
def Group.sendHandle (g : Group) (word : W32) (c inst n : Nat) : Group :=
  if n = 0 then g
  else { g with pend := g.pend ++ [
    { handlerBank := g.handler, word := word, issued := 0, threads := 0, vals := Map.empty, mask := none
      handle := some ⟨n, handleWord c inst (g.cls c).last, none⟩, flags := 0, sweep := none, trapen := 0, stamp := 0 }] }

/-! ### Acceptance of class 1 operations (R283, R307) -/

/-- The class 1 operations of a list that are not accepted get their order and, where their group records, their entries
(R31, R322). -/
def acceptOps (slot : Nat) (r : Option LogRef) : List Op → State → Team → State × Team × List Op
  | [], s, t => (s, t, [])
  | o :: rest, s, t =>
    if o.order ≠ 0 then
      let (s, t, ops) := acceptOps slot r rest s t
      (s, t, o :: ops)
    else
      let o := { o with order := s.nextOrder + 1 }
      let s := { s with nextOrder := s.nextOrder + 1 }
      let (s, t, o) :=
        match o.cmd with
        | .matrix w (some p) =>
          let (s, t, p) := s.acceptEntry t r slot p
          (s, t, { o with cmd := .matrix w (some p) })
        | _ => (s, t, o)
      let (s, t, ops) := acceptOps slot r rest s t
      (s, t, o :: ops)

/-- Bytes of a team's unit store (space 0) lie in a sector that a scoreboard entry covers, so that a store of the team, or of an engine
for it, waits (R28, R286). -/
def State.spanHeld (s : State) (t : Team) (space off n : Nat) : Bool :=
  space == 0 && n != 0 &&
    (List.range ((off % 32 + n + 31) / 32)).any fun i => s.covered (unitKey t.core (t.base + (off / 32 + i) * 32))
/-- What acceptance writes into a log for plans lies under a scoreboard entry: the entries, and for reuse entries the carry buffers
and their origins' CARRY fields (R28, R322). -/
def State.logHeld (s : State) (t : Team) (r : Option LogRef) (ps : List LogPlan) : Bool :=
  match t.logFor r with
  | none => false
  | some c =>
    let size := itemsSize (ps.flatMap (·.items))
    s.spanHeld t c.space (c.seg + c.entryEnd) (32 * ps.length) ||
      (ps.any fun p => p.entry.kind = 2) &&
        (s.spanHeld t c.space (c.seg + c.dtop - size) size || c.origins.any fun o => s.spanHeld t c.space (o.entryAt + 0x1C) 4)
/-- A group whose operations the engine holds until their batch is sealed: one that records into a shared log (R307). -/
def Group.holdsBatch (g : Group) (t : Team) : Bool := g.recording && (t.logFor g.log).any LogCtx.shared
/-- What an operation that the engine has not accepted will log. -/
def Op.toLog (o : Op) : Option LogPlan :=
  match o.order, o.cmd with
  | 0, .matrix _ p => p
  | _, _ => none

/-- The matrix engine accepts the class 1 operations of a group that it has not accepted yet, oldest first: those of sealed batches
where it holds batches (R307), else all. It does so once no copy's entry covers what it writes into the log for them. -/
def State.acceptBatch (s : State) (core slot : Nat) : State :=
  match s.groups.find (slotKey core slot) with
  | none => s
  | some g =>
    match s.teams.find g.team with
    | none => s
    | some t =>
      let k := g.cls 1
      let n := if g.holdsBatch t then k.ops.length - g.batch else k.ops.length
      if s.logHeld t g.log ((k.ops.take n).filterMap Op.toLog) then s
      else
        let (s, t, ops) := acceptOps slot g.log (k.ops.take n) s t
        (s.putGroup core slot { g with classes := g.classes.set 1 { k with ops := ops ++ k.ops.drop n } }).putTeam g.team t

/-- Seals the open matrix batch (R305): its number is the sequence number of its last operation, or of the most
recent class 1 operation for an empty batch (R25). -/
def Group.sealBatch (g : Group) : Group × Nat :=
  let n := (g.cls 1).last
  if g.batch = 0 then (g, n)
  else
    ({ g with
      batch := 0, openLevel := none, openReplays := 0
      batches := g.batches ++ [⟨n, g.openLevel, g.openReplays⟩] }, n)
/-- Seals a group's open batch, whose operations the engine can then accept (R305, R307). -/
def State.sealGroup (s : State) (core slot : Nat) : State :=
  match s.groups.find (slotKey core slot) with
  | none => s
  | some g => (s.putGroup core slot g.sealBatch.1).acceptBatch core slot

/-- A core's margin registers as bring-up leaves them (R309). -/
def Margin.initial : Margin := ⟨false, false, 0, 0, 0⟩
def State.margin (s : State) (core : Nat) : Margin := s.margins.get core Margin.initial
/-- A batch ends on a core after some beats (R313). -/
def State.batchEnds (s : State) (core : Nat) (b : Batch) (beats : Nat) : State :=
  let m := s.margin core
  if beats < 4096 * b.replays ∧ 0 < m.level then
    { s with margins := s.margins.set core { m with level := m.level - 1, stepdn := true } }
  else s
/-- The n oldest batches of a group end; how many beats each had is open (notes/assumptions/27.md). -/
def State.endBatches (s : State) (core : Nat) (g : Group) (n : Nat) : State × Group :=
  ((g.batches.take n).foldl (fun s b => s.batchEnds core b (Config.choice s.tick (2 ^ 16 * b.last + 0x610))) s,
    { g with batches := g.batches.drop n })
/-- A group that leaves its core has no batch that has not ended (R313). -/
def State.finishBatches (s : State) (core slot : Nat) : State :=
  match s.groups.find (slotKey core slot) with
  | none => s
  | some g =>
    let g := g.sealBatch.1
    let (s, g) := s.endBatches core g g.batches.length
    s.putGroup core slot g

/-- A group leaves its log (R329); the operations of a group that is left alone in it are accepted as they stand (R307). -/
def State.quitLog (s : State) (core slot uid : Nat) (r : Option LogRef) : State :=
  let s := s.leaveLog uid slot r
  match ((s.teams.find uid).bind fun t => t.logFor r).map (·.members) with
  | some [other] => s.acceptBatch core other
  | _ => s

/-! ### Ending teams and launches (R104, R404, R409, R423) -/

/-- A kiln at the end of a claim (R371): what the core measures of it stays. -/
def Kiln.released (k : Kiln) : Kiln :=
  { Kiln.fresh with
    degraded := k.degraded, lastHealth := k.lastHealth, failures := k.failures, calibrations := k.calibrations
    drifted := k.drifted, shown := { Kiln.fresh.shown with degraded := k.shown.degraded } }

/-- What a merge entry of a team names (R178, R179, R226). -/
def State.mergeTarget (s : State) (t : Team) (e : MergeEntry) : MergeTarget :=
  match e.space with
  | 0 => .virt e.addr.toNat
  | 1 =>
    match (s.launches.find t.launch).bind fun l => l.windows.find (dieOf t.core) with
    | some base => .place (dieKey (dieOf t.core) (base + e.addr.toNat))
    | none => .gone
  | _ =>
    let half := if e.addr.toNat / 2 ^ 30 % 2 = 0 then t.ownHalf else t.otherHalf
    match half[e.addr.toNat / 2 ^ 24 % 64]? with
    | some uid => .member uid (e.addr.toNat % 2 ^ 24)
    | none => .gone
/-- The entries of a team as the merge uses them. -/
def State.mergeItems (s : State) (t : Team) : List MergeItem :=
  t.merge.map fun e => ⟨e.lthread, e.data, e.mask, s.mergeTarget t e⟩

/-- What a task becomes when its team has ended (R421). -/
def Task.teamEnded (k : Task) : Task :=
  match k.state with
  | .started _ => { k with state := .completed }
  | _ => k

/-- A team whose groups have all ended ends once the copies of its hods have retired and their accesses are performed: its hods, queues, rings, sequencer
slots and kiln become free (R262, R348, R371, R424, R465), and its merge entries wait for the next merge (R228). -/
def State.settleTeam (s : State) (uid : Nat) : State :=
  match s.teams.find uid with
  | none => s
  | some t =>
    if !t.slots.isEmpty then s
    else if s.hods.values.any fun h => h.claim = some uid ∧ (h.ops ≠ [] ∨ h.late ≠ []) then
      { s with hods := s.hods.mapValues fun _ h => if h.claim = some uid then { h with status := 3, cause := 9 } else h }
    else
      { s with
        teams := s.teams.erase uid
        hods := s.hods.mapValues fun _ h => if h.claim = some uid then h.freed else h
        queues := s.queues.keep fun _ q => q.owner ≠ some uid
        rings := s.rings.keep fun _ r => r.owner ≠ some uid
        seqSlots := s.seqSlots.keep fun _ q => q.team ≠ uid
        kilns := s.kilns.mapValues fun _ k => if k.claim = some uid then k.released else k
        tasks := match t.task with
          | some id => s.tasks.modify id Task.teamEnded
          | none => s.tasks
        launches := s.launches.modify t.launch fun l =>
          { l with
            ended := if t.kind = 0 then l.ended ++ [t.teamIx] else l.ended
            mergeLeft := l.mergeLeft ++ s.mergeItems t } }

/-- Group slots of a team that have nothing left to do become free (R104, R404): no threads, or stopped, and every
operation retired; not while a copy is writing where an access of it goes (R28). A team that is being flushed keeps its slots
(R428). -/
def State.settle (s : State) (core slot : Nat) : State :=
  match s.groups.find (slotKey core slot) with
  | none => s
  | some g =>
    match s.teams.find g.team with
    | none => s
    | some t =>
      if (g.frags.isEmpty || t.stopped) && t.leaving != 3 && g.classes.values.all (fun k => k.ops.isEmpty) &&
          g.late.all fun e => !e.places.any s.covered then
        let s := ((s.finishAll (.group core slot)).finishBatches core slot).quitLog core slot g.team g.log
        let t := (s.teams.find g.team).getD t
        ({ s with
          groups := s.groups.erase (slotKey core slot)
          deferred := s.deferred.filter (· ≠ slotKey core slot)
          teams := s.teams.set g.team { t with slots := t.slots.filter (· ≠ slot) } }).settleTeam g.team
      else s

/-- Asks for the cancellation of every outstanding operation of a group, as `hcancel` does (R118). -/
def Group.cancelAll (g : Group) : Group :=
  { g with classes := g.classes.mapValues fun _ k => { k with ops := k.ops.map fun o => { o with cancel := true } } }

/-- A team stops issue and its outstanding operations are cancelled (R404, R423). -/
def State.stopTeam (s : State) (uid : Nat) : State :=
  let s :=
    { s with
      teams := s.teams.modify uid fun t => { t with stopped := true, leaving := 0 }
      groups := s.groups.mapValues fun _ g => if g.team = uid then g.cancelAll else g }
  match s.teams.find uid with
  | none => s
  | some t => t.slots.foldl (fun s slot => s.settle t.core slot) s

/-- Every team of a launch stops (R404, R409). -/
def State.stopLaunch (s : State) (key : Nat) : State :=
  s.teams.keys.foldl (fun s uid =>
    match s.teams.find uid with
    | some t => if t.launch = key then s.stopTeam uid else s
    | none => s) s

/-- Ends a launch other than by completion; the first ending stands (R409, R415, R432). -/
def State.endLaunchWith (s : State) (key : Nat) (e : Ending) : State :=
  match s.launches.find key with
  | none => s
  | some l =>
    let l := if l.ending = none then { l with ending := some e } else l
    ({ s with launches := s.launches.set key l }).stopLaunch key

/-- The 64-byte fault record of a failed task that its handler task starts with (R423). -/
def taskFaultRecord (handle : W32) (cause gix tix core : Nat) (pc info0 info1 : W32) (entry : Nat) : List Byte :=
  leBytes 4 handle.toNat ++ leBytes 1 cause ++ leBytes 1 gix ++ leBytes 2 tix ++ leBytes 4 pc.toNat ++
    leBytes 4 info0.toNat ++ leBytes 4 info1.toNat ++ leBytes 2 core ++ leBytes 2 0 ++ leBytes 4 entry ++ leBytes 36 0

/-- Submits a handler task for failed task id to the same table (R423). -/
def State.submitHandler (s : State) (task : Task) (l : Launch) (record : List Byte) : State :=
  match l.hkernel with
  | none => s
  | some k =>
    let h : Task :=
      { launch := task.launch, die := task.die, kernel := k, tix := 0xFFFF, restart := false, reads := [], writes := []
        args := [task.handle, 0, 0, 0, 0, 0, 0, 0], renamed := [], state := .queued, startAfterCommit := []
        startAfterComplete := [], commitAfterComplete := [], commitAfterCommit := [], readsFrom := []
        handler := true, handle := 0, host := none, record := record
        copied := 0 }
    { s with tasks := s.tasks.set s.nextTask h, nextTask := s.nextTask + 1 }

/-- Reports an unhandled trap of a group to the work scheduler (R126, R409, R423): outside a task it ends the
launch; in a task the first one fails the task, stops its team and submits the handler task. -/
def State.unhandledTrap (s : State) (core : Nat) (g : Group) (t : Team) (cause : Nat) (pc info0 info1 : W32) : State :=
  match t.kind, t.task with
  | 2, some id =>
    match s.tasks.find id, s.launches.find t.launch with
    | some task, some l =>
      if t.stopped then s
      else
        let record := taskFaultRecord task.handle cause g.gix task.tix core pc info0 info1 task.kernel.entry
        let s := { s with tasks := s.tasks.set id { task with state := .failed 1 } }
        (s.submitHandler task l record).stopTeam g.team
    | _, _ => s.stopTeam g.team
  | _, _ => s.endLaunchWith t.launch ⟨4, cause, BitVec.ofNat 32 t.teamIx, pc, info0, info1⟩

/-! ### Traps (R123 to R129) -/

/-- The unit-store offset of a group's trap frame (R125); 0 where the team's allocation is too small for it, which only a handler task
of a kernel that no LAUNCH has checked can be: a DESIGN CHOICE (notes/assumptions/33.md). -/
def frameOffset (t : Team) (gix : Nat) : Nat := t.kernel.unit - 256 * (gix + 1)

/-- The bytes of a trap frame (R125). -/
def trapFrame (g : Group) (f : Fragment) (cause batch : Nat) (pc info0 info1 : W32) : List Byte :=
  leBytes 4 pc.toNat ++ leBytes 4 cause ++ leBytes 4 info0.toNat ++ leBytes 4 info1.toNat ++
    leBytes 4 (f.inner.getD 0xFFFF) ++ leBytes 4 batch ++ leBytes 4 g.frags.length ++
    leBytes 4 (if f.looping then g.loops.length else 0) ++
    leBytes 4 (g.lc.getZ 0).toNat ++ leBytes 4 (g.lc.getZ 1).toNat ++ leBytes 4 (g.lc.getZ 2).toNat ++ leBytes 20 0 ++
    leBytes 16 f.k0.toNat ++ (List.range 7).flatMap (fun i => leBytes 16 (g.k.getZ (i + 1)).toNat) ++ leBytes 64 0

/-- What a fragment that is taken into the handler waits for again at `tret`: a barrier or a phase; a `join` is evaluated
anew, and a pause is at its end (R87, R93, R126). -/
def Wait.kept (w : Wait) : Wait :=
  match w with
  | .barrier .. => w
  | .phase .. => w
  | _ => .none

/-- Trap (R126): delivers a synchronous trap to fragment frag of a group, with TRAPPC pc. What is in progress finishes first. -/
def takeTrap (core slot frag cause : Nat) (pc info0 info1 : W32) (s : State) : State :=
  match s.groups.find (slotKey core slot) with
  | none => s
  | some g =>
    match g.frags[frag]?, s.teams.find g.team with
    | some f, some t =>
      match (if g.handler then none else t.kernel.trapEntry) with
      | none => s.unhandledTrap core g t cause pc info0 info1
      | some entry =>
        let s := s.sealGroup core slot
        let g' := (s.groups.find (slotKey core slot)).getD g
        let bn := (g.cls 1).last
        let off := frameOffset t g.gix
        let g' :=
          { g' with
            trapCause := BitVec.ofNat 32 cause, trapPc := pc, trapInfo0 := info0, trapInfo1 := info1
            handler := true, hmarker := false, hpark := none, hfault := none, hawaits := none, overlap := []
            frags := g'.frags.set frag
              { f with
                pc := BitVec.ofNat 32 entry, trapping := true, wait := .none
                saved := f.wait.kept } }
        (s.putGroup core slot (g'.writeG true 24 (BitVec.ofNat 32 off))).storeBytes (unitKey core (t.base + off)) (trapFrame g f cause bn pc info0 info1)
    | _, _ => s

/-- A trap at the current instruction, with TRAPPC the instruction itself (R123). -/
def Ctx.trap (x : Ctx) (s : State) (cause : Nat) (info1 : W32) : Out :=
  .next (takeTrap x.core x.slot x.frag cause x.f.pc s.ir info1 s)

/-- The illegal-instruction trap (R53). -/
def Ctx.illegal (x : Ctx) (s : State) (info1 : W32) : Out := x.trap s 1 info1

/-- A trap whose TRAPPC is the next instruction, after one of n words with marker m that otherwise changes nothing (R123). -/
def Ctx.trapNext (x : Ctx) (s : State) (cause : Nat) (m : Bool) (n : Nat) (info1 : W32) : Out :=
  let g := x.g.advance x.frag m n
  let pc := (g.frags[x.frag]?.map (·.pc)).getD 0
  .next (takeTrap x.core x.slot x.frag cause pc s.ir info1 (x.put s g))

/-- The masks that a frame holds (R125), k0 first. -/
def frameMasks (s : State) (at_ : Nat) : List Mask :=
  (List.range 8).map fun i => BitVec.ofNat 64 (leNat (s.mem.bytes (at_ + 0x40 + 16 * i) 8))

/-- The return from a trap (R129), for a group whose handler's results have all landed: masks from the frame, k0 within
the thread set, the handler bank swapped out, the trapping fragment at TRAPPC, waiting again for the barrier or phase that
it waited for unless that has released (R126), for the handle that an `hwait` there has read, and in the middle of a `disp` or
`spwn` there (R105); then a held arithmetic trap (R135). -/
def returnFromTrap (x : Ctx) (m : Bool) (s : State) : State :=
  let ks := frameMasks s (unitKey x.core (x.team.base + frameOffset x.team x.g.gix))
  let g := x.g
  let k := (List.range 7).foldl (fun k i => k.setZ (i + 1) (ks.getD (i + 1) 0)) g.k
  let g :=
    { g with
      k := k, handler := false, hmarker := false, hpark := none, hfault := none, held := none
      marker := g.marker || (m && !g.pend.isEmpty)
      frags := g.frags.set x.frag
        { x.f with
          pc := g.trapPc, trapping := false, k0 := ks.getD 0 0 &&& x.f.threads, wait := x.f.saved, saved := .none
          awaits := x.f.awaits.filter fun w => w.1 = g.trapPc
          handed := if x.f.handAt = g.trapPc then x.f.handed else 0
          handing := if x.f.handAt = g.trapPc then x.f.handing else 0
          handAt := if x.f.handAt = g.trapPc then x.f.handAt else 0 } }
  let s := x.put s g
  match x.g.held with
  | none => s
  | some h => takeTrap x.core x.slot x.frag 3 x.g.trapPc h.word (h.flags.setWidth 32) s

end Sys2Proof.Machine
end

