-- ==== Sys2Proof/Machine/Formats.lean ====
section
/-!
DEFINITION. Canonical tile images (R233 to R236), layout records (R238 to R240), storage formats (R244), and the exact
conversions between them: BlockQuantise (R246), the outlier split (R248), and the encodings of R249 and R250.
-/

namespace Sys2Proof.Machine

/-! ### Canonical images (R233 to R236) -/

/-- An image header (R234). -/
structure ImageHead where
  rows : Nat
  cols : Nat
  kind : Nat
  axis : Bool
  dup : Nat
  mapped : Bool
  nanblk : Bool
  sat : Bool
  splitovf : Bool
deriving DecidableEq, Repr, Inhabited

/-- The first appended column of a mapped image, else 0. -/
def ImageHead.kbase (h : ImageHead) : Nat := if h.mapped then h.cols - 32 else 0
/-- A block-format image. -/
def ImageHead.isBfp (h : ImageHead) : Bool := decide (2 ≤ h.kind ∧ h.kind ≤ 8)

/-- The header that 32 bytes hold, if it breaks no limit of R234. -/
def readHead (b : List Byte) : Option ImageHead :=
  let rows := field b 0 2
  let cols := field b 2 2
  let kind := field b 4 1
  let axis := field b 5 1
  let dup := field b 6 1
  let fl := field b 7 1
  let kbase := field b 8 2
  let mapped := fl % 2 = 1
  let bfp := 2 ≤ kind ∧ kind ≤ 8
  if 1 ≤ rows ∧ rows ≤ 256 ∧ 32 ≤ cols ∧ cols ≤ 256 ∧ cols % 32 = 0 ∧ (bfp ∨ kind = 0x10 ∨ kind = 0x11 ∨ kind = 0x12) ∧
      axis ≤ 1 ∧ (axis = 1 → rows % 32 = 0 ∧ bfp) ∧ dup ≤ 32 ∧ (¬mapped → dup = 0) ∧ fl < 16 ∧
      kbase = (if mapped then cols - 32 else 0) ∧ (mapped → axis = 0 ∧ bfp) ∧ zeros b 10 22 then
    some ⟨rows, cols, kind, axis == 1, dup, mapped, fl / 2 % 2 == 1, fl / 4 % 2 == 1, fl / 8 % 2 == 1⟩
  else none

/-- The 32 bytes of a header. -/
def ImageHead.bytes (h : ImageHead) : List Byte :=
  leBytes 2 h.rows ++ leBytes 2 h.cols ++ leBytes 1 h.kind ++ leBytes 1 h.axis.toNat ++ leBytes 1 h.dup ++
    leBytes 1 (h.mapped.toNat + 2 * h.nanblk.toNat + 4 * h.sat.toNat + 8 * h.splitovf.toNat) ++ leBytes 2 h.kbase ++
    leBytes 22 0

/-- Bytes of an element in the element plane. -/
def elementSize (kind : Nat) : Nat := if kind = 0x10 then 4 else if kind = 0x11 ∨ kind = 0x12 then 2 else 1
/-- Where the map, the exponent plane and the element plane start, and where the image ends (R233). -/
def ImageHead.mapAt (_ : ImageHead) : Nat := 32
def ImageHead.expsAt (h : ImageHead) : Nat := if h.mapped then 64 else 32
def ImageHead.elemsAt (h : ImageHead) : Nat := h.expsAt + (if h.isBfp then pad32 (h.rows * h.cols / 32) else 0)
def ImageHead.size (h : ImageHead) : Nat := h.elemsAt + pad32 (h.rows * h.cols * elementSize h.kind)

/-- The block of an element (R236). -/
def blockOf (axis : Bool) (cols r c : Nat) : Nat := if axis then r / 32 * cols + c else r * (cols / 32) + c / 32
/-- Element i of a block (R236). -/
def blockElem (axis : Bool) (cols b i : Nat) : Nat × Nat :=
  if axis then (b / cols * 32 + i, b % cols) else (b / (cols / 32), b % (cols / 32) * 32 + i)

/-- The value of a mantissa of width w under exponent byte e (R236). -/
def bfpValue (w e m : Nat) : Num :=
  if e = 0xFF then .nan false
  else
    let z := signedOf w m
    .fin (z < 0) z.natAbs ((e : Int) - 127 - (w - 1))

/-- The value of element (r, c) of an image of header h in bytes b (R236). -/
def imageValue (h : ImageHead) (b : List Byte) (r c : Nat) : Num :=
  let k := r * h.cols + c
  let at_ := h.elemsAt + k * elementSize h.kind
  match h.kind with
  | 0x10 => decodeNum f32 false (field b at_ 4)
  | 0x11 => decodeNum bf16 false (field b at_ 2)
  | 0x12 => decodeNum f16 false (field b at_ 2)
  | w => bfpValue w (field b (h.expsAt + blockOf h.axis h.cols r c) 1) (field b at_ 1)

/-! ### Blocks (R246) -/

/-- A formed block: exponent, mantissas, and whether NANBLK and SAT arose. -/
structure Block where
  exp : Nat
  mants : List Int
  nanblk : Bool
  sat : Bool
deriving DecidableEq, Repr, Inhabited

/-- The largest floor(log2) among non-zero finite values, if there is one. -/
def topExp (xs : List Num) : Option Int :=
  xs.foldl (fun top x =>
    match x with
    | .fin _ m e => if m = 0 then top else some (max (top.getD (ilog2 m e)) (ilog2 m e))
    | _ => top) none
/-- A NaN or an infinity. -/
def Num.isSpecial : Num → Bool
  | .fin _ _ _ => false
  | _ => true

/-- BlockQuantise (R246), each value with its rounding mode. -/
def blockQuantise (w : Nat) (xs : List (Num × RMode)) : Block :=
  if (xs.map (·.1)).any Num.isSpecial then ⟨0xFF, xs.map fun _ => 0, true, false⟩
  else
    match topExp (xs.map (·.1)) with
    | none => ⟨0, xs.map fun _ => 0, false, false⟩
    | some top =>
      let e := clampInt 0 254 (top + 128)
      let hi : Int := 2 ^ (w - 1) - 1
      let lo : Int := -2 ^ (w - 1)
      let raw := xs.map fun x =>
        match x.1 with
        | .fin n m x' => roundInt n m (x' - (e - 127 - (w - 1))) x.2
        | _ => 0
      ⟨e.toNat, raw.map (clampInt lo hi), false, raw.any fun z => z < lo ∨ hi < z⟩

/-- The bytes and flags of an image's planes, and the flags NANBLK and SAT of each block. -/
structure Planes where
  exps : List Byte
  elems : List Byte
  nanblk : Bool
  sat : Bool
  marks : List (Bool × Bool)
deriving DecidableEq, Repr, Inhabited

/-- Forms every block of an image of values x, at width w; mode gives each position's rounding (R246, R247). -/
def quantisePlanes (rows cols w : Nat) (axis : Bool) (x : Nat → Nat → Num) (mode : Nat → Nat → RMode) : Planes :=
  let blocks := (List.range (rows * cols / 32)).map fun b =>
    blockQuantise w ((List.range 32).map fun i =>
      let p := blockElem axis cols b i
      (x p.1 p.2, mode p.1 p.2))
  let elem (k : Nat) : Byte :=
    let r := k / cols
    let c := k % cols
    BitVec.ofInt 8 (((blocks.getD (blockOf axis cols r c) default).mants).getD (if axis then r % 32 else c % 32) 0)
  ⟨blocks.map fun b => BitVec.ofNat 8 b.exp, (List.range (rows * cols)).map elem, blocks.any (·.nanblk),
    blocks.any (·.sat), blocks.map fun b => (b.nanblk, b.sat)⟩

/-! ### Layout records (R238 to R240) -/

/-- The storage format codes (R244). -/
def formatOk (f : Nat) : Bool := decide ((2 ≤ f ∧ f ≤ 8) ∨ (0x10 ≤ f ∧ f ≤ 0x15) ∨ (0x20 ≤ f ∧ f ≤ 0x26))
/-- A format with storage blocks of 32 and scale bytes. -/
def formatBlocks (f : Nat) : Bool := decide (f ≤ 0x15)
/-- Bits of an element (R244). -/
def formatBits (f : Nat) : Nat :=
  if f ≤ 8 then f
  else
    match f with
    | 0x12 | 0x13 => 6
    | 0x14 | 0x26 => 4
    | 0x22 | 0x23 => 16
    | 0x24 => 32
    | _ => 8

/-- The record that 64 bytes hold, if it is valid (R238, R239). -/
def readLayout (b : List Byte) : Option LayoutRec :=
  let rank := field b 0x32 1
  let dims := field b 0x33 1
  let loc := field b 0x34 1
  let fl := field b 0x35 1
  let format := field b 0x30 1
  let thresh := field b 0x36 2
  let size0 := field b 0x10 4
  let r : LayoutRec :=
    { base := field b 0 8, scale := field b 8 8, size := (List.range 4).map fun k => field b (0x10 + 4 * k) 4
      stride := (List.range 3).map fun k => signedOf 32 (field b (0x20 + 4 * k) 4), boxr := field b 0x2C 2
      boxc := field b 0x2E 2, format := format, cw := field b 0x31 1, rank := rank, rowdim := dims % 4
      coldim := dims / 4 % 4, space := loc / 4 % 4, db := loc % 4, axis := fl % 2 == 1, sym := fl / 2 % 2 == 1
      osplit := fl / 4 % 2 == 1, thresh := thresh, origin := (List.range 4).map fun k => signedOf 16 (field b (0x38 + 2 * k) 2) }
  let okDim (k : Nat) : Bool :=
    let sz := field b (0x10 + 4 * k) 4
    if k < rank then decide (1 ≤ sz)
    else sz == 0 && (k == 0 || field b (0x20 + 4 * (k - 1)) 4 == 0)
  let threshOk := if r.osplit then decide (0 < thresh ∧ thresh < 0x7C00) else thresh == 0
  if decide (1 ≤ rank ∧ rank ≤ 4) && (List.range 4).all okDim && decide (1 ≤ r.boxr ∧ r.boxr ≤ 256) &&
      decide (32 ≤ r.boxc ∧ r.boxc ≤ 256 ∧ r.boxc % 32 = 0) && (!r.osplit || decide (r.boxc ≤ 224)) && formatOk format &&
      decide (2 ≤ r.cw ∧ r.cw ≤ 8) && r.rowdim != r.coldim && decide (dims < 16) && decide (r.space ≤ 2) &&
      (r.space == 0 || r.db == 0) && decide (loc < 16) && decide (fl < 8) && threshOk &&
      (formatBlocks format || r.scale == 0) && (!r.axis || r.boxr % 32 == 0) && !(r.osplit && r.axis) &&
      (!formatBlocks format || size0 % 32 == 0) && (decide (8 ≤ formatBits format) || size0 * formatBits format % 8 == 0) then
    some r
  else none

/-- The size of a dimension (R243). -/
def LayoutRec.extent (r : LayoutRec) (k : Nat) : Nat := if k < r.rank then r.size.getD k 1 else 1

/-- Mirror (R243). -/
def mirror (i : Int) (n : Nat) (sym : Bool) : Nat :=
  if n ≤ 1 then 0
  else if sym then
    let j := (i % (2 * n)).toNat
    if j < n then j else 2 * n - 1 - j
  else
    let j := (i % (2 * n - 2)).toNat
    if j < n then j else 2 * n - 2 - j

/-- The bit address of an element, before the db register (R240). -/
def LayoutRec.bitAddress (r : LayoutRec) (i : List Nat) : Int :=
  8 * ((r.base : Int) + ((List.range 3).map fun k => (i.getD (k + 1) 0 : Int) * r.stride.getD k 0).foldl (· + ·) 0) +
    i.getD 0 0 * formatBits r.format
/-- The byte address of an element's scale, before the db register (R240). -/
def LayoutRec.scaleAddress (r : LayoutRec) (i : List Nat) : Int :=
  r.scale + (i.getD 0 0 / 32 : Nat) +
    (r.size.getD 0 1 / 32 * (i.getD 1 0 + r.extent 1 * (i.getD 2 0 + r.extent 2 * i.getD 3 0)) : Nat)

/-- The coordinates of a box element: effective origin, row offset and column (R247). -/
def LayoutRec.coords (r : LayoutRec) (origin : List Int) (row : Int) (c : Nat) : List Int :=
  (List.range 4).map fun k =>
    origin.getD k 0 + (if k = r.rowdim then row else 0) + (if k = r.coldim then (c : Int) else 0)
/-- The effective origin (R247). -/
def LayoutRec.originWith (r : LayoutRec) (d : List Int) : List Int :=
  (List.range 4).map fun k => r.origin.getD k 0 + d.getD k 0
/-- Every coordinate lies inside its dimension. -/
def LayoutRec.inside (r : LayoutRec) (i : List Int) : Bool :=
  (List.range 4).all fun k => decide (0 ≤ i.getD k 0) && decide (i.getD k 0 < r.extent k)

/-! ### Storage formats (R244) -/

/-- A small signed floating-point code: exponent bits, fraction bits and bias, without infinity or NaN. -/
def smallValue (ebits fbits : Nat) (v : Nat) : Num :=
  let F : Fmt := ⟨ebits, fbits, false⟩
  let e := v / 2 ^ fbits % 2 ^ ebits
  let f := v % 2 ^ fbits
  let neg := v / 2 ^ (ebits + fbits) % 2 == 1
  if e = 0 then .fin neg f (F.emin - fbits) else .fin neg (f + 2 ^ fbits) (F.emin - fbits + (e - 1 : Int))

/-- A value scaled by 2^k. -/
def Num.scale (x : Num) (k : Int) : Num :=
  match x with
  | .fin n m e => .fin n m (e + k)
  | y => y

/-- The decoded value of a stored element v with scale byte s (R244). -/
def storageValue (f v s : Nat) : Num :=
  let mx (x : Num) : Num := if s = 0xFF then .nan false else x.scale ((s : Int) - 127)
  let int (n : Nat) : Num := let z := signedOf n v; .fin (z < 0) z.natAbs 0
  if f ≤ 8 then bfpValue f s v
  else
    match f with
    | 0x10 => mx (decodeNum e4m3 false v)
    | 0x11 => mx (decodeNum e5m2 false v)
    | 0x12 => mx (smallValue 2 3 v)
    | 0x13 => mx (smallValue 3 2 v)
    | 0x14 => mx (smallValue 2 1 v)
    | 0x15 => mx ((int 8).scale (-6))
    | 0x20 => decodeNum e4m3 false v
    | 0x21 => decodeNum e5m2 false v
    | 0x22 => decodeNum f16 false v
    | 0x23 => decodeNum bf16 false v
    | 0x24 => decodeNum f32 false v
    | 0x25 => int 8
    | _ => int 4

/-! ### Encoding (R249, R250) -/

/-- Elements as codes, the scale byte of a block, and the flags NANBLK and SAT. -/
structure Encoded where
  codes : List Nat
  scale : Nat
  nanblk : Bool
  sat : Bool
deriving DecidableEq, Repr, Inhabited

/-- A finite value rounded to a small format of largest magnitude maxMant × 2^maxExp, which it becomes beyond it (R250). -/
def roundSmall (F : Fmt) (x : Num) (mode : RMode) (maxMant : Nat) (maxExp : Int) : Nat × Bool :=
  match x with
  | .fin neg m e =>
    if m = 0 then (encodeFinite F neg 0 0, false)
    else
      let mode := match mode with
        | .rs d => if magLe m e maxMant maxExp then .rs d else .rne
        | y => y
      let q := max (ilog2 m e) F.emin - F.fbits
      let n := (roundInt neg m (e - q) mode).natAbs
      if magLe n q maxMant maxExp then (encodeFinite F neg n q, false) else (encodeFinite F neg maxMant maxExp, true)
  | _ => (0, false)

/-- One value into a format without blocks (R249). -/
def encodePlain (f : Nat) (x : Num) (mode : RMode) : Encoded :=
  let float (F : Fmt) : Encoded :=
    let (v, fl) := roundTo F false x mode
    ⟨[v], 0, x.isNan, fl &&& (flagOF ||| flagNV) != 0⟩
  let int (n : Nat) (lo hi : Int) : Encoded :=
    let (z, fl) := roundToInt lo hi x mode
    ⟨[(z % 2 ^ n).toNat], 0, x.isNan, !x.isNan && fl &&& flagNV != 0⟩
  match f with
  | 0x20 => float e4m3
  | 0x21 => float e5m2
  | 0x22 => float f16
  | 0x23 => float bf16
  | 0x24 => float f32
  | 0x25 => int 8 (-128) 127
  | _ => int 4 (-8) 7

/-- Element format, emax, and the largest finite element of an MX format (R250). -/
def mxElement (f : Nat) : Fmt × Int × Nat × Int :=
  match f with
  | 0x10 => (e4m3, 8, 7, 6)
  | 0x11 => (e5m2, 15, 7, 13)
  | 0x12 => (⟨2, 3, false⟩, 2, 15, -1)
  | 0x13 => (⟨3, 2, false⟩, 4, 7, 2)
  | _ => (⟨2, 1, false⟩, 2, 3, 1)

/-- A storage block of 32 values, with their modes, in an MX format (R250) or packed BFP (R249). -/
def encodeBlock (f : Nat) (xs : List (Num × RMode)) : Encoded :=
  if f ≤ 8 then
    let b := blockQuantise f xs
    ⟨b.mants.map fun z => (z % 2 ^ f).toNat, b.exp, b.nanblk, b.sat⟩
  else if (xs.map (·.1)).any Num.isSpecial then ⟨xs.map fun _ => 0, 0xFF, true, false⟩
  else
    match topExp (xs.map (·.1)) with
    | none => ⟨xs.map fun _ => 0, 0x7F, false, false⟩
    | some top =>
      if f = 0x15 then
        let X := clampInt (-127) 127 top
        let rs := xs.map fun x => roundToInt (-128) 127 (x.1.scale (6 - X)) x.2
        ⟨rs.map fun r => (r.1 % 256).toNat, (X + 127).toNat, false, rs.any fun r => r.2 &&& flagNV != 0⟩
      else
        let (F, emax, maxMant, maxExp) := mxElement f
        let X := clampInt (-127) 127 (top - emax)
        let rs := xs.map fun x => roundSmall F (x.1.scale (-X)) x.2 maxMant maxExp
        ⟨rs.map (·.1), (X + 127).toNat, false, rs.any (·.2)⟩

/-! ### The outlier split (R248) -/

/-- |x| > the threshold; a NaN never is. -/
def exceeds (thresh : Nat) (x : Num) : Bool :=
  match x with
  | .nan _ => false
  | .inf _ => true
  | .fin _ m e => ltNum (decodeNum f16 false thresh) (.fin false m e)

/-- The columns that split, in ascending order, at most 32, and whether one more exceeded the threshold. -/
def splitColumns (rows boxc thresh : Nat) (x : Nat → Nat → Num) : List Nat × Bool :=
  let above := (List.range boxc).filter fun c => (List.range rows).any fun r => exceeds thresh (x r c)
  (above.take 32, decide (32 < above.length))

/-- The values after the split: halves in the column and in its appended copy. -/
def splitValue (boxc : Nat) (cols : List Nat) (x : Nat → Nat → Num) (r c : Nat) : Num :=
  if c < boxc then (if cols.contains c then (x r c).scale (-1) else x r c)
  else
    match cols[c - boxc]? with
    | some k => (x r k).scale (-1)
    | none => .fin false 0 0

end Sys2Proof.Machine
end

