-- ==== Sys2Proof/Machine/Flags.lean ====
section
/-!
DEFINITION. Floating-point flags of the lane engine: raising them into FPFLAGS (R134), the arithmetic trap (R135),
and the completion of a lane instruction that raises flags, at once or when its result lands.
-/

namespace Sys2Proof.Machine

/-- The flags whose trap FPMODE.TRAPEN enables (R133). -/
def trapEnabled (fpmode : W32) : Flags := (fpmode >>> 4).setWidth 5

/-- ORs flags into FPFLAGS (R134). -/
def Group.raise (g : Group) (fl : Flags) : Group := { g with fpflags := g.fpflags ||| fl.setWidth 32 }

/-- Completes a fixed-latency lane instruction of n words that leaves the group as g and raises fl: an enabled flag
takes the arithmetic trap with TRAPPC the next instruction (R135). -/
def Ctx.doneFlags (x : Ctx) (s : State) (g : Group) (fl : Flags) (m : Bool) (n : Nat) : Out :=
  let g' := (g.raise fl).advance x.frag m n
  let s' := x.put s g'
  let hit := fl &&& trapEnabled g.fpmode
  if hit = 0 then .next s'
  else .next (takeTrap x.core x.slot x.frag 3 ((g'.frags[x.frag]?.map (·.pc)).getD 0) s.ir (hit.setWidth 32) s')

end Sys2Proof.Machine
end

