-- ==== Sys2Proof/Machine/Operands.lean ====
section
/-!
DEFINITION. Operand forms: lane instructions over the active threads (R42, R98), uniform instructions (R43),
register pairs and quads (R44), packed halves (R146), blocks of g registers (R99), and the results of
variable-latency instructions (R62).
-/

namespace Sys2Proof.Machine

/-- A lane instruction of n words that writes d[t] := f t in each active thread and raises nothing; it waits while a
source it reads is a pending g register (R42, R98, R115). -/
def laneMap (m : Bool) (n d : Nat) (srcs : List Nat) (f : Ctx → Nat → W32) (s : State) : Out :=
  onFrag s fun x =>
    if x.f.k0 ≠ 0 ∧ x.waitsOn srcs then .next s
    else x.done s (x.g.writeLanes x.g.handler d (f x) (threadsOf x.f.k0)) m n

/-- A lane instruction that also raises flags per thread. -/
def laneMapF (m : Bool) (d : Nat) (srcs : List Nat) (f : Ctx → Nat → W32 × Flags) (s : State) : Out :=
  onFrag s fun x =>
    if x.f.k0 ≠ 0 ∧ x.waitsOn srcs then .next s
    else
      let ts := threadsOf x.f.k0
      x.doneFlags s (x.g.writeLanes x.g.handler d (fun t => (f x t).1) ts) (flagUnion (ts.map fun t => (f x t).2)) m 1

/-- A lane instruction that writes bit t of mask k from thread t, raising flags (R97, R140). -/
def laneCompare (m : Bool) (k : Nat) (srcs : List Nat) (f : Ctx → Nat → Bool × Flags) (s : State) : Out :=
  onFrag s fun x =>
    if x.f.k0 ≠ 0 ∧ x.waitsOn srcs then .next s
    else
      let ts := threadsOf x.f.k0
      x.doneFlags s (x.writeMaskLane x.g k x.f.k0 (maskOf fun t => x.f.k0.getLsbD t && (f x t).1))
        (flagUnion (ts.map fun t => (f x t).2)) m 1

/-- A uniform instruction of n words that writes register d; it waits while a source is pending (R43, R115). -/
def uniMap (m : Bool) (n d : Nat) (srcs : List Nat) (f : Ctx → W32) (s : State) : Out :=
  onFrag s fun x =>
    if x.waitsOn srcs then .next s else x.done s (x.writeUni x.g d (f x)) m n

/-- A pair of registers as one value, low register first (R44). -/
def pairOf (lo hi : W32) : W64 := hi ++ lo
/-- A register pair read uniformly (R43, R44). -/
def Ctx.uniPair (x : Ctx) (r : Nat) : W64 := pairOf (x.uni r) (x.uni (r + 1))
/-- A register pair in thread t. -/
def Ctx.lanePair (x : Ctx) (r t : Nat) : W64 := pairOf (x.lane r t) (x.lane (r + 1) t)

/-- The values of n consecutive registers of thread t, from r up. -/
def Ctx.laneRegs (x : Ctx) (r n t : Nat) : List W32 := (List.range n).map fun i => x.lane (r + i) t

/-- An element of a packed register: half 0 is bits 15:0 (R146). -/
def half (x : W32) (i : Nat) : Nat := x.toNat / 2 ^ (16 * i) % 2 ^ 16
/-- A packed register from its halves. -/
def packHalves (lo hi : Nat) : W32 := BitVec.ofNat 32 (lo % 2 ^ 16 + hi % 2 ^ 16 * 2 ^ 16)

/-- Applies an operation of one element to one register value of type f (R146). -/
def elementwise (f : FloatType) (op : Fmt → List Nat → Nat × Flags) (args : List W32) : W32 × Flags :=
  match f with
  | .f32 => let (r, fl) := op Machine.f32 (args.map (·.toNat)); (BitVec.ofNat 32 r, fl)
  | .f16x2 =>
    let (r0, fl0) := op f16 (args.map (half · 0))
    let (r1, fl1) := op f16 (args.map (half · 1))
    (packHalves r0 r1, fl0 ||| fl1)
  | .bf16x2 =>
    let (r0, fl0) := op bf16 (args.map (half · 0))
    let (r1, fl1) := op bf16 (args.map (half · 1))
    (packHalves r0 r1, fl0 ||| fl1)

/-! ### Results that land later (R62) -/

/-- The values of a pending result: register d + i of each listed thread. -/
def pendVals (d : Nat) (f : Nat → List W32) (ts : List Nat) : Map W32 :=
  ts.foldl (fun vals t =>
    (List.range (f t).length).foldl (fun vals i => vals.set ((d + i) * 64 + t) ((f t).getD i 0)) vals) Map.empty

/-- Issues a variable-latency lane instruction: thread t of k0 is to receive f t in d, d + 1, …; a thread without
values keeps its registers; mask is a mask destination with its bits (R62, R97). -/
def Ctx.sendLanes (x : Ctx) (g : Group) (word : W32) (d : Nat) (f : Nat → List W32) (mask : Option (Nat × Mask))
    (fl : Flags) (sweep : Option Nat) : Group :=
  if x.f.k0 = 0 then g
  else { g with pend := g.pend ++ [
    { handlerBank := g.handler, word := word, issued := x.f.k0, threads := x.f.k0, vals := pendVals d f (threadsOf x.f.k0)
      mask := mask, handle := none, flags := fl, sweep := sweep, trapen := trapEnabled g.fpmode, stamp := 0 }] }

/-- A variable-latency lane instruction of one word and one destination register. -/
def laneSend (m : Bool) (d : Nat) (srcs : List Nat) (f : Ctx → Nat → W32) (fl : Ctx → Flags) (s : State) : Out :=
  onFrag s fun x =>
    if x.f.k0 ≠ 0 ∧ x.waitsOn srcs then .next s
    else x.done s (x.sendLanes x.g s.ir d (fun t => [f x t]) none (fl x) none) m 1

end Sys2Proof.Machine
end

