-- ==== Sys2Proof/Machine/LaneInt.lean ====
section
/-!
DEFINITION. Integer, bit, comparison and move instructions of the lane engine (R137 to R142), over the functions of
R112, R138 and R139, which the uniform instructions share.
-/

namespace Sys2Proof.Machine

/-! ### Functions of R112, R138 and R139 -/

def aluAdd (a b : W32) : W32 := a + b
def aluSub (a b : W32) : W32 := a - b
def aluAnd (a b : W32) : W32 := a &&& b
def aluOr (a b : W32) : W32 := a ||| b
def aluXor (a b : W32) : W32 := a ^^^ b
def aluAndn (a b : W32) : W32 := a &&& ~~~b
def aluMinZ (a b : W32) : W32 := if a.ult b then a else b
def aluMaxZ (a b : W32) : W32 := if a.ult b then b else a
def aluAddsatS (a b : W32) : W32 := BitVec.ofInt 32 (clampInt (-2147483648) 2147483647 (a.toInt + b.toInt))
def aluSubsatS (a b : W32) : W32 := BitVec.ofInt 32 (clampInt (-2147483648) 2147483647 (a.toInt - b.toInt))
def aluAddsatZ (a b : W32) : W32 := BitVec.ofInt 32 (clampInt 0 4294967295 ((a.toNat : Int) + b.toNat))
def aluSubsatZ (a b : W32) : W32 := BitVec.ofInt 32 (clampInt 0 4294967295 ((a.toNat : Int) - b.toNat))
/-- |s(a) − s(b)| as an unsigned value. -/
def aluAbsd (a b : W32) : W32 := BitVec.ofNat 32 (a.toInt - b.toInt).natAbs
def aluAbs (a : W32) : W32 := BitVec.ofNat 32 a.toInt.natAbs
/-- Shift amounts are b<4:0>. -/
def shiftAmount (b : W32) : Nat := b.toNat % 32
def aluShl (a b : W32) : W32 := a <<< shiftAmount b
def aluShr (a b : W32) : W32 := a >>> shiftAmount b
def aluSar (a b : W32) : W32 := a.sshiftRight (shiftAmount b)
def aluRol (a b : W32) : W32 := a.rotateLeft (shiftAmount b)
def aluRor (a b : W32) : W32 := a.rotateRight (shiftAmount b)
def aluMul (a b : W32) : W32 := a * b
/-- Bits 63:32 of a product. -/
def highHalf (p : Int) : W32 := BitVec.ofInt 32 (p / 4294967296)
def aluMulhS (a b : W32) : W32 := highHalf (a.toInt * b.toInt)
def aluMulhZ (a b : W32) : W32 := highHalf ((a.toNat : Int) * b.toNat)
def aluMulhSz (a b : W32) : W32 := highHalf (a.toInt * b.toNat)
/-- Quotient toward zero; divisor 0 gives all ones; −2^31 / −1 wraps to 0x8000_0000. -/
def aluDivS (a b : W32) : W32 := if b = 0 then 0xFFFFFFFF else BitVec.ofInt 32 (a.toInt.tdiv b.toInt)
def aluDivZ (a b : W32) : W32 := if b = 0 then 0xFFFFFFFF else BitVec.ofNat 32 (a.toNat / b.toNat)
/-- Remainder with the sign of the dividend; divisor 0 gives a. -/
def aluRemS (a b : W32) : W32 := if b = 0 then a else BitVec.ofInt 32 (a.toInt.tmod b.toInt)
def aluRemZ (a b : W32) : W32 := if b = 0 then a else BitVec.ofNat 32 (a.toNat % b.toNat)
def aluClz (a : W32) : W32 := if a = 0 then 32 else BitVec.ofNat 32 (31 - Nat.log2 a.toNat)
/-- The bits of a word, lowest first. -/
def bitsOf (a : W32) : List Bool := (List.range 32).map a.getLsbD
def aluCtz (a : W32) : W32 := BitVec.ofNat 32 ((bitsOf a).takeWhile (!·)).length
def aluPopc (a : W32) : W32 := BitVec.ofNat 32 ((bitsOf a).filter id).length
def aluBrev (a : W32) : W32 := a.reverse
def aluBswap (a : W32) : W32 :=
  (a <<< 24) ||| ((a <<< 8) &&& 0x00FF0000) ||| ((a >>> 8) &&& 0x0000FF00) ||| (a >>> 24)
def aluSxb (a : W32) : W32 := (a.setWidth 8).signExtend 32
def aluSxh (a : W32) : W32 := (a.setWidth 16).signExtend 32
def aluZxh (a : W32) : W32 := a &&& 0xFFFF
/-- Position, effective length and mask of a bit field (R139). -/
def bfPos (b : W32) : Nat := b.toNat % 32
def bfLen (b : W32) : Nat := min (b.toNat / 32 % 64) (32 - bfPos b)
def bfMask (b : W32) : W32 := BitVec.ofNat 32 (2 ^ bfLen b - 1) <<< bfPos b
def aluBfxS (a b : W32) : W32 :=
  if bfLen b = 0 then 0 else BitVec.ofInt 32 (signedOf (bfLen b) (a >>> bfPos b).toNat)
def aluBfxZ (a b : W32) : W32 := (a &&& bfMask b) >>> bfPos b
def aluBfi (d a b : W32) : W32 := (d &&& ~~~bfMask b) ||| ((a <<< bfPos b) &&& bfMask b)
/-- A 10-bit immediate, sign-extended (R51). -/
def imm10 (i : BitVec 10) : W32 := i.signExtend 32
/-- The shift of `shi` (R138). -/
def aluShi (k : ShiftKind) (a : W32) (n : Nat) : W32 :=
  match k with
  | .shl => a <<< n
  | .shr => a >>> n
  | .sar => a.sshiftRight n
  | .rol => a.rotateLeft n
/-- The conditions of ICMP and `ucmp` (R112, R140). -/
def intHolds (c : IntCond) (a b : W32) : Bool :=
  match c with
  | .eq => a == b
  | .ne => a != b
  | .lt => a.slt b
  | .le => a.sle b
  | .gt => b.slt a
  | .ge => b.sle a
  | .ltz => a.msb
  | .gez => !a.msb

/-! ### Lane instructions -/

/-- add (R137). -/
def execAdd (m : Bool) (d a b : Nat) (s : State) : Out :=
  laneMap m 1 d [a, b] (fun x t => aluAdd (x.lane a t) (x.lane b t)) s
/-- sub (R137). -/
def execSub (m : Bool) (d a b : Nat) (s : State) : Out :=
  laneMap m 1 d [a, b] (fun x t => aluSub (x.lane a t) (x.lane b t)) s
/-- and (R137). -/
def execAnd (m : Bool) (d a b : Nat) (s : State) : Out :=
  laneMap m 1 d [a, b] (fun x t => aluAnd (x.lane a t) (x.lane b t)) s
/-- or (R137). -/
def execOr (m : Bool) (d a b : Nat) (s : State) : Out :=
  laneMap m 1 d [a, b] (fun x t => aluOr (x.lane a t) (x.lane b t)) s
/-- xor (R137). -/
def execXor (m : Bool) (d a b : Nat) (s : State) : Out :=
  laneMap m 1 d [a, b] (fun x t => aluXor (x.lane a t) (x.lane b t)) s
/-- andn (R137). -/
def execAndn (m : Bool) (d a b : Nat) (s : State) : Out :=
  laneMap m 1 d [a, b] (fun x t => aluAndn (x.lane a t) (x.lane b t)) s
/-- minS32 (R137). -/
def execMinS32 (m : Bool) (d a b : Nat) (s : State) : Out :=
  laneMap m 1 d [a, b] (fun x t => aluMinS (x.lane a t) (x.lane b t)) s
/-- maxS32 (R137). -/
def execMaxS32 (m : Bool) (d a b : Nat) (s : State) : Out :=
  laneMap m 1 d [a, b] (fun x t => aluMaxS (x.lane a t) (x.lane b t)) s
/-- minZ32 (R137). -/
def execMinZ32 (m : Bool) (d a b : Nat) (s : State) : Out :=
  laneMap m 1 d [a, b] (fun x t => aluMinZ (x.lane a t) (x.lane b t)) s
/-- maxZ32 (R137). -/
def execMaxZ32 (m : Bool) (d a b : Nat) (s : State) : Out :=
  laneMap m 1 d [a, b] (fun x t => aluMaxZ (x.lane a t) (x.lane b t)) s
/-- addsatS32 (R137). -/
def execAddsatS32 (m : Bool) (d a b : Nat) (s : State) : Out :=
  laneMap m 1 d [a, b] (fun x t => aluAddsatS (x.lane a t) (x.lane b t)) s
/-- subsatS32 (R137). -/
def execSubsatS32 (m : Bool) (d a b : Nat) (s : State) : Out :=
  laneMap m 1 d [a, b] (fun x t => aluSubsatS (x.lane a t) (x.lane b t)) s
/-- addsatZ32 (R137). -/
def execAddsatZ32 (m : Bool) (d a b : Nat) (s : State) : Out :=
  laneMap m 1 d [a, b] (fun x t => aluAddsatZ (x.lane a t) (x.lane b t)) s
/-- subsatZ32 (R137). -/
def execSubsatZ32 (m : Bool) (d a b : Nat) (s : State) : Out :=
  laneMap m 1 d [a, b] (fun x t => aluSubsatZ (x.lane a t) (x.lane b t)) s
/-- absd (R137). -/
def execAbsd (m : Bool) (d a b : Nat) (s : State) : Out :=
  laneMap m 1 d [a, b] (fun x t => aluAbsd (x.lane a t) (x.lane b t)) s
/-- shl (R137). -/
def execShl (m : Bool) (d a b : Nat) (s : State) : Out :=
  laneMap m 1 d [a, b] (fun x t => aluShl (x.lane a t) (x.lane b t)) s
/-- shr (R137). -/
def execShr (m : Bool) (d a b : Nat) (s : State) : Out :=
  laneMap m 1 d [a, b] (fun x t => aluShr (x.lane a t) (x.lane b t)) s
/-- sar (R137). -/
def execSar (m : Bool) (d a b : Nat) (s : State) : Out :=
  laneMap m 1 d [a, b] (fun x t => aluSar (x.lane a t) (x.lane b t)) s
/-- rol (R137). -/
def execRol (m : Bool) (d a b : Nat) (s : State) : Out :=
  laneMap m 1 d [a, b] (fun x t => aluRol (x.lane a t) (x.lane b t)) s
/-- ror (R137). -/
def execRor (m : Bool) (d a b : Nat) (s : State) : Out :=
  laneMap m 1 d [a, b] (fun x t => aluRor (x.lane a t) (x.lane b t)) s
/-- mul (R137). -/
def execMul (m : Bool) (d a b : Nat) (s : State) : Out :=
  laneMap m 1 d [a, b] (fun x t => aluMul (x.lane a t) (x.lane b t)) s
/-- mulhS32 (R137). -/
def execMulhS32 (m : Bool) (d a b : Nat) (s : State) : Out :=
  laneMap m 1 d [a, b] (fun x t => aluMulhS (x.lane a t) (x.lane b t)) s
/-- mulhZ32 (R137). -/
def execMulhZ32 (m : Bool) (d a b : Nat) (s : State) : Out :=
  laneMap m 1 d [a, b] (fun x t => aluMulhZ (x.lane a t) (x.lane b t)) s
/-- mulhSz32 (R137). -/
def execMulhSz32 (m : Bool) (d a b : Nat) (s : State) : Out :=
  laneMap m 1 d [a, b] (fun x t => aluMulhSz (x.lane a t) (x.lane b t)) s
/-- divS32 (R137). -/
def execDivS32 (m : Bool) (d a b : Nat) (s : State) : Out :=
  laneMap m 1 d [a, b] (fun x t => aluDivS (x.lane a t) (x.lane b t)) s
/-- divZ32 (R137). -/
def execDivZ32 (m : Bool) (d a b : Nat) (s : State) : Out :=
  laneMap m 1 d [a, b] (fun x t => aluDivZ (x.lane a t) (x.lane b t)) s
/-- remS32 (R137). -/
def execRemS32 (m : Bool) (d a b : Nat) (s : State) : Out :=
  laneMap m 1 d [a, b] (fun x t => aluRemS (x.lane a t) (x.lane b t)) s
/-- remZ32 (R137). -/
def execRemZ32 (m : Bool) (d a b : Nat) (s : State) : Out :=
  laneMap m 1 d [a, b] (fun x t => aluRemZ (x.lane a t) (x.lane b t)) s
/-- bfxS32 (R137, R139). -/
def execBfxS32 (m : Bool) (d a b : Nat) (s : State) : Out :=
  laneMap m 1 d [a, b] (fun x t => aluBfxS (x.lane a t) (x.lane b t)) s
/-- bfxZ32 (R137, R139). -/
def execBfxZ32 (m : Bool) (d a b : Nat) (s : State) : Out :=
  laneMap m 1 d [a, b] (fun x t => aluBfxZ (x.lane a t) (x.lane b t)) s
/-- abs (R137, R138). -/
def execAbs (m : Bool) (d a : Nat) (s : State) : Out :=
  laneMap m 1 d [a] (fun x t => aluAbs (x.lane a t)) s
/-- clz (R137, R138). -/
def execClz (m : Bool) (d a : Nat) (s : State) : Out :=
  laneMap m 1 d [a] (fun x t => aluClz (x.lane a t)) s
/-- ctz (R137, R138). -/
def execCtz (m : Bool) (d a : Nat) (s : State) : Out :=
  laneMap m 1 d [a] (fun x t => aluCtz (x.lane a t)) s
/-- popc (R137, R138). -/
def execPopc (m : Bool) (d a : Nat) (s : State) : Out :=
  laneMap m 1 d [a] (fun x t => aluPopc (x.lane a t)) s
/-- brev (R137, R138). -/
def execBrev (m : Bool) (d a : Nat) (s : State) : Out :=
  laneMap m 1 d [a] (fun x t => aluBrev (x.lane a t)) s
/-- bswap (R137, R138). -/
def execBswap (m : Bool) (d a : Nat) (s : State) : Out :=
  laneMap m 1 d [a] (fun x t => aluBswap (x.lane a t)) s
/-- sxb (R137, R138). -/
def execSxb (m : Bool) (d a : Nat) (s : State) : Out :=
  laneMap m 1 d [a] (fun x t => aluSxb (x.lane a t)) s
/-- sxh (R137, R138). -/
def execSxh (m : Bool) (d a : Nat) (s : State) : Out :=
  laneMap m 1 d [a] (fun x t => aluSxh (x.lane a t)) s
/-- zxh (R137, R138). -/
def execZxh (m : Bool) (d a : Nat) (s : State) : Out :=
  laneMap m 1 d [a] (fun x t => aluZxh (x.lane a t)) s
/-- mad: d is a source too (R138). -/
def execMad (m : Bool) (d a b : Nat) (s : State) : Out :=
  laneMap m 1 d [a, b] (fun x t => x.lane d t + x.lane a t * x.lane b t) s
/-- msb: d is a source too (R138). -/
def execMsb (m : Bool) (d a b : Nat) (s : State) : Out :=
  laneMap m 1 d [a, b] (fun x t => x.lane d t - x.lane a t * x.lane b t) s
/-- bfi: d is a source too (R139). -/
def execBfi (m : Bool) (d a b : Nat) (s : State) : Out :=
  laneMap m 1 d [a, b] (fun x t => aluBfi (x.lane d t) (x.lane a t) (x.lane b t)) s
/-- addi (R138). -/
def execAddi (m : Bool) (d a : Nat) (i : BitVec 10) (s : State) : Out :=
  laneMap m 1 d [a] (fun x t => x.lane a t + imm10 i) s
/-- andi (R138). -/
def execAndi (m : Bool) (d a : Nat) (i : BitVec 10) (s : State) : Out :=
  laneMap m 1 d [a] (fun x t => x.lane a t &&& imm10 i) s
/-- ori (R138). -/
def execOri (m : Bool) (d a : Nat) (i : BitVec 10) (s : State) : Out :=
  laneMap m 1 d [a] (fun x t => x.lane a t ||| imm10 i) s
/-- xori (R138). -/
def execXori (m : Bool) (d a : Nat) (i : BitVec 10) (s : State) : Out :=
  laneMap m 1 d [a] (fun x t => x.lane a t ^^^ imm10 i) s
/-- muli (R138). -/
def execMuli (m : Bool) (d a : Nat) (i : BitVec 10) (s : State) : Out :=
  laneMap m 1 d [a] (fun x t => x.lane a t * imm10 i) s
/-- shi (R138). -/
def execShi (m : Bool) (d a : Nat) (k : ShiftKind) (n : Nat) (s : State) : Out :=
  laneMap m 1 d [a] (fun x t => aluShi k (x.lane a t) n) s
/-- movl (R138). -/
def execMovl (m : Bool) (d : Nat) (lit : W32) (s : State) : Out := laneMap m 2 d [] (fun _ _ => lit) s
/-- addl (R138). -/
def execAddl (m : Bool) (d : Nat) (lit : W32) (s : State) : Out :=
  laneMap m 2 d [] (fun x t => x.lane d t + lit) s
/-- andl (R138). -/
def execAndl (m : Bool) (d : Nat) (lit : W32) (s : State) : Out :=
  laneMap m 2 d [] (fun x t => x.lane d t &&& lit) s
/-- orl (R138). -/
def execOrl (m : Bool) (d : Nat) (lit : W32) (s : State) : Out :=
  laneMap m 2 d [] (fun x t => x.lane d t ||| lit) s
/-- lea (R138). -/
def execLea (m : Bool) (h d a b : Nat) (s : State) : Out :=
  laneMap m 1 d [a, b] (fun x t => x.lane a t + (x.lane b t <<< h)) s

/-! ### Comparison, selection and moves (R140 to R142) -/

/-- ICMP (R140). -/
def execIcmp (m : Bool) (c : IntCond) (k a b : Nat) (s : State) : Out :=
  laneCompare m k [a, b] (fun x t => (intHolds c (x.lane a t) (x.lane b t), 0)) s
/-- sel (R141). -/
def execSel (m : Bool) (k d a b : Nat) (s : State) : Out :=
  laneMap m 1 d [a, b] (fun x t => if (x.mask k).getLsbD t then x.lane a t else x.lane b t) s
/-- mov (R142). -/
def execMov (m : Bool) (d a : Nat) (s : State) : Out := laneMap m 1 d [a] (fun x t => x.lane a t) s
/-- kbit (R142). -/
def execKbit (m : Bool) (d k : Nat) (s : State) : Out :=
  laneMap m 1 d [] (fun x t => if (x.mask k).getLsbD t then 1 else 0) s
/-- tid (R142). -/
def execTid (m : Bool) (d : Nat) (s : State) : Out := laneMap m 1 d [] (fun _ t => BitVec.ofNat 32 t) s
/-- LTHREAD of thread t (R142). DESIGN CHOICE (notes/assumptions/19.md): in the team of a task too, G is the GROUPS of the launch's
kernel. -/
def Ctx.lthread (x : Ctx) (t : Nat) : Nat := ((x.team.teamIx * x.launch.kernel.groups + x.g.gix) * 64 + t) % 2 ^ 32
/-- The special values of `sysv` (R142). -/
def Ctx.special (x : Ctx) (n t : Nat) : W32 :=
  match n with
  | 0 => BitVec.ofNat 32 (x.lthread t)
  | 1 => BitVec.ofNat 32 ((threadsOf x.f.k0).filter (· < t)).length
  | 2 => BitVec.ofNat 32 (countOf x.f.k0)
  | _ => x.g.srcnt.getZ t
/-- sysv (R142). -/
def execSysv (m : Bool) (d n : Nat) (s : State) : Out := laneMap m 1 d [] (fun x t => x.special n t) s

end Sys2Proof.Machine
end

