-- ==== Sys2Proof/Machine/Translate.lean ====
section
/-!
DEFINITION. Address translation (R185 to R189), the translation buffers (R188), security worlds (R489), the error log
(R493), and recoverable faults: fault records and fault rings (R191, R192, R491).
-/

namespace Sys2Proof.Machine

/-! ### Physical places -/

/-- Where a byte of global memory lies, and whose it is (R180, R187, R202). -/
inductive Home
  | unit (core : Nat)
  | die (d : Nat)
  | hbm (d : Nat)
  | host (port : Nat)
  | peer (m die : Nat)
deriving DecidableEq, Repr, Inhabited

/-- The number of backed bytes of a die's HBM (R187). -/
def hbmBytes : Nat := 256 * 10 ^ 9
/-- The die and offset of an HBM physical address, interleaved module-wide or die-local (R187). -/
def hbmSplit (il : Bool) (pa : Nat) : Nat × Nat :=
  if il then (pa / 2 ^ 12 % 8, pa / 2 ^ 15 * 2 ^ 12 + pa % 2 ^ 12) else (pa / 2 ^ 38, pa % 2 ^ 38)
/-- The place in memory of an HBM physical address. -/
def hbmPlace (il : Bool) (pa : Nat) : Nat := let (d, o) := hbmSplit il pa; hbmKey d o
/-- Every byte of the block of size n at pa is backed (R187). -/
def hbmBacked (il : Bool) (pa n : Nat) : Bool :=
  decide (pa + n ≤ 2 ^ 41) &&
    (if il then decide (pa + n ≤ 8 * hbmBytes)
     else decide (pa / 2 ^ 38 = (pa + n - 1) / 2 ^ 38) && decide (pa % 2 ^ 38 + n ≤ hbmBytes))

/-! ### Page-table entries (R186) -/

def entryField (e lo n : Nat) : Nat := e / 2 ^ lo % 2 ^ n
def entryValid (e : Nat) : Bool := entryField e 0 1 == 1
def entryLeaf (e : Nat) : Bool := entryField e 1 1 == 1
def entryIl (e : Nat) : Bool := entryField e 6 1 == 1
def entryTarget (e : Nat) : Nat := entryField e 56 4
def entryPeer (e : Nat) : Nat := entryField e 48 8
def entryPa (e : Nat) : Nat := entryField e 16 32 * 2 ^ 16
/-- The bits of an offset within a page that a leaf at a level maps (R185). -/
def levelShift (level : Nat) : Nat := 13 * level + 3
/-- A valid entry breaks a rule of R186 or R187. -/
def entryMalformed (level e : Nat) : Bool :=
  let size := if entryLeaf e then 2 ^ levelShift level else 2 ^ 16
  entryField e 60 4 != 0 || decide (3 < entryTarget e) || (entryTarget e != 3 && entryPeer e != 0) ||
    entryField e 7 9 != 0 || entryField e 2 1 != 0 || (level == 1 && !entryLeaf e) ||
    (entryLeaf e && entryPa e % size != 0) || (!entryLeaf e && entryTarget e != 0) ||
    (entryTarget e == 0 && !hbmBacked (entryIl e) (entryPa e) size)

/-- What an access does to a page (R189). -/
inductive Access
  | read | write | atomic
deriving DecidableEq, Repr, Inhabited

/-- ACC of R193 and ACCESS of R192. -/
def Access.code : Access → Nat
  | .read => 0
  | .write => 1
  | .atomic => 2

/-- A leaf forbids the access: kinds 2 to 4 of R189. -/
def entryForbids (e : Nat) (a : Access) : Option Nat :=
  let r := entryField e 3 1 == 1
  let w := entryField e 4 1 == 1
  let atm := entryField e 5 1 == 1
  match a with
  | .read => if r then none else some 3
  | .write => if w then none else some 2
  | .atomic => if r && w && atm then none else some 4

/-- The end of a walk: a leaf with its level and its own address, or a failure of kind 1 or 5. -/
inductive Walk
  | leaf (level entry addr : Nat)
  | fail (kind level addr : Nat)
deriving DecidableEq, Repr, Inhabited

/-- Walks the tables from one at pa, a level down at each entry (R185); read gives the entry of a level at a place. -/
def walkTables (read : Nat → Nat → Nat) (va : Nat) : Nat → Bool → Nat → Walk
  | 0, _, pa => .fail 5 1 pa
  | level + 1, il, pa =>
    let addr := pa + 8 * (va / 2 ^ levelShift (level + 1) % 8192)
    let e := read (level + 1) (hbmPlace il addr)
    if !entryValid e then .fail 1 (level + 1) addr
    else if entryMalformed (level + 1) e then .fail 5 (level + 1) addr
    else if entryLeaf e then .leaf (level + 1) e addr
    else walkTables read va level (entryIl e) (entryPa e)

/-- A context's record, or one that is not live. -/
def State.context (s : State) (n : Nat) : Context :=
  s.contexts.get n ⟨false, 0, 0, 0, 0, 0, 0, 0, false, none, 0, false⟩

/-- The table entry at a place, as memory stands. -/
def State.tableEntry (s : State) (place : Nat) : Nat := leNat (s.mem.bytes place 8)
/-- The walk of an address in a context. -/
def State.walk (s : State) (ctx va : Nat) : Walk := walkTables (fun _ p => s.tableEntry p) va 3 false (s.context ctx).root

/-- The other entries that a translation buffer may still hold for a level of an address at a place (R188). -/
def State.oldEntries (s : State) (ctx va level place : Nat) : List Nat :=
  (s.tlb.filter fun t => t.ctx = ctx ∧ t.base ≤ va ∧ va < t.base + t.size ∧ t.size = 2 ^ levelShift level ∧ t.place = place ∧
    t.entry.toNat ≠ s.tableEntry place).map fun t => t.entry.toNat

/-- The translation an access uses: at each level the table's entry, or after a change that no invalidation has covered, either the old
entry or the new one, freely for each access (R188). -/
def State.translation (s : State) (ctx va salt : Nat) : Walk :=
  let read (level place : Nat) : Nat :=
    let now := s.tableEntry place
    let choices := now :: s.oldEntries ctx va level place
    choices.getD (if choices.length ≤ 1 then 0 else Config.choice s.tick (4 * salt + level) % choices.length) now
  walkTables read va 3 false (s.context ctx).root

/-- The entries that a walker can read for an address from a table at pa down, each with its level and place: valid ones that are not
malformed, in the tables as they stand or below an entry that a buffer still holds (R188). -/
def State.walked (s : State) (ctx va : Nat) : Nat → Bool → Nat → List (Nat × Nat × Nat)
  | 0, _, _ => []
  | level + 1, il, pa =>
    let place := hbmPlace il (pa + 8 * (va / 2 ^ levelShift (level + 1) % 8192))
    (s.tableEntry place :: s.oldEntries ctx va (level + 1) place).flatMap fun e =>
      if !entryValid e || entryMalformed (level + 1) e then []
      else (level + 1, place, e) :: (if entryLeaf e then [] else s.walked ctx va level (entryIl e) (entryPa e))

/-- Records the entries that a walk of an address finds (R188). -/
def State.fillTlb (s : State) (ctx va : Nat) : State :=
  (s.walked ctx va 3 false (s.context ctx).root).foldl (fun s w =>
    let size := 2 ^ levelShift w.1
    let t : TlbEntry := ⟨ctx, va / size * size, size, BitVec.ofNat 64 w.2.2, w.2.1⟩
    if s.tlb.contains t then s else { s with tlb := s.tlb ++ [t] }) s

/-! ### Security worlds (R489) -/

/-- A physical address of the module's HBM lies in a secure region. -/
def State.securePa (s : State) (pa : Nat) : Bool :=
  s.secRegions.any fun r => r.secure && decide (r.base ≤ pa) && decide (pa < r.base + r.units * 2 ^ 16)
/-- A block of a core is secure: an engine class, 8 and 9 for the hods, or 10 for the store engine. -/
def State.secureBlock (s : State) (core b : Nat) : Bool := s.secBlocks.contains (16 * core + b)
/-- A context's agents are secure. -/
def State.secureCtx (s : State) (ctx : Nat) : Bool := (s.context ctx).secure
/-- An access that a block of a core makes for a context counts as secure: neither is non-secure (R489). -/
def State.secureBy (s : State) (core b ctx : Nat) : Bool := s.secureBlock core b && s.secureCtx ctx
/-- The block that makes lane accesses. -/
def storeEngine : Nat := 10

/-! ### Resolving ranges of global memory -/

/-- Why an access of a range fails: its kind of R189 with level, address and entry, or a world violation. -/
inductive Refused
  | page (kind level va entryAddr : Nat)
  | world (va : Nat)
deriving DecidableEq, Repr, Inhabited

/-- The place and home of one byte under a leaf; a leaf may name this module as a peer (R436). -/
def leafPlace (level e va : Nat) : Nat × Home × Nat :=
  let pa := entryPa e + va % 2 ^ levelShift level
  match entryTarget e with
  | 0 => (hbmPlace (entryIl e) pa, .hbm (hbmSplit (entryIl e) pa).1, pa)
  | 1 => (hostKey 0 pa, .host 0, pa)
  | 2 => (hostKey 1 pa, .host 1, pa)
  | _ =>
    if entryPeer e = Config.moduleIndex ∧ hbmBacked (entryIl e) pa 1 then
      (hbmPlace (entryIl e) pa, .hbm (hbmSplit (entryIl e) pa).1, pa)
    else (peerKey (entryPeer e) pa, .peer (entryPeer e) (hbmSplit (entryIl e) pa).1, pa)

/-- The failure of a page part before those of the parts above it: it stands, but that kind 5 of one above comes first (R190). So it is
also in a context without a fault ring, where the two tie: a DESIGN CHOICE (notes/assumptions/30.md). -/
def Refused.before (kind level va addr : Nat) (rest : Except Refused (List (Nat × Home))) : Refused :=
  match rest with
  | .error (.page 5 level' va' addr') => if kind = 5 then .page kind level va addr else .page 5 level' va' addr'
  | _ => .page kind level va addr

/-- The places of n bytes of a context's memory from va up, page part by page part, with their homes; a failure of R189 of
kind 5 decides, then the first one of another kind, then a world violation of a non-secure agent (R190). -/
def State.resolve (s : State) (ctx : Nat) (a : Access) (secure : Bool) (salt : Nat) :
    Nat → Nat → Nat → Except Refused (List (Nat × Home))
  | 0, _, _ => .ok []
  | fuel + 1, va, n =>
    if n = 0 then .ok []
    else
      let k := min n (2 ^ 16 - va % 2 ^ 16)
      let rest := s.resolve ctx a secure salt fuel (va + k) (n - k)
      match s.translation ctx va (salt * 2 ^ 40 + va / 2 ^ 16) with
      | .fail kind level addr => .error (.before kind level va addr rest)
      | .leaf level e addr =>
        match entryForbids e a with
        | some kind => .error (.before kind level va addr rest)
        | none =>
          let here := (List.range k).map fun i => leafPlace level e (va + i)
          let own (h : Home) : Bool := match h with
            | .hbm _ => true
            | _ => false
          let wrong := !secure ∧ here.any fun p => own p.2.1 && s.securePa p.2.2
          match rest with
          | .error (.page kind level va' addr) => .error (.page kind level va' addr)
          | .error (.world w) => .error (.world (if wrong then va else w))
          | .ok rest => if wrong then .error (.world va) else .ok (here.map (fun p => (p.1, p.2.1)) ++ rest)

/-- The number of page parts that n bytes can span. -/
def partsOf (n : Nat) : Nat := n / 2 ^ 16 + 2

/-- An uncorrectable loss behind a home: HBM of a die in full reset (R494), or a peer that cannot be reached (R436,
R438); the SITE of R492. -/
def State.lostSite (s : State) (h : Home) : Option Nat :=
  match h with
  | .hbm d => if s.dieReset.get d 0 = 2 then some 1 else none
  | .peer m _ => if Config.domainSize ≤ m ∨ s.unreachable.contains m then some 6 else none
  | _ => none

/-- A device read of a context's memory that no fault record reports: its bytes if every check passes. -/
def State.readVirt (s : State) (ctx va n : Nat) : Option (List Byte) :=
  if 2 ^ 55 < va + n then none
  else
    match s.resolve ctx .read (s.secureCtx ctx) 0 (partsOf n) va n with
    | .ok ps => if ps.any fun p => (s.lostSite p.2).isSome then none else some (s.gather (ps.map (·.1)))
    | .error _ => none

/-- A device write of a context's memory that no fault record reports, if every check passes. -/
def State.writeVirt (s : State) (ctx va : Nat) (bytes : List Byte) : Option State :=
  if 2 ^ 55 < va + bytes.length then none
  else
    match s.resolve ctx .write (s.secureCtx ctx) 0 (partsOf bytes.length) va bytes.length with
    | .ok ps =>
      if ps.any fun p => (s.lostSite p.2).isSome then none
      else some (s.scatter ((ps.map (·.1)).zip bytes))
    | .error _ => none

/-! ### The error log (R493) -/

/-- Adds an entry, overwriting the oldest of 64. -/
def State.logError (s : State) (kind site core ctx : Nat) (addr : W64) (count : W32) : State :=
  { s with
    errorLog := s.errorLog.set (s.errorWptr.toNat % 64) ⟨kind, site, core, ctx, addr, count⟩
    errorWptr := s.errorWptr + 1 }

/-- Adds an entry for an error to the log; its ADDR and COUNT are open. -/
def State.logFree (s : State) (kind site core ctx : Nat) : State :=
  s.logError kind site core ctx (Config.freeWord s.tick 0x601 ++ Config.freeWord s.tick 0x600) (Config.freeWord s.tick 0x602)

/-! ### Accesses of the host's port for its packets (R400, R401) -/

/-- A read for a packet, in which an uncorrectable error may be met. -/
def State.portRead (s : State) (ctx va n : Nat) : Option (List Byte) :=
  if s.portFails = some false then none else s.readVirt ctx va n
/-- A write for a packet. -/
def State.portWrite (s : State) (ctx va : Nat) (bytes : List Byte) : Option State :=
  if s.portFails = some true then none else s.writeVirt ctx va bytes
/-- The log's entry for the uncorrectable error, if one has met the writes, or the reads, of a packet (R492); its SITE is open. -/
def State.portMet (s : State) (write : Bool) (ctx : Nat) : State :=
  if s.portFails = some write then s.logFree 2 (Config.choice s.tick 0x607 % 5 + 1) 0 ctx else s

/-! ### Fault records (R191, R192, R491) -/

/-- A fault record's 64 bytes. -/
def faultBytes (va kind source core slot cls access level : Nat) (tag pc : W32) (seq id entryAddr : Nat) : List Byte :=
  leBytes 8 va ++ leBytes 1 kind ++ leBytes 1 source ++ leBytes 2 core ++ leBytes 1 slot ++ leBytes 1 cls ++
    leBytes 1 access ++ leBytes 1 level ++ leBytes 4 tag.toNat ++ leBytes 4 pc.toNat ++ leBytes 4 seq ++
    leBytes 4 id ++ leBytes 8 entryAddr ++ leBytes 24 0

/-- A fault ring's SIZE, WPTR and RPTR, if its header can be read and written. -/
def State.faultRing (s : State) (ctx : Nat) : Option (Nat × Nat × Nat) :=
  let ring := (s.context ctx).faultRing
  if ring = 0 then none
  else
    match s.readVirt ctx ring.toNat 12 with
    | some h => some (field h 0 4, field h 4 4, field h 8 4)
    | none => none

/-- Writes a record at the ring's WPTR and advances it: none if the ring's pages prevent it, and no change if the ring
is full (R491). -/
def State.writeRecord (s : State) (ctx : Nat) (bytes : List Byte) : Option (State × Bool) :=
  let ring := (s.context ctx).faultRing.toNat
  match s.faultRing ctx with
  | none => none
  | some (size, wptr, rptr) =>
    let at_ := ring + 64 + 64 * (if size = 0 then 0 else wptr % size)
    if size ≤ (wptr + 2 ^ 32 - rptr) % 2 ^ 32 then
      -- held back; a page that would fail still decides now
      match s.writeVirt ctx at_ bytes, s.writeVirt ctx (ring + 4) (leBytes 4 wptr) with
      | some _, some _ => some (s, false)
      | _, _ => none
    else
      match s.writeVirt ctx at_ bytes with
      | none => none
      | some s' =>
        match s'.writeVirt ctx (ring + 4) (leBytes 4 (wptr + 1)) with
        | some s'' => some (s'', true)
        | none => none

/-- Reports a recoverable fault, its record built from the number it gets: none if the context has no fault ring, or
with an error log entry of TYPE 6 if the ring's pages prevent the record (R491). -/
def State.reportFault (s : State) (ctx core : Nat) (record : Nat → List Byte) : State × Option Nat :=
  if (s.context ctx).faultRing = 0 then (s, none)
  else
    match s.writeRecord ctx (record s.nextFault) with
    | none => (s.logError 6 0 core ctx (s.context ctx).faultRing 1, none)
    | some (s', delivered) =>
      ({ s' with
          faults := s'.faults.set s.nextFault ⟨ctx, record s.nextFault, delivered, none⟩
          nextFault := (s.nextFault + 1) % 2 ^ 32 }, some s.nextFault)

end Sys2Proof.Machine
end

