-- ==== Sys2Proof/Machine/Stores.lean ====
section
/-!
DEFINITION. The store engine: effective addresses (R55), the checks of an instruction's accesses in their precedence
(R177 to R181, R190), parking and traps (R191, R193), the range scoreboard (R28), loads and stores (R194 to R197), and
merge buffers (R226, R227).
-/

namespace Sys2Proof.Machine

/-! ### Requests and their places -/

/-- One thread's access. -/
structure Req where
  thread : Nat
  space : Space
  addr : Nat
  size : Nat
deriving DecidableEq, Repr, Inhabited

/-- Where an access lies: the place of each byte, with its home, and the team whose allocation it is in. -/
structure Place where
  bytes : List (Nat × Home)
  owner : Option Nat
deriving DecidableEq, Repr, Inhabited

/-- Why an access is denied (R190): the precedence of the check, the trap cause (0 for a park), KIND, LEVEL, and the
faulting address and entry. -/
structure Denied where
  prec : Nat
  cause : Nat
  kind : Nat
  level : Nat
  va : Nat
  entryAddr : Nat
deriving DecidableEq, Repr, Inhabited

/-- The merge buffer of a team in merge form: first byte and end in its allocation (R226). -/
def mergeBuffer (l : Launch) (t : Team) : Nat × Nat :=
  let stop := t.kernel.unit - (if t.kernel.trapEntry.isSome then 256 * t.kernel.groups else 0)
  if l.form = 2 then (stop - l.mb, stop) else (0, 0)

/-- The byte range overlaps the team's merge buffer. -/
def touchesMerge (l : Launch) (t : Team) (lo n : Nat) : Bool :=
  let (a, b) := mergeBuffer l t
  decide (lo < b) && decide (a < lo + n) && decide (a < b)

/-- The places of n bytes of a team's allocation from offset off. -/
def unitPlaces (t : Team) (off n : Nat) : List (Nat × Home) :=
  (List.range n).map fun i => (unitKey t.core (t.base + off + i), .unit t.core)

/-- The team that a cluster-window address names (R178). -/
def clusterMember (x : Ctx) (addr : Nat) : Option Nat :=
  let half := if addr / 2 ^ 30 % 2 = 0 then x.team.ownHalf else x.team.otherHalf
  half[addr / 2 ^ 24 % 64]?

/-- Precedence 1 of R190 for an access: alignment of an atomic, the store's range, the merge buffer. -/
def checkRange (x : Ctx) (s : State) (a : Access) (r : Req) : Except Denied Place :=
  let no (kind : Nat) : Except Denied Place := .error ⟨1, 10, kind, 0, r.addr, 0⟩
  if a = .atomic ∧ r.addr % r.size ≠ 0 then no 1
  else
    match r.space with
    | .unit =>
      if x.team.kernel.unit < r.addr + r.size then no 2
      else if touchesMerge x.launch x.team r.addr r.size then no 8
      else .ok ⟨unitPlaces x.team r.addr r.size, some x.g.team⟩
    | .cluster =>
      match clusterMember x r.addr with
      | none => no 4
      | some uid =>
        match s.teams.find uid with
        | none => no 4
        | some t =>
          let off := r.addr % 2 ^ 24
          if t.kernel.unit < off + r.size then no 2
          else if touchesMerge x.launch t off r.size then no 8
          else .ok ⟨unitPlaces t off r.size, some uid⟩
    | .die =>
      match x.launch.windows.find x.die with
      | none => no 2
      | some base =>
        if x.launch.dieWin < r.addr + r.size then no 2
        else .ok ⟨(List.range r.size).map fun i => (dieKey x.die (base + r.addr + i), .die x.die), none⟩
    | .global => if 2 ^ 55 ≤ r.addr ∨ 2 ^ 55 < r.addr + r.size then no 3 else .ok ⟨[], none⟩

/-- The code of a space in range slots and merge entries: 0 global, 1 die store, 2 cluster window (R223, R226). -/
def rangeSpace : Space → Nat
  | .global => 0
  | .die => 1
  | .cluster => 2
  | .unit => 3

/-- A write that deterministic mode checks or buffers: to global memory, the die store or another team's allocation
(R225, R226). -/
def isOutward (x : Ctx) (r : Req) (p : Place) : Bool :=
  match r.space with
  | .unit => false
  | .cluster => p.owner != some x.g.team
  | _ => true

/-- Every byte of a write lies in a registered range of the team (R225). -/
def inRanges (t : Team) (space lo n : Nat) : Bool :=
  (List.range n).all fun i =>
    t.ranges.values.any fun w => w.space = space && decide (w.base ≤ lo + i) && decide (lo + i < w.base + w.len)

/-- Precedence 2 of R190 in write-range form. -/
def rangeDenied (x : Ctx) (a : Access) (r : Req) (p : Place) : Bool :=
  x.launch.form = 1 && a != .read && isOutward x r p && !inRanges x.team (rangeSpace r.space) r.addr r.size

/-- All checks of one access up to its world, by R190: its place, or why it is denied. -/
def checkAccess (x : Ctx) (s : State) (a : Access) (r : Req) : Except Denied Place :=
  match checkRange x s a r with
  | .error d => .error d
  | .ok p =>
    if rangeDenied x a r p then .error ⟨2, 5, 1, 0, r.addr, 0⟩
    else if r.space = .global then
      let ctx := x.ctxNum
      match s.resolve ctx a (s.secureBy x.core storeEngine ctx) (r.thread + 1) (partsOf r.size) r.addr r.size with
      | .ok ps => .ok ⟨ps, none⟩
      | .error (.world va) => .error ⟨5, 10, 5, 0, va, 0⟩
      | .error (.page kind level va addr) =>
        if kind = 5 ∨ (s.context ctx).faultRing = 0 then .error ⟨3, 4, kind, level, va, addr⟩
        else .error ⟨4, 0, kind, level, va, addr⟩
    else .ok p

/-- The outcome of an instruction's checks: every place, or the denial that decides with its thread. -/
inductive Verdict
  | ok (places : List (Req × Place))
  | denied (thread : Nat) (d : Denied)
deriving DecidableEq, Repr, Inhabited

/-- Of two denials the one of lower precedence number decides, then the lower thread (R190). -/
def worse (a b : Nat × Denied) : Nat × Denied :=
  if b.2.prec < a.2.prec ∨ (b.2.prec = a.2.prec ∧ b.1 < a.1) then b else a

/-- Judges the denials and places of an instruction; more are those that concern it as a whole. Of a thread's own denial and one of the
whole instruction that tie in precedence and thread, as KIND 1 of R225 and KIND 2 of R201 do, the thread's own is reported: a DESIGN
CHOICE (notes/assumptions/30.md). -/
def judge (results : List (Req × Except Denied Place)) (more : List (Nat × Denied)) : Verdict :=
  let errs := results.filterMap (fun r => match r.2 with
    | .error d => some (r.1.thread, d)
    | .ok _ => none) ++ more
  match errs with
  | e :: rest => let (t, d) := rest.foldl worse e; .denied t d
  | [] => .ok (results.filterMap fun r => match r.2 with
    | .ok p => some (r.1, p)
    | .error _ => none)

/-- TRAPINFO1 of traps 0x04, 0x05 and 0x0A (R193). -/
def accessInfo (acc level kind thread : Nat) : W32 :=
  BitVec.ofNat 32 (acc * 2 ^ 18 + level * 2 ^ 16 + kind * 2 ^ 8 + thread)

/-- Reports a recoverable fault of the current instruction (R191, R192); source and access are SOURCE and ACCESS. -/
def Ctx.reportOwn (x : Ctx) (s : State) (source access : Nat) (d : Denied) : State × Option Nat :=
  s.reportFault x.ctxNum x.core fun id =>
    faultBytes d.va d.kind source x.core x.slot 0xFF access d.level x.tag x.f.pc 0 id d.entryAddr
/-- Parks a group, left as g, on fault id of the current instruction; info1 is the TRAPINFO1 of a refusal (R191). -/
def Ctx.parkOn (x : Ctx) (s : State) (g : Group) (id : Nat) (info1 : W32) : State :=
  if x.g.handler then x.put s { g with hpark := some id, hfault := some ⟨id, info1, false⟩ }
  else x.put s { g.setFrag x.frag { x.f with fault := some ⟨id, info1, false⟩ } with park := some id }
/-- Parks the group on a recoverable fault of the current instruction, or traps where the ring's pages prevent the
record (R191, R491); acc is ACC of R193. -/
def Ctx.parkFault (x : Ctx) (s : State) (source access acc thread : Nat) (d : Denied) : Out :=
  match x.reportOwn s source access d with
  | (s, none) => x.trap s 4 (accessInfo acc d.level d.kind thread)
  | (s, some id) => .next (x.parkOn s x.g id (accessInfo acc d.level 6 thread))

/-- Deals with a denial: a park, or the trap it names. -/
def Ctx.deny (x : Ctx) (s : State) (source acc thread : Nat) (d : Denied) : Out :=
  if d.cause = 0 then x.parkFault s source acc acc thread d
  else x.trap s d.cause (accessInfo acc (if d.cause = 4 then d.level else 0) d.kind thread)

/-! ### The range scoreboard (R27, R28) -/

/-- An access stalls on a copy's destination. -/
def State.stalls (s : State) (places : List (Req × Place)) : Bool :=
  places.any fun p => p.2.bytes.any fun b => s.covered b.1

/-! ### Machine checks and releases at domain scope (R438, R492) -/

/-- TRAPINFO1 of a machine check (R492). -/
def machineCheckInfo (site thread : Nat) : W32 := BitVec.ofNat 32 (site * 2 ^ 16 + thread)
/-- The first access whose home is lost: its thread and SITE. -/
def State.firstLost (s : State) (places : List (Req × Place)) : Option (Nat × Nat) :=
  places.findSome? fun p => p.2.bytes.findSome? fun b => (s.lostSite b.2).map fun site => (p.1.thread, site)
/-- A release or sc access at domain scope meets a deferred store failure of its group (R438). -/
def Ctx.deferredFailure (x : Ctx) (s : State) (o : Order) (c : Scope) : Bool :=
  (o = .release || o = .sc) && c = .domain && s.deferred.contains (slotKey x.core x.slot)
/-- Raises the machine check of a deferred store failure, and forgets it. -/
def Ctx.raiseDeferred (x : Ctx) (s : State) : Out :=
  x.trap { s with deferred := s.deferred.filter (· ≠ slotKey x.core x.slot) } 7 (machineCheckInfo 7 0xFF)

/-- Records in the translation buffers what an instruction's global accesses used. -/
def Ctx.fill (x : Ctx) (s : State) (places : List (Req × Place)) : State :=
  places.foldl (fun s p => if p.1.space = .global then s.fillTlb (x.ctxNum) p.1.addr else s) s

/-- The accesses that a check passes, with the places that it gives. -/
def passing (results : List (Req × Except Denied Place)) : List (Req × Place) :=
  results.filterMap fun r => match r.2 with
    | .ok p => some (r.1, p)
    | .error _ => none

/-- The checks, stalls and machine checks that come before an instruction's accesses (R28, R190, R438, R492); more denies from the
accesses that pass precedence 1, and from those that pass every check of their own. -/
def Ctx.gate (x : Ctx) (s : State) (source : Nat) (a : Access) (o : Order) (c : Scope) (reqs : List Req)
    (more : List (Req × Place) → List (Req × Place) → List (Nat × Denied)) (act : State → List (Req × Place) → Out) : Out :=
  let results := reqs.map fun r => (r, checkAccess x s a r)
  let ranged := reqs.map fun r => (r, checkRange x s a r)
  match judge results (more (passing ranged) (passing results)) with
  | .denied t d => x.deny s source a.code t d
  | .ok places =>
    if s.stalls places then .next s
    else if !reqs.isEmpty && x.deferredFailure s o c then x.raiseDeferred s
    else act (x.fill s places) places

/-! ### Effective addresses (R55) -/

/-- The address of a lane access in thread t; sel is the base or selector field. -/
def Ctx.address (x : Ctx) (p : Space) (a sel t : Nat) : Nat :=
  match p with
  | .unit | .die => (x.lane a t).toNat
  | .global => ((x.launch.db.getD sel 0) + (x.lane a t).setWidth 64).toNat
  | .cluster =>
    (x.g.readG x.g.handler (sel + 1)).toNat / 2 ^ 24 % 128 * 2 ^ 24 + (x.lane a t).toNat % 2 ^ 24

/-! ### Merge form (R226, R227) -/

/-- The newest entry of thread t's own for a byte of a space (R227). -/
def mergedByte (team : Team) (lthread space addr : Nat) : Option Byte :=
  team.merge.reverse.findSome? fun e =>
    if e.lthread = lthread ∧ e.space = space ∧ e.addr.toNat = addr / 4 * 4 ∧ e.mask / 2 ^ (addr % 4) % 2 = 1 then
      some (BitVec.ofNat 8 (e.data.toNat / 2 ^ (8 * (addr % 4))))
    else none

/-- The bytes that a load finds in its thread's own merge entries (R227). -/
def Ctx.mergedBytes (x : Ctx) (r : Req) (p : Place) : List (Option Byte) :=
  (List.range r.size).map fun i =>
    if x.launch.form = 2 && isOutward x r p then mergedByte x.team (x.lthread r.thread) (rangeSpace r.space) (r.addr + i) else none
/-- The bytes that a load of thread t returns (R195, R227). -/
def Ctx.loadBytes (x : Ctx) (s : State) (r : Req) (p : Place) : List Byte :=
  let mem := s.gather (p.bytes.map (·.1))
  if x.launch.form = 2 && isOutward x r p then (x.mergedBytes r p).zipIdx.map fun b => b.1.getD (mem.getD b.2 0) else mem

/-- The merge entries of a store: one for each aligned word it touches (R226). -/
def mergeEntries (x : Ctx) (r : Req) (bytes : List Byte) : List MergeEntry :=
  let first := r.addr / 4
  let last := (r.addr + r.size - 1) / 4
  (List.range (last + 1 - first)).map fun i =>
    let base := (first + i) * 4
    let at_ (j : Nat) : Option Byte := if base + j < r.addr then none else bytes[base + j - r.addr]?
    { addr := BitVec.ofNat 64 base
      data := BitVec.ofNat 32 (leNat ((List.range 4).map fun j => (at_ j).getD 0))
      mask := (List.range 4).foldl (fun m j => if (at_ j).isSome then m + 2 ^ j else m) 0
      space := rangeSpace r.space, lthread := x.lthread r.thread }

/-- The 16 bytes of a merge entry (R226). -/
def mergeBytes (e : MergeEntry) : List Byte :=
  leBytes 8 e.addr.toNat ++ leBytes 4 e.data.toNat ++ leBytes 1 e.mask ++ leBytes 1 e.space ++ leBytes 2 0

/-- Appends entries to the team's merge buffer. -/
def State.appendMerge (s : State) (uid : Nat) (l : Launch) (es : List MergeEntry) : State :=
  match s.teams.find uid with
  | none => s
  | some t =>
    let at_ := unitKey t.core (t.base + (mergeBuffer l t).1 + 16 * t.merge.length)
    (s.putTeam uid { t with merge := t.merge ++ es }).storeBytes at_ (es.flatMap mergeBytes)

/-- The denial of a store that needs more entries than remain: the thread at which they run out (R226). -/
def mergeOverflow (x : Ctx) (data : Nat → List Byte) (places : List (Req × Place)) : List (Nat × Denied) :=
  let room := (mergeBuffer x.launch x.team).2 - (mergeBuffer x.launch x.team).1
  let step := places.foldl (fun (st : Nat × List (Nat × Denied)) p =>
    let need := if isOutward x p.1 p.2 then (mergeEntries x p.1 (data p.1.thread)).length else 0
    let used := st.1 + need
    (used, if room / 16 < used ∧ st.2 = [] then [(p.1.thread, ⟨2, 5, 5, 0, p.1.addr, 0⟩)] else st.2))
    (x.team.merge.length, [])
  if x.launch.form = 2 then step.2 else []

/-! ### Loads and stores (R194 to R197) -/

/-- The requests of the active threads. -/
def Ctx.requests (x : Ctx) (p : Space) (a sel size : Nat) : List Req :=
  (threadsOf x.f.k0).map fun t => ⟨t, p, x.address p a sel t, size⟩

/-- Register fields that an address reads: the address register, and the selector of the cluster window. -/
def addressRegs (p : Space) (a sel : Nat) : List Nat :=
  if p = .cluster then [a, 97 + sel] else [a]

/-- A load instruction whose checks pass acts on its places (R190, R195). -/
def Ctx.withLoad (x : Ctx) (s : State) (p : Space) (w : Width) (a : Nat) (o : Order) (c : Scope) (sel : Nat)
    (act : State → List (Req × Place) → Out) : Out :=
  if x.f.k0 ≠ 0 ∧ x.waitsOn (addressRegs p a sel) then .next s
  else
    x.gate s 0 .read o c (x.requests p a sel (widthBytes w)) (fun _ _ => []) fun s places =>
      match s.firstLost places with
      | some (t, site) => x.trap s 7 (machineCheckInfo site t)
      | none => act s places

/-- A load reads memory: its data lands later (R62, R195). -/
def Ctx.loadNow (x : Ctx) (m : Bool) (w : Width) (d : Nat) (s : State) (places : List (Req × Place)) : Out :=
  let data (t : Nat) : List W32 :=
    match places.find? fun q => q.1.thread = t with
    | some (r, q) => widen w (x.loadBytes s r q)
    | none => []
  x.done s (x.sendLanes x.g s.ir d data none 0 none) m 1

/-- A load instruction (R195): its data lands later (R62). It reads memory as it issues; a turn that leaves accesses behind is the
other form (notes/assumptions/5.md). -/
def laneLoad (p : Space) (m : Bool) (w : Width) (d a : Nat) (o : Order) (c : Scope) (sel : Nat) (s : State) : Out :=
  onFrag s fun x => x.withLoad s p w a o c sel (x.loadNow m w d)

/-- Performs the stores of an instruction in ascending thread order, so that the highest thread's value stays
(R196): into memory, or into the merge buffer in merge form (R226). -/
def Ctx.performStores (x : Ctx) (data : Nat → List Byte) : List (Req × Place) → State → State
  | [], s => s
  | (r, p) :: rest, s =>
    let bytes := data r.thread
    let s :=
      if x.launch.form = 2 && isOutward x r p then s.appendMerge x.g.team x.launch (mergeEntries x r bytes)
      else if p.bytes.any fun b => (s.lostSite b.2).isSome then s
      else s.scatter ((p.bytes.map (·.1)).zip bytes)
    x.performStores data rest s

/-- A store to an unreachable peer is recorded in the error log, to be raised at the next release (R438, R493). -/
def Ctx.noteDeferred (x : Ctx) (s : State) (places : List (Req × Place)) : State :=
  match places.find? fun p => p.2.bytes.any fun b => s.lostSite b.2 == some 6 with
  | none => s
  | some p =>
    let s := s.logError 3 7 x.core (x.ctxNum) (BitVec.ofNat 64 p.1.addr) 1
    { s with deferred := slotKey x.core x.slot :: s.deferred.filter (· ≠ slotKey x.core x.slot) }

/-- The bytes that thread t stores. -/
def Ctx.storeData (x : Ctx) (w : Width) (d t : Nat) : List Byte :=
  ((x.laneRegs d (widthRegs w) t).flatMap fun v => leBytes 4 v.toNat).take (widthBytes w)
/-- A store instruction whose checks pass acts on its places (R190, R195). -/
def Ctx.withStore (x : Ctx) (s : State) (p : Space) (w : Width) (d a : Nat) (o : Order) (c : Scope) (sel : Nat)
    (act : State → List (Req × Place) → Out) : Out :=
  if x.f.k0 ≠ 0 ∧ x.waitsOn ((List.range (widthRegs w)).map (d + ·) ++ addressRegs p a sel) then .next s
  else
    x.gate s 0 .write o c (x.requests p a sel (widthBytes w)) (fun ranged _ => mergeOverflow x (x.storeData w d) ranged) act

/-- A store writes memory (R195, R196, R438). -/
def Ctx.storeNow (x : Ctx) (m : Bool) (w : Width) (d : Nat) (s : State) (places : List (Req × Place)) : Out :=
  let s' := x.noteDeferred (x.performStores (x.storeData w d) places s) places
  match s.firstLost (places.filter fun q => !q.2.bytes.any fun b => s.lostSite b.2 == some 6) with
  | some (t, site) => x.trap s' 7 (machineCheckInfo site t)
  | none => x.done s' x.g m 1

/-- A store instruction (R195, R196). It writes memory as it issues; a turn that leaves accesses behind is the other form
(notes/assumptions/5.md). -/
def laneStore (p : Space) (m : Bool) (w : Width) (d a : Nat) (o : Order) (c : Scope) (sel : Nat) (s : State) : Out :=
  onFrag s fun x => x.withStore s p w d a o c sel (x.storeNow m w d)

/-- ld: a load from the unit store (R194). -/
def execLd (m : Bool) (wid : Width) (d a : Nat) (o : Order) (c : Scope) (s : State) : Out :=
  laneLoad .unit m wid d a o c 0 s
/-- st: a store to the unit store (R194). -/
def execSt (m : Bool) (wid : Width) (d a : Nat) (o : Order) (c : Scope) (s : State) : Out :=
  laneStore .unit m wid d a o c 0 s
/-- ldc: a load through the cluster window (R178, R194). -/
def execLdc (m : Bool) (wid : Width) (d a : Nat) (o : Order) (c : Scope) (sel : Nat) (s : State) : Out :=
  laneLoad .cluster m wid d a o c sel s
/-- stc: a store through the cluster window (R178, R194). -/
def execStc (m : Bool) (wid : Width) (d a : Nat) (o : Order) (c : Scope) (sel : Nat) (s : State) : Out :=
  laneStore .cluster m wid d a o c sel s
/-- ldd: a load from the die store (R179, R194). -/
def execLdd (m : Bool) (wid : Width) (d a : Nat) (o : Order) (c : Scope) (s : State) : Out :=
  laneLoad .die m wid d a o c 0 s
/-- std: a store to the die store (R179, R194). -/
def execStd (m : Bool) (wid : Width) (d a : Nat) (o : Order) (c : Scope) (s : State) : Out :=
  laneStore .die m wid d a o c 0 s
/-- ldg: a load from global memory (R180, R194). -/
def execLdg (m : Bool) (wid : Width) (d a : Nat) (o : Order) (c : Scope) (sel : Nat) (s : State) : Out :=
  laneLoad .global m wid d a o c sel s
/-- stg: a store to global memory (R180, R194). -/
def execStg (m : Bool) (wid : Width) (d a : Nat) (o : Order) (c : Scope) (sel : Nat) (s : State) : Out :=
  laneStore .global m wid d a o c sel s

end Sys2Proof.Machine
end

