-- ==== Sys2Proof/Machine/Ranges.lean ====
section
/-!
DEFINITION. Deterministic write ranges: `dreg` and `dclr` (R223, R224).
-/

namespace Sys2Proof.Machine

/-- Two intervals share a number. -/
def overlap (a n b k : Nat) : Bool := decide (a < b + k) && decide (b < a + n)

/-- The bytes that a range of a team names (R224), as intervals in global memory (owner 0), a die's window or the allocation of a
member of the cluster: ((owner, first byte), length). A cluster-window address that lies outside every allocation names
no byte. -/
def rangeParts (t : Team) (w : WriteRange) : List ((Nat × Nat) × Nat) :=
  match w.space with
  | 0 => [((0, w.base), w.len)]
  | 1 => [((1 + dieOf t.core, w.base), w.len)]
  | _ =>
    (List.range (w.len / 2 ^ 24 + 2)).filterMap fun j =>
      let at_ := (w.base / 2 ^ 24 + j) * 2 ^ 24
      let lo := max w.base at_ - at_
      let hi := min (min (w.base + w.len) (at_ + 2 ^ 24) - at_) t.kernel.unit
      let half := if at_ / 2 ^ 30 % 2 = 0 then t.ownHalf else t.otherHalf
      match half[at_ / 2 ^ 24 % 64]? with
      | some uid => if lo < hi then some ((100 + uid, lo), hi - lo) else none
      | none => none

/-- Ranges of two teams name a common byte (R224). -/
def writeRangesMeet (t : Team) (w : WriteRange) (t' : Team) (w' : WriteRange) : Bool :=
  (rangeParts t w).any fun p => (rangeParts t' w').any fun q => p.1.1 == q.1.1 && overlap p.1.2 p.2 q.1.2 q.2

/-- The range that a `dreg` names (R223). -/
def Ctx.dregRange (x : Ctx) (sp a b : Nat) : WriteRange :=
  ⟨sp, if sp = 0 then (x.uniPair a).toNat else (x.uni a).toNat, (x.uni b).toNat⟩
/-- The KIND of a range whose end passes its space (R223). -/
def Ctx.rangeFault (x : Ctx) (w : WriteRange) : Option Nat :=
  if w.space = 0 ∧ 2 ^ 55 < w.base + w.len then some 3
  else if w.space = 1 ∧ x.launch.dieWin < w.base + w.len then some 2
  else if w.space = 2 ∧ 2 ^ 31 < w.base + w.len then some 2
  else none
/-- A range overlaps one that another live team of the launch has registered (R224). -/
def Ctx.rangeTaken (x : Ctx) (s : State) (w : WriteRange) : Bool :=
  let others := s.teams.entries.filter fun e => e.1 ≠ x.g.team ∧ e.2.launch = x.team.launch
  let saved := (s.saved.filter fun v => v.team.launch = x.team.launch).map (·.team)
  (others.map (·.2) ++ saved).any fun t => t.ranges.values.any fun w' => writeRangesMeet x.team w t w'

/-- dreg (R223): outside FORM 0b01 it does nothing; a length of 0 clears the slot. -/
def execDreg (m : Bool) (sp p a b : Nat) (s : State) : Out :=
  onFrag s fun x =>
    let srcs := if sp = 0 then [a, a + 1, b] else [a, b]
    if x.waitsOn srcs then .next s
    else if x.launch.form ≠ 1 then x.done s x.g m 1
    else
      let w := x.dregRange sp a b
      if w.len = 0 then x.done (s.modTeam x.g.team fun t => { t with ranges := t.ranges.erase p }) x.g m 1
      else
        match x.rangeFault w with
        | some kind => x.trap s 10 (accessInfo 1 0 kind 0xFF)
        | none =>
          if x.rangeTaken s w then x.trap s 5 (accessInfo 1 0 6 0xFF)
          else x.done (s.modTeam x.g.team fun t => { t with ranges := t.ranges.set p w }) x.g m 1

/-- dclr and dclr.all (R223). -/
def execDclr (m every : Bool) (p : Nat) (s : State) : Out :=
  onFrag s fun x =>
    if x.launch.form ≠ 1 then x.done s x.g m 1
    else
      x.done (s.modTeam x.g.team fun t => { t with ranges := if every then Map.empty else t.ranges.erase p }) x.g m 1

end Sys2Proof.Machine
end

