-- ==== Sys2Proof/Machine/CopyData.lean ====
section
/-!
DEFINITION. What a copy reads and computes: the places of its sources and destinations, expansion into canonical images
(R247, R256, R258), compression out of them (R249, R257, R258), and re-blocking (R260).
-/

namespace Sys2Proof.Machine

/-! ### The agent that a copy acts for -/

/-- Whom a copy acts for: the core, the group slot or 64 and 65 for the hods, and the issuing team with its launch. -/
structure CopyEnv where
  core : Nat
  agent : Nat
  uid : Nat
  team : Team
  launch : Launch
deriving DecidableEq, Repr, Inhabited

/-- The team that agent number agent of a core acts for. -/
def State.agentTeam (s : State) (core agent : Nat) : Option Nat :=
  if agent < 64 then (s.groups.find (slotKey core agent)).map (·.team)
  else (s.hods.find (2 * core + (agent - 64))).bind (·.claim)
/-- Agent number agent of a core, as copies act for it. -/
def State.copyEnv (s : State) (core agent : Nat) : Option CopyEnv :=
  match s.agentTeam core agent with
  | none => none
  | some uid =>
    match s.teams.find uid with
    | none => none
    | some t => (s.launches.find t.launch).map fun l => ⟨core, agent, uid, t, l⟩
def CopyEnv.ctx (e : CopyEnv) : Nat := e.team.launch / 2 ^ 20
/-- A copy is secure where the copy engine, the context and, for a copy of a hod, the hod are (R489). -/
def State.secureCopy (s : State) (e : CopyEnv) : Bool :=
  s.secureBy e.core 0 e.ctx && (decide (e.agent < 64) || s.secureBlock e.core (8 + (e.agent - 64)))

/-- Why a transfer stops (R261, R272): an error code, or a recoverable fault, which parks it. -/
inductive CopyStop
  | err (code : Nat)
  | park (kind level va entryAddr : Nat) (access : Access)
deriving DecidableEq, Repr, Inhabited

/-- The member that a cluster-window address of a team names (R178). -/
def Team.member (t : Team) (addr : Nat) : Option Nat :=
  (if addr / 2 ^ 30 % 2 = 0 then t.ownHalf else t.otherHalf)[addr / 2 ^ 24 % 64]?

/-- The places of n bytes of a copy's source or destination. Space 0 is the team's unit store, 1 its die-store window,
2 the cluster window, 3 global memory, and 4 the core's unit store by physical address. -/
def State.copyPlaces (s : State) (e : CopyEnv) (a : Access) (space addr n : Nat) : Except CopyStop (List (Nat × Home)) :=
  match space with
  | 0 => if e.team.kernel.unit < addr + n then .error (.err 2) else .ok (unitPlaces e.team addr n)
  | 1 =>
    match e.launch.windows.find (dieOf e.core) with
    | none => .error (.err 2)
    | some base =>
      if e.launch.dieWin < addr + n then .error (.err 2)
      else .ok ((List.range n).map fun i => (dieKey (dieOf e.core) (base + addr + i), .die (dieOf e.core)))
  | 2 =>
    match (e.team.member addr).bind s.teams.find with
    | none => .error (.err 2)
    | some t =>
      if t.kernel.unit < addr % 2 ^ 24 + n then .error (.err 2) else .ok (unitPlaces t (addr % 2 ^ 24) n)
  | 3 =>
    if 2 ^ 55 < addr + n then .error (.err 2)
    else
      match s.resolve e.ctx a (s.secureCopy e) 0x100 (partsOf n) addr n with
      | .ok ps => .ok ps
      | .error (.world _) => .error (.err 2)
      | .error (.page kind level va entryAddr) =>
        if kind = 5 ∨ (s.context e.ctx).faultRing = 0 then .error (.err 1)
        else .error (.park kind level va entryAddr a)
  | _ => .ok ((List.range n).map fun i => (unitKey e.core (addr + i), .unit e.core))

/-- The value of a byte as a copy that has looked at memory before reads it: as it stands, or as it stood at a look (R28); one choice
holds for a sector at one read (R271), which salt tells apart (notes/assumptions/24.md). -/
def State.lookedByte (s : State) (looks : List Memory) (salt sector key : Nat) : Byte :=
  ((looks[Config.choice s.tick (2 ^ 16 * (2 ^ 60 * salt + sector) + 0x202) % (looks.length + 1)]?).getD s.mem).byte key

/-- Bytes of a source; a lost home is an access fault (R438, R494). -/
def State.copyRead (s : State) (e : CopyEnv) (looks : List Memory) (salt space addr n : Nat) : Except CopyStop (List Byte) :=
  match s.copyPlaces e .read space addr n with
  | .error x => .error x
  | .ok ps =>
    match ps.findSome? fun p => s.lostSite p.2 with
    | some _ => .error (.err 2)
    | none => .ok (ps.zipIdx.map fun p => s.lookedByte looks salt ((addr + p.2) / 32) p.1.1)

/-! ### Tensors (R240, R243, R247) -/

/-- The copy space of a record's tensor. -/
def LayoutRec.copySpace (r : LayoutRec) : Nat := [3, 1, 0].getD r.space 0
/-- A byte address that a record's arithmetic gives: with its db register modulo 2^64 for global tensors; none for one
below a store. -/
def CopyEnv.tensorByte (e : CopyEnv) (r : LayoutRec) (a : Int) : Option Nat :=
  if r.space = 0 then some ((a + ((e.launch.db.getD r.db 0).toNat : Int)) % 2 ^ 64).toNat
  else if a < 0 then none else some a.toNat
/-- n bytes at such an address. -/
def State.tensorRead (s : State) (e : CopyEnv) (looks : List Memory) (salt : Nat) (r : LayoutRec) (a : Int) (n : Nat) :
    Except CopyStop (List Byte) :=
  match e.tensorByte r a with
  | none => .error (.err 2)
  | some b => s.copyRead e looks salt r.copySpace b n

/-- The decoded value of element i (R240, R244), as the read that salt tells apart finds it. -/
def State.element (s : State) (e : CopyEnv) (looks : List Memory) (salt : Nat) (r : LayoutRec) (i : List Nat) :
    Except CopyStop Num := do
  let a := r.bitAddress i
  let sh := (a % 8).toNat
  let bits := formatBits r.format
  let b ← s.tensorRead e looks salt r (a / 8) ((sh + bits + 7) / 8)
  let scale ← if formatBlocks r.format then s.tensorRead e looks salt r (r.scaleAddress i) 1 else .ok []
  return storageValue r.format (leNat b / 2 ^ sh % 2 ^ bits) (leNat scale)

/-- The element that column c of a box reads at a row offset, mirrored at the edges (R243, R247). -/
def LayoutRec.boxElement (r : LayoutRec) (origin : List Int) (off : Int) (c : Nat) : List Nat :=
  let i := r.coords origin off c
  (List.range 4).map fun k => mirror (i.getD k 0) (r.extent k) r.sym

/-- Which reading of a source sector gives an element (R271): one for each row of the box, and one more for each time that mirroring
turns back in it. -/
def LayoutRec.reading (r : LayoutRec) (origin : List Int) (off : Int) (row c : Nat) : Nat :=
  2 ^ 34 * (row + 1) + ((r.coords origin off c).getD r.coldim 0 / (r.extent r.coldim : Int) + 2 ^ 33).toNat

/-- The value at a row and column of rows listed with their numbers; zero where none is listed. -/
def valueIn (rows : List (Nat × List Num)) (r c : Nat) : Num :=
  match rows.find? fun p => p.1 = r with
  | some p => p.2.getD c (.fin false 0 0)
  | none => .fin false 0 0

/-- The rounding of the value at image row r and column c (R251); tag is 2 into an image, 3 out of one. -/
def drawMode (key : W64) (stoch : Bool) (tag salt r c : Nat) : RMode :=
  if stoch then .rs (keyedDraw key (BitVec.ofNat 64 (tag * 2 ^ 60 + salt * 2 ^ 16 + r * 2 ^ 8 + c))) else .rne

/-- An image: header, map bytes, and planes, and the flags NANBLK and SAT of each block. -/
structure TileImage where
  head : ImageHead
  map : List Byte
  exps : List Byte
  elems : List Byte
  marks : List (Bool × Bool)
deriving DecidableEq, Repr, Inhabited

/-- The bytes of an image (R233). -/
def TileImage.bytes (i : TileImage) : List Byte :=
  i.head.bytes ++ (if i.head.mapped then i.map else []) ++ padded i.exps ++ padded i.elems

/-- Forms an image of a record's box from rows listed with their image rows (R247, R248, R256). -/
def formImage (key : W64) (r : LayoutRec) (stoch : Bool) (salt : Nat) (rows : List (Nat × List Num)) : TileImage :=
  let x := valueIn rows
  let (cols, lost) := if r.osplit then splitColumns r.boxr r.boxc r.thresh x else ([], false)
  let width := if r.osplit then r.boxc + 32 else r.boxc
  let y := if r.osplit then splitValue r.boxc cols x else x
  let p := quantisePlanes r.boxr width r.cw r.axis y (drawMode key stoch 2 salt)
  { head := ⟨r.boxr, width, r.cw, r.axis, cols.length, r.osplit, p.nanblk, p.sat, lost⟩
    map := (List.range 32).map fun j => BitVec.ofNat 8 (cols.getD j 0xFF)
    exps := p.exps, elems := p.elems, marks := p.marks }

/-- The header that an image of a record's box has apart from its flags. -/
def LayoutRec.shape (r : LayoutRec) : ImageHead :=
  ⟨r.boxr, if r.osplit then r.boxc + 32 else r.boxc, r.cw, r.axis, 0, r.osplit, false, false, false⟩

/-- The part of an image that its byte i is formed with: 0 for the header and map, and n + 1 for the n-th sector of the exponent
plane with the elements of its blocks (R270). -/
def ImageHead.partAt (h : ImageHead) (i : Nat) : Nat :=
  if i < h.expsAt then 0
  else if i < h.elemsAt then (i - h.expsAt) / 32 + 1
  else blockOf h.axis h.cols ((i - h.elemsAt) / h.cols) ((i - h.elemsAt) % h.cols) / 32 + 1

/-- A copy that has written nothing reports nothing. -/
def CopyFlags.zero : CopyFlags := ⟨false, false, false, 0⟩
/-- What two parts of a copy report together. -/
def CopyFlags.and (a b : CopyFlags) : CopyFlags :=
  ⟨a.splitovf || b.splitovf, a.nanblk || b.nanblk, a.sat || b.sat, max a.dup b.dup⟩
/-- The result word of a copy (R261). -/
def CopyFlags.word (f : CopyFlags) (status code : Nat) : W32 :=
  BitVec.ofNat 32 (status * 2 ^ 30 + code * 2 ^ 24 + f.splitovf.toNat * 2 ^ 15 + f.nanblk.toNat * 2 ^ 14 + f.sat.toNat * 2 ^ 13 +
    f.dup)

/-- A copy that has just issued (R254). -/
def CopyCmd.fresh (fn : Nat) (d : CopyDesc) (record : Option LayoutRec) (rows : List Int) (slotAddr : Option Nat) (fetch : Nat) :
    CopyCmd :=
  ⟨fn, d, record, rows, slotAddr, fetch, false, [], 0, [], .zero, .zero, []⟩

/-- A part of a destination that a copy forms from one reading of its sources: a block of an image or of a tensor, a plain element,
or a sector of a move. It holds bits as address, value and mask, what it reports, and why it cannot be formed. -/
structure CopyUnit where
  bits : List (Nat × Nat × Nat)
  flags : CopyFlags
  stop : Option CopyStop
deriving DecidableEq, Repr, Inhabited

/-! ### Writes -/

/-- Bytes written whole from an address up. -/
def wholeBytes (addr : Nat) (bytes : List Byte) : List (Nat × Nat × Nat) :=
  ((List.range bytes.length).zip bytes).map fun p => (addr + p.1, p.2.toNat, 255)

/-- Adds bits of a byte to writes kept by address; later ones stand. -/
def addBits (w : Map (Nat × Nat)) (addr value mask : Nat) : Map (Nat × Nat) :=
  let old := w.get addr (0, 0)
  w.set addr ((old.1 &&& (255 - mask)) ||| (value &&& mask), old.2 ||| mask)
/-- Writes n bits of a value at a bit address whose byte address is addr. -/
def addField (w : Map (Nat × Nat)) (addr sh n value : Nat) : Map (Nat × Nat) :=
  let v := value % 2 ^ n * 2 ^ sh
  let m := (2 ^ n - 1) * 2 ^ sh
  (List.range ((sh + n + 7) / 8)).foldl (fun w k => addBits w (addr + k) (v / 256 ^ k % 256) (m / 256 ^ k % 256)) w
/-- The writes as a list. -/
def writesOf (w : Map (Nat × Nat)) : List (Nat × Nat × Nat) := w.entries.map fun p => (p.1, p.2.1, p.2.2)

/-- An image at an address as parts that are formed one after another; the outlier split of a record needs every value at once (R248).
Only bytes that keep says are written, and stop says why a part cannot be formed. -/
def TileImage.units (i : TileImage) (at_ : Nat) (together : Bool) (keep : Nat → Bool) (stop : Nat → Option CopyStop) : List CopyUnit :=
  let h := i.head
  let part (k : Nat) : Nat := if together then 0 else h.partAt k
  let marks (n : Nat) : List (Bool × Bool) := if together then i.marks else if n = 0 then [] else (i.marks.drop (32 * (n - 1))).take 32
  (List.range ((h.elemsAt - h.expsAt) / 32 + 1)).filterMap fun n =>
    let bits := (wholeBytes at_ i.bytes).filter fun w => part (w.1 - at_) == n && keep w.1
    if bits = [] then none
    else some ⟨bits, ⟨n == 0 && h.splitovf, (marks n).any (·.1), (marks n).any (·.2), if n = 0 then h.dup else 0⟩, stop n⟩

/-! ### Compression (R249, R257, R258) -/

/-- The bits of fields of a tensor, each a bit address, a width and a value, with what they report; none if one lies below its
store. -/
def CopyEnv.pressUnit (e : CopyEnv) (r : LayoutRec) (fs : List (Int × Nat × Nat)) (nanblk sat : Bool) : Option CopyUnit :=
  let put (w : Option (Map (Nat × Nat))) (f : Int × Nat × Nat) : Option (Map (Nat × Nat)) :=
    w.bind fun w => (e.tensorByte r (f.1 / 8)).map fun b => addField w b (f.1 % 8).toNat f.2.1 f.2.2
  (fs.foldl put (some Map.empty)).map fun w => ⟨writesOf w, ⟨false, nanblk, sat, 0⟩, none⟩

/-- One row of an image into the tensor (R249): image row row at row offset off, with the values x of its columns. -/
def CopyEnv.pressRow (e : CopyEnv) (r : LayoutRec) (origin : List Int) (mode : Nat → Nat → RMode) (x : Nat → Nat → Num)
    (row : Nat) (off : Int) : List (Option CopyUnit) :=
  let bits := formatBits r.format
  let within (c : Nat) (f : List Nat → Option CopyUnit) : Option (Option CopyUnit) :=
    let i := r.coords origin off c
    if r.inside i then some (f (i.map (·.toNat))) else none
  if formatBlocks r.format then
    (List.range (r.boxc / 32)).filterMap fun b => within (32 * b) fun i =>
      let enc := encodeBlock r.format ((List.range 32).map fun j => (x row (32 * b + j), mode row (32 * b + j)))
      let codes := (List.range 32).map fun (j : Nat) => (r.bitAddress i + ((j * bits : Nat) : Int), bits, enc.codes.getD j 0)
      e.pressUnit r (codes ++ [(8 * r.scaleAddress i, 8, enc.scale)]) enc.nanblk enc.sat
  else
    (List.range r.boxc).filterMap fun c => within c fun i =>
      let enc := encodePlain r.format (x row c) (mode row c)
      e.pressUnit r [(r.bitAddress i, bits, enc.codes.getD 0 0)] enc.nanblk enc.sat

/-- Rows of an image into the tensor, each an image row with its row offset, later ones over earlier ones; none if one lies below
the tensor's store. -/
def CopyEnv.press (e : CopyEnv) (r : LayoutRec) (origin : List Int) (mode : Nat → Nat → RMode) (x : Nat → Nat → Num)
    (rows : List (Nat × Int)) : Option (List CopyUnit) :=
  (rows.flatMap fun q => e.pressRow r origin mode x q.1 q.2).mapM id

/-- The values of an image with each appended column added to its own (R249). -/
def mergedValue (h : ImageHead) (b : List Byte) (r c : Nat) : Num :=
  (List.range h.dup).foldl (fun v j =>
    if field b (h.mapAt + j) 1 = c then (addNum false v (imageValue h b r (h.kbase + j))).1 else v) (imageValue h b r c)

/-! ### Re-blocking (R260) -/

/-- The image that `cpyx` forms from one of header h and bytes b. -/
def reblock (key : W64) (d : CopyDesc) (h : ImageHead) (b : List Byte) : TileImage :=
  let w := if d.xw = 0 then h.kind else d.xw
  let (rows, cols) := if d.transpose then (h.cols, h.rows) else (h.rows, h.cols)
  let axis := h.axis != d.flip
  let src (r c : Nat) : Nat × Nat := if d.transpose then (c, r) else (r, c)
  let head (nanblk sat : Bool) : ImageHead := ⟨rows, cols, w, axis, h.dup, h.mapped, nanblk, sat, false⟩
  let map := (b.drop h.mapAt).take 32
  if w = h.kind ∧ d.transpose = d.flip then
    let exps := (List.range (rows * cols / 32)).map fun k =>
      let p := blockElem axis cols k 0
      let q := src p.1 p.2
      b.getD (h.expsAt + blockOf h.axis h.cols q.1 q.2) 0
    let elems := (List.range (rows * cols)).map fun k =>
      let q := src (k / cols) (k % cols)
      BitVec.ofInt 8 (signedOf w (b.getD (h.elemsAt + q.1 * h.cols + q.2) 0).toNat)
    ⟨head (exps.contains 0xFF) false, map, exps, elems, exps.map fun b => (b == 0xFF, false)⟩
  else
    let p := quantisePlanes rows cols w axis (fun r c => let q := src r c; imageValue h b q.1 q.2)
      (drawMode key d.stoch 2 d.salt)
    ⟨head p.nanblk p.sat, map, p.exps, p.elems, p.marks⟩

end Sys2Proof.Machine
end

