-- ==== Sys2Proof/Machine/Special.lean ====
section
/-!
DEFINITION. Special functions (R155, R156) and the derivatives of the adjoint engine (R341). Exact cases are as listed.
For any other input the spec states a bound only, so the bits are a free value (notes/assumptions/6.md) held within
that bound: the exact value is computed in fixed point with 256 fraction bits, far finer than any bound, and where it is too close to
0 or ±1 to be told from it, on the side of it where the exact value lies.
-/

namespace Sys2Proof.Machine

/-! ### Fixed point with 256 fraction bits -/

def fxOne : Int := 2 ^ 256
def fxMul (a b : Int) : Int := a * b / 2 ^ 256
def fxDiv (a b : Int) : Int := a * 2 ^ 256 / b
/-- π with 512 fraction bits, and ln 2 with 320. -/
def piBits : Int :=
  0x3243f6a8885a308d313198a2e03707344a4093822299f31d0082efa98ec4e6c89452821e638d01377be5466cf34e90c6cc0ac29b7c97c50dd3f84d5b5b5470917
def ln2Bits : Int := 0xb17217f7d1cf79abc9e3b39803f2f6af40f343267298b62d8a0d175b8baafa2be7b876206debac98
def fxLn2 : Int := ln2Bits / 2 ^ 64
def fxPi : Int := piBits / 2 ^ 256

/-- Integer square root by bits, from bit n − 1 down. -/
def sqrtBits (x : Nat) : Nat → Nat → Nat
  | 0, r => r
  | n + 1, r => if (r + 2 ^ n) * (r + 2 ^ n) ≤ x then sqrtBits x n (r + 2 ^ n) else sqrtBits x n r
/-- The greatest r with r² ≤ x. -/
def intSqrt (x : Nat) : Nat := sqrtBits x (Nat.log2 x / 2 + 1) 0
def fxSqrt (a : Int) : Int := (intSqrt (a.toNat * 2 ^ 256) : Nat)

/-- (−1)^neg × mant × 2^exp in fixed point, for exp + bits not huge. -/
def toFx (bits : Nat) (neg : Bool) (mant : Nat) (exp : Int) : Int :=
  let k := exp + bits
  let v : Nat := if 0 ≤ k then mant * 2 ^ k.toNat else mant / 2 ^ (-k).toNat
  if neg then -(v : Int) else v

/-- Σ r^i / i!, from term i on. -/
def expSeries (r : Int) : Nat → Nat → Int → Int → Int
  | 0, _, _, acc => acc
  | n + 1, i, term, acc => expSeries r n (i + 1) (fxMul term r / (i + 1)) (acc + term)
/-- e^x, for x from −300 to 300. -/
def fxExp (x : Int) : Int :=
  let x := max (-(300 * fxOne)) (min (300 * fxOne) x)
  let k := x.fdiv fxLn2
  let y := expSeries (x - k * fxLn2) 70 0 fxOne 0
  if 0 ≤ k then y * 2 ^ k.toNat else y / 2 ^ (-k).toNat
/-- 2^x: above zero. -/
def fxExp2 (x : Int) : Int := max 1 (fxExp (fxMul x fxLn2))
/-- Σ of the odd powers y^(2i+1) / (2i+1), with y² = q. -/
def atanhSeries (q : Int) : Nat → Nat → Int → Int → Int
  | 0, _, _, acc => acc
  | n + 1, i, p, acc => atanhSeries q n (i + 1) (fxMul p q) (acc + p / (2 * i + 1))
/-- log2 of a positive dyadic. -/
def fxLog2 (mant : Nat) (exp : Int) : Int :=
  let k := ilog2 mant exp
  let m := toFx 256 false mant (exp - k)
  let y := fxDiv (m - fxOne) (m + fxOne)
  k * fxOne + fxDiv (2 * atanhSeries (fxMul y y) 90 0 y 0) fxLn2
/-- Σ of alternating terms r^j / j! in steps of two, from j on. -/
def sinSeries (q : Int) : Nat → Nat → Int → Int → Int
  | 0, _, _, acc => acc
  | n + 1, j, term, acc => sinSeries q n (j + 2) (-(fxMul term q) / ((j + 1) * (j + 2))) (acc + term)
/-- x reduced modulo 2π, from the dyadic itself. -/
def fxReduce (neg : Bool) (mant : Nat) (exp : Int) : Int := (toFx 512 neg mant exp % (2 * piBits)) / 2 ^ 256
/-- A value that lies inside −1 and 1. -/
def insideOne (v : Int) : Int := max (1 - fxOne) (min (fxOne - 1) v)
def fxSin (r : Int) : Int := insideOne (sinSeries (fxMul r r) 70 1 r 0)
def fxCos (r : Int) : Int := insideOne (sinSeries (fxMul r r) 70 0 fxOne 0)
/-- Σ (−1)^i x^(2i+1) / (i! (2i+1)). -/
def erfSeries (q : Int) : Nat → Nat → Int → Int → Int
  | 0, _, _, acc => acc
  | n + 1, i, term, acc => erfSeries q n (i + 1) (-(fxMul term q) / (i + 1)) (acc + term / (2 * i + 1))
/-- The continued fraction x + (k/2) / (x + ((k+1)/2) / (x + …)), to a depth. -/
def erfcFraction (x : Int) : Nat → Nat → Int
  | 0, _ => x
  | n + 1, k => x + fxDiv (k * fxOne / 2) (erfcFraction x n (k + 1))
/-- 1 − erf x for x from 7 up: above zero, however small. -/
def fxErfc (x : Int) : Int :=
  if 20 * fxOne ≤ x then 1
  else max 1 (fxDiv (fxExp (-(fxMul x x))) (fxMul (fxSqrt fxPi) (erfcFraction x 300 1)))
/-- erf x: inside −1 and 1. -/
def fxErf (x : Int) : Int :=
  if 7 * fxOne ≤ x then fxOne - fxErfc x
  else if x ≤ -(7 * fxOne) then fxErfc (-x) - fxOne
  else fxDiv (2 * erfSeries (fxMul x x) 300 0 x 0) (fxSqrt fxPi)
/-- 1 / (1 + e^−x): above 0 and below 1. -/
def fxSigm (x : Int) : Int := max 1 (min (fxOne - 1) (fxDiv fxOne (fxOne + fxExp (-x))))
/-- tanh of x above zero: below x and 1. -/
def fxTanhPos (x : Int) : Int :=
  let e := fxExp (2 * min (100 * fxOne) x)
  min (min (fxOne - 1) (x - 1)) (fxDiv (e - fxOne) (e + fxOne))
def fxTanh (x : Int) : Int := if x < 0 then -(fxTanhPos (-x)) else fxTanhPos x
/-- Φ(x) = ½(1 + erf(x / √2)): above 0. -/
def fxPhi (x : Int) : Int := max 1 ((fxOne + fxErf (fxDiv x (fxSqrt (2 * fxOne)))) / 2)
/-- e^−y for y ≥ 0. -/
def fxExpNeg (y : Int) : Int := fxExp (-y)

/-! ### Values within a bound -/

/-- Size limits of an error in fixed point: n ulp of the exact value, or an absolute bound 2^−a, the larger. -/
def ulpBound (n : Nat) (abs? : Option Nat) (e : Int) : Int :=
  let l : Int := if e = 0 then -126 else max ((Nat.log2 e.natAbs : Int) - 256) (-126)
  max (if n = 0 then 0 else (n : Int) * 2 ^ (l - 23 + 256).toNat)
    (match abs? with
     | some a => 2 ^ (256 - a)
     | none => 0)

/-- The fixed-point value of a finite f32. -/
def f32Fx (bits : Nat) : Option Int :=
  match decodeNum f32 false bits with
  | .fin n m e => some (toFx 256 n m e)
  | _ => none

/-- The free bits raw if they lie within the bound of the exact value e; if they do not, the f32 nearest to e. -/
def heldWithin (raw : W32) (e bound : Int) : W32 :=
  match f32Fx raw.toNat with
  | some v => if (v - e).natAbs ≤ bound.natAbs then raw else BitVec.ofNat 32 (exactBits f32 (.fin (e < 0) e.natAbs (-256)))
  | none => BitVec.ofNat 32 (exactBits f32 (.fin (e < 0) e.natAbs (-256)))

/-- The special functions by number: SFU 0 to 7 (R65), then SFX 8 to 11. -/
inductive SpecialFn
  | rcp | rsq | sqrt | exp2 | log2 | sin | cos | tanh | sigm | erf | gelu | silu
deriving DecidableEq, Repr, Inhabited

/-- A special function's number, for its free value. -/
def SpecialFn.number : SpecialFn → Nat
  | .rcp => 0
  | .rsq => 1
  | .sqrt => 2
  | .exp2 => 3
  | .log2 => 4
  | .sin => 5
  | .cos => 6
  | .tanh => 7
  | .sigm => 8
  | .erf => 9
  | .gelu => 10
  | .silu => 11

/-- ±2^k, or a signed zero or infinity, as numbers. -/
def powNum (neg : Bool) (k : Int) : Num := .fin neg 1 k
/-- A finite non-zero dyadic is a power of two: its exponent. -/
def powOf (mant : Nat) (exp : Int) : Option Int :=
  if mant = 2 ^ Nat.log2 mant then some (ilog2 mant exp) else none
/-- 2^k is a value of f32. -/
def pow2Fits (k : Int) : Bool := decide (-149 ≤ k) && decide (k ≤ 127)
/-- A dyadic is an integer: its value. -/
def integralOf (neg : Bool) (mant : Nat) (exp : Int) : Option Int :=
  if 0 ≤ exp ∧ ilog2 mant exp < 40 then some (toFx 0 neg mant exp)
  else if exp < 0 ∧ mant % 2 ^ (-exp).toNat = 0 then some (toFx 0 neg mant exp)
  else none

/-- The exact cases of R156 among numbers that are not NaN, with the flags each entry names. -/
def specialExact (fn : SpecialFn) (x : Num) : Option (Num × Flags) :=
  let one : Num := .fin false 1 0
  match x with
  | .nan _ => none
  | .inf n =>
    match fn with
    | .rcp => some (.fin n 0 0, 0)
    | .rsq => some (if n then (.nan false, flagNV) else (.fin false 0 0, 0))
    | .sqrt => some (if n then (.nan false, flagNV) else (.inf false, 0))
    | .exp2 => some (if n then (.fin false 0 0, 0) else (.inf false, 0))
    | .log2 => some (if n then (.nan false, flagNV) else (.inf false, 0))
    | .sin | .cos => some (.nan false, flagNV)
    | .tanh | .erf => some (.fin n 1 0, 0)
    | .sigm => some (if n then .fin false 0 0 else one, 0)
    | .gelu | .silu => some (if n then .fin true 0 0 else .inf false, 0)
  | .fin n m e =>
    if m = 0 then
      match fn with
      | .rcp | .rsq => some (.inf n, flagDZ)
      | .sqrt | .sin | .tanh | .erf | .gelu | .silu => some (.fin n 0 0, 0)
      | .exp2 | .cos => some (one, 0)
      | .log2 => some (.inf true, flagDZ)
      | .sigm => some (.fin false 1 (-1), 0)
    else
      match fn with
      | .rcp =>
        match powOf m e with
        | some k => if pow2Fits (-k) then some (powNum n (-k), 0) else none
        | none => none
      | .rsq =>
        if n then some (.nan false, flagNV)
        else
          match powOf m e with
          | some k => if k % 2 = 0 then some (powNum false (-(k / 2)), 0) else none
          | none => none
      | .sqrt => if n then some (.nan false, flagNV) else none
      | .exp2 =>
        if !n && magLe 128 0 m e then some (.inf false, flagOF ||| flagNX)
        else
          match integralOf n m e with
          | some k => if pow2Fits k then some (powNum false k, 0) else none
          | none => none
      | .log2 =>
        if n then some (.nan false, flagNV)
        else
          match powOf m e with
          | some k => some (.fin (k < 0) k.natAbs 0, 0)
          | none => none
      | _ => none

/-- The exact value of a special function at a finite non-zero number, in fixed point. -/
def specialValue (fn : SpecialFn) (n : Bool) (m : Nat) (e : Int) : Int :=
  let x := toFx 256 n m e
  match fn with
  | .rcp => (if n then -1 else 1) * (toFx 512 false 1 (-e) / m / 2 ^ 256)
  | .rsq => (intSqrt (toFx 1024 false 1 (-e) / m).toNat : Nat) / 2 ^ 256
  | .sqrt => fxSqrt x
  | .exp2 => fxExp2 x
  | .log2 => fxLog2 m e
  | .sin => fxSin (fxReduce n m e)
  | .cos => fxCos (fxReduce n m e)
  | .tanh => fxTanh x
  | .sigm => fxSigm x
  | .erf => fxErf x
  | .gelu => fxMul x (fxPhi x)
  | .silu => fxMul x (fxSigm x)

/-- The bound of R156 around the exact value y at x. -/
def specialBound (fn : SpecialFn) (x y : Int) : Int :=
  match fn with
  | .rcp => ulpBound 1 none y
  | .rsq | .exp2 | .tanh => ulpBound 2 none y
  | .log2 => if 2 * (x - fxOne).natAbs < fxOne.natAbs then 2 ^ (256 - 22) else ulpBound 2 none y
  | .sin | .cos => 2 ^ (256 - 22)
  | .sigm => ulpBound 2 (some 24) y
  | .erf => 2 ^ (256 - 23)
  | .gelu | .silu => ulpBound 4 (some 24) y
  | .sqrt => 0

/-- The exact value is below 2^−126 in magnitude (R155); near zero tanh and sin lie below x, and gelu and silu below
x / 2 for negative x. -/
def specialTiny (fn : SpecialFn) (n : Bool) (m : Nat) (e : Int) (y : Int) : Bool :=
  match fn with
  | .sin | .tanh => magLe m e 1 (-126)
  | .gelu | .silu => if magLe m e 1 (-125) then (n || !magLe 1 (-125) m e) else decide (y.natAbs < 2 ^ 130)
  | _ => decide (y.natAbs < 2 ^ 130)

/-- √x of a positive dyadic, correctly rounded (R156). -/
def sqrtRounded (ftz : Bool) (m : Nat) (e : Int) : Nat × Flags :=
  let (m, e) := if e % 2 = 0 then (m, e) else (2 * m, e - 1)
  let r := intSqrt (m * 2 ^ 128)
  if r * r = m * 2 ^ 128 then roundTo f32 ftz (.fin false r (e / 2 - 64)) .rne
  else roundTo f32 ftz (.fin false (2 * r + 1) (e / 2 - 65)) .rne

/-- With FTZ a subnormal result becomes zero of its sign and raises UF and NX (R155). -/
def flushSpecial (ftz : Bool) (r : Nat × Flags) : W32 × Flags :=
  if ftz && r.1 / 2 ^ 23 % 2 ^ 8 == 0 && r.1 % 2 ^ 23 ≠ 0 then
    (BitVec.ofNat 32 (r.1 / 2 ^ 31 * 2 ^ 31), r.2 ||| flagUF ||| flagNX)
  else (BitVec.ofNat 32 r.1, r.2)

/-- A special function of the lane engine on f32 bits (R155, R156). DEDUCED (notes/assumptions/18.md): a result that is no exact
case raises NX, and one whose exact value exceeds the largest finite f32, which only `rcp` of a subnormal has, OF and NX. -/
def special (fn : SpecialFn) (fpmode a : W32) : W32 × Flags :=
  let ftz := ftzOf fpmode
  let x := decodeNum f32 (dazOf fpmode) a.toNat
  match x with
  | .nan sig => (BitVec.ofNat 32 f32.qnan, if sig then flagNV else 0)
  | x =>
    match specialExact fn x with
    | some (v, fl) => flushSpecial ftz (exactBits f32 v, fl)
    | none =>
      match x with
      | .fin n m e =>
        if fn = .sqrt then (let (r, fl) := sqrtRounded ftz m e; (BitVec.ofNat 32 r, fl))
        else
          let y := specialValue fn n m e
          let raw := Config.specialFunction fn.number a
          -- beyond the largest finite value the bound admits no finite result, so nothing is stated of the bits
          if 2 ^ 384 ≤ y.natAbs then flushSpecial ftz (raw.toNat, flagOF ||| flagNX)
          else
            let r := heldWithin raw y (specialBound fn (toFx 256 n m e) y)
            flushSpecial ftz (r.toNat, if specialTiny fn n m e y then flagUF ||| flagNX else flagNX)
      | _ => (BitVec.ofNat 32 f32.qnan, 0)

/-! ### Derivatives of activations (R341) -/

/-- The derivatives of gelu and silu lie above 1 from x = 3 up, and below 0 from x = −2 down. -/
def slopeSide (x y : Int) : Int := if 3 * fxOne ≤ x then max (fxOne + 1) y else if x ≤ -(2 * fxOne) then min (-1) y else y
/-- F′ of an activation at f32 bits, with no DAZ or FTZ (R341). -/
def activationSlope (f : Activation) (a : W32) : W32 :=
  let free (code : Nat) (y : Int) : W32 := heldWithin (Config.activationSlope code a) y (ulpBound 4 (some 24) y)
  match decodeNum f32 false a.toNat with
  | .nan _ => BitVec.ofNat 32 f32.qnan
  | .inf n =>
    match f with
    | .relu | .gelu | .silu => if n then 0 else 0x3F800000
    | _ => 0
  | .fin n m e =>
    let x := toFx 256 n m e
    if m = 0 then
      match f with
      | .relu => 0
      | .gelu | .silu => 0x3F000000
      | .sigm => 0x3E800000
      | .tanh => 0x3F800000
      | .erf => 0x3F906EBB
    else
      match f with
      | .relu => if n then 0 else 0x3F800000
      | .gelu => free 1 (slopeSide x (fxPhi x + fxMul x (fxDiv (fxExpNeg (fxMul x x / 2)) (fxSqrt (2 * fxPi)))))
      | .silu => free 2 (slopeSide x (fxMul (fxSigm x) (fxOne + fxMul x (fxOne - fxSigm x))))
      | .sigm => free 3 (max 1 (min (fxOne / 4 - 1) (fxMul (fxSigm x) (fxOne - fxSigm x))))
      | .tanh => free 4 (max 1 (min (fxOne - 1) (fxOne - fxMul (fxTanh x) (fxTanh x))))
      | .erf => free 5 (max 1 (fxDiv (2 * fxExpNeg (fxMul x x)) (fxSqrt fxPi)))

/-- F of `aact` on an element (R304): the bits of the lane function with FPMODE zero. -/
def activationOf (f : Activation) (a : W32) : W32 :=
  match f with
  | .relu =>
    match decodeNum f32 false a.toNat with
    | .nan _ => BitVec.ofNat 32 f32.qnan
    | .inf n => if n then 0 else a
    | .fin n m _ => if n || m = 0 then 0 else a
  | .gelu => (special .gelu 0 a).1
  | .silu => (special .silu 0 a).1
  | .sigm => (special .sigm 0 a).1
  | .tanh => (special .tanh 0 a).1
  | .erf => (special .erf 0 a).1

end Sys2Proof.Machine
end

