-- ==== Sys2Proof/Machine/LaneFloat.lean ====
section
/-!
DEFINITION. Floating-point instructions of the lane engine (R140, R143 to R156).
-/

namespace Sys2Proof.Machine

/-- FCMP (R140). -/
def execFcmp (m : Bool) (c : FloatCond) (k a b : Nat) (s : State) : Out :=
  laneCompare m k [a, b] (fun x t => fpCompare c x.g.fpmode (x.lane a t).toNat (x.lane b t).toNat) s

/-- Arithmetic of R146 on elements, by operation. -/
def arithElems (op : Fmt → W32 → Nat → Nat → Nat × Flags) (f : FloatType) (fpmode a b : W32) : W32 × Flags :=
  elementwise f (fun F args => op F fpmode (args.getD 0 0) (args.getD 1 0)) [a, b]

/-- fadd (R146). -/
def execFadd (m : Bool) (f : FloatType) (d a b : Nat) (s : State) : Out :=
  laneMapF m d [a, b] (fun x t => arithElems fpAdd f x.g.fpmode (x.lane a t) (x.lane b t)) s
/-- fsub (R146). -/
def execFsub (m : Bool) (f : FloatType) (d a b : Nat) (s : State) : Out :=
  laneMapF m d [a, b] (fun x t => arithElems fpSub f x.g.fpmode (x.lane a t) (x.lane b t)) s
/-- fmul (R146). -/
def execFmul (m : Bool) (f : FloatType) (d a b : Nat) (s : State) : Out :=
  laneMapF m d [a, b] (fun x t => arithElems fpMul f x.g.fpmode (x.lane a t) (x.lane b t)) s
/-- ffma: d is the addend (R146). -/
def execFfma (m : Bool) (f : FloatType) (d a b : Nat) (s : State) : Out :=
  laneMapF m d [a, b] (fun x t =>
    elementwise f (fun F args => fpFma F x.g.fpmode (args.getD 0 0) (args.getD 1 0) (args.getD 2 0))
      [x.lane a t, x.lane b t, x.lane d t]) s

/-- fmin (R147). -/
def execFmin (m : Bool) (d a b : Nat) (s : State) : Out :=
  laneMapF m d [a, b] (fun x t => f32Result (fpMinMax false false x.g.fpmode (x.lane a t).toNat (x.lane b t).toNat)) s
/-- fmax (R147). -/
def execFmax (m : Bool) (d a b : Nat) (s : State) : Out :=
  laneMapF m d [a, b] (fun x t => f32Result (fpMinMax true false x.g.fpmode (x.lane a t).toNat (x.lane b t).toNat)) s
/-- fminnum (R147). -/
def execFminnum (m : Bool) (d a b : Nat) (s : State) : Out :=
  laneMapF m d [a, b] (fun x t => f32Result (fpMinMax false true x.g.fpmode (x.lane a t).toNat (x.lane b t).toNat)) s
/-- fmaxnum (R147). -/
def execFmaxnum (m : Bool) (d a b : Nat) (s : State) : Out :=
  laneMapF m d [a, b] (fun x t => f32Result (fpMinMax true true x.g.fpmode (x.lane a t).toNat (x.lane b t).toNat)) s
/-- The sign bit of sgn with the magnitude of a (R148). -/
def withSign (sgn a : W32) : W32 := (sgn &&& 0x80000000) ||| (a &&& 0x7FFFFFFF)
/-- fabs (R148). -/
def execFabs (m : Bool) (d a : Nat) (s : State) : Out := laneMap m 1 d [a] (fun x t => withSign 0 (x.lane a t)) s
/-- fneg (R148). -/
def execFneg (m : Bool) (d a : Nat) (s : State) : Out :=
  laneMap m 1 d [a] (fun x t => withSign (~~~x.lane a t) (x.lane a t)) s
/-- fcpys (R148). -/
def execFcpys (m : Bool) (d a b : Nat) (s : State) : Out :=
  laneMap m 1 d [a, b] (fun x t => withSign (x.lane b t) (x.lane a t)) s
/-- fxsgn (R148). -/
def execFxsgn (m : Bool) (d a b : Nat) (s : State) : Out :=
  laneMap m 1 d [a, b] (fun x t => withSign (x.lane a t ^^^ x.lane b t) (x.lane a t)) s
/-- fcls (R148). -/
def execFcls (m : Bool) (d a : Nat) (s : State) : Out := laneMap m 1 d [a] (fun x t => fpClass (x.lane a t).toNat) s
/-- frnd (R149). -/
def execFrnd (m : Bool) (r : Rounding) (d a : Nat) (s : State) : Out :=
  laneMapF m d [a] (fun x t => f32Result (fpRoundIntegral r x.g.fpmode (x.lane a t).toNat)) s

/-- The counter of a stochastic conversion in thread t (R154). -/
def Ctx.roundCounter (x : Ctx) (t : Nat) : W64 :=
  BitVec.ofNat 64 (2 ^ 60 + x.team.teamIx % 2 ^ 16 * 2 ^ 44 + x.g.gix % 32 * 2 ^ 39 + t * 2 ^ 32 + (x.g.srcnt.getZ t).toNat)
/-- Adds one to SRCNT of each listed thread (R154). -/
def Group.countDraws (g : Group) : List Nat → Group
  | [] => g
  | t :: rest => ({ g with srcnt := g.srcnt.setZ t (g.srcnt.getZ t + 1) }).countDraws rest
/-- cvt (R150, R151); mode rs draws from the keyed stream and counts in each active thread (R154). -/
def execCvt (m : Bool) (r : Rounding) (d a : Nat) (src dst : NumType) (s : State) : Out :=
  onFrag s fun x =>
    if x.f.k0 ≠ 0 ∧ x.waitsOn [a] then .next s
    else
      let ts := threadsOf x.f.k0
      let res (t : Nat) : W32 × Flags :=
        convert src dst (modeOf r (keyedDraw x.launch.key (x.roundCounter t))) x.g.fpmode (x.lane a t)
      let g := x.g.writeLanes x.g.handler d (fun t => (res t).1) ts
      x.doneFlags s (if r = .rs then g.countDraws ts else g) (flagUnion (ts.map fun t => (res t).2)) m 1

/-- A special function over the active threads, landing later (R155, R62). -/
def laneSpecial (fn : SpecialFn) (m : Bool) (d a : Nat) (s : State) : Out :=
  laneSend m d [a] (fun x t => (special fn x.g.fpmode (x.lane a t)).1)
    (fun x => flagUnion ((threadsOf x.f.k0).map fun t => (special fn x.g.fpmode (x.lane a t)).2)) s

/-- rcp (R155, R156). -/
def execRcp (m : Bool) (d a : Nat) (s : State) : Out := laneSpecial .rcp m d a s
/-- rsq (R155, R156). -/
def execRsq (m : Bool) (d a : Nat) (s : State) : Out := laneSpecial .rsq m d a s
/-- sqrt (R155, R156). -/
def execSqrt (m : Bool) (d a : Nat) (s : State) : Out := laneSpecial .sqrt m d a s
/-- exp2 (R155, R156). -/
def execExp2 (m : Bool) (d a : Nat) (s : State) : Out := laneSpecial .exp2 m d a s
/-- log2 (R155, R156). -/
def execLog2 (m : Bool) (d a : Nat) (s : State) : Out := laneSpecial .log2 m d a s
/-- sin (R155, R156). -/
def execSin (m : Bool) (d a : Nat) (s : State) : Out := laneSpecial .sin m d a s
/-- cos (R155, R156). -/
def execCos (m : Bool) (d a : Nat) (s : State) : Out := laneSpecial .cos m d a s
/-- tanh (R155, R156). -/
def execTanh (m : Bool) (d a : Nat) (s : State) : Out := laneSpecial .tanh m d a s
/-- sigm (R155, R156). -/
def execSigm (m : Bool) (d a : Nat) (s : State) : Out := laneSpecial .sigm m d a s
/-- erf (R155, R156). -/
def execErf (m : Bool) (d a : Nat) (s : State) : Out := laneSpecial .erf m d a s
/-- gelu (R155, R156). -/
def execGelu (m : Bool) (d a : Nat) (s : State) : Out := laneSpecial .gelu m d a s
/-- silu (R155, R156). -/
def execSilu (m : Bool) (d a : Nat) (s : State) : Out := laneSpecial .silu m d a s

end Sys2Proof.Machine
end

