-- ==== Sys2Proof/Machine/LaneCross.lean ====
section
/-!
DEFINITION. Cross-thread instructions (R157 to R162): the active set A is k0 at issue, every source is read before any
destination is written, and results land later (R62).
-/

namespace Sys2Proof.Machine

/-- A cross-thread instruction that gives thread t of A the value f t (R157). -/
def crossMap (m : Bool) (d : Nat) (srcs : List Nat) (f : Ctx → Nat → W32) (s : State) : Out :=
  laneSend m d srcs f (fun _ => 0) s

/-- a as thread p reads it if p is in A, and thread t's own value otherwise (R158). -/
def Ctx.fromPartner (x : Ctx) (a t : Nat) (p : Option Nat) : W32 :=
  match p with
  | some p => if x.f.k0.getLsbD p then x.lane a p else x.lane a t
  | none => x.lane a t

/-- The partner offset W >> n (R66). -/
def partnerOffset (n : Nat) : Nat := 64 / 2 ^ n

/-- idx (R158). -/
def execIdx (m : Bool) (d a b : Nat) (s : State) : Out :=
  crossMap m d [a, b] (fun x t => x.fromPartner a t (some ((x.lane b t).toNat % 64))) s
/-- upw (R158). -/
def execUpw (m : Bool) (d a n : Nat) (s : State) : Out :=
  crossMap m d [a] (fun x t =>
    x.fromPartner a t (if partnerOffset n = 0 ∨ t < partnerOffset n then none else some (t - partnerOffset n))) s
/-- dnw (R158). -/
def execDnw (m : Bool) (d a n : Nat) (s : State) : Out :=
  crossMap m d [a] (fun x t =>
    x.fromPartner a t (if partnerOffset n = 0 ∨ 64 ≤ t + partnerOffset n then none else some (t + partnerOffset n))) s
/-- xorw (R158). -/
def execXorw (m : Bool) (d a n : Nat) (s : State) : Out :=
  crossMap m d [a] (fun x t =>
    x.fromPartner a t (if partnerOffset n = 0 then none else some (t ^^^ partnerOffset n))) s
/-- rotw (R158). -/
def execRotw (m : Bool) (d a n : Nat) (s : State) : Out :=
  crossMap m d [a] (fun x t =>
    x.fromPartner a t (if partnerOffset n = 0 then none else some ((t + partnerOffset n) % 64))) s
/-- xbc (R159). -/
def execXbc (m : Bool) (d a b : Nat) (s : State) : Out :=
  crossMap m d [a, b] (fun x t => x.fromPartner a t (some ((x.uni b).toNat % 64))) s

/-- ballot: bits of A only, landing later (R160, R97). -/
def execBallot (m : Bool) (k a : Nat) (s : State) : Out :=
  onFrag s fun x =>
    if x.f.k0 ≠ 0 ∧ x.waitsOn [a] then .next s
    else
      let v := maskOf fun t => x.f.k0.getLsbD t && x.lane a t != 0
      x.done s (x.sendLanes x.g s.ir 0 (fun _ => []) (some (k, v)) 0 none) m 1

/-- A vote over A: 1 if it holds, else 0 (R160). -/
def laneVote (vote : Ctx → List Nat → Bool) (m : Bool) (d a : Nat) (s : State) : Out :=
  crossMap m d [a] (fun x _ => if vote x (threadsOf x.f.k0) then 1 else 0) s
/-- all (R160). -/
def execAll (m : Bool) (d a : Nat) (s : State) : Out := laneVote (fun x ts => ts.all fun t => x.lane a t != 0) m d a s
/-- any (R160). -/
def execAny (m : Bool) (d a : Nat) (s : State) : Out := laneVote (fun x ts => ts.any fun t => x.lane a t != 0) m d a s
/-- uni (R160). -/
def execUni (m : Bool) (d a : Nat) (s : State) : Out :=
  laneVote (fun x ts => ts.all fun t => x.lane a t == x.lane a (lowestOf x.f.k0)) m d a s

/-! ### Reductions (R161, R162) -/

/-- One level of the tree: neighbours combine in pairs. -/
def reduceLevel (o : ReduceOp) (fpmode : W32) : List W32 → List W32 × Flags
  | x :: y :: rest =>
    let (z, fl) := reduceCombine o fpmode x y
    let (zs, fls) := reduceLevel o fpmode rest
    (z :: zs, fl ||| fls)
  | l => (l, 0)

/-- n levels of the tree over the leaves (R161). -/
def reduceTree (o : ReduceOp) (fpmode : W32) : Nat → List W32 → W32 × Flags
  | 0, l => (l.headD 0, 0)
  | n + 1, l =>
    let (l', fl) := reduceLevel o fpmode l
    let (r, fls) := reduceTree o fpmode n l'
    (r, fl ||| fls)

/-- n steps of the scan over the values, from distance d (R162). -/
def scanSteps (o : ReduceOp) (fpmode : W32) : Nat → Nat → List W32 → List W32 × Flags
  | 0, _, l => (l, 0)
  | n + 1, d, l =>
    let step := (List.range l.length).map fun t =>
      if d ≤ t then reduceCombine o fpmode (l.getD (t - d) 0) (l.getD t 0) else (l.getD t 0, 0)
    let (r, fls) := scanSteps o fpmode n (2 * d) (step.map (·.1))
    (r, flagUnion (step.map (·.2)) ||| fls)

/-- The leaves of a reduction: a[t] for t in A, else the identity. -/
def Ctx.leaves (x : Ctx) (o : ReduceOp) (a : Nat) : List W32 :=
  (List.range 64).map fun t => if x.f.k0.getLsbD t then x.lane a t else reduceIdentity o

/-- xred (R161). -/
def execXred (m : Bool) (o : ReduceOp) (d a : Nat) (s : State) : Out :=
  laneSend m d [a] (fun x _ => (reduceTree o x.g.fpmode 6 (x.leaves o a)).1)
    (fun x => (reduceTree o x.g.fpmode 6 (x.leaves o a)).2) s
/-- xscn (R162). -/
def execXscn (m : Bool) (o : ReduceOp) (d a : Nat) (s : State) : Out :=
  laneSend m d [a] (fun x t => (scanSteps o x.g.fpmode 6 1 (x.leaves o a)).1.getD t 0)
    (fun x => (scanSteps o x.g.fpmode 6 1 (x.leaves o a)).2) s

end Sys2Proof.Machine
end

