-- ==== Sys2Proof/Machine/Sweeps.lean ====
section
/-!
DEFINITION. Iterator slots and sweeps (R163 to R170): records, `itld` and `itst`, and sweeps that stage their elements,
park on a recoverable fault and continue from it.
-/

namespace Sys2Proof.Machine

/-! ### Records (R163) -/

/-- A slot as a new group has it: RANK 0 (R163). What its other fields hold, which `itst` writes, is open: zeros, a DESIGN CHOICE
(notes/assumptions/9.md). -/
def IterSlot.invalid : IterSlot := ⟨0, 0, 0, 0, false, 0, [0, 0, 0, 0], [0, 0, 0, 0], [0, 0, 0, 0]⟩
def Group.slotIt (g : Group) (n : Nat) : IterSlot := g.its.get n IterSlot.invalid

/-- The number of elements of a record. -/
def IterSlot.count (it : IterSlot) : Nat := (it.size.take it.rank).foldl (· * ·) 1
/-- The position of an index vector: dimension 0 runs fastest. -/
def positionOf : List Nat → List Nat → Nat
  | i :: is, n :: ns => i + n * positionOf is ns
  | _, _ => 0
/-- The index vector of a position. -/
def indexOf (p : Nat) : List Nat → List Nat
  | [] => []
  | n :: ns => p % n :: indexOf (p / n) ns
def IterSlot.position (it : IterSlot) : Nat :=
  if it.finished then it.count else positionOf (it.index.take it.rank) (it.size.take it.rank)
/-- The slot moved to position p (R166). -/
def IterSlot.moveTo (it : IterSlot) (p : Nat) : IterSlot :=
  if it.count ≤ p then { it with finished := true, index := [0, 0, 0, 0] }
  else { it with finished := false, index := (indexOf p (it.size.take it.rank) ++ [0, 0, 0, 0]).take 4 }
/-- The byte address of the element at position p. -/
def IterSlot.elementOffset (it : IterSlot) (p : Nat) : Int :=
  (it.offset.toNat : Int) +
    (((indexOf p (it.size.take it.rank)).zip it.stride).map fun q => (q.1 : Int) * q.2).foldl (· + ·) 0
/-- The record that 64 bytes hold, if it breaks no limit of R163 and its RESUME is zero. -/
def readRecord (b : List Byte) : Option IterSlot :=
  let word (off i : Nat) : Nat := field b (off + 4 * i) 4
  let rank := field b 10 1
  let space := field b 8 1
  let okDim (k : Nat) : Bool :=
    if k < rank then decide (1 ≤ word 16 k) && decide (word 48 k < word 16 k)
    else word 16 k == 0 && word 32 k == 0 && word 48 k == 0
  if [0, 1, 4, 5, 6, 7].contains space && decide (field b 9 1 ≤ 5) && decide (1 ≤ rank) && decide (rank ≤ 4) &&
      decide (field b 11 1 ≤ 1) && zeros b 12 4 && (List.range 4).all okDim then
    some
      { offset := BitVec.ofNat 64 (field b 0 8), space := space, elem := field b 9 1, rank := rank
        finished := field b 11 1 == 1, resume := 0, size := (List.range 4).map (word 16)
        stride := (List.range 4).map fun k => signedOf 32 (word 32 k), index := (List.range 4).map (word 48) }
  else none

/-- The record of a slot, with a given RESUME. -/
def writeRecord (it : IterSlot) (resume : W32) : List Byte :=
  leBytes 8 it.offset.toNat ++ leBytes 1 it.space ++ leBytes 1 it.elem ++ leBytes 1 it.rank ++
    leBytes 1 (if it.finished then 1 else 0) ++ leBytes 4 resume.toNat ++ it.size.flatMap (leBytes 4) ++
    it.stride.flatMap (fun z => leBytes 4 (z % 2 ^ 32).toNat) ++ it.index.flatMap (leBytes 4)

/-! ### itld and itst (R164, R165) -/

/-- A sweep of slot n is outstanding or parked. -/
def Group.sweepBusy (g : Group) (n : Nat) : Bool :=
  (g.pend.any fun p => p.sweep == some n) || (g.staging.any fun st => st.slot == n) ||
    (g.hstaging.any fun st => st.slot == n)

/-- The 64 bytes of a uniform access to the unit store at a, after its checks (R164, R190) and stalls; ACC is 0 or 1
and THREAD 0xFF. -/
def Ctx.unitBlock (x : Ctx) (s : State) (acc : Access) (a size align : Nat) (act : List Nat → Out) : Out :=
  let deny (kind : Nat) : Out := x.trap s 10 (accessInfo acc.code 0 kind 0xFF)
  if a % align ≠ 0 then deny 1
  else
    match checkRange x s acc ⟨0xFF, .unit, a, size⟩ with
    | .error d => deny d.kind
    | .ok p =>
      let keys := p.bytes.map (·.1)
      if keys.any s.covered then .next s else act keys

/-- itld (R164). -/
def execItld (m : Bool) (i a : Nat) (s : State) : Out :=
  onFrag s fun x =>
    if x.waitsOn [a] then .next s
    else
      x.unitBlock s .read (x.uni a).toNat 64 64 fun keys =>
        if x.g.sweepBusy i then .next s
        else
          match readRecord (s.gather keys) with
          | none => x.illegal s (x.uni a)
          | some it => x.done s { x.g with its := x.g.its.set i it } m 1

/-- itst (R164). -/
def execItst (m : Bool) (i a : Nat) (s : State) : Out :=
  onFrag s fun x =>
    if x.waitsOn [a] then .next s
    else
      x.unitBlock s .write (x.uni a).toNat 64 64 fun keys =>
        if x.g.sweepBusy i then .next s
        else x.done (s.scatter (keys.zip (writeRecord (x.g.slotIt i) 0))) x.g m 1

/-! ### Sweeps (R166 to R170) -/

/-- The element read of thread t at position p: modulo 2^64 for global memory alone; an offset below a store lies outside it like one
beyond its end (R163). -/
def Ctx.elementReq (x : Ctx) (it : IterSlot) (t p : Nat) : Req :=
  let o := it.elementOffset p
  let wrapped (a : Int) : Nat := (a % 2 ^ 64).toNat
  if 4 ≤ it.space then ⟨t, .global, wrapped ((x.launch.db.getD (it.space - 4) 0).toNat + o), elemBytes it.elem⟩
  else ⟨t, if it.space = 0 then .unit else .die, if 0 ≤ o then o.toNat else 2 ^ 64 + wrapped o, elemBytes it.elem⟩

/-- An element's checks: its alignment (R169), then those of any load. R193 has no KIND of its own for a misaligned element; it gets
that of a misaligned atomic, 1: a DESIGN CHOICE (notes/assumptions/30.md). -/
def Ctx.checkElement (x : Ctx) (s : State) (r : Req) : Except Denied Place :=
  if r.addr % r.size ≠ 0 then .error ⟨1, 10, 1, 0, r.addr, 0⟩ else checkAccess x s .read r

/-- One element read of a sweep: the rank and run offset it belongs to. -/
structure Element where
  rank : Nat
  off : Nat
  req : Req
deriving DecidableEq, Repr, Inhabited

/-- The elements of ranks and run offsets from (rank₀, off₀) on, with run length len: threads in order, ascending
positions below the count (R166, R167). -/
def Ctx.elements (x : Ctx) (it : IterSlot) (start len rank₀ off₀ : Nat) : List Element :=
  let ts := threadsOf x.f.k0
  ((List.range ts.length).filter (rank₀ ≤ ·)).flatMap fun r =>
    ((List.range len).filter fun i => (rank₀ < r || off₀ ≤ i) && decide (start + r * len + i < it.count)).map fun i =>
      ⟨r, i, x.elementReq it (ts.getD r 0) (start + r * len + i)⟩

/-- The place an element's checks found, for elements that passed. -/
def placeOf (checked : List (Element × Except Denied Place)) (e : Element) : Place :=
  match checked.find? fun c => c.1 = e with
  | some (_, .ok p) => p
  | _ => ⟨[], none⟩

/-- The sweep parked by the current bank. -/
def Group.stage (g : Group) : Option Staging := if g.handler then g.hstaging else g.staging
def Group.setStage (g : Group) (st : Option Staging) : Group :=
  if g.handler then { g with hstaging := st } else { g with staging := st }
/-- The slot of a parked sweep goes back to the state before it (R170). -/
def Group.undoSweep (g : Group) : Group :=
  match g.stage with
  | some st => { g with its := g.its.set st.slot st.before }.setStage none
  | none => g

/-- A sweep's trap, with its slot as before the sweep (R170). -/
def Ctx.undoTrap (x : Ctx) (s : State) (t : Nat) (den : Denied) : Out :=
  .next (takeTrap x.core x.slot x.frag den.cause x.f.pc s.ir
    (accessInfo 0 (if den.cause = 4 then den.level else 0) den.kind t) (x.put s x.g.undoSweep))

/-- The sweep of slot i that the fragment parked on at its PC, and continues (R170). -/
def Ctx.parkedSweep (x : Ctx) (i : Nat) : Option Staging :=
  x.g.stage.filter fun st => st.slot = i ∧ st.frag = x.frag ∧ st.pc = x.f.pc
/-- The fragment as its sweep of slot i issued: with the threads and the FPMODE of then where it continues one (R170). -/
def Ctx.asIssued (x : Ctx) (i : Nat) : Ctx :=
  match x.parkedSweep i with
  | some st => { x with f := { x.f with k0 := st.active }, g := { x.g with fpmode := st.fpmode } }
  | none => x

/-- A sweep that is about to read its elements (R166 to R170): the fragment as it issued (y is the fragment as it is), the slot as it was
and as it will be, the elements with their places, and where it continues from: the values of the ranks that are staged, and the
partial accumulator and flags. -/
structure SweepJob where
  x : Ctx
  y : Ctx
  slot : Nat
  before : IterSlot
  moved : IterSlot
  parked : Bool
  rank : Nat
  staged : List W64
  acc : W64
  flags : Flags
  es : List (Element × Place)
deriving DecidableEq, Repr, Inhabited

/-- What rank r of a sweep starts from. -/
def SweepJob.start (j : SweepJob) (o : Option ReduceOp) (r : Nat) : W64 := if j.rank = r then j.acc else sweepStart o
/-- The elements of a rank. -/
def SweepJob.ofRank (j : SweepJob) (r : Nat) : List (Element × Place) := j.es.filter fun e => e.1.rank = r
/-- The registers of a value of a sweep. -/
def SweepJob.regs (j : SweepJob) (o : Option ReduceOp) (v : W64) : List W32 :=
  if o = none ∧ j.before.elem = 3 then [lowWord v, highWord v] else [lowWord v]
/-- The sweep issues with the value of each rank, its flags so far, and the number that it shares with the accesses that are still to be
performed. -/
def SweepJob.issue (j : SweepJob) (o : Option ReduceOp) (m : Bool) (d : Nat) (res : List (W64 × Flags)) (stamp : Nat) (late : List Late)
    (s : State) : Out :=
  let x := j.x
  let ts := threadsOf x.f.k0
  let val (t : Nat) : List W32 := j.regs o (res.getD (ts.idxOf t) (0, 0)).1
  let sent := x.sendLanes { x.g with its := x.g.its.set j.slot { j.moved with resume := 0 } } s.ir d val none
    (j.flags ||| flagUnion (res.map (·.2))) (some j.slot)
  let sent := { sent with pend := sent.pend.zipIdx.map fun (p : Pend × Nat) =>
    if p.2 < x.g.pend.length then p.1 else { p.1 with stamp := stamp } }
  let g := { sent with frags := j.y.g.frags, fpmode := j.y.g.fpmode, late := sent.late ++ late }.setStage
    (if j.parked then none else j.y.g.stage)
  j.y.done (x.fill s (j.es.map fun e => (e.1.req, e.2))) g m 1
/-- The sweep reads every element as it issues. -/
def SweepJob.now (j : SweepJob) (o : Option ReduceOp) (m : Bool) (d : Nat) (s : State) : Out :=
  let value (e : Element × Place) : W64 := widenElement j.before.elem (j.x.loadBytes s e.1.req e.2)
  let res := j.staged.map (fun v => (v, (0 : Flags))) ++ ((List.range (countOf j.x.f.k0)).filter (j.rank ≤ ·)).map fun r =>
    sweepRank o j.x.g.fpmode (j.start o r) ((j.ofRank r).map value)
  j.issue o m d res 0 [] s

/-- A sweep of slot i with run length len into d, d + 1 for b64, up to the reading of its elements: o is none for `swp` (R166 to R170). -/
def sweepWith (m : Bool) (o : Option ReduceOp) (d i : Nat) (len : Ctx → Nat) (srcs : List Nat) (act : SweepJob → State → Out)
    (s : State) : Out :=
  onFrag s fun y =>
    let x := y.asIssued i
    let parked := y.parkedSweep i
    if x.f.k0 ≠ 0 ∧ parked = none ∧ x.waitsOn srcs then .next s
    else
      let it := x.g.slotIt i
      let other := if x.g.handler then x.g.staging else none
      if it.rank = 0 ∨ (o.isSome ∧ it.elem ≠ 2) ∨ (o = none ∧ it.elem = 3 ∧ d % 2 ≠ 0) ∨
          other.any (fun st => st.slot = i) then y.illegal s 0
      else if x.f.k0 = 0 then y.done s y.g m 1
      else if x.launch.form ≠ 0 ∧ 1 < x.g.frags.length then y.trap s 5 (accessInfo 0 0 3 0xFF)
      else
        let before := (parked.map (·.before)).getD it
        let rank₀ := (parked.map (·.rank)).getD 0
        let off₀ := (parked.map (·.off)).getD 0
        let done₀ := (parked.map (·.staged)).getD []
        let acc₀ := (parked.map (·.acc)).getD (sweepStart o)
        let fl₀ := (parked.map (·.flags)).getD 0
        let n := countOf x.f.k0
        let L := (parked.map (·.len)).getD (len x)
        let start := before.position
        let es := x.elements before start L rank₀ off₀
        let checked := es.map fun e => (e, x.checkElement s e.req)
        let value (e : Element) : W64 := widenElement before.elem (x.loadBytes s e.req (placeOf checked e))
        let rankVals (r : Nat) : List W64 := (es.filter fun e => e.rank = r).map value
        let moved := (before.moveTo (min (start + n * L) before.count))
        match judge (checked.map fun c => (c.1.req, c.2)) [] with
        | .denied t den =>
          if den.cause ≠ 0 then y.undoTrap s t den
          else
            -- the lowest position that faults decides where the sweep stops
            match checked.find? fun c => (match c.2 with
              | .error dn => dn.cause = 0
              | .ok _ => false) with
            | none => y.undoTrap s t den
            | some (e, _) =>
              let ranks := (List.range e.rank).filter (rank₀ ≤ ·)
              let done := ranks.map fun r =>
                sweepRank o x.g.fpmode (if r = rank₀ then acc₀ else sweepStart o) (rankVals r)
              let part := sweepRank o x.g.fpmode (if e.rank = rank₀ then acc₀ else sweepStart o)
                (((es.filter fun q => q.rank = e.rank ∧ q.off < e.off)).map value)
              let st : Staging :=
                ⟨x.frag, x.f.pc, x.f.k0, L, x.g.fpmode, i, before, e.rank, e.off, done₀ ++ done.map (·.1), part.1, fl₀ ||| flagUnion (done.map (·.2)) ||| part.2⟩
              let resume := BitVec.ofNat 32 (e.rank + 256 * (if o.isSome then e.off else 0))
              let g := ({ y.g with its := y.g.its.set i { moved with resume := resume } }).setStage (some st)
              match x.reportOwn s 1 0 den with
              | (s, none) => y.undoTrap s t { den with cause := 4 }
              | (s, some id) => .next (y.parkOn s g id (accessInfo 0 den.level 6 t))
        | .ok places =>
          if s.stalls places then .next s
          else
            match s.firstLost places with
            | some (t, site) =>
              .next (takeTrap x.core x.slot x.frag 7 x.f.pc s.ir (machineCheckInfo site t) (y.put s y.g.undoSweep))
            | none =>
              act ⟨x, y, i, before, moved, parked.isSome, rank₀, done₀, acc₀, fl₀, es.map fun e => (e, placeOf checked e)⟩ s
/-- A sweep of slot i (R166 to R170). It reads its elements as it issues; a turn that leaves accesses behind is the other form
(notes/assumptions/5.md). -/
def sweep (m : Bool) (o : Option ReduceOp) (d i : Nat) (len : Ctx → Nat) (srcs : List Nat) (s : State) : Out :=
  sweepWith m o d i len srcs (fun j s => j.now o m d s) s

/-- swp (R166). -/
def execSwp (m : Bool) (d i : Nat) (s : State) : Out := sweep m none d i (fun _ => 1) [] s
/-- swr: the run length is b in the lowest active thread (R167). -/
def execSwr (m : Bool) (o : ReduceOp) (d i b : Nat) (s : State) : Out :=
  sweep m (some o) d i (fun x => (x.uni b).toNat % 65536) [b] s

end Sys2Proof.Machine
end

