-- ==== Sys2Proof/Machine/Queues.lean ====
section
/-!
DEFINITION. Hardware queues (R171, R172, R424, R477): entries of 64 places, pops and pushes of groups, and `qcfg`.
-/

namespace Sys2Proof.Machine

/-- A queue that nothing owns. -/
def Queue.unowned : Queue := ⟨none, [], 0⟩
def queueKey (core q : Nat) : Nat := 8 * core + q
def State.queue (s : State) (core q : Nat) : Queue := s.queues.get (queueKey core q) Queue.unowned
def State.putQueue (s : State) (core n : Nat) (q : Queue) : State :=
  { s with queues := if q = Queue.unowned then s.queues.erase (queueKey core n) else s.queues.set (queueKey core n) q }
/-- Free places of a queue. -/
def Queue.room (q : Queue) : Nat := 64 - q.items.length
/-- Appends what fits; the rest is dropped and counted, the count of 24 bits saturating (R171, R477). -/
def Queue.pushDropping (q : Queue) (vals : List W32) : Queue :=
  { q with
    items := q.items ++ vals.take q.room
    drops := min (q.drops + (vals.length - q.room)) 0xFFFFFF }

/-- A lane queue operation on a queue of its team: with an empty k0 nothing happens; with FORM non-zero it needs a
group of one fragment (R171, R172). -/
def queueOp (m : Bool) (n : Nat) (srcs : List Nat) (s : State) (act : Ctx → Queue → Nat → Out) : Out :=
  onFrag s fun x =>
    if x.f.k0 ≠ 0 ∧ x.waitsOn srcs then .next s
    else
      let q := s.queue x.core n
      if q.owner ≠ some x.g.team then x.illegal s 0
      else if x.f.k0 = 0 then x.done s x.g m 1
      else if x.launch.form ≠ 0 ∧ 1 < x.g.frags.length then x.trap s 5 (accessInfo 0 0 4 0xFF)
      else act x q (countOf x.f.k0)

/-- The values given to ranks: the j-th to the thread of rank j. -/
def byRank (x : Ctx) (vals : List W32) (t : Nat) : List W32 :=
  match vals[(threadsOf x.f.k0).idxOf t]? with
  | some v => [v]
  | none => []

/-- pop (R171): waits for n entries. -/
def execPop (m : Bool) (d n : Nat) (s : State) : Out :=
  queueOp m n [] s fun x q k =>
    if q.items.length < k then .next s
    else
      x.done (s.putQueue x.core n { q with items := q.items.drop k })
        (x.sendLanes x.g s.ir d (byRank x (q.items.take k)) none 0 none) m 1
/-- popnb (R171): takes what is there, and marks who received an entry. -/
def execPopnb (m : Bool) (d ka n : Nat) (s : State) : Out :=
  queueOp m n [] s fun x q k =>
    let vals := q.items.take k
    let got := maskOf fun t => x.f.k0.getLsbD t && decide ((threadsOf x.f.k0).idxOf t < vals.length)
    x.done (s.putQueue x.core n { q with items := q.items.drop k })
      (x.sendLanes x.g s.ir d (byRank x vals) (some (ka, got)) 0 none) m 1
/-- push (R171): waits for room. -/
def execPush (m : Bool) (d n : Nat) (s : State) : Out :=
  queueOp m n [d] s fun x q k =>
    if q.room < k then .next s
    else x.done (s.putQueue x.core n (q.pushDropping ((threadsOf x.f.k0).map (x.lane d)))) x.g m 1
/-- pushnb (R171): what does not fit is dropped and counted. -/
def execPushnb (m : Bool) (d n : Nat) (s : State) : Out :=
  queueOp m n [d] s fun x q _ =>
    x.done (s.putQueue x.core n (q.pushDropping ((threadsOf x.f.k0).map (x.lane d)))) x.g m 1

/-- qcfg (R424): bit 0 EN, bit 1 FLUSH. -/
def execQcfg (m : Bool) (a n : Nat) (s : State) : Out :=
  onFrag s fun x =>
    if x.waitsOn [a] then .next s
    else
      let w := x.uni a
      let q := s.queue x.core n
      if w.toNat / 4 ≠ 0 then x.illegal s w
      else if q.owner ≠ none ∧ q.owner ≠ some x.g.team then x.illegal s 0
      else if w.getLsbD 0 then
        let q' := if w.getLsbD 1 then ⟨some x.g.team, [], 0⟩ else { q with owner := some x.g.team }
        x.done (s.putQueue x.core n q') x.g m 1
      else if q.owner = none then x.done s x.g m 1
      else x.done (s.putQueue x.core n Queue.unowned) x.g m 1

end Sys2Proof.Machine
end

