-- ==== Sys2Proof/Decode.lean ====
section
/-!
DEFINITION. Instruction words: the decoder of Spavy words (R49 to R68), total on any words and refusing by name,
the decoder of a hod's words (R469, R472), and the encoder of both. Fields are natural numbers cut out of a word.
-/

namespace Sys2Proof

/- No code is generated for what builds an instruction: Lean's code generator takes at most 244 constructors that
carry fields, and Instr has one for each row of the opcode table. The kernel evaluates all of it. -/
noncomputable section

/-- n bits of w from bit lo up. -/
def fld (w lo n : Nat) : Nat := w / 2 ^ lo % 2 ^ n
/-- A field that the format requires to be zero (R53). -/
def zf (w lo n : Nat) : Bool := fld w lo n == 0
/-- A natural number as a 32-bit word. -/
def w32 (n : Nat) : W32 := BitVec.ofNat 32 n
/-- An instruction whose zero fields hold, if it is well formed. -/
def ok (zero : Bool) (i : Instr) : Option Instr := if zero && i.wellFormed then some i else none

/-! ### Codes of the closed sets (R54, R55, R65, R67, R101, R150, R161, R304) -/

/-- The code of a IntCond in its field. -/
def IntCond.code : IntCond → Nat
  | .eq => 0
  | .ne => 1
  | .lt => 2
  | .le => 3
  | .gt => 4
  | .ge => 5
  | .ltz => 6
  | .gez => 7
/-- The IntCond that a field's code names. -/
def IntCond.ofCode : Nat → Option IntCond
  | 0 => some .eq
  | 1 => some .ne
  | 2 => some .lt
  | 3 => some .le
  | 4 => some .gt
  | 5 => some .ge
  | 6 => some .ltz
  | 7 => some .gez
  | _ => none

/-- The code of a FloatCond in its field. -/
def FloatCond.code : FloatCond → Nat
  | .eq => 0
  | .ne => 1
  | .lt => 2
  | .le => 3
  | .gt => 4
  | .ge => 5
  | .unord => 6
  | .ord => 7
/-- The FloatCond that a field's code names. -/
def FloatCond.ofCode : Nat → Option FloatCond
  | 0 => some .eq
  | 1 => some .ne
  | 2 => some .lt
  | 3 => some .le
  | 4 => some .gt
  | 5 => some .ge
  | 6 => some .unord
  | 7 => some .ord
  | _ => none

/-- The code of a BranchCond in its field. -/
def BranchCond.code : BranchCond → Nat
  | .eqz => 0
  | .nez => 1
  | .ltz => 2
  | .gez => 3
  | .gtz => 4
  | .lez => 5
  | .kall => 6
  | .kany => 7
/-- The BranchCond that a field's code names. -/
def BranchCond.ofCode : Nat → Option BranchCond
  | 0 => some .eqz
  | 1 => some .nez
  | 2 => some .ltz
  | 3 => some .gez
  | 4 => some .gtz
  | 5 => some .lez
  | 6 => some .kall
  | 7 => some .kany
  | _ => none

/-- The code of a FloatType in its field. -/
def FloatType.code : FloatType → Nat
  | .f32 => 0
  | .f16x2 => 1
  | .bf16x2 => 2
/-- The FloatType that a field's code names. -/
def FloatType.ofCode : Nat → Option FloatType
  | 0 => some .f32
  | 1 => some .f16x2
  | 2 => some .bf16x2
  | _ => none

/-- The code of a Rounding in its field. -/
def Rounding.code : Rounding → Nat
  | .rne => 0
  | .rz => 1
  | .ru => 2
  | .rd => 3
  | .rna => 4
  | .rs => 5
/-- The Rounding that a field's code names. -/
def Rounding.ofCode : Nat → Option Rounding
  | 0 => some .rne
  | 1 => some .rz
  | 2 => some .ru
  | 3 => some .rd
  | 4 => some .rna
  | 5 => some .rs
  | _ => none

/-- The code of a ReduceOp in its field. -/
def ReduceOp.code : ReduceOp → Nat
  | .addS32 => 0
  | .addF32 => 1
  | .minS32 => 2
  | .maxS32 => 3
  | .fmin => 4
  | .fmax => 5
  | .and => 6
  | .or => 7
/-- The ReduceOp that a field's code names. -/
def ReduceOp.ofCode : Nat → Option ReduceOp
  | 0 => some .addS32
  | 1 => some .addF32
  | 2 => some .minS32
  | 3 => some .maxS32
  | 4 => some .fmin
  | 5 => some .fmax
  | 6 => some .and
  | 7 => some .or
  | _ => none

/-- The code of a ShiftKind in its field. -/
def ShiftKind.code : ShiftKind → Nat
  | .shl => 0
  | .shr => 1
  | .sar => 2
  | .rol => 3
/-- The ShiftKind that a field's code names. -/
def ShiftKind.ofCode : Nat → Option ShiftKind
  | 0 => some .shl
  | 1 => some .shr
  | 2 => some .sar
  | 3 => some .rol
  | _ => none

/-- The code of a Order in its field. -/
def Order.code : Order → Nat
  | .relaxed => 0
  | .acquire => 1
  | .release => 2
  | .sc => 3
/-- The Order that a field's code names. -/
def Order.ofCode : Nat → Option Order
  | 0 => some .relaxed
  | 1 => some .acquire
  | 2 => some .release
  | 3 => some .sc
  | _ => none

/-- The code of a Scope in its field. -/
def Scope.code : Scope → Nat
  | .group => 0
  | .team => 1
  | .cluster => 2
  | .die => 3
  | .module => 4
  | .domain => 5
/-- The Scope that a field's code names. -/
def Scope.ofCode : Nat → Option Scope
  | 0 => some .group
  | 1 => some .team
  | 2 => some .cluster
  | 3 => some .die
  | 4 => some .module
  | 5 => some .domain
  | _ => none

/-- The code of a Width in its field. -/
def Width.code : Width → Nat
  | .b8 => 0
  | .b16 => 1
  | .b32 => 2
  | .b64 => 3
  | .b128 => 4
  | .s8 => 5
  | .s16 => 6
/-- The Width that a field's code names. -/
def Width.ofCode : Nat → Option Width
  | 0 => some .b8
  | 1 => some .b16
  | 2 => some .b32
  | 3 => some .b64
  | 4 => some .b128
  | 5 => some .s8
  | 6 => some .s16
  | _ => none

/-- The code of a Space in its field. -/
def Space.code : Space → Nat
  | .unit => 0
  | .die => 1
  | .global => 2
  | .cluster => 3
/-- The Space that a field's code names. -/
def Space.ofCode : Nat → Option Space
  | 0 => some .unit
  | 1 => some .die
  | 2 => some .global
  | 3 => some .cluster
  | _ => none

/-- The code of a NumType in its field. -/
def NumType.code : NumType → Nat
  | .s32 => 0
  | .z32 => 1
  | .s8 => 2
  | .z8 => 3
  | .f32 => 4
  | .f16 => 5
  | .bf16 => 6
  | .e4m3 => 7
  | .e5m2 => 8
/-- The NumType that a field's code names. -/
def NumType.ofCode : Nat → Option NumType
  | 0 => some .s32
  | 1 => some .z32
  | 2 => some .s8
  | 3 => some .z8
  | 4 => some .f32
  | 5 => some .f16
  | 6 => some .bf16
  | 7 => some .e4m3
  | 8 => some .e5m2
  | _ => none

/-- The code of a Activation in its field. -/
def Activation.code : Activation → Nat
  | .relu => 0
  | .gelu => 1
  | .silu => 2
  | .sigm => 3
  | .tanh => 4
  | .erf => 5
/-- The Activation that a field's code names. -/
def Activation.ofCode : Nat → Option Activation
  | 0 => some .relu
  | 1 => some .gelu
  | 2 => some .silu
  | 3 => some .sigm
  | 4 => some .tanh
  | 5 => some .erf
  | _ => none

/-- The function code of a RvBranch (RISC-V unprivileged 20191213; funct7 × 8 + funct3 where both select). -/
def RvBranch.code : RvBranch → Nat
  | .beq => 0
  | .bne => 1
  | .blt => 4
  | .bge => 5
  | .bltu => 6
  | .bgeu => 7
/-- The RvBranch that a function code names. -/
def RvBranch.ofCode : Nat → Option RvBranch
  | 0 => some .beq
  | 1 => some .bne
  | 4 => some .blt
  | 5 => some .bge
  | 6 => some .bltu
  | 7 => some .bgeu
  | _ => none

/-- The function code of a RvLoad (RISC-V unprivileged 20191213; funct7 × 8 + funct3 where both select). -/
def RvLoad.code : RvLoad → Nat
  | .lb => 0
  | .lh => 1
  | .lw => 2
  | .ld => 3
  | .lbu => 4
  | .lhu => 5
  | .lwu => 6
/-- The RvLoad that a function code names. -/
def RvLoad.ofCode : Nat → Option RvLoad
  | 0 => some .lb
  | 1 => some .lh
  | 2 => some .lw
  | 3 => some .ld
  | 4 => some .lbu
  | 5 => some .lhu
  | 6 => some .lwu
  | _ => none

/-- The function code of a RvStore (RISC-V unprivileged 20191213; funct7 × 8 + funct3 where both select). -/
def RvStore.code : RvStore → Nat
  | .sb => 0
  | .sh => 1
  | .sw => 2
  | .sd => 3
/-- The RvStore that a function code names. -/
def RvStore.ofCode : Nat → Option RvStore
  | 0 => some .sb
  | 1 => some .sh
  | 2 => some .sw
  | 3 => some .sd
  | _ => none

/-- The function code of a RvAmo (RISC-V unprivileged 20191213; funct7 × 8 + funct3 where both select). -/
def RvAmo.code : RvAmo → Nat
  | .add => 0
  | .swap => 1
  | .xor => 4
  | .or => 8
  | .and => 12
  | .min => 16
  | .max => 20
  | .minu => 24
  | .maxu => 28
/-- The RvAmo that a function code names. -/
def RvAmo.ofCode : Nat → Option RvAmo
  | 0 => some .add
  | 1 => some .swap
  | 4 => some .xor
  | 8 => some .or
  | 12 => some .and
  | 16 => some .min
  | 20 => some .max
  | 24 => some .minu
  | 28 => some .maxu
  | _ => none

/-- The function code of a RvOp (RISC-V unprivileged 20191213; funct7 × 8 + funct3 where both select). -/
def RvOp.code : RvOp → Nat
  | .add => 0
  | .sll => 1
  | .slt => 2
  | .sltu => 3
  | .xor => 4
  | .srl => 5
  | .or => 6
  | .and => 7
  | .mul => 8
  | .mulh => 9
  | .mulhsu => 10
  | .mulhu => 11
  | .div => 12
  | .divu => 13
  | .rem => 14
  | .remu => 15
  | .sub => 256
  | .sra => 261
/-- The RvOp that a function code names. -/
def RvOp.ofCode : Nat → Option RvOp
  | 0 => some .add
  | 1 => some .sll
  | 2 => some .slt
  | 3 => some .sltu
  | 4 => some .xor
  | 5 => some .srl
  | 6 => some .or
  | 7 => some .and
  | 8 => some .mul
  | 9 => some .mulh
  | 10 => some .mulhsu
  | 11 => some .mulhu
  | 12 => some .div
  | 13 => some .divu
  | 14 => some .rem
  | 15 => some .remu
  | 256 => some .sub
  | 261 => some .sra
  | _ => none

/-- The function code of a RvOp32 (RISC-V unprivileged 20191213; funct7 × 8 + funct3 where both select). -/
def RvOp32.code : RvOp32 → Nat
  | .addw => 0
  | .sllw => 1
  | .srlw => 5
  | .mulw => 8
  | .divw => 12
  | .divuw => 13
  | .remw => 14
  | .remuw => 15
  | .subw => 256
  | .sraw => 261
/-- The RvOp32 that a function code names. -/
def RvOp32.ofCode : Nat → Option RvOp32
  | 0 => some .addw
  | 1 => some .sllw
  | 5 => some .srlw
  | 8 => some .mulw
  | 12 => some .divw
  | 13 => some .divuw
  | 14 => some .remw
  | 15 => some .remuw
  | 256 => some .subw
  | 261 => some .sraw
  | _ => none

/-- The type pair of a conversion code 9 × S + D (R150). -/
def cvtCode (c : Nat) : Option (NumType × NumType) :=
  (NumType.ofCode (c / 9)).bind fun s => (NumType.ofCode (c % 9)).map fun t => (s, t)

/-! ### The majors (R65 to R68) -/

/-- Lane major 0x01. -/
def decL01 (m : Bool) (w : Nat) : Option Instr :=
  match fld w 21 3 with
  | 0 => ok (true) (.add m (fld w 14 7) (fld w 7 7) (fld w 0 7))
  | 1 => ok (true) (.sub m (fld w 14 7) (fld w 7 7) (fld w 0 7))
  | 2 => ok (true) (.and m (fld w 14 7) (fld w 7 7) (fld w 0 7))
  | 3 => ok (true) (.or m (fld w 14 7) (fld w 7 7) (fld w 0 7))
  | 4 => ok (true) (.xor m (fld w 14 7) (fld w 7 7) (fld w 0 7))
  | 5 => ok (true) (.andn m (fld w 14 7) (fld w 7 7) (fld w 0 7))
  | 6 => ok (true) (.minS32 m (fld w 14 7) (fld w 7 7) (fld w 0 7))
  | 7 => ok (true) (.maxS32 m (fld w 14 7) (fld w 7 7) (fld w 0 7))
  | _ => none

/-- Lane major 0x02. -/
def decL02 (m : Bool) (w : Nat) : Option Instr :=
  match fld w 21 3 with
  | 0 => ok (true) (.minZ32 m (fld w 14 7) (fld w 7 7) (fld w 0 7))
  | 1 => ok (true) (.maxZ32 m (fld w 14 7) (fld w 7 7) (fld w 0 7))
  | 2 => ok (true) (.addsatS32 m (fld w 14 7) (fld w 7 7) (fld w 0 7))
  | 3 => ok (true) (.subsatS32 m (fld w 14 7) (fld w 7 7) (fld w 0 7))
  | 4 => ok (true) (.addsatZ32 m (fld w 14 7) (fld w 7 7) (fld w 0 7))
  | 5 => ok (true) (.subsatZ32 m (fld w 14 7) (fld w 7 7) (fld w 0 7))
  | 6 => ok (true) (.absd m (fld w 14 7) (fld w 7 7) (fld w 0 7))
  | 7 => ok (zf w 0 7) (.abs m (fld w 14 7) (fld w 7 7))
  | _ => none

/-- Lane major 0x03. -/
def decL03 (m : Bool) (w : Nat) : Option Instr :=
  match fld w 21 3 with
  | 0 => ok (true) (.shl m (fld w 14 7) (fld w 7 7) (fld w 0 7))
  | 1 => ok (true) (.shr m (fld w 14 7) (fld w 7 7) (fld w 0 7))
  | 2 => ok (true) (.sar m (fld w 14 7) (fld w 7 7) (fld w 0 7))
  | 3 => ok (true) (.rol m (fld w 14 7) (fld w 7 7) (fld w 0 7))
  | 4 => ok (true) (.ror m (fld w 14 7) (fld w 7 7) (fld w 0 7))
  | _ => none

/-- Lane major 0x04. -/
def decL04 (m : Bool) (w : Nat) : Option Instr :=
  match fld w 21 3 with
  | 0 => ok (true) (.mul m (fld w 14 7) (fld w 7 7) (fld w 0 7))
  | 1 => ok (true) (.mulhS32 m (fld w 14 7) (fld w 7 7) (fld w 0 7))
  | 2 => ok (true) (.mulhZ32 m (fld w 14 7) (fld w 7 7) (fld w 0 7))
  | 3 => ok (true) (.mulhSz32 m (fld w 14 7) (fld w 7 7) (fld w 0 7))
  | 4 => ok (true) (.divS32 m (fld w 14 7) (fld w 7 7) (fld w 0 7))
  | 5 => ok (true) (.divZ32 m (fld w 14 7) (fld w 7 7) (fld w 0 7))
  | 6 => ok (true) (.remS32 m (fld w 14 7) (fld w 7 7) (fld w 0 7))
  | 7 => ok (true) (.remZ32 m (fld w 14 7) (fld w 7 7) (fld w 0 7))
  | _ => none

/-- Lane major 0x05. -/
def decL05 (m : Bool) (w : Nat) : Option Instr :=
  match fld w 21 3 with
  | 0 => ok (true) (.mad m (fld w 14 7) (fld w 7 7) (fld w 0 7))
  | 1 => ok (true) (.msb m (fld w 14 7) (fld w 7 7) (fld w 0 7))
  | _ => none

/-- Lane major 0x06. -/
def decL06 (m : Bool) (w : Nat) : Option Instr :=
  match fld w 21 3 with
  | 0 => ok (zf w 0 7) (.clz m (fld w 14 7) (fld w 7 7))
  | 1 => ok (zf w 0 7) (.ctz m (fld w 14 7) (fld w 7 7))
  | 2 => ok (zf w 0 7) (.popc m (fld w 14 7) (fld w 7 7))
  | 3 => ok (zf w 0 7) (.brev m (fld w 14 7) (fld w 7 7))
  | 4 => ok (zf w 0 7) (.bswap m (fld w 14 7) (fld w 7 7))
  | 5 => ok (zf w 0 7) (.sxb m (fld w 14 7) (fld w 7 7))
  | 6 => ok (zf w 0 7) (.sxh m (fld w 14 7) (fld w 7 7))
  | 7 => ok (zf w 0 7) (.zxh m (fld w 14 7) (fld w 7 7))
  | _ => none

/-- Lane major 0x07. -/
def decL07 (m : Bool) (w : Nat) : Option Instr :=
  match fld w 21 3 with
  | 0 => ok (true) (.bfxS32 m (fld w 14 7) (fld w 7 7) (fld w 0 7))
  | 1 => ok (true) (.bfxZ32 m (fld w 14 7) (fld w 7 7) (fld w 0 7))
  | 2 => ok (true) (.bfi m (fld w 14 7) (fld w 7 7) (fld w 0 7))
  | _ => none

/-- Lane major 0x08. -/
def decL08 (m : Bool) (w : Nat) : Option Instr :=
  ok (true) (.addi m (fld w 17 7) (fld w 10 7) (.ofNat 10 (fld w 0 10)))

/-- Lane major 0x09. -/
def decL09 (m : Bool) (w : Nat) : Option Instr :=
  ok (true) (.andi m (fld w 17 7) (fld w 10 7) (.ofNat 10 (fld w 0 10)))

/-- Lane major 0x0A. -/
def decL0A (m : Bool) (w : Nat) : Option Instr :=
  ok (true) (.ori m (fld w 17 7) (fld w 10 7) (.ofNat 10 (fld w 0 10)))

/-- Lane major 0x0B. -/
def decL0B (m : Bool) (w : Nat) : Option Instr :=
  ok (true) (.xori m (fld w 17 7) (fld w 10 7) (.ofNat 10 (fld w 0 10)))

/-- Lane major 0x0C. -/
def decL0C (m : Bool) (w : Nat) : Option Instr :=
  (ShiftKind.ofCode (fld w 8 2)).bind fun k => ok (zf w 5 3) (.shi m (fld w 17 7) (fld w 10 7) k (fld w 0 5))

/-- Lane major 0x0D. -/
def decL0D (m : Bool) (w : Nat) : Option Instr :=
  ok (true) (.muli m (fld w 17 7) (fld w 10 7) (.ofNat 10 (fld w 0 10)))

/-- Lane major 0x0E. -/
def decL0E (m : Bool) (w : Nat) (x : Nat) : Option Instr :=
  match fld w 14 3 with
  | 0 => ok (zf w 0 14) (.movl m (fld w 17 7) (.ofNat 32 x))
  | 1 => ok (zf w 0 14) (.addl m (fld w 17 7) (.ofNat 32 x))
  | 2 => ok (zf w 0 14) (.andl m (fld w 17 7) (.ofNat 32 x))
  | 3 => ok (zf w 0 14) (.orl m (fld w 17 7) (.ofNat 32 x))
  | _ => none

/-- Lane major 0x0F. -/
def decL0F (m : Bool) (w : Nat) : Option Instr :=
  ok (true) (.lea m (fld w 21 3) (fld w 14 7) (fld w 7 7) (fld w 0 7))

/-- Lane major 0x10. -/
def decL10 (m : Bool) (w : Nat) : Option Instr :=
  (IntCond.ofCode (fld w 21 3)).bind fun c => ok (zf w 17 4) (.icmp m c (fld w 14 3) (fld w 7 7) (fld w 0 7))

/-- Lane major 0x11. -/
def decL11 (m : Bool) (w : Nat) : Option Instr :=
  (FloatCond.ofCode (fld w 21 3)).bind fun c => ok (zf w 17 4) (.fcmp m c (fld w 14 3) (fld w 7 7) (fld w 0 7))

/-- Lane major 0x12. -/
def decL12 (m : Bool) (w : Nat) : Option Instr :=
  ok (true) (.sel m (fld w 21 3) (fld w 14 7) (fld w 7 7) (fld w 0 7))

/-- Lane major 0x13. -/
def decL13 (m : Bool) (w : Nat) : Option Instr :=
  match fld w 21 3 with
  | 0 => ok (zf w 0 7) (.mov m (fld w 14 7) (fld w 7 7))
  | 1 => ok (zf w 0 7 && zf w 10 4) (.kbit m (fld w 14 7) (fld w 7 3))
  | 2 => ok (zf w 0 14) (.tid m (fld w 14 7))
  | 3 => ok (zf w 0 7) (.sysv m (fld w 14 7) (fld w 7 7))
  | _ => none

/-- Lane major 0x14. -/
def decL14 (m : Bool) (w : Nat) : Option Instr :=
  (FloatType.ofCode (fld w 21 3)).bind fun f => ok (true) (.fadd m f (fld w 14 7) (fld w 7 7) (fld w 0 7))

/-- Lane major 0x15. -/
def decL15 (m : Bool) (w : Nat) : Option Instr :=
  (FloatType.ofCode (fld w 21 3)).bind fun f => ok (true) (.fsub m f (fld w 14 7) (fld w 7 7) (fld w 0 7))

/-- Lane major 0x16. -/
def decL16 (m : Bool) (w : Nat) : Option Instr :=
  (FloatType.ofCode (fld w 21 3)).bind fun f => ok (true) (.fmul m f (fld w 14 7) (fld w 7 7) (fld w 0 7))

/-- Lane major 0x17. -/
def decL17 (m : Bool) (w : Nat) : Option Instr :=
  (FloatType.ofCode (fld w 21 3)).bind fun f => ok (true) (.ffma m f (fld w 14 7) (fld w 7 7) (fld w 0 7))

/-- Lane major 0x18. -/
def decL18 (m : Bool) (w : Nat) : Option Instr :=
  match fld w 21 3 with
  | 0 => ok (true) (.fmin m (fld w 14 7) (fld w 7 7) (fld w 0 7))
  | 1 => ok (true) (.fmax m (fld w 14 7) (fld w 7 7) (fld w 0 7))
  | 2 => ok (true) (.fminnum m (fld w 14 7) (fld w 7 7) (fld w 0 7))
  | 3 => ok (true) (.fmaxnum m (fld w 14 7) (fld w 7 7) (fld w 0 7))
  | _ => none

/-- Lane major 0x19. -/
def decL19 (m : Bool) (w : Nat) : Option Instr :=
  match fld w 21 3 with
  | 0 => ok (zf w 0 7) (.fabs m (fld w 14 7) (fld w 7 7))
  | 1 => ok (zf w 0 7) (.fneg m (fld w 14 7) (fld w 7 7))
  | 2 => ok (true) (.fcpys m (fld w 14 7) (fld w 7 7) (fld w 0 7))
  | 3 => ok (true) (.fxsgn m (fld w 14 7) (fld w 7 7) (fld w 0 7))
  | _ => none

/-- Lane major 0x1A. -/
def decL1A (m : Bool) (w : Nat) : Option Instr :=
  match fld w 21 3 with
  | 0 => ok (zf w 0 7) (.fcls m (fld w 14 7) (fld w 7 7))
  | _ => none

/-- Lane major 0x1B. -/
def decL1B (m : Bool) (w : Nat) : Option Instr :=
  (Rounding.ofCode (fld w 21 3)).bind fun r => (cvtCode (fld w 0 7)).bind fun p => ok (true) (.cvt m r (fld w 14 7) (fld w 7 7) p.1 p.2)

/-- Lane major 0x1C. -/
def decL1C (m : Bool) (w : Nat) : Option Instr :=
  (Rounding.ofCode (fld w 21 3)).bind fun r => ok (zf w 0 7) (.frnd m r (fld w 14 7) (fld w 7 7))

/-- Lane major 0x1D. -/
def decL1D (m : Bool) (w : Nat) : Option Instr :=
  match fld w 21 3 with
  | 0 => ok (zf w 0 7) (.rcp m (fld w 14 7) (fld w 7 7))
  | 1 => ok (zf w 0 7) (.rsq m (fld w 14 7) (fld w 7 7))
  | 2 => ok (zf w 0 7) (.sqrt m (fld w 14 7) (fld w 7 7))
  | 3 => ok (zf w 0 7) (.exp2 m (fld w 14 7) (fld w 7 7))
  | 4 => ok (zf w 0 7) (.log2 m (fld w 14 7) (fld w 7 7))
  | 5 => ok (zf w 0 7) (.sin m (fld w 14 7) (fld w 7 7))
  | 6 => ok (zf w 0 7) (.cos m (fld w 14 7) (fld w 7 7))
  | 7 => ok (zf w 0 7) (.tanh m (fld w 14 7) (fld w 7 7))
  | _ => none

/-- Lane major 0x1E. -/
def decL1E (m : Bool) (w : Nat) : Option Instr :=
  match fld w 21 3 with
  | 0 => ok (zf w 0 7) (.sigm m (fld w 14 7) (fld w 7 7))
  | 1 => ok (zf w 0 7) (.erf m (fld w 14 7) (fld w 7 7))
  | 2 => ok (zf w 0 7) (.gelu m (fld w 14 7) (fld w 7 7))
  | 3 => ok (zf w 0 7) (.silu m (fld w 14 7) (fld w 7 7))
  | _ => none

/-- Lane major 0x20. -/
def decL20 (m : Bool) (w : Nat) : Option Instr :=
  match fld w 21 3 with
  | 0 => ok (true) (.idx m (fld w 14 7) (fld w 7 7) (fld w 0 7))
  | 1 => ok (true) (.upw m (fld w 14 7) (fld w 7 7) (fld w 0 7))
  | 2 => ok (true) (.dnw m (fld w 14 7) (fld w 7 7) (fld w 0 7))
  | 3 => ok (true) (.xorw m (fld w 14 7) (fld w 7 7) (fld w 0 7))
  | 4 => ok (true) (.rotw m (fld w 14 7) (fld w 7 7) (fld w 0 7))
  | _ => none

/-- Lane major 0x21. -/
def decL21 (m : Bool) (w : Nat) : Option Instr :=
  (ReduceOp.ofCode (fld w 21 3)).bind fun o => ok (zf w 0 7) (.xred m o (fld w 14 7) (fld w 7 7))

/-- Lane major 0x22. -/
def decL22 (m : Bool) (w : Nat) : Option Instr :=
  (ReduceOp.ofCode (fld w 21 3)).bind fun o => ok (zf w 0 7) (.xscn m o (fld w 14 7) (fld w 7 7))

/-- Lane major 0x23. -/
def decL23 (m : Bool) (w : Nat) : Option Instr :=
  match fld w 21 3 with
  | 0 => ok (zf w 0 7 && zf w 17 4) (.ballot m (fld w 14 3) (fld w 7 7))
  | 1 => ok (zf w 0 7) (.all m (fld w 14 7) (fld w 7 7))
  | 2 => ok (zf w 0 7) (.any m (fld w 14 7) (fld w 7 7))
  | 3 => ok (zf w 0 7) (.uni m (fld w 14 7) (fld w 7 7))
  | _ => none

/-- Lane major 0x24. -/
def decL24 (m : Bool) (w : Nat) : Option Instr :=
  match fld w 21 3 with
  | 0 => ok (true) (.xbc m (fld w 14 7) (fld w 7 7) (fld w 0 7))
  | _ => none

/-- Lane major 0x28. -/
def decL28 (m : Bool) (w : Nat) : Option Instr :=
  (Width.ofCode (fld w 21 3)).bind fun wid => (Order.ofCode (fld w 5 2)).bind fun o => (Scope.ofCode (fld w 2 3)).bind fun c => ok (zf w 0 2) (.ld m wid (fld w 14 7) (fld w 7 7) o c)

/-- Lane major 0x29. -/
def decL29 (m : Bool) (w : Nat) : Option Instr :=
  (Width.ofCode (fld w 21 3)).bind fun wid => (Order.ofCode (fld w 5 2)).bind fun o => (Scope.ofCode (fld w 2 3)).bind fun c => ok (zf w 0 2) (.st m wid (fld w 14 7) (fld w 7 7) o c)

/-- Lane major 0x2A. -/
def decL2A (m : Bool) (w : Nat) : Option Instr :=
  (Width.ofCode (fld w 21 3)).bind fun wid => (Order.ofCode (fld w 5 2)).bind fun o => (Scope.ofCode (fld w 2 3)).bind fun c => ok (true) (.ldc m wid (fld w 14 7) (fld w 7 7) o c (fld w 0 2))

/-- Lane major 0x2B. -/
def decL2B (m : Bool) (w : Nat) : Option Instr :=
  (Width.ofCode (fld w 21 3)).bind fun wid => (Order.ofCode (fld w 5 2)).bind fun o => (Scope.ofCode (fld w 2 3)).bind fun c => ok (true) (.stc m wid (fld w 14 7) (fld w 7 7) o c (fld w 0 2))

/-- Lane major 0x2C. -/
def decL2C (m : Bool) (w : Nat) : Option Instr :=
  (Width.ofCode (fld w 21 3)).bind fun wid => (Order.ofCode (fld w 5 2)).bind fun o => (Scope.ofCode (fld w 2 3)).bind fun c => ok (zf w 0 2) (.ldd m wid (fld w 14 7) (fld w 7 7) o c)

/-- Lane major 0x2D. -/
def decL2D (m : Bool) (w : Nat) : Option Instr :=
  (Width.ofCode (fld w 21 3)).bind fun wid => (Order.ofCode (fld w 5 2)).bind fun o => (Scope.ofCode (fld w 2 3)).bind fun c => ok (zf w 0 2) (.std m wid (fld w 14 7) (fld w 7 7) o c)

/-- Lane major 0x2E. -/
def decL2E (m : Bool) (w : Nat) : Option Instr :=
  (Width.ofCode (fld w 21 3)).bind fun wid => (Order.ofCode (fld w 5 2)).bind fun o => (Scope.ofCode (fld w 2 3)).bind fun c => ok (true) (.ldg m wid (fld w 14 7) (fld w 7 7) o c (fld w 0 2))

/-- Lane major 0x2F. -/
def decL2F (m : Bool) (w : Nat) : Option Instr :=
  (Width.ofCode (fld w 21 3)).bind fun wid => (Order.ofCode (fld w 5 2)).bind fun o => (Scope.ofCode (fld w 2 3)).bind fun c => ok (true) (.stg m wid (fld w 14 7) (fld w 7 7) o c (fld w 0 2))

/-- Lane major 0x30. -/
def decL30 (m : Bool) (w : Nat) : Option Instr :=
  match fld w 21 3 with
  | 0 => (Order.ofCode (fld w 5 2)).bind fun o => (Scope.ofCode (fld w 2 3)).bind fun c => (Space.ofCode (fld w 0 2)).bind fun p => ok (true) (.atomAdd m (fld w 14 7) (fld w 7 7) o c p)
  | 1 => (Order.ofCode (fld w 5 2)).bind fun o => (Scope.ofCode (fld w 2 3)).bind fun c => (Space.ofCode (fld w 0 2)).bind fun p => ok (true) (.atomXch m (fld w 14 7) (fld w 7 7) o c p)
  | 2 => (Order.ofCode (fld w 5 2)).bind fun o => (Scope.ofCode (fld w 2 3)).bind fun c => (Space.ofCode (fld w 0 2)).bind fun p => ok (true) (.atomMinS32 m (fld w 14 7) (fld w 7 7) o c p)
  | 3 => (Order.ofCode (fld w 5 2)).bind fun o => (Scope.ofCode (fld w 2 3)).bind fun c => (Space.ofCode (fld w 0 2)).bind fun p => ok (true) (.atomMaxS32 m (fld w 14 7) (fld w 7 7) o c p)
  | 4 => (Order.ofCode (fld w 5 2)).bind fun o => (Scope.ofCode (fld w 2 3)).bind fun c => (Space.ofCode (fld w 0 2)).bind fun p => ok (true) (.atomMinZ32 m (fld w 14 7) (fld w 7 7) o c p)
  | 5 => (Order.ofCode (fld w 5 2)).bind fun o => (Scope.ofCode (fld w 2 3)).bind fun c => (Space.ofCode (fld w 0 2)).bind fun p => ok (true) (.atomMaxZ32 m (fld w 14 7) (fld w 7 7) o c p)
  | 6 => (Order.ofCode (fld w 5 2)).bind fun o => (Scope.ofCode (fld w 2 3)).bind fun c => (Space.ofCode (fld w 0 2)).bind fun p => ok (true) (.atomAnd m (fld w 14 7) (fld w 7 7) o c p)
  | 7 => (Order.ofCode (fld w 5 2)).bind fun o => (Scope.ofCode (fld w 2 3)).bind fun c => (Space.ofCode (fld w 0 2)).bind fun p => ok (true) (.atomOr m (fld w 14 7) (fld w 7 7) o c p)
  | _ => none

/-- Lane major 0x31. -/
def decL31 (m : Bool) (w : Nat) : Option Instr :=
  match fld w 21 3 with
  | 0 => (Order.ofCode (fld w 5 2)).bind fun o => (Scope.ofCode (fld w 2 3)).bind fun c => (Space.ofCode (fld w 0 2)).bind fun p => ok (true) (.atomXor m (fld w 14 7) (fld w 7 7) o c p)
  | 1 => (Order.ofCode (fld w 5 2)).bind fun o => (Scope.ofCode (fld w 2 3)).bind fun c => (Space.ofCode (fld w 0 2)).bind fun p => ok (true) (.atomAddB64 m (fld w 14 7) (fld w 7 7) o c p)
  | 2 => (Order.ofCode (fld w 5 2)).bind fun o => (Scope.ofCode (fld w 2 3)).bind fun c => (Space.ofCode (fld w 0 2)).bind fun p => ok (true) (.atomXchB64 m (fld w 14 7) (fld w 7 7) o c p)
  | 3 => (Order.ofCode (fld w 5 2)).bind fun o => (Scope.ofCode (fld w 2 3)).bind fun c => (Space.ofCode (fld w 0 2)).bind fun p => ok (true) (.atomMinS64 m (fld w 14 7) (fld w 7 7) o c p)
  | 4 => (Order.ofCode (fld w 5 2)).bind fun o => (Scope.ofCode (fld w 2 3)).bind fun c => (Space.ofCode (fld w 0 2)).bind fun p => ok (true) (.atomMaxS64 m (fld w 14 7) (fld w 7 7) o c p)
  | 5 => (Order.ofCode (fld w 5 2)).bind fun o => (Scope.ofCode (fld w 2 3)).bind fun c => (Space.ofCode (fld w 0 2)).bind fun p => ok (true) (.atomMinZ64 m (fld w 14 7) (fld w 7 7) o c p)
  | 6 => (Order.ofCode (fld w 5 2)).bind fun o => (Scope.ofCode (fld w 2 3)).bind fun c => (Space.ofCode (fld w 0 2)).bind fun p => ok (true) (.atomMaxZ64 m (fld w 14 7) (fld w 7 7) o c p)
  | 7 => (Order.ofCode (fld w 5 2)).bind fun o => (Scope.ofCode (fld w 2 3)).bind fun c => (Space.ofCode (fld w 0 2)).bind fun p => ok (true) (.atomCasB64 m (fld w 14 7) (fld w 7 7) o c p)
  | _ => none

/-- Lane major 0x32. -/
def decL32 (m : Bool) (w : Nat) : Option Instr :=
  match fld w 21 3 with
  | 0 => (Order.ofCode (fld w 5 2)).bind fun o => (Scope.ofCode (fld w 2 3)).bind fun c => (Space.ofCode (fld w 0 2)).bind fun p => ok (true) (.atomfFadd m (fld w 14 7) (fld w 7 7) o c p)
  | 1 => (Order.ofCode (fld w 5 2)).bind fun o => (Scope.ofCode (fld w 2 3)).bind fun c => (Space.ofCode (fld w 0 2)).bind fun p => ok (true) (.atomfFmin m (fld w 14 7) (fld w 7 7) o c p)
  | 2 => (Order.ofCode (fld w 5 2)).bind fun o => (Scope.ofCode (fld w 2 3)).bind fun c => (Space.ofCode (fld w 0 2)).bind fun p => ok (true) (.atomfFmax m (fld w 14 7) (fld w 7 7) o c p)
  | 3 => (Order.ofCode (fld w 5 2)).bind fun o => (Scope.ofCode (fld w 2 3)).bind fun c => (Space.ofCode (fld w 0 2)).bind fun p => ok (true) (.atomfAddBf16x2 m (fld w 14 7) (fld w 7 7) o c p)
  | _ => none

/-- Lane major 0x33. -/
def decL33 (m : Bool) (w : Nat) : Option Instr :=
  match fld w 21 3 with
  | 0 => (Order.ofCode (fld w 5 2)).bind fun o => (Scope.ofCode (fld w 2 3)).bind fun c => (Space.ofCode (fld w 0 2)).bind fun p => ok (true) (.atomoFadd m (fld w 14 7) (fld w 7 7) o c p)
  | 1 => (Order.ofCode (fld w 5 2)).bind fun o => (Scope.ofCode (fld w 2 3)).bind fun c => (Space.ofCode (fld w 0 2)).bind fun p => ok (zf w 14 7) (.atomoClose m (fld w 7 7) o c p)
  | _ => none

/-- Lane major 0x34. -/
def decL34 (m : Bool) (w : Nat) : Option Instr :=
  match fld w 21 3 with
  | 0 => (Order.ofCode (fld w 5 2)).bind fun o => (Scope.ofCode (fld w 2 3)).bind fun c => (Space.ofCode (fld w 0 2)).bind fun p => ok (true) (.cas m (fld w 14 7) (fld w 7 7) o c p)
  | _ => none

/-- Lane major 0x36. -/
def decL36 (m : Bool) (w : Nat) : Option Instr :=
  match fld w 21 3 with
  | 0 => ok (zf w 3 11) (.pop m (fld w 14 7) (fld w 0 3))
  | 1 => ok (zf w 3 4 && zf w 10 4) (.popnb m (fld w 14 7) (fld w 7 3) (fld w 0 3))
  | 2 => ok (zf w 3 11) (.push m (fld w 14 7) (fld w 0 3))
  | 3 => ok (zf w 3 11) (.pushnb m (fld w 14 7) (fld w 0 3))
  | _ => none

/-- Lane major 0x38. -/
def decL38 (m : Bool) (w : Nat) : Option Instr :=
  match fld w 21 3 with
  | 0 => ok (zf w 0 7 && zf w 9 5) (.swp m (fld w 14 7) (fld w 7 2))
  | _ => none

/-- Lane major 0x39. -/
def decL39 (m : Bool) (w : Nat) : Option Instr :=
  (ReduceOp.ofCode (fld w 21 3)).bind fun o => ok (zf w 9 5) (.swr m o (fld w 14 7) (fld w 7 2) (fld w 0 7))

/-- Uniform major 0x00. -/
def decU00 (m : Bool) (w : Nat) : Option Instr :=
  match fld w 21 3 with
  | 0 => ok (zf w 0 21) (.nop m)
  | 1 => ok (zf w 0 21) (.yield m)
  | 2 => ok (zf w 0 21) (.pause m)
  | _ => none

/-- Uniform major 0x01. -/
def decU01 (m : Bool) (w : Nat) : Option Instr :=
  match fld w 21 3 with
  | 0 => ok (true) (.uadd m (fld w 14 7) (fld w 7 7) (fld w 0 7))
  | 1 => ok (true) (.usub m (fld w 14 7) (fld w 7 7) (fld w 0 7))
  | 2 => ok (true) (.uand m (fld w 14 7) (fld w 7 7) (fld w 0 7))
  | 3 => ok (true) (.uor m (fld w 14 7) (fld w 7 7) (fld w 0 7))
  | 4 => ok (true) (.uxor m (fld w 14 7) (fld w 7 7) (fld w 0 7))
  | 5 => ok (true) (.uandn m (fld w 14 7) (fld w 7 7) (fld w 0 7))
  | 6 => ok (true) (.uminS32 m (fld w 14 7) (fld w 7 7) (fld w 0 7))
  | 7 => ok (true) (.umaxS32 m (fld w 14 7) (fld w 7 7) (fld w 0 7))
  | _ => none

/-- Uniform major 0x02. -/
def decU02 (m : Bool) (w : Nat) : Option Instr :=
  match fld w 21 3 with
  | 0 => ok (true) (.uminZ32 m (fld w 14 7) (fld w 7 7) (fld w 0 7))
  | 1 => ok (true) (.umaxZ32 m (fld w 14 7) (fld w 7 7) (fld w 0 7))
  | 2 => ok (true) (.uaddsatS32 m (fld w 14 7) (fld w 7 7) (fld w 0 7))
  | 3 => ok (true) (.usubsatS32 m (fld w 14 7) (fld w 7 7) (fld w 0 7))
  | 4 => ok (true) (.uaddsatZ32 m (fld w 14 7) (fld w 7 7) (fld w 0 7))
  | 5 => ok (true) (.usubsatZ32 m (fld w 14 7) (fld w 7 7) (fld w 0 7))
  | 6 => ok (true) (.uabsd m (fld w 14 7) (fld w 7 7) (fld w 0 7))
  | 7 => ok (zf w 0 7) (.uabs m (fld w 14 7) (fld w 7 7))
  | _ => none

/-- Uniform major 0x03. -/
def decU03 (m : Bool) (w : Nat) : Option Instr :=
  match fld w 21 3 with
  | 0 => ok (true) (.ushl m (fld w 14 7) (fld w 7 7) (fld w 0 7))
  | 1 => ok (true) (.ushr m (fld w 14 7) (fld w 7 7) (fld w 0 7))
  | 2 => ok (true) (.usar m (fld w 14 7) (fld w 7 7) (fld w 0 7))
  | 3 => ok (true) (.urol m (fld w 14 7) (fld w 7 7) (fld w 0 7))
  | 4 => ok (true) (.uror m (fld w 14 7) (fld w 7 7) (fld w 0 7))
  | _ => none

/-- Uniform major 0x04. -/
def decU04 (m : Bool) (w : Nat) : Option Instr :=
  match fld w 21 3 with
  | 0 => ok (true) (.umul m (fld w 14 7) (fld w 7 7) (fld w 0 7))
  | 1 => ok (true) (.umulhS32 m (fld w 14 7) (fld w 7 7) (fld w 0 7))
  | 2 => ok (true) (.umulhZ32 m (fld w 14 7) (fld w 7 7) (fld w 0 7))
  | 3 => ok (true) (.umulhSz32 m (fld w 14 7) (fld w 7 7) (fld w 0 7))
  | 4 => ok (true) (.udivS32 m (fld w 14 7) (fld w 7 7) (fld w 0 7))
  | 5 => ok (true) (.udivZ32 m (fld w 14 7) (fld w 7 7) (fld w 0 7))
  | 6 => ok (true) (.uremS32 m (fld w 14 7) (fld w 7 7) (fld w 0 7))
  | 7 => ok (true) (.uremZ32 m (fld w 14 7) (fld w 7 7) (fld w 0 7))
  | _ => none

/-- Uniform major 0x08. -/
def decU08 (m : Bool) (w : Nat) : Option Instr :=
  ok (true) (.uaddi m (fld w 17 7) (fld w 10 7) (.ofNat 10 (fld w 0 10)))

/-- Uniform major 0x0E. -/
def decU0E (m : Bool) (w : Nat) (x : Nat) : Option Instr :=
  match fld w 14 3 with
  | 0 => ok (zf w 0 14) (.umovl m (fld w 17 7) (.ofNat 32 x))
  | 1 => ok (zf w 0 14) (.uaddl m (fld w 17 7) (.ofNat 32 x))
  | 2 => ok (zf w 0 14) (.uandl m (fld w 17 7) (.ofNat 32 x))
  | 3 => ok (zf w 0 14) (.uorl m (fld w 17 7) (.ofNat 32 x))
  | _ => none

/-- Uniform major 0x0F. -/
def decU0F (m : Bool) (w : Nat) : Option Instr :=
  ok (true) (.ulea m (fld w 21 3) (fld w 14 7) (fld w 7 7) (fld w 0 7))

/-- Uniform major 0x10. -/
def decU10 (m : Bool) (w : Nat) : Option Instr :=
  (IntCond.ofCode (fld w 21 3)).bind fun c => ok (true) (.ucmp m c (fld w 14 7) (fld w 7 7) (fld w 0 7))

/-- Uniform major 0x13. -/
def decU13 (m : Bool) (w : Nat) : Option Instr :=
  match fld w 21 3 with
  | 0 => ok (zf w 3 4 && zf w 10 4 && zf w 17 4) (.kand m (fld w 14 3) (fld w 7 3) (fld w 0 3))
  | 1 => ok (zf w 3 4 && zf w 10 4 && zf w 17 4) (.kor m (fld w 14 3) (fld w 7 3) (fld w 0 3))
  | 2 => ok (zf w 3 4 && zf w 10 4 && zf w 17 4) (.kxor m (fld w 14 3) (fld w 7 3) (fld w 0 3))
  | 3 => ok (zf w 3 4 && zf w 10 4 && zf w 17 4) (.kandn m (fld w 14 3) (fld w 7 3) (fld w 0 3))
  | 4 => ok (zf w 0 7 && zf w 10 4 && zf w 17 4) (.knot m (fld w 14 3) (fld w 7 3))
  | 5 => ok (zf w 0 7 && zf w 17 4) (.kfrom m (fld w 14 3) (fld w 7 7))
  | 6 => ok (zf w 0 7 && zf w 10 4) (.kto m (fld w 14 7) (fld w 7 3))
  | 7 => ok (zf w 0 7 && zf w 10 4) (.kpopc m (fld w 14 7) (fld w 7 3))
  | _ => none

/-- Uniform major 0x14. -/
def decU14 (m : Bool) (w : Nat) : Option Instr :=
  match fld w 21 3 with
  | 0 => ok (zf w 0 7) (.umov m (fld w 14 7) (fld w 7 7))
  | 1 => ok (zf w 0 7 && zf w 10 4) (.rdlow m (fld w 14 7) (fld w 7 3))
  | 2 => ok (true) (.rdth m (fld w 14 7) (fld w 7 7) (fld w 0 7))
  | _ => none

/-- Uniform major 0x18. -/
def decU18 (m : Bool) (w : Nat) : Option Instr :=
  ok (true) (.bra m (.ofNat 24 (fld w 0 24)))

/-- Uniform major 0x19. -/
def decU19 (m : Bool) (w : Nat) : Option Instr :=
  (BranchCond.ofCode (fld w 21 3)).bind fun c => ok (true) (.brc m c (fld w 14 7) (.ofNat 14 (fld w 0 14)))

/-- Uniform major 0x1A. -/
def decU1A (m : Bool) (w : Nat) : Option Instr :=
  ok (true) (.call m (.ofNat 24 (fld w 0 24)))

/-- Uniform major 0x1B. -/
def decU1B (m : Bool) (w : Nat) (table : List W32) : Option Instr :=
  match fld w 21 3 with
  | 0 => ok (zf w 0 21) (.ret m)
  | 1 => ok (zf w 14 7) (.jmpt m (fld w 7 7) table)
  | 2 => ok (zf w 14 7) (.callt m (fld w 7 7) table)
  | _ => none

/-- Uniform major 0x1C. -/
def decU1C (m : Bool) (w : Nat) (x : Nat) : Option Instr :=
  ok (true) (.bdiv m (fld w 21 3) (.ofNat 21 (fld w 0 21)) (.ofNat 32 x))

/-- Uniform major 0x1D. -/
def decU1D (m : Bool) (w : Nat) : Option Instr :=
  match fld w 21 3 with
  | 0 => ok (zf w 0 21) (.join m)
  | 1 => ok (zf w 0 21) (.joinl m)
  | _ => none

/-- Uniform major 0x1E. -/
def decU1E (m : Bool) (w : Nat) (x : Nat) : Option Instr :=
  ok (true) (.disp m (fld w 21 3) (.ofNat 21 (fld w 0 21)) (.ofNat 32 x))

/-- Uniform major 0x1F. -/
def decU1F (m : Bool) (w : Nat) : Option Instr :=
  match fld w 21 3 with
  | 0 => ok (zf w 0 21) (.exit m)
  | 1 => ok (zf w 0 21) (.exitg m)
  | _ => none

/-- Uniform major 0x20. -/
def decU20 (m : Bool) (w : Nat) (x : Nat) : Option Instr :=
  ok (zf w 0 6) (.loop m (fld w 21 3) (fld w 14 7) (fld w 6 8) (.ofNat 4 (fld x 28 4)) (.ofNat 4 (fld x 24 4)) (.ofNat 4 (fld x 20 4)) (.ofNat 4 (fld x 16 4)) (.ofNat 4 (fld x 12 4)) (.ofNat 5 (fld x 7 5)) (fld x 0 7))

/-- Uniform major 0x21. -/
def decU21 (m : Bool) (w : Nat) : Option Instr :=
  (BranchCond.ofCode (fld w 21 3)).bind fun c => ok (true) (.lbrk m c (fld w 14 7) (.ofNat 14 (fld w 0 14)))

/-- Uniform major 0x22. -/
def decU22 (m : Bool) (w : Nat) (x : Nat) : Option Instr :=
  match fld w 21 3 with
  | 0 => ok (zf w 0 10) (.spwn m (fld w 14 7) (fld w 10 4) (.ofNat 32 x))
  | 1 => ok (zf w 0 21) (.spwnf m (.ofNat 32 x))
  | _ => none

/-- Uniform major 0x23. -/
def decU23 (m : Bool) (w : Nat) : Option Instr :=
  match fld w 21 3 with
  | 0 => ok (zf w 0 7) (.tspn m (fld w 14 7) (fld w 7 7))
  | _ => none

/-- Uniform major 0x24. -/
def decU24 (m : Bool) (w : Nat) : Option Instr :=
  match fld w 21 3 with
  | 0 => ok (zf w 0 7) (.cpyi m (fld w 14 7) (fld w 7 7))
  | 1 => ok (zf w 0 7) (.cpyo m (fld w 14 7) (fld w 7 7))
  | 2 => ok (true) (.cpyg m (fld w 14 7) (fld w 7 7) (fld w 0 7))
  | 3 => ok (true) (.cpys m (fld w 14 7) (fld w 7 7) (fld w 0 7))
  | 4 => ok (zf w 0 7) (.tmvl m (fld w 14 7) (fld w 7 7))
  | 5 => ok (zf w 0 7) (.cpyx m (fld w 14 7) (fld w 7 7))
  | _ => none

/-- Uniform major 0x25. -/
def decU25 (m : Bool) (w : Nat) : Option Instr :=
  match fld w 21 3 with
  | 0 => ok (zf w 4 3) (.rcfg m (fld w 14 7) (fld w 7 7) (fld w 0 4))
  | 1 => ok (zf w 4 3 && zf w 13 1) (.rawait m (fld w 14 7) (fld w 7 6) (fld w 0 4))
  | 2 => ok (zf w 4 3 && zf w 13 8) (.rrel m (fld w 7 6) (fld w 0 4))
  | 3 => ok (zf w 4 10) (.rnst m (fld w 14 7) (fld w 0 4))
  | _ => none

/-- Uniform major 0x26. -/
def decU26 (m : Bool) (w : Nat) : Option Instr :=
  match fld w 21 3 with
  | 0 => ok (zf w 0 7) (.kldj m (fld w 14 7) (fld w 7 7))
  | 1 => ok (zf w 0 7) (.kbias m (fld w 14 7) (fld w 7 7))
  | 2 => ok (zf w 0 7) (.kclamp m (fld w 14 7) (fld w 7 7))
  | 3 => ok (zf w 0 7) (.kseed m (fld w 14 7) (fld w 7 7))
  | 4 => ok (true) (.ksweep m (fld w 14 7) (fld w 7 7) (fld w 0 7))
  | 5 => ok (zf w 0 7) (.kread m (fld w 14 7) (fld w 7 7))
  | 6 => ok (fld w 7 7 == 96) (.khealth m (fld w 14 7) (fld w 0 7))
  | 7 => ok (zf w 0 7 && fld w 7 7 == 96) (.kcal m (fld w 14 7))
  | _ => none

/-- Uniform major 0x27. -/
def decU27 (m : Bool) (w : Nat) : Option Instr :=
  match fld w 21 3 with
  | 0 => ok (true) (.sqcfg m (fld w 14 7) (fld w 7 7) (fld w 0 7))
  | 1 => ok (zf w 7 7) (.sqbeg m (fld w 14 7) (fld w 0 7))
  | 2 => ok (zf w 4 10) (.sqsig m (fld w 14 7) (fld w 0 4))
  | 3 => ok (true) (.sqmap m (fld w 14 7) (fld w 7 7) (fld w 0 7))
  | 4 => ok (zf w 0 14) (.sqend m (fld w 14 7))
  | 5 => ok (zf w 7 7) (.sqrst m (fld w 14 7) (fld w 0 7))
  | _ => none

/-- Uniform major 0x28. -/
def decU28 (m : Bool) (w : Nat) : Option Instr :=
  (Order.ofCode (fld w 21 2)).bind fun o => (Scope.ofCode (fld w 14 3)).bind fun c => ok (zf w 0 7 && zf w 17 4 && zf w 23 1) (.fence m o c (fld w 7 7))

/-- Uniform major 0x29. -/
def decU29 (m : Bool) (w : Nat) : Option Instr :=
  ok (zf w 0 14) (.cwait m (fld w 21 3) (fld w 14 7))

/-- Uniform major 0x2A. -/
def decU2A (m : Bool) (w : Nat) : Option Instr :=
  match fld w 21 3 with
  | 0 => ok (zf w 0 7 && zf w 14 7) (.hwait m (fld w 7 7))
  | 1 => ok (zf w 0 7) (.htest m (fld w 14 7) (fld w 7 7))
  | 2 => ok (zf w 0 7 && zf w 14 7) (.hcancel m (fld w 7 7))
  | 3 => ok (zf w 0 7) (.hstat m (fld w 14 7) (fld w 7 7))
  | _ => none

/-- Uniform major 0x2B. -/
def decU2B (m : Bool) (w : Nat) : Option Instr :=
  match fld w 21 3 with
  | 0 => ok (zf w 2 19) (.barT m (fld w 0 2))
  | 1 => ok (zf w 2 12) (.barTe m (fld w 14 7) (fld w 0 2))
  | 2 => ok (zf w 1 20) (.barC m (fld w 0 1))
  | 3 => ok (zf w 1 20) (.barCx m (fld w 0 1))
  | 4 => ok (zf w 3 18) (.barP m (fld w 0 3))
  | 5 => ok (zf w 3 11) (.arriveP m (fld w 14 7) (fld w 0 3))
  | 6 => ok (zf w 0 7 && zf w 14 7) (.waitP m (fld w 7 7))
  | _ => none

/-- Uniform major 0x2C. -/
def decU2C (m : Bool) (w : Nat) : Option Instr :=
  match fld w 21 3 with
  | 0 => ok (zf w 0 14) (.mbatch m (fld w 14 7))
  | 1 => ok (zf w 0 7) (.mwait m (fld w 14 7) (fld w 7 7))
  | _ => none

/-- Uniform major 0x2D. -/
def decU2D (m : Bool) (w : Nat) : Option Instr :=
  match fld w 21 3 with
  | 0 => ok (zf w 3 18) (.marg m (fld w 0 3))
  | _ => none

/-- Uniform major 0x30. -/
def decU30 (m : Bool) (w : Nat) : Option Instr :=
  ok (zf w 12 5) (.sysrd m (fld w 17 7) (fld w 0 12))

/-- Uniform major 0x31. -/
def decU31 (m : Bool) (w : Nat) : Option Instr :=
  ok (zf w 12 5) (.syswr m (fld w 17 7) (fld w 0 12))

/-- Uniform major 0x32. -/
def decU32 (m : Bool) (w : Nat) : Option Instr :=
  match fld w 21 3 with
  | 0 => ok (zf w 7 14) (.trap m (fld w 0 7))
  | _ => none

/-- Uniform major 0x33. -/
def decU33 (m : Bool) (w : Nat) : Option Instr :=
  match fld w 21 3 with
  | 0 => ok (zf w 0 21) (.tret m)
  | _ => none

/-- Uniform major 0x34. -/
def decU34 (m : Bool) (w : Nat) : Option Instr :=
  match fld w 21 3 with
  | 0 => ok (zf w 7 14) (.brk m (fld w 0 7))
  | _ => none

/-- Uniform major 0x35. -/
def decU35 (m : Bool) (w : Nat) : Option Instr :=
  match fld w 21 3 with
  | 0 => ok (zf w 0 7 && zf w 16 5) (.itld m (fld w 14 2) (fld w 7 7))
  | 1 => ok (zf w 0 7 && zf w 16 5) (.itst m (fld w 14 2) (fld w 7 7))
  | _ => none

/-- Uniform major 0x36. -/
def decU36 (m : Bool) (w : Nat) : Option Instr :=
  match fld w 21 3 with
  | 0 => ok (zf w 3 4 && zf w 14 7) (.qcfg m (fld w 7 7) (fld w 0 3))
  | _ => none

/-- Uniform major 0x37. -/
def decU37 (m : Bool) (w : Nat) : Option Instr :=
  match fld w 21 3 with
  | 0 => ok (zf w 19 2) (.dreg m (fld w 17 2) (fld w 14 3) (fld w 7 7) (fld w 0 7))
  | 1 => ok (zf w 0 14 && zf w 18 3) (.dclr m ((fld w 17 1) == 1) (fld w 14 3))
  | _ => none

/-- Uniform major 0x38. -/
def decU38 (m : Bool) (w : Nat) : Option Instr :=
  match fld w 21 3 with
  | 0 => ok (zf w 0 3) (.mmaAcc m (fld w 16 5) (fld w 12 4) (fld w 8 4) ((fld w 7 1) == 1) (fld w 5 2) (fld w 3 2))
  | 1 => ok (zf w 0 3) (.mmaSet m (fld w 16 5) (fld w 12 4) (fld w 8 4) ((fld w 7 1) == 1) (fld w 5 2) (fld w 3 2))
  | 2 => ok (zf w 0 3) (.mmaSub m (fld w 16 5) (fld w 12 4) (fld w 8 4) ((fld w 7 1) == 1) (fld w 5 2) (fld w 3 2))
  | _ => none

/-- Uniform major 0x39. -/
def decU39 (m : Bool) (w : Nat) : Option Instr :=
  match fld w 21 3 with
  | 0 => ok (zf w 0 7 && fld w 14 7 == 96) (.mmah m (fld w 7 7))
  | 1 => ok (zf w 0 7 && fld w 14 7 == 96) (.mmag m (fld w 7 7))
  | _ => none

/-- Uniform major 0x3A. -/
def decU3A (m : Bool) (w : Nat) (x : Nat) : Option Instr :=
  match fld w 21 3 with
  | 0 => ok (zf w 0 17 && zf x 0 9 && zf x 30 2) (.tcfg m (fld w 17 4) (fld x 24 6) ((fld x 23 1) == 1) (fld x 20 3) (fld x 12 8) (fld x 9 3))
  | 1 => ok (zf w 1 6 && zf w 18 3) (.tmovi m (fld w 14 4) (fld w 7 7) ((fld w 0 1) == 1))
  | 2 => ok (zf w 1 6 && zf w 18 3) (.tmovo m (fld w 14 4) (fld w 7 7) ((fld w 0 1) == 1))
  | 3 => ok (zf w 0 14 && zf w 18 3) (.tzero m (fld w 14 4))
  | 4 => ok (zf w 7 7 && zf w 19 2) (.azero m (fld w 14 5) (fld w 0 7))
  | 5 => ok (zf w 19 1) (.adrn m ((fld w 20 1) == 1) (fld w 14 5) (fld w 7 7) (fld w 0 7))
  | 6 => ok (zf w 19 2) (.afil m (fld w 14 5) (fld w 7 7) (fld w 0 7))
  | 7 => ok (zf w 0 7 && zf w 18 3) (.tdmap m (fld w 14 4) (fld w 7 7))
  | _ => none

/-- Uniform major 0x3B. -/
def decU3B (m : Bool) (w : Nat) : Option Instr :=
  match fld w 21 3 with
  | 0 => (Activation.ofCode (fld w 0 7)).bind fun f => ok (zf w 12 2 && zf w 19 1) (.aact m ((fld w 20 1) == 1) (fld w 14 5) (fld w 7 5) f)
  | 1 => ok (zf w 5 2 && zf w 12 2 && zf w 19 1) (.aadd m ((fld w 20 1) == 1) (fld w 14 5) (fld w 7 5) (fld w 0 5))
  | 2 => ok (zf w 5 2 && zf w 12 2 && zf w 19 1) (.aemul m ((fld w 20 1) == 1) (fld w 14 5) (fld w 7 5) (fld w 0 5))
  | 3 => ok (zf w 12 2 && zf w 19 1) (.ascal m ((fld w 20 1) == 1) (fld w 14 5) (fld w 7 5) (fld w 0 7))
  | 4 => ok (zf w 12 2 && zf w 19 1) (.abias m ((fld w 20 1) == 1) (fld w 14 5) (fld w 7 5) (fld w 0 7))
  | 5 => ok (zf w 0 7 && zf w 12 2 && zf w 19 1) (.arsum m ((fld w 20 1) == 1) (fld w 14 5) (fld w 7 5))
  | 6 => ok (zf w 0 7 && zf w 12 2 && zf w 19 1) (.armax m ((fld w 20 1) == 1) (fld w 14 5) (fld w 7 5))
  | 7 => ok (zf w 0 7 && zf w 12 2 && zf w 19 1) (.acpy m ((fld w 20 1) == 1) (fld w 14 5) (fld w 7 5))
  | _ => none

/-- Uniform major 0x3C. -/
def decU3C (m : Bool) (w : Nat) : Option Instr :=
  match fld w 21 3 with
  | 0 => ok (zf w 2 5 && zf w 14 7) (.recon m (fld w 7 7) ((fld w 1 1) == 1) ((fld w 0 1) == 1))
  | 1 => ok (zf w 0 21) (.recoff m)
  | 2 => ok (zf w 0 14) (.rmark m (fld w 14 7))
  | 3 => ok (zf w 0 7) (.trvs m (fld w 14 7) (fld w 7 7))
  | 4 => ok (zf w 0 7 && zf w 14 7) (.rlog m (fld w 7 7))
  | 5 => ok (zf w 0 7) (.rgrad m (fld w 14 7) (fld w 7 7))
  | 6 => ok (zf w 0 7) (.rstat m (fld w 14 7) (fld w 7 7))
  | _ => none

/-- Uniform major 0x3D. -/
def decU3D (m : Bool) (w : Nat) : Option Instr :=
  match fld w 21 3 with
  | 0 => ok (zf w 0 7) (.callr m (fld w 14 7) (fld w 7 7))
  | 1 => ok (zf w 0 7) (.crsct m (fld w 14 7) (fld w 7 7))
  | 2 => ok (zf w 0 7) (.cagth m (fld w 14 7) (fld w 7 7))
  | 3 => ok (zf w 0 7) (.ca2a m (fld w 14 7) (fld w 7 7))
  | 4 => ok (zf w 0 7) (.cbcst m (fld w 14 7) (fld w 7 7))
  | 5 => ok (fld w 7 7 == 96) (.cstat m (fld w 14 7) (fld w 0 7))
  | _ => none

/-- The instruction of a first word w with switch marker m, second word x and jump table (R65, R67). -/
def decodeWord (m : Bool) (w x : Nat) (table : List W32) : Option Instr :=
  match fld w 31 1 * 64 + fld w 24 6 with
  | 1 => decL01 m w
  | 2 => decL02 m w
  | 3 => decL03 m w
  | 4 => decL04 m w
  | 5 => decL05 m w
  | 6 => decL06 m w
  | 7 => decL07 m w
  | 8 => decL08 m w
  | 9 => decL09 m w
  | 10 => decL0A m w
  | 11 => decL0B m w
  | 12 => decL0C m w
  | 13 => decL0D m w
  | 14 => decL0E m w x
  | 15 => decL0F m w
  | 16 => decL10 m w
  | 17 => decL11 m w
  | 18 => decL12 m w
  | 19 => decL13 m w
  | 20 => decL14 m w
  | 21 => decL15 m w
  | 22 => decL16 m w
  | 23 => decL17 m w
  | 24 => decL18 m w
  | 25 => decL19 m w
  | 26 => decL1A m w
  | 27 => decL1B m w
  | 28 => decL1C m w
  | 29 => decL1D m w
  | 30 => decL1E m w
  | 32 => decL20 m w
  | 33 => decL21 m w
  | 34 => decL22 m w
  | 35 => decL23 m w
  | 36 => decL24 m w
  | 40 => decL28 m w
  | 41 => decL29 m w
  | 42 => decL2A m w
  | 43 => decL2B m w
  | 44 => decL2C m w
  | 45 => decL2D m w
  | 46 => decL2E m w
  | 47 => decL2F m w
  | 48 => decL30 m w
  | 49 => decL31 m w
  | 50 => decL32 m w
  | 51 => decL33 m w
  | 52 => decL34 m w
  | 54 => decL36 m w
  | 56 => decL38 m w
  | 57 => decL39 m w
  | 64 => decU00 m w
  | 65 => decU01 m w
  | 66 => decU02 m w
  | 67 => decU03 m w
  | 68 => decU04 m w
  | 72 => decU08 m w
  | 78 => decU0E m w x
  | 79 => decU0F m w
  | 80 => decU10 m w
  | 83 => decU13 m w
  | 84 => decU14 m w
  | 88 => decU18 m w
  | 89 => decU19 m w
  | 90 => decU1A m w
  | 91 => decU1B m w table
  | 92 => decU1C m w x
  | 93 => decU1D m w
  | 94 => decU1E m w x
  | 95 => decU1F m w
  | 96 => decU20 m w x
  | 97 => decU21 m w
  | 98 => decU22 m w x
  | 99 => decU23 m w
  | 100 => decU24 m w
  | 101 => decU25 m w
  | 102 => decU26 m w
  | 103 => decU27 m w
  | 104 => decU28 m w
  | 105 => decU29 m w
  | 106 => decU2A m w
  | 107 => decU2B m w
  | 108 => decU2C m w
  | 109 => decU2D m w
  | 112 => decU30 m w
  | 113 => decU31 m w
  | 114 => decU32 m w
  | 115 => decU33 m w
  | 116 => decU34 m w
  | 117 => decU35 m w
  | 118 => decU36 m w
  | 119 => decU37 m w
  | 120 => decU38 m w
  | 121 => decU39 m w
  | 122 => decU3A m w x
  | 123 => decU3B m w
  | 124 => decU3C m w
  | 125 => decU3D m w
  | _ => none

/-- How many words follow the first word w of an instruction (R52, R60, R68). -/
def extraWords (w : Nat) : Nat :=
  match fld w 31 1 * 64 + fld w 24 6 with
  | 0x0E => 1
  | 0x4E => 1
  | 0x5C => 1
  | 0x5E => 1
  | 0x60 => 1
  | 0x62 => 1
  | 0x7A => if fld w 21 3 = 0 then 1 else 0
  | 0x5B => if fld w 21 3 = 1 ∨ fld w 21 3 = 2 then fld w 0 7 + 1 else 0
  | _ => 0

/-- What decoding the words from a PC gives. -/
inductive Decoded
  /-- A well-formed instruction and its length in words. -/
  | ok (i : Instr) (words : Nat)
  /-- A further word would lie past the end of the code section (R52). -/
  | missing
  /-- An illegal word; info1 is its second word where it is a two-word instruction, else 0 (R53). -/
  | illegal (info1 : W32)
deriving DecidableEq, Repr, Inhabited

/-- Decodes the first word w, with the words after it up to the end of the code section. -/
def decodeAt (w : W32) (rest : List W32) : Decoded :=
  let k := extraWords w.toNat
  if rest.length < k then .missing
  else if w = 0 then .illegal 0
  else
    let x := if k = 1 ∧ fld w.toNat 24 6 ≠ 0x1B then rest.headD 0 else 0
    match decodeWord (fld w.toNat 30 1 == 1) w.toNat x.toNat (rest.take k) with
    | some i => .ok i (k + 1)
    | none => .illegal x

/-- The well-formed Spavy instruction that the words begin with, and the words after it. -/
def decodeSpavy : List W32 → Option (Instr × List W32)
  | [] => none
  | w :: rest =>
    match decodeAt w rest with
    | .ok i n => some (i, rest.drop (n - 1))
    | _ => none

/-! ### The words of a hod (R469, R472) -/

/-- The custom instructions (R472): opcode, funct3 and funct7 select. -/
def decodeHodCustom (w : Nat) : Option Instr :=
  match fld w 0 7, fld w 12 3, fld w 25 7 with
  | 11, 0, 0 => ok (zf w 20 5) (.hcpyCpyi (fld w 7 5) (fld w 15 5))
  | 11, 0, 1 => ok (zf w 20 5) (.hcpyCpyo (fld w 7 5) (fld w 15 5))
  | 11, 0, 2 => ok (true) (.hcpyCpyg (fld w 7 5) (fld w 15 5) (fld w 20 5))
  | 11, 0, 3 => ok (true) (.hcpyCpys (fld w 7 5) (fld w 15 5) (fld w 20 5))
  | 11, 0, 4 => ok (zf w 20 5) (.hcpyTmvl (fld w 7 5) (fld w 15 5))
  | 11, 0, 5 => ok (zf w 20 5) (.hcpyCpyx (fld w 7 5) (fld w 15 5))
  | 11, 1, 0 => ok (true) (.hringAwait (fld w 7 5) (fld w 15 5) (fld w 20 5))
  | 11, 1, 1 => ok (true) (.hringRel (fld w 7 5) (fld w 15 5) (fld w 20 5))
  | 11, 1, 2 => ok (zf w 15 5) (.hringStat (fld w 7 5) (fld w 20 5))
  | 43, 0, 0 => ok (zf w 15 5) (.hqPop (fld w 7 5) (fld w 20 5))
  | 43, 0, 1 => ok (zf w 15 5) (.hqPopnb (fld w 7 5) (fld w 20 5))
  | 43, 0, 2 => ok (zf w 7 5) (.hqPush (fld w 15 5) (fld w 20 5))
  | 43, 0, 3 => ok (true) (.hqPushnb (fld w 7 5) (fld w 15 5) (fld w 20 5))
  | 43, 1, 0 => ok (zf w 20 5) (.hwtWait (fld w 7 5) (fld w 15 5))
  | 43, 1, 1 => ok (zf w 20 5) (.hwtTest (fld w 7 5) (fld w 15 5))
  | 43, 1, 2 => ok (zf w 15 10) (.hwtCnt (fld w 7 5))
  | 43, 1, 3 => ok (zf w 20 5) (.hwtCancel (fld w 7 5) (fld w 15 5))
  | _, _, _ => none

/-- A field's value as an n-bit immediate whose two's complement it is. -/
def immI (w : Nat) : BitVec 12 := .ofNat 12 (fld w 20 12)
/-- The immediate of a store. -/
def immS (w : Nat) : BitVec 12 := .ofNat 12 (fld w 25 7 * 32 + fld w 7 5)
/-- The offset of a conditional branch. -/
def immB (w : Nat) : BitVec 13 :=
  .ofNat 13 (fld w 31 1 * 4096 + fld w 7 1 * 2048 + fld w 25 6 * 32 + fld w 8 4 * 2)
/-- The offset of JAL. -/
def immJ (w : Nat) : BitVec 21 :=
  .ofNat 21 (fld w 31 1 * 1048576 + fld w 12 8 * 4096 + fld w 20 1 * 2048 + fld w 21 10 * 2)

/-- Register-immediate operations: a shift's immediate is its amount. -/
def decodeOpImm (w : Nat) : Option HodInstr :=
  let rd := fld w 7 5
  let rs1 := fld w 15 5
  match fld w 12 3 with
  | 0 => some (.opImm .addi rd rs1 (immI w))
  | 1 => if fld w 26 6 = 0 then some (.opImm .slli rd rs1 (.ofNat 12 (fld w 20 6))) else none
  | 2 => some (.opImm .slti rd rs1 (immI w))
  | 3 => some (.opImm .sltiu rd rs1 (immI w))
  | 4 => some (.opImm .xori rd rs1 (immI w))
  | 5 => if fld w 26 6 = 0 then some (.opImm .srli rd rs1 (.ofNat 12 (fld w 20 6)))
         else if fld w 26 6 = 16 then some (.opImm .srai rd rs1 (.ofNat 12 (fld w 20 6))) else none
  | 6 => some (.opImm .ori rd rs1 (immI w))
  | 7 => some (.opImm .andi rd rs1 (immI w))
  | _ => none

/-- Register-immediate operations on words. -/
def decodeOpImm32 (w : Nat) : Option HodInstr :=
  let rd := fld w 7 5
  let rs1 := fld w 15 5
  match fld w 12 3 with
  | 0 => some (.opImm32 .addiw rd rs1 (immI w))
  | 1 => if fld w 25 7 = 0 then some (.opImm32 .slliw rd rs1 (.ofNat 12 (fld w 20 5))) else none
  | 5 => if fld w 25 7 = 0 then some (.opImm32 .srliw rd rs1 (.ofNat 12 (fld w 20 5)))
         else if fld w 25 7 = 32 then some (.opImm32 .sraiw rd rs1 (.ofNat 12 (fld w 20 5))) else none
  | _ => none

/-- LR, SC and the AMOs on words (funct3 2) and doublewords (funct3 3). -/
def decodeAmo (w : Nat) : Option HodInstr :=
  let f3 := fld w 12 3
  let dword := f3 == 3
  let aq := fld w 26 1 == 1
  let rl := fld w 25 1 == 1
  if f3 ≠ 2 ∧ f3 ≠ 3 then none
  else if fld w 27 5 = 2 then
    if fld w 20 5 = 0 then some (.lr dword aq rl (fld w 7 5) (fld w 15 5)) else none
  else if fld w 27 5 = 3 then some (.sc dword aq rl (fld w 7 5) (fld w 15 5) (fld w 20 5))
  else (RvAmo.ofCode (fld w 27 5)).map fun op => .amo op dword aq rl (fld w 7 5) (fld w 15 5) (fld w 20 5)

/-- A 32-bit base instruction other than ECALL and EBREAK (RV64IMA without Zicsr and Zifencei, R469). -/
def decodeRv (w : Nat) : Option HodInstr :=
  let rd := fld w 7 5
  let rs1 := fld w 15 5
  let rs2 := fld w 20 5
  let f3 := fld w 12 3
  match fld w 0 7 with
  | 0x03 => (RvLoad.ofCode f3).map fun k => .load k rd rs1 (immI w)
  | 0x0F => if f3 = 0 then some (.fence (fld w 28 4) (fld w 24 4) (fld w 20 4) rd rs1) else none
  | 0x13 => decodeOpImm w
  | 0x17 => some (.auipc rd (.ofNat 20 (fld w 12 20)))
  | 0x1B => decodeOpImm32 w
  | 0x23 => (RvStore.ofCode f3).map fun k => .store k rs1 rs2 (immS w)
  | 0x2F => decodeAmo w
  | 0x33 => (RvOp.ofCode (fld w 25 7 * 8 + f3)).map fun op => .op op rd rs1 rs2
  | 0x37 => some (.lui rd (.ofNat 20 (fld w 12 20)))
  | 0x3B => (RvOp32.ofCode (fld w 25 7 * 8 + f3)).map fun op => .op32 op rd rs1 rs2
  | 0x63 => (RvBranch.ofCode f3).map fun c => .branch c rs1 rs2 (immB w)
  | 0x67 => if f3 = 0 then some (.jalr rd rs1 (immI w)) else none
  | 0x6F => some (.jal rd (immJ w))
  | _ => none

/-- A 32-bit word of a hod: a custom instruction, ECALL, EBREAK or a base instruction. -/
def decodeHod32 (w : Nat) : Option Instr :=
  if w = 0x73 then some .ecall
  else if w = 0x00100073 then some (.ebreak false)
  else if fld w 0 7 = 0x0B ∨ fld w 0 7 = 0x2B then decodeHodCustom w
  else (decodeRv w).map (.hodInstruction false)

/-- The registers x8 to x15 of a 3-bit compressed field. -/
def creg (h lo : Nat) : Nat := fld h lo 3 + 8
/-- The 6-bit signed immediate of CI, sign-extended to 12 bits. -/
def immCI (h : Nat) : BitVec 12 := (BitVec.ofNat 6 (fld h 12 1 * 32 + fld h 2 5)).signExtend 12
/-- The 6-bit shift amount of CI. -/
def shCI (h : Nat) : BitVec 12 := .ofNat 12 (fld h 12 1 * 32 + fld h 2 5)
/-- The offset of C.J. -/
def immCJ (h : Nat) : BitVec 21 :=
  (BitVec.ofNat 12 (fld h 12 1 * 2048 + fld h 8 1 * 1024 + fld h 9 2 * 256 + fld h 6 1 * 128 + fld h 7 1 * 64
    + fld h 2 1 * 32 + fld h 11 1 * 16 + fld h 3 3 * 2)).signExtend 21
/-- The offset of C.BEQZ and C.BNEZ. -/
def immCB (h : Nat) : BitVec 13 :=
  (BitVec.ofNat 9 (fld h 12 1 * 256 + fld h 5 2 * 64 + fld h 2 1 * 32 + fld h 10 2 * 8 + fld h 3 2 * 2)).signExtend 13
/-- The unsigned offset of C.LW and C.SW. -/
def offCW (h : Nat) : BitVec 12 := .ofNat 12 (fld h 5 1 * 64 + fld h 10 3 * 8 + fld h 6 1 * 4)
/-- The unsigned offset of C.LD and C.SD. -/
def offCD (h : Nat) : BitVec 12 := .ofNat 12 (fld h 5 2 * 64 + fld h 10 3 * 8)

/-- Quadrant 0 of the C extension for RV64 without floating point. -/
def decodeC0 (h : Nat) : Option HodInstr :=
  match fld h 13 3 with
  | 0 =>
    let imm := fld h 7 4 * 64 + fld h 11 2 * 16 + fld h 5 1 * 8 + fld h 6 1 * 4
    if imm = 0 then none else some (.opImm .addi (creg h 2) 2 (.ofNat 12 imm))
  | 2 => some (.load .lw (creg h 2) (creg h 7) (offCW h))
  | 3 => some (.load .ld (creg h 2) (creg h 7) (offCD h))
  | 6 => some (.store .sw (creg h 7) (creg h 2) (offCW h))
  | 7 => some (.store .sd (creg h 7) (creg h 2) (offCD h))
  | _ => none

/-- The register-register operations of quadrant 1. -/
def decodeCArith (h : Nat) : Option HodInstr :=
  let rd := creg h 7
  let rs2 := creg h 2
  match fld h 10 2 with
  | 0 => some (.opImm .srli rd rd (shCI h))
  | 1 => some (.opImm .srai rd rd (shCI h))
  | 2 => some (.opImm .andi rd rd (immCI h))
  | _ =>
    match fld h 12 1 * 4 + fld h 5 2 with
    | 0 => some (.op .sub rd rd rs2)
    | 1 => some (.op .xor rd rd rs2)
    | 2 => some (.op .or rd rd rs2)
    | 3 => some (.op .and rd rd rs2)
    | 4 => some (.op32 .subw rd rd rs2)
    | 5 => some (.op32 .addw rd rd rs2)
    | _ => none

/-- Quadrant 1. -/
def decodeC1 (h : Nat) : Option HodInstr :=
  let rd := fld h 7 5
  match fld h 13 3 with
  | 0 => some (.opImm .addi rd rd (immCI h))
  | 1 => if rd = 0 then none else some (.opImm32 .addiw rd rd (immCI h))
  | 2 => some (.opImm .addi rd 0 (immCI h))
  | 3 =>
    if rd = 2 then
      let imm := fld h 12 1 * 512 + fld h 3 2 * 128 + fld h 5 1 * 64 + fld h 2 1 * 32 + fld h 6 1 * 16
      if imm = 0 then none else some (.opImm .addi 2 2 ((BitVec.ofNat 10 imm).signExtend 12))
    else if fld h 12 1 * 32 + fld h 2 5 = 0 then none
    else some (.lui rd ((BitVec.ofNat 6 (fld h 12 1 * 32 + fld h 2 5)).signExtend 20))
  | 4 => decodeCArith h
  | 5 => some (.jal 0 (immCJ h))
  | 6 => some (.branch .beq (creg h 7) 0 (immCB h))
  | _ => some (.branch .bne (creg h 7) 0 (immCB h))

/-- Quadrant 2, but for C.EBREAK. -/
def decodeC2 (h : Nat) : Option HodInstr :=
  let rd := fld h 7 5
  let rs2 := fld h 2 5
  match fld h 13 3 with
  | 0 => some (.opImm .slli rd rd (shCI h))
  | 2 => if rd = 0 then none
         else some (.load .lw rd 2 (.ofNat 12 (fld h 2 2 * 64 + fld h 12 1 * 32 + fld h 4 3 * 4)))
  | 3 => if rd = 0 then none
         else some (.load .ld rd 2 (.ofNat 12 (fld h 2 3 * 64 + fld h 12 1 * 32 + fld h 5 2 * 8)))
  | 4 =>
    if fld h 12 1 = 0 then
      if rs2 = 0 then (if rd = 0 then none else some (.jalr 0 rd 0)) else some (.op .add rd 0 rs2)
    else if rs2 = 0 then some (.jalr 1 rd 0)
    else some (.op .add rd rd rs2)
  | 6 => some (.store .sw 2 rs2 (.ofNat 12 (fld h 7 2 * 64 + fld h 9 4 * 4)))
  | 7 => some (.store .sd 2 rs2 (.ofNat 12 (fld h 7 3 * 64 + fld h 10 3 * 8)))
  | _ => none

/-- A 16-bit word of a hod: the C extension of RV64IMAC (R469), each expanded to the instruction it stands for. -/
def decodeHod16 (h : Nat) : Option Instr :=
  if h = 0x9002 then some (.ebreak true)
  else
    (match fld h 0 2 with
     | 0 => decodeC0 h
     | 1 => decodeC1 h
     | 2 => decodeC2 h
     | _ => none).map (.hodInstruction true)

/-- The instruction at the low end of the 32 bits fetched at a hod's pc, and its length in bytes. -/
def decodeHod (w : W32) : Option (Instr × Nat) :=
  if fld w.toNat 0 2 = 3 then (decodeHod32 w.toNat).map fun i => (i, 4)
  else (decodeHod16 (fld w.toNat 0 16)).map fun i => (i, 2)

/-! ### The encoder -/

/-- The word of a 32-bit base instruction. -/
def encodeRv : HodInstr → Nat
  | .lui rd imm => imm.toNat * 4096 + rd * 128 + 0x37
  | .auipc rd imm => imm.toNat * 4096 + rd * 128 + 0x17
  | .jal rd off =>
    fld off.toNat 20 1 * 2147483648 + fld off.toNat 1 10 * 2097152 + fld off.toNat 11 1 * 1048576
      + fld off.toNat 12 8 * 4096 + rd * 128 + 0x6F
  | .jalr rd rs1 imm => imm.toNat * 1048576 + rs1 * 32768 + rd * 128 + 0x67
  | .branch c rs1 rs2 off =>
    fld off.toNat 12 1 * 2147483648 + fld off.toNat 5 6 * 33554432 + rs2 * 1048576 + rs1 * 32768 + c.code * 4096
      + fld off.toNat 1 4 * 256 + fld off.toNat 11 1 * 128 + 0x63
  | .load k rd rs1 imm => imm.toNat * 1048576 + rs1 * 32768 + k.code * 4096 + rd * 128 + 0x03
  | .store k rs1 rs2 imm =>
    fld imm.toNat 5 7 * 33554432 + rs2 * 1048576 + rs1 * 32768 + k.code * 4096 + fld imm.toNat 0 5 * 128 + 0x23
  | .opImm fn rd rs1 imm =>
    let f3 := match fn with
      | .addi => 0 | .slti => 2 | .sltiu => 3 | .xori => 4 | .ori => 6 | .andi => 7
      | .slli => 1 | .srli => 5 | .srai => 5
    let hi := match fn with
      | .srai => 0x400
      | _ => 0
    (hi + imm.toNat) * 1048576 + rs1 * 32768 + f3 * 4096 + rd * 128 + 0x13
  | .opImm32 fn rd rs1 imm =>
    let f3 := match fn with
      | .addiw => 0 | .slliw => 1 | .srliw => 5 | .sraiw => 5
    let hi := match fn with
      | .sraiw => 0x400
      | _ => 0
    (hi + imm.toNat) * 1048576 + rs1 * 32768 + f3 * 4096 + rd * 128 + 0x1B
  | .op fn rd rs1 rs2 =>
    fn.code / 8 * 33554432 + rs2 * 1048576 + rs1 * 32768 + fn.code % 8 * 4096 + rd * 128 + 0x33
  | .op32 fn rd rs1 rs2 =>
    fn.code / 8 * 33554432 + rs2 * 1048576 + rs1 * 32768 + fn.code % 8 * 4096 + rd * 128 + 0x3B
  | .fence fm pred succ rd rs1 =>
    fm * 268435456 + pred * 16777216 + succ * 1048576 + rs1 * 32768 + rd * 128 + 0x0F
  | .lr dword aq rl rd rs1 =>
    2 * 134217728 + aq.toNat * 67108864 + rl.toNat * 33554432 + rs1 * 32768 + (2 + dword.toNat) * 4096 + rd * 128
      + 0x2F
  | .sc dword aq rl rd rs1 rs2 =>
    3 * 134217728 + aq.toNat * 67108864 + rl.toNat * 33554432 + rs2 * 1048576 + rs1 * 32768
      + (2 + dword.toNat) * 4096 + rd * 128 + 0x2F
  | .amo fn dword aq rl rd rs1 rs2 =>
    fn.code * 134217728 + aq.toNat * 67108864 + rl.toNat * 33554432 + rs2 * 1048576 + rs1 * 32768
      + (2 + dword.toNat) * 4096 + rd * 128 + 0x2F

/-- The words of an instruction, first word first; an event of the machine has none, and so has a compressed
hod instruction, whose 16-bit word its expansion does not determine. -/
def encode : Instr → List W32
  | .add m d a b => [w32 (m.toNat * 1073741824 + 16777216 + d * 16384 + a * 128 + b)]
  | .sub m d a b => [w32 (m.toNat * 1073741824 + 18874368 + d * 16384 + a * 128 + b)]
  | .and m d a b => [w32 (m.toNat * 1073741824 + 20971520 + d * 16384 + a * 128 + b)]
  | .or m d a b => [w32 (m.toNat * 1073741824 + 23068672 + d * 16384 + a * 128 + b)]
  | .xor m d a b => [w32 (m.toNat * 1073741824 + 25165824 + d * 16384 + a * 128 + b)]
  | .andn m d a b => [w32 (m.toNat * 1073741824 + 27262976 + d * 16384 + a * 128 + b)]
  | .minS32 m d a b => [w32 (m.toNat * 1073741824 + 29360128 + d * 16384 + a * 128 + b)]
  | .maxS32 m d a b => [w32 (m.toNat * 1073741824 + 31457280 + d * 16384 + a * 128 + b)]
  | .minZ32 m d a b => [w32 (m.toNat * 1073741824 + 33554432 + d * 16384 + a * 128 + b)]
  | .maxZ32 m d a b => [w32 (m.toNat * 1073741824 + 35651584 + d * 16384 + a * 128 + b)]
  | .addsatS32 m d a b => [w32 (m.toNat * 1073741824 + 37748736 + d * 16384 + a * 128 + b)]
  | .subsatS32 m d a b => [w32 (m.toNat * 1073741824 + 39845888 + d * 16384 + a * 128 + b)]
  | .addsatZ32 m d a b => [w32 (m.toNat * 1073741824 + 41943040 + d * 16384 + a * 128 + b)]
  | .subsatZ32 m d a b => [w32 (m.toNat * 1073741824 + 44040192 + d * 16384 + a * 128 + b)]
  | .absd m d a b => [w32 (m.toNat * 1073741824 + 46137344 + d * 16384 + a * 128 + b)]
  | .abs m d a => [w32 (m.toNat * 1073741824 + 48234496 + d * 16384 + a * 128)]
  | .shl m d a b => [w32 (m.toNat * 1073741824 + 50331648 + d * 16384 + a * 128 + b)]
  | .shr m d a b => [w32 (m.toNat * 1073741824 + 52428800 + d * 16384 + a * 128 + b)]
  | .sar m d a b => [w32 (m.toNat * 1073741824 + 54525952 + d * 16384 + a * 128 + b)]
  | .rol m d a b => [w32 (m.toNat * 1073741824 + 56623104 + d * 16384 + a * 128 + b)]
  | .ror m d a b => [w32 (m.toNat * 1073741824 + 58720256 + d * 16384 + a * 128 + b)]
  | .mul m d a b => [w32 (m.toNat * 1073741824 + 67108864 + d * 16384 + a * 128 + b)]
  | .mulhS32 m d a b => [w32 (m.toNat * 1073741824 + 69206016 + d * 16384 + a * 128 + b)]
  | .mulhZ32 m d a b => [w32 (m.toNat * 1073741824 + 71303168 + d * 16384 + a * 128 + b)]
  | .mulhSz32 m d a b => [w32 (m.toNat * 1073741824 + 73400320 + d * 16384 + a * 128 + b)]
  | .divS32 m d a b => [w32 (m.toNat * 1073741824 + 75497472 + d * 16384 + a * 128 + b)]
  | .divZ32 m d a b => [w32 (m.toNat * 1073741824 + 77594624 + d * 16384 + a * 128 + b)]
  | .remS32 m d a b => [w32 (m.toNat * 1073741824 + 79691776 + d * 16384 + a * 128 + b)]
  | .remZ32 m d a b => [w32 (m.toNat * 1073741824 + 81788928 + d * 16384 + a * 128 + b)]
  | .mad m d a b => [w32 (m.toNat * 1073741824 + 83886080 + d * 16384 + a * 128 + b)]
  | .msb m d a b => [w32 (m.toNat * 1073741824 + 85983232 + d * 16384 + a * 128 + b)]
  | .clz m d a => [w32 (m.toNat * 1073741824 + 100663296 + d * 16384 + a * 128)]
  | .ctz m d a => [w32 (m.toNat * 1073741824 + 102760448 + d * 16384 + a * 128)]
  | .popc m d a => [w32 (m.toNat * 1073741824 + 104857600 + d * 16384 + a * 128)]
  | .brev m d a => [w32 (m.toNat * 1073741824 + 106954752 + d * 16384 + a * 128)]
  | .bswap m d a => [w32 (m.toNat * 1073741824 + 109051904 + d * 16384 + a * 128)]
  | .sxb m d a => [w32 (m.toNat * 1073741824 + 111149056 + d * 16384 + a * 128)]
  | .sxh m d a => [w32 (m.toNat * 1073741824 + 113246208 + d * 16384 + a * 128)]
  | .zxh m d a => [w32 (m.toNat * 1073741824 + 115343360 + d * 16384 + a * 128)]
  | .bfxS32 m d a b => [w32 (m.toNat * 1073741824 + 117440512 + d * 16384 + a * 128 + b)]
  | .bfxZ32 m d a b => [w32 (m.toNat * 1073741824 + 119537664 + d * 16384 + a * 128 + b)]
  | .bfi m d a b => [w32 (m.toNat * 1073741824 + 121634816 + d * 16384 + a * 128 + b)]
  | .addi m d a i => [w32 (m.toNat * 1073741824 + 134217728 + d * 131072 + a * 1024 + i.toNat)]
  | .andi m d a i => [w32 (m.toNat * 1073741824 + 150994944 + d * 131072 + a * 1024 + i.toNat)]
  | .ori m d a i => [w32 (m.toNat * 1073741824 + 167772160 + d * 131072 + a * 1024 + i.toNat)]
  | .xori m d a i => [w32 (m.toNat * 1073741824 + 184549376 + d * 131072 + a * 1024 + i.toNat)]
  | .shi m d a k n => [w32 (m.toNat * 1073741824 + 201326592 + d * 131072 + a * 1024 + k.code * 256 + n)]
  | .muli m d a i => [w32 (m.toNat * 1073741824 + 218103808 + d * 131072 + a * 1024 + i.toNat)]
  | .movl m d lit => [w32 (m.toNat * 1073741824 + 234881024 + d * 131072), lit]
  | .addl m d lit => [w32 (m.toNat * 1073741824 + 234897408 + d * 131072), lit]
  | .andl m d lit => [w32 (m.toNat * 1073741824 + 234913792 + d * 131072), lit]
  | .orl m d lit => [w32 (m.toNat * 1073741824 + 234930176 + d * 131072), lit]
  | .lea m h d a b => [w32 (m.toNat * 1073741824 + 251658240 + h * 2097152 + d * 16384 + a * 128 + b)]
  | .icmp m c k a b => [w32 (m.toNat * 1073741824 + 268435456 + c.code * 2097152 + k * 16384 + a * 128 + b)]
  | .fcmp m c k a b => [w32 (m.toNat * 1073741824 + 285212672 + c.code * 2097152 + k * 16384 + a * 128 + b)]
  | .sel m k d a b => [w32 (m.toNat * 1073741824 + 301989888 + k * 2097152 + d * 16384 + a * 128 + b)]
  | .mov m d a => [w32 (m.toNat * 1073741824 + 318767104 + d * 16384 + a * 128)]
  | .kbit m d k => [w32 (m.toNat * 1073741824 + 320864256 + d * 16384 + k * 128)]
  | .tid m d => [w32 (m.toNat * 1073741824 + 322961408 + d * 16384)]
  | .sysv m d n => [w32 (m.toNat * 1073741824 + 325058560 + d * 16384 + n * 128)]
  | .fadd m f d a b => [w32 (m.toNat * 1073741824 + 335544320 + f.code * 2097152 + d * 16384 + a * 128 + b)]
  | .fsub m f d a b => [w32 (m.toNat * 1073741824 + 352321536 + f.code * 2097152 + d * 16384 + a * 128 + b)]
  | .fmul m f d a b => [w32 (m.toNat * 1073741824 + 369098752 + f.code * 2097152 + d * 16384 + a * 128 + b)]
  | .ffma m f d a b => [w32 (m.toNat * 1073741824 + 385875968 + f.code * 2097152 + d * 16384 + a * 128 + b)]
  | .fmin m d a b => [w32 (m.toNat * 1073741824 + 402653184 + d * 16384 + a * 128 + b)]
  | .fmax m d a b => [w32 (m.toNat * 1073741824 + 404750336 + d * 16384 + a * 128 + b)]
  | .fminnum m d a b => [w32 (m.toNat * 1073741824 + 406847488 + d * 16384 + a * 128 + b)]
  | .fmaxnum m d a b => [w32 (m.toNat * 1073741824 + 408944640 + d * 16384 + a * 128 + b)]
  | .fabs m d a => [w32 (m.toNat * 1073741824 + 419430400 + d * 16384 + a * 128)]
  | .fneg m d a => [w32 (m.toNat * 1073741824 + 421527552 + d * 16384 + a * 128)]
  | .fcpys m d a b => [w32 (m.toNat * 1073741824 + 423624704 + d * 16384 + a * 128 + b)]
  | .fxsgn m d a b => [w32 (m.toNat * 1073741824 + 425721856 + d * 16384 + a * 128 + b)]
  | .fcls m d a => [w32 (m.toNat * 1073741824 + 436207616 + d * 16384 + a * 128)]
  | .cvt m r d a src dst => [w32 (m.toNat * 1073741824 + 452984832 + r.code * 2097152 + d * 16384 + a * 128 + src.code * 9 + dst.code)]
  | .frnd m r d a => [w32 (m.toNat * 1073741824 + 469762048 + r.code * 2097152 + d * 16384 + a * 128)]
  | .rcp m d a => [w32 (m.toNat * 1073741824 + 486539264 + d * 16384 + a * 128)]
  | .rsq m d a => [w32 (m.toNat * 1073741824 + 488636416 + d * 16384 + a * 128)]
  | .sqrt m d a => [w32 (m.toNat * 1073741824 + 490733568 + d * 16384 + a * 128)]
  | .exp2 m d a => [w32 (m.toNat * 1073741824 + 492830720 + d * 16384 + a * 128)]
  | .log2 m d a => [w32 (m.toNat * 1073741824 + 494927872 + d * 16384 + a * 128)]
  | .sin m d a => [w32 (m.toNat * 1073741824 + 497025024 + d * 16384 + a * 128)]
  | .cos m d a => [w32 (m.toNat * 1073741824 + 499122176 + d * 16384 + a * 128)]
  | .tanh m d a => [w32 (m.toNat * 1073741824 + 501219328 + d * 16384 + a * 128)]
  | .sigm m d a => [w32 (m.toNat * 1073741824 + 503316480 + d * 16384 + a * 128)]
  | .erf m d a => [w32 (m.toNat * 1073741824 + 505413632 + d * 16384 + a * 128)]
  | .gelu m d a => [w32 (m.toNat * 1073741824 + 507510784 + d * 16384 + a * 128)]
  | .silu m d a => [w32 (m.toNat * 1073741824 + 509607936 + d * 16384 + a * 128)]
  | .idx m d a b => [w32 (m.toNat * 1073741824 + 536870912 + d * 16384 + a * 128 + b)]
  | .upw m d a n => [w32 (m.toNat * 1073741824 + 538968064 + d * 16384 + a * 128 + n)]
  | .dnw m d a n => [w32 (m.toNat * 1073741824 + 541065216 + d * 16384 + a * 128 + n)]
  | .xorw m d a n => [w32 (m.toNat * 1073741824 + 543162368 + d * 16384 + a * 128 + n)]
  | .rotw m d a n => [w32 (m.toNat * 1073741824 + 545259520 + d * 16384 + a * 128 + n)]
  | .xred m o d a => [w32 (m.toNat * 1073741824 + 553648128 + o.code * 2097152 + d * 16384 + a * 128)]
  | .xscn m o d a => [w32 (m.toNat * 1073741824 + 570425344 + o.code * 2097152 + d * 16384 + a * 128)]
  | .ballot m k a => [w32 (m.toNat * 1073741824 + 587202560 + k * 16384 + a * 128)]
  | .all m d a => [w32 (m.toNat * 1073741824 + 589299712 + d * 16384 + a * 128)]
  | .any m d a => [w32 (m.toNat * 1073741824 + 591396864 + d * 16384 + a * 128)]
  | .uni m d a => [w32 (m.toNat * 1073741824 + 593494016 + d * 16384 + a * 128)]
  | .xbc m d a b => [w32 (m.toNat * 1073741824 + 603979776 + d * 16384 + a * 128 + b)]
  | .ld m wid d a o c => [w32 (m.toNat * 1073741824 + 671088640 + wid.code * 2097152 + d * 16384 + a * 128 + o.code * 32 + c.code * 4)]
  | .st m wid d a o c => [w32 (m.toNat * 1073741824 + 687865856 + wid.code * 2097152 + d * 16384 + a * 128 + o.code * 32 + c.code * 4)]
  | .ldc m wid d a o c s => [w32 (m.toNat * 1073741824 + 704643072 + wid.code * 2097152 + d * 16384 + a * 128 + o.code * 32 + c.code * 4 + s)]
  | .stc m wid d a o c s => [w32 (m.toNat * 1073741824 + 721420288 + wid.code * 2097152 + d * 16384 + a * 128 + o.code * 32 + c.code * 4 + s)]
  | .ldd m wid d a o c => [w32 (m.toNat * 1073741824 + 738197504 + wid.code * 2097152 + d * 16384 + a * 128 + o.code * 32 + c.code * 4)]
  | .std m wid d a o c => [w32 (m.toNat * 1073741824 + 754974720 + wid.code * 2097152 + d * 16384 + a * 128 + o.code * 32 + c.code * 4)]
  | .ldg m wid d a o c s => [w32 (m.toNat * 1073741824 + 771751936 + wid.code * 2097152 + d * 16384 + a * 128 + o.code * 32 + c.code * 4 + s)]
  | .stg m wid d a o c s => [w32 (m.toNat * 1073741824 + 788529152 + wid.code * 2097152 + d * 16384 + a * 128 + o.code * 32 + c.code * 4 + s)]
  | .atomAdd m d a o c p => [w32 (m.toNat * 1073741824 + 805306368 + d * 16384 + a * 128 + o.code * 32 + c.code * 4 + p.code)]
  | .atomXch m d a o c p => [w32 (m.toNat * 1073741824 + 807403520 + d * 16384 + a * 128 + o.code * 32 + c.code * 4 + p.code)]
  | .atomMinS32 m d a o c p => [w32 (m.toNat * 1073741824 + 809500672 + d * 16384 + a * 128 + o.code * 32 + c.code * 4 + p.code)]
  | .atomMaxS32 m d a o c p => [w32 (m.toNat * 1073741824 + 811597824 + d * 16384 + a * 128 + o.code * 32 + c.code * 4 + p.code)]
  | .atomMinZ32 m d a o c p => [w32 (m.toNat * 1073741824 + 813694976 + d * 16384 + a * 128 + o.code * 32 + c.code * 4 + p.code)]
  | .atomMaxZ32 m d a o c p => [w32 (m.toNat * 1073741824 + 815792128 + d * 16384 + a * 128 + o.code * 32 + c.code * 4 + p.code)]
  | .atomAnd m d a o c p => [w32 (m.toNat * 1073741824 + 817889280 + d * 16384 + a * 128 + o.code * 32 + c.code * 4 + p.code)]
  | .atomOr m d a o c p => [w32 (m.toNat * 1073741824 + 819986432 + d * 16384 + a * 128 + o.code * 32 + c.code * 4 + p.code)]
  | .atomXor m d a o c p => [w32 (m.toNat * 1073741824 + 822083584 + d * 16384 + a * 128 + o.code * 32 + c.code * 4 + p.code)]
  | .atomAddB64 m d a o c p => [w32 (m.toNat * 1073741824 + 824180736 + d * 16384 + a * 128 + o.code * 32 + c.code * 4 + p.code)]
  | .atomXchB64 m d a o c p => [w32 (m.toNat * 1073741824 + 826277888 + d * 16384 + a * 128 + o.code * 32 + c.code * 4 + p.code)]
  | .atomMinS64 m d a o c p => [w32 (m.toNat * 1073741824 + 828375040 + d * 16384 + a * 128 + o.code * 32 + c.code * 4 + p.code)]
  | .atomMaxS64 m d a o c p => [w32 (m.toNat * 1073741824 + 830472192 + d * 16384 + a * 128 + o.code * 32 + c.code * 4 + p.code)]
  | .atomMinZ64 m d a o c p => [w32 (m.toNat * 1073741824 + 832569344 + d * 16384 + a * 128 + o.code * 32 + c.code * 4 + p.code)]
  | .atomMaxZ64 m d a o c p => [w32 (m.toNat * 1073741824 + 834666496 + d * 16384 + a * 128 + o.code * 32 + c.code * 4 + p.code)]
  | .atomCasB64 m d a o c p => [w32 (m.toNat * 1073741824 + 836763648 + d * 16384 + a * 128 + o.code * 32 + c.code * 4 + p.code)]
  | .atomfFadd m d a o c p => [w32 (m.toNat * 1073741824 + 838860800 + d * 16384 + a * 128 + o.code * 32 + c.code * 4 + p.code)]
  | .atomfFmin m d a o c p => [w32 (m.toNat * 1073741824 + 840957952 + d * 16384 + a * 128 + o.code * 32 + c.code * 4 + p.code)]
  | .atomfFmax m d a o c p => [w32 (m.toNat * 1073741824 + 843055104 + d * 16384 + a * 128 + o.code * 32 + c.code * 4 + p.code)]
  | .atomfAddBf16x2 m d a o c p => [w32 (m.toNat * 1073741824 + 845152256 + d * 16384 + a * 128 + o.code * 32 + c.code * 4 + p.code)]
  | .atomoFadd m d a o c p => [w32 (m.toNat * 1073741824 + 855638016 + d * 16384 + a * 128 + o.code * 32 + c.code * 4 + p.code)]
  | .atomoClose m a o c p => [w32 (m.toNat * 1073741824 + 857735168 + a * 128 + o.code * 32 + c.code * 4 + p.code)]
  | .cas m d a o c p => [w32 (m.toNat * 1073741824 + 872415232 + d * 16384 + a * 128 + o.code * 32 + c.code * 4 + p.code)]
  | .pop m d q => [w32 (m.toNat * 1073741824 + 905969664 + d * 16384 + q)]
  | .popnb m d k q => [w32 (m.toNat * 1073741824 + 908066816 + d * 16384 + k * 128 + q)]
  | .push m d q => [w32 (m.toNat * 1073741824 + 910163968 + d * 16384 + q)]
  | .pushnb m d q => [w32 (m.toNat * 1073741824 + 912261120 + d * 16384 + q)]
  | .swp m d i => [w32 (m.toNat * 1073741824 + 939524096 + d * 16384 + i * 128)]
  | .swr m o d i b => [w32 (m.toNat * 1073741824 + 956301312 + o.code * 2097152 + d * 16384 + i * 128 + b)]
  | .nop m => [w32 (m.toNat * 1073741824 + 2147483648)]
  | .yield m => [w32 (m.toNat * 1073741824 + 2149580800)]
  | .pause m => [w32 (m.toNat * 1073741824 + 2151677952)]
  | .pauseExpiry _ _ _ => []
  | .uadd m d a b => [w32 (m.toNat * 1073741824 + 2164260864 + d * 16384 + a * 128 + b)]
  | .usub m d a b => [w32 (m.toNat * 1073741824 + 2166358016 + d * 16384 + a * 128 + b)]
  | .uand m d a b => [w32 (m.toNat * 1073741824 + 2168455168 + d * 16384 + a * 128 + b)]
  | .uor m d a b => [w32 (m.toNat * 1073741824 + 2170552320 + d * 16384 + a * 128 + b)]
  | .uxor m d a b => [w32 (m.toNat * 1073741824 + 2172649472 + d * 16384 + a * 128 + b)]
  | .uandn m d a b => [w32 (m.toNat * 1073741824 + 2174746624 + d * 16384 + a * 128 + b)]
  | .uminS32 m d a b => [w32 (m.toNat * 1073741824 + 2176843776 + d * 16384 + a * 128 + b)]
  | .umaxS32 m d a b => [w32 (m.toNat * 1073741824 + 2178940928 + d * 16384 + a * 128 + b)]
  | .uminZ32 m d a b => [w32 (m.toNat * 1073741824 + 2181038080 + d * 16384 + a * 128 + b)]
  | .umaxZ32 m d a b => [w32 (m.toNat * 1073741824 + 2183135232 + d * 16384 + a * 128 + b)]
  | .uaddsatS32 m d a b => [w32 (m.toNat * 1073741824 + 2185232384 + d * 16384 + a * 128 + b)]
  | .usubsatS32 m d a b => [w32 (m.toNat * 1073741824 + 2187329536 + d * 16384 + a * 128 + b)]
  | .uaddsatZ32 m d a b => [w32 (m.toNat * 1073741824 + 2189426688 + d * 16384 + a * 128 + b)]
  | .usubsatZ32 m d a b => [w32 (m.toNat * 1073741824 + 2191523840 + d * 16384 + a * 128 + b)]
  | .uabsd m d a b => [w32 (m.toNat * 1073741824 + 2193620992 + d * 16384 + a * 128 + b)]
  | .uabs m d a => [w32 (m.toNat * 1073741824 + 2195718144 + d * 16384 + a * 128)]
  | .ushl m d a b => [w32 (m.toNat * 1073741824 + 2197815296 + d * 16384 + a * 128 + b)]
  | .ushr m d a b => [w32 (m.toNat * 1073741824 + 2199912448 + d * 16384 + a * 128 + b)]
  | .usar m d a b => [w32 (m.toNat * 1073741824 + 2202009600 + d * 16384 + a * 128 + b)]
  | .urol m d a b => [w32 (m.toNat * 1073741824 + 2204106752 + d * 16384 + a * 128 + b)]
  | .uror m d a b => [w32 (m.toNat * 1073741824 + 2206203904 + d * 16384 + a * 128 + b)]
  | .umul m d a b => [w32 (m.toNat * 1073741824 + 2214592512 + d * 16384 + a * 128 + b)]
  | .umulhS32 m d a b => [w32 (m.toNat * 1073741824 + 2216689664 + d * 16384 + a * 128 + b)]
  | .umulhZ32 m d a b => [w32 (m.toNat * 1073741824 + 2218786816 + d * 16384 + a * 128 + b)]
  | .umulhSz32 m d a b => [w32 (m.toNat * 1073741824 + 2220883968 + d * 16384 + a * 128 + b)]
  | .udivS32 m d a b => [w32 (m.toNat * 1073741824 + 2222981120 + d * 16384 + a * 128 + b)]
  | .udivZ32 m d a b => [w32 (m.toNat * 1073741824 + 2225078272 + d * 16384 + a * 128 + b)]
  | .uremS32 m d a b => [w32 (m.toNat * 1073741824 + 2227175424 + d * 16384 + a * 128 + b)]
  | .uremZ32 m d a b => [w32 (m.toNat * 1073741824 + 2229272576 + d * 16384 + a * 128 + b)]
  | .uaddi m d a i => [w32 (m.toNat * 1073741824 + 2281701376 + d * 131072 + a * 1024 + i.toNat)]
  | .umovl m d lit => [w32 (m.toNat * 1073741824 + 2382364672 + d * 131072), lit]
  | .uaddl m d lit => [w32 (m.toNat * 1073741824 + 2382381056 + d * 131072), lit]
  | .uandl m d lit => [w32 (m.toNat * 1073741824 + 2382397440 + d * 131072), lit]
  | .uorl m d lit => [w32 (m.toNat * 1073741824 + 2382413824 + d * 131072), lit]
  | .ulea m h d a b => [w32 (m.toNat * 1073741824 + 2399141888 + h * 2097152 + d * 16384 + a * 128 + b)]
  | .ucmp m c d a b => [w32 (m.toNat * 1073741824 + 2415919104 + c.code * 2097152 + d * 16384 + a * 128 + b)]
  | .kand m kd ka kb => [w32 (m.toNat * 1073741824 + 2466250752 + kd * 16384 + ka * 128 + kb)]
  | .kor m kd ka kb => [w32 (m.toNat * 1073741824 + 2468347904 + kd * 16384 + ka * 128 + kb)]
  | .kxor m kd ka kb => [w32 (m.toNat * 1073741824 + 2470445056 + kd * 16384 + ka * 128 + kb)]
  | .kandn m kd ka kb => [w32 (m.toNat * 1073741824 + 2472542208 + kd * 16384 + ka * 128 + kb)]
  | .knot m kd ka => [w32 (m.toNat * 1073741824 + 2474639360 + kd * 16384 + ka * 128)]
  | .kfrom m kd g => [w32 (m.toNat * 1073741824 + 2476736512 + kd * 16384 + g * 128)]
  | .kto m g ka => [w32 (m.toNat * 1073741824 + 2478833664 + g * 16384 + ka * 128)]
  | .kpopc m d ka => [w32 (m.toNat * 1073741824 + 2480930816 + d * 16384 + ka * 128)]
  | .umov m d a => [w32 (m.toNat * 1073741824 + 2483027968 + d * 16384 + a * 128)]
  | .rdlow m d ka => [w32 (m.toNat * 1073741824 + 2485125120 + d * 16384 + ka * 128)]
  | .rdth m d a b => [w32 (m.toNat * 1073741824 + 2487222272 + d * 16384 + a * 128 + b)]
  | .bra m o => [w32 (m.toNat * 1073741824 + 2550136832 + o.toNat)]
  | .brc m c r o => [w32 (m.toNat * 1073741824 + 2566914048 + c.code * 2097152 + r * 16384 + o.toNat)]
  | .call m o => [w32 (m.toNat * 1073741824 + 2583691264 + o.toNat)]
  | .ret m => [w32 (m.toNat * 1073741824 + 2600468480)]
  | .jmpt m a table => [w32 (m.toNat * 1073741824 + 2602565632 + a * 128 + (table.length - 1))] ++ table
  | .callt m a table => [w32 (m.toNat * 1073741824 + 2604662784 + a * 128 + (table.length - 1))] ++ table
  | .bdiv m k o reconv => [w32 (m.toNat * 1073741824 + 2617245696 + k * 2097152 + o.toNat), reconv]
  | .join m => [w32 (m.toNat * 1073741824 + 2634022912)]
  | .joinl m => [w32 (m.toNat * 1073741824 + 2636120064)]
  | .disp m k o live => [w32 (m.toNat * 1073741824 + 2650800128 + k * 2097152 + o.toNat), live]
  | .exit m => [w32 (m.toNat * 1073741824 + 2667577344)]
  | .exitg m => [w32 (m.toNat * 1073741824 + 2669674496)]
  | .loop m lv cnt len incd inca incb incta inctb incacc step => [w32 (m.toNat * 1073741824 + 2684354560 + lv * 2097152 + cnt * 16384 + len * 64), w32 (incd.toNat * 268435456 + inca.toNat * 16777216 + incb.toNat * 1048576 + incta.toNat * 65536 + inctb.toNat * 4096 + incacc.toNat * 128 + step)]
  | .lbrk m c r o => [w32 (m.toNat * 1073741824 + 2701131776 + c.code * 2097152 + r * 16384 + o.toNat)]
  | .spwn m f n entry => [w32 (m.toNat * 1073741824 + 2717908992 + f * 16384 + n * 1024), entry]
  | .spwnf m entry => [w32 (m.toNat * 1073741824 + 2720006144), entry]
  | .tspn m h a => [w32 (m.toNat * 1073741824 + 2734686208 + h * 16384 + a * 128)]
  | .cpyi m h a => [w32 (m.toNat * 1073741824 + 2751463424 + h * 16384 + a * 128)]
  | .cpyo m h a => [w32 (m.toNat * 1073741824 + 2753560576 + h * 16384 + a * 128)]
  | .cpyg m h a b => [w32 (m.toNat * 1073741824 + 2755657728 + h * 16384 + a * 128 + b)]
  | .cpys m h a b => [w32 (m.toNat * 1073741824 + 2757754880 + h * 16384 + a * 128 + b)]
  | .tmvl m h a => [w32 (m.toNat * 1073741824 + 2759852032 + h * 16384 + a * 128)]
  | .cpyx m h a => [w32 (m.toNat * 1073741824 + 2761949184 + h * 16384 + a * 128)]
  | .copyTransferStart _ _ => []
  | .rcfg m d a r => [w32 (m.toNat * 1073741824 + 2768240640 + d * 16384 + a * 128 + r)]
  | .rawait m d k r => [w32 (m.toNat * 1073741824 + 2770337792 + d * 16384 + k * 128 + r)]
  | .rrel m k r => [w32 (m.toNat * 1073741824 + 2772434944 + k * 128 + r)]
  | .rnst m d r => [w32 (m.toNat * 1073741824 + 2774532096 + d * 16384 + r)]
  | .kldj m h a => [w32 (m.toNat * 1073741824 + 2785017856 + h * 16384 + a * 128)]
  | .kbias m h a => [w32 (m.toNat * 1073741824 + 2787115008 + h * 16384 + a * 128)]
  | .kclamp m h a => [w32 (m.toNat * 1073741824 + 2789212160 + h * 16384 + a * 128)]
  | .kseed m h a => [w32 (m.toNat * 1073741824 + 2791309312 + h * 16384 + a * 128)]
  | .ksweep m h a b => [w32 (m.toNat * 1073741824 + 2793406464 + h * 16384 + a * 128 + b)]
  | .sweep _ => []
  | .kread m h a => [w32 (m.toNat * 1073741824 + 2795503616 + h * 16384 + a * 128)]
  | .khealth m h b => [w32 (m.toNat * 1073741824 + 2797613056 + h * 16384 + b)]
  | .kcal m h => [w32 (m.toNat * 1073741824 + 2799710208 + h * 16384)]
  | .sqcfg m h a b => [w32 (m.toNat * 1073741824 + 2801795072 + h * 16384 + a * 128 + b)]
  | .sqbeg m h b => [w32 (m.toNat * 1073741824 + 2803892224 + h * 16384 + b)]
  | .sqsig m h t => [w32 (m.toNat * 1073741824 + 2805989376 + h * 16384 + t)]
  | .sqmap m h a b => [w32 (m.toNat * 1073741824 + 2808086528 + h * 16384 + a * 128 + b)]
  | .sqend m h => [w32 (m.toNat * 1073741824 + 2810183680 + h * 16384)]
  | .sqrst m h b => [w32 (m.toNat * 1073741824 + 2812280832 + h * 16384 + b)]
  | .fence m o c ks => [w32 (m.toNat * 1073741824 + 2818572288 + o.code * 2097152 + c.code * 16384 + ks * 128)]
  | .cwait m c n => [w32 (m.toNat * 1073741824 + 2835349504 + c * 2097152 + n * 16384)]
  | .hwait m a => [w32 (m.toNat * 1073741824 + 2852126720 + a * 128)]
  | .htest m d a => [w32 (m.toNat * 1073741824 + 2854223872 + d * 16384 + a * 128)]
  | .hcancel m a => [w32 (m.toNat * 1073741824 + 2856321024 + a * 128)]
  | .hstat m d a => [w32 (m.toNat * 1073741824 + 2858418176 + d * 16384 + a * 128)]
  | .barT m id => [w32 (m.toNat * 1073741824 + 2868903936 + id)]
  | .barTe m d id => [w32 (m.toNat * 1073741824 + 2871001088 + d * 16384 + id)]
  | .barC m id => [w32 (m.toNat * 1073741824 + 2873098240 + id)]
  | .barCx m id => [w32 (m.toNat * 1073741824 + 2875195392 + id)]
  | .barP m id => [w32 (m.toNat * 1073741824 + 2877292544 + id)]
  | .arriveP m d id => [w32 (m.toNat * 1073741824 + 2879389696 + d * 16384 + id)]
  | .waitP m a => [w32 (m.toNat * 1073741824 + 2881486848 + a * 128)]
  | .packageBarrierRelease _ _ => []
  | .mbatch m d => [w32 (m.toNat * 1073741824 + 2885681152 + d * 16384)]
  | .mwait m d a => [w32 (m.toNat * 1073741824 + 2887778304 + d * 16384 + a * 128)]
  | .marg m n => [w32 (m.toNat * 1073741824 + 2902458368 + n)]
  | .sysrd m d n => [w32 (m.toNat * 1073741824 + 2952790016 + d * 131072 + n)]
  | .syswr m d n => [w32 (m.toNat * 1073741824 + 2969567232 + d * 131072 + n)]
  | .trap m c => [w32 (m.toNat * 1073741824 + 2986344448 + c)]
  | .tret m => [w32 (m.toNat * 1073741824 + 3003121664)]
  | .brk m c => [w32 (m.toNat * 1073741824 + 3019898880 + c)]
  | .itld m i a => [w32 (m.toNat * 1073741824 + 3036676096 + i * 16384 + a * 128)]
  | .itst m i a => [w32 (m.toNat * 1073741824 + 3038773248 + i * 16384 + a * 128)]
  | .qcfg m a q => [w32 (m.toNat * 1073741824 + 3053453312 + a * 128 + q)]
  | .dreg m p s a b => [w32 (m.toNat * 1073741824 + 3070230528 + p * 131072 + s * 16384 + a * 128 + b)]
  | .dclr m every s => [w32 (m.toNat * 1073741824 + 3072327680 + every.toNat * 131072 + s * 16384)]
  | .mmaAcc m c a b q x y => [w32 (m.toNat * 1073741824 + 3087007744 + c * 65536 + a * 4096 + b * 256 + q.toNat * 128 + x * 32 + y * 8)]
  | .mmaSet m c a b q x y => [w32 (m.toNat * 1073741824 + 3089104896 + c * 65536 + a * 4096 + b * 256 + q.toNat * 128 + x * 32 + y * 8)]
  | .mmaSub m c a b q x y => [w32 (m.toNat * 1073741824 + 3091202048 + c * 65536 + a * 4096 + b * 256 + q.toNat * 128 + x * 32 + y * 8)]
  | .mmah m a => [w32 (m.toNat * 1073741824 + 3105357824 + a * 128)]
  | .mmag m a => [w32 (m.toNat * 1073741824 + 3107454976 + a * 128)]
  | .matrixOperationBegin _ _ _ => []
  | .batchEnd _ _ _ => []
  | .tcfg m t dup axis cols rows wd => [w32 (m.toNat * 1073741824 + 3120562176 + t * 131072), w32 (dup * 16777216 + axis.toNat * 8388608 + cols * 1048576 + rows * 4096 + wd * 512)]
  | .tmovi m t a p => [w32 (m.toNat * 1073741824 + 3122659328 + t * 16384 + a * 128 + p.toNat)]
  | .tmovo m t a p => [w32 (m.toNat * 1073741824 + 3124756480 + t * 16384 + a * 128 + p.toNat)]
  | .tzero m t => [w32 (m.toNat * 1073741824 + 3126853632 + t * 16384)]
  | .azero m n b => [w32 (m.toNat * 1073741824 + 3128950784 + n * 16384 + b)]
  | .adrn m q n a b => [w32 (m.toNat * 1073741824 + 3131047936 + q.toNat * 1048576 + n * 16384 + a * 128 + b)]
  | .afil m n a b => [w32 (m.toNat * 1073741824 + 3133145088 + n * 16384 + a * 128 + b)]
  | .tdmap m t a => [w32 (m.toNat * 1073741824 + 3135242240 + t * 16384 + a * 128)]
  | .aact m q d s f => [w32 (m.toNat * 1073741824 + 3137339392 + q.toNat * 1048576 + d * 16384 + s * 128 + f.code)]
  | .aadd m q d s t => [w32 (m.toNat * 1073741824 + 3139436544 + q.toNat * 1048576 + d * 16384 + s * 128 + t)]
  | .aemul m q d s t => [w32 (m.toNat * 1073741824 + 3141533696 + q.toNat * 1048576 + d * 16384 + s * 128 + t)]
  | .ascal m q d s g => [w32 (m.toNat * 1073741824 + 3143630848 + q.toNat * 1048576 + d * 16384 + s * 128 + g)]
  | .abias m q d s g => [w32 (m.toNat * 1073741824 + 3145728000 + q.toNat * 1048576 + d * 16384 + s * 128 + g)]
  | .arsum m q d s => [w32 (m.toNat * 1073741824 + 3147825152 + q.toNat * 1048576 + d * 16384 + s * 128)]
  | .armax m q d s => [w32 (m.toNat * 1073741824 + 3149922304 + q.toNat * 1048576 + d * 16384 + s * 128)]
  | .acpy m q d s => [w32 (m.toNat * 1073741824 + 3152019456 + q.toNat * 1048576 + d * 16384 + s * 128)]
  | .recon m a cont p => [w32 (m.toNat * 1073741824 + 3154116608 + a * 128 + cont.toNat * 2 + p.toNat)]
  | .recoff m => [w32 (m.toNat * 1073741824 + 3156213760)]
  | .rmark m d => [w32 (m.toNat * 1073741824 + 3158310912 + d * 16384)]
  | .trvs m d a => [w32 (m.toNat * 1073741824 + 3160408064 + d * 16384 + a * 128)]
  | .rlog m a => [w32 (m.toNat * 1073741824 + 3162505216 + a * 128)]
  | .rgrad m v c => [w32 (m.toNat * 1073741824 + 3164602368 + v * 16384 + c * 128)]
  | .rstat m d n => [w32 (m.toNat * 1073741824 + 3166699520 + d * 16384 + n * 128)]
  | .callr m h a => [w32 (m.toNat * 1073741824 + 3170893824 + h * 16384 + a * 128)]
  | .crsct m h a => [w32 (m.toNat * 1073741824 + 3172990976 + h * 16384 + a * 128)]
  | .cagth m h a => [w32 (m.toNat * 1073741824 + 3175088128 + h * 16384 + a * 128)]
  | .ca2a m h a => [w32 (m.toNat * 1073741824 + 3177185280 + h * 16384 + a * 128)]
  | .cbcst m h a => [w32 (m.toNat * 1073741824 + 3179282432 + h * 16384 + a * 128)]
  | .cstat m d n => [w32 (m.toNat * 1073741824 + 3181391872 + d * 16384 + n)]
  | .headerExchange _ _ _ _ => []
  | .collectiveTimeout _ _ => []
  | .variableLatencyResult _ _ _ _ => []
  | .operationRetire _ _ _ => []
  | .faultResponse _ => []
  | .hcpyCpyi rd rs1 => [w32 (11 + rd * 128 + rs1 * 32768)]
  | .hcpyCpyo rd rs1 => [w32 (33554443 + rd * 128 + rs1 * 32768)]
  | .hcpyCpyg rd rs1 rs2 => [w32 (67108875 + rd * 128 + rs1 * 32768 + rs2 * 1048576)]
  | .hcpyCpys rd rs1 rs2 => [w32 (100663307 + rd * 128 + rs1 * 32768 + rs2 * 1048576)]
  | .hcpyTmvl rd rs1 => [w32 (134217739 + rd * 128 + rs1 * 32768)]
  | .hcpyCpyx rd rs1 => [w32 (167772171 + rd * 128 + rs1 * 32768)]
  | .hringAwait rd rs1 rs2 => [w32 (4107 + rd * 128 + rs1 * 32768 + rs2 * 1048576)]
  | .hringRel rd rs1 rs2 => [w32 (33558539 + rd * 128 + rs1 * 32768 + rs2 * 1048576)]
  | .hringStat rd rs2 => [w32 (67112971 + rd * 128 + rs2 * 1048576)]
  | .hqPop rd rs2 => [w32 (43 + rd * 128 + rs2 * 1048576)]
  | .hqPopnb rd rs2 => [w32 (33554475 + rd * 128 + rs2 * 1048576)]
  | .hqPush rs1 rs2 => [w32 (67108907 + rs1 * 32768 + rs2 * 1048576)]
  | .hqPushnb rd rs1 rs2 => [w32 (100663339 + rd * 128 + rs1 * 32768 + rs2 * 1048576)]
  | .hwtWait rd rs1 => [w32 (4139 + rd * 128 + rs1 * 32768)]
  | .hwtTest rd rs1 => [w32 (33558571 + rd * 128 + rs1 * 32768)]
  | .hwtCnt rd => [w32 (67113003 + rd * 128)]
  | .hwtCancel rd rs1 => [w32 (100667435 + rd * 128 + rs1 * 32768)]
  | .hodInstruction compressed i => if compressed then [] else [w32 (encodeRv i)]
  | .ecall => [w32 0x73]
  | .ebreak compressed => if compressed then [] else [w32 0x00100073]
  | .reservationExpiry _ _ => []
  | .start _ _ => []
  | .stop _ _ => []
  | .release _ _ => []
  | .launch _ _ => []
  | .task _ _ => []
  | .waitValue _ _ => []
  | .waitValueRecheck _ _ => []
  | .signal _ _ => []
  | .barrier _ _ => []
  | .contextCreate _ _ => []
  | .contextDestroy _ _ => []
  | .resume _ _ => []
  | .teamPlacement _ _ => []
  | .launchEnd _ => []
  | .spawnTimeout _ _ => []
  | .handOverStallFlush _ _ => []
  | .epoch _ => []
  | .spawnTeamStart _ _ _ => []
  | .taskStart _ _ _ => []
  | .taskCommit _ _ => []
  | .preemptionRequest _ _ _ _ _ _ => []
  | .drainBoundExpiry _ _ _ => []
  | .restore _ _ => []
  | .timesliceRotation _ => []
  | .peerUnreachable _ => []
  | .laneFailure _ => []
  | .portFailure _ => []
  | .flitResend _ => []
  | .translationInvalidation _ => []
  | .preEmpt _ _ _ => []
  | .returnToService _ => []
  | .computeReset _ => []
  | .fullReset _ => []
  | .firmwareUpdate _ _ _ => []
  | .firmwareHeartbeat => []
  | .heartbeatTimeout => []
  | .securityWrite _ => []
  | .halt _ => []
  | .freeze _ => []
  | .debugResume _ => []
  | .bpen _ => []
  | .powerGood _ _ => []
  | .throttling _ => []
  | .illegalInstruction _ _ => []
  | .moduleReset => []
  | .comparatorDrift _ => []
  | .hostAccess _ _ _ => []
  | .peerAccess _ _ _ => []
  | .faultRingRptrAdvance _ _ => []
  | .spdmSession _ _ => []
  | .debugAttach _ _ => []

/-! ### The numbering of spec/opcode_table.json -/

/-- The instruction that the decoders read from the bits w of a table row: a word of a hod's custom space first
(R472), then a Spavy instruction, whose words above nbits are zero. -/
def decodeTableWord (nbits w : Nat) : Option Instr :=
  let first := w32 (w % 4294967296)
  match decodeHodCustom first.toNat with
  | some i => some i
  | none =>
    match decodeAt first (w32 (w / 4294967296 % 4294967296) :: List.replicate 128 0) with
    | .ok i _ => if nbits = 0 then none else some i
    | _ => none

end

end Sys2Proof
end

