-- ==== Sys2Proof/Machine/Ending.lean ====
section
/-!
DEFINITION. The end of a group's threads (R104, R363) and the merge of a launch's merge buffers (R228).
-/

namespace Sys2Proof.Machine

/-! ### The end of a group (R104) -/

/-- The open step of a group closes as under `sqend` (R362, R363): at once for the front end, and in the engine's order
as an operation without a sequence number. -/
def State.closeStep (s : State) (core slot : Nat) : State :=
  match s.groups.find (slotKey core slot) with
  | none => s
  | some g =>
    match g.step with
    | none => s
    | some (_, phys, _) =>
      let k := g.cls 3
      let cfg := ((s.seqSlots.find phys).map (·.cfg)).getD default
      let op : Op := ⟨0, .issued, false, none, [], 0, .seqr (.sqend phys cfg), s.nextOrder + 1, s.tick, 0, []⟩
      let g := { g with step := none, classes := g.classes.set 3 { k with ops := k.ops ++ [op] } }
      { s.putGroup core slot g with
        nextOrder := s.nextOrder + 1
        seqSlots := s.seqSlots.modify phys fun q => { q with stepno := (q.stepno + 1) % 65536, openBy := none } }

/-- What a group is after its last thread has ended: no fragment, split entry, wait, park or result on its way. -/
def Group.ended (g : Group) : Group :=
  { g with
    frags := [], ptr := 0, splits := [], spilled := [], loops := [], staging := none, hstaging := none, held := none
    handler := false, marker := false, hmarker := false, park := none, hpark := none, hfault := none, pend := []
    pendingRegs := [], reversal := none, arrived := Map.empty, hawaits := none, late := [], views := []
    overlap := [], due := [], claim := none }

/-- Every thread of a group has ended (R104): its batch is sealed (R307), its step closes, and its slot becomes free
and its log is left once its operations have retired. -/
def State.endGroup (s : State) (core slot : Nat) : State :=
  let s := ((s.finishAll (.group core slot)).sealGroup core slot).closeStep core slot
  match s.groups.find (slotKey core slot) with
  | none => s
  | some g => (s.putGroup core slot g.ended).settle core slot

/-! ### Merge buffers (R226, R228) -/

/-- Writes byte i of a merge item, if its mask has it. -/
def State.mergeByte (s : State) (ctx : Nat) (it : MergeItem) (i : Nat) : State :=
  let b := BitVec.ofNat 8 (it.data.toNat / 2 ^ (8 * i))
  if it.mask / 2 ^ i % 2 = 0 then s
  else
    match it.target with
    | .virt va => (s.writeVirt ctx (va + i) [b]).getD s
    | .place k => s.storeBytes (k + i) [b]
    | .gone => s
    | .member uid off =>
      match s.teams.find uid with
      | some t => s.storeBytes (unitKey t.core (t.base + off + i)) [b]
      | none =>
        { s with saved := s.saved.map fun v =>
          if v.uid = uid then { v with unitBytes := putCell (off + i) b v.unitBytes } else v }

/-- Inserts a merge item after every item of lower or equal LTHREAD. -/
def insertItem (e : MergeItem) : List MergeItem → List MergeItem
  | [] => [e]
  | x :: rest => if e.lthread < x.lthread then e :: x :: rest else x :: insertItem e rest

/-- The merge of a launch's buffers, which it leaves empty: the highest LTHREAD wins each byte, then its newest entry
(R228). -/
def State.mergeLaunch (s : State) (key : Nat) : State :=
  match s.launches.find key with
  | none => s
  | some l =>
    if l.form ≠ 2 then s
    else
      let mine (t : Team) : List MergeItem := if t.launch = key then s.mergeItems t else []
      let items := l.mergeLeft ++ s.teams.values.flatMap mine ++ s.saved.flatMap fun v => mine v.team
      let sorted := items.foldl (fun acc e => insertItem e acc) []
      let s := sorted.foldl (fun s e => (List.range 4).foldl (fun s i => s.mergeByte (key / 2 ^ 20) e i) s) s
      let clear (t : Team) : Team := if t.launch = key then { t with merge := [] } else t
      { s with
        teams := s.teams.mapValues fun _ t => clear t
        saved := s.saved.map fun v => { v with team := clear v.team }
        launches := s.launches.modify key fun l => { l with mergeLeft := [] } }

end Sys2Proof.Machine
end

