-- ==== Sys2Proof/Machine/Barriers.lean ====
section
/-!
DEFINITION. Barriers (R119 to R122, R414): team and cluster barriers, which release at the last arrival or when the
groups still missing end, and package barriers with their phases (R440 to R442).
-/

namespace Sys2Proof.Machine

/-! ### Team and cluster barriers -/

/-- A wait at barrier id of function fn; `bar.t` and `bar.te` on one id are one barrier. -/
def atBarrier (fn id : Nat) : Wait → Bool
  | .barrier f i _ _ _ => (if fn ≤ 1 then decide (f ≤ 1) else f == fn) && i == id
  | _ => false

/-- A fragment's threads have arrived at a barrier: it waits there, or waited there when its handler began (R126). -/
def Fragment.arrivedAt (f : Fragment) (fn id : Nat) : Bool := atBarrier fn id f.wait || atBarrier fn id f.saved

/-- Every thread of the group has reached the barrier, or its handler has (R119, R122). -/
def Group.hasArrived (g : Group) (fn id : Nat) : Bool :=
  !g.frags.isEmpty && ((g.handler && g.frags.any fun f => f.trapping && atBarrier fn id f.wait) ||
    g.frags.all fun f => f.arrivedAt fn id)

/-- What `bar.te` writes when its wait ends: the flag, in a bank, stepped as the loop levels that end there step the
register (R43, R120, R127, R173). -/
def Group.endWait (g : Group) (hb : Bool) (flag : W32) : Wait → Group
  | .barrier 1 _ d active step =>
    if d < 96 then g.writeLanes hb d (fun _ => flag + step) (threadsOf active) else g.writeG hb (d - 96) (flag + step)
  | _ => g

/-- The fragments that wait at a barrier wait no longer, those that run a handler meanwhile included (R126); `bar.te`
receives flag (R120). -/
def Group.passBarrier (g : Group) (fn id : Nat) (flag : W32) : Group :=
  (List.range g.frags.length).foldl (fun g i =>
    match g.frags[i]? with
    | none => g
    | some f =>
      let g := if atBarrier fn id f.wait then g.endWait (g.handler && f.trapping) flag f.wait else g
      let g := if atBarrier fn id f.saved then g.endWait false flag f.saved else g
      g.setFrag i { f with
        wait := if atBarrier fn id f.wait then .none else f.wait
        saved := if atBarrier fn id f.saved then .none else f.saved }) g

/-- Releases barrier id of function fn among the groups of the listed teams if every one that still has threads has
arrived; epilogue names the group whose flag is 1 (R119, R120). -/
def State.tryRelease (s : State) (uids : List Nat) (fn id : Nat) (epilogue : List (Nat × Group) → Nat) : State :=
  let live := s.groups.entries.filter fun e => uids.contains e.2.team && !e.2.frags.isEmpty
  if !live.isEmpty && live.all (fun e => e.2.hasArrived fn id) then
    let epi := epilogue live
    { s with groups := s.groups.mapValues fun k g =>
      if live.any fun e => e.1 = k then g.passBarrier fn id (if k = epi then 1 else 0) else g }
  else s

/-- The epilogue group (R120): the highest GROUP_IX with FORM non-zero, else the group that arrived last. It stays that one where it has
ended before the missing groups did, and then no live group gets 1: a DESIGN CHOICE (notes/assumptions/35.md). -/
def epilogueOf (form : Nat) (last : Option Nat) (live : List (Nat × Group)) : Nat :=
  let top := live.foldl (fun best e => if best.2.gix ≤ e.2.gix then e else best) (live.headD default)
  match form, last with
  | 0, some k => k
  | _, _ => top.1

/-- Evaluates barrier id of function fn of a team. -/
def State.evalBarrier (s : State) (uid : Nat) (t : Team) (fn id : Nat) : State :=
  if fn ≤ 1 then
    let form := ((s.launches.find t.launch).map (·.form)).getD 0
    s.tryRelease [uid] fn id (epilogueOf form (((s.teams.find uid).bind fun t => t.lastArrival.find id).map (slotKey t.core)))
  else s.tryRelease (if fn = 2 then t.ownHalf else t.ownHalf ++ t.otherHalf) fn id fun _ => 0

/-- Evaluates every barrier that the end of threads of a team may complete (R119). -/
def State.evalBarriers (s : State) (uid : Nat) (t : Team) : State :=
  let s := (List.range 4).foldl (fun s id => s.evalBarrier uid t 0 id) s
  (List.range 2).foldl (fun s id => (s.evalBarrier uid t 2 id).evalBarrier uid t 3 id) s

/-- Fragment i of a group begins to wait. -/
def Group.waitFor (g : Group) (i : Nat) (w : Wait) : Group :=
  match g.frags[i]? with
  | none => g
  | some f => g.setFrag i { f with wait := w }

/-- A barrier instruction of function fn: in a spawn team `bar.t` and `bar.te` complete at once and the others are
illegal (R414). -/
def barrierAt (m : Bool) (fn id d : Nat) (s : State) : Out :=
  onFrag s fun x =>
    if x.team.kind = 1 then
      if 2 ≤ fn then x.illegal s 0
      else x.done s (if fn = 1 then x.writeUni x.g d 1 else x.g) m 1
    else
      let step := if x.f.looping && !x.g.handler then x.g.stepsOf d (x.f.pc + 4) x.g.loops else 0
      let g := (x.g.advance x.frag m 1).waitFor x.frag (.barrier fn id d x.f.k0 step)
      let s := x.put s g
      let s :=
        if fn ≤ 1 && g.hasArrived fn id then
          s.modTeam x.g.team fun t => { t with lastArrival := t.lastArrival.set id x.slot }
        else s
      .next (s.evalBarrier x.g.team x.team fn id)

/-- bar.t (R119). -/
def execBarT (m : Bool) (id : Nat) (s : State) : Out := barrierAt m 0 id 0 s
/-- bar.te (R119, R120). -/
def execBarTe (m : Bool) (d id : Nat) (s : State) : Out := barrierAt m 1 id d s
/-- bar.c (R119). -/
def execBarC (m : Bool) (id : Nat) (s : State) : Out := barrierAt m 2 id 0 s
/-- bar.cx (R119). -/
def execBarCx (m : Bool) (id : Nat) (s : State) : Out := barrierAt m 3 id 0 s

/-! ### Package barriers (R121, R440 to R442) -/

/-- A package barrier of a launch. -/
def Launch.barrier (l : Launch) (id : Nat) : PackageBarrier := l.barriers.get id ⟨0, false⟩
/-- A phase has not been passed: it is up to 2^15 ahead of the counter (R121). -/
def phaseWaits (counter phase : Nat) : Bool := decide ((phase + 65536 - counter) % 65536 ≤ 32768)
/-- Identifiers of the plumb tree that are bound (R440). -/
def State.plumbsBound (s : State) : Nat :=
  (s.launches.values.flatMap fun l => l.barriers.values.filter (·.bound)).length
/-- Binds a package barrier of a launch, unless all 64 identifiers are bound (R440). -/
def State.bindBarrier (s : State) (key id : Nat) : Option State :=
  match s.launches.find key with
  | none => none
  | some l =>
    if (l.barrier id).bound then some s
    else if 64 ≤ s.plumbsBound then none
    else some { s with launches := s.launches.set key { l with barriers := l.barriers.set id { l.barrier id with bound := true } } }

/-- Registers that the fragment's threads have reached package barrier id; a handler brings its whole group (R119,
R122). -/
def Ctx.reach (x : Ctx) (g : Group) (id : Nat) : Group :=
  let brought : Mask := if g.handler then -1 else x.f.threads
  { g with arrived := g.arrived.setZ id (g.arrived.getZ id ||| brought) }

/-- Completes `bar.p` (fn 4) or `wait.p` (fn 6), and waits for a package barrier to pass a phase if it has not (R121). -/
def Ctx.awaitPhase (x : Ctx) (s : State) (g : Group) (m : Bool) (fn id phase : Nat) : Out :=
  let g := g.advance x.frag m 1
  .next (x.put s (if phaseWaits (x.launch.barrier id).phase phase then g.waitFor x.frag (.phase fn id phase) else g))

/-- bar.p: `arrive.p` and then `wait.p` on its own token (R121). -/
def execBarP (m : Bool) (id : Nat) (s : State) : Out :=
  onFrag s fun x =>
    if x.team.kind ≠ 0 then x.illegal s 0
    else
      match s.bindBarrier x.team.launch id with
      | none => .next s
      | some s' => x.awaitPhase s' (x.reach x.g id) m 4 id (x.launch.barrier id).phase

/-- arrive.p: the token is the phase joined and the id (R121). -/
def execArriveP (m : Bool) (d id : Nat) (s : State) : Out :=
  onFrag s fun x =>
    if x.team.kind ≠ 0 then x.illegal s 0
    else
      match s.bindBarrier x.team.launch id with
      | none => .next s
      | some s' =>
        x.done s' (x.writeUni (x.reach x.g id) d (BitVec.ofNat 32 ((x.launch.barrier id).phase * 65536 + id))) m 1

/-- wait.p (R121). -/
def execWaitP (m : Bool) (a : Nat) (s : State) : Out :=
  onFrag s fun x =>
    if x.team.kind ≠ 0 then x.illegal s 0
    else if x.waitsOn [a] then .next s
    else
      let token := (x.uni a).toNat
      if token / 8 % 8192 ≠ 0 then x.illegal s (x.uni a)
      else x.awaitPhase s x.g m 6 (token % 8) (token / 65536)

/-- A wait once the counter of package barrier id has risen to a phase: over, if that passes what it waited for. -/
def Wait.atPhase (id counter : Nat) (w : Wait) : Wait :=
  match w with
  | .phase _ i p => if i = id ∧ !phaseWaits counter p then .none else w
  | _ => w
/-- A group of the launch once package barrier id has released: its arrivals are forgotten, and waits end (R121, R126). -/
def Group.passPhase (g : Group) (id counter : Nat) : Group :=
  { g with
    arrived := g.arrived.erase id
    frags := g.frags.map fun f => { f with wait := f.wait.atPhase id counter, saved := f.saved.atPhase id counter } }

/-- A group has no thread that has not reached package barrier id. -/
def Group.reached (g : Group) (id : Nat) : Bool :=
  g.frags.all fun f => f.threads &&& ~~~(g.arrived.getZ id) == 0

/-- Every thread of a group waits at package barrier id or has ended. -/
def Group.waitsAt (g : Group) (id : Nat) : Bool :=
  let waits (w : Wait) : Bool := match w with
    | .phase _ i _ => i == id
    | _ => false
  g.frags.all fun f => waits f.wait || waits f.saved

/-- Grid team ix of a launch counts as arrived at package barrier id: it has ended, or every group of it that has
threads has arrived, on its core, or was saved while it waited there (R119, R441). -/
def State.teamReached (s : State) (key : Nat) (l : Launch) (id ix : Nat) : Bool :=
  l.ended.contains ix ||
    (s.teams.entries.any fun e => e.2.launch = key && e.2.kind = 0 && e.2.teamIx = ix &&
      s.groups.values.all fun g => g.team != e.1 || g.reached id) ||
    (s.saved.any fun v => v.team.launch = key && v.team.kind = 0 && v.team.teamIx = ix &&
      v.groups.all fun g => g.reached id && g.waitsAt id)

/-- PACKAGE_BARRIER_RELEASE (R119, R228, R442): once every grid team has arrived, the merge, and then the phase rises and
the next arrivals join a new one. -/
def execPackageBarrierRelease (key id : Nat) (s : State) : Out :=
  match s.launches.find key with
  | none => .next s
  | some l =>
    let own (g : Group) : Bool := ((s.teams.find g.team).map fun t => t.launch = key && t.kind = 0).getD false
    let some_ := (s.groups.values.any fun g => own g && g.arrived.getZ id != 0) ||
      s.saved.any fun v => v.team.launch = key && v.groups.any fun g => g.arrived.getZ id != 0
    if (l.barrier id).bound && l.ending = none && some_ &&
        (List.range (l.gridx * l.gridy)).all (s.teamReached key l id) then
      let s := s.mergeLaunch key
      let counter := ((l.barrier id).phase + 1) % 65536
      .next { s with
        groups := s.groups.mapValues fun _ g => if own g then g.passPhase id counter else g
        saved := s.saved.map fun v => if v.team.launch = key then { v with groups := v.groups.map (·.passPhase id counter) } else v
        launches := s.launches.modify key fun l =>
          { l with barriers := l.barriers.set id { l.barrier id with phase := counter } } }
    else .next s

end Sys2Proof.Machine
end

