-- ==== Sys2Proof/Machine/HandOver.lean ====
section
/-!
DEFINITION. Handing records to the pallet former (R105, R106, R413, R415), and `spwn` and `spwnf` (R416).
-/

namespace Sys2Proof.Machine

/-! ### Targets of control transfers (R52) -/

/-- A byte offset names an untagged word of the code section. -/
def Image.holds (im : Image) (target : Nat) : Bool :=
  target % 4 == 0 && decide (target / 4 < im.code.length) && !im.tagged.contains (target / 4)
/-- The byte offset n words from the current instruction; no step of it wraps (R9, R59). -/
def Ctx.offset (x : Ctx) (n : Int) : Int := (x.f.pc.toNat : Int) + 4 * n
/-- A byte offset is a legal target (R52). -/
def Ctx.reaches (x : Ctx) (target : Int) : Bool := decide (0 ≤ target) && x.launch.image.holds target.toNat
/-- The fragment is inside a loop body (R111). -/
def Ctx.inBody (x : Ctx) : Bool := x.f.looping && !x.g.handler

/-! ### Bins (R413) -/

/-- Bins of a die that hold records, or whose group waits for a spawn team. -/
def State.binsUsed (s : State) (die : Nat) : Nat :=
  (s.bins.filter fun b => b.1 = die).length +
    (s.formed.filter fun f => f.1 = die ∧ (s.launches.find f.2.launch).any fun l => l.form = 0).length

/-- Bin number i forms its group (R413, R414). -/
def State.formBin (s : State) (i : Nat) : State :=
  match s.bins[i]? with
  | none => s
  | some (die, b) =>
    match s.launches.find b.launch with
    | none => { s with bins := s.bins.eraseIdx i }
    | some l =>
      { s with
        bins := s.bins.eraseIdx i
        formed := s.formed ++ [(die, ⟨b.launch, b.entry, b.recs, l.formIx⟩)]
        launches := s.launches.set b.launch { l with formIx := l.formIx + 1 } }

/-- What happens to a record that is handed over. -/
inductive Handed
  /-- The former cannot accept it. -/
  | stalls
  | accepted (s : State)
  /-- The launch ends (R415). -/
  | over (s : State)
deriving DecidableEq, Repr, Inhabited

/-- Ends a launch with STATUS 8 (R401, R415). -/
def State.spawnLimit (s : State) (key detail : Nat) : State := s.endLaunchWith key ⟨8, detail, -1, 0, 0, 0⟩

/-- Hands one record over: discarded once the context's generation has passed (R404, R405), into a bin of the die, or
with FORM non-zero into the spawn buffer, whose bytes the spec leaves open. -/
def State.handRecord (s : State) (die key : Nat) (r : Rec) : Handed :=
  match s.launches.find key with
  | none => .accepted s
  | some l =>
    let ctx := key / 2 ^ 20
    if (s.context ctx).gen ≠ l.gen then
      .accepted { s with contexts := s.contexts.modify ctx fun c => { c with discarded := c.discarded + 1 } }
    else if l.form ≠ 0 then
      if l.spbufn ≤ l.spheld.length then .over (s.spawnLimit key 1)
      else
        let n := l.spheld.length
        let s := { s with launches := s.launches.set key { l with spheld := l.spheld ++ [r] } }
        .accepted ((s.writeVirt ctx (l.spbuf.toNat + 64 * n) ((List.range 64).map fun i => Config.freeByte s.tick (64 * n + i))).getD s)
    else
      match s.bins.findIdx? fun b => b.1 = die ∧ b.2.launch = key ∧ b.2.entry = r.entry with
      | some i =>
        let s := { s with bins := s.bins.modify i fun b => (b.1, { b.2 with recs := b.2.recs ++ [r] }) }
        .accepted (if (s.bins[i]?.map fun b => b.2.recs.length) = some 64 then s.formBin i else s)
      | none =>
        if 64 ≤ s.binsUsed die then .stalls else .accepted { s with bins := s.bins ++ [(die, ⟨key, r.entry, [r]⟩)] }

/-- Hands over the records of the listed threads in order, counting each in SPCNT (R106, R415, R416): the state, the
group, the threads handed over, and whether all were; none if the launch ended. -/
def Ctx.handAll (x : Ctx) (entry : W32) (regs : Nat → List W32) : List Nat → Group → Mask → State → State × Option (Group × Mask × Bool)
  | [], g, done, s => (s, some (g, done, true))
  | t :: rest, g, done, s =>
    match s.handRecord x.die x.team.launch ⟨entry, regs t, x.lthread t, (g.spcnt.getZ t).toNat⟩ with
    | .stalls => (s, some (g, done, false))
    | .over s' => (s', none)
    | .accepted s' =>
      x.handAll entry regs rest { g with spcnt := g.spcnt.setZ t (g.spcnt.getZ t + 1) } (done ||| BitVec.twoPow 64 t) s'

/-- The threads that an instruction hands over: those of its first issue once it has handed a record over (R105, R106). -/
def Ctx.handing (x : Ctx) (threads : Mask) : Mask := if x.f.handed = 0 then threads else x.f.handing
/-- Hands over what the given threads have not handed over yet; a stall keeps count, and fin goes on when all are. -/
def Ctx.handOver (x : Ctx) (s : State) (threads : Mask) (entry : W32) (regs : Nat → List W32)
    (fin : State → Group → Out) : Out :=
  match x.handAll entry regs (threadsOf (threads &&& ~~~x.f.handed)) x.g x.f.handed s with
  | (s', none) => .next s'
  | (s', some (g, done, false)) => .next (x.put s' (g.setFrag x.frag { x.f with handed := done, handing := threads, handAt := x.f.pc }))
  | (s', some (g, _, true)) => fin s' (g.setFrag x.frag { x.f with handed := 0, handing := 0, handAt := 0 })

/-- spwn (R416). -/
def execSpwn (m : Bool) (f n : Nat) (entry : W32) (s : State) : Out :=
  onFrag s fun x =>
    if !x.launch.image.holds entry.toNat || x.g.handler || x.inBody || x.launch.kernel.spawnPool == 0 then
      x.illegal s entry
    else
      x.handOver s (x.handing x.f.k0) entry (fun t => (List.range n).map fun j => x.lane (f + j) t) fun s g => x.done s g m 2

/-- spwnf: the bins of the launch on the die with this entry, or all of them, form at once (R413, R416). -/
def execSpwnf (m : Bool) (entry : W32) (s : State) : Out :=
  onFrag s fun x =>
    let every := entry = 0xFFFFFFFC
    if x.g.handler || x.inBody || x.launch.kernel.spawnPool == 0 ||
        (!every && decide (x.launch.image.code.length ≤ entry.toNat / 4)) then
      x.illegal s entry
    else if x.launch.form ≠ 0 then x.done s x.g m 2
    else
      let named (b : Nat × Bin) : Bool := b.1 = x.die && b.2.launch = x.team.launch && (every || b.2.entry = entry)
      let s' := (List.range s.bins.length).foldl (fun s _ =>
        match s.bins.findIdx? named with
        | some i => s.formBin i
        | none => s) s
      x.done s' x.g m 2

end Sys2Proof.Machine
end

