-- ==== Sys2Proof/Machine/Splits.lean ====
section
/-!
DEFINITION. The split table (R88 to R96): entries and their spill area, release, fusion at joins, and the end of
threads (R102). An instruction works on a tentative state, which stands only if no spill access is denied (R92).
-/

namespace Sys2Proof.Machine

/-! ### Tentative work -/

/-- The state and group an instruction is making, and the spilled entries whose MASK it has changed. -/
structure Work where
  s : State
  g : Group
  dirty : List Nat
deriving DecidableEq, Repr, Inhabited

/-- Work, or the spill access that is denied, with its ACCESS code. -/
abbrev Try := Except (Nat × Denied)

/-- Every live entry, resident or spilled. -/
def Group.entries (g : Group) : List Split := g.splits ++ g.spilled.map (·.2)
/-- The live entry of a number. -/
def Group.entry (g : Group) (num : Nat) : Option Split := g.entries.find? fun e => e.num = num
/-- A fragment's innermost entry. -/
def Group.innerOf (g : Group) (f : Fragment) : Option Split := f.inner.bind g.entry

/-! ### The spill area (R91, R92, R407) -/

/-- The address of a spill slot of the group. -/
def Ctx.spillAddress (x : Ctx) (slot : Nat) : Nat :=
  x.launch.spill.toNat + (x.team.teamIx * x.launch.kernel.groups + x.g.gix) * 47 * 32 + 32 * slot

/-- The places of n bytes of a global access of the group by the front end, or its denial by R190 and R492. -/
def Ctx.spillPlaces (x : Ctx) (s : State) (a : Access) (va n : Nat) : Try (List Nat) :=
  if 2 ^ 55 < va + n then .error (a.code, ⟨1, 10, 3, 0, va, 0⟩)
  else
    match s.resolve x.ctxNum a (s.secureBy x.core storeEngine x.ctxNum) 0 (partsOf n) va n with
    | .error (.world w) => .error (a.code, ⟨5, 10, 5, 0, w, 0⟩)
    | .error (.page kind level w addr) =>
      if kind = 5 ∨ (s.context x.ctxNum).faultRing = 0 then .error (a.code, ⟨3, 4, kind, level, w, addr⟩)
      else .error (a.code, ⟨4, 0, kind, level, w, addr⟩)
    | .ok ps =>
      match ps.findSome? fun p => s.lostSite p.2 with
      | some site => .error (a.code, ⟨7, 7, site, 0, va, 0⟩)
      | none => .ok (ps.map (·.1))

/-- The 32 bytes of a spilled entry (R91). -/
def Split.bytes (e : Split) : List Byte :=
  leBytes 16 e.mask.toNat ++ leBytes 4 e.takenPc.toNat ++ leBytes 4 e.fallPc.toNat ++ leBytes 4 e.reconvPc.toNat ++
    leBytes 2 e.num ++ leBytes 2 (e.parent.getD 0xFFFF)
/-- The entry that 32 bytes hold, in the place of e in age. -/
def Split.ofBytes (b : List Byte) (e : Split) : Split :=
  { mask := BitVec.ofNat 64 (field b 0 8), takenPc := BitVec.ofNat 32 (field b 16 4)
    fallPc := BitVec.ofNat 32 (field b 20 4), reconvPc := BitVec.ofNat 32 (field b 24 4), num := field b 28 2
    parent := if field b 30 2 = 0xFFFF then none else some (field b 30 2), age := e.age }

/-- Writes bytes of a spill slot. -/
def Ctx.writeSpill (x : Ctx) (w : Work) (slot : Nat) (bytes : List Byte) : Try Work := do
  let ps ← x.spillPlaces w.s .write (x.spillAddress slot) bytes.length
  return { w with s := w.s.scatter (ps.zip bytes) }

/-- Of entries, the one created first. -/
def oldestOf : List Split → Option Split
  | [] => none
  | e :: rest => some (rest.foldl (fun a b => if b.age < a.age then b else a) e)

/-- Spills the oldest resident entry to the lowest free slot (R91). -/
def Ctx.spillOldest (x : Ctx) (w : Work) : Try Work :=
  match oldestOf w.g.splits with
  | none => .ok w
  | some e =>
    let slot := ((List.range 64).find? fun j => !w.g.spilled.any fun p => p.1 = j).getD 0
    do
      let w ← x.writeSpill w slot e.bytes
      return { w with g := { w.g with splits := w.g.splits.filter (·.num ≠ e.num), spilled := w.g.spilled ++ [(slot, e)] } }

/-- Reads spilled entry number i of the spill order back (R91); a MASK that this instruction has changed is current in
the front end. The PARENT is the one in the slot (notes/assumptions/16.md). -/
def Ctx.refill (x : Ctx) (w : Work) (i : Nat) : Try Work :=
  match w.g.spilled[i]? with
  | none => .ok w
  | some (slot, e) => do
    let ps ← x.spillPlaces w.s .read (x.spillAddress slot) 32
    let e' := Split.ofBytes (w.s.gather ps) e
    let e' := if w.dirty.contains e.num then { e' with mask := e.mask } else e'
    return { w with g := { w.g with splits := w.g.splits ++ [e'], spilled := w.g.spilled.eraseIdx i } }

/-- Brings a spilled entry back before a join acts on it, spilling the oldest resident entry if no place is free. DESIGN CHOICE
(notes/assumptions/16.md): that spill may reuse the slot that the bring-back has freed. -/
def Ctx.bringBack (x : Ctx) (w : Work) (num : Nat) : Try Work :=
  match w.g.spilled.findIdx? fun p => p.2.num = num with
  | none => .ok w
  | some i => do
    let w ← x.refill w i
    if 16 < w.g.splits.length then
      let mine := w.g.splits.filter (·.num = num)
      let w ← x.spillOldest { w with g := { w.g with splits := w.g.splits.filter (·.num ≠ num) } }
      return { w with g := { w.g with splits := w.g.splits ++ mine } }
    else return w

/-! ### Release (R89) -/

/-- Takes an entry out of the table: what named it names its parent. DESIGN CHOICE (notes/assumptions/16.md): so do the entries
nested in it, the younger one of a merge (R95) among them, whose parent here is the older; the PARENT in the slot of a
spilled entry stays as written. -/
def Group.dropEntry (g : Group) (e : Split) : Group :=
  let up (p : Option Nat) : Option Nat := if p = some e.num then e.parent else p
  { g with
    frags := g.frags.map fun f => { f with inner := up f.inner }
    splits := (g.splits.filter (·.num ≠ e.num)).map fun q => { q with parent := up q.parent }
    spilled := (g.spilled.filter (·.2.num ≠ e.num)).map fun q => (q.1, { q.2 with parent := up q.2.parent }) }

/-- Releases an entry; a place that becomes free takes the most recently spilled entry (R91). -/
def Ctx.release (x : Ctx) (w : Work) (e : Split) : Try Work :=
  let resident := w.g.splits.any (·.num = e.num)
  let w := { w with g := w.g.dropEntry e }
  if resident && !w.g.spilled.isEmpty then x.refill w (w.g.spilled.length - 1) else .ok w

/-- An entry that R89 releases at once: it has no thread left, or one fragment that names it holds them all. -/
def Group.releasable (g : Group) (e : Split) : Bool :=
  e.mask == 0 || g.frags.any fun f => f.inner == some e.num && e.mask &&& ~~~f.threads == 0

/-- Releases every entry that R89 releases. -/
def Ctx.releaseAll (x : Ctx) : Nat → Work → Try Work
  | 0, w => .ok w
  | n + 1, w =>
    match w.g.entries.find? w.g.releasable with
    | none => .ok w
    | some e => do
      let w ← x.release w e
      x.releaseAll n w

/-! ### Joins (R93 to R96) -/

/-- The fragment waits at a join. -/
def Fragment.joins (f : Fragment) : Bool :=
  match f.wait with
  | .join _ => true
  | _ => false
/-- The fragment waits at a `joinl`. -/
def Fragment.joinsLateral (f : Fragment) : Bool := f.wait == .join true

/-- Removes fragment i from the order of creation; the pointer keeps its place. -/
def Group.removeFrag (g : Group) (i : Nat) : Group :=
  let frags := g.frags.eraseIdx i
  let ptr := if i < g.ptr then g.ptr - 1 else g.ptr
  { g with frags := frags, ptr := if frags.length ≤ ptr then 0 else ptr }

/-- The instruction a fragment waits at is a join that no longer concerns it. -/
def Group.joinDone (g : Group) (f : Fragment) : Bool :=
  f.joins && !(g.innerOf f).any fun e => e.reconvPc = f.pc

/-- Two fragments at a `joinl` whose entries merge (R95): the older and the younger entry. -/
def Group.lateralPair (g : Group) : Option (Split × Split) :=
  let waiting := (g.frags.filter (·.joinsLateral)).filterMap fun f =>
    match g.innerOf f with
    | some e => if e.reconvPc = f.pc then some e else none
    | none => none
  waiting.findSome? fun a => waiting.findSome? fun b =>
    if a.num ≠ b.num ∧ a.reconvPc = b.reconvPc ∧ a.parent = b.parent ∧ a.age < b.age then some (a, b) else none

/-- The members that fuse with fragment f: every remaining thread of its entry lies in them (R93). -/
def Group.fusible (g : Group) (f : Fragment) : Option (Split × List Nat) :=
  match g.innerOf f with
  | none => none
  | some e =>
    let member (h : Fragment) : Bool := h.joins && h.pc == f.pc && h.inner == some e.num
    let ixs := (List.range g.frags.length).filter fun i => (g.frags[i]?.map member).getD false
    let have_ := ixs.foldl (fun m i => m ||| ((g.frags[i]?.map (·.threads)).getD 0)) (0 : Mask)
    if f.joins && e.reconvPc == f.pc && e.mask &&& ~~~have_ == 0 then some (e, ixs) else none

/-- The members become one fragment in the place of the oldest (R93). -/
def Group.fuse (g : Group) (e : Split) (ixs : List Nat) : Group :=
  match ixs with
  | [] => g
  | first :: rest =>
    let k0 := ixs.foldl (fun m i => m ||| ((g.frags[i]?.map (·.k0)).getD 0)) (0 : Mask)
    match g.frags[first]? with
    | none => g
    | some f =>
      rest.reverse.foldl Group.removeFrag (g.setFrag first { f with threads := e.mask, k0 := k0 &&& e.mask, inner := e.parent })

/-- Evaluates the joins that fragments wait at, until nothing changes (R89, R93, R95). DESIGN CHOICE (notes/assumptions/16.md): a
merge of R95 takes an entry that was spilled again while its fragment waited where it lies, without bringing it back. -/
def Ctx.evalJoins (x : Ctx) : Nat → Work → Try Work
  | 0, w => .ok w
  | n + 1, w =>
    match w.g.frags.findIdx? w.g.joinDone with
    | some i =>
      match w.g.frags[i]? with
      | some f => x.evalJoins n { w with g := (w.g.setFrag i { f with wait := .none }).goto i (f.pc + 4) }
      | none => .ok w
    | none =>
      match (if x.launch.form = 0 then w.g.lateralPair else none) with
      | some (a, b) => do
        let grow (e : Split) : Split := if e.num = a.num then { e with mask := e.mask ||| b.mask } else e
        let g := { w.g with splits := w.g.splits.map grow, spilled := w.g.spilled.map fun (p : Nat × Split) => (p.1, grow p.2) }
        let dirty := if g.spilled.any (·.2.num = a.num) then a.num :: w.dirty else w.dirty
        let w ← x.release { w with g := g, dirty := dirty } { b with parent := some a.num }
        let w ← x.releaseAll 64 w
        x.evalJoins n w
      | none =>
        match w.g.frags.findSome? w.g.fusible with
        | none => .ok w
        | some (e, ixs) => do
          let w ← x.bringBack w e.num
          let w ← x.release { w with g := w.g.fuse e ixs } e
          let w ← x.releaseAll 64 w
          x.evalJoins n w

/-! ### The end of threads (R102) -/

/-- The spilled entries whose MASK changed and that stay spilled get it rewritten in their slots (R91). -/
def Ctx.rewriteMasks (x : Ctx) (w : Work) : Try Work :=
  w.g.spilled.foldlM (fun (w : Work) (p : Nat × Split) =>
    if w.dirty.contains p.2.num then x.writeSpill w p.1 (leBytes 16 p.2.mask.toNat) else .ok w) w

/-- Ends the threads of A, of the issuing fragment, which goes on after n words with every thread it has left (R89,
R93, R102). -/
def Ctx.endThreads (x : Ctx) (s : State) (g : Group) (A : Mask) (n : Nat) : Try Work := do
  let F := x.f.threads &&& ~~~A
  let cut (e : Split) : Split := { e with mask := e.mask &&& ~~~A }
  let dirty := (g.spilled.filter fun (p : Nat × Split) => p.2.mask &&& A != 0).map (·.2.num)
  let g := { g with splits := g.splits.map cut, spilled := g.spilled.map fun (p : Nat × Split) => (p.1, cut p.2) }
  let g :=
    match g.frags[x.frag]? with
    | none => g
    | some f =>
      if F = 0 then g.removeFrag x.frag
      else (g.setFrag x.frag { f with threads := F, k0 := F }).goto x.frag (f.pc + BitVec.ofNat 32 (4 * n))
  let w ← x.releaseAll 64 ⟨s, g, dirty⟩
  let w ← x.evalJoins 256 w
  x.rewriteMasks w

/-- A denied spill access parks the group or traps, with ACC 3 and THREAD 0xFF, and nothing has taken effect (R92). -/
def Ctx.spillDenied (x : Ctx) (s : State) (e : Nat × Denied) : Out :=
  if e.2.cause = 0 then x.parkFault s 2 e.1 3 0xFF e.2
  else if e.2.cause = 7 then x.trap s 7 (machineCheckInfo e.2.kind 0xFF)
  else x.trap s e.2.cause (accessInfo 3 (if e.2.cause = 4 then e.2.level else 0) e.2.kind 0xFF)

/-- After threads have ended: the group ends if none is left, and barriers are evaluated again (R102 to R104, R119). -/
def Ctx.afterEnd (x : Ctx) (s : State) (g : Group) (m : Bool) : Out :=
  let s := x.put s (g.park62 m)
  let s := if g.frags.isEmpty then s.endGroup x.core x.slot else s
  let arrived := (List.range 4).filter fun id => g.hasArrived 0 id
  let s := s.modTeam x.g.team fun t =>
    { t with lastArrival := arrived.foldl (fun l id => l.set id x.slot) t.lastArrival }
  .next (s.evalBarriers x.g.team x.team)

end Sys2Proof.Machine
end

