-- ==== Sys2Proof/Machine/Control.lean ====
section
/-!
DEFINITION. The NOP major (R87), branches, calls and returns (R100, R101), divergent branches and joins (R90, R93, R95),
the end of threads (R102, R103), dispersal (R105) and the loop buffer (R108 to R111, R173).
-/

namespace Sys2Proof.Machine

/-! ### The NOP major (R87) -/

/-- nop. -/
def execNop (m : Bool) (s : State) : Out := onFrag s fun x => x.done s x.g m 1
/-- yield: the pointer of R86 has moved on already, so another ready fragment issues first. -/
def execYield (m : Bool) (s : State) : Out := onFrag s fun x => x.done s x.g m 1
/-- pause: the fragment does not issue until PAUSE_EXPIRY. -/
def execPause (m : Bool) (s : State) : Out :=
  onFrag s fun x =>
    let g := x.g.advance x.frag m 1
    match g.frags[x.frag]? with
    | none => .next s
    | some f => .next (x.put s (g.setFrag x.frag { f with wait := .paused }))
/-- PAUSE_EXPIRY: the 32 a-cycles of a `pause` are over. -/
def execPauseExpiry (core slot frag : Nat) (s : State) : Out :=
  match s.groups.find (slotKey core slot) with
  | none => .next s
  | some g =>
    match g.frags[frag]? with
    | none => .next s
    | some f =>
      if f.wait = .paused then .next (s.putGroup core slot (g.setFrag frag { f with wait := .none })) else .next s

/-! ### Branches, calls and returns (R100, R101) -/

/-- A byte offset in the 32 bits of a PC and of TRAPINFO1, which hold every legal target. -/
def asPc (target : Int) : W32 := BitVec.ofInt 32 target
/-- The current instruction's address after n words. -/
def Ctx.after (x : Ctx) (n : Nat) : W32 := x.f.pc + BitVec.ofNat 32 (4 * n)
/-- Moves the fragment to pc, with the marker m. -/
def Ctx.moveTo (x : Ctx) (s : State) (g : Group) (m : Bool) (pc : W32) : Out := .next (x.put s (g.move x.frag m pc))
/-- Transfers control to a target, which must be legal (R52). -/
def Ctx.transfer (x : Ctx) (s : State) (g : Group) (m : Bool) (target : Int) : Out :=
  if x.reaches target then x.moveTo s g m (asPc target) else x.illegal s (asPc target)
/-- The trap of a control transfer that is illegal whatever its target: TRAPINFO1 is the target if that is illegal too, else
0 (R53, R111). -/
def Ctx.noTransfer (x : Ctx) (s : State) (target : Int) : Out :=
  x.illegal s (if x.reaches target then 0 else asPc target)

/-- A condition of `brc` and `lbrk` (R101). -/
def Ctx.condHolds (x : Ctx) (c : BranchCond) (r : Nat) : Bool :=
  let v := (x.uni r).toInt
  let k := x.mask r
  match c with
  | .eqz => v == 0
  | .nez => v != 0
  | .ltz => decide (v < 0)
  | .gez => decide (0 ≤ v)
  | .gtz => decide (0 < v)
  | .lez => decide (v ≤ 0)
  | .kall => x.f.k0 &&& ~~~k == 0
  | .kany => x.f.k0 &&& k != 0
/-- Registers that a condition reads. -/
def condRegs (c : BranchCond) (r : Nat) : List Nat :=
  match c with
  | .kall | .kany => []
  | _ => [r]

/-- bra (R100). -/
def execBra (m : Bool) (o : BitVec 24) (s : State) : Out :=
  onFrag s fun x =>
    let target := x.offset o.toInt
    if x.inBody then x.noTransfer s target else x.transfer s x.g m target
/-- brc (R100, R101): outside a loop body the target counts only if the transfer is made. -/
def execBrc (m : Bool) (c : BranchCond) (r : Nat) (o : BitVec 14) (s : State) : Out :=
  onFrag s fun x =>
    let target := x.offset o.toInt
    if x.inBody then x.noTransfer s target
    else if x.waitsOn (condRegs c r) then .next s
    else if x.condHolds c r then x.transfer s x.g m target
    else x.done s x.g m 1
/-- call (R100): g30 holds the return address. -/
def execCall (m : Bool) (o : BitVec 24) (s : State) : Out :=
  onFrag s fun x =>
    let target := x.offset o.toInt
    if x.inBody then x.noTransfer s target
    else x.transfer s (x.g.writeG x.g.handler 30 (x.after 1)) m target
/-- ret (R100). -/
def execRet (m : Bool) (s : State) : Out :=
  onFrag s fun x =>
    if x.waitsOn [126] then .next s
    else if x.inBody then x.noTransfer s (x.uni 126).toNat
    else x.transfer s x.g m (x.uni 126).toNat
/-- A table transfer (R100): link says that g30 receives the address after the table. -/
def tableTransfer (m link : Bool) (a : Nat) (table : List W32) (s : State) : Out :=
  onFrag s fun x =>
    if x.waitsOn [a] then .next s
    else
      let next := x.after (1 + table.length)
      let g := if link then x.g.writeG x.g.handler 30 next else x.g
      match table[(x.uni a).toNat]? with
      | some o => if x.inBody then x.noTransfer s (x.offset o.toInt) else x.transfer s g m (x.offset o.toInt)
      | none => if x.inBody then x.illegal s 0 else x.moveTo s g m next
/-- jmpt (R100). -/
def execJmpt (m : Bool) (a : Nat) (table : List W32) (s : State) : Out := tableTransfer m false a table s
/-- callt (R100). -/
def execCallt (m : Bool) (a : Nat) (table : List W32) (s : State) : Out := tableTransfer m true a table s

/-! ### Divergence and joins (R88 to R95) -/

/-- The next free instance number at or after n (R88). -/
def Group.freeNumber (g : Group) : Nat → Nat → Nat
  | 0, n => n
  | fuel + 1, n =>
    let n := if 0xFFFE < n then 0 else n
    if g.entries.any (·.num = n) then g.freeNumber fuel (n + 1) else n

/-- Adds an entry for a split of the fragment, spilling the oldest resident entry first if 16 are live (R88, R91); the
answer is its number. -/
def Ctx.newEntry (x : Ctx) (s : State) (taken fall reconv : W32) : Try (Work × Nat) := do
  let w : Work := ⟨s, x.g, []⟩
  let w ← if 16 ≤ w.g.splits.length then x.spillOldest w else .ok w
  let num := w.g.freeNumber 128 w.g.nextSplit
  let age := w.g.entries.foldl (fun a e => max a (e.age + 1)) 0
  let e : Split := ⟨x.f.threads, taken, fall, reconv, num, x.f.inner, age⟩
  return ({ w with g := { w.g with splits := w.g.splits ++ [e], nextSplit := num + 1 } }, num)

/-- The fragment divides: T goes to taken, the rest stays on the fall side with mask N, and the taken fragment comes
right after it in order of creation (R90); the pointer keeps naming the fragment that followed it (R86). -/
def Group.divide (g : Group) (i : Nat) (f : Fragment) (T N : Mask) (taken fall : W32) (num : Nat) : Group :=
  let fallF := { f with threads := f.threads &&& ~~~T, k0 := N, pc := fall, inner := some num }
  let takenF : Fragment :=
    { pc := taken, threads := T, k0 := T, inner := some num, wait := .none, saved := .none, trapping := false
      looping := false, fault := none, handed := 0, handing := 0, handAt := 0, awaits := none }
  { g with
    frags := (g.frags.set i fallF).insertIdx (i + 1) takenF
    ptr := if i < g.ptr then g.ptr + 1 else g.ptr }

/-- bdiv (R90): illegal with an illegal target, in handler mode and in a loop body (R52, R53, R111, R127). -/
def execBdiv (m : Bool) (k : Nat) (o : BitVec 21) (reconv : W32) (s : State) : Out :=
  onFrag s fun x =>
    if !x.reaches (x.offset o.toInt) then x.illegal s (asPc (x.offset o.toInt))
    else if x.g.handler || x.inBody then x.illegal s reconv
    else
      let target := asPc (x.offset o.toInt)
      let T := x.f.k0 &&& x.mask k
      let N := x.f.k0 &&& ~~~x.mask k
      if T = 0 then x.done s x.g m 2
      else if N = 0 then x.moveTo s (x.g.setFrag x.frag { x.f with k0 := T }) m target
      else
        match x.newEntry s target (x.after 2) (asPc (x.offset reconv.toNat)) with
        | .error e => x.spillDenied s e
        | .ok (w, num) =>
          .next (x.put w.s ((w.g.divide x.frag x.f T N target (x.after 2) num).park62 m))

/-- join and joinl (R93, R95). DESIGN CHOICE (notes/assumptions/16.md): a fragment in handler mode that issues one at its own
reconvergence PC waits there, and no join is evaluated until handler mode is left. -/
def joinAt (m lateral : Bool) (s : State) : Out :=
  onFrag s fun x =>
    if x.inBody then x.illegal s 0
    else
      match (do
        let w : Work ← match x.f.inner with
          | some num => x.bringBack ⟨s, x.g, []⟩ num
          | none => .ok ⟨s, x.g, []⟩
        let here := (w.g.innerOf x.f).any fun (e : Split) => e.reconvPc = x.f.pc
        let w :=
          if here then { w with g := (w.g.setFrag x.frag { x.f with wait := .join lateral }).park62 m }
          else { w with g := w.g.advance x.frag m 1 }
        let w ← if here && !x.g.handler then x.evalJoins 256 w else .ok w
        x.rewriteMasks w) with
      | .error e => x.spillDenied s e
      | .ok w =>
        .next ((x.put w.s w.g).evalBarriers x.g.team x.team)
/-- join (R93). -/
def execJoin (m : Bool) (s : State) : Out := joinAt m false s
/-- joinl (R95). -/
def execJoinl (m : Bool) (s : State) : Out := joinAt m true s

/-! ### Ending threads (R102, R103) -/

/-- exit (R102). -/
def execExit (m : Bool) (s : State) : Out :=
  onFrag s fun x =>
    if x.inBody || x.g.handler then x.illegal s 0
    else
      match x.endThreads s x.g x.f.k0 1 with
      | .error e => x.spillDenied s e
      | .ok w => x.afterEnd w.s w.g m
/-- exitg (R103, R127). -/
def execExitg (m : Bool) (s : State) : Out :=
  onFrag s fun x => if x.inBody then x.illegal s 0 else x.afterEnd s { x.g with frags := [] } m

/-! ### Dispersal (R105 to R107) -/

/-- The live registers of a bitmap, ascending. -/
def liveRegs (live : W32) : List Nat := (List.range 32).filter fun n => live.getLsbD n
/-- disp (R105): D is fixed once a record has been handed over. -/
def execDisp (m : Bool) (k : Nat) (o : BitVec 21) (live : W32) (s : State) : Out :=
  onFrag s fun x =>
    if !x.reaches (x.offset o.toInt) then x.illegal s (asPc (x.offset o.toInt))
    else if x.g.handler || x.inBody then x.illegal s live
    else
      let target := asPc (x.offset o.toInt)
      let D := x.handing (x.f.k0 &&& x.mask k)
      if D = 0 then x.done s x.g m 2
      else
        match x.endThreads s x.g D 2 with
        | .error e => x.spillDenied s e
        | .ok _ =>
          x.handOver s D target (fun t => (liveRegs live).map fun n => x.g.readV false n t) fun s g =>
            match x.endThreads s g D 2 with
            | .error e => x.spillDenied s e
            | .ok w => x.afterEnd w.s w.g m

/-! ### Loops (R108 to R111, R173) -/

/-- The increment word of a `loop` (R61). -/
def loopWord (incd inca incb incta inctb : BitVec 4) (incacc : BitVec 5) (step : Nat) : W32 :=
  (incd ++ inca ++ incb ++ incta ++ inctb ++ incacc ++ BitVec.ofNat 7 step).setWidth 32
/-- The word at a byte offset is the first word of a two-word instruction (R52); a `jmpt` or `callt` is none. -/
def Image.opensTwo (im : Image) (at_ : Nat) : Bool :=
  !im.tagged.contains (at_ / 4) &&
    (match im.code[at_ / 4]? with
    | some w => decide (0 < extraWords w.toNat) && !decide (w.toNat / 2 ^ 24 % 2 ^ 6 = 0x1B)
    | none => false)

/-- loop (R108, R109): the levels belong to one fragment; g31 is captured as the stride (R173). -/
def execLoop (m : Bool) (lv cnt len : Nat) (incd inca incb incta inctb : BitVec 4) (incacc : BitVec 5) (step : Nat)
    (s : State) : Out :=
  onFrag s fun x =>
    let bad := x.illegal s (loopWord incd inca incb incta inctb incacc step)
    let start := x.after 2
    let stop := x.after (2 + len)
    if x.g.handler then bad
    else if !x.f.looping && x.g.frags.any (·.looping) then .next s
    else
      let open_ := if x.f.looping then x.g.loops else []
      if lv != open_.length || (match open_ with
          | l :: _ => decide (l.stop < stop)
          | [] => false) || x.launch.image.opensTwo (x.after (1 + len)).toNat then bad
      else if x.waitsOn [cnt, 127] then .next s
      else
        let c := x.uni cnt
        if c = 0 then x.moveTo s x.g m stop
        else
          let l : LoopLevel :=
            ⟨lv, start, stop, incd.toInt, inca.toInt, incb.toInt, incta.toNat, inctb.toNat, incacc.toNat, step⟩
          let g :=
            { x.g.setFrag x.frag { x.f with looping := true } with
              loops := l :: open_, lc := x.g.lc.setZ lv c, li := x.g.li.setZ lv 0
              lsig := x.g.lsig.setZ lv (x.g.readG false 31) }
          x.moveTo s g m start

/-- lbrk (R111). -/
def execLbrk (m : Bool) (c : BranchCond) (r : Nat) (o : BitVec 14) (s : State) : Out :=
  onFrag s fun x =>
    let target := x.offset o.toInt
    if x.g.handler || !x.f.looping then x.noTransfer s target
    else
      match x.g.loops with
      | [] => x.noTransfer s target
      | inner :: outer =>
        let inside (l : LoopLevel) : Bool := decide ((l.start.toNat : Int) ≤ target) && decide (target < l.stop.toNat)
        if inside inner || !(match outer with
            | l :: _ => inside l
            | [] => true) then x.noTransfer s target
        else if x.waitsOn (condRegs c r) then .next s
        else if x.condHolds c r then
          x.transfer s { x.g with loops := outer, lc := x.g.lc.setZ inner.level 0 } m target
        else x.done s x.g m 1

end Sys2Proof.Machine
end

