-- ==== Sys2Proof/Machine/HodControl.lean ====
section
/-!
DEFINITION. A team's commands to the hods of its core (R465 to R468): START, STOP and RELEASE, which a `syswr` to LHCTL
or SHCTL gives.
-/

namespace Sys2Proof.Machine

def State.hod (s : State) (core : Nat) (store : Bool) : Hod := s.hods.get (hodKey core store) Hod.off
def State.putHod (s : State) (core : Nat) (store : Bool) (h : Hod) : State :=
  { s with hods := s.hods.set (hodKey core store) h }

/-- A hod just loaded (R468): ARG in x10, the program counter at ENTRY; the cause of its last halt stays. -/
def Hod.loaded (h : Hod) (team : Nat) (entry : Nat) (arg : W64) (code data : List Byte) : Hod :=
  { h.freed with
    claim := some team, status := 2, pc := BitVec.ofNat 64 entry, x := Map.empty.setZ 10 arg
    istore := byteMap code, dstore := byteMap data }

/-- START's loading: the image header at the team's OFFSET, its limits, and the bytes it names (R468). -/
def Ctx.loadHod (x : Ctx) (s : State) (store : Bool) (fin : Hod → Out) : Out :=
  let off := if store then x.team.shsrc else x.team.lhsrc
  x.unitBlock s .read off.toNat 64 64 fun keys =>
    let b := s.gather keys
    let codeOff := field b 0 4
    let codeLen := field b 4 4
    let dataOff := field b 8 4
    let dataLen := field b 12 4
    let entry := field b 16 4
    if codeOff % 4 = 0 ∧ 4 ≤ codeLen ∧ codeLen ≤ 65536 ∧ codeLen % 4 = 0 ∧ dataOff % 8 = 0 ∧ dataLen ≤ 32768 ∧
        dataLen % 8 = 0 ∧ entry % 2 = 0 ∧ entry < codeLen ∧ zeros b 20 4 ∧ zeros b 32 32 then
      x.unitBlock s .read codeOff codeLen 4 fun code =>
        if dataLen = 0 then
          if x.team.kernel.unit < dataOff then x.trap s 10 (accessInfo 0 0 2 0xFF)
          else fin ((s.hod x.core store).loaded x.g.team entry (BitVec.ofNat 64 (field b 24 8)) (s.gather code) [])
        else
          x.unitBlock s .read dataOff dataLen 8 fun data =>
            fin ((s.hod x.core store).loaded x.g.team entry (BitVec.ofNat 64 (field b 24 8)) (s.gather code) (s.gather data))
    else x.illegal s off

/-- A hod stops with a cause (R471). -/
def Hod.stop (h : Hod) (cause : Nat) : Hod := { h with status := 3, cause := cause, haltPc := h.pc, reservation := none }

/-- CMD of a CTL register (R467), by the issuing fragment; the instruction has one word. -/
def Ctx.hodCommand (x : Ctx) (s : State) (store : Bool) (value : W32) (m : Bool) : Out :=
  let h := s.hod x.core store
  let mine := h.claim = some x.g.team
  let bad := x.illegal s value
  match value.toNat % 4 with
  | 0 => x.done s x.g m 1
  | 1 =>
    if !((h.status = 0 ∧ h.claim = none) ∨ (h.status = 3 ∧ mine)) then bad
    else if s.secureBlock x.core (8 + store.toNat) && !s.secureCtx x.ctxNum then bad
    else if h.ops ≠ [] ∨ h.late ≠ [] then .next s
    else x.loadHod s store fun h' => x.done (s.putHod x.core store h') x.g m 1
  | 2 =>
    if !mine then bad
    else if h.status = 2 then x.done (s.putHod x.core store (h.stop 9)) x.g m 1
    else x.done s x.g m 1
  | _ =>
    if !mine || h.status != 3 then bad
    else if h.ops ≠ [] ∨ h.late ≠ [] then .next s
    else x.done (s.putHod x.core store h.freed) x.g m 1

/-- START, as the current fragment's `syswr` to a CTL register gives it (R467). -/
def execStart (store : Bool) (value : W32) (s : State) : Out :=
  onFrag s fun x => if value.toNat % 4 = 1 then x.hodCommand s store value false else .next s
/-- STOP (R467). -/
def execStop (store : Bool) (value : W32) (s : State) : Out :=
  onFrag s fun x => if value.toNat % 4 = 2 then x.hodCommand s store value false else .next s
/-- RELEASE (R467). -/
def execRelease (store : Bool) (value : W32) (s : State) : Out :=
  onFrag s fun x => if value.toNat % 4 = 3 then x.hodCommand s store value false else .next s

end Sys2Proof.Machine
end

