-- ==== Sys2Proof/Machine/Handles.lean ====
section
/-!
DEFINITION. Completion views and traps: handle instructions (R117, R118), class waits and fences (R206, R207), matrix
batches (R305 to R307, R311), `trap`, `brk` and `tret` (R128, R129), and the debug state of a core (R496).
-/

namespace Sys2Proof.Machine

/-! ### Handles (R117, R118) -/

/-- A handle's class and sequence number. -/
def handleClass (h : W32) : Nat := h.toNat / 2 ^ 28
def handleSeq (h : W32) : Nat := h.toNat % 2 ^ 24
/-- A handle counts as retired for the group (R24, R117). -/
def Group.handleRetired (g : Group) (h : W32) : Bool := decide (6 ≤ handleClass h) || g.retired (handleClass h) (handleSeq h)

/-- A wait on class c, in shared-log record mode, seals the group's batch (R307). -/
def State.sealForWait (s : State) (core slot : Nat) (c : Nat) : State :=
  match s.groups.find (slotKey core slot) with
  | none => s
  | some g =>
    if c = 1 ∧ (s.teams.find g.team).any g.holdsBatch then s.sealGroup core slot else s

/-- The handle that an `hwait` of the fragment at its PC has read already, if it waits there (R117). -/
def Ctx.awaited (x : Ctx) : Option W32 :=
  ((if x.g.handler then x.g.hawaits else x.f.awaits).filter fun w => w.1 = x.f.pc).map (·.2)
/-- The group with h as the handle that the fragment waits for at its PC, or none. -/
def Ctx.awaiting (x : Ctx) (h : Option W32) : Group :=
  let w := h.map fun h => (x.f.pc, h)
  if x.g.handler then { x.g with hawaits := w } else x.g.setFrag x.frag { x.f with awaits := w }
/-- hwait (R117): a is read once, and the fragment waits for the handle that it held then. -/
def execHwait (m : Bool) (a : Nat) (s : State) : Out :=
  onFrag s fun x =>
    let h := x.awaited.getD (x.uni a)
    if x.g.handleRetired h then x.done s (if x.awaited.isSome then x.awaiting none else x.g) m 1
    else .next ((x.put s (x.awaiting (some h))).sealForWait x.core x.slot (handleClass h))
/-- htest (R117). -/
def execHtest (m : Bool) (d a : Nat) (s : State) : Out :=
  onFrag s fun x => x.done s (x.writeUni x.g d (if x.g.handleRetired (x.uni a) then 1 else 0)) m 1
/-- hcancel: asks for the cancellation of an operation that is still outstanding (R118). -/
def execHcancel (m : Bool) (a : Nat) (s : State) : Out :=
  onFrag s fun x =>
    let h := x.uni a
    let c := handleClass h
    let k := x.g.cls c
    if 6 ≤ c ∨ x.g.retired c (handleSeq h) then x.done s x.g m 1
    else
      let ops := k.ops.map fun o => if o.seq = handleSeq h then { o with cancel := true } else o
      x.done s { x.g with classes := x.g.classes.set c { k with ops := ops } } m 1
/-- hstat: the handle itself (R117). -/
def execHstat (m : Bool) (d a : Nat) (s : State) : Out :=
  onFrag s fun x => x.done s (x.writeUni x.g d (x.uni a)) m 1

/-! ### Class waits and fences (R206, R207) -/

/-- Operations outstanding in a class (R23). -/
def Group.out (g : Group) (c : Nat) : Nat := if 6 ≤ c then 0 else (g.cls c).ops.length

/-- cwait (R207). -/
def execCwait (m : Bool) (c n : Nat) (s : State) : Out :=
  onFrag s fun x => if x.g.out c ≤ n then x.done s x.g m 1 else .next (s.sealForWait x.core x.slot c)

/-- A class that a `fence` of a class mask still waits for (R206). -/
def Group.fenceWaits (g : Group) (ks : Nat) : Option Nat := (List.range 7).find? fun c => ks / 2 ^ c % 2 = 1 ∧ g.out c ≠ 0
/-- fence: waits for its classes, and in an order of whole steps leaves nothing else to order (R206, R212); a release at
domain scope reports a deferred store failure (R438). The fence of a turn that leaves accesses behind is the other form
(notes/assumptions/5.md). -/
def execFence (m : Bool) (o : Order) (c : Scope) (ks : Nat) (s : State) : Out :=
  onFrag s fun x =>
    match x.g.fenceWaits ks with
    | some c => .next (s.sealForWait x.core x.slot (if ks / 2 % 2 = 1 ∧ x.g.out 1 ≠ 0 then 1 else c))
    | none => if x.deferredFailure s o c then x.raiseDeferred s else x.done s x.g m 1

/-! ### Matrix batches (R305, R306, R311) -/

/-- mbatch (R305). -/
def execMbatch (m : Bool) (d : Nat) (s : State) : Out :=
  onFrag s fun x =>
    let s := s.sealGroup x.core x.slot
    x.done s (x.writeUni ((s.groups.find (slotKey x.core x.slot)).getD x.g) d (BitVec.ofNat 32 (x.g.cls 1).last)) m 1
/-- mwait (R306). -/
def execMwait (m : Bool) (d a : Nat) (s : State) : Out :=
  onFrag s fun x =>
    if x.waitsOn [a] then .next s
    else if x.g.retired 1 (handleSeq (x.uni a)) then
      x.done s (x.writeUni { x.g with merr := 0 } d (x.g.merr.setWidth 32)) m 1
    else .next (s.sealForWait x.core x.slot 1)

/-- marg (R311). -/
def execMarg (m : Bool) (n : Nat) (s : State) : Out :=
  onFrag s fun x =>
    x.done { s with margins := s.margins.set x.core { s.margin x.core with req := n, pend := true } } x.g m 1

/-! ### Traps (R128, R129) and debug halts (R496) -/

/-- A core's debug state as bring-up leaves it. -/
def State.debugOf (s : State) (core : Nat) : Debug := s.debugs.get core ⟨false, false, false, false⟩
/-- Issue stops in every group and hod of a core (R496). -/
def State.haltCore (s : State) (core : Nat) : State :=
  let halt (h : Hod) : Hod := if h.status = 2 then { h with status := 4, haltPc := h.pc, reservation := none } else h
  { s with
    debugs := s.debugs.set core { s.debugOf core with halted := true }
    groups := s.groups.mapValues fun k g =>
      if k / 64 = core then { g with reversal := g.reversal.map fun r => { r with paused := true } } else g
    hods := (s.hods.modify (2 * core) halt).modify (2 * core + 1) halt }

/-- A trap of one word whose TRAPPC is the next instruction. -/
def Ctx.trapHere (x : Ctx) (s : State) (cause code : Nat) (m : Bool) : Out :=
  x.trapNext s cause m 1 (BitVec.ofNat 32 code)
/-- trap (R128). -/
def execTrap (m : Bool) (c : Nat) (s : State) : Out := onFrag s fun x => x.trapHere s 8 c m
/-- brk: halts the core where the debug port has breakpoints enabled, else traps (R128, R496). -/
def execBrk (m : Bool) (c : Nat) (s : State) : Out :=
  onFrag s fun x =>
    if (s.debugOf x.core).bpen then x.done (s.haltCore x.core) x.g m 1 else x.trapHere s 9 c m
/-- tret (R129): waits for the handler's own results. -/
def execTret (m : Bool) (s : State) : Out :=
  onFrag s fun x =>
    if !x.g.handler then x.illegal s 0
    else if x.g.pend.any (·.handlerBank) then .next s
    else .next (returnFromTrap x m s)

end Sys2Proof.Machine
end

