-- ==== Sys2Proof/Machine/SysRegs.lean ====
section
/-!
DEFINITION. System registers (R46 to R48, R114): the value of every register the spec assigns, as the issuing group reads
it, and the writes of those with a writable field.
-/

namespace Sys2Proof.Machine

/-- A word of bit fields, each a value and the bit it starts at. -/
def fields (l : List (Nat × Nat)) : W32 := BitVec.ofNat 32 ((l.map fun p => p.1 * 2 ^ p.2).foldl (· + ·) 0)

/-- The unit store's capacity (R16). -/
def unitCap (die : Nat) : Nat := if Config.copingDie die then 16 * 2 ^ 20 else 8 * 2 ^ 20
/-- The die store's capacity (R16). -/
def dieCap (die : Nat) : Nat := if Config.copingDie die then 512 * 2 ^ 20 else 256 * 2 ^ 20

/-- CLASSCNT of a class (R23). -/
def Group.classCount (g : Group) (c : Nat) : W32 :=
  let k := g.cls c
  if 6 ≤ c then 0 else fields [(k.nextSeq, 8), ((k.ops.headD default).parked.isSome.toNat, 7), (g.out c, 0)]

/-- RECSTAT (R318). -/
def Ctx.recStat (x : Ctx) : W32 :=
  let c := x.team.logFor x.g.log
  let shared := c.any fun c => c.members.any (· ≠ x.slot)
  fields [(x.g.recording.toNat, 31), (shared.toNat, 30), ((x.g.reversing.any (·.paused)).toNat, 29), (x.g.lost.toNat, 28),
    (x.g.recErr, 24), ((((c.map (·.next)).getD ((x.g.log.map (·.final)).getD 0)) % 2 ^ 24), 0)]

/-- A core's kiln. -/
def State.kiln (s : State) (core : Nat) : Kiln := s.kilns.get core Kiln.fresh
/-- KSTAT (R372). -/
def Ctx.kStat (x : Ctx) (s : State) : W32 :=
  let k := s.kiln x.core
  let own := k.claim = some x.g.team
  if own then
    fields [(k.shown.degraded.toNat, 31), (1, 30), (k.shown.seeded.toNat, 29), (k.shown.phys.toNat, 28), (k.shown.cmode, 26),
      (k.shown.lag, 20), (k.shown.nnodes, 0)]
  else fields [(k.shown.degraded.toNat, 31)]

/-- MARGINLVL (R309). -/
def Margin.word (k : Margin) : W32 := fields [(k.stepdn.toNat, 11), (k.pend.toNat, 7), (k.req, 4), (k.level, 0)]

/-- SEQSTEP (R353). -/
def Group.seqStep (g : Group) : W32 :=
  match g.step with
  | none => 0
  | some (num, _, stepno) => fields [(1, 31), (num, 16), (stepno, 0)]

/-- QSTAT of a queue (R477). -/
def Ctx.queueStat (x : Ctx) (s : State) (n : Nat) : W32 :=
  let q := s.queue x.core n
  if q.owner = some x.g.team then fields [(1, 31), (q.items.length, 24), (q.drops, 0)] else 0

/-- LHCTL or SHCTL (R466). -/
def Ctx.hodCtl (x : Ctx) (s : State) (store : Bool) : W32 :=
  let h := s.hod x.core store
  let mine := h.claim = some x.g.team
  fields [((if mine then 1 else 0), 31), ((s.secureBlock x.core (8 + store.toNat)).toNat, 30), (h.status, 24), ((if mine then h.cause else 0), 20),
    ((if mine then h.ops.length else 0), 14)]
/-- LHPC or SHPC (R466). -/
def Ctx.hodPc (x : Ctx) (s : State) (store : Bool) : W32 :=
  let h := s.hod x.core store
  if h.claim = some x.g.team ∧ (h.status = 3 ∨ h.status = 4) then h.haltPc.setWidth 32 else 0

/-- The value of a system register for the issuing group (R47, R412, R466, R477). -/
def Ctx.sysValue (x : Ctx) (s : State) (n : Nat) : W32 :=
  let nat (v : Nat) : W32 := BitVec.ofNat 32 v
  if 0x020 ≤ n ∧ n ≤ 0x027 then x.g.classCount (n - 0x020)
  else if 0x088 ≤ n ∧ n ≤ 0x08F then x.team.taskArgs.getD (n - 0x088) 0
  else if 0x100 ≤ n ∧ n ≤ 0x107 then x.queueStat s (n - 0x100)
  else
    match n with
    | 0x000 => 64
    | 0x001 => nat x.core
    | 0x002 => nat x.die
    | 0x003 => nat x.team.logicalCore
    | 0x004 => nat x.team.teamIx
    | 0x005 => nat x.g.gix
    | 0x006 => nat x.launch.gridx
    | 0x007 => nat x.launch.gridy
    | 0x008 => nat (unitCap x.die)
    | 0x009 => nat (dieCap x.die)
    | 0x010 => x.g.fpmode
    | 0x011 => x.g.fpflags
    | 0x018 => x.g.trapCause
    | 0x019 => x.g.trapPc
    | 0x01A => x.g.trapInfo0
    | 0x01B => x.g.trapInfo1
    | 0x030 => (s.margin x.core).word
    | 0x031 => nat (s.margin x.core).replays
    | 0x040 => nat x.launch.form
    | 0x050 => x.g.seqStep
    | 0x060 => x.recStat
    | 0x070 => x.kStat s
    | 0x080 => x.team.proghint
    | 0x081 => x.tag
    | 0x082 => nat x.team.kind
    | 0x083 => x.team.taskHandle
    | 0x084 => nat x.g.reccnt
    | 0x090 => x.team.taskWr.getD 0 0xFFFFFFFF
    | 0x091 => x.team.taskWr.getD 1 0xFFFFFFFF
    | 0x110 => x.hodCtl s false
    | 0x111 => x.team.lhsrc
    | 0x112 => x.hodPc s false
    | 0x118 => x.hodCtl s true
    | 0x119 => x.team.shsrc
    | 0x11A => x.hodPc s true
    | _ => 0

/-- sysrd (R114); an unassigned number is illegal (R46). -/
def execSysrd (m : Bool) (d n : Nat) (s : State) : Out :=
  onFrag s fun x => if !sysReadable n then x.illegal s 0 else x.done s (x.writeUni x.g d (x.sysValue s n)) m 1

/-- syswr: writes the writable fields and ignores the rest (R46, R114); a TRAP register only in handler mode (R47). -/
def execSyswr (m : Bool) (d n : Nat) (s : State) : Out :=
  onFrag s fun x =>
    if x.waitsOn [d] then .next s
    else
      let v := x.uni d
      let trapReg (g : Group) : Out := if x.g.handler then x.done s g m 1 else x.illegal s 0
      let k := s.margin x.core
      match n with
      | 0x010 => x.done s { x.g with fpmode := v &&& 0x1FF } m 1
      | 0x011 => x.done s { x.g with fpflags := v &&& 0x1F } m 1
      | 0x018 => trapReg { x.g with trapCause := v &&& 0xFF }
      | 0x019 => trapReg { x.g with trapPc := v }
      | 0x01A => trapReg { x.g with trapInfo0 := v }
      | 0x01B => trapReg { x.g with trapInfo1 := v }
      | 0x030 =>
        x.done { s with margins := s.margins.set x.core { k with stepdn := k.stepdn && !v.getLsbD 11 } } x.g m 1
      | 0x031 => x.done { s with margins := s.margins.set x.core { k with replays := v.toNat } } x.g m 1
      | 0x060 => x.done s { x.g with lost := x.g.lost && !v.getLsbD 28 } m 1
      | 0x080 => x.done (s.modTeam x.g.team fun t => { t with proghint := v }) x.g m 1
      | 0x110 => x.hodCommand s false v m
      | 0x111 => x.done (s.modTeam x.g.team fun t => { t with lhsrc := v &&& 0xFFFFFF }) x.g m 1
      | 0x118 => x.hodCommand s true v m
      | 0x119 => x.done (s.modTeam x.g.team fun t => { t with shsrc := v &&& 0xFFFFFF }) x.g m 1
      | _ => x.illegal s 0

end Sys2Proof.Machine
end

