-- ==== Sys2Proof/Machine/Copies.lean ====
section
/-!
DEFINITION. Slot rings (R262 to R268) and the issue of copies: descriptors (R252), the checks of R253, the row indices
(R258), reservation of ring slots (R263) and of scoreboard entries (R27).
-/

namespace Sys2Proof.Machine

/-! ### Slot rings (R262 to R267) -/

/-- A ring that nothing owns. -/
def SlotRing.unowned : SlotRing := ⟨none, 0, 0, 0, 0, 0, []⟩
def ringKey (core n : Nat) : Nat := 16 * core + n
def State.ring (s : State) (core n : Nat) : SlotRing := s.rings.get (ringKey core n) SlotRing.unowned
def State.putRing (s : State) (core n : Nat) (r : SlotRing) : State :=
  { s with rings := if r = SlotRing.unowned then s.rings.erase (ringKey core n) else s.rings.set (ringKey core n) r }
/-- The offset of the slot k places after the oldest filled one. -/
def SlotRing.slot (r : SlotRing) (k : Nat) : Nat := r.base + (r.rdi + k) % r.count * r.slotsz
/-- Releases the k oldest filled slots (R266). -/
def SlotRing.drop (r : SlotRing) (k : Nat) : SlotRing := { r with rdi := (r.rdi + k) % r.count, nfill := r.nfill - k }
/-- The word of R267 for one who may use the ring. -/
def SlotRing.word (r : SlotRing) : W32 :=
  fields [(1, 31), (r.reserved.length, 24), (r.nfill, 16), (r.rdi, 8), (r.count, 0)]

/-- rcfg (R264). -/
def execRcfg (m : Bool) (d a n : Nat) (s : State) : Out :=
  onFrag s fun x =>
    if x.waitsOn [d, a] then .next s
    else
      let base := (x.uni d).toNat
      let geo := (x.uni a).toNat
      let count := geo % 128
      let slotsz := geo / 256 * 32
      let r := s.ring x.core n
      if geo / 128 % 2 = 1 ∨ 64 < count ∨ (count ≠ 0 ∧ slotsz = 0) ∨ base % 32 ≠ 0 ∨
          (r.owner ≠ none ∧ r.owner ≠ some x.g.team) then x.illegal s 0
      else if x.team.kernel.unit < base + count * slotsz then x.trap s 10 (accessInfo 0 0 2 0xFF)
      else if r.reserved ≠ [] then .next s
      else
        let r' : SlotRing := if count = 0 then SlotRing.unowned else ⟨some x.g.team, base, slotsz, count, 0, 0, []⟩
        x.done (s.putRing x.core n r') x.g m 1
/-- rawait (R265). -/
def execRawait (m : Bool) (d k n : Nat) (s : State) : Out :=
  onFrag s fun x =>
    let r := s.ring x.core n
    if r.owner ≠ some x.g.team ∨ r.count ≤ k then x.illegal s 0
    else if r.nfill ≤ k then .next s
    else x.done s (x.writeUni x.g d (BitVec.ofNat 32 (r.slot k))) m 1
/-- rrel: the field holds the number of slots less one (R266). -/
def execRrel (m : Bool) (k n : Nat) (s : State) : Out :=
  onFrag s fun x =>
    let r := s.ring x.core n
    if r.owner ≠ some x.g.team ∨ r.count < k + 1 then x.illegal s 0
    else if r.nfill < k + 1 then .next s
    else x.done (s.putRing x.core n (r.drop (k + 1))) x.g m 1
/-- rnst (R267). -/
def execRnst (m : Bool) (d n : Nat) (s : State) : Out :=
  onFrag s fun x =>
    let r := s.ring x.core n
    x.done s (x.writeUni x.g d (if r.owner = some x.g.team then r.word else 0)) m 1

/-! ### Descriptors (R252) -/

/-- The descriptor that 64 bytes hold for function fn, if every field is within its limits. -/
def readDesc (fn : Nat) (b : List Byte) : Option CopyDesc :=
  let cmode := field b 0x1C 1
  let xop := field b 0x2E 1
  let d : CopyDesc :=
    { lrec := field b 0 4, img := field b 4 4, origin := (List.range 4).map fun k => signedOf 32 (field b (8 + 4 * k) 4)
      salt := field b 0x18 4, ring := cmode % 2 == 1, queue := cmode / 2 % 2 == 1, stoch := cmode / 4 % 2 == 1
      ispace := cmode / 8 % 2, rnum := field b 0x1D 1, qnum := field b 0x1E 1, grow := field b 0x1F 1
      token := BitVec.ofNat 32 (field b 0x20 4), dst := field b 0x24 4, len := field b 0x28 4, sspace := field b 0x2C 1
      dspace := field b 0x2D 1, transpose := xop % 2 == 1, flip := xop / 2 % 2 == 1, xw := field b 0x2F 1 }
  let tmvl := fn = 4
  let cpyx := fn = 5
  let kind := d.lrec / 2 ^ 30
  if (if tmvl ∨ cpyx then d.lrec = 0 else kind ≤ 2 ∧ (kind = 1 → d.lrec / 2 ^ 20 % 2 ^ 10 = 0)) ∧ d.img % 32 = 0 ∧ cmode < 16 ∧
      d.rnum < 16 ∧ d.qnum < 8 ∧ (fn ≠ 2 → fn ≠ 3 → d.grow = 0) ∧
      (if tmvl ∨ cpyx then d.dst % 32 = 0 else d.dst = 0) ∧
      (if tmvl then d.len % 32 = 0 ∧ 32 ≤ d.len ∧ d.len ≤ 2 ^ 24 ∧ d.ispace = 0 else d.len = 0) ∧
      d.sspace ≤ (if tmvl then 2 else 0) ∧ d.dspace ≤ (if tmvl then 2 else if cpyx then 1 else 0) ∧
      xop < (if cpyx then 4 else 1) ∧ (d.xw = 0 ∨ (cpyx ∧ 2 ≤ d.xw ∧ d.xw ≤ 8)) ∧ zeros b 0x30 16 ∧
      (d.ring → fn ≠ 1 ∧ fn ≠ 3 ∧ d.dspace = 0) then some d
  else none

/-! ### Where a copy writes -/

/-- The space and offset of an image destination or source in its descriptor, at a slot if there is one. -/
def CopyCmd.target (c : CopyCmd) : Nat × Nat :=
  match c.slotAddr with
  | some a => (4, a)
  | none => if c.fn = 4 ∨ c.fn = 5 then (c.desc.dspace, c.desc.dst) else (c.desc.ispace, c.desc.img)
/-- The rows of a record's box that a copy moves: image rows with their row offsets (R247, R258). -/
def CopyCmd.boxRows (c : CopyCmd) (r : LayoutRec) : List (Nat × Int) :=
  if c.fn = 2 ∨ c.fn = 3 then (List.range c.rows.length).map fun j => (c.desc.grow + j, c.rows.getD j 0)
  else (List.range r.boxr).map fun i => (i, (i : Int))
/-- The rule for block formats holds: COLDIM is 0 and the effective ORIGIN0 a multiple of 32 (R257). -/
def LayoutRec.blocksFit (r : LayoutRec) (origin : List Int) : Bool :=
  !formatBlocks r.format || (r.coldim == 0 && decide (origin.getD 0 0 % 32 = 0))

/-- The byte ranges of its destination that a copy writes once its record is known, as space, address and length. -/
def CopyCmd.footprint (c : CopyCmd) (e : CopyEnv) (r : LayoutRec) : List (Nat × Nat × Nat) :=
  let (space, at_) := c.target
  let h := r.shape
  match c.fn with
  | 0 => [(space, at_, h.size)]
  | 2 =>
    (space, at_, 32) :: (c.boxRows r).flatMap fun p =>
      [(space, at_ + h.expsAt + p.1 * (r.boxc / 32), r.boxc / 32), (space, at_ + h.elemsAt + p.1 * r.boxc, r.boxc)]
  | _ =>
    let o := r.originWith c.desc.origin
    if r.blocksFit o then
      ((e.press r o (fun _ _ => .rne) (fun _ _ => .fin false 0 0) (c.boxRows r)).getD []).flatMap fun u =>
        u.bits.map fun w => (r.copySpace, w.1, 1)
    else []

/-- Bytes of team uid's allocation, from offset off up, that a registered range of the copy's team names (R224). -/
def CopyEnv.namesBytes (e : CopyEnv) (uid off n : Nat) : Bool :=
  (List.range n).all fun i => e.team.ranges.values.any fun w =>
    (rangeParts e.team w).any fun q => q.1.1 == 100 + uid && decide (q.1.2 ≤ off + i) && decide (off + i < q.1.2 + q.2)
/-- A range outside the team's write ranges where write-range form checks it: in global memory, the die store or another team's
allocation, the slot of another team's ring included (R225, R253, R272, R478). -/
def State.outsideRanges (s : State) (e : CopyEnv) (p : Nat × Nat × Nat) : Bool :=
  e.launch.form == 1 &&
    match p.1 with
    | 1 => !inRanges e.team 1 p.2.1 p.2.2
    | 3 => !inRanges e.team 0 p.2.1 p.2.2
    | 2 => e.team.member p.2.1 != some e.uid && !inRanges e.team 2 p.2.1 p.2.2
    | 4 =>
      match s.teams.entries.find? fun t => t.2.core = e.core ∧ t.2.base ≤ p.2.1 ∧ p.2.1 < t.2.base + t.2.kernel.unit with
      | some (uid, t) => uid != e.uid && !e.namesBytes uid (p.2.1 - t.base) p.2.2
      | none => false
    | _ => false

/-- The place in its core's unit store of the slot of a ring that the next copy takes (R263). -/
def State.nextSlot (s : State) (r : SlotRing) : Nat :=
  ((r.owner.bind s.teams.find).map (·.base)).getD 0 + r.slot (r.nfill + r.reserved.length)

/-! ### The checks at issue (R253) -/

/-- A check that failed, by its order in R253, with KIND, ACC and the address it names; or the copy. -/
inductive Checked
  | fail (order kind acc info : Nat)
  | ok (c : CopyCmd)
deriving DecidableEq, Repr, Inhabited

/-- A range of n bytes is not there: KIND 2 or 4 (R253 check 5). -/
def State.rangeKind (s : State) (e : CopyEnv) (space addr n : Nat) : Option Nat :=
  match space with
  | 2 =>
    match (e.team.member addr).bind s.teams.find with
    | none => some 4
    | some t => if t.kernel.unit < addr % 2 ^ 24 + n then some 2 else none
  | 1 =>
    if (e.launch.windows.find (dieOf e.core)).isNone ∨ e.launch.dieWin < addr + n then some 2 else none
  | _ => if e.team.kernel.unit < addr + n then some 2 else none

/-- What a copy names by addresses in its descriptor, each with its length as far as issue knows it and whether it is a
destination. -/
def CopyCmd.named (c : CopyCmd) : List ((Nat × Nat × Nat) × Bool) :=
  let d := c.desc
  let dest := if d.ring then [] else [((c.target.1, c.target.2, if c.fn = 4 then d.len else 32), true)]
  match c.fn with
  | 0 | 2 => dest
  | 1 | 3 => [((d.ispace, d.img, 32), false)]
  | 4 => ((d.sspace, d.img, d.len), false) :: dest
  | _ => ((d.ispace, d.img, 32), false) :: dest

/-- The first bytes of the destination, as far as its descriptor tells. -/
def CopyCmd.firstBytes (c : CopyCmd) : List (Nat × Nat × Nat) :=
  if c.fn = 1 ∨ c.fn = 3 then [] else [(c.target.1, c.target.2, if c.fn = 4 then c.desc.len else 32)]
/-- A gather or a scatter of no rows, which reads and writes nothing (R258). -/
def CopyCmd.idle (c : CopyCmd) : Bool := decide ((c.fn = 2 ∨ c.fn = 3) ∧ c.rows = [])
/-- The destination bytes that issue knows (R253 check 6). -/
def CopyCmd.knownBytes (c : CopyCmd) (e : CopyEnv) : List (Nat × Nat × Nat) :=
  if c.idle then []
  else
    match c.record with
    | some r => c.footprint e r
    | none => c.firstBytes

/-- The checks of R253 from order 2 on, for a copy of function fn with the descriptor at offset a. -/
def State.checkCopy (s : State) (e : CopyEnv) (ringOk : SlotRing → Bool) (fn a : Nat) (rows : List Int) : Checked :=
  if a % 64 ≠ 0 then .fail 2 1 0 a
  else if e.team.kernel.unit < a + 64 then .fail 2 2 0 a
  else
    match readDesc fn (s.mem.bytes (unitKey e.core (e.team.base + a)) 64) with
    | none => .fail 3 0 0 a
    | some d =>
      if d.ring && !ringOk (s.ring e.core d.rnum) then .fail 3 0 0 a
      else if d.queue && (s.queue e.core d.qnum).owner != some e.uid then .fail 3 0 0 a
      else
        let at_ := d.lrec % 2 ^ 30
        let inUnit := fn < 4 ∧ d.lrec / 2 ^ 30 = 0
        let record :=
          if inUnit ∧ at_ % 64 = 0 ∧ at_ + 64 ≤ e.team.kernel.unit then
            readLayout (s.mem.bytes (unitKey e.core (e.team.base + at_)) 64)
          else none
        if inUnit ∧ record = none then .fail 4 0 0 at_
        else
          let c := CopyCmd.fresh fn d record rows none 0
          let r := s.ring e.core d.rnum
          let placed := if d.ring then { c with slotAddr := some (s.nextSlot r) } else c
          match c.named.findSome? fun p => (s.rangeKind e p.1.1 p.1.2.1 p.1.2.2).map fun k => (k, p.2) with
          | some (k, dst) => .fail 5 k dst.toNat a
          | none => if (placed.knownBytes e).any (s.outsideRanges e) then .fail 6 7 1 a else .ok c

/-! ### Reservation and the scoreboard (R27, R263) -/

/-- The span of sectors of n bytes at physical address a. -/
def spanOf (a n : Nat) : Nat × Nat := (a / 32, (a + n + 31) / 32)
/-- The sectors of the core's unit store that a copy may write, as far as issue knows them (R27). -/
def CopyCmd.issueSpan (c : CopyCmd) (e : CopyEnv) (slotsz : Nat) : Option (Nat × Nat) :=
  let unit := e.team.kernel.unit
  match c.target with
  | (4, a) => some (spanOf a slotsz)
  | (space, at_) =>
    match c.fn with
    | 1 | 3 =>
      match c.record with
      | some r => if r.space = 2 then some (spanOf e.team.base unit) else none
      | none => some (spanOf e.team.base unit)
    | 4 =>
      if space = 0 ∨ (space = 2 ∧ e.team.member at_ = some e.uid) then
        some (spanOf (e.team.base + at_ % 2 ^ 24) c.desc.len)
      else none
    | _ =>
      if space ≠ 0 then none
      else some (spanOf (e.team.base + at_) (if c.fetch ≠ 0 then c.fetch else min 67648 (unit - at_)))

/-- Reserves what a copy needs: a ring slot and a scoreboard entry; none while either is lacking (R27, R253, R263). -/
def State.reserveCopy (s : State) (e : CopyEnv) (seq : Nat) (c : CopyCmd) : Option (State × CopyCmd) :=
  let r := s.ring e.core c.desc.rnum
  if c.desc.ring ∧ r.count ≤ r.nfill + r.reserved.length then none
  else
    let c := if c.desc.ring then { c with slotAddr := some (s.nextSlot r) } else c
    let s :=
      if c.desc.ring then s.putRing e.core c.desc.rnum { r with reserved := r.reserved ++ [(e.agent, seq)] } else s
    match c.issueSpan e r.slotsz with
    | none => some (s, c)
    | some span =>
      if 32 ≤ (s.scoreboard.filter fun p => p.core = e.core).length then none
      else some ({ s with scoreboard := s.scoreboard ++ [⟨e.core, e.agent, seq, [span]⟩] }, c)

/-! ### The CPY major (R255) -/

def Ctx.env (x : Ctx) : CopyEnv := ⟨x.core, x.slot, x.g.team, x.team, x.launch⟩

/-- The row indices that a group captures (R258). -/
def Ctx.rowIndices (x : Ctx) (b : Nat) : List Int := ((threadsOf x.f.k0).take 32).map fun t => (x.lane b t).toInt

/-- Issues class 0 operation c with handle destination h, from an instruction of one word; waits where it must. -/
def Ctx.issueCopy (x : Ctx) (s : State) (m : Bool) (h : Nat) (c : CopyCmd) : Out :=
  if x.g.full 0 then .next s
  else
    match s.reserveCopy x.env (x.g.cls 0).nextSeq c with
    | none => .next s
    | some (s, c) => x.done s ((x.g.issueOp 0 (.copy c) [] 0 s.tick).sendHandle s.ir 0 0 (h - 96)) m 1

/-- A CPY instruction: function fn, descriptor register a, and the index register b where it has one. -/
def copyOp (m : Bool) (fn h a : Nat) (b : Option Nat) (s : State) : Out :=
  onFrag s fun x =>
    if x.waitsOn [a] || (x.f.k0 ≠ 0 && x.waitsOn b.toList) then .next s
    else
      let rows := match b with
        | some r => x.rowIndices r
        | none => []
      match s.checkCopy x.env (fun r => r.owner == some x.g.team) fn (x.uni a).toNat rows with
      | .ok c => x.issueCopy s m h c
      | .fail order kind acc info =>
        if order = 3 ∨ order = 4 then x.illegal s (BitVec.ofNat 32 info)
        else x.trap s (if order = 6 then 5 else 10) (accessInfo acc 0 kind 0xFF)

/-- cpyi (R256). -/
def execCpyi (m : Bool) (h a : Nat) (s : State) : Out := copyOp m 0 h a none s
/-- cpyo (R257). -/
def execCpyo (m : Bool) (h a : Nat) (s : State) : Out := copyOp m 1 h a none s
/-- cpyg (R258). -/
def execCpyg (m : Bool) (h a b : Nat) (s : State) : Out := copyOp m 2 h a (some b) s
/-- cpys (R258). -/
def execCpys (m : Bool) (h a b : Nat) (s : State) : Out := copyOp m 3 h a (some b) s
/-- tmvl (R259). -/
def execTmvl (m : Bool) (h a : Nat) (s : State) : Out := copyOp m 4 h a none s
/-- cpyx (R260). -/
def execCpyx (m : Bool) (h a : Nat) (s : State) : Out := copyOp m 5 h a none s

end Sys2Proof.Machine
end

