-- ==== Sys2Proof/Machine/Tiles.lean ====
section
/-!
DEFINITION. The data of the matrix engine: tile registers and their images (R280, R297, R298), accumulators and theirs
(R282, R301, R302), block products and accumulation (R288, R289), and the accumulator operations (R303, R304).
-/

namespace Sys2Proof.Machine

/-! ### Tile registers (R280) -/

/-- The data of a tile register as created. -/
def TileData.created : TileData := ⟨0, List.replicate 32 0, Map.empty, Map.empty⟩
def Team.tile (t : Team) (n : Nat) : TileData := t.tiles.get n TileData.created
def Team.putTile (t : Team) (n : Nat) (d : TileData) : Team :=
  { t with tiles := if d = TileData.created then t.tiles.erase n else t.tiles.set n d }
/-- An accumulator as created. -/
def AccData.created : AccData := ⟨false, Map.empty⟩
def Team.acc (t : Team) (n : Nat) : AccData := t.accs.get n AccData.created
def Team.putAcc (t : Team) (n : Nat) (d : AccData) : Team :=
  { t with accs := if d = AccData.created then t.accs.erase n else t.accs.set n d }
/-- The shapes that the front end keeps (R284). -/
def Team.tileShape (t : Team) (n : Nat) : TileShape := t.tileShapes.get n TileShape.created
def Team.accShape (t : Team) (n : Nat) : Nat × Nat := t.accShapes.get n (256, 256)

/-- A tile cleared: every exponent and mantissa byte zero, and no map entry in use (R281, R299). -/
def TileData.cleared : TileData := ⟨0, List.replicate 32 0xFF, Map.empty, Map.empty⟩

/-- The exponent byte of a block, and the mantissa of an element from its low bits (R280, R288). -/
def TileData.expAt (d : TileData) (b : Nat) : Nat := (d.exps.getZ b).toNat
def TileData.mantAt (d : TileData) (sh : TileShape) (r c : Nat) : Int :=
  signedOf sh.width (d.mants.getZ (r * sh.cols + c)).toNat
/-- The value of an element (R236). -/
def TileData.value (d : TileData) (sh : TileShape) (r c : Nat) : Num :=
  bfpValue sh.width (d.expAt (blockOf sh.axis sh.cols r c)) (d.mants.getZ (r * sh.cols + c)).toNat
/-- Some exponent byte is that of a NaN block. -/
def TileData.hasNan (d : TileData) (sh : TileShape) : Bool :=
  (List.range (sh.rows * sh.cols / 32)).any fun b => d.expAt b == 0xFF

/-- The header of a tile's image (R298). -/
def TileData.head (d : TileData) (sh : TileShape) : ImageHead :=
  ⟨sh.rows, sh.cols, sh.width, sh.axis, if sh.mapped then d.dup else 0, sh.mapped, d.hasNan sh, false, false⟩
/-- The canonical image of a tile (R298). -/
def TileData.image (d : TileData) (sh : TileShape) : List Byte :=
  let h := d.head sh
  h.bytes ++ (if sh.mapped then d.map else []) ++
    padded ((List.range (sh.rows * sh.cols / 32)).map fun b => d.exps.getZ b) ++
    padded ((List.range (sh.rows * sh.cols)).map fun k => BitVec.ofInt 8 (signedOf sh.width (d.mants.getZ k).toNat))

/-- An image's header matches a tile (R297). -/
def ImageHead.fits (h : ImageHead) (sh : TileShape) : Bool :=
  h.kind == sh.width && h.rows == sh.rows && h.cols == sh.cols && h.axis == sh.axis && h.mapped == sh.mapped &&
    decide (h.dup ≤ sh.dupcap ∨ !sh.mapped)

/-- Loads an image into a tile, or makes it a NaN tile; true if the image matched (R297). -/
def TileData.load (d : TileData) (sh : TileShape) (b : List Byte) : TileData × Bool :=
  let blocks := sh.rows * sh.cols / 32
  let bad := ({ d with exps := byteMap (List.replicate blocks 0xFF) }, false)
  match readHead (b.take 32) with
  | none => bad
  | some h =>
    if h.fits sh then
      ({ dup := if sh.mapped then h.dup else d.dup
         map := if sh.mapped then (b.drop h.mapAt).take 32 else d.map
         exps := byteMap ((b.drop h.expsAt).take blocks)
         mants := byteMap ((b.drop h.elemsAt).take (sh.rows * sh.cols)) }, true)
    else bad

/-- The map that 32 bytes form, with its DUP, if they are valid for a tile (R300). -/
def validMap (sh : TileShape) (b : List Byte) : Option Nat :=
  let dup := (b.takeWhile (· ≠ 0xFF)).length
  if dup ≤ sh.dupcap ∧ (b.take dup).all (fun x => x.toNat < sh.kbase) ∧ (b.drop dup).all (· = 0xFF) then some dup else none

/-! ### Arithmetic (R289, R303) -/

/-- A value of an accumulator. -/
def AccData.value (d : AccData) (r c : Nat) : W32 := d.vals.getZ (r * 256 + c)
def AccData.num (d : AccData) (r c : Nat) : Num := decodeNum f32 false (d.value r c).toNat

/-- A rounded FP32 value, and whether it overflowed. -/
def roundValue (x : Num) : W32 × Bool :=
  let (v, fl) := roundTo f32 false x .rne
  (BitVec.ofNat 32 v, fl &&& flagOF != 0)
/-- x + y rounded; true if it overflowed. -/
def addValue (x y : Num) : W32 × Bool := roundValue (addNum false x y).1
/-- x × y rounded; true if it overflowed. -/
def mulValue (x y : Num) : W32 × Bool := roundValue (mulNum x y).1
/-- The number that FP32 bits hold. -/
def numOf (w : W32) : Num := decodeNum f32 false w.toNat
/-- FP32 bits of a NaN. -/
def isNanBits (w : W32) : Bool := (numOf w).isNan
/-- The canonical NaN. -/
def nanWord : W32 := BitVec.ofNat 32 f32.qnan

/-- What an operation wrote: the accumulator, and whether a value overflowed or a NaN was written. -/
structure Written where
  acc : AccData
  ovf : Bool
  nan : Bool
deriving DecidableEq, Repr, Inhabited

/-- Writes computed values, each with its overflow, into an accumulator whose OVF stays. -/
def AccData.writeAll (d : AccData) (cells : List (Nat × Nat × W32 × Bool)) : Written :=
  { acc := { d with vals := cells.foldl (fun m c => m.setZ (c.1 * 256 + c.2.1) c.2.2.1) d.vals }
    ovf := cells.any fun c => c.2.2.2, nan := cells.any fun c => isNanBits c.2.2.1 }
/-- Every position of a region, row by row. -/
def region (rows cols : Nat) : List (Nat × Nat) :=
  (List.range rows).flatMap fun i => (List.range cols).map fun j => (i, j)

/-- A tile operand: its shape and data. -/
structure Tile where
  sh : TileShape
  d : TileData
deriving DecidableEq, Repr, Inhabited

/-- BlockProduct (R288) for output element (i, j). -/
def blockProduct (a b : Tile) (i j k : Nat) : Num :=
  let ea := a.d.expAt (blockOf false a.sh.cols i (32 * k))
  let eb (row : Nat) : Nat := b.d.expAt (blockOf true b.sh.cols row j)
  let bias : Int := 254 + (a.sh.width - 1) + (b.sh.width - 1)
  let term (x y : Int) (e : Nat) : Num := .fin (x * y < 0) (x * y).natAbs ((ea + e : Nat) - bias)
  if !a.sh.mapped || decide (k < a.sh.kbase / 32) then
    if ea = 0xFF ∨ eb (32 * k) = 0xFF then .nan false
    else
      let s : Int := ((List.range 32).map fun l => a.d.mantAt a.sh i (32 * k + l) * b.d.mantAt b.sh (32 * k + l) j).sum
      .fin (s < 0) s.natAbs (if s = 0 then 0 else ((ea + eb (32 * k) : Nat) : Int) - bias)
  else if ea = 0xFF then .nan false
  else
    (List.range a.d.dup).foldl (fun s l =>
      let q := field a.d.map l 1
      let e := eb q
      if e = 0xFF then .nan false
      else (addNum false s (term (a.d.mantAt a.sh i (a.sh.kbase + l)) (b.d.mantAt b.sh q j) e)).1) (.fin false 0 0)

/-- The sum of one output element over the blocks along K, ascending (R289): mode 0 acc, 1 set, 2 sub. -/
def dotValue (mode nb : Nat) (c : W32) (p : Nat → Num) : W32 × Bool :=
  (List.range nb).foldl (fun (st : W32 × Bool) k =>
    let x := if mode = 2 then (p k).negate else p k
    let (v, o) := addValue (numOf st.1) x
    (v, st.2 || o)) (if mode = 1 then 0 else c, false)

/-- MatMul over count rows from first (R289). -/
def matMul (c : AccData) (a b : Tile) (mode first count : Nat) : Written :=
  let cells := (List.range count).flatMap fun r => (List.range b.sh.cols).map fun j =>
    let i := first + r
    let (v, o) := dotValue mode (a.sh.cols / 32) (c.value i j) (blockProduct a b i j)
    (i, j, v, o)
  let w := c.writeAll cells
  { w with acc := { w.acc with ovf := w.acc.ovf || w.ovf } }

/-! ### Accumulator operations (R304) -/

/-- fmax of the values of a row, and the lowest column at which it stands. -/
def rowMax (s : AccData) (i cols : Nat) : W32 × Nat :=
  let best := (List.range cols).foldl (fun (m : Nat) j => (fpMinMax true false 0 m (s.value i j).toNat).1)
    (s.value i 0).toNat
  let stands (j : Nat) : Bool :=
    if (decodeNum f32 false best).isNan then isNanBits (s.value i j) else (s.value i j).toNat == best
  (BitVec.ofNat 32 best, ((List.range cols).find? stands).getD 0)

/-- The cells that an AOP writes: function fn, sources S and T of the given shape, and its operand x; β is the bias row. -/
def aopCells (fn : Nat) (s t : AccData) (rows cols : Nat) (x : W32) (bias : List W32) : List (Nat × Nat × W32 × Bool) :=
  let each (f : Nat → Nat → W32 × Bool) : List (Nat × Nat × W32 × Bool) :=
    (region rows cols).map fun p => let (v, o) := f p.1 p.2; (p.1, p.2, v, o)
  let narrow (f : Nat → Nat → W32 × Bool) : List (Nat × Nat × W32 × Bool) :=
    (region rows 32).map fun p => let (v, o) := f p.1 p.2; (p.1, p.2, v, o)
  match fn with
  | 0 => each fun i j => (activationOf ([Activation.relu, .gelu, .silu, .sigm, .tanh, .erf].getD x.toNat .relu) (s.value i j), false)
  | 1 => each fun i j => addValue (s.num i j) (t.num i j)
  | 2 => each fun i j => mulValue (s.num i j) (t.num i j)
  | 3 => each fun i j => mulValue (s.num i j) (numOf x)
  | 4 => each fun i j => addValue (s.num i j) (numOf (bias.getD j 0))
  | 5 =>
    narrow fun i j =>
      if j ≠ 0 then (0, false)
      else (List.range (cols - 1)).foldl (fun (st : W32 × Bool) k =>
        let (v, o) := addValue (numOf st.1) (s.num i (k + 1))
        (v, st.2 || o)) (s.value i 0, false)
  | 6 =>
    narrow fun i j =>
      let (v, col) := rowMax s i cols
      if j = 0 then (v, false)
      else if j = 1 then (BitVec.ofNat 32 (roundTo f32 false (.fin false col 0) .rne).1, false)
      else (0, false)
  | _ => each fun i j => (s.value i j, false)

/-- An AOP (R303, R304): D's new contents from S and T, whose values are read first. -/
def aopResult (fn : Nat) (d s t : AccData) (two : Bool) (rows cols : Nat) (x : W32) (bias : List W32) : Written :=
  let w := d.writeAll (aopCells fn s t rows cols x bias)
  { w with acc := { w.acc with ovf := s.ovf || (two && t.ovf) || w.ovf } }

/-! ### Fills and drains (R301, R302) -/

/-- The FP32 bits of element (r, c) of an image: those of an f32 element as they are. -/
def fillValue (h : ImageHead) (b : List Byte) (r c : Nat) : W32 :=
  if h.kind = 0x10 then BitVec.ofNat 32 (field b (h.elemsAt + 4 * (r * h.cols + c)) 4)
  else BitVec.ofNat 32 (roundTo f32 false (imageValue h b r c) .rne).1

/-- afil (R301): the values of a matching image, or canonical NaNs. -/
def fillAcc (d : AccData) (rows cols : Nat) (image : Option (ImageHead × List Byte)) : Written :=
  let cells := (region rows cols).map fun p =>
    (p.1, p.2, (match image with
      | some (h, b) => fillValue h b p.1 p.2
      | none => nanWord), false)
  let w := d.writeAll cells
  { acc := { w.acc with ovf := false }, ovf := false, nan := w.nan && image.isSome }

/-- adrn (R302): the image of an accumulator's active region, and whether a conversion overflowed or a value is NaN. -/
def drainImage (d : AccData) (rows cols fmt width : Nat) (axis : Bool) : List Byte × Bool × Bool :=
  let kind := [0x10, 0x11, 0x12].getD fmt width
  let head (nanblk sat : Bool) : ImageHead := ⟨rows, cols, kind, axis, 0, false, nanblk, sat, false⟩
  if fmt = 3 then
    let p := quantisePlanes rows cols width axis (fun r c => d.num r c) (fun _ _ => .rne)
    ((head p.nanblk (d.ovf || p.sat)).bytes ++ padded p.exps ++ padded p.elems, false, p.nanblk)
  else
    let F := if fmt = 1 then bf16 else f16
    let each := (region rows cols).map fun p => if fmt = 0 then ((d.value p.1 p.2).toNat, 0) else roundTo F false (d.num p.1 p.2) .rne
    let nan := (region rows cols).any fun p => isNanBits (d.value p.1 p.2)
    let over_ := each.any fun v => v.2 &&& flagOF != 0
    ((head nan (d.ovf || over_)).bytes ++ padded (each.flatMap fun v => leBytes (if fmt = 0 then 4 else 2) v.1), over_, nan)

end Sys2Proof.Machine
end

