-- ==== Sys2Proof/Machine/MatrixIssue.lean ====
section
/-!
DEFINITION. The issue of class 1 operations (R283 to R286, R308): allocation, shapes and store ranges, the skip decision
(R354), what record mode will log and its reservation (R320 to R325), and ownership (R285).
-/

namespace Sys2Proof.Machine

/-! ### Checks at issue (R279, R284, R286) -/

/-- A group may name a tile: inside the allocation, and a trap tile only in handler mode (R279). -/
def Ctx.mayTile (x : Ctx) (t : Nat) : Bool :=
  decide (t < x.team.kernel.tiles) && (x.g.handler || decide (t < x.team.kernel.tiles - x.team.kernel.trapTiles))
/-- A group may name an accumulator (R279). -/
def Ctx.mayAcc (x : Ctx) (a : Nat) : Bool := decide (a < x.team.kernel.accs)

/-- A trap that an issue takes: its cause and TRAPINFO1. -/
structure IssueTrap where
  cause : Nat
  info : W32
deriving DecidableEq, Repr, Inhabited

/-- The shape trap (R284). -/
def shapeTrap (operand reason : Nat) : IssueTrap := ⟨2, BitVec.ofNat 32 (operand * 256 + reason)⟩

/-- The checks of n bytes at a store address: alignment, range, and the write ranges of a die-store write (R286). -/
def Ctx.spanTrap (x : Ctx) (space addr n align : Nat) (write : Bool) : Option IssueTrap :=
  let acc := write.toNat
  if addr % align ≠ 0 then some ⟨10, accessInfo acc 0 1 0xFF⟩
  else if (if space = 0 then x.team.kernel.unit else x.launch.dieWin) < addr + n then some ⟨10, accessInfo acc 0 2 0xFF⟩
  else if write && space == 1 && x.launch.form == 1 && !inRanges x.team 1 addr n then some ⟨5, accessInfo 1 0 1 0xFF⟩
  else none

/-- The checks of a product's operands (R290): the shapes of A and B under their numbers. -/
def productTrap (sa sb : TileShape) (a b : Nat) : Option IssueTrap :=
  if sa.axis then some (shapeTrap a 1)
  else if !sb.axis || sb.mapped then some (shapeTrap b 2)
  else if sb.rows ≠ (if sa.mapped then sa.kbase else sa.cols) then some (shapeTrap b 3)
  else none
/-- The check of a product's accumulator (R290). -/
def Ctx.targetTrap (x : Ctx) (mode c m n : Nat) : Option IssueTrap :=
  if mode ≠ 1 ∧ x.team.accShape c ≠ (m, n) then some (shapeTrap c 4) else none

/-! ### The skip decision (R308, R354) -/

/-- The group's open step applies to a sequenced operation. -/
def Ctx.sequenced (x : Ctx) (seq : Bool) : Bool := seq && !x.g.handler && x.g.step.isSome
/-- The index of an operation's output tile, g29. -/
def Ctx.tileIndex (x : Ctx) : Nat := (x.g.readG false 29).toNat
/-- A sequenced operation waits until a handle that g29 awaits has given way to its result word (R115, R308). -/
def Ctx.awaitsIndex (x : Ctx) (seq : Bool) : Bool := x.sequenced seq && x.waitsOn [125]
/-- The tiles of a slot's grid. -/
def SeqSlot.tiles (q : SeqSlot) : Nat := q.cfg.gridx * q.cfg.gridy
/-- Skipped or not, or none while the decision is not taken yet. -/
def Ctx.decision (x : Ctx) (s : State) (seq : Bool) : Option Bool :=
  match (if x.sequenced seq then x.g.step else none) with
  | none => some false
  | some (_, phys, _) =>
    let i := x.tileIndex
    match s.seqSlots.find phys, x.g.signatures.find i with
    | some q, some (_, d) => if q.tiles ≤ i then some false else d
    | _, _ => some false

/-! ### What an operation would log (R320 to R325) -/

/-- A kept operand: its value id, the item that saves it, the mode its instruction gives, whether it takes the default of
operand B, and for the B operand of `mmah` and `mmag` whether RECOMPUTE repeats fetches and KEEP becomes RECOMPUTE. -/
structure Kept where
  id : Nat
  items : List LogItem
  mode : Nat
  second : Bool
  fetched : Bool
  many : Bool
deriving DecidableEq, Repr, Inhabited

/-- What an operation is for the log: the fields of its entry, kept operands and other items, and its output's shape. -/
structure LogInfo where
  major : Nat
  fn : Nat
  dst : Nat := 0xFF
  opa : Nat := 0xFF
  opb : Nat := 0xFF
  rows : Nat := 1
  k : Nat := 32
  cols : Nat := 32
  wa : Nat := 0
  wb : Nat := 0
  aux : Nat := 0
  aux2 : Nat := 0
  also : List Nat := []
  kept : List Kept := []
  before : List LogItem := []
  after : List LogItem := []
  outRows : Nat := 1
  outCols : Nat := 32
deriving DecidableEq, Repr, Inhabited

/-- SHAPE of an entry (R320). -/
def shapeField (rows k cols : Nat) : Nat := (rows - 1) * 256 + (k / 32 - 1) * 8 + (cols / 32 - 1)

/-- The operations of the group that are issued and not accepted, newest first, as they will log. -/
def Group.unlogged (g : Group) : List LogPlan := ((g.cls 1).ops.filterMap Op.toLog).reverse
/-- The producer of a value is a `tmovi` or `afil` (R323). -/
def recomputable (g : Group) (c : LogCtx) (id : Nat) : Bool :=
  match g.unlogged.find? fun p => p.writes.contains id with
  | some p => p.entry.major = 0x3A ∧ (p.entry.fn = 1 ∨ p.entry.fn = 6)
  | none => ((c.producers.find id).map (·.2)).getD false

/-- The resolved mode of a kept operand (R323). -/
def Kept.resolve (k : Kept) (g : Group) (c : LogCtx) : Nat :=
  let mode := if k.mode = 0 then (if k.second then c.defsave / 4 % 4 else c.defsave % 4) else k.mode
  if k.fetched then (if k.many ∧ mode = 2 then 3 else mode)
  else if mode = 3 ∧ !recomputable g c k.id then 1 else mode

/-- The shape of the carry buffer that a reuse entry would need: of an origin without one (R342). -/
def carryShape (g : Group) (c : LogCtx) (index dst major fn : Nat) : Option (Nat × Nat) :=
  match g.unlogged.find? fun p =>
      p.entry.kind = 1 ∧ p.index = some index ∧ p.entry.dst = dst ∧ p.entry.major = major ∧ p.entry.fn = fn with
  | some p => some (p.rows, p.cols)
  | none =>
    match c.origins.find? fun o => o.sameKey index dst major fn with
    | some o => if o.carry then none else some (o.rows, o.cols)
    | none => none

/-- What an operation of a recording group logs; skipped makes it a reuse entry (R320, R342). -/
def LogInfo.plan (i : LogInfo) (g : Group) (c : LogCtx) (slot : Nat) (index : Option Nat) (skipped : Bool) : LogPlan :=
  let e : LogEntry :=
    { kind := if skipped then 2 else 1, major := i.major, fn := i.fn, slot := slot, dst := i.dst, opa := i.opa, opb := i.opb
      modes := 0, shape := if skipped then shapeField i.outRows 32 i.outCols else shapeField i.rows i.k i.cols
      wa := i.wa, wb := i.wb, doff := noIndex, aux := if skipped then 0 else i.aux, proda := noIndex
      aux2 := if skipped then 0 else i.aux2, carry := noIndex }
  if skipped then
    let items :=
      if 32 ≤ i.dst ∧ i.dst < 64 then
        match carryShape g c (index.getD 0) i.dst i.major i.fn with
        | some (r, k) => [LogItem.carry r k]
        | none => []
      else []
    ⟨e, items, index, i.outRows, i.outCols, none, []⟩
  else
    let modes := i.kept.map fun k => (k, k.resolve g c)
    let field_ := if i.kept = [] then 0
      else (modes.map fun m => m.2 * (if m.1.second then 4 else 1)).sum + (c.gw - 2) * 16
    let saved := modes.flatMap fun m => if m.2 = 1 then m.1.items else []
    ⟨{ e with modes := field_ }, i.before ++ saved ++ i.after, index, i.outRows, i.outCols, none, i.also⟩

/-- The log-overflow trap of an operation (R325). -/
def LogCtx.overflow (c : LogCtx) (need : Nat) : Option IssueTrap :=
  if 2 ^ 24 - 1 ≤ c.next + c.reservedEntries then some ⟨6, BitVec.ofNat 32 (2 ^ 31 + need)⟩
  else if c.dtop < c.entryEnd + c.reserved + need then some ⟨6, BitVec.ofNat 32 need⟩
  else none

/-! ### Ownership (R285, R344) -/

/-- A tile or accumulator among owns is in use by an operation, or a `trvs`, of another group of the team. -/
def Ctx.blocked (x : Ctx) (s : State) (owns : List Nat) : Bool :=
  s.groups.entries.any fun e =>
    e.1 != slotKey x.core x.slot && e.2.team == x.g.team &&
      ((e.2.cls 1).ops.any (fun o => o.owns.any owns.contains) ||
        (e.2.reversing.any fun r => r.owns.any owns.contains))

/-! ### Issue -/

/-- A class 1 operation that has passed the checks of R284 up to shapes: its work, the values it names, its seq flag, the
shapes it leaves, what it would log, and the store ranges still to check. -/
structure MatrixReq where
  work : MatrixWork
  owns : List Nat
  seq : Bool := false
  tiles : List (Nat × TileShape) := []
  accs : List (Nat × (Nat × Nat)) := []
  log : LogInfo
  spans : List (Option IssueTrap) := []
deriving DecidableEq, Repr, Inhabited

/-- The log context that an operation of the group is logged in: while it records, outside handler mode (R317). -/
def Ctx.logNow (x : Ctx) : Option LogCtx := if x.g.recording && !x.g.handler then x.team.logFor x.g.log else none

/-- The sequencer counts a suppressed operation (R354). -/
def State.suppress (s : State) (g : Group) : State :=
  match g.step with
  | some (_, phys, _) => { s with seqSlots := s.seqSlots.modify phys fun q => { q with suppressed := q.suppressed + 1 } }
  | none => s

/-- Gives a class 1 operation its number, shapes, ownership and reservation, and completes its instruction of n words. Outside
shared-log record mode the engine accepts it at once; in it, the operation that fills class 1 seals the batch (R283, R307). -/
def Ctx.enterMatrix (x : Ctx) (s : State) (g : Group) (r : MatrixReq) (skip : Bool) (plan : Option LogPlan) (m : Bool)
    (n : Nat) : Out :=
  let g := { g.issueOp 1 (.matrix (if skip then .skipped else r.work) plan) (if skip then [] else r.owns) 0 s.tick with
    batch := g.batch + 1 }
  let reserve (c : LogCtx) : LogCtx :=
    { c with reserved := c.reserved + (plan.map LogPlan.need).getD 0, reservedEntries := c.reservedEntries + 1 }
  let t := (s.teams.find x.g.team).getD x.team
  let t :=
    if skip then t
    else
      { t with
        tileShapes := r.tiles.foldl (fun m p => m.set p.1 p.2) t.tileShapes
        accShapes := r.accs.foldl (fun m p => m.set p.1 p.2) t.accShapes }
  let t :=
    match plan, t.logFor g.log with
    | some _, some c => t.putLog (reserve c)
    | _, _ => t
  let s := (x.put (if skip then s.suppress g else s) (g.advance x.frag m n)).putTeam x.g.team t
  .next (if g.holdsBatch t && g.full 1 then s.sealGroup x.core x.slot else s.acceptBatch x.core x.slot)

/-- Waits, and in shared-log record mode seals the group's batch as the waits of R307 do (R355). -/
def Ctx.waitSealing (x : Ctx) (s : State) : Out := .next (s.sealForWait x.core x.slot 1)

/-- The decision, the log and store checks, and the stalls of an operation, which come before its issue; act then
completes it, told whether it is skipped and what it logs. -/
def Ctx.gateMatrix (x : Ctx) (s : State) (r : MatrixReq) (act : Bool → Option LogPlan → Out) : Out :=
  match x.decision s r.seq with
  | none => x.waitSealing s
  | some skip =>
    let index := if x.sequenced r.seq then some x.tileIndex else none
    let plan := x.logNow.map fun c => (c, r.log.plan x.g c x.slot index skip)
    match plan.bind fun p => p.1.overflow p.2.need with
    | some t => x.trap s t.cause t.info
    | none =>
      match r.spans.findSome? id with
      | some t => x.trap s t.cause t.info
      | none =>
        if x.g.full 1 then x.waitSealing s
        else if x.blocked s r.owns then .next s
        else act skip (plan.map (·.2))

/-- Issues a class 1 operation by an instruction of n words, the second of which is second; ok is its allocation and bad its shape
trap (R284). -/
def Ctx.issueMatrix (x : Ctx) (s : State) (m : Bool) (n : Nat) (ok : Bool) (bad : Option IssueTrap) (r : MatrixReq)
    (second : W32 := 0) : Out :=
  if x.awaitsIndex r.seq then .next s
  else if !ok then x.illegal s second
  else
    match bad with
    | some t => x.trap s t.cause t.info
    | none => x.gateMatrix s r fun skip plan => x.enterMatrix s x.g r skip plan m n

/-! ### Value ids -/

/-- The value id of an accumulator (R320). -/
def accId (a : Nat) : Nat := 32 + a

end Sys2Proof.Machine
end

