-- ==== Sys2Proof/Machine/MatrixMoves.lean ====
section
/-!
DEFINITION. The TCTL, AOP and MMA majors (R281, R290, R297 to R304): shape and drain words, and one meaning for each.
-/

namespace Sys2Proof.Machine

/-! ### Shape and drain words (R282, R302) -/

/-- AROWS, ACOLS and SPACE of a shape word; none if a reserved bit is set. -/
def shapeWord (w : W32) (spaces : Bool) : Option (Nat × Nat × Nat) :=
  let v := w.toNat
  if v / 2 ^ 17 ≠ 0 ∨ v / 8 % 32 ≠ 0 ∨ (!spaces ∧ v / 2 ^ 16 % 2 = 1) then none
  else some (v / 256 % 256 + 1, (v % 8 + 1) * 32, v / 2 ^ 16 % 2)

/-- A drain word: space, axis, width and format. -/
structure Drain where
  space : Nat
  axis : Bool
  width : Nat
  fmt : Nat
deriving DecidableEq, Repr, Inhabited

/-- The drain word of an accumulator of some rows, if it is valid. -/
def drainWord (w : W32) (rows : Nat) : Option Drain :=
  let v := w.toNat
  let d : Drain := ⟨v / 512 % 2, v / 256 % 2 == 1, v / 16 % 8 + 2, v % 8⟩
  if v / 1024 ≠ 0 ∨ v / 128 % 2 = 1 ∨ v / 8 % 2 = 1 ∨ 3 < d.fmt ∨ 8 < d.width ∨ (d.fmt ≠ 3 ∧ (d.axis ∨ d.width ≠ 2)) ∨
      (d.axis ∧ rows % 32 ≠ 0) then none
  else some d
/-- Bytes of the image that a drain writes (R233, R302). -/
def drainSize (d : Drain) (rows cols : Nat) : Nat :=
  ImageHead.size ⟨rows, cols, [0x10, 0x11, 0x12].getD d.fmt d.width, d.axis, 0, false, false, false, false⟩

/-! ### TCTL (R281, R297 to R302) -/

/-- tcfg (R281); the second word gives the control state. -/
def execTcfg (m : Bool) (t dup : Nat) (axis : Bool) (cols rows wd : Nat) (s : State) : Out :=
  onFrag s fun x =>
    let sh : TileShape := ⟨rows + 1, 32 * (cols + 1), wd + 2, axis, dup != 0, dup⟩
    let word := dup * 2 ^ 24 + axis.toNat * 2 ^ 23 + cols * 2 ^ 20 + rows * 2 ^ 12 + wd * 2 ^ 9
    x.issueMatrix s m 2 (x.mayTile t) none
      { work := .tcfg t, owns := [t], tiles := [(t, sh)]
        log := { major := 0x3A, fn := 0, dst := t, rows := sh.rows, cols := sh.cols, aux := word } } (BitVec.ofNat 32 word)

/-- tmovi (R297). -/
def execTmovi (m : Bool) (t a : Nat) (p : Bool) (s : State) : Out :=
  onFrag s fun x =>
    if x.waitsOn [a] then .next s
    else
      let sh := x.team.tileShape t
      let at_ := (x.uni a).toNat
      x.issueMatrix s m 1 (x.mayTile t) none
        { work := .tmovi t sh p.toNat at_, owns := [t], spans := [x.spanTrap p.toNat at_ sh.imageSize 32 false]
          log := { major := 0x3A, fn := 1, dst := t, rows := sh.rows, cols := sh.cols, wa := sh.mapped.toNat, aux := at_
                   aux2 := p.toNat, after := if sh.mapped then [.tileMap t] else [] } }

/-- tmovo (R298). -/
def execTmovo (m : Bool) (t a : Nat) (p : Bool) (s : State) : Out :=
  onFrag s fun x =>
    if x.waitsOn [a] then .next s
    else
      let sh := x.team.tileShape t
      let at_ := (x.uni a).toNat
      x.issueMatrix s m 1 (x.mayTile t) none
        { work := .tmovo t sh p.toNat at_, owns := [t], spans := [x.spanTrap p.toNat at_ sh.imageSize 32 true]
          log := { major := 0x3A, fn := 2, opa := t, rows := sh.rows, cols := sh.cols, aux := at_, aux2 := p.toNat } }

/-- tzero (R299). -/
def execTzero (m : Bool) (t : Nat) (s : State) : Out :=
  onFrag s fun x =>
    let sh := x.team.tileShape t
    x.issueMatrix s m 1 (x.mayTile t) none
      { work := .tzero t, owns := [t], log := { major := 0x3A, fn := 3, dst := t, rows := sh.rows, cols := sh.cols } }

/-- azero (R299). -/
def execAzero (m : Bool) (n b : Nat) (s : State) : Out :=
  onFrag s fun x =>
    if x.waitsOn [b] then .next s
    else
      let w := x.uni b
      let shape := shapeWord w false
      let (rows, cols, _) := shape.getD (1, 32, 0)
      x.issueMatrix s m 1 (x.mayAcc n) (if shape = none then some (shapeTrap 0xFF 6) else none)
        { work := .azero n, owns := [accId n], accs := [(n, (rows, cols))]
          log := { major := 0x3A, fn := 4, dst := accId n, rows := rows, cols := cols, aux2 := w.toNat } }

/-- adrn (R302). -/
def execAdrn (m q : Bool) (n a b : Nat) (s : State) : Out :=
  onFrag s fun x =>
    if x.waitsOn [a, b] then .next s
    else
      let (rows, cols) := x.team.accShape n
      let drain := drainWord (x.uni b) rows
      let d := drain.getD ⟨0, false, 2, 0⟩
      let at_ := (x.uni a).toNat
      x.issueMatrix s m 1 (x.mayAcc n) (if drain = none then some (shapeTrap 0xFF 6) else none)
        { work := .adrn n rows cols d.space at_ d.fmt d.width d.axis, owns := [accId n], seq := q
          spans := [x.spanTrap d.space at_ (drainSize d rows cols) 32 true]
          log := { major := 0x3A, fn := 5, opa := accId n, rows := rows, cols := cols, aux := at_, aux2 := (x.uni b).toNat
                   outRows := rows, outCols := cols } }

/-- afil (R301). -/
def execAfil (m : Bool) (n a b : Nat) (s : State) : Out :=
  onFrag s fun x =>
    if x.waitsOn [a, b] then .next s
    else
      let w := x.uni b
      let shape := shapeWord w true
      let (rows, cols, space) := shape.getD (1, 32, 0)
      let at_ := (x.uni a).toNat
      x.issueMatrix s m 1 (x.mayAcc n) (if shape = none then some (shapeTrap 0xFF 6) else none)
        { work := .afil n rows cols space at_, owns := [accId n], accs := [(n, (rows, cols))]
          spans := [x.spanTrap space at_ 32 32 false]
          log := { major := 0x3A, fn := 6, dst := accId n, rows := rows, cols := cols, aux := at_, aux2 := w.toNat } }

/-- tdmap (R300); field 96 clears the map. -/
def execTdmap (m : Bool) (t a : Nat) (s : State) : Out :=
  onFrag s fun x =>
    if a ≠ 96 ∧ x.waitsOn [a] then .next s
    else
      let sh := x.team.tileShape t
      let at_ := if a = 96 then none else some (x.uni a).toNat
      x.issueMatrix s m 1 (x.mayTile t) (if sh.mapped then none else some (shapeTrap t 6))
        { work := .tdmap t sh at_, owns := [t]
          spans := at_.toList.map fun p => x.spanTrap 0 p 32 32 false
          log := { major := 0x3A, fn := 7, dst := t, rows := sh.rows, cols := sh.cols, aux := at_.getD noIndex } }

/-! ### mma (R290) -/

/-- A product of two tile registers: mode 0 acc, 1 set, 2 sub, with the save modes of its operands. -/
def matrixProduct (mode : Nat) (m : Bool) (c a b : Nat) (q : Bool) (sva svb : Nat) (s : State) : Out :=
  onFrag s fun x =>
    let sa := x.team.tileShape a
    let sb := x.team.tileShape b
    let bad := (productTrap sa sb a b).orElse fun _ => x.targetTrap mode c sa.rows sb.cols
    x.issueMatrix s m 1 (x.mayTile a && x.mayTile b && x.mayAcc c) bad
      { work := .mma mode c a b sa sb, owns := [accId c, a, b], seq := q
        accs := if mode = 1 then [(c, (sa.rows, sb.cols))] else []
        log := { major := 0x38, fn := mode, dst := accId c, opa := a, opb := b, rows := sa.rows, k := sa.cols, cols := sb.cols
                 wa := sa.width, wb := sb.width, outRows := sa.rows, outCols := sb.cols
                 kept := [⟨a, [.tile a sa], sva, false, false, false⟩, ⟨b, [.tile b sb], svb, true, false, false⟩] } }

/-- mma.acc (R290). -/
def execMmaAcc (m : Bool) (c a b : Nat) (q : Bool) (sva svb : Nat) (s : State) : Out := matrixProduct 0 m c a b q sva svb s
/-- mma.set (R290). -/
def execMmaSet (m : Bool) (c a b : Nat) (q : Bool) (sva svb : Nat) (s : State) : Out := matrixProduct 1 m c a b q sva svb s
/-- mma.sub (R290). -/
def execMmaSub (m : Bool) (c a b : Nat) (q : Bool) (sva svb : Nat) (s : State) : Out := matrixProduct 2 m c a b q sva svb s

/-! ### AOP (R303, R304) -/

/-- An accumulator operation: function fn on D and S, with T for two sources, operand x, what the log keeps, and a bias
row to check. -/
def accOp (fn : Nat) (m q : Bool) (d src : Nat) (t : Option Nat) (w : W32) (code : Nat) (kept : List Kept)
    (after : Nat → Nat → List LogItem) (x : Ctx) (s : State) : Out :=
  let (rows, cols) := x.team.accShape src
  let outCols := if fn = 5 ∨ fn = 6 then 32 else cols
  let differ := match t with
    | some t => x.team.accShape t != (rows, cols)
    | none => false
  x.issueMatrix s m 1 (x.mayAcc d && x.mayAcc src && t.all x.mayAcc) (if differ then some (shapeTrap (t.getD 0) 5) else none)
    { work := .aop fn d src (t.getD 0) rows cols w
      owns := [accId d, accId src] ++ t.toList.map accId, seq := q, accs := [(d, (rows, outCols))]
      spans := if fn = 4 then [x.spanTrap 0 w.toNat (4 * cols) 4 false] else []
      log := { major := 0x3B, fn := fn, dst := accId d, opa := accId src, opb := (t.map accId).getD 0xFF, rows := rows
               cols := cols, wa := code, aux := if fn = 3 ∨ fn = 4 then w.toNat else 0, outRows := rows, outCols := outCols
               kept := kept, after := after rows cols } }

/-- The operand S that `aact` and `aemul` keep, and T of `aemul` (R323). -/
def keptAcc (x : Ctx) (a : Nat) (second : Bool) : Kept :=
  ⟨accId a, [.acc a (x.team.accShape a).1 (x.team.accShape a).2], 0, second, false, false⟩
/-- The function code of `aact` (R304). -/
def activationCode : Activation → Nat
  | .relu => 0
  | .gelu => 1
  | .silu => 2
  | .sigm => 3
  | .tanh => 4
  | .erf => 5

/-- aact (R304). -/
def execAact (m q : Bool) (d src : Nat) (f : Activation) (s : State) : Out :=
  onFrag s fun x =>
    accOp 0 m q d src none (BitVec.ofNat 32 (activationCode f)) (activationCode f) [keptAcc x src false] (fun _ _ => []) x s
/-- aadd (R304). -/
def execAadd (m q : Bool) (d src t : Nat) (s : State) : Out :=
  onFrag s fun x => accOp 1 m q d src (some t) 0 0 [] (fun _ _ => []) x s
/-- aemul (R304). -/
def execAemul (m q : Bool) (d src t : Nat) (s : State) : Out :=
  onFrag s fun x => accOp 2 m q d src (some t) 0 0 [keptAcc x src false, keptAcc x t true] (fun _ _ => []) x s
/-- ascal (R304): the scale as it is at issue. -/
def execAscal (m q : Bool) (d src g : Nat) (s : State) : Out :=
  onFrag s fun x => if x.waitsOn [g] then .next s else accOp 3 m q d src none (x.uni g) 0 [] (fun _ _ => []) x s
/-- abias (R304): the address as it is at issue. -/
def execAbias (m q : Bool) (d src g : Nat) (s : State) : Out :=
  onFrag s fun x => if x.waitsOn [g] then .next s else accOp 4 m q d src none (x.uni g) 0 [] (fun _ _ => []) x s
/-- arsum (R304). -/
def execArsum (m q : Bool) (d src : Nat) (s : State) : Out :=
  onFrag s fun x => accOp 5 m q d src none 0 0 [] (fun _ _ => []) x s
/-- armax (R304): the log saves its indices (R321). -/
def execArmax (m q : Bool) (d src : Nat) (s : State) : Out :=
  onFrag s fun x => accOp 6 m q d src none 0 0 [] (fun r c => [.indices src r c]) x s
/-- acpy (R304). -/
def execAcpy (m q : Bool) (d src : Nat) (s : State) : Out :=
  onFrag s fun x => accOp 7 m q d src none 0 0 [] (fun _ _ => []) x s

end Sys2Proof.Machine
end

