-- ==== Sys2Proof/Machine/Handled.lean ====
section
/-!
DEFINITION. Multiplication through tile handles: the descriptor of `mmah` and `mmag` (R292), the checks of R293, the
operand-fetch copies and the issue of both (R294 to R296).
-/

namespace Sys2Proof.Machine

/-- A descriptor (R292); for `mmah` the second staging tile and image are the first. -/
structure HandleDesc where
  acc : Nat
  ta : Nat
  ts0 : Nat
  ts1 : Nat
  mode : Nat
  seq : Bool
  sva : Nat
  svb : Nat
  edim : Nat
  lrec : Nat
  stg0 : Nat
  stg1 : Nat
  salt : Nat
  origin : List Int
  counts : List Nat
  experts : List Nat
deriving DecidableEq, Repr, Inhabited

/-- The descriptor that bytes hold, if its fields are within R292. -/
def readHandleDesc (many : Bool) (b : List Byte) : Option HandleDesc :=
  let mode := field b 4 1
  let ngrp := field b 6 1
  let d : HandleDesc :=
    { acc := field b 0 1, ta := field b 1 1, ts0 := field b 2 1, ts1 := if many then field b 3 1 else field b 2 1
      mode := mode % 4, seq := mode / 4 % 2 == 1, sva := mode / 8 % 4, svb := mode / 32 % 4, edim := field b 5 1
      lrec := field b 8 4, stg0 := field b 12 4, stg1 := if many then field b 16 4 else field b 12 4, salt := field b 20 4
      origin := (List.range 4).map fun k => signedOf 32 (field b (24 + 4 * k) 4)
      counts := (List.range ngrp).map fun k => field b (64 + 2 * k) 2
      experts := (List.range ngrp).map fun k => field b (128 + 2 * k) 2 }
  let kind := d.lrec / 2 ^ 30
  if mode % 4 ≠ 3 ∧ mode < 128 ∧ zeros b 7 1 ∧ zeros b 40 24 ∧ d.stg0 % 32 = 0 ∧ d.stg1 % 32 = 0 ∧ d.acc < 32 ∧ d.ta < 16 ∧
      d.ts0 < 16 ∧ d.ts1 < 16 ∧ kind ≤ 2 ∧ (kind = 1 → d.lrec / 2 ^ 20 % 2 ^ 10 = 0) ∧
      (if many then d.edim ≤ 3 ∧ 1 ≤ ngrp ∧ ngrp ≤ 32 else zeros b 3 1 ∧ zeros b 5 2 ∧ zeros b 16 4) then some d
  else none

/-- The parts of an operation: a table entry with a non-zero count each, with its first row and count. -/
def partsFrom (first entry : Nat) : List Nat → List (Nat × Nat × Nat)
  | [] => []
  | m :: rest =>
    if m = 0 then partsFrom first (entry + 1) rest else (entry, first, m) :: partsFrom (first + m) (entry + 1) rest

/-- The descriptor of the operand-fetch copy for table entry e (R294, R295). -/
def HandleDesc.fetchDesc (d : HandleDesc) (many : Bool) (e stg : Nat) : CopyDesc :=
  { lrec := d.lrec, img := stg
    origin := (List.range 4).map fun k =>
      d.origin.getD k 0 + (if many ∧ k = d.edim then ((d.experts.getD e 0 : Nat) : Int) else 0)
    salt := d.salt, ring := false, queue := false, stoch := false, ispace := 0, rnum := 0, qnum := 0, grow := 0, token := 0
    dst := 0, len := 0, sspace := 0, dspace := 0, transpose := false, flip := false, xw := 0 }

/-- Issues the operand-fetch copies of parts in order; none if the scoreboard or class 0 cannot take them all (R293). -/
def Ctx.issueFetches (x : Ctx) (d : HandleDesc) (many : Bool) (record : Option LayoutRec) (size : Nat) :
    List (Nat × Nat × Nat) → Nat → State → Group → Option (State × Group × List Nat)
  | [], _, s, g => some (s, g, [])
  | (e, _, _) :: rest, b, s, g =>
    if g.full 0 then none
    else
      let c := CopyCmd.fresh 0 (d.fetchDesc many e (if b % 2 = 0 then d.stg0 else d.stg1)) record [] none size
      let seq := (g.cls 0).nextSeq
      match s.reserveCopy x.env seq c with
      | none => none
      | some (s, c) =>
        match x.issueFetches d many record size rest (b + 1) s (g.issueOp 0 (.copy c) [] 0 s.tick) with
        | none => none
        | some (s, g, seqs) => some (s, g, seq :: seqs)

/-- mmah and mmag (R293): the checks in order, the skip decision, the copies, and the operation. -/
def handleProduct (many : Bool) (m : Bool) (a : Nat) (s : State) : Out :=
  onFrag s fun x =>
    let at_ := (x.uni a).toNat
    let size := if many then 192 else 64
    let t := x.team
    let bad (info : Nat) : Out := x.illegal s (BitVec.ofNat 32 info)
    if x.waitsOn [a] then .next s
    else if at_ % 64 ≠ 0 then x.trap s 10 (accessInfo 0 0 1 0xFF)
    else if t.kernel.unit < at_ + size then x.trap s 10 (accessInfo 0 0 2 0xFF)
    else
      let bytes := s.mem.bytes (unitKey x.core (t.base + at_)) size
      match readHandleDesc many bytes with
      | none => bad at_
      | some d =>
        let ro := d.lrec % 2 ^ 30
        let inUnit := d.lrec / 2 ^ 30 = 0
        let record :=
          if inUnit ∧ ro % 64 = 0 ∧ ro + 64 ≤ t.kernel.unit then
            readLayout (s.mem.bytes (unitKey x.core (t.base + ro)) 64)
          else none
        if x.awaitsIndex d.seq then .next s
        else if inUnit ∧ record = none then bad ro
        else if !(x.mayTile d.ta && x.mayTile d.ts0 && x.mayTile d.ts1 && x.mayAcc d.acc) then bad at_
        else
          let sa := t.tileShape d.ta
          let s0 := t.tileShape d.ts0
          let s1 := t.tileShape d.ts1
          let counts := if many then d.counts else [sa.rows]
          let shapes :=
            ((productTrap sa s0 d.ta d.ts0).orElse fun _ => productTrap sa s1 d.ta d.ts1).orElse fun _ =>
              if s0 ≠ s1 ∨ counts.sum ≠ sa.rows then some (shapeTrap 0xFF 7)
              else x.targetTrap d.mode d.acc sa.rows s0.cols
          match shapes with
          | some trap => x.trap s trap.cause trap.info
          | none =>
            let parts := partsFrom 0 0 counts
            let img := s0.imageSize
            let stgTrap (p : Nat) : Option IssueTrap :=
              if t.kernel.unit < p + img then some ⟨10, accessInfo 0 0 2 0xFF⟩ else none
            let req (seqs : List Nat) : MatrixReq :=
              { work := .mmag d.mode d.acc d.ta sa ((List.range parts.length).map fun b =>
                  let p := parts.getD b (0, 0, 0)
                  ⟨p.1, p.2.1, p.2.2, seqs.getD b 0, none, if b % 2 = 0 then d.ts0 else d.ts1, if b % 2 = 0 then s0 else s1,
                    if b % 2 = 0 then d.stg0 else d.stg1⟩) 0
                owns := [accId d.acc, d.ta, d.ts0, d.ts1], seq := d.seq
                accs := if d.mode = 1 then [(d.acc, (sa.rows, s0.cols))] else []
                spans := [stgTrap d.stg0, stgTrap d.stg1]
                log := { major := 0x39, fn := many.toNat, dst := accId d.acc, opa := d.ta, opb := d.ts0, rows := sa.rows
                         k := sa.cols, cols := s0.cols, wa := sa.width, wb := s0.width, outRows := sa.rows, outCols := s0.cols
                         also := (parts.zipIdx.map fun p => if p.2 % 2 = 0 then d.ts0 else d.ts1).eraseDups
                         before := [.desc bytes]
                         kept := [⟨d.ta, [.tile d.ta sa], d.sva, false, false, false⟩,
                           ⟨d.ts0, (List.range parts.length).map fun b => .part b s0, d.svb, true, true, many⟩] } }
            x.gateMatrix s (req []) fun skip plan =>
              if skip then x.enterMatrix s x.g (req []) true plan m 1
              else
                match x.issueFetches d many record img parts 0 s x.g with
                | none => .next s
                | some (s', g, seqs) => x.enterMatrix s' g (req seqs) false plan m 1

/-- mmah (R294). -/
def execMmah (m : Bool) (a : Nat) (s : State) : Out := handleProduct false m a s
/-- mmag (R295). -/
def execMmag (m : Bool) (a : Nat) (s : State) : Out := handleProduct true m a s

end Sys2Proof.Machine
end

