-- ==== Sys2Proof/Machine/Transfers.lean ====
section
/-!
DEFINITION. The transfer of a copy (R270 to R274): the checks at its start, its sectors in order, each formed from its sources as it is
written, parks on recoverable faults (R29), and the turn of the copy engine for one copy.
-/

namespace Sys2Proof.Machine

/-! ### Operations of groups and hods -/

/-- The copies outstanding for an agent, oldest first. -/
def State.copyOps (s : State) (core agent : Nat) : List Op :=
  if agent < 64 then ((s.groups.find (slotKey core agent)).map fun g => (g.cls 0).ops).getD []
  else ((s.hods.find (2 * core + (agent - 64))).map (·.ops)).getD []
/-- The work of an operation is done. -/
def Op.isDone (o : Op) : Bool :=
  match o.phase with
  | .done _ => true
  | _ => false
/-- Puts an operation of a group's class back under its number. -/
def Group.putOp (g : Group) (c : Nat) (o : Op) : Group :=
  let k := g.cls c
  { g with classes := g.classes.set c { k with ops := k.ops.map fun p => if p.seq = o.seq then o else p } }
/-- Puts a copy of an agent back under its number. -/
def State.putCopy (s : State) (core agent : Nat) (o : Op) : State :=
  if agent < 64 then { s with groups := s.groups.modify (slotKey core agent) fun g => g.putOp 0 o }
  else
    { s with hods := s.hods.modify (2 * core + (agent - 64)) fun h =>
      { h with ops := h.ops.map fun p => if p.seq = o.seq then o else p } }

/-! ### The start of a transfer (R272) -/

/-- The record of a copy: as read at issue, or by a handle or from rodata (R241). -/
def State.copyRecord (s : State) (e : CopyEnv) (c : CopyCmd) : Except CopyStop LayoutRec :=
  let read (a : Nat) : Except CopyStop LayoutRec :=
    match s.copyRead e c.looks 0 3 (a % 2 ^ 64) 64 with
    | .error x => .error x
    | .ok b =>
      match readLayout b with
      | some r => .ok r
      | none => .error (.err 3)
  match c.record with
  | some r => .ok r
  | none =>
    if c.desc.lrec / 2 ^ 30 = 1 then
      if e.launch.lrtn ≤ c.desc.lrec % 2 ^ 20 then .error (.err 3)
      else read (e.launch.lrt.toNat + 64 * (c.desc.lrec % 2 ^ 20))
    else if c.desc.lrec % 64 ≠ 0 then .error (.err 3)
    else read ((e.launch.db.getD 0 0).toNat + c.desc.lrec % 2 ^ 30)

/-- The header of the source image, and what it says. -/
def State.sourceHead (s : State) (e : CopyEnv) (c : CopyCmd) : Except CopyStop (List Byte × ImageHead) :=
  match s.copyRead e c.looks 1 c.desc.ispace c.desc.img 32 with
  | .error x => .error x
  | .ok b =>
    match readHead b with
    | some h => .ok (b, h)
    | none => .error (.err 4)

/-- An image of n bytes at its destination passes the end of its store, window or slot (R256). -/
def State.tooLong (s : State) (e : CopyEnv) (c : CopyCmd) (n : Nat) : Bool :=
  match c.target with
  | (4, _) => decide ((s.ring e.core c.desc.rnum).slotsz < n)
  | (1, a) => decide (e.launch.dieWin < a + n)
  | (_, a) => decide (e.team.kernel.unit < a + n)
/-- The end of the store or window of a copy's source image. -/
def CopyCmd.sourceEnd (c : CopyCmd) (e : CopyEnv) : Nat :=
  if c.desc.ispace = 1 then e.launch.dieWin else e.team.kernel.unit

/-- The store that an address lies in and the place there, so that ranges of different spaces can be compared. -/
def State.absolute (s : State) (e : CopyEnv) (space addr : Nat) : Nat × Nat :=
  match space with
  | 0 => (4 + e.core, e.team.base + addr)
  | 2 =>
    match (e.team.member addr).bind s.teams.find with
    | some t => (4 + t.core, t.base + addr % 2 ^ 24)
    | none => (2, addr)
  | 4 => (4 + e.core, addr)
  | n => (n, addr)
/-- Two ranges, each a space, an address and a length, share a byte. -/
def State.shareBytes (s : State) (e : CopyEnv) (p q : Nat × Nat × Nat) : Bool :=
  let a := s.absolute e p.1 p.2.1
  let b := s.absolute e q.1 q.2.1
  a.1 == b.1 && overlap a.2 p.2.2 b.2 q.2.2

/-- What is left of a range past one that starts where it does. -/
def pastKnown (known p : Nat × Nat × Nat) : Nat × Nat × Nat :=
  if known.1 = p.1 ∧ known.2.1 = p.2.1 then (p.1, p.2.1 + known.2.2, p.2.2 - known.2.2) else p
/-- Destination ranges that issue did not know lie outside the write ranges (R272). -/
def State.newlyOutside (s : State) (e : CopyEnv) (c : CopyCmd) (l : List (Nat × Nat × Nat)) : Bool :=
  let rest := l.map fun p => (c.firstBytes.head?.map fun k => pastKnown k p).getD p
  rest.any fun p => p.2.2 != 0 && s.outsideRanges e p

/-- The shape of the image that `cpyx` forms from one with header h. -/
def CopyDesc.turned (d : CopyDesc) (h : ImageHead) : ImageHead :=
  { h with
    rows := if d.transpose then h.cols else h.rows
    cols := if d.transpose then h.rows else h.cols
    kind := if d.xw = 0 then h.kind else d.xw
    axis := h.axis != d.flip }

/-- The checks at the start, in the order of R272: the copy with the record and source header that they read. -/
def State.startCopy (s : State) (e : CopyEnv) (c : CopyCmd) : Except CopyStop CopyCmd :=
  let (space, at_) := c.target
  if c.idle then .ok { c with started := true }
  else if c.fn = 4 then
    if c.desc.ring && s.tooLong e c c.desc.len then .error (.err 7) else .ok { c with started := true }
  else if c.fn = 5 then do
    let (b, h) ← s.sourceHead e c
    let out := c.desc.turned h
    if !h.isBfp || (h.mapped && (c.desc.transpose || c.desc.flip)) then .error (.err 4)
    else if s.tooLong e c out.size ∨ c.sourceEnd e < c.desc.img + h.size ∨ out.cols % 32 ≠ 0 ∨ (out.axis ∧ out.rows % 32 ≠ 0) ∨
        s.shareBytes e (c.desc.ispace, c.desc.img, h.size) (space, at_, out.size) then .error (.err 7)
    else if s.newlyOutside e c [(space, at_, out.size)] then .error (.err 6)
    else .ok { c with started := true, header := b }
  else do
    let r ← s.copyRecord e c
    let c' := { c with record := some r }
    let outside := c.record.isNone && s.newlyOutside e c (c'.footprint e r)
    if c.fn ≠ 0 ∧ c.fn ≠ 1 ∧ (r.axis ∨ r.osplit) then .error (.err 3)
    else if c.fn % 2 = 0 then
      if c.fn = 2 ∧ r.boxr < c.desc.grow + c.rows.length then .error (.err 7)
      else if s.tooLong e c r.shape.size then .error (.err 7)
      else if outside then .error (.err 6)
      else .ok { c' with started := true }
    else if !r.blocksFit (r.originWith c.desc.origin) then .error (.err 3)
    else do
      let (b, h) ← s.sourceHead e c
      if h.rows ≠ r.boxr ∨ h.cols ≠ r.boxc + (if h.mapped then 32 else 0) then .error (.err 4)
      else if c.fn = 3 ∧ r.boxr < c.desc.grow + c.rows.length then .error (.err 7)
      else if c.sourceEnd e < c.desc.img + h.size then .error (.err 7)
      else if outside then .error (.err 6)
      else .ok { c' with started := true, header := b }

/-- A read of a source succeeds. -/
def readable (r : Except CopyStop α) : Bool :=
  match r with
  | .ok _ => true
  | .error _ => false
/-- The copy still reads a source, or the record or header that its checks need, so that an uncorrectable error can meet it (R274):
not one of no rows (R258), and not one that a check stops before its first read. -/
def State.stillReads (s : State) (e : CopyEnv) (c : CopyCmd) : Bool :=
  let head := readable (s.copyRead e c.looks 1 c.desc.ispace c.desc.img 32)
  if c.idle then false
  else if c.started then true
  else
    match c.fn, c.record with
    | 5, _ => head
    | 4, _ => readable (s.startCopy e c)
    | _, none =>
      if c.desc.lrec / 2 ^ 30 = 1 then
        decide (c.desc.lrec % 2 ^ 20 < e.launch.lrtn) &&
          readable (s.copyRead e c.looks 0 3 ((e.launch.lrt.toNat + 64 * (c.desc.lrec % 2 ^ 20)) % 2 ^ 64) 64)
      else
        decide (c.desc.lrec % 64 = 0) &&
          readable (s.copyRead e c.looks 0 3 (((e.launch.db.getD 0 0).toNat + c.desc.lrec % 2 ^ 30) % 2 ^ 64) 64)
    | fn, some r =>
      if fn % 2 = 0 then readable (s.startCopy e c)
      else !(fn = 3 ∧ (r.axis ∨ r.osplit)) && r.blocksFit (r.originWith c.desc.origin) && head

/-! ### What a transfer writes -/

/-- What a copy writes, as it can be formed now: the parts, whether its sectors go from the highest down, and the header of an image
with its address. -/
structure CopyPlan where
  space : Nat
  units : List CopyUnit
  down : Bool
  head : Option (Nat × ImageHead)
deriving DecidableEq, Repr, Inhabited

/-- Expansion (R247, R256, R258): `cpyi` and `cpyg`, with their record. -/
def State.planExpand (s : State) (e : CopyEnv) (c : CopyCmd) (r : LayoutRec) : CopyPlan :=
  let (space, at_) := c.target
  let o := r.originWith c.desc.origin
  let rows := (c.boxRows r).map fun p =>
    (p.1, (List.range r.boxc).map fun col => s.element e c.looks (r.reading o p.2 p.1 col) r (r.boxElement o p.2 col))
  let value (x : Except CopyStop Num) : Num :=
    match x with
    | .ok v => v
    | .error _ => .fin false 0 0
  let stop (n : Nat) : Option CopyStop := rows.findSome? fun p => ((List.range r.boxc).zip p.2).findSome? fun q =>
    match q.2 with
    | .error x => if r.osplit ∨ blockOf r.axis r.boxc p.1 q.1 / 32 + 1 = n then some x else none
    | .ok _ => none
  let img := formImage e.launch.key r c.desc.stoch c.desc.salt (rows.map fun p => (p.1, p.2.map value))
  let kept := (c.footprint e r).map fun p => (p.2.1, p.2.1 + p.2.2)
  ⟨space, img.units at_ r.osplit (fun a => kept.any fun k => k.1 ≤ a ∧ a < k.2) stop, false, some (at_, img.head)⟩

/-- The bytes of a source image whose header was read at the start. -/
def State.sourceImage (s : State) (e : CopyEnv) (c : CopyCmd) (h : ImageHead) : Except CopyStop (List Byte) :=
  (s.copyRead e c.looks 2 c.desc.ispace c.desc.img h.size).map fun b => c.header ++ b.drop 32
/-- A plan whose sources cannot be read, with the parts that it would write. -/
def CopyPlan.unreadable (p : CopyPlan) (x : CopyStop) : CopyPlan :=
  { p with units := p.units.map fun u => { u with stop := some x } }

/-- Compression (R249, R257, R258): `cpyo` and `cpys`, with their record. -/
def State.planPress (s : State) (e : CopyEnv) (c : CopyCmd) (r : LayoutRec) : CopyPlan :=
  let h := (readHead c.header).getD default
  let plan (b : List Byte) : CopyPlan :=
    match e.press r (r.originWith c.desc.origin) (drawMode e.launch.key c.desc.stoch 3 c.desc.salt) (mergedValue h b) (c.boxRows r) with
    | some units => ⟨r.copySpace, units, false, none⟩
    | none => ⟨r.copySpace, [⟨[(0, 0, 0)], .zero, some (.err 2)⟩], false, none⟩
  match s.sourceImage e c h with
  | .ok b => plan b
  | .error x => (plan []).unreadable x

/-- A byte move (R259): each sector is read as it is written, the highest first where the ranges overlap and the destination lies above
(R270). -/
def State.planMove (s : State) (e : CopyEnv) (c : CopyCmd) : CopyPlan :=
  let (space, at_) := c.target
  let units := (List.range (c.desc.len / 32)).map fun (k : Nat) =>
    match s.copyRead e c.looks 2 c.desc.sspace (c.desc.img + 32 * k) 32 with
    | .ok b => ⟨wholeBytes (at_ + 32 * k) b, .zero, none⟩
    | .error x => ⟨wholeBytes (at_ + 32 * k) (List.replicate 32 0), .zero, some x⟩
  let above := decide ((s.absolute e c.desc.sspace c.desc.img).2 < (s.absolute e space at_).2)
  ⟨space, units, above && s.shareBytes e (c.desc.sspace, c.desc.img, c.desc.len) (space, at_, c.desc.len), none⟩

/-- Re-blocking (R260). -/
def State.planReblock (s : State) (e : CopyEnv) (c : CopyCmd) : CopyPlan :=
  let (space, at_) := c.target
  let h := (readHead c.header).getD default
  let plan (b : List Byte) : CopyPlan :=
    let img := reblock e.launch.key c.desc h b
    ⟨space, img.units at_ false (fun _ => true) (fun _ => none), false, some (at_, img.head)⟩
  match s.sourceImage e c h with
  | .ok b => plan b
  | .error x => (plan []).unreadable x

/-- What a copy whose transfer has started writes. -/
def State.planCopy (s : State) (e : CopyEnv) (c : CopyCmd) : CopyPlan :=
  if c.idle then ⟨0, [], false, none⟩
  else if c.fn = 4 then s.planMove e c
  else if c.fn = 5 then s.planReblock e c
  else
    match c.record with
    | none => ⟨0, [], false, none⟩
    | some r => if c.fn % 2 = 0 then s.planExpand e c r else s.planPress e c r

/-- The sectors that a plan writes, by their addresses divided by 32, in the order of R270. -/
def CopyPlan.order (p : CopyPlan) : List Nat :=
  let sectors := p.units.foldl (fun m u => u.bits.foldl (fun m w => m.set (w.1 / 32) 0) m) (Map.empty : Map Nat)
  if p.down then sectors.keys.reverse else sectors.keys
/-- The end of the last byte that a plan writes in each of those sectors; none for a sector of which it writes nothing. -/
def CopyPlan.sectorEnd (p : CopyPlan) (a : Nat) : Option Nat :=
  p.units.foldl (fun m u => u.bits.foldl (fun m w =>
    if w.1 / 32 = a ∧ w.2.2 ≠ 0 then some (max (m.getD 0) (w.1 + 1)) else m) m) none
/-- The sectors that a copy will write: those before the first that passes the end of its store, where it stops (R270, R272). -/
def State.willWrite (s : State) (e : CopyEnv) (p : CopyPlan) : List Nat :=
  p.order.takeWhile fun a => match p.sectorEnd a with
    | none => false
    | some stop =>
      match p.space with
      | 0 => decide (stop ≤ e.team.kernel.unit)
      | 2 => ((e.team.member (32 * a)).bind s.teams.find).any fun t => decide ((stop - 1) % 2 ^ 24 < t.kernel.unit)
      | _ => true
/-- A part is formed for the first of its sectors. -/
def CopyUnit.formedAt (u : CopyUnit) (order : List Nat) : Nat :=
  order.findIdx fun a => u.bits.any fun w => w.1 / 32 = a

/-! ### Writing sectors (R270) -/

/-- The bits of one sector, later ones over earlier ones. -/
def sectorBits (sector : Nat) (bits : List (Nat × Nat × Nat)) : List (Nat × Nat × Nat) :=
  writesOf ((bits.filter fun w => w.1 / 32 = sector).foldl (fun m w => addBits m w.1 w.2.1 w.2.2) Map.empty)

/-- Writes one sector, or says why not. A byte that is written in part keeps the other bits, as they stand or as they stood at a look
(R270). -/
def State.writeSector (s : State) (e : CopyEnv) (looks : List Memory) (space : Nat) (ws : List (Nat × Nat × Nat)) :
    Except CopyStop State :=
  let lo := ws.foldl (fun m w => min m w.1) ((ws.headD (0, 0, 0)).1)
  let hi := ws.foldl (fun m w => max m w.1) 0
  match s.copyPlaces e .write space lo (hi + 1 - lo) with
  | .error x => .error x
  | .ok ps =>
    match ps.findSome? fun p => s.lostSite p.2 with
    | some _ => .error (.err 2)
    | none =>
      let s := if space = 3 then s.fillTlb e.ctx lo else s
      .ok (s.scatter (ws.map fun w =>
        let key := (ps.getD (w.1 - lo) (0, .hbm 0)).1
        (key, BitVec.ofNat 8 (((s.lookedByte looks 3 (w.1 / 32) key).toNat &&& (255 - w.2.2)) ||| (w.2.1 &&& w.2.2)))))

/-- Writes sectors, each with its number in the plan's order: the parts that begin there are formed first. It answers the copy as far
as it came, and why it stopped if it did. -/
def State.writeSectors (e : CopyEnv) (p : CopyPlan) (order : List Nat) :
    List (Nat × Nat) → State → CopyCmd → State × CopyCmd × Option CopyStop
  | [], s, c => (s, c, none)
  | (a, i) :: rest, s, c =>
    let due := p.units.filter fun u => u.formedAt order = i
    match due.findSome? (·.stop) with
    | some x => (s, c, some x)
    | none =>
      let bits := c.buffer ++ due.flatMap (·.bits)
      match s.writeSector e c.looks p.space (sectorBits a bits) with
      | .error x => (s, c, some x)
      | .ok s =>
        s.writeSectors e p order rest
          { c with
            done := i + 1, buffer := bits.filter fun w => w.1 / 32 ≠ a
            flags := due.foldl (fun f u => f.and u.flags) c.flags }

/-! ### COPY_TRANSFER_START -/

/-- The scoreboard entry of a copy comes to cover just the sectors that it will write, of those that it covers (R27). -/
def State.shrinkEntry (s : State) (e : CopyEnv) (seq space : Nat) (sectors : List Nat) : State :=
  let spans := sectors.filterMap fun a =>
    let p := s.absolute e space (32 * a)
    if p.1 = 4 + e.core then some (p.2 / 32, p.2 / 32 + 1) else none
  { s with scoreboard := s.scoreboard.map fun p =>
    if p.core = e.core ∧ p.agent = e.agent ∧ p.seq = seq then
      { p with spans := spans.filter fun q => p.spans.any fun old => old.1 ≤ q.1 ∧ q.2 ≤ old.2 }
    else p }

/-- A copy's work ends with a result word. -/
def Op.ended (o : Op) (word : W32) : Op := { o with phase := .done word, parked := none }
def Op.withCopy (o : Op) (c : CopyCmd) : Op := { o with cmd := .copy c }
/-- What a copy reports so far. -/
def Op.copyFlags (o : Op) : CopyFlags :=
  match o.cmd with
  | .copy c => c.flags
  | _ => .zero
/-- A copy ends with an error; it reports what the sectors that it has written raised (R261). -/
def Op.failed (o : Op) (code : Nat) : Op := o.ended (o.copyFlags.word 1 code)
/-- The word of a cancelled operation (R118). -/
def cancelWord : W32 := 0x80000000

/-- A recoverable fault of a copy parks it, or ends it with code 1 where no record can be delivered (R29, R272, R491). -/
def State.parkCopy (s : State) (e : CopyEnv) (o : Op) (kind level va entryAddr : Nat) (a : Access) : State :=
  let hod := 64 ≤ e.agent
  let (s, id) := s.reportFault e.ctx e.core fun id =>
    faultBytes va kind (if hod then 4 else 3) e.core (if hod then 0xFF else e.agent) 0 a.code level
      (BitVec.ofNat 32 e.team.launch) 0 (if hod then (e.agent - 64) * 2 ^ 31 + o.seq else o.seq) id entryAddr
  match id with
  | none => s.putCopy e.core e.agent (o.failed 1)
  | some n => s.putCopy e.core e.agent { o with phase := .begun, parked := some n }

/-- A stop of a copy. -/
def State.stopCopy (s : State) (e : CopyEnv) (o : Op) (x : CopyStop) : State :=
  match x with
  | .err code => s.putCopy e.core e.agent (o.failed code)
  | .park kind level va entryAddr a => s.parkCopy e o kind level va entryAddr a

/-- How many sectors the copy engine writes in this turn: any number (R276). -/
def State.sectorBudget (s : State) (n : Nat) : Nat := Config.choice s.tick 0x201 % (n + 1)

/-- Before its first sector is written, a copy holds the flags that the header of its image has as it is formed then. -/
def CopyCmd.headed (c : CopyCmd) (p : CopyPlan) : CopyCmd :=
  match p.head with
  | some (_, h) => if c.done = 0 then { c with headFlags := ⟨h.splitovf, h.nanblk, h.sat, h.dup⟩ } else c
  | none => c
/-- The end of a transfer: where a store to the sources has changed what its blocks raised since the header was written, the header's
sector is written once more (notes/assumptions/20.md). -/
def State.finishCopy (s : State) (e : CopyEnv) (o : Op) (c : CopyCmd) (p : CopyPlan) : State :=
  let ended (s : State) : State := s.putCopy e.core e.agent (o.ended (c.flags.word 0 0))
  match p.head with
  | some (at_, h) =>
    if c.headFlags = c.flags then ended s
    else
      match s.writeSector e [] p.space (wholeBytes at_ ({ h with nanblk := c.flags.nanblk, sat := c.flags.sat } : ImageHead).bytes) with
      | .ok s => ended s
      | .error x => s.stopCopy e o x
  | none => ended s

/-- Writes sectors of a copy whose transfer has started; it ends with its last one. -/
def State.runCopy (s : State) (e : CopyEnv) (o : Op) (c : CopyCmd) : State :=
  let p := s.planCopy e c
  let order := p.order
  let turn := (order.zipIdx.drop c.done).take (s.sectorBudget (order.length - c.done))
  let (s, c, stop) := s.writeSectors e p order turn (c.headed p)
  let o := { o with phase := .begun, parked := none }.withCopy c
  match stop with
  | some x => s.stopCopy e o x
  | none => if order.length ≤ c.done then s.finishCopy e o c p else s.putCopy e.core e.agent o

/-- Starts the transfer of a copy, or starts it anew after a fault of its record. -/
def State.beginCopy (s : State) (e : CopyEnv) (o : Op) (c : CopyCmd) : State :=
  match s.startCopy e c with
  | .ok c =>
    let p := s.planCopy e c
    (s.shrinkEntry e o.seq p.space (s.willWrite e p)).runCopy e o c
  | .error (.err code) => (s.shrinkEntry e o.seq 0 []).stopCopy e o (.err code)
  | .error x => s.stopCopy e o x

end Sys2Proof.Machine
end

