-- ==== Sys2Proof/Machine/MatrixEngine.lean ====
section
/-!
DEFINITION. The matrix engine at work: MATRIX_OPERATION_BEGIN (R283, R286, R294 to R304) with the saved operands of
record mode (R322), margin levels (R309 to R313) and BATCH_END.
-/

namespace Sys2Proof.Machine

/-! ### Reads and writes of the stores (R286) -/

/-- The unit-store bytes that an operation reads or writes at once, as offset and length. -/
def MatrixWork.unitSpans (w : MatrixWork) (st : State) (t : Team) : List (Nat × Nat) :=
  let unit (space addr n : Nat) : List (Nat × Nat) := if space = 0 then [(addr, n)] else []
  match w with
  | .tmovi _ sh sp a => unit sp a sh.imageSize
  | .tmovo _ sh sp a => unit sp a sh.imageSize
  | .adrn _ rows cols sp a fmt width axis => unit sp a (drainSize ⟨sp, axis, width, fmt⟩ rows cols)
  | .afil _ _ _ sp a =>
    match readHead (st.storeRead t sp a 32) with
    | some h => unit sp a (min h.size (st.storeEnd t sp - a))
    | none => unit sp a 32
  | .tdmap _ _ (some a) => [(a, 32)]
  | .aop 4 _ _ _ _ cols x => [(x.toNat, 4 * cols)]
  | _ => []
/-- Such bytes lie under a copy's scoreboard entry, so that the engine waits (R286). -/
def MatrixWork.held (w : MatrixWork) (s : State) (t : Team) : Bool :=
  (w.unitSpans s t).any fun p => s.spanHeld t 0 p.1 p.2

/-- The bits of MERR (R287). -/
def merrOf (img stage ovf nan : Bool) : BitVec 4 :=
  BitVec.ofNat 4 (img.toNat + 2 * stage.toNat + 4 * ovf.toNat + 8 * nan.toNat)

/-! ### Record mode (R321, R322) -/

/-- The bytes of an item as the operation begins; none for one that is written at another moment. -/
def LogItem.bytesNow (i : LogItem) (t : Team) : Option (List Byte) :=
  match i with
  | .tile n sh => some ((t.tile n).image sh)
  | .acc n rows cols => some (drainImage (t.acc n) rows cols 0 0 false).1
  | .indices n rows cols =>
    some (padded ((List.range rows).flatMap fun r => leBytes 2 (rowMax (t.acc n) r cols).2))
  | .desc b => some b
  | .part _ _ | .tileMap _ | .carry _ _ => none

/-- The items of a plan with the offset of each in the log's space. -/
def LogPlan.itemsAt (p : LogPlan) (pl : LogPlace) : List (Nat × LogItem) :=
  (List.range p.items.length).map fun k =>
    (pl.dataAt + itemsSize (p.items.take k), p.items.getD k (.tileMap 0))

/-- What an accepted operation still writes into its log lies under a copy's scoreboard entry, so that it waits (R28, R322). -/
def LogPlan.held (p : LogPlan) (s : State) (t : Team) : Bool :=
  p.place.any fun pl => s.spanHeld t pl.space pl.entryAt 32 || (p.itemsAt pl).any fun i => s.spanHeld t pl.space i.1 i.2.size
/-- Writes what is saved as an operation begins. -/
def State.saveOperands (s : State) (t : Team) (p : Option LogPlan) : State :=
  match p with
  | none => s
  | some p =>
    match p.place with
    | none => s
    | some pl =>
      (p.itemsAt pl).foldl (fun s i =>
        match i.2.bytesNow t with
        | some b => s.storeWrite t pl.space i.1 b
        | none => s) s

/-- Writes the image of a part's staging tile into the log, if it is saved. -/
def State.savePart (s : State) (t : Team) (p : Option LogPlan) (b : Nat) (img : List Byte) : State :=
  match p with
  | none => s
  | some p =>
    match p.place with
    | none => s
    | some pl =>
      (p.itemsAt pl).foldl (fun s i =>
        match i.2 with
        | .part k _ => if k = b then s.storeWrite t pl.space i.1 img else s
        | _ => s) s

/-- Writes a byte field of an entry already in the log. -/
def State.patchEntry (s : State) (t : Team) (p : Option LogPlan) (off : Nat) (b : List Byte) : State :=
  match p.bind (·.place) with
  | some pl => s.storeWrite t pl.space (pl.entryAt + off) b
  | none => s

/-- The map state that the entry of a `tmovi` records (R320). -/
def State.saveMap (s : State) (t : Team) (p : Option LogPlan) (d : TileData) : State :=
  match p with
  | none => s
  | some q =>
    match q.place with
    | none => s
    | some pl =>
      let s := s.patchEntry t p 0x0B (leBytes 1 d.dup)
      (q.itemsAt pl).foldl (fun s i =>
        match i.2 with
        | .tileMap _ => s.storeWrite t pl.space i.1 d.map
        | _ => s) s

/-! ### The work of an operation -/

/-- Writes an accumulator's new contents into its team. -/
def Written.into (w : Written) (t : Team) (n : Nat) : Team × BitVec 4 := (t.putAcc n w.acc, merrOf false false w.ovf w.nan)

/-- The image that a `tmovo` or an `adrn` writes: its space, offset and bytes, with the MERR bits of the operation (R298, R302). -/
def MatrixWork.image (w : MatrixWork) (t : Team) : Option ((Nat × Nat × List Byte) × BitVec 4) :=
  match w with
  | .tmovo n sh sp a => some ((sp, a, (t.tile n).image sh), merrOf false false false ((t.tile n).hasNan sh))
  | .adrn n rows cols sp a fmt width axis =>
    let (b, o, nan) := drainImage (t.acc n) rows cols fmt width axis
    some ((sp, a, b), merrOf false false o nan)
  | _ => none

/-- Performs an operation other than `mmah`, `mmag` and those that write an image: the stores, the team's tiles and its MERR bits. -/
def performMatrix (w : MatrixWork) (p : Option LogPlan) (s : State) (t : Team) : State × Team × BitVec 4 :=
  match w with
  | .tcfg n | .tzero n => (s, t.putTile n TileData.cleared, 0)
  | .azero n => (s, t.putAcc n AccData.created, 0)
  | .tmovi n sh sp a =>
    let (d, ok) := (t.tile n).load sh (s.storeRead t sp a sh.imageSize)
    (s.saveMap t p d, t.putTile n d, merrOf (!ok) false false false)
  | .afil n rows cols sp a =>
    let image : Option (ImageHead × List Byte) :=
      match readHead (s.storeRead t sp a 32) with
      | some h =>
        if !h.mapped ∧ h.rows = rows ∧ h.cols = cols ∧ a + h.size ≤ s.storeEnd t sp then
          some (h, s.storeRead t sp a h.size)
        else none
      | none => none
    let f := fillAcc (t.acc n) rows cols image
    (s, t.putAcc n f.acc, merrOf image.isNone false false f.nan)
  | .tdmap n sh addr =>
    match addr with
    | none => (s, t.putTile n { t.tile n with dup := 0, map := List.replicate 32 0xFF }, 0)
    | some a =>
      let b := s.storeRead t 0 a 32
      match validMap sh b with
      | some dup => (s, t.putTile n { t.tile n with dup := dup, map := b }, 0)
      | none => (s, t, merrOf true false false false)
  | .mma mode c a b sa sb =>
    let r := (matMul (t.acc c) ⟨sa, t.tile a⟩ ⟨sb, t.tile b⟩ mode 0 sa.rows).into t c
    (s, r.1, r.2)
  | .aop fn d src tt rows cols x =>
    let bias := (List.range cols).map fun j => BitVec.ofNat 32 (leNat (s.storeRead t 0 (x.toNat + 4 * j) 4))
    let r := (aopResult fn (t.acc d) (t.acc src) (t.acc tt) (fn = 1 ∨ fn = 2) rows cols x bias).into t d
    (s, r.1, r.2)
  | .tmovo .. | .adrn .. | .mmag .. | .skipped => (s, t, 0)

/-- Deals with the parts of `mmah` or `mmag` from next on, as far as their copies have retired (R294, R295): the state,
the team, the MERR bits, the failure bits of table entries, the next part, and whether the cell array has run a product (R312). -/
def performParts (mode c a : Nat) (sa : TileShape) (p : Option LogPlan) :
    List MmagPart → Nat → State → Team → State × Team × BitVec 4 × Nat × Nat × Bool
  | [], b, s, t => (s, t, 0, 0, b, false)
  | q :: rest, b, s, t =>
    match q.result with
    | none => (s, t, 0, 0, b, false)
    | some status =>
      if status ≠ 0 then
        let (s, t, merr, bits, n, ran) := performParts mode c a sa p rest (b + 1) s t
        (s, t, merr ||| merrOf false true false false, bits ||| 2 ^ q.entry, n, ran)
      else
        let (d, ok) := (t.tile q.ts).load q.shape (s.storeRead t 0 q.stg q.shape.imageSize)
        let t := t.putTile q.ts d
        let s := s.savePart t p b (d.image q.shape)
        let (t, merr) :=
          if ok then (matMul (t.acc c) ⟨sa, t.tile a⟩ ⟨q.shape, d⟩ mode q.first q.count).into t c
          else (t, merrOf true false false false)
        let (s, t, merr', bits, n, ran) := performParts mode c a sa p rest (b + 1) s t
        (s, t, merr ||| merr', bits, n, ok || ran)

/-! ### Batches and margin levels (R305, R309 to R313) -/

/-- The batch that the operation at position k of class 1 lies in, as its position among the sealed ones; none for the
open batch. -/
def Group.batchOf (g : Group) (k : Nat) : Option Nat :=
  let ops := (g.cls 1).ops
  g.batches.findIdx? fun b => (ops.findIdx? fun o => o.seq = b.last).any fun i => k ≤ i

/-- The level of a core at which a batch begins, and its margin registers then (R313). -/
def Margin.begin (k : Margin) : Nat × Margin := if k.pend then (k.req, { k with level := k.req, pend := false }) else (k.level, k)

/-- The operation at position k of class 1 begins: a batch that begins with it takes its level, once the group's earlier batches have
ended (R305, R313). -/
def State.enterBatch (s : State) (core : Nat) (g : Group) (k : Nat) : State × Group :=
  match g.batchOf k with
  | some i =>
    let b := g.batches.getD i ⟨0, none, 0⟩
    if b.level.isSome then (s, g)
    else
      let (s, g) := s.endBatches core g i
      let (level, m) := (s.margin core).begin
      ({ s with margins := s.margins.set core m }, { g with batches := g.batches.set 0 { b with level := some level } })
  | none =>
    if g.openLevel.isSome then (s, g)
    else
      let (s, g) := s.endBatches core g g.batches.length
      let (level, m) := (s.margin core).begin
      ({ s with margins := s.margins.set core m }, { g with openLevel := some level })

/-- The cell array replays some beats of an operation at position k: above level 0 they count for the core and the batch (R310,
R312). -/
def State.countReplays (s : State) (core : Nat) (g : Group) (k replays : Nat) : State × Group :=
  let counted (level : Option Nat) : Nat := if level.getD 0 = 0 then 0 else replays
  let add (n : Nat) : State :=
    { s with margins := s.margins.set core { s.margin core with replays := min ((s.margin core).replays + n) 0xFFFFFFFF } }
  match g.batchOf k with
  | some i =>
    let b := g.batches.getD i ⟨0, none, 0⟩
    (add (counted b.level), { g with batches := g.batches.set i { b with replays := b.replays + counted b.level } })
  | none => (add (counted g.openLevel), { g with openReplays := g.openReplays + counted g.openLevel })

/-- BATCH_END: the oldest batch of a group whose operations have retired ends, after some beats (R313). -/
def execBatchEnd (core slot beats : Nat) (s : State) : Out :=
  match s.groups.find (slotKey core slot) with
  | none => .next s
  | some g =>
    match g.batches with
    | [] => .next s
    | b :: rest =>
      if !g.retired 1 b.last then .next s
      else .next ((s.batchEnds core b beats).putGroup core slot { g with batches := rest })

/-! ### MATRIX_OPERATION_BEGIN (R283) -/

/-- An earlier `sqsig` of the team has still to read a tile that an operation names (R361). -/
def State.signatureFirst (s : State) (uid : Nat) (o : Op) : Bool :=
  s.groups.values.any fun g => g.team = uid ∧ (g.cls 3).ops.any fun q =>
    match q.phase, q.cmd with
    | .done _, _ => false
    | _, .seqr (.sqsig _ _ tile _ _) => q.stamp < o.stamp ∧ o.owns.contains tile
    | _, _ => false

/-- The operation of class 1 that a group's engine turn is about: the oldest whose work is not done, with its position. -/
def Group.nextMatrix (g : Group) : Option (Nat × Op) :=
  let ops := (g.cls 1).ops
  match ops.findIdx? fun o => match o.phase with
    | .done _ => false
    | _ => true with
  | none => none
  | some k => ops[k]?.map fun o => (k, o)

/-- The operation goes on as far as it can at once; it waits for its acceptance, for copies whose entries overlap what it reads or
writes, and for signatures still to be read. Only the products use the cell array, which replays beats (R312). An image is written
sector by sector, any number of sectors in one turn (R286). -/
def State.runMatrix (s : State) (core slot : Nat) (g : Group) (t : Team) (k : Nat) (o : Op) (w : MatrixWork)
    (p : Option LogPlan) (replays : Nat) : State :=
  let fin (s : State) (g : Group) (t : Team) (o : Op) : State := (s.putGroup core slot (g.putOp 1 o)).putTeam g.team t
  if o.order = 0 then s
  else if w = .skipped then fin s g t { o with phase := .done 0 }
  else if o.cancel ∧ o.phase = .issued then fin s g t { o with phase := .done cancelWord }
  else if s.signatureFirst g.team o || w.held s t || p.any (·.held s t) then s
  else
    let (s, g) := s.enterBatch core g k
    let s := if o.phase = .issued then s.saveOperands t p else s
    match w with
    | .mmag mode c a sa parts next =>
      let (s, t, merr, bits, n, ran) := performParts mode c a sa p (parts.drop next) next s t
      let s := (List.range 4).foldl (fun s i =>
        match p.bind (·.place) with
        | some pl =>
          let old := leNat (s.storeRead t pl.space (pl.entryAt + 0x18 + i) 1)
          s.patchEntry t p (0x18 + i) (leBytes 1 (old ||| bits / 256 ^ i % 256))
        | none => s) s
      let (s, g) := if ran then s.countReplays core g k replays else (s, g)
      let o := { o with merr := o.merr ||| merr, cmd := .matrix (.mmag mode c a sa parts n) p }
      fin s g t { o with phase := if n = parts.length then .done 0 else .begun }
    | .mma .. =>
      let (s, t, merr) := performMatrix w p s t
      let (s, g) := s.countReplays core g k replays
      fin s g t { o with phase := .done 0, merr := o.merr ||| merr }
    | _ =>
      match w.image t with
      | some ((space, at_, b), merr) =>
        let sectors := (b.length + 31) / 32
        let n := Config.choice s.tick 0x207 % (sectors - o.written + 1)
        let s := s.writeImage t space at_ b o.written n
        if sectors ≤ o.written + n then fin s g t { o with phase := .done 0, merr := o.merr ||| merr, written := sectors }
        else fin s g t { o with phase := .begun, written := o.written + n }
      | none =>
        let (s, t, merr) := performMatrix w p s t
        fin s g t { o with phase := .done 0, merr := o.merr ||| merr }

/-- MATRIX_OPERATION_BEGIN: the turn of the matrix engine for one group, with the beats replayed in it. It first accepts what it can
of the group's operations. -/
def execMatrixOperationBegin (core slot replays : Nat) (s : State) : Out :=
  let s := if (s.debugOf core).frozen then s else s.acceptBatch core slot
  match (if (s.debugOf core).frozen then none else s.groups.find (slotKey core slot)) with
  | none => .next s
  | some g =>
    match s.teams.find g.team, g.nextMatrix with
    | some t, some (k, o) =>
      match o.cmd with
      | .matrix w p => .next (s.runMatrix core slot g t k o w p replays)
      | _ => .next s
    | _, _ => .next s

end Sys2Proof.Machine
end

