-- ==== Sys2Proof/Machine/CopyTurns.lean ====
section
/-!
DEFINITION. COPY_TRANSFER_START: the copy engine's turn for one agent (R29, R270 to R273, R296).
-/

namespace Sys2Proof.Machine

/-- Memory as it stands is what an outstanding copy may read of its sources and of the bytes that it writes in part (R28, R270). -/
def State.lookAt (s : State) (core agent seq : Nat) : State :=
  match (s.copyOps core agent).find? (·.seq = seq) with
  | some o =>
    match o.cmd with
    | .copy c => if o.isDone then s else s.putCopy core agent (o.withCopy { c with looks := c.looks ++ [s.mem] })
    | _ => s
  | none => s

/-- The unit-store ranges that the matrix engine has still to read for an operation; before is the part that a fetch
copy of the same `mmag` stages, or none for another operation. -/
def Op.readsLeft (o : Op) (s : State) (t : Team) (before : Option Nat) : List (Nat × Nat) :=
  match o.cmd with
  | .matrix (.mmag _ _ _ _ parts next) _ =>
    ((List.range parts.length).filter fun b => next ≤ b && before.all (fun k => b < k)).map fun b =>
      ((parts.getD b default).stg, ((parts.getD b default).shape.imageSize))
  | .matrix (.tmovo ..) _ | .matrix (.adrn ..) _ => []
  | .matrix w _ => if before.isSome then [] else w.unitSpans s t
  | _ => []

/-- Two byte ranges meet. -/
def rangesMeet (p q : Nat × Nat) : Bool := decide (p.1 < q.1 + q.2) && decide (q.1 < p.1 + p.2)

/-- The part of an operation that a class 0 copy of the same group stages. -/
def Op.partOf (o : Op) (copySeq : Nat) : Option Nat :=
  match o.cmd with
  | .matrix (.mmag _ _ _ _ parts _) _ => parts.findIdx? fun p => p.copySeq = copySeq
  | _ => none

/-- An operand-fetch copy may begin: the matrix engine has finished every earlier read of its staging image (R296). -/
def State.mayFetch (s : State) (e : CopyEnv) (o : Op) (c : CopyCmd) : Bool :=
  c.fetch = 0 || !(s.groups.entries.any fun p =>
    p.2.team = e.uid && (p.2.cls 1).ops.any fun q =>
      !q.isDone && decide (q.stamp ≤ o.stamp) &&
        (q.readsLeft s e.team (if q.stamp = o.stamp then some ((q.partOf o.seq).getD 0) else none)).any
          (rangesMeet (c.desc.img, c.fetch)))

/-- The host has answered ACTION 1 to the fault that an operation is parked on (R192). -/
def State.answeredFail (s : State) (o : Op) : Bool :=
  match o.parked with
  | some n => ((s.faults.find n).bind (·.answer)) == some 1
  | none => false
/-- The fault record that an operation was parked on is no longer outstanding. -/
def State.forget (s : State) (o : Op) : State :=
  match o.parked with
  | some n => { s with faults := s.faults.erase n }
  | none => s

/-- The copies of an agent that the copy engine can turn to, of a list in their order; none that has not begun behind a parked one
(R29). -/
def State.readyCopies (s : State) (e : CopyEnv) : List Op → Bool → List (Op × CopyCmd)
  | [], _ => []
  | o :: rest, behind =>
    let later := s.readyCopies e rest (behind || o.parked.isSome)
    match o.cmd with
    | .copy c =>
      let ready :=
        match o.phase, o.parked with
        | .done _, _ => false
        | _, some _ => o.cancel || s.answeredFail o
        | .begun, none => true
        | .issued, none => o.cancel || (!behind && s.mayFetch e o c)
      if ready then (o, c) :: later else later
    | _ => later
/-- The copies of an agent that the copy engine can turn to. -/
def State.copyTurns (s : State) (e : CopyEnv) : List (Op × CopyCmd) := s.readyCopies e (s.copyOps e.core e.agent) false

/-- A copy's turn: it ends if it is cancelled (R273) or its fault was answered with failure, goes on, or begins. -/
def State.turnCopy (s : State) (e : CopyEnv) (o : Op) (c : CopyCmd) : State :=
  if o.cancel then (s.forget o).putCopy e.core e.agent (o.ended (c.flags.word 2 0))
  else if o.parked.isSome then (s.forget o).putCopy e.core e.agent (o.failed 1)
  else if c.started then s.runCopy e o c
  else s.beginCopy e o c

/-- COPY_TRANSFER_START: a copy of an agent begins its transfer or goes on with it. -/
def execCopyTransferStart (core agent : Nat) (s : State) : Out :=
  match (if (s.debugOf core).frozen then none else s.copyEnv core agent) with
  | none => .next s
  | some e =>
    let l := s.copyTurns e
    match l[Config.choice s.tick 0x200 % l.length]? with
    | some (o, c) => .next (s.turnCopy e o c)
    | none => .next s

end Sys2Proof.Machine
end

