-- ==== Sys2Proof/Machine/Sequencer.lean ====
section
/-!
DEFINITION. The step sequencer (09): the issue of the SEQ instructions (R357 to R365) and the work of each operation,
which it does in acceptance order (R350 to R352, R364).
-/

namespace Sys2Proof.Machine

/-! ### Slots (R348) -/

def seqKey (core phys : Nat) : Nat := 2 ^ 14 * core + phys
def SeqCfg.tiles (c : SeqCfg) : Nat := c.gridx * c.gridy
/-- The physical slot that a team's slot number is bound to, by its key. -/
def State.boundSlot (s : State) (core uid num : Nat) : Option (Nat × SeqSlot) :=
  s.seqSlots.entries.find? fun e => e.1 / 2 ^ 14 = core ∧ e.2.team = uid ∧ e.2.num = num
/-- The slots of a core that stand in State, and how many of them are bound. -/
def State.slotsOf (s : State) (core : Nat) : List (Nat × SeqSlot) := s.seqSlots.entries.filter fun e => e.1 / 2 ^ 14 = core
def State.boundSlots (s : State) (core : Nat) : Nat := ((s.slotsOf core).filter fun e => e.2.num < 256).length
/-- Keys for n free physical slots of a core; none unless the pool of 256 has so many. -/
def State.freeSlots (s : State) (core n : Nat) : Option (List Nat) :=
  if 256 < s.boundSlots core + n then none
  else
    some ((((List.range ((s.slotsOf core).length + n)).map (seqKey core)).filter fun k => (s.seqSlots.find k).isNone).take n)
/-- The key of a free physical slot of a core. -/
def State.freeSlot (s : State) (core : Nat) : Option Nat := (s.freeSlots core 1).bind List.head?
/-- Clears both maps and the counts. -/
def SeqSlot.clear (q : SeqSlot) : SeqSlot :=
  { q with skip := [], signedMap := [], signedCount := 0, skipped := 0, suppressed := 0, mapStep := none, mapOpen := false }

/-! ### Issue (R357 to R365) -/

/-- A SEQ instruction is illegal in handler mode and waits for pending registers (R357). -/
def seqIssue (srcs : List Nat) (s : State) (act : Ctx → Out) : Out :=
  onFrag s fun x =>
    if x.g.handler then x.illegal s 0
    else if x.waitsOn srcs then .next s
    else act x
/-- A class 3 operation takes its number and place in the engine's order, unless the class is full; s and g carry the
effects at issue. -/
def Ctx.enterSeq (x : Ctx) (s : State) (g : Group) (h : Nat) (w : SeqWork) (m : Bool) : Out :=
  if x.g.full 3 then .next s
  else
    x.done { s with nextOrder := s.nextOrder + 1 }
      ((g.issueOp 3 (.seqr w) [] (s.nextOrder + 1) s.tick).sendHandle s.ir 3 0 (h - 96)) m 1

/-- The configuration that a descriptor holds and its KEEP flag, if its fields are within R359. -/
def readSeqDesc (b : List Byte) : Option (SeqCfg × Bool) :=
  let c : SeqCfg :=
    { gridx := field b 0 2, gridy := field b 2 2, theta := BitVec.ofNat 16 (field b 4 2), refresh := field b 6 2
      tbase := field b 8 4, tspace := field b 12 1 }
  if 1 ≤ c.gridx ∧ 1 ≤ c.gridy ∧ c.tiles ≤ 4096 ∧ c.theta.toNat < 0x7C00 ∧ c.tbase % 32 = 0 ∧ c.tspace ≤ 1 ∧
      field b 13 1 ≤ 1 ∧ zeros b 14 50 then some (c, field b 13 1 == 1)
  else none

/-- sqcfg (R359). -/
def execSqcfg (m : Bool) (h a b : Nat) (s : State) : Out :=
  seqIssue [a, b] s fun x =>
    let w := x.uni b
    let at_ := (x.uni a).toNat
    let t := x.team
    if 256 ≤ w.toNat then x.illegal s w
    else if at_ % 64 ≠ 0 then x.trap s 10 (accessInfo 0 0 1 0xFF)
    else if t.kernel.unit < at_ + 64 then x.trap s 10 (accessInfo 0 0 2 0xFF)
    else
      match readSeqDesc (s.storeRead t 0 at_ 64) with
      | none => x.illegal s (BitVec.ofNat 32 at_)
      | some (c, keep) =>
        let old := s.boundSlot x.core x.g.team w.toNat
        if old.any fun e => e.2.openBy.isSome then x.illegal s w
        else if s.storeEnd t c.tspace < c.tbase + 160 * c.tiles then x.trap s 10 (accessInfo 0 0 2 0xFF)
        else if c.tspace = 1 ∧ x.launch.form = 1 ∧ !inRanges t 1 c.tbase (160 * c.tiles) then
          x.trap s 5 (accessInfo 1 0 1 0xFF)
        else if x.g.full 3 then .next s
        else
          match (old.map (·.1)).orElse fun _ => s.freeSlot x.core with
          | none => x.enterSeq s x.g h .sqfull m
          | some k =>
            let fresh : SeqSlot := ⟨x.g.team, w.toNat, c, 0, none, [], [], 0, 0, 0, none, false⟩
            let q :=
              match old with
              | some e => { e.2 with cfg := c, stepno := 0 }
              | none => fresh
            x.enterSeq { s with seqSlots := s.seqSlots.set k q } x.g h (.sqcfg k c keep) m

/-- sqbeg (R360). -/
def execSqbeg (m : Bool) (h b : Nat) (s : State) : Out :=
  seqIssue [b] s fun x =>
    let w := x.uni b
    if 256 ≤ w.toNat then x.illegal s w
    else
      match s.boundSlot x.core x.g.team w.toNat, x.g.step with
      | some (k, q), none =>
        if q.openBy.isSome ∨ x.g.full 3 then .next s
        else
          x.enterSeq { s with seqSlots := s.seqSlots.set k { q with openBy := some x.slot } }
            { x.g with step := some (w.toNat, k, q.stepno), signatures := Map.empty } h (.sqbeg k q.stepno) m
      | _, _ => x.illegal s 0

/-- sqsig (R361). -/
def execSqsig (m : Bool) (h t : Nat) (s : State) : Out :=
  seqIssue [125] s fun x =>
    let i := x.tileIndex
    let bad : Out := x.illegal s (BitVec.ofNat 32 i)
    match x.g.step.bind fun p => (s.seqSlots.find p.2.1).map fun q => (p.2.1, q) with
    | none => bad
    | some (k, q) =>
      if q.tiles ≤ i ∨ !x.mayTile t then bad
      else if x.g.full 3 then .next s
      else
        x.enterSeq s { x.g with signatures := x.g.signatures.set i ((x.g.cls 3).nextSeq, none) } h
          (.sqsig k q.cfg t (x.team.tileShape t) i) m

/-- sqmap (R364). -/
def execSqmap (m : Bool) (h a b : Nat) (s : State) : Out :=
  seqIssue [a, b] s fun x =>
    let w := x.uni b
    let at_ := (x.uni a).toNat
    let unit := x.team.kernel.unit
    if 256 ≤ w.toNat then x.illegal s w
    else if at_ % 32 ≠ 0 then x.trap s 10 (accessInfo 1 0 1 0xFF)
    else if unit < at_ + 32 then x.trap s 10 (accessInfo 1 0 2 0xFF)
    else
      match s.boundSlot x.core x.g.team w.toNat with
      | none => x.illegal s 0
      | some (k, q) =>
        if unit < at_ + 32 + 32 * ((q.tiles + 255) / 256) then x.trap s 10 (accessInfo 1 0 2 0xFF)
        else x.enterSeq s x.g h (.sqmap k q.cfg at_) m

/-- sqend (R362). -/
def execSqend (m : Bool) (h : Nat) (s : State) : Out :=
  seqIssue [] s fun x =>
    match x.g.step.bind fun p => (s.seqSlots.find p.2.1).map fun q => (p.2.1, q) with
    | none => x.illegal s 0
    | some (k, q) =>
      if x.g.full 3 then .next s
      else
        x.enterSeq { s with seqSlots := s.seqSlots.set k { q with stepno := (q.stepno + 1) % 65536, openBy := none } }
          { x.g with step := none } h (.sqend k q.cfg) m

/-- sqrst (R365). -/
def execSqrst (m : Bool) (h b : Nat) (s : State) : Out :=
  seqIssue [b] s fun x =>
    let w := x.uni b
    if 512 ≤ w.toNat then x.illegal s w
    else
      match s.boundSlot x.core x.g.team (w.toNat % 256) with
      | none => x.illegal s 0
      | some (k, q) =>
        if q.openBy.isSome then x.illegal s 0
        else if x.g.full 3 then .next s
        else if 256 ≤ w.toNat then x.enterSeq { s with seqSlots := s.seqSlots.set k { q with num := 256 } } x.g h .sqfree m
        else x.enterSeq { s with seqSlots := s.seqSlots.set k { q with stepno := 0 } } x.g h (.sqrst k q.cfg) m

/-! ### Signatures (R350, R351) -/

/-- A value rounded to f32 with no flags. -/
def seqRound (x : Num) : Nat := (roundTo f32 false x .rne).1
def seqNum (w : Nat) : Num := decodeNum f32 false w
/-- The magnitude bits of an f32. -/
def magBits (w : Nat) : Nat := w % 2 ^ 31

/-- Signature (R350): 16 row-band sums. -/
def signature (d : TileData) (sh : TileShape) : List Nat :=
  (List.range 16).map fun k =>
    let lo := k * sh.rows / 16
    let hi := (k + 1) * sh.rows / 16
    seqRound ((List.range (hi - lo)).foldl (fun acc r =>
      (List.range sh.cols).foldl (fun acc c => (addNum false acc (d.value sh (lo + r) c)).1) acc) (.fin false 0 0))

/-- The distance and the magnitude of R351. -/
def seqDistance (sig old : List Nat) : Nat × Nat :=
  (List.range 16).foldl (fun p k =>
    let diff := seqRound (addNum false (seqNum (sig.getD k 0)) (seqNum (old.getD k 0)).negate).1
    (seqRound (addNum false (seqNum p.1) (seqNum (magBits diff))).1,
      seqRound (addNum false (seqNum p.2) (seqNum (magBits (old.getD k 0)))).1)) (0, 0)

/-- What an f32 is: neither infinite nor a NaN. -/
def finiteBits (w : Nat) : Bool := decide (magBits w < 0x7F800000)

/-- What R351 decides: the entry's distance, whether the tile is skipped, and bits 23:20 of the result VALUE (R361). -/
structure Decision where
  d : Nat
  skip : Bool
  bits : Nat
deriving DecidableEq, Repr, Inhabited

/-- The decision of R351 for signature sig, from what an entry holds: its committed signature, AGE and VALID. -/
def decideSig (c : SeqCfg) (sig old : List Nat) (age : Nat) (valid : Bool) : Decision :=
  let (d, m) := seqDistance sig old
  let lim := seqRound (mulNum (decodeNum f16 false c.theta.toNat) (seqNum m)).1
  let young := decide (c.refresh = 0 ∨ age + 1 < c.refresh)
  let close := finiteBits d && decide (magBits lim ≤ 0x7F800000) && !ltNum (seqNum lim) (seqNum d)
  let bit (b : Bool) (n : Nat) : Nat := b.toNat * 2 ^ n
  let skip := valid && young && close
  ⟨d, skip, bit skip 23 + bit (!valid) 22 + bit (valid && close && !young) 21 + bit (!finiteBits d) 20⟩

/-- The slot once a decision of tile i is taken; signed says that the tile counts as signed (R351, R366). -/
def SeqSlot.decide (q : SeqSlot) (i : Nat) (skip signed : Bool) : SeqSlot :=
  let before := q.skip.contains i
  let first := signed && !q.signedMap.contains i
  { q with
    skip := if skip then (if before then q.skip else i :: q.skip) else q.skip.filter (· ≠ i)
    signedMap := if first then i :: q.signedMap else q.signedMap
    signedCount := if first then q.signedCount + 1 else q.signedCount
    skipped := if skip then (if before then q.skipped else q.skipped + 1) else if before then q.skipped - 1 else q.skipped }

/-! ### Steps and tables (R352, R359, R364, R365) -/

/-- The entry of tile i of a table. -/
def SeqCfg.entryAt (c : SeqCfg) (i : Nat) : Nat := c.tbase + 160 * i

/-- Part k of the commit of tile i (R352): 0 and 1 are the halves of P, 2 is AGE and STATE. -/
def commitTile (t : Team) (c : SeqCfg) (q : SeqSlot) (i k : Nat) (s : State) : State :=
  let at_ := c.entryAt i
  let computed := q.signedMap.contains i && !q.skip.contains i
  if k < 2 then
    if computed then s.storeWrite t c.tspace (at_ + 32 * k) (s.storeRead t c.tspace (at_ + 0x40 + 32 * k) 32) else s
  else if computed then s.storeWrite t c.tspace (at_ + 0x80) (leBytes 3 0x10000)
  else if q.signedMap.contains i then
    s.storeWrite t c.tspace (at_ + 0x80) (leBytes 2 (min (leNat (s.storeRead t c.tspace (at_ + 0x80) 2) + 1) 65535))
  else s.storeWrite t c.tspace (at_ + 0x80) (leBytes 3 0)

/-- The status image of a slot (R364); before the first step since the slot's configuration or reset it describes no step, and its
STEPNO is free, the same at every time. -/
def SeqSlot.image (q : SeqSlot) (c : SeqCfg) (free : Nat) : List Byte :=
  let bits (b : Nat) : Byte := BitVec.ofNat 8
    ((List.range 8).map fun j => if 8 * b + j < c.tiles ∧ q.skip.contains (8 * b + j) then 2 ^ j else 0).sum
  leBytes 2 c.tiles ++ leBytes 2 (q.mapStep.getD free) ++ leBytes 1 q.mapOpen.toNat ++ leBytes 3 0 ++
    leBytes 4 q.signedCount ++ leBytes 4 q.skipped ++ leBytes 4 q.suppressed ++ leBytes 12 0 ++
    (List.range (32 * ((c.tiles + 255) / 256))).map bits

/-- How many accesses to the stores a class 3 operation makes, one 32-byte sector each, in ascending order (R364, R366). -/
def SeqWork.accesses (w : SeqWork) : Nat :=
  match w with
  | .sqcfg _ c false => 5 * c.tiles
  | .sqsig .. => 5
  | .sqmap _ c _ => 1 + (c.tiles + 255) / 256
  | .sqend _ c => 3 * c.tiles
  | .sqrst _ c => c.tiles
  | .sqcfg _ _ true | .sqbeg .. | .sqfull | .sqfree => 0
/-- Access j of an operation of a team, which has read got before it: the stores, and what it has read then. Those of `sqsig` read P,
write S, and read the last sector of the entry as they write DLAST. -/
def SeqWork.access (w : SeqWork) (t : Team) (j : Nat) (s : State) (got : List Byte) : State × List Byte :=
  match w with
  | .sqcfg _ c _ => (s.storeWrite t c.tspace (c.tbase + 32 * j) (List.replicate 32 0), got)
  | .sqsig _ c tile sh i =>
    let at_ := c.entryAt i + 32 * j
    let sig := signature (t.tile tile) sh
    if j < 2 then (s, got ++ s.storeRead t c.tspace at_ 32)
    else if j < 4 then (s.storeWrite t c.tspace at_ (((sig.drop (8 * (j - 2))).take 8).flatMap (leBytes 4)), got)
    else
      let d := (seqDistance sig ((List.range 16).map fun k => field got (4 * k) 4)).1
      (s.storeWrite t c.tspace (at_ + 4) (leBytes 4 d), got ++ s.storeRead t c.tspace at_ 32)
  | .sqmap k c a =>
    match s.seqSlots.find k with
    | none => (s, got)
    | some q => (s.storeWrite t 0 (a + 32 * j) (((q.image c (Config.freeWord 0 0x301).toNat).drop (32 * j)).take 32), got)
  | .sqend k c =>
    match s.seqSlots.find k with
    | none => (s, got)
    | some q => (commitTile t c q (j / 3) (j % 3) s, got)
  | .sqrst _ c => (s.storeWrite t c.tspace (c.entryAt j + 0x80) (leBytes 3 0), got)
  | .sqbeg .. | .sqfull | .sqfree => (s, got)
/-- n accesses of an operation, from number j on. -/
def SeqWork.accessMany (w : SeqWork) (t : Team) : Nat → Nat → State → List Byte → State × List Byte
  | 0, _, s, got => (s, got)
  | n + 1, j, s, got =>
    let (s, got) := w.access t j s got
    w.accessMany t n (j + 1) s got

/-- Changes a slot. -/
def State.modSlot (s : State) (k : Nat) (f : SeqSlot → SeqSlot) : State := { s with seqSlots := s.seqSlots.modify k f }
/-- What an operation does to its slot as it begins (R359, R360, R365). -/
def SeqWork.start (w : SeqWork) (s : State) : State :=
  match w with
  | .sqcfg k _ _ | .sqrst k _ => s.modSlot k SeqSlot.clear
  | .sqbeg k n => s.modSlot k fun q => { q.clear with mapStep := some n, mapOpen := true }
  | .sqsig .. | .sqmap .. | .sqend .. | .sqfull | .sqfree => s
/-- The end of an operation of a team, whose accesses have read got: its slot, and its result word (R358). -/
def SeqWork.finish (w : SeqWork) (s : State) (t : Team) (got : List Byte) : State × W32 :=
  match w with
  | .sqfull => (s, 0x44000000)
  | .sqfree | .sqcfg .. | .sqrst .. => (s, 0)
  | .sqbeg _ n => (s, BitVec.ofNat 32 n)
  | .sqsig k c tile sh i =>
    let x := decideSig c (signature (t.tile tile) sh) ((List.range 16).map fun j => field got (4 * j) 4) (field got 64 2)
      (field got 66 1 % 2 == 1)
    (s.modSlot k fun q => q.decide i x.skip true, BitVec.ofNat 32 (x.bits + i))
  | .sqmap _ c _ => (s, BitVec.ofNat 32 (32 + 32 * ((c.tiles + 255) / 256)))
  | .sqend k _ =>
    match s.seqSlots.find k with
    | none => (s, 0)
    | some q => (s.modSlot k fun q => { q with mapOpen := false }, BitVec.ofNat 32 (q.skipped * 2 ^ 13 + q.signedCount))

/-- The operation accesses a table (R366). -/
def SeqWork.usesTable (w : SeqWork) : Bool :=
  match w with
  | .sqcfg _ _ false | .sqsig .. | .sqend .. | .sqrst .. => true
  | _ => false
/-- An uncorrectable error meets a table access of an operation (R366): it writes no more of the table; a `sqsig` has then decided "not
skipped" and signed nothing, and the other operations leave their slot as they do at their end. -/
def SeqWork.fail (w : SeqWork) (s : State) : State :=
  match w with
  | .sqsig k _ _ _ i => s.modSlot k fun q => q.decide i false false
  | .sqend k _ => s.modSlot k fun q => { q with mapOpen := false }
  | _ => s

/-- The tile that an operation owns until it has read it (R361). -/
def SeqWork.tile (w : SeqWork) : Option Nat :=
  match w with
  | .sqsig _ _ tile _ _ => some tile
  | _ => none

/-- An operation of class 3 may run: it is the oldest accepted one of its core whose work is not done, and the earlier class 1
operations that own its tile have retired (R357, R361). -/
def State.seqReady (s : State) (core uid : Nat) (o : Op) (w : SeqWork) : Bool :=
  (s.groups.entries.all fun e => e.1 / 64 ≠ core || (e.2.cls 3).ops.all fun p => p.isDone || decide (o.order ≤ p.order)) &&
    (w.tile.all fun n => !(s.groups.values.any fun g =>
      g.team = uid ∧ (g.cls 1).ops.any fun p => p.stamp < o.stamp ∧ p.owns.contains n))

/-- Freed slots that no outstanding operation names any more are gone (R365). -/
def State.sweepSlots (s : State) : State :=
  let names (k : Nat) (o : Op) : Bool :=
    match o.cmd with
    | .seqr (.sqcfg j _ _) | .seqr (.sqbeg j _) | .seqr (.sqsig j _ _ _ _) | .seqr (.sqmap j _ _) | .seqr (.sqend j _)
    | .seqr (.sqrst j _) => j == k
    | _ => false
  { s with seqSlots := s.seqSlots.keep fun k q =>
    q.num < 256 || s.groups.values.any fun g => (g.cls 3).ops.any (names k) }

end Sys2Proof.Machine
end

