-- ==== Sys2Proof/Machine/Kiln.lean ====
section
/-!
DEFINITION. The sampling engine (10): the issue of the KSAM instructions (R384, R385), the sigmoid table (R374), sweeps
with boundary exchange (R379, R381, R382), and the work of the other operations (R387 to R392).
-/

namespace Sys2Proof.Machine

/-! ### Issue (R384, R385) -/

def State.putKiln (s : State) (core : Nat) (k : Kiln) : State := { s with kilns := s.kilns.set core k }

/-- A KSAM instruction: illegal in handler mode and while another team holds the claim (R371, R385). -/
def kilnIssue (srcs : List Nat) (s : State) (act : Ctx → Out) : Out :=
  onFrag s fun x =>
    if x.g.handler then x.illegal s 0
    else
      let k := s.kiln x.core
      if k.claim.isSome ∧ k.claim ≠ some x.g.team then x.illegal s 0
      else if x.waitsOn srcs then .next s
      else act x

/-- A class 2 operation takes its number and place in the kiln's order, and the kiln's claim if it is free. -/
def Ctx.enterKiln (x : Ctx) (s : State) (h : Nat) (w : KilnWork) (m : Bool) : Out :=
  if x.g.full 2 then .next s
  else
    let k := s.kiln x.core
    let s := s.putKiln x.core { k with claim := some x.g.team }
    x.done { s with nextOrder := s.nextOrder + 1 }
      ((x.g.issueOp 2 (.kiln w) [] (s.nextOrder + 1) s.tick).sendHandle s.ir 2 0 (h - 96)) m 1

/-- A range that a descriptor names: its space, offset and length, and whether it is written. -/
structure KilnRange where
  space : Nat
  addr : Nat
  len : Nat
  write : Bool
deriving DecidableEq, Repr, Inhabited

/-- A KSAM instruction with a descriptor of n bytes; read gives its work and ranges, or the TRAPINFO1 of an invalid one. -/
def kilnDesc (m : Bool) (h a n : Nat) (srcs : List Nat) (s : State)
    (read : Ctx → Nat → List Byte → Except W32 (KilnWork × List KilnRange)) : Out :=
  kilnIssue srcs s fun x =>
    let at_ := (x.uni a).toNat
    if at_ % 32 ≠ 0 then x.trap s 10 (accessInfo 0 0 1 0xFF)
    else if x.team.kernel.unit < at_ + n then x.trap s 10 (accessInfo 0 0 2 0xFF)
    else
      match read x at_ (s.storeRead x.team 0 at_ n) with
      | .error i => x.illegal s i
      | .ok (w, ranges) =>
        match ranges.find? fun r => s.storeEnd x.team r.space < r.addr + r.len with
        | some r => x.trap s 10 (accessInfo r.write.toNat 0 2 0xFF)
        | none => x.enterKiln s h w m

/-- The descriptor's address, as TRAPINFO1. -/
def badDesc (at_ : Nat) : Except W32 (KilnWork × List KilnRange) := .error (BitVec.ofNat 32 at_)

/-- kldj (R387). -/
def execKldj (m : Bool) (h a : Nat) (s : State) : Out :=
  kilnDesc m h a 32 [a] s fun _ at_ b =>
    let src := field b 0 4
    let cmode := field b 4 1
    let space := field b 5 1
    let n := field b 6 2
    let deg := field b 8 1
    let imp := field b 12 4
    let nimp := field b 16 2
    let good := cmode ≤ 2 ∧ space ≤ (if cmode = 2 then 1 else 0) ∧ 1 ≤ n ∧ n ≤ (if cmode = 0 then 256 else 1024) ∧
      deg ≤ [0, 48, 255].getD cmode 0 ∧ zeros b 9 3 ∧ imp % 4 = 0 ∧ nimp ≤ (if cmode = 0 then 0 else 1024) ∧ zeros b 18 14
    if good then
      .ok (.kldj src cmode space n deg imp nimp,
        [⟨space, src, if cmode = 0 then n * n else n * (4 + 4 * deg), false⟩, ⟨0, imp, 4 * nimp, false⟩])
    else badDesc at_

/-- kbias (R388). -/
def execKbias (m : Bool) (h a : Nat) (s : State) : Out :=
  kilnDesc m h a 32 [a] s fun _ at_ b =>
    let src := field b 0 4
    let first := field b 4 2
    let count := field b 6 2
    if src % 4 = 0 ∧ first + count ≤ 1024 ∧ zeros b 8 24 then .ok (.kbias src first count, [⟨0, src, 4 * count, false⟩])
    else badDesc at_

/-- kclamp (R388). -/
def execKclamp (m : Bool) (h a : Nat) (s : State) : Out :=
  kilnDesc m h a 256 [a] s fun _ at_ _ => .ok (.kclamp at_, [])

/-- kseed (R389); physical mode needs the kernel's capability (R80). -/
def execKseed (m : Bool) (h a : Nat) (s : State) : Out :=
  kilnDesc m h a 32 [a] s fun x at_ b =>
    let mode := field b 16 1
    if mode ≤ 1 ∧ field b 17 1 ≤ 15 ∧ zeros b 18 14 ∧ (mode = 1 → x.team.kernel.caps / 2 % 2 = 1) then
      .ok (.kseed (BitVec.ofNat 64 (field b 0 8)) (field b 8 4) (field b 12 4) (mode == 1) (field b 17 1), [])
    else badDesc at_

/-- ksweep (R390). -/
def execKsweep (m : Bool) (h a b : Nat) (s : State) : Out :=
  kilnDesc m h a 32 [a, b] s fun x at_ d =>
    let q := field d 2 1
    let queue := field d 1 1 = 1
    let n := x.uni b
    if 1 ≤ field d 0 1 ∧ field d 0 1 ≤ 8 ∧ field d 1 1 ≤ 1 ∧ q ≤ 7 ∧ zeros d 3 1 ∧ zeros d 6 2 ∧ zeros d 12 20 ∧
        (queue → (s.queue x.core q).owner = some x.g.team) then
      if 65536 ≤ n.toNat then .error n
      else
        .ok (.ksweep (field d 0 1) (if queue then some (q, BitVec.ofNat 32 (field d 8 4)) else none) (field d 4 2) n.toNat 0,
          [])
    else badDesc at_

/-- kread (R391). -/
def execKread (m : Bool) (h a : Nat) (s : State) : Out :=
  kilnDesc m h a 32 [a] s fun _ at_ b =>
    let dst := field b 0 4
    let what := field b 4 1
    let first := field b 6 2
    let count := field b 8 2
    if dst % 4 = 0 ∧ what ≤ 2 ∧ zeros b 5 1 ∧ first + count ≤ 1024 ∧ zeros b 10 22 then
      .ok (.kread dst what first count 0, [⟨0, dst, [count, 4 * count, 64].getD what 0, true⟩])
    else badDesc at_

/-- khealth (R392). -/
def execKhealth (m : Bool) (h b : Nat) (s : State) : Out :=
  kilnIssue [b] s fun x =>
    let l := (x.uni b).toNat
    if 32768 < l then x.illegal s (x.uni b) else x.enterKiln s h (.khealth (if l = 0 then 1024 else l)) m

/-- kcal (R392). -/
def execKcal (m : Bool) (h : Nat) (s : State) : Out := kilnIssue [] s fun x => x.enterKiln s h .kcal m

/-! ### Couplings (R377) -/

/-- The couplings that a block of bytes holds, for n nodes and imp import slots; none if it is invalid. -/
def readBlock (b : List Byte) (n deg imp : Nat) : Option (List Coupling) :=
  let d := field b 0 1
  let entry (k : Nat) : Option Coupling :=
    let w := field b (4 + 4 * k) 4
    let isImp := w / 2 ^ 15 % 2 = 1
    let index := w % 1024
    if w / 2 ^ 24 = 0 ∧ w / 1024 % 32 = 0 ∧ index < (if isImp then imp else n) then
      some ⟨signedOf 8 (w / 2 ^ 16 % 256), isImp, index⟩
    else none
  if d ≤ deg ∧ zeros b 1 3 then (List.range d).mapM entry else none

/-- The block of node i of a source with blocks of maxdeg entries. -/
def State.kilnBlock (s : State) (t : Team) (space src deg n imp i : Nat) : Option (List Coupling) :=
  readBlock (s.storeRead t space (src + (4 + 4 * deg) * i) (4 + 4 * deg)) n deg imp

/-- The import table (R381): source LOGICAL_CORE and node; none if an entry is invalid. -/
def readImports (b : List Byte) (n : Nat) : Option (List (Nat × Nat)) :=
  (List.range n).mapM fun k =>
    let w := field b (4 * k) 4
    if w / 1024 % 64 = 0 then some (w / 2 ^ 16, w % 1024) else none

/-! ### The sigmoid table (R374) -/

/-- LUT[a] for a from 0 to 127. -/
def sigmoidUpper : List Nat :=
    [32768, 33792, 34813, 35831, 36843, 37847, 38841, 39824, 40793, 41748, 42687, 43608, 44511, 45393, 46254, 47094] ++
    [47911, 48704, 49474, 50220, 50941, 51638, 52310, 52957, 53581, 54179, 54754, 55306, 55834, 56339, 56822, 57284] ++
    [57724, 58144, 58544, 58925, 59287, 59632, 59959, 60270, 60565, 60844, 61109, 61360, 61598, 61823, 62036, 62238] ++
    [62428, 62608, 62778, 62938, 63090, 63233, 63368, 63495, 63615, 63728, 63835, 63935, 64030, 64119, 64203, 64283] ++
    [64357, 64427, 64494, 64556, 64614, 64669, 64721, 64770, 64816, 64859, 64900, 64938, 64974, 65008, 65039, 65069] ++
    [65097, 65124, 65149, 65172, 65194, 65215, 65234, 65252, 65269, 65285, 65300, 65315, 65328, 65341, 65352, 65364] ++
    [65374, 65384, 65393, 65402, 65410, 65417, 65425, 65431, 65438, 65444, 65449, 65454, 65459, 65464, 65468, 65472] ++
    [65476, 65480, 65483, 65486, 65489, 65492, 65495, 65497, 65500, 65502, 65504, 65506, 65508, 65509, 65511, 65513]
/-- LUT[a] for a from −128 to 127; σ(−x) = 1 − σ(x). -/
def sigmoidLut (a : Int) : Nat :=
  if a = -128 then 22
  else if a < 0 then 65536 - sigmoidUpper.getD (-a).toNat 0
  else sigmoidUpper.getD a.toNat 0

/-! ### Boundary exchange (R381, R382) -/

/-- The signed distance from n to m, modulo 2^32. -/
def sweepDiff (m n : Nat) : Int := (BitVec.ofNat 32 m - BitVec.ofNat 32 n).toInt

/-- The claimed kilns of a launch's teams on cores, by LOGICAL_CORE. -/
def State.kilnsOf (s : State) (launch : Nat) : List (Nat × Kiln) :=
  s.kilns.values.filterMap fun k =>
    match k.claim.bind s.teams.find with
    | some t => if t.launch = launch then some (t.logicalCore % 65536, k) else none
    | none => none
/-- The kilns of a launch's saved teams. -/
def State.savedKilns (s : State) (launch : Nat) : List (Nat × Kiln) :=
  s.saved.filterMap fun v =>
    match v.kiln with
    | some k => if v.team.launch = launch then some (v.team.logicalCore % 65536, k) else none
    | none => none

/-- A registered importer still needs the sweeps that sweep m of an array would push out of its history (R382). -/
def State.heldBack (s : State) (launch lc m : Nat) : Bool :=
  (s.kilnsOf launch ++ s.savedKilns launch).any fun p =>
    p.2.registered.contains lc && decide (15 - (p.2.lag : Int) < sweepDiff m p.2.sweep)

/-- What an import gives: a value, a wait, or error 5. -/
inductive ImportValue
  | value (up : Bool)
  | wait
  | bad
deriving DecidableEq, Repr, Inhabited

/-- A kiln's STATE at the end of sweep m; where m is past and lies before its ORIGIN, its STATE at its `kseed`. -/
def Kiln.stateAt (k : Kiln) (m : Nat) : Option (List Bool) :=
  match k.history.find? fun e => e.1 = some m with
  | some e => some e.2
  | none =>
    let back (n : Nat) : Nat := (BitVec.ofNat 32 k.sweep - BitVec.ofNat 32 n).toNat
    if sweepDiff m k.sweep < 0 ∧ back k.origin < back m then (k.history.find? fun e => e.1.isNone).map (·.2) else none

/-- A core of the module holds, or can still hold, logical core lc of a launch: one of its grid, of a team that the spawn buffer can
form, of a task, or of a team that there is. Any other source lies outside the module (R381, R382; notes/assumptions/26.md). -/
def State.reaches (s : State) (launch lc : Nat) : Bool :=
  ((s.launches.find launch).any fun l => decide (lc < l.gridx * l.gridy) || l.spbufn != 0) ||
    (s.tasks.values.any fun k => k.launch == launch && k.tix == lc) ||
    (s.teams.values ++ s.saved.map (·.team)).any fun t => t.launch == launch && t.logicalCore % 65536 == lc

/-- The value of an import slot in the next sweep of an array (R381, R382). -/
def State.importValue (s : State) (launch : Nat) (k : Kiln) (slot : Nat × Nat) : ImportValue :=
  match (s.kilnsOf launch).find? fun p => p.1 = slot.1 with
  | none => if s.reaches launch slot.1 then .wait else .bad
  | some (_, src) =>
    if !src.seeded then .wait
    else if src.phys != k.phys ∨ src.nnodes ≤ slot.2 then .bad
    else
      let last := (BitVec.ofNat 32 src.sweep - 1).toNat
      let oldest := (BitVec.ofNat 32 k.sweep - 1 - BitVec.ofNat 32 k.lag).toNat
      let m := if k.phys then last else oldest
      if k.phys && sweepDiff last oldest < 0 then .wait
      else
        match src.stateAt m with
        | some v => .value (v.getD slot.2 false)
        | none => .wait

/-! ### Sweeps (R373, R375, R379) -/

def Kiln.node (k : Kiln) (i : Nat) : KNode := k.nodes.get i KNode.atClaim
def Kiln.putNode (k : Kiln) (i : Nat) (n : KNode) : Kiln :=
  { k with nodes := if n = KNode.atClaim then k.nodes.erase i else k.nodes.set i n }
/-- The STATE of the nodes in use. -/
def Kiln.states (k : Kiln) : List Bool := (List.range k.nnodes).map fun i => (k.node i).up

/-- ±1. -/
def spinOf (up : Bool) : Int := if up then 1 else -1

/-- The table index of a field h at scale beta (R373). -/
def fieldIndex (h : Int) (beta : Nat) : Int := clampInt (-128) 127 ((h * (beta : Int)).fdiv 256)

/-- The decision of node i in a sweep of index n (R373, R375, R376). -/
def Kiln.decide (k : Kiln) (tick lc beta i : Nat) (couplings : List Coupling) (v : List Bool) (imports : List Bool) : Bool :=
  let term (c : Coupling) : Int := c.weight * spinOf ((if c.imp then imports else v).getD c.index false)
  let h := couplings.foldl (fun acc c => acc + term c) (k.node i).bias
  if k.phys then Config.physicalDecision tick i
  else
    Decidable.decide (keyedDraw k.key (BitVec.ofNat 64 (k.sweep * 2 ^ 32 + lc * 2 ^ 16 + i)) < sigmoidLut (fieldIndex h beta))

/-- The couplings of each node of a list; none if a streamed block is invalid. -/
def State.couplingsOf (s : State) (t : Team) (k : Kiln) (nodes : List Nat) : Option (List (Nat × List Coupling)) :=
  nodes.mapM fun i =>
    match k.couplings with
    | .held by_ => some (i, by_.getD i [])
    | .streamed space src deg => (s.kilnBlock t space src deg k.nnodes k.imports.length i).map fun c => (i, c)

/-- The colour classes of a sweep from a list on; the kiln, and whether a block was invalid. -/
def sweepClasses (s : State) (t : Team) (beta : Nat) (imports : List Bool) : List Nat → Kiln → Kiln × Bool
  | [], k => (k, true)
  | col :: rest, k =>
    let nodes := (List.range k.nnodes).filter fun i => (k.node i).colour = col ∧ !(k.node i).clamp
    match s.couplingsOf t k nodes with
    | none => (k, false)
    | some cs =>
      let v := k.states
      let news := cs.map fun c => (c.1, k.decide s.tick (t.logicalCore % 65536) beta c.1 c.2 v imports)
      sweepClasses s t beta imports rest (news.foldl (fun k p => k.putNode p.1 { k.node p.1 with up := p.2 }) k)

/-- The end of a sweep: counts, history and the next index (R379). -/
def Kiln.endSweep (k : Kiln) : Kiln :=
  let n := k.sweep
  let counted := k.burn ≤ (BitVec.ofNat 32 n - BitVec.ofNat 32 k.origin).toNat
  let k :=
    if counted then
      (List.range k.nnodes).foldl (fun k i =>
        if (k.node i).up then k.putNode i { k.node i with count := min ((k.node i).count + 1) 0xFFFFFFFF } else k) k
    else k
  let sweeps := k.history.filter (·.1.isSome)
  let first := k.history.filter (·.1.isNone)
  { k with sweep := (n + 1) % 2 ^ 32, history := (some n, k.states) :: sweeps.take 15 ++ first }

/-- A result word with an error (R386). -/
def kilnErr (e v : Nat) : W32 := BitVec.ofNat 32 (2 ^ 30 + e * 2 ^ 26 + v)

/-! ### SWEEP -/

/-- The operation that the kiln of a core works on: the one accepted first of those whose work is not done, with its group's slot
(R384). -/
def State.kilnTurn (s : State) (core : Nat) : Option (Nat × Op) :=
  let ops := s.groups.entries.flatMap fun e =>
    if e.1 / 64 = core then ((e.2.cls 2).ops.filter fun o => !o.isDone).map fun o => (e.1 % 64, o) else []
  ops.foldl (fun best o =>
    match best with
    | some b => if o.2.order < b.2.order then some o else best
    | none => some o) none

/-- The errors that keep a `ksweep` from running any sweep (R390). -/
def Kiln.refuses (k : Kiln) (l : Launch) : Option Nat :=
  if !k.seeded then some 1 else if k.phys && k.degraded then some 3 else if k.phys && l.form != 0 then some 4 else none

/-- How the next sweep of an array finds its imports (R381, R382). -/
inductive SweepStart
  | values (imports : List Bool)
  | wait
  | bad
deriving DecidableEq, Repr, Inhabited

/-- The imports of the next sweep of a team's array, if it may begin. -/
def State.sweepStart (s : State) (t : Team) (k : Kiln) : SweepStart :=
  let imports := k.imports.map (s.importValue t.launch k)
  if imports.contains .bad then .bad
  else if imports.contains .wait || s.heldBack t.launch (t.logicalCore % 65536) k.sweep then .wait
  else .values (imports.map (· == .value true))

/-- The kiln of a core runs up to n colour classes of the `ksweep` it works on: of the sweep that it has begun, or of the next one
unless that waits at its start or the operation stops there (R379, R381, R382, R390). -/
def State.sweepOn (s : State) (core n : Nat) : State :=
  match (if (s.debugOf core).frozen then none else s.kilnTurn core) with
  | none => s
  | some (slot, o) =>
    match s.groups.find (slotKey core slot), o.cmd, o.phase with
    | _, _, .done _ => s
    | some g, .kiln (.ksweep ncol queue beta count finished), _ =>
      match s.teams.find g.team with
      | none => s
      | some t =>
        let k := s.kiln core
        let put (s : State) (m : Nat) (p : Phase) : State :=
          s.putGroup core slot (g.putOp 2 { o with phase := p, cmd := .kiln (.ksweep ncol queue beta count m) })
        let go (col : Nat) (imports : List Bool) : State :=
          let (k', ok) := sweepClasses s t beta imports (((List.range ncol).drop col).take n) k
          if !ok then put (s.putKiln core { k' with sweeping := none }) finished (.done (kilnErr 2 finished))
          else if ncol ≤ col + n then put (s.putKiln core { k'.endSweep with sweeping := none }) (finished + 1) .begun
          else put (s.putKiln core { k' with sweeping := some (col + n, imports) }) finished .begun
        match k.sweeping with
        | some (col, imports) => go col imports
        | none =>
          if o.cancel ∨ 2 ≤ t.leaving ∨ count ≤ finished then s
          else if ((s.launches.find t.launch).bind k.refuses).isSome then s
          else
            match s.sweepStart t k with
            | .bad => put s finished (.done (kilnErr 5 finished))
            | .wait => put s finished .begun
            | .values imports => go 0 imports
    | _, _, _ => s

/-- SWEEP: the kiln of a core runs the next sweep of the `ksweep` it works on to its end, or what is left of the one that it has begun.
A turn of the machine that runs one colour class is the other form (R378, R379). -/
def execSweep (core : Nat) (s : State) : Out := .next (s.sweepOn core 8)

/-! ### The other operations (R387 to R392) -/

/-- kldj's work (R387). -/
def State.loadCouplings (s : State) (t : Team) (k : Kiln) (src cmode space n deg imp nimp : Nat) : Option Kiln := do
  let imports ← readImports (s.storeRead t 0 imp (4 * nimp)) nimp
  let couplings ←
    match cmode with
    | 0 => some (Couplings.held ((List.range n).map fun i => (List.range n).map fun j =>
        ⟨signedOf 8 (leNat (s.storeRead t 0 (src + n * i + j) 1)), false, j⟩))
    | 1 => ((List.range n).mapM (s.kilnBlock t 0 src deg n nimp)).map Couplings.held
    | _ => some (.streamed space src deg)
  return { k with
    couplings := couplings, imports := imports, nnodes := n, cmode := cmode, seeded := false, registered := [] }

/-- kbias's work (R388): records for nodes from first on. -/
def loadBiases (b : List Byte) (first count : Nat) (k : Kiln) : Option Kiln :=
  let ok (i : Nat) : Bool :=
    let colour := field b (4 * i + 2) 1
    decide ((colour < 8 ∨ colour = 0xFF) ∧ field b (4 * i + 3) 1 < 4)
  if (List.range count).all ok then
    some ((List.range count).foldl (fun k i =>
      let st := field b (4 * i + 3) 1
      let n := k.node (first + i)
      k.putNode (first + i)
        { n with
          bias := signedOf 16 (field b (4 * i) 2), colour := field b (4 * i + 2) 1
          up := if st / 2 = 1 ∧ !n.clamp then st % 2 == 1 else n.up }) k)
  else none

/-- kclamp's work (R388). -/
def loadClamps (b : List Byte) (k : Kiln) : Kiln :=
  let bit (off i : Nat) : Bool := (b.getD (off + i / 8) 0).getLsbD (i % 8)
  (List.range k.nnodes).foldl (fun k i =>
    let n := k.node i
    k.putNode i (if bit 0 i then { n with clamp := true, up := bit 128 i } else { n with clamp := false })) k

/-- kread's bytes (R391). -/
def Kiln.readOut (k : Kiln) (what first count : Nat) : List Byte :=
  let nodes := (List.range count).map (first + ·)
  match what with
  | 0 => nodes.map fun i => if k.nnodes ≤ i then 0 else if (k.node i).up then 0x01 else 0xFF
  | 1 => nodes.flatMap fun i => leBytes 4 (if k.nnodes ≤ i then 0 else (k.node i).count)
  | _ =>
    leBytes 4 k.sweep ++ leBytes 4 (k.origin + k.burn) ++ leBytes 2 k.nnodes ++ leBytes 1 k.phys.toNat ++ leBytes 1 k.lag ++
      leBytes 4 k.lastHealth ++ leBytes 4 k.failures ++ leBytes 4 k.calibrations ++ leBytes 40 0

/-- The health test with a limit (R383): true if it passes. -/
def Kiln.test (k : Kiln) (count limit : Nat) : Kiln × Bool :=
  let bad := limit < (if 32768 ≤ count then count - 32768 else 32768 - count)
  ({ k with
    lastHealth := count, degraded := k.degraded || bad, failures := if bad then k.failures + 1 else k.failures }, !bad)

/-- How many bytes of n from an offset up have been written at the end of each sector (R391). -/
def sectorEnds (at_ n : Nat) : List Nat := ((List.range n).map (· + 1)).filter fun j => (at_ + j) % 32 = 0 ∨ j = n
/-- A `kread` writes some more of its sectors: the stores, and how many bytes are written then. -/
def State.readMore (s : State) (core : Nat) (t : Team) (dst what first n written : Nat) : State × Nat :=
  let b := (s.kiln core).readOut what first n
  let ends := (sectorEnds dst b.length).filter fun j => written < j
  let upTo := ((ends.take (Config.choice s.tick 0x604 % (ends.length + 1))).getLast?).getD written
  (s.storeWrite t 0 (dst + written) ((b.take upTo).drop written), upTo)

/-- What an operation does, with its result word; none while a `ksweep` or a `kread` has more to do. -/
def KilnWork.perform (w : KilnWork) (s : State) (core : Nat) (t : Team) (l : Launch) : Option (State × W32) :=
  let k := s.kiln core
  let orBad (r : Option Kiln) : Option (State × W32) :=
    match r with
    | some k => some (s.putKiln core k, 0)
    | none => some (s, kilnErr 2 0)
  let count := Config.healthCount s.tick % 65537
  match w with
  | .kldj src cmode space n deg imp nimp => orBad (s.loadCouplings t k src cmode space n deg imp nimp)
  | .kbias src first n => orBad (loadBiases (s.storeRead t 0 src (4 * n)) first n k)
  | .kclamp a => some (s.putKiln core (loadClamps (s.storeRead t 0 a 256) k), 0)
  | .kseed key origin burn phys lag =>
    let nodes := k.nodes.mapValues fun _ n => { n with count := 0 }
    let k := { k with nodes := nodes.keep fun _ n => n ≠ KNode.atClaim }
    some (s.putKiln core
      { k with
        phys := phys, key := key, lag := lag, origin := origin, burn := burn, sweep := origin, seeded := true
        history := [(none, k.states)], registered := k.imports.map (·.1) }, 0)
  | .ksweep _ _ _ n finished =>
    match k.refuses l with
    | some e => if finished = 0 then some (s, kilnErr e 0) else if n ≤ finished then some (s, BitVec.ofNat 32 finished) else none
    | none => if n ≤ finished then some (s, BitVec.ofNat 32 finished) else none
  | .kread _ what first n written =>
    if (k.readOut what first n).length ≤ written then some (s, BitVec.ofNat 32 written) else none
  | .khealth limit =>
    let (k, ok) := k.test count limit
    some (s.putKiln core k, if ok then BitVec.ofNat 32 count else kilnErr 7 count)
  | .kcal =>
    let (k, ok) := k.test count 1024
    if ok then
      some (s.putKiln core { k with degraded := false, drifted := false, calibrations := k.calibrations + 1 }, 0)
    else some (s.putKiln core k, kilnErr 7 0)

/-- The word of a cancelled or saved class 2 operation (R390): DONE of a `ksweep`. -/
def KilnWork.cancelled (w : KilnWork) : W32 :=
  match w with
  | .ksweep _ _ _ _ finished => cancelWord ||| BitVec.ofNat 32 finished
  | _ => cancelWord

/-- COMPARATOR_DRIFT: a core's comparators drift (R376). -/
def execComparatorDrift (core : Nat) (s : State) : Out := .next (s.putKiln core { s.kiln core with drifted := true })

end Sys2Proof.Machine
end

