-- ==== Sys2Proof/Machine/Collective.lean ====
section
/-!
DEFINITION. The collective engine (12): the issue of the COLL instructions (R443 to R447, R462), combination of values
and roots (R449 to R451), the header exchange (R448), and the transfer of a member (R452 to R455, R459).
-/

namespace Sys2Proof.Machine

/-! ### Issue (R443 to R447) -/

/-- A communicator record (R443). -/
structure CommRecord where
  ckey : W64
  nrank : Nat
  myrank : Nat
  timeout : Nat
  members : List Nat
deriving DecidableEq, Repr, Inhabited

/-- The fields of a record that bytes hold. -/
def readComm (b : List Byte) : CommRecord :=
  let p := field b 8 2
  { ckey := BitVec.ofNat 64 (field b 0 8), nrank := p, myrank := field b 10 2, timeout := field b 12 4
    members := (List.range (min p 256)).map fun r => field b (64 + r) 1 }
/-- The record keeps the rules of R443. -/
def CommRecord.good (c : CommRecord) (b : List Byte) : Bool :=
  decide (1 ≤ c.nrank ∧ c.nrank ≤ 256 ∧ c.myrank < c.nrank) && zeros b 16 48 && decide c.members.Nodup &&
    c.members.all fun m => decide (m < Config.domainSize)

/-- A power of two. -/
def isPow2 (n : Nat) : Bool := n != 0 && 2 ^ Nat.log2 n == n
/-- Bytes of an element (R447). -/
def collBytes (etype : Nat) : Nat := if etype % 4 = 1 then 2 else 4
/-- Collective operations of the module in flight (R457). -/
def State.inFlight (s : State) : Nat := (s.groups.values.map fun g => (g.cls 4).ops.length).sum

/-- The bytes that a member reads and writes (R447). -/
def CollCmd.spans (c : CollCmd) : Nat × Nat :=
  let e := collBytes c.etype
  match c.fn with
  | 0 => ((if c.rootform then c.nv else c.ng / c.nrank * c.nv) * e, c.nv * e)
  | 1 => ((if c.rootform then c.nv else c.ng / c.nrank * c.nv) * e, c.nv / c.nrank * e)
  | 2 => (c.nv, c.nrank * c.nv)
  | 3 => (64 * c.sendCounts.sum, 64 * c.rcap)
  | _ => (if c.myrank = c.root then c.nv else 0, c.nv)

/-- The descriptor's fields are within R445 and R447, after R463; same tells that SRC and DST are one address. -/
def CollCmd.good (c : CollCmd) (b : List Byte) (same : Bool) : Bool :=
  let reduction := c.fn < 2
  let flags := field b 5 1
  let n := c.ng / c.nrank
  let (sn, dn) := c.spans
  decide (field b 4 1 < 16 ∧ field b 4 1 / 4 ≠ 3 ∧ flags < 8 ∧ field b 6 1 < 16 ∧ c.logl ≤ 20 ∧ field b 8 8 % 64 = 0 ∧
      field b 16 8 % 64 = 0 ∧ field b 35 1 = 0) && zeros b 52 12 &&
    (if reduction then
      decide (1 ≤ c.ng ∧ c.ng ≤ 2 ^ 31 ∧ 1 ≤ c.nv ∧ c.nv ≤ 2 ^ 24 ∧ c.ng % c.nrank = 0 ∧ n % 2 ^ c.logl = 0 ∧
        isPow2 (n / 2 ^ c.logl) ∧ (c.arrival ∨ isPow2 c.nrank) ∧ (c.fn = 1 → c.nv % c.nrank = 0))
     else decide (c.etype = 0 ∧ c.logl = 0 ∧ c.ng = 0) && !c.arrival && !c.rootform) &&
    (if c.fn = 2 ∨ c.fn = 4 then decide (c.nv % 64 = 0 ∧ 64 ≤ c.nv ∧ c.nv ≤ 2 ^ 30) else c.fn ≠ 3 || c.nv == 0) &&
    (c.fn = 3 || zeros b 40 12) && (if c.fn = 4 then decide (c.root < c.nrank) else c.root == 0) &&
    (if flags / 4 % 2 = 1 then decide (field b 34 1 < 8) else zeros b 34 1 && zeros b 36 4) &&
    !(sn ≠ 0 ∧ dn ≠ 0 ∧ c.src < c.dst + dn ∧ c.dst < c.src + sn ∧ !(c.fn = 0 ∧ c.rootform ∧ same))

/-- The next instance number of a key on this module (R444). -/
def State.instance_ (s : State) (ckey : W64) : Nat := ((s.instances.find? fun p => p.1 = ckey).map (·.2)).getD 0
/-- A context takes an instance of a key. -/
def State.takeInstance (s : State) (ctx : Nat) (ckey : W64) : State :=
  { s with
    ckeys := if s.ckeys.contains (ctx, ckey) then s.ckeys else s.ckeys ++ [(ctx, ckey)]
    instances := (ckey, s.instance_ ckey + 1) :: s.instances.filter fun p => p.1 ≠ ckey }
/-- A context already uses 256 other keys. -/
def State.keysFull (s : State) (ctx : Nat) (ckey : W64) : Bool :=
  !s.ckeys.contains (ctx, ckey) && decide (256 ≤ (s.ckeys.filter fun p => p.1 = ctx).length)

/-- A collective of function fn (R447). -/
def collective (fn : Nat) (m : Bool) (h a : Nat) (s : State) : Out :=
  onFrag s fun x =>
    let t := x.team
    let at_ := (x.uni a).toNat
    let room (p n align : Nat) : Option Nat :=
      if p % align ≠ 0 then some 1 else if t.kernel.unit < p + n then some 2 else none
    let unit (p n : Nat) : List Byte := s.storeRead t 0 p n
    let b := unit at_ 64
    let comm := field b 0 4
    let cb := unit comm 64
    let size := 64 + min (field cb 8 2) 256
    let rec_ := readComm (cb ++ unit (comm + 64) (size - 64))
    let counts := 4 * min rec_.nrank 256
    if x.g.handler then x.illegal s 0
    else if x.waitsOn [a] then .next s
    else
      let checks := [room at_ 64 64] ++ (if room at_ 64 64 = none then
        [room comm size 64] ++ (if fn = 3 then [room (field b 40 4) counts 4, room (field b 44 4) counts 4] else []) else [])
      match checks.findSome? id with
      | some k => x.trap s 10 (accessInfo 0 0 k 0xFF)
      | none =>
        let form := x.launch.form ≠ 0
        let flags := field b 5 1
        let db (k : Nat) : Nat := (x.launch.db.getD k 0).toNat
        let loc := field b 6 1
        let c : CollCmd :=
          { fn := fn, etype := field b 4 1, arrival := flags % 2 = 1 ∧ !form, rootform := flags / 2 % 2 = 1
            subst := flags % 2 = 1 ∧ form
            queue := if flags / 4 % 2 = 1 then some (field b 34 1, BitVec.ofNat 32 (field b 36 4)) else none
            src := (db (loc % 4) + field b 8 8) % 2 ^ 64, dst := (db (loc / 4 % 4) + field b 16 8) % 2 ^ 64
            logl := field b 7 1, ng := field b 24 4, nv := field b 28 4, root := field b 32 2
            sendCounts := if fn = 3 then (List.range rec_.nrank).map fun r => leNat (unit (field b 40 4 + 4 * r) 4) else []
            rcnt := field b 44 4, rcap := field b 48 4, ckey := rec_.ckey, nrank := rec_.nrank, myrank := rec_.myrank
            members := rec_.members, timeout := rec_.timeout, ckeySeq := s.instance_ rec_.ckey, exchanged := none
            transfer := none }
        let same := field b 8 8 = field b 16 8 ∧ loc % 4 = loc / 4 % 4
        let owned := c.queue.all fun q => (s.queue x.core q.1).owner == some x.g.team
        if !(rec_.good cb && c.good b same && owned) || s.keysFull x.ctxNum c.ckey then x.illegal s (BitVec.ofNat 32 at_)
        else if x.launch.form = 1 ∧ c.spans.2 ≠ 0 ∧ !inRanges t 0 c.dst c.spans.2 then x.trap s 5 (accessInfo 1 0 1 0xFF)
        else if x.g.full 4 ∨ 64 ≤ s.inFlight then .next s
        else
          let s := { s.takeInstance x.ctxNum c.ckey with nextOrder := s.nextOrder + 1 }
          x.done s ((x.g.issueOp 4 (.coll c) [] s.nextOrder s.tick).sendHandle s.ir 4 0 (h - 96)) m 1

/-- callr: all-reduce (R451, R452). -/
def execCallr (m : Bool) (h a : Nat) (s : State) : Out := collective 0 m h a s
/-- crsct: reduce-scatter (R452). -/
def execCrsct (m : Bool) (h a : Nat) (s : State) : Out := collective 1 m h a s
/-- cagth: all-gather (R453). -/
def execCagth (m : Bool) (h a : Nat) (s : State) : Out := collective 2 m h a s
/-- ca2a: all-to-all with counts (R454). -/
def execCa2a (m : Bool) (h a : Nat) (s : State) : Out := collective 3 m h a s
/-- cbcst: broadcast (R453). -/
def execCbcst (m : Bool) (h a : Nat) (s : State) : Out := collective 4 m h a s
/-- LINKS, the ports up, and OUT, the instances in flight, as they stand. -/
def State.status (s : State) : Nat × Nat := (36 - s.linksDown.length, s.inFlight)
/-- A die takes a new copy of them (R462). -/
def State.copyStatus (s : State) (die : Nat) : State := { s with dieStatus := s.dieStatus.set die s.status }
/-- cstat (R462): the domain and module, or the ports up, or the instances in flight, by the copy of the group's die. Once bring-up is
over the copies stand for 36 ports and no instance. How old a copy is stays open (notes/assumptions/23.md). -/
def execCstat (m : Bool) (d n : Nat) (s : State) : Out :=
  onFrag s fun x =>
    let copy := s.dieStatus.get x.die (36, 0)
    let v :=
      match n with
      | 0 => Config.domainSize % 2 ^ 9 * 2 ^ 16 + Config.moduleIndex % 2 ^ 8
      | 1 => copy.1 % 2 ^ 6
      | _ => copy.2 % 2 ^ 16
    if 2 < n then x.illegal s 0 else x.done s (x.writeUni x.g d (BitVec.ofNat 32 v)) m 1

/-! ### Combination (R449 to R451) -/

/-- A value with the overflow seen on the way to it. -/
abbrev Sum := W32 × Bool

/-- Combine (R449). -/
def combine (etype : Nat) (p q : Sum) : Sum :=
  let x := p.1
  let y := q.1
  let o := p.2 || q.2
  match etype % 4, etype / 4 with
  | 2, 0 | 3, 0 => (x + y, o)
  | 2, op => (if (op = 1) = (x.toInt ≤ y.toInt) then x else y, o)
  | 3, op => (if (op = 1) = (x.toNat ≤ y.toNat) then x else y, o)
  | _, 0 =>
    let (r, fl) := roundTo f32 false (addNum false (f32Num false x) (f32Num false y)).1 .rne
    (BitVec.ofNat 32 r, o || fl &&& flagOF != 0)
  | _, op => (BitVec.ofNat 32 (fpMinMax (op = 2) false 0 x.toNat y.toNat).1, o)

/-- Combines neighbours. -/
def pairUp (etype : Nat) : List Sum → List Sum
  | x :: y :: rest => combine etype x y :: pairUp etype rest
  | l => l
/-- The root of the tree over a list of 2^k nodes (R450). -/
def treeRoot (etype : Nat) (l : List Sum) : Sum :=
  ((List.range (Nat.log2 l.length)).foldl (fun l _ => pairUp etype l) l).headD (0, false)
/-- The fold of values in order. -/
def foldRow (etype : Nat) : List Sum → Sum
  | [] => (0, false)
  | x :: rest => rest.foldl (combine etype) x

/-- An element as it is read: bf16 widened (R449). -/
def readElem (etype : Nat) (b : List Byte) (k : Nat) : W32 :=
  if etype % 4 = 1 then BitVec.ofNat 32 (field b (2 * k) 2 * 2 ^ 16) else BitVec.ofNat 32 (field b (4 * k) 4)

/-- The roots of a member's own rows by column, from its source bytes (R450). -/
def CollCmd.ownRoots (c : CollCmd) (b : List Byte) : List Sum :=
  let n := c.ng / c.nrank
  let l := 2 ^ c.logl
  (List.range c.nv).map fun j =>
    if c.rootform then (readElem c.etype b j, false)
    else
      treeRoot c.etype ((List.range (n / l)).map fun k =>
        foldRow c.etype ((List.range l).map fun i => (readElem c.etype b ((k * l + i) * c.nv + j), false)))

/-- A list in an order of arrival, which a free value gives (R451, R464). -/
def arrivalOrder {α : Type} (tick salt : Nat) : Nat → List α → List α
  | 0, l => l
  | n + 1, l =>
    let k := Config.choice tick (salt + n) % l.length
    match l[k]? with
    | some x => x :: arrivalOrder tick salt n (l.eraseIdx k)
    | none => []

/-- The result of column j from the members' roots by rank (R451). -/
def CollCmd.column (c : CollCmd) (tick j : Nat) (roots : List Sum) : Sum :=
  if c.arrival then foldRow c.etype (arrivalOrder tick (0x1000 + 256 * j) roots.length roots) else treeRoot c.etype roots

/-- The bytes of a result, and whether it overflowed or is a NaN (R449, R452). -/
def CollCmd.resultElem (c : CollCmd) (v : Sum) : List Byte × Bool × Bool :=
  let float := c.etype % 4 < 2
  let nan := float && (f32Num false v.1).isNan
  if c.etype % 4 = 1 then
    let (r, fl) := roundTo bf16 false (f32Num false v.1) .rne
    (leBytes 2 r, v.2 || fl &&& flagOF != 0, nan)
  else (leBytes 4 v.1.toNat, v.2, nan)

/-! ### The member's transfer (R452 to R455) -/

/-- The message of a rank among the others'. -/
def messageOf (peers : List MemberMessage) (r : Nat) : MemberMessage :=
  (peers.find? fun p => p.rank = r).getD default

/-- What a member writes at its destination, its receive counts, and the flag bits of its result word, from its own
source bytes and the others' messages. -/
def CollCmd.outcome (c : CollCmd) (tick : Nat) (own : List Byte) (peers : List MemberMessage) : List Byte × List Nat × Nat :=
  let ranks := List.range c.nrank
  match c.fn with
  | 0 | 1 =>
    let mine := c.ownRoots own
    let root (r j : Nat) : Sum :=
      if r = c.myrank then mine.getD j (0, false)
      else
        let p := messageOf peers r
        (BitVec.ofNat 32 (field p.data (4 * j) 4), p.overflow)
    let all := (List.range c.nv).map fun j => c.resultElem (c.column tick j (ranks.map fun r => root r j))
    let part := if c.fn = 0 then all else (all.drop (c.myrank * (c.nv / c.nrank))).take (c.nv / c.nrank)
    (part.flatMap (·.1), [], (all.any (·.2.1)).toNat * 2 ^ 24 + (all.any (·.2.2)).toNat * 2 ^ 23)
  | 2 => (ranks.flatMap fun r => if r = c.myrank then own else ((messageOf peers r).data.take c.nv), [], 0)
  | 3 =>
    let count (r : Nat) : Nat := if r = c.myrank then c.sendCounts.getD c.myrank 0 else (messageOf peers r).counts.getD c.myrank 0
    let mine := (own.drop (64 * (c.sendCounts.take c.myrank).sum)).take (64 * count c.myrank)
    let all := ranks.flatMap fun r => if r = c.myrank then mine else (messageOf peers r).data.take (64 * count r)
    let total := (ranks.map count).sum
    let written := min total c.rcap
    (all.take (64 * c.rcap), ranks.map count, (decide (c.rcap < total)).toNat * 2 ^ 22 + min written 0xFFFF)
  | _ => (if c.myrank = c.root then own else (messageOf peers c.root).data.take c.nv, [], 0)

/-! ### The header exchange (R448) -/

/-- A message agrees with a member's own header. -/
def CollCmd.agrees (c : CollCmd) (p : MemberMessage) : Bool :=
  decide (p.fn = c.fn ∧ p.etype = c.etype ∧ p.ng = c.ng ∧ p.nv = c.nv ∧ p.logl = c.logl ∧ p.root = c.root ∧
    p.canonical = !c.arrival ∧ p.nrank = c.nrank ∧ p.modCrc = crc32c (c.members.map fun m => BitVec.ofNat 8 m))
/-- The headers that have arrived do not match (R448). -/
def CollCmd.mismatch (c : CollCmd) (peers : List MemberMessage) : Bool :=
  peers.any (fun p => !c.agrees p || c.members[p.rank]? != some p.module) || c.members[c.myrank]? != some Config.moduleIndex
/-- Every other member's header has arrived. -/
def CollCmd.complete (c : CollCmd) (peers : List MemberMessage) : Bool :=
  c.members.all fun m => m == Config.moduleIndex || peers.any fun p => p.module = m

/-- A result word with an error (R458). -/
def CollCmd.err (c : CollCmd) (e : Nat) : W32 := BitVec.ofNat 32 (2 ^ 30 + e * 2 ^ 26 + c.subst.toNat * 2 ^ 25)

/-- The word of a cancelled collective (R460, R463). -/
def CollCmd.cancelled (c : CollCmd) : W32 := BitVec.ofNat 32 (2 ^ 31 + c.subst.toNat * 2 ^ 25)

/-- Of a list of operations, the collectives that wait for their header exchange. -/
def unexchanged (l : List Op) : List (Op × CollCmd) :=
  l.filterMap fun o =>
    match o.cmd, o.phase with
    | .coll c, .issued => if o.cancel ∨ c.exchanged.isSome then none else some (o, c)
    | _, _ => none

/-- Another member is a module that cannot be reached (R438). -/
def CollCmd.losesMember (c : CollCmd) (unreachable : List Nat) : Bool :=
  unreachable.any fun p => c.members.contains p && p != Config.moduleIndex

/-- What the header exchange makes of an operation. -/
def CollCmd.exchange (c : CollCmd) (o : Op) (peers : List MemberMessage) (e : InstanceEnd) : Op :=
  let fail (n : Nat) : Op := { o with phase := .done (c.err n) }
  let go (f : Option Nat) : Op := { o with phase := .begun, cmd := .coll { c with exchanged := some (peers, f) } }
  if e = .aborted then fail 3
  else if c.mismatch peers then fail 1
  else if !c.complete peers then (if e = .unreachable then fail 4 else o)
  else
    match e with
    | .unreachable => go (some 4)
    | .translation => go (some 5)
    | .dataError => go (some 6)
    | _ => go none

/-- HEADER_EXCHANGE: the headers of the other members of a group's collective arrive and are matched, with the way the
instance ends for this member after that (R448, R459); none begins behind a parked one (R29). -/
def execHeaderExchange (core slot : Nat) (peers : List MemberMessage) (e : InstanceEnd) (s : State) : Out :=
  match s.groups.find (slotKey core slot) with
  | none => .next s
  | some g =>
    let l := unexchanged ((g.cls 4).ops.takeWhile fun o => o.parked.isNone)
    match l[Config.choice s.tick 0x400 % l.length]? with
    | some (o, c) => .next (s.putGroup core slot (g.putOp 4 (c.exchange o peers (if c.losesMember s.unreachable then .unreachable else e))))
    | none => .next s

/-- COLLECTIVE_TIMEOUT: the TIMEOUT of a group's collective passes before every member has arrived (R459). -/
def execCollectiveTimeout (core slot : Nat) (s : State) : Out :=
  match s.groups.find (slotKey core slot) with
  | none => .next s
  | some g =>
    let l := (unexchanged (g.cls 4).ops).filter fun p => p.2.timeout ≠ 0
    match l[Config.choice s.tick 0x401 % l.length]? with
    | some (o, c) => .next (s.putGroup core slot (g.putOp 4 { o with phase := .done (c.err 2) }))
    | none => .next s

/-! ### The data phase -/

/-- Why the engine cannot reach bytes of global memory: an error code of R459, or a fault that parks the member. -/
inductive CollStop
  | err (e : Nat)
  | park (kind level va entryAddr : Nat) (a : Access)
deriving DecidableEq, Repr, Inhabited

/-- The places of n bytes of global memory for the collective engine. -/
def State.collPlaces (s : State) (core ctx : Nat) (a : Access) (va n : Nat) : Except CollStop (List (Nat × Home)) :=
  if 2 ^ 55 < va + n then .error (.err 5)
  else
    match s.resolve ctx a (s.secureBy core 4 ctx) 0x402 (partsOf n) va n with
    | .error (.world _) => .error (.err 5)
    | .error (.page kind level v entryAddr) =>
      if kind = 5 ∨ (s.context ctx).faultRing = 0 then .error (.err 5) else .error (.park kind level v entryAddr a)
    | .ok ps =>
      match ps.findSome? fun p => s.lostSite p.2 with
      | some 1 => .error (.err 6)
      | some _ => .error (.err 4)
      | none => .ok ps

/-- The parts of a destination that lie in one sector each, in ascending address. -/
def sectorParts (dst : Nat) (b : List Byte) : List (Nat × List Byte) :=
  (List.range ((dst % 32 + b.length + 31) / 32)).map fun i =>
    let lo := max dst (32 * (dst / 32 + i))
    (lo, (b.drop (lo - dst)).take (32 * (dst / 32 + i + 1) - lo))
/-- Writes parts one after the other (R455); it answers how many, and why it stopped if it did. -/
def State.collParts (core ctx : Nat) : List (Nat × List Byte) → Nat → State → State × Nat × Option CollStop
  | [], n, s => (s, n, none)
  | (lo, b) :: rest, n, s =>
    match s.collPlaces core ctx .write lo b.length with
    | .error x => (s, n, some x)
    | .ok ps => State.collParts core ctx rest (n + 1) (s.scatter ((ps.map (·.1)).zip b))
/-- The parts that an error leaves: each of their bytes that can be written is old or new (R459, R464). -/
def State.collTorn (s : State) (core ctx : Nat) (parts : List (Nat × List Byte)) : State :=
  parts.foldl (fun s p =>
    match s.collPlaces core ctx .write p.1 p.2.length with
    | .error _ => s
    | .ok ps =>
      s.scatter (((ps.map (·.1)).zip p.2).zipIdx.filterMap fun q =>
        if Config.choice s.tick (0x10000 + p.1 + q.2) % 2 = 1 then some q.1 else none)) s

/-- A member's own source as an error leaves it: a byte that cannot be read is a free value. -/
def State.collSource (s : State) (core ctx : Nat) (c : CollCmd) : List Byte :=
  (List.range c.spans.1).map fun i =>
    match s.collPlaces core ctx .read (c.src + i) 1 with
    | .ok ps => (s.gather (ps.map (·.1))).headD 0
    | .error _ => (Config.freeWord s.tick (0x20000 + i)).setWidth 8
/-- What a member has left to write; where its source was not read, what the source as an error leaves it gives (R459, R464). -/
def State.collLeft (s : State) (core ctx : Nat) (c : CollCmd) : List (Nat × List Byte) :=
  match c.transfer, c.exchanged with
  | some tr, _ => (sectorParts c.dst tr.bytes).drop tr.done
  | none, some (peers, _) => sectorParts c.dst (c.outcome s.tick (s.collSource core ctx c) peers).1
  | none, none => []
/-- A collective of a group ends with an error: what it had left to write is old or new. -/
def State.failColl (s : State) (core slot : Nat) (g : Group) (t : Team) (o : Op) (c : CollCmd) (e : Nat) : State :=
  let ctx := t.launch / 2 ^ 20
  (s.collTorn core ctx (s.collLeft core ctx c)).putGroup core slot (g.putOp 4 { o with phase := .done (c.err e), parked := none })
/-- A stop of a member: it ends with an error, or is parked on a fault at its current sector (R459). -/
def State.stopColl (s : State) (core slot : Nat) (g : Group) (t : Team) (o : Op) (c : CollCmd) (x : CollStop) : State :=
  match x with
  | .err e => s.failColl core slot g t o c e
  | .park kind level va entryAddr a =>
    let (s, id) := s.reportFault (t.launch / 2 ^ 20) core fun id =>
      faultBytes va kind 5 core slot 4 a.code level (BitVec.ofNat 32 t.launch) 0 o.seq id entryAddr
    match id with
    | none => s.failColl core slot g t o c 5
    | some n => s.putGroup core slot (g.putOp 4 { o with cmd := .coll c, parked := some n })

/-- Writes sectors of a member's destination, any number of them in a turn; after the last one it is done. -/
def State.writeColl (s : State) (core slot : Nat) (g : Group) (t : Team) (o : Op) (c : CollCmd) (tr : CollTransfer) : State :=
  let left := (sectorParts c.dst tr.bytes).drop tr.done
  let n := Config.choice s.tick 0x403 % (left.length + 1)
  let (s, k, stop) := State.collParts core (t.launch / 2 ^ 20) (left.take n) 0 s
  let c := { c with transfer := some { tr with done := tr.done + k } }
  match stop with
  | some x => s.stopColl core slot g t o c x
  | none =>
    if k < left.length then s.putGroup core slot (g.putOp 4 { o with cmd := .coll c })
    else
      let s := if c.fn = 3 then s.storeWrite t 0 c.rcnt (tr.counts.flatMap (leBytes 4)) else s
      s.putGroup core slot
        (g.putOp 4 { o with phase := .done (BitVec.ofNat 32 (c.subst.toNat * 2 ^ 25 + tr.bits)), parked := none })

/-- What a member does after the exchange: it reads its source, whole (notes/assumptions/23.md), then writes its destination; or an
error that any member reports ends it. -/
def State.runColl (s : State) (core slot : Nat) (g : Group) (t : Team) (o : Op) (c : CollCmd)
    (peers : List MemberMessage) (fail : Option Nat) : State :=
  let go (c : CollCmd) (tr : CollTransfer) : State :=
    match fail with
    | some e => s.failColl core slot g t o c e
    | none => s.writeColl core slot g t o c tr
  match c.transfer with
  | some tr => go c tr
  | none =>
    let sn := c.spans.1
    match (if sn = 0 then .ok [] else s.collPlaces core (t.launch / 2 ^ 20) .read c.src sn) with
    | .error x =>
      match fail with
      | some e => s.failColl core slot g t o c e
      | none => s.stopColl core slot g t o c x
    | .ok sp =>
      let (b, counts, bits) := c.outcome s.tick (s.gather (sp.map (·.1))) peers
      let tr : CollTransfer := ⟨b, counts, bits, 0⟩
      go { c with transfer := some tr } tr

/-- The collective engine's turn for an operation that is not done: cancelled before the exchange (R460), failed because a member
cannot be reached (R438), its fault answered with failure, or its transfer. -/
def State.turnColl (s : State) (core slot : Nat) (g : Group) (t : Team) (o : Op) (c : CollCmd) : State :=
  match c.exchanged with
  | none =>
    if o.cancel then s.putGroup core slot (g.putOp 4 { o with phase := .done c.cancelled })
    else if c.losesMember s.unreachable then s.putGroup core slot (g.putOp 4 { o with phase := .done (c.err 4) })
    else s
  | some (peers, fail) =>
    if s.answeredFail o then (s.forget o).failColl core slot g t o c (fail.getD 5)
    else if o.parked.isSome then s
    else s.runColl core slot g t o c peers fail

/-! ### The fabric (R436 to R438) -/

/-- PEER_UNREACHABLE: no path to a peer; the collectives that have it as a member fail (R438, R459). -/
def execPeerUnreachable (peer : Nat) (s : State) : Out :=
  let hit (o : Op) : Op :=
    match o.cmd, o.phase with
    | _, .done _ => o
    | .coll c, _ =>
      if !c.members.contains peer ∨ peer = Config.moduleIndex then o
      else
        match c.exchanged with
        | some (peers, none) => { o with cmd := .coll { c with exchanged := some (peers, some 4) } }
        | some (_, some _) => o
        | none => if o.cancel then o else { o with phase := .done (c.err 4) }
    | _, _ => o
  .next
    { s with
      unreachable := if s.unreachable.contains peer then s.unreachable else peer :: s.unreachable
      groups := s.groups.mapValues fun _ g =>
        { g with classes := g.classes.mapValues fun _ k => { k with ops := k.ops.map hit } } }
/-- LANE_FAILURE: a lane fails and its port retrains on the others; the error log says so, in fields whose values the spec
leaves open (R437, R493). -/
def execLaneFailure (link : Nat) (s : State) : Out :=
  let free (k n : Nat) : Nat := (Config.freeWord s.tick k).toNat % 2 ^ n
  let s' := { s with lanesDown := if s.lanesDown.contains link then s.lanesDown else link :: s.lanesDown }
  .next (s'.logError 4 (free 0x410 8) (free 0x411 16) (free 0x412 16)
    (Config.freeWord s.tick 0x414 ++ Config.freeWord s.tick 0x413) (Config.freeWord s.tick 0x415))
/-- PORT_FAILURE: traffic spreads over the other ports (R437). -/
def execPortFailure (link : Nat) (s : State) : Out :=
  .next { s with linksDown := if s.linksDown.contains link ∨ 36 ≤ link then s.linksDown else link :: s.linksDown }
/-- FLIT_RESEND: the link layer sends a flit again; only time changes (R437). -/
def execFlitResend (_ : Nat) (s : State) : Out := .next s

end Sys2Proof.Machine
end

