-- ==== Sys2Proof/Machine/Retire.lean ====
section
/-!
DEFINITION. OPERATION_RETIRE (R21): the work of the engines that have no event of their own (sampling engine, step
sequencer, collectives), and what the retirement of an operation does: result word (R115), ring (R263), token (R275),
scoreboard entry (R27), MERR (R287).
-/

namespace Sys2Proof.Machine

/-! ### The work done at the retirement's turn -/

/-- The kiln's turn for the operation it works on (R386, R390): what is done ends it, even where it is cancelled too. -/
def State.turnKiln (s : State) (core slot : Nat) (g : Group) (t : Team) (l : Launch) (o : Op) (w : KilnWork) : State :=
  let fin (s : State) (word : W32) : State := s.putGroup core slot (g.putOp 2 { o with phase := .done word })
  let stops : Bool := match w with
    | .ksweep _ _ _ n finished =>
      decide (finished < n) && (s.kiln core).sweeping.isNone && (o.cancel || decide (2 ≤ t.leaving))
    | _ => o.cancel && o.phase == .issued
  if ((s.kilnTurn core).map fun p => (p.1, p.2.seq)) ≠ some (slot, o.seq) then s
  else if stops then fin s w.cancelled
  else
    match w.perform s core t l, w with
    | some (s, word), _ => fin s word
    | none, .kread dst what first n written =>
      let (s, m) := s.readMore core t dst what first n written
      s.putGroup core slot (g.putOp 2 { o with phase := .begun, cmd := .kiln (.kread dst what first n m) })
    | none, _ => s

/-- The sequencer's turn for an operation (R357, R366): it makes any number of the operation's accesses that are left. -/
def State.turnSeq (s : State) (core slot : Nat) (g : Group) (t : Team) (o : Op) (w : SeqWork) : State :=
  let fin (s : State) (word : W32) : State := s.putGroup core slot (g.putOp 3 { o with phase := .done word })
  if o.cancel ∧ w.tile.isSome ∧ o.phase = .issued then fin s cancelWord
  else if s.seqReady core g.team o w then
    let s := if o.phase = .issued then w.start s else s
    let n := Config.choice s.tick 0x307 % (w.accesses - o.written + 1)
    let (s, got) := w.accessMany t n o.written s o.got
    if w.accesses ≤ o.written + n then
      let (s, word) := w.finish s t got
      fin s word
    else s.putGroup core slot (g.putOp 3 { o with phase := .begun, written := o.written + n, got := got })
  else s

/-- The operation of a list that an engine works on: the first that is not done; for collectives, which are independent of each other
(R457), any of those. -/
def State.worked (s : State) (cls : Nat) (l : List Op) : Option Op :=
  let open_ := l.filter fun o => !o.isDone
  if cls = 4 then open_[Config.choice s.tick 0x404 % open_.length]? else open_.head?

/-- What the engine of an operation does at its turn. -/
def State.workOp (s : State) (core slot : Nat) (g : Group) (t : Team) (l : Launch) (o : Op) : State :=
  match o.phase, o.cmd with
  | .done _, _ => s
  | _, .kiln w => s.turnKiln core slot g t l o w
  | _, .seqr w => s.turnSeq core slot g t o w
  | _, .coll c => s.turnColl core slot g t o c
  | _, _ => s

/-! ### Retirement -/

/-- The token that an operation pushes at its retirement (R275, R385, R445). -/
def Cmd.token : Cmd → Option (Nat × W32)
  | .copy c => if c.desc.queue then some (c.desc.qnum, c.desc.token) else none
  | .kiln (.ksweep _ q _ _ _) => q
  | .coll c => c.queue
  | _ => none
/-- The ring whose slot an operation fills. -/
def Cmd.ringNum : Cmd → Option Nat
  | .copy c => if c.slotAddr.isSome then some c.desc.rnum else none
  | _ => none

/-- The token is pushed, whoever owns the queue then; none while the queue has no room (R275). -/
def State.pushToken (s : State) (core : Nat) (k : Option (Nat × W32)) : Option State :=
  match k with
  | none => some s
  | some (n, v) =>
    let q := s.queue core n
    if q.room = 0 then none
    else some (s.putQueue core n { q with items := q.items ++ [v] })
/-- The ring advances; none while an older reservation stands (R263). -/
def State.advanceRing (s : State) (core agent seq : Nat) (n : Option Nat) : Option State :=
  match n with
  | none => some s
  | some n =>
    let r := s.ring core n
    if !r.reserved.contains (agent, seq) then some s
    else if r.reserved.head? ≠ some (agent, seq) then none
    else some (s.putRing core n { r with reserved := r.reserved.drop 1, nfill := r.nfill + 1 })
/-- The operation's scoreboard entry is freed (R27). -/
def State.freeEntry (s : State) (core agent seq : Nat) : State :=
  { s with scoreboard := s.scoreboard.filter fun p => !(p.core == core && p.agent == agent && p.seq == seq) }

/-- The result word reaches the register that holds the handle, or is on its way to do so (R115). -/
def Group.deliver (g : Group) (c seq : Nat) (word : W32) : Group :=
  let hit (p : PendingReg) : Bool := p.cls == c && p.seq == seq
  let g' := (g.pendingRegs.filter hit).foldl (fun g p => g.putG p.handlerBank p.reg word) g
  let land (h : HandleDest) : HandleDest :=
    if h.word.toNat / 2 ^ 28 = c ∧ h.word.toNat % 2 ^ 24 = seq then { h with result := some word } else h
  { g' with
    pendingRegs := g.pendingRegs.filter fun p => !hit p
    pend := g.pend.map fun p => { p with handle := p.handle.map land } }

/-- A `sqsig` retires: the decision of its index is known (R354). -/
def Group.decideTile (g : Group) (o : Op) (word : W32) : Group :=
  match o.cmd with
  | .seqr (.sqsig _ _ _ _ _) =>
    let d := word.toNat / 2 ^ 30 = 0 ∧ word.getLsbD 23
    { g with signatures := g.signatures.mapValues fun _ v => if v.1 = o.seq then (v.1, some (decide d)) else v }
  | _ => g

/-- KSTAT takes the fields that a class 2 operation has changed at its retirement (R372). -/
def KilnShown.retire (k : KilnShown) (w : KilnWork) (word : W32) : KilnShown :=
  let ok := word.toNat / 2 ^ 30 = 0
  let failed := word.toNat / 2 ^ 26 = 16 + 7
  match w with
  | .kldj _ cmode _ n _ _ _ => if ok then { k with nnodes := n, cmode := cmode, seeded := false } else k
  | .kseed _ _ _ phys lag => if ok then { k with phys := phys, lag := lag, seeded := true } else k
  | .khealth _ => if failed then { k with degraded := true } else k
  | .kcal => if ok then { k with degraded := false } else if failed then { k with degraded := true } else k
  | .kbias .. | .kclamp .. | .ksweep .. | .kread .. => k
/-- A class 2 operation of a core retires. -/
def State.showKiln (s : State) (core : Nat) (o : Op) (word : W32) : State :=
  match o.cmd with
  | .kiln w => s.putKiln core { s.kiln core with shown := (s.kiln core).shown.retire w word }
  | _ => s

/-- A class 0 copy retires: the parts of `mmah` and `mmag` that it stages know its STATUS (R294). -/
def Group.stagePart (g : Group) (o : Op) (word : W32) : Group :=
  let part (p : MmagPart) : MmagPart := if p.copySeq = o.seq then { p with result := some (word.toNat / 2 ^ 30) } else p
  let upd (q : Op) : Op :=
    match q.cmd with
    | .matrix (.mmag mode c a sa parts next) p => { q with cmd := .matrix (.mmag mode c a sa (parts.map part) next) p }
    | _ => q
  match o.cmd with
  | .copy c =>
    if c.fetch = 0 then g else { g with classes := g.classes.modify 1 fun k => { k with ops := k.ops.map upd } }
  | _ => g

/-- The oldest operation of a class has done its work and retires, unless its token or its ring waits (R21). -/
def State.retireGroup (s : State) (core slot c : Nat) (o : Op) (word : W32) : State :=
  match s.groups.find (slotKey core slot) with
  | none => s
  | some g =>
    match (s.advanceRing core slot o.seq o.cmd.ringNum).bind fun s => s.pushToken core o.cmd.token with
    | none => s
    | some s =>
      let k := g.cls c
      let g := { g with classes := g.classes.set c { k with ops := k.ops.drop 1 }, merr := g.merr ||| o.merr }
      let g := ((g.deliver c o.seq word).decideTile o word).stagePart o word
      let s := (((s.freeEntry core slot o.seq).showKiln core o word).putGroup core slot g).settle core slot
      if c = 3 then s.sweepSlots else s

/-- The number of copies that a hod has issued since copy n, by the numbers of R473. -/
def Hod.since (h : Hod) (n : Nat) : Nat := (h.nextSeq + 0x7FFFFFFF - n) % 0x7FFFFFFF

/-- A hod's oldest copy retires; its result word is kept while it is among the 64 issued last (R474). -/
def State.retireHod (s : State) (core agent : Nat) (o : Op) (word : W32) : State :=
  match s.hods.find (2 * core + (agent - 64)) with
  | none => s
  | some h =>
    match (s.advanceRing core agent o.seq o.cmd.ringNum).bind fun s => s.pushToken core o.cmd.token with
    | none => s
    | some s =>
      let h := { h with
        ops := h.ops.drop 1
        results := (h.results.set o.seq word).keep fun n _ => decide (h.since n ≤ 64) }
      let s := (s.freeEntry core agent o.seq)
      let s := { s with hods := s.hods.set (2 * core + (agent - 64)) h }
      match h.claim with
      | some uid => s.settleTeam uid
      | none => s

/-- OPERATION_RETIRE: the oldest operation of an agent's class whose work is not done, or some collective, does what its engine can do
at once, and the oldest of all retires if its work is done (R21, R457). -/
def execOperationRetire (core agent cls : Nat) (s : State) : Out :=
  if (s.debugOf core).frozen then .next s
  else if agent < 64 then
    match s.groups.find (slotKey core agent) with
    | none => .next s
    | some g =>
      match (g.cls cls).ops, s.teams.find g.team with
      | o :: _, some t =>
        match s.launches.find t.launch with
        | none => .next s
        | some l =>
          let s := s.workOp core agent g t l ((s.worked cls (g.cls cls).ops).getD o)
          match ((s.groups.find (slotKey core agent)).map fun g => (g.cls cls).ops.head?).join with
          | some o' =>
            match o'.phase with
            | .done word => .next (s.retireGroup core agent cls o' word)
            | _ => .next s
          | none => .next s
      | _, _ => .next s
  else
    match s.copyOps core agent with
    | o :: _ =>
      match o.phase with
      | .done word => .next (if cls = 0 then s.retireHod core agent o word else s)
      | _ => .next s
    | [] => .next s

end Sys2Proof.Machine
end

