-- ==== Sys2Proof/Machine/Recording.lean ====
section
/-!
DEFINITION. Record mode (08): `recon` and `recoff` (R327 to R329), marks (R330), segments (R331), bindings (R332) and
`rstat` (R333).
-/

namespace Sys2Proof.Machine

/-! ### Segment headers (R319) -/

/-- The fields of a segment's header. -/
structure SegHead where
  seglen : Nat
  defsave : Nat
  gw : Nat
  goff : Int
  wgrad : Nat
  nent : Nat
  base : Nat
  dtop : Nat
  prev : Nat
  next : Nat
deriving DecidableEq, Repr, Inhabited

/-- The fields that 64 bytes hold. -/
def readSeg (b : List Byte) : SegHead where
  seglen := field b 0 4
  defsave := field b 4 1
  gw := field b 5 1
  goff := signedOf 32 (field b 8 4)
  wgrad := field b 12 4
  nent := field b 0x10 4
  base := field b 0x14 4
  dtop := field b 0x18 4
  prev := field b 0x1C 4
  next := field b 0x20 4
/-- A header at an offset of a team's store. -/
def State.segAt (s : State) (t : Team) (space off : Nat) : SegHead := readSeg (s.storeRead t space off 64)
/-- SEGLEN is valid. -/
def SegHead.lenOk (h : SegHead) : Bool := decide (h.seglen % 64 = 0 ∧ 128 ≤ h.seglen ∧ h.seglen ≤ 2 ^ 24)
/-- The S fields of a first segment are valid (R328). -/
def SegHead.firstOk (h : SegHead) (b : List Byte) : Bool :=
  h.lenOk && decide (h.defsave < 16 ∧ h.defsave % 4 ≠ 0 ∧ h.defsave / 4 ≠ 0 ∧ h.gw ≠ 1 ∧ h.gw ≤ 8) && zeros b 6 2
/-- The gradient width (R319). -/
def SegHead.width (h : SegHead) : Nat := if h.gw = 0 then 8 else h.gw

/-- A header lies under a copy's scoreboard entry, so that its reads and writes wait (R28, R327). -/
def State.headHeld (s : State) (t : Team) (space off : Nat) : Bool := s.spanHeld t space off 64
/-- The checks of an address, its segment and its write range (R328). -/
def Ctx.segTrap (x : Ctx) (s : State) (space a : Nat) : Option IssueTrap :=
  let stop := s.storeEnd x.team space
  let h := s.segAt x.team space a
  if a % 64 ≠ 0 then some ⟨10, accessInfo 0 0 1 0xFF⟩
  else if stop < a + 64 ∨ stop < a + h.seglen then some ⟨10, accessInfo 0 0 2 0xFF⟩
  else if space = 1 ∧ x.launch.form = 1 ∧ !inRanges x.team 1 a h.seglen then some ⟨5, accessInfo 1 0 1 0xFF⟩
  else none

/-! ### recon and recoff (R327 to R329) -/

/-- How far the NEXT chain of a log could be followed: its segments, newest first; the offset of the header whose NEXT failed; or a
header that a copy's scoreboard entry covers, which is not read yet (R28). -/
inductive Chain
  | whole (segs : List Nat)
  | broken (seg : Nat)
  | held
deriving DecidableEq, Repr, Inhabited

/-- Follows the NEXT chain from a header on, of which earlier come before it, newest first (R327). -/
def State.logChain (s : State) (t : Team) (space : Nat) : Nat → List Nat → Nat → Chain
  | 0, earlier, seg => .whole (seg :: earlier)
  | fuel + 1, earlier, seg =>
    let n := (s.segAt t space seg).next
    if n = noIndex then .whole (seg :: earlier)
    else if n % 64 ≠ 0 ∨ s.storeEnd t space < n + 64 ∨ (seg :: earlier).contains n then .broken seg
    else if s.headHeld t space n then .held
    else
      let h := s.segAt t space n
      if n + h.seglen ≤ s.storeEnd t space ∧ h.prev = seg ∧ h.lenOk then s.logChain t space fuel (seg :: earlier) n
      else .broken seg

/-- The context opened on a log whose segments are given, newest first. -/
def openLog (space first : Nat) (cont : Bool) (h0 h : SegHead) (segs : List Nat) (slot : Nat) : LogCtx where
  space := space
  first := first
  seg := segs.headD first
  seglen := h.seglen
  earlier := segs.drop 1
  nent := if cont then h.nent else 0
  base := if cont then h.base else 0
  dtop := if cont then h.dtop else h.seglen
  reserved := 0
  reservedEntries := 0
  defsave := h0.defsave
  gw := h0.width
  producers := Map.empty
  origins := []
  members := [slot]

/-- recon (R327, R328). -/
def execRecon (m : Bool) (a : Nat) (cont p : Bool) (s : State) : Out :=
  onFrag s fun x =>
    let at_ := (x.uni a).toNat
    let space := p.toNat
    let t := x.team
    let bad (info : Nat) : Out := x.illegal s (BitVec.ofNat 32 info)
    if x.waitsOn [a] || s.headHeld t space at_ then .next s
    else
      match x.segTrap s space at_ with
      | some e => x.trap s e.cause e.info
      | none =>
        let b := s.storeRead t space at_ 64
        let h := readSeg b
        if x.g.recording || x.g.handler || !h.firstOk b then bad at_
        else
          match t.logs.find? fun c => c.space = space ∧ c.first = at_ with
          | some c =>
            if x.launch.form ≠ 0 ∧ c.members ≠ [] then bad at_
            else if s.headHeld t space c.seg then .next s
            else
              let s := (s.putTeam x.g.team (t.putLog { c with members := c.members ++ [x.slot] })).writeBack t c noIndex
              x.done s { x.g with recording := true, log := some ⟨space, at_, c.next⟩ } m 1
          | none =>
            match (if cont then s.logChain t space (s.storeEnd t space / 128) [] at_ else .whole [at_]) with
            | .held => .next s
            | .broken seg => bad seg
            | .whole segs =>
              if 4 ≤ t.logs.length then bad at_
              else
                let c := openLog space at_ cont h (s.segAt t space (segs.headD at_)) segs x.slot
                let s := (s.putTeam x.g.team { t with logs := t.logs ++ [c] }).writeBack t c noIndex
                x.done s { x.g with recording := true, log := some ⟨space, at_, c.next⟩ } m 1

/-- recoff (R329). -/
def execRecoff (m : Bool) (s : State) : Out :=
  onFrag s fun x =>
    if !x.g.recording then x.done s x.g m 1
    else if x.g.out 1 ≠ 0 || (x.team.logFor x.g.log).any fun c => s.headHeld x.team c.space c.seg then .next s
    else
      let s := s.quitLog x.core x.slot x.g.team x.g.log
      let g := (s.groups.find (slotKey x.core x.slot)).getD x.g
      x.done s { g with recording := false } m 1

/-! ### Marks and segments (R330, R331) -/

/-- A mark's entry. -/
def markEntry (slot dtop seg : Nat) : LogEntry where
  kind := 3
  major := 0
  fn := 0
  slot := slot
  dst := 0xFF
  opa := 0xFF
  opb := 0xFF
  modes := 0
  shape := 0
  wa := 0
  wb := 0
  doff := dtop
  aux := seg
  proda := noIndex
  aux2 := 0
  carry := noIndex

/-- rmark (R330): waits until the group's earlier operations are accepted, and with them the mark. -/
def execRmark (m : Bool) (d : Nat) (s : State) : Out :=
  onFrag s fun x =>
    match (if x.g.recording then x.team.logFor x.g.log else none) with
    | none => x.illegal s 0
    | some c =>
      match c.overflow 32 with
      | some e => x.trap s e.cause e.info
      | none =>
        if ((x.g.cls 1).ops.any fun o => o.order = 0) || s.spanHeld x.team c.space (c.seg + c.entryEnd) 32 then .next s
        else
          let s := s.storeWrite x.team c.space (c.seg + c.entryEnd) (markEntry x.slot c.dtop c.seg).bytes
          let s := s.putTeam x.g.team (x.team.putLog { c with nent := c.nent + 1 })
          x.done s (x.writeUni x.g d (BitVec.ofNat 32 c.next)) m 1

/-- rlog (R331). -/
def execRlog (m : Bool) (a : Nat) (s : State) : Out :=
  onFrag s fun x =>
    let at_ := (x.uni a).toNat
    match (if x.g.recording then x.team.logFor x.g.log else none) with
    | none => x.illegal s 0
    | some c =>
      if x.waitsOn [a] || s.headHeld x.team c.space at_ || s.headHeld x.team c.space c.seg then .next s
      else
        match x.segTrap s c.space at_ with
        | some e => x.trap s e.cause e.info
        | none =>
          let h := s.segAt x.team c.space at_
          if !h.lenOk then x.illegal s (BitVec.ofNat 32 at_)
          else
            let c' := { c with
              seg := at_, seglen := h.seglen, earlier := c.seg :: c.earlier, nent := 0, base := c.next, dtop := h.seglen }
            let s := (s.writeBack x.team c at_).writeBack x.team c' noIndex
            x.done (s.putTeam x.g.team (x.team.putLog c')) x.g m 1

/-! ### Bindings and status (R332, R333) -/

/-- A value id names a register that the group may name. -/
def Ctx.mayValue (x : Ctx) (v : Nat) : Bool :=
  if v < 16 then x.mayTile v else if 32 ≤ v ∧ v < 64 then x.mayAcc (v - 32) else false
/-- rgrad (R332): 127 names none or every register. -/
def execRgrad (m : Bool) (v c : Nat) (s : State) : Out :=
  onFrag s fun x =>
    if v = 127 then
      if c = 127 then x.done s { x.g with binds := Map.empty } m 1 else x.illegal s 0
    else if !x.mayValue v || !(c == 127 || x.mayAcc c) then x.illegal s 0
    else x.done s { x.g with binds := if c = 127 then x.g.binds.erase v else x.g.binds.set v c } m 1

/-- rstat (R333). -/
def execRstat (m : Bool) (d n : Nat) (s : State) : Out :=
  onFrag s fun x =>
    let c := if x.g.recording then x.team.logFor x.g.log else none
    let v : W32 :=
      match n with
      | 0 => x.recStat
      | 1 => BitVec.ofNat 32 ((c.map (·.free)).getD 0)
      | _ => BitVec.ofNat 32 ((c.map (·.seg)).getD noIndex)
    if 2 < n then x.illegal s 0 else x.done s (x.writeUni x.g d v) m 1

end Sys2Proof.Machine
end

