-- ==== Sys2Proof/Machine/Reverse.lean ====
section
/-!
DEFINITION. `trvs` (R334 to R345): reading the log, the kept operands (R323, R324), the adjoint of each entry (R335 to
R343), and the walk, one entry at a step.
-/

namespace Sys2Proof.Machine

/-! ### The walk's state -/

/-- Why an entry is not reversed: an error code of R334, a recoverable fault of a repeated operand-fetch copy, or a wait
for a copy that covers what it reads or writes (R28). -/
inductive RevStop
  | err (n : Nat)
  | fault (kind level va entryAddr : Nat) (a : Access)
  | wait
deriving DecidableEq, Repr, Inhabited

/-- What the reversal of an entry has changed so far, with the flags of R335. -/
structure Rev where
  s : State
  t : Team
  ovf : Bool
  nan : Bool
  lost : Bool
deriving DecidableEq, Repr, Inhabited

/-- A step of a reversal. -/
abbrev RevM := Except RevStop

/-- What a reversal needs besides the state: the agent, the bindings and the log's place and first header. -/
structure RevEnv where
  env : CopyEnv
  binds : Map Nat
  space : Nat
  head : SegHead
  /-- Segments, oldest first: offset, first index and entries. -/
  segs : List (Nat × Nat × Nat)
deriving DecidableEq, Repr, Inhabited

/-! ### Store accesses -/

/-- The bytes lie inside their store or window, and no copy covers them (R28, R339). -/
def Rev.check (r : Rev) (space : Nat) (a : Int) (n : Nat) : RevM Nat :=
  if a < 0 ∨ (r.s.storeEnd r.t space : Int) < a + n then .error (.err 5)
  else if space = 0 ∧ (List.range ((n + 62) / 32)).any (fun i =>
      r.s.covered (unitKey r.t.core (r.t.base + a.toNat + min (32 * i) (n - 1)))) then .error .wait
  else .ok a.toNat
/-- Reads bytes of a store. -/
def Rev.read (r : Rev) (space : Nat) (a : Int) (n : Nat) : RevM (List Byte) := do
  let at_ ← r.check space a n
  return r.s.storeRead r.t space at_ n
/-- Writes bytes of a store, inside the write ranges where they are checked. -/
def Rev.write (r : Rev) (x : RevEnv) (space : Nat) (a : Int) (b : List Byte) : RevM Rev := do
  let at_ ← r.check space a b.length
  if space = 1 ∧ x.env.launch.form = 1 ∧ !inRanges r.t 1 at_ b.length then .error (.err 5)
  else return { r with s := r.s.storeWrite r.t space at_ b }

/-! ### The log (R319, R320) -/

/-- The segments along the NEXT chain, as offset, first index and entries; an error beyond the store, and a wait for a copy that
covers a header (R28). -/
def logSegments (s : State) (t : Team) (space : Nat) : Nat → Nat → RevM (List (Nat × Nat × Nat))
  | 0, _ => .ok []
  | fuel + 1, seg =>
    if s.storeEnd t space < seg + 64 then .error (.err 5)
    else if s.headHeld t space seg then .error .wait
    else
      let h := s.segAt t space seg
      if h.next = noIndex then .ok [(seg, h.base, h.nent)]
      else (logSegments s t space fuel h.next).map fun l => (seg, h.base, h.nent) :: l

/-- The index after the last entry. -/
def RevEnv.stop (x : RevEnv) : Nat := ((x.segs.getLast?).map fun p => p.2.1 + p.2.2).getD 0

/-- Entry i with its segment. -/
def RevEnv.entry (x : RevEnv) (r : Rev) (i : Nat) : RevM (LogEntry × Nat) :=
  match x.segs.find? fun p => p.2.1 ≤ i ∧ i < p.2.1 + p.2.2 with
  | none => .error (.err 5)
  | some p => do
    let b ← r.read x.space ((p.1 + 64 + 32 * (i - p.2.1) : Nat) : Int) 32
    return (readEntry b, p.1)

/-- Rows, inner columns and columns of SHAPE. -/
def LogEntry.rows (e : LogEntry) : Nat := e.shape / 256 + 1
def LogEntry.inner (e : LogEntry) : Nat := 32 * (e.shape / 8 % 8 + 1)
def LogEntry.cols (e : LogEntry) : Nat := 32 * (e.shape % 8 + 1)
/-- The columns of the entry's output: 32 for `arsum` and `armax` (R304). -/
def LogEntry.outCols (e : LogEntry) : Nat := if e.major = 0x3B ∧ (e.fn = 5 ∨ e.fn = 6) then 32 else e.cols

/-! ### Gradient accumulators (R335) -/

/-- x += y for each y in turn; each y comes with an overflow met in forming it. -/
def gradAdd (x : W32) (ys : List (Num × Bool)) : W32 × Bool × Bool :=
  ys.foldl (fun st y =>
    let (v, o) := addValue (numOf st.1) y.1
    (v, st.2.1 || o || y.2, st.2.2 || isNanBits v)) (x, false, false)

/-- The accumulator bound to a value register, if it has the register's shape. -/
def RevEnv.grad (x : RevEnv) (r : Rev) (v rows cols : Nat) : RevM (Option Nat) :=
  match x.binds.find v with
  | none => .ok none
  | some n => if r.t.accShape n = (rows, cols) then .ok (some n) else .error (.err 3)

/-- Adds contributions into a region of a bound accumulator, from row first down. -/
def Rev.accumulate (r : Rev) (n : Option Nat) (first rows cols : Nat) (f : Nat → Nat → List (Num × Bool)) : Rev :=
  match n with
  | none => r
  | some n =>
    let d := r.t.acc n
    let cells := (region rows cols).map fun p => (first + p.1, p.2, gradAdd (d.value (first + p.1) p.2) (f p.1 p.2))
    let ovf := cells.any fun c => c.2.2.2.1
    let vals := cells.foldl (fun m c => m.setZ (c.1 * 256 + c.2.1) c.2.2.1) d.vals
    { r with
      t := r.t.putAcc n { ovf := d.ovf || ovf, vals := vals }
      ovf := r.ovf || ovf, nan := r.nan || cells.any fun c => c.2.2.2.2 }

/-- Clear: every value +0, OVF unchanged. -/
def Rev.clear (r : Rev) (n : Option Nat) : Rev :=
  match n with
  | none => r
  | some n => { r with t := r.t.putAcc n { r.t.acc n with vals := Map.empty } }

/-- The values of a bound accumulator, row by row; none if there is no binding. -/
def Rev.values (r : Rev) (n : Option Nat) (rows cols : Nat) : Option (List W32) :=
  n.map fun n => (region rows cols).map fun p => (r.t.acc n).value p.1 p.2

/-- A gradient as numbers by position. -/
def gradNum (g : List W32) (cols i j : Nat) : Num := numOf (g.getD (i * cols + j) 0)

/-- Round(x × y), with its overflow. -/
def productNum (x y : Num) : Num × Bool := let (v, o) := mulValue x y; (numOf v, o)

/-! ### Gradient images (R338, R339) -/

/-- The header of a plain f32 image. -/
def plainHead (rows cols : Nat) : ImageHead := ⟨rows, cols, 0x10, false, 0, false, false, false, false⟩

/-- The values of a gradient image; none if it is invalid. -/
def Rev.imageValues (r : Rev) (space : Nat) (a : Int) (rows cols : Nat) : RevM (Option (List W32)) := do
  if a % 32 ≠ 0 then .error (.err 5)
  else
    let b ← r.read space a (plainHead rows cols).size
    match readHead b with
    | some h =>
      if h.kind = 0x10 ∧ h.rows = rows ∧ h.cols = cols ∧ !h.mapped then
        return some ((List.range (rows * cols)).map fun k => BitVec.ofNat 32 (field b (32 + 4 * k) 4))
      else return none
    | none => return none

/-- Adds contributions into an image, in row-major order; an invalid one counts as +0, and a valid header is written. -/
def Rev.addImage (r : Rev) (x : RevEnv) (space : Nat) (a : Int) (rows cols : Nat) (f : Nat → Nat → List (Num × Bool)) :
    RevM Rev := do
  let old ← r.imageValues space a rows cols
  let vals := old.getD (List.replicate (rows * cols) 0)
  let cells := ((region rows cols).zip vals).map fun p => gradAdd p.2 (f p.1.1 p.1.2)
  let r ← r.write x space a ((plainHead rows cols).bytes ++ cells.flatMap fun c => leBytes 4 c.1.toNat)
  return { r with ovf := r.ovf || cells.any (·.2.1), nan := r.nan || cells.any (·.2.2) }

/-- Takes an image into a bound accumulator, and writes its header as zero. -/
def Rev.takeImage (r : Rev) (x : RevEnv) (space : Nat) (a : Int) (rows cols : Nat) (n : Option Nat) : RevM Rev := do
  let vals ← r.imageValues space a rows cols
  let r :=
    match vals with
    | some v => r.accumulate n 0 rows cols fun i j => [(gradNum v cols i j, false)]
    | none => r
  r.write x space a (List.replicate 32 0)

/-! ### Kept operands (R323, R324) -/

/-- A tile of quantised values (R246, R336). -/
def quantTile (rows cols width : Nat) (axis : Bool) (f : Nat → Nat → Num) : Tile :=
  let p := quantisePlanes rows cols width axis f fun _ _ => .rne
  ⟨⟨rows, cols, width, axis, false, 0⟩, ⟨0, [], byteMap p.exps, byteMap p.elems⟩⟩

/-- The tile that an image holds, if it has a shape; mapped is the map flag it must have, if that is known. -/
def Rev.tileAt (r : Rev) (space : Nat) (a : Int) (rows cols width : Nat) (axis : Bool) (mapped : Option Bool) : RevM Tile := do
  let hb ← r.read space a 32
  match readHead hb with
  | none => .error (.err 4)
  | some h =>
    let sh : TileShape := ⟨rows, cols, width, axis, h.mapped, 32⟩
    if h.fits sh ∧ mapped.all (· == h.mapped) then
      let b ← r.read space a sh.imageSize
      return ⟨sh, (TileData.created.load sh b).1⟩
    else .error (.err 4)

/-- Whether the producer of a tile says that it is mapped. -/
def RevEnv.mappedBy (x : RevEnv) (r : Rev) (producer : Nat) : RevM (Option Bool) := do
  if producer = noIndex then return none
  else
    let (p, _) ← x.entry r producer
    return if p.major = 0x3A ∧ p.fn = 1 then some (p.wa == 1) else none

/-- A tile operand by its resolved mode; saved is where a saved copy lies. -/
def RevEnv.tile (x : RevEnv) (r : Rev) (v mode producer saved rows cols width : Nat) (axis : Bool) : RevM Tile := do
  let mapped ← if axis then pure (some false) else x.mappedBy r producer
  match mode with
  | 1 => r.tileAt x.space (saved : Int) rows cols width axis none
  | 2 =>
    let sh := r.t.tileShape v
    if sh.rows = rows ∧ sh.cols = cols ∧ sh.width = width ∧ sh.axis = axis ∧ mapped.all (· == sh.mapped) then
      return ⟨sh, r.t.tile v⟩
    else .error (.err 4)
  | _ =>
    if producer = noIndex then .error (.err 4)
    else
      let (p, _) ← x.entry r producer
      r.tileAt (p.aux2 % 2) (p.aux : Int) rows cols width axis mapped

/-- The values of an accumulator operand by its resolved mode. -/
def RevEnv.accum (x : RevEnv) (r : Rev) (v mode producer saved rows cols : Nat) : RevM (List W32) := do
  let image (space : Nat) (a : Int) : RevM (List W32) := do
    let hb ← r.read space a 32
    match readHead hb with
    | none => .error (.err 4)
    | some h =>
      if h.mapped ∨ h.rows ≠ rows ∨ h.cols ≠ cols then .error (.err 4)
      else
        let b ← r.read space a h.size
        return (region rows cols).map fun p => fillValue h b p.1 p.2
  match mode with
  | 1 => image x.space (saved : Int)
  | 2 =>
    if r.t.accShape (v - 32) = (rows, cols) then
      return (region rows cols).map fun p => (r.t.acc (v - 32)).value p.1 p.2
    else .error (.err 4)
  | _ =>
    if producer = noIndex then .error (.err 4)
    else
      let (p, _) ← x.entry r producer
      image (p.aux2 / 2 ^ 16 % 2) (p.aux : Int)

/-! ### Products (R336, R337) -/

/-- r(k) of R336: the row of B that column k of A multiplies. -/
def Tile.rowOf (a : Tile) (k : Nat) : Option Nat :=
  if !a.sh.mapped ∨ k < a.sh.kbase then some k
  else if k - a.sh.kbase < a.d.dup then some (field a.d.map (k - a.sh.kbase) 1) else none

/-- The contributions to dA of AdjMatMul over rows of C from first on; g gives the gradient at row and column. -/
def adjLeft (a b : Tile) (sub : Bool) (gw m n : Nat) (g : Nat → Nat → Num) (i k : Nat) : List (Num × Bool) :=
  let gt := quantTile m n gw false g
  let bt := quantTile n a.sh.cols b.sh.width true fun c k =>
    match a.rowOf k with
    | some q => b.d.value b.sh q c
    | none => .fin false 0 0
  (List.range (n / 32)).map fun blk =>
    let p := blockProduct gt bt i k blk
    (if sub then p.negate else p, false)

/-- The contributions to dB. -/
def adjRight (a : Tile) (sub : Bool) (gw first m n : Nat) (g : Nat → Nat → Num) (row j : Nat) : List (Num × Bool) :=
  let m' := 32 * ((m + 31) / 32)
  let at_ := quantTile a.sh.cols m' a.sh.width false fun k i =>
    if i < m then a.d.value a.sh (first + i) k else .fin false 0 0
  let gt := quantTile m' n gw true fun i c => if i < m then g i c else .fin false 0 0
  ((List.range a.sh.cols).filter fun k => a.rowOf k = some row).flatMap fun k =>
    (List.range (m' / 32)).map fun blk =>
      let p := blockProduct at_ gt k j blk
      (if sub then p.negate else p, false)

/-- The rows of B that a tile A has. -/
def Tile.inner (a : Tile) : Nat := if a.sh.mapped then a.sh.kbase else a.sh.cols

/-- `mma` (R337). -/
def RevEnv.product (x : RevEnv) (r : Rev) (e : LogEntry) (seg : Nat) (g : List W32) : RevM Rev := do
  let na ← x.grad r e.opa e.rows e.inner
  let modeA := e.modes % 4
  let modeB := e.modes / 4 % 4
  let gn := gradNum g e.cols
  if na.isNone ∧ (x.binds.find e.opb).isNone then return r
  else
    let a ← x.tile r e.opa modeA e.proda (seg + e.doff) e.rows e.inner e.wa false
    let nb ← x.grad r e.opb a.inner e.cols
    let sub := e.fn = 2
    let r ←
      if na.isNone then pure r
      else do
        let sizeA := if modeA = 1 then a.sh.imageSize else 0
        let b ← x.tile r e.opb modeB e.aux2 (seg + e.doff + sizeA) a.inner e.cols e.wb true
        pure (r.accumulate na 0 e.rows e.inner (adjLeft a b sub x.head.width e.rows e.cols gn))
    return r.accumulate nb 0 a.inner e.cols (adjRight a sub x.head.width 0 e.rows e.cols gn)

/-- Repeats the operand-fetch copy of part b, entry j, from the saved descriptor (R323): the B tile that it brings. That the repeated
copy takes no class 0 number and no scoreboard entry is the model's choice (notes/assumptions/21.md). -/
def RevEnv.refetch (x : RevEnv) (r : Rev) (d : HandleDesc) (many : Bool) (j b rows cols width : Nat) : RevM (Rev × Tile) :=
  let stg := if b % 2 = 0 then d.stg0 else d.stg1
  let at_ := d.lrec % 2 ^ 30
  let record :=
    if d.lrec / 2 ^ 30 = 0 ∧ at_ % 64 = 0 ∧ at_ + 64 ≤ r.t.kernel.unit then readLayout (r.s.storeRead r.t 0 at_ 64) else none
  let c := CopyCmd.fresh 0 (d.fetchDesc many j stg) record [] none 0
  let stopped (y : CopyStop) : RevStop :=
    match y with
    | .err n => .err (if n = 5 then 6 else 4)
    | .park kind level va entryAddr a => .fault kind level va entryAddr a
  if d.lrec / 2 ^ 30 = 0 ∧ record = none then .error (.err 4)
  else
    match r.s.startCopy x.env c with
    | .error y => .error (stopped y)
    | .ok c =>
      let p := r.s.planCopy x.env c
      let order := p.order
      match r.s.writeSectors x.env p order order.zipIdx c with
      | (_, _, some y) => .error (stopped y)
      | (s, _, none) => do
        let r := { r with s := s }
        let t ← r.tileAt 0 (stg : Int) rows cols width true (some false)
        return (r, t)

/-- The parts of `mmah` or `mmag` in reverse (R337): the group's rows of dA, and its expert's gradient image. -/
def RevEnv.parts (x : RevEnv) (e : LogEntry) (d : HandleDesc) (many : Bool) (a : Tile) (na : Option Nat) (modeB saved : Nat)
    (g : List W32) : List (Nat × (Nat × Nat × Nat)) → Rev → RevM Rev
  | [], r => .ok r
  | (b, (j, first, m)) :: rest, r => do
    let gn (i c : Nat) : Num := gradNum g e.cols (first + i) c
    let sub := d.mode = 2
    let tile : TileShape := ⟨a.inner, e.cols, e.wb, true, false, 0⟩
    if e.aux2 / 2 ^ j % 2 = 1 then x.parts e d many a na modeB saved g rest r
    else
      let (r, bt) ←
        if na.isNone then pure (r, default)
        else if modeB = 1 then do
          let t ← r.tileAt x.space ((saved + b * tile.imageSize : Nat) : Int) a.inner e.cols e.wb true (some false)
          pure (r, t)
        else if modeB = 2 ∧ !many then do
          let t ← x.tile r e.opb 2 noIndex 0 a.inner e.cols e.wb true
          pure (r, t)
        else x.refetch r d many j b a.inner e.cols e.wb
      let r := if na.isNone then r else r.accumulate na first m e.inner (adjLeft a bt sub x.head.width m e.cols gn)
      let r ←
        if x.head.wgrad = noIndex then pure r
        else
          let z := (plainHead a.inner e.cols).size
          let expert := if many then d.experts.getD j 0 else 0
          r.addImage x x.space ((x.head.wgrad + expert * z : Nat) : Int) a.inner e.cols
            (adjRight a sub x.head.width first m e.cols gn)
      x.parts e d many a na modeB saved g rest r

/-- `mmah` and `mmag` (R337, R338), from the descriptor saved with the entry. -/
def RevEnv.handled (x : RevEnv) (r : Rev) (e : LogEntry) (seg : Nat) (d : HandleDesc) (g : List W32) : RevM Rev := do
  let many := e.fn = 1
  let modeA := e.modes % 4
  let descAt := seg + e.doff
  let size := if many then 192 else 64
  let na ← x.grad r e.opa e.rows e.inner
  if na.isNone ∧ x.head.wgrad = noIndex then return r
  else
    let a ← x.tile r e.opa modeA e.proda (descAt + size) e.rows e.inner e.wa false
    let savedB := descAt + size + (if modeA = 1 then a.sh.imageSize else 0)
    let parts := partsFrom 0 0 (if many then d.counts else [e.rows])
    let numbered := ((List.range parts.length).zip parts).reverse
    x.parts e d many a na (e.modes / 4 % 4) savedB g numbered r

/-! ### Moves and accumulator operations (R339, R340) -/

/-- `tmovi`: the split columns of a mapped tile fold back (R339). -/
def RevEnv.tileLoad (x : RevEnv) (r : Rev) (e : LogEntry) (seg : Nat) (g : List W32) : RevM Rev := do
  let at_ : Int := (e.aux : Int) + x.head.goff
  if e.wa = 1 then
    let map ← r.read x.space ((seg + e.doff : Nat) : Int) 32
    let kbase := e.cols - 32
    let value (i j : Nat) : Num :=
      match (List.range e.wb).find? fun l => field map l 1 = j with
      | none => gradNum g e.cols i j
      | some l =>
        let half_ : Num :=
          match (addNum false (gradNum g e.cols i j) (gradNum g e.cols i (kbase + l))).1 with
          | .fin n m k => .fin n m (k - 1)
          | v => v
        numOf (roundValue half_).1
    r.addImage x (e.aux2 % 2) at_ e.rows kbase fun i j => [(value i j, false)]
  else r.addImage x (e.aux2 % 2) at_ e.rows e.cols fun i j => [(gradNum g e.cols i j, false)]

/-- The bias gradient of `abias` (R340): each column's sum, added into the f32 values at the address. -/
def RevEnv.biasGrad (x : RevEnv) (r : Rev) (e : LogEntry) (g : List W32) : RevM Rev := do
  let at_ : Int := (e.aux : Int) + x.head.goff
  if at_ % 4 ≠ 0 then .error (.err 5)
  else
    let b ← r.read 0 at_ (4 * e.cols)
    let sums := (List.range e.cols).map fun j =>
      (List.range (e.rows - 1)).foldl (fun (st : W32 × Bool) i =>
        let (v, o) := addValue (numOf st.1) (gradNum g e.cols (i + 1) j)
        (v, st.2 || o)) (g.getD j 0, false)
    let cells := ((List.range e.cols).zip sums).map fun p =>
      gradAdd (BitVec.ofNat 32 (field b (4 * p.1) 4)) [(numOf p.2.1, p.2.2)]
    let r ← r.write x 0 at_ (cells.flatMap fun c => leBytes 4 c.1.toNat)
    return { r with ovf := r.ovf || cells.any (·.2.1), nan := r.nan || cells.any (·.2.2) }

/-- AOP (R340). -/
def RevEnv.accOp (x : RevEnv) (r : Rev) (e : LogEntry) (seg : Nat) (g : List W32) : RevM Rev := do
  let rows := e.rows
  let cols := e.cols
  let modeS := e.modes % 4
  let ns ← x.grad r e.opa rows cols
  let nt ← if e.fn = 1 ∨ e.fn = 2 then x.grad r e.opb rows cols else pure none
  let gn := gradNum g cols
  let saved := seg + e.doff
  let s (_ : Unit) : RevM (List W32) := x.accum r e.opa modeS e.proda saved rows cols
  match e.fn with
  | 0 =>
    if ns.isNone then return r
    else
      let v ← s ()
      let act := [Activation.relu, .gelu, .silu, .sigm, .tanh, .erf].getD e.wa .relu
      return r.accumulate ns 0 rows cols fun i j =>
        [productNum (gn i j) (numOf (activationSlope act (v.getD (i * cols + j) 0)))]
  | 1 =>
    let add (r : Rev) (n : Option Nat) : Rev := r.accumulate n 0 rows cols fun i j => [(gn i j, false)]
    return add (add r ns) nt
  | 2 =>
    let tAt := saved + (if modeS = 1 then 32 + rows * cols * 4 else 0)
    let tv ← if ns.isNone then pure [] else x.accum r e.opb (e.modes / 4 % 4) e.aux2 tAt rows cols
    let sv ← if nt.isNone then pure [] else s ()
    let r := r.accumulate ns 0 rows cols fun i j => [productNum (gn i j) (gradNum tv cols i j)]
    return r.accumulate nt 0 rows cols fun i j => [productNum (gn i j) (gradNum sv cols i j)]
  | 3 => return r.accumulate ns 0 rows cols fun i j => [productNum (gn i j) (numOf (BitVec.ofNat 32 e.aux))]
  | 4 => x.biasGrad (r.accumulate ns 0 rows cols fun i j => [(gn i j, false)]) e g
  | 5 => return r.accumulate ns 0 rows cols fun i _ => [(gradNum g 32 i 0, false)]
  | 6 =>
    if ns.isNone then return r
    else
      let b ← r.read x.space (saved : Int) (2 * rows)
      return r.accumulate ns 0 rows cols fun i j => if field b (2 * i) 2 = j then [(gradNum g 32 i 0, false)] else []
  | _ => return r.accumulate ns 0 rows cols fun i j => [(gn i j, false)]

/-! ### One entry (R335, R343) -/

/-- The values of a carry buffer, which the saved data of the reuse entry that owns it holds, and its offset. -/
def RevEnv.carry (x : RevEnv) (r : Rev) (i rows cols : Nat) : RevM (Nat × List W32) := do
  let (o, seg) ← x.entry r i
  let at_ := seg + o.doff
  let b ← r.read x.space (at_ : Int) (4 * (rows * cols))
  return (at_, (List.range (rows * cols)).map fun k => BitVec.ofNat 32 (field b (4 * k) 4))

/-- A reuse entry (R343): its output gradient goes into its origin's carry buffer. -/
def RevEnv.reuse (x : RevEnv) (r : Rev) (e : LogEntry) : RevM Rev := do
  if e.dst < 32 ∨ 64 ≤ e.dst then return r
  else
    let n ← x.grad r e.dst e.rows e.cols
    if e.proda = noIndex then return { (r.clear n) with lost := true }
    else
      let (o, _) ← x.entry r e.proda
      match r.values n e.rows e.cols with
      | none => return r
      | some g =>
        if o.carry = noIndex then return r.clear n
        else
          let (at_, c) ← x.carry r o.carry e.rows e.cols
          let cells := (c.zip g).map fun p => gradAdd p.1 [(numOf p.2, false)]
          let r ← r.write x x.space (at_ : Int) (cells.flatMap fun v => leBytes 4 v.1.toNat)
          return { (r.clear n) with ovf := r.ovf || cells.any (·.2.1), nan := r.nan || cells.any (·.2.2) }

/-- The output gradient of an operation entry with its carry taken in (R335 step 1); none if it contributes nothing. -/
def RevEnv.outGrad (x : RevEnv) (r : Rev) (e : LogEntry) (n : Option Nat) : RevM (Rev × Option (List W32)) := do
  let g := r.values n e.rows e.outCols
  if e.carry = noIndex then return (r, g)
  else
    let (at_, c) ← x.carry r e.carry e.rows e.outCols
    let base := g.getD (List.replicate (e.rows * e.outCols) 0)
    let cells := (base.zip c).map fun p => gradAdd p.1 [(numOf p.2, false)]
    let r ← r.write x x.space (at_ : Int) (List.replicate (4 * (e.rows * e.outCols)) 0)
    return ({ r with ovf := r.ovf || cells.any (·.2.1), nan := r.nan || cells.any (·.2.2) }, some (cells.map (·.1)))

/-- KEEP and RECOMPUTE, the modes that say what an operand is at reverse time (R323, R324). -/
def presentMode (m : Nat) : Bool := m == 2 || m == 3
/-- The checks of an operation entry's operands before its reversal, whether the reversal reads them or not: the accumulators that they
are bound to have their shapes (R335), and those kept by KEEP or RECOMPUTE are as the entry has them (R324). What the repeated
operand-fetch copies of `mmah` and `mmag` bring is checked where it is read (notes/assumptions/21.md). -/
def RevEnv.checkOperands (x : RevEnv) (r : Rev) (e : LogEntry) (seg : Nat) : RevM Unit := do
  let modeA := e.modes % 4
  let modeB := e.modes / 4 % 4
  if e.major = 0x38 then
    let _ ← x.grad r e.opa e.rows e.inner
    if presentMode modeA || presentMode modeB || (x.binds.find e.opb).isSome then
      let a ← x.tile r e.opa modeA e.proda (seg + e.doff) e.rows e.inner e.wa false
      let _ ← x.grad r e.opb a.inner e.cols
      if presentMode modeB then
        let _ ← x.tile r e.opb modeB e.aux2 0 a.inner e.cols e.wb true
  else if e.major = 0x39 then
    let _ ← x.grad r e.opa e.rows e.inner
    let keepB := modeB = 2 ∧ e.fn ≠ 1
    if presentMode modeA || keepB then
      let a ← x.tile r e.opa modeA e.proda (seg + e.doff + if e.fn = 1 then 192 else 64) e.rows e.inner e.wa false
      if keepB then
        let _ ← x.tile r e.opb 2 noIndex 0 a.inner e.cols e.wb true
  else if e.major = 0x3B then
    let _ ← x.grad r e.opa e.rows e.cols
    if e.fn = 1 ∨ e.fn = 2 then
      let _ ← x.grad r e.opb e.rows e.cols
    if (e.fn = 0 ∨ e.fn = 2) ∧ presentMode modeA then
      let _ ← x.accum r e.opa modeA e.proda 0 e.rows e.cols
    if e.fn = 2 ∧ presentMode modeB then
      let _ ← x.accum r e.opb modeB e.aux2 0 e.rows e.cols

/-- Adjoint(e) (R335 to R343). -/
def RevEnv.adjoint (x : RevEnv) (r : Rev) (e : LogEntry) (seg : Nat) : RevM Rev := do
  let image : Int := (e.aux : Int) + x.head.goff
  if e.kind = 3 then return r
  else if e.kind = 2 then x.reuse r e
  else if e.major = 0x3A ∧ (e.fn = 0 ∨ e.fn = 7) then do
    let _ ← x.grad r e.dst e.rows e.cols
    return r
  else if e.major = 0x3A ∧ (e.fn = 2 ∨ e.fn = 5) then
    let n ← x.grad r e.opa e.rows e.cols
    r.takeImage x (if e.fn = 2 then e.aux2 % 2 else e.aux2 / 2 ^ 9 % 2) image e.rows e.cols n
  else
    let n ← x.grad r e.dst e.rows e.outCols
    x.checkOperands r e seg
    let (r, g) ← x.outGrad r e n
    let desc ← if e.major = 0x39 ∧ g.isSome then r.read x.space ((seg + e.doff : Nat) : Int) (if e.fn = 1 then 192 else 64)
      else pure []
    let d := (readHandleDesc (e.fn = 1) desc).getD default
    let keeps := (e.major = 0x38 ∧ e.fn ≠ 1) ∨ (e.major = 0x39 ∧ d.mode ≠ 1)
    match g with
    | none => return r
    | some g =>
      let r := if keeps then r else r.clear n
      match e.major, e.fn with
      | 0x38, _ => x.product r e seg g
      | 0x39, _ => x.handled r e seg d g
      | 0x3B, _ => x.accOp r e seg g
      | _, 1 => x.tileLoad r e seg g
      | _, 6 => r.addImage x (e.aux2 / 2 ^ 16 % 2) image e.rows e.cols fun i j => [(gradNum g e.cols i j, false)]
      | _, _ => return r

/-! ### trvs (R334, R344, R346) -/

/-- The registers that the entries of a range name and that `trvs` reads or writes: bound accumulators and KEEP
operands. -/
def RevEnv.owned (x : RevEnv) (es : List LogEntry) : List Nat :=
  es.flatMap fun e =>
    ([e.dst, e.opa, e.opb].filterMap fun v => (x.binds.find v).map accId) ++
      (if e.modes % 4 = 2 then [e.opa] else []) ++ (if e.modes / 4 % 4 = 2 then [e.opb] else [])

/-- The status word (R334). -/
def Reversal.word (r : Reversal) (e : Nat) : W32 :=
  fields [((decide (e ≠ 0)).toNat, 30), (r.ovf.toNat, 29), (r.nan.toNat, 28), (e, 24), (r.count % 2 ^ 24, 0)]

/-- What the reversal of a log reads. -/
def Ctx.revEnv (x : Ctx) (s : State) (l : LogRef) : RevM RevEnv :=
  (logSegments s x.team l.space (s.storeEnd x.team l.space / 64 + 1) l.first).map fun segs =>
    ⟨x.env, x.g.binds, l.space, s.segAt x.team l.space l.first, segs⟩

/-- The checks before the first entry, in their order: an error, or the registers that the walk will own. -/
def RevEnv.begin (x : RevEnv) (r : Rev) (mark : Nat) : RevM (List Nat) := do
  let lo ←
    if mark = noIndex then pure 0
    else if x.stop ≤ mark then .error (.err 1)
    else do
      let (m, _) ← x.entry r mark
      if m.kind = 3 then pure (mark + 1) else .error (.err 1)
  let es ← (List.range (x.stop - lo)).mapM fun i => do
    let (e, _) ← x.entry r (lo + i)
    return e
  let accs := x.binds.values
  let named (e : LogEntry) : Bool := [e.dst, e.opa, e.opb].any fun v => 32 ≤ v && v < 64 && accs.contains (v - 32)
  if !decide accs.Nodup || es.any named then .error (.err 2)
  else return x.owned es

/-- The lowest index that a walk reverses. -/
def Reversal.low (r : Reversal) : Nat := if r.mark = noIndex then 0 else r.mark + 1

/-- `trvs` ends with an error code and its status word. -/
def Ctx.endReverse (x : Ctx) (s : State) (m : Bool) (d : Nat) (r : Reversal) (e : Nat) : Out :=
  x.done s (x.writeUni { x.g with reversal := none, recErr := e } d (r.word e)) m 1

/-- A walk that has not begun. -/
def Ctx.newReversal (x : Ctx) (mark next : Nat) (owns : List Nat) : Reversal :=
  ⟨x.f.threads, x.f.pc, mark, x.g.log, next, 0, false, false, owns, false⟩

/-- Another group's operation or reversal holds a register of the walk (R344). -/
def Ctx.reverseBlocked (x : Ctx) (s : State) (owns : List Nat) : Bool := x.blocked s owns

/-- A recoverable fault met by the walk parks the group (R191). -/
def Ctx.reverseFault (x : Ctx) (s : State) (kind level va entryAddr : Nat) (a : Access) : Out :=
  x.parkFault s 5 a.code a.code 0xFF ⟨4, 0, kind, level, va, entryAddr⟩

/-- `trvs` begins: it waits for class 1 and for the registers that it will own, and makes the checks of R334. -/
def Ctx.startReverse (x : Ctx) (s : State) (m : Bool) (d mark : Nat) : Out :=
  let r0 := x.newReversal mark 0 []
  if x.g.out 1 ≠ 0 then .next s
  else
    match x.g.log with
    | none => x.endReverse s m d r0 1
    | some l =>
      if (x.team.logFor (some l)).isSome then x.endReverse s m d r0 1
      else
        match x.revEnv s l with
        | .error (.err e) => x.endReverse s m d r0 e
        | .error _ => .next s
        | .ok v =>
          match v.begin ⟨s, x.team, false, false, false⟩ mark with
          | .error (.err e) => x.endReverse s m d r0 e
          | .error _ => .next s
          | .ok owns =>
            if x.reverseBlocked s owns then .next s
            else .next (x.put s { x.g with reversal := some (x.newReversal mark v.stop owns) })

/-- An entry whose adjoint the cell array works on. -/
def LogEntry.usesArray (e : LogEntry) : Bool := e.kind == 1 && (e.major == 0x38 || e.major == 0x39)
/-- The cell array replays beats of a `trvs`, above level 0; how many is open (R312, R344; notes/assumptions/27.md). -/
def State.reverseReplays (s : State) (core : Nat) (e : LogEntry) : State :=
  let m := s.margin core
  if e.usesArray ∧ m.level ≠ 0 then
    { s with margins := s.margins.set core { m with replays := min (m.replays + Config.choice s.tick 0x611) 0xFFFFFFFF } }
  else s

/-- `trvs` goes on: the next entry down, or the end. -/
def Ctx.goReverse (x : Ctx) (s : State) (m : Bool) (d : Nat) (r : Reversal) : Out :=
  let r := { r with paused := false }
  if r.next ≤ r.low then x.endReverse s m d r 0
  else
    let start : Rev := ⟨s, x.team, false, false, false⟩
    let result : RevM (Rev × LogEntry) := do
      let v ← (r.log.map (x.revEnv s)).getD (.error (.err 5))
      let (e, seg) ← v.entry start (r.next - 1)
      let w ← v.adjoint start e seg
      return (w, e)
    match result with
    | .error (.err e) => x.endReverse s m d r e
    | .error .wait => .next s
    | .error (.fault kind level va entryAddr a) => x.reverseFault s kind level va entryAddr a
    | .ok (w, e) =>
      let r := { r with next := r.next - 1, count := r.count + 1, ovf := r.ovf || w.ovf, nan := r.nan || w.nan }
      let s := (w.s.putTeam x.g.team w.t).reverseReplays x.core e
      .next (x.put s { x.g with reversal := some r, lost := x.g.lost || w.lost })

/-- trvs (R334): each step of the waiting fragment reverses one entry. A walk that has begun goes on whatever the other fragments do
meanwhile. -/
def execTrvs (m : Bool) (d a : Nat) (s : State) : Out :=
  onFrag s fun x =>
    let running := x.g.reversing.filter fun r => r.threads = x.f.threads ∧ r.pc = x.f.pc
    if x.g.handler || (x.g.recording && running.isNone) then x.illegal s 0
    else
      match running with
      | some r => x.goReverse s m d r
      | none => if x.waitsOn [a] || x.g.reversing.isSome then .next s else x.startReverse s m d (x.uni a).toNat

end Sys2Proof.Machine
end

