-- ==== Sys2Proof/Machine/Rings.lean ====
section
/-!
DEFINITION. Work rings: the ring control block (R397), headers and their checks (R398, R399), holds, fences and halts
(R400), completion records (R401), and the packets that need no scheduler: WAIT_VALUE, SIGNAL, BARRIER and
CONTEXT_CREATE (R403), with RESUME (R397).
-/

namespace Sys2Proof.Machine

/-! ### Rings (R397) -/

/-- A ring control block as bring-up leaves it. -/
def WorkRing.unset : WorkRing := ⟨0, 0, false, false, false, 0, 0, List.replicate 16 0, [], none, none⟩
def workKey (port ring : Nat) : Nat := 64 * port + ring
def State.workRing (s : State) (port ring : Nat) : WorkRing := s.workRings.get (workKey port ring) WorkRing.unset
def State.putWorkRing (s : State) (port ring : Nat) (r : WorkRing) : State :=
  { s with workRings := s.workRings.set (workKey port ring) r }
/-- The place of a byte of a ring: behind the port, or die-local in HBM (notes/assumptions/10.md). -/
def ringPlace (port : Nat) (base : W64) (off : Nat) : Nat :=
  if base.getLsbD 63 then hostKey port ((base.toNat + off) % 2 ^ 48) else hbmPlace false ((base.toNat + off) % 2 ^ 41)
/-- The first n bytes of the packet at RPTR, read modulo SIZE. -/
def State.ringBytes (s : State) (port : Nat) (r : WorkRing) (n : Nat) : List Byte :=
  s.gather ((List.range n).map fun i => ringPlace port r.base ((r.rptr.toNat + i) % r.size.toNat))

/-! ### Headers (R398, R399) -/

/-- One byte of the CRC-16 of R398, most significant bit first. -/
def crc16Byte (r : BitVec 16) (b : Byte) : BitVec 16 :=
  (List.range 8).foldl (fun r _ => if r.getMsbD 0 then (r <<< 1) ^^^ 0x1021#16 else r <<< 1)
    (r ^^^ (b.setWidth 16 <<< 8))
def crc16 (b : List Byte) : BitVec 16 := b.foldl crc16Byte 0xFFFF#16

/-- A packet that is performed: where it came from, its serial, its header's fields and its body. -/
structure Packet where
  port : Nat
  ring : Nat
  serial : Nat
  intr : Bool
  ctx : Nat
  gen : Nat
  tag : W32
  body : List Byte
deriving DecidableEq, Repr, Inhabited

/-- LEN of each type (R398). -/
def packetLen (type : Nat) : Nat := [0, 10, 12, 3, 3, 2, 5, 2].getD type 0
/-- The first of the checks 1 to 6 of R399 that a header fails. -/
def headerCode (size : Nat) (h : List Byte) : Option Nat :=
  let type := field h 0 1
  let len := field h 2 2
  if (crc16 (h.take 12 ++ [0, 0] ++ h.drop 14)).toNat ≠ field h 12 2 then some 1
  else if len = 0 then some 2
  else if size < 16 * len then some 3
  else if type = 0 ∨ 8 ≤ type then some 4
  else if 4 ≤ field h 1 1 ∨ 4096 ≤ field h 4 2 ∨ field h 14 2 ≠ 0 then some 5
  else if len ≠ packetLen type then some 6
  else none

/-- Halts a ring with a code and the header at RPTR (R399). -/
def State.haltRing (s : State) (port ring code : Nat) : State :=
  let r := s.workRing port ring
  let error := leBytes 1 code ++ leBytes 3 0 ++ leBytes 4 r.rptr.toNat ++ s.ringBytes port r 8
  let packets := match r.held with
    | some (serial, _) => r.openPackets.filter (· ≠ serial)
    | none => r.openPackets
  s.putWorkRing port ring { r with halted := true, error := error, openPackets := packets, held := none, barrier := none }

/-- The context that a packet names is live under its generation, and was created through its port (R399, R482). -/
def Packet.current (p : Packet) (s : State) : Bool :=
  let c := s.context p.ctx
  c.live && c.destroying.isNone && c.port == p.port && c.gen == p.gen

/-- Consumes the packet at RPTR of a ring if it is of the given type and may start now (R397 to R400). -/
def State.consume (s : State) (port ring type : Nat) (act : State → Packet → State) : Out :=
  let r := s.workRing port ring
  let avail := (r.wptr - r.rptr).toNat
  if !s.ready || s.update.isSome || !r.enable || r.halted || r.held.isSome || decide (avail < 16) then .next s
  else
    let h := s.ringBytes port r 16
    let bytes := 16 * field h 2 2
    match headerCode r.size.toNat h with
    | some code => .next (s.haltRing port ring code)
    | none =>
      if field h 0 1 ≠ type ∨ avail < bytes ∨ (field h 1 1 % 2 = 1 ∧ r.openPackets ≠ []) then .next s
      else
        let p : Packet :=
          { port := port, ring := ring, serial := s.nextSerial + 1, intr := field h 1 1 / 2 == 1, ctx := field h 4 2
            gen := field h 6 2, tag := BitVec.ofNat 32 (field h 8 4), body := (s.ringBytes port r bytes).drop 16 }
        .next (act s p)

/-- The packet has been consumed: it is open until it completes. -/
def State.opened (s : State) (p : Packet) : State :=
  let r := s.workRing p.port p.ring
  { s.putWorkRing p.port p.ring { r with openPackets := r.openPackets ++ [p.serial] } with nextSerial := p.serial }
/-- RPTR passes a packet, which holds the ring no longer. -/
def State.passed (s : State) (port ring bytes : Nat) : State :=
  let r := s.workRing port ring
  s.putWorkRing port ring { r with rptr := r.rptr + BitVec.ofNat 32 bytes, held := none, barrier := none }
/-- A packet has completed. -/
def State.closed (s : State) (port ring serial : Nat) : State :=
  let r := s.workRing port ring
  s.putWorkRing port ring { r with openPackets := r.openPackets.filter (· ≠ serial) }
/-- The bytes of a packet, its header included. -/
def Packet.bytes (p : Packet) : Nat := 16 + p.body.length
/-- Consumes a packet whose work does not hold the ring. -/
def State.consumed (s : State) (p : Packet) : State := (s.opened p).passed p.port p.ring p.bytes
/-- A packet takes hold of its ring. -/
def State.hold (s : State) (p : Packet) (barrier : Option (List Nat)) : State :=
  let s := s.opened p
  s.putWorkRing p.port p.ring { s.workRing p.port p.ring with
    held := some (p.serial, leBytes 2 p.ctx ++ leBytes 2 p.gen ++ leBytes 4 p.tag.toNat ++ p.body), barrier := barrier }

/-! ### Completion records (R401) -/

/-- The 32 bytes of a record. -/
def completionBytes (tag : W32) (e : Ending) (discarded : Nat) : List Byte :=
  leBytes 4 tag.toNat ++ leBytes 2 e.status ++ leBytes 2 e.detail ++ leBytes 4 e.team.toNat ++ leBytes 4 e.pc.toNat ++
    leBytes 4 e.info0.toNat ++ leBytes 4 e.info1.toNat ++ leBytes 4 discarded ++ leBytes 4 0
/-- An ending with nothing but a status and its detail. -/
def plainEnding (status detail : Nat) : Ending := ⟨status, detail, -1, 0, 0, 0⟩

/-- A packet ends: its record is written at COMPL through the tables of context ctx, if they are current and the write
passes its checks, or the error log says that it was not (R401, R404; notes/assumptions/28.md); then the packet has completed. -/
def State.complete (s : State) (port ring serial : Nat) (tag : W32) (ctx compl : Nat) (current : Bool) (e : Ending)
    (discarded : Nat) : State :=
  if e.status = 5 ∨ !current then (s.logError 7 0 0 ctx (BitVec.ofNat 64 compl) tag).closed port ring serial
  else
    ((s.portWrite ctx compl (completionBytes tag e discarded)).getD
      ((s.portMet true ctx).logError 7 0 0 ctx (BitVec.ofNat 64 compl) tag)).closed port ring serial

/-- Ends a packet of its live context with a status. -/
def Packet.ends (p : Packet) (s : State) (compl : Nat) (current : Bool) (e : Ending) : State :=
  s.complete p.port p.ring p.serial p.tag p.ctx compl current e 0

/-- The offset of the first body field out of its limits, from fields with whether they are good. -/
def firstBad (l : List (Nat × Bool)) : Option Nat := (l.find? fun p => !p.2).map (·.1)

/-! ### WAIT_VALUE, SIGNAL and BARRIER (R400) -/

/-- A packet as a ring holds it. -/
def heldPacket (port ring serial : Nat) (b : List Byte) : Packet :=
  { port := port, ring := ring, serial := serial, intr := false, ctx := field b 0 2, gen := field b 2 2
    tag := BitVec.ofNat 32 (field b 4 4), body := b.drop 8 }

/-- COND of a wait-value. -/
def condHolds (cond v x : Nat) : Bool :=
  match cond with
  | 0 => v == x
  | 1 => v != x
  | 2 => decide (x ≤ v)
  | _ => decide (v < x)

/-- One read of a wait-value: the code to halt with, or whether its condition holds. -/
def Packet.awaits (p : Packet) (s : State) : Except Nat Bool :=
  if !p.current s then .error 7
  else
    match s.portRead p.ctx (field p.body 0 8) 8 with
    | none => .error 9
    | some b =>
      .ok (condHolds (field p.body 24 1) (BitVec.ofNat 64 (leNat b) &&& BitVec.ofNat 64 (field p.body 16 8)).toNat
        (field p.body 8 8))

/-- WAIT_VALUE. -/
def execWaitValue (port ring : Nat) (s : State) : Out :=
  s.consume port ring 3 fun s p =>
    if !p.current s then s.haltRing port ring 7
    else if field p.body 0 8 % 8 ≠ 0 ∨ 3 < field p.body 24 1 ∨ !zeros p.body 25 7 then s.haltRing port ring 8
    else
      match p.awaits s with
      | .error code => (s.portMet false p.ctx).haltRing port ring code
      | .ok true => (s.consumed p).closed port ring p.serial
      | .ok false => s.hold p none

/-- WAIT_VALUE_RECHECK: every read of a held wait-value is checked again. -/
def execWaitValueRecheck (port ring : Nat) (s : State) : Out :=
  let r := s.workRing port ring
  match r.held with
  | none => .next s
  | some (serial, b) =>
    if b.length ≠ 40 ∨ s.update.isSome then .next s
    else
      match (heldPacket port ring serial b).awaits s with
      | .error code => .next ((s.portMet false (field b 0 2)).haltRing port ring code)
      | .ok true => .next ((s.passed port ring 48).closed port ring serial)
      | .ok false => .next s

/-- SIGNAL: a store or an addition modulo 2^64, or nothing at all. -/
def execSignal (port ring : Nat) (s : State) : Out :=
  s.consume port ring 4 fun s p =>
    let addr := field p.body 0 8
    if !p.current s then s.haltRing port ring 7
    else if addr % 8 ≠ 0 ∨ 1 < field p.body 16 1 ∨ !zeros p.body 17 15 then s.haltRing port ring 8
    else
      match s.portRead p.ctx addr 8 with
      | none => (s.portMet false p.ctx).haltRing port ring 9
      | some b =>
        let v := field p.body 8 8 + (if field p.body 16 1 = 1 then leNat b else 0)
        match s.portWrite p.ctx addr (leBytes 8 v) with
        | none => (s.portMet true p.ctx).haltRing port ring 9
        | some s => (s.consumed p).closed port ring p.serial

/-- Packets that a list of serials names have all completed. -/
def State.allClosed (s : State) (l : List Nat) : Bool := !(s.workRings.values.any fun r => r.openPackets.any l.contains)

/-- BARRIER: holds the ring until every packet consumed earlier on this ring and on the rings named has completed. -/
def execBarrier (port ring : Nat) (s : State) : Out :=
  let r := s.workRing port ring
  match r.held, r.barrier with
  | some (serial, _), some l =>
    if s.allClosed l && s.update.isNone then .next ((s.passed port ring 32).closed port ring serial) else .next s
  | _, _ =>
    s.consume port ring 5 fun s p =>
      if !zeros p.body 8 8 then s.haltRing port ring 8
      else
        let named := (List.range 64).filter fun n => n = ring ∨ field p.body 0 8 / 2 ^ n % 2 = 1
        let l := named.flatMap fun n => (s.workRing port n).openPackets
        if l = [] then (s.consumed p).closed port ring p.serial else s.hold p (some l)

/-- RESUME clears HALTED, and consumption starts again at RPTR (R397). -/
def execResume (port ring : Nat) (s : State) : Out :=
  let r := s.workRing port ring
  if r.halted then .next (s.putWorkRing port ring { r with halted := false }) else .next s

/-! ### CONTEXT_CREATE (R403) -/

/-- CONTEXT_CREATE. -/
def execContextCreate (port ring : Nat) (s : State) : Out :=
  s.consume port ring 6 fun s p =>
    let s := s.consumed p
    let c := s.context p.ctx
    let b := p.body
    let compl := field b 0x30 8
    let limits : List (Nat × Bool) :=
      [(0x00, field b 0 8 % 2 ^ 16 == 0), (0x08, field b 8 8 % 2 ^ 16 == 0), (0x10, field b 0x10 8 % 2 ^ 16 == 0),
        (0x20, field b 0x18 8 != 0 || field b 0x20 8 == 0), (0x28, decide (field b 0x28 1 ≤ 1)), (0x29, zeros b 0x29 7),
        (0x30, compl % 32 == 0), (0x38, zeros b 0x38 8)]
    if c.live && c.port != port then p.ends s compl false (plainEnding 5 0)
    else
      match firstBad limits with
      | some off => p.ends s compl c.live (plainEnding 2 off)
      | none =>
        if c.live then p.ends s compl true (plainEnding 6 0)
        else
          let new : Context :=
            { live := true, gen := (c.gen + 1) % 65536, port := port, root := field b 0 8 % 2 ^ 41
              savepool := BitVec.ofNat 64 (field b 8 8), savepoolsz := field b 0x10 8
              faultRing := BitVec.ofNat 64 (field b 0x18 8), faultResp := BitVec.ofNat 64 (field b 0x20 8)
              secure := field b 0x28 1 == 1, destroying := none, discarded := 0, respStuck := false }
          p.ends { s with contexts := s.contexts.set p.ctx new } compl true (plainEnding 0 0)

end Sys2Proof.Machine
end

