-- ==== Sys2Proof/Machine/Placement.lean ====
section
/-!
DEFINITION. Placing teams (R14 to R18, R183, R406, R408 to R411): what a core has room for, rectangles of cores, the
state in which a team starts, and TEAM_PLACEMENT.
-/

namespace Sys2Proof.Machine

/-! ### Room on a core (R16, R17, R183, R279, R410) -/

/-- The teams on a core. -/
def State.teamsOn (s : State) (core : Nat) : List Team := s.teams.values.filter fun t => t.core = core
/-- The launch of a team. -/
def State.launchOf (s : State) (t : Team) : Launch := s.launches.get t.launch default
/-- The images in a core's code store. -/
def State.imagesOn (s : State) (core : Nat) : List Image := ((s.teamsOn core).map fun t => (s.launchOf t).image).dedup
/-- A core's code store holds an image, or has room for it (R410). -/
def State.codeFits (s : State) (core : Nat) (im : Image) : Bool :=
  let l := s.imagesOn core
  l.contains im || decide ((l.map fun i => 4 * i.code.length).sum + 4 * im.code.length ≤ 512 * 1024)

/-- The windows of launches in a die store, as base and length. -/
def State.windowsOn (s : State) (die : Nat) : List (Nat × Nat) :=
  s.launches.values.filterMap fun l => (l.windows.find die).map fun b => (b, l.dieWin)
/-- Two byte ranges are apart. -/
def apart (a n b m : Nat) : Bool := decide (a + n ≤ b) || decide (b + m ≤ a)
/-- The places of a die store where a window may go. -/
def State.windowPlaces (s : State) (die n : Nat) : List Nat :=
  ((List.range (dieCap die / 2 ^ 16)).map (· * 2 ^ 16)).filter fun b =>
    decide (b + n ≤ dieCap die) && (s.windowsOn die).all fun w => apart b n w.1 w.2
/-- A die holds a launch's window, or has room for it. -/
def State.windowFits (s : State) (die : Nat) (l : Launch) : Bool :=
  l.dieWin == 0 || (l.windows.find die).isSome || s.windowPlaces die l.dieWin != []

/-- The core is there, and its capabilities are those that a kernel requires (R14, R16, R80). -/
def coreServes (core : Nat) (k : Kernel) : Bool :=
  decide (core < 384) && !Config.fusedCore core && (k.caps % 2 == 0 || Config.copingDie (dieOf core)) &&
    decide (k.unit ≤ unitCap (dieOf core))

/-- A core has room for one more team of n groups with the resources of kernel k. -/
def State.coreFits (s : State) (core : Nat) (l : Launch) (k : Kernel) (n : Nat) : Bool :=
  let ts := s.teamsOn core
  let sum (f : Team → Nat) : Nat := (ts.map f).sum
  coreServes core k && s.dieReset.get (dieOf core) 0 == 0 && ts.all (fun t => t.leaving != 1) && decide (ts.length < 8) &&
    decide (sum (fun t => t.slots.length) + n ≤ 64) && decide (sum (fun t => t.kernel.tiles) + k.tiles ≤ 16) &&
    decide (sum (fun t => t.kernel.accs) + k.accs ≤ 32) &&
    decide (sum (fun t => (s.launchOf t).regions.length) + l.regions.length ≤ 8) && s.codeFits core l.image &&
    s.windowFits (dieOf core) l

/-- A group slot of a core is free. -/
def State.slotFree (s : State) (core slot : Nat) : Bool :=
  decide (slot < 64) && (s.groups.find (slotKey core slot)).isNone && (s.teamsOn core).all fun t => !t.slots.contains slot
/-- Numbers rise. -/
def rising : List Nat → Bool
  | a :: b :: rest => decide (a < b) && rising (b :: rest)
  | _ => true

/-- A seat is one that the scheduler may choose for a team of n groups: its core has room, its allocation is free there
and starts at a multiple of 512 (R182), and its group slots are free. -/
def State.seatFits (s : State) (l : Launch) (k : Kernel) (n : Nat) (seat : Seat) : Bool :=
  s.coreFits seat.core l k n && seat.base % 512 == 0 && decide (seat.base + k.unit ≤ unitCap (dieOf seat.core)) &&
    (s.teamsOn seat.core).all (fun t => apart seat.base k.unit t.base t.kernel.unit) && seat.slots.length == n &&
    rising seat.slots && seat.slots.all (s.slotFree seat.core)

/-- How many more allocations of n bytes find a place beside those listed, up to a number: each at the lowest place that is free. -/
def placesLeft (cap n : Nat) : Nat → List (Nat × Nat) → Nat
  | 0, _ => 0
  | fuel + 1, used =>
    let starts := 0 :: used.map fun u => (u.1 + u.2 + 511) / 512 * 512
    match starts.find? fun b => decide (b + n ≤ cap) && used.all fun u => apart b n u.1 u.2 with
    | some b => 1 + placesLeft cap n fuel (used ++ [(b, max n 1)])
    | none => 0
/-- How many more teams of n groups with the resources of kernel k a core has room for as it stands. -/
def State.roomNow (s : State) (l : Launch) (k : Kernel) (n core : Nat) : Nat :=
  let ts := s.teamsOn core
  let sum (f : Team → Nat) : Nat := (ts.map f).sum
  let per (free need : Nat) : Nat := if need = 0 then 8 else free / need
  if !s.coreFits core l k n then 0
  else
    ([per (64 - sum fun t => t.slots.length) n, per (16 - sum fun t => t.kernel.tiles) k.tiles,
      per (32 - sum fun t => t.kernel.accs) k.accs,
      per (8 - sum fun t => (s.launchOf t).regions.length) l.regions.length,
      placesLeft (unitCap (dieOf core)) k.unit 8 (ts.map fun t => (t.base, t.kernel.unit))]).foldl min (8 - ts.length)

/-! ### Rectangles (R411) -/

/-- The core at column i and row j of a rectangle with a corner at column c and row y of a die; a column past the die
lies on the die beside it. -/
def rectCore (d c y i j : Nat) : Nat := 48 * (d + (c + i) / 8) + 8 * (y + j) + (c + i) % 8
/-- A rectangle of w columns and h rows lies on one die, or straddles two dies of a row. -/
def rectLies (d c y w h : Nat) : Bool :=
  decide (c < 8) && decide (y + h ≤ 6) && (decide (c + w ≤ 8) || (d % 4 != 3 && decide (c + w ≤ 16)))
/-- Every corner. -/
def corners : List (Nat × Nat × Nat) :=
  (List.range 8).flatMap fun d => (List.range 6).flatMap fun y => (List.range 8).map fun c => (d, c, y)
/-- The cores of a rectangle, row-major. -/
def rectCores (d c y w h : Nat) : List Nat := (List.range h).flatMap fun j => (List.range w).map fun i => rectCore d c y i j

/-- The members of the cluster that grid team ix belongs to, row-major: their columns, rows and team indices. -/
def Launch.cluster (l : Launch) (ix : Nat) : List (Nat × Nat × Nat) :=
  let x0 := ix % l.gridx / l.kernel.clw * l.kernel.clw
  let y0 := ix / l.gridx / l.kernel.clh * l.kernel.clh
  (List.range l.kernel.clh).flatMap fun j =>
    ((List.range l.kernel.clw).filter fun i => x0 + i < l.gridx ∧ y0 + j < l.gridy).map fun i =>
      (i, j, (y0 + j) * l.gridx + x0 + i)
/-- Columns and rows of a cluster. -/
def clusterShape (m : List (Nat × Nat × Nat)) : Nat × Nat :=
  ((m.map fun p => p.1 + 1).foldl max 0, (m.map fun p => p.2.1 + 1).foldl max 0)
/-- The shapes of a launch's clusters. -/
def Launch.shapes (l : Launch) : List (Nat × Nat) :=
  ((List.range (l.gridx * l.gridy)).filter fun ix => ((l.cluster ix).head?.map (·.2.2)) = some ix).map fun ix =>
    clusterShape (l.cluster ix)

/-! ### What an empty module holds (R18, R406) -/

/-- The number of teams of a launch that core c of a module without other launches holds. -/
def Launch.room (l : Launch) (window : Bool) (core : Nat) : Nat :=
  let k := l.kernel
  let pad := (k.unit + 511) / 512 * 512
  let per (have_ need : Nat) : Nat := if need = 0 then 8 else have_ / need
  if !coreServes core k || (window && decide (dieCap (dieOf core) < l.dieWin)) then 0
  else
    ([64 / k.groups, per 16 k.tiles, per 32 k.accs, per 8 l.regions.length, per (unitCap (dieOf core)) pad]).foldl min 8
/-- Clusters of the listed shapes can all be placed at once, beside those already counted on each core. -/
def assignable (room : Nat → Nat) : List (Nat × Nat) → Map Nat → Bool
  | [], _ => true
  | (w, h) :: rest, used =>
    corners.any fun p =>
      let cores := rectCores p.1 p.2.1 p.2.2 w h
      rectLies p.1 p.2.1 p.2.2 w h && cores.all (fun c => decide (used.get c 0 < room c)) &&
        assignable room rest (cores.foldl (fun u c => u.set c (u.get c 0 + 1)) used)

/-- Why a launch could never be placed: the lowest DETAIL of R401 that applies; regions says that its descriptors are
good. -/
def Launch.never (l : Launch) (cogrid regions : Bool) : Option Nat :=
  let shapes := l.shapes
  let some_ (window : Bool) : Bool := shapes.dedup.all fun sh => assignable (l.room window) [sh] Map.empty
  let frames := if l.kernel.trapEntry.isSome then 256 * l.kernel.groups else 0
  if (List.range 384).all fun c => l.room false c == 0 then some 1
  else if cogrid && !assignable (l.room true) shapes Map.empty then some 2
  else if !some_ false then some 3
  else if !some_ true then some 4
  else if l.kernel.unit < l.mb + frames then some 5
  else if !regions then some 6
  else none

/-! ### Starting a team (R309, R408) -/

/-- A group as it starts (R408): one fragment of the given threads at entry, every register zero. -/
def Group.created (team gix : Nat) (entry : W32) (threads : Mask) : Group where
  team := team
  gix := gix
  frags := [⟨entry, threads, threads, none, .none, .none, false, false, none, 0, 0, 0, none⟩]
  ptr := 0
  splits := []
  spilled := []
  nextSplit := 0
  v := Map.empty
  hv := Map.empty
  g := Map.empty
  hg := Map.empty
  k := Map.empty
  lc := Map.empty
  li := Map.empty
  lsig := Map.empty
  loops := []
  its := Map.empty
  staging := none
  hstaging := none
  fpmode := 0
  fpflags := 0
  held := none
  srcnt := Map.empty
  spcnt := Map.empty
  trapCause := 0
  trapPc := 0
  trapInfo0 := 0
  trapInfo1 := 0
  handler := false
  marker := false
  hmarker := false
  park := none
  hpark := none
  hfault := none
  hawaits := none
  pend := []
  pendingRegs := []
  classes := Map.empty
  merr := 0
  batch := 0
  openLevel := none
  openReplays := 0
  batches := []
  step := none
  signatures := Map.empty
  recording := false
  lost := false
  recErr := 0
  log := none
  reversal := none
  binds := Map.empty
  arrived := Map.empty
  reccnt := 0
  late := []
  views := []
  overlap := []
  due := []
  claim := none

/-- A team as it starts on a seat, with the teams of its cluster's halves. -/
def Team.created (launch : Nat) (k : Kernel) (kind : Nat) (seat : Seat) (own other : List Nat) : Team where
  launch := launch
  teamIx := seat.teamIx
  logicalCore := seat.teamIx
  core := seat.core
  base := seat.base
  kernel := k
  kind := kind
  slots := seat.slots
  proghint := -1
  task := none
  taskHandle := 0
  taskArgs := []
  taskWr := []
  ownHalf := own
  otherHalf := other
  tileShapes := Map.empty
  accShapes := Map.empty
  tiles := Map.empty
  accs := Map.empty
  ranges := Map.empty
  merge := []
  lastArrival := Map.empty
  logs := []
  lhsrc := 0
  shsrc := 0
  stopped := false
  leaving := 0
  bound := 0

/-- A launch gets its window on a die, if it needs one and has none there; where it lies is open (R433). -/
def State.openWindow (s : State) (key die : Nat) : State :=
  match s.launches.find key with
  | none => s
  | some l =>
    if l.dieWin = 0 ∨ (l.windows.find die).isSome then s
    else
      let places := s.windowPlaces die l.dieWin
      match places[Config.choice s.tick 0x300 % places.length]? with
      | none => s
      | some b => { s with launches := s.launches.set key { l with windows := l.windows.set die b } }

/-- Puts a team with its groups on its core: its launch's window (R179), MARGINLVL where the launch has no other team
there (R309), and its slots. -/
def State.seatTeam (s : State) (uid : Nat) (t : Team) (groups : List Group) : State :=
  let alone := !(s.teamsOn t.core).any fun q => q.launch = t.launch
  let k := s.margin t.core
  let s := s.openWindow t.launch (dieOf t.core)
  { s with
    teams := s.teams.set uid t
    margins := if alone then s.margins.set t.core { k with level := 0, pend := false } else s.margins
    groups := (t.slots.zip groups).foldl (fun m p => m.set (slotKey t.core p.1) p.2) s.groups }

/-- Starts a new team: its allocation reads zero (R177, R408). -/
def State.startTeam (s : State) (t : Team) (groups : List Group) : State :=
  let lo := unitKey t.core t.base
  { s.seatTeam s.nextTeam t groups with nextTeam := s.nextTeam + 1, mem := s.mem.clear lo (lo + t.kernel.unit) }

/-- Starts the teams of a cluster on seats one after the other; none where one does not fit. A member that has ended before a flush
takes a number, as the others do, and no seat (R428). -/
def State.startCluster (l : Launch) (key : Nat) (halves : Nat → List Nat × List Nat) :
    List (Nat × Nat × Nat) → List Seat → State → Option State
  | [], [], s => some s
  | (_, _, ix) :: ms, seats, s =>
    if l.ended.contains ix then State.startCluster l key halves ms seats { s with nextTeam := s.nextTeam + 1 }
    else
      match seats with
      | [] => none
      | seat :: seats =>
        let k := l.kernel
        if seat.teamIx = ix ∧ l.unplaced.contains ix ∧ s.seatFits l k k.groups seat then
          let h := halves seat.core
          let t := Team.created key k 0 seat h.1 h.2
          let groups := (List.range k.groups).map fun gix => Group.created s.nextTeam gix (BitVec.ofNat 32 k.entry) (-1)
          State.startCluster l key halves ms seats (s.startTeam t groups)
        else none
  | [], _ :: _, _ => none

/-- The cores of a rectangle on which the seats lie where their teams' positions in a cluster put them (R411): one without a fused
core. -/
def rectOf (m : List (Nat × Nat × Nat)) (seats : List Seat) : Option (List Nat) :=
  let (w, h) := clusterShape m
  let at_ (p : Nat × Nat × Nat) : List Nat := m.map fun q => rectCore p.1 p.2.1 p.2.2 q.1 q.2.1
  ((corners.filter fun p => rectLies p.1 p.2.1 p.2.2 w h).find? fun p =>
    (at_ p).all (fun c => !Config.fusedCore c) &&
      seats.all fun seat => ((m.zip (at_ p)).any fun q => q.1.2.2 == seat.teamIx && q.2 == seat.core)).map at_

/-- The teams of a cluster by half, for a core of one half: its own half's teams first (R178); cores are those of its members, whose
numbers rise from first on. -/
def halvesOf (first : Nat) (cores : List Nat) (core : Nat) : List Nat × List Nat :=
  let pick (own : Bool) : List Nat :=
    (cores.zipIdx.filter fun p => (dieOf p.1 == dieOf core) == own).map fun p => first + p.2
  (pick true, pick false)

/-- Places the clusters that seats name, one after the other; none where they are no placement. -/
def State.placeClusters (l : Launch) (key : Nat) : Nat → List Seat → State → Option State
  | 0, _, _ => none
  | fuel + 1, seats, s =>
    match seats with
    | [] => some s
    | s0 :: _ =>
      let m := l.cluster s0.teamIx
      let n := (m.filter fun q => !l.ended.contains q.2.2).length
      let mine := seats.take n
      match (rectOf m mine).bind fun cores => State.startCluster l key (halvesOf s.nextTeam cores) m mine s with
      | none => none
      | some s => State.placeClusters l key fuel (seats.drop n) s

/-- TEAM_PLACEMENT: the scheduler places a cluster of a launch, or all the teams of a co-resident grid at once (R18,
R410, R411), but for those that ended before the others were flushed (R428); the seats are its choice (R433). -/
def execTeamPlacement (key : Nat) (seats : List Seat) (s : State) : Out :=
  match s.launches.find key with
  | none => .next s
  | some l =>
    let whole :=
      if l.cogrid then l.unplaced.length
      else (seats.head?.map fun p => ((l.cluster p.teamIx).filter fun q => !l.ended.contains q.2.2).length).getD 0
    let indices := seats.map (·.teamIx)
    if l.ending.isSome || seats.length != whole || seats == [] || !decide indices.Nodup then .next s
    else
      match State.placeClusters l key (seats.length + 1) seats s with
      | none => .next s
      | some s =>
        .next { s with launches := s.launches.modify key fun l =>
          { l with unplaced := l.unplaced.filter fun ix => !indices.contains ix } }

end Sys2Proof.Machine
end

