-- ==== Sys2Proof/Machine/Launches.lean ====
section
/-!
DEFINITION. Code images (R75 to R82), LAUNCH with its checks (R399, R401, R406), LAUNCH_END (R408), and CONTEXT_DESTROY
(R404).
-/

namespace Sys2Proof.Machine

/-! ### Code images (R75 to R80) -/

/-- A section of an image: its type, offset, size and alignment. -/
structure Section where
  type : Nat
  start : Nat
  size : Nat
  align : Nat
deriving DecidableEq, Repr, Inhabited

/-- The entries of an image's section table. -/
def readSections (b : List Byte) : List Section :=
  (List.range (field b 6 2)).map fun i =>
    let e := (b.drop (field b 12 4 + 16 * i)).take 16
    ⟨field e 0 4, field e 4 4, field e 8 4, field e 12 4⟩
/-- The bytes of the section of a type. -/
def sectionOf (b : List Byte) (l : List Section) (type : Nat) : Option (List Byte) :=
  (l.find? fun s => s.type = type).map fun s => (b.drop s.start).take s.size

/-- The header and section table keep the rules of R75 and R76, but for the code's size. -/
def sectionsGood (b : List Byte) (l : List Section) : Bool :=
  let has (t : Nat) : Nat := (l.filter fun s => s.type = t).length
  decide (3 ≤ l.length ∧ l.length ≤ 5) && field b 8 4 == 64 && zeros b 25 39 &&
    decide (field b 12 4 + 16 * l.length ≤ b.length) && has 1 == 1 && has 3 == 1 && has 4 == 1 && decide (has 2 ≤ 1) &&
    decide (has 5 ≤ 1) && l.all fun s =>
      decide (1 ≤ s.type ∧ s.type ≤ 5) && s.start % 64 == 0 && decide (s.start + s.size ≤ b.length) &&
        decide (6 ≤ s.align ∧ s.align ≤ 16)

/-- The code words and tagged words of an image. -/
def imageOf (code wordMap : List Byte) : Image where
  code := (List.range (code.length / 4)).map fun i => BitVec.ofNat 32 (field code (4 * i) 4)
  tagged := (List.range (code.length / 4)).filter fun i => (wordMap.getD (i / 8) 0).getLsbD (i % 8)
/-- The words of code that are second words, literals or jump-table words: left is how many of the next words belong to the last
instruction, and i is the number of the next word (R52, R77). -/
def furtherWords : Nat → Nat → List W32 → List Nat
  | _, _, [] => []
  | 0, i, w :: rest => furtherWords (extraWords w.toNat) (i + 1) rest
  | left + 1, i, _ :: rest => i :: furtherWords left (i + 1) rest
/-- The word map has a byte for eight words, its last bits are zero, and it tags just those words that are never decoded (R77). -/
def mapGood (code wordMap : List Byte) : Bool :=
  let n := code.length / 4
  let im := imageOf code wordMap
  wordMap.length == (n + 7) / 8 && (n % 8 == 0 || decide ((wordMap.getLastD 0).toNat < 2 ^ (n % 8))) &&
    im.tagged == furtherWords 0 0 im.code

/-- The kernel that 64 bytes describe (R79). -/
def readKernel (e : List Byte) : Kernel where
  entry := field e 4 4
  trapEntry := if field e 8 4 = 0xFFFFFFFF then none else some (field e 8 4)
  groups := field e 12 1
  tiles := field e 13 1
  accs := field e 14 1
  trapTiles := field e 15 1
  unit := field e 16 4
  clw := field e 20 1
  clh := field e 21 1
  spawnPool := field e 22 2
  det := field e 24 1
  caps := field e 32 8
/-- ENTRY and TRAPENTRY name untagged words of the code. -/
def Kernel.entriesGood (k : Kernel) (im : Image) : Bool := im.holds k.entry && k.trapEntry.all im.holds
/-- The resource fields of an entry are within R79. -/
def Kernel.resourcesGood (k : Kernel) (e : List Byte) : Bool :=
  decide (1 ≤ k.groups ∧ k.groups ≤ 32 ∧ k.tiles ≤ 16 ∧ k.accs ≤ 32 ∧ k.trapTiles ≤ k.tiles ∧ k.unit % 256 = 0 ∧
    1 ≤ k.clw ∧ k.clw ≤ 16 ∧ 1 ≤ k.clh ∧ k.clh ≤ 6 ∧ k.clw * k.clh ≤ 48 ∧ k.det ≤ 2) && zeros e 25 7 && zeros e 40 24
/-- The capability bits keep R80. -/
def Kernel.capsGood (k : Kernel) : Bool := decide (k.caps < 8) && (k.caps / 4 % 2 == 1) == (k.det == 2)
/-- NAME is the offset of a zero-terminated name in the names section. An image may have none (R76), and what NAME must then be R79 does
not say: any value is accepted, a DESIGN CHOICE (notes/assumptions/22.md). -/
def nameGood (names : Option (List Byte)) (e : List Byte) : Bool :=
  names.all fun n => (n.drop (field e 0 4)).contains 0

/-- An image's code and kernels, or the DETAIL of STATUS 1 that refuses it (R82, R401). Of several that apply it is the lowest, and a
fault that R401 lists under none is given 3 or 6: DESIGN CHOICES (notes/assumptions/22.md). -/
def parseImage (b : List Byte) : Except Nat (Image × List Kernel) :=
  let l := readSections b
  let sec (t : Nat) : List Byte := (sectionOf b l t).getD []
  let code := sec 1
  let im := imageOf code (sec 4)
  let entries := (List.range ((sec 3).length / 64)).map fun i => ((sec 3).drop (64 * i)).take 64
  let kernels := entries.map readKernel
  if field b 0 4 ≠ 0x59565053 ∨ field b 5 1 ≠ 1 then .error 1
  else if (crc32c (b.take 20 ++ List.replicate 4 0 ++ b.drop 24)).toNat ≠ field b 20 4 then .error 2
  else if !sectionsGood b l || !mapGood code (sec 4) || (sec 3).length % 64 != 0 ||
      !entries.all (nameGood (sectionOf b l 5)) then .error 3
  else if code = [] ∨ code.length % 4 ≠ 0 ∨ 512 * 1024 < code.length then .error 4
  else if !kernels.all (·.entriesGood im) then .error 5
  else if !(kernels.zip entries).all (fun p => p.1.resourcesGood p.2) then .error 6
  else if field b 24 1 % 16 ≠ 0 ∨ field b 24 1 / 64 % 2 = 0 then .error 7
  else if !kernels.all (·.capsGood) then .error 8
  else .ok (im, kernels)

/-- Reads and parses the image at a virtual address; one that cannot be read gives DETAIL 10. -/
def State.readImage (s : State) (ctx va : Nat) : Except Nat (Image × List Kernel) :=
  match s.portRead ctx va 64 with
  | none => .error 10
  | some h =>
    if field h 0 4 ≠ 0x59565053 ∨ field h 5 1 ≠ 1 then .error 1
    else
      match s.portRead ctx va (field h 16 4) with
      | none => .error 10
      | some b => parseImage b

/-- The launch grants the capabilities that a kernel requires (R80, R82, R406). -/
def Kernel.granted (k : Kernel) (mergepriv : Bool) : Bool :=
  (k.caps % 2 == 0 || (List.range 8).any Config.copingDie) && (k.caps / 2 % 2 == 0 || Config.offers 1) &&
    (k.caps / 4 % 2 == 0 || (Config.offers 2 && mergepriv))

/-! ### LAUNCH (R406) -/

/-- A region descriptor (R183), if its fields are within limits. -/
def readRegion (e : List Byte) (unit : Nat) : Option TileRegion :=
  let r : TileRegion := ⟨field e 0 4, field e 4 2, field e 6 2, field e 8 1 == 1⟩
  if r.base % 512 = 0 ∧ r.pitch % 512 = 0 ∧ 512 ≤ r.pitch ∧ r.pitch ≤ 8192 ∧ 1 ≤ r.rows ∧ r.rows ≤ 256 ∧ field e 8 1 ≤ 1 ∧
      zeros e 9 7 ∧ r.base + r.pitch * r.rows ≤ unit then some r
  else none
/-- The region descriptors of a launch, if all are good and no two overlap. -/
def State.readRegions (s : State) (ctx va n unit : Nat) : Option (List TileRegion) :=
  if n = 0 then some []
  else
    match s.readVirt ctx va (16 * n) with
    | none => none
    | some b =>
      let l := (List.range n).map fun i => readRegion ((b.drop (16 * i)).take 16) unit
      let rs := l.filterMap id
      let clear := (List.range n).all fun i => (List.range i).all fun j =>
        match rs[i]?, rs[j]? with
        | some p, some q => apart p.base (p.pitch * p.rows) q.base (q.pitch * q.rows)
        | _, _ => true
      if rs.length = n ∧ clear then some rs else none

/-- The limits on a launch body. Two depend on the kernel, where the image has it: GRIDY beside a spawn pool (R414), and MB. -/
def launchLimits (b : List Byte) (k : Option Kernel) : List (Nat × Bool) :=
  let cap := ((List.range 8).map dieCap).foldl max 0
  [(0x00, field b 0 8 % 64 == 0), (0x0A, decide (field b 0x0A 2 < 16)), (0x0C, decide (field b 0x0C 1 ≤ 3)),
    (0x0D, decide (field b 0x0D 1 ≤ 8)), (0x30, decide (1 ≤ field b 0x30 4)),
    (0x34, decide (1 ≤ field b 0x34 4 ∧ field b 0x30 4 * field b 0x34 4 ≤ 65536) &&
      k.all fun k => k.spawnPool == 0 || decide (field b 0x30 4 * field b 0x34 4 < 65536)),
    (0x38, decide (field b 0x38 4 % 2 ^ 16 = 0 ∧ field b 0x38 4 ≤ cap)),
    (0x3C, field b 0x3C 4 % 16 == 0 && k.all fun k => k.det == 2 || field b 0x3C 4 == 0),
    (0x40, field b 0x40 8 % 32 == 0), (0x48, field b 0x48 8 % 64 == 0), (0x50, decide (field b 0x50 4 ≤ 2 ^ 20)),
    (0x60, field b 0x60 8 % 64 == 0), (0x6C, field b 0x6C 4 % 32 == 0),
    (0x70, decide (field b 0x6C 4 + field b 0x70 4 ≤ field b 0x38 4)), (0x80, field b 0x80 8 % 32 == 0),
    (0x88, zeros b 0x88 8)]
/-- The launch number to allot (R402): from n on, the first that no live launch holds. -/
def State.launchNumber (s : State) : Nat → Nat → Nat
  | 0, n => n
  | fuel + 1, n =>
    if s.launches.keys.any (· % 2 ^ 20 = n) then s.launchNumber fuel (n % 0xFFFFF + 1) else n

/-- The launch that a body describes. -/
def Packet.launch (p : Packet) (s : State) (im : Image) (k : Kernel) (hk : Option Kernel) (regions : List TileRegion) :
    Launch :=
  let b := p.body
  let flag (n : Nat) : Bool := field b 0x0A 2 / 2 ^ n % 2 == 1
  { port := p.port, ring := p.ring, serial := p.serial, tag := p.tag, intr := p.intr, gen := (s.context p.ctx).gen
    image := im, kernel := k, hkernel := hk, cogrid := flag 0, tslice := flag 1, restart := flag 2, mergepriv := flag 3
    latclass := field b 0x0C 1, db := (List.range 4).map fun i => BitVec.ofNat 64 (field b (0x10 + 8 * i) 8)
    gridx := field b 0x30 4, gridy := field b 0x34 4, dieWin := field b 0x38 4, mb := field b 0x3C 4
    spill := BitVec.ofNat 64 (field b 0x40 8), lrt := BitVec.ofNat 64 (field b 0x48 8), lrtn := field b 0x50 4
    timeout := field b 0x54 4, key := BitVec.ofNat 64 (field b 0x58 8), spbuf := BitVec.ofNat 64 (field b 0x60 8)
    spbufn := field b 0x68 4, rpoolOff := field b 0x6C 4, rpoolSz := field b 0x70 4, estimate := field b 0x74 4
    regions := regions, compl := BitVec.ofNat 64 (field b 0x80 8), form := k.det
    unplaced := List.range (field b 0x30 4 * field b 0x34 4), ended := [], windows := Map.empty, barriers := Map.empty
    mergeLeft := [], formIx := 0, spheld := [], ending := none }

/-- The launch of a packet, or the ending that refuses it (R399 order 9, R401): the limits of its body first, then the image, whose
capabilities must be granted to KERNEL and to HKERNEL (R80, R82). -/
def Packet.judgeLaunch (p : Packet) (s : State) : Except Ending Launch :=
  let b := p.body
  let hix := field b 0x0E 2
  let grants (k : Kernel) : Bool := k.granted (field b 0x0A 2 / 8 % 2 == 1)
  let image := s.readImage p.ctx (field b 0 8)
  let named (ix : Nat) : Option Kernel := image.toOption.bind fun i => i.2[ix]?
  match firstBad (launchLimits b (named (field b 8 2))) with
  | some off => .error (plainEnding 2 off)
  | none =>
    match image with
    | .error d => .error (plainEnding 1 d)
    | .ok (im, _) =>
      let hk := if hix = 0xFFFF then none else named hix
      if !((named (field b 8 2)).all grants && hk.all grants) then .error (plainEnding 1 8)
      else
        match named (field b 8 2) with
        | none => .error (plainEnding 1 9)
        | some k =>
          if hix ≠ 0xFFFF ∧ hk = none then .error (plainEnding 1 9)
          else
            let regions := s.readRegions p.ctx (field b 0x78 8) (field b 0x0D 1) k.unit
            let l := p.launch s im k hk (regions.getD [])
            match l.never l.cogrid regions.isSome with
            | some d => .error (plainEnding 3 d)
            | none => .ok l

/-- LAUNCH: the packet is checked, and its launch waits for cores. -/
def execLaunch (port ring : Nat) (s : State) : Out :=
  s.consume port ring 1 fun s p =>
    let s := s.consumed p
    let compl := field p.body 0x80 8
    if !p.current s then p.ends s compl false (plainEnding 5 0)
    else
      match p.judgeLaunch s with
      | .error e => p.ends (if e = plainEnding 1 10 then s.portMet false p.ctx else s) compl true e
      | .ok l =>
        let n := s.launchNumber 0x100000 s.nextLaunch
        { s with launches := s.launches.set (p.ctx * 2 ^ 20 + n) l, nextLaunch := n % 0xFFFFF + 1 }

/-! ### LAUNCH_END (R408) -/

/-- Nothing of a launch is left: no team, on a core or saved, and no task; and unless it ends otherwise, no team to
place and no record held. -/
def State.launchOver (s : State) (key : Nat) (l : Launch) : Bool :=
  let teams := s.teams.values.any fun t => t.launch = key
  let saved := s.saved.any fun v => v.team.launch = key
  let tasks := s.tasks.values.any fun k => k.launch = key
  let records := s.bins.any (fun b => b.2.launch = key) || s.formed.any (fun f => f.2.launch = key) || l.spheld != []
  !teams && !tasks && (l.ending.isSome || (l.unplaced.isEmpty && !records && !saved))

/-- LAUNCH_END: the final merge, the completion record, and the launch is gone with what it still held. -/
def execLaunchEnd (key : Nat) (s : State) : Out :=
  match s.launches.find key with
  | none => .next s
  | some l =>
    if s.launchOver key l then
      let s := s.mergeLaunch key
      let s :=
        s.complete l.port l.ring l.serial l.tag (key / 2 ^ 20) l.compl.toNat true (l.ending.getD (plainEnding 0 0)) 0
      .next { s with
        launches := s.launches.erase key
        saved := s.saved.filter fun v => v.team.launch ≠ key
        bins := s.bins.filter fun b => b.2.launch ≠ key
        formed := s.formed.filter fun f => f.2.launch ≠ key }
    else .next s

/-! ### CONTEXT_DESTROY (R404, R405) -/

/-- The device-side items of a launch that a destroy discards: records held, and queued tasks of `tspn`. -/
def State.itemsHeld (s : State) (key : Nat) (l : Launch) : Nat :=
  ((s.bins.filter fun b => b.2.launch = key).map fun b => b.2.recs.length).sum +
    ((s.formed.filter fun f => f.2.launch = key).map fun f => f.2.recs.length).sum + l.spheld.length +
    (s.tasks.values.filter fun k => k.launch = key ∧ k.state = .queued ∧ k.host = none ∧ !k.handler).length

/-- Steps 2 to 4 for one launch: its teams stop, what it holds is discarded, its tasks that have not started fail with
ERR 4, and it ends with STATUS 5. -/
def State.tearDown (s : State) (key : Nat) : State :=
  let fail (k : Task) : Task := if k.launch = key ∧ k.state = .queued then { k with state := .failed 4 } else k
  match s.launches.find key with
  | none => s
  | some l =>
    { s with
      launches := s.launches.set key { l with ending := some (plainEnding 5 0), spheld := [], unplaced := [] }
      tasks := s.tasks.mapValues fun _ k => fail k
      bins := s.bins.filter fun b => b.2.launch ≠ key
      formed := s.formed.filter fun f => f.2.launch ≠ key
      saved := s.saved.filter fun v => v.team.launch ≠ key }.stopLaunch key

/-- Step 1 and what follows at once. -/
def State.beginDestroy (s : State) (p : Packet) : State :=
  let c := s.context p.ctx
  let keys := s.launches.keys.filter (· / 2 ^ 20 = p.ctx)
  let items := (keys.map fun key => s.itemsHeld key (s.launches.get key default)).sum
  let c :=
    { c with
      gen := (c.gen + 1) % 65536, discarded := items
      destroying := some (p.port, p.ring, p.serial, p.tag, p.intr, BitVec.ofNat 64 (field p.body 0 8)) }
  keys.foldl State.tearDown { s.hold p none with contexts := s.contexts.set p.ctx c }

/-- The last steps: COMPL is written through the tables, which are released with the context's keys, faults and
translations. -/
def State.finishDestroy (s : State) (n : Nat) (port ring serial : Nat) (tag : W32) (compl : W64) : State :=
  let c := s.context n
  let s := (s.passed port ring 32).complete port ring serial tag n compl.toNat true (plainEnding 0 0) c.discarded
  let keys := (s.ckeys.filter fun k => k.1 = n).map (·.2)
  let shared (k : W64) : Bool := s.ckeys.any fun p => p.1 ≠ n ∧ p.2 = k
  { s with
    contexts := s.contexts.set n { c with live := false, destroying := none, discarded := 0 }
    ckeys := s.ckeys.filter fun k => k.1 ≠ n
    instances := s.instances.filter fun p => !keys.contains p.1 || shared p.1
    faults := s.faults.keep fun _ f => f.ctx ≠ n
    tlb := s.tlb.filter fun t => t.ctx ≠ n }

/-- CONTEXT_DESTROY: it holds its ring until every launch of the context has ended; while an update runs its RPTR stays, and its end
waits (R498). -/
def execContextDestroy (port ring : Nat) (s : State) : Out :=
  let mine (c : Context) : Option (Nat × W32 × W64) :=
    match c.destroying with
    | some (p, r, serial, tag, _, compl) => if p = port ∧ r = ring then some (serial, tag, compl) else none
    | none => none
  match s.contexts.entries.findSome? fun e => (mine e.2).map fun d => (e.1, d) with
  | some (n, serial, tag, compl) =>
    if s.launches.keys.any (· / 2 ^ 20 = n) || s.update.isSome then .next s else .next (s.finishDestroy n port ring serial tag compl)
  | none =>
    s.consume port ring 7 fun s p =>
      let compl := field p.body 0 8
      if !p.current s then p.ends (s.consumed p) compl false (plainEnding 5 0)
      else
        match firstBad [(0x00, compl % 32 == 0), (0x08, zeros p.body 8 8)] with
        | some off => p.ends (s.consumed p) compl true (plainEnding 2 off)
        | none => s.beginDestroy p

end Sys2Proof.Machine
end

