-- ==== Sys2Proof/Machine/Pallets.lean ====
section
/-!
DEFINITION. The pallet former's events (R413 to R415): SPAWN_TIMEOUT, HAND_OVER_STALL_FLUSH, EPOCH, and
SPAWN_TEAM_START.
-/

namespace Sys2Proof.Machine

/-! ### Bins (R413) -/

/-- SPAWN_TIMEOUT: the oldest record of a bin has waited TIMEOUT; bin is its place among all bins. -/
def execSpawnTimeout (die bin : Nat) (s : State) : Out :=
  match s.bins[bin]? with
  | some (d, _) => .next (if d = die then s.formBin bin else s)
  | none => .next s

/-- The fragment stands at a `disp` or `spwn` whose records it is handing over (R67). -/
def Launch.handsOver (l : Launch) (f : Fragment) : Bool :=
  match l.image.code[f.pc.toNat / 4]? with
  | some w => w.getLsbD 31 && (w.toNat / 2 ^ 24 % 64 == 0x1E || w.toNat / 2 ^ 21 % 512 == 0x22 * 8)
  | none => false

/-- A group cannot issue, but for a stalled hand-over: each fragment waits, is parked, or hands over. -/
def Launch.groupStuck (l : Launch) (g : Group) : Bool :=
  g.marker || g.park.isSome || g.frags.all fun f => f.wait != .none || f.fault.isSome || l.handsOver f

/-- The groups of a launch on cores. -/
def State.groupsOf (s : State) (key : Nat) : List Group :=
  s.groups.values.filter fun g => (s.teams.find g.team).any fun t => t.launch = key

/-- HAND_OVER_STALL_FLUSH: a bin forms its group because the former has no free bin and it is the oldest one of its die,
or because no group of its launch can issue. -/
def execHandOverStallFlush (die bin : Nat) (s : State) : Out :=
  match s.bins[bin]? with
  | none => .next s
  | some (d, b) =>
    let l := s.launches.get b.launch default
    let oldest := s.bins.findIdx? (fun p => p.1 = die) = some bin
    let stalls := s.groups.values.any fun g => (s.teams.find g.team).any fun t =>
      dieOf t.core = die && g.frags.any fun f => (s.launchOf t).handsOver f
    let full := decide (64 ≤ s.binsUsed die) && decide oldest && stalls
    if d = die ∧ (full ∨ (s.groupsOf b.launch).all l.groupStuck) then .next (s.formBin bin) else .next s

/-! ### EPOCH (R415) -/

/-- Every fragment of a group waits at a package barrier. -/
def Group.atPackage (g : Group) : Bool :=
  g.frags.all fun f => match f.wait with
    | .phase _ _ _ => true
    | _ => false

/-- A record comes before another: by ENTRY, then LTHREAD, then SPCNT. -/
def Rec.before (a b : Rec) : Bool :=
  decide (a.entry.toNat < b.entry.toNat) ||
    (a.entry == b.entry && (decide (a.lthread < b.lthread) || (a.lthread == b.lthread && decide (a.spcnt ≤ b.spcnt))))
/-- Inserts a record in order. -/
def insertRec (r : Rec) : List Rec → List Rec
  | [] => [r]
  | x :: rest => if x.before r then x :: insertRec r rest else r :: x :: rest
/-- Cuts sorted records into groups of one ENTRY and at most 64 records. -/
def cutRecs : List Rec → List (List Rec)
  | [] => []
  | r :: rest =>
    match cutRecs rest with
    | (q :: qs) :: more => if q.entry = r.entry ∧ qs.length + 1 < 64 then (r :: q :: qs) :: more else [r] :: (q :: qs) :: more
    | other => [r] :: other

/-- Reverses each group of records cut from the end. -/
def cutFromFront (l : List Rec) : List (List Rec) := ((cutRecs l.reverse).map List.reverse).reverse

/-- Forms groups of records in order as formation indices, until the index would reach its bound (R414, R415). -/
def State.formGroups (key : Nat) : List (List Rec) → State → State
  | [], s => s
  | recs :: rest, s =>
    match s.launches.find key with
    | none => s
    | some l =>
      if 65536 - l.gridx * l.gridy ≤ l.formIx then s.spawnLimit key 2
      else
        State.formGroups key rest
          { s with
            formed := s.formed ++ [(0, ⟨key, ((recs.head?.map (·.entry)).getD 0), recs, l.formIx⟩)]
            launches := s.launches.set key { l with formIx := l.formIx + 1 } }

/-- EPOCH: records are held and every live group of the launch has ended or waits at a package barrier; teams that wait
for a core, groups formed and not started, and saved teams count as live. -/
def execEpoch (key : Nat) (s : State) : Out :=
  match s.launches.find key with
  | none => .next s
  | some l =>
    let quiet := (s.groupsOf key).all (fun g => g.frags.isEmpty || g.atPackage) &&
      (s.saved.filter fun v => v.team.launch = key).all (fun v => v.groups.all fun g => g.frags.isEmpty || g.atPackage)
    if l.form = 0 ∨ l.spheld = [] ∨ l.unplaced ≠ [] ∨ (s.formed.any fun f => f.2.launch = key) ∨ !quiet then .next s
    else
      let sorted := l.spheld.foldl (fun acc r => insertRec r acc) []
      .next (State.formGroups key (cutFromFront sorted) { s with launches := s.launches.set key { l with spheld := [] } })

/-! ### SPAWN_TEAM_START (R414) -/

/-- The group of a spawn team: thread i takes record i. -/
def Group.ofRecords (team : Nat) (f : Formed) : Group :=
  let n := f.recs.length
  let g := Group.created team 0 f.entry (maskOf fun t => decide (t < n))
  let regs := (List.range n).flatMap fun i => (List.range 14).map fun j => (i, j)
  let g := regs.foldl (fun g p => g.writeV false p.2 p.1 ((((f.recs.getD p.1 default).regs).getD p.2 0))) g
  { g with reccnt := n }

/-- The TEAM_IX of a spawn team. -/
def Launch.spawnIx (l : Launch) (f : Nat) : Nat := l.gridx * l.gridy + f % (65536 - l.gridx * l.gridy)

/-- The spawn teams of a launch, on cores or saved. -/
def State.spawnTeams (s : State) (key : Nat) : List Team :=
  (s.teams.values ++ s.saved.map (·.team)).filter fun t => t.launch = key ∧ t.kind = 1
def State.spawnsLive (s : State) (key : Nat) : Nat := (s.spawnTeams key).length

/-- SPAWN_TEAM_START: formed group number ix starts on a seat, if the pool and its index allow. -/
def execSpawnTeamStart (die ix : Nat) (seat : Seat) (s : State) : Out :=
  match s.formed[ix]? with
  | none => .next s
  | some (d, f) =>
    match s.launches.find f.launch with
    | none => .next s
    | some l =>
      let live := s.spawnTeams f.launch
      if d ≠ die ∨ l.ending.isSome ∨ l.kernel.spawnPool ≤ live.length ∨ seat.teamIx ≠ l.spawnIx f.index ∨
          (live.any fun t => t.teamIx = seat.teamIx) ∨ !s.seatFits l l.kernel 1 seat then .next s
      else
        let t := Team.created f.launch l.kernel 1 seat [s.nextTeam] []
        .next ({ s with formed := s.formed.eraseIdx ix }.startTeam t [Group.ofRecords s.nextTeam f])

end Sys2Proof.Machine
end

