-- ==== Sys2Proof/Machine/Tasks.lean ====
section
/-!
DEFINITION. Tasks (R417 to R423): descriptors, `tspn` and host task packets, dependences and renaming, TASK_START and
TASK_COMMIT.
-/

namespace Sys2Proof.Machine

/-! ### Descriptors (R417) -/

/-- A range of 16 bytes is good. -/
def rangeGood (e : List Byte) : Bool :=
  if field e 12 1 = 0xFF then zeros e 0 12 && zeros e 13 3
  else decide (field e 12 1 ≤ 1 ∧ 1 ≤ field e 8 4) && zeros e 13 3
/-- The range that 16 bytes describe. -/
def readRange (e : List Byte) : TaskRange := ⟨field e 0 8, field e 8 4, field e 12 1⟩
/-- Range number i of a descriptor: four reads, then two writes. -/
def rangeAt (b : List Byte) (i : Nat) : List Byte := (b.drop (0x20 + 16 * i)).take 16

/-- The limits of a descriptor for an image. -/
def taskLimits (b : List Byte) (im : Image) : List (Nat × Bool) :=
  let handler := field b 0x10 4 ≠ 0xFFFFFFFF
  [(0x00, im.holds (field b 0 4)), (0x06, decide (1 ≤ field b 6 1 ∧ field b 6 1 ≤ 32)), (0x07, decide (field b 7 1 ≤ 16)),
    (0x08, decide (field b 8 1 ≤ 32)), (0x09, decide (field b 9 1 ≤ field b 7 1)), (0x0A, decide (field b 0x0A 2 ≤ 1)),
    (0x0C, decide (field b 0x0C 4 % 256 = 0 ∧ (handler → 256 * field b 6 1 ≤ field b 0x0C 4))),
    (0x10, decide (handler → im.holds (field b 0x10 4))), (0x14, zeros b 0x14 12)] ++
    (List.range 6).map fun i => (0x20 + 16 * i, rangeGood (rangeAt b i))
/-- The die-store ranges lie within the window. -/
def windowLimits (b : List Byte) (window : Nat) : List (Nat × Bool) :=
  (List.range 6).map fun i =>
    let r := readRange (rangeAt b i)
    (0x20 + 16 * i, r.space != 1 || decide (r.base + r.len ≤ window))

/-- The task that a descriptor describes, before its dependences are known. -/
def readTask (b : List Byte) (key die : Nat) (l : Launch) (handle : W32)
    (host : Option (Nat × Nat × Nat × W32 × Bool × W64)) : Task :=
  { launch := key, die := die
    kernel :=
      { l.kernel with
        entry := field b 0 4, trapEntry := if field b 0x10 4 = 0xFFFFFFFF then none else some (field b 0x10 4)
        groups := field b 6 1, tiles := field b 7 1, accs := field b 8 1, trapTiles := field b 9 1
        unit := field b 0x0C 4, clw := 1, clh := 1 }
    tix := field b 4 2, restart := field b 0x0A 2 == 1, reads := (List.range 4).map fun i => readRange (rangeAt b i)
    writes := (List.range 2).map fun i => readRange (rangeAt b (4 + i))
    args := (List.range 8).map fun i => BitVec.ofNat 32 (field b (0x80 + 4 * i) 4), renamed := [none, none]
    state := .queued, startAfterCommit := [], startAfterComplete := [], commitAfterComplete := []
    commitAfterCommit := [], readsFrom := [], handler := false, handle := handle, host := host, record := [], copied := 0 }

/-! ### Dependences and renaming (R420) -/

/-- Two ranges of tasks share a byte: die-store ranges of one launch, or global ranges of one context. -/
def rangesShare (a : Task) (p : TaskRange) (b : Task) (q : TaskRange) : Bool :=
  p.space == q.space && !apart p.base p.len q.base q.len &&
    (match p.space with
    | 0 => a.launch / 2 ^ 20 == b.launch / 2 ^ 20
    | 1 => a.launch == b.launch
    | _ => false)
/-- A task of the table has not completed: one that fails or is cancelled holds others back until it has retired (R420, R422). -/
def Task.pending (t : Task) : Bool := decide (t.state ≠ .completed)
/-- A task is queued, or its team runs. -/
def Task.running (t : Task) : Bool :=
  match t.state with
  | .queued | .started _ => true
  | _ => false

/-- The bytes of a rename pool that a task holds. -/
def Task.poolUse (t : Task) : List (Nat × Nat) :=
  (t.renamed.zip t.writes).filterMap fun p => p.1.map fun off => (off, pad32 p.2.len)
/-- A place in a launch's rename pool on a die for n bytes beside what is used; which place is open. -/
def poolPlace (l : Launch) (used : List (Nat × Nat)) (choice n : Nat) : Option Nat :=
  let free (off : Nat) : Bool :=
    decide (l.rpoolOff ≤ off ∧ off + n ≤ l.rpoolOff + l.rpoolSz) && used.all fun u => apart off n u.1 u.2
  let tried := l.rpoolOff + 32 * (choice % (l.rpoolSz / 32))
  if free tried then some tried else (l.rpoolOff :: used.map fun u => u.1 + u.2).find? free

/-- Task t after it has been compared with older task o of number id. -/
def Task.after (t : Task) (l : Launch) (used : List (Nat × Nat)) (choice id : Nat) (o : Task) : Task :=
  let share (r : TaskRange) (l : List TaskRange) : Bool := l.any fun q => rangesShare t r o q
  let t := if t.reads.any fun r => share r o.writes then
      { t with startAfterCommit := t.startAfterCommit ++ [id], readsFrom := t.readsFrom ++ [id] } else t
  (List.range t.writes.length).foldl (fun t i =>
    let w := t.writes.getD i default
    let rd := o.pending && share w o.reads
    let wr := share w o.writes
    if !rd && !wr then t
    else
      let own := t.reads.any fun r => rangesShare t w t r
      let t :=
        if (t.renamed.getD i none).isSome ∨ w.space ≠ 1 ∨ own then t
        else { t with renamed := t.renamed.set i (poolPlace l (used ++ t.poolUse) (choice + i) (pad32 w.len)) }
      if (t.renamed.getD i none).isSome then
        { t with
          commitAfterComplete := if rd then t.commitAfterComplete ++ [id] else t.commitAfterComplete
          commitAfterCommit := if wr then t.commitAfterCommit ++ [id] else t.commitAfterCommit }
      else
        { t with
          startAfterComplete := if rd then t.startAfterComplete ++ [id] else t.startAfterComplete
          startAfterCommit := if wr then t.startAfterCommit ++ [id] else t.startAfterCommit }) t

/-- Submits a task to its table: it is compared with every older live task there. -/
def State.submitTask (s : State) (t : Task) (l : Launch) : State :=
  let table := s.tasks.entries.filter fun e => e.2.die = t.die
  let used := (table.filter fun e => e.2.launch = t.launch).flatMap fun e => e.2.poolUse
  let t := table.foldl (fun t e => t.after l used (Config.choice s.tick 0x310) e.1 e.2) t
  { s with tasks := s.tasks.set s.nextTask t, nextTask := s.nextTask + 1 }

/-- The tasks of a die's table. -/
def State.tableSize (s : State) (die : Nat) : Nat := (s.tasks.values.filter fun t => t.die = die).length

/-! ### `tspn` and TASK (R418) -/

/-- tspn. -/
def execTspn (m : Bool) (h a : Nat) (s : State) : Out :=
  onFrag s fun x =>
    if x.g.handler || x.team.kind == 1 then x.illegal s 0
    else if x.waitsOn [a] then .next s
    else
      let at_ := (x.uni a).toNat
      x.unitBlock s .read at_ 160 32 fun keys =>
        let b := s.gather keys
        let l := x.launch
        let writes := (List.range 2).map fun i => readRange (rangeAt b (4 + i))
        if (firstBad (taskLimits b l.image)).isSome then x.illegal s (x.uni a)
        else if (firstBad (windowLimits b l.dieWin)).isSome then x.trap s 10 (accessInfo 0 0 2 0xFF)
        else if l.form = 1 ∧ writes.any (fun w => w.space ≤ 1 && !inRanges x.team w.space w.base w.len) then
          x.trap s 5 (accessInfo 1 0 1 0xFF)
        else if x.g.full 5 || decide (4096 ≤ s.tableSize x.die) then .next s
        else
          let g := (x.g.issueOp 5 (.task s.nextTask) [] 0 s.tick).sendHandle s.ir 5 x.die (h - 96)
          let t := readTask b x.team.launch x.die l (handleWord 5 x.die (x.g.cls 5).nextSeq) none
          let t := if (s.context x.ctxNum).gen = l.gen then t else { t with state := .failed 4 }
          x.done (s.submitTask t l) g m 1

/-- TASK: a host task packet, checked as its body (R399, R418); it waits while the table is full. -/
def execTask (port ring : Nat) (s : State) : Out :=
  s.consume port ring 2 fun s p =>
    let b := p.body
    let compl := field b 8 8
    let desc := b.drop 16
    let key := p.ctx * 2 ^ 20 + field b 0 4
    let live := (s.launches.find key).filter fun l => l.ending.isNone && decide (field b 0 4 < 2 ^ 20)
    let l := live.getD default
    let limits : List (Nat × Bool) :=
      [(0x00, live.isSome), (0x04, decide (field b 4 1 < 8)), (0x05, zeros b 5 3), (0x08, compl % 32 == 0)] ++
        (taskLimits desc l.image ++ windowLimits desc l.dieWin).map fun e => (0x10 + e.1, e.2)
    if !p.current s then p.ends (s.consumed p) compl false (plainEnding 5 0)
    else
      match firstBad limits with
      | some off => p.ends (s.consumed p) compl true (plainEnding 2 off)
      | none =>
        if 4096 ≤ s.tableSize (field b 4 1) then s
        else
          let host := some (p.port, p.ring, p.serial, p.tag, p.intr, BitVec.ofNat 64 compl)
          (s.consumed p).submitTask (readTask desc key (field b 4 1) l 0 host) l

/-! ### TASK_START (R418, R420, R423) -/

/-- The effective offset of write range i (R412). -/
def Task.writeOffset (t : Task) (i : Nat) : W32 :=
  let w := t.writes.getD i ⟨0, 0, 255⟩
  if w.space = 1 then BitVec.ofNat 32 ((t.renamed.getD i none).getD w.base) else -1

/-- The team of a task on a seat, its write ranges registered in write-range form (R224, R421). -/
def Task.teamOn (t : Task) (id uid : Nat) (l : Launch) (seat : Seat) : Team :=
  let ranges := (List.range t.writes.length).foldl (fun m i =>
    let w := t.writes.getD i default
    if w.space ≤ 1 then m.set i ⟨w.space, if w.space = 1 then (t.writeOffset i).toNat else w.base, w.len⟩ else m) Map.empty
  { Team.created t.launch t.kernel (if t.handler then 3 else 2) seat [uid] [] with
    task := some id, taskHandle := t.handle, taskArgs := t.args, taskWr := [t.writeOffset 0, t.writeOffset 1]
    ranges := if l.form = 1 then ranges else Map.empty }

/-- `hcancel` has asked for the cancellation of a task's operation. -/
def State.taskCancelled (s : State) (id : Nat) : Bool :=
  s.groups.values.any fun g => (g.cls 5).ops.any fun o => o.cancel && decide (o.cmd = .task id)

/-- The shape of a task fits some core of its die (R419 ERR 3). -/
def Task.shapeFits (t : Task) (l : Launch) : Bool :=
  (List.range 48).any fun c =>
    coreServes (48 * t.die + c) t.kernel && decide (l.dieWin ≤ dieCap t.die) && decide (l.regions.length ≤ 8)

/-- Task a does not wait for others to start any more. -/
def State.mayStart (s : State) (t : Task) : Bool :=
  t.startAfterCommit.all (fun id => (s.tasks.find id).isNone) &&
    t.startAfterComplete.all fun id => ((s.tasks.find id).map (·.pending)).getD false == false

/-- TASK_START: a task whose waits are over starts on a seat of its die, or fails because no core fits its shape. -/
def execTaskStart (die id : Nat) (seat : Seat) (s : State) : Out :=
  match s.tasks.find id with
  | none => .next s
  | some t =>
    match s.launches.find t.launch with
    | none => .next s
    | some l =>
      if t.die ≠ die ∨ t.state ≠ .queued ∨ l.ending.isSome ∨ s.taskCancelled id ∨ !s.mayStart t then .next s
      else if !t.shapeFits l then .next { s with tasks := s.tasks.set id { t with state := .failed 3 } }
      else if dieOf seat.core ≠ die ∨ seat.teamIx ≠ t.tix ∨ !s.seatFits l t.kernel t.kernel.groups seat then .next s
      else
        let uid := s.nextTeam
        let groups := (List.range t.kernel.groups).map fun gix =>
          Group.created uid gix (BitVec.ofNat 32 t.kernel.entry) (-1)
        let s := s.startTeam (t.teamOn id uid l seat) groups
        let s := s.storeBytes (unitKey seat.core seat.base) (t.record.take t.kernel.unit)
        .next { s with tasks := s.tasks.set id { t with state := .started uid } }

/-! ### TASK_COMMIT (R421, R422) -/

/-- Copies n more sectors of a task's renamed ranges back, in ascending address (R220). -/
def State.copyBack (s : State) (t : Task) (base n : Nat) : State :=
  let chunks := ((t.renamed.zip t.writes).flatMap fun p =>
    match p.1 with
    | none => []
    | some off => (List.range ((p.2.len + 31) / 32)).map fun i =>
        (off + 32 * i, p.2.base + 32 * i, min 32 (p.2.len - 32 * i))).drop t.copied |>.take n
  chunks.foldl (fun s c =>
    s.storeBytes (dieKey t.die (base + c.2.1)) (s.mem.bytes (dieKey t.die (base + c.1)) c.2.2)) s
/-- Every renamed sector of a task. -/
def Task.sectors (t : Task) : Nat :=
  ((t.renamed.zip t.writes).map fun p => if p.1.isSome then (p.2.len + 31) / 32 else 0).sum

/-- The result word of a task (R419). -/
def TaskState.word : TaskState → W32
  | .failed e => BitVec.ofNat 32 (2 ^ 30 + e * 2 ^ 26)
  | .cancelled => cancelWord
  | _ => 0

/-- A task leaves its table with its outcome: its operation is done or its packet completes, and tasks that read what
it did not write back fail. -/
def State.retireTask (s : State) (id : Nat) (t : Task) : State :=
  let bad := t.state ≠ .completed
  let fail (q : Task) : Task := if bad ∧ q.readsFrom.contains id ∧ q.state = .queued then { q with state := .failed 2 } else q
  let op (o : Op) : Op := if o.cmd = .task id then { o with phase := .done t.state.word } else o
  let err := match t.state with
    | .failed e => e
    | _ => 0
  let s :=
    { s with
      tasks := (s.tasks.erase id).mapValues fun _ q => fail q
      groups := s.groups.mapValues fun _ g =>
        { g with classes := g.classes.modify 5 fun k => { k with ops := k.ops.map op } } }
  match t.host with
  | none => s
  | some (port, ring, serial, tag, _, compl) =>
    let e := if bad then plainEnding 2 (err + 0x100) else plainEnding 0 0
    s.complete port ring serial tag (t.launch / 2 ^ 20) compl.toNat true { e with team := BitVec.ofNat 32 t.tix } 0

/-- TASK_COMMIT: once a task's team has ended and its waits are over, its renamed ranges are copied back, any number of sectors in a
turn, and it retires; one that failed or was cancelled copies nothing back. A task of a launch that has ended is cancelled unless it
has completed; its team, if it is saved, never runs again (R404, R409, R432). -/
def execTaskCommit (die id : Nat) (s : State) : Out :=
  match s.tasks.find id with
  | none => .next s
  | some t =>
    let l := s.launches.find t.launch
    let ended := (l.map (·.ending.isSome)).getD true
    let alive := (s.teams.values ++ if ended then [] else s.saved.map (·.team)).any fun q => q.task = some id
    let t :=
      if (t.state = .queued ∧ (s.taskCancelled id ∨ ended)) ∨ (t.state ≠ .queued ∧ t.running ∧ ended ∧ !alive)
      then { t with state := .cancelled }
      else t
    let waits := t.commitAfterComplete.any (fun n => ((s.tasks.find n).map (·.pending)).getD false) ||
      t.commitAfterCommit.any fun n => (s.tasks.find n).isSome
    if t.die ≠ die ∨ t.running ∨ alive ∨ waits then .next s
    else
      let base := ((l.bind fun l => l.windows.find die)).getD 0
      let left := if t.state = .completed then t.sectors - t.copied else 0
      let n := Config.choice s.tick 0x312 % (left + 1)
      let s := if t.state = .completed then s.copyBack t base n else s
      if n = left then .next (s.retireTask id t)
      else .next { s with tasks := s.tasks.set id { t with copied := t.copied + n } }

/-- An uncorrectable error in the copy-back of a completed task: some of it is done, and the task fails (R419 ERR 5). -/
def State.failCopyBack (s : State) (id : Nat) : State :=
  match s.tasks.find id with
  | none => s
  | some t =>
    if t.state = .completed ∧ t.sectors ≠ 0 then
      let base := ((s.launches.find t.launch).bind fun l => l.windows.find t.die).getD 0
      let s := s.copyBack t base (Config.choice s.tick 0x311 % (t.sectors - t.copied))
      { s with tasks := s.tasks.set id { t with state := .failed 5 } }
    else s

end Sys2Proof.Machine
end

