-- ==== Sys2Proof/Machine/SaveArea.lean ====
section
/-!
DEFINITION. The save area of a team (R429, R430): its header, its sections and the record of a group. Sections whose
encoding is the device's own hold free bytes (notes/assumptions/7.md); what restore puts back is the SavedTeam.
-/

namespace Sys2Proof.Machine

/-- Zero bytes. -/
def zeroBytes (n : Nat) : List Byte := List.replicate n 0
/-- Bytes followed by zeros up to a length. -/
def padTo (n : Nat) (b : List Byte) : List Byte := b ++ zeroBytes (n - b.length)

/-! ### Group records (R430) -/

/-- Bytes of a group record for W = 64. -/
def groupRecordSize : Nat := 0x580 + 528 * 64

/-- A split entry in the layout of R91. -/
def splitRecord (e : Split) : List Byte :=
  leBytes 16 e.mask.toNat ++ leBytes 4 e.takenPc.toNat ++ leBytes 4 e.fallPc.toNat ++ leBytes 4 e.reconvPc.toNat ++
    leBytes 2 e.num ++ leBytes 2 (e.parent.getD 0xFFFF)
/-- A free resident entry. -/
def freeSplit : List Byte := zeroBytes 28 ++ leBytes 2 0xFFFF ++ zeroBytes 2

/-- WAIT and WAITARG of a fragment. -/
def waitBytes : Wait → List Byte
  | .join _ => [1, 0]
  | .barrier fn id _ _ _ => [2, BitVec.ofNat 8 (fn + 8 * id)]
  | .phase fn id _ => [2, BitVec.ofNat 8 (fn + 8 * id)]
  | _ => [0, 0]
/-- A fragment's 64 bytes. -/
def fragmentRecord (f : Fragment) : List Byte :=
  leBytes 4 f.pc.toNat ++ leBytes 2 (f.inner.getD 0xFFFF) ++ waitBytes f.wait ++ zeroBytes 8 ++ leBytes 16 f.threads.toNat ++
    leBytes 16 f.k0.toNat ++ zeroBytes 16
/-- The staging of a parked sweep, 64 + 8 × 64 bytes. -/
def stagingRecord : Option Staging → List Byte
  | none => zeroBytes 576
  | some st =>
    padTo 576 (padTo 64 (leBytes 4 st.slot ++ leBytes 4 st.rank ++ leBytes 4 st.off ++ zeroBytes 4 ++ leBytes 8 st.acc.toNat) ++
      st.staged.flatMap fun v => leBytes 8 v.toNat)

/-- The record of a group; recstat is RECSTAT and logIx the index of its log context. -/
def groupRecord (g : Group) (recstat : W32) (logIx : Nat) : List Byte :=
  let word (v : W32) : List Byte := leBytes 4 v.toNat
  let threads := List.range 64
  let owner := (g.frags.findIdx? (·.looping)).getD 0
  leBytes 4 ((!g.frags.isEmpty).toNat + 2 * g.handler.toNat + 4 * g.recording.toNat) ++ leBytes 4 g.frags.length ++
    word g.fpmode ++ word g.fpflags ++ word g.trapCause ++ word g.trapPc ++ word g.trapInfo0 ++ word g.trapInfo1 ++
    (List.range 8).flatMap (fun c => leBytes 4 (g.cls c).nextSeq) ++ leBytes 4 g.merr.toNat ++ word g.seqStep ++
    word recstat ++ leBytes 4 logIx ++ (List.range 3).flatMap (fun i => word (g.lc.getZ i)) ++
    leBytes 4 (owner + 256 * (if g.frags.any (·.looping) then g.loops.length else 0)) ++
    (List.range 3).flatMap (fun i => word (g.li.getZ i)) ++ (List.range 3).flatMap (fun i => word (g.lsig.getZ i)) ++
    zeroBytes 8 ++ (List.range 16 ++ (List.range 32).map (32 + ·)).flatMap (fun v => leBytes 1 (g.binds.get v 0xFF)) ++
    zeroBytes 16 ++ (List.range 7).flatMap (fun i => leBytes 16 (g.k.getZ (i + 1)).toNat) ++ zeroBytes 16 ++
    (List.range 16).flatMap (fun i => ((g.splits[i]?).map splitRecord).getD freeSplit) ++
    padTo 64 (leBytes 4 g.spilled.length ++ leBytes 4 g.nextSplit) ++
    padTo (64 * 64) (g.frags.flatMap fragmentRecord) ++
    (List.range 4).flatMap (fun i => writeRecord (g.slotIt i) (g.slotIt i).resume) ++ stagingRecord (g.staging.orElse fun _ => g.hstaging) ++
    padTo 192 ((List.range 32).flatMap (fun n => word (g.readG false n)) ++
      (List.range 8).flatMap fun i => word (g.hg.getZ (24 + i))) ++
    threads.flatMap (fun t => (List.range 96).flatMap fun r => word (g.readV false r t)) ++
    threads.flatMap (fun t => (List.range 16).flatMap fun r => word (g.readV true (80 + r) t)) ++
    threads.flatMap (fun t => word (g.srcnt.getZ t)) ++ threads.flatMap fun t => word (g.spcnt.getZ t)

/-! ### Sections (R429) -/

/-- A tile register: its control and planes. -/
def tileRecord (sh : TileShape) (d : TileData) : List Byte :=
  leBytes 2 sh.rows ++ leBytes 2 sh.cols ++ leBytes 1 sh.width ++ leBytes 1 sh.axis.toNat ++ leBytes 1 sh.mapped.toNat ++
    leBytes 1 sh.dupcap ++ leBytes 1 d.dup ++ zeroBytes 23 ++ padTo 32 d.map ++
    (List.range 2048).map (fun i => d.exps.getZ i) ++ (List.range 65536).map fun i => d.mants.getZ i
/-- An accumulator tile. -/
def accRecord (shape : Nat × Nat) (d : AccData) : List Byte :=
  leBytes 2 shape.1 ++ leBytes 2 shape.2 ++ leBytes 1 d.ovf.toNat ++ zeroBytes 59 ++
    (List.range 65536).flatMap fun i => leBytes 4 (d.vals.getZ i).toNat
/-- A hardware queue. -/
def queueRecord (owned : Bool) (q : Queue) : List Byte :=
  padTo 64 (leBytes 1 owned.toNat ++ leBytes 1 q.items.length ++ zeroBytes 2 ++ leBytes 4 q.drops) ++
    padTo 256 (q.items.flatMap fun v => leBytes 4 v.toNat)
/-- A slot ring. -/
def ringRecord (owned : Bool) (r : SlotRing) : List Byte :=
  padTo 64 (leBytes 1 owned.toNat ++ leBytes 1 r.count ++ leBytes 1 r.rdi ++ leBytes 1 r.nfill ++ leBytes 4 r.base ++
    leBytes 4 r.slotsz)

/-- RECSTAT of a group of a team, and the index of its log context. -/
def State.recordState (s : State) (t : Team) (g : Group) (core slot : Nat) : W32 × Nat :=
  let l := s.launchOf t
  let x : Ctx := ⟨core, slot, 0, g, default, t, l⟩
  (x.recStat, (t.logs.findIdx? fun c => g.log.any fun r => c.space = r.space ∧ c.first = r.first).getD noIndex)

/-- Offsets of sections of the given sizes from 256, each at a multiple of 64, with the end last. -/
def sectionOffsets (start : Nat) : List Nat → List Nat
  | [] => [start]
  | n :: rest => start :: sectionOffsets ((start + n + 63) / 64 * 64) rest

/-- The nine sections of a team's save area. -/
def State.saveSections (s : State) (uid : Nat) (t : Team) : List (List Byte) :=
  let count := if t.kind = 1 then 1 else t.kernel.groups
  let group (gix : Nat) : List Byte :=
    match t.slots.findSome? fun slot => (s.groups.find (slotKey t.core slot)).bind fun g =>
      if g.gix = gix then some (slot, g) else none with
    | none => zeroBytes groupRecordSize
    | some (slot, g) =>
      let r := s.recordState t g t.core slot
      groupRecord g r.1 r.2
  let device (salt n : Nat) : List Byte := (List.range n).map fun i => Config.freeByte s.tick (salt * 2 ^ 32 + i)
  let bound := (s.seqSlots.values.filter fun q => q.team = uid ∧ q.num < 256).length
  [(List.range count).flatMap group,
    (List.range t.kernel.tiles).flatMap fun i =>
      tileRecord (t.tileShape i) (t.tile i),
    (List.range t.kernel.accs).flatMap fun i => accRecord (t.accShape i) (t.acc i),
    s.mem.bytes (unitKey t.core t.base) t.kernel.unit,
    (List.range 8).flatMap fun n =>
      let q := s.queue t.core n
      let own := q.owner = some uid
      queueRecord own (if own then q else Queue.unowned),
    (List.range 16).flatMap fun n =>
      let r := s.ring t.core n
      let own := r.owner = some uid
      ringRecord own (if own then r else SlotRing.unowned),
    device 1 (1088 * bound), device 2 (if (s.kiln t.core).claim = some uid then 211136 else 0), device 3 (4 * 8448)]

/-- Sizes of the sections of a team. -/
def State.saveSizes (s : State) (uid : Nat) (t : Team) : List Nat :=
  let bound := (s.seqSlots.values.filter fun q => q.team = uid ∧ q.num < 256).length
  [(if t.kind = 1 then 1 else t.kernel.groups) * groupRecordSize, t.kernel.tiles * 67648, t.kernel.accs * 262208,
    t.kernel.unit, 2560, 1024, 1088 * bound, if (s.kiln t.core).claim = some uid then 211136 else 0, 4 * 8448]
/-- TOTAL of a team. -/
def State.saveTotal (s : State) (uid : Nat) (t : Team) : Nat := (sectionOffsets 256 (s.saveSizes uid t)).getLastD 256

/-- The header of a save area; crc is its CRC field. -/
def saveHeader (t : Team) (total : Nat) (sect : List Nat) (crc : Nat) : List Byte :=
  leBytes 4 0x00010000 ++ leBytes 4 (if t.kind = 1 then 1 else t.kernel.groups) ++ leBytes 4 groupRecordSize ++
    leBytes 4 64 ++ leBytes 8 total ++ leBytes 4 t.teamIx ++ leBytes 4 t.logicalCore ++ leBytes 4 t.launch ++
    leBytes 4 t.proghint.toNat ++ leBytes 4 crc ++ leBytes 4 0 ++ sect.flatMap (leBytes 8) ++ zeroBytes 128

/-- The bytes of a team's save area. -/
def State.saveBytes (s : State) (uid : Nat) (t : Team) : List Byte :=
  let sizes := s.saveSizes uid t
  let sect := sectionOffsets 256 sizes
  let total := sect.getLastD 256
  let body := ((s.saveSections uid t).zip sizes).flatMap fun p => padTo ((p.2 + 63) / 64 * 64) p.1
  let crc := (crc32c (saveHeader t total sect 0 ++ body)).toNat
  saveHeader t total sect crc ++ body

/-- Save areas in use in a context's pool. -/
def State.areasUsed (s : State) (ctx : Nat) : List (Nat × Nat) :=
  (s.saved.filter fun v => v.team.launch / 2 ^ 20 = ctx).map fun v =>
    (v.area.toNat, (v.total + 2 ^ 16 - 1) / 2 ^ 16 * 2 ^ 16)
/-- A place for a save area in a context's pool, in units of 64 KiB; which place is open. -/
def State.areaPlace (s : State) (ctx total : Nat) : Option Nat :=
  let c := s.context ctx
  let n := (total + 2 ^ 16 - 1) / 2 ^ 16 * 2 ^ 16
  let lo := c.savepool.toNat
  let used := s.areasUsed ctx
  let free (p : Nat) : Bool := decide (lo ≤ p ∧ p + n ≤ lo + c.savepoolsz) && used.all fun u => apart p n u.1 u.2
  let tried := lo + 2 ^ 16 * (Config.choice s.tick 0x320 % (c.savepoolsz / 2 ^ 16))
  if free tried then some tried else (lo :: used.map fun u => u.1 + u.2).find? free

end Sys2Proof.Machine
end

