-- ==== Sys2Proof/Machine/Preempt.lean ====
section
/-!
DEFINITION. Pre-emption (R425 to R428): the estimates and the choice of a method, save and flush of teams, RESTORE
(R432), and the events of the scheduler: PREEMPTION_REQUEST, DRAIN_BOUND_EXPIRY, TIMESLICE_ROTATION.
-/

namespace Sys2Proof.Machine

/-! ### The choice of a method (R425, R427) -/

/-- How a team leaves its core. -/
inductive Method
  | drain | save | flush
deriving DecidableEq, Repr, Inhabited

/-- A time is within a bound; none is infinite. -/
def within (t : Option Nat) (b : Nat) : Bool := t.any fun t => decide (t ≤ b)
/-- The lesser time, and the greater. -/
def timeLe (a b : Option Nat) : Bool :=
  match a, b with
  | _, none => true
  | none, some _ => false
  | some x, some y => decide (x ≤ y)
def timeMax (a b : Option Nat) : Option Nat := if timeLe a b then b else a

/-- The table of R427, from the times D, S and LF, the bound B and the elapsed time E. -/
def chooseMethod (d sv : Option Nat) (lf b e : Nat) (restartable : Bool) : Method :=
  if within d b then .drain
  else if within sv b then
    if restartable && decide (lf ≤ b) && sv.any (fun x => decide (e < 2 * x)) then .flush else .save
  else if restartable && decide (lf ≤ b) then .flush
  else if restartable then
    if timeLe d sv && timeLe d (some lf) then .drain else if timeLe sv (some lf) then .save else .flush
  else if timeLe d sv then .drain else .save

/-- A team can be restarted (R425). -/
def State.restartable (s : State) (t : Team) : Bool :=
  t.kind != 1 && ((s.launchOf t).restart || (t.task.bind s.tasks.find).any (·.restart))
/-- A team holds the claim on a hod of its core (R480). -/
def State.holdsHod (s : State) (uid : Nat) : Bool := s.hods.values.any fun h => h.claim = some uid
/-- A collective of a team waits for members that have not arrived (R461). -/
def State.awaitsMembers (s : State) (uid : Nat) : Bool :=
  s.groups.values.any fun g => g.team = uid && (g.cls 4).ops.any fun o =>
    match o.cmd with
    | .coll c => c.exchanged.isNone && !o.cancel && decide (o.phase = .issued)
    | _ => false

/-- D of a team in units of 1/32 ns, from its elapsed time in µs. -/
def State.drainTime (s : State) (t : Team) (elapsed : Nat) : Option Nat :=
  if t.proghint ≠ -1 then some (32000 * t.proghint.toNat)
  else
    let e := (s.launchOf t).estimate
    if e = 0 ∨ e ≤ elapsed then none else some (32000 * (e - elapsed))
/-- S of a team in units of 1/32 ns, from the nominal time in ns that its operations take to retire. -/
def State.saveTime (s : State) (uid : Nat) (t : Team) (retire : Nat) : Option Nat :=
  let total := s.saveTotal uid t
  if s.holdsHod uid || s.awaitsMembers uid || (s.areaPlace (t.launch / 2 ^ 20) total).isNone then none
  else some (total + 32 * retire)
/-- LF in units of 1/32 ns: what the operations take to retire after cancellation is open. -/
def State.flushTime (s : State) : Nat := 64000 + Config.choice s.tick 0x330

/-- The teams on cores that a request on a team applies to: its cluster, or its co-resident grid. -/
def State.companions (s : State) (uid : Nat) : List Nat :=
  match s.teams.find uid with
  | none => []
  | some t =>
    let l := s.launchOf t
    if l.cogrid && t.kind == 0 then
      (s.teams.entries.filter fun e => e.2.launch = t.launch ∧ e.2.kind = 0).map (·.1)
    else (uid :: (t.ownHalf ++ t.otherHalf).filter (· ≠ uid)).filter fun u => (s.teams.find u).isSome

/-- The method for teams that leave together: D and S are the largest, E the smallest, and flush needs every team to be
restartable. With spent, D counts as infinite. -/
def State.methodFor (s : State) (uids : List Nat) (bound elapsed retire : Nat) (spent : Bool) : Method :=
  let ts := uids.filterMap fun u => (s.teams.find u).map fun t => (u, t)
  let d := (ts.map fun p => s.drainTime p.2 elapsed).foldl timeMax (some 0)
  let sv := (ts.map fun p => s.saveTime p.1 p.2 retire).foldl timeMax (some 0)
  chooseMethod (if spent then none else d) sv s.flushTime (32000 * bound) (32000 * elapsed)
    (ts.all fun p => s.restartable p.2)

/-! ### Beginning a method (R428) -/

/-- A hod of a team that is flushed halts with CAUSE 9, and its copies are cancelled (R480). -/
def Hod.flushed (h : Hod) (uid : Nat) : Hod :=
  if h.claim = some uid then
    { (if h.status = 3 then h else h.stop 9) with ops := h.ops.map fun o => { o with cancel := true } }
  else h

/-- Teams begin to leave by a method, under a bound: a save seals the open batch of each group, in ascending slot (R305, R307). -/
def State.beginLeaving (s : State) (m : Method) (bound : Nat) (uids : List Nat) : State :=
  let code := match m with
    | .drain => 1
    | .save => 2
    | .flush => 3
  let s := { s with teams := uids.foldl (fun ts u => ts.modify u fun t => { t with leaving := code, bound := bound }) s.teams }
  let mine (g : Group) : Bool := uids.contains g.team
  match m with
  | .drain => s
  | .save =>
    let s := s.groups.entries.foldl (fun s e => if mine e.2 then s.sealGroup (e.1 / 64) (e.1 % 64) else s) s
    { s with groups := s.groups.mapValues fun _ g =>
      if mine g then { g with reversal := g.reversal.map fun r => { r with paused := true } } else g }
  | .flush =>
    { s with
      groups := s.groups.mapValues fun _ g => if mine g then g.cancelAll else g
      hods := s.hods.mapValues fun _ h => uids.foldl Hod.flushed h }

/-! ### What frees a core -/

/-- A group has nothing outstanding. -/
def Group.idle (g : Group) : Bool := g.classes.values.all fun k => k.ops.isEmpty
/-- Every fragment of a group stands between two instructions, whose results have landed and whose accesses are performed (R130,
R174). -/
def Group.settled (g : Group) : Bool := g.pend.isEmpty && g.late.isEmpty && g.frags.all fun f => f.handed == 0
/-- A team's groups with their slots, in ascending GROUP_IX. -/
def State.groupsIn (s : State) (t : Team) : List (Nat × Group) :=
  t.slots.filterMap fun slot => (s.groups.find (slotKey t.core slot)).map fun g => (slot, g)
/-- Nothing of a team is outstanding, so that it can leave: for a save its results have landed too (R130, R174), and its
core is not halted (R496). -/
def State.quiet (s : State) (uid : Nat) (save : Bool) : Bool :=
  match s.teams.find uid with
  | none => false
  | some t =>
    (s.groupsIn t).all (fun p => p.2.idle && (!save || p.2.settled)) && !(s.debugOf t.core).halted &&
      s.hods.values.all fun h => h.claim != some uid || (h.ops.isEmpty && h.late.isEmpty)

/-- What a team holds on its core becomes free: slots, hods, queues, rings, sequencer slots and kiln. -/
def State.leaveCore (s : State) (uid : Nat) (t : Team) : State :=
  { s with
    teams := s.teams.erase uid
    groups := t.slots.foldl (fun m slot => m.erase (slotKey t.core slot)) s.groups
    deferred := s.deferred.filter fun k => !(t.slots.any fun slot => slotKey t.core slot = k)
    hods := s.hods.mapValues fun _ h => if h.claim = some uid then h.freed else h
    queues := s.queues.keep fun _ q => q.owner ≠ some uid
    rings := s.rings.keep fun _ r => r.owner ≠ some uid
    seqSlots := s.seqSlots.keep fun _ q => q.team ≠ uid
    kilns := s.kilns.mapValues fun _ k => if k.claim = some uid then k.released else k }

/-- The faults that a group's fragments are parked on are forgotten: the instructions are issued again (R191). Nothing is in progress any
more (R130, R174). -/
def Group.unparked (g : Group) : Group :=
  { g with views := [], overlap := [], park := none, hpark := none, hfault := none, frags := g.frags.map fun f => { f with fault := none } }
/-- The outstanding faults of a group. -/
def Group.parkedOn (g : Group) : List Nat := g.park.toList ++ g.hpark.toList

/-- The cells of a team's allocation, by offset. -/
def State.unitCells (s : State) (t : Team) : List Host.Cell :=
  let lo := unitKey t.core t.base
  (s.mem.cells.filter fun c => lo ≤ c.1 ∧ c.1 < lo + t.kernel.unit).map fun c => (c.1 - lo, c.2)

/-- Saves a team and frees its core; none while its pool has no room or its save area cannot be written. The headers of the logs that
it records into are written back first (R319). -/
def State.saveTeam (s : State) (uid : Nat) : Option State :=
  match s.teams.find uid with
  | none => none
  | some t =>
    let s := t.slots.foldl (fun s slot => s.finishBatches t.core slot) (t.logs.foldl (fun s c => s.writeBack t c noIndex) s)
    let ctx := t.launch / 2 ^ 20
    let gs := s.groupsIn t
    let owned {α : Type} (m : Map α) (n : Nat) (owner : α → Option Nat) : List (Nat × α) :=
      (m.entries.filter fun e => e.1 / n = t.core ∧ owner e.2 = some uid).map fun e => (e.1 % n, e.2)
    match s.areaPlace ctx (s.saveTotal uid t) with
    | none => none
    | some area =>
      match s.writeVirt ctx area (s.saveBytes uid t) with
      | none => none
      | some s' =>
        let kiln := s.kiln t.core
        let v : SavedTeam :=
          { uid := uid, team := { t with leaving := 0 }, groups := gs.map fun p => p.2.unparked
            queues := owned s.queues 8 (·.owner), rings := owned s.rings 16 (·.owner)
            seqSlots := s.seqSlots.values.filter fun q => q.team = uid ∧ q.num < 256
            kiln := if kiln.claim = some uid then some kiln else none, area := BitVec.ofNat 64 area
            total := s.saveTotal uid t, unitBytes := s.unitCells t
            deferred := (gs.filter fun p => s.deferred.contains (slotKey t.core p.1)).map fun p => p.2.gix }
        let gone := gs.flatMap fun p => p.2.parkedOn
        let s' := s'.leaveCore uid t
        some { s' with saved := s'.saved ++ [v], faults := s'.faults.keep fun n _ => !gone.contains n }

/-- Saves teams that leave together. -/
def State.saveAll : List Nat → State → Option State
  | [], s => some s
  | u :: rest, s => (s.saveTeam u).bind (State.saveAll rest)

/-- Flushes a team: it restarts from its entry (R408), or its task does. What its groups have issued is performed first. -/
def State.flushTeam (s : State) (uid : Nat) : State :=
  match s.teams.find uid with
  | none => s
  | some t =>
    let s := t.slots.foldl (fun s slot => s.finishAll (.group t.core slot)) s
    let gone := (s.groupsIn t).flatMap fun p => p.2.parkedOn
    let s := s.leaveCore uid t
    let s := { s with faults := s.faults.keep fun n _ => !gone.contains n }
    match t.task with
    | some id => { s with tasks := s.tasks.modify id fun k => { k with state := .queued } }
    | none => { s with launches := s.launches.modify t.launch fun l => { l with unplaced := l.unplaced ++ [t.teamIx] } }

/-- Teams that leave together do so once every one of them can. -/
def State.finishLeaving (s : State) (uids : List Nat) : State :=
  let all (n : Nat) : Bool := uids.all fun u => (s.teams.find u).any fun t => t.leaving = n
  if uids = [] then s
  else if all 2 && uids.all (fun u => s.quiet u true) then (State.saveAll uids s).getD s
  else if all 3 && uids.all (fun u => s.quiet u false) then uids.foldl State.flushTeam s
  else s

/-! ### Events -/

/-- A core of one of the teams is halted: their pre-emption waits for RESUME (R496). -/
def State.anyHalted (s : State) (uids : List Nat) : Bool :=
  uids.any fun u => (s.teams.find u).any fun t => (s.debugOf t.core).halted
/-- A request on a team: those it applies to begin to leave by the method chosen, or go on leaving. -/
def State.request (s : State) (uid bound elapsed retire : Nat) : State :=
  let uids := s.companions uid
  match s.teams.find uid with
  | none => s
  | some t =>
    if s.anyHalted uids then s
    else if t.leaving = 0 then s.beginLeaving (s.methodFor uids bound elapsed retire false) bound uids
    else s.finishLeaving uids

/-- One element of a list, freely. -/
def freeOf {α : Type} (tick salt : Nat) : List α → Option α
  | [x] => some x
  | l => l[Config.choice tick salt % l.length]?
/-- The teams on cores that a context, launch number and team index name: several where tasks repeat an index (R417). -/
def State.teamsNamed (s : State) (ctx lnum ix : Nat) : List Nat :=
  (s.teams.entries.filter fun e => e.2.launch = ctx * 2 ^ 20 + lnum ∧ e.2.teamIx = ix ∧ lnum < 2 ^ 20).map (·.1)
/-- The one of them that a request is about; of several it is any (notes/assumptions/32.md). -/
def State.teamNamed (s : State) (ctx lnum ix : Nat) : Option Nat := freeOf s.tick 0x331 (s.teamsNamed ctx lnum ix)

/-- The bound of a request by a launch of a latency class, in µs (R426). -/
def classBound (c : Nat) : Nat := [0, 2000, 200, 20].getD c 0

/-- What a launch has that waits for cores (R426): the kernel whose resources it needs, its number of groups, the dies it may go to,
and the shapes of the rectangles that must be free at once. -/
structure Demand where
  kernel : Kernel
  groups : Nat
  dies : List Nat
  shapes : List (Nat × Nat)
deriving DecidableEq, Repr, Inhabited

/-- What waits of a launch: its clusters, or its whole co-resident grid; groups formed; tasks that may start; and saved teams. -/
def State.demands (s : State) (key : Nat) (l : Launch) : List Demand :=
  let all := List.range 8
  let idle := l.unplaced ++ (s.saved.filter fun v => v.team.launch = key ∧ v.team.kind = 0).map (·.team.teamIx)
  let first (ix : Nat) : Bool := ((l.cluster ix).find? fun q => idle.contains q.2.2).map (·.2.2) = some ix
  let grid := (idle.filter first).map fun ix => clusterShape (l.cluster ix)
  let clusters := if l.cogrid then (if grid = [] then [] else [grid]) else grid.dedup.map fun sh => [sh]
  clusters.map (fun sh => ⟨l.kernel, l.kernel.groups, all, sh⟩) ++
    (if (s.formed.any fun f => f.2.launch = key) ∧ s.spawnsLive key < l.kernel.spawnPool then [⟨l.kernel, 1, all, [(1, 1)]⟩] else []) ++
    (s.tasks.values.filter fun t => t.launch = key ∧ t.state = .queued ∧ s.mayStart t).map
      (fun t => ⟨t.kernel, t.kernel.groups, [t.die], [(1, 1)]⟩) ++
    (s.saved.filter fun v => v.team.launch = key ∧ v.team.kind ≠ 0).map
      fun v => ⟨v.team.kernel, v.groups.length, ((v.team.task.bind s.tasks.find).map fun t => [t.die]).getD all, [(1, 1)]⟩
/-- The room for a demand on a core. -/
def State.demandRoom (s : State) (l : Launch) (d : Demand) (core : Nat) : Nat :=
  if d.dies.contains (dieOf core) then s.roomNow l d.kernel d.groups core else 0
/-- A demand can be met as the cores stand. -/
def State.meets (s : State) (l : Launch) (d : Demand) : Bool := assignable (s.demandRoom l d) d.shapes Map.empty
/-- The machine without its teams of latency classes below c. -/
def State.withoutBelow (s : State) (c : Nat) : State := { s with teams := s.teams.keep fun _ t => c ≤ (s.launchOf t).latclass }
/-- A demand of a launch needs a core: it cannot be met as the cores stand, but without the teams of lower classes it could be with a
rectangle that has the core, on which they leave more room. -/
def State.needs (s : State) (l : Launch) (d : Demand) (core : Nat) : Bool :=
  let s' := s.withoutBelow l.latclass
  let room := s'.demandRoom l d
  !s.meets l d && decide (s.demandRoom l d core < room core) && assignable room d.shapes Map.empty &&
    d.shapes.any fun sh => corners.any fun p =>
      let cores := rectCores p.1 p.2.1 p.2.2 sh.1 sh.2
      rectLies p.1 p.2.1 p.2.2 sh.1 sh.2 && cores.contains core && cores.all fun c => decide (0 < room c)
/-- Launch number key, of class 1 to 3, cannot place what waits, and a team of a lower class holds a core that it needs. -/
def State.wants (s : State) (key : Nat) (w : Launch) (t : Team) : Bool :=
  w.ending.isNone && decide (t.leaving = 0) && decide ((s.launchOf t).latclass < w.latclass) &&
    (s.demands key w).any fun d => s.needs w d t.core

/-- The scheduler may ask for a team under a bound (R426): a launch whose class has that bound wants it, and of the teams that the
launch wants it is of the lowest class, and of the latest launch of that class. -/
def State.mayRequest (s : State) (t : Team) (bound : Nat) : Bool :=
  let l := s.launchOf t
  s.launches.entries.any fun e =>
    bound == classBound e.2.latclass && s.wants e.1 e.2 t &&
      s.teams.values.all fun q => !s.wants e.1 e.2 q ||
        decide (l.latclass < (s.launchOf q).latclass ∨ (l.latclass = (s.launchOf q).latclass ∧ (s.launchOf q).serial ≤ l.serial))

/-- PREEMPTION_REQUEST: the scheduler asks for a team; while it leaves, the event carries it on. -/
def execPreemptionRequest (ctx lnum ix bound elapsed retire : Nat) (s : State) : Out :=
  match s.teamNamed ctx lnum ix with
  | none => .next s
  | some uid =>
    match s.teams.find uid with
    | none => .next s
    | some t =>
      if t.leaving ≠ 0 ∨ s.mayRequest t bound then .next (s.request uid bound elapsed retire) else .next s

/-- DRAIN_BOUND_EXPIRY: a drain that has not ended within its bound is decided again with D infinite (R427). -/
def execDrainBoundExpiry (uid elapsed retire : Nat) (s : State) : Out :=
  match s.teams.find uid with
  | none => .next s
  | some t =>
    let uids := s.companions uid
    if t.leaving ≠ 1 ∨ s.anyHalted uids then .next s
    else
      .next (s.beginLeaving (s.methodFor uids t.bound elapsed retire true) t.bound uids)

/-- TIMESLICE_ROTATION: teams of a launch with TSLICE that are on cores begin to be saved while others wait (grid, spawn or task teams),
but for those that are never rotated (R410, R480); saves in progress go on. -/
def execTimesliceRotation (key : Nat) (s : State) : Out :=
  match s.launches.find key with
  | none => .next s
  | some l =>
    let waiting := s.demands key l != []
    if !l.tslice || !waiting || l.ending.isSome then .next s
    else
      let uids := (s.teams.entries.filter fun e => e.2.launch = key).map (·.1)
      .next (uids.foldl (fun s u =>
        let mates := s.companions u
        match s.teams.find u with
        | none => s
        | some t =>
          if t.leaving = 2 then s.finishLeaving mates
          else if t.leaving = 0 && !mates.any s.holdsHod && !s.anyHalted mates then s.beginLeaving .save 0 mates
          else s) s)

/-! ### RESTORE (R371, R368, R428, R432) -/

/-- A saved team may go to a seat. -/
def State.restoreFits (s : State) (l : Launch) (v : SavedTeam) (seat : Seat) : Bool :=
  seat.teamIx == v.team.teamIx && s.seatFits l v.team.kernel v.groups.length seat &&
    (s.freeSlots seat.core v.seqSlots.length).isSome && (v.kiln.isNone || (s.kiln seat.core).claim.isNone) &&
    v.queues.all (fun p => (s.queue seat.core p.1).owner.isNone) && v.rings.all (fun p => (s.ring seat.core p.1).owner.isNone) &&
    (v.team.kind != 2 && v.team.kind != 3 || (v.team.task.bind s.tasks.find).any fun k => k.die = dieOf seat.core)

/-- A save area still holds what was saved: FORMAT, TOTAL and CRC (R432). -/
def State.areaGood (s : State) (v : SavedTeam) : Bool :=
  match s.readVirt (v.team.launch / 2 ^ 20) v.area.toNat v.total with
  | none => false
  | some b =>
    field b 0 4 == 0x00010000 && field b 0x10 8 == v.total &&
      (crc32c (b.take 0x28 ++ zeroBytes 4 ++ b.drop 0x2C)).toNat == field b 0x28 4

/-- The number that takes the place of n when a list of old numbers becomes a list of new ones. -/
def renumber (old new : List Nat) (n : Nat) : Nat := new.getD (old.idxOf n) n

/-- Puts a saved team on a seat, with the teams of its cluster's halves. -/
def State.restoreTeam (s : State) (v : SavedTeam) (seat : Seat) (own other : List Nat) : State :=
  let old := v.team.slots
  let slot := renumber old seat.slots
  let phys := (s.freeSlots seat.core v.seqSlots.length).getD []
  let bind_ (num : Nat) : Nat := phys.getD (v.seqSlots.findIdx fun q => q.num = num) 0
  let group (g : Group) : Group := { g with step := g.step.map fun p => (p.1, bind_ p.1, p.2.2) }
  let t :=
    { v.team with
      core := seat.core, base := seat.base, slots := seat.slots, ownHalf := own, otherHalf := other
      lastArrival := v.team.lastArrival.mapValues fun _ n => slot n
      logs := v.team.logs.map fun c => { c with members := c.members.map slot } }
  let s := s.seatTeam v.uid t (v.groups.map group)
  let lo := unitKey seat.core seat.base
  let mem := v.unitBytes.foldl (fun m c => m.put (lo + c.1) c.2) (s.mem.clear lo (lo + t.kernel.unit))
  let k := s.kiln seat.core
  { s with
    mem := mem
    queues := v.queues.foldl (fun m p => m.set (8 * seat.core + p.1) p.2) s.queues
    rings := v.rings.foldl (fun m p => m.set (16 * seat.core + p.1) p.2) s.rings
    seqSlots := (phys.zip v.seqSlots).foldl (fun m p => m.set p.1 { p.2 with openBy := p.2.openBy.map slot }) s.seqSlots
    kilns := match v.kiln with
      | none => s.kilns
      | some q =>
        s.kilns.set seat.core
          { q with
            degraded := k.degraded, lastHealth := k.lastHealth, failures := k.failures, calibrations := k.calibrations
            drifted := k.drifted, shown := { q.shown with degraded := k.shown.degraded } }
    deferred := s.deferred ++ (v.groups.zip seat.slots).filterMap fun p =>
      if v.deferred.contains p.1.gix then some (slotKey seat.core p.2) else none
    saved := s.saved.filter fun w => w.uid ≠ v.uid }

/-- The column and row of a team in its cluster. -/
def Launch.seatOf (l : Launch) (ix : Nat) : Nat × Nat :=
  ((l.cluster ix).find? fun p => p.2.2 = ix).map (fun p => (p.1, p.2.1)) |>.getD (0, 0)
/-- Seats of grid teams lie where some rectangle of their clusters' shape, without a fused core, puts them (R411); the answer is the column of a
team's cluster that is the first on the second die, by team. -/
def Launch.restoredSplit (l : Launch) (ix : Nat) (seats : List Seat) : Option Nat :=
  let m := l.cluster ix
  let mine := seats.filter fun p => m.any fun q => q.2.2 = p.teamIx
  let (w, h) := clusterShape m
  (corners.find? fun p =>
    rectLies p.1 p.2.1 p.2.2 w h && m.all (fun q => !Config.fusedCore (rectCore p.1 p.2.1 p.2.2 q.1 q.2.1)) && mine.all fun seat =>
      let at_ := l.seatOf seat.teamIx
      seat.core == rectCore p.1 p.2.1 p.2.2 at_.1 at_.2).map fun p => 8 - p.2.1

/-- The halves of a restored cluster (R178), from the teams of its old halves, whose numbers rise row-major. -/
def Launch.restoredHalves (l : Launch) (v : SavedTeam) (split : Nat) : List Nat × List Nat :=
  let uids := (v.team.ownHalf ++ v.team.otherHalf).mergeSort
  let cols := (l.cluster v.team.teamIx).map (·.1)
  let low (c : Nat) : Bool := decide (c < split)
  let mine := low (l.seatOf v.team.teamIx).1
  let pick (own : Bool) : List Nat := ((uids.zip cols).filter fun p => (low p.2 == mine) == own).map (·.1)
  (pick true, pick false)

/-- The saved teams that are restored together with one of them. -/
def State.savedMates (s : State) (l : Launch) (v : SavedTeam) : List SavedTeam :=
  s.saved.filter fun w =>
    w.uid = v.uid || (w.team.launch = v.team.launch && w.team.kind = 0 && v.team.kind = 0 &&
      (l.cogrid || (v.team.ownHalf ++ v.team.otherHalf).contains w.uid))

/-- Restores teams one after the other; none where one does not fit. -/
def State.restoreAll (l : Launch) (all : List Seat) : List (SavedTeam × Seat) → State → Option State
  | [], s => some s
  | (v, seat) :: rest, s =>
    if !s.restoreFits l v seat then none
    else
      let halves :=
        if v.team.kind = 0 then (l.restoredSplit v.team.teamIx all).map (l.restoredHalves v) else some ([v.uid], [])
      match halves with
      | none => none
      | some h => State.restoreAll l all rest (s.restoreTeam v seat h.1 h.2)

/-- RESTORE: saved teams that belong together go back to cores; a save area that fails its check ends the launch. -/
def execRestore (key : Nat) (seats : List Seat) (s : State) : Out :=
  match s.launches.find key, seats with
  | some l, s0 :: _ =>
    match freeOf s.tick 0x332 (s.saved.filter fun v => v.team.launch = key ∧ v.team.teamIx = s0.teamIx) with
    | none => .next s
    | some v =>
      let mates := s.savedMates l v
      if l.ending.isSome || mates.length != seats.length then .next s
      else
        match State.restoreAll l seats (mates.zip seats) s with
        | none => .next s
        | some s' =>
          if mates.all s.areaGood then .next s' else .next (s.endLaunchWith key (plainEnding 7 0))
  | _, _ => .next s

end Sys2Proof.Machine
end

