-- ==== Sys2Proof/Machine/HodBase.lean ====
section
/-!
DEFINITION. The base instructions of a hod (R469 to R471): registers, the address space, RV64IMAC, ECALL, EBREAK and the
loss of a reservation.
-/

namespace Sys2Proof.Machine

/-! ### A hod at work -/

/-- Where an instruction of a hod acts: its core, which hod, its state, its claiming team and its launch. -/
structure HodCtx where
  core : Nat
  store : Bool
  h : Hod
  uid : Nat
  team : Team
  launch : Launch
deriving DecidableEq, Repr, Inhabited

/-- The hod that the current agent names, with its team. -/
def State.hodCtx (s : State) : Option HodCtx :=
  match s.cur with
  | .hod core store =>
    let h := s.hod core store
    match h.claim with
    | none => none
    | some uid =>
      match s.teams.find uid with
      | none => none
      | some t => (s.launches.find t.launch).map fun l => ⟨core, store, h, uid, t, l⟩
  | _ => none
/-- Acts for the current hod. -/
def onHod (s : State) (act : HodCtx → Out) : Out :=
  match s.hodCtx with
  | some x => act x
  | none => .fault .noAgent

/-- Register x n; x0 reads zero and discards writes. -/
def Hod.reg (h : Hod) (n : Nat) : W64 := if n = 0 then 0 else h.x.getZ n
def Hod.setReg (h : Hod) (n : Nat) (v : W64) : Hod := if n = 0 then h else { h with x := h.x.setZ n v }

/-- Stores the hod back. -/
def HodCtx.put (x : HodCtx) (s : State) (h : Hod) : State := s.putHod x.core x.store h
/-- Completes an instruction of n bytes that leaves the hod as h. -/
def HodCtx.done (x : HodCtx) (s : State) (h : Hod) (n : Nat) : Out := .next (x.put s { h with pc := h.pc + BitVec.ofNat 64 n })
/-- Completes an instruction that writes rd. -/
def HodCtx.result (x : HodCtx) (s : State) (n rd : Nat) (v : W64) : Out := x.done s (x.h.setReg rd v) n
/-- An exception halts the hod before the instruction changes anything (R471). -/
def HodCtx.halt (x : HodCtx) (s : State) (cause : Nat) : Out := .next (x.put s (x.h.stop cause))

/-! ### The address space (R470) -/

/-- Where a byte of a hod's address space lies: in its instruction store, its data store, or the team's allocation. -/
inductive HodPlace
  | code (off : Nat)
  | data (off : Nat)
  | unit (off : Nat)
deriving DecidableEq, Repr, Inhabited

/-- What a hod's access does. -/
inductive HodAccess
  | load | store
deriving DecidableEq, Repr, Inhabited

/-- The place of a byte, if the access is permitted there; AMOs, LR and SC count as stores. -/
def HodCtx.place (x : HodCtx) (a : HodAccess) (addr : Nat) : Option HodPlace :=
  if addr < 0x10000 then (if a = .load then some (.code addr) else none)
  else if addr < 0x18000 then some (.data (addr - 0x10000))
  else if 0x10000000 ≤ addr ∧ addr - 0x10000000 < x.team.kernel.unit ∧
      !touchesMerge x.launch x.team (addr - 0x10000000) 1 then some (.unit (addr - 0x10000000))
  else none
/-- The places of n bytes, if every one is permitted. -/
def HodCtx.places (x : HodCtx) (a : HodAccess) (addr n : Nat) : Option (List HodPlace) :=
  let l := (List.range n).map fun i => x.place a (addr + i)
  if l.all (·.isSome) then some (l.filterMap id) else none

/-- The place in memory of a byte of the team's allocation. -/
def HodCtx.unitPlace (x : HodCtx) (off : Nat) : Nat := unitKey x.core (x.team.base + off)
/-- The key of a byte for reservations: its place in memory, or one past every memory for the data store. -/
def HodCtx.granule (x : HodCtx) : HodPlace → Nat
  | .unit off => granuleOf (x.unitPlace off)
  | .data off => 2 ^ 62 + granuleOf off
  | .code off => 2 ^ 63 + granuleOf off

/-- Reads bytes. -/
def HodCtx.read (x : HodCtx) (s : State) (l : List HodPlace) : List Byte :=
  l.map fun p =>
    match p with
    | .code off => x.h.istore.getZ off
    | .data off => x.h.dstore.getZ off
    | .unit off => s.mem.byte (x.unitPlace off)
/-- Writes bytes, and keeps the rest of the hod as h. -/
def HodCtx.write (x : HodCtx) : List (HodPlace × Byte) → State → Hod → State × Hod
  | [], s, h => (s, h)
  | (p, b) :: rest, s, h =>
    match p with
    | .data off => x.write rest s { h with dstore := h.dstore.setZ off b }
    | .unit off => x.write rest (s.storeByHod (hodKey x.core x.store) (x.unitPlace off) [b]) h
    | .code _ => x.write rest s h

/-- An access of n bytes at an address: outside R470 it halts the hod with cause 4, and it stalls on sectors that the
scoreboard covers (R28, R478). -/
def HodCtx.access (x : HodCtx) (s : State) (a : HodAccess) (addr : W64) (n : Nat) (act : List HodPlace → Out) : Out :=
  match x.places a addr.toNat n with
  | none => x.halt s 4
  | some l =>
    let stalls := l.any fun p => match p with
      | .unit off => s.covered (x.unitPlace off)
      | _ => false
    if stalls then .next s else act l

/-! ### HOD_INSTRUCTION -/

/-- An access of an AMO, LR or SC: misaligned, cause 3; then as a store, so that cause 3 comes before cause 4: a DESIGN CHOICE
(notes/assumptions/37.md). -/
def HodCtx.atomicAccess (x : HodCtx) (s : State) (dword : Bool) (addr : W64) (act : List HodPlace → Out) : Out :=
  let n := if dword then 8 else 4
  if addr.toNat % n ≠ 0 then x.halt s 3 else x.access s .store addr n act

/-- Executes a base instruction of n bytes. -/
def HodCtx.execute (x : HodCtx) (s : State) (n : Nat) (i : HodInstr) : Out :=
  let h := x.h
  let r := h.reg
  let next : W64 := h.pc + BitVec.ofNat 64 n
  let jump (h : Hod) (target : W64) : Out := .next (x.put s { h with pc := target })
  match i with
  | .lui rd imm => x.result s n rd ((imm ++ (0 : BitVec 12)).signExtend 64)
  | .auipc rd imm => x.result s n rd (h.pc + (imm ++ (0 : BitVec 12)).signExtend 64)
  | .jal rd off => jump (h.setReg rd next) (h.pc + off.signExtend 64)
  | .jalr rd rs1 imm => jump (h.setReg rd next) ((r rs1 + imm.signExtend 64) &&& ~~~1)
  | .branch c rs1 rs2 off => jump h (if rvTaken c (r rs1) (r rs2) then h.pc + off.signExtend 64 else next)
  | .load w rd rs1 imm =>
    x.access s .load (r rs1 + imm.signExtend 64) (rvLoadBytes w) fun l =>
      x.result s n rd (rvLoaded w (leNat (x.read s l)))
  | .store w rs1 rs2 imm =>
    x.access s .store (r rs1 + imm.signExtend 64) (rvStoreBytes w) fun l =>
      let (s, h) := x.write (l.zip (leBytes (rvStoreBytes w) (r rs2).toNat)) s h
      x.done s h n
  | .opImm op rd rs1 imm => x.result s n rd (rvImm op (r rs1) imm)
  | .opImm32 op rd rs1 imm => x.result s n rd (rvImm32 op (r rs1) imm)
  | .op op rd rs1 rs2 => x.result s n rd (rvOp op (r rs1) (r rs2))
  | .op32 op rd rs1 rs2 => x.result s n rd (rvOp32 op (r rs1) (r rs2))
  | .fence _ _ _ _ _ => x.done s h n
  | .lr dword _ _ rd rs1 =>
    x.atomicAccess s dword (r rs1) fun l =>
      let h := { h with reservation := l.head?.map x.granule }
      x.done s (h.setReg rd (amoLoaded dword (leNat (x.read s l)))) n
  | .sc dword _ _ rd rs1 rs2 =>
    x.atomicAccess s dword (r rs1) fun l =>
      let stands := h.reservation.isSome && h.reservation == l.head?.map x.granule
      let h' := { h with reservation := none }
      if stands then
        let (s, h') := x.write (l.zip (leBytes (if dword then 8 else 4) (r rs2).toNat)) s h'
        x.done s (h'.setReg rd 0) n
      else x.done s (h'.setReg rd 1) n
  | .amo op dword _ _ rd rs1 rs2 =>
    x.atomicAccess s dword (r rs1) fun l =>
      let old := leNat (x.read s l)
      let (s, h) := x.write (l.zip (leBytes (if dword then 8 else 4) (amoBytes op dword old (r rs2)))) s h
      x.done s (h.setReg rd (amoLoaded dword old)) n

/-- HOD_INSTRUCTION. -/
def execHodInstruction (compressed : Bool) (i : HodInstr) (s : State) : Out :=
  onHod s fun x => x.execute s (if compressed then 2 else 4) i
/-- ECALL: cause 6. -/
def execEcall (s : State) : Out := onHod s fun x => x.halt s 6
/-- EBREAK: cause 5, or a debug halt where a debugger is attached to the core. -/
def execEbreak (_ : Bool) (s : State) : Out :=
  onHod s fun x =>
    if (s.debugOf x.core).attached then
      .next (x.put s { x.h with status := 4, haltPc := x.h.pc, reservation := none })
    else x.halt s 5
/-- RESERVATION_EXPIRY: 1,024 f-cycles have passed. -/
def execReservationExpiry (core : Nat) (store : Bool) (s : State) : Out :=
  let h := s.hod core store
  if h.reservation.isSome then .next (s.putHod core store { h with reservation := none }) else .next s

end Sys2Proof.Machine
end

