-- ==== Sys2Proof/Machine/HodCustom.lean ====
section
/-!
DEFINITION. The custom instructions of a hod (R472 to R476): copies, waits on copies, rings and queues.
-/

namespace Sys2Proof.Machine

/-! ### `hcpy` (R473) -/

/-- The copy environment of a hod. -/
def HodCtx.env (x : HodCtx) : CopyEnv := ⟨x.core, 64 + x.store.toNat, x.uid, x.team, x.launch⟩
/-- A ring of the core is configured and owned by a team of the claiming launch. -/
def HodCtx.usable (x : HodCtx) (s : State) (r : SlotRing) : Bool :=
  r.count != 0 && (r.owner.bind s.teams.find).any fun t => t.launch = x.team.launch
/-- The sequence number after n (R473). -/
def hodSeqAfter (n : Nat) : Nat := if n = 0x7FFFFFFF then 1 else n + 1

/-- Issues copy c as the hod's next one, or stalls. -/
def HodCtx.issue (x : HodCtx) (s : State) (rd : Nat) (c : CopyCmd) : Out :=
  let seq := x.h.nextSeq
  if 32 ≤ x.h.ops.length then .next s
  else
    match s.reserveCopy x.env seq c with
    | none => .next s
    | some (s, c) =>
      let op : Op := ⟨seq, .issued, false, none, [], 0, .copy c, 0, s.tick, 0, []⟩
      let h := { x.h with ops := x.h.ops ++ [op], nextSeq := hodSeqAfter seq }
      let h := { h with results := h.results.keep fun n _ => decide (h.since n ≤ 64) }
      x.done s (h.setReg rd (BitVec.ofNat 64 seq)) 4

/-- The checks of R253 with the descriptor at the value of rs1, and what their failures do. -/
def HodCtx.copy (x : HodCtx) (s : State) (fn rd rs1 : Nat) (rows : List Int) : Out :=
  match s.checkCopy x.env (x.usable s) fn (x.h.reg rs1).toNat rows with
  | .ok c => x.issue s rd c
  | .fail order _ _ _ => x.halt s (if order = 3 ∨ order = 4 then 8 else if order = 6 then 10 else 4)

/-- `hcpy` with an index table that the value of rs2 names. -/
def HodCtx.copyRows (x : HodCtx) (s : State) (fn rd rs1 rs2 : Nat) : Out :=
  let v := (x.h.reg rs2).toNat
  let at_ := v % 2 ^ 32
  let n := v / 2 ^ 32
  if at_ % 4 ≠ 0 ∨ 32 < n then x.halt s 7
  else if x.team.kernel.unit < at_ + 4 * n then x.halt s 4
  else
    x.copy s fn rd rs1 ((List.range n).map fun j => signedOf 32 (leNat (s.mem.bytes (x.unitPlace (at_ + 4 * j)) 4)))

/-- hcpy.cpyi. -/
def execHcpyCpyi (rd rs1 : Nat) (s : State) : Out := onHod s fun x => x.copy s 0 rd rs1 []
/-- hcpy.cpyo. -/
def execHcpyCpyo (rd rs1 : Nat) (s : State) : Out := onHod s fun x => x.copy s 1 rd rs1 []
/-- hcpy.cpyg. -/
def execHcpyCpyg (rd rs1 rs2 : Nat) (s : State) : Out := onHod s fun x => x.copyRows s 2 rd rs1 rs2
/-- hcpy.cpys. -/
def execHcpyCpys (rd rs1 rs2 : Nat) (s : State) : Out := onHod s fun x => x.copyRows s 3 rd rs1 rs2
/-- hcpy.tmvl. -/
def execHcpyTmvl (rd rs1 : Nat) (s : State) : Out := onHod s fun x => x.copy s 4 rd rs1 []
/-- hcpy.cpyx. -/
def execHcpyCpyx (rd rs1 : Nat) (s : State) : Out := onHod s fun x => x.copy s 5 rd rs1 []

/-! ### `hwt` (R474) -/

/-- Acts on the copy that the value of rs1 names; bits 63:31 set give cause 7. -/
def HodCtx.onCopy (x : HodCtx) (s : State) (rs1 : Nat) (act : Nat → Out) : Out :=
  let v := (x.h.reg rs1).toNat
  if 2 ^ 31 ≤ v then x.halt s 7 else act v
/-- Copy n is outstanding. -/
def Hod.isOut (h : Hod) (n : Nat) : Bool := h.ops.any fun o => o.seq = n

/-- hwt.wait. -/
def execHwtWait (rd rs1 : Nat) (s : State) : Out :=
  onHod s fun x => x.onCopy s rs1 fun n =>
    if x.h.isOut n then .next s
    else x.result s 4 rd (((x.h.results.find n).getD 0xC0000000).setWidth 64)
/-- hwt.test. -/
def execHwtTest (rd rs1 : Nat) (s : State) : Out :=
  onHod s fun x => x.onCopy s rs1 fun n => x.result s 4 rd (flag64 (!x.h.isOut n))
/-- hwt.cnt. -/
def execHwtCnt (rd : Nat) (s : State) : Out := onHod s fun x => x.result s 4 rd (BitVec.ofNat 64 x.h.ops.length)
/-- hwt.cancel. -/
def execHwtCancel (rd rs1 : Nat) (s : State) : Out :=
  onHod s fun x => x.onCopy s rs1 fun n =>
    let h := { x.h with ops := x.h.ops.map fun (o : Op) => if o.seq = n then { o with cancel := true } else o }
    x.done s (h.setReg rd 0) 4

/-! ### `hring` (R475) -/

/-- Acts on the ring that the value of rs2 names, if it is usable. -/
def HodCtx.onRing (x : HodCtx) (s : State) (rs2 : Nat) (act : Nat → SlotRing → Out) : Out :=
  let n := (x.h.reg rs2).toNat
  if 16 ≤ n then x.halt s 7
  else
    let r := s.ring x.core n
    if x.usable s r then act n r else x.halt s 7

/-- hring.await. -/
def execHringAwait (rd rs1 rs2 : Nat) (s : State) : Out :=
  onHod s fun x => x.onRing s rs2 fun _ r =>
    let k := (x.h.reg rs1).toNat
    if r.count ≤ k then x.halt s 7
    else if r.nfill ≤ k then .next s
    else x.result s 4 rd (BitVec.ofNat 64 (r.slot k))
/-- hring.rel. -/
def execHringRel (_ rs1 rs2 : Nat) (s : State) : Out :=
  onHod s fun x => x.onRing s rs2 fun n r =>
    let k := (x.h.reg rs1).toNat
    if k = 0 ∨ r.count < k then x.halt s 7
    else if r.nfill < k then .next s
    else x.done (s.putRing x.core n (r.drop k)) x.h 4
/-- hring.stat. -/
def execHringStat (rd rs2 : Nat) (s : State) : Out :=
  onHod s fun x => x.onRing s rs2 fun _ r => x.result s 4 rd (r.word.setWidth 64)

/-! ### `hq` (R476) -/

/-- Acts on the queue that the value of rs2 names, if the claiming team has it enabled. -/
def HodCtx.onQueue (x : HodCtx) (s : State) (rs2 : Nat) (act : Nat → Queue → Out) : Out :=
  let n := (x.h.reg rs2).toNat
  if 8 ≤ n then x.halt s 7
  else
    let q := s.queue x.core n
    if q.owner = some x.uid then act n q else x.halt s 7

/-- hq.pop. -/
def execHqPop (rd rs2 : Nat) (s : State) : Out :=
  onHod s fun x => x.onQueue s rs2 fun n q =>
    match q.items with
    | [] => .next s
    | v :: rest => x.result (s.putQueue x.core n { q with items := rest }) 4 rd (v.setWidth 64)
/-- hq.popnb. -/
def execHqPopnb (rd rs2 : Nat) (s : State) : Out :=
  onHod s fun x => x.onQueue s rs2 fun n q =>
    match q.items with
    | [] => x.result s 4 rd 0
    | v :: rest => x.result (s.putQueue x.core n { q with items := rest }) 4 rd (v.setWidth 64 + 0x100000000)
/-- hq.push. -/
def execHqPush (rs1 rs2 : Nat) (s : State) : Out :=
  onHod s fun x => x.onQueue s rs2 fun n q =>
    if q.room = 0 then .next s
    else x.done (s.putQueue x.core n { q with items := q.items ++ [(x.h.reg rs1).setWidth 32] }) x.h 4
/-- hq.pushnb. -/
def execHqPushnb (rd rs1 rs2 : Nat) (s : State) : Out :=
  onHod s fun x => x.onQueue s rs2 fun n q =>
    x.result (s.putQueue x.core n (q.pushDropping [(x.h.reg rs1).setWidth 32])) 4 rd (flag64 (q.room != 0))

end Sys2Proof.Machine
end

