-- ==== Sys2Proof/Machine/Answers.lean ====
section
/-!
DEFINITION. The host's side of recoverable faults: FAULT_RESPONSE, which reads one answer (R191, R192), and
FAULT_RING_RPTR_ADVANCE, after which held-back records are written (R491).
-/

namespace Sys2Proof.Machine

/-! ### The parked work of a fault -/

/-- Changes the operations parked on fault n. -/
def unparkOps (n : Nat) (l : List Op) : List Op :=
  l.map fun (o : Op) => if o.parked = some n then { o with parked := none } else o
/-- A fault goes away from a fragment or a handler, to be replayed, or refused with a TRAPINFO1 of its own. -/
def FragFault.answered (f : FragFault) (refusal : Option W32) : Option FragFault :=
  refusal.map fun info => { f with info1 := info, refused := true }
/-- A group goes on after fault n: the instruction is replayed, or is refused (R191). -/
def Group.answerFault (g : Group) (n : Nat) (refusal : FragFault → Option W32) : Group :=
  let frag (f : Fragment) : Fragment :=
    match f.fault with
    | some p => if p.id = n then { f with fault := p.answered (refusal p) } else f
    | none => f
  { g with
    park := if g.park = some n then none else g.park
    hpark := if g.hpark = some n then none else g.hpark
    hfault := match g.hfault with
      | some p => if p.id = n then p.answered (refusal p) else some p
      | none => none
    frags := g.frags.map frag
    classes := g.classes.mapValues fun _ k => if (refusal default).isSome then k else { k with ops := unparkOps n k.ops } }

/-- Work parked on fault n is replayed, and the fault is no longer outstanding. -/
def State.retryFault (s : State) (n : Nat) : State :=
  { s with
    faults := s.faults.erase n
    groups := s.groups.mapValues fun _ g => g.answerFault n fun _ => none
    hods := s.hods.mapValues fun _ h => { h with ops := unparkOps n h.ops } }
/-- An operation is parked on fault n. -/
def State.parksOp (s : State) (n : Nat) : Bool :=
  (s.groups.values.any fun g => g.classes.values.any fun k => k.ops.any fun o => o.parked = some n) ||
    s.hods.values.any fun h => h.ops.any fun o => o.parked = some n
/-- Work parked on fault n is refused: a group's replay traps with the TRAPINFO1 that info makes, and an operation ends
at its engine's next turn, until when the record stays. -/
def State.refuseFault (s : State) (n : Nat) (info : FragFault → W32) : State :=
  { s with
    faults := if s.parksOp n then s.faults.modify n fun r => { r with answer := some 1 } else s.faults.erase n
    groups := s.groups.mapValues fun _ g => g.answerFault n fun p => some (info p) }

/-! ### Answers (R192, R491) -/

/-- What the device does with the 8 bytes of an answer: one that names no outstanding record of the context is
discarded. What another ACTION than 0 and 1 does is open (notes/assumptions/12.md). -/
def State.takeAnswer (s : State) (ctx : Nat) (b : List Byte) : State :=
  let n := field b 0 4
  let action := field b 4 1
  match s.faults.find n with
  | none => s
  | some r =>
    if r.ctx ≠ ctx ∨ !r.delivered ∨ r.answer.isSome then s
    else
      match (if action < 2 then action else Config.choice s.tick 0x500 % 3) with
      | 0 => s.retryFault n
      | 1 => s.refuseFault n (·.info1)
      | _ => s

/-- An answer cannot be read: an entry of TYPE 6, and the work stays parked until the host's next WPTR write. -/
def State.missAnswer (s : State) (ctx : Nat) : State :=
  { s.logError 6 0 0 ctx (s.context ctx).faultResp 1 with
    contexts := s.contexts.modify ctx fun c => { c with respStuck := true } }

/-- FAULT_RESPONSE: the device reads the answer at RPTR of a context's response ring, advances RPTR, and acts on it. -/
def execFaultResponse (ctx : Nat) (s : State) : Out :=
  let c := s.context ctx
  let ring := c.faultResp.toNat
  if !c.live || ring == 0 || c.respStuck then .next s
  else
    match s.readVirt ctx ring 12 with
    | none => .next (s.missAnswer ctx)
    | some h =>
      let size := field h 0 4
      let rptr := field h 8 4
      if field h 4 4 = rptr then .next s
      else
        match s.readVirt ctx (ring + 64 + 8 * (if size = 0 then 0 else rptr % size)) 8 with
        | none => .next (s.missAnswer ctx)
        | some b =>
          match s.writeVirt ctx (ring + 8) (leBytes 4 (rptr + 1)) with
          | none => .next (s.missAnswer ctx)
          | some s => .next (s.takeAnswer ctx b)

/-! ### Records held back (R491) -/

/-- The TRAPINFO1 that a record's fault has in a context without a fault ring: the refusal's, with the record's LEVEL and
KIND. -/
def FaultRecord.ownInfo (r : FaultRecord) (p : FragFault) : W32 :=
  BitVec.ofNat 32 (p.info1.toNat / 2 ^ 18 * 2 ^ 18 + field r.bytes 0x0F 1 % 4 * 2 ^ 16 + field r.bytes 0x08 1 * 2 ^ 8 +
    p.info1.toNat % 2 ^ 8)
/-- Writes the held-back records of a context, oldest first, while the ring has room. -/
def State.deliverRecords (ctx : Nat) : List (Nat × FaultRecord) → State → State
  | [], s => s
  | (n, r) :: rest, s =>
    match s.writeRecord ctx r.bytes with
    | none => State.deliverRecords ctx rest ((s.logError 6 0 0 ctx (s.context ctx).faultRing 1).refuseFault n r.ownInfo)
    | some (_, false) => s
    | some (s, true) =>
      State.deliverRecords ctx rest { s with faults := s.faults.modify n fun q => { q with delivered := true } }
/-- The records of a context that are held back, oldest first. -/
def State.heldRecords (s : State) (ctx : Nat) : List (Nat × FaultRecord) :=
  s.faults.entries.filter fun e => e.2.ctx = ctx ∧ !e.2.delivered ∧ e.2.answer.isNone

/-- The place of a byte of a context's memory, if its page is mapped. -/
def State.placeOf (s : State) (ctx va : Nat) : Option Nat :=
  match s.walk ctx va with
  | .leaf level e _ => some (leafPlace level e va).1
  | .fail _ _ _ => none

/-- FAULT_RING_RPTR_ADVANCE: the host advances RPTR of a context's fault ring, and held-back records follow. -/
def execFaultRingRptrAdvance (ctx rptr : Nat) (s : State) : Out :=
  let ring := (s.context ctx).faultRing.toNat
  match s.faultRing ctx, (List.range 4).mapM fun i => s.placeOf ctx (ring + 8 + i) with
  | some (_, wptr, old), some ps =>
    let ahead (x : Nat) : Nat := (x + 2 ^ 32 - old) % 2 ^ 32
    if !(s.context ctx).live || decide (ahead wptr < ahead rptr) then .next s
    else
      let s := s.scatter (ps.zip (leBytes 4 rptr))
      .next (State.deliverRecords ctx (s.heldRecords ctx) s)
  | _, _ => .next s

end Sys2Proof.Machine
end

