-- ==== Sys2Proof/Machine/Window.lean ====
section
/-!
DEFINITION. The first memory window of a port (R483): DEVSTAT (R484), the ring table (R397), the mailbox (R488), the
error log (R493) and the capability structures (R485); HOST_ACCESS and PEER_ACCESS (R222, R439).
-/

namespace Sys2Proof.Machine

/-! ### What the window holds -/

/-- DEVSTAT (R484). -/
def State.devstat (s : State) : Nat :=
  s.ready.toNat * 2 ^ 31 + s.failed.toNat * 2 ^ 30 + s.stage % 256 * 2 ^ 16 + s.fwSlot % 256 * 2 ^ 8 + s.fwVersion % 256

/-- The IDs of the capability structures that the part has, in the order of the walk (R485). -/
def capabilities : List Nat := [1, 2, 3, 4, 5, 6].filter Config.offers
/-- The window offset of structure i of the walk, within a block of 256 bytes (notes/assumptions/8.md). -/
def capPlace (i : Nat) : Nat := 0x8000 + 256 * i + 8 * (Config.capOffset (capabilities.getD i 0) % 16)
/-- CAPPTR, or NEXT of structure i − 1. -/
def capNext (i : Nat) : Nat := if i < capabilities.length then capPlace i else 0
/-- The bitmap of fused-off cores (R485). -/
def fusedByte (i : Nat) : Byte :=
  BitVec.ofNat 8 (((List.range 8).filter fun b => Config.fusedCore (8 * i + b)).foldl (fun n b => n + 2 ^ b) 0)
/-- A capability's body: what R485 gives of it. -/
def capBody (id i : Nat) : Byte :=
  if id = 6 ∧ i < 48 then fusedByte i
  else if (id = 1 ∨ id = 2) ∧ i = 0 then Config.capBody id 0 ||| 1
  else Config.capBody id i
/-- The 128 bytes of structure i. -/
def capBytes (i : Nat) : List Byte :=
  let id := capabilities.getD i 0
  leBytes 2 id ++ leBytes 2 (Config.capVersion id) ++ leBytes 4 (capNext (i + 1)) ++ (List.range 120).map (capBody id)

/-- A ring control block (R397). -/
def WorkRing.block (r : WorkRing) : List Byte :=
  leBytes 8 r.base.toNat ++ leBytes 4 r.size.toNat ++
    leBytes 4 (r.enable.toNat + 2 * r.intren.toNat + 4 * r.halted.toNat) ++ leBytes 4 r.wptr.toNat ++
    leBytes 4 r.rptr.toNat ++ leBytes 8 0 ++ r.error ++ leBytes 16 0
/-- The mailbox as it reads; BELL is write-only (R488). -/
def Mailbox.block (m : Mailbox) : List Byte := leBytes 4 m.op.toNat ++ leBytes 4 m.mstat.toNat ++ m.args ++ leBytes 8 0
/-- A mailbox as bring-up leaves it. -/
def Mailbox.idle : Mailbox := ⟨0, 0, List.replicate 48 0, none, false⟩
def State.mailbox (s : State) (port : Nat) : Mailbox := s.mailboxes.get port Mailbox.idle
def State.putMailbox (s : State) (port : Nat) (m : Mailbox) : State := { s with mailboxes := s.mailboxes.set port m }
/-- Entry i of the error log (R493). -/
def State.logBytes (s : State) (i : Nat) : List Byte :=
  match s.errorLog.find i with
  | none => leBytes 32 0
  | some e =>
    leBytes 1 e.kind ++ leBytes 1 e.site ++ leBytes 2 e.core ++ leBytes 2 e.ctx ++ leBytes 2 0 ++ leBytes 8 e.addr.toNat ++
      leBytes 4 e.count.toNat ++ leBytes 12 0

/-- The byte at an offset of a port's window, as a read returns it. -/
def State.windowByte (s : State) (port off : Nat) : Byte :=
  if off < 4 then (leBytes 4 s.devstat).getD off 0
  else if !s.ready then 0
  else if off < 8 then (leBytes 4 (capNext 0)).getD (off - 4) 0
  else if off < 12 then (leBytes 4 (Config.domainSize % 512 * 2 ^ 16 + Config.moduleIndex % 256)).getD (off - 8) 0
  else if 0x1000 ≤ off ∧ off < 0x2000 then (s.workRing port ((off - 0x1000) / 64)).block.getD (off % 64) 0
  else if 0x3000 ≤ off ∧ off < 0x3040 then (s.mailbox port).block.getD (off - 0x3000) 0
  else if 0x4000 ≤ off ∧ off < 0x4020 then (leBytes 32 s.errorWptr.toNat).getD (off - 0x4000) 0
  else if 0x4020 ≤ off ∧ off < 0x4820 then (s.logBytes ((off - 0x4020) / 32)).getD (off % 32) 0
  else if 0x8000 ≤ off ∧ off < 0x10000 then
    let i := (off - 0x8000) / 256
    if i < capabilities.length ∧ capPlace i ≤ off then (capBytes i).getD (off - capPlace i) 0 else 0
  else 0

/-! ### Writes of the window -/

/-- The bytes of a block at an offset of the window, with those that a write of the window replaces. -/
def overlay (block : List Byte) (at_ off : Nat) (bytes : List Byte) : List Byte :=
  ((List.range block.length).zip block).map fun p =>
    if off ≤ at_ + p.1 then bytes.getD (at_ + p.1 - off) p.2 else p.2
/-- A write covers an offset of the window. -/
def covers (off : Nat) (bytes : List Byte) (x : Nat) : Bool := decide (off ≤ x) && decide (x < off + bytes.length)

/-- A ring control block after a write: HALTED is read-only, RESUME clears it, and RPTR takes a value only while it is
set (R397). -/
def WorkRing.written (r : WorkRing) (at_ off : Nat) (bytes : List Byte) : WorkRing :=
  let b := overlay r.block at_ off bytes
  let ctl := field b 0x0C 4
  { r with
    base := BitVec.ofNat 64 (field b 0 8), size := BitVec.ofNat 32 (field b 8 4)
    enable := ctl % 2 == 1, intren := ctl / 2 % 2 == 1, halted := r.halted && ctl / 8 % 2 == 0
    wptr := BitVec.ofNat 32 (field b 0x10 4)
    rptr := if r.halted then BitVec.ofNat 32 (field b 0x14 4) else r.rptr }

/-- The refused or completed state of a mailbox. -/
def Mailbox.ended (m : Mailbox) (code : Option Nat) : Mailbox :=
  { m with
    current := none, begun := false
    mstat := match code with
      | none => 2
      | some c => BitVec.ofNat 32 (c * 2 ^ 16 + 3) }
/-- A mailbox after a write: BELL starts OP with the arguments as they stand, unless a command is busy; an OP that
names no command is refused (R488). -/
def Mailbox.written (m : Mailbox) (off : Nat) (bytes : List Byte) : Mailbox :=
  let b := overlay m.block 0x3000 off bytes
  let m := { m with op := BitVec.ofNat 32 (field b 0 4), args := (b.drop 8).take 48 }
  if m.current.isSome || field b 0x38 4 != 1 then m
  else if 1 ≤ m.op.toNat ∧ m.op.toNat ≤ 5 then { m with current := some (m.op.toNat, m.args), begun := false, mstat := 1 }
  else m.ended (some 1)

/-- A posted write to a port's window. -/
def State.writeWindow (s : State) (port off : Nat) (bytes : List Byte) : State :=
  if !s.ready then s
  else
    let s := (List.range 64).foldl (fun s n =>
      let at_ := 0x1000 + 64 * n
      if off < at_ + 64 ∧ at_ < off + bytes.length then
        s.putWorkRing port n ((s.workRing port n).written at_ off bytes)
      else s) s
    if off < 0x3040 ∧ 0x3000 < off + bytes.length then s.putMailbox port ((s.mailbox port).written off bytes) else s

/-! ### HOST_ACCESS and PEER_ACCESS -/

/-- A write of the host to these places counts as a WPTR write of every response ring whose WPTR lies there (R491). -/
def State.afterHostWrite (s : State) (places : List Nat) : State :=
  { s with contexts := s.contexts.mapValues fun n c =>
    if c.respStuck && (List.range 4).any (fun i => (s.placeOf n (c.faultResp.toNat + 4 + i)).any places.contains) then
      { c with respStuck := false }
    else c }

/-- An access from outside to bytes that lie at consecutive places; a read changes nothing. -/
def State.outerAct (s : State) (at_ : Nat) (act : OuterAct) : State :=
  match act with
  | .read _ => s
  | .write b => s.storeBytes at_ b
  | .atomicAdd x => s.storeBytes at_ (leBytes 8 (leNat (s.mem.bytes at_ 8) + x.toNat))
/-- The places of HBM that an access to a physical address touches, one by one: die-local, backed, on a die that is up,
and not secure unless the access is. -/
def State.outerPlaces (s : State) (pa n : Nat) : Option Nat :=
  let secure := Config.outerSecure s.tick
  if hbmBacked false pa n && s.dieReset.get (pa / 2 ^ 38) 0 != 2 &&
      (secure || !(List.range n).any fun i => s.securePa (pa + i)) then some (hbmPlace false pa) else none
/-- Bytes that an access touches. -/
def outerSize : OuterAct → Nat
  | .read n => n
  | .write b => b.length
  | .atomicAdd _ => 8

/-- HOST_ACCESS: a posted write, a read or an atomic of a host port to its window or to device memory, or of the host to
its own memory behind the port. A read returns `State.windowByte` or the bytes of memory, and changes nothing. -/
def execHostAccess (port : Nat) (target : HostTarget) (act : OuterAct) (s : State) : Out :=
  if 2 ≤ port then .next s
  else
    match target with
    | .window off =>
      match act with
      | .write b => .next (s.writeWindow port off b)
      | _ => .next s
    | .hbm pa =>
      if !s.ready then .next s
      else
        match s.outerPlaces pa (outerSize act) with
        | some a => .next ((s.outerAct a act).afterHostWrite ((List.range (outerSize act)).map (a + ·)))
        | none => .next s
    | .hostMemory pa =>
      if 2 ^ 48 < pa + (outerSize act) then .next s
      else
        let a := hostKey port pa
        .next ((s.outerAct a act).afterHostWrite ((List.range (outerSize act)).map (a + ·)))

/-- PEER_ACCESS: an agent of a peer module reads, writes or changes HBM of this module at its home (R208, R439). -/
def execPeerAccess (peer pa : Nat) (act : OuterAct) (s : State) : Out :=
  if !s.ready || decide (Config.domainSize ≤ peer) || peer == Config.moduleIndex || s.unreachable.contains peer then .next s
  else
    match s.outerPlaces pa (outerSize act) with
    | some a => .next (s.outerAct a act)
    | none => .next s

end Sys2Proof.Machine
end

