-- ==== Sys2Proof/Machine/System.lean ====
section
/-!
DEFINITION. The system controller: bring-up (R486), module reset, SPDM (R487), the mailbox commands (R488): invalidation
(R490), pre-emption, die resets with their routes (R15, R494, R495), live update (R497, R498) and security writes (R489);
debug halts (R496) and throttling (R499); and the illegal instruction (R53).
-/

namespace Sys2Proof.Machine

/-! ### Bring-up (R486, R487) -/

/-- The places of the module's own stores hold zeros; what lies behind its ports stays. -/
def Memory.zeroModule (m : Memory) : Memory := (m.clear 0 (2 ^ 48)).clear (2 ^ 60) (2 ^ 63)

/-- A kiln as self-calibration leaves it, DEGRADED where its self-test failed. -/
def Kiln.broughtUp (bad : Bool) : Kiln :=
  { Kiln.fresh with degraded := bad, shown := { Kiln.fresh.shown with degraded := bad } }

/-- An image of bytes, measured as SPDM index 2. -/
def fwImageOf (b : List Byte) : FwImage := ⟨b, Config.fwVersionOf b, Config.fwMeasure b⟩
/-- The image that the boot at a tick selects. -/
def bootImage (tick : Nat) : FwImage := fwImageOf (Config.slotImage tick (Config.bootSlot tick % 2))

/-- POWER_GOOD: the stages run to READY, or to the failure of stage failStage; degraded lists the cores whose kilns fail
their self-test. -/
def execPowerGood (failStage : Nat) (degraded : List Nat) (s : State) : Out :=
  if s.ready || s.failed || decide (5 < failStage) then .next s
  else
    let past (n : Nat) : Bool := failStage == 0 || decide (n < failStage)
    let s :=
      if past 2 then
        { s with
          fwSlot := Config.bootSlot s.tick % 2, fwVersion := (bootImage s.tick).version
          fwImages := (Map.empty.set (Config.bootSlot s.tick % 2) (bootImage s.tick)).set (1 - Config.bootSlot s.tick % 2)
            (fwImageOf (Config.slotImage s.tick (1 - Config.bootSlot s.tick % 2)))
          measurements := ([1, 3, 4].foldl (fun m i => m.set i (Config.measurement s.tick i)) s.measurements).set 2
            (bootImage s.tick).measure }
      else s
    let kilns := (degraded.filter (· < 384)).foldl (fun m c => m.set c (Kiln.broughtUp true)) s.kilns
    let s := if past 3 then { s with kilns := kilns } else s
    let s := if past 4 then { s with mem := s.mem.zeroModule } else s
    .next (if failStage = 0 then { s with ready := true, stage := 6 } else { s with failed := true, stage := failStage })

/-- MODULE_RESET: the machine as after reset, but for what lies outside the module and the model's own fields. -/
def execModuleReset (s : State) : Out :=
  .next { State.reset with tick := s.tick, turns := s.turns, cur := s.cur, ir := s.ir, mem := s.mem.zeroModule }

/-- SPDM responds once bring-up is past stage 2 or has failed there (R486). -/
def State.spdmUp (s : State) : Bool := s.ready || (s.failed && decide (2 ≤ s.stage))

/-- SPDM_SESSION: a session is opened or closed, or its keys are set; a measurement that is read is
`State.measurements` at its index, and nothing changes (R482, R487). -/
def execSpdmSession (port : Nat) (act : SpdmAct) (s : State) : Out :=
  if 2 ≤ port ∨ !s.spdmUp then .next s
  else
    match act with
    | .openSession => .next { s with sessions := if s.sessions.contains port then s.sessions else port :: s.sessions }
    | .readMeasurement _ => .next s
    | .setIdeKeys =>
      .next (if s.sessions.contains port && !s.ide.contains port then { s with ide := port :: s.ide } else s)
    | .closeSession => .next { s with sessions := s.sessions.filter (· ≠ port) }

/-! ### Mailbox commands (R488) -/

/-- A command of a port ends, refused with a code or completed. -/
def State.endCommand (s : State) (port : Nat) (code : Option Nat) : State := s.putMailbox port ((s.mailbox port).ended code)
/-- Acts on the arguments of command op if it is in progress at a port; commands wait while an update runs (R498). -/
def onCommand (s : State) (port op : Nat) (act : List Byte → State) : Out :=
  match (s.mailbox port).current with
  | some (n, b) => .next (if n = op ∧ s.ready ∧ (s.update.isNone ∨ op = 4) then act b else s)
  | none => .next s

/-- A context number names a live context of a port. -/
def State.ownContext (s : State) (port ctx : Nat) : Bool :=
  decide (ctx < 4096) && (s.context ctx).live && (s.context ctx).port == port

/-- TRANSLATION_INVALIDATION: no translation of the range in the context stays in a buffer (R490). Accesses of the model
translate when they issue, and those that have issued are performed before this event (`endsAccesses`), so that none that used an old
entry is left. -/
def execTranslationInvalidation (port : Nat) (s : State) : Out :=
  onCommand s port 1 fun b =>
    let ctx := field b 0 4
    let va := field b 8 8
    let len := field b 16 8
    if !s.ownContext port ctx || !zeros b 4 4 then s.endCommand port (some 1)
    else
      let gone (t : TlbEntry) : Bool := t.ctx == ctx && (len == 0 || (decide (t.base < va + len) && decide (va < t.base + t.size)))
      { s with tlb := s.tlb.filter fun t => !gone t }.endCommand port none

/-- PRE_EMPT: a team is asked to leave its core under the bound of the command, which is done once it has left (R427); while a
core of those that leave is halted it waits (R496). -/
def execPreEmpt (port elapsed retire : Nat) (s : State) : Out :=
  onCommand s port 2 fun b =>
    let begun := (s.mailbox port).begun
    let named :=
      if !s.ownContext port (field b 0 4) then none
      else if begun then
        (s.teamsNamed (field b 0 4) (field b 4 4) (field b 8 4)).find? fun u => (s.teams.find u).any fun t => t.leaving ≠ 0
      else s.teamNamed (field b 0 4) (field b 4 4) (field b 8 4)
    match named with
    | none => s.endCommand port (if begun then none else some 1)
    | some uid =>
      if s.anyHalted (s.companions uid) then s
      else
        let s := s.request uid (field b 12 4) elapsed retire
        if (s.teams.find uid).isNone then s.endCommand port none
        else s.putMailbox port { s.mailbox port with begun := true }

/-! ### Routes (R15, R495) -/

/-- The dies from column x0 to x1 of row y, both included. -/
def alongX (x0 x1 y : Nat) : List Nat :=
  if x0 ≤ x1 then (List.range (x1 - x0 + 1)).map fun i => x0 + i + 4 * y
  else (List.range (x0 - x1 + 1)).map fun i => x0 - i + 4 * y
/-- The dies from row y0 to y1 of column x. -/
def alongY (x y0 y1 : Nat) : List Nat := if y0 = y1 then [x + 4 * y0] else [x + 4 * y0, x + 4 * y1]

/-- The route of R15 from die a to die b: along dx, then along dy. -/
def plainRoute (a b : Nat) : List Nat := alongX (a % 4) (b % 4) (a / 4) ++ (alongY (b % 4) (a / 4) (b / 4)).drop 1
/-- The alternates of R495, in order. -/
def otherRoutes (a b : Nat) : List (List Nat) :=
  (alongY (a % 4) (a / 4) (b / 4) ++ (alongX (a % 4) (b % 4) (b / 4)).drop 1) ::
    (if a / 4 = b / 4 ∧ a ≠ b then
      [a :: (alongX (a % 4) (b % 4) (1 - a / 4) ++ [b])]
    else [])
/-- The route between two working dies while the listed dies are in full reset. -/
def dieRoute (down : List Nat) (a b : Nat) : Option (List Nat) :=
  (plainRoute a b :: otherRoutes a b).find? fun r => r.all fun d => !down.contains d

/-- The dies that are linked to the hub, and the one that R15 gives a die. -/
def hubDies : List Nat := [1, 2, 5, 6]
def plainHub (d : Nat) : Nat := (if d % 4 ≤ 1 then 1 else 2) + 4 * (d / 4)
/-- The linked die through which a working die reaches the hub, and the route to it: the fewest hops, then the linked die
of R15, then the die's own row, then the lower dx. -/
def hubRoute (down : List Nat) (d : Nat) : Option (List Nat) :=
  let cand := (hubDies.filter fun h => !down.contains h).filterMap fun h => (dieRoute down d h).map fun r => (h, r)
  let rank (p : Nat × List Nat) : Nat :=
    p.2.length * 64 + (if p.1 = plainHub d then 0 else 32) + (if p.1 / 4 = d / 4 then 0 else 16) + p.1 % 4
  (cand.foldl (fun best p =>
    match best with
    | some q => if rank p < rank q then some p else some q
    | none => some p) none).map (·.2)

/-- Every pair of working dies and every working die with the hub keeps a route. -/
def routesKeep (down : List Nat) : Bool :=
  let up := (List.range 8).filter fun d => !down.contains d
  up.all fun a => (hubRoute down a).isSome && up.all fun b => (dieRoute down a b).isSome

/-! ### Die resets (R494, R495) -/

/-- The dies in full reset. -/
def State.downDies (s : State) : List Nat := (List.range 8).filter fun d => s.dieReset.get d 0 = 2
/-- A team is placed on a die, or the claim on one of its hods is held. -/
def State.dieInUse (s : State) (d : Nat) : Bool :=
  (s.teams.values.any fun t => dieOf t.core = d) || s.hods.entries.any fun e => dieOf (e.1 / 2) = d ∧ e.2.claim.isSome

/-- A die's cores, stores and engines are cleared. What was measured of its kilns stays. -/
def State.clearDie (s : State) (d : Nat) : State :=
  let away {α : Type} (m : Map α) (n : Nat) : Map α := m.keep fun k _ => dieOf (k / n) ≠ d
  { s with
    mem := (s.mem.clear (unitKey (48 * d) 0) (unitKey (48 * d + 48) 0)).clear (dieKey d 0) (dieKey (d + 1) 0)
    queues := away s.queues 8
    rings := away s.rings 16
    seqSlots := away s.seqSlots (2 ^ 14)
    hods := away s.hods 2
    margins := away s.margins 1
    kilns := s.kilns.mapValues fun c k => if dieOf c = d then k.released else k
    scoreboard := s.scoreboard.filter fun e => dieOf e.core ≠ d
    staging := s.staging.filter fun e => !(decide (e.home < 384 ∧ dieOf e.home = d) || e.home == 1000 + d) }
/-- A die's HBM loses what it held: any contents may stand there (R494). -/
def State.loseHbm (s : State) (d : Nat) : State :=
  let cells := (Config.lostHbm s.tick d).filter fun c => decide (c.1 < hbmBytes)
  { s with
    mem := cells.foldl (fun m c => m.put (hbmKey d c.1) c.2) (s.mem.clear (hbmKey d 0) (hbmKey (d + 1) 0))
    staging := s.staging.filter fun e => e.home ≠ 2000 + d }

/-- Acts on the die that command 3 of a port names, if the command asks for a level: it is refused, or its reset begins, which drains the
fabric, and is done in a later turn. -/
def onDie (s : State) (port level : Nat) (refusal : Nat → Option Nat) (act : Nat → State) : Out :=
  onCommand s port 3 fun b =>
    let d := field b 0 4
    if 2 < field b 4 4 then s.endCommand port (some 1)
    else if field b 4 4 ≠ level then s
    else if 8 ≤ d then s.endCommand port (some 1)
    else
      match refusal d with
      | some code => s.endCommand port (some code)
      | none =>
        if (s.mailbox port).begun then (act d).endCommand port none
        else s.putMailbox port { s.mailbox port with begun := true }
/-- A reset of a die that the other port has asked for is in progress. -/
def State.resetting (s : State) (port : Nat) : Bool :=
  s.mailboxes.entries.any fun e => e.1 != port && e.2.begun && (e.2.current.map (·.1)) == some 3

/-- RETURN_TO_SERVICE (LEVEL 0). -/
def execReturnToService (port : Nat) (s : State) : Out :=
  onDie s port 0 (fun _ => none) fun d => { s with dieReset := s.dieReset.erase d }
/-- COMPUTE_RESET (LEVEL 1); a die in full reset stays there. -/
def execComputeReset (port : Nat) (s : State) : Out :=
  onDie s port 1 (fun d => if s.dieInUse d then some 3 else none) fun d =>
    let level := max 1 (s.dieReset.get d 0)
    { s.clearDie d with dieReset := s.dieReset.set d level }
/-- FULL_RESET (LEVEL 2). -/
def execFullReset (port : Nat) (s : State) : Out :=
  onDie s port 2 (fun d => if s.dieInUse d then some 3 else if !routesKeep (d :: s.downDies) then some 4 else none) fun d =>
    { (s.clearDie d).loseHbm d with dieReset := s.dieReset.set d 2 }

/-! ### Live update (R497, R498) -/

/-- The image in a slot, none being an empty one. -/
def State.fwImage (s : State) (slot : Nat) : FwImage := s.fwImages.get slot ⟨[], 0, []⟩
/-- FIRMWARE_UPDATE: the image, which lies behind the port (notes/assumptions/10.md), is refused or written into the inactive slot and
measured, and the rings stop (steps 1 to 4). What the update's sender says of its signature and version counts for nothing: the
controller reads both from the image. Step 4 hands over nothing that the model does not keep in its state. -/
def execFirmwareUpdate (port : Nat) (_ : Bool) (_ : Nat) (s : State) : Out :=
  onCommand s port 4 fun b =>
    let at_ := field b 0 8
    let len := field b 8 4
    let slot := field b 12 4
    match s.update with
    | some u => if u.1 = port then s else s.endCommand port (some 5)
    | none =>
      if s.resetting port then s.endCommand port (some 5)
      else if 2 ^ 48 < at_ + len ∨ slot ≠ 1 - s.fwSlot then s.endCommand port (some 1)
      else
        let img := s.mem.bytes (hostKey port at_) len
        if !Config.fwVerifies img || decide (Config.fwVersionOf img < s.fwVersion) then s.endCommand port (some 1)
        else { s with fwImages := s.fwImages.set slot (fwImageOf img), update := some (port, slot) }
/-- FIRMWARE_HEARTBEAT: the new image becomes active and the rings resume. -/
def execFirmwareHeartbeat (s : State) : Out :=
  match s.update with
  | none => .next s
  | some (port, slot) =>
    .next ({ s with
      update := none, fwSlot := slot, fwVersion := (s.fwImage slot).version
      measurements := s.measurements.set 2 (s.fwImage slot).measure }.endCommand port none)
/-- HEARTBEAT_TIMEOUT: the old image goes on, and the command is refused with code 1. -/
def execHeartbeatTimeout (s : State) : Out :=
  match s.update with
  | none => .next s
  | some (port, _) => .next ({ s with update := none }.endCommand port (some 1))

/-! ### Security writes (R489) -/

/-- An entry of the region table from its 16 bytes, if its fields are in their limits. -/
def readSecRegion (b : List Byte) : Option SecRegion :=
  if field b 0 8 % 2 ^ 16 ≠ 0 ∨ 2 ^ 48 ≤ field b 0 8 ∨ 1 < field b 12 1 ∨ !zeros b 13 3 then none
  else some ⟨field b 0 8, field b 8 4, field b 12 1 == 1⟩

/-- SECURITY_WRITE: the region table and the world bits become those of the image, over an SPDM session and while no launch
is live. The image lies behind the port, and of more than 128 entries the first 128 are taken (notes/assumptions/10.md). -/
def execSecurityWrite (port : Nat) (s : State) : Out :=
  onCommand s port 5 fun b =>
    let at_ := field b 0 8
    let len := field b 8 4
    if !s.sessions.contains port || s.launches.values != [] then s.endCommand port (some 2)
    else if 2 ^ 48 < at_ + len ∨ len % 16 ≠ 0 then s.endCommand port (some 1)
    else
      let img := s.mem.bytes (hostKey port at_) len
      match (List.range (min 128 (len / 16))).mapM fun i => readSecRegion ((img.drop (16 * i)).take 16) with
      | none => s.endCommand port (some 1)
      | some l =>
        { s with
          secRegions := l
          secBlocks := (List.range (16 * 384 + 1)).filter (Config.secureBlock img)
          measurements := s.measurements.set 3 (Config.measurement s.tick 3) }.endCommand port none

/-! ### Debug halts (R496) -/

/-- A core that the part has. -/
def isCore (core : Nat) : Bool := decide (core < 384)

/-- HALT. -/
def execHalt (core : Nat) (s : State) : Out := .next (if isCore core then s.haltCore core else s)
/-- FREEZE: a halt under which the engines hold at their next boundary. -/
def execFreeze (core : Nat) (s : State) : Out :=
  if !isCore core then .next s
  else
    let s := s.haltCore core
    .next { s with debugs := s.debugs.set core { s.debugOf core with frozen := true } }
/-- RESUME: groups, hods and whatever was held go on. -/
def execDebugResume (core : Nat) (s : State) : Out :=
  if !isCore core then .next s
  else
    let go (h : Hod) : Hod := if h.status = 4 then { h with status := 2 } else h
    let saving (g : Group) : Bool := (s.teams.find g.team).any fun t => t.leaving = 2
    .next { s with
      debugs := s.debugs.set core { s.debugOf core with halted := false, frozen := false }
      hods := (s.hods.modify (2 * core) go).modify (2 * core + 1) go
      groups := s.groups.mapValues fun k g =>
        if k / 64 = core then { g with reversal := g.reversal.map fun r => { r with paused := saving g } } else g }
/-- BPEN: `brk` halts the core from now on. -/
def execBpen (core : Nat) (s : State) : Out :=
  .next (if isCore core then { s with debugs := s.debugs.set core { s.debugOf core with bpen := true } } else s)
/-- DEBUG_ATTACH: an attach is made or removed (R471). -/
def execDebugAttach (core : Nat) (on : Bool) (s : State) : Out :=
  .next (if isCore core then { s with debugs := s.debugs.set core { s.debugOf core with attached := on } } else s)

/-- An operation has still to write a store: what it has not done includes writes of the unit store, the die store or the cluster
window. -/
def Op.writesStore (o : Op) : Bool :=
  !o.isDone && match o.cmd with
  | .copy c => c.fn % 2 = 0 || c.fn = 5 || !c.record.any fun r => r.space = 0
  | .matrix (.tmovo ..) _ | .matrix (.adrn ..) _ => true
  | .matrix _ log => log.isSome
  | .kiln (.kread ..) => true
  | .seqr (.sqsig ..) | .seqr (.sqmap ..) | .seqr (.sqend ..) | .seqr (.sqcfg _ _ false) | .seqr (.sqrst ..) => true
  | .coll c => c.fn == 3
  | _ => false
/-- DBGSTAT of a core. Freezing holds the engines, so that QUIET waits only for stores and atomics that have issued and are not
performed (R496). -/
def State.dbgstat (s : State) (core : Nat) : Nat :=
  let d := s.debugOf core
  let gs := (s.groups.entries.filter fun e => e.1 / 64 = core).map (·.2)
  let hs := [s.hod core false, s.hod core true]
  let ops := gs.flatMap (fun g => g.classes.values.flatMap (·.ops)) ++ hs.flatMap (·.ops)
  let copies := (gs.map fun g => (g.cls 0).ops.length).foldl (· + ·) 0
  let all := (gs.map fun g => (g.classes.values.map fun k => k.ops.length).foldl (· + ·) 0).foldl (· + ·) 0
  let late := gs.flatMap (·.late) ++ hs.flatMap (·.late)
  let quiet := d.halted && (d.frozen || !ops.any Op.writesStore) && !late.any Late.writes
  d.halted.toNat * 2 ^ 31 + d.frozen.toNat * 2 ^ 30 + quiet.toNat * 2 ^ 29 +
    d.bpen.toNat * 2 ^ 28 + min 255 copies * 2 ^ 16 + min 255 (all - copies) * 2 ^ 8 +
    (hs.map fun h => h.ops.length).foldl (· + ·) 0

/-- THROTTLING: clocks slow down, which changes time only (R38, R499). -/
def execThrottling (_ : Nat) (s : State) : Out := .next s

/-! ### ILLEGAL_INSTRUCTION (R53, R78) -/

/-- ILLEGAL_INSTRUCTION: the word fetched is no instruction; info1 is TRAPINFO1. -/
def execIllegalInstruction (word info1 : W32) (s : State) : Out :=
  onFrag s fun x => x.illegal { s with ir := word } info1

end Sys2Proof.Machine
end

