-- ==== Sys2Proof/Machine/Stepping.lean ====
section
/-!
DEFINITION. The stepping of operands inside a loop body (R110): the register fields of a word by its major and function,
and the word as each open level steps it.
-/

namespace Sys2Proof.Machine

/-- How far the open levels step each field: INCD, INCA, INCB, INCTA, INCTB and INCACC times the level's iteration. -/
structure Steps where
  d : Int
  a : Int
  b : Int
  ta : Nat
  tb : Nat
  acc : Nat
deriving DecidableEq, Repr, Inhabited

/-- The sums over the open levels of a group. -/
def Group.steps (g : Group) : Steps :=
  g.loops.foldl (fun s l =>
    let i := (g.li.getZ l.level).toNat
    ⟨s.d + i * l.incd, s.a + i * l.inca, s.b + i * l.incb, s.ta + i * l.incta, s.tb + i * l.inctb,
      s.acc + i * l.incacc⟩) ⟨0, 0, 0, 0, 0, 0⟩

/-- Bits lo to lo + n − 1 of a word. -/
def wordField (w lo n : Nat) : Nat := w / 2 ^ lo % 2 ^ n

/-- Which of the d, a and b fields of a lane word name registers: R format, without the fields that hold a mask, a code,
an immediate or zero. -/
def laneOperands (major fn : Nat) : Bool × Bool × Bool :=
  match major with
  | 0x02 | 0x19 =>
    (true, true, if major = 0x02 then fn ≠ 7 else 2 ≤ fn)
  | 0x06 | 0x1A | 0x1B | 0x1C | 0x1D | 0x1E | 0x21 | 0x22 => (true, true, false)
  | 0x10 => (false, true, fn < 6)
  | 0x11 => (false, true, true)
  | 0x13 => (true, fn = 0, false)
  | 0x20 => (true, true, fn = 0)
  | 0x23 => (fn ≠ 0, true, false)
  | 0x36 | 0x38 => (true, false, false)
  | 0x39 => (true, false, true)
  | _ => (true, true, true)

/-- The same of a uniform word. A field that can name only g registers is never stepped, so that it need not be told
apart; the register of `lbrk` and the count of `loop` stand where d does. -/
def uniformOperands (major fn : Nat) : Bool × Bool × Bool :=
  match major with
  | 0x01 | 0x03 | 0x04 | 0x0F => (true, true, true)
  | 0x02 => (true, true, fn ≠ 7)
  | 0x10 => (true, true, fn < 6)
  | 0x13 => (fn = 7, false, false)
  | 0x14 => (true, fn ≠ 1, fn = 2)
  | 0x20 => (true, false, false)
  | 0x21 => (fn < 6, false, false)
  | 0x23 => (false, true, false)
  | 0x24 => (false, true, fn = 2 ∨ fn = 3)
  | 0x25 => (fn ≠ 2, fn = 0, false)
  | 0x26 => (false, fn < 6, fn = 4 ∨ fn = 6)
  | 0x27 => (false, fn = 0 ∨ fn = 3, fn ≠ 2 ∧ fn ≠ 4)
  | 0x2A => (fn = 1 ∨ fn = 3, true, false)
  | 0x2B => (fn = 1 ∨ fn = 5, fn = 6, false)
  | 0x2C => (true, fn = 1, false)
  | 0x35 | 0x36 | 0x39 => (false, true, false)
  | 0x37 => (false, fn = 0, fn = 0)
  | 0x3A => (false, fn ≠ 0 ∧ fn ≠ 3 ∧ fn ≠ 4, fn = 4 ∨ fn = 5 ∨ fn = 6)
  | 0x3B => (false, false, fn = 3 ∨ fn = 4)
  | 0x3C => (fn = 2 ∨ fn = 3 ∨ fn = 6, fn = 0 ∨ fn = 3 ∨ fn = 4, false)
  | 0x3D => (fn = 5, fn < 5, false)
  | _ => (false, false, false)

/-- The low bits of the fields that step, with their steps, of a first word. -/
def steppedFields (s : Steps) (w : Nat) : List (Nat × Int) :=
  let major := wordField w 24 6
  let fn := wordField w 21 3
  let lane := wordField w 31 1 = 0
  let immediate := if lane then 0x08 ≤ major ∧ major ≤ 0x0D else major = 0x08
  let of (r : Bool × Bool × Bool) : List (Nat × Int) :=
    (if r.1 then [(14, s.d)] else []) ++ (if r.2.1 then [(7, s.a)] else []) ++ (if r.2.2 then [(0, s.b)] else [])
  if immediate then [(17, s.d), (10, s.a)]
  else if major = 0x0E ∨ (!lane ∧ (major = 0x30 ∨ major = 0x31)) then [(17, s.d)]
  else if lane ∧ 0x28 ≤ major ∧ major ≤ 0x34 then
    of (!(major = 0x33 ∧ fn = 1), true, false)
  else if lane then of (laneOperands major fn)
  else of (uniformOperands major fn)

/-- Steps one register field: a g register stays, and a v register must stay one. -/
def stepField (w lo : Nat) (by_ : Int) : Option Nat :=
  let f := wordField w lo 7
  let v : Int := f + by_
  if 96 ≤ f then some w
  else if 0 ≤ v ∧ v < 96 then some (w - f * 2 ^ lo + v.toNat * 2 ^ lo)
  else none

/-- Steps a tile or accumulator field of the T format, modulo its range. -/
def wrapField (w lo n k : Nat) : Nat :=
  let f := wordField w lo n
  w - f * 2 ^ lo + (f + k) % 2 ^ n * 2 ^ lo

/-- A first word with its operands stepped; none where a register number leaves v0 to v95. -/
def stepWord (s : Steps) (w : Nat) : Option Nat :=
  if wordField w 31 1 = 1 ∧ wordField w 24 6 = 0x38 then
    some (wrapField (wrapField (wrapField w 12 4 s.ta) 8 4 s.tb) 16 5 s.acc)
  else (steppedFields s w).foldl (fun w p => w.bind fun w => stepField w p.1 p.2) (some w)

end Sys2Proof.Machine
end

