-- ==== Sys2Proof/Machine/Errors.lean ====
section
/-!
DEFINITION. Errors of the hardware itself (R492, R493): an uncorrectable error that meets a load or an atomic, a hod, an
operation of an engine or the copy-back of a task, and a corrected one.
-/

namespace Sys2Proof.Machine

/-- The SITEs that a load, an atomic or a sweep may name, by its first word (R492). -/
def loadSites (w : Nat) : List Nat :=
  let major := wordField w 24 6
  if wordField w 31 1 = 1 then []
  else if major = 0x28 then [2]
  else if major = 0x2A then [4]
  else if major = 0x2C then [3]
  else if major = 0x2E then [1, 5]
  else if 0x30 ≤ major ∧ major ≤ 0x34 then [[2], [3], [1, 5], [4]].getD (wordField w 0 2) []
  else if major = 0x38 ∨ major = 0x39 then [1, 2, 3, 5]
  else []

/-- The fragment's instruction is one that an error of a site may meet. -/
def Ctx.meets (x : Ctx) (w : W32) (site : Nat) : Bool := x.f.k0 != 0 && (loadSites w.toNat).contains site

/-- An uncorrectable error meets the load or atomic at a fragment's PC: a machine check, with nothing performed; the
thread whose access failed is open. -/
def Ctx.machineCheck (x : Ctx) (s : State) (w : W32) (site : Nat) : State :=
  let ts := threadsOf x.f.k0
  let t := ts.getD (Config.choice s.tick 0x603 % ts.length) 0
  takeTrap x.core x.slot x.frag 7 x.f.pc w (machineCheckInfo site t)
    (x.put (s.logFree 2 site x.core x.ctxNum) x.g.undoSweep)

/-- An uncorrectable error of a site meets the log or an image as `trvs` reads it: it stops with error code 6 (R334); otherwise
nothing happens. -/
def Ctx.failReverse (x : Ctx) (s : State) (m : Bool) (d a site : Nat) : Out :=
  let ends (r : Reversal) : Out := x.endReverse (s.logFree 2 site x.core x.ctxNum) m d r 6
  if x.g.handler then .next s
  else
    match x.g.reversing with
    | some r => if r.threads = x.f.threads ∧ r.pc = x.f.pc ∧ r.low < r.next then ends r else .next s
    | none =>
      if x.g.recording || x.waitsOn [a] then .next s
      else if x.g.out 1 = 0 ∧ x.g.log.any fun l => (x.team.logFor (some l)).isNone then ends (x.newReversal (x.uni a).toNat 0 [])
      else .next s

/-- An uncorrectable error in a hod's stores halts it with cause 11 (R471). -/
def State.failHod (s : State) (core : Nat) (store : Bool) : State :=
  let h := s.hod core store
  if h.status = 2 then (s.logFree 2 2 core 0).putHod core store (h.stop 11) else s

/-- An uncorrectable error meets a class 2 operation's reads of the stores, the coupling store or the node array, so that it ends with
ERR 6 (R386, R390, R391): a `ksweep` stops in its sweep, whose finished classes stand, and a `kread` after some sector. `khealth` and
`kcal` access none of them. -/
def State.failKiln (s : State) (core slot : Nat) (g : Group) (t : Team) (o : Op) (w : KilnWork) : State :=
  let fin (s : State) (n : Nat) : State := s.putGroup core slot (g.putOp 2 { o with phase := .done (kilnErr 6 n) })
  let s' := s.logFree 2 2 core 0
  match w with
  | .khealth _ | .kcal => s
  | .ksweep ncol _ beta n finished =>
    let k := s.kiln core
    let go (col : Nat) (imports : List Bool) : State :=
      let left := (List.range ncol).drop col
      let (k', ok) := sweepClasses s t beta imports (left.take (Config.choice s.tick 0x604 % left.length)) k
      if ok then fin (s'.putKiln core { k' with sweeping := none }) finished else s
    match k.sweeping with
    | some (col, imports) => go col imports
    | none =>
      if n ≤ finished ∨ ((s.launches.find t.launch).bind k.refuses).isSome then s
      else
        match s.sweepStart t k with
        | .values imports => go 0 imports
        | .wait | .bad => fin s' finished
  | .kread dst what first n written =>
    let (s', m) := s'.readMore core t dst what first n written
    fin s' m
  | _ => fin s' 0

/-- An uncorrectable error meets the operation of a class of an agent that its engine works on (R492). -/
def State.failOp (s : State) (core agent cls : Nat) : State :=
  let log (s : State) : State := s.logFree 2 (Config.choice s.tick 0x605 % 5 + 1) core 0
  if cls = 0 then
    match s.copyEnv core agent with
    | none => s
    | some e =>
      let l := (s.copyTurns e).filter fun p => p.1.parked.isNone && !p.1.cancel && s.stillReads e p.2
      match l[Config.choice s.tick 0x606 % l.length]? with
      | some (o, _) => (log s).putCopy core agent (o.failed 5)
      | none => s
  else
    match s.groups.find (slotKey core agent) with
    | none => s
    | some g =>
      match s.teams.find g.team, s.worked cls (g.cls cls).ops with
      | some t, some o =>
        match o.phase, o.cmd with
        | .done _, _ => s
        | _, .kiln w =>
          if ((s.kilnTurn core).map fun p => (p.1, p.2.seq)) = some (agent, o.seq) then s.failKiln core agent g t o w
          else s
        | _, .seqr w =>
          if s.seqReady core g.team o w ∧ w.usesTable then
            (log (w.fail (if o.phase = .issued then w.start s else s))).putGroup core agent (g.putOp 3 { o with phase := .done (BitVec.ofNat 32 (2 ^ 30 + 2 * 2 ^ 26)) })
          else s
        | _, .coll c =>
          match c.exchanged with
          | some (peers, none) =>
            (log s).putGroup core agent (g.putOp 4 { o with cmd := .coll { c with exchanged := some (peers, some 6) } })
          | _ => s
        | _, _ => s
      | _, _ => s

end Sys2Proof.Machine
end

