-- ==== Sys2Proof/Machine/Atomics.lean ====
section
/-!
DEFINITION. Atomics (R198 to R205): one indivisible read-modify-write per thread at the location's home, in ascending
thread order, with the old value landing later; and the staging and folding of ordered atomics.
-/

namespace Sys2Proof.Machine

/-- The address of an atomic in thread t: a register pair for global memory, else as a load's, with selector g1
(R55). -/
def Ctx.atomAddress (x : Ctx) (p : Space) (a t : Nat) : Nat :=
  if p = .global then (x.lanePair a t).toNat else x.address p a 0 t
/-- Register fields that an atomic's address reads. -/
def atomRegs (p : Space) (a : Nat) : List Nat :=
  match p with
  | .global => [a, a + 1]
  | .cluster => [a, 97]
  | _ => [a]
/-- The requests of the active threads. -/
def Ctx.atomRequests (x : Ctx) (p : Space) (a size : Nat) : List Req :=
  (threadsOf x.f.k0).map fun t => ⟨t, p, x.atomAddress p a t, size⟩

/-- The denials of an atomic form that host memory does not support (R202). -/
def hostDenied (places : List (Req × Place)) : List (Nat × Denied) :=
  places.filterMap fun p =>
    if p.2.bytes.any fun b => (match b.2 with
      | .host _ => true
      | _ => false) then some (p.1.thread, ⟨6, 10, 6, 0, p.1.addr, 0⟩) else none

/-- The access of thread t at a place does nothing there: its home is lost. At a peer that cannot be reached it may have been performed
(SITE 6 of R492). -/
def State.misses (s : State) (t : Nat) (p : Place) : Bool :=
  match p.bytes.findSome? fun b => s.lostSite b.2 with
  | none => false
  | some site => site != 6 || Config.choice s.tick (0x640 + t) % 2 == 0
/-- Performs read-modify-writes one thread after another: the state and each thread's old value. -/
def performAtomics (f : Nat → Nat → Nat) : List (Req × Place) → State → State × List (Nat × Nat)
  | [], s => (s, [])
  | (r, p) :: rest, s =>
    if s.misses r.thread p then performAtomics f rest s
    else
      let keys := p.bytes.map (·.1)
      let old := leNat (s.gather keys)
      let (s, olds) := performAtomics f rest (s.scatter (keys.zip (leBytes r.size (f r.thread old))))
      (s, (r.thread, old) :: olds)

/-- An atomic whose checks pass acts on its places (R190, R198, R201, R202). -/
def Ctx.withAtomic (x : Ctx) (s : State) (op : AtomOp) (a : Nat) (o : Order) (c : Scope) (p : Space)
    (act : State → List (Req × Place) → Out) : Out :=
  if x.f.k0 ≠ 0 ∧ x.waitsOn (atomRegs p a) then .next s
  else
    let more (_ places : List (Req × Place)) : List (Nat × Denied) :=
      (if op.unordered && x.launch.form != 0 && x.f.k0 != 0 then [(lowestOf x.f.k0, ⟨2, 5, 2, 0, 0, 0⟩)] else []) ++
        (if op.supported then [] else hostDenied places)
    x.gate s 0 .atomic o c (x.atomRequests p a op.size) more act

/-- An atomic acts on memory, one thread after another (R198). -/
def Ctx.atomicNow (x : Ctx) (op : AtomOp) (m : Bool) (d : Nat) (s : State) (places : List (Req × Place)) : Out :=
  let (s', olds) := performAtomics (fun t => op.value (x.laneRegs d op.regs t)) places s
  match s.firstLost places with
  | some (t, site) => x.trap s' 7 (machineCheckInfo site t)
  | none =>
    let old (t : Nat) : List W32 :=
      match olds.find? fun q => q.1 = t with
      | some (_, v) => oldRegs op.size v
      | none => []
    x.done s' (x.sendLanes x.g s.ir d old none 0 none) m 1

/-- An atomic (R198): each thread's read-modify-write, with the old value landing later. All are performed as it issues; a turn that
leaves accesses behind is the other form (notes/assumptions/5.md). -/
def laneAtomic (op : AtomOp) (m : Bool) (d a : Nat) (o : Order) (c : Scope) (p : Space) (s : State) : Out :=
  onFrag s fun x => x.withAtomic s op a o c p (x.atomicNow op m d)

/-- atom.add (R199). -/
def execAtomAdd (m : Bool) (d a : Nat) (o : Order) (c : Scope) (p : Space) (s : State) : Out := laneAtomic .add m d a o c p s
/-- atom.xch (R199). -/
def execAtomXch (m : Bool) (d a : Nat) (o : Order) (c : Scope) (p : Space) (s : State) : Out := laneAtomic .xch m d a o c p s
/-- atom.mins32 (R199). -/
def execAtomMinS32 (m : Bool) (d a : Nat) (o : Order) (c : Scope) (p : Space) (s : State) : Out := laneAtomic .minS32 m d a o c p s
/-- atom.maxs32 (R199). -/
def execAtomMaxS32 (m : Bool) (d a : Nat) (o : Order) (c : Scope) (p : Space) (s : State) : Out := laneAtomic .maxS32 m d a o c p s
/-- atom.minz32 (R199). -/
def execAtomMinZ32 (m : Bool) (d a : Nat) (o : Order) (c : Scope) (p : Space) (s : State) : Out := laneAtomic .minZ32 m d a o c p s
/-- atom.maxz32 (R199). -/
def execAtomMaxZ32 (m : Bool) (d a : Nat) (o : Order) (c : Scope) (p : Space) (s : State) : Out := laneAtomic .maxZ32 m d a o c p s
/-- atom.and (R199). -/
def execAtomAnd (m : Bool) (d a : Nat) (o : Order) (c : Scope) (p : Space) (s : State) : Out := laneAtomic .and m d a o c p s
/-- atom.or (R199). -/
def execAtomOr (m : Bool) (d a : Nat) (o : Order) (c : Scope) (p : Space) (s : State) : Out := laneAtomic .or m d a o c p s
/-- atom.xor (R199). -/
def execAtomXor (m : Bool) (d a : Nat) (o : Order) (c : Scope) (p : Space) (s : State) : Out := laneAtomic .xor m d a o c p s
/-- atom.addb64 (R199). -/
def execAtomAddB64 (m : Bool) (d a : Nat) (o : Order) (c : Scope) (p : Space) (s : State) : Out := laneAtomic .addB64 m d a o c p s
/-- atom.xchb64 (R199). -/
def execAtomXchB64 (m : Bool) (d a : Nat) (o : Order) (c : Scope) (p : Space) (s : State) : Out := laneAtomic .xchB64 m d a o c p s
/-- atom.mins64 (R199). -/
def execAtomMinS64 (m : Bool) (d a : Nat) (o : Order) (c : Scope) (p : Space) (s : State) : Out := laneAtomic .minS64 m d a o c p s
/-- atom.maxs64 (R199). -/
def execAtomMaxS64 (m : Bool) (d a : Nat) (o : Order) (c : Scope) (p : Space) (s : State) : Out := laneAtomic .maxS64 m d a o c p s
/-- atom.minz64 (R199). -/
def execAtomMinZ64 (m : Bool) (d a : Nat) (o : Order) (c : Scope) (p : Space) (s : State) : Out := laneAtomic .minZ64 m d a o c p s
/-- atom.maxz64 (R199). -/
def execAtomMaxZ64 (m : Bool) (d a : Nat) (o : Order) (c : Scope) (p : Space) (s : State) : Out := laneAtomic .maxZ64 m d a o c p s
/-- atom.cas.b64: the pair d replaces the value if it equals the pair d + 2 (R200). -/
def execAtomCasB64 (m : Bool) (d a : Nat) (o : Order) (c : Scope) (p : Space) (s : State) : Out := laneAtomic .casB64 m d a o c p s
/-- cas: d replaces the value if it equals d + 1 (R200). -/
def execCas (m : Bool) (d a : Nat) (o : Order) (c : Scope) (p : Space) (s : State) : Out := laneAtomic .cas m d a o c p s
/-- atomf.fadd (R201). -/
def execAtomfFadd (m : Bool) (d a : Nat) (o : Order) (c : Scope) (p : Space) (s : State) : Out := laneAtomic .fadd m d a o c p s
/-- atomf.fmin (R201). -/
def execAtomfFmin (m : Bool) (d a : Nat) (o : Order) (c : Scope) (p : Space) (s : State) : Out := laneAtomic .fmin m d a o c p s
/-- atomf.fmax (R201). -/
def execAtomfFmax (m : Bool) (d a : Nat) (o : Order) (c : Scope) (p : Space) (s : State) : Out := laneAtomic .fmax m d a o c p s
/-- atomf.add.bf16x2 (R201). -/
def execAtomfAddBf16x2 (m : Bool) (d a : Nat) (o : Order) (c : Scope) (p : Space) (s : State) : Out := laneAtomic .addBf16 m d a o c p s

/-! ### Ordered atomics (R203 to R205) -/

/-- The number of a staging home, and its room (R203): the HBM of a peer's die gives what the agents of other modules leave of it,
which is open (notes/assumptions/25.md). -/
def stagingHome (tick : Nat) : Home → Nat × Nat
  | .unit c => (c, 4096)
  | .die d => (1000 + d, 65536)
  | .hbm d => (2000 + d, 65536)
  | .host p => (3000 + p, 0)
  | .peer m d => (4096 + 1024 * m + d, 65536 - Config.choice tick (0x62A + 4096 * (1024 * m + d)) % 65537)
/-- The home of a place. -/
def Place.home (tick : Nat) (p : Place) : Nat × Nat :=
  match p.bytes with
  | (_, h) :: _ => stagingHome tick h
  | [] => (0, 0)
/-- The contributions on their way to a home. -/
def State.onTheWay (s : State) (h : Nat) : Nat :=
  (s.groups.values.map fun g => g.late.countP fun e => match e.work with
    | .stage c => c.home == h
    | _ => false).sum
/-- The denial of an `atomo` whose home lacks room for all that it sends: the lowest thread that sends there (R203). -/
def stagingDenied (s : State) (places : List (Req × Place)) : List (Nat × Denied) :=
  places.filterMap fun p =>
    let (h, room) := p.2.home s.tick
    let there := (s.staging.filter fun e => e.home = h).length + s.onTheWay h
    let sent := (places.filter fun q => (q.2.home s.tick).1 = h).length
    if room < there + sent then some (p.1.thread, ⟨6, 10, 7, 0, p.1.addr, 0⟩) else none

/-- The contribution of a thread (R203). -/
def Ctx.contribution (x : Ctx) (s : State) (d : Nat) (q : Req × Place) : Staged :=
  ⟨(q.2.home s.tick).1, (q.2.bytes.map (·.1)).headD 0, x.team.teamIx * 2 ^ 16 + x.g.gix * 64 + q.1.thread, x.lane d q.1.thread⟩
/-- An `atomo.fadd` whose checks pass acts on its places (R203). -/
def Ctx.withStage (x : Ctx) (s : State) (a : Nat) (o : Order) (c : Scope) (p : Space) (act : State → List (Req × Place) → Out) : Out :=
  if x.f.k0 ≠ 0 ∧ x.waitsOn (atomRegs p a) then .next s
  else x.gate s 0 .atomic o c (x.atomRequests p a 4) (fun _ places => hostDenied places ++ stagingDenied s places) act
/-- The contributions are staged. -/
def Ctx.stageNow (x : Ctx) (m : Bool) (d : Nat) (s : State) (places : List (Req × Place)) : Out :=
  let entries := (places.filter fun q => !s.misses q.1.thread q.2).map (x.contribution s d)
  let s' := { s with staging := s.staging ++ entries }
  match s.firstLost places with
  | some (t, site) => x.trap s' 7 (machineCheckInfo site t)
  | none => x.done s' x.g m 1
/-- atomo.fadd: stages one contribution per active thread and writes no memory (R203). -/
def execAtomoFadd (m : Bool) (d a : Nat) (o : Order) (c : Scope) (p : Space) (s : State) : Out :=
  onFrag s fun x => x.withStage s a o c p (x.stageNow m d)

/-- An `atomo.close` whose checks pass acts on its places. -/
def Ctx.withClose (x : Ctx) (s : State) (a : Nat) (o : Order) (c : Scope) (p : Space) (act : State → List (Req × Place) → Out) : Out :=
  if x.f.k0 ≠ 0 ∧ x.waitsOn (atomRegs p a) then .next s
  else x.gate s 0 .atomic o c (x.atomRequests p a 4) (fun _ => hostDenied) act
/-- The targets are folded, in ascending thread order (R204). -/
def Ctx.closeNow (x : Ctx) (m : Bool) (s : State) (places : List (Req × Place)) : Out :=
  let s' := places.foldl (fun s q =>
    if s.misses q.1.thread q.2 then s else s.closeTarget (q.2.bytes.map (·.1))) s
  match s.firstLost places with
  | some (t, site) => x.trap s' 7 (machineCheckInfo site t)
  | none => x.done s' x.g m 1
/-- atomo.close: folds each active thread's target (R204). -/
def execAtomoClose (m : Bool) (a : Nat) (o : Order) (c : Scope) (p : Space) (s : State) : Out :=
  onFrag s fun x => x.withClose s a o c p (x.closeNow m)

end Sys2Proof.Machine
end

