-- ==== Sys2Proof/Machine/Landing.lean ====
section
/-!
DEFINITION. The landing of variable-latency results (R62, R63, R127): values per thread and mask bit, handle words
(R115), and the flags and arithmetic trap that come with the last of them (R134, R135).
-/

namespace Sys2Proof.Machine

/-- Writes the values of the listed threads into the bank that issued them. -/
def Group.landVals (g : Group) (hb : Bool) (threads : Mask) : List (Nat × W32) → Group
  | [] => g
  | (i, v) :: rest =>
    let g := if threads.getLsbD (i % 64) then g.writeV hb (i / 64) (i % 64) v else g
    g.landVals hb threads rest

/-- Writes the bits of the listed threads into mask k; for k0 each thread's fragment takes its bit (R97). -/
def Group.landMask (g : Group) (k : Nat) (v threads : Mask) : Group :=
  if k = 0 then
    { g with frags := g.frags.map fun f =>
      { f with k0 := (f.k0 &&& ~~~(threads &&& f.threads)) ||| (v &&& threads &&& f.threads) } }
  else { g with k := g.k.setZ k ((g.k.getZ k &&& ~~~threads) ||| (v &&& threads)) }

/-- A handle word lands: the register is pending until the operation retires, and holds its result word if it
already has (R115). -/
def Group.landHandle (g : Group) (hb : Bool) (h : HandleDest) : Group :=
  let g := g.unpend hb h.reg
  match h.result with
  | some r => g.putG hb h.reg r
  | none =>
    let g := g.putG hb h.reg h.word
    { g with pendingRegs := g.pendingRegs ++
      [⟨bankOf hb h.reg, h.reg, h.word.toNat / 2 ^ 28, h.word.toNat % 2 ^ 24⟩] }

/-- When nothing is outstanding any more, the steps that waited for it are made (R173) and the parks of R62 end. -/
def Group.unpark62 (g : Group) : Group :=
  if g.pend.isEmpty then { g.stepDue with marker := false, hmarker := false } else g

/-- The trapping fragment of a result that was issued in the threads of a set: the holder of the lowest of them that still
exists, or the oldest fragment if none does; a group without fragments takes no trap. DESIGN CHOICE
(notes/assumptions/17.md): the spec does not say which fragment it is once the issuing one has split, fused or ended. -/
def Group.holderOf (g : Group) (k : Mask) : Option Nat :=
  let t := lowestOf (k &&& g.frags.foldl (fun m f => m ||| f.threads) 0)
  if t = 64 then (if g.frags = [] then none else some 0) else g.frags.findIdx? fun f => f.threads.getLsbD t

/-- The special-function unit of the lane returns the result of a first word: SFU and SFX (R65, R155). -/
def fromSfu (word : W32) : Bool := decide (word.toNat / 2 ^ 24 % 2 ^ 6 ∈ [0x1D, 0x1E] ∧ word.toNat < 2 ^ 31)
/-- Result ix is one of a handler, and one of the interrupted code is ahead of it in the special-function unit (R127). -/
def Group.queuesBehind (g : Group) (ix : Nat) : Bool :=
  (g.pend[ix]?).any fun p =>
    p.handlerBank && fromSfu p.word && (g.pend.take ix).any fun q => !q.handlerBank && fromSfu q.word

/-- The whole of a result has landed: its flags, and the arithmetic trap of those that FPMODE enabled at its issue, held while
a handler runs for other code (R114, R133 to R135). -/
def State.landed (s : State) (core slot : Nat) (g : Group) (p : Pend) : State :=
  let g := (g.raise p.flags).unpark62
  let hit := p.flags &&& p.trapen
  let s := s.putGroup core slot g
  if hit = 0 then s
  else if g.handler && !p.handlerBank then
    let h : HeldTrap :=
      match g.held with
      | some h => { h with flags := h.flags ||| hit }
      | none => ⟨p.word, hit⟩
    s.putGroup core slot { g with held := some h }
  else
    match g.holderOf p.issued with
    | none => s
    | some i => takeTrap core slot i 3 ((g.frags[i]?.map (·.pc)).getD 0) p.word (hit.setWidth 32) s

/-- VARIABLE_LATENCY_RESULT: of outstanding result ix of a group, the handle word or the values of the given threads
land, unless it still queues behind another (R127); a thread whose access is not performed has no value yet. -/
def execVariableLatencyResult (core slot ix : Nat) (threads : Mask) (s : State) : Out :=
  match s.groups.find (slotKey core slot) with
  | none => .next s
  | some g =>
    match g.pend[ix]? with
    | none => .next s
    | some p =>
      if g.queuesBehind ix then .next s else
      match p.handle with
      | some h => .next (s.landed core slot ({ g with pend := g.pend.eraseIdx ix }.landHandle p.handlerBank h) p)
      | none =>
        let ts := p.threads &&& threads &&& ~~~(if p.stamp = 0 then 0 else g.outstanding p.stamp)
        let g := g.landVals p.handlerBank ts p.vals.entries
        let g :=
          match p.mask with
          | some (k, v) => g.landMask k v ts
          | none => g
        let p' := { p with threads := p.threads &&& ~~~ts }
        if p'.threads = 0 then .next (s.landed core slot { g with pend := g.pend.eraseIdx ix } p')
        else .next (s.putGroup core slot { g with pend := g.pend.set ix p' })

end Sys2Proof.Machine
end

