-- ==== Sys2Proof/Machine/Uniform.lean ====
section
/-!
DEFINITION. Uniform scalar instructions (R112, R113) and mask instructions (R97, R99): once for the group, over the
functions of the lane instructions.
-/

namespace Sys2Proof.Machine

/-- uadd (R112). -/
def execUadd (m : Bool) (d a b : Nat) (s : State) : Out :=
  uniMap m 1 d [a, b] (fun x => aluAdd (x.uni a) (x.uni b)) s
/-- usub (R112). -/
def execUsub (m : Bool) (d a b : Nat) (s : State) : Out :=
  uniMap m 1 d [a, b] (fun x => aluSub (x.uni a) (x.uni b)) s
/-- uand (R112). -/
def execUand (m : Bool) (d a b : Nat) (s : State) : Out :=
  uniMap m 1 d [a, b] (fun x => aluAnd (x.uni a) (x.uni b)) s
/-- uor (R112). -/
def execUor (m : Bool) (d a b : Nat) (s : State) : Out :=
  uniMap m 1 d [a, b] (fun x => aluOr (x.uni a) (x.uni b)) s
/-- uxor (R112). -/
def execUxor (m : Bool) (d a b : Nat) (s : State) : Out :=
  uniMap m 1 d [a, b] (fun x => aluXor (x.uni a) (x.uni b)) s
/-- uandn (R112). -/
def execUandn (m : Bool) (d a b : Nat) (s : State) : Out :=
  uniMap m 1 d [a, b] (fun x => aluAndn (x.uni a) (x.uni b)) s
/-- uminS32 (R112). -/
def execUminS32 (m : Bool) (d a b : Nat) (s : State) : Out :=
  uniMap m 1 d [a, b] (fun x => aluMinS (x.uni a) (x.uni b)) s
/-- umaxS32 (R112). -/
def execUmaxS32 (m : Bool) (d a b : Nat) (s : State) : Out :=
  uniMap m 1 d [a, b] (fun x => aluMaxS (x.uni a) (x.uni b)) s
/-- uminZ32 (R112). -/
def execUminZ32 (m : Bool) (d a b : Nat) (s : State) : Out :=
  uniMap m 1 d [a, b] (fun x => aluMinZ (x.uni a) (x.uni b)) s
/-- umaxZ32 (R112). -/
def execUmaxZ32 (m : Bool) (d a b : Nat) (s : State) : Out :=
  uniMap m 1 d [a, b] (fun x => aluMaxZ (x.uni a) (x.uni b)) s
/-- uaddsatS32 (R112). -/
def execUaddsatS32 (m : Bool) (d a b : Nat) (s : State) : Out :=
  uniMap m 1 d [a, b] (fun x => aluAddsatS (x.uni a) (x.uni b)) s
/-- usubsatS32 (R112). -/
def execUsubsatS32 (m : Bool) (d a b : Nat) (s : State) : Out :=
  uniMap m 1 d [a, b] (fun x => aluSubsatS (x.uni a) (x.uni b)) s
/-- uaddsatZ32 (R112). -/
def execUaddsatZ32 (m : Bool) (d a b : Nat) (s : State) : Out :=
  uniMap m 1 d [a, b] (fun x => aluAddsatZ (x.uni a) (x.uni b)) s
/-- usubsatZ32 (R112). -/
def execUsubsatZ32 (m : Bool) (d a b : Nat) (s : State) : Out :=
  uniMap m 1 d [a, b] (fun x => aluSubsatZ (x.uni a) (x.uni b)) s
/-- uabsd (R112). -/
def execUabsd (m : Bool) (d a b : Nat) (s : State) : Out :=
  uniMap m 1 d [a, b] (fun x => aluAbsd (x.uni a) (x.uni b)) s
/-- ushl (R112). -/
def execUshl (m : Bool) (d a b : Nat) (s : State) : Out :=
  uniMap m 1 d [a, b] (fun x => aluShl (x.uni a) (x.uni b)) s
/-- ushr (R112). -/
def execUshr (m : Bool) (d a b : Nat) (s : State) : Out :=
  uniMap m 1 d [a, b] (fun x => aluShr (x.uni a) (x.uni b)) s
/-- usar (R112). -/
def execUsar (m : Bool) (d a b : Nat) (s : State) : Out :=
  uniMap m 1 d [a, b] (fun x => aluSar (x.uni a) (x.uni b)) s
/-- urol (R112). -/
def execUrol (m : Bool) (d a b : Nat) (s : State) : Out :=
  uniMap m 1 d [a, b] (fun x => aluRol (x.uni a) (x.uni b)) s
/-- uror (R112). -/
def execUror (m : Bool) (d a b : Nat) (s : State) : Out :=
  uniMap m 1 d [a, b] (fun x => aluRor (x.uni a) (x.uni b)) s
/-- umul (R112). -/
def execUmul (m : Bool) (d a b : Nat) (s : State) : Out :=
  uniMap m 1 d [a, b] (fun x => aluMul (x.uni a) (x.uni b)) s
/-- umulhS32 (R112). -/
def execUmulhS32 (m : Bool) (d a b : Nat) (s : State) : Out :=
  uniMap m 1 d [a, b] (fun x => aluMulhS (x.uni a) (x.uni b)) s
/-- umulhZ32 (R112). -/
def execUmulhZ32 (m : Bool) (d a b : Nat) (s : State) : Out :=
  uniMap m 1 d [a, b] (fun x => aluMulhZ (x.uni a) (x.uni b)) s
/-- umulhSz32 (R112). -/
def execUmulhSz32 (m : Bool) (d a b : Nat) (s : State) : Out :=
  uniMap m 1 d [a, b] (fun x => aluMulhSz (x.uni a) (x.uni b)) s
/-- udivS32 (R112). -/
def execUdivS32 (m : Bool) (d a b : Nat) (s : State) : Out :=
  uniMap m 1 d [a, b] (fun x => aluDivS (x.uni a) (x.uni b)) s
/-- udivZ32 (R112). -/
def execUdivZ32 (m : Bool) (d a b : Nat) (s : State) : Out :=
  uniMap m 1 d [a, b] (fun x => aluDivZ (x.uni a) (x.uni b)) s
/-- uremS32 (R112). -/
def execUremS32 (m : Bool) (d a b : Nat) (s : State) : Out :=
  uniMap m 1 d [a, b] (fun x => aluRemS (x.uni a) (x.uni b)) s
/-- uremZ32 (R112). -/
def execUremZ32 (m : Bool) (d a b : Nat) (s : State) : Out :=
  uniMap m 1 d [a, b] (fun x => aluRemZ (x.uni a) (x.uni b)) s
/-- uabs (R112). -/
def execUabs (m : Bool) (d a : Nat) (s : State) : Out := uniMap m 1 d [a] (fun x => aluAbs (x.uni a)) s
/-- uaddi (R113). -/
def execUaddi (m : Bool) (d a : Nat) (i : BitVec 10) (s : State) : Out := uniMap m 1 d [a] (fun x => x.uni a + imm10 i) s
/-- umovl (R113). -/
def execUmovl (m : Bool) (d : Nat) (lit : W32) (s : State) : Out := uniMap m 2 d [] (fun _ => lit) s
/-- uaddl (R113). -/
def execUaddl (m : Bool) (d : Nat) (lit : W32) (s : State) : Out := uniMap m 2 d [d] (fun x => x.uni d + lit) s
/-- uandl (R113). -/
def execUandl (m : Bool) (d : Nat) (lit : W32) (s : State) : Out := uniMap m 2 d [d] (fun x => x.uni d &&& lit) s
/-- uorl (R113). -/
def execUorl (m : Bool) (d : Nat) (lit : W32) (s : State) : Out := uniMap m 2 d [d] (fun x => x.uni d ||| lit) s
/-- ulea (R113). -/
def execUlea (m : Bool) (h d a b : Nat) (s : State) : Out :=
  uniMap m 1 d [a, b] (fun x => x.uni a + (x.uni b <<< h)) s
/-- ucmp (R113). -/
def execUcmp (m : Bool) (c : IntCond) (d a b : Nat) (s : State) : Out :=
  uniMap m 1 d [a, b] (fun x => if intHolds c (x.uni a) (x.uni b) then 1 else 0) s
/-- umov (R113). -/
def execUmov (m : Bool) (d a : Nat) (s : State) : Out := uniMap m 1 d [a] (fun x => x.uni a) s
/-- rdlow (R113). -/
def execRdlow (m : Bool) (d ka : Nat) (s : State) : Out :=
  uniMap m 1 d [] (fun x => BitVec.ofNat 32 (lowestOf (x.mask ka))) s
/-- rdth (R113): the value that the register holds, in the bank of the group's mode. -/
def execRdth (m : Bool) (d a b : Nat) (s : State) : Out :=
  uniMap m 1 d [b] (fun x => x.g.readV x.g.handler a ((x.uni b).toNat % 64)) s

/-! ### Masks (R99) -/

/-- A mask instruction that writes mask kd (R97). -/
def maskMap (m : Bool) (kd : Nat) (srcs : List Nat) (f : Ctx → Mask) (s : State) : Out :=
  onFrag s fun x => if x.waitsOn srcs then .next s else x.done s (x.writeMaskUni x.g kd (f x)) m 1

/-- kand (R99). -/
def execKand (m : Bool) (kd ka kb : Nat) (s : State) : Out := maskMap m kd [] (fun x => x.mask ka &&& x.mask kb) s
/-- kor (R99). -/
def execKor (m : Bool) (kd ka kb : Nat) (s : State) : Out := maskMap m kd [] (fun x => x.mask ka ||| x.mask kb) s
/-- kxor (R99). -/
def execKxor (m : Bool) (kd ka kb : Nat) (s : State) : Out := maskMap m kd [] (fun x => x.mask ka ^^^ x.mask kb) s
/-- kandn (R99). -/
def execKandn (m : Bool) (kd ka kb : Nat) (s : State) : Out := maskMap m kd [] (fun x => x.mask ka &&& ~~~x.mask kb) s
/-- knot (R99). -/
def execKnot (m : Bool) (kd ka : Nat) (s : State) : Out := maskMap m kd [] (fun x => ~~~x.mask ka) s
/-- kfrom: two consecutive g registers, the lower one bits 31:0 (R99). -/
def execKfrom (m : Bool) (kd g : Nat) (s : State) : Out := maskMap m kd [g, g + 1] (fun x => x.uniPair g) s
/-- kto: two consecutive g registers receive the mask (R99). -/
def execKto (m : Bool) (g ka : Nat) (s : State) : Out :=
  onFrag s fun x =>
    x.done s (x.writeUni (x.writeUni x.g g (lowWord (x.mask ka))) (g + 1) (highWord (x.mask ka))) m 1
/-- kpopc (R99). -/
def execKpopc (m : Bool) (d ka : Nat) (s : State) : Out :=
  uniMap m 1 d [] (fun x => BitVec.ofNat 32 (countOf (x.mask ka))) s

end Sys2Proof.Machine
end

