-- ==== Sys2Proof/Machine/Dispatch.lean ====
section
/-!
DEFINITION. exec: one arm for each instruction, each a call of its meaning.
-/

namespace Sys2Proof.Machine

/-- The effect of an instruction for the current agent. -/
def exec (i : Instr) (s : State) : Host.Outcome State Fault Refusal :=
  match i with
  | .add x0 x1 x2 x3 => Sys2Proof.Machine.execAdd x0 x1 x2 x3 s
  | .sub x0 x1 x2 x3 => Sys2Proof.Machine.execSub x0 x1 x2 x3 s
  | .and x0 x1 x2 x3 => Sys2Proof.Machine.execAnd x0 x1 x2 x3 s
  | .or x0 x1 x2 x3 => Sys2Proof.Machine.execOr x0 x1 x2 x3 s
  | .xor x0 x1 x2 x3 => Sys2Proof.Machine.execXor x0 x1 x2 x3 s
  | .andn x0 x1 x2 x3 => Sys2Proof.Machine.execAndn x0 x1 x2 x3 s
  | .minS32 x0 x1 x2 x3 => Sys2Proof.Machine.execMinS32 x0 x1 x2 x3 s
  | .maxS32 x0 x1 x2 x3 => Sys2Proof.Machine.execMaxS32 x0 x1 x2 x3 s
  | .minZ32 x0 x1 x2 x3 => Sys2Proof.Machine.execMinZ32 x0 x1 x2 x3 s
  | .maxZ32 x0 x1 x2 x3 => Sys2Proof.Machine.execMaxZ32 x0 x1 x2 x3 s
  | .addsatS32 x0 x1 x2 x3 => Sys2Proof.Machine.execAddsatS32 x0 x1 x2 x3 s
  | .subsatS32 x0 x1 x2 x3 => Sys2Proof.Machine.execSubsatS32 x0 x1 x2 x3 s
  | .addsatZ32 x0 x1 x2 x3 => Sys2Proof.Machine.execAddsatZ32 x0 x1 x2 x3 s
  | .subsatZ32 x0 x1 x2 x3 => Sys2Proof.Machine.execSubsatZ32 x0 x1 x2 x3 s
  | .absd x0 x1 x2 x3 => Sys2Proof.Machine.execAbsd x0 x1 x2 x3 s
  | .abs x0 x1 x2 => Sys2Proof.Machine.execAbs x0 x1 x2 s
  | .shl x0 x1 x2 x3 => Sys2Proof.Machine.execShl x0 x1 x2 x3 s
  | .shr x0 x1 x2 x3 => Sys2Proof.Machine.execShr x0 x1 x2 x3 s
  | .sar x0 x1 x2 x3 => Sys2Proof.Machine.execSar x0 x1 x2 x3 s
  | .rol x0 x1 x2 x3 => Sys2Proof.Machine.execRol x0 x1 x2 x3 s
  | .ror x0 x1 x2 x3 => Sys2Proof.Machine.execRor x0 x1 x2 x3 s
  | .mul x0 x1 x2 x3 => Sys2Proof.Machine.execMul x0 x1 x2 x3 s
  | .mulhS32 x0 x1 x2 x3 => Sys2Proof.Machine.execMulhS32 x0 x1 x2 x3 s
  | .mulhZ32 x0 x1 x2 x3 => Sys2Proof.Machine.execMulhZ32 x0 x1 x2 x3 s
  | .mulhSz32 x0 x1 x2 x3 => Sys2Proof.Machine.execMulhSz32 x0 x1 x2 x3 s
  | .divS32 x0 x1 x2 x3 => Sys2Proof.Machine.execDivS32 x0 x1 x2 x3 s
  | .divZ32 x0 x1 x2 x3 => Sys2Proof.Machine.execDivZ32 x0 x1 x2 x3 s
  | .remS32 x0 x1 x2 x3 => Sys2Proof.Machine.execRemS32 x0 x1 x2 x3 s
  | .remZ32 x0 x1 x2 x3 => Sys2Proof.Machine.execRemZ32 x0 x1 x2 x3 s
  | .mad x0 x1 x2 x3 => Sys2Proof.Machine.execMad x0 x1 x2 x3 s
  | .msb x0 x1 x2 x3 => Sys2Proof.Machine.execMsb x0 x1 x2 x3 s
  | .clz x0 x1 x2 => Sys2Proof.Machine.execClz x0 x1 x2 s
  | .ctz x0 x1 x2 => Sys2Proof.Machine.execCtz x0 x1 x2 s
  | .popc x0 x1 x2 => Sys2Proof.Machine.execPopc x0 x1 x2 s
  | .brev x0 x1 x2 => Sys2Proof.Machine.execBrev x0 x1 x2 s
  | .bswap x0 x1 x2 => Sys2Proof.Machine.execBswap x0 x1 x2 s
  | .sxb x0 x1 x2 => Sys2Proof.Machine.execSxb x0 x1 x2 s
  | .sxh x0 x1 x2 => Sys2Proof.Machine.execSxh x0 x1 x2 s
  | .zxh x0 x1 x2 => Sys2Proof.Machine.execZxh x0 x1 x2 s
  | .bfxS32 x0 x1 x2 x3 => Sys2Proof.Machine.execBfxS32 x0 x1 x2 x3 s
  | .bfxZ32 x0 x1 x2 x3 => Sys2Proof.Machine.execBfxZ32 x0 x1 x2 x3 s
  | .bfi x0 x1 x2 x3 => Sys2Proof.Machine.execBfi x0 x1 x2 x3 s
  | .addi x0 x1 x2 x3 => Sys2Proof.Machine.execAddi x0 x1 x2 x3 s
  | .andi x0 x1 x2 x3 => Sys2Proof.Machine.execAndi x0 x1 x2 x3 s
  | .ori x0 x1 x2 x3 => Sys2Proof.Machine.execOri x0 x1 x2 x3 s
  | .xori x0 x1 x2 x3 => Sys2Proof.Machine.execXori x0 x1 x2 x3 s
  | .shi x0 x1 x2 x3 x4 => Sys2Proof.Machine.execShi x0 x1 x2 x3 x4 s
  | .muli x0 x1 x2 x3 => Sys2Proof.Machine.execMuli x0 x1 x2 x3 s
  | .movl x0 x1 x2 => Sys2Proof.Machine.execMovl x0 x1 x2 s
  | .addl x0 x1 x2 => Sys2Proof.Machine.execAddl x0 x1 x2 s
  | .andl x0 x1 x2 => Sys2Proof.Machine.execAndl x0 x1 x2 s
  | .orl x0 x1 x2 => Sys2Proof.Machine.execOrl x0 x1 x2 s
  | .lea x0 x1 x2 x3 x4 => Sys2Proof.Machine.execLea x0 x1 x2 x3 x4 s
  | .icmp x0 x1 x2 x3 x4 => Sys2Proof.Machine.execIcmp x0 x1 x2 x3 x4 s
  | .fcmp x0 x1 x2 x3 x4 => Sys2Proof.Machine.execFcmp x0 x1 x2 x3 x4 s
  | .sel x0 x1 x2 x3 x4 => Sys2Proof.Machine.execSel x0 x1 x2 x3 x4 s
  | .mov x0 x1 x2 => Sys2Proof.Machine.execMov x0 x1 x2 s
  | .kbit x0 x1 x2 => Sys2Proof.Machine.execKbit x0 x1 x2 s
  | .tid x0 x1 => Sys2Proof.Machine.execTid x0 x1 s
  | .sysv x0 x1 x2 => Sys2Proof.Machine.execSysv x0 x1 x2 s
  | .fadd x0 x1 x2 x3 x4 => Sys2Proof.Machine.execFadd x0 x1 x2 x3 x4 s
  | .fsub x0 x1 x2 x3 x4 => Sys2Proof.Machine.execFsub x0 x1 x2 x3 x4 s
  | .fmul x0 x1 x2 x3 x4 => Sys2Proof.Machine.execFmul x0 x1 x2 x3 x4 s
  | .ffma x0 x1 x2 x3 x4 => Sys2Proof.Machine.execFfma x0 x1 x2 x3 x4 s
  | .fmin x0 x1 x2 x3 => Sys2Proof.Machine.execFmin x0 x1 x2 x3 s
  | .fmax x0 x1 x2 x3 => Sys2Proof.Machine.execFmax x0 x1 x2 x3 s
  | .fminnum x0 x1 x2 x3 => Sys2Proof.Machine.execFminnum x0 x1 x2 x3 s
  | .fmaxnum x0 x1 x2 x3 => Sys2Proof.Machine.execFmaxnum x0 x1 x2 x3 s
  | .fabs x0 x1 x2 => Sys2Proof.Machine.execFabs x0 x1 x2 s
  | .fneg x0 x1 x2 => Sys2Proof.Machine.execFneg x0 x1 x2 s
  | .fcpys x0 x1 x2 x3 => Sys2Proof.Machine.execFcpys x0 x1 x2 x3 s
  | .fxsgn x0 x1 x2 x3 => Sys2Proof.Machine.execFxsgn x0 x1 x2 x3 s
  | .fcls x0 x1 x2 => Sys2Proof.Machine.execFcls x0 x1 x2 s
  | .cvt x0 x1 x2 x3 x4 x5 => Sys2Proof.Machine.execCvt x0 x1 x2 x3 x4 x5 s
  | .frnd x0 x1 x2 x3 => Sys2Proof.Machine.execFrnd x0 x1 x2 x3 s
  | .rcp x0 x1 x2 => Sys2Proof.Machine.execRcp x0 x1 x2 s
  | .rsq x0 x1 x2 => Sys2Proof.Machine.execRsq x0 x1 x2 s
  | .sqrt x0 x1 x2 => Sys2Proof.Machine.execSqrt x0 x1 x2 s
  | .exp2 x0 x1 x2 => Sys2Proof.Machine.execExp2 x0 x1 x2 s
  | .log2 x0 x1 x2 => Sys2Proof.Machine.execLog2 x0 x1 x2 s
  | .sin x0 x1 x2 => Sys2Proof.Machine.execSin x0 x1 x2 s
  | .cos x0 x1 x2 => Sys2Proof.Machine.execCos x0 x1 x2 s
  | .tanh x0 x1 x2 => Sys2Proof.Machine.execTanh x0 x1 x2 s
  | .sigm x0 x1 x2 => Sys2Proof.Machine.execSigm x0 x1 x2 s
  | .erf x0 x1 x2 => Sys2Proof.Machine.execErf x0 x1 x2 s
  | .gelu x0 x1 x2 => Sys2Proof.Machine.execGelu x0 x1 x2 s
  | .silu x0 x1 x2 => Sys2Proof.Machine.execSilu x0 x1 x2 s
  | .idx x0 x1 x2 x3 => Sys2Proof.Machine.execIdx x0 x1 x2 x3 s
  | .upw x0 x1 x2 x3 => Sys2Proof.Machine.execUpw x0 x1 x2 x3 s
  | .dnw x0 x1 x2 x3 => Sys2Proof.Machine.execDnw x0 x1 x2 x3 s
  | .xorw x0 x1 x2 x3 => Sys2Proof.Machine.execXorw x0 x1 x2 x3 s
  | .rotw x0 x1 x2 x3 => Sys2Proof.Machine.execRotw x0 x1 x2 x3 s
  | .xred x0 x1 x2 x3 => Sys2Proof.Machine.execXred x0 x1 x2 x3 s
  | .xscn x0 x1 x2 x3 => Sys2Proof.Machine.execXscn x0 x1 x2 x3 s
  | .ballot x0 x1 x2 => Sys2Proof.Machine.execBallot x0 x1 x2 s
  | .all x0 x1 x2 => Sys2Proof.Machine.execAll x0 x1 x2 s
  | .any x0 x1 x2 => Sys2Proof.Machine.execAny x0 x1 x2 s
  | .uni x0 x1 x2 => Sys2Proof.Machine.execUni x0 x1 x2 s
  | .xbc x0 x1 x2 x3 => Sys2Proof.Machine.execXbc x0 x1 x2 x3 s
  | .ld x0 x1 x2 x3 x4 x5 => Sys2Proof.Machine.execLd x0 x1 x2 x3 x4 x5 s
  | .st x0 x1 x2 x3 x4 x5 => Sys2Proof.Machine.execSt x0 x1 x2 x3 x4 x5 s
  | .ldc x0 x1 x2 x3 x4 x5 x6 => Sys2Proof.Machine.execLdc x0 x1 x2 x3 x4 x5 x6 s
  | .stc x0 x1 x2 x3 x4 x5 x6 => Sys2Proof.Machine.execStc x0 x1 x2 x3 x4 x5 x6 s
  | .ldd x0 x1 x2 x3 x4 x5 => Sys2Proof.Machine.execLdd x0 x1 x2 x3 x4 x5 s
  | .std x0 x1 x2 x3 x4 x5 => Sys2Proof.Machine.execStd x0 x1 x2 x3 x4 x5 s
  | .ldg x0 x1 x2 x3 x4 x5 x6 => Sys2Proof.Machine.execLdg x0 x1 x2 x3 x4 x5 x6 s
  | .stg x0 x1 x2 x3 x4 x5 x6 => Sys2Proof.Machine.execStg x0 x1 x2 x3 x4 x5 x6 s
  | .atomAdd x0 x1 x2 x3 x4 x5 => Sys2Proof.Machine.execAtomAdd x0 x1 x2 x3 x4 x5 s
  | .atomXch x0 x1 x2 x3 x4 x5 => Sys2Proof.Machine.execAtomXch x0 x1 x2 x3 x4 x5 s
  | .atomMinS32 x0 x1 x2 x3 x4 x5 => Sys2Proof.Machine.execAtomMinS32 x0 x1 x2 x3 x4 x5 s
  | .atomMaxS32 x0 x1 x2 x3 x4 x5 => Sys2Proof.Machine.execAtomMaxS32 x0 x1 x2 x3 x4 x5 s
  | .atomMinZ32 x0 x1 x2 x3 x4 x5 => Sys2Proof.Machine.execAtomMinZ32 x0 x1 x2 x3 x4 x5 s
  | .atomMaxZ32 x0 x1 x2 x3 x4 x5 => Sys2Proof.Machine.execAtomMaxZ32 x0 x1 x2 x3 x4 x5 s
  | .atomAnd x0 x1 x2 x3 x4 x5 => Sys2Proof.Machine.execAtomAnd x0 x1 x2 x3 x4 x5 s
  | .atomOr x0 x1 x2 x3 x4 x5 => Sys2Proof.Machine.execAtomOr x0 x1 x2 x3 x4 x5 s
  | .atomXor x0 x1 x2 x3 x4 x5 => Sys2Proof.Machine.execAtomXor x0 x1 x2 x3 x4 x5 s
  | .atomAddB64 x0 x1 x2 x3 x4 x5 => Sys2Proof.Machine.execAtomAddB64 x0 x1 x2 x3 x4 x5 s
  | .atomXchB64 x0 x1 x2 x3 x4 x5 => Sys2Proof.Machine.execAtomXchB64 x0 x1 x2 x3 x4 x5 s
  | .atomMinS64 x0 x1 x2 x3 x4 x5 => Sys2Proof.Machine.execAtomMinS64 x0 x1 x2 x3 x4 x5 s
  | .atomMaxS64 x0 x1 x2 x3 x4 x5 => Sys2Proof.Machine.execAtomMaxS64 x0 x1 x2 x3 x4 x5 s
  | .atomMinZ64 x0 x1 x2 x3 x4 x5 => Sys2Proof.Machine.execAtomMinZ64 x0 x1 x2 x3 x4 x5 s
  | .atomMaxZ64 x0 x1 x2 x3 x4 x5 => Sys2Proof.Machine.execAtomMaxZ64 x0 x1 x2 x3 x4 x5 s
  | .atomCasB64 x0 x1 x2 x3 x4 x5 => Sys2Proof.Machine.execAtomCasB64 x0 x1 x2 x3 x4 x5 s
  | .atomfFadd x0 x1 x2 x3 x4 x5 => Sys2Proof.Machine.execAtomfFadd x0 x1 x2 x3 x4 x5 s
  | .atomfFmin x0 x1 x2 x3 x4 x5 => Sys2Proof.Machine.execAtomfFmin x0 x1 x2 x3 x4 x5 s
  | .atomfFmax x0 x1 x2 x3 x4 x5 => Sys2Proof.Machine.execAtomfFmax x0 x1 x2 x3 x4 x5 s
  | .atomfAddBf16x2 x0 x1 x2 x3 x4 x5 => Sys2Proof.Machine.execAtomfAddBf16x2 x0 x1 x2 x3 x4 x5 s
  | .atomoFadd x0 x1 x2 x3 x4 x5 => Sys2Proof.Machine.execAtomoFadd x0 x1 x2 x3 x4 x5 s
  | .atomoClose x0 x1 x2 x3 x4 => Sys2Proof.Machine.execAtomoClose x0 x1 x2 x3 x4 s
  | .cas x0 x1 x2 x3 x4 x5 => Sys2Proof.Machine.execCas x0 x1 x2 x3 x4 x5 s
  | .pop x0 x1 x2 => Sys2Proof.Machine.execPop x0 x1 x2 s
  | .popnb x0 x1 x2 x3 => Sys2Proof.Machine.execPopnb x0 x1 x2 x3 s
  | .push x0 x1 x2 => Sys2Proof.Machine.execPush x0 x1 x2 s
  | .pushnb x0 x1 x2 => Sys2Proof.Machine.execPushnb x0 x1 x2 s
  | .swp x0 x1 x2 => Sys2Proof.Machine.execSwp x0 x1 x2 s
  | .swr x0 x1 x2 x3 x4 => Sys2Proof.Machine.execSwr x0 x1 x2 x3 x4 s
  | .nop x0 => Sys2Proof.Machine.execNop x0 s
  | .yield x0 => Sys2Proof.Machine.execYield x0 s
  | .pause x0 => Sys2Proof.Machine.execPause x0 s
  | .pauseExpiry x0 x1 x2 => Sys2Proof.Machine.execPauseExpiry x0 x1 x2 s
  | .uadd x0 x1 x2 x3 => Sys2Proof.Machine.execUadd x0 x1 x2 x3 s
  | .usub x0 x1 x2 x3 => Sys2Proof.Machine.execUsub x0 x1 x2 x3 s
  | .uand x0 x1 x2 x3 => Sys2Proof.Machine.execUand x0 x1 x2 x3 s
  | .uor x0 x1 x2 x3 => Sys2Proof.Machine.execUor x0 x1 x2 x3 s
  | .uxor x0 x1 x2 x3 => Sys2Proof.Machine.execUxor x0 x1 x2 x3 s
  | .uandn x0 x1 x2 x3 => Sys2Proof.Machine.execUandn x0 x1 x2 x3 s
  | .uminS32 x0 x1 x2 x3 => Sys2Proof.Machine.execUminS32 x0 x1 x2 x3 s
  | .umaxS32 x0 x1 x2 x3 => Sys2Proof.Machine.execUmaxS32 x0 x1 x2 x3 s
  | .uminZ32 x0 x1 x2 x3 => Sys2Proof.Machine.execUminZ32 x0 x1 x2 x3 s
  | .umaxZ32 x0 x1 x2 x3 => Sys2Proof.Machine.execUmaxZ32 x0 x1 x2 x3 s
  | .uaddsatS32 x0 x1 x2 x3 => Sys2Proof.Machine.execUaddsatS32 x0 x1 x2 x3 s
  | .usubsatS32 x0 x1 x2 x3 => Sys2Proof.Machine.execUsubsatS32 x0 x1 x2 x3 s
  | .uaddsatZ32 x0 x1 x2 x3 => Sys2Proof.Machine.execUaddsatZ32 x0 x1 x2 x3 s
  | .usubsatZ32 x0 x1 x2 x3 => Sys2Proof.Machine.execUsubsatZ32 x0 x1 x2 x3 s
  | .uabsd x0 x1 x2 x3 => Sys2Proof.Machine.execUabsd x0 x1 x2 x3 s
  | .uabs x0 x1 x2 => Sys2Proof.Machine.execUabs x0 x1 x2 s
  | .ushl x0 x1 x2 x3 => Sys2Proof.Machine.execUshl x0 x1 x2 x3 s
  | .ushr x0 x1 x2 x3 => Sys2Proof.Machine.execUshr x0 x1 x2 x3 s
  | .usar x0 x1 x2 x3 => Sys2Proof.Machine.execUsar x0 x1 x2 x3 s
  | .urol x0 x1 x2 x3 => Sys2Proof.Machine.execUrol x0 x1 x2 x3 s
  | .uror x0 x1 x2 x3 => Sys2Proof.Machine.execUror x0 x1 x2 x3 s
  | .umul x0 x1 x2 x3 => Sys2Proof.Machine.execUmul x0 x1 x2 x3 s
  | .umulhS32 x0 x1 x2 x3 => Sys2Proof.Machine.execUmulhS32 x0 x1 x2 x3 s
  | .umulhZ32 x0 x1 x2 x3 => Sys2Proof.Machine.execUmulhZ32 x0 x1 x2 x3 s
  | .umulhSz32 x0 x1 x2 x3 => Sys2Proof.Machine.execUmulhSz32 x0 x1 x2 x3 s
  | .udivS32 x0 x1 x2 x3 => Sys2Proof.Machine.execUdivS32 x0 x1 x2 x3 s
  | .udivZ32 x0 x1 x2 x3 => Sys2Proof.Machine.execUdivZ32 x0 x1 x2 x3 s
  | .uremS32 x0 x1 x2 x3 => Sys2Proof.Machine.execUremS32 x0 x1 x2 x3 s
  | .uremZ32 x0 x1 x2 x3 => Sys2Proof.Machine.execUremZ32 x0 x1 x2 x3 s
  | .uaddi x0 x1 x2 x3 => Sys2Proof.Machine.execUaddi x0 x1 x2 x3 s
  | .umovl x0 x1 x2 => Sys2Proof.Machine.execUmovl x0 x1 x2 s
  | .uaddl x0 x1 x2 => Sys2Proof.Machine.execUaddl x0 x1 x2 s
  | .uandl x0 x1 x2 => Sys2Proof.Machine.execUandl x0 x1 x2 s
  | .uorl x0 x1 x2 => Sys2Proof.Machine.execUorl x0 x1 x2 s
  | .ulea x0 x1 x2 x3 x4 => Sys2Proof.Machine.execUlea x0 x1 x2 x3 x4 s
  | .ucmp x0 x1 x2 x3 x4 => Sys2Proof.Machine.execUcmp x0 x1 x2 x3 x4 s
  | .kand x0 x1 x2 x3 => Sys2Proof.Machine.execKand x0 x1 x2 x3 s
  | .kor x0 x1 x2 x3 => Sys2Proof.Machine.execKor x0 x1 x2 x3 s
  | .kxor x0 x1 x2 x3 => Sys2Proof.Machine.execKxor x0 x1 x2 x3 s
  | .kandn x0 x1 x2 x3 => Sys2Proof.Machine.execKandn x0 x1 x2 x3 s
  | .knot x0 x1 x2 => Sys2Proof.Machine.execKnot x0 x1 x2 s
  | .kfrom x0 x1 x2 => Sys2Proof.Machine.execKfrom x0 x1 x2 s
  | .kto x0 x1 x2 => Sys2Proof.Machine.execKto x0 x1 x2 s
  | .kpopc x0 x1 x2 => Sys2Proof.Machine.execKpopc x0 x1 x2 s
  | .umov x0 x1 x2 => Sys2Proof.Machine.execUmov x0 x1 x2 s
  | .rdlow x0 x1 x2 => Sys2Proof.Machine.execRdlow x0 x1 x2 s
  | .rdth x0 x1 x2 x3 => Sys2Proof.Machine.execRdth x0 x1 x2 x3 s
  | .bra x0 x1 => Sys2Proof.Machine.execBra x0 x1 s
  | .brc x0 x1 x2 x3 => Sys2Proof.Machine.execBrc x0 x1 x2 x3 s
  | .call x0 x1 => Sys2Proof.Machine.execCall x0 x1 s
  | .ret x0 => Sys2Proof.Machine.execRet x0 s
  | .jmpt x0 x1 x2 => Sys2Proof.Machine.execJmpt x0 x1 x2 s
  | .callt x0 x1 x2 => Sys2Proof.Machine.execCallt x0 x1 x2 s
  | .bdiv x0 x1 x2 x3 => Sys2Proof.Machine.execBdiv x0 x1 x2 x3 s
  | .join x0 => Sys2Proof.Machine.execJoin x0 s
  | .joinl x0 => Sys2Proof.Machine.execJoinl x0 s
  | .disp x0 x1 x2 x3 => Sys2Proof.Machine.execDisp x0 x1 x2 x3 s
  | .exit x0 => Sys2Proof.Machine.execExit x0 s
  | .exitg x0 => Sys2Proof.Machine.execExitg x0 s
  | .loop x0 x1 x2 x3 x4 x5 x6 x7 x8 x9 x10 => Sys2Proof.Machine.execLoop x0 x1 x2 x3 x4 x5 x6 x7 x8 x9 x10 s
  | .lbrk x0 x1 x2 x3 => Sys2Proof.Machine.execLbrk x0 x1 x2 x3 s
  | .spwn x0 x1 x2 x3 => Sys2Proof.Machine.execSpwn x0 x1 x2 x3 s
  | .spwnf x0 x1 => Sys2Proof.Machine.execSpwnf x0 x1 s
  | .tspn x0 x1 x2 => Sys2Proof.Machine.execTspn x0 x1 x2 s
  | .cpyi x0 x1 x2 => Sys2Proof.Machine.execCpyi x0 x1 x2 s
  | .cpyo x0 x1 x2 => Sys2Proof.Machine.execCpyo x0 x1 x2 s
  | .cpyg x0 x1 x2 x3 => Sys2Proof.Machine.execCpyg x0 x1 x2 x3 s
  | .cpys x0 x1 x2 x3 => Sys2Proof.Machine.execCpys x0 x1 x2 x3 s
  | .tmvl x0 x1 x2 => Sys2Proof.Machine.execTmvl x0 x1 x2 s
  | .cpyx x0 x1 x2 => Sys2Proof.Machine.execCpyx x0 x1 x2 s
  | .copyTransferStart x0 x1 => Sys2Proof.Machine.execCopyTransferStart x0 x1 s
  | .rcfg x0 x1 x2 x3 => Sys2Proof.Machine.execRcfg x0 x1 x2 x3 s
  | .rawait x0 x1 x2 x3 => Sys2Proof.Machine.execRawait x0 x1 x2 x3 s
  | .rrel x0 x1 x2 => Sys2Proof.Machine.execRrel x0 x1 x2 s
  | .rnst x0 x1 x2 => Sys2Proof.Machine.execRnst x0 x1 x2 s
  | .kldj x0 x1 x2 => Sys2Proof.Machine.execKldj x0 x1 x2 s
  | .kbias x0 x1 x2 => Sys2Proof.Machine.execKbias x0 x1 x2 s
  | .kclamp x0 x1 x2 => Sys2Proof.Machine.execKclamp x0 x1 x2 s
  | .kseed x0 x1 x2 => Sys2Proof.Machine.execKseed x0 x1 x2 s
  | .ksweep x0 x1 x2 x3 => Sys2Proof.Machine.execKsweep x0 x1 x2 x3 s
  | .sweep x0 => Sys2Proof.Machine.execSweep x0 s
  | .kread x0 x1 x2 => Sys2Proof.Machine.execKread x0 x1 x2 s
  | .khealth x0 x1 x2 => Sys2Proof.Machine.execKhealth x0 x1 x2 s
  | .kcal x0 x1 => Sys2Proof.Machine.execKcal x0 x1 s
  | .sqcfg x0 x1 x2 x3 => Sys2Proof.Machine.execSqcfg x0 x1 x2 x3 s
  | .sqbeg x0 x1 x2 => Sys2Proof.Machine.execSqbeg x0 x1 x2 s
  | .sqsig x0 x1 x2 => Sys2Proof.Machine.execSqsig x0 x1 x2 s
  | .sqmap x0 x1 x2 x3 => Sys2Proof.Machine.execSqmap x0 x1 x2 x3 s
  | .sqend x0 x1 => Sys2Proof.Machine.execSqend x0 x1 s
  | .sqrst x0 x1 x2 => Sys2Proof.Machine.execSqrst x0 x1 x2 s
  | .fence x0 x1 x2 x3 => Sys2Proof.Machine.execFence x0 x1 x2 x3 s
  | .cwait x0 x1 x2 => Sys2Proof.Machine.execCwait x0 x1 x2 s
  | .hwait x0 x1 => Sys2Proof.Machine.execHwait x0 x1 s
  | .htest x0 x1 x2 => Sys2Proof.Machine.execHtest x0 x1 x2 s
  | .hcancel x0 x1 => Sys2Proof.Machine.execHcancel x0 x1 s
  | .hstat x0 x1 x2 => Sys2Proof.Machine.execHstat x0 x1 x2 s
  | .barT x0 x1 => Sys2Proof.Machine.execBarT x0 x1 s
  | .barTe x0 x1 x2 => Sys2Proof.Machine.execBarTe x0 x1 x2 s
  | .barC x0 x1 => Sys2Proof.Machine.execBarC x0 x1 s
  | .barCx x0 x1 => Sys2Proof.Machine.execBarCx x0 x1 s
  | .barP x0 x1 => Sys2Proof.Machine.execBarP x0 x1 s
  | .arriveP x0 x1 x2 => Sys2Proof.Machine.execArriveP x0 x1 x2 s
  | .waitP x0 x1 => Sys2Proof.Machine.execWaitP x0 x1 s
  | .packageBarrierRelease x0 x1 => Sys2Proof.Machine.execPackageBarrierRelease x0 x1 s
  | .mbatch x0 x1 => Sys2Proof.Machine.execMbatch x0 x1 s
  | .mwait x0 x1 x2 => Sys2Proof.Machine.execMwait x0 x1 x2 s
  | .marg x0 x1 => Sys2Proof.Machine.execMarg x0 x1 s
  | .sysrd x0 x1 x2 => Sys2Proof.Machine.execSysrd x0 x1 x2 s
  | .syswr x0 x1 x2 => Sys2Proof.Machine.execSyswr x0 x1 x2 s
  | .trap x0 x1 => Sys2Proof.Machine.execTrap x0 x1 s
  | .tret x0 => Sys2Proof.Machine.execTret x0 s
  | .brk x0 x1 => Sys2Proof.Machine.execBrk x0 x1 s
  | .itld x0 x1 x2 => Sys2Proof.Machine.execItld x0 x1 x2 s
  | .itst x0 x1 x2 => Sys2Proof.Machine.execItst x0 x1 x2 s
  | .qcfg x0 x1 x2 => Sys2Proof.Machine.execQcfg x0 x1 x2 s
  | .dreg x0 x1 x2 x3 x4 => Sys2Proof.Machine.execDreg x0 x1 x2 x3 x4 s
  | .dclr x0 x1 x2 => Sys2Proof.Machine.execDclr x0 x1 x2 s
  | .mmaAcc x0 x1 x2 x3 x4 x5 x6 => Sys2Proof.Machine.execMmaAcc x0 x1 x2 x3 x4 x5 x6 s
  | .mmaSet x0 x1 x2 x3 x4 x5 x6 => Sys2Proof.Machine.execMmaSet x0 x1 x2 x3 x4 x5 x6 s
  | .mmaSub x0 x1 x2 x3 x4 x5 x6 => Sys2Proof.Machine.execMmaSub x0 x1 x2 x3 x4 x5 x6 s
  | .mmah x0 x1 => Sys2Proof.Machine.execMmah x0 x1 s
  | .mmag x0 x1 => Sys2Proof.Machine.execMmag x0 x1 s
  | .matrixOperationBegin x0 x1 x2 => Sys2Proof.Machine.execMatrixOperationBegin x0 x1 x2 s
  | .batchEnd x0 x1 x2 => Sys2Proof.Machine.execBatchEnd x0 x1 x2 s
  | .tcfg x0 x1 x2 x3 x4 x5 x6 => Sys2Proof.Machine.execTcfg x0 x1 x2 x3 x4 x5 x6 s
  | .tmovi x0 x1 x2 x3 => Sys2Proof.Machine.execTmovi x0 x1 x2 x3 s
  | .tmovo x0 x1 x2 x3 => Sys2Proof.Machine.execTmovo x0 x1 x2 x3 s
  | .tzero x0 x1 => Sys2Proof.Machine.execTzero x0 x1 s
  | .azero x0 x1 x2 => Sys2Proof.Machine.execAzero x0 x1 x2 s
  | .adrn x0 x1 x2 x3 x4 => Sys2Proof.Machine.execAdrn x0 x1 x2 x3 x4 s
  | .afil x0 x1 x2 x3 => Sys2Proof.Machine.execAfil x0 x1 x2 x3 s
  | .tdmap x0 x1 x2 => Sys2Proof.Machine.execTdmap x0 x1 x2 s
  | .aact x0 x1 x2 x3 x4 => Sys2Proof.Machine.execAact x0 x1 x2 x3 x4 s
  | .aadd x0 x1 x2 x3 x4 => Sys2Proof.Machine.execAadd x0 x1 x2 x3 x4 s
  | .aemul x0 x1 x2 x3 x4 => Sys2Proof.Machine.execAemul x0 x1 x2 x3 x4 s
  | .ascal x0 x1 x2 x3 x4 => Sys2Proof.Machine.execAscal x0 x1 x2 x3 x4 s
  | .abias x0 x1 x2 x3 x4 => Sys2Proof.Machine.execAbias x0 x1 x2 x3 x4 s
  | .arsum x0 x1 x2 x3 => Sys2Proof.Machine.execArsum x0 x1 x2 x3 s
  | .armax x0 x1 x2 x3 => Sys2Proof.Machine.execArmax x0 x1 x2 x3 s
  | .acpy x0 x1 x2 x3 => Sys2Proof.Machine.execAcpy x0 x1 x2 x3 s
  | .recon x0 x1 x2 x3 => Sys2Proof.Machine.execRecon x0 x1 x2 x3 s
  | .recoff x0 => Sys2Proof.Machine.execRecoff x0 s
  | .rmark x0 x1 => Sys2Proof.Machine.execRmark x0 x1 s
  | .trvs x0 x1 x2 => Sys2Proof.Machine.execTrvs x0 x1 x2 s
  | .rlog x0 x1 => Sys2Proof.Machine.execRlog x0 x1 s
  | .rgrad x0 x1 x2 => Sys2Proof.Machine.execRgrad x0 x1 x2 s
  | .rstat x0 x1 x2 => Sys2Proof.Machine.execRstat x0 x1 x2 s
  | .callr x0 x1 x2 => Sys2Proof.Machine.execCallr x0 x1 x2 s
  | .crsct x0 x1 x2 => Sys2Proof.Machine.execCrsct x0 x1 x2 s
  | .cagth x0 x1 x2 => Sys2Proof.Machine.execCagth x0 x1 x2 s
  | .ca2a x0 x1 x2 => Sys2Proof.Machine.execCa2a x0 x1 x2 s
  | .cbcst x0 x1 x2 => Sys2Proof.Machine.execCbcst x0 x1 x2 s
  | .cstat x0 x1 x2 => Sys2Proof.Machine.execCstat x0 x1 x2 s
  | .headerExchange x0 x1 x2 x3 => Sys2Proof.Machine.execHeaderExchange x0 x1 x2 x3 s
  | .collectiveTimeout x0 x1 => Sys2Proof.Machine.execCollectiveTimeout x0 x1 s
  | .variableLatencyResult x0 x1 x2 x3 => Sys2Proof.Machine.execVariableLatencyResult x0 x1 x2 x3 s
  | .operationRetire x0 x1 x2 => Sys2Proof.Machine.execOperationRetire x0 x1 x2 s
  | .faultResponse x0 => Sys2Proof.Machine.execFaultResponse x0 s
  | .hcpyCpyi x0 x1 => Sys2Proof.Machine.execHcpyCpyi x0 x1 s
  | .hcpyCpyo x0 x1 => Sys2Proof.Machine.execHcpyCpyo x0 x1 s
  | .hcpyCpyg x0 x1 x2 => Sys2Proof.Machine.execHcpyCpyg x0 x1 x2 s
  | .hcpyCpys x0 x1 x2 => Sys2Proof.Machine.execHcpyCpys x0 x1 x2 s
  | .hcpyTmvl x0 x1 => Sys2Proof.Machine.execHcpyTmvl x0 x1 s
  | .hcpyCpyx x0 x1 => Sys2Proof.Machine.execHcpyCpyx x0 x1 s
  | .hringAwait x0 x1 x2 => Sys2Proof.Machine.execHringAwait x0 x1 x2 s
  | .hringRel x0 x1 x2 => Sys2Proof.Machine.execHringRel x0 x1 x2 s
  | .hringStat x0 x1 => Sys2Proof.Machine.execHringStat x0 x1 s
  | .hqPop x0 x1 => Sys2Proof.Machine.execHqPop x0 x1 s
  | .hqPopnb x0 x1 => Sys2Proof.Machine.execHqPopnb x0 x1 s
  | .hqPush x0 x1 => Sys2Proof.Machine.execHqPush x0 x1 s
  | .hqPushnb x0 x1 x2 => Sys2Proof.Machine.execHqPushnb x0 x1 x2 s
  | .hwtWait x0 x1 => Sys2Proof.Machine.execHwtWait x0 x1 s
  | .hwtTest x0 x1 => Sys2Proof.Machine.execHwtTest x0 x1 s
  | .hwtCnt x0 => Sys2Proof.Machine.execHwtCnt x0 s
  | .hwtCancel x0 x1 => Sys2Proof.Machine.execHwtCancel x0 x1 s
  | .hodInstruction x0 x1 => Sys2Proof.Machine.execHodInstruction x0 x1 s
  | .ecall => Sys2Proof.Machine.execEcall s
  | .ebreak x0 => Sys2Proof.Machine.execEbreak x0 s
  | .reservationExpiry x0 x1 => Sys2Proof.Machine.execReservationExpiry x0 x1 s
  | .start x0 x1 => Sys2Proof.Machine.execStart x0 x1 s
  | .stop x0 x1 => Sys2Proof.Machine.execStop x0 x1 s
  | .release x0 x1 => Sys2Proof.Machine.execRelease x0 x1 s
  | .launch x0 x1 => Sys2Proof.Machine.execLaunch x0 x1 s
  | .task x0 x1 => Sys2Proof.Machine.execTask x0 x1 s
  | .waitValue x0 x1 => Sys2Proof.Machine.execWaitValue x0 x1 s
  | .waitValueRecheck x0 x1 => Sys2Proof.Machine.execWaitValueRecheck x0 x1 s
  | .signal x0 x1 => Sys2Proof.Machine.execSignal x0 x1 s
  | .barrier x0 x1 => Sys2Proof.Machine.execBarrier x0 x1 s
  | .contextCreate x0 x1 => Sys2Proof.Machine.execContextCreate x0 x1 s
  | .contextDestroy x0 x1 => Sys2Proof.Machine.execContextDestroy x0 x1 s
  | .resume x0 x1 => Sys2Proof.Machine.execResume x0 x1 s
  | .teamPlacement x0 x1 => Sys2Proof.Machine.execTeamPlacement x0 x1 s
  | .launchEnd x0 => Sys2Proof.Machine.execLaunchEnd x0 s
  | .spawnTimeout x0 x1 => Sys2Proof.Machine.execSpawnTimeout x0 x1 s
  | .handOverStallFlush x0 x1 => Sys2Proof.Machine.execHandOverStallFlush x0 x1 s
  | .epoch x0 => Sys2Proof.Machine.execEpoch x0 s
  | .spawnTeamStart x0 x1 x2 => Sys2Proof.Machine.execSpawnTeamStart x0 x1 x2 s
  | .taskStart x0 x1 x2 => Sys2Proof.Machine.execTaskStart x0 x1 x2 s
  | .taskCommit x0 x1 => Sys2Proof.Machine.execTaskCommit x0 x1 s
  | .preemptionRequest x0 x1 x2 x3 x4 x5 => Sys2Proof.Machine.execPreemptionRequest x0 x1 x2 x3 x4 x5 s
  | .drainBoundExpiry x0 x1 x2 => Sys2Proof.Machine.execDrainBoundExpiry x0 x1 x2 s
  | .restore x0 x1 => Sys2Proof.Machine.execRestore x0 x1 s
  | .timesliceRotation x0 => Sys2Proof.Machine.execTimesliceRotation x0 s
  | .peerUnreachable x0 => Sys2Proof.Machine.execPeerUnreachable x0 s
  | .laneFailure x0 => Sys2Proof.Machine.execLaneFailure x0 s
  | .portFailure x0 => Sys2Proof.Machine.execPortFailure x0 s
  | .flitResend x0 => Sys2Proof.Machine.execFlitResend x0 s
  | .translationInvalidation x0 => Sys2Proof.Machine.execTranslationInvalidation x0 s
  | .preEmpt x0 x1 x2 => Sys2Proof.Machine.execPreEmpt x0 x1 x2 s
  | .returnToService x0 => Sys2Proof.Machine.execReturnToService x0 s
  | .computeReset x0 => Sys2Proof.Machine.execComputeReset x0 s
  | .fullReset x0 => Sys2Proof.Machine.execFullReset x0 s
  | .firmwareUpdate x0 x1 x2 => Sys2Proof.Machine.execFirmwareUpdate x0 x1 x2 s
  | .firmwareHeartbeat => Sys2Proof.Machine.execFirmwareHeartbeat s
  | .heartbeatTimeout => Sys2Proof.Machine.execHeartbeatTimeout s
  | .securityWrite x0 => Sys2Proof.Machine.execSecurityWrite x0 s
  | .halt x0 => Sys2Proof.Machine.execHalt x0 s
  | .freeze x0 => Sys2Proof.Machine.execFreeze x0 s
  | .debugResume x0 => Sys2Proof.Machine.execDebugResume x0 s
  | .bpen x0 => Sys2Proof.Machine.execBpen x0 s
  | .powerGood x0 x1 => Sys2Proof.Machine.execPowerGood x0 x1 s
  | .throttling x0 => Sys2Proof.Machine.execThrottling x0 s
  | .illegalInstruction x0 x1 => Sys2Proof.Machine.execIllegalInstruction x0 x1 s
  | .moduleReset => Sys2Proof.Machine.execModuleReset s
  | .comparatorDrift x0 => Sys2Proof.Machine.execComparatorDrift x0 s
  | .hostAccess x0 x1 x2 => Sys2Proof.Machine.execHostAccess x0 x1 x2 s
  | .peerAccess x0 x1 x2 => Sys2Proof.Machine.execPeerAccess x0 x1 x2 s
  | .faultRingRptrAdvance x0 x1 => Sys2Proof.Machine.execFaultRingRptrAdvance x0 x1 s
  | .spdmSession x0 x1 => Sys2Proof.Machine.execSpdmSession x0 x1 s
  | .debugAttach x0 x1 => Sys2Proof.Machine.execDebugAttach x0 x1 s

end Sys2Proof.Machine
end

