-- ==== Sys2Proof/Machine/Fetch.lean ====
section
/-!
DEFINITION. Fetching an instruction: of a fragment from the code section of its launch (R52, R78, R110), and of a hod from
its instruction store (R469 to R471).
-/

namespace Sys2Proof.Machine

noncomputable section

/-! ### A fragment's instruction -/

/-- The word at a fragment's PC, or 0 where there is none: past the end of the section (R78), and, a DESIGN CHOICE
(notes/assumptions/16.md), at a TRAPPC that `tret` resumes at and that is no multiple of 4 (R129). -/
def Ctx.word (x : Ctx) : W32 :=
  if x.f.pc.toNat % 4 = 0 then x.launch.image.code.getD (x.f.pc.toNat / 4) 0 else 0

/-- The target of a first word whose major transfers control by an offset of its own: `brc`, `bdiv`, `disp` and `lbrk`. A malformed
`ret`, `jmpt` or `callt` has none here, and reports 0 although its indirect target may be illegal too: a DESIGN CHOICE
(notes/assumptions/30.md). -/
def Ctx.targetOf (x : Ctx) (w : Nat) : Option Int :=
  if wordField w 31 1 = 0 then none
  else if wordField w 24 6 = 0x19 ∨ wordField w 24 6 = 0x21 then some (x.offset (signedOf 14 w))
  else if wordField w 24 6 = 0x1C ∨ wordField w 24 6 = 0x1E then some (x.offset (signedOf 21 w))
  else none
/-- An illegal word whose TRAPINFO1 is info1, or its target if that is illegal too (R53). -/
def Ctx.illegalWord (x : Ctx) (w info1 : W32) : Instr :=
  .illegalInstruction w <|
    match x.targetOf w.toNat with
    | some target => if x.reaches target then info1 else asPc target
    | none => info1

/-- The instruction at a fragment's PC: decoded, its operands stepped in a loop body, or the illegal instruction with its
TRAPINFO1 (R52, R53, R78, R110). -/
def Ctx.fetched (x : Ctx) : Instr :=
  let w := x.word
  if !x.launch.image.holds x.f.pc.toNat then .illegalInstruction w x.f.pc
  else
    let rest := x.launch.image.code.drop (x.f.pc.toNat / 4 + 1)
    let stepped := if x.inBody then stepWord x.g.steps w.toNat else some w.toNat
    match decodeAt w rest with
    | .missing => .illegalInstruction w (BitVec.ofNat 32 (4 * x.launch.image.code.length))
    | .illegal info1 => x.illegalWord w info1
    | .ok i n =>
      match stepped with
      | none => x.illegalWord w (if n = 2 then rest.headD 0 else 0)
      | some v =>
        if v = w.toNat then i
        else
          match decodeAt (BitVec.ofNat 32 v) rest with
          | .ok j _ => j
          | _ => x.illegalWord w (if n = 2 then rest.headD 0 else 0)

/-! ### A hod's instruction -/

/-- What a hod fetches at its pc: an instruction, or the cause that halts it. -/
inductive HodFetch
  | instr (i : Instr)
  | halt (cause : Nat)
deriving DecidableEq, Repr, Inhabited

/-- The word of n bytes at a hod's pc. -/
def Hod.fetchWord (h : Hod) (n : Nat) : W32 :=
  BitVec.ofNat 32 (leNat ((List.range n).map fun i => h.istore.getZ (h.pc.toNat + i)))

/-- The instruction at a hod's pc (R469, R471). -/
def Hod.fetched (h : Hod) : HodFetch :=
  let pc := h.pc.toNat
  if pc % 2 ≠ 0 ∨ 0x10000 < pc + 2 then .halt 2
  else
    let n := if (h.fetchWord 2).toNat % 4 = 3 then 4 else 2
    if 0x10000 < pc + n then .halt 2
    else
      match decodeHod (h.fetchWord n) with
      | some (i, _) => .instr i
      | none => .halt 1

end

end Sys2Proof.Machine
end

