-- ==== Sys2Proof/Machine/Weak.lean ====
section
/-!
DEFINITION. The issue of a fragment's instruction: once what must be performed before it has been (R210 to R214), whole
or, in a turn that leaves accesses behind, with its accesses still to be performed, and the outcomes of overlap that come
with such a turn: a fixed-latency write that completes after a result in flight (R63), flags that meet a `syswr` (R134),
and two `dreg` that arrive together (R224).
-/

namespace Sys2Proof.Machine

noncomputable section

/-! ### What must be performed first -/

/-- The instruction's first word, stepped in a loop body (R110). -/
def Ctx.steppedWord (x : Ctx) : Nat :=
  if x.inBody then (stepWord x.g.steps x.word.toNat).getD x.word.toNat else x.word.toNat

/-- The first word is one of an instruction that touches registers of its group and control flow alone (R65, R67), so that
the fragment's accesses may be performed after it (R211). -/
def lightWord (w : Nat) : Bool :=
  let major := wordField w 24 6
  if wordField w 31 1 = 0 then decide (major ≤ 0x24)
  else decide (major ≤ 0x14) || decide (0x18 ≤ major ∧ major ≤ 0x1C) || major == 0x20 || major == 0x21 || major == 0x30
/-- The first word is one of an instruction whose accesses can be left behind, or of a fence between them. -/
def accessWord (w : Nat) : Bool :=
  let major := wordField w 24 6
  if wordField w 31 1 = 0 then decide (0x28 ≤ major ∧ major ≤ 0x34) || major == 0x38 || major == 0x39 else major == 0x28
/-- The first word is one of an instruction that comes after every earlier access of its group: those that read a descriptor or record
(R165, R254, R293, R327, R344, R359, R385, R417, R445), a `syswr` that may start a hod (R468), `rrel` (R266) and `exitg` (R103). -/
def groupWord (w : Nat) : Bool :=
  let major := wordField w 24 6
  let fn := wordField w 21 3
  wordField w 31 1 == 1 &&
    ([0x23, 0x24, 0x26, 0x35, 0x39, 0x3D].contains major || (major == 0x1F && fn == 1) || (major == 0x25 && fn == 2) ||
      (major == 0x27 && fn == 0) || (major == 0x3C && (fn == 0 || fn == 3)) ||
      (major == 0x31 && [0x110, 0x118].contains (wordField w 0 12)))

/-- The order and scope of an instruction that acquires: an access, or a fence. -/
def acquireOf (w : Nat) : Option (Order × Scope) :=
  let lane := wordField w 31 1 = 0
  let major := wordField w 24 6
  let o := if lane then Order.ofCode (wordField w 5 2) else Order.ofCode (wordField w 21 3)
  let c := if lane then Scope.ofCode (wordField w 2 3) else Scope.ofCode (wordField w 14 3)
  if accessWord w && !(lane && major ≥ 0x38) then
    match o, c with
    | some .acquire, some c => some (.acquire, c)
    | some .sc, some c => some (.sc, c)
    | _, _ => none
  else none

/-- The group of an instruction as an agent of the memory model. -/
def Ctx.actor (x : Ctx) : Actor := .group x.core x.slot

/-- The state once the accesses that come before the instruction are performed: those of its fragment, or of every thread of the
group; and what an acquire must find performed. In a turn that leaves accesses behind, an access awaits nothing here. None while a copy
is writing where one goes (R28). -/
def Ctx.settled (x : Ctx) (late : Bool) (s : State) : Option State :=
  let w := x.word.toNat
  if lightWord w || (late && accessWord w) then some s
  else
    (s.drain x.actor (if groupWord w then -1 else x.f.threads)).bind fun s =>
      match acquireOf w with
      | some (o, c) => s.acquire x.actor c none (o == .sc)
      | none => some s

/-! ### Accesses left to be performed (R181, R198, R210 to R212, R219, R220) -/

/-- An access of a lane instruction that issues now. -/
def lateAccess (s : State) (o : Order) (c : Scope) (work : Req × Place → LateWork) (q : Req × Place) : Late :=
  ⟨s.tick + 1, q.1.thread, o, c, q.1.addr, q.2.bytes.map (·.1), work q⟩

/-- Issues a lane instruction whose accesses are left to be performed; those with a register d have a result that lands later. -/
def Ctx.leave (x : Ctx) (s : State) (m : Bool) (d : Option Nat) (late : List Late) : Out :=
  let g := match d with
    | none => x.g
    | some d =>
      let sent := x.sendLanes x.g s.ir d (fun _ => []) none 0 none
      { sent with pend := sent.pend.zipIdx.map fun (p : Pend × Nat) =>
        if p.2 < x.g.pend.length then p.1 else { p.1 with stamp := s.tick + 1 } }
  x.done s { g with late := g.late ++ late } m 1
/-- Where a home is lost the accesses are performed at once (R438, R492), after those that the fragment has left behind. -/
def Ctx.leaveUnlessLost (x : Ctx) (s : State) (places : List (Req × Place)) (now late : Out) : Out :=
  if (s.firstLost places).isNone then late
  else if (owedBy x.f.threads x.g.late).any id then .next s
  else now

def Ctx.leaveLoad (x : Ctx) (p : Space) (m : Bool) (w : Width) (d a : Nat) (o : Order) (c : Scope) (sel : Nat) (s : State) : Out :=
  x.withLoad s p w a o c sel fun s places =>
    x.leaveUnlessLost s places (x.loadNow m w d s places)
      (x.leave s m (some d) (places.map (lateAccess s o c fun q => .load w d (x.mergedBytes q.1 q.2))))
/-- A store goes to the merge buffer as it issues where merge form says so (R226). -/
def Ctx.leaveStore (x : Ctx) (p : Space) (m : Bool) (w : Width) (d a : Nat) (o : Order) (c : Scope) (sel : Nat) (s : State) : Out :=
  x.withStore s p w d a o c sel fun s places =>
    let merged (q : Req × Place) : Bool := x.launch.form == 2 && isOutward x q.1 q.2
    x.leaveUnlessLost s places (x.storeNow m w d s places)
      (x.leave (x.performStores (x.storeData w d) (places.filter merged) s) m none
        ((places.filter fun q => !merged q).map (lateAccess s o c fun q => .store (x.storeData w d q.1.thread))))
def Ctx.leaveAtomic (x : Ctx) (op : AtomOp) (m : Bool) (d a : Nat) (o : Order) (c : Scope) (p : Space) (s : State) : Out :=
  x.withAtomic s op a o c p fun s places =>
    x.leaveUnlessLost s places (x.atomicNow op m d s places)
      (x.leave s m (some d) (places.map (lateAccess s o c fun q => .atomic op (x.laneRegs d op.regs q.1.thread) d)))
def Ctx.leaveStage (x : Ctx) (m : Bool) (d a : Nat) (o : Order) (c : Scope) (p : Space) (s : State) : Out :=
  x.withStage s a o c p fun s places =>
    x.leaveUnlessLost s places (x.stageNow m d s places)
      (x.leave s m none (places.map (lateAccess s o c fun q => .stage (x.contribution s d q))))
def Ctx.leaveClose (x : Ctx) (m : Bool) (a : Nat) (o : Order) (c : Scope) (p : Space) (s : State) : Out :=
  x.withClose s a o c p fun s places =>
    x.leaveUnlessLost s places (x.closeNow m s places) (x.leave s m none (places.map (lateAccess s o c fun _ => .close)))

/-- The elements of rank r of a sweep as accesses of its thread (R169). -/
def SweepJob.late (j : SweepJob) (o : Option ReduceOp) (d stamp r : Nat) : List Late :=
  let es := j.ofRank r
  let t := (threadsOf j.x.f.k0).getD r 0
  if es = [] then []
  else
    [⟨stamp, t, .relaxed, .group, (es.head?.map fun e => e.1.req.addr).getD 0, es.flatMap fun e => e.2.bytes.map (·.1),
      .sweep o j.before.elem d j.x.g.fpmode (j.start o r) (es.flatMap fun e => j.x.mergedBytes e.1.req e.2)⟩]
/-- The sweep issues with its element reads left to be performed; a rank without elements has its value. -/
def SweepJob.leave (j : SweepJob) (o : Option ReduceOp) (m : Bool) (d : Nat) (s : State) : Out :=
  let ranks := (List.range (countOf j.x.f.k0)).filter (j.rank ≤ ·)
  let res := j.staged.map (fun v => (v, (0 : Flags))) ++ ranks.map fun r => (j.start o r, 0)
  j.issue o m d res (s.tick + 1) (ranks.flatMap (j.late o d (s.tick + 1))) s

/-- A `fence` whose classes are empty (R206, R212). An acquire or sc fence comes after the reads of its fragment, and finds performed
what it acquires; a release or sc fence stands from now on between the accesses before it and those after it. -/
def Ctx.leaveFence (x : Ctx) (m : Bool) (o : Order) (c : Scope) (s : State) : Out :=
  let mine (e : Late) : Bool := x.f.threads.getLsbD e.thread
  let first : Option State :=
    match o with
    | .relaxed => some s
    | .release => s.drainSome x.actor fun e => mine e && e.acquires
    | _ => (s.drainSome x.actor fun e => mine e && e.reads).bind fun s => s.acquire x.actor c none (o == .sc)
  match first with
  | none => .next s
  | some s =>
    match s.ctx with
    | none => .next s
    | some x =>
      let e : Late := ⟨s.tick + 1, lowestOf x.f.threads, o, c, 0, [], .fence x.f.threads⟩
      let g := { x.g with views := if o = .acquire ∨ o = .sc then dropViews x.f.threads x.g.views else x.g.views }
      x.done s (if o = .release ∨ o = .sc then { g with late := trimLate [] (g.late ++ [e]) } else g) m 1

/-- What a `dreg` claims while it is on its way to the range directory (R224). -/
def Ctx.claimOf (x : Ctx) : Instr → Option RangeClaim
  | .dreg _ _ sp a b =>
    let w := x.dregRange sp a b
    if x.waitsOn (if sp = 0 then [a, a + 1, b] else [a, b]) ∨ x.launch.form ≠ 1 ∨ w.len = 0 ∨ (x.rangeFault w).isSome then none
    else some ⟨w.space, w.base, w.len, false⟩
  | _ => none

/-- How an instruction issues in a turn that leaves its accesses behind; none where it issues as in any turn. -/
def Ctx.later (x : Ctx) (s : State) : Instr → Option Out
  | .ld m w d a o c => some (x.leaveLoad .unit m w d a o c 0 s)
  | .st m w d a o c => some (x.leaveStore .unit m w d a o c 0 s)
  | .ldc m w d a o c sel => some (x.leaveLoad .cluster m w d a o c sel s)
  | .stc m w d a o c sel => some (x.leaveStore .cluster m w d a o c sel s)
  | .ldd m w d a o c => some (x.leaveLoad .die m w d a o c 0 s)
  | .std m w d a o c => some (x.leaveStore .die m w d a o c 0 s)
  | .ldg m w d a o c sel => some (x.leaveLoad .global m w d a o c sel s)
  | .stg m w d a o c sel => some (x.leaveStore .global m w d a o c sel s)
  | .atomAdd m d a o c p => some (x.leaveAtomic .add m d a o c p s)
  | .atomXch m d a o c p => some (x.leaveAtomic .xch m d a o c p s)
  | .atomMinS32 m d a o c p => some (x.leaveAtomic .minS32 m d a o c p s)
  | .atomMaxS32 m d a o c p => some (x.leaveAtomic .maxS32 m d a o c p s)
  | .atomMinZ32 m d a o c p => some (x.leaveAtomic .minZ32 m d a o c p s)
  | .atomMaxZ32 m d a o c p => some (x.leaveAtomic .maxZ32 m d a o c p s)
  | .atomAnd m d a o c p => some (x.leaveAtomic .and m d a o c p s)
  | .atomOr m d a o c p => some (x.leaveAtomic .or m d a o c p s)
  | .atomXor m d a o c p => some (x.leaveAtomic .xor m d a o c p s)
  | .atomAddB64 m d a o c p => some (x.leaveAtomic .addB64 m d a o c p s)
  | .atomXchB64 m d a o c p => some (x.leaveAtomic .xchB64 m d a o c p s)
  | .atomMinS64 m d a o c p => some (x.leaveAtomic .minS64 m d a o c p s)
  | .atomMaxS64 m d a o c p => some (x.leaveAtomic .maxS64 m d a o c p s)
  | .atomMinZ64 m d a o c p => some (x.leaveAtomic .minZ64 m d a o c p s)
  | .atomMaxZ64 m d a o c p => some (x.leaveAtomic .maxZ64 m d a o c p s)
  | .atomCasB64 m d a o c p => some (x.leaveAtomic .casB64 m d a o c p s)
  | .cas m d a o c p => some (x.leaveAtomic .cas m d a o c p s)
  | .atomfFadd m d a o c p => some (x.leaveAtomic .fadd m d a o c p s)
  | .atomfFmin m d a o c p => some (x.leaveAtomic .fmin m d a o c p s)
  | .atomfFmax m d a o c p => some (x.leaveAtomic .fmax m d a o c p s)
  | .atomfAddBf16x2 m d a o c p => some (x.leaveAtomic .addBf16 m d a o c p s)
  | .fence m o c ks => if (x.g.fenceWaits ks).isNone && !x.deferredFailure s o c then some (x.leaveFence m o c s) else none
  | .atomoFadd m d a o c p => some (x.leaveStage m d a o c p s)
  | .atomoClose m a o c p => some (x.leaveClose m a o c p s)
  | .swp m d i => some (sweepWith m none d i (fun _ => 1) [] (fun j s => j.leave none m d s) s)
  | .swr m o d i b =>
    some (sweepWith m (some o) d i (fun x => (x.uni b).toNat % 65536) [b] (fun j s => j.leave (some o) m d s) s)
  | .dreg m p sp a b => (x.claimOf (.dreg m p sp a b)).map fun c => .next (x.put s { x.g with claim := some c })
  | _ => none

/-! ### A fixed-latency write that completes last (R63) -/

/-- The register fields that a fixed-latency instruction of a first word writes, and its mask (R65 to R67). -/
def fixedWrites (w : Nat) : List Nat × Option Nat :=
  let major := wordField w 24 6
  let fn := wordField w 21 3
  let d := wordField w 14 7
  let wide := wordField w 17 7
  if wordField w 31 1 = 0 then
    if major = 0x10 ∨ major = 0x11 then ([], some (d % 8))
    else if 0x08 ≤ major ∧ major ≤ 0x0E then ([wide], none)
    else if major ≤ 0x1C then ([d], none)
    else ([], none)
  else if major = 0x08 ∨ major = 0x0E ∨ major = 0x30 then ([wide], none)
  else if major = 0x13 then
    if fn = 6 then ([d, d + 1], none) else if fn = 7 then ([d], none) else ([], some (d % 8))
  else if major = 0x1A ∨ (major = 0x1B ∧ fn = 2) then ([126], none)
  else if 1 ≤ major ∧ major ≤ 0x14 then ([d], none)
  else if [(0x25, 1), (0x25, 3), (0x2A, 1), (0x2A, 3), (0x2C, 0), (0x2C, 1), (0x3C, 2), (0x3C, 3), (0x3C, 6), (0x3D, 5)].contains (major, fn) then
    ([d], none)
  else ([], none)

/-- Register field r of two banks is one register (R127). -/
def sameRegister (r : Nat) (a b : Bool) : Bool := a == b || decide (r < 80) || (decide (96 ≤ r) && decide (r < 120))

/-- A result in flight once a later write of registers and of a mask by the threads of who has overtaken it, freely by thread: what it
would write there is lost (R63). Its mask bits in those threads go their own way, so that it may be in two parts. -/
def Pend.overtaken (p : Pend) (hb : Bool) (regs : List Nat) (mask : Option Nat) (who free : Mask) : List Pend :=
  let hit (r : Nat) : Bool := regs.contains r && sameRegister r p.handlerBank hb
  let chosen := who &&& free
  match p.handle with
  | some h => if hit (96 + h.reg) && free.getLsbD 0 then [] else [p]
  | none =>
    let q := { p with vals := p.vals.keep fun k _ => !(hit (k / 64) && chosen.getLsbD (k % 64)) }
    match p.mask with
    | none => [q]
    | some (k, _) =>
      if mask = some k && p.threads &&& chosen != 0 then
        let lost := { q with mask := none, threads := p.threads &&& chosen }
        if p.threads &&& ~~~chosen = 0 then [lost] else [lost, { q with threads := p.threads &&& ~~~chosen }]
      else [q]
/-- A group in which a fixed-latency instruction of first word w, of the threads of who, may have written after results that were in
flight when it issued (R63). -/
def Group.overtake (g : Group) (hb : Bool) (w : Nat) (who free : Mask) : Group :=
  { g with pend := g.pend.flatMap fun (p : Pend) => p.overtaken hb (fixedWrites w).1 (fixedWrites w).2 who free }.unpark62
/-! ### Flags that meet a `syswr` (R134) -/

/-- The flags of a fixed-latency lane instruction that has just issued: what it adds to an FPFLAGS of zero. -/
def Ctx.flagsOf (x : Ctx) (i : Instr) (s : State) : Flags :=
  match exec i (x.put s { x.g with fpflags := 0 }) with
  | .next s' => ((s'.groups.find (slotKey x.core x.slot)).map fun g => g.fpflags.setWidth 5).getD 0
  | _ => 0
/-- The free choice of a mask at a tick. -/
def freeMask (tick salt : Nat) : Mask := Config.freeWord tick salt ++ Config.freeWord tick (salt + 1)
/-- The flags of other fragments that complete after a `syswr` that they overlap: freely, by fragment. -/
def Group.overlapping (g : Group) (tick : Nat) : Flags :=
  flagUnion ((g.overlap.zipIdx.filter fun e => (freeMask tick 0x624).getLsbD e.2).map fun e => e.1.flags)

/-! ### What is in progress (R113, R134) -/

/-- What the v registers that a first word writes hold before it, in the fragment's threads. -/
def Ctx.oldValues (x : Ctx) (w : Nat) : List (Nat × W32) :=
  ((fixedWrites w).1.filter (· < 96)).flatMap fun r => (threadsOf x.f.threads).map fun t => (r * 64 + t, x.g.readV x.g.handler r t)
/-- The value of v a of thread t that a `rdth` of another fragment may still read while an instruction that writes it is in progress. -/
def Group.oldValue (g : Group) (who : Mask) (r t : Nat) : Option W32 :=
  g.overlap.findSome? fun e => if e.threads &&& who = 0 then (e.old.find? fun q => q.1 = r * 64 + t).map (·.2) else none

/-! ### Issue -/

/-- An instruction has issued: its group, or the group's team, is not what it was. -/
def State.hasIssued (s s' : State) (core slot uid : Nat) : Bool :=
  s'.groups.find (slotKey core slot) != s.groups.find (slotKey core slot) || s'.teams.find uid != s.teams.find uid
/-- An instruction has completed in its group: its fragment has moved on. -/
def Ctx.completedIn (x : Ctx) (g : Group) : Bool :=
  (g.frags[x.frag]?).map (·.pc) != some x.f.pc || g.lc != x.g.lc || g.li != x.g.li

/-- An instruction that issues whole, in a turn in which what is in flight overlaps it (R63, R113, R134). -/
def Ctx.overlapped (x : Ctx) (i : Instr) (s : State) : Out :=
  let w := x.steppedWord
  match exec i s with
  | .next s' =>
    match s'.groups.find (slotKey x.core x.slot) with
    | none => .next s'
    | some g =>
      if !s.hasIssued s' x.core x.slot x.g.team || !x.completedIn g then .next s'
      else
        match i with
        | .syswr _ _ 0x011 => .next (s'.putGroup x.core x.slot (g.raise (g.overlapping s.tick)))
        | _ =>
          let who := if (fixedWrites w).2.isSome && wordField w 31 1 = 1 then x.f.threads else x.f.k0
          let g := g.overtake x.g.handler w who (freeMask s.tick 0x620)
          let g :=
            match i with
            | .rdth _ d a b =>
              match x.g.oldValue x.f.threads a ((x.uni b).toNat % 64) with
              | some v => if Config.choice s.tick 0x62C % 2 = 1 then x.writeUni g d v else g
              | none => g
            | _ => g
          let busy : InProgress := ⟨x.f.threads, if lightWord w then x.flagsOf i s else 0, x.oldValues w⟩
          .next (s'.putGroup x.core x.slot
            (if g.handler = x.g.handler ∧ (busy.flags ≠ 0 ∨ busy.old ≠ []) then { g with overlap := g.overlap ++ [busy] } else g))
  | out => out

/-- The group's own claim of the `dreg` has met another team's: both trap (R224). -/
def Ctx.claimMet (x : Ctx) (i : Instr) : Bool :=
  (x.claimOf i).any fun c => x.g.claim == some { c with met := true }
/-- The groups of other teams of the launch whose claims the range of a `dreg` overlaps (R224). -/
def Ctx.claimants (x : Ctx) (s : State) (i : Instr) : List Nat :=
  match x.claimOf i with
  | none => []
  | some c =>
    (s.groups.entries.filter fun e => e.2.team != x.g.team && e.2.claim.any fun c' =>
      (s.teams.find e.2.team).any fun t => t.launch == x.team.launch &&
        writeRangesMeet x.team ⟨c.space, c.base, c.len⟩ t ⟨c'.space, c'.base, c'.len⟩).map (·.1)

/-- Nothing of what the group has issued is in flight any more that ends with the fragment's next instruction: the claim of a
`dreg`, and the fragment's last instruction. -/
def Group.resumed (g : Group) (f : Fragment) : Group :=
  { g with claim := none, overlap := g.overlap.filter fun e => e.threads &&& f.threads = 0 }
/-- The views of memory that an instruction of first word w leaves the threads of its fragment: none after one that orders them after
others' accesses, or whose accesses are performed at once (R213, R214). -/
def Group.keepViews (g : Group) (f : Fragment) (late : Bool) (w : Nat) : Group :=
  if lightWord w || (late && accessWord w) then g else { g with views := dropViews f.threads g.views }

/-- Both of two `dreg` that arrive together trap (R224): this one, and those of the listed groups when they issue. -/
def Ctx.bothTrap (x : Ctx) (s : State) (claimants : List Nat) : Out :=
  x.trap { s with groups := s.groups.mapValues fun k g =>
    if claimants.contains k then { g with claim := g.claim.map fun c => { c with met := true } } else g } 5 (accessInfo 1 0 6 0xFF)

/-! ### Hods (R469, R470, R478) -/

/-- The registers that a base instruction reads or writes. -/
def hodRegsOf : HodInstr → List Nat
  | .lui rd _ | .auipc rd _ | .jal rd _ => [rd]
  | .jalr rd rs1 _ | .load _ rd rs1 _ | .opImm _ rd rs1 _ | .opImm32 _ rd rs1 _ | .lr _ _ _ rd rs1 => [rd, rs1]
  | .branch _ rs1 rs2 _ | .store _ rs1 rs2 _ => [rs1, rs2]
  | .op _ rd rs1 rs2 | .op32 _ rd rs1 rs2 | .sc _ _ _ rd rs1 rs2 | .amo _ _ _ _ rd rs1 rs2 => [rd, rs1, rs2]
  | .fence .. => []
/-- A load or AMO that is still to bring a register of a list its value. -/
def Late.brings (e : Late) (regs : List Nat) : Bool :=
  match e.work with
  | .hodLoad _ rd _ | .amo _ _ _ rd => rd != 0 && regs.contains rd
  | _ => false
/-- The order of an AMO, LR or SC (R478). -/
def hodOrder (aq rl : Bool) : Order := if aq && rl then .sc else if aq then .acquire else if rl then .release else .relaxed
/-- An instruction of a hod that acquires, and whether as an sc one: FENCE, AMO, LR and SC by their order, and the custom ones that
observe a copy, a ring or a queue (R478). -/
def hodAcquires : Instr → Option Bool
  | .hodInstruction _ (.fence ..) => some true
  | .hodInstruction _ (.lr _ aq rl _ _) | .hodInstruction _ (.sc _ aq rl _ _ _) | .hodInstruction _ (.amo _ _ aq rl _ _ _) =>
    if aq then some rl else none
  | .hodInstruction _ _ => none
  | _ => some false
/-- The state in which a hod performs an instruction whole: its accesses performed, and what it acquires; none while a copy is writing
where one of them goes (R28). -/
def State.hodSettled (s : State) (core : Nat) (store : Bool) (i : Instr) : Option State :=
  let a : Actor := .hod core store
  (s.drain a 1).bind fun s =>
    (match hodAcquires i with
      | some sc => s.acquire a .team none sc
      | none => some s).map fun (s : State) => if s.viewsOf a = [] then s else s.setViews a []

/-- The memory keys of places that all lie in the team's allocation. -/
def HodCtx.windowKeys (x : HodCtx) (l : List HodPlace) : Option (List Nat) :=
  let ks := l.filterMap fun p => match p with
    | .unit off => some (x.unitPlace off)
    | _ => none
  if ks.length = l.length then some ks else none
/-- The hod goes on past an instruction of n bytes whose access is left to be performed. -/
def HodCtx.leave (x : HodCtx) (s : State) (n : Nat) (o : Order) (addr : W64) (keys : List Nat) (work : LateWork) : Out :=
  x.done s { x.h with late := x.h.late ++ [⟨s.tick + 1, 0, o, .team, addr.toNat, keys, work⟩] } n
/-- A base instruction of n bytes in a turn that leaves window accesses behind; none where it acts as in any turn. -/
def HodCtx.later (x : HodCtx) (s : State) (n : Nat) (i : HodInstr) : Option Out :=
  let r := x.h.reg
  let window (a : HodAccess) (addr : W64) (k : Nat) (o : Order) (work : LateWork) : Option Out :=
    ((x.places a addr.toNat k).bind x.windowKeys).map fun keys =>
      if keys.any s.covered then .next s else x.leave s n o addr keys work
  match i with
  | .load w rd rs1 imm =>
    let k := rvLoadBytes w
    window .load (r rs1 + imm.signExtend 64) k .relaxed (.hodLoad w rd (List.replicate k none))
  | .store w rs1 rs2 imm =>
    let k := rvStoreBytes w
    window .store (r rs1 + imm.signExtend 64) k .relaxed (.store (leBytes k (r rs2).toNat))
  | .amo op dword aq rl rd rs1 rs2 =>
    let k := if dword then 8 else 4
    if (r rs1).toNat % k ≠ 0 then none else window .store (r rs1) k (hodOrder aq rl) (.amo op dword (r rs2) rd)
  | .fence .. =>
    let a : Actor := .hod x.core x.store
    match (s.drainSome a Late.reads).bind fun s => s.acquire a .team none true with
    | none => some (.next s)
    | some s =>
      let h := s.hod x.core x.store
      let e : Late := ⟨s.tick + 1, 0, .sc, .team, 0, [], .fence 1⟩
      some (x.done s { h with late := trimLate [] (h.late ++ [e]), views := [] } n)
  | _ => none
/-- An instruction of a hod in such a turn. One that uses a register that a load has yet to bring waits for that load; one that is no
base instruction, and LR and SC, come after every access. -/
def State.hodLater (s : State) (core : Nat) (store : Bool) (i : Instr) : Out :=
  let a : Actor := .hod core store
  let whole (s : State) : Out :=
    match s.hodSettled core store i with
    | none => .next s
    | some s => exec i s
  match i with
  | .hodInstruction _ (.lr ..) | .hodInstruction _ (.sc ..) => whole s
  | .hodInstruction c j =>
    match s.drainSome a fun e => e.brings (hodRegsOf j) with
    | none => .next s
    | some s =>
      match s.hodCtx with
      | none => .next s
      | some x => (x.later s (if c then 2 else 4) j).getD (match j with
        | .amo .. => whole s
        | _ => exec i s)
  | _ => whole s

/-! ### The issue of a fragment's instruction -/

/-- Issues the instruction of the fragment, once what must be performed first is; late says that it may leave accesses behind. -/
def State.issue (s : State) (late : Bool) : Out :=
  match s.ctx with
  | none => .next s
  | some x =>
    match x.settled late s with
    | none => .next s
    | some s =>
      let s := { s with groups := s.groups.modify (slotKey x.core x.slot) fun g => (g.resumed x.f).keepViews x.f late x.word.toNat }
      match s.ctx with
      | none => .next s
      | some y =>
        if x.claimMet x.fetched then y.bothTrap s []
        else if x.claimants s x.fetched ≠ [] ∧ Config.choice s.tick 0x628 % 2 = 1 then y.bothTrap s (x.claimants s x.fetched)
        else if late then (y.later s x.fetched).getD (y.overlapped x.fetched s)
        else exec x.fetched s

end

end Sys2Proof.Machine
end

