-- ==== Sys2Proof/Machine/Turns.lean ====
section
/-!
DEFINITION. The turns of the machine: which fragment of a group issues next (R62, R86, R126, R191), the next instruction of
a hod (R469), events, and errors of the hardware (R492); and what a turn of the machine is.
-/

namespace Sys2Proof.Machine

noncomputable section

/-! ### Groups -/

/-- A group may issue: its core is not halted (R496), its team neither stopped nor leaving by flush (R404, R428), and it is
parked neither under R62 nor on a fault (R191). -/
def State.mayIssue (s : State) (core : Nat) (g : Group) (t : Team) : Bool :=
  !(s.debugOf core).halted && !t.stopped && decide (t.leaving < 3) &&
    (if g.handler then !g.hmarker && g.hpark.isNone else !g.marker && g.park.isNone)

/-- Fragment f of a group does not wait; in handler mode only the trapping fragment issues (R86, R126). -/
def Group.awake (g : Group) (f : Fragment) : Bool := f.wait == .none && (!g.handler || f.trapping)
/-- Fragment i of a group has a sweep to continue (R170), or none of the group has. -/
def Group.continues (g : Group) (i : Nat) : Bool :=
  match g.stage with
  | some st => !((g.frags[st.frag]?).any fun f => f.pc = st.pc) || i == st.frag
  | none => true
/-- The fragments that do not wait, from the rotating pointer on (R86); a parked sweep continues before the others go on
(R170). -/
def Group.candidates (g : Group) : List Nat :=
  ((List.range g.frags.length).map fun i => (g.ptr + i) % g.frags.length).filter fun i =>
    (g.frags[i]?).any g.awake && g.continues i
/-- Those that may issue: while the team leaves by save, only for a fragment that is in the middle of handing records over, since save
takes the group at instruction boundaries (R106, R130): that fragment, or the handler or the parked sweep that stands before it. -/
def Group.issuers (g : Group) (t : Team) : List Nat :=
  let l := g.candidates
  if t.leaving < 2 then l
  else if !g.frags.any fun f => f.handed != 0 then []
  else
    match l.filter fun i => (g.frags[i]?).any fun f => f.handed != 0 && !f.trapping with
    | [] => l
    | own => own

/-- The machine is about to perform the next instruction of a fragment: the pointer names the fragment that follows it in the
order of creation, round to the oldest (R86). -/
def State.aim (s : State) (core slot frag : Nat) : State :=
  { s with
    cur := .group core slot frag
    groups := s.groups.modify (slotKey core slot) fun g => { g with ptr := if frag + 1 < g.frags.length then frag + 1 else 0 } }

/-- The refusal of the fault that the fragment's instruction was parked on: its TRAPINFO1 (R191). -/
def Ctx.refusal (x : Ctx) : Option W32 :=
  (if x.g.handler then x.g.hfault else x.f.fault).bind fun f => if f.refused then some f.info1 else none
/-- The replay of a refused instruction raises Trap(0x04); a sweep's slot is as before the sweep (R170, R191). -/
def Ctx.refused (x : Ctx) (s : State) (info1 : W32) : State :=
  let g := x.g.undoSweep
  let g := if g.handler then { g with hfault := none } else g.setFrag x.frag { x.f with fault := none }
  takeTrap x.core x.slot x.frag 4 x.f.pc s.ir info1 (x.put s g)

/-- Performs the instruction at the PC of a fragment that the machine is aimed at. -/
def State.runFragment (s : State) (late : Bool) : Out :=
  match s.ctx with
  | none => .next s
  | some x =>
    let s := { s with ir := x.word }
    match x.refusal with
    | some info1 => .next (x.refused s info1)
    | none => s.issue late

/-- The first of the listed fragments whose instruction does not wait issues it. -/
def State.issueFirst (core slot uid : Nat) (late : Bool) : List Nat → State → Out
  | [], s => .next s
  | i :: rest, s =>
    match (s.aim core slot i).runFragment late with
    | .next s' => if (s.aim core slot i).hasIssued s' core slot uid then .next s' else State.issueFirst core slot uid late rest s
    | out => out

/-- The turn of a group; late says that its instruction may leave accesses behind. -/
def State.groupTurn (s : State) (core slot : Nat) (late : Bool) : Out :=
  match s.groups.find (slotKey core slot) with
  | none => .next s
  | some g =>
    match s.teams.find g.team with
    | none => .next s
    | some t => if s.mayIssue core g t then State.issueFirst core slot g.team late (g.issuers t) s else .next s

/-- An uncorrectable error of a site meets the instruction of fragment i of a group: a load or an atomic (R492), or a `trvs`
(R334). -/
def State.errorAt (s : State) (core slot i site : Nat) : Out :=
  let s' := s.aim core slot i
  match s'.ctx with
  | none => .next s
  | some x =>
    match x.fetched with
    | .trvs m d a => if [1, 2, 3, 5].contains site then x.failReverse { s' with ir := x.word } m d a site else .next s
    | _ => .next (if x.meets x.word site then x.machineCheck s' x.word site else s)
/-- The turn of a group whose next instruction meets an uncorrectable error. -/
def State.groupErrorTurn (s : State) (core slot site : Nat) : Out :=
  match s.groups.find (slotKey core slot) with
  | none => .next s
  | some g =>
    match s.teams.find g.team with
    | none => .next s
    | some t =>
      match g.issuers t with
      | i :: _ => if s.mayIssue core g t then s.errorAt core slot i site else .next s
      | [] => .next s

/-! ### Hods -/

/-- The turn of a hod that runs (R465, R469); late says that its instruction may leave accesses behind. -/
def State.hodTurn (s : State) (core : Nat) (store late : Bool) : Out :=
  let s' := { s with cur := .hod core store }
  match s'.hodCtx with
  | none => .next s
  | some x =>
    if x.h.status ≠ 2 ∨ x.team.stopped ∨ (s.debugOf core).halted then .next s
    else
      match x.h.fetched with
      | .instr i =>
        if late then s'.hodLater core store i
        else
          match s'.hodSettled core store i with
          | none => .next s
          | some s' => exec i s'
      | .halt cause => x.halt s' cause

/-! ### Events -/

/-- The rows of the opcode table that are events of the machine, which no agent fetches. -/
def isEvent : Instr → Bool
  | .pauseExpiry .. | .copyTransferStart .. | .sweep .. | .packageBarrierRelease .. | .matrixOperationBegin ..
  | .batchEnd .. | .headerExchange .. | .collectiveTimeout .. | .variableLatencyResult .. | .operationRetire ..
  | .faultResponse .. | .reservationExpiry .. | .launch .. | .task .. | .waitValue .. | .waitValueRecheck ..
  | .signal .. | .barrier .. | .contextCreate .. | .contextDestroy .. | .resume .. | .teamPlacement .. | .launchEnd ..
  | .spawnTimeout .. | .handOverStallFlush .. | .epoch .. | .spawnTeamStart .. | .taskStart .. | .taskCommit ..
  | .preemptionRequest .. | .drainBoundExpiry .. | .restore .. | .timesliceRotation .. | .peerUnreachable ..
  | .laneFailure .. | .portFailure .. | .flitResend .. | .translationInvalidation .. | .preEmpt ..
  | .returnToService .. | .computeReset .. | .fullReset .. | .firmwareUpdate .. | .firmwareHeartbeat
  | .heartbeatTimeout | .securityWrite .. | .halt .. | .freeze .. | .debugResume .. | .bpen .. | .powerGood ..
  | .throttling .. | .moduleReset | .comparatorDrift .. | .hostAccess .. | .peerAccess .. | .faultRingRptrAdvance ..
  | .spdmSession .. | .debugAttach .. => true
  | _ => false

/-! ### Turns -/

/-- Every access that an agent has left behind is performed, and nobody sees an earlier state of memory any more. -/
def State.finishEvery (s : State) : State := (s.actors.foldl State.finishAll s).forgetViews
/-- A copy is writing where an access goes that an agent has left behind (R28). -/
def State.anyCovered (s : State) : Bool := s.actors.any fun a => (s.lateOf a).any fun e => e.places.any s.covered
/-- An event after which a home is lost, or an old translation gone (R188, R438, R494): the accesses that have issued are performed
before it. -/
def endsAccesses : Instr → Bool
  | .peerUnreachable .. | .computeReset .. | .fullReset .. | .translationInvalidation .. => true
  | _ => false
/-- The outside agent that reads memory in an event, and its scope (R222): a host port for its packets and accesses, or a peer. -/
def outerReader : Instr → Option (Actor × Scope)
  | .hostAccess .. | .waitValue .. | .waitValueRecheck .. | .signal .. => some (.host, .module)
  | .peerAccess .. => some (.peer, .domain)
  | _ => none
/-- An event after which no earlier state of memory is seen: the retirement of an operation (R24, R28) and the answer to a fault (R191). -/
def endsViews : Instr → Bool
  | .operationRetire .. | .faultResponse .. => true
  | _ => false
/-- The state in which an event happens: with the accesses performed that it ends or acquires; none while a copy keeps one of them back
(R28). -/
def State.beforeEvent (s : State) (i : Instr) : Option State :=
  if endsAccesses i then (if s.anyCovered then none else some s.finishEvery)
  else if endsViews i then some s.forgetViews
  else
    match outerReader i with
    | some (a, c) => s.acquire a c none false
    | none => some s
/-- What follows when an access has been performed that a group or a hod left behind: a group or team that has nothing else left goes. -/
def State.afterAccess (s : State) (a : Actor) : State :=
  match a with
  | .group core slot => s.settle core slot
  | .hod core store => ((s.hods.find (hodKey core store)).bind (·.claim)).elim s s.settleTeam
  | _ => s

/-- What happens in one turn. -/
def State.runTurn (s : State) (t : Turn) : Out :=
  match t with
  | .group core slot => s.groupTurn core slot false
  | .groupLate core slot => s.groupTurn core slot true
  | .perform a ix piece src => .next ((s.performTurn a ix piece src).afterAccess a)
  | .view a => .next (s.takeView a)
  | .colour core => .next (s.sweepOn core 1)
  | .fill ctx va => .next (s.fillTlb ctx va)
  | .look core agent seq => .next (s.lookAt core agent seq)
  | .hod core store => s.hodTurn core store false
  | .hodLate core store => s.hodTurn core store true
  | .event i =>
    if isEvent i then
      match s.beforeEvent i with
      | some s' => exec i { s' with cur := .none }
      | none => .next s
    else .next s
  | .eventError i write =>
    if isEvent i then
      match s.beforeEvent i with
      | none => .next s
      | some s' =>
        match exec i { s' with cur := .none, portFails := some write } with
        | .next s' => .next { s' with portFails := none }
        | out => out
    else .next s
  | .statusCopy die => .next (s.copyStatus die)
  | .groupError core slot site => s.groupErrorTurn core slot site
  | .hodError core store => .next (s.failHod core store)
  | .opError core agent cls => .next (s.failOp core agent cls)
  | .taskError task => .next (s.failCopyBack task)
  | .corrected site core => .next (s.logFree 1 site core 0)

/-- The turn that comes next: the first one listed, or where none is listed the one that the configuration names
(notes/assumptions/2.md). -/
def State.nextTurn (s : State) : Turn := s.turns.headD (Config.schedule s.tick)
/-- The machine once that turn has been taken up. -/
def State.takeTurn (s : State) : State := { s with turns := s.turns.drop 1 }
/-- The end of a turn: the counter of free values advances, and nobody acts. -/
def State.endTurn (s : State) : State := { s with tick := s.tick + 1, cur := .none, ir := 0 }

/-! ### Placing one instruction -/

/-- The kernel of the team that runs a placed instruction: one group, every tile and accumulator, 64 KiB of unit store. -/
def placedKernel : Kernel :=
  { entry := 0, trapEntry := none, groups := 1, tiles := 16, accs := 32, trapTiles := 0, unit := 65536, clw := 1
    clh := 1, spawnPool := 0, det := 0, caps := 7 }
/-- The launch that runs a placed instruction, with its code. -/
def placedLaunch (code : List W32) : Launch :=
  { port := 0, ring := 0, serial := 0, tag := 0, intr := false, gen := 1, image := ⟨code, []⟩, kernel := placedKernel
    hkernel := none, cogrid := false, tslice := false, restart := false, mergepriv := false, latclass := 0, db := []
    gridx := 1, gridy := 1, dieWin := 65536, mb := 0, spill := 0, lrt := 0, lrtn := 0, timeout := 0, key := 0, spbuf := 0
    spbufn := 0, rpoolOff := 0, rpoolSz := 0, estimate := 0, regions := [], compl := 0, form := 0, unplaced := [], ended := []
    windows := Map.empty.set 0 0, barriers := Map.empty, mergeLeft := [], formIx := 0, spheld := [], ending := none }
/-- The context of that launch. -/
def placedContext : Context :=
  { live := true, gen := 1, port := 0, root := 0, savepool := 0, savepoolsz := 0, faultRing := 0, faultResp := 0
    secure := false, destroying := none, discarded := 0, respStuck := false }

/-- A launch of context 0 with one team of one group on core 0, whose code starts with the given words. -/
def State.placeCode (s : State) (code : List W32) : State :=
  let uid := s.nextTeam
  { s with
    contexts := s.contexts.set 0 placedContext
    launches := s.launches.set 1 (placedLaunch code)
    teams := s.teams.set uid (Team.created 1 placedKernel 0 ⟨0, 0, 0, [0]⟩ [uid] [])
    nextTeam := uid + 1
    groups := s.groups.set (slotKey 0 0) (Group.created uid 0 0 (-1))
    debugs := s.debugs.erase 0
    turns := [.group 0 0] }
/-- The same, with the load hod of core 0 claimed and running a word at address 0. -/
def State.placeHod (s : State) (w : W32) : State :=
  let h : Hod :=
    { Hod.off with
      claim := some s.nextTeam, status := 2
      istore := (leBytes 4 w.toNat).zipIdx.foldl (fun m p => m.setZ p.2 p.1) Map.empty }
  { (s.placeCode []).putHod 0 false h with turns := [.hod 0 false] }

/-- Places the instruction whose words are w, the first in bits 31 to 0: for the load hod of core 0 if it is a word of its
custom space, else for a group of core 0. -/
def State.placeWord (s : State) (w : Nat) : State :=
  if (decodeHodCustom (w % 2 ^ 32)).isSome then s.placeHod (BitVec.ofNat 32 w)
  else s.placeCode (BitVec.ofNat 32 w :: BitVec.ofNat 32 (w / 2 ^ 32) :: List.replicate 128 0)

end

end Sys2Proof.Machine
end

