-- ==== Sys2Proof/Machine/Step.lean ====
section
/-!
DEFINITION. The step of the machine: one turn.
-/

namespace Sys2Proof.Machine

noncomputable section

/-- One step: the turn that comes next, and the end of the turn. -/
def step (s : State) : Host.Outcome State Fault Refusal :=
  match s.takeTurn.runTurn s.nextTurn with
  | .next s' => .next s'.endTurn
  | out => out

/-- s with the instruction whose bits are w placed so that the next step runs it; the bits from nbits up are zero, so
that w holds them all (notes/assumptions/4.md). -/
def State.withFetchWord (s : State) (nbits w : Nat) : State := s.placeWord (w % 2 ^ nbits)

end

end Sys2Proof.Machine
end

