-- ==== Sys2Proof/Safety.lean ====
section
/-!
DEFINITION. The terms in which statements about the machine are written: the functions of the spec's tables in plain
integer arithmetic, what an instruction writes into registers, and what it leaves unchanged.
-/

namespace Sys2Proof.Machine

/-! ### The functions of R112, R138 and R139 in integer arithmetic -/

/-- The word that is x modulo 2^32. -/
def wrap (x : Int) : W32 := BitVec.ofInt 32 x
/-- x held between lo and hi. -/
def clamped (lo hi x : Int) : Int := max lo (min hi x)
/-- Bit i of the word is p i. -/
def wordOf (p : Nat → Bool) : W32 := BitVec.ofNat 32 (((List.range 32).map fun i => if p i then 2 ^ i else 0).sum)

/-- A function of two words, by its name in R112; s(a) is `a.toInt` and z(a) is `a.toNat`. -/
inductive AluFn
  | add | sub | and | or | xor | andn | minS | maxS | minZ | maxZ | addsatS | subsatS | addsatZ | subsatZ | absd
  | shl | shr | sar | rol | ror | mul | mulhS | mulhZ | mulhSz | divS | divZ | remS | remZ
deriving DecidableEq, Repr

/-- The rows of R112 with two sources. -/
def AluFn.value (f : AluFn) (a b : W32) : W32 :=
  let n := b.toNat % 32
  match f with
  | .add => wrap (a.toInt + b.toInt)
  | .sub => wrap (a.toInt - b.toInt)
  | .and => wordOf fun i => a.getLsbD i && b.getLsbD i
  | .or => wordOf fun i => a.getLsbD i || b.getLsbD i
  | .xor => wordOf fun i => a.getLsbD i != b.getLsbD i
  | .andn => wordOf fun i => a.getLsbD i && !b.getLsbD i
  | .minS => wrap (min a.toInt b.toInt)
  | .maxS => wrap (max a.toInt b.toInt)
  | .minZ => wrap (min a.toNat b.toNat)
  | .maxZ => wrap (max a.toNat b.toNat)
  | .addsatS => wrap (clamped (-2 ^ 31) (2 ^ 31 - 1) (a.toInt + b.toInt))
  | .subsatS => wrap (clamped (-2 ^ 31) (2 ^ 31 - 1) (a.toInt - b.toInt))
  | .addsatZ => wrap (clamped 0 (2 ^ 32 - 1) (a.toNat + b.toNat))
  | .subsatZ => wrap (clamped 0 (2 ^ 32 - 1) (a.toNat - b.toNat))
  | .absd => wrap |a.toInt - b.toInt|
  | .shl => wrap (a.toNat * 2 ^ n)
  | .shr => wrap (a.toNat / 2 ^ n)
  | .sar => wrap (a.toInt / 2 ^ n)
  | .rol => wordOf fun i => a.getLsbD ((i + 32 - n) % 32)
  | .ror => wordOf fun i => a.getLsbD ((i + n) % 32)
  | .mul => wrap (a.toInt * b.toInt)
  | .mulhS => wrap (a.toInt * b.toInt / 2 ^ 32)
  | .mulhZ => wrap ((a.toNat * b.toNat : Nat) / 2 ^ 32)
  | .mulhSz => wrap (a.toInt * b.toNat / 2 ^ 32)
  | .divS => if b = 0 then 0xFFFFFFFF else wrap (a.toInt.tdiv b.toInt)
  | .divZ => if b = 0 then 0xFFFFFFFF else wrap (a.toNat / b.toNat)
  | .remS => if b = 0 then a else wrap (a.toInt.tmod b.toInt)
  | .remZ => if b = 0 then a else wrap (a.toNat % b.toNat)

/-- A function of one word: `abs` and `uabs` (R112) and the rows of R138. -/
inductive BitFn
  | abs | clz | ctz | popc | brev | bswap | sxb | sxh | zxh
deriving DecidableEq, Repr

/-- The rows of R138 with one source, and `abs`. -/
def BitFn.value (f : BitFn) (a : W32) : W32 :=
  match f with
  | .abs => wrap |a.toInt|
  | .clz => wrap (32 - a.toNat.size : Nat)
  | .ctz => wrap (((List.range 32).find? fun i => a.getLsbD i).getD 32 : Nat)
  | .popc => wrap ((List.range 32).countP fun i => a.getLsbD i : Nat)
  | .brev => wordOf fun i => a.getLsbD (31 - i)
  | .bswap => wordOf fun i => a.getLsbD (8 * (3 - i / 8) + i % 8)
  | .sxb => wrap (signedOf 8 a.toNat)
  | .sxh => wrap (signedOf 16 a.toNat)
  | .zxh => wrap (a.toNat % 2 ^ 16 : Nat)

/-- The position, the effective length and bit i of the mask of a bit field (R139). -/
def fieldPos (b : W32) : Nat := b.toNat % 32
def fieldLen (b : W32) : Nat := min (b.toNat / 32 % 64) (32 - fieldPos b)
def inField (b : W32) (i : Nat) : Bool := decide (fieldPos b ≤ i ∧ i < fieldPos b + fieldLen b)

/-- The conditions of ICMP and `ucmp` (R65, R140). -/
def specHolds (c : IntCond) (a b : W32) : Bool :=
  match c with
  | .eq => decide (a.toInt = b.toInt)
  | .ne => decide (a.toInt ≠ b.toInt)
  | .lt => decide (a.toInt < b.toInt)
  | .le => decide (a.toInt ≤ b.toInt)
  | .gt => decide (b.toInt < a.toInt)
  | .ge => decide (b.toInt ≤ a.toInt)
  | .ltz => decide (a.toInt < 0)
  | .gez => decide (0 ≤ a.toInt)

/-- The real value of a number that is finite, scaled by 2^200: every finite f32 is a multiple of 2^−149. -/
def Num.scaledValue : Num → Option Int
  | .fin n m e => some ((if n then -1 else 1) * (m * 2 ^ (e + 200).toNat))
  | _ => none

/-- The outcome of an FCMP condition on f32 values (R140), and whether NV is raised. -/
def floatHolds (c : FloatCond) (daz : Bool) (a b : W32) : Bool × Bool :=
  let x := decodeNum f32 daz a.toNat
  let y := decodeNum f32 daz b.toNat
  let nan := x.isNan || y.isNan
  let quiet := x == .nan true || y == .nan true
  -- −∞ lies below every finite value, and +∞ above
  let place (n : Num) : Int := match n with
    | .inf neg => (if neg then -1 else 1) * 2 ^ 400
    | n => n.scaledValue.getD 0
  match c with
  | .eq => (!nan && decide (place x = place y), quiet)
  | .ne => (nan || decide (place x ≠ place y), quiet)
  | .lt => (!nan && decide (place x < place y), nan)
  | .le => (!nan && decide (place x ≤ place y), nan)
  | .gt => (!nan && decide (place y < place x), nan)
  | .ge => (!nan && decide (place y ≤ place x), nan)
  | .unord => (nan, quiet)
  | .ord => (!nan, quiet)

/-! ### What an instruction writes -/

/-- The state after the instruction of x has completed with its group as g (R62, R109). -/
abbrev Ctx.completes (x : Ctx) (s : State) (g : Group) (m : Bool) (n : Nat) : State := x.put s (g.advance x.frag m n)

/-- No source register of the instruction is a pending g register (R115). -/
def Ctx.ready (x : Ctx) (srcs : List Nat) : Prop := x.waitsOn srcs = false

/-- g' is g but that v d holds f t in each thread t of k, in the bank of the group's mode (R40, R127). -/
def Group.lanesSet (g g' : Group) (d : Nat) (k : Mask) (f : Nat → W32) : Prop :=
  (∀ (b : Bool) (r t : Nat), t < 64 →
    g'.readV b r t = if r = d ∧ k.getLsbD t = true ∧ (80 ≤ d → b = g.handler) then f t else g.readV b r t) ∧
  g' = { g with v := g'.v, hv := g'.hv }

/-- g' is g but that g n holds v, in the bank of the group's mode, and is not pending; g0 discards it (R45, R115). -/
def Group.scalarSet (g g' : Group) (n : Nat) (v : W32) : Prop :=
  (∀ (b : Bool) (k : Nat),
    g'.readG b k = if k = n ∧ n ≠ 0 ∧ (24 ≤ n → b = g.handler) then v else g.readG b k) ∧
  (∀ (b : Bool) (k : Nat), g'.isPending b k = true ↔ g.isPending b k = true ∧ (k ≠ n ∨ bankOf b n ≠ bankOf g.handler n)) ∧
  g' = { g with g := g'.g, hg := g'.hg, pendingRegs := g'.pendingRegs }

/-- g' is what a uniform write of v to register field d leaves: every active thread's v register, or a g register (R43). -/
def Ctx.uniformSet (x : Ctx) (g' : Group) (d : Nat) (v : W32) : Prop :=
  if d < 96 then x.g.lanesSet g' d x.f.k0 fun _ => v else x.g.scalarSet g' (d - 96) v

/-- g' is g but for the mask that mask field k names, whose bits in the set w are those of v (R97): k0 is the fragment's. -/
def Ctx.maskSet (x : Ctx) (g' : Group) (k : Nat) (w v : Mask) : Prop :=
  (∀ n t, n < 8 → t < 64 →
    (if n = 0 then (g'.frags[x.frag]?.map (·.k0)).getD 0 else g'.k.getZ n).getLsbD t =
      if n = k ∧ w.getLsbD t = true then v.getLsbD t else (x.mask n).getLsbD t) ∧
  (if k = 0 then g' = { x.g with frags := x.g.frags.set x.frag { x.f with k0 := ((g'.frags[x.frag]?).map (·.k0)).getD 0 } }
   else g' = { x.g with k := g'.k })

/-- fl is the union over the active threads of x of the flags f t (R134). -/
def Ctx.unionOf (x : Ctx) (f : Nat → Flags) (fl : Flags) : Prop :=
  ∀ j, j < 5 → (fl.getLsbD j = true ↔ ∃ t, t < 64 ∧ x.f.k0.getLsbD t = true ∧ (f t).getLsbD j = true)

/-- The state after an instruction that raises flags fl has completed with its group otherwise as g: FPFLAGS receives them, and
an enabled one takes the arithmetic trap with TRAPPC the next instruction (R123, R134, R135). -/
def Ctx.completesFlagged (x : Ctx) (s : State) (g : Group) (fl : Flags) (m : Bool) (n : Nat) : State :=
  let g := { g with fpflags := g.fpflags ||| fl.setWidth 32 }
  let hit := fl &&& (x.g.fpmode >>> 4).setWidth 5
  if hit = 0 then x.completes s g m n
  else takeTrap x.core x.slot x.frag 3 (((g.advance x.frag m n).frags[x.frag]?.map (·.pc)).getD 0) s.ir (hit.setWidth 32)
    (x.completes s g m n)

/-- g' is g with a variable-latency result more: thread t of k0 is to receive f t in v d (and in v d + 1, … if f t has
several values), or bit t of a mask is to receive its bit; the traps that FPMODE enables now go with it (R133), and it awaits no
access; nothing is sent for an empty k0 (R62, R98). -/
def Ctx.sent (x : Ctx) (g g' : Group) (word : W32) (d : Nat) (f : Nat → List W32) (mask : Option (Nat × Mask)) (fl : Flags) : Prop :=
  if x.f.k0 = 0 then g' = g
  else ∃ p, g' = { g with pend := g.pend ++ [p] } ∧ p.handlerBank = g.handler ∧ p.word = word ∧ p.issued = x.f.k0 ∧
    p.threads = x.f.k0 ∧ p.mask = mask ∧ p.handle = none ∧ p.flags = fl ∧ p.sweep = none ∧
    p.trapen = (g.fpmode >>> 4).setWidth 5 ∧ p.stamp = 0 ∧
    ∀ r t, t < 64 → p.vals.find (r * 64 + t) =
      if x.f.k0.getLsbD t = true ∧ d ≤ r then (f t)[r - d]? else none

/-- t differs from s in nothing but the group of key k. -/
def State.onlyGroup (s t : State) (k : Nat) : Prop :=
  { t with groups := s.groups } = s ∧ ∀ j, j ≠ k → t.groups.find j = s.groups.find j

end Sys2Proof.Machine
end

