-- ==== Sys2Proof/Certificates/Slice0/Obligations.lean ====
section
/-!
DEFINITION. The statements for the provers.
-/

open Sys2Proof Sys2Proof.Machine

namespace Sys2Proof.Machine

/-- What an integer, bit, sign or move instruction of the lane engine does: m its switch marker, n its words, d its destination, srcs the registers it
reads, and the value that thread t receives (R137 to R142, R148). -/
structure LaneRow where
  m : Bool
  n : Nat
  d : Nat
  srcs : List Nat
  value : Ctx → Nat → W32

/-- A row with the two sources a and b. -/
def laneTwo (m : Bool) (d a b : Nat) (f : W32 → W32 → W32) : LaneRow :=
  ⟨m, 1, d, [a, b], fun x t => f (x.lane a t) (x.lane b t)⟩
/-- A row with the one source a. -/
def laneOne (m : Bool) (d a : Nat) (f : W32 → W32) : LaneRow :=
  ⟨m, 1, d, [a], fun x t => f (x.lane a t)⟩
/-- A row of two words whose destination is a source too. -/
def laneLit (m : Bool) (d : Nat) (f : W32 → W32) : LaneRow := ⟨m, 2, d, [], fun x t => f (x.lane d t)⟩

/-- The functions of `shi` (R65). -/
def shiftFn : ShiftKind → AluFn
  | .shl => .shl
  | .shr => .shr
  | .sar => .sar
  | .rol => .rol

/-- A ten-bit immediate as the word it stands for (R51). -/
def immWord (i : BitVec 10) : W32 := wrap i.toInt

/-- The bit that `fcls` sets for an f32 pattern: 0 signalling NaN, 1 quiet NaN, 2 −∞, 3 negative normal, 4 negative subnormal,
5 −0, 6 +0, 7 positive subnormal, 8 positive normal, 9 +∞ (R148). -/
def classOf (w : Nat) : Nat :=
  let neg := 2 ^ 31 ≤ w
  let e := w / 2 ^ 23 % 2 ^ 8
  let f := w % 2 ^ 23
  if e = 255 then (if f = 0 then (if neg then 2 else 9) else if f < 2 ^ 22 then 0 else 1)
  else if e = 0 then (if f = 0 then (if neg then 5 else 6) else if neg then 4 else 7)
  else if neg then 3 else 8

/-- The integer, bit, sign and move instructions of the lane engine (R137 to R139, R141, R142, R148). -/
inductive LaneDoes : Instr → LaneRow → Prop
  | add m d a b : LaneDoes (.add m d a b) (laneTwo m d a b AluFn.add.value)
  | sub m d a b : LaneDoes (.sub m d a b) (laneTwo m d a b AluFn.sub.value)
  | and m d a b : LaneDoes (.and m d a b) (laneTwo m d a b AluFn.and.value)
  | or m d a b : LaneDoes (.or m d a b) (laneTwo m d a b AluFn.or.value)
  | xor m d a b : LaneDoes (.xor m d a b) (laneTwo m d a b AluFn.xor.value)
  | andn m d a b : LaneDoes (.andn m d a b) (laneTwo m d a b AluFn.andn.value)
  | minS32 m d a b : LaneDoes (.minS32 m d a b) (laneTwo m d a b AluFn.minS.value)
  | maxS32 m d a b : LaneDoes (.maxS32 m d a b) (laneTwo m d a b AluFn.maxS.value)
  | minZ32 m d a b : LaneDoes (.minZ32 m d a b) (laneTwo m d a b AluFn.minZ.value)
  | maxZ32 m d a b : LaneDoes (.maxZ32 m d a b) (laneTwo m d a b AluFn.maxZ.value)
  | addsatS32 m d a b : LaneDoes (.addsatS32 m d a b) (laneTwo m d a b AluFn.addsatS.value)
  | subsatS32 m d a b : LaneDoes (.subsatS32 m d a b) (laneTwo m d a b AluFn.subsatS.value)
  | addsatZ32 m d a b : LaneDoes (.addsatZ32 m d a b) (laneTwo m d a b AluFn.addsatZ.value)
  | subsatZ32 m d a b : LaneDoes (.subsatZ32 m d a b) (laneTwo m d a b AluFn.subsatZ.value)
  | absd m d a b : LaneDoes (.absd m d a b) (laneTwo m d a b AluFn.absd.value)
  | shl m d a b : LaneDoes (.shl m d a b) (laneTwo m d a b AluFn.shl.value)
  | shr m d a b : LaneDoes (.shr m d a b) (laneTwo m d a b AluFn.shr.value)
  | sar m d a b : LaneDoes (.sar m d a b) (laneTwo m d a b AluFn.sar.value)
  | rol m d a b : LaneDoes (.rol m d a b) (laneTwo m d a b AluFn.rol.value)
  | ror m d a b : LaneDoes (.ror m d a b) (laneTwo m d a b AluFn.ror.value)
  | mul m d a b : LaneDoes (.mul m d a b) (laneTwo m d a b AluFn.mul.value)
  | mulhS32 m d a b : LaneDoes (.mulhS32 m d a b) (laneTwo m d a b AluFn.mulhS.value)
  | mulhZ32 m d a b : LaneDoes (.mulhZ32 m d a b) (laneTwo m d a b AluFn.mulhZ.value)
  | mulhSz32 m d a b : LaneDoes (.mulhSz32 m d a b) (laneTwo m d a b AluFn.mulhSz.value)
  | divS32 m d a b : LaneDoes (.divS32 m d a b) (laneTwo m d a b AluFn.divS.value)
  | divZ32 m d a b : LaneDoes (.divZ32 m d a b) (laneTwo m d a b AluFn.divZ.value)
  | remS32 m d a b : LaneDoes (.remS32 m d a b) (laneTwo m d a b AluFn.remS.value)
  | remZ32 m d a b : LaneDoes (.remZ32 m d a b) (laneTwo m d a b AluFn.remZ.value)
  | abs m d a : LaneDoes (.abs m d a) (laneOne m d a BitFn.abs.value)
  | clz m d a : LaneDoes (.clz m d a) (laneOne m d a BitFn.clz.value)
  | ctz m d a : LaneDoes (.ctz m d a) (laneOne m d a BitFn.ctz.value)
  | popc m d a : LaneDoes (.popc m d a) (laneOne m d a BitFn.popc.value)
  | brev m d a : LaneDoes (.brev m d a) (laneOne m d a BitFn.brev.value)
  | bswap m d a : LaneDoes (.bswap m d a) (laneOne m d a BitFn.bswap.value)
  | sxb m d a : LaneDoes (.sxb m d a) (laneOne m d a BitFn.sxb.value)
  | sxh m d a : LaneDoes (.sxh m d a) (laneOne m d a BitFn.sxh.value)
  | zxh m d a : LaneDoes (.zxh m d a) (laneOne m d a BitFn.zxh.value)
  | mad m d a b : LaneDoes (.mad m d a b) ⟨m, 1, d, [a, b], fun x t => wrap ((x.lane d t).toInt + (x.lane a t).toInt * (x.lane b t).toInt)⟩
  | msb m d a b : LaneDoes (.msb m d a b) ⟨m, 1, d, [a, b], fun x t => wrap ((x.lane d t).toInt - (x.lane a t).toInt * (x.lane b t).toInt)⟩
  | bfxS32 m d a b : LaneDoes (.bfxS32 m d a b) (laneTwo m d a b fun a b =>
    if fieldLen b = 0 then 0 else wordOf fun i => a.getLsbD (fieldPos b + min i (fieldLen b - 1)))
  | bfxZ32 m d a b : LaneDoes (.bfxZ32 m d a b) (laneTwo m d a b fun a b => wordOf fun i => decide (i < fieldLen b) && a.getLsbD (fieldPos b + i))
  | bfi m d a b : LaneDoes (.bfi m d a b) ⟨m, 1, d, [a, b], fun x t =>
      wordOf fun i => if inField (x.lane b t) i then (x.lane a t).getLsbD (i - fieldPos (x.lane b t)) else (x.lane d t).getLsbD i⟩
  | addi m d a i : LaneDoes (.addi m d a i) (laneOne m d a fun a => AluFn.add.value a (immWord i))
  | andi m d a i : LaneDoes (.andi m d a i) (laneOne m d a fun a => AluFn.and.value a (immWord i))
  | ori m d a i : LaneDoes (.ori m d a i) (laneOne m d a fun a => AluFn.or.value a (immWord i))
  | xori m d a i : LaneDoes (.xori m d a i) (laneOne m d a fun a => AluFn.xor.value a (immWord i))
  | muli m d a i : LaneDoes (.muli m d a i) (laneOne m d a fun a => AluFn.mul.value a (immWord i))
  | shi m d a k n : LaneDoes (.shi m d a k n) (laneOne m d a fun a => (shiftFn k).value a (BitVec.ofNat 32 n))
  | movl m d lit : LaneDoes (.movl m d lit) (laneLit m d fun _ => lit)
  | addl m d lit : LaneDoes (.addl m d lit) (laneLit m d fun v => AluFn.add.value v lit)
  | andl m d lit : LaneDoes (.andl m d lit) (laneLit m d fun v => AluFn.and.value v lit)
  | orl m d lit : LaneDoes (.orl m d lit) (laneLit m d fun v => AluFn.or.value v lit)
  | lea m h d a b : LaneDoes (.lea m h d a b) (laneTwo m d a b fun a b => wrap (a.toNat + b.toNat * 2 ^ h))
  | sel m k d a b : LaneDoes (.sel m k d a b) ⟨m, 1, d, [a, b], fun x t => if (x.mask k).getLsbD t then x.lane a t else x.lane b t⟩
  | mov m d a : LaneDoes (.mov m d a) (laneOne m d a fun a => a)
  | kbit m d k : LaneDoes (.kbit m d k) ⟨m, 1, d, [], fun x t => if (x.mask k).getLsbD t then 1 else 0⟩
  | tid m d : LaneDoes (.tid m d) ⟨m, 1, d, [], fun _ t => wrap t⟩
  | sysv m d n : LaneDoes (.sysv m d n) (⟨m, 1, d, [], fun x t =>
    if n = 0 then wrap ((x.team.teamIx * x.launch.kernel.groups + x.g.gix) * 64 + t)
    else if n = 1 then wrap ((List.range 64).countP fun u => x.f.k0.getLsbD u && decide (u < t))
    else if n = 2 then wrap ((List.range 64).countP fun u => x.f.k0.getLsbD u)
    else x.g.srcnt.getZ t⟩)
  | fabs m d a : LaneDoes (.fabs m d a) (laneOne m d a fun a => wordOf fun i => decide (i ≠ 31) && a.getLsbD i)
  | fneg m d a : LaneDoes (.fneg m d a) (laneOne m d a fun a => wordOf fun i => a.getLsbD i != decide (i = 31))
  | fcpys m d a b : LaneDoes (.fcpys m d a b) (laneTwo m d a b fun a b => wordOf fun i => (if i = 31 then b else a).getLsbD i)
  | fxsgn m d a b : LaneDoes (.fxsgn m d a b)
      (laneTwo m d a b fun a b => wordOf fun i => a.getLsbD i != (decide (i = 31) && b.getLsbD i))
  | fcls m d a : LaneDoes (.fcls m d a) (laneOne m d a fun a => wrap (2 ^ classOf a.toNat : Nat))

/-- What a floating-point instruction of the lane engine does: m its switch marker, d its destination, srcs the registers it reads, draws whether it takes a
draw of the keyed stream in each active thread (R154), and the value and the flags of thread t. -/
structure FloatRow where
  m : Bool
  d : Nat
  srcs : List Nat
  draws : Bool
  value : Ctx → Nat → W32 × Flags

/-- A row of R146: op on each element of a type, with the format of the element and FPMODE. -/
def arithRow (m : Bool) (f : FloatType) (d a b : Nat) (op : Fmt → W32 → Nat → Nat → Nat × Flags) : FloatRow :=
  ⟨m, d, [a, b], false, fun x t =>
    elementwise f (fun F v => op F x.g.fpmode (v.getD 0 0) (v.getD 1 0)) [x.lane a t, x.lane b t]⟩
/-- A row of R147. -/
def minMaxRow (m : Bool) (d a b : Nat) (isMax isNum : Bool) : FloatRow :=
  ⟨m, d, [a, b], false, fun x t =>
    let r := fpMinMax isMax isNum x.g.fpmode (x.lane a t).toNat (x.lane b t).toNat
    (BitVec.ofNat 32 r.1, r.2)⟩
/-- The counter of the draw of thread t (R154). -/
def drawCounter (x : Ctx) (t : Nat) : W64 :=
  BitVec.ofNat 64 (2 ^ 60 + x.team.teamIx % 2 ^ 16 * 2 ^ 44 + x.g.gix % 32 * 2 ^ 39 + t * 2 ^ 32 + (x.g.srcnt.getZ t).toNat)

/-- The floating-point instructions of the lane engine that round (R146, R147, R149, R150, R151, R154). -/
inductive FloatDoes : Instr → FloatRow → Prop
  | fadd m f d a b : FloatDoes (.fadd m f d a b) (arithRow m f d a b fpAdd)
  | fsub m f d a b : FloatDoes (.fsub m f d a b) (arithRow m f d a b fpSub)
  | fmul m f d a b : FloatDoes (.fmul m f d a b) (arithRow m f d a b fpMul)
  | ffma m f d a b : FloatDoes (.ffma m f d a b) ⟨m, d, [a, b], false, fun x t =>
      elementwise f (fun F v => fpFma F x.g.fpmode (v.getD 0 0) (v.getD 1 0) (v.getD 2 0))
        [x.lane a t, x.lane b t, x.lane d t]⟩
  | fmin m d a b : FloatDoes (.fmin m d a b) (minMaxRow m d a b false false)
  | fmax m d a b : FloatDoes (.fmax m d a b) (minMaxRow m d a b true false)
  | fminnum m d a b : FloatDoes (.fminnum m d a b) (minMaxRow m d a b false true)
  | fmaxnum m d a b : FloatDoes (.fmaxnum m d a b) (minMaxRow m d a b true true)
  | frnd m r d a : FloatDoes (.frnd m r d a) ⟨m, d, [a], false, fun x t =>
      let v := fpRoundIntegral r x.g.fpmode (x.lane a t).toNat
      (BitVec.ofNat 32 v.1, v.2)⟩
  | cvt m r d a src dst : FloatDoes (.cvt m r d a src dst) ⟨m, d, [a], r == .rs, fun x t =>
      convert src dst (modeOf r (keyedDraw x.launch.key (drawCounter x t))) x.g.fpmode (x.lane a t)⟩

/-- What an instruction whose lane results land later does: m its switch marker, d its destination, srcs the registers it reads, the value that
thread t receives and the flags that come with it (R155 to R162). -/
structure SendRow where
  m : Bool
  d : Nat
  srcs : List Nat
  value : Ctx → Nat → W32
  flags : Ctx → Flags

/-- A special function (R155). -/
def specialRow (fn : SpecialFn) (m : Bool) (d a : Nat) : SendRow :=
  ⟨m, d, [a], fun x t => (special fn x.g.fpmode (x.lane a t)).1, fun x =>
    flagUnion ((threadsOf x.f.k0).map fun t => (special fn x.g.fpmode (x.lane a t)).2)⟩
/-- Thread t receives a of the partner that p gives, or its own a where that thread is not active or there is none (R158). -/
def partnerRow (m : Bool) (d a : Nat) (srcs : List Nat) (p : Ctx → Nat → Option Nat) : SendRow :=
  ⟨m, d, srcs, fun x t => x.lane a ((p x t).elim t fun q => if x.f.k0.getLsbD q then q else t), fun _ => 0⟩
/-- A partner at distance 64 >> n, if that is not 0 and q is a thread of the group (R66, R158). -/
def offsetPartner (n : Nat) (q : Int → Int) : Option Nat :=
  if 64 / 2 ^ n = 0 then none
  else if 0 ≤ q (64 / 2 ^ n : Nat) ∧ q (64 / 2 ^ n : Nat) < 64 then some (q (64 / 2 ^ n : Nat)).toNat else none
/-- A vote: 1 if p holds of the active threads, else 0 (R160). -/
def voteRow (m : Bool) (d a : Nat) (p : Ctx → Bool) : SendRow := ⟨m, d, [a], fun x _ => if p x then 1 else 0, fun _ => 0⟩
/-- The active threads. -/
def Ctx.active (x : Ctx) : List Nat := (List.range 64).filter fun t => x.f.k0.getLsbD t

/-- The instructions of the lane engine whose results land later (R155 to R162), but for `ballot` and memory. -/
inductive SendDoes : Instr → SendRow → Prop
  | rcp m d a : SendDoes (.rcp m d a) (specialRow .rcp m d a)
  | rsq m d a : SendDoes (.rsq m d a) (specialRow .rsq m d a)
  | sqrt m d a : SendDoes (.sqrt m d a) (specialRow .sqrt m d a)
  | exp2 m d a : SendDoes (.exp2 m d a) (specialRow .exp2 m d a)
  | log2 m d a : SendDoes (.log2 m d a) (specialRow .log2 m d a)
  | sin m d a : SendDoes (.sin m d a) (specialRow .sin m d a)
  | cos m d a : SendDoes (.cos m d a) (specialRow .cos m d a)
  | tanh m d a : SendDoes (.tanh m d a) (specialRow .tanh m d a)
  | sigm m d a : SendDoes (.sigm m d a) (specialRow .sigm m d a)
  | erf m d a : SendDoes (.erf m d a) (specialRow .erf m d a)
  | gelu m d a : SendDoes (.gelu m d a) (specialRow .gelu m d a)
  | silu m d a : SendDoes (.silu m d a) (specialRow .silu m d a)
  | idx m d a b : SendDoes (.idx m d a b) (partnerRow m d a [a, b] fun x t => some ((x.lane b t).toNat % 64))
  | upw m d a n : SendDoes (.upw m d a n) (partnerRow m d a [a] fun _ t => offsetPartner n fun o => t - o)
  | dnw m d a n : SendDoes (.dnw m d a n) (partnerRow m d a [a] fun _ t => offsetPartner n fun o => t + o)
  | xorw m d a n : SendDoes (.xorw m d a n) (partnerRow m d a [a] fun _ t => offsetPartner n fun o => (t ^^^ o.toNat : Nat))
  | rotw m d a n : SendDoes (.rotw m d a n) (partnerRow m d a [a] fun _ t => offsetPartner n fun o => (t + o) % 64)
  | xbc m d a b : SendDoes (.xbc m d a b) (partnerRow m d a [a, b] fun x _ => some ((x.uni b).toNat % 64))
  | all m d a : SendDoes (.all m d a) (voteRow m d a fun x => x.active.all fun t => decide (x.lane a t ≠ 0))
  | any m d a : SendDoes (.any m d a) (voteRow m d a fun x => x.active.any fun t => decide (x.lane a t ≠ 0))
  | uni m d a : SendDoes (.uni m d a) (voteRow m d a fun x =>
      x.active.all fun t => x.active.all fun u => decide (x.lane a t = x.lane a u))
  | xred m o d a : SendDoes (.xred m o d a) ⟨m, d, [a], fun x _ => (reduceTree o x.g.fpmode 6 (x.leaves o a)).1,
      fun x => (reduceTree o x.g.fpmode 6 (x.leaves o a)).2⟩
  | xscn m o d a : SendDoes (.xscn m o d a) ⟨m, d, [a], fun x t => (scanSteps o x.g.fpmode 6 1 (x.leaves o a)).1.getD t 0,
      fun x => (scanSteps o x.g.fpmode 6 1 (x.leaves o a)).2⟩

/-- A group whose last outstanding result has landed makes the steps of STEPREGs that waited for it (R173; what they do is a clause of
Obligations.LoopResult), and is parked under R62 no more. -/
def Group.freed (g : Group) : Group :=
  if g.pend = [] then { g.stepDue with marker := false, hmarker := false } else g

/-- Fragment i takes the trap of a result that was issued in some threads: it holds the lowest of them that a fragment still holds; where
none is left it is the oldest fragment (R135; notes/assumptions/17.md). -/
def Group.trapsIn (g : Group) (issued : Mask) (i : Nat) : Prop :=
  let left (t : Nat) : Prop := issued.getLsbD t = true ∧ ∃ f ∈ g.frags, f.threads.getLsbD t = true
  (∃ t f, t < 64 ∧ left t ∧ (∀ u, u < t → ¬left u) ∧ g.frags[i]? = some f ∧ f.threads.getLsbD t = true ∧
    ∀ (j : Nat) (q : Fragment), j < i → g.frags[j]? = some q → q.threads.getLsbD t = false) ∨
  ((∀ t, t < 64 → ¬left t) ∧ i = 0)

/-- A load or store of the lane engine: its switch marker, width, data and address registers, order, scope, base or selector field
and space (R55, R194). -/
structure MemRow where
  m : Bool
  w : Width
  d : Nat
  a : Nat
  o : Order
  c : Scope
  sel : Nat
  p : Space

/-- The loads (R194). -/
inductive LoadDoes : Instr → MemRow → Prop
  | ld m w d a o c : LoadDoes (.ld m w d a o c) ⟨m, w, d, a, o, c, 0, .unit⟩
  | ldc m w d a o c sel : LoadDoes (.ldc m w d a o c sel) ⟨m, w, d, a, o, c, sel, .cluster⟩
  | ldd m w d a o c : LoadDoes (.ldd m w d a o c) ⟨m, w, d, a, o, c, 0, .die⟩
  | ldg m w d a o c sel : LoadDoes (.ldg m w d a o c sel) ⟨m, w, d, a, o, c, sel, .global⟩
/-- The stores (R194). -/
inductive StoreDoes : Instr → MemRow → Prop
  | st m w d a o c : StoreDoes (.st m w d a o c) ⟨m, w, d, a, o, c, 0, .unit⟩
  | stc m w d a o c sel : StoreDoes (.stc m w d a o c sel) ⟨m, w, d, a, o, c, sel, .cluster⟩
  | std m w d a o c : StoreDoes (.std m w d a o c) ⟨m, w, d, a, o, c, 0, .die⟩
  | stg m w d a o c sel : StoreDoes (.stg m w d a o c sel) ⟨m, w, d, a, o, c, sel, .global⟩

/-- The access of thread t by an instruction that acts on size bytes of its effective address. -/
def MemRow.req (r : MemRow) (x : Ctx) (t : Nat) : Req := ⟨t, r.p, x.address r.p r.a r.sel t, widthBytes r.w⟩

/-- Every access of the active threads passes its checks (R190), with place t for thread t, and nothing makes it wait or fail: no
copy is writing there (R28), and no home is lost (R492). -/
def Ctx.granted (x : Ctx) (s : State) (a : Access) (req : Nat → Req) (place : Nat → Place) : Prop :=
  ∀ t, t < 64 → x.f.k0.getLsbD t = true → checkAccess x s a (req t) = .ok (place t) ∧
    (place t).bytes.length = (req t).size ∧ ∀ b ∈ (place t).bytes, s.covered b.1 = false ∧ s.lostSite b.2 = none

/-- The number that a load of thread t sees in its bytes: memory, or in merge form the thread's own newest buffered byte (R195,
R227). -/
def Ctx.seen (x : Ctx) (s : State) (r : Req) (p : Place) : Nat :=
  leNat ((List.range r.size).map fun j =>
    let own := if x.launch.form = 2 ∧ isOutward x r p = true then
      mergedByte x.team (x.lthread r.thread) (rangeSpace r.space) (r.addr + j) else none
    own.getD (s.mem.byte ((p.bytes.map (·.1)).getD j 0)))

/-- The registers that a loaded number fills (R195). -/
def loadedRegs (w : Width) (v : Nat) : List W32 :=
  match w with
  | .s8 => [wrap (signedOf 8 v)]
  | .s16 => [wrap (signedOf 16 v)]
  | .b8 | .b16 | .b32 => [BitVec.ofNat 32 v]
  | .b64 => [BitVec.ofNat 32 v, BitVec.ofNat 32 (v / 2 ^ 32)]
  | .b128 => [BitVec.ofNat 32 v, BitVec.ofNat 32 (v / 2 ^ 32), BitVec.ofNat 32 (v / 2 ^ 64), BitVec.ofNat 32 (v / 2 ^ 96)]

/-- Byte j of what thread t stores: byte j mod 4 of register d + j / 4 (R195). -/
def storedByte (x : Ctx) (d t j : Nat) : Byte := BitVec.ofNat 8 ((x.lane (d + j / 4) t).toNat / 2 ^ (8 * (j % 4)))

/-- t is s but for bytes of memory, for reservations of hods on bytes that were stored to (R471), and for what the translation
buffers hold (R188). -/
def State.onlyMemory (s t : State) : Prop :=
  t = { s with mem := t.mem, hods := t.hods, tlb := t.tlb } ∧
    ∀ k, ∃ r : Bool, t.hods.find k = (s.hods.find k).map fun h => { h with reservation := if r then none else h.reservation }

/-- An atomic of the lane engine: its fields, its width in bytes, whether host memory takes it (R202), whether it is an unordered
floating-point sum (R201), and the new value of the location in thread t from the old one. -/
structure AtomRow where
  m : Bool
  d : Nat
  a : Nat
  o : Order
  c : Scope
  p : Space
  size : Nat
  supported : Bool
  unordered : Bool
  new : Ctx → Nat → Nat → Nat

/-- The operand of an atomic in thread t: register d, or the pair d. -/
def operand32 (x : Ctx) (d t : Nat) : Nat := (x.lane d t).toNat
def operand64 (x : Ctx) (d t : Nat) : Nat := (x.lane d t).toNat + 2 ^ 32 * (x.lane (d + 1) t).toNat
/-- The lesser or greater of two n-bit values, signed. -/
def lesser (n a b : Nat) : Nat := if signedOf n a ≤ signedOf n b then a else b
def greater (n a b : Nat) : Nat := if signedOf n b ≤ signedOf n a then a else b

/-- A 32-bit integer atomic, and a 64-bit one. -/
def atomRow32 (m : Bool) (d a : Nat) (o : Order) (c : Scope) (p : Space) (sup : Bool) (f : Nat → Nat → Nat) : AtomRow :=
  ⟨m, d, a, o, c, p, 4, sup, false, fun x t old => f old (operand32 x d t)⟩
def atomRow64 (m : Bool) (d a : Nat) (o : Order) (c : Scope) (p : Space) (sup : Bool) (f : Nat → Nat → Nat) : AtomRow :=
  ⟨m, d, a, o, c, p, 8, sup, false, fun x t old => f old (operand64 x d t)⟩

/-- The atomics of R199 to R201 with their support in host memory (R202). -/
inductive AtomDoes : Instr → AtomRow → Prop
  | add m d a o c p : AtomDoes (.atomAdd m d a o c p) (atomRow32 m d a o c p true fun v y => (v + y) % 2 ^ 32)
  | xch m d a o c p : AtomDoes (.atomXch m d a o c p) (atomRow32 m d a o c p true fun _ y => y)
  | minS32 m d a o c p : AtomDoes (.atomMinS32 m d a o c p) (atomRow32 m d a o c p false (lesser 32))
  | maxS32 m d a o c p : AtomDoes (.atomMaxS32 m d a o c p) (atomRow32 m d a o c p false (greater 32))
  | minZ32 m d a o c p : AtomDoes (.atomMinZ32 m d a o c p) (atomRow32 m d a o c p false min)
  | maxZ32 m d a o c p : AtomDoes (.atomMaxZ32 m d a o c p) (atomRow32 m d a o c p false max)
  | and m d a o c p : AtomDoes (.atomAnd m d a o c p) (atomRow32 m d a o c p false (· &&& ·))
  | or m d a o c p : AtomDoes (.atomOr m d a o c p) (atomRow32 m d a o c p false (· ||| ·))
  | xor m d a o c p : AtomDoes (.atomXor m d a o c p) (atomRow32 m d a o c p false (· ^^^ ·))
  | addB64 m d a o c p : AtomDoes (.atomAddB64 m d a o c p) (atomRow64 m d a o c p true fun v y => (v + y) % 2 ^ 64)
  | xchB64 m d a o c p : AtomDoes (.atomXchB64 m d a o c p) (atomRow64 m d a o c p true fun _ y => y)
  | minS64 m d a o c p : AtomDoes (.atomMinS64 m d a o c p) (atomRow64 m d a o c p false (lesser 64))
  | maxS64 m d a o c p : AtomDoes (.atomMaxS64 m d a o c p) (atomRow64 m d a o c p false (greater 64))
  | minZ64 m d a o c p : AtomDoes (.atomMinZ64 m d a o c p) (atomRow64 m d a o c p false min)
  | maxZ64 m d a o c p : AtomDoes (.atomMaxZ64 m d a o c p) (atomRow64 m d a o c p false max)
  | cas m d a o c p : AtomDoes (.cas m d a o c p) ⟨m, d, a, o, c, p, 4, true, false, fun x t old =>
      if old = operand32 x (d + 1) t then operand32 x d t else old⟩
  | casB64 m d a o c p : AtomDoes (.atomCasB64 m d a o c p) ⟨m, d, a, o, c, p, 8, true, false, fun x t old =>
      if old = operand64 x (d + 2) t then operand64 x d t else old⟩
  | fadd m d a o c p : AtomDoes (.atomfFadd m d a o c p) ⟨m, d, a, o, c, p, 4, false, true, fun x t old =>
      (fpAdd f32 0 old (operand32 x d t)).1⟩
  | fmin m d a o c p : AtomDoes (.atomfFmin m d a o c p) ⟨m, d, a, o, c, p, 4, false, false, fun x t old =>
      (fpMinMax false false 0 old (operand32 x d t)).1⟩
  | fmax m d a o c p : AtomDoes (.atomfFmax m d a o c p) ⟨m, d, a, o, c, p, 4, false, false, fun x t old =>
      (fpMinMax true false 0 old (operand32 x d t)).1⟩
  | addBf16 m d a o c p : AtomDoes (.atomfAddBf16x2 m d a o c p) ⟨m, d, a, o, c, p, 4, false, true, fun x t old =>
      (fpAdd bf16 0 (old % 2 ^ 16) (operand32 x d t % 2 ^ 16)).1 +
        2 ^ 16 * (fpAdd bf16 0 (old / 2 ^ 16 % 2 ^ 16) (operand32 x d t / 2 ^ 16 % 2 ^ 16)).1⟩

/-- The access of thread t by an atomic of n bytes (R55). -/
def atomReq (x : Ctx) (p : Space) (a n t : Nat) : Req := ⟨t, p, x.atomAddress p a t, n⟩
/-- No byte of an active thread's place is behind a host port. -/
def Ctx.offHost (x : Ctx) (place : Nat → Place) : Prop :=
  ∀ t, t < 64 → x.f.k0.getLsbD t = true → ∀ b ∈ (place t).bytes, ∀ port, b.2 ≠ .host port

end Sys2Proof.Machine

/-- R137 to R139, R141, R142, R148 (with R42 and R98 for an empty k0): each active thread's d receives the value of the tables, in
plain integer arithmetic; nothing else of the machine changes but the fragment's place. That `sysv` 0 takes G from the launch's kernel in
every team, task teams too, is the model's choice (notes/assumptions/19.md). -/
def Obligations.LaneIntegerResult : Prop :=
  ∀ (s : State) (x : Ctx) (i : Instr) (r : LaneRow), s.ctx = some x → i.wellFormed = true → LaneDoes i r →
    (x.f.k0 = 0 ∨ x.ready r.srcs) →
    ∃ g', x.g.lanesSet g' r.d x.f.k0 (r.value x) ∧ exec i s = .next (x.completes s g' r.m r.n)

/-- R140 with R97: the bits of active(k0) of mask k receive the comparison; nothing else changes. -/
def Sys2Proof.Claims.IcmpWritesMask : Prop :=
  ∀ (s : State) (x : Ctx) (m : Bool) (c : IntCond) (k a b : Nat), s.ctx = some x → k < 8 → (x.f.k0 = 0 ∨ x.ready [a, b]) →
    ∃ g' v, (∀ t, t < 64 → v.getLsbD t = specHolds c (x.lane a t) (x.lane b t)) ∧ x.maskSet g' k x.f.k0 v ∧
      exec (.icmp m c k a b) s = .next (x.completes s g' m 1)

/-- R140 with R97, R134 and R135: f32 values after DAZ, NaN unordered, −0 equal to +0. -/
def Sys2Proof.Claims.FcmpWritesMask : Prop :=
  ∀ (s : State) (x : Ctx) (m : Bool) (c : FloatCond) (k a b : Nat), s.ctx = some x → k < 8 → (x.f.k0 = 0 ∨ x.ready [a, b]) →
    ∃ g' v fl,
      (∀ t, t < 64 → v.getLsbD t = (floatHolds c (dazOf x.g.fpmode) (x.lane a t) (x.lane b t)).1) ∧
      x.unionOf (fun t => if (floatHolds c (dazOf x.g.fpmode) (x.lane a t) (x.lane b t)).2 then flagNV else 0) fl ∧
      x.maskSet g' k x.f.k0 v ∧ exec (.fcmp m c k a b) s = .next (x.completesFlagged s g' fl m 1)

/-- ICMP and FCMP write exactly the active bits of their mask (R140, R97, R98, R134, R135). -/
def Obligations.ComparisonsWriteMask : Prop :=
  Sys2Proof.Claims.IcmpWritesMask ∧ Sys2Proof.Claims.FcmpWritesMask

/-- R146, R147, R149 to R151 and R154, with R134 and R135: the value of each active thread, the union of the flags, the
count of the draws, and the trap of an enabled flag. -/
def Sys2Proof.Claims.LaneFloatResult : Prop :=
  ∀ (s : State) (x : Ctx) (i : Instr) (r : FloatRow), s.ctx = some x → FloatDoes i r → (x.f.k0 = 0 ∨ x.ready r.srcs) →
    ∃ g' srcnt fl, x.g.lanesSet g' r.d x.f.k0 (fun t => (r.value x t).1) ∧ x.unionOf (fun t => (r.value x t).2) fl ∧
      (∀ t, t < 64 → srcnt.getZ t = x.g.srcnt.getZ t + if r.draws ∧ x.f.k0.getLsbD t = true then 1 else 0) ∧
      (r.draws = false → srcnt = x.g.srcnt) ∧
      exec i s = .next (x.completesFlagged s { g' with srcnt := srcnt } fl r.m 1)

namespace Sys2Proof.Machine

/-- The real that a finite value stands for. -/
def Num.real : Num → ℚ
  | .fin n m e => (if n then -1 else 1) * (m : ℚ) * (2 : ℚ) ^ e
  | _ => 0
/-- The rows of R143: bits, p, e_min, the largest finite value, whether there is an infinity, and the canonical NaN. -/
inductive Fmt.Row : Fmt → Nat → Nat → Int → ℚ → Bool → Nat → Prop
  | f32 : Fmt.Row f32 32 24 (-126) ((2 - 1 / 2 ^ 23) * 2 ^ 127) true 0x7FC00000
  | f16 : Fmt.Row f16 16 11 (-14) 65504 true 0x7E00
  | bf16 : Fmt.Row bf16 16 8 (-126) ((2 - 1 / 2 ^ 7) * 2 ^ 127) true 0x7FC0
  | e4m3 : Fmt.Row e4m3 8 4 (-6) 448 false 0x7F
  | e5m2 : Fmt.Row e5m2 8 3 (-14) 57344 true 0x7E
/-- RoundInt as R144 writes it. -/
def roundReal (z : ℚ) (mode : RMode) : Int :=
  let lo := ⌊z⌋
  let f := z - lo
  if f = 0 then lo
  else
    match mode with
    | .rne => if f < 1 / 2 then lo else if 1 / 2 < f then lo + 1 else if lo % 2 = 0 then lo else lo + 1
    | .rna => if f < 1 / 2 then lo else if 1 / 2 < f then lo + 1 else if z < 0 then lo else lo + 1
    | .rz => if z < 0 then lo + 1 else lo
    | .ru => lo + 1
    | .rd => lo
    | .rs draw => if (draw : Int) < ⌊f * 65536⌋ then lo + 1 else lo
/-- A signalling NaN among some operands (R145). -/
def signals (xs : List Num) : Flags := if .nan true ∈ xs then flagNV else 0
/-- z is the exact sum of x and y, with the flag of an invalid one; an exact zero sum is −0 where down (R145, R146). -/
def Num.sumsTo (down : Bool) (x y z : Num) (fl : Flags) : Prop :=
  match x, y with
  | .nan _, _ => z.isNan = true ∧ fl = 0
  | _, .nan _ => z.isNan = true ∧ fl = 0
  | .inf a, .inf b => if a = b then z = .inf a ∧ fl = 0 else z.isNan = true ∧ fl = flagNV
  | .inf a, .fin _ _ _ => z = .inf a ∧ fl = 0
  | .fin _ _ _, .inf b => z = .inf b ∧ fl = 0
  | .fin n m _, .fin n' m' _ => fl = 0 ∧ z.real = x.real + y.real ∧
      ∃ k mant e, z = .fin k mant e ∧ (mant = 0 → k = if m = 0 ∧ m' = 0 ∧ n = n' then n else down)
/-- z is the exact product of x and y, with the flag of an invalid one (R145). -/
def Num.multipliesTo (x y z : Num) (fl : Flags) : Prop :=
  match x, y with
  | .nan _, _ => z.isNan = true ∧ fl = 0
  | _, .nan _ => z.isNan = true ∧ fl = 0
  | .inf a, .inf b => z = .inf (a != b) ∧ fl = 0
  | .inf a, .fin b m _ => if m = 0 then z.isNan = true ∧ fl = flagNV else z = .inf (a != b) ∧ fl = 0
  | .fin a m _, .inf b => if m = 0 then z.isNan = true ∧ fl = flagNV else z = .inf (a != b) ∧ fl = 0
  | .fin n _ _, .fin n' _ _ => fl = 0 ∧ z.real = x.real * y.real ∧ ∃ mant e, z = .fin (n != n') mant e
/-- Where f32 bits that are no NaN stand in the order of values, −0 before +0. -/
def f32Place (w : Nat) : Int := if w < 2 ^ 31 then w else -((w - 2 ^ 31 : Nat) : Int) - 1
/-- f32 bits after DAZ. -/
def f32Dazed (daz : Bool) (w : Nat) : Nat := if daz ∧ w / 2 ^ 23 % 2 ^ 8 = 0 then w / 2 ^ 31 * 2 ^ 31 else w

end Sys2Proof.Machine

/-- R143 and R145: the value of a bit pattern of sign s, exponent field E and fraction field f, and DAZ. -/
def Sys2Proof.Claims.PatternsHaveValues : Prop :=
  ∀ (F : Fmt) (bits p : Nat) (emin : Int) (max : ℚ) (inf : Bool) (nan : Nat), Fmt.Row F bits p emin max inf nan →
    ∀ s E f : Nat, s < 2 → E < 2 ^ (bits - p) → f < 2 ^ (p - 1) →
      let w := s * 2 ^ (bits - 1) + E * 2 ^ (p - 1) + f
      let top : Nat := 2 ^ (bits - p) - 1
      let sign : ℚ := if s = 1 then -1 else 1
      (inf = true → E = top → ∀ daz, decodeNum F daz w = if f = 0 then .inf (s == 1) else .nan (decide (f < 2 ^ (p - 2)))) ∧
      (inf = false → E = top → f = 2 ^ (p - 1) - 1 → ∀ daz, decodeNum F daz w = .nan false) ∧
      ((E < top ∨ inf = false) → ¬(inf = false ∧ E = top ∧ f = 2 ^ (p - 1) - 1) → ∃ m e, decodeNum F false w = .fin (s == 1) m e ∧
        (decodeNum F false w).real =
          if E = 0 then sign * (2 : ℚ) ^ emin * ((f : ℚ) / 2 ^ (p - 1))
          else sign * (2 : ℚ) ^ (emin + (E : Int) - 1) * (1 + (f : ℚ) / 2 ^ (p - 1))) ∧
      (E = 0 → ∃ e, decodeNum F true w = .fin (s == 1) 0 e) ∧ (E ≠ 0 → decodeNum F true w = decodeNum F false w)

/-- R144: RoundToFormat. -/
def Sys2Proof.Claims.RoundsToFormat : Prop :=
  (∀ (F : Fmt) (bits p : Nat) (emin : Int) (max : ℚ) (inf : Bool) (nan : Nat), Fmt.Row F bits p emin max inf nan →
    ∀ (ftz : Bool) (mode : RMode),
      let held (w : Nat) (n : Bool) (v : ℚ) : Prop :=
        w < 2 ^ bits ∧ (∃ m e, decodeNum F false w = .fin n m e) ∧ (decodeNum F false w).real = v
      let signed (n : Bool) : ℚ := if n then -max else max
      let infinite (w : Nat) (n : Bool) : Prop := w < 2 ^ bits ∧ decodeNum F false w = .inf n
      (∀ q, roundTo F ftz (.nan q) mode = (nan, 0)) ∧
      (∀ n, let r := roundTo F ftz (.inf n) mode
        (inf = true → infinite r.1 n ∧ r.2 = 0) ∧ (inf = false → held r.1 n (signed n) ∧ r.2 = flagNV)) ∧
      (∀ n e, let r := roundTo F ftz (.fin n 0 e) mode
        held r.1 n 0 ∧ r.2 = 0) ∧
      ∀ n m ex, m ≠ 0 →
        let x := (Machine.Num.fin n m ex).real
        let r := roundTo F ftz (.fin n m ex) mode
        let mode := match mode with
          | .rs d => if max < |x| then .rne else .rs d
          | other => other
        let e := if emin ≤ Int.log 2 |x| then Int.log 2 |x| else emin
        let q : ℚ := (2 : ℚ) ^ (e - (p : Int) + 1)
        let y : ℚ := q * roundReal (x / q) mode
        let tiny := |y| < (2 : ℚ) ^ emin
        (max < |y| → r.2 = flagOF ||| flagNX ∧
          if inf = false ∨ mode = .rz ∨ (mode = .ru ∧ x < 0) ∨ (mode = .rd ∧ 0 < x) then held r.1 n (signed n) else infinite r.1 n) ∧
        (|y| ≤ max → (tiny ∧ y ≠ 0 ∧ ftz = true ∧ F ∈ [f32, f16, bf16]) → held r.1 n 0 ∧ r.2 = flagUF ||| flagNX) ∧
        (|y| ≤ max → ¬(tiny ∧ y ≠ 0 ∧ ftz = true ∧ F ∈ [f32, f16, bf16]) → held r.1 n y ∧ (y = x → r.2 = 0) ∧
          (y ≠ x → tiny → r.2 = flagNX ||| flagUF) ∧ (y ≠ x → ¬tiny → r.2 = flagNX))) ∧
  ∀ (lo hi : Int) (mode : RMode), -2 ^ 32 ≤ lo → lo ≤ hi → hi ≤ 2 ^ 32 →
    (∀ q, roundToInt lo hi (.nan q) mode = (0, flagNV)) ∧
    (∀ n, roundToInt lo hi (.inf n) mode = (if n then lo else hi, flagNV)) ∧
    ∀ n m ex,
      let x := (Machine.Num.fin n m ex).real
      let y := roundReal x mode
      (hi < y → roundToInt lo hi (.fin n m ex) mode = (hi, flagNV)) ∧ (y < lo → roundToInt lo hi (.fin n m ex) mode = (lo, flagNV)) ∧
      (lo ≤ y → y ≤ hi → ((y : ℚ) = x → roundToInt lo hi (.fin n m ex) mode = (y, 0)) ∧
        ((y : ℚ) ≠ x → roundToInt lo hi (.fin n m ex) mode = (y, flagNX)))

/-- R133, R145 to R147 and R149 to R151: arithmetic is exact and rounded once, and what it raises. With FTZ set a widening conversion
flushes too, which is the model's reading (notes/assumptions/31.md). -/
def Sys2Proof.Claims.FloatArithmetic : Prop :=
  (∀ (F : Fmt) (fpmode : W32) (a b d : Nat),
    let rm : RMode := [.rne, .rz, .ru, .rd].getD (fpmode.toNat % 4) .rne
    let rounded (z : Machine.Num) (fl : Flags) : Nat × Flags :=
      ((roundTo F (fpmode.getLsbD 3) z rm).1, fl ||| (roundTo F (fpmode.getLsbD 3) z rm).2)
    let down : Bool := decide (fpmode.toNat % 4 = 3)
    let x := decodeNum F (fpmode.getLsbD 2) a
    let y := decodeNum F (fpmode.getLsbD 2) b
    let c := decodeNum F (fpmode.getLsbD 2) d
    let opposite : Machine.Num := match y with
      | .nan q => .nan q
      | .inf n => .inf (!n)
      | .fin n m e => .fin (!n) m e
    (∃ z fl, x.sumsTo down y z fl ∧ fpAdd F fpmode a b = rounded z (fl ||| signals [x, y])) ∧
    (∃ z fl, x.sumsTo down opposite z fl ∧ fpSub F fpmode a b = rounded z (fl ||| signals [x, y])) ∧
    (∃ z fl, x.multipliesTo y z fl ∧ fpMul F fpmode a b = rounded z (fl ||| signals [x, y])) ∧
    ∃ z fl z' fl', x.multipliesTo y z fl ∧ z.sumsTo down c z' fl' ∧
      fpFma F fpmode a b d = rounded z' (fl ||| fl' ||| signals [x, y, c])) ∧
  (∀ (isMax isNum : Bool) (fpmode : W32) (a b : Nat), a < 2 ^ 32 → b < 2 ^ 32 →
    let x := decodeNum f32 (fpmode.getLsbD 2) a
    let y := decodeNum f32 (fpmode.getLsbD 2) b
    let a' := f32Dazed (fpmode.getLsbD 2) a
    let b' := f32Dazed (fpmode.getLsbD 2) b
    fpMinMax isMax isNum fpmode a b =
      (if x.isNan ∧ (y.isNan ∨ isNum = false) then 0x7FC00000
        else if x.isNan then b'
        else if y.isNan then (if isNum then a' else 0x7FC00000)
        else if f32Place a' ≤ f32Place b' then (if isMax then b' else a')
        else (if isMax then a' else b'), signals [x, y])) ∧
  (∀ (r : Rounding) (fpmode : W32) (a : Nat), a < 2 ^ 32 → r ≠ .rs →
    let v := fpRoundIntegral r fpmode a
    match decodeNum f32 (fpmode.getLsbD 2) a with
    | .nan q => v = (0x7FC00000, if q then flagNV else 0)
    | .inf _ => v = (a, 0)
    | .fin n m e => v.2 = 0 ∧ v.1 < 2 ^ 32 ∧ (∃ m' e', decodeNum f32 false v.1 = .fin n m' e') ∧
        (decodeNum f32 false v.1).real = roundReal (Machine.Num.fin n m e).real (modeOf r 0)) ∧
  ∀ (src dst : NumType) (mode : RMode) (fpmode : W32) (a : W32),
    let daz := fpmode.getLsbD 2
    let whole (z : Int) (x : Machine.Num) : Prop := (∃ m e, x = .fin (decide (z < 0)) m e) ∧ x.real = z
    ∃ x : Machine.Num,
      (match src with
        | .s32 => whole a.toInt x
        | .z32 => whole a.toNat x
        | .s8 => whole (signedOf 8 (a.toNat % 256)) x
        | .z8 => whole (a.toNat % 256 : Nat) x
        | .f32 => x = decodeNum f32 daz a.toNat
        | .f16 => x = decodeNum f16 daz (a.toNat % 2 ^ 16)
        | .bf16 => x = decodeNum bf16 daz (a.toNat % 2 ^ 16)
        | .e4m3 => x = decodeNum e4m3 false (a.toNat % 2 ^ 8)
        | .e5m2 => x = decodeNum e5m2 false (a.toNat % 2 ^ 8)) ∧
      let integer (lo hi : Int) : W32 × Flags :=
        (BitVec.ofInt 32 (roundToInt lo hi x mode).1,
          if src ∈ [.s32, .z32, .s8, .z8] then 0 else (roundToInt lo hi x mode).2)
      let float (F : Fmt) : W32 × Flags :=
        (BitVec.ofNat 32 (roundTo F (fpmode.getLsbD 3) x mode).1, (roundTo F (fpmode.getLsbD 3) x mode).2 ||| signals [x])
      convert src dst mode fpmode a = match dst with
        | .s32 => integer (-2 ^ 31) (2 ^ 31 - 1)
        | .z32 => integer 0 (2 ^ 32 - 1)
        | .s8 => integer (-128) 127
        | .z8 => integer 0 255
        | .f32 => float f32
        | .f16 => float f16
        | .bf16 => float bf16
        | .e4m3 => float e4m3
        | .e5m2 => float e5m2

/-- R143 and R144: decoding a finite pattern and rounding it into the same format gives the pattern back, in every mode, with
no flag. -/
def Sys2Proof.Claims.RoundingKeepsExactValues : Prop :=
  ∀ (F : Fmt) (w : Nat) (n : Bool) (m : Nat) (e : Int) (mode : RMode), F ∈ [f32, f16, bf16, e4m3, e5m2] →
    w < 2 ^ (F.signBit + 1) → decodeNum F false w = .fin n m e → roundTo F false (decodeNum F false w) mode = (w, 0)

/-- Rounding instructions of the lane engine write their value in each active thread, raise their flags and count their draws; the
values are exact results rounded once, and rounding keeps a value that the format holds (R133, R134, R135, R143 to R147, R149 to
R151, R154, R98). -/
def Obligations.LaneFloatResult : Prop :=
  Sys2Proof.Claims.LaneFloatResult ∧ Sys2Proof.Claims.PatternsHaveValues ∧ Sys2Proof.Claims.RoundsToFormat ∧
    Sys2Proof.Claims.FloatArithmetic ∧ Sys2Proof.Claims.RoundingKeepsExactValues

/-- R155 and R157 to R162 with R62: every source is read at issue, and the values wait as one result for each active thread. -/
def Sys2Proof.Claims.LaneResultSent : Prop :=
  ∀ (s : State) (x : Ctx) (i : Instr) (r : SendRow), s.ctx = some x → SendDoes i r → (x.f.k0 = 0 ∨ x.ready r.srcs) →
    ∃ g', x.sent x.g g' s.ir r.d (fun t => [r.value x t]) none (r.flags x) ∧ exec i s = .next (x.completes s g' r.m 1)

/-- R160 for `ballot`, with R62 and R97. -/
def Sys2Proof.Claims.BallotSent : Prop :=
  ∀ (s : State) (x : Ctx) (m : Bool) (k a : Nat), s.ctx = some x → (x.f.k0 = 0 ∨ x.ready [a]) →
    ∃ g' v, (∀ t, t < 64 → v.getLsbD t = (x.f.k0.getLsbD t && decide (x.lane a t ≠ 0))) ∧
      x.sent x.g g' s.ir 0 (fun _ => []) (some (k, v)) 0 ∧ exec (.ballot m k a) s = .next (x.completes s g' m 1)

/-- R161: for an associative integer operation the tree's value is the plain fold over the leaves. -/
def Sys2Proof.Claims.ReductionIsTree : Prop :=
  ∀ (o : ReduceOp) (fpmode : W32) (l : List W32), l.length = 64 → o ∈ [.addS32, .minS32, .maxS32, .and, .or] →
    reduceTree o fpmode 6 l = (l.foldl (fun a b => (reduceCombine o fpmode a b).1) (reduceIdentity o), 0)

/-- R162: the scan's steps, and for an associative integer operation the fold over the leaves up to each thread. -/
def Sys2Proof.Claims.ScanIsPrefix : Prop :=
  ∀ (o : ReduceOp) (fpmode : W32) (l : List W32), l.length = 64 →
    let r := scanSteps o fpmode 6 1 l
    (∃ x : Nat → Nat → W32, (∀ t, t < 64 → x 0 t = l.getD t 0) ∧
      (∀ j t, j < 6 → t < 64 →
        x (j + 1) t = if 2 ^ j ≤ t then (reduceCombine o fpmode (x j (t - 2 ^ j)) (x j t)).1 else x j t) ∧
      (∀ t, t < 64 → r.1.getD t 0 = x 6 t) ∧
      ∀ n, r.2.getLsbD n = true ↔
        ∃ j t, j < 6 ∧ t < 64 ∧ 2 ^ j ≤ t ∧ (reduceCombine o fpmode (x j (t - 2 ^ j)) (x j t)).2.getLsbD n = true) ∧
    (o ∈ [.addS32, .minS32, .maxS32, .and, .or] → ∀ t, t < 64 →
      r.1.getD t 0 = (l.take (t + 1)).foldl (fun a b => (reduceCombine o fpmode a b).1) (reduceIdentity o))

/-- Special functions, exchanges, votes, reductions and scans send their values as a variable-latency result and change nothing
else (R155, R157, R158, R159, R160, R161, R162, R62, R66, R97, R98). The values of special functions inside their bounds are free
(notes/assumptions/6.md), and their flags, NX for every result that is no exact case, OF and NX for `rcp` of a tiny subnormal, are the
model's reading (notes/assumptions/18.md). -/
def Obligations.LaneResultSent : Prop :=
  Sys2Proof.Claims.LaneResultSent ∧ Sys2Proof.Claims.BallotSent ∧ Sys2Proof.Claims.ReductionIsTree ∧ Sys2Proof.Claims.ScanIsPrefix

/-- R62, R63 and R127: values land per thread, in the bank that issued the instruction, unless a handler's result still queues
behind one of the interrupted code in the special-function unit. -/
def Obligations.LanesLand : Prop :=
  ∀ (s : State) (core slot ix : Nat) (threads : Mask) (g : Group) (p : Pend) (d : Nat) (f : Nat → List W32) (a : Mask),
    s.groups.find (slotKey core slot) = some g → g.pend[ix]? = some p → p.handle = none → p.mask = none → p.flags = 0 →
    p.vals = pendVals d f (threadsOf a) → (p.stamp = 0 ∨ g.outstanding p.stamp = 0) →
    (g.queuesBehind ix = true → exec (.variableLatencyResult core slot ix threads) s = .next s) ∧
    (g.queuesBehind ix = false → ∃ g' : Machine.Group, (∀ (b : Bool) (r t : Nat), t < 64 → g'.readV b r t =
        if (p.threads &&& threads).getLsbD t = true ∧ (80 ≤ r → b = p.handlerBank) then
          (p.vals.find (r * 64 + t)).getD (g.readV b r t)
        else g.readV b r t) ∧
      g' = { g with v := g'.v, hv := g'.hv } ∧
      exec (.variableLatencyResult core slot ix threads) s = .next (s.putGroup core slot
        (if p.threads &&& ~~~threads = 0 then Group.freed { g' with pend := g.pend.eraseIdx ix }
         else { g' with pend := g.pend.set ix { p with threads := p.threads &&& ~~~threads } })))

/-- R62, R97 and R115: mask bits and handle words. -/
def Sys2Proof.Claims.MaskAndHandleLand : Prop :=
  (∀ (s : State) (core slot ix k : Nat) (threads v : Mask) (g : Group) (p : Pend),
    s.groups.find (slotKey core slot) = some g → g.pend[ix]? = some p → p.handle = none → p.mask = some (k, v) → p.flags = 0 →
    p.vals = Map.empty → p.threads &&& ~~~threads = 0 → p.stamp = 0 → g.queuesBehind ix = false →
    ∃ g' : Machine.Group, exec (.variableLatencyResult core slot ix threads) s = .next (s.putGroup core slot g') ∧
      (k ≠ 0 → g' = Group.freed { g with k := g'.k, pend := g.pend.eraseIdx ix } ∧
        ∀ (n t : Nat), t < 64 → (g'.k.getZ n).getLsbD t =
          if n = k ∧ p.threads.getLsbD t = true then v.getLsbD t else (g.k.getZ n).getLsbD t) ∧
      (k = 0 → g' = Group.freed { g with frags := g'.frags, pend := g.pend.eraseIdx ix } ∧
        ∀ (i t : Nat), t < 64 → (g'.frags[i]?.map fun f : Fragment => f.k0.getLsbD t) =
          (g.frags[i]?.map fun f : Fragment => if f.threads.getLsbD t = true ∧ p.threads.getLsbD t = true then v.getLsbD t
            else f.k0.getLsbD t))) ∧
  (∀ (s : State) (core slot ix : Nat) (threads : Mask) (g : Group) (p : Pend) (h : HandleDest),
    s.groups.find (slotKey core slot) = some g → g.pend[ix]? = some p → p.handle = some h → p.flags = 0 →
    h.reg ≠ 0 → g.queuesBehind ix = false → g.due = [] →
    ∃ g' : Machine.Group, exec (.variableLatencyResult core slot ix threads) s = .next (s.putGroup core slot g') ∧
      g'.readG p.handlerBank h.reg = h.result.getD h.word ∧
      g'.isPending p.handlerBank h.reg = h.result.isNone ∧
      (∀ b k, (k ≠ h.reg ∨ bankOf b k ≠ bankOf p.handlerBank h.reg) →
        g'.readG b k = g.readG b k ∧ g'.isPending b k = g.isPending b k) ∧
      g' = Group.freed { g with g := g'.g, hg := g'.hg, pendingRegs := g'.pendingRegs, pend := g.pend.eraseIdx ix })

/-- R133 to R135: the last values of a result land with its flags, and with the trap of those that FPMODE enabled when it issued: held
in the handler for the interrupted code's result, else taken by fragment i. -/
def Sys2Proof.Claims.FlagsLand : Prop :=
  ∀ (s : State) (core slot ix : Nat) (threads : Mask) (g : Group) (p : Pend) (d : Nat) (v : Nat → List W32) (a : Mask),
    s.groups.find (slotKey core slot) = some g → g.pend[ix]? = some p → p.handle = none → p.mask = none →
    p.vals = pendVals d v (threadsOf a) → p.threads &&& ~~~threads = 0 → (p.stamp = 0 ∨ g.outstanding p.stamp = 0) →
    g.queuesBehind ix = false →
    ∃ g₁ : Machine.Group, (∀ (b : Bool) (r t : Nat), t < 64 → g₁.readV b r t =
        if p.threads.getLsbD t = true ∧ (80 ≤ r → b = p.handlerBank) then (p.vals.find (r * 64 + t)).getD (g.readV b r t)
        else g.readV b r t) ∧
      g₁ = { g with v := g₁.v, hv := g₁.hv } ∧
      let g' := Group.freed { g₁ with pend := g.pend.eraseIdx ix, fpflags := g.fpflags ||| p.flags.setWidth 32 }
      let hit := p.flags &&& p.trapen
      let lands (s' : State) : Prop := exec (.variableLatencyResult core slot ix threads) s = .next s'
      (hit = 0 → lands (s.putGroup core slot g')) ∧
      (hit ≠ 0 → g.handler = true → p.handlerBank = false → g.held = none →
        lands (s.putGroup core slot { g' with held := some ⟨p.word, hit⟩ })) ∧
      (∀ h, hit ≠ 0 → g.handler = true → p.handlerBank = false → g.held = some h →
        lands (s.putGroup core slot { g' with held := some { h with flags := h.flags ||| hit } })) ∧
      ∀ i f, hit ≠ 0 → (g.handler = false ∨ p.handlerBank = true) → g.trapsIn p.issued i → g.frags[i]? = some f →
        lands (takeTrap core slot i 3 f.pc p.word (hit.setWidth 32) (s.putGroup core slot g'))

/-- Mask results, handle words and flags land: bits of the awaited threads, a pending register, FPFLAGS and the trap of an enabled
flag (R62, R97, R115, R129, R134, R135). Which fragment takes that trap where the one that issued the instruction is gone, `trapsIn`, is
the model's choice (notes/assumptions/17.md). -/
def Obligations.ResultsLand : Prop :=
  Sys2Proof.Claims.MaskAndHandleLand ∧ Sys2Proof.Claims.FlagsLand

/-- R194 and R195, with R227 in merge form: what a load sends, and that it stores nothing. That its bytes are read whole when it issues
is the model's choice for such a turn (notes/assumptions/5.md). -/
def Obligations.LoadResultSent : Prop :=
  ∀ (s : State) (x : Ctx) (i : Instr) (r : MemRow) (place : Nat → Place), s.ctx = some x → LoadDoes i r →
    (x.f.k0 = 0 ∨ x.ready (addressRegs r.p r.a r.sel)) → x.granted s .read (r.req x) place → x.deferredFailure s r.o r.c = false →
    ∃ g' tlb, x.sent x.g g' s.ir r.d (fun t => loadedRegs r.w (x.seen s (r.req x t) (place t))) none 0 ∧
      exec i s = .next (x.completes { s with tlb := tlb } g' r.m 1)

/-- R194 to R196: the places are those that the checks give for the effective addresses. -/
def Sys2Proof.Claims.StoreWritesBytes : Prop :=
  ∀ (s : State) (x : Ctx) (i : Instr) (r : MemRow) (place : Nat → Place), s.ctx = some x → StoreDoes i r →
    s.mem.wf = true → (x.f.k0 = 0 ∨ x.ready ((List.range (widthRegs r.w)).map (r.d + ·) ++ addressRegs r.p r.a r.sel)) →
    x.granted s .write (r.req x) place → x.deferredFailure s r.o r.c = false →
    (x.launch.form = 2 → ∀ t, t < 64 → x.f.k0.getLsbD t = true → isOutward x (r.req x t) (place t) = false) →
    ∃ s', s.onlyMemory s' ∧ exec i s = .next (x.completes s' x.g r.m 1) ∧
      (∀ t j, t < 64 → x.f.k0.getLsbD t = true → j < widthBytes r.w →
        (∀ u, t < u → u < 64 → x.f.k0.getLsbD u = true → ((place t).bytes.map (·.1)).getD j 0 ∉ (place u).bytes.map (·.1)) →
        ((place t).bytes.map (·.1)).Nodup →
        s'.mem.byte (((place t).bytes.map (·.1)).getD j 0) = storedByte x r.d t j) ∧
      (∀ b, (∀ t, t < 64 → x.f.k0.getLsbD t = true → b ∉ (place t).bytes.map (·.1)) → s'.mem.byte b = s.mem.byte b)

/-- R177: a team's unit-store addresses count from the base of its allocation. -/
def Sys2Proof.Claims.UnitStorePlaces : Prop :=
  ∀ (s : State) (x : Ctx) (a : Access) (t n addr : Nat), a ≠ .atomic → touchesMerge x.launch x.team addr n = false →
    checkAccess x s a ⟨t, .unit, addr, n⟩ =
      if addr + n ≤ x.team.kernel.unit then
        .ok ⟨(List.range n).map fun i => (unitKey x.team.core (x.team.base + addr + i), .unit x.team.core), some x.g.team⟩
      else .error ⟨1, 10, 2, 0, addr, 0⟩

/-- R177, R190 and R193: an access fault of the unit store. -/
def Sys2Proof.Claims.UnitRangeTrap : Prop :=
  ∀ (s : State) (x : Ctx) (r : MemRow) (t : Nat), s.ctx = some x → x.launch.form ≠ 2 → r.p = .unit → t < 64 →
    x.f.k0.getLsbD t = true → x.team.kernel.unit < (x.lane r.a t).toNat + widthBytes r.w →
    (∀ u, u < t → x.f.k0.getLsbD u = true → (x.lane r.a u).toNat + widthBytes r.w ≤ x.team.kernel.unit) →
    (x.ready [r.a] → exec (.ld r.m r.w r.d r.a r.o r.c) s =
      .next (takeTrap x.core x.slot x.frag 10 x.f.pc s.ir (BitVec.ofNat 32 (2 * 2 ^ 8 + t)) s)) ∧
    (x.ready ((List.range (widthRegs r.w)).map (r.d + ·) ++ [r.a]) → exec (.st r.m r.w r.d r.a r.o r.c) s =
      .next (takeTrap x.core x.slot x.frag 10 x.f.pc s.ir (BitVec.ofNat 32 (2 ^ 18 + 2 * 2 ^ 8 + t)) s))

/-- An access to the unit store lies at the team's allocation; ld and st past its end take the access-fault trap of the lowest
such thread and perform nothing (R123, R177, R190, R193). -/
def Obligations.UnitStoreAccess : Prop :=
  Sys2Proof.Claims.UnitStorePlaces ∧ Sys2Proof.Claims.UnitRangeTrap

/-- R226: an entry for each aligned word that a thread's store touches, in the team's merge buffer. -/
def Sys2Proof.Claims.MergeFormStore : Prop :=
  ∀ (s : State) (x : Ctx) (i : Instr) (r : MemRow) (place : Nat → Place), s.ctx = some x → StoreDoes i r →
    s.mem.wf = true → (x.f.k0 = 0 ∨ x.ready ((List.range (widthRegs r.w)).map (r.d + ·) ++ addressRegs r.p r.a r.sel)) →
    x.granted s .write (r.req x) place → x.deferredFailure s r.o r.c = false → x.launch.form = 2 →
    (∀ t, t < 64 → x.f.k0.getLsbD t = true → isOutward x (r.req x t) (place t) = true) →
    let es := x.active.flatMap fun t => mergeEntries x (r.req x t) ((List.range (widthBytes r.w)).map (storedByte x r.d t))
    16 * (x.team.merge.length + es.length) ≤ (mergeBuffer x.launch x.team).2 - (mergeBuffer x.launch x.team).1 →
    ∃ s', { s with teams := s'.teams }.onlyMemory s' ∧
      (∀ k, s'.teams.find k = if k = x.g.team then some { x.team with merge := x.team.merge ++ es } else s.teams.find k) ∧
      exec i s = .next (x.completes s' x.g r.m 1) ∧
      ∀ b, (b < unitKey x.team.core (x.team.base + (mergeBuffer x.launch x.team).1) ∨
          unitKey x.team.core (x.team.base + (mergeBuffer x.launch x.team).2) ≤ b) → s'.mem.byte b = s.mem.byte b

/-- A store writes the active threads' bytes at their addresses, the highest thread winning, and no other byte; in merge form it
appends merge entries (R55, R190, R194, R195, R196, R226, R471). That the bytes are written whole when it issues is the model's choice
for such a turn (notes/assumptions/5.md). -/
def Obligations.StoreWritesBytes : Prop :=
  Sys2Proof.Claims.StoreWritesBytes ∧ Sys2Proof.Claims.MergeFormStore

/-- R198 to R202: each thread's operation on its own location, in ascending thread order, and its old value. -/
def Sys2Proof.Claims.AtomicResult : Prop :=
  ∀ (s : State) (x : Ctx) (i : Instr) (r : AtomRow) (place : Nat → Place), s.ctx = some x → AtomDoes i r →
    (x.f.k0 = 0 ∨ x.ready (atomRegs r.p r.a)) → x.granted s .atomic (atomReq x r.p r.a r.size) place →
    x.deferredFailure s r.o r.c = false → (r.supported = false → x.offHost place) →
    (r.unordered = true → x.launch.form = 0 ∨ x.f.k0 = 0) →
    ∃ g' tlb,
      let run := performAtomics (r.new x) (x.active.map fun t => (atomReq x r.p r.a r.size t, place t)) { s with tlb := tlb }
      x.sent x.g g' s.ir r.d (fun t => (List.range (r.size / 4)).map fun k =>
        BitVec.ofNat 32 (((run.2.find? fun q => q.1 = t).map (·.2)).getD 0 / 2 ^ (32 * k))) none 0 ∧
      exec i s = .next (x.completes run.1 g' r.m 1)

/-- R198: one atomic access, and a sequence of them. -/
def Sys2Proof.Claims.AtomicAccess : Prop :=
  ∀ (f : Nat → Nat → Nat) (r : Req) (p : Place) (rest : List (Req × Place)) (s : State), s.mem.wf = true →
    (p.bytes.map (·.1)).Nodup → p.bytes.length = r.size → (∀ b ∈ p.bytes, s.lostSite b.2 = none) →
    let old := leNat (p.bytes.map fun b => s.mem.byte b.1)
    ∃ s', s.onlyMemory s' ∧ s'.mem.wf = true ∧ s'.tlb = s.tlb ∧
      (∀ j, j < r.size → s'.mem.byte ((p.bytes.map (·.1)).getD j 0) = BitVec.ofNat 8 (f r.thread old / 2 ^ (8 * j))) ∧
      (∀ b, b ∉ p.bytes.map (·.1) → s'.mem.byte b = s.mem.byte b) ∧
      performAtomics f ((r, p) :: rest) s =
        ((performAtomics f rest s').1, (r.thread, old) :: (performAtomics f rest s').2)

/-- An atomic performs each active thread's read-modify-write in ascending order and sends the old values (R198, R199, R200, R201,
R202, R190, R62, R471). That all of them are performed when the instruction issues is the model's choice for such a turn
(notes/assumptions/5.md). -/
def Obligations.AtomicResult : Prop :=
  Sys2Proof.Claims.AtomicResult ∧ Sys2Proof.Claims.AtomicAccess

/-- R203: an ordered atomic is staged at its home. -/
def Sys2Proof.Claims.OrderedAtomicStages : Prop :=
  ∀ (s : State) (x : Ctx) (m : Bool) (d a : Nat) (o : Order) (c : Scope) (p : Space) (place : Nat → Place), s.ctx = some x →
    (x.f.k0 = 0 ∨ x.ready (atomRegs p a)) → x.granted s .atomic (atomReq x p a 4) place → x.deferredFailure s o c = false →
    x.offHost place →
    (∀ t, t < 64 → x.f.k0.getLsbD t = true →
      (s.staging.filter fun e => e.home = ((place t).home s.tick).1).length + s.onTheWay ((place t).home s.tick).1 +
        (x.active.filter fun u => ((place u).home s.tick).1 = ((place t).home s.tick).1).length ≤ ((place t).home s.tick).2) →
    ∃ tlb, exec (.atomoFadd m d a o c p) s = .next (x.completes
      { s with
        tlb := tlb
        staging := s.staging ++ x.active.map fun t =>
          ⟨((place t).home s.tick).1, ((place t).bytes.map (·.1)).headD 0, x.team.teamIx * 2 ^ 16 + x.g.gix * 64 + t, x.lane d t⟩ }
      x.g m 1)

/-- R204: closing folds in ascending key, then in order of staging. -/
def Sys2Proof.Claims.OrderedAtomicCloses : Prop :=
  (∀ (s : State) (x : Ctx) (m : Bool) (a : Nat) (o : Order) (c : Scope) (p : Space) (place : Nat → Place), s.ctx = some x →
    (x.f.k0 = 0 ∨ x.ready (atomRegs p a)) → x.granted s .atomic (atomReq x p a 4) place → x.deferredFailure s o c = false →
    x.offHost place →
    ∃ tlb, exec (.atomoClose m a o c p) s = .next (x.completes
      (x.active.foldl (fun s t => s.closeTarget ((place t).bytes.map (·.1))) { s with tlb := tlb }) x.g m 1)) ∧
  (∀ (s : State) (keys : List Nat), s.mem.wf = true → keys.Nodup → keys.length = 4 →
    ∃ l : List Staged, l.Perm (s.staging.filter fun e => e.target = keys.headD 0) ∧
      (l.Pairwise fun e e' => e.key ≤ e'.key) ∧
      (∀ k, (l.filter fun e => e.key = k) = s.staging.filter fun e => e.target = keys.headD 0 ∧ e.key = k) ∧
      s.onlyMemory { s.closeTarget keys with staging := s.staging } ∧
      (s.closeTarget keys).staging = s.staging.filter (fun e => e.target ≠ keys.headD 0) ∧
      (∀ b, b ∉ keys → (s.closeTarget keys).mem.byte b = s.mem.byte b) ∧
      leNat (keys.map (s.closeTarget keys).mem.byte) =
        l.foldl (fun v e => (fpAdd f32 0 v e.value.toNat).1) (leNat (keys.map s.mem.byte)) % 2 ^ 32)

/-- atomo.fadd stages one contribution per active thread, and atomo.close folds what is staged for each target in ascending key
(R203, R204, R190, R98). That they are staged, and folded, when the instruction issues is the model's choice (notes/assumptions/5.md). -/
def Obligations.OrderedAtomics : Prop :=
  Sys2Proof.Claims.OrderedAtomicStages ∧ Sys2Proof.Claims.OrderedAtomicCloses

namespace Sys2Proof.Machine

/-! ### The front end (03) -/

/-- What a uniform instruction does that writes one register: its switch marker, words, destination field, the fields whose pending
state it waits for, and the value (R43, R112, R113). -/
structure UniRow where
  m : Bool
  n : Nat
  d : Nat
  srcs : List Nat
  value : Ctx → W32

/-- A row with the two sources a and b, read uniformly. -/
def uniTwo (m : Bool) (d a b : Nat) (f : W32 → W32 → W32) : UniRow := ⟨m, 1, d, [a, b], fun x => f (x.uni a) (x.uni b)⟩
/-- A row with the one source a. -/
def uniOne (m : Bool) (d a : Nat) (f : W32 → W32) : UniRow := ⟨m, 1, d, [a], fun x => f (x.uni a)⟩
/-- A row of two words whose destination is a source too. -/
def uniLit (m : Bool) (d : Nat) (f : W32 → W32) : UniRow := ⟨m, 2, d, [d], fun x => f (x.uni d)⟩

/-- The uniform scalar instructions and `kpopc` (R99, R112, R113). -/
inductive UniDoes : Instr → UniRow → Prop
  | uadd m d a b : UniDoes (.uadd m d a b) (uniTwo m d a b AluFn.add.value)
  | usub m d a b : UniDoes (.usub m d a b) (uniTwo m d a b AluFn.sub.value)
  | uand m d a b : UniDoes (.uand m d a b) (uniTwo m d a b AluFn.and.value)
  | uor m d a b : UniDoes (.uor m d a b) (uniTwo m d a b AluFn.or.value)
  | uxor m d a b : UniDoes (.uxor m d a b) (uniTwo m d a b AluFn.xor.value)
  | uandn m d a b : UniDoes (.uandn m d a b) (uniTwo m d a b AluFn.andn.value)
  | uminS32 m d a b : UniDoes (.uminS32 m d a b) (uniTwo m d a b AluFn.minS.value)
  | umaxS32 m d a b : UniDoes (.umaxS32 m d a b) (uniTwo m d a b AluFn.maxS.value)
  | uminZ32 m d a b : UniDoes (.uminZ32 m d a b) (uniTwo m d a b AluFn.minZ.value)
  | umaxZ32 m d a b : UniDoes (.umaxZ32 m d a b) (uniTwo m d a b AluFn.maxZ.value)
  | uaddsatS32 m d a b : UniDoes (.uaddsatS32 m d a b) (uniTwo m d a b AluFn.addsatS.value)
  | usubsatS32 m d a b : UniDoes (.usubsatS32 m d a b) (uniTwo m d a b AluFn.subsatS.value)
  | uaddsatZ32 m d a b : UniDoes (.uaddsatZ32 m d a b) (uniTwo m d a b AluFn.addsatZ.value)
  | usubsatZ32 m d a b : UniDoes (.usubsatZ32 m d a b) (uniTwo m d a b AluFn.subsatZ.value)
  | uabsd m d a b : UniDoes (.uabsd m d a b) (uniTwo m d a b AluFn.absd.value)
  | uabs m d a : UniDoes (.uabs m d a) (uniOne m d a BitFn.abs.value)
  | ushl m d a b : UniDoes (.ushl m d a b) (uniTwo m d a b AluFn.shl.value)
  | ushr m d a b : UniDoes (.ushr m d a b) (uniTwo m d a b AluFn.shr.value)
  | usar m d a b : UniDoes (.usar m d a b) (uniTwo m d a b AluFn.sar.value)
  | urol m d a b : UniDoes (.urol m d a b) (uniTwo m d a b AluFn.rol.value)
  | uror m d a b : UniDoes (.uror m d a b) (uniTwo m d a b AluFn.ror.value)
  | umul m d a b : UniDoes (.umul m d a b) (uniTwo m d a b AluFn.mul.value)
  | umulhS32 m d a b : UniDoes (.umulhS32 m d a b) (uniTwo m d a b AluFn.mulhS.value)
  | umulhZ32 m d a b : UniDoes (.umulhZ32 m d a b) (uniTwo m d a b AluFn.mulhZ.value)
  | umulhSz32 m d a b : UniDoes (.umulhSz32 m d a b) (uniTwo m d a b AluFn.mulhSz.value)
  | udivS32 m d a b : UniDoes (.udivS32 m d a b) (uniTwo m d a b AluFn.divS.value)
  | udivZ32 m d a b : UniDoes (.udivZ32 m d a b) (uniTwo m d a b AluFn.divZ.value)
  | uremS32 m d a b : UniDoes (.uremS32 m d a b) (uniTwo m d a b AluFn.remS.value)
  | uremZ32 m d a b : UniDoes (.uremZ32 m d a b) (uniTwo m d a b AluFn.remZ.value)
  | uaddi m d a i : UniDoes (.uaddi m d a i) (uniOne m d a fun a => AluFn.add.value a (immWord i))
  | umovl m d lit : UniDoes (.umovl m d lit) ⟨m, 2, d, [], fun _ => lit⟩
  | uaddl m d lit : UniDoes (.uaddl m d lit) (uniLit m d fun v => AluFn.add.value v lit)
  | uandl m d lit : UniDoes (.uandl m d lit) (uniLit m d fun v => AluFn.and.value v lit)
  | uorl m d lit : UniDoes (.uorl m d lit) (uniLit m d fun v => AluFn.or.value v lit)
  | ulea m h d a b : UniDoes (.ulea m h d a b) (uniTwo m d a b fun a b => wrap (a.toNat + b.toNat * 2 ^ h))
  | ucmp m c d a b : UniDoes (.ucmp m c d a b) (uniTwo m d a b fun a b => if specHolds c a b then 1 else 0)
  | umov m d a : UniDoes (.umov m d a) (uniOne m d a fun a => a)
  | rdlow m d k : UniDoes (.rdlow m d k)
      ⟨m, 1, d, [], fun x => wrap (((List.range 64).find? fun t => (x.mask k).getLsbD t).getD 64 : Nat)⟩
  | rdth m d a b : UniDoes (.rdth m d a b) ⟨m, 1, d, [b], fun x => x.g.readV x.g.handler a ((x.uni b).toNat % 64)⟩
  | kpopc m d k : UniDoes (.kpopc m d k)
      ⟨m, 1, d, [], fun x => wrap ((List.range 64).countP fun t => (x.mask k).getLsbD t : Nat)⟩

/-- What a mask instruction does: its switch marker, its mask, the fields whose pending state it waits for, and bit t of its value
(R99). -/
structure MaskRow where
  m : Bool
  d : Nat
  srcs : List Nat
  bit : Ctx → Nat → Bool

/-- The mask instructions that write a mask (R99). -/
inductive MaskDoes : Instr → MaskRow → Prop
  | kand m d a b : MaskDoes (.kand m d a b) ⟨m, d, [], fun x t => (x.mask a).getLsbD t && (x.mask b).getLsbD t⟩
  | kor m d a b : MaskDoes (.kor m d a b) ⟨m, d, [], fun x t => (x.mask a).getLsbD t || (x.mask b).getLsbD t⟩
  | kxor m d a b : MaskDoes (.kxor m d a b) ⟨m, d, [], fun x t => (x.mask a).getLsbD t != (x.mask b).getLsbD t⟩
  | kandn m d a b : MaskDoes (.kandn m d a b) ⟨m, d, [], fun x t => (x.mask a).getLsbD t && !(x.mask b).getLsbD t⟩
  | knot m d a : MaskDoes (.knot m d a) ⟨m, d, [], fun x t => !(x.mask a).getLsbD t⟩
  | kfrom m d r : MaskDoes (.kfrom m d r)
      ⟨m, d, [r, r + 1], fun x t => if t < 32 then (x.uni r).getLsbD t else (x.uni (r + 1)).getLsbD (t - 32)⟩

/-- g after fragment x.frag has gone on to pc outside every loop body; the marker m parks the group while results are on their way
(R62). -/
def Ctx.goesTo (x : Ctx) (g : Group) (m : Bool) (pc : W32) : Group :=
  Group.park62 { g with frags := g.frags.set x.frag { x.f with pc := pc } } m

/-- A target n words from the instruction (R59). -/
def Ctx.wordsOn (x : Ctx) (n : Int) : W32 := x.f.pc + wrap (4 * n)

/-- The conditions of `brc` and `lbrk` (R101). -/
def branchHolds (x : Ctx) (c : BranchCond) (r : Nat) : Prop :=
  match c with
  | .eqz => (x.uni r).toInt = 0
  | .nez => (x.uni r).toInt ≠ 0
  | .ltz => (x.uni r).toInt < 0
  | .gez => 0 ≤ (x.uni r).toInt
  | .gtz => 0 < (x.uni r).toInt
  | .lez => (x.uni r).toInt ≤ 0
  | .kall => ∀ t, t < 64 → x.f.k0.getLsbD t = true → (x.mask r).getLsbD t = true
  | .kany => ∃ t, t < 64 ∧ x.f.k0.getLsbD t = true ∧ (x.mask r).getLsbD t = true

/-- The byte offset n words from the instruction; no step of it wraps (R9, R59). -/
def Ctx.wordsAway (x : Ctx) (n : Int) : Int := (x.f.pc.toNat : Int) + 4 * n
/-- A target names an untagged word of the code section (R52). -/
def Ctx.legal (x : Ctx) (target : Int) : Prop := 0 ≤ target ∧ x.launch.image.holds target.toNat = true

/-- What a branch, call or return does (R100): its switch marker, the fields whose pending state it waits for, the target that it
names, whether it goes there, where it goes on otherwise, and what g30 receives. -/
structure JumpRow where
  m : Bool
  srcs : List Nat
  target : Ctx → Option Int
  goes : Ctx → Prop
  next : Ctx → W32
  link : Ctx → Option W32

/-- The branches, calls and returns (R100, R101). -/
inductive JumpDoes : Instr → JumpRow → Prop
  | bra m o : JumpDoes (.bra m o) ⟨m, [], fun x => some (x.wordsAway o.toInt), fun _ => True, fun x => x.wordsOn 1, fun _ => none⟩
  | call m o : JumpDoes (.call m o)
      ⟨m, [], fun x => some (x.wordsAway o.toInt), fun _ => True, fun x => x.wordsOn 1, fun x => some (x.wordsOn 1)⟩
  | brc m c r o : JumpDoes (.brc m c r o) ⟨m, if c = .kall ∨ c = .kany then [] else [r], fun x => some (x.wordsAway o.toInt),
      fun x => branchHolds x c r, fun x => x.wordsOn 1, fun _ => none⟩
  | ret m : JumpDoes (.ret m) ⟨m, [126], fun x => some ((x.uni 126).toNat : Int), fun _ => True, fun x => x.wordsOn 1, fun _ => none⟩
  | jmpt m a table : JumpDoes (.jmpt m a table) ⟨m, [a], fun x => (table[(x.uni a).toNat]?).map fun o => x.wordsAway o.toInt,
      fun _ => True, fun x => x.wordsOn (1 + table.length), fun _ => none⟩
  | callt m a table : JumpDoes (.callt m a table) ⟨m, [a], fun x => (table[(x.uni a).toNat]?).map fun o => x.wordsAway o.toInt,
      fun _ => True, fun x => x.wordsOn (1 + table.length), fun x => some (x.wordsOn (1 + table.length))⟩

/-- g' is g but that the register of field d, outside handler mode, has stepped by σ: a v register in the threads of k, a g register
whole (R173). -/
def Group.stepsTo (g g' : Group) (d : Nat) (k : Mask) (σ : W32) : Prop :=
  if d < 96 then { g with handler := false }.lanesSet { g' with handler := false } d k fun t => g.readV false d t + σ
  else { g with handler := false }.scalarSet { g' with handler := false } (d - 96) (g.readG false (d - 96) + σ)

/-- No fragment of the machine waits at a team or cluster barrier. -/
def State.noneAtBarrier (s : State) : Prop :=
  ∀ e ∈ s.groups.entries, ∀ f ∈ e.2.frags, ∀ fn id, atBarrier fn id f.wait = false ∧ atBarrier fn id f.saved = false

/-- An entry that names it takes the parent of a released entry as its own; so does a fragment (R89). -/
def Split.above (e : Split) (p : Option Nat) : Option Nat := if p = some e.num then e.parent else p
/-- The entries left once e is released. -/
def Group.splitsWithout (g : Group) (e : Split) : List Split :=
  (g.splits.filter fun q => q.num ≠ e.num).map fun q => { q with parent := e.above q.parent }
/-- e is the one resident entry of its number. -/
def Group.hasSplit (g : Group) (e : Split) : Prop := e ∈ g.splits ∧ ∀ q ∈ g.splits, q.num = e.num → q = e
/-- The entry's remaining threads do not lie in one fragment's thread set T. -/
def Split.spread (e : Split) (T : Mask) : Prop := e.mask &&& ~~~T ≠ 0
/-- No fragment but those of the listed places waits at a join. -/
def Group.noOtherJoins (g : Group) (l : List Nat) : Prop := ∀ (i : Nat) f, g.frags[i]? = some f → i ∉ l → f.joins = false

/-- The spill slot of the group (R91, R407). -/
def Ctx.slotAddress (x : Ctx) (slot : Nat) : Nat :=
  x.launch.spill.toNat + (x.team.teamIx * x.launch.kernel.groups + x.g.gix) * (47 * 32) + 32 * slot
/-- The 32 bytes at the places of a spill slot hold an entry (R91). -/
def State.slotHolds (s : State) (places : List Nat) (e : Split) : Prop :=
  let w (off n : Nat) : Nat := leNat ((List.range n).map fun i => s.mem.byte (places.getD (off + i) 0))
  w 0 16 = e.mask.toNat ∧ w 16 4 = e.takenPc.toNat ∧ w 20 4 = e.fallPc.toNat ∧ w 24 4 = e.reconvPc.toNat ∧ w 28 2 = e.num ∧
    w 30 2 = e.parent.getD 0xFFFF
/-- s' is s once the entry has been written to the places of a spill slot. -/
def State.spilledTo (s s' : State) (places : List Nat) (e : Split) : Prop :=
  s.onlyMemory s' ∧ s'.slotHolds places e ∧ ∀ b, b ∉ places → s'.mem.byte b = s.mem.byte b
/-- An entry whose numbers are 16 bits wide. -/
def Split.small (e : Split) : Prop := e.num < 0xFFFF ∧ ∀ p, e.parent = some p → p < 0xFFFF
/-- slot is the lowest free spill slot, and its 32 bytes lie at distinct places that the group may write. -/
def Ctx.spillsTo (x : Ctx) (s : State) (spilled : List (Nat × Split)) (slot : Nat) (places : List Nat) : Prop :=
  slot < 64 ∧ (∀ p ∈ spilled, p.1 ≠ slot) ∧ (∀ j, j < slot → ∃ p ∈ spilled, p.1 = j) ∧
    x.spillPlaces s .write (x.slotAddress slot) 32 = .ok places ∧ places.Nodup ∧ places.length = 32

/-- The records of the threads, of which none has been handed over yet, go into bin i of the die, which holds records of the launch with this entry and has room for
them without becoming full (R105, R413, R416). -/
def Ctx.binTakes (x : Ctx) (s : State) (i : Nat) (entry : W32) (threads : Mask) : Prop :=
  x.launch.form = 0 ∧ (s.context (x.team.launch / 2 ^ 20)).gen = x.launch.gen ∧ x.f.handed = 0 ∧ x.f.handing = 0 ∧ x.f.handAt = 0 ∧
    (s.bins.findIdx? fun b => b.1 = x.die ∧ b.2.launch = x.team.launch ∧ b.2.entry = entry) = some i ∧
    ∀ b, s.bins[i]? = some b → b.2.recs.length + countOf threads < 64

end Sys2Proof.Machine

/-- R43, for the uniform scalar instructions of R99, R112 and R113: what reading a v register uniformly yields and what writing one does;
and their results, in v and g registers. -/
def Obligations.UniformResult : Prop :=
  (∀ (x : Ctx) (a : Nat), a < 96 → (x.f.k0 = 0 → x.uni a = 0) ∧
    ∀ t, t < 64 → x.f.k0.getLsbD t = true → (∀ u, u < t → x.f.k0.getLsbD u = false) → x.uni a = x.g.readV x.g.handler a t) ∧
  (∀ (s : State) (x : Ctx) (i : Instr) (r : UniRow), s.ctx = some x → UniDoes i r → x.ready r.srcs →
    (∃ g', x.uniformSet g' r.d (r.value x) ∧ exec i s = .next (x.completes s g' r.m r.n)) ∧
    (r.d < 96 → x.f.k0 = 0 → exec i s = .next (x.completes s x.g r.m r.n)))

/-- R97 and R99: a uniform write of k1 to k7 reaches the bits of F, one of k0 is cut down to F; `kto` writes two g registers. -/
def Obligations.MaskResult : Prop :=
  (∀ (s : State) (x : Ctx) (i : Instr) (r : MaskRow), s.ctx = some x → MaskDoes i r → r.d < 8 → x.ready r.srcs →
    ∃ g' v, (∀ t, t < 64 → v.getLsbD t = r.bit x t) ∧
      (r.d = 0 → g' = { x.g with frags := x.g.frags.set x.frag { x.f with k0 := v &&& x.f.threads } }) ∧
      (r.d ≠ 0 → x.maskSet g' r.d x.f.threads v) ∧ exec i s = .next (x.completes s g' r.m 1)) ∧
  (∀ (s : State) (x : Ctx) (m : Bool) (r k : Nat), s.ctx = some x → 96 ≤ r → r + 1 < 128 →
    ∃ g₁ g', x.g.scalarSet g₁ (r - 96) ((x.mask k).setWidth 32) ∧
      g₁.scalarSet g' (r + 1 - 96) ((x.mask k >>> 32).setWidth 32) ∧
      exec (.kto m r k) s = .next (x.completes s g' m 1))

/-- R100 and R101 outside loop bodies, to a legal target (R52): the whole fragment transfers, and g30 receives the return address. -/
def Sys2Proof.Claims.BranchResult : Prop :=
  ∀ (s : State) (x : Ctx) (i : Instr) (r : JumpRow), s.ctx = some x → JumpDoes i r → (x.f.looping = false ∨ x.g.handler = true) →
    x.ready r.srcs →
    ∃ g', (∀ v, r.link x = some v → x.g.scalarSet g' 30 v) ∧ (r.link x = none → g' = x.g) ∧
      (∀ target, r.target x = some target → r.goes x → x.legal target →
        exec i s = .next (x.put s (x.goesTo g' r.m (wrap target)))) ∧
      ((r.target x = none ∨ ¬r.goes x) → exec i s = .next (x.put s (x.goesTo g' r.m (r.next x))))

/-- R52, R53 and R111: an illegal target is trapped with TRAPINFO1 the target, and a branch inside a loop body with its target if
that is illegal too, else with 0. -/
def Sys2Proof.Claims.BranchIllegal : Prop :=
  ∀ (s : State) (x : Ctx) (i : Instr) (r : JumpRow), s.ctx = some x → JumpDoes i r → x.ready r.srcs →
    (x.f.looping = true → x.g.handler = false →
      (∀ target, r.target x = some target → ¬x.legal target →
        exec i s = .next (takeTrap x.core x.slot x.frag 1 x.f.pc s.ir (wrap target) s)) ∧
      ((∀ target, r.target x = some target → x.legal target) →
        exec i s = .next (takeTrap x.core x.slot x.frag 1 x.f.pc s.ir 0 s))) ∧
    ((x.f.looping = false ∨ x.g.handler = true) → ∀ target, r.target x = some target → r.goes x → ¬x.legal target →
      exec i s = .next (takeTrap x.core x.slot x.frag 1 x.f.pc s.ir (wrap target) s))

/-- Branches, calls and returns move the whole fragment to their target; an illegal target and a branch in a loop body trap (R52,
R53, R59, R100, R101, R111). -/
def Obligations.BranchResult : Prop :=
  Sys2Proof.Claims.BranchResult ∧ Sys2Proof.Claims.BranchIllegal

/-- R88 and R90: the three outcomes of `bdiv`, with a free place in the split table. -/
def Sys2Proof.Claims.BdivResult : Prop :=
  ∀ (s : State) (x : Ctx) (m : Bool) (k : Nat) (o : BitVec 21) (reconv : W32), s.ctx = some x → x.g.handler = false →
    x.f.looping = false → x.legal (x.wordsAway o.toInt) →
    let T := x.f.k0 &&& x.mask k
    let N := x.f.k0 &&& ~~~x.mask k
    (T = 0 → exec (.bdiv m k o reconv) s = .next (x.put s (x.goesTo x.g m (x.wordsOn 2)))) ∧
    (T ≠ 0 → N = 0 → exec (.bdiv m k o reconv) s = .next (x.put s (Group.park62
      { x.g with frags := x.g.frags.set x.frag { x.f with k0 := T, pc := x.wordsOn o.toInt } } m))) ∧
    (T ≠ 0 → N ≠ 0 → x.g.splits.length < 16 → x.g.entries.length < 64 →
      ∃ num age ptr, num ≤ 0xFFFE ∧ (∀ e ∈ x.g.entries, e.num ≠ num ∧ e.age < age) ∧
        exec (.bdiv m k o reconv) s = .next (x.put s (Group.park62
          { x.g with
            splits := x.g.splits ++
              [⟨x.f.threads, x.wordsOn o.toInt, x.wordsOn 2, x.wordsOn reconv.toNat, num, x.f.inner, age⟩]
            nextSplit := num + 1
            ptr := ptr
            frags := (x.g.frags.set x.frag
                { x.f with threads := x.f.threads &&& ~~~T, k0 := N, pc := x.wordsOn 2, inner := some num }).insertIdx (x.frag + 1)
              { pc := x.wordsOn o.toInt, threads := T, k0 := T, inner := some num, wait := .none, saved := .none
                trapping := false, looping := false, fault := none, handed := 0, handing := 0, handAt := 0, awaits := none } } m)))

/-- R90 and R91: with 16 resident entries, `bdiv` spills the oldest one to the lowest free slot before it makes its own. -/
def Sys2Proof.Claims.BdivSpills : Prop :=
  ∀ (s : State) (x : Ctx) (m : Bool) (k : Nat) (o : BitVec 21) (reconv : W32) (old : Split) (slot : Nat) (places : List Nat),
    s.ctx = some x → x.g.handler = false → x.f.looping = false → x.legal (x.wordsAway o.toInt) → s.mem.wf = true →
    x.f.k0 &&& x.mask k ≠ 0 → x.f.k0 &&& ~~~x.mask k ≠ 0 → x.g.splits.length = 16 → x.g.entries.length < 64 →
    x.g.hasSplit old → old.small → (∀ e ∈ x.g.splits, e ≠ old → old.age < e.age) → x.spillsTo s x.g.spilled slot places →
    let T := x.f.k0 &&& x.mask k
    ∃ s₁ num age ptr, s.spilledTo s₁ places old ∧ num ≤ 0xFFFE ∧ (∀ e ∈ x.g.entries, e.num ≠ num ∧ e.age < age) ∧
      exec (.bdiv m k o reconv) s = .next (x.put s₁ (Group.park62
        { x.g with
          splits := (x.g.splits.filter fun e => e.num ≠ old.num) ++
            [⟨x.f.threads, x.wordsOn o.toInt, x.wordsOn 2, x.wordsOn reconv.toNat, num, x.f.inner, age⟩]
          spilled := x.g.spilled ++ [(slot, old)]
          nextSplit := num + 1
          ptr := ptr
          frags := (x.g.frags.set x.frag
              { x.f with threads := x.f.threads &&& ~~~T, k0 := x.f.k0 &&& ~~~x.mask k, pc := x.wordsOn 2, inner := some num }).insertIdx
            (x.frag + 1)
            { pc := x.wordsOn o.toInt, threads := T, k0 := T, inner := some num, wait := .none, saved := .none
              trapping := false, looping := false, fault := none, handed := 0, handing := 0, handAt := 0, awaits := none } } m))

/-- R93 outside loop bodies, with no entry spilled: a `join` that does not concern the fragment only goes on; one that does waits while
threads of the entry are elsewhere; when the second of two fragments that hold them all arrives, the two fuse in the place of the older
one, what named the entry names its parent, and the fused fragment goes on. -/
def Sys2Proof.Claims.JoinResult : Prop :=
  ∀ (s : State) (x : Ctx) (m lateral : Bool), s.ctx = some x → x.g.handler = false → x.f.looping = false → x.g.spilled = [] →
    s.noneAtBarrier →
    let i := if lateral then Instr.joinl m else Instr.join m
    ((∀ e, x.g.innerOf x.f = some e → e.reconvPc ≠ x.f.pc) → exec i s = .next (x.put s (x.goesTo x.g m (x.wordsOn 1)))) ∧
    ∀ e, x.g.hasSplit e → x.f.inner = some e.num → e.reconvPc = x.f.pc → e.spread x.f.threads →
      (x.g.noOtherJoins [x.frag] → exec i s = .next (x.put s (Group.park62
        { x.g with frags := x.g.frags.set x.frag { x.f with wait := .join lateral } } m))) ∧
      ∀ (j : Nat) (other : Fragment), x.g.frags[j]? = some other → j ≠ x.frag → other.inner = some e.num → other.pc = x.f.pc →
        other.wait = .join lateral → other.looping = false → e.mask &&& ~~~(x.f.threads ||| other.threads) = 0 →
        e.spread other.threads → e.parent ≠ some e.num → x.g.noOtherJoins [x.frag, j] →
        (∀ q ∈ x.g.splits, q ≠ e → q.spread e.mask ∧ ∀ f ∈ x.g.frags, q.spread f.threads) →
        (∀ q ∈ x.g.splits, e.parent = some q.num → q.reconvPc ≠ x.f.pc) →
        ∃ ptr, exec i s = .next (x.put s (Group.park62
          { x.g with
            ptr := ptr
            splits := x.g.splitsWithout e
            frags := ((x.g.frags.map fun f => { f with inner := e.above f.inner }).set (min x.frag j)
              { (if x.frag < j then x.f else other) with
                threads := e.mask, k0 := (x.f.k0 ||| other.k0) &&& e.mask, inner := e.parent, wait := .none
                pc := x.wordsOn 1 }).eraseIdx (max x.frag j) } m))

/-- R95: where two fragments wait at one `joinl` with sibling entries that both reconverge there, the younger entry merges into the older;
with FORM non-zero both only wait. The threads of the entries lie elsewhere too, so that no fusion follows. -/
def Sys2Proof.Claims.JoinlMerges : Prop :=
  ∀ (s : State) (x : Ctx) (m : Bool) (mine theirs : Split) (j : Nat) (other : Fragment), s.ctx = some x → x.g.handler = false →
    x.f.looping = false → x.g.spilled = [] → s.noneAtBarrier → x.g.hasSplit mine → x.g.hasSplit theirs → mine.num ≠ theirs.num →
    x.f.inner = some mine.num → x.g.frags[j]? = some other → j ≠ x.frag → other.inner = some theirs.num → other.pc = x.f.pc →
    other.wait = .join true → mine.reconvPc = x.f.pc → theirs.reconvPc = x.f.pc → mine.parent = theirs.parent →
    mine.parent ≠ some mine.num → mine.parent ≠ some theirs.num → mine.age ≠ theirs.age → x.g.noOtherJoins [x.frag, j] →
    mine.spread x.f.threads → theirs.spread other.threads →
    let waits (g : Machine.Group) : Machine.Group := { g with frags := g.frags.set x.frag { x.f with wait := .join true } }
    (x.launch.form ≠ 0 → exec (.joinl m) s = .next (x.put s (Group.park62 (waits x.g) m))) ∧
    (x.launch.form = 0 → (mine.mask ||| theirs.mask) &&& ~~~(x.f.threads ||| other.threads) ≠ 0 →
      (∀ q ∈ x.g.splits, ∀ f ∈ x.g.frags, { q with mask := if q = mine ∨ q = theirs then mine.mask ||| theirs.mask else q.mask }.spread
        f.threads) →
      let older := if mine.age < theirs.age then mine else theirs
      let younger := if mine.age < theirs.age then theirs else mine
      let up (p : Option Nat) : Option Nat := if p = some younger.num then some older.num else p
      exec (.joinl m) s = .next (x.put s (Group.park62
        { x.g with
          splits := ((x.g.splits.map fun q => if q.num = older.num then { q with mask := mine.mask ||| theirs.mask } else q).filter
            fun q => q.num ≠ younger.num).map fun q => { q with parent := up q.parent }
          frags := (waits x.g).frags.map fun f => { f with inner := up f.inner } } m)))

/-- R91 for `join`: an innermost entry that was spilled is brought back first, and the oldest of the 16 resident ones takes its slot; the
fragment then waits while threads of the entry are elsewhere. A fusion that releases a resident entry refills the entry spilled last. -/
def Sys2Proof.Claims.JoinRefills : Prop :=
  ∀ (s : State) (x : Ctx) (m lateral : Bool) (spilled : List (Nat × Split)) (slot : Nat) (e : Split) (places : List Nat), s.ctx = some x →
    x.g.handler = false → x.f.looping = false → s.noneAtBarrier → s.mem.wf = true → x.g.spilled = spilled ++ [(slot, e)] → e.small →
    x.spillPlaces s .read (x.slotAddress slot) 32 = .ok places → places.length = 32 → s.slotHolds places e →
    (∀ q ∈ x.g.splits, q.num ≠ e.num) → (∀ p ∈ spilled, p.2.num ≠ e.num) →
    let i := if lateral then Instr.joinl m else Instr.join m
    (∀ old free at_, x.f.inner = some e.num → e.reconvPc = x.f.pc → e.spread x.f.threads → x.g.noOtherJoins [x.frag] →
      x.g.splits.length = 16 → x.g.hasSplit old → old.small → (∀ q ∈ x.g.splits, q ≠ old → old.age < q.age) →
      x.spillsTo s spilled free at_ →
      ∃ s₁, s.spilledTo s₁ at_ old ∧ exec i s = .next (x.put s₁ (Group.park62
        { x.g with
          splits := (x.g.splits.filter fun q => q.num ≠ old.num) ++ [e]
          spilled := spilled ++ [(free, old)]
          frags := x.g.frags.set x.frag { x.f with wait := .join lateral } } m))) ∧
    ∀ (d : Split) (j : Nat) (other : Fragment), x.g.hasSplit d → (∀ p ∈ x.g.spilled, p.2.num ≠ d.num) → x.f.inner = some d.num →
      d.reconvPc = x.f.pc → d.spread x.f.threads → x.g.frags[j]? = some other → j ≠ x.frag → other.inner = some d.num →
      other.pc = x.f.pc → other.wait = .join lateral → other.looping = false →
      d.mask &&& ~~~(x.f.threads ||| other.threads) = 0 → d.spread other.threads → x.g.noOtherJoins [x.frag, j] →
      d.parent = none → (∀ q ∈ x.g.entries, q ≠ d → q.parent ≠ some d.num ∧ q.spread d.mask ∧ ∀ f ∈ x.g.frags, q.spread f.threads) →
      ∃ g' ptr, exec i s = .next (x.put s g') ∧ g'.splits = (x.g.splits.filter fun q => q.num ≠ d.num) ++ [e] ∧ g'.spilled = spilled ∧
        g'.frags = ((x.g.frags.map fun f => { f with inner := d.above f.inner }).set (min x.frag j)
          { (if x.frag < j then x.f else other) with
            threads := d.mask, k0 := (x.f.k0 ||| other.k0) &&& d.mask, inner := none, wait := .none
            pc := x.wordsOn 1 }).eraseIdx (max x.frag j) ∧
        { g' with splits := x.g.splits, spilled := x.g.spilled, frags := x.g.frags } = Group.park62 { x.g with ptr := ptr } m

/-- R53, R107, R111, R127 and R416: where divergence, dispersal, exits, spawns and loops are illegal, and the TRAPINFO1 that they leave: an
illegal target, else the second word. -/
def Sys2Proof.Claims.ControlIllegal : Prop :=
  ∀ (s : State) (x : Ctx) (m : Bool), s.ctx = some x →
    let traps (i : Instr) (info : W32) : Prop := exec i s = .next (takeTrap x.core x.slot x.frag 1 x.f.pc s.ir info s)
    let body := x.f.looping = true ∧ x.g.handler = false
    let away := x.g.handler = true ∨ body
    (∀ (k : Nat) (o : BitVec 21) (w : W32),
      (¬x.legal (x.wordsAway o.toInt) → traps (.bdiv m k o w) (wrap (x.wordsAway o.toInt)) ∧ traps (.disp m k o w) (wrap (x.wordsAway o.toInt))) ∧
      (x.legal (x.wordsAway o.toInt) → away → traps (.bdiv m k o w) w ∧ traps (.disp m k o w) w)) ∧
    (body → traps (.join m) 0 ∧ traps (.joinl m) 0 ∧ traps (.exitg m) 0) ∧ (away → traps (.exit m) 0) ∧
    (∀ (f n : Nat) (entry : W32), away ∨ x.launch.image.holds entry.toNat = false ∨ x.launch.kernel.spawnPool = 0 →
      traps (.spwn m f n entry) entry) ∧
    (∀ entry : W32, away ∨ x.launch.kernel.spawnPool = 0 ∨ (entry ≠ 0xFFFFFFFC ∧ x.launch.image.code.length ≤ entry.toNat / 4) →
      traps (.spwnf m entry) entry) ∧
    (x.g.handler = true → ∀ (lv cnt len : Nat) (incd inca incb incta inctb : BitVec 4) (incacc : BitVec 5) (step : Nat),
      traps (.loop m lv cnt len incd inca incb incta inctb incacc step) (loopWord incd inca incb incta inctb incacc step)) ∧
    (x.g.handler = true ∨ x.f.looping = false → ∀ (c : BranchCond) (r : Nat) (o : BitVec 14),
      (x.legal (x.wordsAway o.toInt) → traps (.lbrk m c r o) 0) ∧
      (¬x.legal (x.wordsAway o.toInt) → traps (.lbrk m c r o) (wrap (x.wordsAway o.toInt))))

/-- bdiv splits a fragment, or moves it whole, and spills the oldest entry of a full table; join fuses the two fragments of a split when
the second arrives, joinl merges sibling splits, and both bring spilled entries back; and where these, dispersal, exits, spawns and loops
are illegal (R53, R88, R89, R90, R91, R93, R95, R107, R111, R127, R407, R416). What R91 and R95 leave open is the model's choice
(notes/assumptions/16.md). -/
def Obligations.DivergenceResult : Prop :=
  Sys2Proof.Claims.BdivResult ∧ Sys2Proof.Claims.BdivSpills ∧ Sys2Proof.Claims.JoinResult ∧ Sys2Proof.Claims.JoinlMerges ∧
    Sys2Proof.Claims.JoinRefills ∧ Sys2Proof.Claims.ControlIllegal

/-- R89 and R102: `exit` outside splits, where threads of the fragment remain. -/
def Sys2Proof.Claims.ExitResult : Prop :=
  ∀ (s : State) (x : Ctx) (m : Bool), s.ctx = some x → x.g.handler = false → x.f.looping = false → x.g.splits = [] →
    x.g.spilled = [] → (∀ f ∈ x.g.frags, f.joins = false) → s.noneAtBarrier →
    let F := x.f.threads &&& ~~~x.f.k0
    F ≠ 0 →
    ∃ s', exec (.exit m) s = .next s' ∧
      s'.groups.find (slotKey x.core x.slot) = some (Group.park62
        { x.g with frags := x.g.frags.set x.frag { x.f with threads := F, k0 := F, pc := x.wordsOn 1 } } m) ∧
      (∀ k, k ≠ slotKey x.core x.slot → s'.groups.find k = s.groups.find k) ∧
      { s' with groups := s.groups, teams := s.teams } = s

/-- R89 and R102 inside splits, with no entry spilled: the threads leave every entry; where the fragment ends and one other fragment
holds all that is left of its innermost entry, the entry is released, what named it names its parent, and a join that the other fragment
waits at concerns it no more. -/
def Sys2Proof.Claims.ExitInSplit : Prop :=
  ∀ (s : State) (x : Ctx) (m : Bool), s.ctx = some x → x.g.handler = false → x.f.looping = false → x.g.spilled = [] → s.noneAtBarrier →
    let F := x.f.threads &&& ~~~x.f.k0
    let cut (q : Split) : Split := { q with mask := q.mask &&& ~~~x.f.k0 }
    let becomes (g : Machine.Group) : Prop := ∃ s', exec (.exit m) s = .next s' ∧
      s'.groups.find (slotKey x.core x.slot) = some (Group.park62 g m) ∧
      (∀ k, k ≠ slotKey x.core x.slot → s'.groups.find k = s.groups.find k) ∧ { s' with groups := s.groups, teams := s.teams } = s
    (F ≠ 0 → (∀ f ∈ x.g.frags, f.joins = false) →
      (∀ q ∈ x.g.splits, (cut q).spread F ∧ ∀ (i : Nat) f, x.g.frags[i]? = some f → i ≠ x.frag → (cut q).spread f.threads) →
      becomes { x.g with
        splits := x.g.splits.map cut
        frags := x.g.frags.set x.frag { x.f with threads := F, k0 := F, pc := x.wordsOn 1 } }) ∧
    (F = 0 → ∀ (e : Split) (j : Nat) (other : Fragment), x.g.hasSplit e → x.g.frags[j]? = some other → j ≠ x.frag →
      other.inner = some e.num → (cut e).mask &&& ~~~other.threads = 0 → e.parent ≠ some e.num → other.looping = false →
      x.g.noOtherJoins [x.frag, j] → (∀ q ∈ x.g.splits, e.parent = some q.num → q.reconvPc ≠ other.pc) →
      (∀ q ∈ x.g.splits, q ≠ e → ∀ (i : Nat) f, x.g.frags[i]? = some f → i ≠ x.frag → (cut q).spread f.threads) →
      ∃ ptr, becomes { x.g with
        ptr := ptr
        splits := ((x.g.splits.map cut).filter fun q => q.num ≠ e.num).map fun q => { q with parent := e.above q.parent }
        frags := ((x.g.frags.map fun f => { f with inner := e.above f.inner }).set j
          { other with
            inner := e.parent
            wait := if other.joins = true then .none else other.wait
            pc := if other.joins = true then other.pc + 4 else other.pc }).eraseIdx x.frag })

/-- R102 to R104: once its last thread has ended, a group with no operation outstanding frees its slot. -/
def Sys2Proof.Claims.GroupEnds : Prop :=
  ∀ (s : State) (x : Ctx) (m : Bool) (i : Instr), s.ctx = some x → (x.f.looping = false ∨ x.g.handler = true) →
    (i = .exitg m ∨ (i = .exit m ∧ x.g.handler = false ∧ x.g.frags = [x.f] ∧ x.frag = 0 ∧ x.g.splits = [] ∧ x.g.spilled = [] ∧
      x.f.threads &&& ~~~x.f.k0 = 0)) →
    (∀ k ∈ x.g.classes.values, k.ops = []) → x.g.step = none → x.g.log = none → x.g.late = [] → x.team.leaving ≠ 3 → s.noneAtBarrier →
    ∃ s', exec i s = .next s' ∧ s'.groups.find (slotKey x.core x.slot) = none ∧
      (∀ k, k ≠ slotKey x.core x.slot → s'.groups.find k = s.groups.find k) ∧ s'.mem = s.mem

/-- exit ends the active threads, which leave every split entry; a group whose last thread has ended and that has no operation outstanding frees its slot (R89,
R102, R103, R104). That an `exit` with an empty k0 leaves k0 = F too is the model's reading (notes/assumptions/14.md). -/
def Obligations.ExitResult : Prop :=
  Sys2Proof.Claims.ExitResult ∧ Sys2Proof.Claims.ExitInSplit ∧ Sys2Proof.Claims.GroupEnds

/-- R105, R106, R413 and R416: `spwn` hands one record for each active thread to the former, in ascending order; `spwnf` and an
empty `disp` go on. -/
def Obligations.SpawnResult : Prop :=
  ∀ (s : State) (x : Ctx) (m : Bool), s.ctx = some x → x.g.handler = false → x.f.looping = false →
    (∀ (f n : Nat) (entry : W32) (i : Nat), x.launch.image.holds entry.toNat = true → x.launch.kernel.spawnPool ≠ 0 →
      x.binTakes s i entry x.f.k0 →
      ∃ spcnt, (∀ t, t < 64 → spcnt.getZ t = x.g.spcnt.getZ t + if x.f.k0.getLsbD t = true then 1 else 0) ∧
        exec (.spwn m f n entry) s = .next (x.put
          { s with bins := s.bins.modify i fun b => (b.1, { b.2 with recs := b.2.recs ++ x.active.map fun t =>
              ⟨entry, (List.range n).map fun j => x.lane (f + j) t, x.lthread t, (x.g.spcnt.getZ t).toNat⟩ }) }
          (x.goesTo { x.g with spcnt := spcnt } m (x.wordsOn 2)))) ∧
    (∀ entry : W32, x.launch.kernel.spawnPool ≠ 0 → (entry = 0xFFFFFFFC ∨ entry.toNat / 4 < x.launch.image.code.length) →
      (x.launch.form ≠ 0 ∨ ∀ b ∈ s.bins, ¬(b.1 = x.die ∧ b.2.launch = x.team.launch)) →
      exec (.spwnf m entry) s = .next (x.put s (x.goesTo x.g m (x.wordsOn 2)))) ∧
    (∀ (k : Nat) (o : BitVec 21) (live : W32), x.legal (x.wordsAway o.toInt) → x.f.handed = 0 →
      x.f.k0 &&& x.mask k = 0 → exec (.disp m k o live) s = .next (x.put s (x.goesTo x.g m (x.wordsOn 2)))) ∧
    (∀ (k : Nat) (o : BitVec 21) (live : W32) (i : Nat), x.legal (x.wordsAway o.toInt) →
      x.g.splits = [] → x.g.spilled = [] → (∀ f ∈ x.g.frags, f.joins = false) → s.noneAtBarrier →
      let D := x.f.k0 &&& x.mask k
      let F := x.f.threads &&& ~~~D
      D ≠ 0 → F ≠ 0 → x.binTakes s i (x.wordsOn o.toInt) D →
      ∃ s' spcnt, exec (.disp m k o live) s = .next s' ∧
        (∀ t, t < 64 → spcnt.getZ t = x.g.spcnt.getZ t + if D.getLsbD t = true then 1 else 0) ∧
        s'.bins = s.bins.modify i (fun b => (b.1, { b.2 with recs := b.2.recs ++ (threadsOf D).map fun t =>
          ⟨x.wordsOn o.toInt, ((List.range 32).filter fun r => live.getLsbD r).map fun r => x.g.readV false r t, x.lthread t,
            (x.g.spcnt.getZ t).toNat⟩ })) ∧
        s'.groups.find (slotKey x.core x.slot) = some (Group.park62
          { x.g with
            spcnt := spcnt
            frags := x.g.frags.set x.frag { x.f with threads := F, k0 := F, pc := x.wordsOn 2 } } m) ∧
        s'.mem = s.mem)

/-- R108, R109, R111 and R173: `loop` opens level 0, a body that ends steps its register and repeats or closes, and `lbrk` closes
the level. Where a marked instruction ends a body while results are on their way, the step follows once the last of them has landed
(R62), in the threads that are active then. -/
def Obligations.LoopResult : Prop :=
  (∀ (s : State) (x : Ctx) (m : Bool) (cnt len : Nat) (incd inca incb incta inctb : BitVec 4) (incacc : BitVec 5) (step : Nat),
    s.ctx = some x → x.g.handler = false → (∀ f ∈ x.g.frags, f.looping = false) →
    x.launch.image.opensTwo (x.wordsOn (1 + len)).toNat = false → x.ready [cnt, 127] →
    (x.uni cnt = 0 → exec (.loop m 0 cnt len incd inca incb incta inctb incacc step) s =
      .next (x.put s (x.goesTo x.g m (x.wordsOn (2 + len))))) ∧
    (x.uni cnt ≠ 0 → x.wordsOn 2 ≠ x.wordsOn (2 + len) →
      exec (.loop m 0 cnt len incd inca incb incta inctb incacc step) s = .next (x.put s (Group.park62
      { x.g with
        loops := [⟨0, x.wordsOn 2, x.wordsOn (2 + len), incd.toInt, inca.toInt, incb.toInt, incta.toNat, inctb.toNat, incacc.toNat, step⟩]
        lc := x.g.lc.setZ 0 (x.uni cnt)
        li := x.g.li.setZ 0 0
        lsig := x.g.lsig.setZ 0 (x.g.readG false 31)
        frags := x.g.frags.set x.frag { x.f with looping := true, pc := x.wordsOn 2 } } m))) ∧
    (exec (.loop m 1 cnt len incd inca incb incta inctb incacc step) s = .next (takeTrap x.core x.slot x.frag 1 x.f.pc s.ir
      (loopWord incd inca incb incta inctb incacc step) s))) ∧
  (∀ (s : State) (x : Ctx) (m : Bool) (l : LoopLevel), s.ctx = some x → x.g.handler = false → x.f.looping = true →
    x.g.loops = [l] → x.wordsOn 1 = l.stop → l.stepReg < 128 →
    ∃ g₁, x.g.stepsTo g₁ l.stepReg x.f.k0 (x.g.lsig.getZ l.level) ∧ g₁.handler = false ∧
      let last := decide (x.g.lc.getZ l.level = 1)
      let g₂ : Machine.Group :=
        if m = true ∧ x.g.pend ≠ [] then { x.g with due := x.g.due ++ [⟨l.stepReg, x.g.lsig.getZ l.level, x.f.threads⟩] } else g₁
      exec (.nop m) s = .next (x.put s (Group.park62
        { g₂ with
          lc := x.g.lc.setZ l.level (x.g.lc.getZ l.level - 1)
          li := x.g.li.setZ l.level (x.g.li.getZ l.level + 1)
          loops := if last then [] else [l]
          frags := x.g.frags.set x.frag
            { x.f with pc := if last then l.stop else l.start, looping := !last } } m))) ∧
  (∀ (g : Machine.Group) (d : DueStep), g.due = [d] → d.reg < 128 → ∃ (g₁ : Machine.Group) (k : Mask),
    (∀ t, t < 64 → (k.getLsbD t = true ↔ d.threads.getLsbD t = true ∧ ∃ f ∈ g.frags, f.threads.getLsbD t = true ∧ f.k0.getLsbD t = true)) ∧
      { g with due := [] }.stepsTo g₁ d.reg k d.stride ∧ g.stepDue = { g₁ with handler := g.handler }) ∧
  (∀ (s : State) (x : Ctx) (m : Bool) (c : BranchCond) (r : Nat) (o : BitVec 14) (l : LoopLevel), s.ctx = some x →
    x.g.handler = false → x.f.looping = true → x.g.loops = [l] → ¬((l.start.toNat : Int) ≤ x.wordsAway o.toInt ∧ x.wordsAway o.toInt < l.stop.toNat) →
    x.ready (if c = .kall ∨ c = .kany then [] else [r]) →
    (branchHolds x c r → x.legal (x.wordsAway o.toInt) →
      exec (.lbrk m c r o) s = .next (x.put s (Group.park62
        { x.g with
          loops := []
          lc := x.g.lc.setZ l.level 0
          frags := x.g.frags.set x.frag { x.f with pc := x.wordsOn o.toInt, looping := false } } m))) ∧
    (¬branchHolds x c r → x.wordsOn 1 ≠ l.stop →
      exec (.lbrk m c r o) s = .next (x.put s (x.goesTo x.g m (x.wordsOn 1)))))

/-- R87: `nop` and `yield` only go on; `pause` goes on and does not issue until PAUSE_EXPIRY. -/
def Obligations.NopResult : Prop :=
  (∀ (s : State) (x : Ctx) (m : Bool), s.ctx = some x → (x.f.looping = false ∨ x.g.handler = true) →
    exec (.nop m) s = .next (x.put s (x.goesTo x.g m (x.wordsOn 1))) ∧
    exec (.yield m) s = .next (x.put s (x.goesTo x.g m (x.wordsOn 1))) ∧
    exec (.pause m) s = .next (x.put s (Group.park62
      { x.g with frags := x.g.frags.set x.frag { x.f with pc := x.wordsOn 1, wait := .paused } } m))) ∧
  (∀ (s : State) (core slot frag : Nat) (g : Group) (f : Fragment), s.groups.find (slotKey core slot) = some g →
    g.frags[frag]? = some f → f.wait = .paused →
    exec (.pauseExpiry core slot frag) s =
      .next (s.putGroup core slot { g with frags := g.frags.set frag { f with wait := .none } }))

namespace Sys2Proof.Machine

/-! ### System registers, traps and completion views (02, 03, 05) -/

/-- What system registers hold for a group (R16, R23, R33, R46 to R48, R124, R133, R134, R309, R310, R318, R353, R372, R412, R466,
R477). -/
inductive SysReads (s : State) (x : Ctx) : Nat → W32 → Prop
  | gwidth : SysReads s x 0x000 64
  | coreId : SysReads s x 0x001 (wrap (x.core : Nat))
  | dieId : SysReads s x 0x002 (wrap (x.core / 48 : Nat))
  | logicalCore : SysReads s x 0x003 (wrap (x.team.logicalCore : Nat))
  | teamIx : SysReads s x 0x004 (wrap (x.team.teamIx : Nat))
  | groupIx : SysReads s x 0x005 (wrap (x.g.gix : Nat))
  | gridX : SysReads s x 0x006 (wrap (x.launch.gridx : Nat))
  | gridY : SysReads s x 0x007 (wrap (x.launch.gridy : Nat))
  | fpmode : SysReads s x 0x010 x.g.fpmode
  | fpflags : SysReads s x 0x011 x.g.fpflags
  | trapCause : SysReads s x 0x018 x.g.trapCause
  | trapPc : SysReads s x 0x019 x.g.trapPc
  | trapInfo0 : SysReads s x 0x01A x.g.trapInfo0
  | trapInfo1 : SysReads s x 0x01B x.g.trapInfo1
  | classCnt c : c < 6 → SysReads s x (0x020 + c) (wrap ((x.g.cls c).nextSeq * 2 ^ 8 +
      (if ((x.g.cls c).ops.headD default).parked.isSome = true then 2 ^ 7 else 0) + (x.g.cls c).ops.length : Nat))
  | classCnt6 : SysReads s x 0x026 0
  | classCnt7 : SysReads s x 0x027 0
  | detmode : SysReads s x 0x040 (wrap (x.launch.form : Nat))
  | proghint : SysReads s x 0x080 x.team.proghint
  | ctxtag : SysReads s x 0x081 (wrap (x.team.launch : Nat))
  | teamkind : SysReads s x 0x082 (wrap (x.team.kind : Nat))
  | taskh : SysReads s x 0x083 x.team.taskHandle
  | reccnt : SysReads s x 0x084 (wrap (x.g.reccnt : Nat))
  | taskarg i : i < 8 → SysReads s x (0x088 + i) (x.team.taskArgs.getD i 0)
  | lhsrc : SysReads s x 0x111 x.team.lhsrc
  | shsrc : SysReads s x 0x119 x.team.shsrc
  | unitcap : SysReads s x 0x008 (wrap (if Config.copingDie (x.core / 48) = true then 16 * 2 ^ 20 else 8 * 2 ^ 20 : Nat))
  | diecap : SysReads s x 0x009 (wrap (if Config.copingDie (x.core / 48) = true then 512 * 2 ^ 20 else 256 * 2 ^ 20 : Nat))
  | marginlvl k : k = s.margin x.core →
      SysReads s x 0x030 (wrap (k.stepdn.toNat * 2 ^ 11 + k.pend.toNat * 2 ^ 7 + k.req * 2 ^ 4 + k.level : Nat))
  | replaycnt : SysReads s x 0x031 (wrap ((s.margin x.core).replays : Nat))
  | noStep : x.g.step = none → SysReads s x 0x050 0
  | seqstep num k n : x.g.step = some (num, k, n) → SysReads s x 0x050 (wrap (2 ^ 31 + num * 2 ^ 16 + n : Nat))
  | recstat (next : Nat) (shared : Bool) :
      (∀ c, x.team.logFor x.g.log = some c → next = c.next % 2 ^ 24 ∧ (shared = true ↔ ∃ m ∈ c.members, m ≠ x.slot)) →
      (x.team.logFor x.g.log = none → shared = false ∧ next = (x.g.log.map (·.final)).getD 0 % 2 ^ 24) →
      SysReads s x 0x060 (wrap (x.g.recording.toNat * 2 ^ 31 + shared.toNat * 2 ^ 30 + (x.g.reversing.any (·.paused)).toNat * 2 ^ 29 +
        x.g.lost.toNat * 2 ^ 28 + x.g.recErr * 2 ^ 24 + next : Nat))
  | kstat k : (s.kiln x.core).claim = some x.g.team → k = (s.kiln x.core).shown →
      SysReads s x 0x070 (wrap (k.degraded.toNat * 2 ^ 31 + 2 ^ 30 + k.seeded.toNat * 2 ^ 29 + k.phys.toNat * 2 ^ 28 + k.cmode * 2 ^ 26 +
        k.lag * 2 ^ 20 + k.nnodes : Nat))
  | otherKiln : (s.kiln x.core).claim ≠ some x.g.team → SysReads s x 0x070 (wrap ((s.kiln x.core).shown.degraded.toNat * 2 ^ 31 : Nat))
  | qstat i : i < 8 → (s.queue x.core i).owner = some x.g.team → SysReads s x (0x100 + i)
      (wrap (2 ^ 31 + (s.queue x.core i).items.length * 2 ^ 24 + (s.queue x.core i).drops : Nat))
  | otherQueue i : i < 8 → (s.queue x.core i).owner ≠ some x.g.team → SysReads s x (0x100 + i) 0
  | hodctl (store : Bool) h : h = s.hod x.core store → h.claim = some x.g.team → SysReads s x (0x110 + 8 * store.toNat)
      (wrap (2 ^ 31 + (s.secureBlock x.core (8 + store.toNat)).toNat * 2 ^ 30 + h.status * 2 ^ 24 + h.cause * 2 ^ 20 +
        h.ops.length * 2 ^ 14 : Nat))
  | otherHod (store : Bool) h : h = s.hod x.core store → h.claim ≠ some x.g.team → SysReads s x (0x110 + 8 * store.toNat)
      (wrap ((s.secureBlock x.core (8 + store.toNat)).toNat * 2 ^ 30 + h.status * 2 ^ 24 : Nat))
  | hodpc (store : Bool) h : h = s.hod x.core store → h.claim = some x.g.team → h.status = 3 ∨ h.status = 4 →
      SysReads s x (0x112 + 8 * store.toNat) (h.haltPc.setWidth 32)
  | noPc (store : Bool) h : h = s.hod x.core store → h.claim ≠ some x.g.team ∨ h.status < 3 → SysReads s x (0x112 + 8 * store.toNat) 0
  | taskwr i : i < 2 → SysReads s x (0x090 + i) (x.team.taskWr.getD i 0xFFFFFFFF)

/-- The assigned system register numbers (R46, R47, R412, R466, R477). -/
def sysAssigned : List Nat :=
  List.range 10 ++ [0x010, 0x011, 0x018, 0x019, 0x01A, 0x01B] ++ (List.range 8).map (0x020 + ·) ++ [0x030, 0x031, 0x040, 0x050, 0x060, 0x070] ++
    (List.range 5).map (0x080 + ·) ++ (List.range 10).map (0x088 + ·) ++ (List.range 8).map (0x100 + ·) ++
    [0x110, 0x111, 0x112, 0x118, 0x119, 0x11A]
/-- Those with a writable field (R46, R47, R412, R466). -/
def sysWritten : List Nat :=
  [0x010, 0x011, 0x018, 0x019, 0x01A, 0x01B, 0x030, 0x031, 0x060, 0x080, 0x110, 0x111, 0x118, 0x119]

/-- The group that a `syswr` of v to a register of the group leaves (R124, R133, R134, R318). -/
inductive SysWrites (g : Group) (v : W32) : Nat → Group → Prop
  | fpmode : SysWrites g v 0x010 { g with fpmode := wrap (v.toNat % 2 ^ 9 : Nat) }
  | fpflags : SysWrites g v 0x011 { g with fpflags := wrap (v.toNat % 2 ^ 5 : Nat) }
  | trapCause : g.handler = true → SysWrites g v 0x018 { g with trapCause := wrap (v.toNat % 2 ^ 8 : Nat) }
  | trapPc : g.handler = true → SysWrites g v 0x019 { g with trapPc := v }
  | trapInfo0 : g.handler = true → SysWrites g v 0x01A { g with trapInfo0 := v }
  | trapInfo1 : g.handler = true → SysWrites g v 0x01B { g with trapInfo1 := v }
  | recstat : SysWrites g v 0x060 { g with lost := g.lost && !v.getLsbD 28 }

/-- The bytes i to i + n − 1 of a team's allocation as a little-endian number. -/
def Ctx.unitNumber (x : Ctx) (s : State) (i n : Nat) : Nat :=
  leNat ((List.range n).map fun j => s.mem.byte (unitKey x.core (x.team.base + i + j)))

/-- The bytes i to i + n − 1 of the team's allocation exist, lie in no merge buffer, and no copy is writing there (R28, R177, R226); the team
lies on the core that the group runs on. -/
def Ctx.unitFree (x : Ctx) (s : State) (i n : Nat) : Prop :=
  x.team.core = x.core ∧ i + n ≤ x.team.kernel.unit ∧ touchesMerge x.launch x.team i n = false ∧
    ∀ j, j < n → s.covered (unitKey x.core (x.team.base + i + j)) = false

/-- The unit-store offset of a group's trap frame (R125). -/
def Ctx.frameAt (x : Ctx) : Nat := x.team.kernel.unit - 256 * (x.g.gix + 1)

/-- The trap frame in memory (R125): cause and information registers, with BATCH the sequence number of the latest class 1 operation. -/
def Ctx.frameHolds (x : Ctx) (s : State) (cause : Nat) (pc info0 info1 : W32) : Prop :=
  let w (off n : Nat) : Nat := x.unitNumber s (x.frameAt + off) n
  w 0x00 4 = pc.toNat ∧ w 0x04 4 = cause % 2 ^ 32 ∧ w 0x08 4 = info0.toNat ∧ w 0x0C 4 = info1.toNat ∧
    w 0x10 4 = x.f.inner.getD 0xFFFF % 2 ^ 32 ∧ w 0x14 4 = (x.g.cls 1).last % 2 ^ 32 ∧
    w 0x18 4 = x.g.frags.length % 2 ^ 32 ∧ w 0x1C 4 = (if x.f.looping = true then x.g.loops.length else 0) % 2 ^ 32 ∧
    (∀ i, i < 3 → w (0x20 + 4 * i) 4 = (x.g.lc.getZ i).toNat) ∧ w 0x2C 20 = 0 ∧
    (∀ i, i < 8 → w (0x40 + 16 * i) 16 = (x.mask i).toNat) ∧ w 0xC0 64 = 0

end Sys2Proof.Machine

/-- R43, R46 to R48 and R114: `sysrd` writes the register's value for the issuing group; of an unassigned number it is illegal. -/
def Sys2Proof.Claims.SysregRead : Prop :=
  ∀ (s : State) (x : Ctx) (m : Bool) (d n : Nat), s.ctx = some x →
    (∀ v, SysReads s x n v → ∃ g', x.uniformSet g' d v ∧ exec (.sysrd m d n) s = .next (x.completes s g' m 1)) ∧
    (n ∈ sysAssigned → ∃ v, SysReads s x n v) ∧
    (n ∉ sysAssigned → exec (.sysrd m d n) s = .next (takeTrap x.core x.slot x.frag 1 x.f.pc s.ir 0 s))

/-- R46, R47, R114 and R124: `syswr` writes the writable bits of a register of the group, of its team (PROGHINT, LHSRC, SHSRC) or of its
core (MARGINLVL, REPLAYCNT); an unassigned or read-only number, and a TRAP register outside handler mode, are illegal. LHCTL and SHCTL are
in Obligations.HodCommands. -/
def Sys2Proof.Claims.SysregWrite : Prop :=
  ∀ (s : State) (x : Ctx) (m : Bool) (d n : Nat), s.ctx = some x → x.ready [d] →
    (∀ g', SysWrites x.g (x.uni d) n g' → exec (.syswr m d n) s = .next (x.completes s g' m 1)) ∧
    (∀ t : Team, (n = 0x080 ∧ t = { x.team with proghint := x.uni d }) ∨ (n = 0x111 ∧ t = { x.team with lhsrc := wrap ((x.uni d).toNat % 2 ^ 24 : Nat) }) ∨
        (n = 0x119 ∧ t = { x.team with shsrc := wrap ((x.uni d).toNat % 2 ^ 24 : Nat) }) →
      ∃ s', { s' with teams := s.teams } = s ∧ (∀ k, s'.teams.find k = if k = x.g.team then some t else s.teams.find k) ∧
        exec (.syswr m d n) s = .next (x.completes s' x.g m 1)) ∧
    (∀ k : Margin, (n = 0x030 ∧ k = { s.margin x.core with stepdn := (s.margin x.core).stepdn && !(x.uni d).getLsbD 11 }) ∨
        (n = 0x031 ∧ k = { s.margin x.core with replays := (x.uni d).toNat }) →
      ∃ margins : Map Margin, (∀ c, margins.find c = if c = x.core then some k else s.margins.find c) ∧
        exec (.syswr m d n) s = .next (x.completes { s with margins := margins } x.g m 1)) ∧
    (n ∉ sysWritten ∨ (n ∈ [0x018, 0x019, 0x01A, 0x01B] ∧ x.g.handler = false) →
      exec (.syswr m d n) s = .next (takeTrap x.core x.slot x.frag 1 x.f.pc s.ir 0 s))

/-- `sysrd` reads and `syswr` writes the system registers; of an unassigned number each is illegal (R16, R23, R33, R43, R46 to R48, R114,
R124, R133, R134, R309, R310, R318, R353, R372, R412, R466, R477). -/
def Obligations.SystemRegisters : Prop :=
  Sys2Proof.Claims.SysregRead ∧ Sys2Proof.Claims.SysregWrite

/-- R466 to R468: START loads the image that the header at OFFSET names, STOP halts a running hod with CAUSE 9, RELEASE frees a
halted one; through `syswr` to LHCTL and SHCTL and as their own rows. That START and RELEASE keep CAUSE is the model's reading
(notes/assumptions/29.md). -/
def Obligations.HodCommands : Prop :=
  ∀ (s : State) (x : Ctx) (i : Instr) (m store : Bool) (d : Nat) (v : W32) (h : Hod), s.ctx = some x →
    s.hods.find (2 * x.core + store.toNat) = some h → h.ops = [] → h.late = [] →
    ((x.ready [d] ∧ x.uni d = v ∧ i = .syswr m d (if store then 0x118 else 0x110)) ∨ (m = false ∧ v.toNat % 4 = 1 ∧ i = .start store v) ∨
      (m = false ∧ v.toNat % 4 = 2 ∧ i = .stop store v) ∨ (m = false ∧ v.toNat % 4 = 3 ∧ i = .release store v)) →
    let ends (h' : Hod) : Prop := exec i s = .next (x.completes { s with hods := s.hods.set (2 * x.core + store.toNat) h' } x.g m 1)
    (v.toNat % 4 = 1 → ((h.status = 0 ∧ h.claim = none) ∨ (h.status = 3 ∧ h.claim = some x.g.team)) →
      s.secureBlock x.core (8 + store.toNat) = false →
      let off := (if store then x.team.shsrc else x.team.lhsrc).toNat
      let w (o n : Nat) : Nat := x.unitNumber s (off + o) n
      off % 64 = 0 → x.unitFree s off 64 → w 0 4 % 4 = 0 → 4 ≤ w 4 4 → w 4 4 ≤ 65536 → w 4 4 % 4 = 0 → w 8 4 % 8 = 0 →
      w 12 4 ≤ 32768 → w 12 4 % 8 = 0 → w 16 4 % 2 = 0 → w 16 4 < w 4 4 → w 20 4 = 0 → w 32 32 = 0 →
      x.unitFree s (w 0 4) (w 4 4) → x.unitFree s (w 8 4) (w 12 4) →
      ∃ h', ends h' ∧ h'.claim = some x.g.team ∧ h'.status = 2 ∧ h'.cause = h.cause ∧ h'.pc = BitVec.ofNat 64 (w 16 4) ∧
        (∀ r, h'.x.getZ r = if r = 10 then BitVec.ofNat 64 (w 24 8) else 0) ∧ h'.nextSeq = 1 ∧ h'.ops = [] ∧
        h'.reservation = none ∧
        (∀ a, h'.istore.getZ a = if a < w 4 4 then s.mem.byte (unitKey x.core (x.team.base + w 0 4 + a)) else 0) ∧
        (∀ a, h'.dstore.getZ a = if a < w 12 4 then s.mem.byte (unitKey x.core (x.team.base + w 8 4 + a)) else 0)) ∧
    (v.toNat % 4 = 2 → h.claim = some x.g.team → h.status = 2 →
      ends { h with status := 3, cause := 9, haltPc := h.pc, reservation := none }) ∧
    (v.toNat % 4 = 3 → h.claim = some x.g.team → h.status = 3 → ends { Hod.off with cause := h.cause }) ∧
    ((v.toNat % 4 = 2 ∨ v.toNat % 4 = 3) → h.claim ≠ some x.g.team →
      exec i s = .next (takeTrap x.core x.slot x.frag 1 x.f.pc s.ir v s))

/-- R123, R125, R126 and R128 outside loop bodies: `trap`, and `brk` without breakpoints, enter the group's handler. -/
def Sys2Proof.Claims.TrapEntered : Prop :=
  ∀ (s : State) (x : Ctx) (m : Bool) (i : Instr) (cause code entry : Nat), s.ctx = some x → s.mem.wf = true →
    x.g.handler = false → x.f.looping = false → x.team.kernel.trapEntry = some entry → 256 * (x.g.gix + 1) ≤ x.team.kernel.unit →
    (∀ o ∈ (x.g.cls 1).ops, o.order ≠ 0) →
    ((i = .trap m code ∧ cause = 8) ∨ (i = .brk m code ∧ cause = 9 ∧ (s.debugOf x.core).bpen = false)) →
    ∃ s' g', exec i s = .next s' ∧ s'.groups.find (slotKey x.core x.slot) = some g' ∧
      g'.trapCause = wrap (cause : Nat) ∧ g'.trapPc = x.wordsOn 1 ∧ g'.trapInfo0 = s.ir ∧ g'.trapInfo1 = wrap (code : Nat) ∧
      g'.handler = true ∧ g'.readG true 24 = wrap (x.frameAt : Nat) ∧ g'.batch = 0 ∧
      g'.frags = x.g.frags.set x.frag
        { x.f with pc := wrap (entry : Nat), trapping := true, wait := .none, saved := x.f.wait.kept } ∧
      (∀ b r t, g'.readV b r t = x.g.readV b r t) ∧ (∀ b r, ¬(b = true ∧ r = 24) → g'.readG b r = x.g.readG b r) ∧
      g'.k = x.g.k ∧ g'.splits = x.g.splits ∧ g'.fpmode = x.g.fpmode ∧ g'.fpflags = x.g.fpflags ∧
      x.frameHolds s' cause (x.wordsOn 1) s.ir (wrap (code : Nat)) ∧
      (∀ b, (b < unitKey x.core (x.team.base + x.frameAt) ∨ unitKey x.core (x.team.base + x.frameAt) + 256 ≤ b) →
        s'.mem.byte b = s.mem.byte b) ∧
      ∀ k, k ≠ slotKey x.core x.slot → s'.groups.find k = s.groups.find k

/-- R126, R401 and R409: a trap with no handler, or in handler mode, outside a task ends the launch with STATUS 4 and the trap's
cause, PC and information, and its group issues no more. -/
def Sys2Proof.Claims.UnhandledTrapEndsLaunch : Prop :=
  ∀ (s : State) (x : Ctx) (m : Bool) (code : Nat), s.ctx = some x → (x.g.handler = true ∨ x.team.kernel.trapEntry = none) →
    (x.f.looping = false ∨ x.g.handler = true) → (x.team.kind = 0 ∨ x.team.kind = 1) → x.launch.ending = none →
    ∃ s', exec (.trap m code) s = .next s' ∧
      ((s'.launches.find x.team.launch).bind (·.ending)) =
        some ⟨4, 8, wrap (x.team.teamIx : Nat), x.wordsOn 1, s.ir, wrap (code : Nat)⟩ ∧
      ∀ t, s'.teams.find x.g.team = some t → t.stopped = true

/-- R126, R127, R129 and R135: `tret` restores the masks from the frame and resumes the fragment at TRAPPC; a held arithmetic trap
follows; outside handler mode it is illegal. -/
def Obligations.TrapReturns : Prop :=
  ∀ (s : State) (x : Ctx) (m : Bool), s.ctx = some x →
    (x.g.handler = true → (∀ p ∈ x.g.pend, p.handlerBank = false) →
      ∃ k', (∀ n, k'.getZ n = if 1 ≤ n ∧ n < 8 then BitVec.ofNat 64 (x.unitNumber s (x.frameAt + 0x40 + 16 * n) 8) else x.g.k.getZ n) ∧
        let g' : Group :=
          { x.g with
            k := k', handler := false, hmarker := false, hpark := none, hfault := none, held := none
            marker := x.g.marker || (m && !x.g.pend.isEmpty)
            frags := x.g.frags.set x.frag
              { x.f with
                pc := x.g.trapPc, trapping := false, wait := x.f.saved, saved := .none
                handed := if x.f.handAt = x.g.trapPc then x.f.handed else 0
                handing := if x.f.handAt = x.g.trapPc then x.f.handing else 0
                handAt := if x.f.handAt = x.g.trapPc then x.f.handAt else 0
                k0 := BitVec.ofNat 64 (x.unitNumber s (x.frameAt + 0x40) 8) &&& x.f.threads
                awaits := x.f.awaits.filter fun w => w.1 = x.g.trapPc } }
        (x.g.held = none → exec (.tret m) s = .next (x.put s g')) ∧
        (∀ h, x.g.held = some h → exec (.tret m) s =
          .next (takeTrap x.core x.slot x.frag 3 x.g.trapPc h.word (h.flags.setWidth 32) (x.put s g')))) ∧
    (x.g.handler = false → exec (.tret m) s = .next (takeTrap x.core x.slot x.frag 1 x.f.pc s.ir 0 s))

/-- R496 with R128: `brk` on a core whose breakpoints are enabled goes on and halts the core, its groups and its running hods. -/
def Sys2Proof.Claims.BreakpointHalts : Prop :=
  ∀ (s : State) (x : Ctx) (m : Bool) (code : Nat), s.ctx = some x → (s.debugOf x.core).bpen = true →
    ∃ s', exec (.brk m code) s = .next (x.completes s' x.g m 1) ∧ (s'.debugOf x.core).halted = true ∧
      (∀ c, c ≠ x.core → s'.debugOf c = s.debugOf c) ∧ s'.mem = s.mem ∧ s'.teams = s.teams ∧
      ∀ st h, s.hods.find (2 * x.core + Bool.toNat st) = some h → h.status = 2 →
        s'.hods.find (2 * x.core + st.toNat) = some { h with status := 4, haltPc := h.pc, reservation := none }

/-- trap and brk enter the group's handler with a frame; without a handler the launch ends; with breakpoints enabled brk halts the
core (R123, R125, R126, R128, R401, R409, R496). -/
def Obligations.TrapTaken : Prop :=
  Sys2Proof.Claims.TrapEntered ∧ Sys2Proof.Claims.UnhandledTrapEndsLaunch ∧ Sys2Proof.Claims.BreakpointHalts

/-- R24, R25, R117, R118, R206, R207, R305, R306 and R311: the completion views; an `hwait` waits for the handle that it read first. -/
def Obligations.CompletionViews : Prop :=
  ∀ (s : State) (x : Ctx) (m : Bool), s.ctx = some x →
    (∀ (d a : Nat), let h := (x.uni a).toNat
      let gone := decide (6 ≤ h / 2 ^ 28) || !((x.g.cls (h / 2 ^ 28)).ops.any fun o => o.seq = h % 2 ^ 24)
      (x.awaited = none → (gone = true → exec (.hwait m a) s = .next (x.completes s x.g m 1)) ∧
        (gone = false → h / 2 ^ 28 ≠ 1 → exec (.hwait m a) s = .next (x.put s (x.awaiting (some (x.uni a)))))) ∧
      (∃ g', x.uniformSet g' d (if gone then 1 else 0) ∧ exec (.htest m d a) s = .next (x.completes s g' m 1)) ∧
      (∃ g', x.uniformSet g' d (x.uni a) ∧ exec (.hstat m d a) s = .next (x.completes s g' m 1)) ∧
      (gone = true → exec (.hcancel m a) s = .next (x.completes s x.g m 1)) ∧
      (gone = false → ∃ g', exec (.hcancel m a) s = .next (x.completes s g' m 1) ∧ g' = { x.g with classes := g'.classes } ∧
        (∀ c, c ≠ h / 2 ^ 28 → g'.cls c = x.g.cls c) ∧
        (g'.cls (h / 2 ^ 28)).ops = (x.g.cls (h / 2 ^ 28)).ops.map fun o =>
          if o.seq = h % 2 ^ 24 then { o with cancel := true } else o)) ∧
    (∀ (a : Nat) (w : W32), x.awaited = some w →
      ((6 ≤ w.toNat / 2 ^ 28 ∨ ∀ o ∈ (x.g.cls (w.toNat / 2 ^ 28)).ops, o.seq ≠ w.toNat % 2 ^ 24) →
        exec (.hwait m a) s = .next (x.completes s (x.awaiting none) m 1)) ∧
      (w.toNat / 2 ^ 28 < 6 → w.toNat / 2 ^ 28 ≠ 1 → (∃ o ∈ (x.g.cls (w.toNat / 2 ^ 28)).ops, o.seq = w.toNat % 2 ^ 24) →
        exec (.hwait m a) s = .next (x.put s (x.awaiting (some w))))) ∧
    (∀ (c n : Nat), (6 ≤ c ∨ (x.g.cls c).ops.length ≤ n → exec (.cwait m c n) s = .next (x.completes s x.g m 1)) ∧
      (c < 6 → n < (x.g.cls c).ops.length → c ≠ 1 → exec (.cwait m c n) s = .next s)) ∧
    (∀ (o : Order) (c : Scope) (ks : Nat),
      ((∀ k, k < 6 → ks / 2 ^ k % 2 = 1 → (x.g.cls k).ops = []) → x.deferredFailure s o c = false →
        exec (.fence m o c ks) s = .next (x.completes s x.g m 1)) ∧
      (ks / 2 % 2 = 0 → (∃ k, k < 6 ∧ ks / 2 ^ k % 2 = 1 ∧ (x.g.cls k).ops ≠ []) → exec (.fence m o c ks) s = .next s)) ∧
    (∀ (d a : Nat), x.ready [a] → (∀ o ∈ (x.g.cls 1).ops, o.seq ≠ (x.uni a).toNat % 2 ^ 24) →
      ∃ g', { x with g := { x.g with merr := 0 } }.uniformSet g' d (x.g.merr.setWidth 32) ∧
        exec (.mwait m d a) s = .next (x.completes s g' m 1)) ∧
    (∀ d : Nat, x.g.classes.find 1 ≠ none → (∀ o ∈ (x.g.cls 1).ops, o.order ≠ 0) →
      ∃ (s' : State) (g₁ g' : Machine.Group), { s' with groups := s.groups, teams := s.teams } = s ∧
        { g₁ with
          classes := x.g.classes
          batch := x.g.batch
          batches := x.g.batches
          openLevel := x.g.openLevel
          openReplays := x.g.openReplays } = x.g ∧ g₁.batch = 0 ∧
        g₁.batches.map (·.last) = x.g.batches.map (·.last) ++ (if x.g.batch = 0 then [] else [(x.g.cls 1).last]) ∧
        { x with g := g₁ }.uniformSet g' d (wrap ((x.g.cls 1).last : Nat)) ∧
        exec (.mbatch m d) s = .next (x.completes s' g' m 1)) ∧
    (∀ n : Nat, ∃ margins, (∀ c, margins.find c = if c = x.core then some { s.margin x.core with req := n, pend := true }
        else s.margins.find c) ∧
      exec (.marg m n) s = .next (x.completes { s with margins := margins } x.g m 1))

namespace Sys2Proof.Machine

/-! ### Barriers, queues, iterators and ranges (03, 04, 05) -/

/-- A team or cluster barrier instruction: its function, id, flag destination, and the teams whose groups take part (R119). -/
inductive BarrierDoes (x : Ctx) (m : Bool) : Instr → Nat → Nat → Nat → List Nat → Prop
  | barT id : BarrierDoes x m (.barT m id) 0 id 0 [x.g.team]
  | barTe d id : BarrierDoes x m (.barTe m d id) 1 id d [x.g.team]
  | barC id : BarrierDoes x m (.barC m id) 2 id 0 x.team.ownHalf
  | barCx id : BarrierDoes x m (.barCx m id) 3 id 0 (x.team.ownHalf ++ x.team.otherHalf)

/-- Fragment f, of threads that have reached barrier id, once it has released (R119, R126). -/
def Fragment.released (f : Fragment) (fn id : Nat) : Fragment :=
  { f with
    wait := if atBarrier fn id f.wait then .none else f.wait
    saved := if atBarrier fn id f.saved then .none else f.saved }

/-- g' has the registers of g once barrier id has released and its `bar.te`s have written flag: into each thread that was active at one,
and into the g registers that they name; a destination that the end of a loop body has stepped meanwhile is left open here (R43, R120). -/
def Group.flagged (g g' : Group) (id : Nat) (flag : W32) : Prop :=
  let plain (d : Nat) : Prop := ∀ f ∈ g.frags, ∀ a step, f.wait = .barrier 1 id d a step → step = 0
  (∀ d t, t < 64 → d < 96 →
    ((∀ f ∈ g.frags, ∀ a step, f.wait = .barrier 1 id d a step → a.getLsbD t = false) → g'.readV false d t = g.readV false d t) ∧
    ((∃ f ∈ g.frags, ∃ a step, f.wait = .barrier 1 id d a step ∧ a.getLsbD t = true) → plain d → g'.readV false d t = flag)) ∧
  ∀ n, ((∀ f ∈ g.frags, ∀ a step, f.wait ≠ .barrier 1 id (96 + n) a step) → g'.readG false n = g.readG false n) ∧
    ((∃ f ∈ g.frags, ∃ a step, f.wait = .barrier 1 id (96 + n) a step) → plain (96 + n) → g'.readG false n = if n = 0 then 0 else flag)

/-- The keys of a map rise strictly. -/
def Map.rising {α : Type} (m : Map α) : Prop := m.entries.Pairwise fun a b => a.1 < b.1

/-- A record as R163 lays it out, in the 64 bytes from i of the team's allocation. -/
structure RecordAt (x : Ctx) (s : State) (i : Nat) (it : IterSlot) : Prop where
  offset : x.unitNumber s i 8 = it.offset.toNat
  space : x.unitNumber s (i + 8) 1 = it.space
  elem : x.unitNumber s (i + 9) 1 = it.elem
  rank : x.unitNumber s (i + 10) 1 = it.rank
  flags : x.unitNumber s (i + 11) 1 = if it.finished then 1 else 0
  resume : x.unitNumber s (i + 12) 4 = 0
  size : ∀ k, k < 4 → x.unitNumber s (i + 16 + 4 * k) 4 = it.size.getD k 0
  stride : ∀ k, k < 4 → signedOf 32 (x.unitNumber s (i + 32 + 4 * k) 4) = it.stride.getD k 0
  index : ∀ k, k < 4 → x.unitNumber s (i + 48 + 4 * k) 4 = it.index.getD k 0

/-- A valid record (R163). -/
structure RecordOk (it : IterSlot) : Prop where
  spaces : it.space ∈ [0, 1, 4, 5, 6, 7]
  elems : it.elem ≤ 5
  ranks : 1 ≤ it.rank ∧ it.rank ≤ 4
  resume : it.resume = 0
  sizes : it.size.length = 4 ∧ ∀ k, k < 4 → if k < it.rank then 1 ≤ it.size.getD k 0 ∧ it.size.getD k 0 < 2 ^ 32 else it.size.getD k 0 = 0
  strides : it.stride.length = 4 ∧ ∀ k, k < 4 →
    if k < it.rank then -2 ^ 31 ≤ it.stride.getD k 0 ∧ it.stride.getD k 0 < 2 ^ 31 else it.stride.getD k 0 = 0
  indexes : it.index.length = 4 ∧ ∀ k, k < 4 →
    if k < it.rank then it.index.getD k 0 < it.size.getD k 0 else it.index.getD k 0 = 0

end Sys2Proof.Machine

/-- R119, R120, R122 and R414: the last arrival releases the barrier for every group that takes part, an earlier one waits, and in a
spawn team `bar.t` and `bar.te` complete at once. The `bar.te`s of one group receive 1, and those of the others 0: the group that arrived
last, or with FORM non-zero the one of the highest GROUP_IX. -/
def Obligations.BarrierResult : Prop :=
  ∀ (s : State) (x : Ctx) (m : Bool) (i : Instr) (fn id d : Nat) (uids : List Nat), s.ctx = some x → BarrierDoes x m i fn id d uids →
    (x.f.looping = false ∨ x.g.handler = true) → atBarrier fn id x.f.saved = false →
    s.groups.rising →
    let stands (g : Group) : Prop := (∀ f ∈ g.frags, f.arrivedAt fn id = true) ∨
      (g.handler = true ∧ ∃ f ∈ g.frags, f.trapping = true ∧ atBarrier fn id f.wait = true)
    let mine := (∀ j f, x.g.frags[j]? = some f → j ≠ x.frag → f.arrivedAt fn id = true) ∨ (x.g.handler = true ∧ x.f.trapping = true)
    let others := ∀ k g, s.groups.find k = some g → k ≠ slotKey x.core x.slot → g.team ∈ uids → g.frags ≠ [] → stands g
    (x.team.kind ≠ 1 → x.g.team ∈ uids → mine → others →
      ∃ s', exec i s = .next s' ∧ s'.mem = s.mem ∧ s'.launches = s.launches ∧
        ((s'.groups.find (slotKey x.core x.slot)).map (·.frags)) =
          some (((x.goesTo x.g m (x.wordsOn 1)).frags.set x.frag { x.f with pc := x.wordsOn 1, wait := .none }).map (·.released fn id)) ∧
        (∀ k g, s.groups.find k = some g → k ≠ slotKey x.core x.slot →
          ((s'.groups.find k).map (·.frags)) = some (if g.team ∈ uids then g.frags.map (·.released fn id) else g.frags)) ∧
        let own : Machine.Group := { x.g with frags := x.g.frags.set x.frag { x.f with wait := .barrier fn id d x.f.k0 0 } }
        let part (k : Nat) (g : Machine.Group) : Prop := (k = slotKey x.core x.slot ∧ g = own) ∨
          (k ≠ slotKey x.core x.slot ∧ s.groups.find k = some g ∧ g.team ∈ uids ∧ g.frags ≠ [])
        (fn ≤ 1 → x.team.core = x.core → ∀ k g, part k g → g.handler = false → (∀ f ∈ g.frags, atBarrier 1 id f.saved = false) →
          ∃ g', s'.groups.find k = some g' ∧
            (x.launch.form = 0 → g.flagged g' id (if k = slotKey x.core x.slot then 1 else 0)) ∧
            (x.launch.form ≠ 0 → (∀ j h, part j h → j ≠ k → h.gix < g.gix) → g.flagged g' id 1) ∧
            (x.launch.form ≠ 0 → (∃ j h, part j h ∧ g.gix < h.gix) → g.flagged g' id 0))) ∧
    (x.team.kind ≠ 1 → x.g.team ∈ uids → ¬others →
      ∃ s', exec i s = .next s' ∧ s'.mem = s.mem ∧ s'.launches = s.launches ∧
        s'.groups.find (slotKey x.core x.slot) = some (Group.park62
          { x.g with frags := x.g.frags.set x.frag { x.f with pc := x.wordsOn 1, wait := .barrier fn id d x.f.k0 0 } } m) ∧
        ∀ k, k ≠ slotKey x.core x.slot → s'.groups.find k = s.groups.find k) ∧
    (x.team.kind = 1 → (fn = 0 → exec i s = .next (x.completes s x.g m 1)) ∧
      (fn = 1 → ∃ g', x.uniformSet g' d 1 ∧ exec i s = .next (x.completes s g' m 1)) ∧
      (2 ≤ fn → exec i s = .next (takeTrap x.core x.slot x.frag 1 x.f.pc s.ir 0 s)))

/-- R121 and R440: arrivals at a package barrier that is bound, and waits on a phase. -/
def Sys2Proof.Claims.PackageBarrierArrives : Prop :=
  ∀ (s : State) (x : Ctx) (m : Bool) (id : Nat), s.ctx = some x → x.team.kind = 0 → (x.launch.barrier id).bound = true →
    (x.f.looping = false ∨ x.g.handler = true) →
    let P := (x.launch.barrier id).phase
    (∃ arrived, (∀ n, arrived.getZ n = if n = id then x.g.arrived.getZ id ||| (if x.g.handler = true then -1 else x.f.threads)
        else x.g.arrived.getZ n) ∧
      (P < 65536 → exec (.barP m id) s = .next (x.put s (Group.park62
        { x.g with
          arrived := arrived
          frags := x.g.frags.set x.frag { x.f with pc := x.wordsOn 1, wait := .phase 4 id P } } m))) ∧
      ∀ d, ∃ g', { x with g := { x.g with arrived := arrived } }.uniformSet g' d (wrap (P * 2 ^ 16 + id : Nat)) ∧
        exec (.arriveP m d id) s = .next (x.completes s g' m 1)) ∧
    ∀ a, x.ready [a] → (x.uni a).toNat % 8 = id →
      let phase : Nat := (x.uni a).toNat / 2 ^ 16
      ((x.uni a).toNat / 8 % 2 ^ 13 = 0 → P < 65536 →
        (((phase : Int) - (P : Int)) % 65536 ≤ 2 ^ 15 → exec (.waitP m a) s = .next (x.put s (Group.park62
          { x.g with frags := x.g.frags.set x.frag { x.f with pc := x.wordsOn 1, wait := .phase 6 id phase } } m))) ∧
        ((2 ^ 15 : Int) < ((phase : Int) - (P : Int)) % 65536 → exec (.waitP m a) s = .next (x.put s (x.goesTo x.g m (x.wordsOn 1))))) ∧
      ((x.uni a).toNat / 8 % 2 ^ 13 ≠ 0 → exec (.waitP m a) s = .next (takeTrap x.core x.slot x.frag 1 x.f.pc s.ir (x.uni a) s))

/-- R119, R121 and R442 for a launch without merge form: once every grid team's groups have all arrived, PACKAGE_BARRIER_RELEASE
raises the phase and ends the waits on it. -/
def Sys2Proof.Claims.PackageBarrierReleases : Prop :=
  ∀ (s : State) (key id : Nat) (l : Launch), s.launches.find key = some l → (l.barrier id).bound = true → l.ending = none →
    s.saved = [] → (∀ k g, s.groups.find k = some g → ((s.teams.find g.team).map fun t => t.launch) = some key →
      (∀ t, s.teams.find g.team = some t → t.kind = 0) ∧ ∀ f ∈ g.frags, f.threads &&& ~~~(g.arrived.getZ id) = 0) →
    (∃ e ∈ s.groups.entries, s.groups.find e.1 = some e.2 ∧ e.2.arrived.getZ id ≠ 0 ∧
      ((s.teams.find e.2.team).map fun t => t.launch) = some key) →
    s.groups.rising →
    (∀ ix, ix < l.gridx * l.gridy → ix ∈ l.ended ∨ ∃ e ∈ s.teams.entries, e.2.launch = key ∧ e.2.kind = 0 ∧ e.2.teamIx = ix ∧
      s.teams.find e.1 = some e.2) →
    s.mergeLaunch key = s →
    ∃ s', exec (.packageBarrierRelease key id) s = .next s' ∧ s'.mem = s.mem ∧
      ((s'.launches.find key).map fun l' => (l'.barrier id).phase) = some (((l.barrier id).phase + 1) % 65536) ∧
      ∀ k g, s.groups.find k = some g → ((s.teams.find g.team).map fun t => t.launch) = some key →
        ∃ g', s'.groups.find k = some g' ∧ g'.arrived.getZ id = 0 ∧
          ∀ (i fn : Nat) (f : Fragment), g.frags[i]? = some f → f.wait = .phase fn id (l.barrier id).phase →
            (g'.frags[i]?.map Fragment.wait) = some Wait.none

/-- Arrivals at a package barrier, waits on a phase, and the release that raises the phase (R119, R121, R440, R442). -/
def Obligations.PackageBarriers : Prop :=
  Sys2Proof.Claims.PackageBarrierArrives ∧ Sys2Proof.Claims.PackageBarrierReleases

/-- R171 and R172: pops and pushes by rank on a queue of the team, and R424: `qcfg`. That a queue of another owner is illegal with an
empty k0 too is the model's reading (notes/assumptions/13.md). -/
def Obligations.QueueResult : Prop :=
  ∀ (s : State) (x : Ctx) (m : Bool) (q n : Nat), s.ctx = some x → n < 8 → x.ready [q] →
    let Q := s.queue x.core n
    let k := x.active.length
    let after (Q' : Queue) (s' : State) : Prop := { s' with queues := s.queues } = s ∧ s'.queue x.core n = Q' ∧
      ∀ c j, j < 8 → (c ≠ x.core ∨ j ≠ n) → s'.queue c j = s.queue c j
    let rank (t : Nat) : Nat := x.active.countP (· < t)
    (Q.owner = some x.g.team → x.f.k0 ≠ 0 → (x.launch.form = 0 ∨ x.g.frags.length ≤ 1) →
      (∀ d, k ≤ Q.items.length → ∃ s' g', after { Q with items := Q.items.drop k } s' ∧
        x.sent x.g g' s.ir d (fun t => [Q.items.getD (rank t) 0]) none 0 ∧ exec (.pop m d n) s = .next (x.completes s' g' m 1)) ∧
      (∀ d, Q.items.length < k → exec (.pop m d n) s = .next s) ∧
      (∀ d ka, ∃ s' g' v, after { Q with items := Q.items.drop k } s' ∧
        (∀ t, t < 64 → v.getLsbD t = (x.f.k0.getLsbD t && decide (rank t < Q.items.length))) ∧
        x.sent x.g g' s.ir d (fun t => if rank t < Q.items.length then [Q.items.getD (rank t) 0] else []) (some (ka, v)) 0 ∧
        exec (.popnb m d ka n) s = .next (x.completes s' g' m 1)) ∧
      (Q.items.length + k ≤ 64 → ∃ s', after { Q with items := Q.items ++ x.active.map (x.lane q), drops := min Q.drops 0xFFFFFF } s' ∧
        exec (.push m q n) s = .next (x.completes s' x.g m 1)) ∧
      (64 < Q.items.length + k → Q.items.length ≤ 64 → exec (.push m q n) s = .next s) ∧
      (Q.items.length ≤ 64 → ∃ s', after { Q with
          items := Q.items ++ (x.active.map (x.lane q)).take (64 - Q.items.length)
          drops := min (Q.drops + (k - (64 - Q.items.length))) 0xFFFFFF } s' ∧
        exec (.pushnb m q n) s = .next (x.completes s' x.g m 1))) ∧
    (Q.owner ≠ some x.g.team → ∀ d ka, exec (.pop m d n) s = .next (takeTrap x.core x.slot x.frag 1 x.f.pc s.ir 0 s) ∧
      exec (.popnb m d ka n) s = .next (takeTrap x.core x.slot x.frag 1 x.f.pc s.ir 0 s) ∧
      exec (.push m q n) s = .next (takeTrap x.core x.slot x.frag 1 x.f.pc s.ir 0 s) ∧
      exec (.pushnb m q n) s = .next (takeTrap x.core x.slot x.frag 1 x.f.pc s.ir 0 s)) ∧
    ((Q.owner = none ∨ Q.owner = some x.g.team) →
      (x.uni q = 1 → ∃ s', after { Q with owner := some x.g.team } s' ∧ exec (.qcfg m q n) s = .next (x.completes s' x.g m 1)) ∧
      (x.uni q = 3 → ∃ s', after ⟨some x.g.team, [], 0⟩ s' ∧ exec (.qcfg m q n) s = .next (x.completes s' x.g m 1)) ∧
      (Q.owner = some x.g.team → (x.uni q = 0 ∨ x.uni q = 2) →
        ∃ s', after ⟨none, [], 0⟩ s' ∧ exec (.qcfg m q n) s = .next (x.completes s' x.g m 1)) ∧
      (4 ≤ (x.uni q).toNat → exec (.qcfg m q n) s = .next (takeTrap x.core x.slot x.frag 1 x.f.pc s.ir (x.uni q) s)))

/-- R163 to R165 and R190: `itld` reads a record of the unit store into a slot, and `itst` writes one, with a RESUME of 0. -/
def Obligations.IteratorMoves : Prop :=
  ∀ (s : State) (x : Ctx) (m : Bool) (i a : Nat) (it : IterSlot), s.ctx = some x → x.ready [a] → (x.uni a).toNat % 64 = 0 →
    x.unitFree s (x.uni a).toNat 64 → x.g.sweepBusy i = false → s.mem.wf = true →
    (RecordOk it → RecordAt x s (x.uni a).toNat it →
      ∃ its : Map IterSlot, (∀ n, its.find n = if n = i then some it else x.g.its.find n) ∧
        exec (.itld m i a) s = .next (x.completes s { x.g with its := its } m 1)) ∧
    (x.g.slotIt i = it → RecordOk it →
      ∃ s', s.onlyMemory s' ∧ RecordAt x s' (x.uni a).toNat it ∧
        (∀ b, (b < unitKey x.core (x.team.base + (x.uni a).toNat) ∨ unitKey x.core (x.team.base + (x.uni a).toNat) + 64 ≤ b) →
          s'.mem.byte b = s.mem.byte b) ∧
        exec (.itst m i a) s = .next (x.completes s' x.g m 1))

/-- R166 to R168: a sweep sends each active thread its element, or the reduction of its run, and moves the slot; no element read is
denied, stalled or lost. The elements of 32 bits are read with space, base and stride as the record gives. That they are read when the
sweep issues is the model's choice (notes/assumptions/5.md). -/
def Obligations.SweepResult : Prop :=
  ∀ (s : State) (x : Ctx) (m : Bool) (d i : Nat) (it : IterSlot) (place : Nat → Place), s.ctx = some x → x.g.slotIt i = it →
    RecordOk it → it.elem = 2 → x.f.k0 ≠ 0 → (x.launch.form = 0 ∨ (x.launch.form = 1 ∧ x.g.frags.length ≤ 1)) →
    x.g.staging = none → x.g.hstaging = none →
    let N := it.count
    let P := it.position
    let rank (t : Nat) : Nat := x.active.countP (· < t)
    let addr (p : Nat) : Nat :=
      if 4 ≤ it.space then (((x.launch.db.getD (it.space - 4) 0).toNat + it.elementOffset p) % 2 ^ 64).toNat else (it.elementOffset p).toNat
    let space : Space := if it.space = 0 then .unit else if it.space = 1 then .die else .global
    let value (p : Nat) : W32 := BitVec.ofNat 32 (leNat ((place p).bytes.map fun b => s.mem.byte b.1))
    (∀ p t, p < N → (4 ≤ it.space ∨ 0 ≤ it.elementOffset p) ∧ addr p % 4 = 0 ∧ checkAccess x s .read ⟨t, space, addr p, 4⟩ = .ok (place p) ∧ (place p).bytes.length = 4 ∧
      ∀ b ∈ (place p).bytes, s.covered b.1 = false ∧ s.lostSite b.2 = none) →
    (∃ (g₁ g' : Machine.Group) (tlb : List TlbEntry), g₁ = { x.g with its := g₁.its } ∧
      (∀ n, g₁.its.find n = if n = i then some (it.moveTo (min (P + x.active.length) N)) else x.g.its.find n) ∧
      (∃ p : Pend, g' = { g₁ with pend := g₁.pend ++ [p] } ∧ p.threads = x.f.k0 ∧ p.issued = x.f.k0 ∧ p.handlerBank = x.g.handler ∧
        p.sweep = some i ∧ p.flags = 0 ∧ ∀ t, t < 64 → x.f.k0.getLsbD t = true →
          p.vals.find (d * 64 + t) = some (if P + rank t < N then value (P + rank t) else 0)) ∧
      exec (.swp m d i) s = .next (x.completes { s with tlb := tlb } g' m 1)) ∧
    (∀ b L, x.ready [b] → (x.uni b).toNat % 65536 = L →
      ∃ (g₁ g' : Machine.Group) (tlb : List TlbEntry), g₁ = { x.g with its := g₁.its } ∧
        (∀ n, g₁.its.find n = if n = i then some (it.moveTo (min (P + x.active.length * L) N)) else x.g.its.find n) ∧
        (∃ p : Pend, g' = { g₁ with pend := g₁.pend ++ [p] } ∧ p.threads = x.f.k0 ∧ p.sweep = some i ∧ p.flags = 0 ∧
          ∀ t, t < 64 → x.f.k0.getLsbD t = true → p.vals.find (d * 64 + t) = some
            (((List.range L).filter fun j => P + rank t * L + j < N).foldl
              (fun acc j => AluFn.add.value acc (value (P + rank t * L + j))) 0)) ∧
        exec (.swr m .addS32 d i b) s = .next (x.completes { s with tlb := tlb } g' m 1))

/-- R223: `dreg` and `dclr` in FORM 1, and outside it, where they do nothing. -/
def Obligations.WriteRangeResult : Prop :=
  ∀ (s : State) (x : Ctx) (m every : Bool) (sp p a b : Nat), s.ctx = some x →
    x.ready (if sp = 0 then [a, a + 1, b] else [a, b]) → sp ≤ 2 →
    let after (r : Nat → Option WriteRange) (s' : State) : Prop := { s' with teams := s.teams } = s ∧
      (∀ k, k ≠ x.g.team → s'.teams.find k = s.teams.find k) ∧
      ∃ ranges, s'.teams.find x.g.team = some { x.team with ranges := ranges } ∧ ∀ n, ranges.find n = r n
    let base := if sp = 0 then (x.uni a).toNat + 2 ^ 32 * (x.uni (a + 1)).toNat else (x.uni a).toNat
    let len := (x.uni b).toNat
    let limit := if sp = 0 then 2 ^ 55 else if sp = 1 then x.launch.dieWin else 2 ^ 31
    (x.launch.form ≠ 1 → exec (.dreg m sp p a b) s = .next (x.completes s x.g m 1) ∧
      exec (.dclr m every p) s = .next (x.completes s x.g m 1)) ∧
    (x.launch.form = 1 →
      (len = 0 → ∃ s', after (fun n => if n = p then none else x.team.ranges.find n) s' ∧
        exec (.dreg m sp p a b) s = .next (x.completes s' x.g m 1)) ∧
      (len ≠ 0 → limit < base + len → exec (.dreg m sp p a b) s = .next (takeTrap x.core x.slot x.frag 10 x.f.pc s.ir
        (BitVec.ofNat 32 (2 ^ 18 + (if sp = 0 then 3 else 2) * 2 ^ 8 + 0xFF)) s)) ∧
      (len ≠ 0 → base + len ≤ limit →
        (∀ e ∈ s.teams.entries, e.1 ≠ x.g.team → e.2.launch = x.team.launch → e.2.ranges.values = []) →
        (∀ v ∈ s.saved, v.team.launch ≠ x.team.launch) →
        ∃ s', after (fun n => if n = p then some ⟨sp, base, len⟩ else x.team.ranges.find n) s' ∧
          exec (.dreg m sp p a b) s = .next (x.completes s' x.g m 1)) ∧
      ∃ s', after (fun n => if every then none else if n = p then none else x.team.ranges.find n) s' ∧
        exec (.dclr m every p) s = .next (x.completes s' x.g m 1))

namespace Sys2Proof.Machine

/-! ### Rings, copies and matrix operations (06, 07) -/

/-- g' is g with one more operation of class c outstanding: it has the class's next sequence number, and its handle is on its way to
the g register that field h names (R20, R22, R26, R58, R62). -/
structure Group.Issues (g g' : Group) (word : W32) (c inst h : Nat) (cmd : Cmd) (order stamp : Nat) : Prop where
  number : g'.cls c =
    { nextSeq := if (g.cls c).nextSeq = 0xFFFFFF then 1 else (g.cls c).nextSeq + 1
      last := (g.cls c).nextSeq
      ops := (g.cls c).ops ++ [⟨(g.cls c).nextSeq, .issued, false, none, [], 0, cmd, order, stamp, 0, []⟩] }
  others : ∀ n, n ≠ c → g'.cls n = g.cls n
  none : h ≤ 96 → g'.pend = g.pend
  handle : 96 < h → ∃ p : Pend, g'.pend = g.pend ++ [p] ∧ p.handlerBank = g.handler ∧ p.word = word ∧ p.threads = 0 ∧
    p.mask = Option.none ∧ p.flags = 0 ∧ p.sweep = Option.none ∧
    p.handle = some ⟨h - 96, BitVec.ofNat 32 (c * 2 ^ 28 + inst * 2 ^ 24 + (g.cls c).nextSeq), Option.none⟩
  rest : g' = { g with classes := g'.classes, pend := g'.pend }

/-- A CPY instruction (R255): its switch marker, function, handle field, descriptor register and index register. -/
inductive CopyDoes : Instr → Bool → Nat → Nat → Nat → Option Nat → Prop
  | cpyi m h a : CopyDoes (.cpyi m h a) m 0 h a none
  | cpyo m h a : CopyDoes (.cpyo m h a) m 1 h a none
  | cpyg m h a b : CopyDoes (.cpyg m h a b) m 2 h a (some b)
  | cpys m h a b : CopyDoes (.cpys m h a b) m 3 h a (some b)
  | tmvl m h a : CopyDoes (.tmvl m h a) m 4 h a none
  | cpyx m h a : CopyDoes (.cpyx m h a) m 5 h a none

/-- The bytes of the core's unit store, as first byte and length, that the scoreboard entry of a copy covers at issue (R27): the slot that
it has reserved, if any; DST to DST + LEN − 1 of `tmvl`; the team's whole allocation for `cpyo` and `cpys`, but where issue knows that the
tensor is elsewhere; else 67,648 bytes from its offset, cut at the end of the allocation. -/
def Ctx.covers (x : Ctx) (c : CopyCmd) (slot : Option (Nat × Nat)) : Option (Nat × Nat) :=
  let image (space off : Nat) := if space = 0 then some (x.team.base + off, min 67648 (x.team.kernel.unit - off)) else none
  match slot with
  | some q => some q
  | none =>
    if c.fn = 4 then
      if c.desc.dspace = 0 ∨ (c.desc.dspace = 2 ∧ x.team.member c.desc.dst = some x.g.team) then
        some (x.team.base + c.desc.dst % 2 ^ 24, c.desc.len)
      else none
    else if c.fn = 1 ∨ c.fn = 3 then
      if c.record.all fun r => r.space = 2 then some (x.team.base, x.team.kernel.unit) else none
    else if c.fn = 5 then image c.desc.dspace c.desc.dst
    else image c.desc.ispace c.desc.img

/-- The row indices that an index register gives: those of the first 32 active threads (R258). -/
def Ctx.indices (x : Ctx) (b : Option Nat) : List Int :=
  (b.map fun r => (x.active.take 32).map fun t => (x.lane r t).toInt).getD []

/-- A class 1 instruction: its switch marker and words, the g registers it waits for, whether the team's allocation has its operands
(R279), the TRAPINFO1 if not (R53), whether the shape, format and store checks of R284 and R286 pass, its work, what it
owns, its seq flag, and the shapes it leaves. -/
structure MatrixRow where
  m : Bool
  n : Nat
  srcs : List Nat
  alloc : Bool
  info : W32 := 0
  ok : Prop
  work : MatrixWork
  owns : List Nat
  seq : Bool := false
  tile : Option (Nat × TileShape) := none
  acc : Option (Nat × (Nat × Nat)) := none

/-- n bytes at a store address pass the checks of R286. -/
def Ctx.spanOk (x : Ctx) (space a n : Nat) (write : Bool) : Prop :=
  a % 32 = 0 ∧ a + n ≤ (if space = 0 then x.team.kernel.unit else x.launch.dieWin) ∧
    (write = true → space = 1 → x.launch.form = 1 → inRanges x.team 1 a n = true)

/-- A product of tiles a and b into accumulator c: mode 0 acc, 1 set, 2 sub (R290). -/
def Ctx.productRow (x : Ctx) (mode : Nat) (m : Bool) (c a b : Nat) (q : Bool) : MatrixRow :=
  let sa := x.team.tileShape a
  let sb := x.team.tileShape b
  { m := m, n := 1, srcs := [], alloc := x.mayTile a && x.mayTile b && x.mayAcc c
    ok := sa.axis = false ∧ sb.axis = true ∧ sb.mapped = false ∧ sb.rows = (if sa.mapped then sa.kbase else sa.cols) ∧
      (mode ≠ 1 → x.team.accShape c = (sa.rows, sb.cols))
    work := .mma mode c a b sa sb, owns := [32 + c, a, b], seq := q
    acc := if mode = 1 then some (c, (sa.rows, sb.cols)) else none }

/-- An AOP instruction of function fn on D and S, with T where it has one and the word w (R303, R304). -/
def Ctx.aopRow (x : Ctx) (fn : Nat) (m q : Bool) (d src : Nat) (t : Option Nat) (srcs : List Nat) (w : W32) : MatrixRow :=
  let (rows, cols) := x.team.accShape src
  { m := m, n := 1, srcs := srcs, alloc := x.mayAcc d && x.mayAcc src && t.all x.mayAcc
    ok := (∀ u, t = some u → x.team.accShape u = (rows, cols)) ∧
      (fn = 4 → w.toNat % 4 = 0 ∧ w.toNat + 4 * cols ≤ x.team.kernel.unit)
    work := .aop fn d src (t.getD 0) rows cols w, owns := [32 + d, 32 + src] ++ t.toList.map (32 + ·), seq := q
    acc := some (d, (rows, if fn = 5 ∨ fn = 6 then 32 else cols)) }

/-- The class 1 instructions but `mmah` and `mmag` (R281, R290, R297 to R304). -/
inductive MatrixDoes (x : Ctx) : Instr → MatrixRow → Prop
  | tcfg m t dup axis cols rows wd : MatrixDoes x (.tcfg m t dup axis cols rows wd)
      { m := m, n := 2, srcs := [], alloc := x.mayTile t, ok := True, work := .tcfg t, owns := [t]
        info := wrap (dup * 2 ^ 24 + (if axis then 2 ^ 23 else 0) + cols * 2 ^ 20 + rows * 2 ^ 12 + wd * 2 ^ 9 : Nat)
        tile := some (t, ⟨rows + 1, 32 * (cols + 1), wd + 2, axis, dup != 0, dup⟩) }
  | tmovi m t a p : MatrixDoes x (.tmovi m t a p)
      { m := m, n := 1, srcs := [a], alloc := x.mayTile t
        ok := x.spanOk p.toNat (x.uni a).toNat (x.team.tileShape t).imageSize false
        work := .tmovi t (x.team.tileShape t) p.toNat (x.uni a).toNat, owns := [t] }
  | tmovo m t a p : MatrixDoes x (.tmovo m t a p)
      { m := m, n := 1, srcs := [a], alloc := x.mayTile t
        ok := x.spanOk p.toNat (x.uni a).toNat (x.team.tileShape t).imageSize true
        work := .tmovo t (x.team.tileShape t) p.toNat (x.uni a).toNat, owns := [t] }
  | tzero m t : MatrixDoes x (.tzero m t)
      { m := m, n := 1, srcs := [], alloc := x.mayTile t, ok := True, work := .tzero t, owns := [t] }
  | tdmap m t a : a ≠ 96 → MatrixDoes x (.tdmap m t a)
      { m := m, n := 1, srcs := [a], alloc := x.mayTile t
        ok := (x.team.tileShape t).mapped = true ∧ x.spanOk 0 (x.uni a).toNat 32 false
        work := .tdmap t (x.team.tileShape t) (some (x.uni a).toNat), owns := [t] }
  | unmap m t : MatrixDoes x (.tdmap m t 96)
      { m := m, n := 1, srcs := [], alloc := x.mayTile t, ok := (x.team.tileShape t).mapped = true
        work := .tdmap t (x.team.tileShape t) none, owns := [t] }
  | azero m n b rows cols : x.uni b = wrap ((rows - 1 : Nat) * 2 ^ 8 + (cols - 1 : Nat)) → 1 ≤ rows → rows ≤ 256 →
      1 ≤ cols → cols ≤ 8 → MatrixDoes x (.azero m n b)
      { m := m, n := 1, srcs := [b], alloc := x.mayAcc n, ok := True, work := .azero n, owns := [32 + n]
        acc := some (n, (rows, 32 * cols)) }
  | afil m n a b rows cols space : x.uni b = wrap (space * 2 ^ 16 + (rows - 1 : Nat) * 2 ^ 8 + (cols - 1 : Nat) : Nat) → space ≤ 1 →
      1 ≤ rows → rows ≤ 256 → 1 ≤ cols → cols ≤ 8 → MatrixDoes x (.afil m n a b)
      { m := m, n := 1, srcs := [a, b], alloc := x.mayAcc n, ok := x.spanOk space (x.uni a).toNat 32 false
        work := .afil n rows (32 * cols) space (x.uni a).toNat, owns := [32 + n], acc := some (n, (rows, 32 * cols)) }
  | adrn m q n a b (d : Drain) : drainWord (x.uni b) (x.team.accShape n).1 = some d → MatrixDoes x (.adrn m q n a b)
      { m := m, n := 1, srcs := [a, b], alloc := x.mayAcc n
        ok := x.spanOk d.space (x.uni a).toNat (drainSize d (x.team.accShape n).1 (x.team.accShape n).2) true
        work := .adrn n (x.team.accShape n).1 (x.team.accShape n).2 d.space (x.uni a).toNat d.fmt d.width d.axis
        owns := [32 + n], seq := q }
  | mmaAcc m c a b q sva svb : MatrixDoes x (.mmaAcc m c a b q sva svb) (x.productRow 0 m c a b q)
  | mmaSet m c a b q sva svb : MatrixDoes x (.mmaSet m c a b q sva svb) (x.productRow 1 m c a b q)
  | mmaSub m c a b q sva svb : MatrixDoes x (.mmaSub m c a b q sva svb) (x.productRow 2 m c a b q)
  | aact m q d src f : MatrixDoes x (.aact m q d src f) (x.aopRow 0 m q d src none [] (wrap (activationCode f : Nat)))
  | aadd m q d src t : MatrixDoes x (.aadd m q d src t) (x.aopRow 1 m q d src (some t) [] 0)
  | aemul m q d src t : MatrixDoes x (.aemul m q d src t) (x.aopRow 2 m q d src (some t) [] 0)
  | ascal m q d src g : MatrixDoes x (.ascal m q d src g) (x.aopRow 3 m q d src none [g] (x.uni g))
  | abias m q d src g : MatrixDoes x (.abias m q d src g) (x.aopRow 4 m q d src none [g] (x.uni g))
  | arsum m q d src : MatrixDoes x (.arsum m q d src) (x.aopRow 5 m q d src none [] 0)
  | armax m q d src : MatrixDoes x (.armax m q d src) (x.aopRow 6 m q d src none [] 0)
  | acpy m q d src : MatrixDoes x (.acpy m q d src) (x.aopRow 7 m q d src none [] 0)

/-- No operation, and no `trvs`, of another group of the team owns one of the listed registers (R285, R344). -/
def Ctx.free (x : Ctx) (s : State) (owns : List Nat) : Prop :=
  ∀ e ∈ s.groups.entries, e.1 ≠ slotKey x.core x.slot → e.2.team = x.g.team →
    (∀ o ∈ (e.2.cls 1).ops, ∀ n ∈ o.owns, n ∉ owns) ∧ ∀ r, e.2.reversing = some r → ∀ n ∈ r.owns, n ∉ owns

/-- A map with one entry more. -/
def Map.holds {α : Type} (m' m : Map α) (e : Option (Nat × α)) : Prop :=
  ∀ k, m'.find k = match e with
    | some (j, v) => if k = j then some v else m.find k
    | none => m.find k

end Sys2Proof.Machine

/-- R264 to R267: `rcfg` configures or frees a ring that is free of reservations, `rawait` gives the offset of a filled slot and waits for
one that is not, `rrel` releases the oldest slots, and `rnst` reads a ring's word, which is 0 for a ring of another team. -/
def Obligations.RingResult : Prop :=
  ∀ (s : State) (x : Ctx) (m : Bool) (n : Nat), s.ctx = some x → n < 16 →
    let r := s.ring x.core n
    let after (r' : SlotRing) (s' : State) : Prop := { s' with rings := s.rings } = s ∧ s'.ring x.core n = r' ∧
      ∀ c j, j < 16 → (c ≠ x.core ∨ j ≠ n) → s'.ring c j = s.ring c j
    (∀ d a count slotsz, x.ready [d, a] → (x.uni a).toNat = slotsz * 2 ^ 8 + count → count ≤ 64 → (count = 0 ∨ slotsz ≠ 0) →
      (x.uni d).toNat % 32 = 0 → (x.uni d).toNat + count * (32 * slotsz) ≤ x.team.kernel.unit →
      (r.owner = none ∨ r.owner = some x.g.team) → r.reserved = [] →
      ∃ s', after (if count = 0 then ⟨none, 0, 0, 0, 0, 0, []⟩ else ⟨some x.g.team, (x.uni d).toNat, 32 * slotsz, count, 0, 0, []⟩) s' ∧
        exec (.rcfg m d a n) s = .next (x.completes s' x.g m 1)) ∧
    (r.owner = some x.g.team →
      (∀ d k, k < r.count →
        (k < r.nfill → ∃ g', x.uniformSet g' d (wrap (r.base + (r.rdi + k) % r.count * r.slotsz : Nat)) ∧
          exec (.rawait m d k n) s = .next (x.completes s g' m 1)) ∧
        (r.nfill ≤ k → exec (.rawait m d k n) s = .next s)) ∧
      (∀ k, k < r.count →
        (k < r.nfill → ∃ s', after { r with rdi := (r.rdi + (k + 1)) % r.count, nfill := r.nfill - (k + 1) } s' ∧
          exec (.rrel m k n) s = .next (x.completes s' x.g m 1)) ∧
        (r.nfill ≤ k → exec (.rrel m k n) s = .next s)) ∧
      ∀ d, ∃ g', x.uniformSet g' d (wrap (2 ^ 31 + r.reserved.length * 2 ^ 24 + r.nfill * 2 ^ 16 + r.rdi * 2 ^ 8 + r.count : Nat)) ∧
        exec (.rnst m d n) s = .next (x.completes s g' m 1)) ∧
    (r.owner ≠ some x.g.team → ∀ d k,
      exec (.rawait m d k n) s = .next (takeTrap x.core x.slot x.frag 1 x.f.pc s.ir 0 s) ∧
      exec (.rrel m k n) s = .next (takeTrap x.core x.slot x.frag 1 x.f.pc s.ir 0 s) ∧
      ∃ g', x.uniformSet g' d 0 ∧ exec (.rnst m d n) s = .next (x.completes s g' m 1))

/-- R20, R27, R58, R255 and R263: a copy whose checks of R253 pass, with a free place in class 0, in its ring and in the scoreboard, is
issued: it gets its number and handle, the slot after those filled and reserved if it names a ring, and a scoreboard entry for the sectors
of its destination that issue knows, if they lie in the core's unit store. -/
def Obligations.CopyIssues : Prop :=
  ∀ (s : State) (x : Ctx) (i : Instr) (m : Bool) (fn h a : Nat) (b : Option Nat) (c : CopyCmd), s.ctx = some x →
    CopyDoes i m fn h a b → x.ready (a :: b.toList) →
    s.checkCopy x.env (fun r => r.owner == some x.g.team) fn (x.uni a).toNat (x.indices b) = .ok c →
    (x.g.cls 0).ops.length < 127 → (s.scoreboard.filter fun e => e.core = x.core).length < 32 →
    let r := s.ring x.core c.desc.rnum
    let used := r.nfill + r.reserved.length
    (c.desc.ring = true → used < r.count) →
    ∃ (s' : State) (g' : Machine.Group) (slot : Option Nat),
      x.g.Issues g' s.ir 0 0 h (.copy { c with slotAddr := slot }) 0 s.tick ∧ exec i s = .next (x.completes s' g' m 1) ∧
      (c.desc.ring = false → slot = none ∧ s'.rings = s.rings) ∧
      (c.desc.ring = true → slot = some (x.team.base + (r.base + (r.rdi + used) % r.count * r.slotsz)) ∧
        s'.ring x.core c.desc.rnum = { r with reserved := r.reserved ++ [(x.slot, (x.g.cls 0).nextSeq)] } ∧
        ∀ j n, n < 16 → (j ≠ x.core ∨ n ≠ c.desc.rnum) → s'.ring j n = s.ring j n) ∧
      s'.scoreboard = s.scoreboard ++ ((x.covers c (slot.map fun a => (a, r.slotsz))).map fun q =>
        (⟨x.core, x.slot, (x.g.cls 0).nextSeq, [(q.1 / 32, (q.1 + q.2 + 31) / 32)]⟩ : ScoreEntry)).toList ∧
      { s' with rings := s.rings, scoreboard := s.scoreboard } = s

/-- R20, R279, R283 to R286 outside record mode and outside skipped work: a class 1 operation whose operands are allocated, whose checks
pass and whose registers no other group uses is issued and accepted: it has its number, its place in the engine's order and its operands as they
are at issue, its shapes are changed at once, and nothing else is. One that names a register outside the allocation is illegal (R53), and a
sequenced one waits while g29 awaits a result word (R115, R308). -/
def Obligations.MatrixIssues : Prop :=
  ∀ (s : State) (x : Ctx) (i : Instr) (r : MatrixRow), s.ctx = some x → MatrixDoes x i r → x.ready r.srcs →
    (r.seq = true → x.g.handler = false → x.g.step ≠ none → ¬x.ready [125] → exec i s = .next s) ∧
    ((r.seq = false ∨ x.g.handler = true ∨ x.g.step = none ∨ x.ready [125]) → r.alloc = false →
      exec i s = .next (takeTrap x.core x.slot x.frag 1 x.f.pc s.ir r.info s)) ∧
    (r.alloc = true → r.ok → (x.g.recording = false ∨ x.g.handler = true) → x.g.holdsBatch x.team = false →
      (r.seq = false ∨ x.g.handler = true ∨ x.g.step = none) → (x.g.cls 1).ops.length < 127 → x.free s r.owns →
      (∀ o ∈ (x.g.cls 1).ops, o.order ≠ 0) →
      ∃ (s' : State) (g' : Machine.Group) (t' : Team), exec i s = .next s' ∧
        s'.groups.find (slotKey x.core x.slot) = some g' ∧ s'.teams.find x.g.team = some t' ∧
        g'.cls 1 =
          { nextSeq := if (x.g.cls 1).nextSeq = 0xFFFFFF then 1 else (x.g.cls 1).nextSeq + 1
            last := (x.g.cls 1).nextSeq
            ops := (x.g.cls 1).ops ++
              [⟨(x.g.cls 1).nextSeq, .issued, false, none, r.owns, 0, .matrix r.work none, s.nextOrder + 1, s.tick, 0, []⟩] } ∧
        (∀ c, c ≠ 1 → g'.cls c = x.g.cls c) ∧ g'.batch = x.g.batch + 1 ∧
        { g' with classes := x.g.classes, batch := x.g.batch } = x.g.advance x.frag r.m r.n ∧
        t'.tileShapes.holds x.team.tileShapes r.tile ∧ t'.accShapes.holds x.team.accShapes r.acc ∧
        { t' with tileShapes := x.team.tileShapes, accShapes := x.team.accShapes } = x.team ∧
        (∀ k, k ≠ slotKey x.core x.slot → s'.groups.find k = s.groups.find k) ∧
        (∀ k, k ≠ x.g.team → s'.teams.find k = s.teams.find k) ∧
        { s' with groups := s.groups, teams := s.teams, nextOrder := s.nextOrder } = s ∧ s'.nextOrder = s.nextOrder + 1)

/-- R292 to R295 outside record mode and outside skipped work, for a descriptor whose record is no unit-store one: `mmah` and `mmag` issue
one operand-fetch copy of class 0 for each part with rows, in order, and one class 1 operation whose parts name those copies. -/
def Obligations.HandledIssues : Prop :=
  ∀ (s : State) (x : Ctx) (m many : Bool) (a : Nat) (d : HandleDesc), s.ctx = some x → x.ready [a] →
    let at_ := (x.uni a).toNat
    let size := if many then 192 else 64
    let sa := x.team.tileShape d.ta
    let sb := x.team.tileShape d.ts0
    let counts := if many then d.counts else [sa.rows]
    let parts := (counts.filter (· ≠ 0)).length
    at_ % 64 = 0 → at_ + size ≤ x.team.kernel.unit →
    readHandleDesc many (s.mem.bytes (unitKey x.core (x.team.base + at_)) size) = some d → d.lrec / 2 ^ 30 ≠ 0 →
    (x.mayTile d.ta && x.mayTile d.ts0 && x.mayTile d.ts1 && x.mayAcc d.acc) = true →
    sa.axis = false → sb.axis = true → sb.mapped = false → sb.rows = (if sa.mapped then sa.kbase else sa.cols) →
    x.team.tileShape d.ts1 = sb → counts.sum = sa.rows → (d.mode ≠ 1 → x.team.accShape d.acc = (sa.rows, sb.cols)) →
    d.stg0 + sb.imageSize ≤ x.team.kernel.unit → d.stg1 + sb.imageSize ≤ x.team.kernel.unit →
    (x.g.recording = false ∨ x.g.handler = true) → x.g.holdsBatch x.team = false → (d.seq = false ∨ x.g.handler = true ∨ x.g.step = none) →
    (x.g.cls 1).ops.length < 127 → x.free s [32 + d.acc, d.ta, d.ts0, d.ts1] → (∀ o ∈ (x.g.cls 1).ops, o.order ≠ 0) →
    (x.g.cls 0).ops.length + parts ≤ 127 → (s.scoreboard.filter fun e => e.core = x.core).length + parts ≤ 32 →
    ∃ (s' : State) (g' : Machine.Group) (copies : List Op) (o : Op) (ps : List MmagPart),
      exec (if many then .mmag m a else .mmah m a) s = .next s' ∧ s'.groups.find (slotKey x.core x.slot) = some g' ∧
      (g'.cls 0).ops = (x.g.cls 0).ops ++ copies ∧ copies.length = parts ∧
      (∀ k ∈ copies, ∃ c : CopyCmd, k.cmd = .copy c ∧ c.fn = 0 ∧ c.fetch = sb.imageSize ∧ c.desc.lrec = d.lrec) ∧
      (g'.cls 1).ops = (x.g.cls 1).ops ++ [o] ∧ o.seq = (x.g.cls 1).nextSeq ∧ o.order = s.nextOrder + 1 ∧
      o.owns = [32 + d.acc, d.ta, d.ts0, d.ts1] ∧ o.cmd = .matrix (.mmag d.mode d.acc d.ta sa ps 0) none ∧
      ps.map (·.copySeq) = copies.map (·.seq) ∧ s'.scoreboard.length = s.scoreboard.length + parts ∧ s'.mem = s.mem

namespace Sys2Proof.Machine

/-! ### The turns of the engines (01, 06, 07, 10, 12) -/

/-- g' is g with the outstanding operation of class c and number o.seq as o (R20). -/
def Group.opBecomes (g g' : Group) (c : Nat) (o : Op) : Prop :=
  (g'.cls c) = { g.cls c with ops := (g.cls c).ops.map fun p => if p.seq = o.seq then o else p } ∧
    ∀ n, n ≠ c → g'.cls n = g.cls n

/-- t differs from s in nothing but what group key k holds in class c, where the operation of number o.seq is now o. -/
def State.onlyOp (s t : State) (k c : Nat) (g : Group) (o : Op) : Prop :=
  ∃ g', t.groups.find k = some g' ∧ g.opBecomes g' c o ∧ { g' with classes := g.classes } = g ∧ s.onlyGroup t k

end Sys2Proof.Machine

namespace Sys2Proof.Machine

/-! ### The numbers, blocks and images of the engines (06, 07) -/

/-- A value is finite. -/
def Num.finite (x : Num) : Prop := ∃ n m e, x = .fin n m e
/-- −x. -/
def Num.opposite : Num → Num
  | .nan q => .nan q
  | .inf n => .inf (!n)
  | .fin n m e => .fin (!n) m e
/-- w is the exact z rounded once to f32, to nearest even with FTZ as 0; big says whether that overflows (R289). -/
def Num.roundsTo (z : Num) (w : W32) (big : Prop) : Prop :=
  w = wrap ((roundTo f32 false z .rne).1 : Nat) ∧ (big ↔ (roundTo f32 false z .rne).2 &&& flagOF ≠ 0)
/-- The value of f32 bits. -/
def f32Of (w : W32) : Num := decodeNum f32 false w.toNat
/-- w is x + y rounded. -/
def addsTo (x : W32) (y : Num) (w : W32) (big : Prop) : Prop := ∃ z fl, (f32Of x).sumsTo false y z fl ∧ z.roundsTo w big
/-- w is x × y rounded. -/
def timesTo (x y w : W32) (big : Prop) : Prop := ∃ z fl, (f32Of x).multipliesTo (f32Of y) z fl ∧ z.roundsTo w big
/-- v is x with p 0 to p (n − 1) added one after another, each sum rounded. -/
def chainsTo (x : W32) (n : Nat) (p : Nat → Num) (v : W32) (big : Prop) : Prop :=
  ∃ (c : Nat → W32) (o : Nat → Prop), c 0 = x ∧ c n = v ∧ (∀ k, k < n → addsTo (c k) (p k) (c (k + 1)) (o k)) ∧
    (big ↔ ∃ k, k < n ∧ o k)

/-- p is BlockProduct of block k along K, for row i of A and column j of B (R288). -/
def Tile.times (a b : Tile) (i j k : Nat) (p : Num) : Prop :=
  let ea : Nat := (a.d.exps.getZ (i * (a.sh.cols / 32) + k)).toNat
  let eb (row : Nat) : Nat := (b.d.exps.getZ (row / 32 * b.sh.cols + j)).toNat
  let ma (c : Nat) : Int := signedOf a.sh.width (a.d.mants.getZ (i * a.sh.cols + c)).toNat
  let mb (r : Nat) : Int := signedOf b.sh.width (b.d.mants.getZ (r * b.sh.cols + j)).toNat
  let scale (e : Nat) : ℚ := (2 : ℚ) ^ ((ea : Int) + e - 254 - ((a.sh.width : Int) - 1) - ((b.sh.width : Int) - 1))
  let exact (v : ℚ) : Prop := p.real = v ∧ ∃ n m e, p = .fin n m e ∧ (m = 0 → n = false)
  let q (l : Nat) : Nat := (a.d.map.getD l 0).toNat
  ((a.sh.mapped = false ∨ k < a.sh.kbase / 32) →
    ((ea = 0xFF ∨ eb (32 * k) = 0xFF) → p.isNan = true) ∧
    ((ea ≠ 0xFF ∧ eb (32 * k) ≠ 0xFF) →
      exact (((List.range 32).map fun l => ((ma (32 * k + l) * mb (32 * k + l) : Int) : ℚ)).sum * scale (eb (32 * k))))) ∧
  ((a.sh.mapped = true ∧ a.sh.kbase / 32 ≤ k) →
    ((ea = 0xFF ∨ ∃ l, l < a.d.dup ∧ eb (q l) = 0xFF) → p.isNan = true) ∧
    ((ea ≠ 0xFF ∧ ∀ l, l < a.d.dup → eb (q l) ≠ 0xFF) →
      exact (((List.range a.d.dup).map fun l => ((ma (a.sh.kbase + l) * mb (q l) : Int) : ℚ) * scale (eb (q l))).sum)))

/-- 32 values form a block of exponent byte e and mantissas m, as BlockQuantise says (R246). -/
def blockIs (w : Nat) (xs : Nat → Num) (mode : Nat → RMode) (e : Nat) (m : Nat → Int) (nanblk sat : Prop) : Prop :=
  ((∃ j, j < 32 ∧ ¬(xs j).finite) → e = 0xFF ∧ (∀ j, j < 32 → m j = 0) ∧ nanblk ∧ ¬sat) ∧
  ((∀ j, j < 32 → (xs j).finite) → ¬nanblk ∧
    ((∀ j, j < 32 → (xs j).real = 0) → e = 0 ∧ (∀ j, j < 32 → m j = 0) ∧ ¬sat) ∧
    ∀ top : Int, (∃ j, j < 32 ∧ (xs j).real ≠ 0 ∧ Int.log 2 |(xs j).real| = top) →
      (∀ j, j < 32 → (xs j).real ≠ 0 → Int.log 2 |(xs j).real| ≤ top) →
      let raw (j : Nat) : Int := roundReal ((xs j).real / (2 : ℚ) ^ ((e : Int) - 127 - ((w : Int) - 1))) (mode j)
      let lo : Int := -2 ^ (w - 1)
      let hi : Int := 2 ^ (w - 1) - 1
      (e : Int) = max 0 (min 254 (top + 128)) ∧ (∀ j, j < 32 → m j = max lo (min hi (raw j))) ∧
        (sat ↔ ∃ j, j < 32 ∧ (raw j < lo ∨ hi < raw j)))
/-- The place of element i of block k of line l, a row or, with AXIS, a column; and the block's number (R236). -/
def blockCell (axis : Bool) (l k i : Nat) : Nat × Nat := if axis then (32 * k + i, l) else (l, 32 * k + i)
def blockNumber (axis : Bool) (cols l k : Nat) : Nat := if axis then k * cols + l else l * (cols / 32) + k

/-- The number that n bytes of an image from byte i up form. -/
def imageField (b : Nat → Byte) (i n : Nat) : Nat := leNat ((List.range n).map fun j => b (i + j))
/-- The header's bytes as R234 lays them out. -/
def ImageHead.laid (h : ImageHead) (b : Nat → Byte) : Prop :=
  imageField b 0 2 = h.rows ∧ imageField b 2 2 = h.cols ∧ imageField b 4 1 = h.kind ∧ imageField b 5 1 = h.axis.toNat ∧
    imageField b 6 1 = h.dup ∧ imageField b 7 1 = h.mapped.toNat + 2 * h.nanblk.toNat + 4 * h.sat.toNat + 8 * h.splitovf.toNat ∧
    imageField b 8 2 = (if h.mapped then h.cols - 32 else 0) ∧ ∀ i, 10 ≤ i → i < 32 → b i = 0
/-- The limits of R234. -/
def ImageHead.legal (h : ImageHead) : Prop :=
  1 ≤ h.rows ∧ h.rows ≤ 256 ∧ 32 ≤ h.cols ∧ h.cols ≤ 256 ∧ h.cols % 32 = 0 ∧
    ((2 ≤ h.kind ∧ h.kind ≤ 8) ∨ h.kind = 0x10 ∨ h.kind = 0x11 ∨ h.kind = 0x12) ∧
    (h.axis = true → h.rows % 32 = 0 ∧ h.kind ≤ 8) ∧ h.dup ≤ 32 ∧ (h.mapped = false → h.dup = 0) ∧
    (h.mapped = true → h.axis = false ∧ h.kind ≤ 8)
/-- The value of element (r, c) of a BFP image (R236). -/
def ImageHead.bfpElement (h : ImageHead) (b : Nat → Byte) (r c : Nat) (x : Num) : Prop :=
  let e := (b (h.expsAt + (if h.axis then r / 32 * h.cols + c else r * (h.cols / 32) + c / 32))).toNat
  let m := signedOf h.kind (b (h.elemsAt + (r * h.cols + c))).toNat
  (e = 0xFF → x.isNan = true) ∧
    (e ≠ 0xFF → x.real = (m : ℚ) * (2 : ℚ) ^ ((e : Int) - 127 - ((h.kind : Int) - 1)) ∧ ∃ n k p, x = .fin n k p ∧ (k = 0 → n = false))
/-- The value of element (r, c) of an image (R236). -/
def ImageHead.element (h : ImageHead) (b : Nat → Byte) (r c : Nat) (x : Num) : Prop :=
  (h.kind = 0x10 → x = decodeNum f32 false (imageField b (h.elemsAt + 4 * (r * h.cols + c)) 4)) ∧
  (h.kind = 0x11 → x = decodeNum bf16 false (imageField b (h.elemsAt + 2 * (r * h.cols + c)) 2)) ∧
  (h.kind = 0x12 → x = decodeNum f16 false (imageField b (h.elemsAt + 2 * (r * h.cols + c)) 2)) ∧
  (h.kind ≤ 8 → h.bfpElement b r c x)
/-- The byte of a store, at an offset from a. -/
def State.storeByte (s : State) (t : Team) (space a i : Nat) : Byte := s.mem.byte (s.storeKey t space (a + i))

/-- Which values a class 1 operation writes into a region of an accumulator from row first down, each with its overflow; OVF afterwards,
where keeps is what it takes from before; and the MERR bits OVF and NAN (R287, R289, R303). -/
def AccData.written (d d' : AccData) (first rows cols : Nat) (keeps : Prop) (merr : BitVec 4)
    (value : Nat → Nat → W32 → Prop → Prop) : Prop :=
  let in_ (i j : Nat) : Prop := first ≤ i ∧ i < first + rows ∧ j < cols
  ∃ big : Nat → Nat → Prop,
    (∀ i j, j < 256 → (in_ i j → value i j (d'.value i j) (big i j)) ∧ (¬in_ i j → d'.value i j = d.value i j)) ∧
    (d'.ovf = true ↔ keeps ∨ ∃ i j, in_ i j ∧ big i j) ∧ merr.getLsbD 0 = false ∧ merr.getLsbD 1 = false ∧
    (merr.getLsbD 2 = true ↔ ∃ i j, in_ i j ∧ big i j) ∧
    (merr.getLsbD 3 = true ↔ ∃ i j, in_ i j ∧ (f32Of (d'.value i j)).isNan = true)
/-- MatMul (R289) of A with B into rows of C from first down: mode 0 acc, 1 set, 2 sub. -/
def AccData.product (d d' : AccData) (a b : Tile) (mode first rows : Nat) (merr : BitVec 4) : Prop :=
  d.written d' first rows b.sh.cols (d.ovf = true) merr fun i j v big => ∃ p : Nat → Num,
    (∀ k, k < a.sh.cols / 32 → a.times b i j k (p k)) ∧
      chainsTo (if mode = 1 then 0 else d.value i j) (a.sh.cols / 32) (fun k => if mode = 2 then (p k).opposite else p k) v big
/-- An image matches a tile (R297). -/
def TileShape.matched (sh : TileShape) (img : Nat → Byte) : Prop :=
  ∃ h, readHead ((List.range 32).map img) = some h ∧ h.kind = sh.width ∧ h.rows = sh.rows ∧ h.cols = sh.cols ∧ h.axis = sh.axis ∧
    h.mapped = sh.mapped ∧ h.dup ≤ sh.dupcap
/-- A tile loads an image: its planes, its map and DUP if it is mapped; or it becomes a NaN tile (R297). -/
def TileData.loads (d d' : TileData) (sh : TileShape) (img : Nat → Byte) : Prop :=
  let blocks := sh.rows * sh.cols / 32
  let exps := if sh.mapped then 64 else 32
  (sh.matched img →
    (∀ b, b < blocks → d'.exps.getZ b = img (exps + b)) ∧
    (∀ k, k < sh.rows * sh.cols → d'.mants.getZ k = img (exps + (blocks + 31) / 32 * 32 + k)) ∧
    (sh.mapped = true → d'.dup = (img 6).toNat ∧ d'.map = (List.range 32).map fun i => img (32 + i)) ∧
    (sh.mapped = false → d'.dup = d.dup ∧ d'.map = d.map)) ∧
  (¬sh.matched img → (∀ b, b < blocks → d'.exps.getZ b = 0xFF) ∧ d'.mants = d.mants ∧ d'.dup = d.dup ∧ d'.map = d.map)

/-- What the turn of the matrix engine leaves: the group's operation as o', its team with new tiles and accumulators, its batches and the
core's margin registers, and nothing else changed but memory. -/
def State.matrixLeaves (s s' : State) (core slot : Nat) (g : Group) (t t' : Team) (o' : Op) : Prop :=
  ∃ g', s'.groups.find (slotKey core slot) = some g' ∧ s'.teams.find g.team = some t' ∧ g.opBecomes g' 1 o' ∧
    { g' with classes := g.classes, openLevel := g.openLevel, openReplays := g.openReplays, batches := g.batches } = g ∧
    { t' with tiles := t.tiles, accs := t.accs } = t ∧ (∀ k, k ≠ slotKey core slot → s'.groups.find k = s.groups.find k) ∧
    (∀ k, k ≠ g.team → s'.teams.find k = s.teams.find k) ∧
    { s' with groups := s.groups, teams := s.teams, margins := s.margins, mem := s.mem, hods := s.hods } = s
/-- The group's next class 1 operation is o with work w, accepted, not cancelled and not recorded, and nothing makes it wait (R283, R286,
R361). -/
def State.matrixTurns (s : State) (core slot k : Nat) (g : Group) (t : Team) (o : Op) (w : MatrixWork) : Prop :=
  s.groups.find (slotKey core slot) = some g ∧ s.teams.find g.team = some t ∧ (s.debugOf core).frozen = false ∧
    g.nextMatrix = some (k, o) ∧ o.cmd = .matrix w none ∧ (∀ p ∈ (g.cls 1).ops, p.order ≠ 0) ∧ o.cancel = false ∧
    s.signatureFirst g.team o = false ∧ w.held s t = false
/-- The first sectors of an image are written from sector k on, n of them, and no other byte (R286). -/
def State.imageWritten (s s' : State) (t : Team) (space a size k n : Nat) (img : Nat → Byte) : Prop :=
  (∀ i, i < size → 32 * k ≤ i → i < 32 * (k + n) → s'.storeByte t space a i = img i) ∧
  ∀ b, (b < s.storeKey t space (a + 32 * k) ∨ s.storeKey t space (a + 32 * (k + n)) ≤ b) → s'.mem.byte b = s.mem.byte b

end Sys2Proof.Machine

/-- R233, R234 and R236: which headers are valid, and where the parts of an image lie. -/
def Sys2Proof.Claims.ImageHeaders : Prop :=
  (∀ (img : Nat → Byte) (h : ImageHead), readHead ((List.range 32).map img) = some h ↔ h.laid img ∧ h.legal) ∧
  ∀ h : ImageHead,
    let bfp := 2 ≤ h.kind ∧ h.kind ≤ 8
    let up (n : Nat) : Nat := (n + 31) / 32 * 32
    h.expsAt = 32 + (if h.mapped then 32 else 0) ∧ h.elemsAt = h.expsAt + (if bfp then up (h.rows * h.cols / 32) else 0) ∧
    (bfp → h.size = h.elemsAt + up (h.rows * h.cols)) ∧ (h.kind = 0x10 → h.size = h.elemsAt + up (h.rows * h.cols * 4)) ∧
    (h.kind = 0x11 ∨ h.kind = 0x12 → h.size = h.elemsAt + up (h.rows * h.cols * 2))

/-- R288 to R290, R294 and R295: a turn of the matrix engine for a product of tile registers, and for the next part of an `mmah` or `mmag`
whose copy has retired while the part after it has none. -/
def Sys2Proof.Claims.MatrixProducts : Prop :=
  ∀ (s : State) (core slot replays k : Nat) (g : Machine.Group) (t : Team) (o : Op) (w : MatrixWork),
    s.matrixTurns core slot k g t o w →
    (∀ mode c a b sa sb, w = .mma mode c a b sa sb → sb.cols ≤ 256 → mode ≤ 2 →
      ∃ s' t' merr, exec (.matrixOperationBegin core slot replays) s = .next s' ∧ s'.mem = s.mem ∧
        s.matrixLeaves s' core slot g t t' { o with phase := .done 0, merr := o.merr ||| merr } ∧ t'.tiles = t.tiles ∧
        (∀ n, n ≠ c → t'.acc n = t.acc n) ∧ (t.acc c).product (t'.acc c) ⟨sa, t.tile a⟩ ⟨sb, t.tile b⟩ mode 0 sa.rows merr) ∧
    ∀ mode c a sa parts next q status, w = .mmag mode c a sa parts next → parts[next]? = some q → q.result = some status →
      q.shape.cols ≤ 256 → mode ≤ 2 → (∀ r, parts[next + 1]? = some r → r.result = none) →
      ∃ s' t' merr, exec (.matrixOperationBegin core slot replays) s = .next s' ∧ s'.mem = s.mem ∧
        s.matrixLeaves s' core slot g t t'
          { o with
            phase := if next + 1 = parts.length then .done 0 else .begun, merr := o.merr ||| merr
            cmd := .matrix (.mmag mode c a sa parts (next + 1)) none } ∧
        (∀ n, n ≠ c → t'.acc n = t.acc n) ∧ (∀ n, n ≠ q.ts → t'.tile n = t.tile n) ∧
        (status ≠ 0 → merr = 2 ∧ t'.tile q.ts = t.tile q.ts ∧ t'.acc c = t.acc c) ∧
        (status = 0 → (t.tile q.ts).loads (t'.tile q.ts) q.shape (s.storeByte t 0 q.stg) ∧
          (q.shape.matched (s.storeByte t 0 q.stg) →
            (t.acc c).product (t'.acc c) ⟨sa, if a = q.ts then t'.tile a else t.tile a⟩ ⟨q.shape, t'.tile q.ts⟩ mode q.first q.count merr) ∧
          (¬q.shape.matched (s.storeByte t 0 q.stg) → merr = 1 ∧ t'.acc c = t.acc c))

/-- R303 and R304: what an accumulator operation writes into D from S and T, whose values are read first. -/
def Sys2Proof.Claims.AccumulatorOps : Prop :=
  ∀ (s : State) (core slot replays k : Nat) (g : Machine.Group) (t : Team) (o : Op) (fn d src u rows cols : Nat) (x : W32),
    s.matrixTurns core slot k g t o (.aop fn d src u rows cols x) → fn ≤ 6 → 1 ≤ cols → cols ≤ 256 →
    ∃ s' t' merr, exec (.matrixOperationBegin core slot replays) s = .next s' ∧ s'.mem = s.mem ∧
      s.matrixLeaves s' core slot g t t' { o with phase := .done 0, merr := o.merr ||| merr } ∧ t'.tiles = t.tiles ∧
      (∀ n, n ≠ d → t'.acc n = t.acc n) ∧
      let S := (t.acc src).value
      let T := (t.acc u).value
      (t.acc d).written (t'.acc d) 0 rows (if fn < 5 then cols else 32)
        ((t.acc src).ovf = true ∨ ((fn = 1 ∨ fn = 2) ∧ (t.acc u).ovf = true)) merr fun i j v big =>
          (∀ f, fn = 0 → x = wrap (activationCode f : Nat) → ¬big ∧
            match f with
            | .relu => v = if (f32Of (S i j)).isNan then 0x7FC00000 else if 0 < f32Place (S i j).toNat then S i j else 0
            | .gelu => v = (special .gelu 0 (S i j)).1
            | .silu => v = (special .silu 0 (S i j)).1
            | .sigm => v = (special .sigm 0 (S i j)).1
            | .tanh => v = (special .tanh 0 (S i j)).1
            | .erf => v = (special .erf 0 (S i j)).1) ∧
          (fn = 1 → addsTo (S i j) (f32Of (T i j)) v big) ∧ (fn = 2 → timesTo (S i j) (T i j) v big) ∧
          (fn = 3 → timesTo (S i j) x v big) ∧
          (fn = 4 → addsTo (S i j) (f32Of (wrap (imageField (s.storeByte t 0 x.toNat) (4 * j) 4 : Nat))) v big) ∧
          (fn = 5 → (j = 0 → chainsTo (S i 0) (cols - 1) (fun n => f32Of (S i (n + 1))) v big) ∧ (j ≠ 0 → v = 0 ∧ ¬big)) ∧
          (fn = 6 → ¬big ∧
            let nan (n : Nat) : Prop := (f32Of (S i n)).isNan = true
            let top (n : Nat) : Prop :=
              n < cols ∧ (nan n ∨ ∀ p, p < cols → ¬nan p ∧ f32Place (S i p).toNat ≤ f32Place (S i n).toNat)
            ∃ n, top n ∧ (∀ p, p < n → ¬top p) ∧ (j = 0 → v = if (f32Of (S i n)).isNan then 0x7FC00000 else S i n) ∧
              (j = 1 → (f32Of v).finite ∧ (f32Of v).real = n ∧ v.msb = false) ∧ (1 < j → v = 0))

/-- R286, R297, R298 and R300: `tmovi` and `tdmap` read the stores, and `tmovo` writes the sectors of the canonical image, any number of
them in one turn. -/
def Sys2Proof.Claims.TileMoves : Prop :=
  ∀ (s : State) (core slot replays k : Nat) (g : Machine.Group) (t : Team) (o : Op) (w : MatrixWork),
    s.matrixTurns core slot k g t o w →
    (∀ n sh space a, w = .tmovi n sh space a →
      ∃ s' t', exec (.matrixOperationBegin core slot replays) s = .next s' ∧ s'.mem = s.mem ∧ t'.accs = t.accs ∧
        (∀ j, j ≠ n → t'.tile j = t.tile j) ∧ (t.tile n).loads (t'.tile n) sh (s.storeByte t space a) ∧
        ∃ merr : BitVec 4, (sh.matched (s.storeByte t space a) → merr = 0) ∧ (¬sh.matched (s.storeByte t space a) → merr = 1) ∧
          s.matrixLeaves s' core slot g t t' { o with phase := .done 0, merr := o.merr ||| merr }) ∧
    (∀ n sh at_, w = .tdmap n sh at_ →
      ∃ s' t' merr, exec (.matrixOperationBegin core slot replays) s = .next s' ∧ s'.mem = s.mem ∧ t'.accs = t.accs ∧
        (∀ j, j ≠ n → t'.tile j = t.tile j) ∧
        s.matrixLeaves s' core slot g t t' { o with phase := .done 0, merr := o.merr ||| merr } ∧
        let cleared (dup : Nat) (map : List Byte) : Prop := merr = 0 ∧ t'.tile n = { t.tile n with dup := dup, map := map }
        (at_ = none → cleared 0 (List.replicate 32 0xFF)) ∧
        ∀ a, at_ = some a →
          let b := s.storeByte t 0 a
          let valid (D : Nat) : Prop := D ≤ sh.dupcap ∧ D ≤ 32 ∧ ∀ i, i < 32 →
            (i < D → b i ≠ 0xFF ∧ (b i).toNat < sh.kbase) ∧ (D ≤ i → b i = 0xFF)
          (∀ D, valid D → cleared D ((List.range 32).map b)) ∧ ((∀ D, ¬valid D) → merr = 1 ∧ t'.tile n = t.tile n)) ∧
    ∀ n sh space a, w = .tmovo n sh space a → s.mem.wf = true → sh.rows ≤ 256 → sh.cols ≤ 256 → sh.cols % 32 = 0 → 1 ≤ sh.width →
      sh.width ≤ 8 → (t.tile n).dup ≤ 32 → (sh.mapped = true → (t.tile n).map.length = 32) → o.written ≤ sh.imageSize / 32 →
      let d := t.tile n
      let blocks := sh.rows * sh.cols / 32
      let exps := if sh.mapped then 64 else 32
      let elems := exps + (blocks + 31) / 32 * 32
      ∃ (s' : State) (count : Nat) (merr : BitVec 4) (img : Nat → Byte) (nanblk : Bool),
        exec (.matrixOperationBegin core slot replays) s = .next s' ∧ count ≤ sh.imageSize / 32 - o.written ∧
        s.imageWritten s' t space a sh.imageSize o.written count img ∧
        s.matrixLeaves s' core slot g t t
          (if o.written + count = sh.imageSize / 32 then
            { o with phase := .done 0, merr := o.merr ||| merr, written := o.written + count }
          else { o with phase := .begun, written := o.written + count }) ∧
        (⟨sh.rows, sh.cols, sh.width, sh.axis, if sh.mapped then d.dup else 0, sh.mapped, nanblk, false, false⟩ : ImageHead).laid img ∧
        (nanblk = true ↔ ∃ b, b < blocks ∧ d.exps.getZ b = 0xFF) ∧ merr = (if nanblk then 8 else 0) ∧
        (sh.mapped = true → ∀ i, i < 32 → img (32 + i) = d.map.getD i 0) ∧
        (∀ b, exps + b < elems → img (exps + b) = if b < blocks then d.exps.getZ b else 0) ∧
        ∀ i, i < sh.rows * sh.cols → (img (elems + i)).toInt = signedOf sh.width (d.mants.getZ i).toNat

/-- R286, R301 and R302: `afil` fills an accumulator from an image, and `adrn` writes the sectors of the image of one, any number of them
in one turn. -/
def Sys2Proof.Claims.AccumulatorMoves : Prop :=
  ∀ (s : State) (core slot replays k : Nat) (g : Machine.Group) (t : Team) (o : Op) (w : MatrixWork),
    s.matrixTurns core slot k g t o w →
    (∀ n rows cols space a, w = .afil n rows cols space a → cols ≤ 256 →
      ∃ s' t' merr, exec (.matrixOperationBegin core slot replays) s = .next s' ∧ s'.mem = s.mem ∧ t'.tiles = t.tiles ∧
        (∀ j, j ≠ n → t'.acc j = t.acc j) ∧ (t'.acc n).ovf = false ∧
        s.matrixLeaves s' core slot g t t' { o with phase := .done 0, merr := o.merr ||| merr } ∧
        (∀ i j, j < 256 → ¬(i < rows ∧ j < cols) → (t'.acc n).value i j = (t.acc n).value i j) ∧
        let b := s.storeByte t space a
        let fits (h : ImageHead) : Prop :=
          readHead ((List.range 32).map b) = some h ∧ h.mapped = false ∧ h.rows = rows ∧ h.cols = cols ∧
            a + h.size ≤ s.storeEnd t space
        (∀ h, fits h →
          (∀ i j, i < rows → j < cols → (h.kind = 0x10 → (t'.acc n).value i j = wrap (imageField b (h.elemsAt + 4 * (i * cols + j)) 4 : Nat)) ∧
            (h.kind ≠ 0x10 → ∃ x : Machine.Num, h.element b i j x ∧ x.roundsTo ((t'.acc n).value i j) False)) ∧
          (merr = 0 ∨ merr = 8) ∧ (merr = 8 ↔ ∃ i j, i < rows ∧ j < cols ∧ (f32Of ((t'.acc n).value i j)).isNan = true)) ∧
        ((∀ h, ¬fits h) → merr = 1 ∧ ∀ i j, i < rows → j < cols → (t'.acc n).value i j = 0x7FC00000)) ∧
    ∀ n rows cols space a fmt width axis, w = .adrn n rows cols space a fmt width axis → s.mem.wf = true → 1 ≤ rows → rows ≤ 256 →
      cols ≤ 256 → cols % 32 = 0 → fmt ≤ 3 → 2 ≤ width → width ≤ 8 → (axis = true → fmt = 3 ∧ rows % 32 = 0) →
      ∀ (kind size elems : Nat), kind = (if fmt = 0 then 0x10 else if fmt = 1 then 0x11 else if fmt = 2 then 0x12 else width) →
      elems = (if fmt = 3 then 32 + (rows * cols / 32 + 31) / 32 * 32 else 32) →
      size = elems + rows * cols * (if fmt = 0 then 4 else if fmt = 3 then 1 else 2) → o.written ≤ size / 32 →
      let d := t.acc n
      ∃ (s' : State) (count : Nat) (merr : BitVec 4) (img : Nat → Byte) (nanblk sat big : Bool),
        exec (.matrixOperationBegin core slot replays) s = .next s' ∧ count ≤ size / 32 - o.written ∧
        s.imageWritten s' t space a size o.written count img ∧
        s.matrixLeaves s' core slot g t t
          (if o.written + count = size / 32 then
            { o with phase := .done 0, merr := o.merr ||| merr, written := o.written + count }
          else { o with phase := .begun, written := o.written + count }) ∧
        (⟨rows, cols, kind, axis, 0, false, nanblk, d.ovf || sat || big, false⟩ : ImageHead).laid img ∧
        merr = (if big then 4 else 0) + (if nanblk then 8 else 0) ∧
        (fmt = 0 → big = false ∧ sat = false ∧
          ∀ i j, i < rows → j < cols → imageField img (elems + 4 * (i * cols + j)) 4 = (d.value i j).toNat) ∧
        (∀ F : Fmt, (fmt = 1 ∧ F = bf16) ∨ (fmt = 2 ∧ F = f16) → sat = false ∧
          (big = true ↔ ∃ i j, i < rows ∧ j < cols ∧ (roundTo F false (f32Of (d.value i j)) .rne).2 &&& flagOF ≠ 0) ∧
          ∀ i j, i < rows → j < cols →
            imageField img (elems + 2 * (i * cols + j)) 2 = (roundTo F false (f32Of (d.value i j)) .rne).1) ∧
        (fmt < 3 → (nanblk = true ↔ ∃ i j, i < rows ∧ j < cols ∧ (f32Of (d.value i j)).isNan = true)) ∧
        (fmt = 3 → big = false ∧ ∃ marks sats : Nat → Nat → Prop,
          let lines := if axis then cols else rows
          let each := if axis then rows / 32 else cols / 32
          (∀ l b, l < lines → b < each →
            let cell (i : Nat) : Nat × Nat := blockCell axis l b i
            blockIs width (fun i => f32Of (d.value (cell i).1 (cell i).2)) (fun _ => .rne) (img (32 + blockNumber axis cols l b)).toNat
              (fun i => (img (elems + ((cell i).1 * cols + (cell i).2))).toInt) (marks l b) (sats l b)) ∧
          (nanblk = true ↔ ∃ l b, l < lines ∧ b < each ∧ marks l b) ∧ (sat = true ↔ ∃ l b, l < lines ∧ b < each ∧ sats l b) ∧
          ∀ i, rows * cols / 32 ≤ i → 32 + i < elems → img (32 + i) = 0)

/-- R118, R281, R283, R299, R304 and R308: the matrix engine's turn for the oldest operation of a group that is not done, accepted and not
parked on anything: a skipped one ends with 0, a cancelled one with the word of R118, `tcfg` and `tzero` clear their tile, `azero` and `acpy`
write their accumulator. -/
def Sys2Proof.Claims.MatrixTurn : Prop :=
  ∀ (s : State) (core slot replays k : Nat) (g : Machine.Group) (t : Team) (o : Op) (w : MatrixWork),
    s.groups.find (slotKey core slot) = some g → s.teams.find g.team = some t → (s.debugOf core).frozen = false →
    g.nextMatrix = some (k, o) → o.cmd = .matrix w none → (∀ p ∈ (g.cls 1).ops, p.order ≠ 0) →
    let turn := exec (.matrixOperationBegin core slot replays) s
    (w = .skipped → ∃ s', turn = .next s' ∧ s'.teams.find g.team = some t ∧
      (∃ g', s'.groups.find (slotKey core slot) = some g' ∧ g.opBecomes g' 1 { o with phase := .done 0 } ∧
        { g' with classes := g.classes } = g) ∧ { s' with groups := s.groups, teams := s.teams } = s) ∧
    (w ≠ .skipped → o.cancel = true → o.phase = .issued → ∃ s', turn = .next s' ∧ s'.teams.find g.team = some t ∧
      (∃ g', s'.groups.find (slotKey core slot) = some g' ∧ g.opBecomes g' 1 { o with phase := .done 0x80000000 } ∧
        { g' with classes := g.classes } = g) ∧ { s' with groups := s.groups, teams := s.teams } = s) ∧
    (o.cancel = false → s.signatureFirst g.team o = false →
      (∃ n, w = .tcfg n ∨ w = .tzero n ∨ w = .azero n ∨ ∃ src u rows cols, w = .aop 7 n src u rows cols 0) →
      ∃ (s' : State) (g' : Machine.Group) (t' : Team) (merr : BitVec 4), turn = .next s' ∧
        s'.groups.find (slotKey core slot) = some g' ∧ s'.teams.find g.team = some t' ∧
        g.opBecomes g' 1 { o with phase := .done 0, merr := o.merr ||| merr } ∧
        { g' with classes := g.classes, openLevel := g.openLevel, openReplays := g.openReplays, batches := g.batches } = g ∧
        { t' with tiles := t.tiles, accs := t.accs } = t ∧
        { s' with groups := s.groups, teams := s.teams, margins := s.margins } = s ∧
        (∀ n, w = .tcfg n ∨ w = .tzero n → merr = 0 ∧ t'.tile n = ⟨0, List.replicate 32 0xFF, Map.empty, Map.empty⟩ ∧
          (∀ j, j ≠ n → t'.tile j = t.tile j) ∧ t'.accs = t.accs) ∧
        (∀ n, w = .azero n → merr = 0 ∧ t'.acc n = ⟨false, Map.empty⟩ ∧ (∀ j, j ≠ n → t'.acc j = t.acc j) ∧ t'.tiles = t.tiles) ∧
        ∀ n src u rows cols, w = .aop 7 n src u rows cols 0 → cols ≤ 256 → t'.tiles = t.tiles ∧
          (∀ j, j ≠ n → t'.acc j = t.acc j) ∧ (t'.acc n).ovf = (t.acc src).ovf ∧
          ∀ i j, j < 256 → (t'.acc n).value i j = if i < rows ∧ j < cols then (t.acc src).value i j else (t.acc n).value i j)

/-- R313: a sealed batch whose last operation has retired ends; the core's level falls by one where too few beats were clean. -/
def Sys2Proof.Claims.BatchEnds : Prop :=
  ∀ (s : State) (core slot beats : Nat) (g : Machine.Group) (b : Batch) (rest : List Batch),
    s.groups.find (slotKey core slot) = some g → g.batches = b :: rest → (∀ o ∈ (g.cls 1).ops, o.seq ≠ b.last) →
    ∃ s', exec (.batchEnd core slot beats) s = .next s' ∧
      s'.groups.find (slotKey core slot) = some { g with batches := rest } ∧
      (∀ k, k ≠ slotKey core slot → s'.groups.find k = s.groups.find k) ∧
      s'.margin core = (if beats < 4096 * b.replays ∧ 0 < (s.margin core).level
        then { s.margin core with level := (s.margin core).level - 1, stepdn := true } else s.margin core) ∧
      (∀ c, c ≠ core → s'.margin c = s.margin c) ∧ { s' with groups := s.groups, margins := s.margins } = s

/-- The matrix engine's turn performs each class 1 operation: products, accumulator operations, moves, fills and drains, or ends a skipped
or cancelled one; BATCH_END ends a sealed batch (R118, R233, R234, R236, R281, R283, R286, R288 to R290, R294, R295, R297 to R304, R308,
R313). How many sectors of an image a turn writes is open (R286), and the model's free choice (notes/assumptions/23.md). -/
def Obligations.MatrixTurn : Prop :=
  Sys2Proof.Claims.MatrixTurn ∧ Sys2Proof.Claims.BatchEnds ∧ Sys2Proof.Claims.ImageHeaders ∧ Sys2Proof.Claims.MatrixProducts ∧
    Sys2Proof.Claims.AccumulatorOps ∧ Sys2Proof.Claims.TileMoves ∧ Sys2Proof.Claims.AccumulatorMoves

/-- A turn of the copy engine for a byte move inside the unit store whose ranges share no byte (R259, R270, R271): n more sectors from
sector k on hold what their sources hold, no other byte changes, and the move ends with a result of 0 after its last sector.
How many sectors a turn writes is open (R276); here it is the model's free choice. -/
def Sys2Proof.Claims.MoveTurn : Prop :=
  ∀ (s : State) (core agent k : Nat) (e : CopyEnv) (o : Op) (c : CopyCmd), agent < 66 → (s.debugOf core).frozen = false →
    s.copyEnv core agent = some e → s.copyOps core agent = [o] → o.cmd = .copy c → o.parked = none → o.cancel = false →
    (o.phase = .begun ∨ o.phase = .issued) → c.fn = 4 → c.slotAddr = none → c.fetch = 0 → c.desc.ring = false →
    c.desc.sspace = 0 → c.desc.dspace = 0 → c.desc.img % 32 = 0 → c.desc.dst % 32 = 0 → c.desc.len % 32 = 0 →
    c.desc.img + c.desc.len ≤ e.team.kernel.unit → c.desc.dst + c.desc.len ≤ e.team.kernel.unit →
    (c.desc.img + c.desc.len ≤ c.desc.dst ∨ c.desc.dst + c.desc.len ≤ c.desc.img) →
    c.done = k → 32 * k < c.desc.len → c.buffer = [] → c.flags = ⟨false, false, false, 0⟩ → c.looks = [] → s.mem.wf = true →
    let n := s.sectorBudget (c.desc.len / 32 - k)
    let at_ (a : Nat) : Nat := unitKey e.team.core (e.team.base + a)
    n ≤ c.desc.len / 32 - k ∧
    ∃ s', exec (.copyTransferStart core agent) s = .next s' ∧
      (∀ i, 32 * k ≤ i → i < 32 * (k + n) → s'.mem.byte (at_ (c.desc.dst + i)) = s.mem.byte (at_ (c.desc.img + i))) ∧
      (∀ b, (b < at_ (c.desc.dst + 32 * k) ∨ at_ (c.desc.dst + 32 * (k + n)) ≤ b) → s'.mem.byte b = s.mem.byte b) ∧
      s'.copyOps core agent = [{ o with
        phase := if 32 * (k + n) = c.desc.len then .done 0 else .begun
        cmd := .copy { c with started := true, done := k + n } }] ∧
      (∀ j, (64 ≤ agent ∨ j ≠ slotKey core agent) → s'.groups.find j = s.groups.find j) ∧
      { s' with groups := s.groups, hods := s.hods, mem := s.mem, scoreboard := s.scoreboard } = s

namespace Sys2Proof.Machine

/-! ### Tensors and transfers (06) -/

/-- What R238 and R239 make of the fields that a transfer uses. -/
def LayoutRec.legal (r : LayoutRec) : Prop :=
  1 ≤ r.rank ∧ r.rank ≤ 4 ∧ 1 ≤ r.boxr ∧ r.boxr ≤ 256 ∧ 32 ≤ r.boxc ∧ r.boxc ≤ 256 ∧ r.boxc % 32 = 0 ∧ 2 ≤ r.cw ∧ r.cw ≤ 8 ∧
    ((2 ≤ r.format ∧ r.format ≤ 8) ∨ (0x10 ≤ r.format ∧ r.format ≤ 0x15) ∨ (0x20 ≤ r.format ∧ r.format ≤ 0x26)) ∧ r.space ≤ 2 ∧
    r.rowdim < 4 ∧ r.coldim < 4 ∧ r.rowdim ≠ r.coldim ∧ (r.axis = true → r.boxr % 32 = 0) ∧
    (r.osplit = true → r.axis = false ∧ r.boxc ≤ 224 ∧ 0 < r.thresh ∧ r.thresh < 0x7C00) ∧
    (r.format ≤ 0x15 → r.size.getD 0 0 % 32 = 0) ∧ ∀ k, k < r.rank → 1 ≤ r.size.getD k 1
/-- Bits of an element of a storage format (R244). -/
def storageBits (f : Nat) : Nat :=
  if f ≤ 8 then f
  else if f = 0x12 ∨ f = 0x13 then 6
  else if f = 0x14 ∨ f = 0x26 then 4
  else if f = 0x22 ∨ f = 0x23 then 16
  else if f = 0x24 then 32
  else 8
/-- The size of a dimension (R240, R243). -/
def LayoutRec.sizeOf (r : LayoutRec) (k : Nat) : Nat := if k < r.rank then r.size.getD k 1 else 1
/-- A(i), before the db register, and where the scale byte of an element's block lies (R240). -/
def LayoutRec.bitAt (r : LayoutRec) (i : Nat → Nat) : Int :=
  8 * ((r.base : Int) + i 1 * r.stride.getD 0 0 + i 2 * r.stride.getD 1 0 + i 3 * r.stride.getD 2 0) + (i 0 * storageBits r.format : Nat)
def LayoutRec.scaleAt (r : LayoutRec) (i : Nat → Nat) : Int :=
  (r.scale + i 0 / 32 + r.size.getD 0 1 / 32 * (i 1 + r.sizeOf 1 * (i 2 + r.sizeOf 2 * i 3)) : Nat)
/-- The byte address of a tensor's byte (R240). -/
def CopyEnv.byteAt (e : CopyEnv) (r : LayoutRec) (a : Int) (p : Nat) : Prop :=
  (r.space = 0 → (p : Int) = (a + ((e.launch.db.getD r.db 0).toNat : Int)) % 2 ^ 64) ∧ (r.space ≠ 0 → (p : Int) = a)
/-- The number in n bytes of a tensor. -/
def State.tensorBytes (s : State) (e : CopyEnv) (r : LayoutRec) (a : Int) (n v : Nat) : Prop :=
  ∃ p ps, e.byteAt r a p ∧ s.copyPlaces e .read ([3, 1, 0].getD r.space 0) p n = .ok ps ∧ (∀ q ∈ ps, s.lostSite q.2 = none) ∧
    v = leNat (ps.map fun q => s.mem.byte q.1)

/-- ±2^emin × F or ±2^(emin + E − 1) × (1 + F), as the fields of a small code say (R143, R244). -/
def smallCode (ebits fbits : Nat) (emin : Int) (v : Nat) : ℚ :=
  let q := v / 2 ^ fbits % 2 ^ ebits
  let f : ℚ := ((v % 2 ^ fbits : Nat) : ℚ) / 2 ^ fbits
  (if v.testBit (ebits + fbits) then -1 else 1) *
    if q = 0 then (2 : ℚ) ^ emin * f else (2 : ℚ) ^ (emin + (q : Int) - 1) * (1 + f)
/-- The decoded value of a stored code v with scale byte sc (R244). -/
def storedAs (f v sc : Nat) (x : Num) : Prop :=
  let exactly (y : ℚ) : Prop := x.finite ∧ x.real = y
  let scale : ℚ := (2 : ℚ) ^ ((sc : Int) - 127)
  (f ≤ 0x15 ∧ sc = 0xFF → x.isNan = true) ∧
  (f ≤ 0x15 ∧ sc ≠ 0xFF →
    (f ≤ 8 → exactly ((signedOf f v : ℚ) * (2 : ℚ) ^ ((sc : Int) - 127 - ((f : Int) - 1)))) ∧
    (∀ F : Fmt, (f = 0x10 ∧ F = e4m3) ∨ (f = 0x11 ∧ F = e5m2) →
      ((decodeNum F false v).finite → exactly (scale * (decodeNum F false v).real)) ∧
      (¬(decodeNum F false v).finite → x = decodeNum F false v)) ∧
    (f = 0x12 → exactly (scale * smallCode 2 3 0 v)) ∧ (f = 0x13 → exactly (scale * smallCode 3 2 (-2) v)) ∧
    (f = 0x14 → exactly (scale * smallCode 2 1 0 v)) ∧ (f = 0x15 → exactly (scale * ((signedOf 8 v : ℚ) / 2 ^ 6)))) ∧
  (∀ F : Fmt, (f = 0x20 ∧ F = e4m3) ∨ (f = 0x21 ∧ F = e5m2) ∨ (f = 0x22 ∧ F = f16) ∨ (f = 0x23 ∧ F = bf16) ∨ (f = 0x24 ∧ F = f32) →
    x = decodeNum F false v) ∧
  (f = 0x25 → exactly (signedOf 8 v : ℚ)) ∧ (f = 0x26 → exactly (signedOf 4 v : ℚ))
/-- Element i of a record's tensor holds x (R240, R244). -/
def State.tensorHolds (s : State) (e : CopyEnv) (r : LayoutRec) (i : Nat → Nat) (x : Num) : Prop :=
  let bits := storageBits r.format
  let a := r.bitAt i
  ∃ v sc, s.tensorBytes e r (a / 8) (((a % 8).toNat + bits + 7) / 8) v ∧
    (r.format ≤ 0x15 → s.tensorBytes e r (r.scaleAt i) 1 sc) ∧ storedAs r.format (v / 2 ^ (a % 8).toNat % 2 ^ bits) sc x
/-- Mirror (R243). -/
def mirrored (sym : Bool) (n : Nat) (i : Int) (j : Nat) : Prop :=
  (n ≤ 1 → j = 0) ∧ (1 < n →
    let k := i % (if sym then 2 * (n : Int) else 2 * (n : Int) - 2)
    (j : Int) = if k < n then k else (if sym then 2 * (n : Int) - 1 else 2 * (n : Int) - 2) - k)
/-- The coordinate of a box element at a row offset and column (R247). -/
def CopyCmd.coordinate (c : CopyCmd) (r : LayoutRec) (off : Int) (col k : Nat) : Int :=
  r.origin.getD k 0 + c.desc.origin.getD k 0 + (if k = r.rowdim then off else 0) + (if k = r.coldim then (col : Int) else 0)
/-- The rounding of the value at image row and column (R251); tag is 2 into an image and 3 out of one. -/
def CopyCmd.rounding (c : CopyCmd) (e : CopyEnv) (tag row col : Nat) : RMode :=
  if c.desc.stoch then .rs (keyedDraw e.launch.key (BitVec.ofNat 64 (tag * 2 ^ 60 + c.desc.salt * 2 ^ 16 + row * 2 ^ 8 + col))) else .rne

/-- Half of a value. -/
def Num.halves (x y : Num) : Prop := (x.finite → y.finite ∧ y.real = x.real / 2) ∧ (¬x.finite → y = x)
/-- The outlier split (R248): columns that split in ascending order, DUP, SPLITOVF, and the values after it. -/
def LayoutRec.splits (r : LayoutRec) (x y : Nat → Nat → Num) (cols : List Nat) (lost : Bool) : Prop :=
  ∃ out : List Nat, out.Pairwise (· < ·) ∧ cols = out.take 32 ∧ (lost = true ↔ 32 < out.length) ∧
    (∀ c, c ∈ out ↔ c < r.boxc ∧ ∃ i, i < r.boxr ∧ ((∃ n, x i c = .inf n) ∨
      ((x i c).finite ∧ (decodeNum f16 false r.thresh).real < |(x i c).real|))) ∧
    ∀ i, i < r.boxr →
      (∀ c, c < r.boxc → (c ∈ cols → (x i c).halves (y i c)) ∧ (c ∉ cols → y i c = x i c)) ∧
      ∀ j, j < 32 → (∀ d, cols[j]? = some d → (x i d).halves (y i (r.boxc + j))) ∧
        (cols.length ≤ j → (y i (r.boxc + j)).finite ∧ (y i (r.boxc + j)).real = 0)
/-- The image that box values x form in the lines that are listed, with its flags (R234, R247, R248, R256, R258). -/
def CopyCmd.forms (c : CopyCmd) (e : CopyEnv) (r : LayoutRec) (line : Nat → Prop) (x : Nat → Nat → Num) (img : Nat → Byte)
    (fl : CopyFlags) : Prop :=
  let cols := r.boxc + (if r.osplit then 32 else 0)
  let h : ImageHead := ⟨r.boxr, cols, r.cw, r.axis, fl.dup, r.osplit, fl.nanblk, fl.sat, fl.splitovf⟩
  let each := if r.axis then r.boxr / 32 else cols / 32
  h.laid img ∧ ∃ (y : Nat → Nat → Num) (dups : List Nat) (nan sat : Nat → Nat → Prop),
    (r.osplit = false → fl.dup = 0 ∧ fl.splitovf = false ∧ ∀ i j, y i j = x i j) ∧
    (r.osplit = true → r.splits x y dups fl.splitovf ∧ fl.dup = dups.length ∧
      ∀ j, j < 32 → (img (32 + j)).toNat = dups.getD j 0xFF) ∧
    (∀ l b, line l → b < each →
      let cell (i : Nat) : Nat × Nat := blockCell r.axis l b i
      blockIs r.cw (fun i => y (cell i).1 (cell i).2) (fun i => c.rounding e 2 (cell i).1 (cell i).2)
        (img (h.expsAt + blockNumber r.axis cols l b)).toNat (fun i => (img (h.elemsAt + ((cell i).1 * cols + (cell i).2))).toInt)
        (nan l b) (sat l b)) ∧
    (fl.nanblk = true ↔ ∃ l b, line l ∧ b < each ∧ nan l b) ∧ (fl.sat = true ↔ ∃ l b, line l ∧ b < each ∧ sat l b) ∧
    ∀ i, r.boxr * cols / 32 ≤ i → h.expsAt + i < h.elemsAt → img (h.expsAt + i) = 0

/-- A copy issued and not begun is its agent's one outstanding copy, and the copy engine may turn to it. -/
def State.copyBegins (s : State) (core agent : Nat) (e : CopyEnv) (o : Op) (c : CopyCmd) : Prop :=
  agent < 66 ∧ (s.debugOf core).frozen = false ∧ s.copyEnv core agent = some e ∧ e.team.core = core ∧ s.copyOps core agent = [o] ∧
    o.cmd = .copy c ∧ o.parked = none ∧ o.cancel = false ∧ o.phase = .issued ∧ c.started = false ∧ c.done = 0 ∧ c.buffer = [] ∧
    c.flags = ⟨false, false, false, 0⟩ ∧ c.looks = [] ∧ c.fetch = 0 ∧ s.mem.wf = true
/-- The record that a copy uses: as read at issue, or read now through its handle or from rodata (R241). -/
def State.copyUses (s : State) (e : CopyEnv) (c : CopyCmd) (r : LayoutRec) : Prop :=
  r.legal ∧ (c.record = some r ∨ (c.record = none ∧ ∃ a ps,
    ((c.desc.lrec / 2 ^ 30 = 1 ∧ c.desc.lrec % 2 ^ 20 < e.launch.lrtn ∧ a = e.launch.lrt.toNat + 64 * (c.desc.lrec % 2 ^ 20)) ∨
      (c.desc.lrec / 2 ^ 30 = 2 ∧ c.desc.lrec % 64 = 0 ∧ a = (e.launch.db.getD 0 0).toNat + c.desc.lrec % 2 ^ 30)) ∧
    s.copyPlaces e .read 3 (a % 2 ^ 64) 64 = .ok ps ∧ (∀ q ∈ ps, s.lostSite q.2 = none) ∧
    readLayout (ps.map fun q => s.mem.byte q.1) = some r))
/-- Where the bytes of the unit store (0), the die-store window (1) and the core's unit store by its physical addresses (4) lie, and where
it ends. -/
def CopyEnv.storePlace (e : CopyEnv) (space stop : Nat) (key : Nat → Nat) : Prop :=
  (space = 0 ∧ stop = e.team.kernel.unit ∧ ∀ i, key i = unitKey e.core (e.team.base + i)) ∨
  (space = 1 ∧ stop = e.launch.dieWin ∧ ∃ b, e.launch.windows.find (dieOf e.core) = some b ∧ ∀ i, key i = dieKey (dieOf e.core) (b + i)) ∨
  (space = 4 ∧ ∀ i, key i = unitKey e.core i)
/-- The image that a copy writes has size bytes at a of a space: a ring slot, or IMG or DST (R255, R256). -/
def State.imagePlace (s : State) (e : CopyEnv) (c : CopyCmd) (space a size : Nat) (key : Nat → Nat) : Prop :=
  a % 32 = 0 ∧ ∃ stop, e.storePlace space stop key ∧
    ((c.slotAddr = some a ∧ space = 4 ∧ size ≤ (s.ring e.core c.desc.rnum).slotsz) ∨
      (c.slotAddr = none ∧ space < 2 ∧ (space, a) = (if c.fn = 5 then (c.desc.dspace, c.desc.dst) else (c.desc.ispace, c.desc.img)) ∧
        a + size ≤ stop))
/-- Where a copy writes: whatever sectors are written, an address lies at key of it, and no two at one place. -/
def State.mayWrite (s : State) (e : CopyEnv) (space : Nat) (key : Nat → Nat) (w : Nat → Nat → Prop) : Prop :=
  (∀ a n, (∃ j, j < 8 ∧ w a j) → (∃ j, j < 8 ∧ w (a + n) j) → a / 32 = (a + n) / 32 →
    ∃ ps, s.copyPlaces e .write space a (n + 1) = .ok ps ∧ (∀ q ∈ ps, s.lostSite q.2 = none) ∧
      ∀ i, i ≤ n → (ps[i]?).map (·.1) = some (key (a + i))) ∧
  ∀ a b i j, i < 8 → j < 8 → w a i → w b j → key a = key b → a = b

/-- Of the bits w that a copy has to write, with values f, those in the first n of the listed sectors are written, and no other (R270). -/
def State.sectorsWritten (s s' : State) (key : Nat → Nat) (l : List Nat) (n : Nat) (w : Nat → Nat → Prop) (f : Nat → Nat → Bool) : Prop :=
  l.Pairwise (· < ·) ∧ (∀ a, a ∈ l ↔ ∃ i j, j < 8 ∧ w i j ∧ i / 32 = a) ∧
  (∀ i j, j < 8 → w i j → i / 32 ∈ l.take n → (s'.mem.byte (key i)).getLsbD j = f i j) ∧
  ∀ b j, j < 8 → (∀ i, w i j → i / 32 ∈ l.take n → key i ≠ b) → (s'.mem.byte b).getLsbD j = (s.mem.byte b).getLsbD j
/-- The copy engine's first turn for a copy: it writes as many sectors as the turn brings, and ends the copy with the last one, with its
flags (R261, R270, R276). -/
def State.copyTurned (s s' : State) (e : CopyEnv) (o : Op) (l : List Nat) (fl : CopyFlags) : Prop :=
  let n := s.sectorBudget l.length
  n ≤ l.length ∧
  (∃ o', s'.copyOps e.core e.agent = [o'] ∧ { o' with phase := o.phase, cmd := o.cmd } = o ∧
    (n = l.length → o'.phase = .done
      (wrap (fl.splitovf.toNat * 2 ^ 15 + fl.nanblk.toNat * 2 ^ 14 + fl.sat.toNat * 2 ^ 13 + fl.dup : Nat))) ∧
    (n < l.length → o'.phase = .begun ∧ ∃ c', o'.cmd = .copy c' ∧ c'.done = n ∧ c'.started = true)) ∧
  (∀ j, (64 ≤ e.agent ∨ j ≠ slotKey e.core e.agent) → s'.groups.find j = s.groups.find j) ∧
  { s' with groups := s.groups, hods := s.hods, mem := s.mem, scoreboard := s.scoreboard, tlb := s.tlb } = s

/-- One value as a plain format stores it (R249): its code, and whether NANBLK and SAT arise. -/
def plainCode (f : Nat) (x : Num) (mode : RMode) (code : Nat) (nan sat : Prop) : Prop :=
  (nan ↔ x.isNan = true) ∧
  (∀ F : Fmt, (f = 0x20 ∧ F = e4m3) ∨ (f = 0x21 ∧ F = e5m2) ∨ (f = 0x22 ∧ F = f16) ∨ (f = 0x23 ∧ F = bf16) ∨ (f = 0x24 ∧ F = f32) →
    code = (roundTo F false x mode).1 ∧ (sat ↔ (roundTo F false x mode).2 &&& (flagOF ||| flagNV) ≠ 0)) ∧
  ∀ n : Nat, (f = 0x25 ∧ n = 8) ∨ (f = 0x26 ∧ n = 4) →
    let v := roundToInt (-2 ^ (n - 1)) (2 ^ (n - 1) - 1) x mode
    (code : Int) = v.1 % 2 ^ n ∧ (sat ↔ ¬nan ∧ v.2 &&& flagNV ≠ 0)
/-- The MX element formats: exponent and fraction bits, e_min, the largest value and emax (R250). -/
inductive MxRow : Nat → Nat → Nat → Int → ℚ → Int → Prop
  | e4m3 : MxRow 0x10 4 3 (-6) 448 8
  | e5m2 : MxRow 0x11 5 2 (-14) 57344 15
  | e2m3 : MxRow 0x12 2 3 0 (15 / 2) 2
  | e3m2 : MxRow 0x13 3 2 (-2) 28 4
  | e2m1 : MxRow 0x14 2 1 0 6 2
/-- A storage block of 32 values: its codes, its scale byte, and whether NANBLK and SAT arise (R249, R250). -/
def blockCodes (f : Nat) (xs : Nat → Num) (mode : Nat → RMode) (code : Nat → Nat) (scale : Nat) (nan sat : Prop) : Prop :=
  (f ≤ 8 → ∃ m : Nat → Int, blockIs f xs mode scale m nan sat ∧ ∀ j, j < 32 → (code j : Int) = m j % 2 ^ f) ∧
  (8 < f →
    ((∃ j, j < 32 ∧ ¬(xs j).finite) → scale = 0xFF ∧ (∀ j, j < 32 → code j = 0) ∧ nan ∧ ¬sat) ∧
    ((∀ j, j < 32 → (xs j).finite) → ¬nan ∧
      ((∀ j, j < 32 → (xs j).real = 0) → scale = 0x7F ∧ (∀ j, j < 32 → code j = 0) ∧ ¬sat) ∧
      ∀ top : Int, (∃ j, j < 32 ∧ (xs j).real ≠ 0 ∧ Int.log 2 |(xs j).real| = top) →
        (∀ j, j < 32 → (xs j).real ≠ 0 → Int.log 2 |(xs j).real| ≤ top) →
        (f = 0x15 →
          let raw (j : Nat) : Int := roundReal ((xs j).real / (2 : ℚ) ^ ((scale : Int) - 127) * 64) (mode j)
          (scale : Int) = max (-127) (min 127 top) + 127 ∧
            (∀ j, j < 32 → (code j : Int) = max (-128) (min 127 (raw j)) % 2 ^ 8) ∧
            (sat ↔ ∃ j, j < 32 ∧ (raw j < -128 ∨ 127 < raw j))) ∧
        ∀ (ebits fbits : Nat) (emin : Int) (largest : ℚ) (emax : Int), MxRow f ebits fbits emin largest emax →
          let y (j : Nat) : ℚ := (xs j).real / (2 : ℚ) ^ ((scale : Int) - 127)
          let step (j : Nat) : ℚ := (2 : ℚ) ^ (max emin (if y j = 0 then emin else Int.log 2 |y j|) - (fbits : Int))
          let z (j : Nat) : ℚ := step j * roundReal (y j / step j) (match mode j with
            | .rs d => if largest < |y j| then .rne else .rs d
            | other => other)
          (scale : Int) = max (-127) (min 127 (top - emax)) + 127 ∧
            (∀ j, j < 32 → code j < 2 ^ (1 + ebits + fbits) ∧
              (∀ n k p, xs j = .fin n k p → (code j).testBit (ebits + fbits) = n) ∧
              smallCode ebits fbits emin (code j) = max (-largest) (min largest (z j))) ∧
            (sat ↔ ∃ j, j < 32 ∧ largest < |z j|)))
/-- The value of column col of an image once its appended columns are added to it (R249). -/
def ImageHead.merges (h : ImageHead) (b : Nat → Byte) (row col : Nat) (x : Num) : Prop :=
  ∃ q : Nat → Num, (∀ c, c < h.cols → h.element b row c (q c)) ∧
    let own (j : Nat) : Prop := j < h.dup ∧ (b (32 + j)).toNat = col
    ((∀ j, ¬own j) → x = q col) ∧
    ((∃ j, own j) →
      ((((q col).isNan = true ∨ ∃ j, own j ∧ (q (h.kbase + j)).isNan = true) → x.isNan = true) ∧
      (((q col).isNan = false ∧ ∀ j, own j → (q (h.kbase + j)).isNan = false) →
        (∃ n m p, x = .fin n m p ∧ (m = 0 → n = false)) ∧
        x.real = (q col).real + ((List.range h.dup).map fun j =>
          if (b (32 + j)).toNat = col then (q (h.kbase + j)).real else 0).sum)))
/-- Of fields written one after another, each a bit place, a width and a value, what a bit is left with. -/
def lastBit (l : List (Nat × Nat × Nat)) (k : Nat) : Option Bool :=
  l.foldl (fun b f => if f.1 ≤ k ∧ k < f.1 + f.2.1 then some (f.2.2.testBit (k - f.1)) else b) none

end Sys2Proof.Machine

/-- R240, R243 to R248, R251, R256 and R258: `cpyi` and `cpyg` expand a tensor's box into an image; here the first turn of the copy engine for
one, which forms the image from its sources as they are and writes any number of its sectors (R276). -/
def Sys2Proof.Claims.CopyExpands : Prop :=
  ∀ (s : State) (core agent : Nat) (e : CopyEnv) (o : Op) (c : CopyCmd) (r : LayoutRec), s.copyBegins core agent e o c →
    (c.fn = 2 → c.rows = [] → ∃ s', exec (.copyTransferStart core agent) s = .next s' ∧ s'.mem = s.mem ∧
      s.copyTurned s' e o [] ⟨false, false, false, 0⟩) ∧
    (s.copyUses e c r → (c.fn = 0 ∨ (c.fn = 2 ∧ c.rows ≠ [] ∧ r.axis = false ∧ r.osplit = false ∧ c.desc.grow + c.rows.length ≤ r.boxr)) →
      ∀ (space a : Nat) (key : Nat → Nat) (x : Nat → Nat → Machine.Num),
      let cols := r.boxc + (if r.osplit then 32 else 0)
      let exps := 32 + (if r.osplit then 32 else 0)
      let elems := exps + (r.boxr * cols / 32 + 31) / 32 * 32
      let size := elems + r.boxr * cols
      s.imagePlace e c space a size key →
      (c.record = none → ∀ p n, a ≤ p → p + n ≤ a + size → s.outsideRanges e (space, p, n) = false) →
      let row (i : Nat) : Prop := if c.fn = 0 then i < r.boxr else c.desc.grow ≤ i ∧ i < c.desc.grow + c.rows.length
      let off (i : Nat) : Int := if c.fn = 0 then i else c.rows.getD (i - c.desc.grow) 0
      (∀ i col, row i → col < r.boxc → ∃ p : Nat → Nat,
        (∀ k, k < 4 → mirrored r.sym (r.sizeOf k) (c.coordinate r (off i) col k) (p k)) ∧ s.tensorHolds e r p (x i col)) →
      ∃ (s' : State) (l : List Nat) (img : Nat → Byte) (fl : CopyFlags),
        exec (.copyTransferStart core agent) s = .next s' ∧ s.copyTurned s' e o l fl ∧
        c.forms e r (fun n => if r.axis then n < cols else row n) x img fl ∧
        s.sectorsWritten s' key l (s.sectorBudget l.length)
          (fun i _ => a ≤ i ∧ i < a + size ∧ (c.fn = 0 ∨ i < a + 32 ∨ ∃ n, row n ∧
            ((a + exps + n * (r.boxc / 32) ≤ i ∧ i < a + exps + (n + 1) * (r.boxc / 32)) ∨
              (a + elems + n * r.boxc ≤ i ∧ i < a + elems + (n + 1) * r.boxc))))
          (fun i j => (img (i - a)).getLsbD j))

/-- R240, R247, R249 to R251, R257 and R258: `cpyo` and `cpys` compress an image into a tensor's box; here the first turn of the copy engine
for one, into a tensor whose elements lie apart. Where addresses go through translation it is stated for a turn of one sector. -/
def Sys2Proof.Claims.CopyPresses : Prop :=
  ∀ (s : State) (core agent : Nat) (e : CopyEnv) (o : Op) (c : CopyCmd) (r : LayoutRec), s.copyBegins core agent e o c →
    (c.fn = 3 → c.rows = [] → ∃ s', exec (.copyTransferStart core agent) s = .next s' ∧ s'.mem = s.mem ∧
      s.copyTurned s' e o [] ⟨false, false, false, 0⟩) ∧
    (s.copyUses e c r → (c.fn = 1 ∨ (c.fn = 3 ∧ c.rows ≠ [] ∧ r.axis = false ∧ r.osplit = false ∧ c.desc.grow + c.rows.length ≤ r.boxr)) →
      (r.format ≤ 0x15 → r.coldim = 0 ∧ (r.origin.getD 0 0 + c.desc.origin.getD 0 0) % 32 = 0) →
      ∀ (source key : Nat → Nat) (stop : Nat) (h : ImageHead), c.desc.ispace ≤ 1 → e.storePlace c.desc.ispace stop source →
      let b (i : Nat) : Byte := s.mem.byte (source (c.desc.img + i))
      readHead ((List.range 32).map b) = some h → c.desc.img + h.size ≤ stop → h.rows = r.boxr →
      h.cols = r.boxc + (if h.mapped then 32 else 0) →
      ∀ (x : Nat → Nat → Machine.Num), (∀ i col, i < r.boxr → col < r.boxc → h.merges b i col (x i col)) →
      ∀ (code scale : Nat → Nat → Nat) (nan sat : Nat → Nat → Prop) (byteOf : Int → Nat),
      let wide := if r.format ≤ 0x15 then 32 else 1
      let bits := storageBits r.format
      let rows : List (Nat × Int) := if c.fn = 1 then (List.range r.boxr).map fun i => (i, (i : Int))
        else (List.range c.rows.length).map fun j => (c.desc.grow + j, c.rows.getD j 0)
      let place (off : Int) (b : Nat) (k : Nat) : Int := c.coordinate r off (wide * b) k
      let inside (off : Int) (b : Nat) : Bool :=
        (List.range 4).all fun k => Decidable.decide (0 ≤ place off b k ∧ place off b k < r.sizeOf k)
      let at_ (off : Int) (b : Nat) : Nat → Nat := fun k => (place off b k).toNat
      let fieldsOf (p : Nat × Int) (b : Nat) : List (Int × Nat × Nat) :=
        if inside p.2 b then
          ((List.range wide).map fun j => (r.bitAt (at_ p.2 b) + (j * bits : Nat), bits, code p.1 (wide * b + j))) ++
            (if r.format ≤ 0x15 then [(8 * r.scaleAt (at_ p.2 b), 8, scale p.1 b)] else [])
        else []
      let fields := rows.flatMap fun p => (List.range (r.boxc / wide)).flatMap (fieldsOf p)
      let bitOf (f : Int × Nat × Nat) : Nat := 8 * byteOf (f.1 / 8) + (f.1 % 8).toNat
      let written := fields.map fun f => (bitOf f, f.2.1, f.2.2)
      let covers (i j : Nat) : Prop := (lastBit written (8 * i + j)).isSome = true
      let space := [3, 1, 0].getD r.space 0
      (∀ i b, i < r.boxr → b < r.boxc / wide →
        (r.format ≤ 0x15 → blockCodes r.format (fun j => x i (32 * b + j)) (fun j => c.rounding e 3 i (32 * b + j))
          (fun j => code i (32 * b + j)) (scale i b) (nan i b) (sat i b)) ∧
        (0x15 < r.format → plainCode r.format (x i b) (c.rounding e 3 i b) (code i b) (nan i b) (sat i b))) →
      (∀ f ∈ fields, e.byteAt r (f.1 / 8) (byteOf (f.1 / 8))) → s.mayWrite e space key covers →
      (∀ p ∈ rows, ∀ q ∈ rows, ∀ b b', b < r.boxc / wide → b' < r.boxc / wide → (p.2, b) ≠ (q.2, b') → ∀ f ∈ fieldsOf p b,
        ∀ g ∈ fieldsOf q b', bitOf f + f.2.1 ≤ bitOf g ∨ bitOf g + g.2.1 ≤ bitOf f) →
      (c.record = none → ∀ i j, j < 8 → covers i j → s.outsideRanges e (space, i, 1) = false) →
      ∃ (s' : State) (l : List Nat) (fl : CopyFlags), exec (.copyTransferStart core agent) s = .next s' ∧
        ((r.space = 0 → s.sectorBudget l.length ≤ 1) →
          s.copyTurned s' e o l fl ∧ fl.splitovf = false ∧ fl.dup = 0 ∧
          (fl.nanblk = true ↔ ∃ p ∈ rows, ∃ b, b < r.boxc / wide ∧ inside p.2 b = true ∧ nan p.1 b) ∧
          (fl.sat = true ↔ ∃ p ∈ rows, ∃ b, b < r.boxc / wide ∧ inside p.2 b = true ∧ sat p.1 b) ∧
          s.sectorsWritten s' key l (s.sectorBudget l.length) covers (fun i j => (lastBit written (8 * i + j)).getD false)))

/-- R236, R246, R251 and R260: `cpyx` turns an image into another one; here the first turn of the copy engine for one. -/
def Sys2Proof.Claims.CopyReblocks : Prop :=
  ∀ (s : State) (core agent : Nat) (e : CopyEnv) (o : Op) (c : CopyCmd), s.copyBegins core agent e o c → c.fn = 5 →
    ∀ (source key : Nat → Nat) (stop space a : Nat) (h : ImageHead), c.desc.ispace ≤ 1 → e.storePlace c.desc.ispace stop source →
    let b (i : Nat) : Byte := s.mem.byte (source (c.desc.img + i))
    readHead ((List.range 32).map b) = some h → c.desc.img + h.size ≤ stop → h.kind ≤ 8 →
    (h.mapped = true → c.desc.transpose = false ∧ c.desc.flip = false) → (c.desc.xw = 0 ∨ (2 ≤ c.desc.xw ∧ c.desc.xw ≤ 8)) →
    ∀ (rows cols w : Nat) (axis : Bool), rows = (if c.desc.transpose then h.cols else h.rows) →
    cols = (if c.desc.transpose then h.rows else h.cols) → w = (if c.desc.xw = 0 then h.kind else c.desc.xw) → axis = (h.axis != c.desc.flip) →
    cols % 32 = 0 → (axis = true → rows % 32 = 0) →
    let exps := 32 + (if h.mapped then 32 else 0)
    let elems := exps + (rows * cols / 32 + 31) / 32 * 32
    let size := elems + rows * cols
    s.imagePlace e c space a size key → (∀ i j, i < h.size → j < size → source (c.desc.img + i) ≠ key (a + j)) →
    (∀ p n, a ≤ p → p + n ≤ a + size → s.outsideRanges e (space, p, n) = false) →
    ∃ (s' : State) (l : List Nat) (img : Nat → Byte) (fl : CopyFlags),
      exec (.copyTransferStart core agent) s = .next s' ∧ s.copyTurned s' e o l fl ∧
      s.sectorsWritten s' key l (s.sectorBudget l.length) (fun i _ => a ≤ i ∧ i < a + size) (fun i j => (img (i - a)).getLsbD j) ∧
      (⟨rows, cols, w, axis, h.dup, h.mapped, fl.nanblk, fl.sat, false⟩ : ImageHead).laid img ∧ fl.splitovf = false ∧ fl.dup = h.dup ∧
      (h.mapped = true → ∀ i, i < 32 → img (32 + i) = b (32 + i)) ∧
      (∀ i, rows * cols / 32 ≤ i → exps + i < elems → img (exps + i) = 0) ∧
      let lines := if axis then cols else rows
      let each := if axis then rows / 32 else cols / 32
      let cell (l k i : Nat) : Nat × Nat := blockCell axis l k i
      let from_ (p : Nat × Nat) : Nat × Nat := if c.desc.transpose then (p.2, p.1) else p
      let expOf (l k : Nat) : Byte := img (exps + blockNumber axis cols l k)
      let elemOf (p : Nat × Nat) : Int := (img (elems + (p.1 * cols + p.2))).toInt
      (w = h.kind → c.desc.transpose = c.desc.flip →
        fl.sat = false ∧ (fl.nanblk = true ↔ ∃ l k, l < lines ∧ k < each ∧ expOf l k = 0xFF) ∧
        ∀ l k i, l < lines → k < each → i < 32 →
          let p := from_ (cell l k i)
          expOf l k = b (h.expsAt + (if h.axis then p.1 / 32 * h.cols + p.2 else p.1 * (h.cols / 32) + p.2 / 32)) ∧
            elemOf (cell l k i) = signedOf w (b (h.elemsAt + (p.1 * h.cols + p.2))).toNat) ∧
      ((w ≠ h.kind ∨ c.desc.transpose ≠ c.desc.flip) → ∃ (y : Nat × Nat → Machine.Num) (nan sat : Nat → Nat → Prop),
        (∀ p, p.1 < h.rows → p.2 < h.cols → h.bfpElement b p.1 p.2 (y p)) ∧
        (fl.nanblk = true ↔ ∃ l k, l < lines ∧ k < each ∧ nan l k) ∧ (fl.sat = true ↔ ∃ l k, l < lines ∧ k < each ∧ sat l k) ∧
        ∀ l k, l < lines → k < each → blockIs w (fun i => y (from_ (cell l k i))) (fun i => c.rounding e 2 (cell l k i).1 (cell l k i).2)
          (expOf l k).toNat (fun i => elemOf (cell l k i)) (nan l k) (sat l k))

/-- R118, R261 and R273: the copy engine's turn for an agent whose one outstanding copy has been cancelled and is not done ends it, for a
group and for a hod, with nothing more written, and with what its sectors have raised. -/
def Sys2Proof.Claims.CopyTurnCancels : Prop :=
  ∀ (s : State) (core agent : Nat) (e : CopyEnv) (o : Op) (c : CopyCmd), agent < 66 → (s.debugOf core).frozen = false →
    s.copyEnv core agent = some e → s.copyOps core agent = [o] → o.cmd = .copy c → (∀ v, o.phase ≠ .done v) → o.cancel = true →
    ∃ s', exec (.copyTransferStart core agent) s = .next s' ∧
      s'.copyOps core agent = [{ o with
        phase := .done (wrap (2 ^ 31 + c.flags.splitovf.toNat * 2 ^ 15 + c.flags.nanblk.toNat * 2 ^ 14 + c.flags.sat.toNat * 2 ^ 13 +
          c.flags.dup : Nat))
        parked := none }] ∧ s'.mem = s.mem ∧
      s'.faults = (o.parked.elim s.faults fun n => s.faults.erase n) ∧
      { s' with groups := s.groups, hods := s.hods, faults := s.faults } = s

/-- R21, R27, R115 and R287: the oldest operation of a class whose work is done, and which fills no ring slot and pushes no token, retires:
the registers that hold its handle receive its result and are pending no more, MERR receives its bits, and its scoreboard entry is free. -/
def Sys2Proof.Claims.OperationRetires : Prop :=
  ∀ (s : State) (core slot c : Nat) (g : Machine.Group) (t : Team) (l : Launch) (o : Op) (rest : List Op) (word : W32), slot < 64 →
    (s.debugOf core).frozen = false → s.groups.find (slotKey core slot) = some g → s.teams.find g.team = some t →
    s.launches.find t.launch = some l → (g.cls c).ops = o :: rest → o.phase = .done word → c ≠ 3 → g.frags ≠ [] → t.stopped = false →
    (∀ d, o.cmd = .copy d → d.slotAddr = none ∧ d.desc.queue = false ∧ d.fetch = 0) →
    (∀ n q b k f, o.cmd = .kiln (.ksweep n q b k f) → q = none) → (∀ d, o.cmd = .coll d → d.queue = none) →
    (∀ w, o.cmd ≠ .seqr w) → (c = 2 ∨ c = 4 → ∀ p ∈ rest, ∃ v, p.phase = .done v) →
    ∃ (s' : State) (g' : Machine.Group), exec (.operationRetire core slot c) s = .next s' ∧
      s'.groups.find (slotKey core slot) = some g' ∧ g'.cls c = { g.cls c with ops := rest } ∧
      (∀ n, n ≠ c → g'.cls n = g.cls n) ∧ g'.merr = g.merr ||| o.merr ∧
      (∀ (b : Bool) (n : Nat), (∃ p ∈ g.pendingRegs, p.cls = c ∧ p.seq = o.seq ∧ p.reg = n ∧ n ≠ 0 ∧ (24 ≤ n → p.handlerBank = b)) →
        g'.readG b n = word) ∧
      (∀ (b : Bool) (n : Nat), (∀ p ∈ g.pendingRegs, p.cls = c → p.seq = o.seq → p.reg ≠ n ∨ (24 ≤ n ∧ p.handlerBank ≠ b)) →
        g'.readG b n = g.readG b n) ∧
      g'.pendingRegs = g.pendingRegs.filter (fun p => ¬(p.cls = c ∧ p.seq = o.seq)) ∧
      { g' with
        classes := g.classes, merr := g.merr, g := g.g, hg := g.hg, pendingRegs := g.pendingRegs, pend := g.pend } = g ∧
      (∀ k, k ≠ slotKey core slot → s'.groups.find k = s.groups.find k) ∧
      s'.scoreboard = s.scoreboard.filter (fun e => ¬(e.core = core ∧ e.agent = slot ∧ e.seq = o.seq)) ∧
      (∀ w, o.cmd = .kiln w → ∀ j, s'.kiln j =
        if j = core then { s.kiln core with shown := (s.kiln core).shown.retire w word } else s.kiln j) ∧
      ((∀ w, o.cmd ≠ .kiln w) → s'.kilns = s.kilns) ∧
      { s' with groups := s.groups, scoreboard := s.scoreboard, kilns := s.kilns } = s

/-- A turn of the copy engine expands, presses, reblocks or moves sectors, or ends a cancelled copy; a done operation retires with its
result word (R21, R27, R115, R118, R236, R240, R243 to R251, R256 to R261, R270, R271, R273, R287). How many sectors a turn moves is open
(R276), and the model's free choice (notes/assumptions/2.md). -/
def Obligations.OperationsEnd : Prop :=
  Sys2Proof.Claims.MoveTurn ∧ Sys2Proof.Claims.CopyExpands ∧ Sys2Proof.Claims.CopyPresses ∧ Sys2Proof.Claims.CopyReblocks ∧
    Sys2Proof.Claims.CopyTurnCancels ∧ Sys2Proof.Claims.OperationRetires

/-- R438, R448 and R459: the header exchange of a group's one collective that waits for it, behind no parked one (R29), lets it go on
where every header agrees and has arrived, ends it with ERR 1 where one does not, and with ERR 4 where a member cannot be reached; its
timeout ends it with ERR 2. -/
def Sys2Proof.Claims.HeaderExchange : Prop :=
  ∀ (s : State) (core slot : Nat) (g : Machine.Group) (o : Op) (c : CollCmd) (peers : List MemberMessage),
    s.groups.find (slotKey core slot) = some g → unexchanged (g.cls 4).ops = [(o, c)] →
    (∃ before after, (g.cls 4).ops = before ++ o :: after ∧ ∀ p ∈ before ++ [o], p.parked = none) →
    let reached := ∀ p ∈ s.unreachable, p ∈ c.members → p = Config.moduleIndex
    (reached → c.mismatch peers = false → c.complete peers = true →
      ∃ s', exec (.headerExchange core slot peers .ok) s = .next s' ∧
        s.onlyOp s' (slotKey core slot) 4 g { o with phase := .begun, cmd := .coll { c with exchanged := some (peers, none) } }) ∧
    (reached → c.mismatch peers = true → ∃ s', exec (.headerExchange core slot peers .ok) s = .next s' ∧
      s.onlyOp s' (slotKey core slot) 4 g
        { o with phase := .done (wrap (2 ^ 30 + 1 * 2 ^ 26 + c.subst.toNat * 2 ^ 25 : Nat)) }) ∧
    (¬reached → ∃ s', exec (.headerExchange core slot peers .ok) s = .next s' ∧
      s.onlyOp s' (slotKey core slot) 4 g
        { o with phase := .done (wrap (2 ^ 30 + 4 * 2 ^ 26 + c.subst.toNat * 2 ^ 25 : Nat)) }) ∧
    (c.timeout ≠ 0 → ∃ s', exec (.collectiveTimeout core slot) s = .next s' ∧
      s.onlyOp s' (slotKey core slot) 4 g
        { o with phase := .done (wrap (2 ^ 30 + 2 * 2 ^ 26 + c.subst.toNat * 2 ^ 25 : Nat)) })

namespace Sys2Proof.Machine

/-- Combine of R449 on values, and Node of R450 over the rows of one column in chunks of n. -/
def combined (etype : Nat) (x y : W32) : W32 := (combine etype (x, false) (y, false)).1
def nodeOf (etype n : Nat) (x : Nat → W32) : Nat → Nat → W32
  | 0, c => ((List.range (n - 1)).map fun i => x (n * c + i + 1)).foldl (combined etype) (x (n * c))
  | k + 1, c => combined etype (nodeOf etype n x k (2 * c)) (nodeOf etype n x k (2 * c + 1))
/-- The message of each other rank is among those that have arrived. -/
def CollCmd.hears (c : CollCmd) (peers : List MemberMessage) (msg : Nat → MemberMessage) : Prop :=
  ∀ r, r < c.nrank → r ≠ c.myrank → peers.find? (fun p => p.rank = r) = some (msg r)
/-- The root of rank r in column j: its own from its source bytes, another's from its message. -/
def CollCmd.rootIn (c : CollCmd) (own : List Byte) (msg : Nat → MemberMessage) (r j : Nat) : W32 :=
  if r = c.myrank then ((c.ownRoots own).getD j (0, false)).1 else BitVec.ofNat 32 (field (msg r).data (4 * j) 4)

end Sys2Proof.Machine

/-- R448: when headers agree, and when every member's has arrived. -/
def Sys2Proof.Claims.HeadersAgree : Prop :=
  ∀ (c : CollCmd) (peers : List MemberMessage),
    let other (p : MemberMessage) : Prop :=
      p.fn ≠ c.fn ∨ p.etype ≠ c.etype ∨ p.ng ≠ c.ng ∨ p.nv ≠ c.nv ∨ p.logl ≠ c.logl ∨ p.root ≠ c.root ∨ p.canonical = c.arrival ∨
        p.nrank ≠ c.nrank ∨ p.modCrc ≠ crc32c (c.members.map fun m => BitVec.ofNat 8 m)
    (c.mismatch peers = true ↔ (∃ p ∈ peers, other p ∨ c.members[p.rank]? ≠ some p.module) ∨
      c.members[c.myrank]? ≠ some Config.moduleIndex) ∧
    (c.mismatch peers = false → c.complete peers = true → c.members.Nodup →
      ∀ r m, c.members[r]? = some m → r ≠ c.myrank → ∃ p ∈ peers, p.module = m ∧ p.rank = r)

/-- R449 to R454: the bytes that a member writes, from its own source bytes and the messages of the others. -/
def Sys2Proof.Claims.CollectiveData : Prop :=
  (∀ (etype : Nat) (x y : W32),
    let op := etype / 4
    (etype % 4 = 2 ∨ etype % 4 = 3 → op = 0 → combined etype x y = x + y) ∧
    (etype % 4 = 2 → (op = 1 → (combined etype x y).toInt = min x.toInt y.toInt) ∧ (op = 2 → (combined etype x y).toInt = max x.toInt y.toInt)) ∧
    (etype % 4 = 3 → (op = 1 → (combined etype x y).toNat = min x.toNat y.toNat) ∧ (op = 2 → (combined etype x y).toNat = max x.toNat y.toNat)) ∧
    (etype % 4 < 2 → op = 0 → ∃ z fl, (decodeNum f32 false x.toNat).sumsTo false (decodeNum f32 false y.toNat) z fl ∧
      combined etype x y = BitVec.ofNat 32 (roundTo f32 false z .rne).1) ∧
    (etype % 4 < 2 → (op = 1 → combined etype x y = BitVec.ofNat 32 (fpMinMax false false 0 x.toNat y.toNat).1) ∧
      (op = 2 → combined etype x y = BitVec.ofNat 32 (fpMinMax true false 0 x.toNat y.toNat).1))) ∧
  ∀ (c : CollCmd) (tick : Nat) (own : List Byte) (peers : List MemberMessage) (msg : Nat → MemberMessage), c.myrank < c.nrank →
    c.hears peers msg →
    let out := c.outcome tick own peers
    let bytes (r : Nat) : List Byte := if r = c.myrank then own else (msg r).data
    (c.fn = 2 → (∀ r, r < c.nrank → (bytes r).length = c.nv) → out.2 = ([], 0) ∧ out.1.length = c.nrank * c.nv ∧
      ∀ r i, r < c.nrank → i < c.nv → out.1.getD (r * c.nv + i) 0 = (bytes r).getD i 0) ∧
    (c.fn = 4 → c.root < c.nrank → (bytes c.root).length = c.nv → out = (bytes c.root, [], 0)) ∧
    (c.fn = 3 → c.sendCounts.length = c.nrank →
      let count (r : Nat) : Nat := if r = c.myrank then c.sendCounts.getD c.myrank 0 else (msg r).counts.getD c.myrank 0
      let total := ((List.range c.nrank).map count).sum
      own.length = 64 * c.sendCounts.sum → (∀ r, r < c.nrank → r ≠ c.myrank → (msg r).data.length = 64 * count r) →
      out.2.1 = (List.range c.nrank).map count ∧ out.1.length = 64 * min total c.rcap ∧
      out.2.2 = (if c.rcap < total then 2 ^ 22 else 0) + min (min total c.rcap) 0xFFFF ∧
      ∀ r i, r < c.nrank → i < 64 * count r →
        let at_ := 64 * ((List.range r).map count).sum + i
        at_ < 64 * c.rcap → out.1.getD at_ 0 =
          if r = c.myrank then own.getD (64 * (c.sendCounts.take c.myrank).sum + i) 0 else (msg r).data.getD i 0) ∧
    (c.fn < 2 → c.etype < 12 →
      let rows := c.ng / c.nrank
      let size := if c.etype % 4 = 1 then 2 else 4
      let bits (v : W32) : List Byte :=
        if c.etype % 4 = 1 then leBytes 2 (roundTo bf16 false (decodeNum f32 false v.toNat) .rne).1 else leBytes 4 v.toNat
      (∀ k j, rows = 2 ^ c.logl * 2 ^ k → j < c.nv →
        c.rootIn own msg c.myrank j = if c.rootform then readElem c.etype own j
          else nodeOf c.etype (2 ^ c.logl) (fun i => readElem c.etype own (i * c.nv + j)) k 0) ∧
      ∃ v : Nat → W32,
        (c.arrival = false → ∀ p k j (x : Nat → W32), c.nrank = 2 ^ p → j < c.nv →
          (∀ r, r < c.nrank → c.rootIn own msg r j = nodeOf c.etype (2 ^ c.logl) x k r) → v j = nodeOf c.etype (2 ^ c.logl) x (k + p) 0) ∧
        (c.arrival = true → ∀ j, j < c.nv → ∃ first rest, (first :: rest).Perm ((List.range c.nrank).map fun r => c.rootIn own msg r j) ∧
          v j = rest.foldl (combined c.etype) first) ∧
        (out.2.2 / 2 ^ 23 % 2 = 1 ↔ c.etype % 4 < 2 ∧ ∃ j, j < c.nv ∧ (decodeNum f32 false (v j).toNat).isNan = true) ∧ out.2.1 = [] ∧
        (c.fn = 0 → out.1.length = size * c.nv ∧ ∀ j i, j < c.nv → i < size → out.1.getD (size * j + i) 0 = (bits (v j)).getD i 0) ∧
        (c.fn = 1 → c.nv % c.nrank = 0 → out.1.length = size * (c.nv / c.nrank) ∧ ∀ j i, j < c.nv / c.nrank → i < size →
          out.1.getD (size * j + i) 0 = (bits (v (c.myrank * (c.nv / c.nrank) + j))).getD i 0))

/-- R452 to R455 and R458: a turn for a member's collective after the exchange reads the source, where it has not yet, writes some more
sectors of the destination in ascending order, each whole, and after the last one it retires with its result word. How many sectors a turn
writes is open, and the source is read whole (notes/assumptions/23.md). -/
def Sys2Proof.Claims.CollectiveWrites : Prop :=
  ∀ (s : State) (core slot : Nat) (g : Machine.Group) (t : Team) (l : Launch) (o : Op) (c : CollCmd) (peers : List MemberMessage)
      (tr : CollTransfer), slot < 64 → (s.debugOf core).frozen = false → s.groups.find (slotKey core slot) = some g →
    s.teams.find g.team = some t → s.launches.find t.launch = some l → g.frags ≠ [] → t.stopped = false → (g.cls 4).ops = [o] →
    o.cmd = .coll c → o.phase = .begun → o.parked = none → c.exchanged = some (peers, none) → c.queue = none → c.fn ≠ 3 →
    let ctx := t.launch / 2 ^ 20
    (c.transfer = some tr ∨ (c.transfer = none ∧ tr.done = 0 ∧
      ∃ b, (c.spans.1 = 0 ∧ b = [] ∨ ∃ ps, s.collPlaces core ctx .read c.src c.spans.1 = .ok ps ∧ b = ps.map fun p => s.mem.byte p.1) ∧
        (tr.bytes, tr.counts, tr.bits) = c.outcome s.tick b peers)) →
    let sector (i : Nat) : Nat × Nat := (max c.dst (32 * (c.dst / 32 + i)), min (c.dst + tr.bytes.length) (32 * (c.dst / 32 + i + 1)))
    let sectors := (c.dst % 32 + tr.bytes.length + 31) / 32
    ∃ n, tr.done + n ≤ max sectors tr.done ∧ ∀ chain : Nat → State, chain 0 = s →
      (∀ i, i < n → ∃ ps,
        (chain i).collPlaces core ctx .write (sector (tr.done + i)).1 ((sector (tr.done + i)).2 - (sector (tr.done + i)).1) = .ok ps ∧
        chain (i + 1) = (chain i).scatter ((ps.map (·.1)).zip ((tr.bytes.drop ((sector (tr.done + i)).1 - c.dst)).take
          ((sector (tr.done + i)).2 - (sector (tr.done + i)).1)))) →
      ∃ (s' : State) (g' : Machine.Group), exec (.operationRetire core slot 4) s = .next s' ∧ s'.mem = (chain n).mem ∧
        s'.groups.find (slotKey core slot) = some g' ∧
        (tr.done + n < sectors → g.opBecomes g' 4 { o with cmd := .coll { c with transfer := some { tr with done := tr.done + n } } } ∧
          { g' with classes := g.classes } = g) ∧
        (sectors ≤ tr.done + n → (g'.cls 4).ops = [] ∧ ∀ b r, (∃ p ∈ g.pendingRegs, p.cls = 4 ∧ p.seq = o.seq ∧ p.reg = r ∧ r ≠ 0 ∧
          (24 ≤ r → p.handlerBank = b)) → g'.readG b r = BitVec.ofNat 32 (c.subst.toNat * 2 ^ 25 + tr.bits))

/-- Collectives: the header exchange, what members write, and how (R448 to R455, R458, R459). -/
def Obligations.CollectiveExchange : Prop :=
  Sys2Proof.Claims.HeaderExchange ∧ Sys2Proof.Claims.HeadersAgree ∧ Sys2Proof.Claims.CollectiveData ∧ Sys2Proof.Claims.CollectiveWrites

namespace Sys2Proof.Machine

/-- The STATE v' of nodes after a colour class from that before it, v, in the sweep that comes next, with couplings coup and import values
(R373, R375, R376, R379). -/
def Kiln.updates (k : Kiln) (tick lc beta col : Nat) (coup : Nat → List Coupling) (imports : List Bool) (v v' : Nat → Bool) : Prop :=
  ∀ i, v' i =
    if i < k.nnodes ∧ (k.node i).colour = col ∧ (k.node i).clamp = false then
      let value (c : Coupling) : Bool := if c.imp then imports.getD c.index false else Decidable.decide (c.index < k.nnodes) && v c.index
      let h : Int := (k.node i).bias + ((coup i).map fun c => c.weight * (if value c then 1 else -1)).sum
      let a := max (-128) (min 127 (h * beta / 256))
      if k.phys then Config.physicalDecision tick i
      else Decidable.decide (keyedDraw k.key (BitVec.ofNat 64 (k.sweep * 2 ^ 32 + lc * 2 ^ 16 + i)) < sigmoidLut a)
    else v i
/-- The couplings of the nodes that class col of a sweep updates: those that the kiln holds, or those that the store holds now
(R377, R378). -/
def State.couples (s : State) (t : Team) (k : Kiln) (col : Nat) (coup : Nat → List Coupling) : Prop :=
  ∀ i, i < k.nnodes → (k.node i).colour = col → (k.node i).clamp = false →
    match k.couplings with
    | .held l => coup i = l.getD i []
    | .streamed space src deg => s.kilnBlock t space src deg k.nnodes k.imports.length i = some (coup i)
/-- A sweep of the `ksweep` that the kiln of a core works on runs from class col on with some import values: one that it has begun, or
the next one, if it may begin (R379, R381, R382, R390). -/
def State.sweeps (s : State) (core : Nat) (t : Team) (l : Launch) (o : Op) (done count col : Nat) (imports : List Bool) : Prop :=
  let k := s.kiln core
  k.sweeping = some (col, imports) ∨
    (k.sweeping = none ∧ col = 0 ∧ o.cancel = false ∧ t.leaving < 2 ∧ done < count ∧ k.seeded = true ∧
      (k.phys = true → k.degraded = false ∧ l.form = 0) ∧ s.sweepStart t k = .values imports)

end Sys2Proof.Machine

/-- R373, R375, R376, R379 and R390: a SWEEP of the `ksweep` that the kiln of a core works on ends a sweep: every class's new STATE, COUNT
and the history; a streamed block found invalid ends it with error 2 before a node of its class changes (R378). -/
def Sys2Proof.Claims.SweepRuns : Prop :=
  ∀ (s : State) (core slot : Nat) (g : Machine.Group) (t : Team) (l : Launch) (o : Op) (ncol beta count done col : Nat)
      (queue : Option (Nat × W32)) (imports : List Bool), (s.debugOf core).frozen = false →
    s.kilnTurn core = some (slot, o) → s.groups.find (slotKey core slot) = some g → s.teams.find g.team = some t →
    s.launches.find t.launch = some l → o.cmd = .kiln (.ksweep ncol queue beta count done) → (∀ v, o.phase ≠ .done v) → ncol ≤ 8 →
    col ≤ ncol → s.sweeps core t l o done count col imports →
    let k := s.kiln core
    let lc := t.logicalCore % 65536
    let ends (s' : State) (op : Op) : Prop :=
      (∃ g', s'.groups.find (slotKey core slot) = some g' ∧ g.opBecomes g' 2 op ∧ { g' with classes := g.classes } = g) ∧
        { s'.kiln core with nodes := k.nodes, sweep := k.sweep, history := k.history, sweeping := none } = { k with sweeping := none } ∧
        (s'.kiln core).sweeping = none ∧ (∀ c, c ≠ core → s'.kiln c = s.kiln c) ∧
        { s' with groups := s.groups, kilns := s.kilns } = s
    (∀ (coup : Nat → Nat → List Coupling) (v : Nat → Nat → Bool), (∀ c, col ≤ c → c < ncol → s.couples t k c (coup c)) →
      (∀ i, v col i = (k.node i).up) →
      (∀ c, col ≤ c → c < ncol → k.updates s.tick lc beta c (coup c) imports (v c) (v (c + 1))) →
      ∃ s', exec (.sweep core) s = .next s' ∧
        ends s' { o with phase := .begun, cmd := .kiln (.ksweep ncol queue beta count (done + 1)) } ∧
        (s'.kiln core).sweep = (k.sweep + 1) % 2 ^ 32 ∧
        (s'.kiln core).history.head? = some (some k.sweep, (List.range k.nnodes).map (v ncol)) ∧
        ∀ i, (s'.kiln core).node i =
          if i < k.nnodes then
            { k.node i with
              up := v ncol i
              count :=
                if k.burn ≤ (BitVec.ofNat 32 k.sweep - BitVec.ofNat 32 k.origin).toNat ∧ v ncol i = true then
                  min ((k.node i).count + 1) (2 ^ 32 - 1)
                else (k.node i).count }
          else k.node i) ∧
    ∀ bad i space src deg, col ≤ bad → bad < ncol → k.couplings = .streamed space src deg →
      (∀ c, col ≤ c → c < bad → ∃ coup, s.couples t k c coup) → i < k.nnodes → (k.node i).colour = bad → (k.node i).clamp = false →
      s.kilnBlock t space src deg k.nnodes k.imports.length i = none →
      ∃ s', exec (.sweep core) s = .next s' ∧
        ends s' { o with phase := .done (wrap (2 ^ 30 + 2 * 2 ^ 26 + done : Nat)), cmd := .kiln (.ksweep ncol queue beta count done) } ∧
        (s'.kiln core).sweep = k.sweep ∧ (s'.kiln core).history = k.history ∧
        ∀ j, (bad ≤ (k.node j).colour ∨ (k.node j).colour < col ∨ (k.node j).clamp = true) → (s'.kiln core).node j = k.node j

/-- R374: what the spec writes out of the table, its symmetry and its bounds. -/
def Sys2Proof.Claims.SigmoidTable : Prop :=
  sigmoidLut (-128) = 22 ∧ sigmoidLut (-32) = 7812 ∧ sigmoidLut (-16) = 17625 ∧ sigmoidLut 0 = 32768 ∧ sigmoidLut 16 = 47911 ∧
    sigmoidLut 32 = 57724 ∧ sigmoidLut 48 = 62428 ∧ sigmoidLut 64 = 64357 ∧ sigmoidLut 127 = 65513 ∧
    ∀ a : Int, -128 ≤ a → a ≤ 127 → 0 < sigmoidLut a ∧ sigmoidLut a < 65536 ∧ (a < 127 → sigmoidLut a < sigmoidLut (a + 1)) ∧
      (a ≠ -128 → sigmoidLut a + sigmoidLut (-a) = 65536)

/-- R381 and R382: what gives the imports of an array's next sweep, when the sweep waits at its start, and when it ends with error 5. -/
def Sys2Proof.Claims.SweepImports : Prop :=
  (∀ (s : State) (t : Team) (k : Kiln),
    let next := BitVec.ofNat 32 k.sweep
    let oldest := (next - 1 - BitVec.ofNat 32 k.lag).toNat
    let source (slot : Nat × Nat) (src : Kiln) : Prop := (s.kilnsOf t.launch).find? (fun p => p.1 = slot.1) = some (slot.1, src)
    let bad (slot : Nat × Nat) : Prop :=
      ((∀ src, ¬source slot src) ∧ s.reaches t.launch slot.1 = false) ∨
        ∃ src, source slot src ∧ src.seeded = true ∧ (src.phys ≠ k.phys ∨ src.nnodes ≤ slot.2)
    let heldBack := ∃ p ∈ s.kilnsOf t.launch ++ s.savedKilns t.launch, t.logicalCore % 65536 ∈ p.2.registered ∧
      15 - (p.2.lag : Int) < (next - BitVec.ofNat 32 p.2.sweep).toInt
    ((∃ slot ∈ k.imports, bad slot) → s.sweepStart t k = .bad) ∧
    ((∀ slot ∈ k.imports, ¬bad slot) → (heldBack ∨ ∃ slot ∈ k.imports, ∀ src, source slot src → src.seeded = false) →
      s.sweepStart t k = .wait) ∧
    ∀ imports, s.sweepStart t k = .values imports → ¬heldBack ∧ imports.length = k.imports.length ∧
      ∀ (j : Nat) slot, k.imports[j]? = some slot → ∃ src, source slot src ∧ src.seeded = true ∧ src.phys = k.phys ∧ slot.2 < src.nnodes ∧
        let last := BitVec.ofNat 32 src.sweep - 1
        let m := if k.phys then last.toNat else oldest
        (k.phys = true → 0 ≤ (last - BitVec.ofNat 32 oldest).toInt) ∧
        ((∃ e, src.history.find? (fun e => e.1 = some m) = some e ∧ imports[j]? = some (e.2.getD slot.2 false)) ∨
          (src.history.find? (fun e => e.1 = some m) = none ∧
            (BitVec.ofNat 32 src.sweep - BitVec.ofNat 32 src.origin).toNat < (BitVec.ofNat 32 src.sweep - BitVec.ofNat 32 m).toNat ∧
            ∃ e, src.history.find? (fun e => e.1 = none) = some e ∧ imports[j]? = some (e.2.getD slot.2 false)))) ∧
  ∀ (s : State) (core slot : Nat) (g : Machine.Group) (t : Team) (l : Launch) (o : Op) (ncol beta count done : Nat)
      (queue : Option (Nat × W32)), (s.debugOf core).frozen = false →
    s.kilnTurn core = some (slot, o) → s.groups.find (slotKey core slot) = some g → s.teams.find g.team = some t →
    s.launches.find t.launch = some l → o.cmd = .kiln (.ksweep ncol queue beta count done) → (∀ v, o.phase ≠ .done v) →
    let k := s.kiln core
    k.sweeping = none →
    ((o.cancel = true ∨ 2 ≤ t.leaving ∨ count ≤ done ∨ k.seeded = false ∨ (k.phys = true ∧ (k.degraded = true ∨ l.form ≠ 0))) →
      exec (.sweep core) s = .next s) ∧
    (o.cancel = false → t.leaving < 2 → done < count → k.seeded = true → (k.phys = true → k.degraded = false ∧ l.form = 0) →
      (s.sweepStart t k = .wait → ∃ s', exec (.sweep core) s = .next s' ∧ s.onlyOp s' (slotKey core slot) 2 g { o with phase := .begun }) ∧
      (s.sweepStart t k = .bad → ∃ s', exec (.sweep core) s = .next s' ∧
        s.onlyOp s' (slotKey core slot) 2 g { o with phase := .done (wrap (2 ^ 30 + 5 * 2 ^ 26 + done : Nat)) }))

/-- A sweep of the sampling engine, its table and its imports; and a core's comparators may drift (R373 to R379, R381, R382, R390). What a
physical decision is, is free (notes/assumptions/6.md); which sources lie outside the module is the model's reading
(notes/assumptions/26.md). -/
def Obligations.SweepRuns : Prop :=
  Sys2Proof.Claims.SweepRuns ∧ Sys2Proof.Claims.SigmoidTable ∧ Sys2Proof.Claims.SweepImports ∧
  ∀ (s : State) (core : Nat), ∃ s', exec (.comparatorDrift core) s = .next s' ∧
    s'.kiln core = { s.kiln core with drifted := true } ∧ (∀ c, c ≠ core → s'.kiln c = s.kiln c) ∧ { s' with kilns := s.kilns } = s

namespace Sys2Proof.Machine

/-! ### Record mode, the step sequencer, the kiln, collectives and tasks (08 to 12) -/

/-- The fields of a segment header, of n bytes at i, that stand at an offset of a log's space (R319). -/
def State.segField (s : State) (t : Team) (space seg i n : Nat) : Nat := field (s.storeRead t space seg 64) i n

/-- A header whose S fields are valid for a first segment (R319, R328). -/
structure State.SegOk (s : State) (t : Team) (space seg : Nat) : Prop where
  place : seg % 64 = 0 ∧ seg + s.segField t space seg 0 4 ≤ s.storeEnd t space
  length : s.segField t space seg 0 4 % 64 = 0 ∧ 128 ≤ s.segField t space seg 0 4 ∧ s.segField t space seg 0 4 ≤ 2 ^ 24
  save : s.segField t space seg 4 1 < 16 ∧ s.segField t space seg 4 1 % 4 ≠ 0 ∧ 4 ≤ s.segField t space seg 4 1
  width : s.segField t space seg 5 1 ≠ 1 ∧ s.segField t space seg 5 1 ≤ 8
  zero : s.segField t space seg 6 2 = 0

/-- The D fields that the device has written into a header: NENT, BASEIDX, DTOP, PREV and NEXT (R319). -/
def State.segHolds (s : State) (t : Team) (space seg nent base dtop prev next : Nat) : Prop :=
  s.segField t space seg 0x10 4 = nent ∧ s.segField t space seg 0x14 4 = base ∧ s.segField t space seg 0x18 4 = dtop ∧
    s.segField t space seg 0x1C 4 = prev ∧ s.segField t space seg 0x20 4 = next

/-- The memory of s' is that of s outside the n bytes at a place. -/
def State.sameOutside (s s' : State) (at_ n : Nat) : Prop := ∀ b, b < at_ ∨ at_ + n ≤ b → s'.mem.byte b = s.mem.byte b

/-- A class 3 instruction (R357 to R365): its marker, handle and sources, whether its checks pass, its work, the slot that it
changes, and its group as the issue leaves it. -/
structure SeqRow where
  m : Bool
  h : Nat
  srcs : List Nat
  ok : Prop
  work : SeqWork
  slot : Option (Nat × SeqSlot) := none
  g : Machine.Group

/-- The class 3 instructions. -/
inductive SeqDoes (s : State) (x : Ctx) : Instr → SeqRow → Prop
  | sqcfg m h a b c keep k : SeqDoes s x (.sqcfg m h a b)
      { m := m, h := h, srcs := [a, b], g := x.g, work := .sqcfg k c keep
        slot := some (k, ⟨x.g.team, (x.uni b).toNat, c, 0, none, [], [], 0, 0, 0, none, false⟩)
        ok := (x.uni b).toNat < 256 ∧ (x.uni a).toNat % 64 = 0 ∧ (x.uni a).toNat + 64 ≤ x.team.kernel.unit ∧
          readSeqDesc (s.storeRead x.team 0 (x.uni a).toNat 64) = some (c, keep) ∧
          s.boundSlot x.core x.g.team (x.uni b).toNat = none ∧ c.tbase + 160 * c.tiles ≤ s.storeEnd x.team c.tspace ∧
          (c.tspace = 1 → x.launch.form = 1 → inRanges x.team 1 c.tbase (160 * c.tiles) = true) ∧ s.freeSlot x.core = some k }
  | sqagain m h a b c keep k q : SeqDoes s x (.sqcfg m h a b)
      { m := m, h := h, srcs := [a, b], g := x.g, work := .sqcfg k c keep, slot := some (k, { q with cfg := c, stepno := 0 })
        ok := (x.uni b).toNat < 256 ∧ (x.uni a).toNat % 64 = 0 ∧ (x.uni a).toNat + 64 ≤ x.team.kernel.unit ∧
          readSeqDesc (s.storeRead x.team 0 (x.uni a).toNat 64) = some (c, keep) ∧
          s.boundSlot x.core x.g.team (x.uni b).toNat = some (k, q) ∧ q.openBy = none ∧
          c.tbase + 160 * c.tiles ≤ s.storeEnd x.team c.tspace ∧
          (c.tspace = 1 → x.launch.form = 1 → inRanges x.team 1 c.tbase (160 * c.tiles) = true) }
  | sqfull m h a b c keep : SeqDoes s x (.sqcfg m h a b)
      { m := m, h := h, srcs := [a, b], g := x.g, work := .sqfull
        ok := (x.uni b).toNat < 256 ∧ (x.uni a).toNat % 64 = 0 ∧ (x.uni a).toNat + 64 ≤ x.team.kernel.unit ∧
          readSeqDesc (s.storeRead x.team 0 (x.uni a).toNat 64) = some (c, keep) ∧
          s.boundSlot x.core x.g.team (x.uni b).toNat = none ∧ c.tbase + 160 * c.tiles ≤ s.storeEnd x.team c.tspace ∧
          (c.tspace = 1 → x.launch.form = 1 → inRanges x.team 1 c.tbase (160 * c.tiles) = true) ∧ s.freeSlot x.core = none }
  | sqbeg m h b k q : SeqDoes s x (.sqbeg m h b)
      { m := m, h := h, srcs := [b], work := .sqbeg k q.stepno, slot := some (k, { q with openBy := some x.slot })
        g := { x.g with step := some ((x.uni b).toNat, k, q.stepno), signatures := Map.empty }
        ok := (x.uni b).toNat < 256 ∧ s.boundSlot x.core x.g.team (x.uni b).toNat = some (k, q) ∧ x.g.step = none ∧ q.openBy = none }
  | sqsig m h t num k n q : SeqDoes s x (.sqsig m h t)
      { m := m, h := h, srcs := [125], work := .sqsig k q.cfg t (x.team.tileShape t) (x.g.readG false 29).toNat
        g := { x.g with signatures := x.g.signatures.set (x.g.readG false 29).toNat ((x.g.cls 3).nextSeq, none) }
        ok := x.g.step = some (num, k, n) ∧ s.seqSlots.find k = some q ∧
          (x.g.readG false 29).toNat < q.cfg.gridx * q.cfg.gridy ∧ x.mayTile t = true }
  | sqmap m h a b k q : SeqDoes s x (.sqmap m h a b)
      { m := m, h := h, srcs := [a, b], work := .sqmap k q.cfg (x.uni a).toNat, g := x.g
        ok := (x.uni b).toNat < 256 ∧ (x.uni a).toNat % 32 = 0 ∧ s.boundSlot x.core x.g.team (x.uni b).toNat = some (k, q) ∧
          (x.uni a).toNat + 32 + 32 * ((q.cfg.gridx * q.cfg.gridy + 255) / 256) ≤ x.team.kernel.unit }
  | sqend m h num k n q : SeqDoes s x (.sqend m h)
      { m := m, h := h, srcs := [], work := .sqend k q.cfg
        slot := some (k, { q with stepno := (q.stepno + 1) % 65536, openBy := none }), g := { x.g with step := none }
        ok := x.g.step = some (num, k, n) ∧ s.seqSlots.find k = some q }
  | sqrst m h b k q : SeqDoes s x (.sqrst m h b)
      { m := m, h := h, srcs := [b], work := .sqrst k q.cfg, slot := some (k, { q with stepno := 0 }), g := x.g
        ok := (x.uni b).toNat < 256 ∧ s.boundSlot x.core x.g.team (x.uni b).toNat = some (k, q) ∧ q.openBy = none }
  | sqfree m h b k q : SeqDoes s x (.sqrst m h b)
      { m := m, h := h, srcs := [b], work := .sqfree, slot := some (k, { q with num := 256 }), g := x.g
        ok := (x.uni b).toNat / 256 = 1 ∧ s.boundSlot x.core x.g.team ((x.uni b).toNat % 256) = some (k, q) ∧ q.openBy = none }

/-- The traps of class 3 instructions at issue, outside handler mode (R357, R359 to R362, R364, R365), in the order of their checks:
TRAPCAUSE and TRAPINFO1. -/
inductive SeqTraps (s : State) (x : Ctx) : Instr → List Nat → Nat → W32 → Prop
  | cfgWord m h a b : 256 ≤ (x.uni b).toNat → SeqTraps s x (.sqcfg m h a b) [a, b] 1 (x.uni b)
  | cfgAlign m h a b : (x.uni b).toNat < 256 → (x.uni a).toNat % 64 ≠ 0 →
      SeqTraps s x (.sqcfg m h a b) [a, b] 10 (accessInfo 0 0 1 0xFF)
  | cfgPlace m h a b : (x.uni b).toNat < 256 → (x.uni a).toNat % 64 = 0 → x.team.kernel.unit < (x.uni a).toNat + 64 →
      SeqTraps s x (.sqcfg m h a b) [a, b] 10 (accessInfo 0 0 2 0xFF)
  | cfgFields m h a b : (x.uni b).toNat < 256 → (x.uni a).toNat % 64 = 0 → (x.uni a).toNat + 64 ≤ x.team.kernel.unit →
      readSeqDesc (s.storeRead x.team 0 (x.uni a).toNat 64) = none → SeqTraps s x (.sqcfg m h a b) [a, b] 1 (x.uni a)
  | cfgOpen m h a b c keep k q : (x.uni b).toNat < 256 → (x.uni a).toNat % 64 = 0 → (x.uni a).toNat + 64 ≤ x.team.kernel.unit →
      readSeqDesc (s.storeRead x.team 0 (x.uni a).toNat 64) = some (c, keep) →
      s.boundSlot x.core x.g.team (x.uni b).toNat = some (k, q) → q.openBy ≠ none → SeqTraps s x (.sqcfg m h a b) [a, b] 1 (x.uni b)
  | cfgTable m h a b c keep : (x.uni b).toNat < 256 → (x.uni a).toNat % 64 = 0 → (x.uni a).toNat + 64 ≤ x.team.kernel.unit →
      readSeqDesc (s.storeRead x.team 0 (x.uni a).toNat 64) = some (c, keep) →
      (∀ k q, s.boundSlot x.core x.g.team (x.uni b).toNat = some (k, q) → q.openBy = none) →
      s.storeEnd x.team c.tspace < c.tbase + 160 * c.tiles → SeqTraps s x (.sqcfg m h a b) [a, b] 10 (accessInfo 0 0 2 0xFF)
  | cfgRange m h a b c keep : (x.uni b).toNat < 256 → (x.uni a).toNat % 64 = 0 → (x.uni a).toNat + 64 ≤ x.team.kernel.unit →
      readSeqDesc (s.storeRead x.team 0 (x.uni a).toNat 64) = some (c, keep) →
      (∀ k q, s.boundSlot x.core x.g.team (x.uni b).toNat = some (k, q) → q.openBy = none) →
      c.tbase + 160 * c.tiles ≤ s.storeEnd x.team c.tspace → c.tspace = 1 → x.launch.form = 1 →
      inRanges x.team 1 c.tbase (160 * c.tiles) = false → SeqTraps s x (.sqcfg m h a b) [a, b] 5 (accessInfo 1 0 1 0xFF)
  | begWord m h b : 256 ≤ (x.uni b).toNat → SeqTraps s x (.sqbeg m h b) [b] 1 (x.uni b)
  | begSlot m h b : (x.uni b).toNat < 256 → (s.boundSlot x.core x.g.team (x.uni b).toNat = none ∨ x.g.step ≠ none) →
      SeqTraps s x (.sqbeg m h b) [b] 1 0
  | sigStep m h t : x.g.step = none → SeqTraps s x (.sqsig m h t) [125] 1 (x.g.readG false 29)
  | sigIndex m h t num k n q : x.g.step = some (num, k, n) → s.seqSlots.find k = some q →
      (q.cfg.gridx * q.cfg.gridy ≤ (x.g.readG false 29).toNat ∨ x.mayTile t = false) →
      SeqTraps s x (.sqsig m h t) [125] 1 (x.g.readG false 29)
  | mapWord m h a b : 256 ≤ (x.uni b).toNat → SeqTraps s x (.sqmap m h a b) [a, b] 1 (x.uni b)
  | mapAlign m h a b : (x.uni b).toNat < 256 → (x.uni a).toNat % 32 ≠ 0 →
      SeqTraps s x (.sqmap m h a b) [a, b] 10 (accessInfo 1 0 1 0xFF)
  | mapHead m h a b : (x.uni b).toNat < 256 → (x.uni a).toNat % 32 = 0 → x.team.kernel.unit < (x.uni a).toNat + 32 →
      SeqTraps s x (.sqmap m h a b) [a, b] 10 (accessInfo 1 0 2 0xFF)
  | mapSlot m h a b : (x.uni b).toNat < 256 → (x.uni a).toNat % 32 = 0 → (x.uni a).toNat + 32 ≤ x.team.kernel.unit →
      s.boundSlot x.core x.g.team (x.uni b).toNat = none → SeqTraps s x (.sqmap m h a b) [a, b] 1 0
  | mapPlace m h a b k q : (x.uni b).toNat < 256 → (x.uni a).toNat % 32 = 0 →
      s.boundSlot x.core x.g.team (x.uni b).toNat = some (k, q) →
      x.team.kernel.unit < (x.uni a).toNat + 32 + 32 * ((q.cfg.gridx * q.cfg.gridy + 255) / 256) →
      SeqTraps s x (.sqmap m h a b) [a, b] 10 (accessInfo 1 0 2 0xFF)
  | endStep m h : x.g.step = none → SeqTraps s x (.sqend m h) [] 1 0
  | rstWord m h b : 512 ≤ (x.uni b).toNat → SeqTraps s x (.sqrst m h b) [b] 1 (x.uni b)
  | rstSlot m h b : (x.uni b).toNat < 512 → s.boundSlot x.core x.g.team ((x.uni b).toNat % 256) = none →
      SeqTraps s x (.sqrst m h b) [b] 1 0
  | rstOpen m h b k q : (x.uni b).toNat < 512 → s.boundSlot x.core x.g.team ((x.uni b).toNat % 256) = some (k, q) → q.openBy ≠ none →
      SeqTraps s x (.sqrst m h b) [b] 1 0

/-- The f32 bits of x + y rounded, of −x, of |x|, as the sequencer computes them (R350, R351). -/
def f32Sum (x y w : Nat) : Prop :=
  ∃ z fl, (decodeNum f32 false x).sumsTo false (decodeNum f32 false y) z fl ∧ w = (roundTo f32 false z .rne).1
def f32Minus (x : Nat) : Nat := if x < 2 ^ 31 then x + 2 ^ 31 else x - 2 ^ 31
def f32Size (x : Nat) : Nat := x % 2 ^ 31
/-- Bytes i to i + n − 1 of a table's entry, as a number. -/
def State.entryField (s : State) (t : Team) (c : SeqCfg) (e i n : Nat) : Nat := leNat (s.storeRead t c.tspace (c.tbase + 160 * e + i) n)
/-- Nothing but some bytes of memory differs, and those only at given offsets of a store's entries, tile by tile. -/
def State.entriesOnly (s s' : State) (t : Team) (c : SeqCfg) (may : Nat → Nat → Prop) : Prop :=
  s.onlyMemory s' ∧ ∀ b, (∀ e i, e < c.tiles → i < 160 → may e i → b ≠ s.storeKey t c.tspace (c.tbase + 160 * e + i)) →
    s'.mem.byte b = s.mem.byte b

/-- A class 2 instruction (R384, R387 to R392): its marker, handle and sources, whether its checks pass, and its work. -/
structure KilnRow where
  m : Bool
  h : Nat
  srcs : List Nat
  ok : Prop
  work : KilnWork

/-- The 32 bytes of a descriptor lie in the team's allocation (R385). -/
def Ctx.descAt (x : Ctx) (a n : Nat) : Prop := a % 32 = 0 ∧ a + n ≤ x.team.kernel.unit

/-- The class 2 instructions. -/
inductive KilnDoes (s : State) (x : Ctx) : Instr → KilnRow → Prop
  | kldj m h a : KilnDoes s x (.kldj m h a) (
      let f (i n : Nat) : Nat := field (s.storeRead x.team 0 (x.uni a).toNat 32) i n
      { m := m, h := h, srcs := [a], work := .kldj (f 0 4) (f 4 1) (f 5 1) (f 6 2) (f 8 1) (f 12 4) (f 16 2)
        ok := x.descAt (x.uni a).toNat 32 ∧ f 4 1 ≤ 2 ∧ f 5 1 ≤ (if f 4 1 = 2 then 1 else 0) ∧ 1 ≤ f 6 2 ∧
          f 6 2 ≤ (if f 4 1 = 0 then 256 else 1024) ∧ f 8 1 ≤ (if f 4 1 = 0 then 0 else if f 4 1 = 1 then 48 else 255) ∧
          f 9 3 = 0 ∧ f 12 4 % 4 = 0 ∧ f 16 2 ≤ (if f 4 1 = 0 then 0 else 1024) ∧ f 18 14 = 0 ∧
          f 0 4 + (if f 4 1 = 0 then f 6 2 * f 6 2 else f 6 2 * (4 + 4 * f 8 1)) ≤ s.storeEnd x.team (f 5 1) ∧
          f 12 4 + 4 * f 16 2 ≤ s.storeEnd x.team 0 })
  | kbias m h a : KilnDoes s x (.kbias m h a) (
      let f (i n : Nat) : Nat := field (s.storeRead x.team 0 (x.uni a).toNat 32) i n
      { m := m, h := h, srcs := [a], work := .kbias (f 0 4) (f 4 2) (f 6 2)
        ok := x.descAt (x.uni a).toNat 32 ∧ f 0 4 % 4 = 0 ∧ f 4 2 + f 6 2 ≤ 1024 ∧ f 8 24 = 0 ∧
          f 0 4 + 4 * f 6 2 ≤ s.storeEnd x.team 0 })
  | kclamp m h a : KilnDoes s x (.kclamp m h a)
      { m := m, h := h, srcs := [a], work := .kclamp (x.uni a).toNat, ok := x.descAt (x.uni a).toNat 256 }
  | kseed m h a : KilnDoes s x (.kseed m h a) (
      let f (i n : Nat) : Nat := field (s.storeRead x.team 0 (x.uni a).toNat 32) i n
      { m := m, h := h, srcs := [a], work := .kseed (BitVec.ofNat 64 (f 0 8)) (f 8 4) (f 12 4) (f 16 1 == 1) (f 17 1)
        ok := x.descAt (x.uni a).toNat 32 ∧ f 16 1 ≤ 1 ∧ f 17 1 ≤ 15 ∧ f 18 14 = 0 ∧
          (f 16 1 = 1 → x.team.kernel.caps / 2 % 2 = 1) })
  | ksweep m h a b : KilnDoes s x (.ksweep m h a b) (
      let f (i n : Nat) : Nat := field (s.storeRead x.team 0 (x.uni a).toNat 32) i n
      { m := m, h := h, srcs := [a, b]
        work := .ksweep (f 0 1) (if f 1 1 = 1 then some (f 2 1, BitVec.ofNat 32 (f 8 4)) else none) (f 4 2) (x.uni b).toNat 0
        ok := x.descAt (x.uni a).toNat 32 ∧ 1 ≤ f 0 1 ∧ f 0 1 ≤ 8 ∧ f 1 1 ≤ 1 ∧ f 2 1 ≤ 7 ∧ f 3 1 = 0 ∧ f 6 2 = 0 ∧
          f 12 20 = 0 ∧ (f 1 1 = 1 → (s.queue x.core (f 2 1)).owner = some x.g.team) ∧ (x.uni b).toNat < 65536 })
  | kread m h a : KilnDoes s x (.kread m h a) (
      let f (i n : Nat) : Nat := field (s.storeRead x.team 0 (x.uni a).toNat 32) i n
      { m := m, h := h, srcs := [a], work := .kread (f 0 4) (f 4 1) (f 6 2) (f 8 2) 0
        ok := x.descAt (x.uni a).toNat 32 ∧ f 0 4 % 4 = 0 ∧ f 4 1 ≤ 2 ∧ f 5 1 = 0 ∧ f 6 2 + f 8 2 ≤ 1024 ∧ f 10 22 = 0 ∧
          f 0 4 + (if f 4 1 = 0 then f 8 2 else if f 4 1 = 1 then 4 * f 8 2 else 64) ≤ s.storeEnd x.team 0 })
  | khealth m h b : KilnDoes s x (.khealth m h b)
      { m := m, h := h, srcs := [b], work := .khealth (if (x.uni b).toNat = 0 then 1024 else (x.uni b).toNat)
        ok := (x.uni b).toNat ≤ 32768 }
  | kcal m h : KilnDoes s x (.kcal m h) { m := m, h := h, srcs := [], work := .kcal, ok := True }

/-- A collective instruction (R447): its function, marker, handle and descriptor register. -/
inductive CollDoes : Instr → Nat → Bool → Nat → Nat → Prop
  | callr m h a : CollDoes (.callr m h a) 0 m h a
  | crsct m h a : CollDoes (.crsct m h a) 1 m h a
  | cagth m h a : CollDoes (.cagth m h a) 2 m h a
  | ca2a m h a : CollDoes (.ca2a m h a) 3 m h a
  | cbcst m h a : CollDoes (.cbcst m h a) 4 m h a

/-- The descriptor at offset i of the team's store, with the communicator record that it names, describes collective c of function fn
(R443, R445, R447, R463), and every field keeps its limits. -/
structure CollAt (s : State) (x : Ctx) (fn i : Nat) (c : CollCmd) : Prop where
  place : i % 64 = 0 ∧ i + 64 ≤ x.team.kernel.unit
  comm : field (s.storeRead x.team 0 i 64) 0 4 % 64 = 0 ∧
    field (s.storeRead x.team 0 i 64) 0 4 + 64 + min (field (s.storeRead x.team 0 (field (s.storeRead x.team 0 i 64) 0 4) 64) 8 2) 256 ≤
      x.team.kernel.unit
  isFn : c.fn = fn
  etype : c.etype = field (s.storeRead x.team 0 i 64) 4 1
  order : c.arrival = decide (field (s.storeRead x.team 0 i 64) 5 1 % 2 = 1 ∧ x.launch.form = 0)
  root : c.rootform = decide (field (s.storeRead x.team 0 i 64) 5 1 / 2 % 2 = 1)
  subst : c.subst = decide (field (s.storeRead x.team 0 i 64) 5 1 % 2 = 1 ∧ x.launch.form ≠ 0)
  queue : c.queue = if field (s.storeRead x.team 0 i 64) 5 1 / 4 % 2 = 1
    then some (field (s.storeRead x.team 0 i 64) 34 1, BitVec.ofNat 32 (field (s.storeRead x.team 0 i 64) 36 4)) else none
  src : c.src = ((x.launch.db.getD (field (s.storeRead x.team 0 i 64) 6 1 % 4) 0).toNat + field (s.storeRead x.team 0 i 64) 8 8) % 2 ^ 64
  dst : c.dst = ((x.launch.db.getD (field (s.storeRead x.team 0 i 64) 6 1 / 4 % 4) 0).toNat + field (s.storeRead x.team 0 i 64) 16 8) % 2 ^ 64
  sizes : c.logl = field (s.storeRead x.team 0 i 64) 7 1 ∧ c.ng = field (s.storeRead x.team 0 i 64) 24 4 ∧
    c.nv = field (s.storeRead x.team 0 i 64) 28 4 ∧ c.root = field (s.storeRead x.team 0 i 64) 32 2
  members : ∃ r, r = readComm (s.storeRead x.team 0 (field (s.storeRead x.team 0 i 64) 0 4)
      (64 + min (field (s.storeRead x.team 0 (field (s.storeRead x.team 0 i 64) 0 4) 64) 8 2) 256)) ∧
    r.good (s.storeRead x.team 0 (field (s.storeRead x.team 0 i 64) 0 4) 64) = true ∧ c.ckey = r.ckey ∧ c.nrank = r.nrank ∧
    c.myrank = r.myrank ∧ c.members = r.members ∧ c.timeout = r.timeout
  counts : c.rcnt = field (s.storeRead x.team 0 i 64) 44 4 ∧ c.rcap = field (s.storeRead x.team 0 i 64) 48 4 ∧
    if fn = 3 then
      c.sendCounts = (List.range c.nrank).map (fun r => leNat (s.storeRead x.team 0 (field (s.storeRead x.team 0 i 64) 40 4 + 4 * r) 4)) ∧
        ∀ p, p = field (s.storeRead x.team 0 i 64) 40 4 ∨ p = field (s.storeRead x.team 0 i 64) 44 4 →
          p % 4 = 0 ∧ p + 4 * min c.nrank 256 ≤ x.team.kernel.unit
    else c.sendCounts = []
  limits : c.good (s.storeRead x.team 0 i 64) (decide (field (s.storeRead x.team 0 i 64) 8 8 = field (s.storeRead x.team 0 i 64) 16 8 ∧
    field (s.storeRead x.team 0 i 64) 6 1 % 4 = field (s.storeRead x.team 0 i 64) 6 1 / 4 % 4)) = true
  owned : ∀ q v, c.queue = some (q, v) → (s.queue x.core q).owner = some x.g.team
  fresh : c.ckeySeq = s.instance_ c.ckey ∧ c.exchanged = none ∧ c.transfer = none

end Sys2Proof.Machine

/-- R327 to R329, with no copy writing where they read and write (R28): `recon` opens a context on a first segment and writes its D
fields; `recoff` of a group that does not record does nothing, waits for class 1, and otherwise ends record mode, writes the D fields back
and frees the context that no other group uses. -/
def Sys2Proof.Claims.RecordModeOpens : Prop :=
  ∀ (s : State) (x : Ctx) (m : Bool), s.ctx = some x → s.mem.wf = true →
    (∀ (a : Nat) (p : Bool), x.ready [a] → x.g.recording = false → x.g.handler = false →
      s.SegOk x.team p.toNat (x.uni a).toNat → (p = true → x.launch.form ≠ 1) →
      (∀ c ∈ x.team.logs, c.space = p.toNat → c.first ≠ (x.uni a).toNat) → x.team.logs.length < 4 →
      s.headHeld x.team p.toNat (x.uni a).toNat = false →
      let seg := (x.uni a).toNat
      let len := s.segField x.team p.toNat seg 0 4
      ∃ (s' : State) (c : LogCtx),
        exec (.recon m a false p) s = .next (x.completes s' { x.g with recording := true, log := some ⟨p.toNat, seg, 0⟩ } m 1) ∧
        s'.teams.find x.g.team = some { x.team with logs := x.team.logs ++ [c] } ∧
        (∀ k, k ≠ x.g.team → s'.teams.find k = s.teams.find k) ∧
        c.space = p.toNat ∧ c.first = seg ∧ c.seg = seg ∧ c.seglen = len ∧ c.earlier = [] ∧ c.nent = 0 ∧ c.base = 0 ∧ c.dtop = len ∧
        c.reserved = 0 ∧ c.reservedEntries = 0 ∧ c.producers = Map.empty ∧ c.origins = [] ∧ c.members = [x.slot] ∧
        s'.segHolds x.team p.toNat seg 0 0 len 0xFFFFFFFF 0xFFFFFFFF ∧
        s.sameOutside s' (s.storeKey x.team p.toNat (seg + 0x10)) 48 ∧
        { s' with teams := s.teams, mem := s.mem, hods := s.hods } = s) ∧
    (x.g.recording = false → exec (.recoff m) s = .next (x.completes s x.g m 1)) ∧
    (x.g.recording = true → (x.g.cls 1).ops ≠ [] → exec (.recoff m) s = .next s) ∧
    (∀ c, x.g.recording = true → (x.g.cls 1).ops = [] → x.team.logFor x.g.log = some c → c.members = [x.slot] →
      c.nent < 2 ^ 32 → c.base < 2 ^ 32 → c.dtop < 2 ^ 32 → c.earlier = [] → s.headHeld x.team c.space c.seg = false →
      ∃ (s' : State) (g' : Machine.Group), exec (.recoff m) s = .next s' ∧ s'.groups.find (slotKey x.core x.slot) = some g' ∧
        g'.recording = false ∧ { g' with recording := true, log := x.g.log } = x.g.advance x.frag m 1 ∧
        (s'.teams.find x.g.team).map (·.logs) = some (x.team.logs.filter fun d => ¬(d.space = c.space ∧ d.first = c.first)) ∧
        s'.segHolds x.team c.space c.seg c.nent c.base c.dtop 0xFFFFFFFF 0xFFFFFFFF ∧
        s.sameOutside s' (s.storeKey x.team c.space (c.seg + 0x10)) 48)

/-- R330 to R333, with no copy writing where they read and write (R28): `rmark` writes a mark entry and its index, `rlog` goes on in a new
segment, `rgrad` binds and clears gradient accumulators, and `rstat` reads the state of the log; the first two are illegal in a group that
does not record. -/
def Sys2Proof.Claims.RecordModeWrites : Prop :=
  ∀ (s : State) (x : Ctx) (m : Bool), s.ctx = some x → s.mem.wf = true →
    (∀ c, x.g.recording = true → x.team.logFor x.g.log = some c → c.next + c.reservedEntries < 2 ^ 24 - 1 →
      c.entryEnd + c.reserved + 32 ≤ c.dtop → c.dtop < 2 ^ 32 → c.seg < 2 ^ 32 → x.slot < 256 →
      (∀ o ∈ (x.g.cls 1).ops, o.order ≠ 0) → s.spanHeld x.team c.space (c.seg + c.entryEnd) 32 = false → ∀ d,
      ∃ s' g', x.uniformSet g' d (wrap (c.next : Nat)) ∧ exec (.rmark m d) s = .next (x.completes s' g' m 1) ∧
        s'.teams.find x.g.team = some (x.team.putLog { c with nent := c.nent + 1 }) ∧
        (let b := s'.storeRead x.team c.space (c.seg + c.entryEnd) 32
         field b 0 1 = 3 ∧ field b 1 1 = 0 ∧ field b 2 1 = 0 ∧ field b 3 1 = x.slot ∧ field b 4 3 = 0xFFFFFF ∧ field b 7 1 = 0 ∧
           field b 8 2 = 0 ∧ field b 10 2 = 0 ∧ field b 12 4 = c.dtop ∧ field b 16 4 = c.seg ∧ field b 20 4 = 0xFFFFFFFF ∧
           field b 28 4 = 0xFFFFFFFF) ∧
        s.sameOutside s' (s.storeKey x.team c.space (c.seg + c.entryEnd)) 32 ∧
        { s' with teams := s.teams, mem := s.mem, hods := s.hods } = s) ∧
    (∀ (c : LogCtx) (a : Nat), x.g.recording = true → x.team.logFor x.g.log = some c → x.ready [a] →
      let seg := (x.uni a).toNat
      let len := s.segField x.team c.space seg 0 4
      seg % 64 = 0 → len % 64 = 0 → 128 ≤ len → len ≤ 2 ^ 24 → seg + len ≤ s.storeEnd x.team c.space → c.space ≤ 1 →
      (c.space = 1 → x.launch.form ≠ 1) → c.next < 2 ^ 32 → c.seg < 2 ^ 32 → (seg + 64 ≤ c.seg ∨ c.seg + 64 ≤ seg) →
      s.headHeld x.team c.space seg = false → s.headHeld x.team c.space c.seg = false →
      ∃ s', exec (.rlog m a) s = .next (x.completes s' x.g m 1) ∧
        s'.teams.find x.g.team = some (x.team.putLog
          { c with seg := seg, seglen := len, earlier := c.seg :: c.earlier, nent := 0, base := c.next, dtop := len }) ∧
        s'.segHolds x.team c.space seg 0 c.next len c.seg 0xFFFFFFFF ∧
        (c.nent < 2 ^ 32 → c.base < 2 ^ 32 → c.dtop < 2 ^ 32 → (∀ p ∈ c.earlier, p < 2 ^ 32) →
          s'.segHolds x.team c.space c.seg c.nent c.base c.dtop (c.earlier.headD 0xFFFFFFFF) seg) ∧
        s'.segField x.team c.space seg 0x24 28 = 0 ∧ s'.segField x.team c.space c.seg 0x24 28 = 0 ∧
        (∀ b, (b < s.storeKey x.team c.space (seg + 0x10) ∨ s.storeKey x.team c.space (seg + 0x10) + 48 ≤ b) →
          (b < s.storeKey x.team c.space (c.seg + 0x10) ∨ s.storeKey x.team c.space (c.seg + 0x10) + 48 ≤ b) →
          s'.mem.byte b = s.mem.byte b) ∧
        { s' with teams := s.teams, mem := s.mem, hods := s.hods } = s) ∧
    ((x.g.recording = false ∨ x.team.logFor x.g.log = none) → ∀ d a,
      exec (.rmark m d) s = .next (takeTrap x.core x.slot x.frag 1 x.f.pc s.ir 0 s) ∧
      exec (.rlog m a) s = .next (takeTrap x.core x.slot x.frag 1 x.f.pc s.ir 0 s)) ∧
    (∀ v c : Nat, (v < 16 ∧ x.mayTile v = true ∨ 32 ≤ v ∧ v < 64 ∧ x.mayAcc (v - 32) = true) → (c = 127 ∨ c ≠ 127 ∧ x.mayAcc c = true) →
      ∃ binds : Map Nat, (∀ k, binds.find k = if k = v then (if c = 127 then none else some c) else x.g.binds.find k) ∧
        exec (.rgrad m v c) s = .next (x.completes s { x.g with binds := binds } m 1)) ∧
    (∃ binds : Map Nat, (∀ k, binds.find k = none) ∧ exec (.rgrad m 127 127) s = .next (x.completes s { x.g with binds := binds } m 1)) ∧
    (∀ v c : Nat, c ≠ 127 → v = 127 ∨ (16 ≤ v ∧ v < 32) ∨ 64 ≤ v →
      exec (.rgrad m v c) s = .next (takeTrap x.core x.slot x.frag 1 x.f.pc s.ir 0 s)) ∧
    (∀ d, (∃ g', x.uniformSet g' d x.recStat ∧ exec (.rstat m d 0) s = .next (x.completes s g' m 1)) ∧
      (∃ g', x.uniformSet g' d (wrap (((if x.g.recording = true then x.team.logFor x.g.log else none).map fun c =>
          c.dtop - c.entryEnd - c.reserved).getD 0 : Nat)) ∧ exec (.rstat m d 1) s = .next (x.completes s g' m 1)) ∧
      (∃ g', x.uniformSet g' d (wrap (((if x.g.recording = true then x.team.logFor x.g.log else none).map (·.seg)).getD 0xFFFFFFFF : Nat)) ∧
        exec (.rstat m d 2) s = .next (x.completes s g' m 1)) ∧
      ∀ n, 2 < n → exec (.rstat m d n) s = .next (takeTrap x.core x.slot x.frag 1 x.f.pc s.ir 0 s))

/-- recon and recoff open and leave record mode; rmark, rlog, rgrad and rstat mark, go on, bind and read (R319, R327, R328, R329,
R330, R331, R332, R333). -/
def Obligations.RecordMode : Prop :=
  Sys2Proof.Claims.RecordModeOpens ∧ Sys2Proof.Claims.RecordModeWrites

namespace Sys2Proof.Machine

/-! ### Adjoints (08) -/

/-- `trvs` of a walk that has begun is at entry e of its log, in the segment at seg (R334). -/
structure Ctx.walks (x : Ctx) (s : State) (r : Reversal) (v : RevEnv) (e : LogEntry) (seg : Nat) : Prop where
  user : x.g.handler = false
  running : x.g.reversing = some r ∧ r.threads = x.f.threads ∧ r.pc = x.f.pc
  low : (if r.mark = 0xFFFFFFFF then 0 else r.mark + 1) < r.next
  log : ∃ l, r.log = some l ∧ x.revEnv s l = .ok v
  entry : v.entry ⟨s, x.team, false, false, false⟩ (r.next - 1) = .ok (e, seg)
  form : s.mem.wf = true ∧ (∀ k, s.covered k = false) ∧ s.launches.find x.team.launch = some x.launch
/-- The step of `trvs` leaves s', with the team t', and the walk one entry further with the flags that the entry raised. -/
def Ctx.reverses (x : Ctx) (s s' : State) (i : Instr) (r : Reversal) (t' : Team) (big nan lost : Bool) : Prop :=
  exec i s = .next (x.put s'
      { x.g with
        reversal := some { r with paused := false, next := r.next - 1, count := r.count + 1, ovf := r.ovf || big, nan := r.nan || nan }
        lost := x.g.lost || lost }) ∧
    s'.teams.find x.g.team = some t' ∧ (∀ k, k ≠ x.g.team → s'.teams.find k = s.teams.find k) ∧ { t' with accs := x.team.accs } = x.team ∧
    { s' with teams := s.teams, mem := s.mem, hods := s.hods, margins := s.margins } = s
/-- The rows, inner columns and columns of an entry's SHAPE (R320), and the columns of its output (R304). -/
def LogEntry.m (e : LogEntry) : Nat := e.shape / 256 + 1
def LogEntry.k (e : LogEntry) : Nat := 32 * (e.shape / 8 % 8 + 1)
def LogEntry.n (e : LogEntry) : Nat := 32 * (e.shape % 8 + 1)
def LogEntry.narrow (e : LogEntry) : Nat := if e.major = 0x3B ∧ (e.fn = 5 ∨ e.fn = 6) then 32 else e.n
/-- A value register is bound to accumulator k, of the shape that it needs; none if it is not bound. -/
def RevEnv.bound (v : RevEnv) (t : Team) (reg rows cols : Nat) (k : Option Nat) : Prop :=
  v.binds.find reg = k ∧ ∀ n, k = some n → t.accShape n = (rows, cols)

/-- v is x with contributions added one after another; each comes with an overflow met in forming it (R335). -/
def addsUp (x : W32) : List (Num × Prop) → W32 → Prop → Prop
  | [], v, big => v = x ∧ ¬big
  | (y, o) :: rest, v, big => ∃ w b b', addsTo x y w b ∧ addsUp w rest v b' ∧ (big ↔ o ∨ b ∨ b')
/-- What the accumulators of a team hold after contributions to each value of each accumulator, from the values that they hold before
it; OVF, and the flags of `trvs` (R335). -/
def Team.gathers (t t' : Team) (before : Nat → Nat → Nat → W32) (more : Nat → Nat → Nat → List (Num × Prop)) (big nan : Bool) : Prop :=
  ∃ o : Nat → Nat → Nat → Prop,
    (∀ k i j, j < 256 → addsUp (before k i j) (more k i j) ((t'.acc k).value i j) (o k i j)) ∧
    (∀ k, (t'.acc k).ovf = true ↔ (t.acc k).ovf = true ∨ ∃ i j, j < 256 ∧ o k i j) ∧
    (big = true ↔ ∃ k i j, j < 256 ∧ o k i j) ∧
    (nan = true ↔ ∃ k i j, j < 256 ∧ more k i j ≠ [] ∧ (f32Of ((t'.acc k).value i j)).isNan = true)
/-- Accumulator values, where one accumulator has been cleared. -/
def Team.clearedAt (t : Team) (c : Option Nat) (k i j : Nat) : W32 := if c = some k then 0 else (t.acc k).value i j
/-- A contribution that nothing has overflowed in forming. -/
def plainly (w : W32) : Num × Prop := (f32Of w, False)

/-- Quantised values as a tile of a shape (R246, R336). -/
def Tile.quantises (q : Tile) (rows cols width : Nat) (axis : Bool) (f : Nat → Nat → Num) : Prop :=
  q.sh = ⟨rows, cols, width, axis, false, 0⟩ ∧
    ∀ l b, l < (if axis then cols else rows) → b < (if axis then rows / 32 else cols / 32) → ∃ nan sat,
      let cell (i : Nat) : Nat × Nat := blockCell axis l b i
      blockIs width (fun i => f (cell i).1 (cell i).2) (fun _ => .rne) (q.d.exps.getZ (blockNumber axis cols l b)).toNat
        (fun i => (q.d.mants.getZ ((cell i).1 * cols + (cell i).2)).toInt) nan sat
/-- The value of a tile's element (R236). -/
def Tile.holds (a : Tile) (r c : Nat) (x : Num) : Prop :=
  let e := (a.d.exps.getZ (if a.sh.axis then r / 32 * a.sh.cols + c else r * (a.sh.cols / 32) + c / 32)).toNat
  (e = 0xFF → x.isNan = true) ∧ (e ≠ 0xFF → x.finite ∧
    x.real = (signedOf a.sh.width (a.d.mants.getZ (r * a.sh.cols + c)).toNat : ℚ) * (2 : ℚ) ^ ((e : Int) - 127 - ((a.sh.width : Int) - 1)))
/-- r(k) of R336. -/
def Tile.pairs (a : Tile) (k : Nat) : Option Nat :=
  if a.sh.mapped = false ∨ k < a.sh.kbase then some k
  else if k - a.sh.kbase < a.d.dup then some (a.d.map.getD (k - a.sh.kbase) 0).toNat else none
/-- Blocks 0 to n − 1 of a product, each with the sign of its mode. -/
def Tile.blocks (a b : Tile) (sub : Bool) (i j n : Nat) (l : List (Num × Prop)) : Prop :=
  ∃ p : Nat → Num, (∀ k, k < n → a.times b i j k (p k)) ∧
    l = (List.range n).map fun k => (if sub then (p k).opposite else p k, False)
/-- AdjMatMul's contributions to dA in rows first to first + m − 1 (R336): G is row-blocked, B re-blocked to N × Kc. -/
def adjointLeft (a b : Tile) (sub : Bool) (width m n : Nat) (g : Nat → Nat → Num) (l : Nat → Nat → List (Num × Prop)) : Prop :=
  ∃ (G BT : Tile) (y : Nat → Nat → Num), G.quantises m n width false g ∧ BT.quantises n a.sh.cols b.sh.width true y ∧
    (∀ c k, c < n → k < a.sh.cols → (∀ q, a.pairs k = some q → b.holds q c (y c k)) ∧
      (a.pairs k = none → (y c k).finite ∧ (y c k).real = 0)) ∧
    ∀ i k, i < m → k < a.sh.cols → G.blocks BT sub i k (n / 32) (l i k)
/-- Its contributions to dB: A re-blocked to Kc × M′, G column-blocked, k ascending. -/
def adjointRight (a : Tile) (sub : Bool) (width first m n : Nat) (g : Nat → Nat → Num) (l : Nat → Nat → List (Num × Prop)) : Prop :=
  let m' := 32 * ((m + 31) / 32)
  ∃ (AT G : Tile) (y z : Nat → Nat → Num) (each : Nat → Nat → List (Num × Prop)),
    AT.quantises a.sh.cols m' a.sh.width false y ∧ G.quantises m' n width true z ∧
    (∀ k i, k < a.sh.cols → i < m → a.holds (first + i) k (y k i)) ∧ (∀ i c, i < m → c < n → z i c = g i c) ∧
    (∀ k i, m ≤ i → i < m' → (y k i).finite ∧ (y k i).real = 0 ∧ (z i k).finite ∧ (z i k).real = 0) ∧
    (∀ k c, k < a.sh.cols → c < n → AT.blocks G sub k c (m' / 32) (each k c)) ∧
    ∀ q c, c < n → l q c = (List.range a.sh.cols).flatMap fun k => if a.pairs k = some q then each k c else []

/-- The word at an offset of a store. -/
def State.wordAt (s : State) (t : Team) (space a : Nat) : W32 := wrap (imageField (s.storeByte t space a) 0 4 : Nat)
/-- n bytes at a of a store may be read and written by the walk (R339). -/
def Ctx.walkMay (x : Ctx) (s : State) (space a n : Nat) : Prop :=
  space < 2 ∧ a + n ≤ s.storeEnd x.team space ∧ (space = 1 → x.launch.form = 1 → inRanges x.team 1 a n = true)
/-- A valid gradient image (R339). -/
def State.gradImage (s : State) (t : Team) (space a rows cols : Nat) : Prop :=
  ∃ h, readHead ((List.range 32).map (s.storeByte t space a)) = some h ∧ h.kind = 0x10 ∧ h.rows = rows ∧ h.cols = cols ∧ h.mapped = false
/-- Contributions have been added into a gradient image, with a valid header; nothing else of memory differs (R339). -/
def State.imageAdds (s s' : State) (t : Team) (space a rows cols : Nat) (more : Nat → Nat → List (Num × Prop)) (big nan : Bool) : Prop :=
  ∃ o : Nat → Nat → Prop,
    (⟨rows, cols, 0x10, false, 0, false, false, false, false⟩ : ImageHead).laid (s'.storeByte t space a) ∧
    (∀ i j, i < rows → j < cols →
      let at_ := a + 32 + 4 * (i * cols + j)
      (s.gradImage t space a rows cols → addsUp (s.wordAt t space at_) (more i j) (s'.wordAt t space at_) (o i j)) ∧
      (¬s.gradImage t space a rows cols → addsUp 0 (more i j) (s'.wordAt t space at_) (o i j))) ∧
    (big = true ↔ ∃ i j, i < rows ∧ j < cols ∧ o i j) ∧
    (nan = true ↔ ∃ i j, i < rows ∧ j < cols ∧ more i j ≠ [] ∧ (f32Of (s'.wordAt t space (a + 32 + 4 * (i * cols + j)))).isNan = true) ∧
    s.sameOutside s' (s.storeKey t space a) (32 + 4 * (rows * cols))

end Sys2Proof.Machine

/-- R323 and R324: what a kept operand is when `trvs` reads it: a saved copy, or the register as it is, which must have the entry's
shape. -/
def Sys2Proof.Claims.KeptOperands : Prop :=
  ∀ (s : State) (t : Team) (v : RevEnv) (reg saved rows cols width : Nat) (axis : Bool), (∀ k, s.covered k = false) →
    let r : Rev := ⟨s, t, false, false, false⟩
    let shape (mapped : Bool) (dupcap : Nat) : TileShape := ⟨rows, cols, width, axis, mapped, dupcap⟩
    let img := s.storeByte t v.space saved
    (∀ m n, t.tileShape reg = shape m n → (axis = true → m = false) →
      v.tile r reg 2 0xFFFFFFFF saved rows cols width axis = .ok ⟨shape m n, t.tile reg⟩) ∧
    ((∀ m n, t.tileShape reg = shape m n → axis = true ∧ m = true) →
      v.tile r reg 2 0xFFFFFFFF saved rows cols width axis = .error (.err 4)) ∧
    (∀ m, saved + (shape m 32).imageSize ≤ s.storeEnd t v.space → (shape m 32).matched img →
      ∃ d, v.tile r reg 1 0xFFFFFFFF saved rows cols width axis = .ok ⟨shape m 32, d⟩ ∧ TileData.created.loads d (shape m 32) img) ∧
    (t.accShape (reg - 32) = (rows, cols) →
      ∃ l, v.accum r reg 2 0xFFFFFFFF saved rows cols = .ok l ∧
        ∀ i j, i < rows → j < cols → l.getD (i * cols + j) 0 = (t.acc (reg - 32)).value i j) ∧
    (t.accShape (reg - 32) ≠ (rows, cols) → v.accum r reg 2 0xFFFFFFFF saved rows cols = .error (.err 4)) ∧
    ∀ h : ImageHead, readHead ((List.range 32).map img) = some h → h.mapped = false → h.rows = rows → h.cols = cols →
      saved + h.size ≤ s.storeEnd t v.space → ∃ l, v.accum r reg 1 0xFFFFFFFF saved rows cols = .ok l ∧
        ∀ i j, i < rows → j < cols →
          (h.kind = 0x10 → l.getD (i * cols + j) 0 = wrap (imageField img (h.elemsAt + 4 * (i * cols + j)) 4 : Nat)) ∧
          (h.kind ≠ 0x10 → ∃ x : Machine.Num, h.element img i j x ∧ x.roundsTo (l.getD (i * cols + j) 0) False)

/-- R335, R339 and R343 for entries that read no operand: one of another shape stops the walk before the entry with ERR 3; `tcfg` and `tdmap`
change nothing, `tzero` and `azero` clear their output gradient, and so do `tmovi` and `afil`, which add it into the image's gradient
image; `tmovo` and `adrn` take one; a reuse entry adds its output gradient into its origin's carry buffer, and an entry takes its carry
in. -/
def Sys2Proof.Claims.AdjointMoves : Prop :=
  ∀ (s : State) (x : Ctx) (m : Bool) (d a : Nat) (r : Reversal) (v : RevEnv) (e : LogEntry) (seg : Nat), s.ctx = some x →
    x.walks s r v e seg →
    let value (k : Option Nat) (i j : Nat) : W32 := k.elim 0 fun n => (x.team.acc n).value i j
    let none_ (_ _ _ : Nat) : List (Machine.Num × Prop) := []
    let image := (e.aux : Int) + v.head.goff
    (∀ k, (e.kind = 1 ∧ ¬(e.major = 0x3A ∧ (e.fn = 2 ∨ e.fn = 5)) ∨ (e.kind = 2 ∧ 32 ≤ e.dst ∧ e.dst < 64)) → v.binds.find e.dst = some k →
      x.team.accShape k ≠ (e.m, if e.kind = 2 ∨ e.major = 0x3A then e.n else e.narrow) →
      ∃ g', { x with g := { x.g with reversal := none, recErr := 3 } }.uniformSet g' d
          (wrap (2 ^ 30 + r.ovf.toNat * 2 ^ 29 + r.nan.toNat * 2 ^ 28 + 3 * 2 ^ 24 + r.count % 2 ^ 24 : Nat)) ∧
        exec (.trvs m d a) s = .next (x.completes s g' m 1)) ∧
    (∀ k, v.bound x.team e.dst e.m e.n k → e.kind = 1 → e.major = 0x3A → e.carry = 0xFFFFFFFF → (e.fn = 0 ∨ e.fn = 3 ∨ e.fn = 4 ∨ e.fn = 7) →
      ∃ s' t', x.reverses s s' (.trvs m d a) r t' false false false ∧ s'.mem = s.mem ∧
        x.team.gathers t' (x.team.clearedAt (if e.fn = 3 ∨ e.fn = 4 then k else none)) none_ false false) ∧
    (∀ (k : Option Nat) (cols space at_ : Nat), v.bound x.team e.dst e.m e.n k → e.kind = 1 → e.major = 0x3A → e.carry = 0xFFFFFFFF → (e.fn = 1 ∨ e.fn = 6) →
      (k = none → ∃ s', x.reverses s s' (.trvs m d a) r x.team false false false ∧ s'.mem = s.mem) ∧
      (k ≠ none → space = (if e.fn = 1 then e.aux2 % 2 else e.aux2 / 2 ^ 16 % 2) → cols = (if e.fn = 1 ∧ e.wa = 1 then e.n - 32 else e.n) →
        32 ≤ cols → image = at_ → at_ % 32 = 0 → x.walkMay s space at_ (32 + 4 * (e.m * cols)) →
        (e.fn = 1 → e.wa = 1 → e.wb ≤ 32 ∧ seg + e.doff + 32 ≤ s.storeEnd x.team v.space) →
        ∃ s' t' big nan more, x.reverses s s' (.trvs m d a) r t' big nan false ∧ s.imageAdds s' x.team space at_ e.m cols more big nan ∧
          x.team.gathers t' (x.team.clearedAt k) none_ false false ∧
          ∀ i j, i < e.m → j < cols →
            let folds (l : Nat) : Prop := e.fn = 1 ∧ e.wa = 1 ∧ l < e.wb ∧ l < 32 ∧ (s.storeByte x.team v.space (seg + e.doff) l).toNat = j
            ((∀ l, ¬folds l) → more i j = [plainly (value k i j)]) ∧
            ∀ l, folds l → (∀ p, p < l → ¬folds p) → ∃ z h fl w big, (f32Of (value k i j)).sumsTo false (f32Of (value k i (cols + l))) z fl ∧
              z.halves h ∧ h.roundsTo w big ∧ more i j = [plainly w])) ∧
    (∀ (k : Option Nat) (space at_ : Nat), v.bound x.team e.opa e.m e.n k → e.kind = 1 → e.major = 0x3A → (e.fn = 2 ∨ e.fn = 5) →
      space = (if e.fn = 2 then e.aux2 % 2 else e.aux2 / 2 ^ 9 % 2) → image = at_ → at_ % 32 = 0 →
      x.walkMay s space at_ (32 + 4 * (e.m * e.n)) →
      ∃ s' t' big nan more, x.reverses s s' (.trvs m d a) r t' big nan false ∧
        x.team.gathers t' (x.team.clearedAt none) more big nan ∧ s.sameOutside s' (s.storeKey x.team space at_) 32 ∧
        (∀ i, i < 32 → s'.storeByte x.team space at_ i = 0) ∧
        ((¬s.gradImage x.team space at_ e.m e.n) → more = none_) ∧
        (s.gradImage x.team space at_ e.m e.n → ∀ n i j, more n i j =
          if k = some n ∧ i < e.m ∧ j < e.n then [plainly (s.wordAt x.team space (at_ + 32 + 4 * (i * e.n + j)))] else [])) ∧
    (∀ k, v.bound x.team e.dst e.m e.n (some k) → e.kind = 2 → 32 ≤ e.dst → e.dst < 64 →
      (e.proda = 0xFFFFFFFF → ∃ s' t', x.reverses s s' (.trvs m d a) r t' false false true ∧ s'.mem = s.mem ∧
        x.team.gathers t' (x.team.clearedAt (some k)) none_ false false) ∧
      ∀ o oseg c cseg, e.proda ≠ 0xFFFFFFFF → v.entry ⟨s, x.team, false, false, false⟩ e.proda = .ok (o, oseg) → o.carry ≠ 0xFFFFFFFF →
        v.entry ⟨s, x.team, false, false, false⟩ o.carry = .ok (c, cseg) → x.walkMay s v.space (cseg + c.doff) (4 * (e.m * e.n)) →
        let word (i j : Nat) : Nat := cseg + c.doff + 4 * (i * e.n + j)
        ∃ (s' : State) (t' : Team) (big nan : Bool) (over_ : Nat → Nat → Prop), x.reverses s s' (.trvs m d a) r t' big nan false ∧
          x.team.gathers t' (x.team.clearedAt (some k)) none_ false false ∧
          s.sameOutside s' (s.storeKey x.team v.space (cseg + c.doff)) (4 * (e.m * e.n)) ∧
          (∀ i j, i < e.m → j < e.n →
            addsTo (s.wordAt x.team v.space (word i j)) (f32Of (value (some k) i j)) (s'.wordAt x.team v.space (word i j)) (over_ i j)) ∧
          (big = true ↔ ∃ i j, i < e.m ∧ j < e.n ∧ over_ i j) ∧
          (nan = true ↔ ∃ i j, i < e.m ∧ j < e.n ∧ (f32Of (s'.wordAt x.team v.space (word i j))).isNan = true)) ∧
    ∀ k src c cseg, e.kind = 1 → e.major = 0x3B → e.fn = 7 → v.bound x.team e.dst e.m e.n k → v.bound x.team e.opa e.m e.n src →
      e.carry ≠ 0xFFFFFFFF → v.entry ⟨s, x.team, false, false, false⟩ e.carry = .ok (c, cseg) →
      x.walkMay s v.space (cseg + c.doff) (4 * (e.m * e.n)) →
      let word (i j : Nat) : Nat := cseg + c.doff + 4 * (i * e.n + j)
      ∃ (s' : State) (t' : Team) (big nan big' nan' : Bool) (g : Nat → Nat → W32) (over_ : Nat → Nat → Prop),
        x.reverses s s' (.trvs m d a) r t' (big || big') (nan || nan') false ∧
        (∀ i j, i < e.m → j < e.n → addsTo (value k i j) (f32Of (s.wordAt x.team v.space (word i j))) (g i j) (over_ i j)) ∧
        (big = true ↔ ∃ i j, i < e.m ∧ j < e.n ∧ over_ i j) ∧ (nan = true ↔ ∃ i j, i < e.m ∧ j < e.n ∧ (f32Of (g i j)).isNan = true) ∧
        (∀ i, i < 4 * (e.m * e.n) → s'.storeByte x.team v.space (cseg + c.doff) i = 0) ∧
        s.sameOutside s' (s.storeKey x.team v.space (cseg + c.doff)) (4 * (e.m * e.n)) ∧
        x.team.gathers t' (x.team.clearedAt k) (fun n i j => if src = some n ∧ i < e.m ∧ j < e.n then [plainly (g i j)] else []) big' nan'

/-- R336 to R338 for products: an `mma` with its operands as the resolved modes give them, and an `mmah` or `mmag` whose B operands are saved,
into the accumulator that A is bound to or into the expert gradient area. -/
def Sys2Proof.Claims.AdjointProducts : Prop :=
  ∀ (s : State) (x : Ctx) (m : Bool) (d a : Nat) (r : Reversal) (v : RevEnv) (e : LogEntry) (seg : Nat), s.ctx = some x →
    x.walks s r v e seg → e.kind = 1 → e.carry = 0xFFFFFFFF → ∀ (k : Nat), v.bound x.team e.dst e.m e.n (some k) →
    let start : Rev := ⟨s, x.team, false, false, false⟩
    let g (i j : Nat) : Machine.Num := f32Of ((x.team.acc k).value i j)
    let modeA := e.modes % 4
    let modeB := e.modes / 4 % 4
    (∀ na nb ta tb, e.major = 0x38 → e.fn ≤ 2 → v.bound x.team e.opa e.m e.k na → v.tile start e.opa modeA e.proda (seg + e.doff) e.m e.k e.wa false = .ok ta →
      let inner := if ta.sh.mapped then ta.sh.kbase else ta.sh.cols
      v.bound x.team e.opb inner e.n nb →
      v.tile start e.opb modeB e.aux2 (seg + e.doff + if modeA = 1 then ta.sh.imageSize else 0) inner e.n e.wb true = .ok tb →
      ∃ s' t' big nan left right, x.reverses s s' (.trvs m d a) r t' big nan false ∧ s'.mem = s.mem ∧
        adjointLeft ta tb (e.fn == 2) v.head.width e.m e.n g left ∧ adjointRight ta (e.fn == 2) v.head.width 0 e.m e.n g right ∧
        x.team.gathers t' (x.team.clearedAt (if e.fn = 1 then some k else none))
          (fun n i j => (if na = some n ∧ i < e.m ∧ j < e.k then left i j else []) ++
            if nb = some n ∧ i < inner ∧ j < e.n then right i j else []) big nan) ∧
    ∀ many desc ta na, e.major = 0x39 → e.fn = (if many then 1 else 0) → modeB = 1 → v.bound x.team e.opa e.m e.k na →
      let size := if many then 192 else 64
      seg + e.doff + size ≤ s.storeEnd x.team v.space →
      readHandleDesc many (s.storeRead x.team v.space (seg + e.doff) size) = some desc →
      v.tile start e.opa modeA e.proda (seg + e.doff + size) e.m e.k e.wa false = .ok ta →
      let inner := if ta.sh.mapped then ta.sh.kbase else ta.sh.cols
      let savedB := seg + e.doff + size + (if modeA = 1 then ta.sh.imageSize else 0)
      let sb : TileShape := ⟨inner, e.n, e.wb, true, false, 0⟩
      let counts := if many then desc.counts else [e.m]
      let z := 32 + 4 * (inner * e.n)
      ∀ parts : List (Nat × Nat × Nat),
      parts = ((List.range counts.length).filter fun j => counts.getD j 0 ≠ 0).map
        (fun j => (j, (counts.take j).sum, counts.getD j 0)) →
      let live (b : Nat) : Prop := b < parts.length ∧ e.aux2.testBit (parts.getD b default).1 = false
      counts.sum ≤ e.m →
      (v.head.wgrad = 0xFFFFFFFF → ∀ n (tb : Nat → Tile), na = some n →
        (∀ b, live b → start.tileAt v.space ((savedB + b * sb.imageSize : Nat) : Int) inner e.n e.wb true (some false) = .ok (tb b)) →
        ∃ (s' : State) (t' : Team) (big nan : Bool) (left : Nat → Nat → Nat → List (Machine.Num × Prop)),
          x.reverses s s' (.trvs m d a) r t' big nan false ∧ s'.mem = s.mem ∧
          (∀ b, live b → let p := parts.getD b default
            adjointLeft ta (tb b) (desc.mode == 2) v.head.width p.2.2 e.n (fun i c => g (p.2.1 + i) c) (left b)) ∧
          ∃ more, x.team.gathers t' (x.team.clearedAt (if desc.mode = 1 then some k else none)) more big nan ∧
            (∀ b i j, live b → i < (parts.getD b default).2.2 → j < e.k → more n ((parts.getD b default).2.1 + i) j = left b i j) ∧
            (∀ q i j, q ≠ n → more q i j = []) ∧
            ∀ i j, (e.k ≤ j ∨ ∀ b, live b → i < (parts.getD b default).2.1 ∨ (parts.getD b default).2.1 + (parts.getD b default).2.2 ≤ i) →
              more n i j = []) ∧
      (v.head.wgrad ≠ 0xFFFFFFFF → na = none → 32 ≤ e.n →
        let image (b : Nat) : Nat := v.head.wgrad + (if many then desc.experts.getD (parts.getD b default).1 0 else 0) * z
        (∀ b, live b → image b % 32 = 0 ∧ x.walkMay s v.space (image b) z) →
        ∃ (s' : State) (t' : Team) (big nan : Bool) (right : Nat → Nat → Nat → List (Machine.Num × Prop)) (st : Nat → State)
          (bigs nans : Nat → Bool), x.reverses s s' (.trvs m d a) r t' big nan false ∧
          x.team.gathers t' (x.team.clearedAt (if desc.mode = 1 then some k else none)) (fun _ _ _ => []) false false ∧
          st parts.length = s ∧ (st 0).mem = s'.mem ∧
          (∀ b, b < parts.length →
            (¬live b → st b = st (b + 1) ∧ bigs b = false ∧ nans b = false) ∧
            (live b → (let p := parts.getD b default
              adjointRight ta (desc.mode == 2) v.head.width p.2.1 p.2.2 e.n (fun i c => g (p.2.1 + i) c) (right b)) ∧
              (st (b + 1)).imageAdds (st b) x.team v.space (image b) inner e.n (right b) (bigs b) (nans b))) ∧
          (big = true ↔ ∃ b, b < parts.length ∧ bigs b = true) ∧ (nan = true ↔ ∃ b, b < parts.length ∧ nans b = true))

/-- R340 and R341: the accumulator operations, S and T as the resolved modes give them; and the points where F′ is exact. -/
def Sys2Proof.Claims.AdjointOps : Prop :=
  (∀ (s : State) (x : Ctx) (m : Bool) (d a : Nat) (r : Reversal) (v : RevEnv) (e : LogEntry) (seg : Nat), s.ctx = some x →
    x.walks s r v e seg → e.kind = 1 → e.carry = 0xFFFFFFFF → e.major = 0x3B → e.fn ≤ 7 →
    ∀ (k : Nat) (ns nt : Option Nat) (S T : List W32), v.bound x.team e.dst e.m e.narrow (some k) → v.bound x.team e.opa e.m e.n ns →
    (e.fn = 1 ∨ e.fn = 2 → v.bound x.team e.opb e.m e.n nt) → (¬(e.fn = 1 ∨ e.fn = 2) → nt = none) →
    let start : Rev := ⟨s, x.team, false, false, false⟩
    let modeA := e.modes % 4
    (e.fn = 0 ∨ e.fn = 2 → v.accum start e.opa modeA e.proda (seg + e.doff) e.m e.n = .ok S) →
    (e.fn = 2 → v.accum start e.opb (e.modes / 4 % 4) e.aux2 (seg + e.doff + if modeA = 1 then 32 + e.m * e.n * 4 else 0) e.m e.n = .ok T) →
    (e.fn = 6 → seg + e.doff + 2 * e.m ≤ s.storeEnd x.team v.space) →
    let at_ (l : List W32) (i j : Nat) : W32 := l.getD (i * e.n + j) 0
    let g (i j : Nat) : W32 := (x.team.acc k).value i j
    let p := ((e.aux : Int) + v.head.goff).toNat
    (e.fn = 4 → 0 ≤ (e.aux : Int) + v.head.goff ∧ p % 4 = 0 ∧ p + 4 * e.n ≤ x.team.kernel.unit) →
    ∃ (s' : State) (t' : Team) (big nan big' nan' : Bool) (cs ct : Nat → Nat → List (Machine.Num × Prop)),
      x.reverses s s' (.trvs m d a) r t' (big || big') (nan || nan') false ∧
      x.team.gathers t' (x.team.clearedAt (some k))
        (fun n i j => if i < e.m ∧ j < e.n then (if ns = some n then cs i j else []) ++ (if nt = some n then ct i j else []) else []) big nan ∧
      (e.fn ≠ 4 → s'.mem = s.mem ∧ big' = false ∧ nan' = false) ∧
      (∀ i j, i < e.m → j < e.n →
        (e.fn = 0 → ∃ w b, timesTo (g i j) (activationSlope ([.relu, .gelu, .silu, .sigm, .tanh, .erf].getD e.wa .relu) (at_ S i j)) w b ∧
          cs i j = [(f32Of w, b)]) ∧
        (e.fn = 1 ∨ e.fn = 4 ∨ e.fn = 7 → cs i j = [plainly (g i j)]) ∧ (e.fn = 1 → ct i j = [plainly (g i j)]) ∧
        (e.fn = 2 → ∃ w b w' b', timesTo (g i j) (at_ T i j) w b ∧ timesTo (g i j) (at_ S i j) w' b' ∧ cs i j = [(f32Of w, b)] ∧
          ct i j = [(f32Of w', b')]) ∧
        (e.fn = 3 → ∃ w b, timesTo (g i j) (wrap (e.aux : Nat)) w b ∧ cs i j = [(f32Of w, b)]) ∧
        (e.fn = 5 → cs i j = [plainly (g i 0)]) ∧
        (e.fn = 6 → cs i j = if imageField (s.storeByte x.team v.space (seg + e.doff)) (2 * i) 2 = j then [plainly (g i 0)] else [])) ∧
      (e.fn = 4 → s.sameOutside s' (s.storeKey x.team 0 p) (4 * e.n) ∧ ∃ (sum : Nat → W32) (o b : Nat → Prop),
        (∀ j, j < e.n → chainsTo (g 0 j) (e.m - 1) (fun i => f32Of (g (i + 1) j)) (sum j) (o j) ∧
          addsTo (s.wordAt x.team 0 (p + 4 * j)) (f32Of (sum j)) (s'.wordAt x.team 0 (p + 4 * j)) (b j)) ∧
        (big' = true ↔ ∃ j, j < e.n ∧ (o j ∨ b j)) ∧
        (nan' = true ↔ ∃ j, j < e.n ∧ (f32Of (s'.wordAt x.team 0 (p + 4 * j))).isNan = true))) ∧
  ∀ (f : Activation) (w : W32),
    ((f32Of w).isNan = true → activationSlope f w = 0x7FC00000) ∧
    (f = .relu → (f32Of w).isNan = false → activationSlope f w = if 0 < f32Place w.toNat then 0x3F800000 else 0) ∧
    (w.toNat % 2 ^ 31 = 0 → activationSlope f w = match f with
      | .relu => 0
      | .gelu | .silu => 0x3F000000
      | .sigm => 0x3E800000
      | .tanh => 0x3F800000
      | .erf => 0x3F906EBB) ∧
    (w = 0x7F800000 → activationSlope f w = match f with
      | .relu | .gelu | .silu => 0x3F800000
      | .sigm | .tanh | .erf => 0) ∧
    (w = 0xFF800000 → activationSlope f w = 0)

/-- R334: `trvs` ends with ERR 1 and its status word where a group still records into its log or it has none; a walk that has reached its
lowest entry completes with its flags and count; a mark entry is counted and changes nothing else; in handler mode and while
recording it is illegal. That the operand 0xFFFF_FFFF in a group without a log gives ERR 1 too is the model's choice
(notes/assumptions/36.md). -/
def Sys2Proof.Claims.ReverseEnds : Prop :=
  ∀ (s : State) (x : Ctx) (m : Bool) (d a : Nat), s.ctx = some x →
    ((x.g.handler = true ∨ (x.g.recording = true ∧ x.g.reversing = none)) →
      exec (.trvs m d a) s = .next (takeTrap x.core x.slot x.frag 1 x.f.pc s.ir 0 s)) ∧
    (x.g.handler = false →
      (x.g.reversing = none → x.g.recording = false → x.ready [a] → (x.g.cls 1).ops = [] → (x.g.log = none ∨ (x.team.logFor x.g.log).isSome = true) →
        ∃ g', { x with g := { x.g with reversal := none, recErr := 1 } }.uniformSet g' d 0x41000000 ∧
          exec (.trvs m d a) s = .next (x.completes s g' m 1)) ∧
      ∀ r, x.g.reversing = some r → r.threads = x.f.threads → r.pc = x.f.pc →
        let low := if r.mark = 0xFFFFFFFF then 0 else r.mark + 1
        (r.next ≤ low → ∃ g', { x with g := { x.g with reversal := none, recErr := 0 } }.uniformSet g' d
            (wrap (r.ovf.toNat * 2 ^ 29 + r.nan.toNat * 2 ^ 28 + r.count % 2 ^ 24 : Nat)) ∧
          exec (.trvs m d a) s = .next (x.completes s g' m 1)) ∧
        ∀ (l : LogRef) (v : RevEnv) (e : LogEntry) (seg : Nat), low < r.next → r.log = some l → x.revEnv s l = .ok v →
          v.entry ⟨s, x.team, false, false, false⟩ (r.next - 1) = .ok (e, seg) → e.kind = 3 →
          ∃ s', exec (.trvs m d a) s = .next (x.put s'
              { x.g with reversal := some { r with paused := false, next := r.next - 1, count := r.count + 1 } }) ∧
            s'.teams.find x.g.team = some x.team ∧ (∀ k, k ≠ x.g.team → s'.teams.find k = s.teams.find k) ∧
            { s' with teams := s.teams } = s)

/-- `trvs` ends, walks and traps as R334 says, and the adjoint of each entry adds its contributions into the bound accumulators, the gradient
images, the bias gradients and the carry buffers (R323, R324, R334 to R341, R343). That the operand 0xFFFF_FFFF in a group without a log
gives ERR 1 too is the model's choice (notes/assumptions/36.md). -/
def Obligations.ReverseResult : Prop :=
  Sys2Proof.Claims.ReverseEnds ∧ Sys2Proof.Claims.KeptOperands ∧ Sys2Proof.Claims.AdjointMoves ∧ Sys2Proof.Claims.AdjointProducts ∧
    Sys2Proof.Claims.AdjointOps

/-- R350: the 16 row-band sums of a tile, exact before their one rounding. -/
def Sys2Proof.Claims.SignatureValues : Prop :=
  ∀ (d : TileData) (sh : TileShape) (k : Nat), 2 ≤ sh.width → k < 16 →
    let lo := k * sh.rows / 16
    let hi := (k + 1) * sh.rows / 16
    let nan (r c : Nat) : Prop := (d.exps.getZ (blockOf sh.axis sh.cols r c)).toNat = 0xFF
    let value (r c : Nat) : ℚ := (signedOf sh.width (d.mants.getZ (r * sh.cols + c)).toNat : ℚ) *
      (2 : ℚ) ^ (((d.exps.getZ (blockOf sh.axis sh.cols r c)).toNat : Int) - 127 - ((sh.width : Int) - 1))
    let v := (signature d sh).getD k 0
    ((∃ r c, lo ≤ r ∧ r < hi ∧ c < sh.cols ∧ nan r c) → v = 0x7FC00000) ∧
    ((∀ r c, lo ≤ r → r < hi → c < sh.cols → ¬nan r c) → ∃ n m e, v = (roundTo f32 false (.fin n m e) .rne).1 ∧ (m = 0 → n = false) ∧
      (Machine.Num.fin n m e).real =
        ((List.range (hi - lo)).map fun i => ((List.range sh.cols).map fun c => value (lo + i) c).sum).sum)

/-- R351 and R361: the decision on a tile, and bits 23 to 20 of the result word. -/
def Sys2Proof.Claims.SkipRule : Prop :=
  ∀ (c : SeqCfg) (sig old : List Nat) (age : Nat) (valid : Bool), c.theta.toNat < 0x7C00 → (∀ v ∈ sig ++ old, v < 2 ^ 32) →
    let x := decideSig c sig old age valid
    ∃ (d m diff : Nat → Nat) (lim : Nat) (z : Machine.Num) (fl : Flags), d 0 = 0 ∧ m 0 = 0 ∧
      (∀ k, k < 16 → f32Sum (sig.getD k 0) (f32Minus (old.getD k 0)) (diff k) ∧ f32Sum (d k) (f32Size (diff k)) (d (k + 1)) ∧
        f32Sum (m k) (f32Size (old.getD k 0)) (m (k + 1))) ∧
      (decodeNum f16 false c.theta.toNat).multipliesTo (decodeNum f32 false (m 16)) z fl ∧ lim = (roundTo f32 false z .rne).1 ∧
      x.d = d 16 ∧
      let finite := ∃ n mant e, decodeNum f32 false (d 16) = .fin n mant e
      let close := finite ∧ (decodeNum f32 false lim = .inf false ∨
        ∃ n mant e, decodeNum f32 false lim = .fin n mant e ∧ (decodeNum f32 false (d 16)).real ≤ (decodeNum f32 false lim).real)
      let young := c.refresh = 0 ∨ age + 1 < c.refresh
      (x.skip = true ↔ valid = true ∧ young ∧ close) ∧ x.bits < 2 ^ 24 ∧ x.bits % 2 ^ 20 = 0 ∧
        (x.bits.testBit 23 = true ↔ x.skip = true) ∧ (x.bits.testBit 22 = true ↔ valid = false) ∧
        (x.bits.testBit 21 = true ↔ valid = true ∧ close ∧ ¬young) ∧ (x.bits.testBit 20 = true ↔ ¬finite)

/-- R351, R352, R359, R361, R362, R364 and R365: what each class 3 operation has done to the stores once it has made all its accesses, and
what it does to its slot and answers at its end. -/
def Sys2Proof.Claims.SequencerWork : Prop :=
  ∀ (s : State) (t : Team) (k : Nat) (c : SeqCfg) (q : SeqSlot), s.mem.wf = true → s.seqSlots.find k = some q →
    let all (w : SeqWork) : State × List Byte := w.accessMany t w.accesses 0 s []
    let slot (s' : State) (v : SeqSlot) : Prop := ∀ j, s'.seqSlots.find j = if j = k then some v else s.seqSlots.find j
    let cleared : SeqSlot := { q with
      skip := [], signedMap := [], signedCount := 0, skipped := 0, suppressed := 0, mapStep := none, mapOpen := false }
    let starts (w : SeqWork) (v : SeqSlot) : Prop := slot (w.start s) v ∧ { w.start s with seqSlots := s.seqSlots } = s
    (s.entriesOnly (all (.sqcfg k c false)).1 t c (fun _ _ => True) ∧
      ∀ e i, e < c.tiles → i < 160 → (all (.sqcfg k c false)).1.entryField t c e i 1 = 0) ∧
    (s.entriesOnly (all (.sqrst k c)).1 t c (fun _ i => 0x80 ≤ i ∧ i < 0x83) ∧
      ∀ e, e < c.tiles → (all (.sqrst k c)).1.entryField t c e 0x80 3 = 0) ∧
    (∀ s', s' = (all (.sqend k c)).1 →
      s.entriesOnly s' t c (fun _ i => i < 0x40 ∨ (0x80 ≤ i ∧ i < 0x83)) ∧ ∀ e, e < c.tiles →
        (e ∈ q.signedMap → e ∉ q.skip → (∀ i, i < 0x40 → s'.entryField t c e i 1 = s.entryField t c e (0x40 + i) 1) ∧
          s'.entryField t c e 0x80 2 = 0 ∧ s'.entryField t c e 0x82 1 = 1) ∧
        ((e ∈ q.skip ∨ e ∉ q.signedMap) → ∀ i, i < 0x40 → s'.entryField t c e i 1 = s.entryField t c e i 1) ∧
        (e ∈ q.signedMap → e ∈ q.skip → s'.entryField t c e 0x80 2 = min (s.entryField t c e 0x80 2 + 1) 65535 ∧
          s'.entryField t c e 0x82 1 = s.entryField t c e 0x82 1) ∧
        (e ∉ q.signedMap → s'.entryField t c e 0x80 3 = 0)) ∧
    (∀ tile sh i, i < c.tiles →
      let sig := signature (t.tile tile) sh
      let old := (List.range 16).map fun n => s.entryField t c i (4 * n) 4
      let x := decideSig c sig old (s.entryField t c i 0x80 2) (s.entryField t c i 0x82 1 % 2 == 1)
      let s' := all (.sqsig k c tile sh i)
      s.entriesOnly s'.1 t c (fun e n => e = i ∧ (0x40 ≤ n ∧ n < 0x80 ∨ 0x84 ≤ n ∧ n < 0x88)) ∧
      (∀ n, n < 16 → s'.1.entryField t c i (0x40 + 4 * n) 4 = sig.getD n 0) ∧ s'.1.entryField t c i 0x84 4 = x.d ∧
      let f := (SeqWork.sqsig k c tile sh i).finish s'.1 t s'.2
      f.2 = BitVec.ofNat 32 (x.bits + i) ∧ { f.1 with seqSlots := s.seqSlots } = s'.1 ∧
      ∃ skip signed, slot f.1 { q with
          skip := skip, signedMap := signed, signedCount := if i ∈ q.signedMap then q.signedCount else q.signedCount + 1
          skipped := if x.skip = true then (if i ∈ q.skip then q.skipped else q.skipped + 1)
            else if i ∈ q.skip then q.skipped - 1 else q.skipped } ∧
        (∀ j, j ∈ signed ↔ j = i ∨ j ∈ q.signedMap) ∧ ∀ j, j ∈ skip ↔ if j = i then x.skip = true else j ∈ q.skip) ∧
    (∀ a, c.gridx * c.gridy ≤ 4096 →
      let s' := (all (.sqmap k c a)).1
      let size := 32 + 32 * ((c.gridx * c.gridy + 255) / 256)
      let f (i n : Nat) : Nat := field (s'.storeRead t 0 a size) i n
      s.onlyMemory s' ∧ s.sameOutside s' (s.storeKey t 0 a) size ∧ f 0 2 = c.gridx * c.gridy ∧
      (∀ n, q.mapStep = some n → f 2 2 = n % 2 ^ 16) ∧ f 4 1 = q.mapOpen.toNat ∧ f 5 3 = 0 ∧ f 8 4 = q.signedCount % 2 ^ 32 ∧
      f 12 4 = q.skipped % 2 ^ 32 ∧ f 16 4 = q.suppressed % 2 ^ 32 ∧ f 20 12 = 0 ∧
      (∀ i, i < 8 * (size - 32) → (f (32 + i / 8) 1 / 2 ^ (i % 8) % 2 = 1 ↔ i < c.gridx * c.gridy ∧ i ∈ q.skip)) ∧
      (SeqWork.sqmap k c a).finish s' t [] = (s', BitVec.ofNat 32 size)) ∧
    ((∀ keep, starts (.sqcfg k c keep) cleared) ∧ starts (.sqrst k c) cleared ∧
      (∀ n, starts (.sqbeg k n) { cleared with mapStep := some n, mapOpen := true }) ∧
      (∀ w : SeqWork, ((∃ tile sh i, w = .sqsig k c tile sh i) ∨ (∃ a, w = .sqmap k c a) ∨ w = .sqend k c ∨ w = .sqfull ∨ w = .sqfree) → w.start s = s) ∧
      (∀ n, (SeqWork.sqbeg k n).finish s t [] = (s, BitVec.ofNat 32 n)) ∧ SeqWork.sqfull.finish s t [] = (s, 0x44000000) ∧
      (∀ w : SeqWork, ((∃ keep, w = .sqcfg k c keep) ∨ w = .sqrst k c ∨ w = .sqfree) → w.finish s t [] = (s, 0)) ∧
      slot ((SeqWork.sqend k c).finish s t []).1 { q with mapOpen := false } ∧
      ((SeqWork.sqend k c).finish s t []).2 = BitVec.ofNat 32 (q.skipped * 2 ^ 13 + q.signedCount) ∧
      (SeqWork.sqcfg k c true).accesses = 0)

/-- R21, R115, R118, R354, R357, R361 and R366: a turn of the sequencer for a group's one class 3 operation, which is the oldest of its core and
waits for no class 1 operation: it begins, makes some more of its accesses in order, and after the last one it retires with its result
word; a `sqsig` that is cancelled before it begins retires with STATUS 0b10. How many accesses a turn makes is open, and the model's free
choice (notes/assumptions/23.md). -/
def Sys2Proof.Claims.SequencerTurn : Prop :=
  ∀ (s : State) (core slot : Nat) (g : Machine.Group) (t : Team) (l : Launch) (o : Op) (w : SeqWork), slot < 64 →
    (s.debugOf core).frozen = false → s.groups.find (slotKey core slot) = some g → s.teams.find g.team = some t →
    s.launches.find t.launch = some l → g.frags ≠ [] → t.stopped = false → (g.cls 3).ops = [o] → o.cmd = .seqr w →
    (o.phase = .issued ∨ o.phase = .begun) → s.seqReady core g.team o w = true → o.written ≤ w.accesses →
    let retires (s' : State) (s₂ : State) (word : W32) : Prop :=
      s'.mem = s₂.mem ∧ (∀ k q, q.num < 256 → (s'.seqSlots.find k = some q ↔ s₂.seqSlots.find k = some q)) ∧
      ∃ g', s'.groups.find (slotKey core slot) = some g' ∧ (g'.cls 3).ops = [] ∧
        (∀ b r, (∃ p ∈ g.pendingRegs, p.cls = 3 ∧ p.seq = o.seq ∧ p.reg = r ∧ r ≠ 0 ∧ (24 ≤ r → p.handlerBank = b)) →
          g'.readG b r = word) ∧
        (∀ i, w.tile ≠ none → g.signatures.find i = some (o.seq, none) → g'.signatures.find i =
          some (o.seq, some (decide (word.toNat / 2 ^ 30 = 0) && word.getLsbD 23)))
    (o.cancel = true → w.tile ≠ none → o.phase = .issued → ∃ s', exec (.operationRetire core slot 3) s = .next s' ∧
      retires s' s 0x80000000) ∧
    ((o.cancel = false ∨ w.tile = none ∨ o.phase = .begun) →
      let s₁ := if o.phase = .issued then w.start s else s
      ∃ n, o.written + n ≤ w.accesses ∧
        let r := w.accessMany t n o.written s₁ o.got
        ∃ s', exec (.operationRetire core slot 3) s = .next s' ∧
          (o.written + n < w.accesses → s'.mem = r.1.mem ∧ s'.seqSlots = s₁.seqSlots ∧ ∃ g', s'.groups.find (slotKey core slot) = some g' ∧
            g.opBecomes g' 3 { o with phase := .begun, written := o.written + n, got := r.2 } ∧ { g' with classes := g.classes } = g) ∧
          (o.written + n = w.accesses → retires s' (w.finish r.1 t r.2).1 (w.finish r.1 t r.2).2))

/-- R20 and R357 to R365: a class 3 instruction whose checks pass is issued with its number, its place in the engine's order and its
handle; the slot and the step change at once. In handler mode it is illegal, and the checks that fail trap in their order; a `sqbeg` waits
while another group has a step open on the slot. -/
def Sys2Proof.Claims.SequencerIssues : Prop :=
  ∀ (s : State) (x : Ctx) (i : Instr) (r : SeqRow), s.ctx = some x → SeqDoes s x i r →
    (x.g.handler = true → exec i s = .next (takeTrap x.core x.slot x.frag 1 x.f.pc s.ir 0 s)) ∧
    (x.g.handler = false → x.ready r.srcs → r.ok → (x.g.cls 3).ops.length < 127 →
      ∃ s' g', r.g.Issues g' s.ir 3 0 r.h (.seqr r.work) (s.nextOrder + 1) s.tick ∧
        exec i s = .next (x.completes s' g' r.m 1) ∧ s'.seqSlots.holds s.seqSlots r.slot ∧
        { s' with seqSlots := s.seqSlots, nextOrder := s.nextOrder } = s ∧ s'.nextOrder = s.nextOrder + 1) ∧
    (∀ srcs cause info1, x.g.handler = false → SeqTraps s x i srcs cause info1 → x.ready srcs →
      exec i s = .next (takeTrap x.core x.slot x.frag cause x.f.pc s.ir info1 s)) ∧
    ∀ m h b k q, i = .sqbeg m h b → x.g.handler = false → x.ready [b] → (x.uni b).toNat < 256 → x.g.step = none →
      s.boundSlot x.core x.g.team (x.uni b).toNat = some (k, q) → q.openBy ≠ none → exec i s = .next s

/-- Class 3 instructions are issued or trap; a turn of the sequencer performs their work: signatures, the skip rule, commits and images
(R20, R350 to R352, R354, R357 to R366). -/
def Obligations.SequencerIssues : Prop :=
  Sys2Proof.Claims.SequencerIssues ∧ Sys2Proof.Claims.SignatureValues ∧ Sys2Proof.Claims.SkipRule ∧ Sys2Proof.Claims.SequencerWork ∧
    Sys2Proof.Claims.SequencerTurn

/-- R20, R371, R384 to R392: a class 2 instruction whose checks pass, on a kiln that its team holds or that is free, is issued with its
number, order and handle, and the team holds the kiln. In handler mode, and while another team holds the kiln, it is illegal. -/
def Obligations.KilnIssues : Prop :=
  ∀ (s : State) (x : Ctx) (i : Instr) (r : KilnRow), s.ctx = some x → KilnDoes s x i r →
    ((x.g.handler = true ∨ ∃ t, (s.kiln x.core).claim = some t ∧ t ≠ x.g.team) →
      exec i s = .next (takeTrap x.core x.slot x.frag 1 x.f.pc s.ir 0 s)) ∧
    (x.g.handler = false → ((s.kiln x.core).claim = none ∨ (s.kiln x.core).claim = some x.g.team) → x.ready r.srcs → r.ok →
      (x.g.cls 2).ops.length < 127 →
      ∃ s' g', x.g.Issues g' s.ir 2 0 r.h (.kiln r.work) (s.nextOrder + 1) s.tick ∧ exec i s = .next (x.completes s' g' r.m 1) ∧
        s'.kiln x.core = { s.kiln x.core with claim := some x.g.team } ∧ (∀ c, c ≠ x.core → s'.kiln c = s.kiln c) ∧
        { s' with kilns := s.kilns, nextOrder := s.nextOrder } = s ∧ s'.nextOrder = s.nextOrder + 1)

/-- R20, R443 to R447, R457, R462 and R463: a collective whose descriptor and communicator keep their limits is issued with its number,
order and handle, and takes the next instance number of its key; `cstat` reads the domain, and its die's copy of the ports up and
the collectives in flight. Collectives are illegal in handler mode. What `cstat` reads before its die has taken a copy, and that a copy
is taken in status turns alone, are the model's choices (notes/assumptions/9.md and 23.md). -/
def Obligations.CollectiveIssues : Prop :=
  ∀ (s : State) (x : Ctx) (m : Bool), s.ctx = some x →
    (∀ (i : Instr) (fn h a : Nat) (c : CollCmd), CollDoes i fn m h a →
      (x.g.handler = true → exec i s = .next (takeTrap x.core x.slot x.frag 1 x.f.pc s.ir 0 s)) ∧
      (x.g.handler = false → x.ready [a] → CollAt s x fn (x.uni a).toNat c →
        ((x.team.launch / 2 ^ 20, c.ckey) ∈ s.ckeys ∨ (s.ckeys.filter fun p => p.1 = x.team.launch / 2 ^ 20).length < 256) →
        (x.launch.form = 1 → c.spans.2 ≠ 0 → inRanges x.team 0 c.dst c.spans.2 = true) → (x.g.cls 4).ops.length < 127 →
        (s.groups.values.map fun g => (g.cls 4).ops.length).sum < 64 →
        ∃ s' g', x.g.Issues g' s.ir 4 0 h (.coll c) (s.nextOrder + 1) s.tick ∧ exec i s = .next (x.completes s' g' m 1) ∧
          (x.team.launch / 2 ^ 20, c.ckey) ∈ s'.ckeys ∧ (∀ p, p ∈ s.ckeys → p ∈ s'.ckeys) ∧
          s'.instance_ c.ckey = s.instance_ c.ckey + 1 ∧ (∀ k, k ≠ c.ckey → s'.instance_ k = s.instance_ k) ∧
          { s' with ckeys := s.ckeys, instances := s.instances, nextOrder := s.nextOrder } = s ∧
          s'.nextOrder = s.nextOrder + 1)) ∧
    ∀ d, (∃ g', x.uniformSet g' d (wrap (Config.domainSize * 2 ^ 16 + Config.moduleIndex : Nat)) ∧
        exec (.cstat m d 0) s = .next (x.completes s g' m 1)) ∧
      (∃ g', x.uniformSet g' d (wrap ((s.dieStatus.get (x.core / 48) (36, 0)).1 % 2 ^ 6 : Nat)) ∧
        exec (.cstat m d 1) s = .next (x.completes s g' m 1)) ∧
      (∃ g', x.uniformSet g' d (wrap ((s.dieStatus.get (x.core / 48) (36, 0)).2 % 2 ^ 16 : Nat)) ∧
        exec (.cstat m d 2) s = .next (x.completes s g' m 1)) ∧
      (∀ n, 2 < n → exec (.cstat m d n) s = .next (takeTrap x.core x.slot x.frag 1 x.f.pc s.ir 0 s)) ∧
      ∀ die, { s.copyStatus die with dieStatus := s.dieStatus } = s ∧ ∀ j, (s.copyStatus die).dieStatus.get j (36, 0) =
        if j = die then (36 - s.linksDown.length, (s.groups.values.map fun g => (g.cls 4).ops.length).sum)
        else s.dieStatus.get j (36, 0)

namespace Sys2Proof.Machine

/-! ### Hods (13) -/

/-- RV64IM register-register operations in integer arithmetic (R469, RISC-V 20191213). -/
def opSpec (op : RvOp) (a b : W64) : W64 :=
  let n := b.toNat % 64
  let of (x : Int) : W64 := BitVec.ofInt 64 x
  match op with
  | .add => of (a.toInt + b.toInt)
  | .sub => of (a.toInt - b.toInt)
  | .sll => of (a.toNat * 2 ^ n : Nat)
  | .slt => if a.toInt < b.toInt then 1 else 0
  | .sltu => if a.toNat < b.toNat then 1 else 0
  | .xor => a ^^^ b
  | .srl => of (a.toNat / 2 ^ n : Nat)
  | .sra => of (a.toInt / 2 ^ n)
  | .or => a ||| b
  | .and => a &&& b
  | .mul => of (a.toInt * b.toInt)
  | .mulh => of (a.toInt * b.toInt / 2 ^ 64)
  | .mulhsu => of (a.toInt * b.toNat / 2 ^ 64)
  | .mulhu => of (a.toNat * b.toNat / 2 ^ 64 : Nat)
  | .div => if b = 0 then of (-1) else of (a.toInt.tdiv b.toInt)
  | .divu => if b = 0 then of (-1) else of (a.toNat / b.toNat : Nat)
  | .rem => if b = 0 then a else of (a.toInt.tmod b.toInt)
  | .remu => if b = 0 then a else of (a.toNat % b.toNat : Nat)

/-- The word operations, whose results are sign-extended from 32 bits. -/
def opSpec32 (op : RvOp32) (a b : W32) : W64 :=
  let n := b.toNat % 32
  let of (x : Int) : W64 := BitVec.ofInt 64 (wrap x).toInt
  match op with
  | .addw => of (a.toInt + b.toInt)
  | .subw => of (a.toInt - b.toInt)
  | .sllw => of (a.toNat * 2 ^ n : Nat)
  | .srlw => of (a.toNat / 2 ^ n : Nat)
  | .sraw => of (a.toInt / 2 ^ n)
  | .mulw => of (a.toInt * b.toInt)
  | .divw => if b = 0 then of (-1) else of (a.toInt.tdiv b.toInt)
  | .divuw => if b = 0 then of (-1) else of (a.toNat / b.toNat : Nat)
  | .remw => if b = 0 then of a.toInt else of (a.toInt.tmod b.toInt)
  | .remuw => if b = 0 then of a.toInt else of (a.toNat % b.toNat : Nat)

/-- The operation of an immediate form. -/
def immOp : RvOpImm → RvOp
  | .addi => .add | .slti => .slt | .sltiu => .sltu | .xori => .xor | .ori => .or | .andi => .and | .slli => .sll
  | .srli => .srl | .srai => .sra
def immOp32 : RvOpImm32 → RvOp32
  | .addiw => .addw | .slliw => .sllw | .srliw => .srlw | .sraiw => .sraw

/-- A branch is taken. -/
def branchSpec (c : RvBranch) (a b : W64) : Prop :=
  match c with
  | .beq => a = b
  | .bne => a ≠ b
  | .blt => a.toInt < b.toInt
  | .bge => b.toInt ≤ a.toInt
  | .bltu => a.toNat < b.toNat
  | .bgeu => b.toNat ≤ a.toNat

/-- What a base instruction without an access to memory does: the register it writes (x0 for none), the value, and the next pc. -/
structure HodRow where
  rd : Nat
  value : W64
  pc : W64

open Classical in
/-- The base instructions that access no memory, for a hod h whose instruction has n bytes (R469). -/
inductive HodDoes (h : Hod) (n : Nat) : HodInstr → HodRow → Prop
  | lui rd imm : HodDoes h n (.lui rd imm) ⟨rd, BitVec.ofInt 64 (signedOf 32 (imm.toNat * 2 ^ 12)), h.pc + BitVec.ofNat 64 n⟩
  | auipc rd imm : HodDoes h n (.auipc rd imm)
      ⟨rd, h.pc + BitVec.ofInt 64 (signedOf 32 (imm.toNat * 2 ^ 12)), h.pc + BitVec.ofNat 64 n⟩
  | jal rd off : HodDoes h n (.jal rd off) ⟨rd, h.pc + BitVec.ofNat 64 n, h.pc + BitVec.ofInt 64 off.toInt⟩
  | jalr rd rs1 imm : HodDoes h n (.jalr rd rs1 imm)
      ⟨rd, h.pc + BitVec.ofNat 64 n, BitVec.ofNat 64 ((h.reg rs1 + BitVec.ofInt 64 imm.toInt).toNat / 2 * 2)⟩
  | branch c rs1 rs2 off : HodDoes h n (.branch c rs1 rs2 off)
      ⟨0, 0, if branchSpec c (h.reg rs1) (h.reg rs2) then h.pc + BitVec.ofInt 64 off.toInt else h.pc + BitVec.ofNat 64 n⟩
  | opImm op rd rs1 imm : HodDoes h n (.opImm op rd rs1 imm)
      ⟨rd, opSpec (immOp op) (h.reg rs1) (BitVec.ofInt 64 imm.toInt), h.pc + BitVec.ofNat 64 n⟩
  | opImm32 op rd rs1 imm : HodDoes h n (.opImm32 op rd rs1 imm)
      ⟨rd, opSpec32 (immOp32 op) ((h.reg rs1).setWidth 32) (BitVec.ofInt 32 imm.toInt), h.pc + BitVec.ofNat 64 n⟩
  | op op rd rs1 rs2 : HodDoes h n (.op op rd rs1 rs2) ⟨rd, opSpec op (h.reg rs1) (h.reg rs2), h.pc + BitVec.ofNat 64 n⟩
  | op32 op rd rs1 rs2 : HodDoes h n (.op32 op rd rs1 rs2)
      ⟨rd, opSpec32 op ((h.reg rs1).setWidth 32) ((h.reg rs2).setWidth 32), h.pc + BitVec.ofNat 64 n⟩
  | fence tso p q rd rs1 : HodDoes h n (.fence tso p q rd rs1) ⟨0, 0, h.pc + BitVec.ofNat 64 n⟩

/-- h' is the hod of x but that register rd holds v, unless it is x0, and for the pc. -/
def HodCtx.regSet (x : HodCtx) (h' : Hod) (rd : Nat) (v pc : W64) : Prop :=
  (∀ k, h'.reg k = if k = rd ∧ rd ≠ 0 then v else x.h.reg k) ∧ h' = { x.h with x := h'.x, pc := pc }

/-- The byte at a place of a hod's address space. -/
def HodCtx.byteAt (x : HodCtx) (s : State) (p : HodPlace) : Byte :=
  match p with
  | .code off => x.h.istore.getZ off
  | .data off => x.h.dstore.getZ off
  | .unit off => s.mem.byte (x.unitPlace off)

/-- n bytes at an address may be accessed, lie at the places l, and no copy covers them (R470, R478). -/
def HodCtx.grants (x : HodCtx) (s : State) (a : HodAccess) (addr : W64) (n : Nat) (l : List HodPlace) : Prop :=
  x.places a addr.toNat n = some l ∧ ∀ off, HodPlace.unit off ∈ l → s.covered (x.unitPlace off) = false

/-- s' and h' are the machine and the hod of x once the bytes b have been stored to the places l by the hod (R471). -/
def HodCtx.stored (x : HodCtx) (s s' : State) (h' : Hod) (l : List HodPlace) (b : Nat → Byte) : Prop :=
  s.onlyMemory s' ∧ h' = { x.h with dstore := h'.dstore } ∧ s'.hods.find (hodKey x.core x.store) = s.hods.find (hodKey x.core x.store) ∧
    (∀ j, j < l.length → { x with h := h' }.byteAt s' (l.getD j (.code 0)) = b j) ∧
    (∀ a, (∀ off, HodPlace.unit off ∈ l → a ≠ x.unitPlace off) → s'.mem.byte a = s.mem.byte a) ∧
    ∀ off, HodPlace.data off ∉ l → h'.dstore.getZ off = x.h.dstore.getZ off

/-- The register value of a load of a number of n bytes. -/
def loadSpec (w : RvLoad) (v : Nat) : W64 :=
  match w with
  | .lb => BitVec.ofInt 64 (signedOf 8 v)
  | .lh => BitVec.ofInt 64 (signedOf 16 v)
  | .lw => BitVec.ofInt 64 (signedOf 32 v)
  | .ld | .lbu | .lhu | .lwu => BitVec.ofNat 64 v

/-- What an atomic memory operation on `bits` bits stores. -/
def amoSpec (op : RvAmo) (bits old v : Nat) : Nat :=
  match op with
  | .swap => v
  | .add => (old + v) % 2 ^ bits
  | .xor => old ^^^ v
  | .and => old &&& v
  | .or => old ||| v
  | .min => lesser bits old v
  | .max => greater bits old v
  | .minu => min old v
  | .maxu => max old v

/-- The hod of x once it has halted with a cause (R471). -/
def HodCtx.halted (x : HodCtx) (cause : Nat) : Hod :=
  { x.h with status := 3, cause := cause, haltPc := x.h.pc, reservation := none }

/-- A hod copy (R473): its function, rd, rs1, and the row indices that an index table at rs2 gives. -/
inductive HodCopyDoes (x : HodCtx) (s : State) : Instr → Nat → Nat → Nat → List Int → Prop
  | cpyi rd rs1 : HodCopyDoes x s (.hcpyCpyi rd rs1) 0 rd rs1 []
  | cpyo rd rs1 : HodCopyDoes x s (.hcpyCpyo rd rs1) 1 rd rs1 []
  | tmvl rd rs1 : HodCopyDoes x s (.hcpyTmvl rd rs1) 4 rd rs1 []
  | cpyx rd rs1 : HodCopyDoes x s (.hcpyCpyx rd rs1) 5 rd rs1 []
  | cpyg rd rs1 rs2 tab n : x.h.reg rs2 = BitVec.ofNat 64 (tab + 2 ^ 32 * n) → tab % 4 = 0 → n ≤ 32 →
      tab + 4 * n ≤ x.team.kernel.unit → tab < 2 ^ 32 → HodCopyDoes x s (.hcpyCpyg rd rs1 rs2) 2 rd rs1
        ((List.range n).map fun j => signedOf 32 (leNat (s.mem.bytes (unitKey x.core (x.team.base + (tab + 4 * j))) 4)))
  | cpys rd rs1 rs2 tab n : x.h.reg rs2 = BitVec.ofNat 64 (tab + 2 ^ 32 * n) → tab % 4 = 0 → n ≤ 32 →
      tab + 4 * n ≤ x.team.kernel.unit → tab < 2 ^ 32 → HodCopyDoes x s (.hcpyCpys rd rs1 rs2) 3 rd rs1
        ((List.range n).map fun j => signedOf 32 (leNat (s.mem.bytes (unitKey x.core (x.team.base + (tab + 4 * j))) 4)))

end Sys2Proof.Machine

/-- R469 to R471: what the base instructions of a hod do, what halts it, and when its reservation goes. That loads, stores and atomics are
performed whole as they execute is the model's choice for such a turn (notes/assumptions/5.md), and so is CAUSE 3 before CAUSE 4 for a
misaligned atomic outside the map (notes/assumptions/37.md). -/
def Obligations.HodBaseResult : Prop :=
  (∀ (s : State) (x : HodCtx) (c : Bool), s.hodCtx = some x →
    let n := if c then 2 else 4
    let next := x.h.pc + BitVec.ofNat 64 n
    let put (s : State) (h : Hod) : State := s.putHod x.core x.store h
    (∀ i r, HodDoes x.h n i r → ∃ h', x.regSet h' r.rd r.value r.pc ∧ exec (.hodInstruction c i) s = .next (put s h')) ∧
    (∀ w rd rs1 imm, let addr := x.h.reg rs1 + BitVec.ofInt 64 imm.toInt
      (∀ l, x.grants s .load addr (rvLoadBytes w) l →
        ∃ h', x.regSet h' rd (loadSpec w (leNat (l.map (x.byteAt s)))) next ∧
          exec (.hodInstruction c (.load w rd rs1 imm)) s = .next (put s h')) ∧
      (x.places .load addr.toNat (rvLoadBytes w) = none →
        exec (.hodInstruction c (.load w rd rs1 imm)) s = .next (put s (x.halted 4)))) ∧
    (∀ w rs1 rs2 imm, s.mem.wf = true → let addr := x.h.reg rs1 + BitVec.ofInt 64 imm.toInt
      (∀ l, x.grants s .store addr (rvStoreBytes w) l →
        ∃ s' h', x.stored s s' h' l (fun j => BitVec.ofNat 8 ((x.h.reg rs2).toNat / 2 ^ (8 * j))) ∧
          exec (.hodInstruction c (.store w rs1 rs2 imm)) s = .next (put s' { h' with pc := next })) ∧
      (x.places .store addr.toNat (rvStoreBytes w) = none →
        exec (.hodInstruction c (.store w rs1 rs2 imm)) s = .next (put s (x.halted 4)))) ∧
    (∀ (dword aq rl : Bool) rd rs1 rs2 op, s.mem.wf = true →
      let size := if dword then 8 else 4
      let loaded (v : Nat) : W64 := if dword then BitVec.ofNat 64 v else BitVec.ofInt 64 (signedOf 32 v)
      let v := (x.h.reg rs2).toNat % 2 ^ (8 * size)
      ((x.h.reg rs1).toNat % size ≠ 0 →
        exec (.hodInstruction c (.lr dword aq rl rd rs1)) s = .next (put s (x.halted 3)) ∧
        exec (.hodInstruction c (.sc dword aq rl rd rs1 rs2)) s = .next (put s (x.halted 3)) ∧
        exec (.hodInstruction c (.amo op dword aq rl rd rs1 rs2)) s = .next (put s (x.halted 3))) ∧
      ∀ l, (x.h.reg rs1).toNat % size = 0 → x.grants s .store (x.h.reg rs1) size l →
        let old := leNat (l.map (x.byteAt s))
        let mine := x.granule (l.headD (.code 0))
        (∃ h', x.regSet h' rd (loaded old) next ∧
          exec (.hodInstruction c (.lr dword aq rl rd rs1)) s = .next (put s { h' with reservation := some mine })) ∧
        (x.h.reservation ≠ some mine → ∃ h', x.regSet h' rd 1 next ∧
          exec (.hodInstruction c (.sc dword aq rl rd rs1 rs2)) s = .next (put s { h' with reservation := none })) ∧
        (x.h.reservation = some mine → ∃ s' h₁ h', x.stored s s' h₁ l (fun j => BitVec.ofNat 8 (v / 2 ^ (8 * j))) ∧
          { x with h := h₁ }.regSet h' rd 0 next ∧
          exec (.hodInstruction c (.sc dword aq rl rd rs1 rs2)) s = .next (put s' { h' with reservation := none })) ∧
        ∃ s' h₁ h', x.stored s s' h₁ l (fun j => BitVec.ofNat 8 (amoSpec op (8 * size) old v / 2 ^ (8 * j))) ∧
          { x with h := h₁ }.regSet h' rd (loaded old) next ∧
          exec (.hodInstruction c (.amo op dword aq rl rd rs1 rs2)) s = .next (put s' h')) ∧
    exec .ecall s = .next (put s (x.halted 6)) ∧
    ((s.debugOf x.core).attached = false → exec (.ebreak c) s = .next (put s (x.halted 5))) ∧
    ((s.debugOf x.core).attached = true →
      exec (.ebreak c) s = .next (put s { x.h with status := 4, haltPc := x.h.pc, reservation := none }))) ∧
  ∀ (s : State) (core : Nat) (store : Bool) (h : Hod), s.hods.find (hodKey core store) = some h →
    ∃ s', exec (.reservationExpiry core store) s = .next s' ∧ { s' with hods := s.hods } = s ∧
      ∀ k, s'.hods.find k = if k = hodKey core store then some { h with reservation := none } else s.hods.find k

/-- R473 to R476: the custom instructions of a hod: copies, waits on copies, rings and queues. -/
def Obligations.HodCustomResult : Prop :=
  ∀ (s : State) (x : HodCtx), s.hodCtx = some x →
    let next := x.h.pc + 4
    let put (s : State) (h : Hod) : State := s.putHod x.core x.store h
    let halts (i : Instr) (cause : Nat) : Prop := exec i s = .next (put s (x.halted cause))
    (∀ i fn rd rs1 rows c, HodCopyDoes x s i fn rd rs1 rows →
      s.checkCopy x.env (x.usable s) fn (x.h.reg rs1).toNat rows = .ok c → x.h.ops.length < 32 →
      (c.desc.ring = true → (s.ring x.core c.desc.rnum).nfill + (s.ring x.core c.desc.rnum).reserved.length <
        (s.ring x.core c.desc.rnum).count) → (s.scoreboard.filter fun e => e.core = x.core).length < 32 →
      ∃ s' h' slot op, x.regSet h' rd (BitVec.ofNat 64 x.h.nextSeq) next ∧
        op = (⟨x.h.nextSeq, .issued, false, none, [], 0, .copy { c with slotAddr := slot }, 0, s.tick, 0, []⟩ : Op) ∧
        { s' with rings := s.rings, scoreboard := s.scoreboard } = s ∧
        (∃ results, exec i s = .next (put s' { h' with
          ops := x.h.ops ++ [op], nextSeq := if x.h.nextSeq = 0x7FFFFFFF then 1 else x.h.nextSeq + 1, results := results })) ∧
        (c.desc.ring = false → s'.rings = s.rings ∧ slot = c.slotAddr)) ∧
    (∀ rd rs1, (2 ^ 31 ≤ (x.h.reg rs1).toNat → halts (.hwtWait rd rs1) 7 ∧ halts (.hwtTest rd rs1) 7 ∧ halts (.hwtCancel rd rs1) 7) ∧
      ((x.h.reg rs1).toNat < 2 ^ 31 →
        let n := (x.h.reg rs1).toNat
        let out := ∃ o ∈ x.h.ops, o.seq = n
        (out → exec (.hwtWait rd rs1) s = .next s) ∧
        (¬out → ∃ h', x.regSet h' rd (BitVec.ofNat 64 ((x.h.results.find n).getD 0xC0000000).toNat) next ∧
          exec (.hwtWait rd rs1) s = .next (put s h')) ∧
        (∃ h' v, (out → v = 0) ∧ (¬out → v = 1) ∧ x.regSet h' rd v next ∧ exec (.hwtTest rd rs1) s = .next (put s h')) ∧
        ∃ h' ops, x.regSet h' rd 0 next ∧ exec (.hwtCancel rd rs1) s = .next (put s { h' with ops := ops }) ∧
          ops.length = x.h.ops.length ∧ ∀ (j : Nat) (o : Op), x.h.ops[j]? = some o →
            ops[j]? = some { o with cancel := if o.seq = n then true else o.cancel })) ∧
    (∀ rd, ∃ h', x.regSet h' rd (BitVec.ofNat 64 x.h.ops.length) next ∧ exec (.hwtCnt rd) s = .next (put s h')) ∧
    (∀ rd rs1 rs2, let n := (x.h.reg rs2).toNat
      let r := s.ring x.core n
      let k := (x.h.reg rs1).toNat
      let mine := r.count ≠ 0 ∧ ∃ u t, r.owner = some u ∧ s.teams.find u = some t ∧ t.launch = x.team.launch
      ((16 ≤ n ∨ ¬mine) → halts (.hringAwait rd rs1 rs2) 7 ∧ halts (.hringRel rd rs1 rs2) 7 ∧ halts (.hringStat rd rs2) 7) ∧
      (n < 16 → mine →
        (r.count ≤ k → halts (.hringAwait rd rs1 rs2) 7) ∧
        (k < r.count → r.nfill ≤ k → exec (.hringAwait rd rs1 rs2) s = .next s) ∧
        (k < r.count → k < r.nfill → ∃ h', x.regSet h' rd (BitVec.ofNat 64 (r.base + (r.rdi + k) % r.count * r.slotsz)) next ∧
          exec (.hringAwait rd rs1 rs2) s = .next (put s h')) ∧
        ((k = 0 ∨ r.count < k) → halts (.hringRel rd rs1 rs2) 7) ∧
        (1 ≤ k → k ≤ r.count → r.nfill < k → exec (.hringRel rd rs1 rs2) s = .next s) ∧
        (1 ≤ k → k ≤ r.count → k ≤ r.nfill → ∃ s', exec (.hringRel rd rs1 rs2) s = .next (put s' { x.h with pc := next }) ∧
          { s' with rings := s.rings } = s ∧
          ∀ c j, j < 16 → s'.ring c j = if c = x.core ∧ j = n then { r with rdi := (r.rdi + k) % r.count, nfill := r.nfill - k }
            else s.ring c j) ∧
        ∃ h', x.regSet h' rd (BitVec.ofNat 64 ((2 ^ 31 + r.reserved.length * 2 ^ 24 + r.nfill * 2 ^ 16 + r.rdi * 2 ^ 8 + r.count) %
            2 ^ 32)) next ∧ exec (.hringStat rd rs2) s = .next (put s h'))) ∧
    (∀ rd rs1 rs2, let n := (x.h.reg rs2).toNat
      let q := s.queue x.core n
      let v : W32 := BitVec.ofNat 32 (x.h.reg rs1).toNat
      let after (q' : Queue) (s' : State) : Prop := { s' with queues := s.queues } = s ∧
        ∀ c j, j < 8 → s'.queue c j = if c = x.core ∧ j = n then q' else s.queue c j
      ((8 ≤ n ∨ q.owner ≠ some x.uid) →
        halts (.hqPop rd rs2) 7 ∧ halts (.hqPopnb rd rs2) 7 ∧ halts (.hqPush rs1 rs2) 7 ∧ halts (.hqPushnb rd rs1 rs2) 7) ∧
      (n < 8 → q.owner = some x.uid →
        (q.items = [] → exec (.hqPop rd rs2) s = .next s ∧
          ∃ h', x.regSet h' rd 0 next ∧ exec (.hqPopnb rd rs2) s = .next (put s h')) ∧
        (∀ w rest, q.items = w :: rest → ∃ s', after { q with items := rest } s' ∧
          (∃ h', x.regSet h' rd (BitVec.ofNat 64 w.toNat) next ∧ exec (.hqPop rd rs2) s = .next (put s' h')) ∧
          ∃ h', x.regSet h' rd (BitVec.ofNat 64 (2 ^ 32 + w.toNat)) next ∧ exec (.hqPopnb rd rs2) s = .next (put s' h')) ∧
        (64 ≤ q.items.length → exec (.hqPush rs1 rs2) s = .next s) ∧
        (q.items.length < 64 → ∃ s', after { q with items := q.items ++ [v] } s' ∧
          exec (.hqPush rs1 rs2) s = .next (put s' { x.h with pc := next })) ∧
        (q.items.length < 64 → q.drops ≤ 0xFFFFFF → ∃ s' h', after { q with items := q.items ++ [v] } s' ∧
          x.regSet h' rd 1 next ∧ exec (.hqPushnb rd rs1 rs2) s = .next (put s' h')) ∧
        (64 ≤ q.items.length → ∃ s' h', after { q with drops := min (q.drops + 1) 0xFFFFFF } s' ∧
          x.regSet h' rd 0 next ∧ exec (.hqPushnb rd rs1 rs2) s = .next (put s' h'))))

namespace Sys2Proof.Machine

/-! ### Rings, tasks and the scheduler (11) -/

/-- A good packet of a type stands at RPTR of its ring and may start now, and no access of the port meets an error (R397 to R400); p is
what it says. -/
def Packet.atHead (p : Packet) (s : State) (type : Nat) : Prop :=
  let r := s.workRing p.port p.ring
  let h := s.ringBytes p.port r 16
  p.ring < 64 ∧ s.ready = true ∧ s.portFails = none ∧ s.update = none ∧ r.enable = true ∧ r.halted = false ∧ r.held = none ∧
    headerCode r.size.toNat h = none ∧ field h 0 1 = type ∧ 16 * field h 2 2 ≤ (r.wptr - r.rptr).toNat ∧
    (field h 1 1 % 2 = 1 → r.openPackets = []) ∧ p.serial = s.nextSerial + 1 ∧ p.serial ∉ r.openPackets ∧
    p.intr = decide (field h 1 1 / 2 = 1) ∧ p.ctx = field h 4 2 ∧ p.gen = field h 6 2 ∧ p.tag = BitVec.ofNat 32 (field h 8 4) ∧
    p.body = (s.ringBytes p.port r (16 * field h 2 2)).drop 16

/-- s' is s but that a ring's control block is r (R397). -/
def State.ringSet (s s' : State) (port ring : Nat) (r : WorkRing) : Prop :=
  { s' with workRings := s.workRings, nextSerial := s.nextSerial } = s ∧
    ∀ a b, b < 64 → s'.workRing a b = if a = port ∧ b = ring then r else s.workRing a b

/-- s' is s after a packet of n bytes has been consumed: RPTR has passed it, and it is open or has completed. -/
def Packet.passes (p : Packet) (s s' : State) (n : Nat) (opened : Bool) : Prop :=
  let r := s.workRing p.port p.ring
  s.ringSet s' p.port p.ring
      { r with
        rptr := r.rptr + BitVec.ofNat 32 n, held := none, barrier := none
        openPackets := if opened then r.openPackets ++ [p.serial] else r.openPackets } ∧
    s'.nextSerial = p.serial

/-- s' is s after a packet has taken hold of its ring. -/
def Packet.holds (p : Packet) (s s' : State) (barrier : Option (List Nat)) : Prop :=
  let r := s.workRing p.port p.ring
  s.ringSet s' p.port p.ring
      { r with
        openPackets := r.openPackets ++ [p.serial], barrier := barrier
        held := some (p.serial, leBytes 2 p.ctx ++ leBytes 2 p.gen ++ leBytes 4 p.tag.toNat ++ p.body) } ∧
    s'.nextSerial = p.serial

/-- The condition of a wait-value packet on the 64-bit value b (R400). -/
def Packet.satisfied (p : Packet) (b : List Byte) : Prop :=
  let v := leNat b &&& field p.body 16 8
  let ref := field p.body 8 8
  match field p.body 24 1 with
  | 0 => v = ref
  | 1 => v ≠ ref
  | 2 => ref ≤ v
  | _ => v < ref

/-- No team, task, record or saved team of a launch is left, and none is to be placed (R408). -/
structure State.launchDone (s : State) (key : Nat) (l : Launch) : Prop where
  teams : ∀ e ∈ s.teams.entries, e.2.launch ≠ key
  saved : ∀ v ∈ s.saved, v.team.launch ≠ key
  tasks : ∀ e ∈ s.tasks.entries, e.2.launch ≠ key
  bins : ∀ b ∈ s.bins, b.2.launch ≠ key
  formed : ∀ f ∈ s.formed, f.2.launch ≠ key
  records : l.spheld = [] ∧ l.unplaced = []

/-- What a task descriptor b says of a task (R417). -/
structure Task.says (t : Task) (b : List Byte) (key die : Nat) (handle : W32)
    (host : Option (Nat × Nat × Nat × W32 × Bool × W64)) : Prop where
  place : t.launch = key ∧ t.die = die ∧ t.tix = field b 4 2
  shape : t.kernel.entry = field b 0 4 ∧ t.kernel.groups = field b 6 1 ∧ t.kernel.tiles = field b 7 1 ∧
    t.kernel.accs = field b 8 1 ∧ t.kernel.trapTiles = field b 9 1 ∧ t.kernel.unit = field b 0x0C 4
  trap : t.kernel.trapEntry = if field b 0x10 4 = 0xFFFFFFFF then none else some (field b 0x10 4)
  restart : t.restart = decide (field b 0x0A 2 = 1)
  reads : t.reads = (List.range 4).map fun i => ⟨field b (0x20 + 16 * i) 8, field b (0x28 + 16 * i) 4, field b (0x2C + 16 * i) 1⟩
  writes : t.writes = (List.range 2).map fun i => ⟨field b (0x60 + 16 * i) 8, field b (0x68 + 16 * i) 4, field b (0x6C + 16 * i) 1⟩
  args : t.args = (List.range 8).map fun i => BitVec.ofNat 32 (field b (0x80 + 4 * i) 4)
  rest : t.state = .queued ∧ t.renamed = [none, none] ∧ t.handler = false ∧ t.handle = handle ∧ t.host = host ∧ t.copied = 0
  free : t.startAfterCommit = [] ∧ t.startAfterComplete = [] ∧ t.commitAfterComplete = [] ∧ t.commitAfterCommit = [] ∧ t.readsFrom = []

/-- s' is s but that task number s.nextTask is t. -/
def State.taskAdded (s s' : State) (t : Task) : Prop :=
  { s' with tasks := s.tasks, nextTask := s.nextTask } = s ∧ s'.nextTask = s.nextTask + 1 ∧
    ∀ k, s'.tasks.find k = if k = s.nextTask then some t else s.tasks.find k

/-- The team of number s.nextTeam stands on a seat in s', with the given groups in its slots (R408). -/
structure State.seated (s s' : State) (seat : Seat) (key kind : Nat) (k : Kernel) (groups : List Group) : Prop where
  number : s'.nextTeam = s.nextTeam + 1
  team : ∃ t, s'.teams.find s.nextTeam = some t ∧ t.launch = key ∧ t.kind = kind ∧ t.teamIx = seat.teamIx ∧ t.core = seat.core ∧
    t.base = seat.base ∧ t.slots = seat.slots ∧ t.kernel = k ∧ t.stopped = false ∧ t.leaving = 0
  others : ∀ u, u ≠ s.nextTeam → s'.teams.find u = s.teams.find u
  slots : ∀ i g, groups[i]? = some g → s'.groups.find (slotKey seat.core (seat.slots.getD i 0)) = some g
  groups : ∀ n, (∀ slot ∈ seat.slots, n ≠ slotKey seat.core slot) → s'.groups.find n = s.groups.find n

/-- A new group of a team (R408): one fragment of all threads at the entry, every register zero. -/
def Group.fresh (uid gix entry : Nat) (g : Group) : Prop :=
  g.team = uid ∧ g.gix = gix ∧ (∃ f, g.frags = [f] ∧ f.pc = BitVec.ofNat 32 entry ∧ f.threads = -1 ∧ f.k0 = -1 ∧ f.wait = .none) ∧
    (∀ b r t, g.readV b r t = 0) ∧ (∀ b n, g.readG b n = 0) ∧ (∀ n, g.k.getZ n = 0) ∧ (∀ c, g.cls c = ⟨1, 0, []⟩) ∧ g.handler = false

end Sys2Proof.Machine

/-- R397, R398 and R400 for a packet at the head of its ring: WAIT_VALUE, SIGNAL, BARRIER, CONTEXT_CREATE (R403), CONTEXT_DESTROY
(R404) and LAUNCH (R406). -/
def Sys2Proof.Claims.RingPackets : Prop :=
  ∀ (s : State) (p : Packet),
    let b := p.body
    let c := s.context p.ctx
    let compl (n : Nat) : Nat := field b n 8
    let current := c.live = true ∧ c.destroying = none ∧ c.port = p.port ∧ c.gen = p.gen
    (p.atHead s 3 → current → field b 0 8 % 8 = 0 → field b 24 1 ≤ 3 → field b 25 7 = 0 →
      ∀ v, s.readVirt p.ctx (field b 0 8) 8 = some v →
        (p.satisfied v → ∃ s', p.passes s s' 48 false ∧ exec (.waitValue p.port p.ring) s = .next s') ∧
        (¬p.satisfied v → ∃ s', p.holds s s' none ∧ exec (.waitValue p.port p.ring) s = .next s')) ∧
    (p.atHead s 4 → current → field b 0 8 % 8 = 0 → field b 16 1 ≤ 1 → field b 17 15 = 0 →
      ∀ v s₁, s.readVirt p.ctx (field b 0 8) 8 = some v →
        s.writeVirt p.ctx (field b 0 8) (leBytes 8 (if field b 16 1 = 1 then field b 8 8 + leNat v else field b 8 8)) = some s₁ →
        ∃ s', p.passes s₁ s' 48 false ∧ exec (.signal p.port p.ring) s = .next s') ∧
    (p.atHead s 5 → field b 8 8 = 0 →
      let named := (List.range 64).filter fun n => n = p.ring ∨ field b 0 8 / 2 ^ n % 2 = 1
      let waits := named.flatMap fun n => (s.workRing p.port n).openPackets
      (waits = [] → ∃ s', p.passes s s' 32 false ∧ exec (.barrier p.port p.ring) s = .next s') ∧
      (waits ≠ [] → ∃ s', p.holds s s' (some waits) ∧ exec (.barrier p.port p.ring) s = .next s')) ∧
    (p.atHead s 6 → c.live = false → field b 0 8 % 2 ^ 16 = 0 → field b 8 8 % 2 ^ 16 = 0 → field b 0x10 8 % 2 ^ 16 = 0 →
      (field b 0x18 8 = 0 → field b 0x20 8 = 0) → field b 0x28 1 ≤ 1 → field b 0x29 7 = 0 → compl 0x30 % 32 = 0 → field b 0x38 8 = 0 →
      ∃ s₁, p.passes s s₁ 80 true ∧ exec (.contextCreate p.port p.ring) s = .next
        ({ s₁ with
          contexts := s₁.contexts.set p.ctx
            { live := true, gen := (c.gen + 1) % 65536, port := p.port, root := field b 0 8 % 2 ^ 41
              savepool := BitVec.ofNat 64 (field b 8 8), savepoolsz := field b 0x10 8
              faultRing := BitVec.ofNat 64 (field b 0x18 8), faultResp := BitVec.ofNat 64 (field b 0x20 8)
              secure := decide (field b 0x28 1 = 1), destroying := none, discarded := 0, respStuck := false } }.complete
          p.port p.ring p.serial p.tag p.ctx (compl 0x30) true ⟨0, 0, -1, 0, 0, 0⟩ 0)) ∧
    (p.atHead s 7 → current → (∀ e ∈ s.contexts.entries, e.2.destroying = none) → compl 0 % 32 = 0 → field b 8 8 = 0 →
      ∃ s', exec (.contextDestroy p.port p.ring) s = .next s' ∧
        (∀ key l, s.launches.find key = some l → key / 2 ^ 20 = p.ctx →
          ∃ l', s'.launches.find key = some l' ∧ l'.ending = some ⟨5, 0, -1, 0, 0, 0⟩ ∧ l'.unplaced = []) ∧
        ((∀ k ∈ s.launches.keys, k / 2 ^ 20 ≠ p.ctx) → ∃ contexts : Map Context, p.holds { s with contexts := contexts } s' none ∧
          ∀ n, contexts.find n = if n = p.ctx then
            some { c with
              gen := (c.gen + 1) % 65536, discarded := 0
              destroying := some (p.port, p.ring, p.serial, p.tag, p.intr, BitVec.ofNat 64 (compl 0)) }
            else s.contexts.find n)) ∧
    (p.atHead s 1 → current → ∃ s₁, p.passes s s₁ 160 true ∧
      (∀ e, p.judgeLaunch s₁ = .error e →
        exec (.launch p.port p.ring) s = .next (s₁.complete p.port p.ring p.serial p.tag p.ctx (compl 0x80) true e 0)) ∧
      ∀ l, p.judgeLaunch s₁ = .ok l → (∀ k ∈ s.launches.keys, k % 2 ^ 20 ≠ s.nextLaunch) →
        exec (.launch p.port p.ring) s = .next
          { s₁ with
            launches := s₁.launches.set (p.ctx * 2 ^ 20 + s.nextLaunch) l
            nextLaunch := if s.nextLaunch = 0xFFFFF then 1 else s.nextLaunch % 0xFFFFF + 1 } ∧
        l.port = p.port ∧ l.ring = p.ring ∧ l.serial = p.serial ∧ l.tag = p.tag ∧ l.gridx = field b 0x30 4 ∧ l.gridy = field b 0x34 4 ∧
        l.dieWin = field b 0x38 4 ∧ l.compl = BitVec.ofNat 64 (compl 0x80) ∧ l.unplaced = List.range (l.gridx * l.gridy) ∧ l.ended = [] ∧
        l.ending = none)

/-- R397, R400, R404 and R408: what goes on at a ring after its packet: WAIT_VALUE_RECHECK, a held BARRIER, RESUME, the end of a
destroy and LAUNCH_END. -/
def Sys2Proof.Claims.RingsGoOn : Prop :=
  (∀ (s : State) (port ring serial : Nat) (hb : List Byte), ring < 64 → (s.workRing port ring).held = some (serial, hb) → s.update = none →
    let r := s.workRing port ring
    let past (n : Nat) : WorkRing :=
      { r with
        rptr := r.rptr + BitVec.ofNat 32 n, held := none, barrier := none
        openPackets := r.openPackets.filter fun k => k ≠ serial }
    (hb.length = 40 → s.portFails = none → (heldPacket port ring serial hb).current s = true → ∀ v,
      s.readVirt (field hb 0 2) (field hb 8 8) 8 = some v →
        ((heldPacket port ring serial hb).satisfied v → ∃ s', s.ringSet s' port ring (past 48) ∧ s'.nextSerial = s.nextSerial ∧
          exec (.waitValueRecheck port ring) s = .next s') ∧
        (¬(heldPacket port ring serial hb).satisfied v → exec (.waitValueRecheck port ring) s = .next s)) ∧
    ∀ l, r.barrier = some l →
      ((∀ e ∈ s.workRings.entries, ∀ n ∈ e.2.openPackets, n ∉ l) → ∃ s', s.ringSet s' port ring (past 32) ∧
        s'.nextSerial = s.nextSerial ∧ exec (.barrier port ring) s = .next s') ∧
      ((∃ e ∈ s.workRings.entries, ∃ n ∈ e.2.openPackets, n ∈ l) → exec (.barrier port ring) s = .next s)) ∧
  (∀ (s : State) (port ring : Nat), ring < 64 →
    ∃ s', s.ringSet s' port ring { s.workRing port ring with halted := false } ∧ s'.nextSerial = s.nextSerial ∧
      exec (.resume port ring) s = .next s') ∧
  (∀ (s : State) (n port ring serial : Nat) (tag : W32) (intr : Bool) (compl : W64) (c : Context), ring < 64 →
    s.contexts.find n = some c → (n, c) ∈ s.contexts.entries → c.destroying = some (port, ring, serial, tag, intr, compl) →
    (∀ e ∈ s.contexts.entries, (∃ q, e.2.destroying = some (port, ring, q)) → e = (n, c)) →
    (∀ k ∈ s.launches.keys, k / 2 ^ 20 ≠ n) → s.update = none →
    ∃ s', exec (.contextDestroy port ring) s = .next s' ∧
      (∀ k, s'.contexts.find k = if k = n then some { c with live := false, destroying := none, discarded := 0 } else s.contexts.find k) ∧
      (∀ t ∈ s'.tlb, t.ctx ≠ n) ∧ (∀ k ∈ s'.ckeys, k.1 ≠ n) ∧ (∀ k f, s'.faults.find k = some f → f.ctx ≠ n) ∧
      s'.workRing port ring =
        { s.workRing port ring with
          rptr := (s.workRing port ring).rptr + 32, held := none, barrier := none
          openPackets := (s.workRing port ring).openPackets.filter fun k => k ≠ serial } ∧
      s'.launches = s.launches ∧ s'.teams = s.teams ∧ s'.groups = s.groups) ∧
  ∀ (s : State) (key : Nat) (l : Launch), s.launches.find key = some l →
    (s.launchDone key l → l.ending = none → l.form ≠ 2 →
      ∃ s', exec (.launchEnd key) s = .next s' ∧ (∀ k, s'.launches.find k = if k = key then none else s.launches.find k) ∧
        (l.ring < 64 → s'.workRing l.port l.ring = { s.workRing l.port l.ring with
          openPackets := (s.workRing l.port l.ring).openPackets.filter fun k => k ≠ l.serial }) ∧
        (∀ s₁, s.portFails = none → s.writeVirt (key / 2 ^ 20) l.compl.toNat
            (leBytes 4 l.tag.toNat ++ leBytes 4 0 ++ leBytes 4 0xFFFFFFFF ++ leBytes 20 0) = some s₁ → s'.mem = s₁.mem) ∧
        s'.groups = s.groups ∧ s'.teams = s.teams ∧ s'.contexts = s.contexts) ∧
    ((∃ e ∈ s.teams.entries, e.2.launch = key) → exec (.launchEnd key) s = .next s)

/-- Packets at the head of a work ring, and what goes on at the ring afterwards (R397, R398, R400, R401, R403, R404, R406, R408).
-/
def Obligations.RingPackets : Prop :=
  Sys2Proof.Claims.RingPackets ∧ Sys2Proof.Claims.RingsGoOn

/-- R417 to R423: `tspn`, TASK, TASK_START and TASK_COMMIT, for tasks that no older task of the die touches. -/
def Obligations.TaskResult : Prop :=
  (∀ (s : State) (x : Ctx) (m : Bool) (h a : Nat), s.ctx = some x →
    ((x.g.handler = true ∨ x.team.kind = 1) → exec (.tspn m h a) s = .next (takeTrap x.core x.slot x.frag 1 x.f.pc s.ir 0 s)) ∧
    (x.g.handler = false → x.team.kind ≠ 1 → x.ready [a] → (x.uni a).toNat % 32 = 0 → x.unitFree s (x.uni a).toNat 160 →
      let b := s.mem.bytes (unitKey x.core (x.team.base + (x.uni a).toNat)) 160
      firstBad (taskLimits b x.launch.image) = none → firstBad (windowLimits b x.launch.dieWin) = none → x.launch.form ≠ 1 →
      (x.g.cls 5).ops.length < 127 → (∀ e ∈ s.tasks.entries, e.2.die ≠ x.die) → (s.context x.ctxNum).gen = x.launch.gen →
      ∃ (s' : State) (g' : Machine.Group) (t : Task),
        t.says b x.team.launch x.die (BitVec.ofNat 32 (5 * 2 ^ 28 + x.die * 2 ^ 24 + (x.g.cls 5).nextSeq)) none ∧
        s.taskAdded s' t ∧ x.g.Issues g' s.ir 5 x.die h (.task s.nextTask) 0 s.tick ∧
        exec (.tspn m h a) s = .next (x.completes s' g' m 1))) ∧
  (∀ (s : State) (p : Packet), p.atHead s 2 → p.current s = true →
    let b := p.body
    let key := p.ctx * 2 ^ 20 + field b 0 4
    let die := field b 4 1
    ∀ l, s.launches.find key = some l → l.ending = none → field b 0 4 < 2 ^ 20 → die < 8 → field b 5 3 = 0 → field b 8 8 % 32 = 0 →
      firstBad (taskLimits (b.drop 16) l.image) = none → firstBad (windowLimits (b.drop 16) l.dieWin) = none →
      (∀ e ∈ s.tasks.entries, e.2.die ≠ die) →
      ∃ s₁ s' t, p.passes s s₁ 192 true ∧
        t.says (b.drop 16) key die 0 (some (p.port, p.ring, p.serial, p.tag, p.intr, BitVec.ofNat 64 (field b 8 8))) ∧
        s₁.taskAdded s' t ∧ exec (.task p.port p.ring) s = .next s') ∧
  (∀ (s : State) (die id : Nat) (seat : Seat) (t : Task) (l : Launch), s.tasks.find id = some t → s.launches.find t.launch = some l →
    t.die = die → t.state = .queued → l.ending = none → s.taskCancelled id = false →
    (∀ n ∈ t.startAfterCommit, s.tasks.find n = none) →
    (∀ n ∈ t.startAfterComplete, ∀ o, s.tasks.find n = some o → o.state = .completed) →
    (t.shapeFits l = false → ∃ s', exec (.taskStart die id seat) s = .next s' ∧ { s' with tasks := s.tasks } = s ∧
      ∀ k, s'.tasks.find k = if k = id then some { t with state := .failed 3 } else s.tasks.find k) ∧
    (t.shapeFits l = true → dieOf seat.core = die → seat.teamIx = t.tix → s.seatFits l t.kernel t.kernel.groups seat = true →
      ∃ s' groups, exec (.taskStart die id seat) s = .next s' ∧ groups.length = t.kernel.groups ∧
        (∀ i g, groups[i]? = some g → Group.fresh s.nextTeam i t.kernel.entry g) ∧
        s.seated s' seat t.launch (if t.handler then 3 else 2) t.kernel groups ∧
        ((s'.teams.find s.nextTeam).map fun q => (q.task, q.taskHandle, q.taskArgs)) = some (some id, t.handle, t.args) ∧
        ∀ k, s'.tasks.find k = if k = id then some { t with state := .started s.nextTeam } else s.tasks.find k)) ∧
  ∀ (s : State) (die id : Nat) (t : Task) (l : Launch), s.tasks.find id = some t → s.launches.find t.launch = some l → l.ending = none →
    t.die = die → t.state = .completed → t.host = none → (∀ o ∈ t.renamed, o = none) →
    (∀ e ∈ s.teams.entries, e.2.task ≠ some id) → (∀ v ∈ s.saved, v.team.task ≠ some id) → t.commitAfterComplete = [] →
    t.commitAfterCommit = [] →
    ∃ s', exec (.taskCommit die id) s = .next s' ∧ { s' with tasks := s.tasks, groups := s.groups } = s ∧
      (∀ k, s'.tasks.find k = if k = id then none else s.tasks.find k) ∧
      ∀ k g, s.groups.find k = some g → ∃ g', s'.groups.find k = some g' ∧ { g' with classes := g.classes } = g ∧
        (∀ c, c ≠ 5 → g'.cls c = g.cls c) ∧
        g'.cls 5 = { g.cls 5 with ops := (g.cls 5).ops.map fun o => if o.cmd = .task id then { o with phase := .done 0 } else o }

/-- R408, R410, R413 to R415: the scheduler's and the pallet former's events that start teams. -/
def Sys2Proof.Claims.TeamsStart : Prop :=
  (∀ (s : State) (key : Nat) (seat : Seat) (l : Launch), s.launches.find key = some l → l.cogrid = false → l.kernel.clw = 1 →
    l.kernel.clh = 1 → l.ending = none → seat.teamIx ∈ l.unplaced → seat.teamIx ∉ l.ended → seat.teamIx < l.gridx * l.gridy →
    s.seatFits l l.kernel l.kernel.groups seat = true → s.mem.wf = true →
    ∃ s' groups, exec (.teamPlacement key [seat]) s = .next s' ∧ groups.length = l.kernel.groups ∧
      (∀ i g, groups[i]? = some g → Group.fresh s.nextTeam i l.kernel.entry g) ∧ s.seated s' seat key 0 l.kernel groups ∧
      (∀ k, s'.mem.byte k = if unitKey seat.core seat.base ≤ k ∧ k < unitKey seat.core seat.base + l.kernel.unit then 0
        else s.mem.byte k) ∧
      ((s'.launches.find key).map (·.unplaced)) = some (l.unplaced.filter fun ix => ix ≠ seat.teamIx) ∧
      { s' with
        mem := s.mem, groups := s.groups, teams := s.teams, nextTeam := s.nextTeam, launches := s.launches
        margins := s.margins } = s) ∧
  (∀ (s : State) (die bin : Nat) (b : Bin) (l : Launch), s.bins[bin]? = some (die, b) → s.launches.find b.launch = some l →
    let formed :=
      { s with
        bins := s.bins.eraseIdx bin, formed := s.formed ++ [(die, ⟨b.launch, b.entry, b.recs, l.formIx⟩)]
        launches := s.launches.set b.launch { l with formIx := l.formIx + 1 } }
    exec (.spawnTimeout die bin) s = .next formed ∧
    ((∀ g ∈ s.groupsOf b.launch, l.groupStuck g = true) → exec (.handOverStallFlush die bin) s = .next formed)) ∧
  (∀ (s : State) (key : Nat) (l : Launch), s.launches.find key = some l → l.form ≠ 0 → l.spheld ≠ [] → l.unplaced = [] →
    (∀ f ∈ s.formed, f.2.launch ≠ key) → (∀ g ∈ s.groupsOf key, g.frags = []) → (∀ v ∈ s.saved, v.team.launch ≠ key) →
    l.formIx + l.spheld.length ≤ 65536 - l.gridx * l.gridy →
    ∃ (s' : State) (gs : List (List Rec)), exec (.epoch key) s = .next s' ∧ gs.flatten.Perm l.spheld ∧
      gs.flatten.Pairwise (fun a b => a.before b = true) ∧
      (∀ q ∈ gs, q ≠ [] ∧ q.length ≤ 64 ∧ ∀ r ∈ q, r.entry = ((q.head?.map Rec.entry).getD 0)) ∧
      (∀ (i : Nat) p q, gs[i]? = some p → gs[i + 1]? = some q → p.head?.map Rec.entry = q.head?.map Rec.entry → p.length = 64) ∧
      s'.formed.map (·.2) = s.formed.map (·.2) ++
        gs.zipIdx.map (fun p => (⟨key, (p.1.head?.map Rec.entry).getD 0, p.1, l.formIx + p.2⟩ : Formed)) ∧
      (∀ k, s'.launches.find k = if k = key then some { l with spheld := [], formIx := l.formIx + gs.length } else s.launches.find k) ∧
      { s' with formed := s.formed, launches := s.launches } = s) ∧
  ∀ (s : State) (die ix : Nat) (seat : Seat) (f : Formed) (l : Launch) (slot : Nat), s.formed[ix]? = some (die, f) →
    s.launches.find f.launch = some l → l.ending = none → f.recs.length ≤ 64 → seat.slots = [slot] →
    ((s.teams.values ++ s.saved.map (·.team)).filter fun t => t.launch = f.launch ∧ t.kind = 1).length < l.kernel.spawnPool →
    seat.teamIx = l.gridx * l.gridy + f.index % (65536 - l.gridx * l.gridy) →
    (∀ t ∈ s.teams.values ++ s.saved.map (·.team), t.launch = f.launch → t.kind = 1 → t.teamIx ≠ seat.teamIx) →
    s.seatFits l l.kernel 1 seat = true →
    ∃ s' g, exec (.spawnTeamStart die ix seat) s = .next s' ∧ s.seated s' seat f.launch 1 l.kernel [g] ∧
      s'.formed = s.formed.eraseIdx ix ∧ g.team = s.nextTeam ∧ g.reccnt = f.recs.length ∧
      (∃ q, g.frags = [q] ∧ q.pc = f.entry ∧ q.k0 = q.threads ∧ ∀ t, t < 64 → q.threads.getLsbD t = decide (t < f.recs.length)) ∧
      ∀ t j, t < 64 → g.readV false j t =
        if t < f.recs.length ∧ j < 14 then ((f.recs.map Rec.regs).getD t []).getD j 0 else 0

/-- Where a team leaves by a save, none of its groups has a class 1 operation, so that there is no batch to seal (R305, R307). -/
def Sys2Proof.Machine.State.nothingToSeal (s : State) (uid : Nat) (m : Method) : Prop :=
  m = .save → ∀ k g, s.groups.find k = some g → g.team = uid → (g.cls 1).ops = []

/-- Time a is at most time b, where none is infinite. -/
def Sys2Proof.Machine.atMost (a b : Option Nat) : Prop := ∀ n, b = some n → ∃ m, a = some m ∧ m ≤ n
/-- The greatest of some times. -/
def Sys2Proof.Machine.greatest (ts : List (Option Nat)) (d : Option Nat) : Prop := d ∈ ts ∧ ∀ a ∈ ts, atMost a d

/-- R425 and R427: the method is chosen by the table from D, S, LF, B and E, row by row, and what these are; times are counted in units of
1/32 ns, so that TOTAL bytes at 32 GB/s take TOTAL. -/
def Sys2Proof.Claims.MethodTable : Prop :=
  (∀ (d sv : Option Nat) (lf b e : Nat) (restartable : Bool),
    let m := chooseMethod d sv lf b e restartable
    let dFits := atMost d (some b)
    let sFits := atMost sv (some b)
    let fFits := restartable = true ∧ lf ≤ b
    (dFits → m = .drain) ∧
    (¬dFits → sFits → ¬fFits → m = .save) ∧
    (¬dFits → sFits → fFits → ∀ n, sv = some n → (2 * n ≤ e → m = .save) ∧ (e < 2 * n → m = .flush)) ∧
    (¬dFits → ¬sFits → fFits → m = .flush) ∧
    (¬dFits → ¬sFits → ¬fFits → restartable = true →
      (atMost d sv → atMost d (some lf) → m = .drain) ∧ (¬atMost d sv → atMost sv (some lf) → m = .save) ∧
      (¬atMost d (some lf) → ¬atMost sv (some lf) → m = .flush)) ∧
    (¬dFits → ¬sFits → restartable = false → (atMost d sv → m = .drain) ∧ (¬atMost d sv → m = .save))) ∧
  ∀ (s : State) (uids : List Nat) (bound elapsed retire : Nat) (spent : Bool) (ts : List (Nat × Team)), ts ≠ [] →
    ts.map (fun p => (p.1, some p.2)) = uids.map (fun u => (u, s.teams.find u)) →
    (∃ d sv lf, greatest (ts.map fun p => s.drainTime p.2 elapsed) d ∧ greatest (ts.map fun p => s.saveTime p.1 p.2 retire) sv ∧
      64000 ≤ lf ∧
      s.methodFor uids bound elapsed retire spent =
        chooseMethod (if spent then none else d) sv lf (32000 * bound) (32000 * elapsed) (ts.all fun p => s.restartable p.2)) ∧
    ∀ uid t, (uid, t) ∈ ts →
      let l := s.launches.get t.launch default
      (s.restartable t = true ↔ t.kind ≠ 1 ∧ (l.restart = true ∨ ∃ id k, t.task = some id ∧ s.tasks.find id = some k ∧ k.restart = true)) ∧
      (t.proghint ≠ -1 → s.drainTime t elapsed = some (32000 * t.proghint.toNat)) ∧
      (t.proghint = -1 → elapsed < l.estimate → s.drainTime t elapsed = some (32000 * (l.estimate - elapsed))) ∧
      (t.proghint = -1 → l.estimate ≤ elapsed → s.drainTime t elapsed = none) ∧
      let endless := (∃ h ∈ s.hods.values, h.claim = some uid) ∨ s.awaitsMembers uid = true ∨
        s.areaPlace (t.launch / 2 ^ 20) (s.saveTotal uid t) = none
      (endless → s.saveTime uid t retire = none) ∧
      (¬endless → s.saveTime uid t retire = some (s.saveTotal uid t + 32 * retire))

/-- R411, R428 and R432: teams that were saved together are restored together, on the seats of a rectangle of their cluster's shape that
has no fused core. -/
def Sys2Proof.Claims.ClustersReturn : Prop :=
  ∀ (s : State) (key : Nat) (seats : List Seat) (s0 : Seat) (l : Launch) (v : SavedTeam), s.launches.find key = some l →
    l.ending = none → seats.head? = some s0 → (s.saved.filter fun w => w.team.launch = key ∧ w.team.teamIx = s0.teamIx) = [v] →
    let mates := s.savedMates l v
    (mates.length ≠ seats.length → exec (.restore key seats) s = .next s) ∧
    ∀ s', mates.length = seats.length → State.restoreAll l seats (mates.zip seats) s = some s' → (∀ w ∈ mates, s.areaGood w = true) →
      (mates.map (·.uid)).Nodup → exec (.restore key seats) s = .next s' ∧
      ∀ w seat, (w, seat) ∈ mates.zip seats →
        (∃ t, s'.teams.find w.uid = some t ∧ t.core = seat.core ∧ t.base = seat.base ∧ t.slots = seat.slots ∧
          t.teamIx = seat.teamIx ∧ t.kernel = w.team.kernel ∧ t.tiles = w.team.tiles ∧ t.accs = w.team.accs) ∧
        (w.team.kind = 0 → w.team.teamIx < l.gridx * l.gridy → 0 < l.kernel.clw → 0 < l.kernel.clh →
          let cluster := l.cluster w.team.teamIx
          ∃ d c y, rectLies d c y (clusterShape cluster).1 (clusterShape cluster).2 = true ∧
            (∀ i j ix, (i, j, ix) ∈ cluster → Config.fusedCore (rectCore d c y i j) = false) ∧
            ∃ i j, (i, j, w.team.teamIx) ∈ cluster ∧ seat.core = rectCore d c y i j)

/-- R426 to R428, R410, R432 and R496: how teams come to leave their cores, and come back. -/
def Sys2Proof.Claims.TeamsLeave : Prop :=
  (∀ (s : State) (ctx lnum ix bound elapsed retire uid : Nat) (t : Team), s.teamNamed ctx lnum ix = some uid →
    s.teams.find uid = some t → t.leaving = 0 →
    (s.mayRequest t bound = false → exec (.preemptionRequest ctx lnum ix bound elapsed retire) s = .next s) ∧
    ((s.debugOf t.core).halted = true → s.companions uid = [uid] →
      exec (.preemptionRequest ctx lnum ix bound elapsed retire) s = .next s) ∧
    (s.mayRequest t bound = true → s.companions uid = [uid] → (s.debugOf t.core).halted = false →
      s.nothingToSeal uid (s.methodFor [uid] bound elapsed retire false) →
      ∃ s', exec (.preemptionRequest ctx lnum ix bound elapsed retire) s = .next s' ∧ s'.mem = s.mem ∧
        ∀ k, s'.teams.find k = if k = uid then some { t with
            leaving := match s.methodFor [uid] bound elapsed retire false with
              | .drain => 1
              | .save => 2
              | .flush => 3
            bound := bound } else s.teams.find k)) ∧
  (∀ (s : State) (uid elapsed retire : Nat) (t : Team), s.teams.find uid = some t →
    (t.leaving ≠ 1 → exec (.drainBoundExpiry uid elapsed retire) s = .next s) ∧
    ((s.debugOf t.core).halted = true → s.companions uid = [uid] → exec (.drainBoundExpiry uid elapsed retire) s = .next s) ∧
    (t.leaving = 1 → s.companions uid = [uid] → (s.debugOf t.core).halted = false →
      s.nothingToSeal uid (s.methodFor [uid] t.bound elapsed retire true) →
      ∃ s', exec (.drainBoundExpiry uid elapsed retire) s = .next s' ∧ s'.mem = s.mem ∧
        ∀ k, s'.teams.find k = if k = uid then some { t with
            leaving := match s.methodFor [uid] t.bound elapsed retire true with
              | .drain => 1
              | .save => 2
              | .flush => 3 } else s.teams.find k)) ∧
  (∀ (s : State) (key uid : Nat) (l : Launch) (t : Team), s.launches.find key = some l →
    ((l.tslice = false ∨ s.demands key l = []) → exec (.timesliceRotation key) s = .next s) ∧
    (l.tslice = true → s.demands key l ≠ [] → l.ending = none → (s.teams.entries.filter fun e => e.2.launch = key) = [(uid, t)] →
      s.teams.find uid = some t → t.leaving = 0 → s.companions uid = [uid] → (s.debugOf t.core).halted = false →
      s.nothingToSeal uid .save → (∀ e ∈ s.hods.entries, e.2.claim ≠ some uid) →
      ∃ s', exec (.timesliceRotation key) s = .next s' ∧ s'.mem = s.mem ∧
        ∀ k, s'.teams.find k = if k = uid then some { t with leaving := 2, bound := 0 } else s.teams.find k)) ∧
  ∀ (s : State) (key : Nat) (seat : Seat) (l : Launch) (v : SavedTeam), s.launches.find key = some l → l.ending = none →
    (s.saved.filter fun w => w.team.launch = key ∧ w.team.teamIx = seat.teamIx) = [v] →
    (v.team.kind = 0 → l.cogrid = false ∧ l.kernel.clw = 1 ∧ l.kernel.clh = 1 ∧ v.team.ownHalf = [v.uid] ∧ v.team.otherHalf = [] ∧
      v.team.teamIx < l.gridx * l.gridy) →
    (s.saved.filter fun w => w.uid = v.uid) = [v] → s.restoreFits l v seat = true →
    (s.areaGood v = false → ∃ s', exec (.restore key [seat]) s = .next s' ∧
      ((s'.launches.find key).bind fun l' => l'.ending) = some ⟨7, 0, -1, 0, 0, 0⟩) ∧
    (s.areaGood v = true → s.mem.wf = true → (Memory.mk v.unitBytes).wf = true → (∀ c ∈ v.unitBytes, c.1 < v.team.kernel.unit) →
      v.seqSlots = [] → (∀ g ∈ v.groups, g.step = none) →
      ∃ s' t, exec (.restore key [seat]) s = .next s' ∧ s'.teams.find v.uid = some t ∧ t.core = seat.core ∧ t.base = seat.base ∧
        t.slots = seat.slots ∧ t.kernel = v.team.kernel ∧ t.launch = v.team.launch ∧ t.tiles = v.team.tiles ∧ t.accs = v.team.accs ∧
        (∀ k, k ≠ v.uid → s'.teams.find k = s.teams.find k) ∧
        (∀ i g, v.groups[i]? = some g → s'.groups.find (slotKey seat.core (seat.slots.getD i 0)) = some g) ∧
        (∀ off, off < v.team.kernel.unit →
          s'.mem.byte (unitKey seat.core (seat.base + off)) = (Memory.mk v.unitBytes).byte off) ∧
        (∀ k, (k < unitKey seat.core seat.base ∨ unitKey seat.core seat.base + v.team.kernel.unit ≤ k) →
          s'.mem.byte k = s.mem.byte k) ∧
        s'.saved = (s.saved.filter fun w => w.uid ≠ v.uid) ∧
        { s' with
          mem := s.mem, teams := s.teams, groups := s.groups, margins := s.margins, launches := s.launches, queues := s.queues
          rings := s.rings, kilns := s.kilns, deferred := s.deferred, saved := s.saved } = s)

/-- Teams are placed, formed from records and restored, and are asked to leave (R408, R410, R411, R413, R414, R415, R425, R426, R427,
R428, R432). That RESTORE brings back what was kept beside the save area, and not what its bytes say, is the model's choice
(notes/assumptions/7.md); which of several teams of one name a request is about is free (notes/assumptions/32.md). -/
def Obligations.TeamsComeAndGo : Prop :=
  Sys2Proof.Claims.TeamsStart ∧ Sys2Proof.Claims.MethodTable ∧ Sys2Proof.Claims.ClustersReturn ∧ Sys2Proof.Claims.TeamsLeave

namespace Sys2Proof.Machine

/-! ### The system controller, the host side and the fabric (05, 12, 14) -/

/-- Command op is in progress at a port with arguments b, and no update holds it back (R488, R498). -/
def State.commanded (s : State) (port op : Nat) (b : List Byte) : Prop :=
  (s.mailbox port).current = some (op, b) ∧ s.ready = true ∧ (s.update = none ∨ op = 4)

/-- s' is s but that the command of a port has ended: done, or refused with a code (R488). -/
def State.mailEnds (s s' : State) (port : Nat) (code : Option Nat) : Prop :=
  { s' with mailboxes := s.mailboxes } = s ∧
    ∀ q, s'.mailbox q = if q = port then
      { s.mailbox port with
        current := none, begun := false
        mstat := match code with
          | none => 2
          | some c => BitVec.ofNat 32 (c * 2 ^ 16 + 3) }
      else s.mailbox q

/-- s' is s but for the hods of a core, each of which is changed by f, and the paused bits of `trvs` on the core. -/
def State.coreChanges (s s' : State) (core : Nat) (f : Hod → Hod) : Prop :=
  (∀ k, s'.hods.find k = (s.hods.find k).map fun h => if k / 2 = core then f h else h) ∧
    (∀ k g, s.groups.find k = some g → ∃ g', s'.groups.find k = some g' ∧ { g' with reversal := g.reversal } = g ∧
      (k / 64 ≠ core → g' = g) ∧ (g.reversal = none → g' = g)) ∧
    { s' with hods := s.hods, groups := s.groups, debugs := s.debugs } = s

/-- A byte of the module's own stores, not of the host's or a peer's memory (notes/assumptions/1.md). -/
def ofModule (a : Nat) : Prop := a < 2 ^ 48 ∨ (2 ^ 60 ≤ a ∧ a < 2 ^ 63)

/-- s' is s after an access act to bytes from place a: what a write or an atomic add stores, and nothing else. -/
def State.outerDone (s s' : State) (a : Nat) (act : OuterAct) : Prop :=
  s.onlyMemory s' ∧
    match act with
    | .read _ => s' = s
    | .write b => ∀ k, s'.mem.byte k = if a ≤ k ∧ k < a + b.length then b.getD (k - a) 0 else s.mem.byte k
    | .atomicAdd v => ∀ k, s'.mem.byte k = if a ≤ k ∧ k < a + 8 then
        BitVec.ofNat 8 ((leNat (s.mem.bytes a 8) + v.toNat) / 2 ^ (8 * (k - a))) else s.mem.byte k

/-- No context waits for the host to write its response ring (R491). -/
def State.noneStuck (s : State) : Prop := ∀ e ∈ s.contexts.entries, e.2.respStuck = false

end Sys2Proof.Machine

/-- R484, R486, R487 and R499: POWER_GOOD brings the module up or stops at a stage, MODULE_RESET leaves it as at reset, and throttling
changes nothing. That what lies behind the ports stays is the model's choice (notes/assumptions/1.md), and so is the value after a reset
of what the spec gives none, in State.reset (notes/assumptions/9.md); what a part fixes is free (notes/assumptions/8.md). -/
def Sys2Proof.Claims.BringUp : Prop :=
  ∀ (s : State),
    (∀ n degraded, (s.ready = true ∨ s.failed = true) → exec (.powerGood n degraded) s = .next s) ∧
    (s.ready = false → s.failed = false → s.mem.wf = true → ∀ degraded, (∀ c ∈ degraded, c < 384) →
      ∃ s', exec (.powerGood 0 degraded) s = .next s' ∧ s'.ready = true ∧ s'.failed = false ∧ s'.stage = 6 ∧
        s'.fwSlot = Config.bootSlot s.tick % 2 ∧ s'.fwVersion = Config.fwVersionOf (Config.slotImage s.tick s'.fwSlot) ∧
        (∀ n, s'.fwImages.find n = if n < 2 then
          some ⟨Config.slotImage s.tick n, Config.fwVersionOf (Config.slotImage s.tick n), Config.fwMeasure (Config.slotImage s.tick n)⟩
          else none) ∧
        (∀ i, s'.measurements.find i = if i = 2 then some (Config.fwMeasure (Config.slotImage s.tick s'.fwSlot))
          else if 1 ≤ i ∧ i ≤ 4 then some (Config.measurement s.tick i) else s.measurements.find i) ∧
        (∀ c, s'.kilns.find c = if c ∈ degraded then some { Kiln.fresh with degraded := true, shown := { Kiln.fresh.shown with degraded := true } } else s.kilns.find c) ∧
        (∀ a, (ofModule a → s'.mem.byte a = 0) ∧ (¬ofModule a → s'.mem.byte a = s.mem.byte a)) ∧
        { s' with
          ready := s.ready, stage := s.stage, fwSlot := s.fwSlot, fwVersion := s.fwVersion, fwImages := s.fwImages
          measurements := s.measurements, kilns := s.kilns, mem := s.mem } = s) ∧
    (s.ready = false → s.failed = false → ∀ n degraded, 1 ≤ n → n ≤ 5 →
      ∃ s', exec (.powerGood n degraded) s = .next s' ∧ s'.ready = false ∧ s'.failed = true ∧ s'.stage = n) ∧
    (s.mem.wf = true → ∃ s', exec .moduleReset s = .next s' ∧ { s' with tick := 0, turns := [], cur := .none, ir := 0, mem := ⟨[]⟩ } = State.reset ∧
      s'.tick = s.tick ∧ s'.turns = s.turns ∧
      ∀ a, (ofModule a → s'.mem.byte a = 0) ∧ (¬ofModule a → s'.mem.byte a = s.mem.byte a)) ∧
    ∀ n, exec (.throttling n) s = .next s

/-- R427, R488 to R490 and R496: the mailbox commands 1, 2 and 5. That command 5 reads its table in host memory behind its port and takes
the first 128 entries of a longer one is the model's choice (notes/assumptions/10.md), and which blocks become secure is free
(notes/assumptions/8.md). -/
def Obligations.MailboxCommands : Prop :=
  ∀ (s : State) (port : Nat) (b : List Byte),
    (s.commanded port 1 b → ((s.ownContext port (field b 0 4) = false ∨ field b 4 4 ≠ 0) → ∃ s', s.mailEnds s' port (some 1) ∧
        exec (.translationInvalidation port) s = .next s') ∧
      (s.ownContext port (field b 0 4) = true → field b 4 4 = 0 → ∃ s₁ s' : State, s₁.mailEnds s' port none ∧
        { s₁ with tlb := s.tlb } = s ∧ (∀ t, t ∈ s₁.tlb ↔ t ∈ s.tlb ∧ (t.ctx ≠ field b 0 4 ∨
          (field b 16 8 ≠ 0 ∧ (field b 8 8 + field b 16 8 ≤ t.base ∨ t.base + t.size ≤ field b 8 8)))) ∧
        exec (.translationInvalidation port) s = .next s')) ∧
    (s.commanded port 2 b → ∀ elapsed retire, (s.mailbox port).begun = false →
      (s.ownContext port (field b 0 4) = false → ∃ s', s.mailEnds s' port (some 1) ∧
        exec (.preEmpt port elapsed retire) s = .next s') ∧
      ∀ uid t, s.ownContext port (field b 0 4) = true → s.teamNamed (field b 0 4) (field b 4 4) (field b 8 4) = some uid →
        s.teams.find uid = some t → t.leaving = 0 → s.companions uid = [uid] →
        ((s.debugOf t.core).halted = true → exec (.preEmpt port elapsed retire) s = .next s) ∧
        ((s.debugOf t.core).halted = false → s.nothingToSeal uid (s.methodFor [uid] (field b 12 4) elapsed retire false) →
        ∃ s', exec (.preEmpt port elapsed retire) s = .next s' ∧ s'.mem = s.mem ∧ s'.mailbox port = { s.mailbox port with begun := true } ∧
          ∀ k, s'.teams.find k = if k = uid then some { t with
              leaving := match s.methodFor [uid] (field b 12 4) elapsed retire false with
                | .drain => 1
                | .save => 2
                | .flush => 3
              bound := field b 12 4 } else s.teams.find k)) ∧
    (s.commanded port 5 b →
      ((port ∉ s.sessions ∨ s.launches.entries ≠ []) → ∃ s', s.mailEnds s' port (some 2) ∧ exec (.securityWrite port) s = .next s') ∧
      (port ∈ s.sessions → s.launches.entries = [] → field b 0 8 + field b 8 4 ≤ 2 ^ 48 → field b 8 4 % 16 = 0 →
        let entry (i : Nat) : List Byte := s.mem.bytes (hostKey port (field b 0 8 + 16 * i)) 16
        let n := min 128 (field b 8 4 / 16)
        (∀ i, i < n → field (entry i) 0 8 % 2 ^ 16 = 0 ∧ field (entry i) 0 8 < 2 ^ 48 ∧ field (entry i) 12 1 ≤ 1 ∧
          field (entry i) 13 3 = 0) →
        ∃ s₁ s' : State, s₁.mailEnds s' port none ∧ exec (.securityWrite port) s = .next s' ∧
          s₁.secRegions = (List.range n).map (fun i => ⟨field (entry i) 0 8, field (entry i) 8 4, decide (field (entry i) 12 1 = 1)⟩) ∧
          (∀ i, s₁.measurements.find i = if i = 3 then some (Config.measurement s.tick 3) else s.measurements.find i) ∧
          { s₁ with secRegions := s.secRegions, secBlocks := s.secBlocks, measurements := s.measurements } = s))

/-- R494 and R495: command 3, the levels of a die's reset: a reset that is not refused begins in a first event, and is done in a second
one (notes/assumptions/23.md). That it begins whatever the other port has in progress is the model's reading (notes/assumptions/29.md). -/
def Sys2Proof.Claims.DieResets : Prop :=
  ∀ (s : State) (port d : Nat) (b : List Byte), s.commanded port 3 b → field b 0 4 = d → d < 8 →
    let level (s' : State) (v : Option Nat) : Prop := ∀ k, s'.dieReset.find k = if k = d then v else s.dieReset.find k
    let begun : Bool := (s.mailbox port).begun
    let begins (i : Instr) : Prop := ∃ s' : State, exec i s = .next s' ∧ { s' with mailboxes := s.mailboxes } = s ∧
      ∀ q, s'.mailbox q = if q = port then { s.mailbox port with begun := true } else s.mailbox q
    (begun = false → field b 4 4 = 0 → begins (.returnToService port)) ∧
    (begun = false → s.dieInUse d = false → (field b 4 4 = 1 → begins (.computeReset port)) ∧
      (field b 4 4 = 2 → routesKeep (d :: s.downDies) = true → begins (.fullReset port))) ∧
    (begun = true → field b 4 4 = 0 → ∃ s₁ s' : State, s₁.mailEnds s' port none ∧ exec (.returnToService port) s = .next s' ∧ level s₁ none ∧
      { s₁ with dieReset := s.dieReset } = s) ∧
    (s.dieInUse d = true → ∃ s', s.mailEnds s' port (some 3) ∧ (field b 4 4 = 1 → exec (.computeReset port) s = .next s') ∧
      (field b 4 4 = 2 → exec (.fullReset port) s = .next s')) ∧
    (s.dieInUse d = false → s.mem.wf = true →
      let cleared (s₁ : State) : Prop := (∀ core off, core / 48 = d → off < 2 ^ 24 → s₁.mem.byte (unitKey core off) = 0) ∧
        (∀ off, off < 2 ^ 29 → s₁.mem.byte (dieKey d off) = 0) ∧ (∀ core store, core / 48 = d → s₁.hod core store = Hod.off) ∧
        (∀ core n, core / 48 = d → n < 8 → s₁.queue core n = Queue.unowned) ∧
        (∀ core n, core / 48 = d → n < 16 → s₁.ring core n = SlotRing.unowned) ∧
        (∀ e ∈ s₁.scoreboard, e.core / 48 ≠ d) ∧ s₁.teams = s.teams ∧ s₁.launches = s.launches ∧ s₁.contexts = s.contexts
      (begun = true → field b 4 4 = 1 → ∃ s₁ s' : State, s₁.mailEnds s' port none ∧ exec (.computeReset port) s = .next s' ∧ cleared s₁ ∧
        level s₁ (some (max 1 (s.dieReset.get d 0))) ∧ ∀ a, a < 2 ^ 60 → s₁.mem.byte a = s.mem.byte a) ∧
      (field b 4 4 = 2 → routesKeep (d :: s.downDies) = false → ∃ s', s.mailEnds s' port (some 4) ∧
        exec (.fullReset port) s = .next s') ∧
      (begun = true → field b 4 4 = 2 → routesKeep (d :: s.downDies) = true → ∃ s₁ s' : State, s₁.mailEnds s' port none ∧
        exec (.fullReset port) s = .next s' ∧ cleared s₁ ∧ level s₁ (some 2) ∧
        ∀ a, a < 2 ^ 60 → (a < hbmKey d 0 ∨ hbmKey (d + 1) 0 ≤ a) → s₁.mem.byte a = s.mem.byte a))

/-- R497 and R498: a live update, accepted or refused, and its two ends; the image is the bytes that the command names behind the port
(notes/assumptions/10.md). That command 4 alone is given code 5 is the model's reading (notes/assumptions/29.md). -/
def Sys2Proof.Claims.LiveUpdate : Prop :=
  ∀ (s : State) (port : Nat),
    (∀ b verified version, s.commanded port 4 b →
      let slot := field b 12 4
      let img := s.mem.bytes (hostKey port (field b 0 8)) (field b 8 4)
      let good := field b 0 8 + field b 8 4 ≤ 2 ^ 48 ∧ slot = 1 - s.fwSlot ∧ Config.fwVerifies img = true ∧
        s.fwVersion ≤ Config.fwVersionOf img
      let refused (code : Nat) : Prop := ∃ s', s.mailEnds s' port (some code) ∧ exec (.firmwareUpdate port verified version) s = .next s'
      (s.update = none → s.resetting port = false → good → exec (.firmwareUpdate port verified version) s = .next
        { s with
          fwImages := s.fwImages.set slot ⟨img, Config.fwVersionOf img, Config.fwMeasure img⟩, update := some (port, slot) }) ∧
      (s.update = none → s.resetting port = false → ¬good → refused 1) ∧
      (s.update = none → s.resetting port = true → refused 5) ∧
      (∀ q, s.update = some q → q.1 ≠ port → refused 5)) ∧
    (∀ slot image, s.update = some (port, slot) → s.fwImages.find slot = some image →
      (∃ s₁ s' : State, s₁.mailEnds s' port none ∧ exec .firmwareHeartbeat s = .next s' ∧ s₁.update = none ∧ s₁.fwSlot = slot ∧
        s₁.fwVersion = image.version ∧
        (∀ i, s₁.measurements.find i = if i = 2 then some image.measure else s.measurements.find i) ∧
        { s₁ with update := s.update, fwSlot := s.fwSlot, fwVersion := s.fwVersion, measurements := s.measurements } = s) ∧
      ∃ s', State.mailEnds { s with update := none } s' port (some 1) ∧ exec .heartbeatTimeout s = .next s') ∧
    (s.update = none → exec .firmwareHeartbeat s = .next s ∧ exec .heartbeatTimeout s = .next s)

/-- The levels of a die's reset, and a live update of the firmware (R488, R494, R495, R497, R498). -/
def Obligations.DieResetsAndUpdates : Prop :=
  Sys2Proof.Claims.DieResets ∧ Sys2Proof.Claims.LiveUpdate

/-- R471 and R496: the debug port. -/
def Sys2Proof.Claims.DebugPort : Prop :=
  ∀ (s : State) (core : Nat), core < 384 →
    let d := s.debugOf core
    let debug (s' : State) (v : Debug) : Prop := ∀ c, s'.debugOf c = if c = core then v else s.debugOf c
    let stop (h : Hod) : Hod := if h.status = 2 then { h with status := 4, haltPc := h.pc, reservation := none } else h
    (∃ s', exec (.halt core) s = .next s' ∧ s.coreChanges s' core stop ∧ debug s' { d with halted := true }) ∧
    (∃ s', exec (.freeze core) s = .next s' ∧ s.coreChanges s' core stop ∧ debug s' { d with halted := true, frozen := true }) ∧
    (∃ s', exec (.debugResume core) s = .next s' ∧ s.coreChanges s' core (fun h => if h.status = 4 then { h with status := 2 } else h) ∧
      debug s' { d with halted := false, frozen := false }) ∧
    (∃ s', exec (.bpen core) s = .next s' ∧ { s' with debugs := s.debugs } = s ∧ debug s' { d with bpen := true }) ∧
    ∀ on, ∃ s', exec (.debugAttach core on) s = .next s' ∧ { s' with debugs := s.debugs } = s ∧ debug s' { d with attached := on }

/-- POWER_GOOD, MODULE_RESET, throttling and the debug port (R471, R484, R486, R487, R496, R499). -/
def Obligations.BringUpAndDebug : Prop :=
  Sys2Proof.Claims.BringUp ∧ Sys2Proof.Claims.DebugPort

/-- R222, R439, R482, R483 and R487: accesses of a host port and of a peer, and SPDM sessions. -/
def Sys2Proof.Claims.OutsideAccesses : Prop :=
  ∀ (s : State), s.mem.wf = true → s.noneStuck →
    (∀ port pa act, port < 2 → pa + outerSize act ≤ 2 ^ 48 →
      ∃ s', exec (.hostAccess port (.hostMemory pa) act) s = .next s' ∧ s.outerDone s' (hostKey port pa) act) ∧
    (∀ port pa act a, port < 2 → s.ready = true → s.outerPlaces pa (outerSize act) = some a →
      ∃ s', exec (.hostAccess port (.hbm pa) act) s = .next s' ∧ s.outerDone s' a act) ∧
    (∀ port off n, port < 2 → exec (.hostAccess port (.window off) (.read n)) s = .next s) ∧
    (∀ port n off v, port < 2 → s.ready = true → n < 64 → off = 0x1000 + 64 * n + 0x10 →
      ∃ s', s.ringSet s' port n { s.workRing port n with wptr := v } ∧ s'.nextSerial = s.nextSerial ∧
        exec (.hostAccess port (.window off) (.write (leBytes 4 v.toNat))) s = .next s') ∧
    (∀ peer pa act a, s.ready = true → peer < Config.domainSize → peer ≠ Config.moduleIndex → peer ∉ s.unreachable →
      s.outerPlaces pa (outerSize act) = some a →
      ∃ s', exec (.peerAccess peer pa act) s = .next s' ∧ s.outerDone s' a act) ∧
    ∀ port, port < 2 → s.ready = true →
      (∃ s', exec (.spdmSession port .openSession) s = .next s' ∧ { s' with sessions := s.sessions } = s ∧
        ∀ q, q ∈ s'.sessions ↔ q = port ∨ q ∈ s.sessions) ∧
      (∀ i, exec (.spdmSession port (.readMeasurement i)) s = .next s) ∧
      (∃ s', exec (.spdmSession port .setIdeKeys) s = .next s' ∧ { s' with ide := s.ide } = s ∧
        ∀ q, q ∈ s'.ide ↔ q ∈ s.ide ∨ (q = port ∧ port ∈ s.sessions)) ∧
      ∃ s', exec (.spdmSession port .closeSession) s = .next s' ∧ { s' with sessions := s.sessions } = s ∧
        ∀ q, q ∈ s'.sessions ↔ q ≠ port ∧ q ∈ s.sessions

/-- R191, R192 and R491: an answer of the host to a recoverable fault, and the advance of a fault ring's RPTR with no record held
back. The answers are ACTION 0 and 1. -/
def Sys2Proof.Claims.FaultAnswers : Prop :=
  (∀ (s : State) (ctx : Nat) (c : Context) (hd b : List Byte) (s₁ : State) (r : FaultRecord), s.contexts.find ctx = some c → c.live = true →
    c.faultResp ≠ 0 → c.respStuck = false → s.readVirt ctx c.faultResp.toNat 12 = some hd → field hd 0 4 ≠ 0 →
    field hd 4 4 ≠ field hd 8 4 →
    s.readVirt ctx (c.faultResp.toNat + 64 + 8 * (field hd 8 4 % field hd 0 4)) 8 = some b →
    s.writeVirt ctx (c.faultResp.toNat + 8) (leBytes 4 (field hd 8 4 + 1)) = some s₁ →
    let n := field b 0 4
    s₁.faults.find n = some r → r.ctx = ctx → r.delivered = true → r.answer = none →
    (field b 4 1 = 0 → ∃ s', exec (.faultResponse ctx) s = .next s' ∧ s'.mem = s₁.mem ∧ s'.faults.find n = none ∧
      ∀ k g, s₁.groups.find k = some g → ∃ g', s'.groups.find k = some g' ∧ g'.park = (if g.park = some n then none else g.park) ∧
        g'.frags = g.frags.map (fun f => if (f.fault.map FragFault.id) = some n then { f with fault := none } else f) ∧
        { g' with park := g.park, hpark := g.hpark, hfault := g.hfault, frags := g.frags, classes := g.classes } = g) ∧
    (field b 4 1 = 1 → ∃ s', exec (.faultResponse ctx) s = .next s' ∧ s'.mem = s₁.mem ∧
      ∀ k g, s₁.groups.find k = some g → ∃ g', s'.groups.find k = some g' ∧ g'.park = (if g.park = some n then none else g.park) ∧
        g'.frags = g.frags.map (fun f => { f with
          fault := f.fault.map fun q => if q.id = n then { q with refused := true } else q }) ∧
        { g' with park := g.park, hpark := g.hpark, hfault := g.hfault, frags := g.frags } = g)) ∧
  (∀ (s : State) (ctx : Nat), (s.context ctx).live = false → exec (.faultResponse ctx) s = .next s) ∧
  ∀ (s : State) (ctx rptr size wptr old : Nat) (places : List Nat), s.faultRing ctx = some (size, wptr, old) → (s.context ctx).live = true →
    ((List.range 4).mapM fun i => s.placeOf ctx ((s.context ctx).faultRing.toNat + 8 + i)) = some places →
    s.heldRecords ctx = [] →
    ((rptr + 2 ^ 32 - old) % 2 ^ 32 ≤ (wptr + 2 ^ 32 - old) % 2 ^ 32 →
      exec (.faultRingRptrAdvance ctx rptr) s = .next (s.scatter (places.zip (leBytes 4 rptr)))) ∧
    ((wptr + 2 ^ 32 - old) % 2 ^ 32 < (rptr + 2 ^ 32 - old) % 2 ^ 32 → exec (.faultRingRptrAdvance ctx rptr) s = .next s)

/-- Accesses of the host's ports and of peers, SPDM sessions, and answers to recoverable faults (R191, R192, R222, R439, R482,
R483, R487, R491). -/
def Obligations.OutsideAccesses : Prop :=
  Sys2Proof.Claims.OutsideAccesses ∧ Sys2Proof.Claims.FaultAnswers

/-- R437, R438, R459 and R493: failures of the fabric; and R53: the illegal instruction. -/
def Obligations.FabricFailures : Prop :=
  (∀ (s : State) (peer : Nat), ∃ s', exec (.peerUnreachable peer) s = .next s' ∧
    (∀ q, q ∈ s'.unreachable ↔ q = peer ∨ q ∈ s.unreachable) ∧ { s' with unreachable := s.unreachable, groups := s.groups } = s ∧
    ∀ k g, s.groups.find k = some g → ∃ g', s'.groups.find k = some g' ∧ { g' with classes := g.classes } = g ∧
      ∀ c (i : Nat) o, (g.cls c).ops[i]? = some o → ∃ o', (g'.cls c).ops[i]? = some o' ∧
        (∀ w, o.phase = .done w → o' = o) ∧ ((∀ q, o.cmd ≠ .coll q) → o' = o) ∧
        ∀ q, o.cmd = .coll q → (∀ w, o.phase ≠ .done w) →
          ((peer ∉ q.members ∨ peer = Config.moduleIndex) → o' = o) ∧
          (peer ∈ q.members → peer ≠ Config.moduleIndex →
            (∀ ms, q.exchanged = some (ms, none) → o' = { o with cmd := .coll { q with exchanged := some (ms, some 4) } }) ∧
            (q.exchanged = none → o.cancel = false → o' = { o with phase := .done (q.err 4) }))) ∧
  (∀ (s : State) (link : Nat), ∃ s', exec (.laneFailure link) s = .next s' ∧ (∀ q, q ∈ s'.lanesDown ↔ q = link ∨ q ∈ s.lanesDown) ∧
    s'.errorWptr = s.errorWptr + 1 ∧
    (∀ n, n ≠ s.errorWptr.toNat % 64 → s'.errorLog.find n = s.errorLog.find n) ∧
    ((s'.errorLog.find (s.errorWptr.toNat % 64)).map LogLine.kind) = some 4 ∧
    { s' with lanesDown := s.lanesDown, errorLog := s.errorLog, errorWptr := s.errorWptr } = s) ∧
  (∀ (s : State) (link : Nat), ∃ s', exec (.portFailure link) s = .next s' ∧
    (∀ q, q ∈ s'.linksDown ↔ (q = link ∧ link < 36) ∨ q ∈ s.linksDown) ∧ { s' with linksDown := s.linksDown } = s) ∧
  (∀ (s : State) (link : Nat), exec (.flitResend link) s = .next s) ∧
  ∀ (s : State) (x : Ctx) (word info1 : W32), s.ctx = some x →
    exec (.illegalInstruction word info1) s = .next (takeTrap x.core x.slot x.frag 1 x.f.pc word info1 { s with ir := word })

namespace Sys2Proof.Machine

/-! ### The machine as a whole -/

/-- The rows of the opcode table whose words a hod fetches (13). -/
def fromHod (i : Instr) : Bool :=
  match i with
  | .hcpyCpyi .. | .hcpyCpyo .. | .hcpyCpyg .. | .hcpyCpys .. | .hcpyTmvl .. | .hcpyCpyx .. | .hringAwait .. | .hringRel ..
  | .hringStat .. | .hqPop .. | .hqPopnb .. | .hqPush .. | .hqPushnb .. | .hwtWait .. | .hwtTest .. | .hwtCnt ..
  | .hwtCancel .. | .hodInstruction .. | .ecall | .ebreak .. => true
  | _ => false

end Sys2Proof.Machine

/-- R45: reading g0 yields 0, writes to it are discarded without a trap, and calls leave the return address in g30, which
software may write as any other g register. -/
def Obligations.RegisterZero : Prop :=
  (∀ (x : Ctx) (t : Nat), x.uni 96 = 0 ∧ x.lane 96 t = 0) ∧
  (∀ (s : State) (x : Ctx) (i : Instr) (r : UniRow), s.ctx = some x → UniDoes i r → r.d = 96 → x.ready r.srcs →
    ∃ g' : Machine.Group, (∀ b k, g'.readG b k = x.g.readG b k) ∧ (∀ b k t, g'.readV b k t = x.g.readV b k t) ∧
      exec i s = .next (x.completes s g' r.m r.n)) ∧
  (∀ (s : State) (x : Ctx) (m : Bool) (o : BitVec 24), s.ctx = some x → (x.f.looping = false ∨ x.g.handler = true) →
    x.legal (x.wordsAway o.toInt) →
    ∃ g', x.g.scalarSet g' 30 (x.wordsOn 1) ∧ exec (.call m o) s = .next (x.put s (x.goesTo g' m (x.wordsOn o.toInt)))) ∧
  (∀ (s : State) (x : Ctx) (m : Bool) (a : Nat) (table : List W32) (o : W32), s.ctx = some x →
    (x.f.looping = false ∨ x.g.handler = true) → x.ready [a] → table[(x.uni a).toNat]? = some o →
    x.legal (x.wordsAway o.toInt) →
    ∃ g', x.g.scalarSet g' 30 (x.wordsOn (1 + table.length)) ∧
      exec (.callt m a table) s = .next (x.put s (x.goesTo g' m (x.wordsOn o.toInt)))) ∧
  ∀ (s : State) (x : Ctx) (m : Bool) (lit : W32), s.ctx = some x →
    ∃ g', x.g.scalarSet g' 30 lit ∧ exec (.umovl m 126 lit) s = .next (x.completes s g' m 2)

/-- R103: `exitg`, the word 0x9F20_0000, leaves its group no fragment, no split entry and no spilled slot. -/
def Obligations.ExitgEndsAll : Prop :=
  (∀ rest, decodeAt 0x9F200000 rest = .ok (.exitg false) 1) ∧
  ∀ (s : State) (x : Ctx) (m : Bool), s.ctx = some x → (x.f.looping = false ∨ x.g.handler = true) →
    ∃ s', exec (.exitg m) s = .next s' ∧
      ∀ g, s'.groups.find (slotKey x.core x.slot) = some g → g.frags = [] ∧ g.splits = [] ∧ g.spilled = []

/-- R49, R52, R110 and R469: a step of a group runs the instruction that the words at its fragment's PC decode to, a step of a hod the one
at its pc, and an event its own row; then the turn ends. What earlier turns have left behind (notes/assumptions/5.md) comes first: the
accesses that must be performed before the instruction, and before some events; one that cannot be performed yet holds it up. -/
def Obligations.StepRunsDecoded : Prop :=
  ∀ (s : State) (rest : List Turn),
    let s₁ := { s with turns := rest }
    (∀ core slot g t k x i n, s.turns = .group core slot :: rest → s.groups.find (slotKey core slot) = some g →
      s.teams.find g.team = some t → s₁.mayIssue core g t = true → (g.issuers t).head? = some k →
      let s₂ := s₁.aim core slot k
      s₂.ctx = some x → x.refusal = none → x.launch.image.holds x.f.pc.toNat = true →
      let code := x.launch.image.code
      let at_ := x.f.pc.toNat / 4
      (x.inBody = false → decodeAt (code.getD at_ 0) (code.drop (at_ + 1)) = .ok i n → x.fetched = i) ∧
      (x.inBody = true → decodeAt (code.getD at_ 0) (code.drop (at_ + 1)) = .ok i n → ∀ v j, stepWord x.g.steps (code.getD at_ 0).toNat = some v →
        decodeAt (BitVec.ofNat 32 v) (code.drop (at_ + 1)) = .ok j n → x.fetched = j) ∧
      let s₅ := { s₂ with ir := code.getD at_ 0 }
      let resumed (s₄ : State) : State :=
        { s₄ with groups := s₄.groups.modify (slotKey core slot) fun h => (h.resumed x.f).keepViews x.f false x.word.toNat }
      ((∀ a, s₅.lateOf a = []) → g.claim = none → g.overlap = [] → g.views = [] →
        x.settled false s₅ = some s₅ ∧ resumed s₅ = s₅) ∧
      (x.settled false s₅ = none → g.issuers t = [k] → step s = .next { s₁ with tick := s.tick + 1, cur := .none, ir := 0 }) ∧
      ∀ s₄ s₃, x.settled false s₅ = some s₄ → x.claimMet i = false → x.claimants (resumed s₄) i = [] → x.fetched = i →
        exec i (resumed s₄) = .next s₃ →
        (s₃.groups.find (slotKey core slot) ≠ s₂.groups.find (slotKey core slot) ∨ s₃.teams.find g.team ≠ s₂.teams.find g.team) →
        step s = .next { s₃ with tick := s₃.tick + 1, cur := .none, ir := 0 }) ∧
    (∀ core store x i, s.turns = .hod core store :: rest →
      let s₂ := { s₁ with cur := .hod core store }
      s₂.hodCtx = some x → x.h.status = 2 → x.team.stopped = false → (s.debugOf core).halted = false →
      (∀ n, x.h.pc.toNat % 2 = 0 → x.h.pc.toNat + n ≤ 0x10000 →
        n = (if (x.h.istore.getZ x.h.pc.toNat).toNat % 4 = 3 then 4 else 2) →
        decodeHod (BitVec.ofNat 32 (leNat ((List.range n).map fun k => x.h.istore.getZ (x.h.pc.toNat + k)))) = some (i, n) →
        x.h.fetched = .instr i) ∧
      (x.h.fetched = .instr i →
        ((∀ a, s₂.lateOf a = []) → s₂.viewsOf (.hod core store) = [] → s₂.hodSettled core store i = some s₂) ∧
        (s₂.hodSettled core store i = none → step s = .next { s₁ with tick := s.tick + 1, cur := .none, ir := 0 }) ∧
        ∀ s₄ s₃, s₂.hodSettled core store i = some s₄ → exec i s₄ = .next s₃ →
          step s = .next { s₃ with tick := s₃.tick + 1, cur := .none, ir := 0 })) ∧
    (∀ i, (∀ a, s₁.lateOf a = [] ∧ s₁.viewsOf a = []) → s₁.beforeEvent i = some s₁) ∧
    (∀ i, (s.turns = .event i :: rest ∨ ∃ w, s.turns = .eventError i w :: rest) → s₁.beforeEvent i = none →
      step s = .next { s₁ with tick := s.tick + 1, cur := .none, ir := 0 }) ∧
    (∀ i s₄ s₃, s.turns = .event i :: rest → isEvent i = true → s₁.beforeEvent i = some s₄ → exec i { s₄ with cur := .none } = .next s₃ →
      step s = .next { s₃ with tick := s₃.tick + 1, cur := .none, ir := 0 }) ∧
    ∀ i w s₄ s₃, s.turns = .eventError i w :: rest → isEvent i = true → s₁.beforeEvent i = some s₄ →
      exec i { s₄ with cur := .none, portFails := some w } = .next s₃ →
      step s = .next { s₃ with tick := s₃.tick + 1, cur := .none, ir := 0, portFails := none }

/-- Words that the spec writes out, with the instructions it says that they are (R100, R103, R128, R309 to R357, R384, R446, R472 and
the worked program of 02). -/
def Obligations.DecodeWords : Prop :=
  decodeAt 0x010040E4 [] = .ok (.add false 1 1 100) 1 ∧ decodeAt 0x0C040402 [] = .ok (.shi false 2 1 .shl 2) 1 ∧
  decodeAt 0x6E40C101 [] = .ok (.ldg true .b32 3 2 .relaxed .group 1) 1 ∧ decodeAt 0x1600C1E5 [] = .ok (.fmul false .f32 3 3 101) 1 ∧
  decodeAt 0x2F40C102 [] = .ok (.stg false .b32 3 2 .relaxed .group 2) 1 ∧ decodeAt 0x13404000 [] = .ok (.tid false 1) 1 ∧
  decodeAt 0xB0C20004 [] = .ok (.sysrd false 97 4) 1 ∧ decodeAt 0x8F593161 [] = .ok (.ulea false 2 100 98 97) 1 ∧
  decodeAt 0x8ECA0000 [0x3F800000] = .ok (.umovl false 101 0x3F800000) 2 ∧ decodeAt 0x9F200000 [] = .ok (.exitg false) 1 ∧
  decodeAt 0xB4000007 [] = .ok (.brk false 7) 1 ∧ decodeAt 0xE69AF1EA [] = .ok (.ksweep true 107 99 106) 1 ∧
  decodeAt 0xFD1BB180 [] = .ok (.callr true 110 99) 1 ∧
  decodeHod 0x0005850B = some (.hcpyCpyi 10 11, 4) ∧ decodeHod 0x00E6960B = some (.hringAwait 12 13 14, 4) ∧
  decodeHod 0x04C5802B = some (.hqPush 11 12, 4) ∧ decodeHod 0x0005152B = some (.hwtWait 10 10, 4)

/-- R41 to R68 and R469 to R472: every well-formed instruction that has words is read back from them, whatever words follow. -/
def Obligations.DecodeEncode : Prop :=
  ∀ i : Instr, i.wellFormed = true → encode i ≠ [] →
    (fromHod i = false → ∃ w ws, encode i = w :: ws ∧ ∀ rest, decodeAt w (ws ++ rest) = .ok i (ws.length + 1)) ∧
    (fromHod i = true → ∃ w, encode i = [w] ∧ decodeHod w = some (i, 4))

/-- What R484 and R486 say of the machine right after reset: not ready, not failed, stage 1; every store reads zero, and no context, launch,
team or group is there. That memory has its canonical form is the model's own. -/
def Obligations.ResetState : Prop :=
  let s := State.reset
  s.ready = false ∧ s.failed = false ∧ s.stage = 1 ∧ s.devstat = 2 ^ 16 ∧ s.mem.wf = true ∧ (∀ a, s.mem.byte a = 0) ∧
    s.contexts.entries = [] ∧ s.launches.entries = [] ∧ s.teams.entries = [] ∧ s.groups.entries = [] ∧
    ∀ core store, s.hod core store = Hod.off

/-- Memory keeps its canonical form: every step from a state whose memory has it gives a state whose memory has it. -/
def Obligations.StepKeepsMemoryForm : Prop :=
  ∀ s s' : State, s.mem.wf = true → step s = .next s' → s'.mem.wf = true
end

