-- ==== Sys2Proof/Laws/Alu.lean ====
section
/-!
SUPPORT. The integer functions of the lane engine are those of R112, R138 and R139 in plain integer arithmetic.
-/

namespace Sys2Proof.Machine

theorem toNat_wordOf_aux (p : Nat → Bool) (n : Nat) :
    ∀ i, (((List.range n).map fun i => if p i then 2 ^ i else 0).sum).testBit i = (decide (i < n) && p i) := by
  induction n with
  | zero => simp
  | succ n ih =>
    intro i
    have hlt : ∀ m, ((List.range m).map fun i => if p i then 2 ^ i else 0).sum < 2 ^ m := by
      intro m
      induction m with
      | zero => simp
      | succ m ihm =>
        rw [List.range_succ, List.map_append, List.sum_append, Nat.pow_succ]
        simp only [List.map_cons, List.map_nil, List.sum_cons, List.sum_nil]
        split <;> omega
    rw [List.range_succ, List.map_append, List.sum_append]
    simp only [List.map_cons, List.map_nil, List.sum_cons, List.sum_nil, Nat.add_zero]
    have h := hlt n
    by_cases hp : p n
    · rw [if_pos hp, Nat.add_comm]
      by_cases hi : i = n
      · subst hi
        rw [Nat.testBit_two_pow_add_eq, Nat.testBit_lt_two_pow h]; simp [hp]
      · rcases Nat.lt_or_gt_of_ne hi with hl | hg
        · rw [Nat.testBit_two_pow_add_gt hl, ih]; simp [hl, Nat.lt_succ_of_lt hl]
        · rw [Nat.testBit_lt_two_pow]
          · simp; intro; omega
          · calc 2 ^ n + _ < 2 ^ n + 2 ^ n := by omega
              _ = 2 ^ (n + 1) := by rw [Nat.pow_succ]; omega
              _ ≤ 2 ^ i := Nat.pow_le_pow_right (by omega) hg
    · rw [if_neg hp, Nat.add_zero, ih]
      by_cases hi : i = n
      · subst hi; simp [hp]
      · have : i < n + 1 ↔ i < n := by omega
        simp [this]

@[simp] theorem getLsbD_wordOf (p : Nat → Bool) (i : Nat) : (wordOf p).getLsbD i = (decide (i < 32) && p i) := by
  rw [wordOf, BitVec.getLsbD_ofNat, toNat_wordOf_aux]
  by_cases h : i < 32 <;> simp [h]

theorem eq_wordOf (a : W32) (p : Nat → Bool) (h : ∀ i, i < 32 → a.getLsbD i = p i) : a = wordOf p := by
  apply BitVec.eq_of_getLsbD_eq
  intro i hi
  rw [getLsbD_wordOf, h i hi]; simp [hi]

theorem wrap_toInt (a : W32) : wrap a.toInt = a := by simp [wrap]
theorem wrap_toNat (a : W32) : wrap a.toNat = a := by simp [wrap]

theorem aluAdd_spec (a b : W32) : aluAdd a b = AluFn.add.value a b := by
  simp [aluAdd, AluFn.value, wrap, BitVec.ofInt_add]
theorem aluSub_spec (a b : W32) : aluSub a b = AluFn.sub.value a b := by
  apply BitVec.eq_of_toInt_eq
  simp [aluSub, AluFn.value, wrap, BitVec.toInt_sub, BitVec.toInt_ofInt]
theorem aluAnd_spec (a b : W32) : aluAnd a b = AluFn.and.value a b := eq_wordOf _ _ (by simp [aluAnd])
theorem aluOr_spec (a b : W32) : aluOr a b = AluFn.or.value a b := eq_wordOf _ _ (by simp [aluOr])
theorem aluXor_spec (a b : W32) : aluXor a b = AluFn.xor.value a b := eq_wordOf _ _ (by simp [aluXor])
theorem aluAndn_spec (a b : W32) : aluAndn a b = AluFn.andn.value a b :=
  eq_wordOf _ _ (by intro i hi; simp [aluAndn, hi])
theorem aluMinS_spec (a b : W32) : aluMinS a b = AluFn.minS.value a b := by
  simp only [aluMinS, AluFn.value, BitVec.slt, decide_eq_true_eq]
  split
  · rw [min_eq_left (by omega), wrap_toInt]
  · rw [min_eq_right (by omega), wrap_toInt]
theorem aluMaxS_spec (a b : W32) : aluMaxS a b = AluFn.maxS.value a b := by
  simp only [aluMaxS, AluFn.value, BitVec.slt, decide_eq_true_eq]
  split
  · rw [max_eq_right (by omega), wrap_toInt]
  · rw [max_eq_left (by omega), wrap_toInt]
theorem aluMinZ_spec (a b : W32) : aluMinZ a b = AluFn.minZ.value a b := by
  simp only [aluMinZ, AluFn.value, BitVec.ult, decide_eq_true_eq]
  split
  · rw [min_eq_left (by omega), wrap_toNat]
  · rw [min_eq_right (by omega), wrap_toNat]
theorem aluMaxZ_spec (a b : W32) : aluMaxZ a b = AluFn.maxZ.value a b := by
  simp only [aluMaxZ, AluFn.value, BitVec.ult, decide_eq_true_eq]
  split
  · rw [max_eq_right (by omega), wrap_toNat]
  · rw [max_eq_left (by omega), wrap_toNat]
theorem clampInt_eq (lo hi x : Int) (h : lo ≤ hi) : clampInt lo hi x = clamped lo hi x := by
  simp only [clampInt, clamped]
  split
  · rw [max_eq_left]; exact le_trans (min_le_right _ _) (by omega)
  · split
    · rw [min_eq_left (by omega), max_eq_right h]
    · rw [min_eq_right (by omega), max_eq_right (by omega)]
theorem aluAddsatS_spec (a b : W32) : aluAddsatS a b = AluFn.addsatS.value a b := by
  rw [aluAddsatS, clampInt_eq _ _ _ (by omega)]; rfl
theorem aluSubsatS_spec (a b : W32) : aluSubsatS a b = AluFn.subsatS.value a b := by
  rw [aluSubsatS, clampInt_eq _ _ _ (by omega)]; rfl
theorem aluAddsatZ_spec (a b : W32) : aluAddsatZ a b = AluFn.addsatZ.value a b := by
  rw [aluAddsatZ, clampInt_eq _ _ _ (by omega)]; rfl
theorem aluSubsatZ_spec (a b : W32) : aluSubsatZ a b = AluFn.subsatZ.value a b := by
  rw [aluSubsatZ, clampInt_eq _ _ _ (by omega)]; rfl
theorem wrap_natCast (n : Nat) : wrap (n : Int) = BitVec.ofNat 32 n := by simp [wrap]
theorem aluAbsd_spec (a b : W32) : aluAbsd a b = AluFn.absd.value a b := by
  rw [aluAbsd, AluFn.value, ← Int.natCast_natAbs, wrap_natCast]
theorem aluAbs_spec (a : W32) : aluAbs a = BitFn.abs.value a := by
  rw [aluAbs, BitFn.value, ← Int.natCast_natAbs, wrap_natCast]
theorem aluShl_spec (a b : W32) : aluShl a b = AluFn.shl.value a b := by
  have : (a.toNat : Int) * 2 ^ (b.toNat % 32) = ((a.toNat * 2 ^ (b.toNat % 32) : Nat) : Int) := by push_cast; rfl
  simp only [AluFn.value, this, wrap_natCast]
  apply BitVec.eq_of_toNat_eq
  simp [aluShl, shiftAmount, Nat.shiftLeft_eq]
theorem aluShr_spec (a b : W32) : aluShr a b = AluFn.shr.value a b := by
  have : (a.toNat : Int) / 2 ^ (b.toNat % 32) = ((a.toNat / 2 ^ (b.toNat % 32) : Nat) : Int) := by push_cast; rfl
  simp only [AluFn.value, this, wrap_natCast]
  apply BitVec.eq_of_toNat_eq
  simp only [aluShr, shiftAmount, BitVec.toNat_ushiftRight, Nat.shiftRight_eq_div_pow, BitVec.toNat_ofNat]
  rw [Nat.mod_eq_of_lt (lt_of_le_of_lt (Nat.div_le_self _ _) a.isLt)]
theorem aluSar_spec (a b : W32) : aluSar a b = AluFn.sar.value a b := by
  apply BitVec.eq_of_toInt_eq
  simp only [aluSar, shiftAmount, AluFn.value, wrap]
  rw [← BitVec.ofInt_toInt (x := a.sshiftRight _), BitVec.toInt_sshiftRight, Int.shiftRight_eq_div_pow]
  norm_cast
theorem aluRol_spec (a b : W32) : aluRol a b = AluFn.rol.value a b := by
  apply eq_wordOf
  intro i hi
  simp only [aluRol, shiftAmount, BitVec.getLsbD_rotateLeft]
  have : b.toNat % 32 < 32 := Nat.mod_lt _ (by omega)
  rw [Bool.cond_decide]
  split
  · next h => congr 1; omega
  · next h => simp only [hi, decide_true, Bool.true_and]; congr 1; omega
theorem aluRor_spec (a b : W32) : aluRor a b = AluFn.ror.value a b := by
  apply eq_wordOf
  intro i hi
  simp only [aluRor, shiftAmount, BitVec.getLsbD_rotateRight]
  have : b.toNat % 32 < 32 := Nat.mod_lt _ (by omega)
  rw [Bool.cond_decide]
  split
  · next h => congr 1; omega
  · next h => simp only [hi, decide_true, Bool.true_and]; congr 1; omega
theorem wrap_mul_toInt (a b : W32) : wrap (a.toInt * b.toInt) = a * b := by
  apply BitVec.eq_of_toInt_eq; simp [wrap, BitVec.toInt_mul, BitVec.toInt_ofInt]
theorem aluMul_spec (a b : W32) : aluMul a b = AluFn.mul.value a b := (wrap_mul_toInt a b).symm
theorem aluMulhS_spec (a b : W32) : aluMulhS a b = AluFn.mulhS.value a b := rfl
theorem aluMulhZ_spec (a b : W32) : aluMulhZ a b = AluFn.mulhZ.value a b := by
  simp [aluMulhZ, highHalf, AluFn.value, wrap]
theorem aluMulhSz_spec (a b : W32) : aluMulhSz a b = AluFn.mulhSz.value a b := rfl
theorem aluDivS_spec (a b : W32) : aluDivS a b = AluFn.divS.value a b := rfl
theorem aluDivZ_spec (a b : W32) : aluDivZ a b = AluFn.divZ.value a b := by
  simp only [aluDivZ, AluFn.value]; split
  · rfl
  · rw [← wrap_natCast]; norm_cast
theorem aluRemS_spec (a b : W32) : aluRemS a b = AluFn.remS.value a b := rfl
theorem aluRemZ_spec (a b : W32) : aluRemZ a b = AluFn.remZ.value a b := by
  simp only [aluRemZ, AluFn.value]; split
  · rfl
  · rw [← wrap_natCast]; norm_cast
theorem aluClz_spec (a : W32) : aluClz a = BitFn.clz.value a := by
  simp only [aluClz, BitFn.value, wrap_natCast]
  split
  · next h => subst h; rfl
  · next h =>
    have hn : a.toNat ≠ 0 := fun h0 => h (BitVec.eq_of_toNat_eq h0)
    have hs : a.toNat.size = Nat.log2 a.toNat + 1 := by
      apply le_antisymm
      · exact Nat.size_le.2 (Nat.lt_log2_self)
      · exact Nat.lt_size.2 (Nat.log2_self_le hn)
    rw [hs]; congr 1; omega
theorem aluCtz_spec (a : W32) : aluCtz a = BitFn.ctz.value a := by
  have h : ∀ (l : List Nat) (n : Nat), l = List.range' n l.length →
      ((l.map a.getLsbD).takeWhile (!·)).length = ((l.find? fun i => a.getLsbD i).map (· - n)).getD l.length := by
    intro l
    induction l with
    | nil => intro n _; rfl
    | cons i rest ih =>
      intro n hl
      simp only [List.length_cons, List.range'_succ, List.cons.injEq] at hl
      obtain ⟨rfl, hr⟩ := hl
      have := ih (i + 1) hr
      cases hb : a.getLsbD i with
      | true => simp [List.find?, hb]
      | false =>
        simp only [List.map_cons, List.takeWhile, hb, Bool.not_false, List.length_cons, List.find?, this]
        cases hf : rest.find? fun i => a.getLsbD i with
        | none => simp
        | some j =>
          have hm := List.mem_of_find?_eq_some hf
          rw [hr, List.mem_range'] at hm
          obtain ⟨k, _, rfl⟩ := hm
          simp; omega
  have := h (List.range 32) 0 (by rw [List.length_range]; exact List.range_eq_range')
  simp only [aluCtz, bitsOf, BitFn.value, wrap_natCast, this]
  cases List.find? (fun i => a.getLsbD i) (List.range 32) <;> simp
theorem aluPopc_spec (a : W32) : aluPopc a = BitFn.popc.value a := by
  simp only [aluPopc, bitsOf, BitFn.value, wrap_natCast]
  rw [← List.countP_eq_length_filter, List.countP_map]; rfl
theorem aluBrev_spec (a : W32) : aluBrev a = BitFn.brev.value a := by
  apply eq_wordOf
  intro i hi
  rw [aluBrev, BitVec.getLsbD_reverse, BitVec.getMsbD]; simp [hi]
theorem aluBswap_spec (a : W32) : aluBswap a = BitFn.bswap.value a := by
  apply eq_wordOf
  intro i hi
  interval_cases i <;> simp [aluBswap]
theorem signedOf_eq (n v : Nat) (hn : 0 < n) : signedOf n v = (BitVec.ofNat n v).toInt := by
  obtain ⟨k, rfl⟩ : ∃ k, n = k + 1 := ⟨n - 1, by omega⟩
  simp only [signedOf, BitVec.toInt, BitVec.toNat_ofNat, Nat.add_sub_cancel, Nat.pow_succ]
  split
  · rw [if_pos (by omega)]
  · rw [if_neg (by omega)]
theorem aluSxb_spec (a : W32) : aluSxb a = BitFn.sxb.value a := by
  rw [aluSxb, BitFn.value, signedOf_eq _ _ (by omega)]; rfl
theorem aluSxh_spec (a : W32) : aluSxh a = BitFn.sxh.value a := by
  rw [aluSxh, BitFn.value, signedOf_eq _ _ (by omega)]; rfl
theorem aluZxh_spec (a : W32) : aluZxh a = BitFn.zxh.value a := by
  apply BitVec.eq_of_toNat_eq
  have := Nat.and_two_pow_sub_one_eq_mod a.toNat 16
  simp only [BitFn.value, wrap_natCast, aluZxh, BitVec.toNat_and, BitVec.toNat_ofNat] at this ⊢
  have e : (65535#32).toNat = 2 ^ 16 - 1 := rfl
  rw [show (0xFFFF : W32) = 65535#32 from rfl, e, this]; omega

/-! ### Bit fields (R139) -/

theorem bfPos_lt (b : W32) : bfPos b < 32 := Nat.mod_lt _ (by omega)
theorem bfLen_le (b : W32) : bfLen b ≤ 32 - bfPos b := min_le_right _ _
theorem getLsbD_bfMask (b : W32) (i : Nat) (hi : i < 32) : (bfMask b).getLsbD i = inField b i := by
  have h1 := bfPos_lt b
  have h2 := bfLen_le b
  simp only [bfMask, BitVec.getLsbD_shiftLeft, BitVec.getLsbD_ofNat, Nat.testBit_two_pow_sub_one, inField]
  rw [Bool.eq_iff_iff]
  have e : bfPos b = fieldPos b := rfl
  have e' : bfLen b = fieldLen b := rfl
  simp only [Bool.and_eq_true, Bool.not_eq_true', decide_eq_true_eq, decide_eq_false_iff_not]
  rw [← e, ← e']; omega
theorem aluBfxZ_spec (a b : W32) :
    aluBfxZ a b = wordOf fun i => decide (i < fieldLen b) && a.getLsbD (fieldPos b + i) := by
  apply eq_wordOf
  intro i hi
  have h1 := bfPos_lt b
  have h2 := bfLen_le b
  have e : bfPos b = fieldPos b := rfl
  have e' : bfLen b = fieldLen b := rfl
  simp only [aluBfxZ, BitVec.getLsbD_ushiftRight, BitVec.getLsbD_and]
  by_cases h : bfPos b + i < 32
  · rw [getLsbD_bfMask b _ h, inField, ← e, ← e', Bool.and_comm]
    congr 1
    rw [decide_eq_decide]; omega
  · rw [BitVec.getLsbD_of_ge a _ (by omega)]
    simp only [Bool.false_and]
    rw [← e', decide_eq_false (by omega)]; rfl
theorem aluBfi_spec (d a b : W32) :
    aluBfi d a b = wordOf fun i => if inField b i then a.getLsbD (i - fieldPos b) else d.getLsbD i := by
  apply eq_wordOf
  intro i hi
  simp only [aluBfi, BitVec.getLsbD_or, BitVec.getLsbD_and, BitVec.getLsbD_not, BitVec.getLsbD_shiftLeft,
    getLsbD_bfMask b i hi, hi, decide_true, Bool.true_and]
  cases h : inField b i
  · simp
  · simp only [inField, decide_eq_true_eq] at h
    have : ¬ i < fieldPos b := by omega
    have e : bfPos b = fieldPos b := rfl
    simp [e, this]
/-- Sign extension of the low n bits, by its bits. -/
theorem aluBfxS_spec (a b : W32) : aluBfxS a b =
    if fieldLen b = 0 then 0 else wordOf fun i => a.getLsbD (fieldPos b + min i (fieldLen b - 1)) := by
  have h1 := bfPos_lt b
  have h2 := bfLen_le b
  have e : bfPos b = fieldPos b := rfl
  have e' : bfLen b = fieldLen b := rfl
  rw [aluBfxS, e', e]
  split
  · rfl
  · next h0 =>
    rw [signedOf_eq _ _ (by omega)]
    have : BitVec.ofInt 32 (BitVec.ofNat (fieldLen b) (a >>> fieldPos b).toNat).toInt =
      (BitVec.ofNat (fieldLen b) (a >>> fieldPos b).toNat).signExtend 32 := rfl
    rw [this]
    apply eq_wordOf
    intro i hi
    rw [BitVec.getLsbD_signExtend]
    simp only [hi, decide_true, Bool.true_and, BitVec.msb_eq_getLsbD_last, BitVec.getLsbD_ofNat, BitVec.testBit_toNat,
      BitVec.getLsbD_ushiftRight]
    split
    · next h => rw [min_eq_left (by omega)]; simp [h]
    · next h => rw [min_eq_right (by omega)]; simp; omega

/-! ### Shifts by an immediate, `lea` and conditions -/

theorem aluShi_spec (k : ShiftKind) (a : W32) (n : Nat) (h : n < 32) : aluShi k a n =
    (match k with | .shl => AluFn.shl | .shr => .shr | .sar => .sar | .rol => .rol).value a (BitVec.ofNat 32 n) := by
  have e : shiftAmount (BitVec.ofNat 32 n) = n := by simp [shiftAmount]; omega
  cases k
  · rw [← aluShl_spec, aluShl, e]; rfl
  · rw [← aluShr_spec, aluShr, e]; rfl
  · rw [← aluSar_spec, aluSar, e]; rfl
  · rw [← aluRol_spec, aluRol, e]; rfl
theorem add_spec (a b : W32) : a + b = wrap (a.toInt + b.toInt) := aluAdd_spec a b
theorem sub_spec (a b : W32) : a - b = wrap (a.toInt - b.toInt) := aluSub_spec a b
theorem wrap_eq_of_dvd (x y : Int) (h : (2 ^ 32 : Int) ∣ x - y) : wrap x = wrap y := by
  apply BitVec.eq_of_toInt_eq
  simp only [wrap, BitVec.toInt_ofInt]
  exact Int.bmod_eq_bmod_iff_bmod_sub_eq_zero.2 (by
    obtain ⟨k, hk⟩ := h
    rw [hk]; simp [Int.bmod])
theorem lea_spec (a b : W32) (h : Nat) : a + (b <<< h) = wrap (a.toNat + b.toNat * 2 ^ h) := by
  apply BitVec.eq_of_toNat_eq
  have : ((a.toNat : Int) + b.toNat * 2 ^ h) = ((a.toNat + b.toNat * 2 ^ h : Nat) : Int) := by push_cast; rfl
  rw [this, wrap_natCast]
  simp [Nat.shiftLeft_eq]

theorem intHolds_spec (c : IntCond) (a b : W32) : intHolds c a b = specHolds c a b := by
  cases c <;> simp only [intHolds, specHolds]
  · rw [Bool.eq_iff_iff]; simp [BitVec.toInt_inj]
  · rw [Bool.eq_iff_iff]; simp [BitVec.toInt_inj]
  · simp [BitVec.slt]
  · simp [BitVec.sle]
  · simp [BitVec.slt]
  · simp [BitVec.sle]
  · rw [BitVec.msb_eq_toInt]
  · rw [BitVec.msb_eq_toInt, ← decide_not]; simp

end Sys2Proof.Machine
end

