-- ==== Sys2Proof/Laws/Dispatch.lean ====
section
/-!
SUPPORT. What exec is for each constructor: one call of its meaning.
-/

namespace Sys2Proof.Machine

@[simp] theorem exec_add (m : Bool) (d a b : Nat) (s : State) : exec (.add m d a b) s = execAdd m d a b s := rfl
@[simp] theorem exec_sub (m : Bool) (d a b : Nat) (s : State) : exec (.sub m d a b) s = execSub m d a b s := rfl
@[simp] theorem exec_and (m : Bool) (d a b : Nat) (s : State) : exec (.and m d a b) s = execAnd m d a b s := rfl
@[simp] theorem exec_or (m : Bool) (d a b : Nat) (s : State) : exec (.or m d a b) s = execOr m d a b s := rfl
@[simp] theorem exec_xor (m : Bool) (d a b : Nat) (s : State) : exec (.xor m d a b) s = execXor m d a b s := rfl
@[simp] theorem exec_andn (m : Bool) (d a b : Nat) (s : State) : exec (.andn m d a b) s = execAndn m d a b s := rfl
@[simp] theorem exec_minS32 (m : Bool) (d a b : Nat) (s : State) : exec (.minS32 m d a b) s = execMinS32 m d a b s := rfl
@[simp] theorem exec_maxS32 (m : Bool) (d a b : Nat) (s : State) : exec (.maxS32 m d a b) s = execMaxS32 m d a b s := rfl
@[simp] theorem exec_minZ32 (m : Bool) (d a b : Nat) (s : State) : exec (.minZ32 m d a b) s = execMinZ32 m d a b s := rfl
@[simp] theorem exec_maxZ32 (m : Bool) (d a b : Nat) (s : State) : exec (.maxZ32 m d a b) s = execMaxZ32 m d a b s := rfl
@[simp] theorem exec_addsatS32 (m : Bool) (d a b : Nat) (s : State) : exec (.addsatS32 m d a b) s = execAddsatS32 m d a b s := rfl
@[simp] theorem exec_subsatS32 (m : Bool) (d a b : Nat) (s : State) : exec (.subsatS32 m d a b) s = execSubsatS32 m d a b s := rfl
@[simp] theorem exec_addsatZ32 (m : Bool) (d a b : Nat) (s : State) : exec (.addsatZ32 m d a b) s = execAddsatZ32 m d a b s := rfl
@[simp] theorem exec_subsatZ32 (m : Bool) (d a b : Nat) (s : State) : exec (.subsatZ32 m d a b) s = execSubsatZ32 m d a b s := rfl
@[simp] theorem exec_absd (m : Bool) (d a b : Nat) (s : State) : exec (.absd m d a b) s = execAbsd m d a b s := rfl
@[simp] theorem exec_abs (m : Bool) (d a : Nat) (s : State) : exec (.abs m d a) s = execAbs m d a s := rfl
@[simp] theorem exec_shl (m : Bool) (d a b : Nat) (s : State) : exec (.shl m d a b) s = execShl m d a b s := rfl
@[simp] theorem exec_shr (m : Bool) (d a b : Nat) (s : State) : exec (.shr m d a b) s = execShr m d a b s := rfl
@[simp] theorem exec_sar (m : Bool) (d a b : Nat) (s : State) : exec (.sar m d a b) s = execSar m d a b s := rfl
@[simp] theorem exec_rol (m : Bool) (d a b : Nat) (s : State) : exec (.rol m d a b) s = execRol m d a b s := rfl
@[simp] theorem exec_ror (m : Bool) (d a b : Nat) (s : State) : exec (.ror m d a b) s = execRor m d a b s := rfl
@[simp] theorem exec_mul (m : Bool) (d a b : Nat) (s : State) : exec (.mul m d a b) s = execMul m d a b s := rfl
@[simp] theorem exec_mulhS32 (m : Bool) (d a b : Nat) (s : State) : exec (.mulhS32 m d a b) s = execMulhS32 m d a b s := rfl
@[simp] theorem exec_mulhZ32 (m : Bool) (d a b : Nat) (s : State) : exec (.mulhZ32 m d a b) s = execMulhZ32 m d a b s := rfl
@[simp] theorem exec_mulhSz32 (m : Bool) (d a b : Nat) (s : State) : exec (.mulhSz32 m d a b) s = execMulhSz32 m d a b s := rfl
@[simp] theorem exec_divS32 (m : Bool) (d a b : Nat) (s : State) : exec (.divS32 m d a b) s = execDivS32 m d a b s := rfl
@[simp] theorem exec_divZ32 (m : Bool) (d a b : Nat) (s : State) : exec (.divZ32 m d a b) s = execDivZ32 m d a b s := rfl
@[simp] theorem exec_remS32 (m : Bool) (d a b : Nat) (s : State) : exec (.remS32 m d a b) s = execRemS32 m d a b s := rfl
@[simp] theorem exec_remZ32 (m : Bool) (d a b : Nat) (s : State) : exec (.remZ32 m d a b) s = execRemZ32 m d a b s := rfl
@[simp] theorem exec_mad (m : Bool) (d a b : Nat) (s : State) : exec (.mad m d a b) s = execMad m d a b s := rfl
@[simp] theorem exec_msb (m : Bool) (d a b : Nat) (s : State) : exec (.msb m d a b) s = execMsb m d a b s := rfl
@[simp] theorem exec_clz (m : Bool) (d a : Nat) (s : State) : exec (.clz m d a) s = execClz m d a s := rfl
@[simp] theorem exec_ctz (m : Bool) (d a : Nat) (s : State) : exec (.ctz m d a) s = execCtz m d a s := rfl
@[simp] theorem exec_popc (m : Bool) (d a : Nat) (s : State) : exec (.popc m d a) s = execPopc m d a s := rfl
@[simp] theorem exec_brev (m : Bool) (d a : Nat) (s : State) : exec (.brev m d a) s = execBrev m d a s := rfl
@[simp] theorem exec_bswap (m : Bool) (d a : Nat) (s : State) : exec (.bswap m d a) s = execBswap m d a s := rfl
@[simp] theorem exec_sxb (m : Bool) (d a : Nat) (s : State) : exec (.sxb m d a) s = execSxb m d a s := rfl
@[simp] theorem exec_sxh (m : Bool) (d a : Nat) (s : State) : exec (.sxh m d a) s = execSxh m d a s := rfl
@[simp] theorem exec_zxh (m : Bool) (d a : Nat) (s : State) : exec (.zxh m d a) s = execZxh m d a s := rfl
@[simp] theorem exec_bfxS32 (m : Bool) (d a b : Nat) (s : State) : exec (.bfxS32 m d a b) s = execBfxS32 m d a b s := rfl
@[simp] theorem exec_bfxZ32 (m : Bool) (d a b : Nat) (s : State) : exec (.bfxZ32 m d a b) s = execBfxZ32 m d a b s := rfl
@[simp] theorem exec_bfi (m : Bool) (d a b : Nat) (s : State) : exec (.bfi m d a b) s = execBfi m d a b s := rfl
@[simp] theorem exec_addi (m : Bool) (d a : Nat) (i : BitVec 10) (s : State) : exec (.addi m d a i) s = execAddi m d a i s := rfl
@[simp] theorem exec_andi (m : Bool) (d a : Nat) (i : BitVec 10) (s : State) : exec (.andi m d a i) s = execAndi m d a i s := rfl
@[simp] theorem exec_ori (m : Bool) (d a : Nat) (i : BitVec 10) (s : State) : exec (.ori m d a i) s = execOri m d a i s := rfl
@[simp] theorem exec_xori (m : Bool) (d a : Nat) (i : BitVec 10) (s : State) : exec (.xori m d a i) s = execXori m d a i s := rfl
@[simp] theorem exec_shi (m : Bool) (d a : Nat) (k : ShiftKind) (n : Nat) (s : State) : exec (.shi m d a k n) s = execShi m d a k n s := rfl
@[simp] theorem exec_muli (m : Bool) (d a : Nat) (i : BitVec 10) (s : State) : exec (.muli m d a i) s = execMuli m d a i s := rfl
@[simp] theorem exec_movl (m : Bool) (d : Nat) (lit : BitVec 32) (s : State) : exec (.movl m d lit) s = execMovl m d lit s := rfl
@[simp] theorem exec_addl (m : Bool) (d : Nat) (lit : BitVec 32) (s : State) : exec (.addl m d lit) s = execAddl m d lit s := rfl
@[simp] theorem exec_andl (m : Bool) (d : Nat) (lit : BitVec 32) (s : State) : exec (.andl m d lit) s = execAndl m d lit s := rfl
@[simp] theorem exec_orl (m : Bool) (d : Nat) (lit : BitVec 32) (s : State) : exec (.orl m d lit) s = execOrl m d lit s := rfl
@[simp] theorem exec_lea (m : Bool) (h d a b : Nat) (s : State) : exec (.lea m h d a b) s = execLea m h d a b s := rfl
@[simp] theorem exec_icmp (m : Bool) (c : IntCond) (k a b : Nat) (s : State) : exec (.icmp m c k a b) s = execIcmp m c k a b s := rfl
@[simp] theorem exec_fcmp (m : Bool) (c : FloatCond) (k a b : Nat) (s : State) : exec (.fcmp m c k a b) s = execFcmp m c k a b s := rfl
@[simp] theorem exec_sel (m : Bool) (k d a b : Nat) (s : State) : exec (.sel m k d a b) s = execSel m k d a b s := rfl
@[simp] theorem exec_mov (m : Bool) (d a : Nat) (s : State) : exec (.mov m d a) s = execMov m d a s := rfl
@[simp] theorem exec_kbit (m : Bool) (d k : Nat) (s : State) : exec (.kbit m d k) s = execKbit m d k s := rfl
@[simp] theorem exec_tid (m : Bool) (d : Nat) (s : State) : exec (.tid m d) s = execTid m d s := rfl
@[simp] theorem exec_sysv (m : Bool) (d n : Nat) (s : State) : exec (.sysv m d n) s = execSysv m d n s := rfl
@[simp] theorem exec_fadd (m : Bool) (f : FloatType) (d a b : Nat) (s : State) : exec (.fadd m f d a b) s = execFadd m f d a b s := rfl
@[simp] theorem exec_fsub (m : Bool) (f : FloatType) (d a b : Nat) (s : State) : exec (.fsub m f d a b) s = execFsub m f d a b s := rfl
@[simp] theorem exec_fmul (m : Bool) (f : FloatType) (d a b : Nat) (s : State) : exec (.fmul m f d a b) s = execFmul m f d a b s := rfl
@[simp] theorem exec_ffma (m : Bool) (f : FloatType) (d a b : Nat) (s : State) : exec (.ffma m f d a b) s = execFfma m f d a b s := rfl
@[simp] theorem exec_fmin (m : Bool) (d a b : Nat) (s : State) : exec (.fmin m d a b) s = execFmin m d a b s := rfl
@[simp] theorem exec_fmax (m : Bool) (d a b : Nat) (s : State) : exec (.fmax m d a b) s = execFmax m d a b s := rfl
@[simp] theorem exec_fminnum (m : Bool) (d a b : Nat) (s : State) : exec (.fminnum m d a b) s = execFminnum m d a b s := rfl
@[simp] theorem exec_fmaxnum (m : Bool) (d a b : Nat) (s : State) : exec (.fmaxnum m d a b) s = execFmaxnum m d a b s := rfl
@[simp] theorem exec_fabs (m : Bool) (d a : Nat) (s : State) : exec (.fabs m d a) s = execFabs m d a s := rfl
@[simp] theorem exec_fneg (m : Bool) (d a : Nat) (s : State) : exec (.fneg m d a) s = execFneg m d a s := rfl
@[simp] theorem exec_fcpys (m : Bool) (d a b : Nat) (s : State) : exec (.fcpys m d a b) s = execFcpys m d a b s := rfl
@[simp] theorem exec_fxsgn (m : Bool) (d a b : Nat) (s : State) : exec (.fxsgn m d a b) s = execFxsgn m d a b s := rfl
@[simp] theorem exec_fcls (m : Bool) (d a : Nat) (s : State) : exec (.fcls m d a) s = execFcls m d a s := rfl
@[simp] theorem exec_cvt (m : Bool) (r : Rounding) (d a : Nat) (src dst : NumType) (s : State) : exec (.cvt m r d a src dst) s = execCvt m r d a src dst s := rfl
@[simp] theorem exec_frnd (m : Bool) (r : Rounding) (d a : Nat) (s : State) : exec (.frnd m r d a) s = execFrnd m r d a s := rfl
@[simp] theorem exec_rcp (m : Bool) (d a : Nat) (s : State) : exec (.rcp m d a) s = execRcp m d a s := rfl
@[simp] theorem exec_rsq (m : Bool) (d a : Nat) (s : State) : exec (.rsq m d a) s = execRsq m d a s := rfl
@[simp] theorem exec_sqrt (m : Bool) (d a : Nat) (s : State) : exec (.sqrt m d a) s = execSqrt m d a s := rfl
@[simp] theorem exec_exp2 (m : Bool) (d a : Nat) (s : State) : exec (.exp2 m d a) s = execExp2 m d a s := rfl
@[simp] theorem exec_log2 (m : Bool) (d a : Nat) (s : State) : exec (.log2 m d a) s = execLog2 m d a s := rfl
@[simp] theorem exec_sin (m : Bool) (d a : Nat) (s : State) : exec (.sin m d a) s = execSin m d a s := rfl
@[simp] theorem exec_cos (m : Bool) (d a : Nat) (s : State) : exec (.cos m d a) s = execCos m d a s := rfl
@[simp] theorem exec_tanh (m : Bool) (d a : Nat) (s : State) : exec (.tanh m d a) s = execTanh m d a s := rfl
@[simp] theorem exec_sigm (m : Bool) (d a : Nat) (s : State) : exec (.sigm m d a) s = execSigm m d a s := rfl
@[simp] theorem exec_erf (m : Bool) (d a : Nat) (s : State) : exec (.erf m d a) s = execErf m d a s := rfl
@[simp] theorem exec_gelu (m : Bool) (d a : Nat) (s : State) : exec (.gelu m d a) s = execGelu m d a s := rfl
@[simp] theorem exec_silu (m : Bool) (d a : Nat) (s : State) : exec (.silu m d a) s = execSilu m d a s := rfl
@[simp] theorem exec_idx (m : Bool) (d a b : Nat) (s : State) : exec (.idx m d a b) s = execIdx m d a b s := rfl
@[simp] theorem exec_upw (m : Bool) (d a n : Nat) (s : State) : exec (.upw m d a n) s = execUpw m d a n s := rfl
@[simp] theorem exec_dnw (m : Bool) (d a n : Nat) (s : State) : exec (.dnw m d a n) s = execDnw m d a n s := rfl
@[simp] theorem exec_xorw (m : Bool) (d a n : Nat) (s : State) : exec (.xorw m d a n) s = execXorw m d a n s := rfl
@[simp] theorem exec_rotw (m : Bool) (d a n : Nat) (s : State) : exec (.rotw m d a n) s = execRotw m d a n s := rfl
@[simp] theorem exec_xred (m : Bool) (o : ReduceOp) (d a : Nat) (s : State) : exec (.xred m o d a) s = execXred m o d a s := rfl
@[simp] theorem exec_xscn (m : Bool) (o : ReduceOp) (d a : Nat) (s : State) : exec (.xscn m o d a) s = execXscn m o d a s := rfl
@[simp] theorem exec_ballot (m : Bool) (k a : Nat) (s : State) : exec (.ballot m k a) s = execBallot m k a s := rfl
@[simp] theorem exec_all (m : Bool) (d a : Nat) (s : State) : exec (.all m d a) s = execAll m d a s := rfl
@[simp] theorem exec_any (m : Bool) (d a : Nat) (s : State) : exec (.any m d a) s = execAny m d a s := rfl
@[simp] theorem exec_uni (m : Bool) (d a : Nat) (s : State) : exec (.uni m d a) s = execUni m d a s := rfl
@[simp] theorem exec_xbc (m : Bool) (d a b : Nat) (s : State) : exec (.xbc m d a b) s = execXbc m d a b s := rfl
@[simp] theorem exec_ld (m : Bool) (wid : Width) (d a : Nat) (o : Order) (c : Scope) (s : State) : exec (.ld m wid d a o c) s = execLd m wid d a o c s := rfl
@[simp] theorem exec_st (m : Bool) (wid : Width) (d a : Nat) (o : Order) (c : Scope) (s : State) : exec (.st m wid d a o c) s = execSt m wid d a o c s := rfl
@[simp] theorem exec_ldc (m : Bool) (wid : Width) (d a : Nat) (o : Order) (c : Scope) (sp : Nat) (s : State) : exec (.ldc m wid d a o c sp) s = execLdc m wid d a o c sp s := rfl
@[simp] theorem exec_stc (m : Bool) (wid : Width) (d a : Nat) (o : Order) (c : Scope) (sp : Nat) (s : State) : exec (.stc m wid d a o c sp) s = execStc m wid d a o c sp s := rfl
@[simp] theorem exec_ldd (m : Bool) (wid : Width) (d a : Nat) (o : Order) (c : Scope) (s : State) : exec (.ldd m wid d a o c) s = execLdd m wid d a o c s := rfl
@[simp] theorem exec_std (m : Bool) (wid : Width) (d a : Nat) (o : Order) (c : Scope) (s : State) : exec (.std m wid d a o c) s = execStd m wid d a o c s := rfl
@[simp] theorem exec_ldg (m : Bool) (wid : Width) (d a : Nat) (o : Order) (c : Scope) (sp : Nat) (s : State) : exec (.ldg m wid d a o c sp) s = execLdg m wid d a o c sp s := rfl
@[simp] theorem exec_stg (m : Bool) (wid : Width) (d a : Nat) (o : Order) (c : Scope) (sp : Nat) (s : State) : exec (.stg m wid d a o c sp) s = execStg m wid d a o c sp s := rfl
@[simp] theorem exec_atomAdd (m : Bool) (d a : Nat) (o : Order) (c : Scope) (p : Space) (s : State) : exec (.atomAdd m d a o c p) s = execAtomAdd m d a o c p s := rfl
@[simp] theorem exec_atomXch (m : Bool) (d a : Nat) (o : Order) (c : Scope) (p : Space) (s : State) : exec (.atomXch m d a o c p) s = execAtomXch m d a o c p s := rfl
@[simp] theorem exec_atomMinS32 (m : Bool) (d a : Nat) (o : Order) (c : Scope) (p : Space) (s : State) : exec (.atomMinS32 m d a o c p) s = execAtomMinS32 m d a o c p s := rfl
@[simp] theorem exec_atomMaxS32 (m : Bool) (d a : Nat) (o : Order) (c : Scope) (p : Space) (s : State) : exec (.atomMaxS32 m d a o c p) s = execAtomMaxS32 m d a o c p s := rfl
@[simp] theorem exec_atomMinZ32 (m : Bool) (d a : Nat) (o : Order) (c : Scope) (p : Space) (s : State) : exec (.atomMinZ32 m d a o c p) s = execAtomMinZ32 m d a o c p s := rfl
@[simp] theorem exec_atomMaxZ32 (m : Bool) (d a : Nat) (o : Order) (c : Scope) (p : Space) (s : State) : exec (.atomMaxZ32 m d a o c p) s = execAtomMaxZ32 m d a o c p s := rfl
@[simp] theorem exec_atomAnd (m : Bool) (d a : Nat) (o : Order) (c : Scope) (p : Space) (s : State) : exec (.atomAnd m d a o c p) s = execAtomAnd m d a o c p s := rfl
@[simp] theorem exec_atomOr (m : Bool) (d a : Nat) (o : Order) (c : Scope) (p : Space) (s : State) : exec (.atomOr m d a o c p) s = execAtomOr m d a o c p s := rfl
@[simp] theorem exec_atomXor (m : Bool) (d a : Nat) (o : Order) (c : Scope) (p : Space) (s : State) : exec (.atomXor m d a o c p) s = execAtomXor m d a o c p s := rfl
@[simp] theorem exec_atomAddB64 (m : Bool) (d a : Nat) (o : Order) (c : Scope) (p : Space) (s : State) : exec (.atomAddB64 m d a o c p) s = execAtomAddB64 m d a o c p s := rfl
@[simp] theorem exec_atomXchB64 (m : Bool) (d a : Nat) (o : Order) (c : Scope) (p : Space) (s : State) : exec (.atomXchB64 m d a o c p) s = execAtomXchB64 m d a o c p s := rfl
@[simp] theorem exec_atomMinS64 (m : Bool) (d a : Nat) (o : Order) (c : Scope) (p : Space) (s : State) : exec (.atomMinS64 m d a o c p) s = execAtomMinS64 m d a o c p s := rfl
@[simp] theorem exec_atomMaxS64 (m : Bool) (d a : Nat) (o : Order) (c : Scope) (p : Space) (s : State) : exec (.atomMaxS64 m d a o c p) s = execAtomMaxS64 m d a o c p s := rfl
@[simp] theorem exec_atomMinZ64 (m : Bool) (d a : Nat) (o : Order) (c : Scope) (p : Space) (s : State) : exec (.atomMinZ64 m d a o c p) s = execAtomMinZ64 m d a o c p s := rfl
@[simp] theorem exec_atomMaxZ64 (m : Bool) (d a : Nat) (o : Order) (c : Scope) (p : Space) (s : State) : exec (.atomMaxZ64 m d a o c p) s = execAtomMaxZ64 m d a o c p s := rfl
@[simp] theorem exec_atomCasB64 (m : Bool) (d a : Nat) (o : Order) (c : Scope) (p : Space) (s : State) : exec (.atomCasB64 m d a o c p) s = execAtomCasB64 m d a o c p s := rfl
@[simp] theorem exec_atomfFadd (m : Bool) (d a : Nat) (o : Order) (c : Scope) (p : Space) (s : State) : exec (.atomfFadd m d a o c p) s = execAtomfFadd m d a o c p s := rfl
@[simp] theorem exec_atomfFmin (m : Bool) (d a : Nat) (o : Order) (c : Scope) (p : Space) (s : State) : exec (.atomfFmin m d a o c p) s = execAtomfFmin m d a o c p s := rfl
@[simp] theorem exec_atomfFmax (m : Bool) (d a : Nat) (o : Order) (c : Scope) (p : Space) (s : State) : exec (.atomfFmax m d a o c p) s = execAtomfFmax m d a o c p s := rfl
@[simp] theorem exec_atomfAddBf16x2 (m : Bool) (d a : Nat) (o : Order) (c : Scope) (p : Space) (s : State) : exec (.atomfAddBf16x2 m d a o c p) s = execAtomfAddBf16x2 m d a o c p s := rfl
@[simp] theorem exec_atomoFadd (m : Bool) (d a : Nat) (o : Order) (c : Scope) (p : Space) (s : State) : exec (.atomoFadd m d a o c p) s = execAtomoFadd m d a o c p s := rfl
@[simp] theorem exec_atomoClose (m : Bool) (a : Nat) (o : Order) (c : Scope) (p : Space) (s : State) : exec (.atomoClose m a o c p) s = execAtomoClose m a o c p s := rfl
@[simp] theorem exec_cas (m : Bool) (d a : Nat) (o : Order) (c : Scope) (p : Space) (s : State) : exec (.cas m d a o c p) s = execCas m d a o c p s := rfl
@[simp] theorem exec_pop (m : Bool) (d q : Nat) (s : State) : exec (.pop m d q) s = execPop m d q s := rfl
@[simp] theorem exec_popnb (m : Bool) (d k q : Nat) (s : State) : exec (.popnb m d k q) s = execPopnb m d k q s := rfl
@[simp] theorem exec_push (m : Bool) (d q : Nat) (s : State) : exec (.push m d q) s = execPush m d q s := rfl
@[simp] theorem exec_pushnb (m : Bool) (d q : Nat) (s : State) : exec (.pushnb m d q) s = execPushnb m d q s := rfl
@[simp] theorem exec_swp (m : Bool) (d i : Nat) (s : State) : exec (.swp m d i) s = execSwp m d i s := rfl
@[simp] theorem exec_swr (m : Bool) (o : ReduceOp) (d i b : Nat) (s : State) : exec (.swr m o d i b) s = execSwr m o d i b s := rfl
@[simp] theorem exec_nop (m : Bool) (s : State) : exec (.nop m) s = execNop m s := rfl
@[simp] theorem exec_yield (m : Bool) (s : State) : exec (.yield m) s = execYield m s := rfl
@[simp] theorem exec_pause (m : Bool) (s : State) : exec (.pause m) s = execPause m s := rfl
@[simp] theorem exec_pauseExpiry (core slot frag : Nat) (s : State) : exec (.pauseExpiry core slot frag) s = execPauseExpiry core slot frag s := rfl
@[simp] theorem exec_uadd (m : Bool) (d a b : Nat) (s : State) : exec (.uadd m d a b) s = execUadd m d a b s := rfl
@[simp] theorem exec_usub (m : Bool) (d a b : Nat) (s : State) : exec (.usub m d a b) s = execUsub m d a b s := rfl
@[simp] theorem exec_uand (m : Bool) (d a b : Nat) (s : State) : exec (.uand m d a b) s = execUand m d a b s := rfl
@[simp] theorem exec_uor (m : Bool) (d a b : Nat) (s : State) : exec (.uor m d a b) s = execUor m d a b s := rfl
@[simp] theorem exec_uxor (m : Bool) (d a b : Nat) (s : State) : exec (.uxor m d a b) s = execUxor m d a b s := rfl
@[simp] theorem exec_uandn (m : Bool) (d a b : Nat) (s : State) : exec (.uandn m d a b) s = execUandn m d a b s := rfl
@[simp] theorem exec_uminS32 (m : Bool) (d a b : Nat) (s : State) : exec (.uminS32 m d a b) s = execUminS32 m d a b s := rfl
@[simp] theorem exec_umaxS32 (m : Bool) (d a b : Nat) (s : State) : exec (.umaxS32 m d a b) s = execUmaxS32 m d a b s := rfl
@[simp] theorem exec_uminZ32 (m : Bool) (d a b : Nat) (s : State) : exec (.uminZ32 m d a b) s = execUminZ32 m d a b s := rfl
@[simp] theorem exec_umaxZ32 (m : Bool) (d a b : Nat) (s : State) : exec (.umaxZ32 m d a b) s = execUmaxZ32 m d a b s := rfl
@[simp] theorem exec_uaddsatS32 (m : Bool) (d a b : Nat) (s : State) : exec (.uaddsatS32 m d a b) s = execUaddsatS32 m d a b s := rfl
@[simp] theorem exec_usubsatS32 (m : Bool) (d a b : Nat) (s : State) : exec (.usubsatS32 m d a b) s = execUsubsatS32 m d a b s := rfl
@[simp] theorem exec_uaddsatZ32 (m : Bool) (d a b : Nat) (s : State) : exec (.uaddsatZ32 m d a b) s = execUaddsatZ32 m d a b s := rfl
@[simp] theorem exec_usubsatZ32 (m : Bool) (d a b : Nat) (s : State) : exec (.usubsatZ32 m d a b) s = execUsubsatZ32 m d a b s := rfl
@[simp] theorem exec_uabsd (m : Bool) (d a b : Nat) (s : State) : exec (.uabsd m d a b) s = execUabsd m d a b s := rfl
@[simp] theorem exec_uabs (m : Bool) (d a : Nat) (s : State) : exec (.uabs m d a) s = execUabs m d a s := rfl
@[simp] theorem exec_ushl (m : Bool) (d a b : Nat) (s : State) : exec (.ushl m d a b) s = execUshl m d a b s := rfl
@[simp] theorem exec_ushr (m : Bool) (d a b : Nat) (s : State) : exec (.ushr m d a b) s = execUshr m d a b s := rfl
@[simp] theorem exec_usar (m : Bool) (d a b : Nat) (s : State) : exec (.usar m d a b) s = execUsar m d a b s := rfl
@[simp] theorem exec_urol (m : Bool) (d a b : Nat) (s : State) : exec (.urol m d a b) s = execUrol m d a b s := rfl
@[simp] theorem exec_uror (m : Bool) (d a b : Nat) (s : State) : exec (.uror m d a b) s = execUror m d a b s := rfl
@[simp] theorem exec_umul (m : Bool) (d a b : Nat) (s : State) : exec (.umul m d a b) s = execUmul m d a b s := rfl
@[simp] theorem exec_umulhS32 (m : Bool) (d a b : Nat) (s : State) : exec (.umulhS32 m d a b) s = execUmulhS32 m d a b s := rfl
@[simp] theorem exec_umulhZ32 (m : Bool) (d a b : Nat) (s : State) : exec (.umulhZ32 m d a b) s = execUmulhZ32 m d a b s := rfl
@[simp] theorem exec_umulhSz32 (m : Bool) (d a b : Nat) (s : State) : exec (.umulhSz32 m d a b) s = execUmulhSz32 m d a b s := rfl
@[simp] theorem exec_udivS32 (m : Bool) (d a b : Nat) (s : State) : exec (.udivS32 m d a b) s = execUdivS32 m d a b s := rfl
@[simp] theorem exec_udivZ32 (m : Bool) (d a b : Nat) (s : State) : exec (.udivZ32 m d a b) s = execUdivZ32 m d a b s := rfl
@[simp] theorem exec_uremS32 (m : Bool) (d a b : Nat) (s : State) : exec (.uremS32 m d a b) s = execUremS32 m d a b s := rfl
@[simp] theorem exec_uremZ32 (m : Bool) (d a b : Nat) (s : State) : exec (.uremZ32 m d a b) s = execUremZ32 m d a b s := rfl
@[simp] theorem exec_uaddi (m : Bool) (d a : Nat) (i : BitVec 10) (s : State) : exec (.uaddi m d a i) s = execUaddi m d a i s := rfl
@[simp] theorem exec_umovl (m : Bool) (d : Nat) (lit : BitVec 32) (s : State) : exec (.umovl m d lit) s = execUmovl m d lit s := rfl
@[simp] theorem exec_uaddl (m : Bool) (d : Nat) (lit : BitVec 32) (s : State) : exec (.uaddl m d lit) s = execUaddl m d lit s := rfl
@[simp] theorem exec_uandl (m : Bool) (d : Nat) (lit : BitVec 32) (s : State) : exec (.uandl m d lit) s = execUandl m d lit s := rfl
@[simp] theorem exec_uorl (m : Bool) (d : Nat) (lit : BitVec 32) (s : State) : exec (.uorl m d lit) s = execUorl m d lit s := rfl
@[simp] theorem exec_ulea (m : Bool) (h d a b : Nat) (s : State) : exec (.ulea m h d a b) s = execUlea m h d a b s := rfl
@[simp] theorem exec_ucmp (m : Bool) (c : IntCond) (d a b : Nat) (s : State) : exec (.ucmp m c d a b) s = execUcmp m c d a b s := rfl
@[simp] theorem exec_kand (m : Bool) (kd ka kb : Nat) (s : State) : exec (.kand m kd ka kb) s = execKand m kd ka kb s := rfl
@[simp] theorem exec_kor (m : Bool) (kd ka kb : Nat) (s : State) : exec (.kor m kd ka kb) s = execKor m kd ka kb s := rfl
@[simp] theorem exec_kxor (m : Bool) (kd ka kb : Nat) (s : State) : exec (.kxor m kd ka kb) s = execKxor m kd ka kb s := rfl
@[simp] theorem exec_kandn (m : Bool) (kd ka kb : Nat) (s : State) : exec (.kandn m kd ka kb) s = execKandn m kd ka kb s := rfl
@[simp] theorem exec_knot (m : Bool) (kd ka : Nat) (s : State) : exec (.knot m kd ka) s = execKnot m kd ka s := rfl
@[simp] theorem exec_kfrom (m : Bool) (kd g : Nat) (s : State) : exec (.kfrom m kd g) s = execKfrom m kd g s := rfl
@[simp] theorem exec_kto (m : Bool) (g ka : Nat) (s : State) : exec (.kto m g ka) s = execKto m g ka s := rfl
@[simp] theorem exec_kpopc (m : Bool) (d ka : Nat) (s : State) : exec (.kpopc m d ka) s = execKpopc m d ka s := rfl
@[simp] theorem exec_umov (m : Bool) (d a : Nat) (s : State) : exec (.umov m d a) s = execUmov m d a s := rfl
@[simp] theorem exec_rdlow (m : Bool) (d ka : Nat) (s : State) : exec (.rdlow m d ka) s = execRdlow m d ka s := rfl
@[simp] theorem exec_rdth (m : Bool) (d a b : Nat) (s : State) : exec (.rdth m d a b) s = execRdth m d a b s := rfl
@[simp] theorem exec_bra (m : Bool) (o : BitVec 24) (s : State) : exec (.bra m o) s = execBra m o s := rfl
@[simp] theorem exec_brc (m : Bool) (c : BranchCond) (r : Nat) (o : BitVec 14) (s : State) : exec (.brc m c r o) s = execBrc m c r o s := rfl
@[simp] theorem exec_call (m : Bool) (o : BitVec 24) (s : State) : exec (.call m o) s = execCall m o s := rfl
@[simp] theorem exec_ret (m : Bool) (s : State) : exec (.ret m) s = execRet m s := rfl
@[simp] theorem exec_jmpt (m : Bool) (a : Nat) (table : List W32) (s : State) : exec (.jmpt m a table) s = execJmpt m a table s := rfl
@[simp] theorem exec_callt (m : Bool) (a : Nat) (table : List W32) (s : State) : exec (.callt m a table) s = execCallt m a table s := rfl
@[simp] theorem exec_bdiv (m : Bool) (k : Nat) (o : BitVec 21) (reconv : BitVec 32) (s : State) : exec (.bdiv m k o reconv) s = execBdiv m k o reconv s := rfl
@[simp] theorem exec_join (m : Bool) (s : State) : exec (.join m) s = execJoin m s := rfl
@[simp] theorem exec_joinl (m : Bool) (s : State) : exec (.joinl m) s = execJoinl m s := rfl
@[simp] theorem exec_disp (m : Bool) (k : Nat) (o : BitVec 21) (live : BitVec 32) (s : State) : exec (.disp m k o live) s = execDisp m k o live s := rfl
@[simp] theorem exec_exit (m : Bool) (s : State) : exec (.exit m) s = execExit m s := rfl
@[simp] theorem exec_exitg (m : Bool) (s : State) : exec (.exitg m) s = execExitg m s := rfl
@[simp] theorem exec_loop (m : Bool) (lv cnt len : Nat) (incd inca incb incta inctb : BitVec 4) (incacc : BitVec 5) (step : Nat) (s : State) : exec (.loop m lv cnt len incd inca incb incta inctb incacc step) s = execLoop m lv cnt len incd inca incb incta inctb incacc step s := rfl
@[simp] theorem exec_lbrk (m : Bool) (c : BranchCond) (r : Nat) (o : BitVec 14) (s : State) : exec (.lbrk m c r o) s = execLbrk m c r o s := rfl
@[simp] theorem exec_spwn (m : Bool) (f n : Nat) (entry : BitVec 32) (s : State) : exec (.spwn m f n entry) s = execSpwn m f n entry s := rfl
@[simp] theorem exec_spwnf (m : Bool) (entry : BitVec 32) (s : State) : exec (.spwnf m entry) s = execSpwnf m entry s := rfl
@[simp] theorem exec_tspn (m : Bool) (h a : Nat) (s : State) : exec (.tspn m h a) s = execTspn m h a s := rfl
@[simp] theorem exec_cpyi (m : Bool) (h a : Nat) (s : State) : exec (.cpyi m h a) s = execCpyi m h a s := rfl
@[simp] theorem exec_cpyo (m : Bool) (h a : Nat) (s : State) : exec (.cpyo m h a) s = execCpyo m h a s := rfl
@[simp] theorem exec_cpyg (m : Bool) (h a b : Nat) (s : State) : exec (.cpyg m h a b) s = execCpyg m h a b s := rfl
@[simp] theorem exec_cpys (m : Bool) (h a b : Nat) (s : State) : exec (.cpys m h a b) s = execCpys m h a b s := rfl
@[simp] theorem exec_tmvl (m : Bool) (h a : Nat) (s : State) : exec (.tmvl m h a) s = execTmvl m h a s := rfl
@[simp] theorem exec_cpyx (m : Bool) (h a : Nat) (s : State) : exec (.cpyx m h a) s = execCpyx m h a s := rfl
@[simp] theorem exec_copyTransferStart (core agent : Nat) (s : State) : exec (.copyTransferStart core agent) s = execCopyTransferStart core agent s := rfl
@[simp] theorem exec_rcfg (m : Bool) (d a r : Nat) (s : State) : exec (.rcfg m d a r) s = execRcfg m d a r s := rfl
@[simp] theorem exec_rawait (m : Bool) (d k r : Nat) (s : State) : exec (.rawait m d k r) s = execRawait m d k r s := rfl
@[simp] theorem exec_rrel (m : Bool) (k r : Nat) (s : State) : exec (.rrel m k r) s = execRrel m k r s := rfl
@[simp] theorem exec_rnst (m : Bool) (d r : Nat) (s : State) : exec (.rnst m d r) s = execRnst m d r s := rfl
@[simp] theorem exec_kldj (m : Bool) (h a : Nat) (s : State) : exec (.kldj m h a) s = execKldj m h a s := rfl
@[simp] theorem exec_kbias (m : Bool) (h a : Nat) (s : State) : exec (.kbias m h a) s = execKbias m h a s := rfl
@[simp] theorem exec_kclamp (m : Bool) (h a : Nat) (s : State) : exec (.kclamp m h a) s = execKclamp m h a s := rfl
@[simp] theorem exec_kseed (m : Bool) (h a : Nat) (s : State) : exec (.kseed m h a) s = execKseed m h a s := rfl
@[simp] theorem exec_ksweep (m : Bool) (h a b : Nat) (s : State) : exec (.ksweep m h a b) s = execKsweep m h a b s := rfl
@[simp] theorem exec_sweep (core : Nat) (s : State) : exec (.sweep core) s = execSweep core s := rfl
@[simp] theorem exec_kread (m : Bool) (h a : Nat) (s : State) : exec (.kread m h a) s = execKread m h a s := rfl
@[simp] theorem exec_khealth (m : Bool) (h b : Nat) (s : State) : exec (.khealth m h b) s = execKhealth m h b s := rfl
@[simp] theorem exec_kcal (m : Bool) (h : Nat) (s : State) : exec (.kcal m h) s = execKcal m h s := rfl
@[simp] theorem exec_sqcfg (m : Bool) (h a b : Nat) (s : State) : exec (.sqcfg m h a b) s = execSqcfg m h a b s := rfl
@[simp] theorem exec_sqbeg (m : Bool) (h b : Nat) (s : State) : exec (.sqbeg m h b) s = execSqbeg m h b s := rfl
@[simp] theorem exec_sqsig (m : Bool) (h t : Nat) (s : State) : exec (.sqsig m h t) s = execSqsig m h t s := rfl
@[simp] theorem exec_sqmap (m : Bool) (h a b : Nat) (s : State) : exec (.sqmap m h a b) s = execSqmap m h a b s := rfl
@[simp] theorem exec_sqend (m : Bool) (h : Nat) (s : State) : exec (.sqend m h) s = execSqend m h s := rfl
@[simp] theorem exec_sqrst (m : Bool) (h b : Nat) (s : State) : exec (.sqrst m h b) s = execSqrst m h b s := rfl
@[simp] theorem exec_fence (m : Bool) (o : Order) (c : Scope) (ks : Nat) (s : State) : exec (.fence m o c ks) s = execFence m o c ks s := rfl
@[simp] theorem exec_cwait (m : Bool) (c n : Nat) (s : State) : exec (.cwait m c n) s = execCwait m c n s := rfl
@[simp] theorem exec_hwait (m : Bool) (a : Nat) (s : State) : exec (.hwait m a) s = execHwait m a s := rfl
@[simp] theorem exec_htest (m : Bool) (d a : Nat) (s : State) : exec (.htest m d a) s = execHtest m d a s := rfl
@[simp] theorem exec_hcancel (m : Bool) (a : Nat) (s : State) : exec (.hcancel m a) s = execHcancel m a s := rfl
@[simp] theorem exec_hstat (m : Bool) (d a : Nat) (s : State) : exec (.hstat m d a) s = execHstat m d a s := rfl
@[simp] theorem exec_barT (m : Bool) (id : Nat) (s : State) : exec (.barT m id) s = execBarT m id s := rfl
@[simp] theorem exec_barTe (m : Bool) (d id : Nat) (s : State) : exec (.barTe m d id) s = execBarTe m d id s := rfl
@[simp] theorem exec_barC (m : Bool) (id : Nat) (s : State) : exec (.barC m id) s = execBarC m id s := rfl
@[simp] theorem exec_barCx (m : Bool) (id : Nat) (s : State) : exec (.barCx m id) s = execBarCx m id s := rfl
@[simp] theorem exec_barP (m : Bool) (id : Nat) (s : State) : exec (.barP m id) s = execBarP m id s := rfl
@[simp] theorem exec_arriveP (m : Bool) (d id : Nat) (s : State) : exec (.arriveP m d id) s = execArriveP m d id s := rfl
@[simp] theorem exec_waitP (m : Bool) (a : Nat) (s : State) : exec (.waitP m a) s = execWaitP m a s := rfl
@[simp] theorem exec_packageBarrierRelease (launch id : Nat) (s : State) : exec (.packageBarrierRelease launch id) s = execPackageBarrierRelease launch id s := rfl
@[simp] theorem exec_mbatch (m : Bool) (d : Nat) (s : State) : exec (.mbatch m d) s = execMbatch m d s := rfl
@[simp] theorem exec_mwait (m : Bool) (d a : Nat) (s : State) : exec (.mwait m d a) s = execMwait m d a s := rfl
@[simp] theorem exec_marg (m : Bool) (n : Nat) (s : State) : exec (.marg m n) s = execMarg m n s := rfl
@[simp] theorem exec_sysrd (m : Bool) (d n : Nat) (s : State) : exec (.sysrd m d n) s = execSysrd m d n s := rfl
@[simp] theorem exec_syswr (m : Bool) (d n : Nat) (s : State) : exec (.syswr m d n) s = execSyswr m d n s := rfl
@[simp] theorem exec_trap (m : Bool) (c : Nat) (s : State) : exec (.trap m c) s = execTrap m c s := rfl
@[simp] theorem exec_tret (m : Bool) (s : State) : exec (.tret m) s = execTret m s := rfl
@[simp] theorem exec_brk (m : Bool) (c : Nat) (s : State) : exec (.brk m c) s = execBrk m c s := rfl
@[simp] theorem exec_itld (m : Bool) (i a : Nat) (s : State) : exec (.itld m i a) s = execItld m i a s := rfl
@[simp] theorem exec_itst (m : Bool) (i a : Nat) (s : State) : exec (.itst m i a) s = execItst m i a s := rfl
@[simp] theorem exec_qcfg (m : Bool) (a q : Nat) (s : State) : exec (.qcfg m a q) s = execQcfg m a q s := rfl
@[simp] theorem exec_dreg (m : Bool) (p sp a b : Nat) (s : State) : exec (.dreg m p sp a b) s = execDreg m p sp a b s := rfl
@[simp] theorem exec_dclr (m every : Bool) (sp : Nat) (s : State) : exec (.dclr m every sp) s = execDclr m every sp s := rfl
@[simp] theorem exec_mmaAcc (m : Bool) (c a b : Nat) (q : Bool) (x y : Nat) (s : State) : exec (.mmaAcc m c a b q x y) s = execMmaAcc m c a b q x y s := rfl
@[simp] theorem exec_mmaSet (m : Bool) (c a b : Nat) (q : Bool) (x y : Nat) (s : State) : exec (.mmaSet m c a b q x y) s = execMmaSet m c a b q x y s := rfl
@[simp] theorem exec_mmaSub (m : Bool) (c a b : Nat) (q : Bool) (x y : Nat) (s : State) : exec (.mmaSub m c a b q x y) s = execMmaSub m c a b q x y s := rfl
@[simp] theorem exec_mmah (m : Bool) (a : Nat) (s : State) : exec (.mmah m a) s = execMmah m a s := rfl
@[simp] theorem exec_mmag (m : Bool) (a : Nat) (s : State) : exec (.mmag m a) s = execMmag m a s := rfl
@[simp] theorem exec_matrixOperationBegin (core slot replays : Nat) (s : State) : exec (.matrixOperationBegin core slot replays) s = execMatrixOperationBegin core slot replays s := rfl
@[simp] theorem exec_batchEnd (core slot beats : Nat) (s : State) : exec (.batchEnd core slot beats) s = execBatchEnd core slot beats s := rfl
@[simp] theorem exec_tcfg (m : Bool) (t dup : Nat) (axis : Bool) (cols rows wd : Nat) (s : State) : exec (.tcfg m t dup axis cols rows wd) s = execTcfg m t dup axis cols rows wd s := rfl
@[simp] theorem exec_tmovi (m : Bool) (t a : Nat) (p : Bool) (s : State) : exec (.tmovi m t a p) s = execTmovi m t a p s := rfl
@[simp] theorem exec_tmovo (m : Bool) (t a : Nat) (p : Bool) (s : State) : exec (.tmovo m t a p) s = execTmovo m t a p s := rfl
@[simp] theorem exec_tzero (m : Bool) (t : Nat) (s : State) : exec (.tzero m t) s = execTzero m t s := rfl
@[simp] theorem exec_azero (m : Bool) (n b : Nat) (s : State) : exec (.azero m n b) s = execAzero m n b s := rfl
@[simp] theorem exec_adrn (m q : Bool) (n a b : Nat) (s : State) : exec (.adrn m q n a b) s = execAdrn m q n a b s := rfl
@[simp] theorem exec_afil (m : Bool) (n a b : Nat) (s : State) : exec (.afil m n a b) s = execAfil m n a b s := rfl
@[simp] theorem exec_tdmap (m : Bool) (t a : Nat) (s : State) : exec (.tdmap m t a) s = execTdmap m t a s := rfl
@[simp] theorem exec_aact (m q : Bool) (d sp : Nat) (f : Activation) (s : State) : exec (.aact m q d sp f) s = execAact m q d sp f s := rfl
@[simp] theorem exec_aadd (m q : Bool) (d sp t : Nat) (s : State) : exec (.aadd m q d sp t) s = execAadd m q d sp t s := rfl
@[simp] theorem exec_aemul (m q : Bool) (d sp t : Nat) (s : State) : exec (.aemul m q d sp t) s = execAemul m q d sp t s := rfl
@[simp] theorem exec_ascal (m q : Bool) (d sp g : Nat) (s : State) : exec (.ascal m q d sp g) s = execAscal m q d sp g s := rfl
@[simp] theorem exec_abias (m q : Bool) (d sp g : Nat) (s : State) : exec (.abias m q d sp g) s = execAbias m q d sp g s := rfl
@[simp] theorem exec_arsum (m q : Bool) (d sp : Nat) (s : State) : exec (.arsum m q d sp) s = execArsum m q d sp s := rfl
@[simp] theorem exec_armax (m q : Bool) (d sp : Nat) (s : State) : exec (.armax m q d sp) s = execArmax m q d sp s := rfl
@[simp] theorem exec_acpy (m q : Bool) (d sp : Nat) (s : State) : exec (.acpy m q d sp) s = execAcpy m q d sp s := rfl
@[simp] theorem exec_recon (m : Bool) (a : Nat) (cont p : Bool) (s : State) : exec (.recon m a cont p) s = execRecon m a cont p s := rfl
@[simp] theorem exec_recoff (m : Bool) (s : State) : exec (.recoff m) s = execRecoff m s := rfl
@[simp] theorem exec_rmark (m : Bool) (d : Nat) (s : State) : exec (.rmark m d) s = execRmark m d s := rfl
@[simp] theorem exec_trvs (m : Bool) (d a : Nat) (s : State) : exec (.trvs m d a) s = execTrvs m d a s := rfl
@[simp] theorem exec_rlog (m : Bool) (a : Nat) (s : State) : exec (.rlog m a) s = execRlog m a s := rfl
@[simp] theorem exec_rgrad (m : Bool) (v c : Nat) (s : State) : exec (.rgrad m v c) s = execRgrad m v c s := rfl
@[simp] theorem exec_rstat (m : Bool) (d n : Nat) (s : State) : exec (.rstat m d n) s = execRstat m d n s := rfl
@[simp] theorem exec_callr (m : Bool) (h a : Nat) (s : State) : exec (.callr m h a) s = execCallr m h a s := rfl
@[simp] theorem exec_crsct (m : Bool) (h a : Nat) (s : State) : exec (.crsct m h a) s = execCrsct m h a s := rfl
@[simp] theorem exec_cagth (m : Bool) (h a : Nat) (s : State) : exec (.cagth m h a) s = execCagth m h a s := rfl
@[simp] theorem exec_ca2a (m : Bool) (h a : Nat) (s : State) : exec (.ca2a m h a) s = execCa2a m h a s := rfl
@[simp] theorem exec_cbcst (m : Bool) (h a : Nat) (s : State) : exec (.cbcst m h a) s = execCbcst m h a s := rfl
@[simp] theorem exec_cstat (m : Bool) (d n : Nat) (s : State) : exec (.cstat m d n) s = execCstat m d n s := rfl
@[simp] theorem exec_headerExchange (core slot : Nat) (peers : List MemberMessage) (ending : InstanceEnd) (s : State) : exec (.headerExchange core slot peers ending) s = execHeaderExchange core slot peers ending s := rfl
@[simp] theorem exec_collectiveTimeout (core slot : Nat) (s : State) : exec (.collectiveTimeout core slot) s = execCollectiveTimeout core slot s := rfl
@[simp] theorem exec_variableLatencyResult (core slot ix : Nat) (threads : Mask) (s : State) : exec (.variableLatencyResult core slot ix threads) s = execVariableLatencyResult core slot ix threads s := rfl
@[simp] theorem exec_operationRetire (core agent cls : Nat) (s : State) : exec (.operationRetire core agent cls) s = execOperationRetire core agent cls s := rfl
@[simp] theorem exec_faultResponse (ctx : Nat) (s : State) : exec (.faultResponse ctx) s = execFaultResponse ctx s := rfl
@[simp] theorem exec_hcpyCpyi (rd rs1 : Nat) (s : State) : exec (.hcpyCpyi rd rs1) s = execHcpyCpyi rd rs1 s := rfl
@[simp] theorem exec_hcpyCpyo (rd rs1 : Nat) (s : State) : exec (.hcpyCpyo rd rs1) s = execHcpyCpyo rd rs1 s := rfl
@[simp] theorem exec_hcpyCpyg (rd rs1 rs2 : Nat) (s : State) : exec (.hcpyCpyg rd rs1 rs2) s = execHcpyCpyg rd rs1 rs2 s := rfl
@[simp] theorem exec_hcpyCpys (rd rs1 rs2 : Nat) (s : State) : exec (.hcpyCpys rd rs1 rs2) s = execHcpyCpys rd rs1 rs2 s := rfl
@[simp] theorem exec_hcpyTmvl (rd rs1 : Nat) (s : State) : exec (.hcpyTmvl rd rs1) s = execHcpyTmvl rd rs1 s := rfl
@[simp] theorem exec_hcpyCpyx (rd rs1 : Nat) (s : State) : exec (.hcpyCpyx rd rs1) s = execHcpyCpyx rd rs1 s := rfl
@[simp] theorem exec_hringAwait (rd rs1 rs2 : Nat) (s : State) : exec (.hringAwait rd rs1 rs2) s = execHringAwait rd rs1 rs2 s := rfl
@[simp] theorem exec_hringRel (rd rs1 rs2 : Nat) (s : State) : exec (.hringRel rd rs1 rs2) s = execHringRel rd rs1 rs2 s := rfl
@[simp] theorem exec_hringStat (rd rs2 : Nat) (s : State) : exec (.hringStat rd rs2) s = execHringStat rd rs2 s := rfl
@[simp] theorem exec_hqPop (rd rs2 : Nat) (s : State) : exec (.hqPop rd rs2) s = execHqPop rd rs2 s := rfl
@[simp] theorem exec_hqPopnb (rd rs2 : Nat) (s : State) : exec (.hqPopnb rd rs2) s = execHqPopnb rd rs2 s := rfl
@[simp] theorem exec_hqPush (rs1 rs2 : Nat) (s : State) : exec (.hqPush rs1 rs2) s = execHqPush rs1 rs2 s := rfl
@[simp] theorem exec_hqPushnb (rd rs1 rs2 : Nat) (s : State) : exec (.hqPushnb rd rs1 rs2) s = execHqPushnb rd rs1 rs2 s := rfl
@[simp] theorem exec_hwtWait (rd rs1 : Nat) (s : State) : exec (.hwtWait rd rs1) s = execHwtWait rd rs1 s := rfl
@[simp] theorem exec_hwtTest (rd rs1 : Nat) (s : State) : exec (.hwtTest rd rs1) s = execHwtTest rd rs1 s := rfl
@[simp] theorem exec_hwtCnt (rd : Nat) (s : State) : exec (.hwtCnt rd) s = execHwtCnt rd s := rfl
@[simp] theorem exec_hwtCancel (rd rs1 : Nat) (s : State) : exec (.hwtCancel rd rs1) s = execHwtCancel rd rs1 s := rfl
@[simp] theorem exec_hodInstruction (compressed : Bool) (i : HodInstr) (s : State) : exec (.hodInstruction compressed i) s = execHodInstruction compressed i s := rfl
@[simp] theorem exec_ecall (s : State) : exec (.ecall) s = execEcall s := rfl
@[simp] theorem exec_ebreak (compressed : Bool) (s : State) : exec (.ebreak compressed) s = execEbreak compressed s := rfl
@[simp] theorem exec_reservationExpiry (core : Nat) (store : Bool) (s : State) : exec (.reservationExpiry core store) s = execReservationExpiry core store s := rfl
@[simp] theorem exec_start (store : Bool) (value : W32) (s : State) : exec (.start store value) s = execStart store value s := rfl
@[simp] theorem exec_stop (store : Bool) (value : W32) (s : State) : exec (.stop store value) s = execStop store value s := rfl
@[simp] theorem exec_release (store : Bool) (value : W32) (s : State) : exec (.release store value) s = execRelease store value s := rfl
@[simp] theorem exec_launch (port ring : Nat) (s : State) : exec (.launch port ring) s = execLaunch port ring s := rfl
@[simp] theorem exec_task (port ring : Nat) (s : State) : exec (.task port ring) s = execTask port ring s := rfl
@[simp] theorem exec_waitValue (port ring : Nat) (s : State) : exec (.waitValue port ring) s = execWaitValue port ring s := rfl
@[simp] theorem exec_waitValueRecheck (port ring : Nat) (s : State) : exec (.waitValueRecheck port ring) s = execWaitValueRecheck port ring s := rfl
@[simp] theorem exec_signal (port ring : Nat) (s : State) : exec (.signal port ring) s = execSignal port ring s := rfl
@[simp] theorem exec_barrier (port ring : Nat) (s : State) : exec (.barrier port ring) s = execBarrier port ring s := rfl
@[simp] theorem exec_contextCreate (port ring : Nat) (s : State) : exec (.contextCreate port ring) s = execContextCreate port ring s := rfl
@[simp] theorem exec_contextDestroy (port ring : Nat) (s : State) : exec (.contextDestroy port ring) s = execContextDestroy port ring s := rfl
@[simp] theorem exec_resume (port ring : Nat) (s : State) : exec (.resume port ring) s = execResume port ring s := rfl
@[simp] theorem exec_teamPlacement (launch : Nat) (seats : List Seat) (s : State) : exec (.teamPlacement launch seats) s = execTeamPlacement launch seats s := rfl
@[simp] theorem exec_launchEnd (launch : Nat) (s : State) : exec (.launchEnd launch) s = execLaunchEnd launch s := rfl
@[simp] theorem exec_spawnTimeout (die bin : Nat) (s : State) : exec (.spawnTimeout die bin) s = execSpawnTimeout die bin s := rfl
@[simp] theorem exec_handOverStallFlush (die bin : Nat) (s : State) : exec (.handOverStallFlush die bin) s = execHandOverStallFlush die bin s := rfl
@[simp] theorem exec_epoch (launch : Nat) (s : State) : exec (.epoch launch) s = execEpoch launch s := rfl
@[simp] theorem exec_spawnTeamStart (die formed : Nat) (seat : Seat) (s : State) : exec (.spawnTeamStart die formed seat) s = execSpawnTeamStart die formed seat s := rfl
@[simp] theorem exec_taskStart (die task : Nat) (seat : Seat) (s : State) : exec (.taskStart die task seat) s = execTaskStart die task seat s := rfl
@[simp] theorem exec_taskCommit (die task : Nat) (s : State) : exec (.taskCommit die task) s = execTaskCommit die task s := rfl
@[simp] theorem exec_preemptionRequest (ctx launch team bound elapsed retire : Nat) (s : State) : exec (.preemptionRequest ctx launch team bound elapsed retire) s = execPreemptionRequest ctx launch team bound elapsed retire s := rfl
@[simp] theorem exec_drainBoundExpiry (team elapsed retire : Nat) (s : State) : exec (.drainBoundExpiry team elapsed retire) s = execDrainBoundExpiry team elapsed retire s := rfl
@[simp] theorem exec_restore (launch : Nat) (seats : List Seat) (s : State) : exec (.restore launch seats) s = execRestore launch seats s := rfl
@[simp] theorem exec_timesliceRotation (launch : Nat) (s : State) : exec (.timesliceRotation launch) s = execTimesliceRotation launch s := rfl
@[simp] theorem exec_peerUnreachable (peer : Nat) (s : State) : exec (.peerUnreachable peer) s = execPeerUnreachable peer s := rfl
@[simp] theorem exec_laneFailure (link : Nat) (s : State) : exec (.laneFailure link) s = execLaneFailure link s := rfl
@[simp] theorem exec_portFailure (link : Nat) (s : State) : exec (.portFailure link) s = execPortFailure link s := rfl
@[simp] theorem exec_flitResend (link : Nat) (s : State) : exec (.flitResend link) s = execFlitResend link s := rfl
@[simp] theorem exec_translationInvalidation (port : Nat) (s : State) : exec (.translationInvalidation port) s = execTranslationInvalidation port s := rfl
@[simp] theorem exec_preEmpt (port elapsed retire : Nat) (s : State) : exec (.preEmpt port elapsed retire) s = execPreEmpt port elapsed retire s := rfl
@[simp] theorem exec_returnToService (port : Nat) (s : State) : exec (.returnToService port) s = execReturnToService port s := rfl
@[simp] theorem exec_computeReset (port : Nat) (s : State) : exec (.computeReset port) s = execComputeReset port s := rfl
@[simp] theorem exec_fullReset (port : Nat) (s : State) : exec (.fullReset port) s = execFullReset port s := rfl
@[simp] theorem exec_firmwareUpdate (port : Nat) (verified : Bool) (version : Nat) (s : State) : exec (.firmwareUpdate port verified version) s = execFirmwareUpdate port verified version s := rfl
@[simp] theorem exec_firmwareHeartbeat (s : State) : exec (.firmwareHeartbeat) s = execFirmwareHeartbeat s := rfl
@[simp] theorem exec_heartbeatTimeout (s : State) : exec (.heartbeatTimeout) s = execHeartbeatTimeout s := rfl
@[simp] theorem exec_securityWrite (port : Nat) (s : State) : exec (.securityWrite port) s = execSecurityWrite port s := rfl
@[simp] theorem exec_halt (core : Nat) (s : State) : exec (.halt core) s = execHalt core s := rfl
@[simp] theorem exec_freeze (core : Nat) (s : State) : exec (.freeze core) s = execFreeze core s := rfl
@[simp] theorem exec_debugResume (core : Nat) (s : State) : exec (.debugResume core) s = execDebugResume core s := rfl
@[simp] theorem exec_bpen (core : Nat) (s : State) : exec (.bpen core) s = execBpen core s := rfl
@[simp] theorem exec_powerGood (failStage : Nat) (degraded : List Nat) (s : State) : exec (.powerGood failStage degraded) s = execPowerGood failStage degraded s := rfl
@[simp] theorem exec_throttling (level : Nat) (s : State) : exec (.throttling level) s = execThrottling level s := rfl
@[simp] theorem exec_illegalInstruction (word info1 : W32) (s : State) : exec (.illegalInstruction word info1) s = execIllegalInstruction word info1 s := rfl
@[simp] theorem exec_moduleReset (s : State) : exec (.moduleReset) s = execModuleReset s := rfl
@[simp] theorem exec_comparatorDrift (core : Nat) (s : State) : exec (.comparatorDrift core) s = execComparatorDrift core s := rfl
@[simp] theorem exec_hostAccess (port : Nat) (target : HostTarget) (act : OuterAct) (s : State) : exec (.hostAccess port target act) s = execHostAccess port target act s := rfl
@[simp] theorem exec_peerAccess (peer pa : Nat) (act : OuterAct) (s : State) : exec (.peerAccess peer pa act) s = execPeerAccess peer pa act s := rfl
@[simp] theorem exec_faultRingRptrAdvance (ctx rptr : Nat) (s : State) : exec (.faultRingRptrAdvance ctx rptr) s = execFaultRingRptrAdvance ctx rptr s := rfl
@[simp] theorem exec_spdmSession (port : Nat) (act : SpdmAct) (s : State) : exec (.spdmSession port act) s = execSpdmSession port act s := rfl
@[simp] theorem exec_debugAttach (core : Nat) (on : Bool) (s : State) : exec (.debugAttach core on) s = execDebugAttach core on s := rfl

end Sys2Proof.Machine
end

