-- ==== Sys2Proof/Laws/Maps.lean ====
section
/-!
SUPPORT. Laws of finite maps: what a key holds after another, or itself, was set or removed.
-/

namespace Sys2Proof.Machine

theorem findEntry_insertEntry {α : Type} (k j : Nat) (v : α) (l : List (Nat × α)) :
    findEntry j (insertEntry k v l) = if j = k then some v else findEntry j l := by
  induction l with
  | nil => simp [insertEntry, findEntry]
  | cons e rest ih =>
    obtain ⟨i, w⟩ := e
    simp only [insertEntry]
    split
    · simp [findEntry]
    · split
      · next h => subst h; simp only [findEntry]; split <;> rfl
      · next h1 h2 =>
        simp only [findEntry, ih]
        by_cases hj : j = k
        · subst hj; simp [h2]
        · simp [hj]

@[simp] theorem Map.find_set {α : Type} (m : Map α) (k j : Nat) (v : α) :
    (m.set k v).find j = if j = k then some v else m.find j := findEntry_insertEntry k j v m.entries

@[simp] theorem Map.find_empty {α : Type} (k : Nat) : (Map.empty : Map α).find k = none := rfl

theorem findEntry_filter {α : Type} (p : Nat → Bool) (j : Nat) (l : List (Nat × α)) :
    findEntry j (l.filter fun e => p e.1) = if p j then findEntry j l else none := by
  induction l with
  | nil => simp [findEntry]
  | cons e rest ih =>
    obtain ⟨i, w⟩ := e
    by_cases hp : p i
    · by_cases hj : j = i
      · subst hj; simp [findEntry, hp]
      · simp [List.filter, hp, findEntry, hj, ih]
    · by_cases hj : j = i
      · subst hj; simp [List.filter, hp, ih]
      · simp [List.filter, hp, findEntry, hj, ih]

@[simp] theorem Map.find_erase {α : Type} (m : Map α) (k j : Nat) :
    (m.erase k).find j = if j = k then none else m.find j := by
  have h := findEntry_filter (α := α) (fun i => decide (i ≠ k)) j m.entries
  simp only [Map.find, Map.erase]
  rw [h]
  by_cases hj : j = k <;> simp [hj]

@[simp] theorem Map.getZ_setZ {n : Nat} (m : Map (BitVec n)) (k j : Nat) (v : BitVec n) :
    (m.setZ k v).getZ j = if j = k then v else m.getZ j := by
  simp only [Map.setZ, Map.getZ, Map.get]
  split
  · next h => subst h; by_cases hj : j = k <;> simp [hj]
  · by_cases hj : j = k <;> simp [hj]

@[simp] theorem Map.get_set {α : Type} (m : Map α) (k j : Nat) (v d : α) :
    (m.set k v).get j d = if j = k then v else m.get j d := by
  simp only [Map.get, Map.find_set]; split <;> rfl

theorem Map.find_modify {α : Type} (m : Map α) (k j : Nat) (f : α → α) :
    (m.modify k f).find j = if j = k then (m.find k).map f else m.find j := by
  simp only [Map.modify]
  cases h : m.find k with
  | none => by_cases hj : j = k <;> simp [hj, h]
  | some v => simp

theorem findEntry_map {α : Type} (f : Nat → α → α) (j : Nat) (l : List (Nat × α)) :
    findEntry j (l.map fun e => (e.1, f e.1 e.2)) = (findEntry j l).map (f j) := by
  induction l with
  | nil => rfl
  | cons e rest ih =>
    obtain ⟨i, w⟩ := e
    simp only [List.map, findEntry, ih]
    split
    · next h => subst h; rfl
    · rfl

@[simp] theorem Map.find_mapValues {α : Type} (m : Map α) (f : Nat → α → α) (j : Nat) :
    (m.mapValues f).find j = (m.find j).map (f j) := findEntry_map f j m.entries

end Sys2Proof.Machine
end

