-- ==== Sys2Proof/Laws/Registers.lean ====
section
/-!
SUPPORT. Laws of a group's registers and of the shared operations that write them: what each register holds after a
write, and that nothing else of the group changes (R40 to R45, R97, R127).
-/

namespace Sys2Proof.Machine

/-! ### v registers -/

/-- The bank that register v r is taken from in a mode: the handler's for v80 to v95 (R127). -/
theorem Group.readV_writeV (g : Group) (hb b : Bool) (r q t u : Nat) (x : W32) (ht : t < 64) (hu : u < 64) :
    (g.writeV hb r t x).readV b q u =
      if q = r ∧ u = t ∧ (80 ≤ r → b = hb) then x else g.readV b q u := by
  have key : ∀ i j : Nat, (i * 64 + u = j * 64 + t) ↔ (i = j ∧ u = t) := fun i j => by omega
  cases hb <;> cases b <;> by_cases hr : 80 ≤ r <;> by_cases hq : 80 ≤ q <;>
    simp [Group.writeV, Group.readV, hr, hq, key] <;> omega

/-- Writing a v register touches only the two banks. -/
theorem Group.writeV_frame (g : Group) (hb : Bool) (r t : Nat) (x : W32) :
    g.writeV hb r t x = { g with v := (g.writeV hb r t x).v, hv := (g.writeV hb r t x).hv } := by
  simp only [Group.writeV]; split <;> rfl

theorem mem_threadsOf (k : Mask) (t : Nat) : t ∈ threadsOf k ↔ t < 64 ∧ k.getLsbD t = true := by
  simp [threadsOf]

/-- Each listed thread receives its value, every other one keeps its register. -/
theorem Group.readV_writeLanes (hb b : Bool) (r q u : Nat) (f : Nat → W32) (hu : u < 64) : ∀ (ts : List Nat) (g : Group),
    (∀ t ∈ ts, t < 64) → (g.writeLanes hb r f ts).readV b q u =
      if q = r ∧ u ∈ ts ∧ (80 ≤ r → b = hb) then f u else g.readV b q u
  | [], g, _ => by simp [Group.writeLanes]
  | t :: rest, g, h => by
    rw [Group.writeLanes, Group.readV_writeLanes hb b r q u f hu rest _ (fun t ht => h t (List.mem_cons_of_mem _ ht)),
      Group.readV_writeV g hb b r q t u (f t) (h t (List.mem_cons_self ..)) hu]
    by_cases h1 : q = r ∧ (80 ≤ r → b = hb)
    · by_cases h2 : u ∈ rest
      · rw [if_pos ⟨h1.1, h2, h1.2⟩, if_pos ⟨h1.1, List.mem_cons_of_mem _ h2, h1.2⟩]
      · rw [if_neg (fun h => h2 h.2.1)]
        by_cases h3 : u = t
        · rw [if_pos ⟨h1.1, h3, h1.2⟩, if_pos ⟨h1.1, h3 ▸ List.mem_cons_self .., h1.2⟩, h3]
        · rw [if_neg (fun h => h3 h.2.1), if_neg (fun h => (List.mem_cons.1 h.2.1).elim h3 h2)]
    · have : ∀ p : Prop, ¬(q = r ∧ p ∧ (80 ≤ r → b = hb)) := fun p hp => h1 ⟨hp.1, hp.2.2⟩
      rw [if_neg (this _), if_neg (this _), if_neg (this _)]

/-- Writing v registers touches only the two banks. -/
theorem Group.writeLanes_frame (hb : Bool) (r : Nat) (f : Nat → W32) : ∀ (ts : List Nat) (g : Group),
    g.writeLanes hb r f ts = { g with v := (g.writeLanes hb r f ts).v, hv := (g.writeLanes hb r f ts).hv }
  | [], _ => rfl
  | t :: rest, g => by
    rw [Group.writeLanes, Group.writeLanes_frame hb r f rest, Group.writeV_frame g]

/-! ### g registers -/

/-- g n holds what was written, g0 reads zero, and every other g register is as before (R45, R127). -/
theorem Group.readG_putG (g : Group) (hb b : Bool) (n k : Nat) (x : W32) :
    (g.putG hb n x).readG b k = if k = n ∧ n ≠ 0 ∧ (24 ≤ n → b = hb) then x else g.readG b k := by
  by_cases hn : n = 0
  · simp [Group.putG, hn]
  · by_cases hk : k = 0
    · subst hk
      have : ¬(0 = n ∧ n ≠ 0 ∧ (24 ≤ n → b = hb)) := fun h => hn h.1.symm
      simp [Group.readG, this]
    · cases hb <;> cases b <;> by_cases h1 : 24 ≤ n <;> by_cases h2 : 24 ≤ k <;>
        simp [Group.putG, Group.readG, hn, hk, h1, h2] <;> omega

/-- Writing a g register touches only the two banks. -/
theorem Group.putG_frame (g : Group) (hb : Bool) (n : Nat) (x : W32) :
    g.putG hb n x = { g with g := (g.putG hb n x).g, hg := (g.putG hb n x).hg } := by
  simp only [Group.putG]; split
  · rfl
  · split <;> rfl

theorem Group.readG_writeG (g : Group) (hb b : Bool) (n k : Nat) (x : W32) :
    (g.writeG hb n x).readG b k = if k = n ∧ n ≠ 0 ∧ (24 ≤ n → b = hb) then x else g.readG b k := by
  rw [← Group.readG_putG]; rfl

/-- Writing g n touches only the two banks and the pending state of g n. -/
theorem Group.writeG_frame (g : Group) (hb : Bool) (n : Nat) (x : W32) :
    g.writeG hb n x =
      { g with
        g := (g.putG hb n x).g, hg := (g.putG hb n x).hg
        pendingRegs := g.pendingRegs.filter fun p => !(p.reg = n && p.handlerBank == bankOf hb n) } := by
  rw [Group.writeG, Group.unpend, Group.putG_frame g]

/-! ### The current fragment -/

/-- The fragment that acts stands in the groups, teams and launches of the state. -/
theorem State.ctx_eq_some {s : State} {x : Ctx} (h : s.ctx = some x) :
    s.cur = .group x.core x.slot x.frag ∧ s.groups.find (slotKey x.core x.slot) = some x.g ∧
      x.g.frags[x.frag]? = some x.f ∧ s.teams.find x.g.team = some x.team ∧
      s.launches.find x.team.launch = some x.launch := by
  unfold State.ctx at h
  split at h
  · next core slot frag hc =>
    split at h
    · cases h
    · next g hg =>
      split at h
      · next f t hf ht =>
        split at h
        · next l hl => cases h; exact ⟨hc, hg, hf, ht, hl⟩
        · cases h
      · cases h
  · cases h

/-- A meaning of a fragment answers what it does for that fragment. -/
theorem onFrag_of {s : State} {x : Ctx} (h : s.ctx = some x) (act : Ctx → Out) : onFrag s act = act x := by
  simp [onFrag, h]

/-- What an instruction that completes answers. -/
theorem Ctx.done_eq (x : Ctx) (s : State) (g : Group) (m : Bool) (n : Nat) :
    x.done s g m n = .next (x.put s (g.advance x.frag m n)) := rfl

/-- A fragment outside loop bodies, or in handler mode, moves to pc and nothing else happens (R109). -/
theorem Group.goto_of_plain (g : Group) (i : Nat) (f : Fragment) (pc : W32) (hf : g.frags[i]? = some f)
    (h : (f.looping && !g.handler) = false) : g.goto i pc = { g with frags := g.frags.set i { f with pc := pc } } := by
  simp [Group.goto, Group.gotoStep, hf, h, Group.setFrag]

end Sys2Proof.Machine
end

