-- ==== Sys2Proof/Laws/Lanes.lean ====
section
/-!
SUPPORT. What the operand forms answer, in the terms of Sys2Proof/Safety.lean: lane instructions, comparisons, results
that land later, uniform and mask instructions.
-/

namespace Sys2Proof.Machine

/-! ### Registers written -/

theorem Group.lanesSet_writeLanes (g : Group) (d : Nat) (k : Mask) (f : Nat → W32) :
    g.lanesSet (g.writeLanes g.handler d f (threadsOf k)) d k f := by
  refine ⟨fun b r t ht => ?_, Group.writeLanes_frame ..⟩
  rw [Group.readV_writeLanes _ _ _ _ _ _ ht _ _ (fun t h => ((mem_threadsOf k t).1 h).1)]
  simp only [mem_threadsOf, ht, true_and]

theorem Group.lanesSet_congr {g g' : Group} {d : Nat} {k : Mask} {f f' : Nat → W32} (h : g.lanesSet g' d k f)
    (hf : ∀ t, t < 64 → f t = f' t) : g.lanesSet g' d k f' :=
  ⟨fun b r t ht => by rw [h.1 b r t ht, hf t ht], h.2⟩

theorem Group.isPending_writeG (g : Group) (b : Bool) (n k : Nat) (hb : Bool) (v : W32) :
    (g.writeG hb n v).isPending b k = true ↔ g.isPending b k = true ∧ (k ≠ n ∨ bankOf b n ≠ bankOf hb n) := by
  have e : (g.writeG hb n v).pendingRegs = g.pendingRegs.filter fun p => !(p.reg = n && p.handlerBank == bankOf hb n) := by
    rw [Group.writeG_frame]
  simp only [Group.isPending, e, List.any_eq_true, List.mem_filter, Bool.and_eq_true, decide_eq_true_eq, beq_iff_eq,
    Bool.not_eq_true', Bool.and_eq_false_iff, decide_eq_false_iff_not, beq_eq_false_iff_ne]
  constructor
  · rintro ⟨p, ⟨hp, hc⟩, rfl, hk⟩
    refine ⟨⟨p, hp, rfl, hk⟩, ?_⟩
    rcases hc with hc | hc
    · exact .inl hc
    · by_cases hn : p.reg = n
      · right; rw [← hn]; rw [hn] at hk; rw [hn, ← hk]; exact hc
      · exact .inl hn
  · rintro ⟨⟨p, hp, rfl, hk⟩, hc⟩
    refine ⟨p, ⟨hp, ?_⟩, rfl, hk⟩
    rcases hc with hc | hc
    · exact .inl hc
    · by_cases hn : p.reg = n
      · right; rw [hk, hn]; exact hc
      · exact .inl hn

theorem Group.scalarSet_writeG (g : Group) (n : Nat) (v : W32) : g.scalarSet (g.writeG g.handler n v) n v := by
  refine ⟨fun b k => Group.readG_writeG .., fun b k => Group.isPending_writeG .., ?_⟩
  rw [Group.writeG_frame]

theorem Ctx.uniformSet_writeUni (x : Ctx) (d : Nat) (v : W32) : x.uniformSet (x.writeUni x.g d v) d v := by
  simp only [Ctx.uniformSet, Ctx.writeUni]
  split
  · exact Group.lanesSet_writeLanes ..
  · exact Group.scalarSet_writeG ..

/-! ### Masks written -/

theorem getElem?_set_self {x : Ctx} (hf : x.g.frags[x.frag]? = some x.f) (f : Fragment) :
    (x.g.frags.set x.frag f)[x.frag]? = some f := by
  have : x.frag < x.g.frags.length := (List.getElem?_eq_some_iff.1 hf).1
  simp [this]

theorem Ctx.maskSet_writeMaskLane {x : Ctx} (hf : x.g.frags[x.frag]? = some x.f) (k : Nat) (w v : Mask) :
    x.maskSet (x.writeMaskLane x.g k w v) k w v := by
  by_cases hk : k = 0
  · subst hk
    constructor
    · intro n t hn ht
      simp only [Ctx.writeMaskLane, if_true, Group.setFrag, getElem?_set_self hf, Ctx.mask]
      by_cases h0 : n = 0
      · subst h0
        simp only [Option.map_some, Option.getD_some, if_true, true_and, BitVec.getLsbD_or, BitVec.getLsbD_and,
          BitVec.getLsbD_not, ht, decide_true, Bool.true_and]
        cases w.getLsbD t <;> simp
      · simp [h0]
    · simp [Ctx.writeMaskLane, Group.setFrag, getElem?_set_self hf]
  · constructor
    · intro n t hn ht
      simp only [Ctx.writeMaskLane, if_neg hk, hf, Ctx.mask]
      by_cases h0 : n = 0
      · subst h0
        have : ¬(0 = k ∧ w.getLsbD t = true) := fun h => hk h.1.symm
        simp [this]
      · rw [if_neg h0, if_neg h0, Map.getZ_setZ]
        by_cases hnk : n = k
        · subst hnk
          simp only [if_true, true_and, BitVec.getLsbD_or, BitVec.getLsbD_and, BitVec.getLsbD_not, ht, decide_true,
            Bool.true_and]
          cases w.getLsbD t <;> simp
        · simp [hnk]
    · simp [Ctx.writeMaskLane, hk]

theorem Ctx.maskSet_congr {x : Ctx} {g' : Group} {k : Nat} {w v v' : Mask} (h : x.maskSet g' k w v)
    (hv : ∀ t, t < 64 → w.getLsbD t = true → v.getLsbD t = v'.getLsbD t) : x.maskSet g' k w v' := by
  refine ⟨fun n t hn ht => ?_, h.2⟩
  rw [h.1 n t hn ht]
  by_cases hw : n = k ∧ w.getLsbD t = true
  · rw [if_pos hw, if_pos hw, hv t ht hw.2]
  · rw [if_neg hw, if_neg hw]

theorem getLsbD_foldl_maskOf (p : Nat → Bool) (t : Nat) (ht : t < 64) : ∀ (l : List Nat) (m : Mask),
    (l.foldl (fun m t => if p t then m ||| BitVec.twoPow 64 t else m) m).getLsbD t = (m.getLsbD t || (decide (t ∈ l) && p t))
  | [], m => by simp
  | u :: rest, m => by
    rw [List.foldl_cons, getLsbD_foldl_maskOf p t ht rest]
    by_cases hu : t = u
    · subst hu
      cases hp : p t <;> simp [ht]
    · cases hp : p u <;> simp [hu, BitVec.getLsbD_twoPow, show ¬ u = t from fun h => hu h.symm]

@[simp] theorem getLsbD_maskOf (p : Nat → Bool) (t : Nat) (ht : t < 64) : (maskOf p).getLsbD t = p t := by
  rw [maskOf, getLsbD_foldl_maskOf p t ht]; simp [ht]

/-! ### Flags -/

theorem getLsbD_foldl_or (j : Nat) : ∀ (l : List Flags) (a : Flags),
    ((l.foldl (· ||| ·) a).getLsbD j = true ↔ a.getLsbD j = true ∨ ∃ f ∈ l, f.getLsbD j = true)
  | [], a => by simp
  | f :: rest, a => by
    rw [List.foldl_cons, getLsbD_foldl_or j rest]
    simp [BitVec.getLsbD_or, or_assoc]

theorem Ctx.unionOf_flagUnion (x : Ctx) (f : Nat → Flags) : x.unionOf f (flagUnion ((threadsOf x.f.k0).map f)) := by
  intro j hj
  rw [flagUnion, getLsbD_foldl_or]
  simp [mem_threadsOf, and_assoc]

theorem Ctx.doneFlags_eq (x : Ctx) (s : State) (g : Group) (fl : Flags) (m : Bool) (n : Nat) (h : g.fpmode = x.g.fpmode) :
    x.doneFlags s g fl m n = .next (x.completesFlagged s g fl m n) := by
  simp only [Ctx.doneFlags, Ctx.completesFlagged, Group.raise, trapEnabled, h, Ctx.completes]
  split <;> rfl

/-! ### Operand forms -/

theorem not_waits {x : Ctx} {srcs : List Nat} (hr : x.f.k0 = 0 ∨ x.ready srcs) :
    ¬(x.f.k0 ≠ 0 ∧ x.waitsOn srcs = true) := by
  rintro ⟨h1, h2⟩
  rcases hr with h | h
  · exact h1 h
  · rw [Ctx.ready] at h; rw [h] at h2; cases h2

theorem laneMap_completes {s : State} {x : Ctx} (h : s.ctx = some x) (m : Bool) (n d : Nat) (srcs : List Nat)
    (f f' : Ctx → Nat → W32) (hr : x.f.k0 = 0 ∨ x.ready srcs) (hf : ∀ t, t < 64 → f x t = f' x t) :
    ∃ g', x.g.lanesSet g' d x.f.k0 (f' x) ∧ laneMap m n d srcs f s = .next (x.completes s g' m n) := by
  refine ⟨_, Group.lanesSet_congr (Group.lanesSet_writeLanes x.g d x.f.k0 (f x)) hf, ?_⟩
  rw [laneMap, onFrag_of h, if_neg (not_waits hr)]; rfl

theorem laneMapF_completes {s : State} {x : Ctx} (h : s.ctx = some x) (m : Bool) (d : Nat) (srcs : List Nat)
    (f : Ctx → Nat → W32 × Flags) (hr : x.f.k0 = 0 ∨ x.ready srcs) :
    ∃ g' fl, x.g.lanesSet g' d x.f.k0 (fun t => (f x t).1) ∧ x.unionOf (fun t => (f x t).2) fl ∧
      laneMapF m d srcs f s = .next (x.completesFlagged s g' fl m 1) := by
  refine ⟨_, _, Group.lanesSet_writeLanes .., x.unionOf_flagUnion _, ?_⟩
  rw [laneMapF, onFrag_of h, if_neg (not_waits hr)]
  exact x.doneFlags_eq s _ _ m 1 (by rw [Group.writeLanes_frame])

theorem laneCompare_completes {s : State} {x : Ctx} (h : s.ctx = some x) (m : Bool) (k : Nat) (srcs : List Nat)
    (f : Ctx → Nat → Bool × Flags) (hr : x.f.k0 = 0 ∨ x.ready srcs) :
    ∃ g' fl, x.maskSet g' k x.f.k0 (maskOf fun t => (f x t).1) ∧ x.unionOf (fun t => (f x t).2) fl ∧
      laneCompare m k srcs f s = .next (x.completesFlagged s g' fl m 1) := by
  refine ⟨_, _, Ctx.maskSet_congr (Ctx.maskSet_writeMaskLane (State.ctx_eq_some h).2.2.1 k x.f.k0
    (maskOf fun t => x.f.k0.getLsbD t && (f x t).1)) ?_, x.unionOf_flagUnion _, ?_⟩
  · intro t ht hw; rw [getLsbD_maskOf _ _ ht, getLsbD_maskOf _ _ ht, hw]; rfl
  · rw [laneCompare, onFrag_of h, if_neg (not_waits hr)]
    refine x.doneFlags_eq s _ _ m 1 ?_
    simp only [Ctx.writeMaskLane]; split <;> rfl

/-- With no flag raised the instruction completes plainly. -/
theorem Ctx.completesFlagged_zero (x : Ctx) (s : State) (g : Group) (m : Bool) (n : Nat) :
    x.completesFlagged s g 0 m n = x.completes s g m n := by
  have e : { g with fpflags := g.fpflags ||| (0 : Flags).setWidth 32 } = g := by simp
  simp only [Ctx.completesFlagged, e]
  rw [if_pos (by simp)]

/-! ### Results that land later -/

theorem find_setMany (d t r u : Nat) (vs : List W32) (ht : t < 64) (hu : u < 64) : ∀ (n : Nat), n ≤ vs.length → ∀ m : Map W32,
    ((List.range n).foldl (fun vals i => vals.set ((d + i) * 64 + t) (vs.getD i 0)) m).find (r * 64 + u) =
      if u = t ∧ d ≤ r ∧ r < d + n then vs[r - d]? else m.find (r * 64 + u)
  | 0, _, m => by rw [if_neg (by omega)]; rfl
  | n + 1, hn, m => by
    rw [List.range_succ, List.foldl_append, List.foldl_cons, List.foldl_nil, Map.find_set,
      find_setMany d t r u vs ht hu n (by omega)]
    by_cases hk : r * 64 + u = (d + n) * 64 + t
    · have h1 : r = d + n := by omega
      have h2 : u = t := by omega
      rw [if_pos hk, if_pos ⟨h2, by omega, by omega⟩, h1, Nat.add_sub_cancel_left,
        List.getD_eq_getElem _ _ (by omega), List.getElem?_eq_getElem (by omega)]
    · rw [if_neg hk]
      by_cases hc : u = t ∧ d ≤ r ∧ r < d + n
      · rw [if_pos hc, if_pos ⟨hc.1, hc.2.1, by omega⟩]
      · rw [if_neg hc, if_neg]
        rintro ⟨rfl, h1, h2⟩
        exact hk (by have : r = d + n := by omega
                     rw [this])

/-- The values of a pending result: thread t of the list has f t in d, d + 1, …. -/
theorem find_pendVals (d : Nat) (f : Nat → List W32) (r u : Nat) (hu : u < 64) (ts : List Nat) (hts : ∀ t ∈ ts, t < 64) :
    (pendVals d f ts).find (r * 64 + u) = if u ∈ ts ∧ d ≤ r then (f u)[r - d]? else none := by
  have go : ∀ (ts : List Nat) (m : Map W32), (∀ t ∈ ts, t < 64) →
      (ts.foldl (fun vals t =>
        (List.range (f t).length).foldl (fun vals i => vals.set ((d + i) * 64 + t) ((f t).getD i 0)) vals) m).find (r * 64 + u) =
        if u ∈ ts ∧ d ≤ r ∧ r < d + (f u).length then (f u)[r - d]? else m.find (r * 64 + u) := by
    intro ts
    induction ts with
    | nil => intro m _; rw [if_neg (by simp)]; rfl
    | cons t rest ih =>
      intro m h
      rw [List.foldl_cons, ih _ (fun t ht => h t (List.mem_cons_of_mem _ ht)),
        find_setMany d t r u (f t) (h t (List.mem_cons_self ..)) hu _ le_rfl]
      by_cases h1 : u ∈ rest ∧ d ≤ r ∧ r < d + (f u).length
      · rw [if_pos h1, if_pos ⟨List.mem_cons_of_mem _ h1.1, h1.2⟩]
      · rw [if_neg h1]
        by_cases h2 : u = t
        · subst h2
          by_cases h3 : d ≤ r ∧ r < d + (f u).length
          · rw [if_pos ⟨rfl, h3⟩, if_pos ⟨List.mem_cons_self .., h3⟩]
          · rw [if_neg (fun h => h3 h.2), if_neg (fun h => h3 h.2)]
        · rw [if_neg (fun h => h2 h.1), if_neg (fun h => (List.mem_cons.1 h.1).elim h2 fun h' => h1 ⟨h', h.2⟩)]
  rw [pendVals, go ts _ hts]
  by_cases h1 : u ∈ ts ∧ d ≤ r
  · rw [if_pos h1]
    by_cases h2 : r < d + (f u).length
    · rw [if_pos ⟨h1.1, h1.2, h2⟩]
    · rw [if_neg (fun h => h2 h.2.2), List.getElem?_eq_none (by omega)]; rfl
  · rw [if_neg h1, if_neg (fun h => h1 ⟨h.1, h.2.1⟩)]; rfl

theorem Ctx.sent_sendLanes (x : Ctx) (g : Group) (word : W32) (d : Nat) (f : Nat → List W32) (mask : Option (Nat × Mask))
    (fl : Flags) : x.sent g (x.sendLanes g word d f mask fl none) word d f mask fl := by
  simp only [Ctx.sent, Ctx.sendLanes]
  split
  · rfl
  · refine ⟨_, rfl, rfl, rfl, rfl, rfl, rfl, rfl, rfl, rfl, rfl, rfl, fun r t ht => ?_⟩
    rw [find_pendVals _ _ _ _ ht _ (fun t h => ((mem_threadsOf _ t).1 h).1)]
    simp only [mem_threadsOf, ht, true_and]

theorem Ctx.sent_congr {x : Ctx} {g g' : Group} {w : W32} {d : Nat} {f f' : Nat → List W32} {mk : Option (Nat × Mask)} {fl : Flags}
    (h : x.sent g g' w d f mk fl) (hf : ∀ t, t < 64 → x.f.k0.getLsbD t = true → f t = f' t) : x.sent g g' w d f' mk fl := by
  simp only [Ctx.sent] at h ⊢
  split at h
  · next hk => rw [if_pos hk]; exact h
  · next hk =>
    rw [if_neg hk]
    obtain ⟨p, h1, h2, h3, h4, h5, h6, h7, h8, h9, h10, h11, h12⟩ := h
    refine ⟨p, h1, h2, h3, h4, h5, h6, h7, h8, h9, h10, h11, fun r t ht => ?_⟩
    rw [h12 r t ht]
    by_cases hc : x.f.k0.getLsbD t = true ∧ d ≤ r
    · rw [if_pos hc, if_pos hc, hf t ht hc.1]
    · rw [if_neg hc, if_neg hc]

theorem laneSend_completes {s : State} {x : Ctx} (h : s.ctx = some x) (m : Bool) (d : Nat) (srcs : List Nat)
    (f f' : Ctx → Nat → W32) (fl : Ctx → Flags) (hr : x.f.k0 = 0 ∨ x.ready srcs)
    (hf : ∀ t, t < 64 → x.f.k0.getLsbD t = true → f x t = f' x t) :
    ∃ g', x.sent x.g g' s.ir d (fun t => [f' x t]) none (fl x) ∧ laneSend m d srcs f fl s = .next (x.completes s g' m 1) := by
  refine ⟨_, Ctx.sent_congr (x.sent_sendLanes x.g s.ir d (fun t => [f x t]) none (fl x)) (fun t ht ha => by rw [hf t ht ha]), ?_⟩
  rw [laneSend, onFrag_of h, if_neg (not_waits hr)]; rfl

/-! ### Uniform and mask instructions -/

theorem uniMap_completes {s : State} {x : Ctx} (h : s.ctx = some x) (m : Bool) (n d : Nat) (srcs : List Nat) (f : Ctx → W32)
    (hr : x.ready srcs) :
    ∃ g', x.uniformSet g' d (f x) ∧ uniMap m n d srcs f s = .next (x.completes s g' m n) := by
  refine ⟨_, x.uniformSet_writeUni d (f x), ?_⟩
  rw [uniMap, onFrag_of h, if_neg (by rw [Ctx.ready] at hr; simp [hr])]; rfl

end Sys2Proof.Machine
end

