-- ==== Sys2Proof/Laws/Memory.lean ====
section
/-!
SUPPORT. Laws of memory: every operation keeps the canonical form (R486), a byte that was stored reads back, and every
other byte reads as before.
-/

namespace Sys2Proof.Machine

theorem cellsRise_mono {lo hi : Nat} (h : lo ≤ hi) : ∀ l : List Host.Cell, cellsRise hi l = true → cellsRise lo l = true
  | [], _ => rfl
  | (a, _) :: _, hr => by
    simp only [cellsRise, Bool.and_eq_true, decide_eq_true_eq] at hr ⊢
    exact ⟨by omega, hr.2⟩

theorem cellsRise_putCell (a : Nat) (b : Byte) : ∀ (lo : Nat) (l : List Host.Cell), lo ≤ a → cellsRise lo l = true →
    cellsRise lo (putCell a b l) = true
  | lo, [], h, _ => by
    simp only [putCell]
    split <;> simp [cellsRise, h]
  | lo, (x, c) :: rest, h, hr => by
    simp only [cellsRise, Bool.and_eq_true, decide_eq_true_eq] at hr
    simp only [putCell]
    split
    · split
      · simp [cellsRise, hr]
      · simp only [cellsRise, Bool.and_eq_true, decide_eq_true_eq]; exact ⟨h, by omega, hr.2⟩
    · split
      · next h2 =>
        subst h2
        split
        · exact cellsRise_mono (by omega) rest hr.2
        · simp [cellsRise, hr]
      · simp only [cellsRise, Bool.and_eq_true, decide_eq_true_eq]
        exact ⟨hr.1, cellsRise_putCell a b (x + 1) rest (by omega) hr.2⟩

theorem nonzero_putCell (a : Nat) (b : Byte) : ∀ l : List Host.Cell, (∀ c ∈ l, c.2 ≠ 0) → ∀ c ∈ putCell a b l, c.2 ≠ 0
  | [], _ => by
    simp only [putCell]
    split
    · simp
    · next h => simpa using h
  | (x, c) :: rest, h => by
    have hr : ∀ c ∈ rest, c.2 ≠ 0 := fun e he => h e (List.mem_cons_of_mem _ he)
    simp only [putCell]
    split
    · split
      · exact h
      · next hb =>
        intro e he
        rcases List.mem_cons.1 he with rfl | he
        · exact hb
        · exact h e he
    · split
      · split
        · exact hr
        · next hb =>
          intro e he
          rcases List.mem_cons.1 he with rfl | he
          · exact hb
          · exact hr e he
      · intro e he
        rcases List.mem_cons.1 he with rfl | he
        · exact h _ (List.mem_cons_self ..)
        · exact nonzero_putCell a b rest hr e he

theorem Memory.wf_iff (m : Memory) : m.wf = true ↔ cellsRise 0 m.cells = true ∧ ∀ c ∈ m.cells, c.2 ≠ 0 := by
  simp [Memory.wf]

/-- A byte store keeps the canonical form. -/
theorem Memory.wf_put (m : Memory) (a : Nat) (b : Byte) (h : m.wf = true) : (m.put a b).wf = true := by
  rw [Memory.wf_iff] at h ⊢
  exact ⟨cellsRise_putCell a b 0 m.cells (Nat.zero_le a) h.1, nonzero_putCell a b m.cells h.2⟩

/-- A store of bytes keeps the canonical form. -/
theorem Memory.wf_putBytes (bytes : List Byte) : ∀ (m : Memory) (a : Nat), m.wf = true → (m.putBytes a bytes).wf = true := by
  induction bytes with
  | nil => intro m a h; exact h
  | cons b rest ih => intro m a h; exact ih _ _ (m.wf_put a b h)

theorem cellsRise_filter (p : Host.Cell → Bool) : ∀ (lo : Nat) (l : List Host.Cell), cellsRise lo l = true →
    cellsRise lo (l.filter p) = true
  | _, [], _ => rfl
  | lo, (a, b) :: rest, h => by
    simp only [cellsRise, Bool.and_eq_true, decide_eq_true_eq] at h
    simp only [List.filter]
    split
    · simp only [cellsRise, Bool.and_eq_true, decide_eq_true_eq]
      exact ⟨h.1, cellsRise_filter p (a + 1) rest h.2⟩
    · exact cellsRise_mono (by omega) _ (cellsRise_filter p (a + 1) rest h.2)

/-- Removing cells keeps the canonical form. -/
theorem Memory.wf_filter (m : Memory) (p : Host.Cell → Bool) (h : m.wf = true) : Memory.wf ⟨m.cells.filter p⟩ = true := by
  rw [Memory.wf_iff] at h ⊢
  exact ⟨cellsRise_filter p 0 m.cells h.1, fun c hc => h.2 c (List.mem_filter.1 hc).1⟩

/-- Clearing a range keeps the canonical form. -/
theorem Memory.wf_clear (m : Memory) (lo hi : Nat) (h : m.wf = true) : (m.clear lo hi).wf = true := m.wf_filter _ h

/-- Storing cells one by one keeps the canonical form. -/
theorem Memory.wf_foldl_put (place : Nat → Nat) (cells : List Host.Cell) : ∀ m : Memory, m.wf = true →
    (cells.foldl (fun m c => m.put (place c.1) c.2) m).wf = true := by
  induction cells with
  | nil => intro m h; exact h
  | cons c rest ih => intro m h; exact ih _ (m.wf_put _ _ h)

/-! ### Reading after writing -/

theorem findCell_below {a lo : Nat} (ha : a < lo) : ∀ l : List Host.Cell, cellsRise lo l = true → findCell a l = 0
  | [], _ => rfl
  | (x, b) :: rest, h => by
    simp only [cellsRise, Bool.and_eq_true, decide_eq_true_eq] at h
    simp only [findCell]
    rw [if_neg (by omega), if_pos (by omega)]

theorem findCell_putCell (a c : Nat) (b : Byte) : ∀ (lo : Nat) (l : List Host.Cell), cellsRise lo l = true →
    findCell c (putCell a b l) = if c = a then b else findCell c l
  | lo, [], _ => by
    simp only [putCell]
    split
    · next h => subst h; simp [findCell]
    · simp [findCell]
  | lo, (x, e) :: rest, h => by
    simp only [cellsRise, Bool.and_eq_true, decide_eq_true_eq] at h
    simp only [putCell]
    by_cases hca : c = a
    · subst hca
      rw [if_pos rfl]
      split
      · next hx =>
        split
        · next hb => subst hb; exact findCell_below (lo := x) (by omega) _ (by simp [cellsRise, h.2])
        · simp [findCell]
      · split
        · next hx =>
          subst hx
          split
          · next hb => subst hb; exact findCell_below (lo := c + 1) (by omega) _ h.2
          · simp [findCell]
        · next h1 h2 =>
          simp only [findCell]
          rw [if_neg h2, if_neg h1, findCell_putCell c c b (x + 1) rest h.2, if_pos rfl]
    · rw [if_neg hca]
      split
      · next hx =>
        split
        · rfl
        · simp only [findCell]
          rw [if_neg hca]
          split
          · next hlt => rw [if_neg (by omega), if_pos (by omega)]
          · rfl
      · split
        · next hx =>
          subst hx
          split
          · simp only [findCell]
            rw [if_neg hca]
            split
            · next hlt => exact findCell_below (lo := a + 1) (by omega) _ h.2
            · rfl
          · simp only [findCell]
            rw [if_neg hca, if_neg hca]
        · simp only [findCell]
          rw [findCell_putCell a c b (x + 1) rest h.2, if_neg hca]

/-- A byte that was stored reads back, and every other byte reads as before. -/
theorem Memory.byte_put (m : Memory) (h : m.wf = true) (a c : Nat) (b : Byte) :
    (m.put a b).byte c = if c = a then b else m.byte c :=
  findCell_putCell a c b 0 m.cells ((m.wf_iff).1 h).1

/-- Bytes that were stored read back, and every other byte reads as before. -/
theorem Memory.byte_putBytes (bytes : List Byte) : ∀ (m : Memory) (_ : m.wf = true) (a c : Nat),
    (m.putBytes a bytes).byte c = if a ≤ c ∧ c < a + bytes.length then bytes.getD (c - a) 0 else m.byte c := by
  induction bytes with
  | nil => intro m h a c; rw [if_neg (by simp)]; rfl
  | cons b rest ih =>
    intro m h a c
    simp only [Memory.putBytes, List.length_cons]
    rw [ih _ (m.wf_put a b h), m.byte_put h]
    by_cases hca : c = a
    · subst hca
      rw [if_neg (by omega), if_pos rfl, if_pos (by omega)]; simp
    · by_cases hin : a + 1 ≤ c ∧ c < a + 1 + rest.length
      · rw [if_pos hin, if_pos (by omega)]
        obtain ⟨k, rfl⟩ : ∃ k, c = a + 1 + k := ⟨c - (a + 1), by omega⟩
        rw [show a + 1 + k - (a + 1) = k by omega, show a + 1 + k - a = k + 1 by omega, List.getD_cons_succ]
      · rw [if_neg hin, if_neg hca, if_neg (by omega)]

end Sys2Proof.Machine
end

