-- ==== Sys2Proof/Laws/State.lean ====
section
/-!
SUPPORT. What each update of the state leaves in each field, so that no proof unfolds a record update.
-/

namespace Sys2Proof.Machine

/-! ### `State.takeTurn` -/

@[simp] theorem State.takeTurn_tick (s : State) : s.takeTurn.tick = s.tick := rfl
@[simp] theorem State.takeTurn_turns (s : State) : s.takeTurn.turns = s.turns.drop 1 := rfl
@[simp] theorem State.takeTurn_cur (s : State) : s.takeTurn.cur = s.cur := rfl
@[simp] theorem State.takeTurn_ir (s : State) : s.takeTurn.ir = s.ir := rfl
@[simp] theorem State.takeTurn_mem (s : State) : s.takeTurn.mem = s.mem := rfl
@[simp] theorem State.takeTurn_tlb (s : State) : s.takeTurn.tlb = s.tlb := rfl
@[simp] theorem State.takeTurn_groups (s : State) : s.takeTurn.groups = s.groups := rfl
@[simp] theorem State.takeTurn_teams (s : State) : s.takeTurn.teams = s.teams := rfl
@[simp] theorem State.takeTurn_nextTeam (s : State) : s.takeTurn.nextTeam = s.nextTeam := rfl
@[simp] theorem State.takeTurn_launches (s : State) : s.takeTurn.launches = s.launches := rfl
@[simp] theorem State.takeTurn_nextLaunch (s : State) : s.takeTurn.nextLaunch = s.nextLaunch := rfl
@[simp] theorem State.takeTurn_contexts (s : State) : s.takeTurn.contexts = s.contexts := rfl
@[simp] theorem State.takeTurn_saved (s : State) : s.takeTurn.saved = s.saved := rfl
@[simp] theorem State.takeTurn_nextSerial (s : State) : s.takeTurn.nextSerial = s.nextSerial := rfl
@[simp] theorem State.takeTurn_nextOrder (s : State) : s.takeTurn.nextOrder = s.nextOrder := rfl
@[simp] theorem State.takeTurn_queues (s : State) : s.takeTurn.queues = s.queues := rfl
@[simp] theorem State.takeTurn_rings (s : State) : s.takeTurn.rings = s.rings := rfl
@[simp] theorem State.takeTurn_scoreboard (s : State) : s.takeTurn.scoreboard = s.scoreboard := rfl
@[simp] theorem State.takeTurn_margins (s : State) : s.takeTurn.margins = s.margins := rfl
@[simp] theorem State.takeTurn_seqSlots (s : State) : s.takeTurn.seqSlots = s.seqSlots := rfl
@[simp] theorem State.takeTurn_kilns (s : State) : s.takeTurn.kilns = s.kilns := rfl
@[simp] theorem State.takeTurn_hods (s : State) : s.takeTurn.hods = s.hods := rfl
@[simp] theorem State.takeTurn_debugs (s : State) : s.takeTurn.debugs = s.debugs := rfl
@[simp] theorem State.takeTurn_staging (s : State) : s.takeTurn.staging = s.staging := rfl
@[simp] theorem State.takeTurn_bins (s : State) : s.takeTurn.bins = s.bins := rfl
@[simp] theorem State.takeTurn_formed (s : State) : s.takeTurn.formed = s.formed := rfl
@[simp] theorem State.takeTurn_tasks (s : State) : s.takeTurn.tasks = s.tasks := rfl
@[simp] theorem State.takeTurn_nextTask (s : State) : s.takeTurn.nextTask = s.nextTask := rfl
@[simp] theorem State.takeTurn_dieReset (s : State) : s.takeTurn.dieReset = s.dieReset := rfl
@[simp] theorem State.takeTurn_ckeys (s : State) : s.takeTurn.ckeys = s.ckeys := rfl
@[simp] theorem State.takeTurn_instances (s : State) : s.takeTurn.instances = s.instances := rfl
@[simp] theorem State.takeTurn_unreachable (s : State) : s.takeTurn.unreachable = s.unreachable := rfl
@[simp] theorem State.takeTurn_linksDown (s : State) : s.takeTurn.linksDown = s.linksDown := rfl
@[simp] theorem State.takeTurn_lanesDown (s : State) : s.takeTurn.lanesDown = s.lanesDown := rfl
@[simp] theorem State.takeTurn_dieStatus (s : State) : s.takeTurn.dieStatus = s.dieStatus := rfl
@[simp] theorem State.takeTurn_deferred (s : State) : s.takeTurn.deferred = s.deferred := rfl
@[simp] theorem State.takeTurn_faults (s : State) : s.takeTurn.faults = s.faults := rfl
@[simp] theorem State.takeTurn_nextFault (s : State) : s.takeTurn.nextFault = s.nextFault := rfl
@[simp] theorem State.takeTurn_ready (s : State) : s.takeTurn.ready = s.ready := rfl
@[simp] theorem State.takeTurn_failed (s : State) : s.takeTurn.failed = s.failed := rfl
@[simp] theorem State.takeTurn_stage (s : State) : s.takeTurn.stage = s.stage := rfl
@[simp] theorem State.takeTurn_workRings (s : State) : s.takeTurn.workRings = s.workRings := rfl
@[simp] theorem State.takeTurn_mailboxes (s : State) : s.takeTurn.mailboxes = s.mailboxes := rfl
@[simp] theorem State.takeTurn_errorLog (s : State) : s.takeTurn.errorLog = s.errorLog := rfl
@[simp] theorem State.takeTurn_errorWptr (s : State) : s.takeTurn.errorWptr = s.errorWptr := rfl
@[simp] theorem State.takeTurn_secRegions (s : State) : s.takeTurn.secRegions = s.secRegions := rfl
@[simp] theorem State.takeTurn_secBlocks (s : State) : s.takeTurn.secBlocks = s.secBlocks := rfl
@[simp] theorem State.takeTurn_sessions (s : State) : s.takeTurn.sessions = s.sessions := rfl
@[simp] theorem State.takeTurn_ide (s : State) : s.takeTurn.ide = s.ide := rfl
@[simp] theorem State.takeTurn_measurements (s : State) : s.takeTurn.measurements = s.measurements := rfl
@[simp] theorem State.takeTurn_fwSlot (s : State) : s.takeTurn.fwSlot = s.fwSlot := rfl
@[simp] theorem State.takeTurn_fwVersion (s : State) : s.takeTurn.fwVersion = s.fwVersion := rfl
@[simp] theorem State.takeTurn_fwImages (s : State) : s.takeTurn.fwImages = s.fwImages := rfl
@[simp] theorem State.takeTurn_update (s : State) : s.takeTurn.update = s.update := rfl
@[simp] theorem State.takeTurn_portFails (s : State) : s.takeTurn.portFails = s.portFails := rfl

/-! ### `State.endTurn` -/

@[simp] theorem State.endTurn_tick (s : State) : s.endTurn.tick = s.tick + 1 := rfl
@[simp] theorem State.endTurn_turns (s : State) : s.endTurn.turns = s.turns := rfl
@[simp] theorem State.endTurn_cur (s : State) : s.endTurn.cur = .none := rfl
@[simp] theorem State.endTurn_ir (s : State) : s.endTurn.ir = 0 := rfl
@[simp] theorem State.endTurn_mem (s : State) : s.endTurn.mem = s.mem := rfl
@[simp] theorem State.endTurn_tlb (s : State) : s.endTurn.tlb = s.tlb := rfl
@[simp] theorem State.endTurn_groups (s : State) : s.endTurn.groups = s.groups := rfl
@[simp] theorem State.endTurn_teams (s : State) : s.endTurn.teams = s.teams := rfl
@[simp] theorem State.endTurn_nextTeam (s : State) : s.endTurn.nextTeam = s.nextTeam := rfl
@[simp] theorem State.endTurn_launches (s : State) : s.endTurn.launches = s.launches := rfl
@[simp] theorem State.endTurn_nextLaunch (s : State) : s.endTurn.nextLaunch = s.nextLaunch := rfl
@[simp] theorem State.endTurn_contexts (s : State) : s.endTurn.contexts = s.contexts := rfl
@[simp] theorem State.endTurn_saved (s : State) : s.endTurn.saved = s.saved := rfl
@[simp] theorem State.endTurn_nextSerial (s : State) : s.endTurn.nextSerial = s.nextSerial := rfl
@[simp] theorem State.endTurn_nextOrder (s : State) : s.endTurn.nextOrder = s.nextOrder := rfl
@[simp] theorem State.endTurn_queues (s : State) : s.endTurn.queues = s.queues := rfl
@[simp] theorem State.endTurn_rings (s : State) : s.endTurn.rings = s.rings := rfl
@[simp] theorem State.endTurn_scoreboard (s : State) : s.endTurn.scoreboard = s.scoreboard := rfl
@[simp] theorem State.endTurn_margins (s : State) : s.endTurn.margins = s.margins := rfl
@[simp] theorem State.endTurn_seqSlots (s : State) : s.endTurn.seqSlots = s.seqSlots := rfl
@[simp] theorem State.endTurn_kilns (s : State) : s.endTurn.kilns = s.kilns := rfl
@[simp] theorem State.endTurn_hods (s : State) : s.endTurn.hods = s.hods := rfl
@[simp] theorem State.endTurn_debugs (s : State) : s.endTurn.debugs = s.debugs := rfl
@[simp] theorem State.endTurn_staging (s : State) : s.endTurn.staging = s.staging := rfl
@[simp] theorem State.endTurn_bins (s : State) : s.endTurn.bins = s.bins := rfl
@[simp] theorem State.endTurn_formed (s : State) : s.endTurn.formed = s.formed := rfl
@[simp] theorem State.endTurn_tasks (s : State) : s.endTurn.tasks = s.tasks := rfl
@[simp] theorem State.endTurn_nextTask (s : State) : s.endTurn.nextTask = s.nextTask := rfl
@[simp] theorem State.endTurn_dieReset (s : State) : s.endTurn.dieReset = s.dieReset := rfl
@[simp] theorem State.endTurn_ckeys (s : State) : s.endTurn.ckeys = s.ckeys := rfl
@[simp] theorem State.endTurn_instances (s : State) : s.endTurn.instances = s.instances := rfl
@[simp] theorem State.endTurn_unreachable (s : State) : s.endTurn.unreachable = s.unreachable := rfl
@[simp] theorem State.endTurn_linksDown (s : State) : s.endTurn.linksDown = s.linksDown := rfl
@[simp] theorem State.endTurn_lanesDown (s : State) : s.endTurn.lanesDown = s.lanesDown := rfl
@[simp] theorem State.endTurn_dieStatus (s : State) : s.endTurn.dieStatus = s.dieStatus := rfl
@[simp] theorem State.endTurn_deferred (s : State) : s.endTurn.deferred = s.deferred := rfl
@[simp] theorem State.endTurn_faults (s : State) : s.endTurn.faults = s.faults := rfl
@[simp] theorem State.endTurn_nextFault (s : State) : s.endTurn.nextFault = s.nextFault := rfl
@[simp] theorem State.endTurn_ready (s : State) : s.endTurn.ready = s.ready := rfl
@[simp] theorem State.endTurn_failed (s : State) : s.endTurn.failed = s.failed := rfl
@[simp] theorem State.endTurn_stage (s : State) : s.endTurn.stage = s.stage := rfl
@[simp] theorem State.endTurn_workRings (s : State) : s.endTurn.workRings = s.workRings := rfl
@[simp] theorem State.endTurn_mailboxes (s : State) : s.endTurn.mailboxes = s.mailboxes := rfl
@[simp] theorem State.endTurn_errorLog (s : State) : s.endTurn.errorLog = s.errorLog := rfl
@[simp] theorem State.endTurn_errorWptr (s : State) : s.endTurn.errorWptr = s.errorWptr := rfl
@[simp] theorem State.endTurn_secRegions (s : State) : s.endTurn.secRegions = s.secRegions := rfl
@[simp] theorem State.endTurn_secBlocks (s : State) : s.endTurn.secBlocks = s.secBlocks := rfl
@[simp] theorem State.endTurn_sessions (s : State) : s.endTurn.sessions = s.sessions := rfl
@[simp] theorem State.endTurn_ide (s : State) : s.endTurn.ide = s.ide := rfl
@[simp] theorem State.endTurn_measurements (s : State) : s.endTurn.measurements = s.measurements := rfl
@[simp] theorem State.endTurn_fwSlot (s : State) : s.endTurn.fwSlot = s.fwSlot := rfl
@[simp] theorem State.endTurn_fwVersion (s : State) : s.endTurn.fwVersion = s.fwVersion := rfl
@[simp] theorem State.endTurn_fwImages (s : State) : s.endTurn.fwImages = s.fwImages := rfl
@[simp] theorem State.endTurn_update (s : State) : s.endTurn.update = s.update := rfl
@[simp] theorem State.endTurn_portFails (s : State) : s.endTurn.portFails = s.portFails := rfl

/-! ### `State.putGroup` -/

@[simp] theorem State.putGroup_tick (s : State) (core slot : Nat) (g : Group) : (s.putGroup core slot g).tick = s.tick := rfl
@[simp] theorem State.putGroup_turns (s : State) (core slot : Nat) (g : Group) : (s.putGroup core slot g).turns = s.turns := rfl
@[simp] theorem State.putGroup_cur (s : State) (core slot : Nat) (g : Group) : (s.putGroup core slot g).cur = s.cur := rfl
@[simp] theorem State.putGroup_ir (s : State) (core slot : Nat) (g : Group) : (s.putGroup core slot g).ir = s.ir := rfl
@[simp] theorem State.putGroup_mem (s : State) (core slot : Nat) (g : Group) : (s.putGroup core slot g).mem = s.mem := rfl
@[simp] theorem State.putGroup_tlb (s : State) (core slot : Nat) (g : Group) : (s.putGroup core slot g).tlb = s.tlb := rfl
@[simp] theorem State.putGroup_groups (s : State) (core slot : Nat) (g : Group) : (s.putGroup core slot g).groups = s.groups.set (slotKey core slot) g := rfl
@[simp] theorem State.putGroup_teams (s : State) (core slot : Nat) (g : Group) : (s.putGroup core slot g).teams = s.teams := rfl
@[simp] theorem State.putGroup_nextTeam (s : State) (core slot : Nat) (g : Group) : (s.putGroup core slot g).nextTeam = s.nextTeam := rfl
@[simp] theorem State.putGroup_launches (s : State) (core slot : Nat) (g : Group) : (s.putGroup core slot g).launches = s.launches := rfl
@[simp] theorem State.putGroup_nextLaunch (s : State) (core slot : Nat) (g : Group) : (s.putGroup core slot g).nextLaunch = s.nextLaunch := rfl
@[simp] theorem State.putGroup_contexts (s : State) (core slot : Nat) (g : Group) : (s.putGroup core slot g).contexts = s.contexts := rfl
@[simp] theorem State.putGroup_saved (s : State) (core slot : Nat) (g : Group) : (s.putGroup core slot g).saved = s.saved := rfl
@[simp] theorem State.putGroup_nextSerial (s : State) (core slot : Nat) (g : Group) : (s.putGroup core slot g).nextSerial = s.nextSerial := rfl
@[simp] theorem State.putGroup_nextOrder (s : State) (core slot : Nat) (g : Group) : (s.putGroup core slot g).nextOrder = s.nextOrder := rfl
@[simp] theorem State.putGroup_queues (s : State) (core slot : Nat) (g : Group) : (s.putGroup core slot g).queues = s.queues := rfl
@[simp] theorem State.putGroup_rings (s : State) (core slot : Nat) (g : Group) : (s.putGroup core slot g).rings = s.rings := rfl
@[simp] theorem State.putGroup_scoreboard (s : State) (core slot : Nat) (g : Group) : (s.putGroup core slot g).scoreboard = s.scoreboard := rfl
@[simp] theorem State.putGroup_margins (s : State) (core slot : Nat) (g : Group) : (s.putGroup core slot g).margins = s.margins := rfl
@[simp] theorem State.putGroup_seqSlots (s : State) (core slot : Nat) (g : Group) : (s.putGroup core slot g).seqSlots = s.seqSlots := rfl
@[simp] theorem State.putGroup_kilns (s : State) (core slot : Nat) (g : Group) : (s.putGroup core slot g).kilns = s.kilns := rfl
@[simp] theorem State.putGroup_hods (s : State) (core slot : Nat) (g : Group) : (s.putGroup core slot g).hods = s.hods := rfl
@[simp] theorem State.putGroup_debugs (s : State) (core slot : Nat) (g : Group) : (s.putGroup core slot g).debugs = s.debugs := rfl
@[simp] theorem State.putGroup_staging (s : State) (core slot : Nat) (g : Group) : (s.putGroup core slot g).staging = s.staging := rfl
@[simp] theorem State.putGroup_bins (s : State) (core slot : Nat) (g : Group) : (s.putGroup core slot g).bins = s.bins := rfl
@[simp] theorem State.putGroup_formed (s : State) (core slot : Nat) (g : Group) : (s.putGroup core slot g).formed = s.formed := rfl
@[simp] theorem State.putGroup_tasks (s : State) (core slot : Nat) (g : Group) : (s.putGroup core slot g).tasks = s.tasks := rfl
@[simp] theorem State.putGroup_nextTask (s : State) (core slot : Nat) (g : Group) : (s.putGroup core slot g).nextTask = s.nextTask := rfl
@[simp] theorem State.putGroup_dieReset (s : State) (core slot : Nat) (g : Group) : (s.putGroup core slot g).dieReset = s.dieReset := rfl
@[simp] theorem State.putGroup_ckeys (s : State) (core slot : Nat) (g : Group) : (s.putGroup core slot g).ckeys = s.ckeys := rfl
@[simp] theorem State.putGroup_instances (s : State) (core slot : Nat) (g : Group) : (s.putGroup core slot g).instances = s.instances := rfl
@[simp] theorem State.putGroup_unreachable (s : State) (core slot : Nat) (g : Group) : (s.putGroup core slot g).unreachable = s.unreachable := rfl
@[simp] theorem State.putGroup_linksDown (s : State) (core slot : Nat) (g : Group) : (s.putGroup core slot g).linksDown = s.linksDown := rfl
@[simp] theorem State.putGroup_lanesDown (s : State) (core slot : Nat) (g : Group) : (s.putGroup core slot g).lanesDown = s.lanesDown := rfl
@[simp] theorem State.putGroup_dieStatus (s : State) (core slot : Nat) (g : Group) : (s.putGroup core slot g).dieStatus = s.dieStatus := rfl
@[simp] theorem State.putGroup_deferred (s : State) (core slot : Nat) (g : Group) : (s.putGroup core slot g).deferred = s.deferred := rfl
@[simp] theorem State.putGroup_faults (s : State) (core slot : Nat) (g : Group) : (s.putGroup core slot g).faults = s.faults := rfl
@[simp] theorem State.putGroup_nextFault (s : State) (core slot : Nat) (g : Group) : (s.putGroup core slot g).nextFault = s.nextFault := rfl
@[simp] theorem State.putGroup_ready (s : State) (core slot : Nat) (g : Group) : (s.putGroup core slot g).ready = s.ready := rfl
@[simp] theorem State.putGroup_failed (s : State) (core slot : Nat) (g : Group) : (s.putGroup core slot g).failed = s.failed := rfl
@[simp] theorem State.putGroup_stage (s : State) (core slot : Nat) (g : Group) : (s.putGroup core slot g).stage = s.stage := rfl
@[simp] theorem State.putGroup_workRings (s : State) (core slot : Nat) (g : Group) : (s.putGroup core slot g).workRings = s.workRings := rfl
@[simp] theorem State.putGroup_mailboxes (s : State) (core slot : Nat) (g : Group) : (s.putGroup core slot g).mailboxes = s.mailboxes := rfl
@[simp] theorem State.putGroup_errorLog (s : State) (core slot : Nat) (g : Group) : (s.putGroup core slot g).errorLog = s.errorLog := rfl
@[simp] theorem State.putGroup_errorWptr (s : State) (core slot : Nat) (g : Group) : (s.putGroup core slot g).errorWptr = s.errorWptr := rfl
@[simp] theorem State.putGroup_secRegions (s : State) (core slot : Nat) (g : Group) : (s.putGroup core slot g).secRegions = s.secRegions := rfl
@[simp] theorem State.putGroup_secBlocks (s : State) (core slot : Nat) (g : Group) : (s.putGroup core slot g).secBlocks = s.secBlocks := rfl
@[simp] theorem State.putGroup_sessions (s : State) (core slot : Nat) (g : Group) : (s.putGroup core slot g).sessions = s.sessions := rfl
@[simp] theorem State.putGroup_ide (s : State) (core slot : Nat) (g : Group) : (s.putGroup core slot g).ide = s.ide := rfl
@[simp] theorem State.putGroup_measurements (s : State) (core slot : Nat) (g : Group) : (s.putGroup core slot g).measurements = s.measurements := rfl
@[simp] theorem State.putGroup_fwSlot (s : State) (core slot : Nat) (g : Group) : (s.putGroup core slot g).fwSlot = s.fwSlot := rfl
@[simp] theorem State.putGroup_fwVersion (s : State) (core slot : Nat) (g : Group) : (s.putGroup core slot g).fwVersion = s.fwVersion := rfl
@[simp] theorem State.putGroup_fwImages (s : State) (core slot : Nat) (g : Group) : (s.putGroup core slot g).fwImages = s.fwImages := rfl
@[simp] theorem State.putGroup_update (s : State) (core slot : Nat) (g : Group) : (s.putGroup core slot g).update = s.update := rfl
@[simp] theorem State.putGroup_portFails (s : State) (core slot : Nat) (g : Group) : (s.putGroup core slot g).portFails = s.portFails := rfl

/-! ### `State.putTeam` -/

@[simp] theorem State.putTeam_tick (s : State) (uid : Nat) (t : Team) : (s.putTeam uid t).tick = s.tick := rfl
@[simp] theorem State.putTeam_turns (s : State) (uid : Nat) (t : Team) : (s.putTeam uid t).turns = s.turns := rfl
@[simp] theorem State.putTeam_cur (s : State) (uid : Nat) (t : Team) : (s.putTeam uid t).cur = s.cur := rfl
@[simp] theorem State.putTeam_ir (s : State) (uid : Nat) (t : Team) : (s.putTeam uid t).ir = s.ir := rfl
@[simp] theorem State.putTeam_mem (s : State) (uid : Nat) (t : Team) : (s.putTeam uid t).mem = s.mem := rfl
@[simp] theorem State.putTeam_tlb (s : State) (uid : Nat) (t : Team) : (s.putTeam uid t).tlb = s.tlb := rfl
@[simp] theorem State.putTeam_groups (s : State) (uid : Nat) (t : Team) : (s.putTeam uid t).groups = s.groups := rfl
@[simp] theorem State.putTeam_teams (s : State) (uid : Nat) (t : Team) : (s.putTeam uid t).teams = s.teams.set uid t := rfl
@[simp] theorem State.putTeam_nextTeam (s : State) (uid : Nat) (t : Team) : (s.putTeam uid t).nextTeam = s.nextTeam := rfl
@[simp] theorem State.putTeam_launches (s : State) (uid : Nat) (t : Team) : (s.putTeam uid t).launches = s.launches := rfl
@[simp] theorem State.putTeam_nextLaunch (s : State) (uid : Nat) (t : Team) : (s.putTeam uid t).nextLaunch = s.nextLaunch := rfl
@[simp] theorem State.putTeam_contexts (s : State) (uid : Nat) (t : Team) : (s.putTeam uid t).contexts = s.contexts := rfl
@[simp] theorem State.putTeam_saved (s : State) (uid : Nat) (t : Team) : (s.putTeam uid t).saved = s.saved := rfl
@[simp] theorem State.putTeam_nextSerial (s : State) (uid : Nat) (t : Team) : (s.putTeam uid t).nextSerial = s.nextSerial := rfl
@[simp] theorem State.putTeam_nextOrder (s : State) (uid : Nat) (t : Team) : (s.putTeam uid t).nextOrder = s.nextOrder := rfl
@[simp] theorem State.putTeam_queues (s : State) (uid : Nat) (t : Team) : (s.putTeam uid t).queues = s.queues := rfl
@[simp] theorem State.putTeam_rings (s : State) (uid : Nat) (t : Team) : (s.putTeam uid t).rings = s.rings := rfl
@[simp] theorem State.putTeam_scoreboard (s : State) (uid : Nat) (t : Team) : (s.putTeam uid t).scoreboard = s.scoreboard := rfl
@[simp] theorem State.putTeam_margins (s : State) (uid : Nat) (t : Team) : (s.putTeam uid t).margins = s.margins := rfl
@[simp] theorem State.putTeam_seqSlots (s : State) (uid : Nat) (t : Team) : (s.putTeam uid t).seqSlots = s.seqSlots := rfl
@[simp] theorem State.putTeam_kilns (s : State) (uid : Nat) (t : Team) : (s.putTeam uid t).kilns = s.kilns := rfl
@[simp] theorem State.putTeam_hods (s : State) (uid : Nat) (t : Team) : (s.putTeam uid t).hods = s.hods := rfl
@[simp] theorem State.putTeam_debugs (s : State) (uid : Nat) (t : Team) : (s.putTeam uid t).debugs = s.debugs := rfl
@[simp] theorem State.putTeam_staging (s : State) (uid : Nat) (t : Team) : (s.putTeam uid t).staging = s.staging := rfl
@[simp] theorem State.putTeam_bins (s : State) (uid : Nat) (t : Team) : (s.putTeam uid t).bins = s.bins := rfl
@[simp] theorem State.putTeam_formed (s : State) (uid : Nat) (t : Team) : (s.putTeam uid t).formed = s.formed := rfl
@[simp] theorem State.putTeam_tasks (s : State) (uid : Nat) (t : Team) : (s.putTeam uid t).tasks = s.tasks := rfl
@[simp] theorem State.putTeam_nextTask (s : State) (uid : Nat) (t : Team) : (s.putTeam uid t).nextTask = s.nextTask := rfl
@[simp] theorem State.putTeam_dieReset (s : State) (uid : Nat) (t : Team) : (s.putTeam uid t).dieReset = s.dieReset := rfl
@[simp] theorem State.putTeam_ckeys (s : State) (uid : Nat) (t : Team) : (s.putTeam uid t).ckeys = s.ckeys := rfl
@[simp] theorem State.putTeam_instances (s : State) (uid : Nat) (t : Team) : (s.putTeam uid t).instances = s.instances := rfl
@[simp] theorem State.putTeam_unreachable (s : State) (uid : Nat) (t : Team) : (s.putTeam uid t).unreachable = s.unreachable := rfl
@[simp] theorem State.putTeam_linksDown (s : State) (uid : Nat) (t : Team) : (s.putTeam uid t).linksDown = s.linksDown := rfl
@[simp] theorem State.putTeam_lanesDown (s : State) (uid : Nat) (t : Team) : (s.putTeam uid t).lanesDown = s.lanesDown := rfl
@[simp] theorem State.putTeam_dieStatus (s : State) (uid : Nat) (t : Team) : (s.putTeam uid t).dieStatus = s.dieStatus := rfl
@[simp] theorem State.putTeam_deferred (s : State) (uid : Nat) (t : Team) : (s.putTeam uid t).deferred = s.deferred := rfl
@[simp] theorem State.putTeam_faults (s : State) (uid : Nat) (t : Team) : (s.putTeam uid t).faults = s.faults := rfl
@[simp] theorem State.putTeam_nextFault (s : State) (uid : Nat) (t : Team) : (s.putTeam uid t).nextFault = s.nextFault := rfl
@[simp] theorem State.putTeam_ready (s : State) (uid : Nat) (t : Team) : (s.putTeam uid t).ready = s.ready := rfl
@[simp] theorem State.putTeam_failed (s : State) (uid : Nat) (t : Team) : (s.putTeam uid t).failed = s.failed := rfl
@[simp] theorem State.putTeam_stage (s : State) (uid : Nat) (t : Team) : (s.putTeam uid t).stage = s.stage := rfl
@[simp] theorem State.putTeam_workRings (s : State) (uid : Nat) (t : Team) : (s.putTeam uid t).workRings = s.workRings := rfl
@[simp] theorem State.putTeam_mailboxes (s : State) (uid : Nat) (t : Team) : (s.putTeam uid t).mailboxes = s.mailboxes := rfl
@[simp] theorem State.putTeam_errorLog (s : State) (uid : Nat) (t : Team) : (s.putTeam uid t).errorLog = s.errorLog := rfl
@[simp] theorem State.putTeam_errorWptr (s : State) (uid : Nat) (t : Team) : (s.putTeam uid t).errorWptr = s.errorWptr := rfl
@[simp] theorem State.putTeam_secRegions (s : State) (uid : Nat) (t : Team) : (s.putTeam uid t).secRegions = s.secRegions := rfl
@[simp] theorem State.putTeam_secBlocks (s : State) (uid : Nat) (t : Team) : (s.putTeam uid t).secBlocks = s.secBlocks := rfl
@[simp] theorem State.putTeam_sessions (s : State) (uid : Nat) (t : Team) : (s.putTeam uid t).sessions = s.sessions := rfl
@[simp] theorem State.putTeam_ide (s : State) (uid : Nat) (t : Team) : (s.putTeam uid t).ide = s.ide := rfl
@[simp] theorem State.putTeam_measurements (s : State) (uid : Nat) (t : Team) : (s.putTeam uid t).measurements = s.measurements := rfl
@[simp] theorem State.putTeam_fwSlot (s : State) (uid : Nat) (t : Team) : (s.putTeam uid t).fwSlot = s.fwSlot := rfl
@[simp] theorem State.putTeam_fwVersion (s : State) (uid : Nat) (t : Team) : (s.putTeam uid t).fwVersion = s.fwVersion := rfl
@[simp] theorem State.putTeam_fwImages (s : State) (uid : Nat) (t : Team) : (s.putTeam uid t).fwImages = s.fwImages := rfl
@[simp] theorem State.putTeam_update (s : State) (uid : Nat) (t : Team) : (s.putTeam uid t).update = s.update := rfl
@[simp] theorem State.putTeam_portFails (s : State) (uid : Nat) (t : Team) : (s.putTeam uid t).portFails = s.portFails := rfl

/-! ### `State.modTeam` -/

@[simp] theorem State.modTeam_tick (s : State) (uid : Nat) (f : Team → Team) : (s.modTeam uid f).tick = s.tick := rfl
@[simp] theorem State.modTeam_turns (s : State) (uid : Nat) (f : Team → Team) : (s.modTeam uid f).turns = s.turns := rfl
@[simp] theorem State.modTeam_cur (s : State) (uid : Nat) (f : Team → Team) : (s.modTeam uid f).cur = s.cur := rfl
@[simp] theorem State.modTeam_ir (s : State) (uid : Nat) (f : Team → Team) : (s.modTeam uid f).ir = s.ir := rfl
@[simp] theorem State.modTeam_mem (s : State) (uid : Nat) (f : Team → Team) : (s.modTeam uid f).mem = s.mem := rfl
@[simp] theorem State.modTeam_tlb (s : State) (uid : Nat) (f : Team → Team) : (s.modTeam uid f).tlb = s.tlb := rfl
@[simp] theorem State.modTeam_groups (s : State) (uid : Nat) (f : Team → Team) : (s.modTeam uid f).groups = s.groups := rfl
@[simp] theorem State.modTeam_teams (s : State) (uid : Nat) (f : Team → Team) : (s.modTeam uid f).teams = s.teams.modify uid f := rfl
@[simp] theorem State.modTeam_nextTeam (s : State) (uid : Nat) (f : Team → Team) : (s.modTeam uid f).nextTeam = s.nextTeam := rfl
@[simp] theorem State.modTeam_launches (s : State) (uid : Nat) (f : Team → Team) : (s.modTeam uid f).launches = s.launches := rfl
@[simp] theorem State.modTeam_nextLaunch (s : State) (uid : Nat) (f : Team → Team) : (s.modTeam uid f).nextLaunch = s.nextLaunch := rfl
@[simp] theorem State.modTeam_contexts (s : State) (uid : Nat) (f : Team → Team) : (s.modTeam uid f).contexts = s.contexts := rfl
@[simp] theorem State.modTeam_saved (s : State) (uid : Nat) (f : Team → Team) : (s.modTeam uid f).saved = s.saved := rfl
@[simp] theorem State.modTeam_nextSerial (s : State) (uid : Nat) (f : Team → Team) : (s.modTeam uid f).nextSerial = s.nextSerial := rfl
@[simp] theorem State.modTeam_nextOrder (s : State) (uid : Nat) (f : Team → Team) : (s.modTeam uid f).nextOrder = s.nextOrder := rfl
@[simp] theorem State.modTeam_queues (s : State) (uid : Nat) (f : Team → Team) : (s.modTeam uid f).queues = s.queues := rfl
@[simp] theorem State.modTeam_rings (s : State) (uid : Nat) (f : Team → Team) : (s.modTeam uid f).rings = s.rings := rfl
@[simp] theorem State.modTeam_scoreboard (s : State) (uid : Nat) (f : Team → Team) : (s.modTeam uid f).scoreboard = s.scoreboard := rfl
@[simp] theorem State.modTeam_margins (s : State) (uid : Nat) (f : Team → Team) : (s.modTeam uid f).margins = s.margins := rfl
@[simp] theorem State.modTeam_seqSlots (s : State) (uid : Nat) (f : Team → Team) : (s.modTeam uid f).seqSlots = s.seqSlots := rfl
@[simp] theorem State.modTeam_kilns (s : State) (uid : Nat) (f : Team → Team) : (s.modTeam uid f).kilns = s.kilns := rfl
@[simp] theorem State.modTeam_hods (s : State) (uid : Nat) (f : Team → Team) : (s.modTeam uid f).hods = s.hods := rfl
@[simp] theorem State.modTeam_debugs (s : State) (uid : Nat) (f : Team → Team) : (s.modTeam uid f).debugs = s.debugs := rfl
@[simp] theorem State.modTeam_staging (s : State) (uid : Nat) (f : Team → Team) : (s.modTeam uid f).staging = s.staging := rfl
@[simp] theorem State.modTeam_bins (s : State) (uid : Nat) (f : Team → Team) : (s.modTeam uid f).bins = s.bins := rfl
@[simp] theorem State.modTeam_formed (s : State) (uid : Nat) (f : Team → Team) : (s.modTeam uid f).formed = s.formed := rfl
@[simp] theorem State.modTeam_tasks (s : State) (uid : Nat) (f : Team → Team) : (s.modTeam uid f).tasks = s.tasks := rfl
@[simp] theorem State.modTeam_nextTask (s : State) (uid : Nat) (f : Team → Team) : (s.modTeam uid f).nextTask = s.nextTask := rfl
@[simp] theorem State.modTeam_dieReset (s : State) (uid : Nat) (f : Team → Team) : (s.modTeam uid f).dieReset = s.dieReset := rfl
@[simp] theorem State.modTeam_ckeys (s : State) (uid : Nat) (f : Team → Team) : (s.modTeam uid f).ckeys = s.ckeys := rfl
@[simp] theorem State.modTeam_instances (s : State) (uid : Nat) (f : Team → Team) : (s.modTeam uid f).instances = s.instances := rfl
@[simp] theorem State.modTeam_unreachable (s : State) (uid : Nat) (f : Team → Team) : (s.modTeam uid f).unreachable = s.unreachable := rfl
@[simp] theorem State.modTeam_linksDown (s : State) (uid : Nat) (f : Team → Team) : (s.modTeam uid f).linksDown = s.linksDown := rfl
@[simp] theorem State.modTeam_lanesDown (s : State) (uid : Nat) (f : Team → Team) : (s.modTeam uid f).lanesDown = s.lanesDown := rfl
@[simp] theorem State.modTeam_dieStatus (s : State) (uid : Nat) (f : Team → Team) : (s.modTeam uid f).dieStatus = s.dieStatus := rfl
@[simp] theorem State.modTeam_deferred (s : State) (uid : Nat) (f : Team → Team) : (s.modTeam uid f).deferred = s.deferred := rfl
@[simp] theorem State.modTeam_faults (s : State) (uid : Nat) (f : Team → Team) : (s.modTeam uid f).faults = s.faults := rfl
@[simp] theorem State.modTeam_nextFault (s : State) (uid : Nat) (f : Team → Team) : (s.modTeam uid f).nextFault = s.nextFault := rfl
@[simp] theorem State.modTeam_ready (s : State) (uid : Nat) (f : Team → Team) : (s.modTeam uid f).ready = s.ready := rfl
@[simp] theorem State.modTeam_failed (s : State) (uid : Nat) (f : Team → Team) : (s.modTeam uid f).failed = s.failed := rfl
@[simp] theorem State.modTeam_stage (s : State) (uid : Nat) (f : Team → Team) : (s.modTeam uid f).stage = s.stage := rfl
@[simp] theorem State.modTeam_workRings (s : State) (uid : Nat) (f : Team → Team) : (s.modTeam uid f).workRings = s.workRings := rfl
@[simp] theorem State.modTeam_mailboxes (s : State) (uid : Nat) (f : Team → Team) : (s.modTeam uid f).mailboxes = s.mailboxes := rfl
@[simp] theorem State.modTeam_errorLog (s : State) (uid : Nat) (f : Team → Team) : (s.modTeam uid f).errorLog = s.errorLog := rfl
@[simp] theorem State.modTeam_errorWptr (s : State) (uid : Nat) (f : Team → Team) : (s.modTeam uid f).errorWptr = s.errorWptr := rfl
@[simp] theorem State.modTeam_secRegions (s : State) (uid : Nat) (f : Team → Team) : (s.modTeam uid f).secRegions = s.secRegions := rfl
@[simp] theorem State.modTeam_secBlocks (s : State) (uid : Nat) (f : Team → Team) : (s.modTeam uid f).secBlocks = s.secBlocks := rfl
@[simp] theorem State.modTeam_sessions (s : State) (uid : Nat) (f : Team → Team) : (s.modTeam uid f).sessions = s.sessions := rfl
@[simp] theorem State.modTeam_ide (s : State) (uid : Nat) (f : Team → Team) : (s.modTeam uid f).ide = s.ide := rfl
@[simp] theorem State.modTeam_measurements (s : State) (uid : Nat) (f : Team → Team) : (s.modTeam uid f).measurements = s.measurements := rfl
@[simp] theorem State.modTeam_fwSlot (s : State) (uid : Nat) (f : Team → Team) : (s.modTeam uid f).fwSlot = s.fwSlot := rfl
@[simp] theorem State.modTeam_fwVersion (s : State) (uid : Nat) (f : Team → Team) : (s.modTeam uid f).fwVersion = s.fwVersion := rfl
@[simp] theorem State.modTeam_fwImages (s : State) (uid : Nat) (f : Team → Team) : (s.modTeam uid f).fwImages = s.fwImages := rfl
@[simp] theorem State.modTeam_update (s : State) (uid : Nat) (f : Team → Team) : (s.modTeam uid f).update = s.update := rfl
@[simp] theorem State.modTeam_portFails (s : State) (uid : Nat) (f : Team → Team) : (s.modTeam uid f).portFails = s.portFails := rfl

/-! ### `State.storeBytes` -/

@[simp] theorem State.storeBytes_tick (s : State) (a : Nat) (b : List Byte) : (s.storeBytes a b).tick = s.tick := rfl
@[simp] theorem State.storeBytes_turns (s : State) (a : Nat) (b : List Byte) : (s.storeBytes a b).turns = s.turns := rfl
@[simp] theorem State.storeBytes_cur (s : State) (a : Nat) (b : List Byte) : (s.storeBytes a b).cur = s.cur := rfl
@[simp] theorem State.storeBytes_ir (s : State) (a : Nat) (b : List Byte) : (s.storeBytes a b).ir = s.ir := rfl
@[simp] theorem State.storeBytes_mem (s : State) (a : Nat) (b : List Byte) : (s.storeBytes a b).mem = s.mem.putBytes a b := rfl
@[simp] theorem State.storeBytes_tlb (s : State) (a : Nat) (b : List Byte) : (s.storeBytes a b).tlb = s.tlb := rfl
@[simp] theorem State.storeBytes_groups (s : State) (a : Nat) (b : List Byte) : (s.storeBytes a b).groups = s.groups := rfl
@[simp] theorem State.storeBytes_teams (s : State) (a : Nat) (b : List Byte) : (s.storeBytes a b).teams = s.teams := rfl
@[simp] theorem State.storeBytes_nextTeam (s : State) (a : Nat) (b : List Byte) : (s.storeBytes a b).nextTeam = s.nextTeam := rfl
@[simp] theorem State.storeBytes_launches (s : State) (a : Nat) (b : List Byte) : (s.storeBytes a b).launches = s.launches := rfl
@[simp] theorem State.storeBytes_nextLaunch (s : State) (a : Nat) (b : List Byte) : (s.storeBytes a b).nextLaunch = s.nextLaunch := rfl
@[simp] theorem State.storeBytes_contexts (s : State) (a : Nat) (b : List Byte) : (s.storeBytes a b).contexts = s.contexts := rfl
@[simp] theorem State.storeBytes_saved (s : State) (a : Nat) (b : List Byte) : (s.storeBytes a b).saved = s.saved := rfl
@[simp] theorem State.storeBytes_nextSerial (s : State) (a : Nat) (b : List Byte) : (s.storeBytes a b).nextSerial = s.nextSerial := rfl
@[simp] theorem State.storeBytes_nextOrder (s : State) (a : Nat) (b : List Byte) : (s.storeBytes a b).nextOrder = s.nextOrder := rfl
@[simp] theorem State.storeBytes_queues (s : State) (a : Nat) (b : List Byte) : (s.storeBytes a b).queues = s.queues := rfl
@[simp] theorem State.storeBytes_rings (s : State) (a : Nat) (b : List Byte) : (s.storeBytes a b).rings = s.rings := rfl
@[simp] theorem State.storeBytes_scoreboard (s : State) (a : Nat) (b : List Byte) : (s.storeBytes a b).scoreboard = s.scoreboard := rfl
@[simp] theorem State.storeBytes_margins (s : State) (a : Nat) (b : List Byte) : (s.storeBytes a b).margins = s.margins := rfl
@[simp] theorem State.storeBytes_seqSlots (s : State) (a : Nat) (b : List Byte) : (s.storeBytes a b).seqSlots = s.seqSlots := rfl
@[simp] theorem State.storeBytes_kilns (s : State) (a : Nat) (b : List Byte) : (s.storeBytes a b).kilns = s.kilns := rfl
@[simp] theorem State.storeBytes_hods (s : State) (a : Nat) (b : List Byte) : (s.storeBytes a b).hods = s.hods.mapValues fun _ h => h.afterWrite a b.length := rfl
@[simp] theorem State.storeBytes_debugs (s : State) (a : Nat) (b : List Byte) : (s.storeBytes a b).debugs = s.debugs := rfl
@[simp] theorem State.storeBytes_staging (s : State) (a : Nat) (b : List Byte) : (s.storeBytes a b).staging = s.staging := rfl
@[simp] theorem State.storeBytes_bins (s : State) (a : Nat) (b : List Byte) : (s.storeBytes a b).bins = s.bins := rfl
@[simp] theorem State.storeBytes_formed (s : State) (a : Nat) (b : List Byte) : (s.storeBytes a b).formed = s.formed := rfl
@[simp] theorem State.storeBytes_tasks (s : State) (a : Nat) (b : List Byte) : (s.storeBytes a b).tasks = s.tasks := rfl
@[simp] theorem State.storeBytes_nextTask (s : State) (a : Nat) (b : List Byte) : (s.storeBytes a b).nextTask = s.nextTask := rfl
@[simp] theorem State.storeBytes_dieReset (s : State) (a : Nat) (b : List Byte) : (s.storeBytes a b).dieReset = s.dieReset := rfl
@[simp] theorem State.storeBytes_ckeys (s : State) (a : Nat) (b : List Byte) : (s.storeBytes a b).ckeys = s.ckeys := rfl
@[simp] theorem State.storeBytes_instances (s : State) (a : Nat) (b : List Byte) : (s.storeBytes a b).instances = s.instances := rfl
@[simp] theorem State.storeBytes_unreachable (s : State) (a : Nat) (b : List Byte) : (s.storeBytes a b).unreachable = s.unreachable := rfl
@[simp] theorem State.storeBytes_linksDown (s : State) (a : Nat) (b : List Byte) : (s.storeBytes a b).linksDown = s.linksDown := rfl
@[simp] theorem State.storeBytes_lanesDown (s : State) (a : Nat) (b : List Byte) : (s.storeBytes a b).lanesDown = s.lanesDown := rfl
@[simp] theorem State.storeBytes_dieStatus (s : State) (a : Nat) (b : List Byte) : (s.storeBytes a b).dieStatus = s.dieStatus := rfl
@[simp] theorem State.storeBytes_deferred (s : State) (a : Nat) (b : List Byte) : (s.storeBytes a b).deferred = s.deferred := rfl
@[simp] theorem State.storeBytes_faults (s : State) (a : Nat) (b : List Byte) : (s.storeBytes a b).faults = s.faults := rfl
@[simp] theorem State.storeBytes_nextFault (s : State) (a : Nat) (b : List Byte) : (s.storeBytes a b).nextFault = s.nextFault := rfl
@[simp] theorem State.storeBytes_ready (s : State) (a : Nat) (b : List Byte) : (s.storeBytes a b).ready = s.ready := rfl
@[simp] theorem State.storeBytes_failed (s : State) (a : Nat) (b : List Byte) : (s.storeBytes a b).failed = s.failed := rfl
@[simp] theorem State.storeBytes_stage (s : State) (a : Nat) (b : List Byte) : (s.storeBytes a b).stage = s.stage := rfl
@[simp] theorem State.storeBytes_workRings (s : State) (a : Nat) (b : List Byte) : (s.storeBytes a b).workRings = s.workRings := rfl
@[simp] theorem State.storeBytes_mailboxes (s : State) (a : Nat) (b : List Byte) : (s.storeBytes a b).mailboxes = s.mailboxes := rfl
@[simp] theorem State.storeBytes_errorLog (s : State) (a : Nat) (b : List Byte) : (s.storeBytes a b).errorLog = s.errorLog := rfl
@[simp] theorem State.storeBytes_errorWptr (s : State) (a : Nat) (b : List Byte) : (s.storeBytes a b).errorWptr = s.errorWptr := rfl
@[simp] theorem State.storeBytes_secRegions (s : State) (a : Nat) (b : List Byte) : (s.storeBytes a b).secRegions = s.secRegions := rfl
@[simp] theorem State.storeBytes_secBlocks (s : State) (a : Nat) (b : List Byte) : (s.storeBytes a b).secBlocks = s.secBlocks := rfl
@[simp] theorem State.storeBytes_sessions (s : State) (a : Nat) (b : List Byte) : (s.storeBytes a b).sessions = s.sessions := rfl
@[simp] theorem State.storeBytes_ide (s : State) (a : Nat) (b : List Byte) : (s.storeBytes a b).ide = s.ide := rfl
@[simp] theorem State.storeBytes_measurements (s : State) (a : Nat) (b : List Byte) : (s.storeBytes a b).measurements = s.measurements := rfl
@[simp] theorem State.storeBytes_fwSlot (s : State) (a : Nat) (b : List Byte) : (s.storeBytes a b).fwSlot = s.fwSlot := rfl
@[simp] theorem State.storeBytes_fwVersion (s : State) (a : Nat) (b : List Byte) : (s.storeBytes a b).fwVersion = s.fwVersion := rfl
@[simp] theorem State.storeBytes_fwImages (s : State) (a : Nat) (b : List Byte) : (s.storeBytes a b).fwImages = s.fwImages := rfl
@[simp] theorem State.storeBytes_update (s : State) (a : Nat) (b : List Byte) : (s.storeBytes a b).update = s.update := rfl
@[simp] theorem State.storeBytes_portFails (s : State) (a : Nat) (b : List Byte) : (s.storeBytes a b).portFails = s.portFails := rfl

/-! ### `State.storeByHod` -/

@[simp] theorem State.storeByHod_tick (s : State) (k a : Nat) (b : List Byte) : (s.storeByHod k a b).tick = s.tick := rfl
@[simp] theorem State.storeByHod_turns (s : State) (k a : Nat) (b : List Byte) : (s.storeByHod k a b).turns = s.turns := rfl
@[simp] theorem State.storeByHod_cur (s : State) (k a : Nat) (b : List Byte) : (s.storeByHod k a b).cur = s.cur := rfl
@[simp] theorem State.storeByHod_ir (s : State) (k a : Nat) (b : List Byte) : (s.storeByHod k a b).ir = s.ir := rfl
@[simp] theorem State.storeByHod_mem (s : State) (k a : Nat) (b : List Byte) : (s.storeByHod k a b).mem = s.mem.putBytes a b := rfl
@[simp] theorem State.storeByHod_tlb (s : State) (k a : Nat) (b : List Byte) : (s.storeByHod k a b).tlb = s.tlb := rfl
@[simp] theorem State.storeByHod_groups (s : State) (k a : Nat) (b : List Byte) : (s.storeByHod k a b).groups = s.groups := rfl
@[simp] theorem State.storeByHod_teams (s : State) (k a : Nat) (b : List Byte) : (s.storeByHod k a b).teams = s.teams := rfl
@[simp] theorem State.storeByHod_nextTeam (s : State) (k a : Nat) (b : List Byte) : (s.storeByHod k a b).nextTeam = s.nextTeam := rfl
@[simp] theorem State.storeByHod_launches (s : State) (k a : Nat) (b : List Byte) : (s.storeByHod k a b).launches = s.launches := rfl
@[simp] theorem State.storeByHod_nextLaunch (s : State) (k a : Nat) (b : List Byte) : (s.storeByHod k a b).nextLaunch = s.nextLaunch := rfl
@[simp] theorem State.storeByHod_contexts (s : State) (k a : Nat) (b : List Byte) : (s.storeByHod k a b).contexts = s.contexts := rfl
@[simp] theorem State.storeByHod_saved (s : State) (k a : Nat) (b : List Byte) : (s.storeByHod k a b).saved = s.saved := rfl
@[simp] theorem State.storeByHod_nextSerial (s : State) (k a : Nat) (b : List Byte) : (s.storeByHod k a b).nextSerial = s.nextSerial := rfl
@[simp] theorem State.storeByHod_nextOrder (s : State) (k a : Nat) (b : List Byte) : (s.storeByHod k a b).nextOrder = s.nextOrder := rfl
@[simp] theorem State.storeByHod_queues (s : State) (k a : Nat) (b : List Byte) : (s.storeByHod k a b).queues = s.queues := rfl
@[simp] theorem State.storeByHod_rings (s : State) (k a : Nat) (b : List Byte) : (s.storeByHod k a b).rings = s.rings := rfl
@[simp] theorem State.storeByHod_scoreboard (s : State) (k a : Nat) (b : List Byte) : (s.storeByHod k a b).scoreboard = s.scoreboard := rfl
@[simp] theorem State.storeByHod_margins (s : State) (k a : Nat) (b : List Byte) : (s.storeByHod k a b).margins = s.margins := rfl
@[simp] theorem State.storeByHod_seqSlots (s : State) (k a : Nat) (b : List Byte) : (s.storeByHod k a b).seqSlots = s.seqSlots := rfl
@[simp] theorem State.storeByHod_kilns (s : State) (k a : Nat) (b : List Byte) : (s.storeByHod k a b).kilns = s.kilns := rfl
@[simp] theorem State.storeByHod_hods (s : State) (k a : Nat) (b : List Byte) : (s.storeByHod k a b).hods = s.hods.mapValues fun j h => if j = k then h else h.afterWrite a b.length := rfl
@[simp] theorem State.storeByHod_debugs (s : State) (k a : Nat) (b : List Byte) : (s.storeByHod k a b).debugs = s.debugs := rfl
@[simp] theorem State.storeByHod_staging (s : State) (k a : Nat) (b : List Byte) : (s.storeByHod k a b).staging = s.staging := rfl
@[simp] theorem State.storeByHod_bins (s : State) (k a : Nat) (b : List Byte) : (s.storeByHod k a b).bins = s.bins := rfl
@[simp] theorem State.storeByHod_formed (s : State) (k a : Nat) (b : List Byte) : (s.storeByHod k a b).formed = s.formed := rfl
@[simp] theorem State.storeByHod_tasks (s : State) (k a : Nat) (b : List Byte) : (s.storeByHod k a b).tasks = s.tasks := rfl
@[simp] theorem State.storeByHod_nextTask (s : State) (k a : Nat) (b : List Byte) : (s.storeByHod k a b).nextTask = s.nextTask := rfl
@[simp] theorem State.storeByHod_dieReset (s : State) (k a : Nat) (b : List Byte) : (s.storeByHod k a b).dieReset = s.dieReset := rfl
@[simp] theorem State.storeByHod_ckeys (s : State) (k a : Nat) (b : List Byte) : (s.storeByHod k a b).ckeys = s.ckeys := rfl
@[simp] theorem State.storeByHod_instances (s : State) (k a : Nat) (b : List Byte) : (s.storeByHod k a b).instances = s.instances := rfl
@[simp] theorem State.storeByHod_unreachable (s : State) (k a : Nat) (b : List Byte) : (s.storeByHod k a b).unreachable = s.unreachable := rfl
@[simp] theorem State.storeByHod_linksDown (s : State) (k a : Nat) (b : List Byte) : (s.storeByHod k a b).linksDown = s.linksDown := rfl
@[simp] theorem State.storeByHod_lanesDown (s : State) (k a : Nat) (b : List Byte) : (s.storeByHod k a b).lanesDown = s.lanesDown := rfl
@[simp] theorem State.storeByHod_dieStatus (s : State) (k a : Nat) (b : List Byte) : (s.storeByHod k a b).dieStatus = s.dieStatus := rfl
@[simp] theorem State.storeByHod_deferred (s : State) (k a : Nat) (b : List Byte) : (s.storeByHod k a b).deferred = s.deferred := rfl
@[simp] theorem State.storeByHod_faults (s : State) (k a : Nat) (b : List Byte) : (s.storeByHod k a b).faults = s.faults := rfl
@[simp] theorem State.storeByHod_nextFault (s : State) (k a : Nat) (b : List Byte) : (s.storeByHod k a b).nextFault = s.nextFault := rfl
@[simp] theorem State.storeByHod_ready (s : State) (k a : Nat) (b : List Byte) : (s.storeByHod k a b).ready = s.ready := rfl
@[simp] theorem State.storeByHod_failed (s : State) (k a : Nat) (b : List Byte) : (s.storeByHod k a b).failed = s.failed := rfl
@[simp] theorem State.storeByHod_stage (s : State) (k a : Nat) (b : List Byte) : (s.storeByHod k a b).stage = s.stage := rfl
@[simp] theorem State.storeByHod_workRings (s : State) (k a : Nat) (b : List Byte) : (s.storeByHod k a b).workRings = s.workRings := rfl
@[simp] theorem State.storeByHod_mailboxes (s : State) (k a : Nat) (b : List Byte) : (s.storeByHod k a b).mailboxes = s.mailboxes := rfl
@[simp] theorem State.storeByHod_errorLog (s : State) (k a : Nat) (b : List Byte) : (s.storeByHod k a b).errorLog = s.errorLog := rfl
@[simp] theorem State.storeByHod_errorWptr (s : State) (k a : Nat) (b : List Byte) : (s.storeByHod k a b).errorWptr = s.errorWptr := rfl
@[simp] theorem State.storeByHod_secRegions (s : State) (k a : Nat) (b : List Byte) : (s.storeByHod k a b).secRegions = s.secRegions := rfl
@[simp] theorem State.storeByHod_secBlocks (s : State) (k a : Nat) (b : List Byte) : (s.storeByHod k a b).secBlocks = s.secBlocks := rfl
@[simp] theorem State.storeByHod_sessions (s : State) (k a : Nat) (b : List Byte) : (s.storeByHod k a b).sessions = s.sessions := rfl
@[simp] theorem State.storeByHod_ide (s : State) (k a : Nat) (b : List Byte) : (s.storeByHod k a b).ide = s.ide := rfl
@[simp] theorem State.storeByHod_measurements (s : State) (k a : Nat) (b : List Byte) : (s.storeByHod k a b).measurements = s.measurements := rfl
@[simp] theorem State.storeByHod_fwSlot (s : State) (k a : Nat) (b : List Byte) : (s.storeByHod k a b).fwSlot = s.fwSlot := rfl
@[simp] theorem State.storeByHod_fwVersion (s : State) (k a : Nat) (b : List Byte) : (s.storeByHod k a b).fwVersion = s.fwVersion := rfl
@[simp] theorem State.storeByHod_fwImages (s : State) (k a : Nat) (b : List Byte) : (s.storeByHod k a b).fwImages = s.fwImages := rfl
@[simp] theorem State.storeByHod_update (s : State) (k a : Nat) (b : List Byte) : (s.storeByHod k a b).update = s.update := rfl
@[simp] theorem State.storeByHod_portFails (s : State) (k a : Nat) (b : List Byte) : (s.storeByHod k a b).portFails = s.portFails := rfl

/-! ### `State.putHod` -/

@[simp] theorem State.putHod_tick (s : State) (core : Nat) (store : Bool) (h : Hod) : (s.putHod core store h).tick = s.tick := rfl
@[simp] theorem State.putHod_turns (s : State) (core : Nat) (store : Bool) (h : Hod) : (s.putHod core store h).turns = s.turns := rfl
@[simp] theorem State.putHod_cur (s : State) (core : Nat) (store : Bool) (h : Hod) : (s.putHod core store h).cur = s.cur := rfl
@[simp] theorem State.putHod_ir (s : State) (core : Nat) (store : Bool) (h : Hod) : (s.putHod core store h).ir = s.ir := rfl
@[simp] theorem State.putHod_mem (s : State) (core : Nat) (store : Bool) (h : Hod) : (s.putHod core store h).mem = s.mem := rfl
@[simp] theorem State.putHod_tlb (s : State) (core : Nat) (store : Bool) (h : Hod) : (s.putHod core store h).tlb = s.tlb := rfl
@[simp] theorem State.putHod_groups (s : State) (core : Nat) (store : Bool) (h : Hod) : (s.putHod core store h).groups = s.groups := rfl
@[simp] theorem State.putHod_teams (s : State) (core : Nat) (store : Bool) (h : Hod) : (s.putHod core store h).teams = s.teams := rfl
@[simp] theorem State.putHod_nextTeam (s : State) (core : Nat) (store : Bool) (h : Hod) : (s.putHod core store h).nextTeam = s.nextTeam := rfl
@[simp] theorem State.putHod_launches (s : State) (core : Nat) (store : Bool) (h : Hod) : (s.putHod core store h).launches = s.launches := rfl
@[simp] theorem State.putHod_nextLaunch (s : State) (core : Nat) (store : Bool) (h : Hod) : (s.putHod core store h).nextLaunch = s.nextLaunch := rfl
@[simp] theorem State.putHod_contexts (s : State) (core : Nat) (store : Bool) (h : Hod) : (s.putHod core store h).contexts = s.contexts := rfl
@[simp] theorem State.putHod_saved (s : State) (core : Nat) (store : Bool) (h : Hod) : (s.putHod core store h).saved = s.saved := rfl
@[simp] theorem State.putHod_nextSerial (s : State) (core : Nat) (store : Bool) (h : Hod) : (s.putHod core store h).nextSerial = s.nextSerial := rfl
@[simp] theorem State.putHod_nextOrder (s : State) (core : Nat) (store : Bool) (h : Hod) : (s.putHod core store h).nextOrder = s.nextOrder := rfl
@[simp] theorem State.putHod_queues (s : State) (core : Nat) (store : Bool) (h : Hod) : (s.putHod core store h).queues = s.queues := rfl
@[simp] theorem State.putHod_rings (s : State) (core : Nat) (store : Bool) (h : Hod) : (s.putHod core store h).rings = s.rings := rfl
@[simp] theorem State.putHod_scoreboard (s : State) (core : Nat) (store : Bool) (h : Hod) : (s.putHod core store h).scoreboard = s.scoreboard := rfl
@[simp] theorem State.putHod_margins (s : State) (core : Nat) (store : Bool) (h : Hod) : (s.putHod core store h).margins = s.margins := rfl
@[simp] theorem State.putHod_seqSlots (s : State) (core : Nat) (store : Bool) (h : Hod) : (s.putHod core store h).seqSlots = s.seqSlots := rfl
@[simp] theorem State.putHod_kilns (s : State) (core : Nat) (store : Bool) (h : Hod) : (s.putHod core store h).kilns = s.kilns := rfl
@[simp] theorem State.putHod_debugs (s : State) (core : Nat) (store : Bool) (h : Hod) : (s.putHod core store h).debugs = s.debugs := rfl
@[simp] theorem State.putHod_staging (s : State) (core : Nat) (store : Bool) (h : Hod) : (s.putHod core store h).staging = s.staging := rfl
@[simp] theorem State.putHod_bins (s : State) (core : Nat) (store : Bool) (h : Hod) : (s.putHod core store h).bins = s.bins := rfl
@[simp] theorem State.putHod_formed (s : State) (core : Nat) (store : Bool) (h : Hod) : (s.putHod core store h).formed = s.formed := rfl
@[simp] theorem State.putHod_tasks (s : State) (core : Nat) (store : Bool) (h : Hod) : (s.putHod core store h).tasks = s.tasks := rfl
@[simp] theorem State.putHod_nextTask (s : State) (core : Nat) (store : Bool) (h : Hod) : (s.putHod core store h).nextTask = s.nextTask := rfl
@[simp] theorem State.putHod_dieReset (s : State) (core : Nat) (store : Bool) (h : Hod) : (s.putHod core store h).dieReset = s.dieReset := rfl
@[simp] theorem State.putHod_ckeys (s : State) (core : Nat) (store : Bool) (h : Hod) : (s.putHod core store h).ckeys = s.ckeys := rfl
@[simp] theorem State.putHod_instances (s : State) (core : Nat) (store : Bool) (h : Hod) : (s.putHod core store h).instances = s.instances := rfl
@[simp] theorem State.putHod_unreachable (s : State) (core : Nat) (store : Bool) (h : Hod) : (s.putHod core store h).unreachable = s.unreachable := rfl
@[simp] theorem State.putHod_linksDown (s : State) (core : Nat) (store : Bool) (h : Hod) : (s.putHod core store h).linksDown = s.linksDown := rfl
@[simp] theorem State.putHod_lanesDown (s : State) (core : Nat) (store : Bool) (h : Hod) : (s.putHod core store h).lanesDown = s.lanesDown := rfl
@[simp] theorem State.putHod_dieStatus (s : State) (core : Nat) (store : Bool) (h : Hod) : (s.putHod core store h).dieStatus = s.dieStatus := rfl
@[simp] theorem State.putHod_deferred (s : State) (core : Nat) (store : Bool) (h : Hod) : (s.putHod core store h).deferred = s.deferred := rfl
@[simp] theorem State.putHod_faults (s : State) (core : Nat) (store : Bool) (h : Hod) : (s.putHod core store h).faults = s.faults := rfl
@[simp] theorem State.putHod_nextFault (s : State) (core : Nat) (store : Bool) (h : Hod) : (s.putHod core store h).nextFault = s.nextFault := rfl
@[simp] theorem State.putHod_ready (s : State) (core : Nat) (store : Bool) (h : Hod) : (s.putHod core store h).ready = s.ready := rfl
@[simp] theorem State.putHod_failed (s : State) (core : Nat) (store : Bool) (h : Hod) : (s.putHod core store h).failed = s.failed := rfl
@[simp] theorem State.putHod_stage (s : State) (core : Nat) (store : Bool) (h : Hod) : (s.putHod core store h).stage = s.stage := rfl
@[simp] theorem State.putHod_workRings (s : State) (core : Nat) (store : Bool) (h : Hod) : (s.putHod core store h).workRings = s.workRings := rfl
@[simp] theorem State.putHod_mailboxes (s : State) (core : Nat) (store : Bool) (h : Hod) : (s.putHod core store h).mailboxes = s.mailboxes := rfl
@[simp] theorem State.putHod_errorLog (s : State) (core : Nat) (store : Bool) (h : Hod) : (s.putHod core store h).errorLog = s.errorLog := rfl
@[simp] theorem State.putHod_errorWptr (s : State) (core : Nat) (store : Bool) (h : Hod) : (s.putHod core store h).errorWptr = s.errorWptr := rfl
@[simp] theorem State.putHod_secRegions (s : State) (core : Nat) (store : Bool) (h : Hod) : (s.putHod core store h).secRegions = s.secRegions := rfl
@[simp] theorem State.putHod_secBlocks (s : State) (core : Nat) (store : Bool) (h : Hod) : (s.putHod core store h).secBlocks = s.secBlocks := rfl
@[simp] theorem State.putHod_sessions (s : State) (core : Nat) (store : Bool) (h : Hod) : (s.putHod core store h).sessions = s.sessions := rfl
@[simp] theorem State.putHod_ide (s : State) (core : Nat) (store : Bool) (h : Hod) : (s.putHod core store h).ide = s.ide := rfl
@[simp] theorem State.putHod_measurements (s : State) (core : Nat) (store : Bool) (h : Hod) : (s.putHod core store h).measurements = s.measurements := rfl
@[simp] theorem State.putHod_fwSlot (s : State) (core : Nat) (store : Bool) (h : Hod) : (s.putHod core store h).fwSlot = s.fwSlot := rfl
@[simp] theorem State.putHod_fwVersion (s : State) (core : Nat) (store : Bool) (h : Hod) : (s.putHod core store h).fwVersion = s.fwVersion := rfl
@[simp] theorem State.putHod_fwImages (s : State) (core : Nat) (store : Bool) (h : Hod) : (s.putHod core store h).fwImages = s.fwImages := rfl
@[simp] theorem State.putHod_update (s : State) (core : Nat) (store : Bool) (h : Hod) : (s.putHod core store h).update = s.update := rfl
@[simp] theorem State.putHod_portFails (s : State) (core : Nat) (store : Bool) (h : Hod) : (s.putHod core store h).portFails = s.portFails := rfl

/-! ### `State.putQueue` -/

@[simp] theorem State.putQueue_tick (s : State) (core n : Nat) (q : Queue) : (s.putQueue core n q).tick = s.tick := rfl
@[simp] theorem State.putQueue_turns (s : State) (core n : Nat) (q : Queue) : (s.putQueue core n q).turns = s.turns := rfl
@[simp] theorem State.putQueue_cur (s : State) (core n : Nat) (q : Queue) : (s.putQueue core n q).cur = s.cur := rfl
@[simp] theorem State.putQueue_ir (s : State) (core n : Nat) (q : Queue) : (s.putQueue core n q).ir = s.ir := rfl
@[simp] theorem State.putQueue_mem (s : State) (core n : Nat) (q : Queue) : (s.putQueue core n q).mem = s.mem := rfl
@[simp] theorem State.putQueue_tlb (s : State) (core n : Nat) (q : Queue) : (s.putQueue core n q).tlb = s.tlb := rfl
@[simp] theorem State.putQueue_groups (s : State) (core n : Nat) (q : Queue) : (s.putQueue core n q).groups = s.groups := rfl
@[simp] theorem State.putQueue_teams (s : State) (core n : Nat) (q : Queue) : (s.putQueue core n q).teams = s.teams := rfl
@[simp] theorem State.putQueue_nextTeam (s : State) (core n : Nat) (q : Queue) : (s.putQueue core n q).nextTeam = s.nextTeam := rfl
@[simp] theorem State.putQueue_launches (s : State) (core n : Nat) (q : Queue) : (s.putQueue core n q).launches = s.launches := rfl
@[simp] theorem State.putQueue_nextLaunch (s : State) (core n : Nat) (q : Queue) : (s.putQueue core n q).nextLaunch = s.nextLaunch := rfl
@[simp] theorem State.putQueue_contexts (s : State) (core n : Nat) (q : Queue) : (s.putQueue core n q).contexts = s.contexts := rfl
@[simp] theorem State.putQueue_saved (s : State) (core n : Nat) (q : Queue) : (s.putQueue core n q).saved = s.saved := rfl
@[simp] theorem State.putQueue_nextSerial (s : State) (core n : Nat) (q : Queue) : (s.putQueue core n q).nextSerial = s.nextSerial := rfl
@[simp] theorem State.putQueue_nextOrder (s : State) (core n : Nat) (q : Queue) : (s.putQueue core n q).nextOrder = s.nextOrder := rfl
@[simp] theorem State.putQueue_rings (s : State) (core n : Nat) (q : Queue) : (s.putQueue core n q).rings = s.rings := rfl
@[simp] theorem State.putQueue_scoreboard (s : State) (core n : Nat) (q : Queue) : (s.putQueue core n q).scoreboard = s.scoreboard := rfl
@[simp] theorem State.putQueue_margins (s : State) (core n : Nat) (q : Queue) : (s.putQueue core n q).margins = s.margins := rfl
@[simp] theorem State.putQueue_seqSlots (s : State) (core n : Nat) (q : Queue) : (s.putQueue core n q).seqSlots = s.seqSlots := rfl
@[simp] theorem State.putQueue_kilns (s : State) (core n : Nat) (q : Queue) : (s.putQueue core n q).kilns = s.kilns := rfl
@[simp] theorem State.putQueue_hods (s : State) (core n : Nat) (q : Queue) : (s.putQueue core n q).hods = s.hods := rfl
@[simp] theorem State.putQueue_debugs (s : State) (core n : Nat) (q : Queue) : (s.putQueue core n q).debugs = s.debugs := rfl
@[simp] theorem State.putQueue_staging (s : State) (core n : Nat) (q : Queue) : (s.putQueue core n q).staging = s.staging := rfl
@[simp] theorem State.putQueue_bins (s : State) (core n : Nat) (q : Queue) : (s.putQueue core n q).bins = s.bins := rfl
@[simp] theorem State.putQueue_formed (s : State) (core n : Nat) (q : Queue) : (s.putQueue core n q).formed = s.formed := rfl
@[simp] theorem State.putQueue_tasks (s : State) (core n : Nat) (q : Queue) : (s.putQueue core n q).tasks = s.tasks := rfl
@[simp] theorem State.putQueue_nextTask (s : State) (core n : Nat) (q : Queue) : (s.putQueue core n q).nextTask = s.nextTask := rfl
@[simp] theorem State.putQueue_dieReset (s : State) (core n : Nat) (q : Queue) : (s.putQueue core n q).dieReset = s.dieReset := rfl
@[simp] theorem State.putQueue_ckeys (s : State) (core n : Nat) (q : Queue) : (s.putQueue core n q).ckeys = s.ckeys := rfl
@[simp] theorem State.putQueue_instances (s : State) (core n : Nat) (q : Queue) : (s.putQueue core n q).instances = s.instances := rfl
@[simp] theorem State.putQueue_unreachable (s : State) (core n : Nat) (q : Queue) : (s.putQueue core n q).unreachable = s.unreachable := rfl
@[simp] theorem State.putQueue_linksDown (s : State) (core n : Nat) (q : Queue) : (s.putQueue core n q).linksDown = s.linksDown := rfl
@[simp] theorem State.putQueue_lanesDown (s : State) (core n : Nat) (q : Queue) : (s.putQueue core n q).lanesDown = s.lanesDown := rfl
@[simp] theorem State.putQueue_dieStatus (s : State) (core n : Nat) (q : Queue) : (s.putQueue core n q).dieStatus = s.dieStatus := rfl
@[simp] theorem State.putQueue_deferred (s : State) (core n : Nat) (q : Queue) : (s.putQueue core n q).deferred = s.deferred := rfl
@[simp] theorem State.putQueue_faults (s : State) (core n : Nat) (q : Queue) : (s.putQueue core n q).faults = s.faults := rfl
@[simp] theorem State.putQueue_nextFault (s : State) (core n : Nat) (q : Queue) : (s.putQueue core n q).nextFault = s.nextFault := rfl
@[simp] theorem State.putQueue_ready (s : State) (core n : Nat) (q : Queue) : (s.putQueue core n q).ready = s.ready := rfl
@[simp] theorem State.putQueue_failed (s : State) (core n : Nat) (q : Queue) : (s.putQueue core n q).failed = s.failed := rfl
@[simp] theorem State.putQueue_stage (s : State) (core n : Nat) (q : Queue) : (s.putQueue core n q).stage = s.stage := rfl
@[simp] theorem State.putQueue_workRings (s : State) (core n : Nat) (q : Queue) : (s.putQueue core n q).workRings = s.workRings := rfl
@[simp] theorem State.putQueue_mailboxes (s : State) (core n : Nat) (q : Queue) : (s.putQueue core n q).mailboxes = s.mailboxes := rfl
@[simp] theorem State.putQueue_errorLog (s : State) (core n : Nat) (q : Queue) : (s.putQueue core n q).errorLog = s.errorLog := rfl
@[simp] theorem State.putQueue_errorWptr (s : State) (core n : Nat) (q : Queue) : (s.putQueue core n q).errorWptr = s.errorWptr := rfl
@[simp] theorem State.putQueue_secRegions (s : State) (core n : Nat) (q : Queue) : (s.putQueue core n q).secRegions = s.secRegions := rfl
@[simp] theorem State.putQueue_secBlocks (s : State) (core n : Nat) (q : Queue) : (s.putQueue core n q).secBlocks = s.secBlocks := rfl
@[simp] theorem State.putQueue_sessions (s : State) (core n : Nat) (q : Queue) : (s.putQueue core n q).sessions = s.sessions := rfl
@[simp] theorem State.putQueue_ide (s : State) (core n : Nat) (q : Queue) : (s.putQueue core n q).ide = s.ide := rfl
@[simp] theorem State.putQueue_measurements (s : State) (core n : Nat) (q : Queue) : (s.putQueue core n q).measurements = s.measurements := rfl
@[simp] theorem State.putQueue_fwSlot (s : State) (core n : Nat) (q : Queue) : (s.putQueue core n q).fwSlot = s.fwSlot := rfl
@[simp] theorem State.putQueue_fwVersion (s : State) (core n : Nat) (q : Queue) : (s.putQueue core n q).fwVersion = s.fwVersion := rfl
@[simp] theorem State.putQueue_fwImages (s : State) (core n : Nat) (q : Queue) : (s.putQueue core n q).fwImages = s.fwImages := rfl
@[simp] theorem State.putQueue_update (s : State) (core n : Nat) (q : Queue) : (s.putQueue core n q).update = s.update := rfl
@[simp] theorem State.putQueue_portFails (s : State) (core n : Nat) (q : Queue) : (s.putQueue core n q).portFails = s.portFails := rfl

/-! ### `State.putRing` -/

@[simp] theorem State.putRing_tick (s : State) (core n : Nat) (r : SlotRing) : (s.putRing core n r).tick = s.tick := rfl
@[simp] theorem State.putRing_turns (s : State) (core n : Nat) (r : SlotRing) : (s.putRing core n r).turns = s.turns := rfl
@[simp] theorem State.putRing_cur (s : State) (core n : Nat) (r : SlotRing) : (s.putRing core n r).cur = s.cur := rfl
@[simp] theorem State.putRing_ir (s : State) (core n : Nat) (r : SlotRing) : (s.putRing core n r).ir = s.ir := rfl
@[simp] theorem State.putRing_mem (s : State) (core n : Nat) (r : SlotRing) : (s.putRing core n r).mem = s.mem := rfl
@[simp] theorem State.putRing_tlb (s : State) (core n : Nat) (r : SlotRing) : (s.putRing core n r).tlb = s.tlb := rfl
@[simp] theorem State.putRing_groups (s : State) (core n : Nat) (r : SlotRing) : (s.putRing core n r).groups = s.groups := rfl
@[simp] theorem State.putRing_teams (s : State) (core n : Nat) (r : SlotRing) : (s.putRing core n r).teams = s.teams := rfl
@[simp] theorem State.putRing_nextTeam (s : State) (core n : Nat) (r : SlotRing) : (s.putRing core n r).nextTeam = s.nextTeam := rfl
@[simp] theorem State.putRing_launches (s : State) (core n : Nat) (r : SlotRing) : (s.putRing core n r).launches = s.launches := rfl
@[simp] theorem State.putRing_nextLaunch (s : State) (core n : Nat) (r : SlotRing) : (s.putRing core n r).nextLaunch = s.nextLaunch := rfl
@[simp] theorem State.putRing_contexts (s : State) (core n : Nat) (r : SlotRing) : (s.putRing core n r).contexts = s.contexts := rfl
@[simp] theorem State.putRing_saved (s : State) (core n : Nat) (r : SlotRing) : (s.putRing core n r).saved = s.saved := rfl
@[simp] theorem State.putRing_nextSerial (s : State) (core n : Nat) (r : SlotRing) : (s.putRing core n r).nextSerial = s.nextSerial := rfl
@[simp] theorem State.putRing_nextOrder (s : State) (core n : Nat) (r : SlotRing) : (s.putRing core n r).nextOrder = s.nextOrder := rfl
@[simp] theorem State.putRing_queues (s : State) (core n : Nat) (r : SlotRing) : (s.putRing core n r).queues = s.queues := rfl
@[simp] theorem State.putRing_scoreboard (s : State) (core n : Nat) (r : SlotRing) : (s.putRing core n r).scoreboard = s.scoreboard := rfl
@[simp] theorem State.putRing_margins (s : State) (core n : Nat) (r : SlotRing) : (s.putRing core n r).margins = s.margins := rfl
@[simp] theorem State.putRing_seqSlots (s : State) (core n : Nat) (r : SlotRing) : (s.putRing core n r).seqSlots = s.seqSlots := rfl
@[simp] theorem State.putRing_kilns (s : State) (core n : Nat) (r : SlotRing) : (s.putRing core n r).kilns = s.kilns := rfl
@[simp] theorem State.putRing_hods (s : State) (core n : Nat) (r : SlotRing) : (s.putRing core n r).hods = s.hods := rfl
@[simp] theorem State.putRing_debugs (s : State) (core n : Nat) (r : SlotRing) : (s.putRing core n r).debugs = s.debugs := rfl
@[simp] theorem State.putRing_staging (s : State) (core n : Nat) (r : SlotRing) : (s.putRing core n r).staging = s.staging := rfl
@[simp] theorem State.putRing_bins (s : State) (core n : Nat) (r : SlotRing) : (s.putRing core n r).bins = s.bins := rfl
@[simp] theorem State.putRing_formed (s : State) (core n : Nat) (r : SlotRing) : (s.putRing core n r).formed = s.formed := rfl
@[simp] theorem State.putRing_tasks (s : State) (core n : Nat) (r : SlotRing) : (s.putRing core n r).tasks = s.tasks := rfl
@[simp] theorem State.putRing_nextTask (s : State) (core n : Nat) (r : SlotRing) : (s.putRing core n r).nextTask = s.nextTask := rfl
@[simp] theorem State.putRing_dieReset (s : State) (core n : Nat) (r : SlotRing) : (s.putRing core n r).dieReset = s.dieReset := rfl
@[simp] theorem State.putRing_ckeys (s : State) (core n : Nat) (r : SlotRing) : (s.putRing core n r).ckeys = s.ckeys := rfl
@[simp] theorem State.putRing_instances (s : State) (core n : Nat) (r : SlotRing) : (s.putRing core n r).instances = s.instances := rfl
@[simp] theorem State.putRing_unreachable (s : State) (core n : Nat) (r : SlotRing) : (s.putRing core n r).unreachable = s.unreachable := rfl
@[simp] theorem State.putRing_linksDown (s : State) (core n : Nat) (r : SlotRing) : (s.putRing core n r).linksDown = s.linksDown := rfl
@[simp] theorem State.putRing_lanesDown (s : State) (core n : Nat) (r : SlotRing) : (s.putRing core n r).lanesDown = s.lanesDown := rfl
@[simp] theorem State.putRing_dieStatus (s : State) (core n : Nat) (r : SlotRing) : (s.putRing core n r).dieStatus = s.dieStatus := rfl
@[simp] theorem State.putRing_deferred (s : State) (core n : Nat) (r : SlotRing) : (s.putRing core n r).deferred = s.deferred := rfl
@[simp] theorem State.putRing_faults (s : State) (core n : Nat) (r : SlotRing) : (s.putRing core n r).faults = s.faults := rfl
@[simp] theorem State.putRing_nextFault (s : State) (core n : Nat) (r : SlotRing) : (s.putRing core n r).nextFault = s.nextFault := rfl
@[simp] theorem State.putRing_ready (s : State) (core n : Nat) (r : SlotRing) : (s.putRing core n r).ready = s.ready := rfl
@[simp] theorem State.putRing_failed (s : State) (core n : Nat) (r : SlotRing) : (s.putRing core n r).failed = s.failed := rfl
@[simp] theorem State.putRing_stage (s : State) (core n : Nat) (r : SlotRing) : (s.putRing core n r).stage = s.stage := rfl
@[simp] theorem State.putRing_workRings (s : State) (core n : Nat) (r : SlotRing) : (s.putRing core n r).workRings = s.workRings := rfl
@[simp] theorem State.putRing_mailboxes (s : State) (core n : Nat) (r : SlotRing) : (s.putRing core n r).mailboxes = s.mailboxes := rfl
@[simp] theorem State.putRing_errorLog (s : State) (core n : Nat) (r : SlotRing) : (s.putRing core n r).errorLog = s.errorLog := rfl
@[simp] theorem State.putRing_errorWptr (s : State) (core n : Nat) (r : SlotRing) : (s.putRing core n r).errorWptr = s.errorWptr := rfl
@[simp] theorem State.putRing_secRegions (s : State) (core n : Nat) (r : SlotRing) : (s.putRing core n r).secRegions = s.secRegions := rfl
@[simp] theorem State.putRing_secBlocks (s : State) (core n : Nat) (r : SlotRing) : (s.putRing core n r).secBlocks = s.secBlocks := rfl
@[simp] theorem State.putRing_sessions (s : State) (core n : Nat) (r : SlotRing) : (s.putRing core n r).sessions = s.sessions := rfl
@[simp] theorem State.putRing_ide (s : State) (core n : Nat) (r : SlotRing) : (s.putRing core n r).ide = s.ide := rfl
@[simp] theorem State.putRing_measurements (s : State) (core n : Nat) (r : SlotRing) : (s.putRing core n r).measurements = s.measurements := rfl
@[simp] theorem State.putRing_fwSlot (s : State) (core n : Nat) (r : SlotRing) : (s.putRing core n r).fwSlot = s.fwSlot := rfl
@[simp] theorem State.putRing_fwVersion (s : State) (core n : Nat) (r : SlotRing) : (s.putRing core n r).fwVersion = s.fwVersion := rfl
@[simp] theorem State.putRing_fwImages (s : State) (core n : Nat) (r : SlotRing) : (s.putRing core n r).fwImages = s.fwImages := rfl
@[simp] theorem State.putRing_update (s : State) (core n : Nat) (r : SlotRing) : (s.putRing core n r).update = s.update := rfl
@[simp] theorem State.putRing_portFails (s : State) (core n : Nat) (r : SlotRing) : (s.putRing core n r).portFails = s.portFails := rfl

/-! ### `State.putWorkRing` -/

@[simp] theorem State.putWorkRing_tick (s : State) (port ring : Nat) (r : WorkRing) : (s.putWorkRing port ring r).tick = s.tick := rfl
@[simp] theorem State.putWorkRing_turns (s : State) (port ring : Nat) (r : WorkRing) : (s.putWorkRing port ring r).turns = s.turns := rfl
@[simp] theorem State.putWorkRing_cur (s : State) (port ring : Nat) (r : WorkRing) : (s.putWorkRing port ring r).cur = s.cur := rfl
@[simp] theorem State.putWorkRing_ir (s : State) (port ring : Nat) (r : WorkRing) : (s.putWorkRing port ring r).ir = s.ir := rfl
@[simp] theorem State.putWorkRing_mem (s : State) (port ring : Nat) (r : WorkRing) : (s.putWorkRing port ring r).mem = s.mem := rfl
@[simp] theorem State.putWorkRing_tlb (s : State) (port ring : Nat) (r : WorkRing) : (s.putWorkRing port ring r).tlb = s.tlb := rfl
@[simp] theorem State.putWorkRing_groups (s : State) (port ring : Nat) (r : WorkRing) : (s.putWorkRing port ring r).groups = s.groups := rfl
@[simp] theorem State.putWorkRing_teams (s : State) (port ring : Nat) (r : WorkRing) : (s.putWorkRing port ring r).teams = s.teams := rfl
@[simp] theorem State.putWorkRing_nextTeam (s : State) (port ring : Nat) (r : WorkRing) : (s.putWorkRing port ring r).nextTeam = s.nextTeam := rfl
@[simp] theorem State.putWorkRing_launches (s : State) (port ring : Nat) (r : WorkRing) : (s.putWorkRing port ring r).launches = s.launches := rfl
@[simp] theorem State.putWorkRing_nextLaunch (s : State) (port ring : Nat) (r : WorkRing) : (s.putWorkRing port ring r).nextLaunch = s.nextLaunch := rfl
@[simp] theorem State.putWorkRing_contexts (s : State) (port ring : Nat) (r : WorkRing) : (s.putWorkRing port ring r).contexts = s.contexts := rfl
@[simp] theorem State.putWorkRing_saved (s : State) (port ring : Nat) (r : WorkRing) : (s.putWorkRing port ring r).saved = s.saved := rfl
@[simp] theorem State.putWorkRing_nextSerial (s : State) (port ring : Nat) (r : WorkRing) : (s.putWorkRing port ring r).nextSerial = s.nextSerial := rfl
@[simp] theorem State.putWorkRing_nextOrder (s : State) (port ring : Nat) (r : WorkRing) : (s.putWorkRing port ring r).nextOrder = s.nextOrder := rfl
@[simp] theorem State.putWorkRing_queues (s : State) (port ring : Nat) (r : WorkRing) : (s.putWorkRing port ring r).queues = s.queues := rfl
@[simp] theorem State.putWorkRing_rings (s : State) (port ring : Nat) (r : WorkRing) : (s.putWorkRing port ring r).rings = s.rings := rfl
@[simp] theorem State.putWorkRing_scoreboard (s : State) (port ring : Nat) (r : WorkRing) : (s.putWorkRing port ring r).scoreboard = s.scoreboard := rfl
@[simp] theorem State.putWorkRing_margins (s : State) (port ring : Nat) (r : WorkRing) : (s.putWorkRing port ring r).margins = s.margins := rfl
@[simp] theorem State.putWorkRing_seqSlots (s : State) (port ring : Nat) (r : WorkRing) : (s.putWorkRing port ring r).seqSlots = s.seqSlots := rfl
@[simp] theorem State.putWorkRing_kilns (s : State) (port ring : Nat) (r : WorkRing) : (s.putWorkRing port ring r).kilns = s.kilns := rfl
@[simp] theorem State.putWorkRing_hods (s : State) (port ring : Nat) (r : WorkRing) : (s.putWorkRing port ring r).hods = s.hods := rfl
@[simp] theorem State.putWorkRing_debugs (s : State) (port ring : Nat) (r : WorkRing) : (s.putWorkRing port ring r).debugs = s.debugs := rfl
@[simp] theorem State.putWorkRing_staging (s : State) (port ring : Nat) (r : WorkRing) : (s.putWorkRing port ring r).staging = s.staging := rfl
@[simp] theorem State.putWorkRing_bins (s : State) (port ring : Nat) (r : WorkRing) : (s.putWorkRing port ring r).bins = s.bins := rfl
@[simp] theorem State.putWorkRing_formed (s : State) (port ring : Nat) (r : WorkRing) : (s.putWorkRing port ring r).formed = s.formed := rfl
@[simp] theorem State.putWorkRing_tasks (s : State) (port ring : Nat) (r : WorkRing) : (s.putWorkRing port ring r).tasks = s.tasks := rfl
@[simp] theorem State.putWorkRing_nextTask (s : State) (port ring : Nat) (r : WorkRing) : (s.putWorkRing port ring r).nextTask = s.nextTask := rfl
@[simp] theorem State.putWorkRing_dieReset (s : State) (port ring : Nat) (r : WorkRing) : (s.putWorkRing port ring r).dieReset = s.dieReset := rfl
@[simp] theorem State.putWorkRing_ckeys (s : State) (port ring : Nat) (r : WorkRing) : (s.putWorkRing port ring r).ckeys = s.ckeys := rfl
@[simp] theorem State.putWorkRing_instances (s : State) (port ring : Nat) (r : WorkRing) : (s.putWorkRing port ring r).instances = s.instances := rfl
@[simp] theorem State.putWorkRing_unreachable (s : State) (port ring : Nat) (r : WorkRing) : (s.putWorkRing port ring r).unreachable = s.unreachable := rfl
@[simp] theorem State.putWorkRing_linksDown (s : State) (port ring : Nat) (r : WorkRing) : (s.putWorkRing port ring r).linksDown = s.linksDown := rfl
@[simp] theorem State.putWorkRing_lanesDown (s : State) (port ring : Nat) (r : WorkRing) : (s.putWorkRing port ring r).lanesDown = s.lanesDown := rfl
@[simp] theorem State.putWorkRing_dieStatus (s : State) (port ring : Nat) (r : WorkRing) : (s.putWorkRing port ring r).dieStatus = s.dieStatus := rfl
@[simp] theorem State.putWorkRing_deferred (s : State) (port ring : Nat) (r : WorkRing) : (s.putWorkRing port ring r).deferred = s.deferred := rfl
@[simp] theorem State.putWorkRing_faults (s : State) (port ring : Nat) (r : WorkRing) : (s.putWorkRing port ring r).faults = s.faults := rfl
@[simp] theorem State.putWorkRing_nextFault (s : State) (port ring : Nat) (r : WorkRing) : (s.putWorkRing port ring r).nextFault = s.nextFault := rfl
@[simp] theorem State.putWorkRing_ready (s : State) (port ring : Nat) (r : WorkRing) : (s.putWorkRing port ring r).ready = s.ready := rfl
@[simp] theorem State.putWorkRing_failed (s : State) (port ring : Nat) (r : WorkRing) : (s.putWorkRing port ring r).failed = s.failed := rfl
@[simp] theorem State.putWorkRing_stage (s : State) (port ring : Nat) (r : WorkRing) : (s.putWorkRing port ring r).stage = s.stage := rfl
@[simp] theorem State.putWorkRing_mailboxes (s : State) (port ring : Nat) (r : WorkRing) : (s.putWorkRing port ring r).mailboxes = s.mailboxes := rfl
@[simp] theorem State.putWorkRing_errorLog (s : State) (port ring : Nat) (r : WorkRing) : (s.putWorkRing port ring r).errorLog = s.errorLog := rfl
@[simp] theorem State.putWorkRing_errorWptr (s : State) (port ring : Nat) (r : WorkRing) : (s.putWorkRing port ring r).errorWptr = s.errorWptr := rfl
@[simp] theorem State.putWorkRing_secRegions (s : State) (port ring : Nat) (r : WorkRing) : (s.putWorkRing port ring r).secRegions = s.secRegions := rfl
@[simp] theorem State.putWorkRing_secBlocks (s : State) (port ring : Nat) (r : WorkRing) : (s.putWorkRing port ring r).secBlocks = s.secBlocks := rfl
@[simp] theorem State.putWorkRing_sessions (s : State) (port ring : Nat) (r : WorkRing) : (s.putWorkRing port ring r).sessions = s.sessions := rfl
@[simp] theorem State.putWorkRing_ide (s : State) (port ring : Nat) (r : WorkRing) : (s.putWorkRing port ring r).ide = s.ide := rfl
@[simp] theorem State.putWorkRing_measurements (s : State) (port ring : Nat) (r : WorkRing) : (s.putWorkRing port ring r).measurements = s.measurements := rfl
@[simp] theorem State.putWorkRing_fwSlot (s : State) (port ring : Nat) (r : WorkRing) : (s.putWorkRing port ring r).fwSlot = s.fwSlot := rfl
@[simp] theorem State.putWorkRing_fwVersion (s : State) (port ring : Nat) (r : WorkRing) : (s.putWorkRing port ring r).fwVersion = s.fwVersion := rfl
@[simp] theorem State.putWorkRing_fwImages (s : State) (port ring : Nat) (r : WorkRing) : (s.putWorkRing port ring r).fwImages = s.fwImages := rfl
@[simp] theorem State.putWorkRing_update (s : State) (port ring : Nat) (r : WorkRing) : (s.putWorkRing port ring r).update = s.update := rfl
@[simp] theorem State.putWorkRing_portFails (s : State) (port ring : Nat) (r : WorkRing) : (s.putWorkRing port ring r).portFails = s.portFails := rfl

end Sys2Proof.Machine
end

