-- ==== Sys2Proof/Laws/Weak.lean ====
section
/-!
SUPPORT. Accesses left behind: a group that has left none behind issues as it stands, and a packet whose port meets no error reads and
writes as the context's tables say.
-/

namespace Sys2Proof.Machine

/-! ### Accesses that have issued and are not performed -/

theorem State.lateOf_of_find {s : State} {core slot : Nat} {g : Group} (h : s.groups.find (slotKey core slot) = some g) :
    s.lateOf (.group core slot) = g.late := by rw [State.lateOf, h]; rfl

/-- Nothing that any agent has issued is still to be performed. -/
def State.NoneLate (s : State) : Prop := ∀ a, s.lateOf a = []

theorem State.drain_of_none_late {s : State} {a : Actor} (h : s.lateOf a = []) (threads : Mask) : s.drain a threads = some s := by
  simp [State.drain, h, State.actAll, namesOf]

theorem State.finishAll_of_none_late {s : State} {a : Actor} (h : s.lateOf a = []) : s.finishAll a = s := by
  simp [State.finishAll, h]

/-- An acquire finds everything performed where nothing is left to perform. -/
theorem State.acquire_of_none_late {s : State} (h : s.NoneLate) (x : Actor) (c : Scope) (places : Option (List Nat)) (sc : Bool) :
    s.acquire x c places sc = some s := by
  rw [State.acquire]
  generalize s.actors = l
  induction l with
  | nil => rfl
  | cons y l ih => simpa [State.claimed, h y, namesOf] using ih

theorem Ctx.settled_of_none_late {x : Ctx} {s : State} (h : s.NoneLate) (late : Bool) : x.settled late s = some s := by
  simp only [Ctx.settled]
  split
  · rfl
  · rw [State.drain_of_none_late (h _)]
    simp only [Option.bind_some]
    split
    · exact State.acquire_of_none_late h ..
    · rfl

theorem State.hodSettled_of_none_late {s : State} {core : Nat} {store : Bool} (h : s.NoneLate) (hv : s.viewsOf (.hod core store) = [])
    (i : Instr) : s.hodSettled core store i = some s := by
  simp only [State.hodSettled, State.drain_of_none_late (h _), Option.bind_some]
  split <;> simp [State.acquire_of_none_late h, hv]

theorem Group.resumed_of_idle {g : Group} (hc : g.claim = none) (ho : g.overlap = []) (f : Fragment) : g.resumed f = g := by
  cases g
  simp_all [Group.resumed]

theorem Group.keepViews_of_none {g : Group} (h : g.views = []) (f : Fragment) (late : Bool) (w : Nat) : g.keepViews f late w = g := by
  cases g
  simp_all [Group.keepViews, dropViews]

/-- A group that has nothing in flight besides its results can be saved (R130). -/
theorem Group.settled_late {g : Group} (h : g.settled = true) : g.late = [] := by
  simp only [Group.settled, Bool.and_eq_true, List.isEmpty_iff] at h
  exact h.1.2

/-! ### Accesses of the host's port for its packets -/

theorem State.portRead_of_good {s : State} (h : s.portFails = none) (ctx va n : Nat) : s.portRead ctx va n = s.readVirt ctx va n := by
  simp [State.portRead, h]
theorem State.portWrite_of_good {s : State} (h : s.portFails = none) (ctx va : Nat) (b : List Byte) :
    s.portWrite ctx va b = s.writeVirt ctx va b := by simp [State.portWrite, h]
theorem State.portMet_of_good {s : State} (h : s.portFails = none) (write : Bool) (ctx : Nat) : s.portMet write ctx = s := by
  simp [State.portMet, h]

end Sys2Proof.Machine
end

