-- ==== Sys2Proof/Tests/Slice0.lean ====
section
/-!
SUPPORT. Tests of the model: ill-formed terms that WellFormed refuses, words written out from the spec's encodings, single steps on
small states with results that the spec gives, and for the statements in Obligations.lean states and operands that meet their
hypotheses. A witness that a value of the part decides (which core is fused, the size of the domain) has it as a hypothesis.
-/

open Sys2Proof Sys2Proof.Machine

namespace Sys2Proof.Tests
/-! ### Well-formedness: each check refuses a term that breaks it (R41 to R44, R53 to R68) -/

theorem test_wf_lane : Instr.wellFormed (.add false 95 127 0) = true ∧ Instr.wellFormed (.add false 96 1 2) = false ∧
    Instr.wellFormed (.add false 1 128 2) = false := by decide
theorem test_wf_immediate : Instr.wellFormed (.shi false 1 2 .shl 31) = true ∧ Instr.wellFormed (.shi false 1 2 .shl 32) = false ∧
    Instr.wellFormed (.lea false 8 1 2 3) = false := by decide
theorem test_wf_compare : Instr.wellFormed (.icmp false .ltz 7 1 0) = true ∧ Instr.wellFormed (.icmp false .ltz 7 1 2) = false ∧
    Instr.wellFormed (.icmp false .eq 8 1 2) = false ∧ Instr.wellFormed (.ucmp false .gez 1 2 3) = false := by decide
theorem test_wf_float : Instr.wellFormed (.cvt false .rne 1 2 .f32 .f32) = false ∧ Instr.wellFormed (.frnd false .rs 1 2) = false ∧
    Instr.wellFormed (.frnd false .rna 1 2) = true := by decide
theorem test_wf_lane_fields : Instr.wellFormed (.sysv false 1 4) = false ∧ Instr.wellFormed (.upw false 1 2 0) = false ∧
    Instr.wellFormed (.upw false 1 2 7) = true ∧ Instr.wellFormed (.upw false 1 2 8) = false ∧
    Instr.wellFormed (.ballot false 8 1) = false := by decide
theorem test_wf_load : Instr.wellFormed (.ld false .b64 2 1 .acquire .team) = true ∧
    Instr.wellFormed (.ld false .b64 3 1 .relaxed .group) = false ∧ Instr.wellFormed (.ld false .b32 3 1 .release .team) = false ∧
    Instr.wellFormed (.ldg false .b32 3 1 .relaxed .group 4) = false := by decide
theorem test_wf_store : Instr.wellFormed (.st false .b128 100 1 .release .team) = true ∧
    Instr.wellFormed (.st false .b128 98 1 .relaxed .group) = false ∧ Instr.wellFormed (.st false .b32 3 1 .acquire .team) = false ∧
    Instr.wellFormed (.st false .s8 3 1 .relaxed .team) = false := by decide
theorem test_wf_atomic : Instr.wellFormed (.atomAdd false 1 2 .sc .die .global) = true ∧
    Instr.wellFormed (.atomAdd false 1 3 .sc .die .global) = false ∧ Instr.wellFormed (.atomAddB64 false 1 2 .sc .die .unit) = false ∧
    Instr.wellFormed (.atomCasB64 false 94 2 .sc .die .unit) = false := by decide
theorem test_wf_uniform : Instr.wellFormed (.uadd false 127 126 125) = true ∧ Instr.wellFormed (.uadd false 128 1 2) = false ∧
    Instr.wellFormed (.rdth false 100 96 1) = false ∧ Instr.wellFormed (.kfrom false 1 97) = false ∧
    Instr.wellFormed (.kto false 126 7) = true ∧ Instr.wellFormed (.kand false 8 1 2) = false := by decide
theorem test_wf_control : Instr.wellFormed (.brc false .kall 8 1) = false ∧ Instr.wellFormed (.brc false .eqz 8 1) = true ∧
    Instr.wellFormed (.jmpt false 1 []) = false ∧ Instr.wellFormed (.bdiv false 1 4 1) = false ∧
    Instr.wellFormed (.disp false 1 4 0x7FFF) = false ∧ Instr.wellFormed (.loop false 3 1 1 0 0 0 0 0 0 96) = false ∧
    Instr.wellFormed (.loop false 2 1 0 0 0 0 0 0 0 96) = false ∧ Instr.wellFormed (.spwn false 90 7 0) = false := by decide
theorem test_wf_front_end : Instr.wellFormed (.pop false 1 8) = false ∧ Instr.wellFormed (.swp false 1 4) = false ∧
    Instr.wellFormed (.fence false .sc .die 128) = false ∧ Instr.wellFormed (.cwait false 8 1) = false ∧
    Instr.wellFormed (.barT false 4) = false ∧ Instr.wellFormed (.barC false 2) = false ∧ Instr.wellFormed (.barP false 8) = false ∧
    Instr.wellFormed (.marg false 8) = false ∧ Instr.wellFormed (.trap false 128) = false ∧ Instr.wellFormed (.itld false 4 1) = false ∧
    Instr.wellFormed (.qcfg false 1 8) = false := by decide
theorem test_wf_system : Instr.wellFormed (.sysrd false 1 0x00A) = false ∧ Instr.wellFormed (.sysrd false 1 0x084) = true ∧
    Instr.wellFormed (.syswr false 1 0x000) = false ∧ Instr.wellFormed (.dreg false 0 0 3 1) = false ∧
    Instr.wellFormed (.dclr false true 1) = false := by decide
theorem test_wf_engines : Instr.wellFormed (.cpyi false 95 1) = false ∧ Instr.wellFormed (.rcfg false 1 1 16) = false ∧
    Instr.wellFormed (.rawait false 1 64 0) = false ∧ Instr.wellFormed (.sqsig false 97 16) = false ∧
    Instr.wellFormed (.mmaAcc false 32 1 1 false 0 0) = false ∧ Instr.wellFormed (.mmaAcc false 1 16 1 false 0 0) = false ∧
    Instr.wellFormed (.tcfg false 1 0 true 0 0 0) = false ∧ Instr.wellFormed (.tcfg false 1 0 true 0 31 6) = true ∧
    Instr.wellFormed (.tcfg false 1 33 false 0 0 0) = false ∧ Instr.wellFormed (.azero false 32 1) = false ∧
    Instr.wellFormed (.rgrad false 20 1) = false ∧ Instr.wellFormed (.rstat false 1 3) = false ∧
    Instr.wellFormed (.cstat false 96 1) = false := by decide
theorem test_wf_hod : Instr.wellFormed (.hodInstruction false (.opImm .slli 1 2 64)) = false ∧
    Instr.wellFormed (.hodInstruction false (.opImm32 .slliw 1 2 32)) = false ∧
    Instr.wellFormed (.hodInstruction false (.jal 1 1)) = false ∧ Instr.wellFormed (.hodInstruction false (.op .add 32 1 2)) = false ∧
    Instr.wellFormed (.hcpyCpyi 32 1) = false ∧ Instr.wellFormed (.hqPop 1 31) = true := by decide

/-! ### Decoding: words written out from the encodings of R49 to R68 and of the opcode table -/

theorem test_decode_lane : decodeAt 0x45014307 [] = .ok (.mad true 5 6 7) 1 ∧ decodeAt 0x01204103 [] = .ok (.sub false 1 2 3) 1 ∧
    decodeAt 0x0757FFE0 [] = .ok (.bfi false 95 127 96) 1 ∧ decodeAt 0x1040C205 [] = .ok (.icmp false .lt 3 4 5) 1 := by decide
theorem test_decode_float : decodeAt 0x11E1C082 [] = .ok (.fcmp false .ord 7 1 2) 1 ∧
    decodeAt 0x15224407 [] = .ok (.fsub false .f16x2 9 8 7) 1 := by decide
theorem test_decode_cross : decodeAt 0x2000C101 [] = .ok (.idx false 3 2 1) 1 ∧ decodeAt 0x21C0C100 [] = .ok (.xred false .and 3 2) 1 ∧
    decodeAt 0x23017200 [] = .ok (.ballot false 5 100) 1 := by decide
theorem test_decode_memory : decodeAt 0x2E8204B7 [] = .ok (.ldg false .b128 8 9 .acquire .domain 3) 1 ∧
    decodeAt 0x30004171 [] = .ok (.atomAdd false 1 2 .sc .module .die) 1 ∧
    decodeAt 0x31E10100 [] = .ok (.atomCasB64 false 4 2 .relaxed .group .unit) 1 ∧
    decodeAt 0x33004112 [] = .ok (.atomoFadd false 1 2 .relaxed .module .global) 1 ∧
    decodeAt 0x34008367 [] = .ok (.cas false 2 6 .sc .team .cluster) 1 := by decide
theorem test_decode_queue : decodeAt 0x3601C005 [] = .ok (.pop false 7 5) 1 ∧ decodeAt 0xB6003206 [] = .ok (.qcfg false 100 6) 1 := by decide
theorem test_decode_iterator : decodeAt 0x39010163 [] = .ok (.swr false .addS32 4 2 99) 1 ∧
    decodeAt 0xB500F200 [] = .ok (.itld false 3 100) 1 ∧ decodeAt 0xB7028205 [] = .ok (.dreg false 1 2 4 5) 1 := by decide
theorem test_decode_mask : decodeAt 0x93004103 [] = .ok (.kand false 1 2 3) 1 ∧ decodeAt 0x93A0B100 [] = .ok (.kfrom false 2 98) 1 ∧
    decodeAt 0x945802E2 [] = .ok (.rdth false 96 5 98) 1 := by decide
theorem test_decode_branch : decodeAt 0x99C0FFFE [] = .ok (.brc false .kall 3 0x3FFE) 1 ∧
    decodeAt 0x9A000100 [] = .ok (.call false 0x100) 1 ∧
    decodeAt 0x9B203181 [4, 0xFFFFFFFE, 7] = .ok (.jmpt false 99 [4, 0xFFFFFFFE]) 3 ∧
    decodeAt 0x9C400006 [10] = .ok (.bdiv false 2 6 10) 2 := by decide
theorem test_decode_loop : decodeAt 0xA0390140 [0x1F2342E2] = .ok (.loop false 1 100 5 1 0xF 2 3 4 5 98) 2 := by decide
theorem test_decode_spawn : decodeAt 0xA2020C00 [0x40] = .ok (.spwn false 8 3 0x40) 2 ∧ decodeAt 0xA3193180 [] = .ok (.tspn false 100 99) 1 := by decide
theorem test_decode_copy : decodeAt 0xA4587105 [] = .ok (.cpyg false 97 98 5) 1 ∧ decodeAt 0xA5187109 [] = .ok (.rcfg false 97 98 9) 1 ∧
    decodeAt 0xA538508F [] = .ok (.rawait false 97 33 15) 1 := by decide
theorem test_decode_wait : decodeAt 0xA8617F80 [] = .ok (.fence false .sc .domain 127) 1 ∧ decodeAt 0xAA003280 [] = .ok (.hwait false 101) 1 ∧
    decodeAt 0xAB000003 [] = .ok (.barT false 3) 1 ∧ decodeAt 0xABC03200 [] = .ok (.waitP false 100) 1 ∧
    decodeAt 0xAC387100 [] = .ok (.mwait false 97 98) 1 ∧ decodeAt 0xAD000005 [] = .ok (.marg false 5) 1 := by decide
theorem test_decode_system : decodeAt 0xB1C80010 [] = .ok (.syswr false 100 0x010) 1 ∧ decodeAt 0xB2000005 [] = .ok (.trap false 5) 1 ∧
    decodeAt 0xB3000000 [] = .ok (.tret false) 1 ∧ decodeAt 0x80000000 [] = .ok (.nop false) 1 := by decide
theorem test_decode_matrix : decodeAt 0xB81FF3C8 [] = .ok (.mmaAcc false 31 15 3 true 2 1) 1 ∧ decodeAt 0xB9183200 [] = .ok (.mmah false 100) 1 ∧
    decodeAt 0xBA0A0000 [0x00B7F400] = .ok (.tcfg false 5 0 true 3 127 2) 2 ∧ decodeAt 0xBA227201 [] = .ok (.tmovi false 9 100 true) 1 ∧
    decodeAt 0xBAB7F265 [] = .ok (.adrn false true 31 100 101) 1 ∧ decodeAt 0xBB20C205 [] = .ok (.aadd false false 3 4 5) 1 := by decide
theorem test_decode_record : decodeAt 0xBC003203 [] = .ok (.recon false 100 true true) 1 ∧ decodeAt 0xBC5C0000 [] = .ok (.rmark false 112) 1 ∧
    decodeAt 0xBC793280 [] = .ok (.trvs false 100 101) 1 ∧ decodeAt 0xBCD90100 [] = .ok (.rstat false 100 2) 1 := by decide
theorem test_decode_engines : decodeAt 0xA6184280 [] = .ok (.kldj false 97 5) 1 ∧ decodeAt 0xA7584009 [] = .ok (.sqsig false 97 9) 1 ∧
    decodeAt 0xBDB93001 [] = .ok (.cstat false 100 1) 1 := by decide
theorem test_decode_hod : decodeHod 0xFFF58513 = some (.hodInstruction false (.opImm .addi 10 11 0xFFF), 4) ∧
    decodeHod 0x00513423 = some (.hodInstruction false (.store .sd 2 5 8), 4) ∧
    decodeHod 0x100121AF = some (.hodInstruction false (.lr false false false 3 2), 4) ∧
    decodeHod 0x0021B0AF = some (.hodInstruction false (.amo .add true false false 1 3 2), 4) ∧
    decodeHod 0x023100B3 = some (.hodInstruction false (.op .mul 1 2 3), 4) ∧ decodeHod 0x00000073 = some (.ecall, 4) ∧
    decodeHod 0x9002 = some (.ebreak true, 2) := by decide
/-- R53: words of unassigned majors and functions, reserved fields that are not zero, and illegal codes are refused. -/
theorem test_decode_refuses : decodeAt 0x00000000 [] = .illegal 0 ∧ decodeAt 0x85000000 [] = .illegal 0 ∧
    decodeAt 0x80600000 [] = .illegal 0 ∧ decodeAt 0x80000001 [] = .illegal 0 ∧ decodeAt 0xB2200000 [] = .illegal 0 ∧
    decodeAt 0xABE00000 [] = .illegal 0 ∧ decodeAt 0xA880C000 [] = .illegal 0 ∧ decodeAt 0xA8018000 [] = .illegal 0 ∧
    decodeHod 0x00000000 = none := by decide

/-! ### One step -/

/-- The state that an outcome leaves. -/
def nextOf (o : Host.Outcome State Fault Refusal) : Option State :=
  match o with
  | .next s => some s
  | _ => none
/-- The machine after one step that runs a placed instruction, and its group. -/
noncomputable def afterWord (nbits w : Nat) : Option State := nextOf (step (State.reset.withFetchWord nbits w))
noncomputable def groupAfter (nbits w : Nat) : Option Group := (afterWord nbits w).bind fun s => s.groups.find 0

/-- A group of 64 threads on core 0 whose code is 64 words of `nop`, whose turn it is. -/
def placed : State := { State.reset.placeCode (List.replicate 64 0x80000000) with cur := .group 0 0 0 }
/-- The same with its group changed, with its team changed, and with its launch changed. -/
def withGroup (f : Group → Group) : State := { placed with groups := placed.groups.modify 0 f }
def withTeam (f : Team → Team) : State := { placed with teams := placed.teams.modify 0 f }
def withLaunch (f : Launch → Launch) : State := { placed with launches := placed.launches.modify 1 f }
/-- Threads 0 to 3 are active, and hold x and y in v1 and v2. -/
def withLanes (x y : W32) : State :=
  withGroup fun g => { (List.range 4).foldl (fun g t => (g.writeV false 1 t x).writeV false 2 t y) g with
    frags := g.frags.map fun f => { f with k0 := 0xF } }
/-- What v r of thread t, or g r, holds after an instruction. -/
def laneAfter (s : State) (i : Instr) (r t : Nat) : Option W32 :=
  ((nextOf (exec i s)).bind fun s => s.groups.find 0).map fun g => g.readV false r t
def scalarAfter (s : State) (i : Instr) (r : Nat) : Option W32 :=
  ((nextOf (exec i s)).bind fun s => s.groups.find 0).map fun g => g.readG false r
/-- The pc of the first fragment after an instruction. -/
def pcAfter (s : State) (i : Instr) : Option W32 :=
  (((nextOf (exec i s)).bind fun s => s.groups.find 0).bind fun g => g.frags.head?).map fun f => f.pc

set_option maxRecDepth 20000 in
/-- R112, R113: `umovl g5, 0x3F800000` takes two words. -/
theorem test_step_umovl : (groupAfter 64 0x3F8000008ECA0000).map (fun g => (g.readG false 5, g.frags.map fun f => f.pc)) =
    some (0x3F800000, [8]) := by decide
set_option maxRecDepth 20000 in
/-- R142: `tid v1`. -/
theorem test_step_tid : (groupAfter 32 0x13404000).map (fun g => (g.readV false 1 0, g.readV false 1 63)) = some (0, 63) := by decide
set_option maxRecDepth 20000 in
/-- R48: GWIDTH is 64. -/
theorem test_step_sysrd : (groupAfter 32 0xB0C20000).map (fun g => g.readG false 1) = some 64 := by decide
set_option maxRecDepth 20000 in
/-- R104: `exitg` of a group with nothing outstanding frees its slot. -/
theorem test_step_exitg : (afterWord 32 0x9F200000).map (fun s => s.groups.entries.length) = some 0 := by decide
set_option maxRecDepth 20000 in
/-- R126, R401: `trap 5` without a handler ends the launch with STATUS 4, cause 8 and the code. -/
theorem test_step_trap : ((afterWord 32 0xB2000005).bind fun s => (s.launches.find 1).bind fun l => l.ending) =
    some ⟨4, 8, 0, 4, 0xB2000005, 5⟩ := by decide
set_option maxRecDepth 20000 in
/-- R53: an illegal word traps with cause 1. -/
theorem test_step_illegal : ((afterWord 32 0).bind fun s => (s.launches.find 1).bind fun l => l.ending) =
    some ⟨4, 1, 0, 0, 0, 0⟩ := by decide

/-- R137: addition wraps modulo 2^32. -/
theorem test_add_wraps : laneAfter (withLanes 0xFFFFFFFF 2) (.add false 3 1 2) 3 2 = some 1 := by decide
/-- R112: −7 / 2 is −3, and the remainder has the sign of the dividend; a quotient by 0 is all ones. -/
theorem test_division : laneAfter (withLanes 0xFFFFFFF9 2) (.divS32 false 3 1 2) 3 0 = some 0xFFFFFFFD ∧
    laneAfter (withLanes 0xFFFFFFF9 2) (.remS32 false 3 1 2) 3 0 = some 0xFFFFFFFF ∧
    laneAfter (withLanes 7 0) (.divZ32 false 3 1 2) 3 0 = some 0xFFFFFFFF ∧
    laneAfter (withLanes 7 0) (.remZ32 false 3 1 2) 3 0 = some 7 := by decide
/-- R112: the high half of a product, signed and unsigned. -/
theorem test_mulh : laneAfter (withLanes 0xFFFFFFFF 0xFFFFFFFF) (.mulhS32 false 3 1 2) 3 0 = some 0 ∧
    laneAfter (withLanes 0xFFFFFFFF 0xFFFFFFFF) (.mulhZ32 false 3 1 2) 3 0 = some 0xFFFFFFFE := by decide
/-- R139: a bit field of 8 bits from bit 4, sign-extended. -/
theorem test_bfx : laneAfter (withLanes 0x00000FF0 0x104) (.bfxS32 false 3 1 2) 3 0 = some 0xFFFFFFFF ∧
    laneAfter (withLanes 0x00000FF0 0x104) (.bfxZ32 false 3 1 2) 3 0 = some 0xFF := by decide
/-- R146: 1 + 2 = 3 in f32; 1 + 2^−24 is a tie and rounds to even. -/
theorem test_fadd : laneAfter (withLanes 0x3F800000 0x40000000) (.fadd false .f32 3 1 2) 3 3 = some 0x40400000 ∧
    laneAfter (withLanes 0x3F800000 0x33800000) (.fadd false .f32 3 1 2) 3 3 = some 0x3F800000 := by decide
/-- R140: −1 < 1, and the mask of a comparison. -/
theorem test_icmp : ((nextOf (exec (.icmp false .lt 2 1 2) (withLanes 0xFFFFFFFF 1))).bind fun s => s.groups.find 0).map
    (fun g => g.k.getZ 2) = some 0xF := by decide
/-- R45: g0 discards a write. -/
theorem test_g0 : scalarAfter placed (.umovl false 96 7) 0 = some 0 := by decide
/-- R43, R113: `ucmp` writes 1 or 0. -/
theorem test_ucmp : scalarAfter (withLanes 3 4) (.ucmp false .lt 97 1 2) 1 = some 1 := by decide
/-- R100: a branch of 3 words. -/
theorem test_bra : pcAfter placed (.bra false 3) = some 12 := by decide
/-- R100: `call` leaves the return address in g30. -/
theorem test_call : scalarAfter placed (.call false 5) 30 = some 4 ∧ pcAfter placed (.call false 5) = some 20 := by decide
/-- R90: threads 0 to 31 take a divergent branch. -/
theorem test_bdiv : ((nextOf (exec (.bdiv false 1 6 10) (withGroup fun g => { g with k := g.k.setZ 1 0xFFFFFFFF }))).bind
    fun s => s.groups.find 0).map (fun g => (g.frags.map fun f => (f.pc, f.threads), g.splits.map fun e => e.reconvPc)) =
    some ([(8, 0xFFFFFFFF00000000), (24, 0xFFFFFFFF)], [40]) := by decide
/-- R62, R194: a load sends its value and does not yet write it; VARIABLE_LATENCY_RESULT writes it. -/
theorem test_load : laneAfter (withLanes 5 0) (.ld false .b32 1 2 .relaxed .group) 1 0 = some 5 ∧
    ((nextOf (exec (.ld false .b32 1 2 .relaxed .group) (withLanes 5 0))).bind fun s =>
      (nextOf (exec (.variableLatencyResult 0 0 0 (-1)) s)).bind fun s => s.groups.find 0).map (fun g => g.readV false 1 0) = some 0 := by
  decide
/-- R196: where every thread stores to one address the highest thread wins, and little-endian order. -/
theorem test_store : ((nextOf (exec (.st false .b32 1 2 .relaxed .group) { withLanes 5 8 with
      groups := (withLanes 5 8).groups.modify 0 fun g => (g.writeV false 1 3 0x13F).writeV false 1 2 0x777 })).map fun s =>
        (s.mem.byte (unitKey 0 8), s.mem.byte (unitKey 0 9), s.mem.byte (unitKey 0 12))) = some (63, 1, 0) := by decide
/-- R198: four threads add 1 to one word. -/
theorem test_atomic : ((nextOf (exec (.atomAdd false 1 2 .relaxed .group .unit) (withLanes 1 8))).map fun s =>
    s.mem.byte (unitKey 0 8)) = some 4 := by decide
/-- R177, R190: an access past the allocation. -/
theorem test_unit_range : (((nextOf (exec (.ld false .b32 1 2 .relaxed .group) (withLanes 0 0x10000))).bind fun s =>
    s.launches.find 1).bind fun l => l.ending.map fun e => (e.status, e.detail)) = some (4, 10) := by decide
/-- R119: the only group of a team releases its barrier at once. -/
theorem test_barrier : ((nextOf (exec (.barT false 0) placed)).bind fun s => s.groups.find 0).map
    (fun g => g.frags.map fun f => (f.pc, f.wait)) = some [(4, .none)] := by decide
/-- R117: a handle that no operation has is complete. -/
theorem test_htest : scalarAfter placed (.htest false 97 98) 1 = some 1 := by decide
/-- R171: the thread of rank j pushes entry j. -/
theorem test_push : ((nextOf (exec (.push false 1 3) { withLanes 9 0 with
    queues := (placed.putQueue 0 3 ⟨some 0, [], 0⟩).queues })).map fun s => (s.queue 0 3).items) = some [9, 9, 9, 9] := by decide
/-- R281: `tcfg` is issued as an operation of class 1, and its shape holds at once. -/
theorem test_tcfg : ((nextOf (exec (.tcfg false 5 0 true 3 127 2) placed)).map fun s =>
    (((s.groups.find 0).map fun g => (g.cls 1).ops.length), (s.teams.find 0).map fun t => t.tileShape 5)) =
    some (some 1, some ⟨128, 128, 4, true, false, 0⟩) := by decide
/-- R333: outside record mode `rstat` 2 reads the segment as 0xFFFFFFFF. -/
theorem test_rstat : scalarAfter placed (.rstat false 97 2) 1 = some 0xFFFFFFFF := by decide
/-- R457: `cstat` 1 reads the 36 ports up. -/
theorem test_cstat : scalarAfter placed (.cstat false 97 1) 1 = some 36 := by decide

/-- The load hod of core 0 runs, with x1 = 0x2008 and x2 = −1. -/
def hodState : State :=
  let s := State.reset.placeHod 0
  { s.putHod 0 false { s.hod 0 false with x := ((s.hod 0 false).x.setZ 1 0x2008).setZ 2 (-1) } with cur := .hod 0 false }
def hodAfter (i : Instr) : Option Hod := (nextOf (exec i hodState)).map fun s => s.hod 0 false
/-- R469: `addi x3, x2, 2` is 1, and x0 stays 0. -/
theorem test_hod_addi : (hodAfter (.hodInstruction false (.opImm .addi 3 2 2))).map (fun h => (h.reg 3, h.pc)) = some (1, 4) ∧
    (hodAfter (.hodInstruction true (.opImm .addi 0 2 2))).map (fun h => (h.reg 0, h.pc)) = some (0, 2) := by decide
/-- R471: ECALL halts a hod with CAUSE 6. -/
theorem test_hod_ecall : (hodAfter .ecall).map (fun h => (h.status, h.cause)) = some (3, 6) := by decide

/-- R486: POWER_GOOD from reset makes the module ready. -/
theorem test_power_good : ((nextOf (exec (.powerGood 0 []) State.reset)).map fun s => (s.ready, s.stage)) = some (true, 6) := by decide
/-- R486: bring-up that stops at stage 3 fails there. -/
theorem test_bring_up_fails : ((nextOf (exec (.powerGood 3 []) State.reset)).map fun s => (s.ready, s.failed, s.stage)) =
    some (false, true, 3) := by decide
/-- R496: HALT of a core. -/
theorem test_halt : ((nextOf (exec (.halt 5) State.reset)).map fun s => ((s.debugOf 5).halted, (s.debugOf 4).halted)) =
    some (true, false) := by decide

/-! ### Witnesses: states and operands that meet the hypotheses of the statements -/

/-- What the group of core 0 stands in. -/
def ctxOf (s : State) : Ctx := s.ctx.getD default
def x0 : Ctx := ctxOf placed
/-- The place of every thread's access in `withLanes`: four bytes at 8 of the unit store. -/
def place8 (_ : Nat) : Place := ⟨(List.range 4).map fun i => (unitKey 0 (8 + i), .unit 0), some 0⟩


theorem witness_lane : placed.ctx = some x0 ∧ LaneDoes (.add false 1 1 100) (laneTwo false 1 1 100 AluFn.add.value) ∧
    Instr.wellFormed (.add false 1 1 100) = true ∧ x0.ready [1, 100] := ⟨by decide, .add .., by decide, rfl⟩
theorem witness_compare : placed.ctx = some x0 ∧ (7 : Nat) < 8 ∧ x0.ready [2, 127] := ⟨by decide, by decide, rfl⟩
theorem witness_lane_float : placed.ctx = some x0 ∧ FloatDoes (.fadd true .f32 1 2 3) (arithRow true .f32 1 2 3 fpAdd) ∧ x0.ready [2, 3] :=
  ⟨by decide, .fadd .., rfl⟩
/-- −0, the least subnormal number and the greatest finite number of f16. -/
theorem witness_rounding : f16 ∈ [f32, f16, bf16, e4m3, e5m2] ∧ decodeNum f16 false 0x8000 = .fin true 0 (-24) ∧
    decodeNum f16 false 1 = .fin false 1 (-24) ∧ decodeNum f16 false 0x7BFF = .fin false 2047 5 := by decide
theorem witness_lane_sent : placed.ctx = some x0 ∧
    SendDoes (.all false 1 2) (voteRow false 1 2 fun x => x.active.all fun t => decide (x.lane 2 t ≠ 0)) ∧ x0.ready [2] :=
  ⟨by decide, .all .., rfl⟩
theorem witness_reduction : (List.replicate 64 (3 : W32)).length = 64 ∧ ReduceOp.or ∈ [ReduceOp.addS32, .minS32, .maxS32, .and, .or] := by decide

/-- A result for v5 of threads 0 and 1, one for k3, one for a handle in g4, and one with flags. -/
def lanesPend : Pend := ⟨false, 7, 3, 3, pendVals 5 (fun t => [BitVec.ofNat 32 (t + 9)]) (threadsOf 3), none, none, 0, none, 0, 0⟩
def maskPend : Pend := ⟨false, 7, 3, 3, Map.empty, some (3, 1), none, 0, none, 0, 0⟩
def handlePend : Pend := ⟨false, 7, 0, 0, Map.empty, none, some ⟨4, 0x10000001, none⟩, 0, none, 0, 0⟩
def flagPend : Pend := ⟨false, 7, 3, 3, Map.empty, none, none, 16, none, 0, 0⟩
theorem witness_lanes_land : (withGroup fun g => { g with pend := [lanesPend] }).groups.find (slotKey 0 0) =
      some { x0.g with pend := [lanesPend] } ∧ lanesPend.handle = none ∧ lanesPend.mask = none ∧ lanesPend.flags = 0 ∧
    lanesPend.vals = pendVals 5 (fun t => [BitVec.ofNat 32 (t + 9)]) (threadsOf 3) ∧ lanesPend.stamp = 0 ∧
    ({ x0.g with pend := [lanesPend] } : Group).queuesBehind 0 = false := by decide
/-- A result of `sfu` of a handler behind one of the interrupted code. -/
theorem witness_queues_behind : ({ x0.g with pend := [{ lanesPend with word := 0x1D000000 },
    { lanesPend with word := 0x1D000000, handlerBank := true }] } : Group).queuesBehind 1 = true := by decide
theorem witness_mask_lands : (withGroup fun g => { g with pend := [maskPend] }).groups.find (slotKey 0 0) =
      some { x0.g with pend := [maskPend] } ∧ maskPend.handle = none ∧ maskPend.mask = some (3, 1) ∧ maskPend.flags = 0 ∧
    maskPend.vals = Map.empty ∧ maskPend.threads &&& ~~~(3 : Mask) = 0 ∧ maskPend.stamp = 0 ∧
    ({ x0.g with pend := [maskPend] } : Group).queuesBehind 0 = false := by decide
theorem witness_handle_lands : (withGroup fun g => { g with pend := [handlePend] }).groups.find (slotKey 0 0) =
      some { x0.g with pend := [handlePend] } ∧ handlePend.handle = some ⟨4, 0x10000001, none⟩ ∧ handlePend.flags = 0 ∧ (4 : Nat) ≠ 0 ∧
    ({ x0.g with pend := [handlePend] } : Group).queuesBehind 0 = false ∧ x0.g.due = [] := by decide
/-- Flags that no exception is enabled for, flags that are held in handler mode, and flags that trap. -/
theorem witness_flags_land : placed.groups.find (slotKey 0 0) = some x0.g ∧ flagPend.flags &&& flagPend.trapen = 0 ∧
    flagPend.flags &&& ({ flagPend with trapen := 31 } : Pend).trapen ≠ 0 ∧ ({ x0.g with handler := true } : Group).held = none ∧
    ({ x0.g with held := some ⟨7, 1⟩ } : Group).held = some ⟨7, 1⟩ ∧
    flagPend.handlerBank = false ∧ x0.g.holderOf flagPend.issued = some 0 ∧ x0.g.frags[0]? = some x0.f := by decide

/-- The last result of threads 0 and 1 with its flags, and the fragment that takes a trap of it. -/
def lastPend : Pend := { lanesPend with flags := 16, trapen := 16 }
theorem witness_last_lands : (withGroup fun g => { g with pend := [lastPend] }).groups.find (slotKey 0 0) =
      some { x0.g with pend := [lastPend] } ∧ lastPend.threads &&& ~~~(3 : Mask) = 0 ∧ lastPend.flags &&& lastPend.trapen ≠ 0 ∧
    ({ x0.g with pend := [lastPend] } : Group).queuesBehind 0 = false ∧ x0.g.handler = false ∧ x0.g.trapsIn lastPend.issued 0 :=
  ⟨by decide, by decide, by decide, by decide, by decide, .inl ⟨0, x0.f, by decide, by decide, fun u h => absurd h (by omega), by decide,
    by decide, fun j _ h => absurd h (by omega)⟩⟩
/-- The threads of a result have ended. -/
theorem witness_last_holder : ({ x0.g with frags := [{ x0.f with threads := 4 }] } : Group).trapsIn 3 0 := by
  refine .inr ⟨fun t ht h => ?_, rfl⟩
  obtain ⟨h3, f, hf, h4⟩ := h
  have hf : f = { x0.f with threads := 4 } := by simpa using hf
  subst hf
  revert t; decide

/-- Threads 0 to 3 access the word at 8 of the unit store. -/
def lanes : State := withLanes 5 8
def xl : Ctx := ctxOf lanes
set_option maxRecDepth 20000 in
theorem granted_lanes (a : Access) (h : a = .read ∨ a = .write ∨ a = .atomic) :
    xl.granted lanes a (MemRow.req ⟨false, .b32, 1, 2, .relaxed, .group, 0, .unit⟩ xl) place8 := by
  unfold Ctx.granted
  rcases h with rfl | rfl | rfl <;> decide
theorem witness_load : lanes.ctx = some xl ∧ LoadDoes (.ld false .b32 1 2 .relaxed .group) ⟨false, .b32, 1, 2, .relaxed, .group, 0, .unit⟩ ∧
    xl.ready (addressRegs .unit 2 0) ∧ xl.granted lanes .read (MemRow.req ⟨false, .b32, 1, 2, .relaxed, .group, 0, .unit⟩ xl) place8 ∧
    xl.deferredFailure lanes .relaxed .group = false :=
  ⟨by decide, .ld .., rfl, granted_lanes _ (by simp), by decide⟩
theorem witness_store : lanes.ctx = some xl ∧ StoreDoes (.st false .b32 1 2 .relaxed .group) ⟨false, .b32, 1, 2, .relaxed, .group, 0, .unit⟩ ∧
    lanes.mem.wf = true ∧ xl.ready [1, 2] ∧
    xl.granted lanes .write (MemRow.req ⟨false, .b32, 1, 2, .relaxed, .group, 0, .unit⟩ xl) place8 ∧
    xl.deferredFailure lanes .relaxed .group = false ∧ xl.launch.form ≠ 2 :=
  ⟨by decide, .st .., by decide, rfl, granted_lanes _ (by simp), by decide, by decide⟩
theorem witness_unit_range : (withLanes 0 0x10000).ctx = some (ctxOf (withLanes 0 0x10000)) ∧
    (ctxOf (withLanes 0 0x10000)).launch.form ≠ 2 ∧ (ctxOf (withLanes 0 0x10000)).f.k0.getLsbD 0 = true ∧
    (ctxOf (withLanes 0 0x10000)).team.kernel.unit < ((ctxOf (withLanes 0 0x10000)).lane 2 0).toNat + widthBytes .b8 ∧
    (ctxOf (withLanes 0 0x10000)).ready [2] := ⟨by decide, by decide, by decide, by decide, rfl⟩
/-- The first byte past the end is denied, and the last one is not. -/
theorem witness_unit_place : touchesMerge x0.launch x0.team 0xFFFF 1 = false ∧ 0xFFFF + 1 ≤ x0.team.kernel.unit ∧
    touchesMerge x0.launch x0.team 0x10000 1 = false ∧ ¬0x10000 + 1 ≤ x0.team.kernel.unit := by decide
theorem witness_atomic : lanes.ctx = some xl ∧ AtomDoes (.atomAdd false 1 2 .relaxed .group .unit)
      (atomRow32 false 1 2 .relaxed .group .unit true fun v y => (v + y) % 2 ^ 32) ∧ xl.ready (atomRegs .unit 2) ∧
    (∀ t, t < 4 → atomReq xl .unit 2 4 t = MemRow.req ⟨false, .b32, 1, 2, .relaxed, .group, 0, .unit⟩ xl t) ∧
    xl.granted lanes .atomic (MemRow.req ⟨false, .b32, 1, 2, .relaxed, .group, 0, .unit⟩ xl) place8 ∧
    xl.deferredFailure lanes .relaxed .group = false ∧ xl.launch.form = 0 ∧ xl.offHost place8 ∧
    ((place8 0).bytes.map (·.1)).Nodup ∧ ∀ b ∈ (place8 0).bytes, lanes.lostSite b.2 = none :=
  ⟨by decide, .add .., rfl, by decide, granted_lanes _ (by simp), by decide, by decide,
    by intro t _ _ b hb port; simp [place8] at hb; rcases hb with ⟨i, _, rfl⟩; simp, by decide, by decide⟩
/-- The staging of the core has room for four contributions. -/
theorem witness_ordered_atomic : lanes.ctx = some xl ∧ xl.ready (atomRegs .unit 2) ∧
    (∀ t, t < 64 → xl.f.k0.getLsbD t = true → (lanes.staging.filter fun e => e.home = ((place8 t).home lanes.tick).1).length +
        lanes.onTheWay ((place8 t).home lanes.tick).1 + (xl.active.filter fun u => ((place8 u).home lanes.tick).1 = ((place8 t).home lanes.tick).1).length ≤ ((place8 t).home lanes.tick).2) ∧
    ((place8 0).bytes.map (·.1)).length = 4 := ⟨by decide, rfl, by decide, by decide⟩

theorem witness_uniform : placed.ctx = some x0 ∧ UniDoes (.uadd false 5 1 100) (uniTwo false 5 1 100 AluFn.add.value) ∧ x0.ready [1, 100] ∧
    x0.f.k0.getLsbD 0 = true := ⟨by decide, .uadd .., rfl, by decide⟩
theorem witness_register_zero : placed.ctx = some x0 ∧ UniDoes (.umov false 96 1) (uniOne false 96 1 fun a => a) ∧ x0.ready [1] ∧
    x0.f.looping = false ∧ x0.legal (x0.wordsAway 5) := ⟨by decide, .umov .., rfl, by decide, by unfold Ctx.legal; decide⟩
theorem witness_mask : placed.ctx = some x0 ∧ MaskDoes (.kfrom false 0 98)
    ⟨false, 0, [98, 99], fun x t => if t < 32 then (x.uni 98).getLsbD t else (x.uni 99).getLsbD (t - 32)⟩ ∧ x0.ready [98, 99] :=
  ⟨by decide, .kfrom .., rfl⟩
/-- A legal target, one past the code section, and one before it. -/
theorem witness_branch : placed.ctx = some x0 ∧ x0.f.looping = false ∧ x0.legal (x0.wordsAway 3) ∧ ¬x0.legal (x0.wordsAway 1000) ∧
    ¬x0.legal (x0.wordsAway (-1)) ∧ JumpDoes (.bra false 3)
      ⟨false, [], fun x => some (x.wordsAway (3 : BitVec 24).toInt), fun _ => True, fun x => x.wordsOn 1, fun _ => none⟩ ∧ x0.ready [] :=
  ⟨by decide, by decide, by unfold Ctx.legal; decide, by unfold Ctx.legal; decide, by unfold Ctx.legal; decide, .bra .., rfl⟩
/-- A `brc` that is not taken, and a group in a loop body. -/
theorem witness_branch_in_loop : ¬branchHolds x0 .nez 96 ∧
    (withGroup fun g => { g with frags := g.frags.map fun f => { f with looping := true } }).ctx.isSome = true ∧
    (ctxOf (withGroup fun g => { g with frags := g.frags.map fun f => { f with looping := true } })).f.looping = true ∧
    (ctxOf (withGroup fun g => { g with frags := g.frags.map fun f => { f with looping := true } })).g.handler = false :=
  ⟨by unfold branchHolds; decide, by decide, by decide, by decide⟩

/-- A store to the die store in merge form, with room in the merge buffer. -/
def merging : State := { lanes with
  launches := lanes.launches.modify 1 fun l => { l with form := 2, mb := 4096 } }
def xm : Ctx := ctxOf merging
def placeDie (_ : Nat) : Place := ⟨(List.range 4).map fun i => (dieKey 0 (8 + i), .die 0), none⟩
set_option maxRecDepth 20000 in
theorem witness_merge_store : merging.ctx = some xm ∧ xm.launch.form = 2 ∧
    (∀ t, t < 64 → xm.f.k0.getLsbD t = true →
      checkAccess xm merging .write (MemRow.req ⟨false, .b32, 1, 2, .relaxed, .group, 0, .die⟩ xm t) = .ok (placeDie t)) ∧
    (∀ t, t < 4 → isOutward xm (MemRow.req ⟨false, .b32, 1, 2, .relaxed, .group, 0, .die⟩ xm t) (placeDie t) = true) ∧
    16 * (xm.team.merge.length + 4) ≤ (mergeBuffer xm.launch xm.team).2 - (mergeBuffer xm.launch xm.team).1 := by decide

/-- The wait is not at a team or cluster barrier. -/
def noBarrier (w : Wait) : Bool := match w with
  | .barrier .. => false
  | _ => true
theorem none_at_barrier (s : State)
    (h : (s.groups.entries.all fun e => e.2.frags.all fun f => noBarrier f.wait && noBarrier f.saved) = true) : s.noneAtBarrier := by
  intro e he f hf fn id
  have hb := List.all_eq_true.mp (List.all_eq_true.mp h e he) f hf
  simp only [Bool.and_eq_true] at hb
  constructor
  · revert hb; cases f.wait <;> simp [noBarrier, atBarrier]
  · revert hb; cases f.saved <;> simp [noBarrier, atBarrier]

/-- No thread takes a branch on k1, all do on k0, and threads 0 to 3 do on k2. -/
def diverging : State := withGroup fun g => { g with k := g.k.setZ 2 0xF }
theorem witness_bdiv : diverging.ctx = some (ctxOf diverging) ∧ (ctxOf diverging).legal ((ctxOf diverging).wordsAway 6) ∧
    (ctxOf diverging).f.k0 &&& (ctxOf diverging).mask 1 = 0 ∧ (ctxOf diverging).f.k0 &&& ~~~(ctxOf diverging).mask 0 = 0 ∧
    (ctxOf diverging).f.k0 &&& (ctxOf diverging).mask 2 ≠ 0 ∧ (ctxOf diverging).f.k0 &&& ~~~(ctxOf diverging).mask 2 ≠ 0 ∧
    (ctxOf diverging).g.splits.length < 16 ∧ (ctxOf diverging).g.entries.length < 64 := by unfold Ctx.legal; decide
/-- Threads 0 to 3 wait at the join at 40, and the others arrive there. -/
def early : Fragment := ⟨40, 0xF, 0xF, some 7, .join false, .none, false, false, none, 0, 0, 0, none⟩
def late : Fragment := ⟨40, 0xFFFFFFFFFFFFFFF0, 0xFFFFFFFFFFFFFFF0, some 7, .none, .none, false, false, none, 0, 0, 0, none⟩
def split7 : Split := ⟨-1, 24, 8, 40, 7, none, 0⟩
def joining : State := { withGroup fun g => { g with frags := [early, late], splits := [split7] } with cur := .group 0 0 1 }
theorem witness_join : joining.ctx = some (ctxOf joining) ∧ (ctxOf joining).g.spilled = [] ∧ joining.noneAtBarrier ∧
    (ctxOf joining).f = late ∧ (ctxOf joining).g.splits = [split7] ∧ late.inner = some split7.num ∧ early.inner = some split7.num ∧
    split7.mask &&& ~~~(late.threads ||| early.threads) = 0 ∧ split7.mask &&& ~~~late.threads ≠ 0 ∧
    split7.mask &&& ~~~early.threads ≠ 0 ∧ split7.parent ≠ some split7.num ∧ (ctxOf joining).g.frags = [early, (ctxOf joining).f] :=
  ⟨by decide, by decide, none_at_barrier _ (by decide), by decide, by decide, by decide, by decide, by decide, by decide, by decide,
    by decide, by decide⟩
def splitN (n : Nat) : Split := ⟨-1, 24, 8, 40, n, none, n⟩
/-- The spill region of the launch is mapped onto the host's memory at 0x1000. -/
def spillable (f : Group → Group) : State := { withGroup f with
  mem := ⟨[(0, 0x3B), (7, 1)]⟩
  launches := placed.launches.modify 1 fun l => { l with spill := 0x1000 } }
/-- 16 split entries are resident, and threads 0 to 3 diverge. -/
def full : State := spillable fun g => { g with k := g.k.setZ 2 0xF, splits := (List.range 16).map splitN }
def hostPlaces (a : Nat) : List Nat := (List.range 32).map fun i => hostKey 0 (a + i)
set_option maxRecDepth 20000 in
theorem witness_spill : full.ctx = some (ctxOf full) ∧ full.mem.wf = true ∧ (ctxOf full).g.splits.length = 16 ∧
    (ctxOf full).g.entries.length < 64 ∧ (ctxOf full).g.hasSplit (splitN 0) ∧ (splitN 0).small ∧
    (∀ e ∈ (ctxOf full).g.splits, e ≠ splitN 0 → (splitN 0).age < e.age) ∧
    (ctxOf full).spillsTo full (ctxOf full).g.spilled 0 (hostPlaces 0x1000) ∧
    (ctxOf full).f.k0 &&& (ctxOf full).mask 2 ≠ 0 ∧ (ctxOf full).f.k0 &&& ~~~(ctxOf full).mask 2 ≠ 0 := by
  unfold Group.hasSplit Split.small Ctx.spillsTo
  exact ⟨by decide, by decide, by decide, by decide, by decide, ⟨by decide, nofun⟩, by decide,
    ⟨by decide, by decide, by decide, by decide, by decide, by decide⟩, by decide, by decide⟩
/-- Entry 5 of a full table has been spilled to slot 0, and the fragment that holds some of its threads arrives at its join. -/
def refilling : State := { spillable fun g => { g with
    frags := [⟨40, 0xF, 0xF, some 20, .none, .none, false, false, none, 0, 0, 0, none⟩]
    splits := (List.range 16).map splitN
    spilled := [(0, splitN 20)] } with
  mem := ((⟨[(0, 0x3B), (7, 1)]⟩ : Memory).putBytes (hostKey 0 0x1000) (splitN 20).bytes) }
set_option maxRecDepth 20000 in
theorem witness_refill : refilling.ctx = some (ctxOf refilling) ∧ refilling.mem.wf = true ∧ refilling.noneAtBarrier ∧
    (ctxOf refilling).g.spilled = [] ++ [(0, splitN 20)] ∧ (splitN 20).small ∧
    (ctxOf refilling).spillPlaces refilling .read ((ctxOf refilling).slotAddress 0) 32 = .ok (hostPlaces 0x1000) ∧
    refilling.slotHolds (hostPlaces 0x1000) (splitN 20) ∧ (∀ q ∈ (ctxOf refilling).g.splits, q.num ≠ 20) ∧
    (ctxOf refilling).f.inner = some 20 ∧ (splitN 20).reconvPc = (ctxOf refilling).f.pc ∧ (splitN 20).spread (ctxOf refilling).f.threads ∧
    (ctxOf refilling).g.noOtherJoins [0] ∧ (ctxOf refilling).g.splits.length = 16 ∧ (ctxOf refilling).g.hasSplit (splitN 0) ∧
    (∀ q ∈ (ctxOf refilling).g.splits, q ≠ splitN 0 → (splitN 0).age < q.age) ∧
    (ctxOf refilling).spillsTo refilling [] 0 (hostPlaces 0x1000) := by
  have hf : (ctxOf refilling).g.frags = [(ctxOf refilling).f] := by decide
  refine ⟨by decide, by decide, none_at_barrier _ (by decide), by decide, ⟨by decide, nofun⟩, by decide, by unfold State.slotHolds; decide,
    by decide, by decide, by decide, by unfold Split.spread; decide, ?_, by decide, by unfold Group.hasSplit; decide, by decide, 
    ⟨by decide, by decide, by decide, by decide, by decide, by decide⟩⟩
  intro i f h hi
  rw [hf] at h
  cases i with
  | zero => simp at hi
  | succ n => simp at h
/-- Only listed fragments wait at a join. -/
theorem no_other_joins (g : Group) (l : List Nat)
    (h : ((List.range g.frags.length).all fun i => l.contains i || !((g.frags[i]?.map (·.joins)).getD false)) = true) : g.noOtherJoins l := by
  intro i f hf hi
  have := List.all_eq_true.mp h i (List.mem_range.mpr (List.getElem?_eq_some_iff.mp hf).1)
  simpa [hf, hi] using this
/-- The first of two fragments arrives at the join; and entry 20 is spilled while the second does. -/
def arriving : State := withGroup fun g => { g with frags := [late], splits := [split7] }
def half (t : Mask) (w : Wait) : Fragment := ⟨40, t, t, some 7, w, .none, false, false, none, 0, 0, 0, none⟩
def split8 : Split := ⟨0xFF, 24, 8, 40, 7, none, 0⟩
def fusing : State := { spillable fun g => { g with
    frags := [half 0xF (.join false), half 0xF0 .none]
    splits := [split8]
    spilled := [(0, splitN 20)] } with
  mem := ((⟨[(0, 0x3B), (7, 1)]⟩ : Memory).putBytes (hostKey 0 0x1000) (splitN 20).bytes)
  cur := .group 0 0 1 }
set_option maxRecDepth 20000 in
theorem witness_join_waits : arriving.ctx = some (ctxOf arriving) ∧ (ctxOf arriving).g.hasSplit split7 ∧ arriving.noneAtBarrier ∧
    split7.spread (ctxOf arriving).f.threads ∧ (ctxOf arriving).g.noOtherJoins [0] ∧ fusing.ctx = some (ctxOf fusing) ∧
    (ctxOf fusing).f = half 0xF0 .none ∧ (ctxOf fusing).g.hasSplit split8 ∧ (∀ p ∈ (ctxOf fusing).g.spilled, p.2.num ≠ 7) ∧
    (ctxOf fusing).spillPlaces fusing .read ((ctxOf fusing).slotAddress 0) 32 = .ok (hostPlaces 0x1000) ∧
    fusing.slotHolds (hostPlaces 0x1000) (splitN 20) ∧ split8.spread 0xF ∧ split8.spread 0xF0 ∧
    split8.mask &&& ~~~((0xF0 : Mask) ||| 0xF) = 0 ∧ (ctxOf fusing).g.noOtherJoins [1, 0] ∧
    (∀ q ∈ (ctxOf fusing).g.entries, q ≠ split8 → q.parent ≠ some 7 ∧ q.spread split8.mask ∧ ∀ f ∈ (ctxOf fusing).g.frags, q.spread f.threads) := by
  unfold Group.hasSplit Split.spread State.slotHolds
  exact ⟨by decide, by decide, none_at_barrier _ (by decide), by decide, no_other_joins _ _ (by decide), by decide, by decide, by decide,
    by decide, by decide, by decide, by decide, by decide, by decide, no_other_joins _ _ (by decide), by decide⟩
/-- Two fragments with sibling entries meet at a `joinl`, and a third holds the rest of both entries. -/
def mine9 : Split := ⟨0xF0FF0, 24, 8, 40, 9, none, 1⟩
def theirs7 : Split := ⟨0xF00F, 24, 8, 40, 7, none, 0⟩
def meeting : State := { withGroup fun g => { g with
    frags := [half 0xF (.join true), { half 0xFF0 .none with inner := some 9 }, { half 0xFF000 .none with pc := 8 }]
    splits := [theirs7, mine9] } with cur := .group 0 0 1 }
theorem witness_joinl : meeting.ctx = some (ctxOf meeting) ∧ meeting.noneAtBarrier ∧ (ctxOf meeting).g.hasSplit mine9 ∧
    (ctxOf meeting).g.hasSplit theirs7 ∧ (ctxOf meeting).f.inner = some 9 ∧ (ctxOf meeting).g.noOtherJoins [1, 0] ∧
    mine9.spread (ctxOf meeting).f.threads ∧ theirs7.spread 0xF ∧ (ctxOf meeting).launch.form = 0 ∧
    (mine9.mask ||| theirs7.mask) &&& ~~~((ctxOf meeting).f.threads ||| 0xF) ≠ 0 ∧
    (∀ q ∈ (ctxOf meeting).g.splits, ∀ f ∈ (ctxOf meeting).g.frags,
      { q with mask := if q = mine9 ∨ q = theirs7 then mine9.mask ||| theirs7.mask else q.mask }.spread f.threads) := by
  unfold Group.hasSplit Split.spread
  exact ⟨by decide, none_at_barrier _ (by decide), by decide, by decide, by decide, no_other_joins _ _ (by decide), by decide, by decide,
    by decide, by decide, by decide⟩
/-- Two of four threads of a fragment exit inside a split, and all of them do while the other side waits at the join. -/
def leavingSplit (k0 : Mask) (w : Wait) : State := withGroup fun g => { g with
  frags := [{ half 0xF .none with k0 := k0, pc := 8 }, half 0xF0 w], splits := [split8] }
theorem witness_exit_in_split : (leavingSplit 3 .none).ctx = some (ctxOf (leavingSplit 3 .none)) ∧ (leavingSplit 3 .none).noneAtBarrier ∧
    (∀ f ∈ (ctxOf (leavingSplit 3 .none)).g.frags, f.joins = false) ∧ (0xF : Mask) &&& ~~~3 ≠ 0 ∧
    ({ split8 with mask := split8.mask &&& ~~~3 } : Split).spread (0xF &&& ~~~3) ∧
    ({ split8 with mask := split8.mask &&& ~~~3 } : Split).spread 0xF0 ∧
    (leavingSplit 0xF (.join false)).ctx = some (ctxOf (leavingSplit 0xF (.join false))) ∧
    (ctxOf (leavingSplit 0xF (.join false))).g.frags[1]? = some (half 0xF0 (.join false)) ∧
    (ctxOf (leavingSplit 0xF (.join false))).g.hasSplit split8 ∧
    (ctxOf (leavingSplit 0xF (.join false))).g.noOtherJoins [0, 1] ∧ (split8.mask &&& ~~~0xF) &&& ~~~(0xF0 : Mask) = 0 := by
  unfold Split.spread Group.hasSplit
  exact ⟨by decide, none_at_barrier _ (by decide), by decide, by decide, by decide, by decide, by decide, by decide, by decide,
    no_other_joins _ _ (by decide), by decide⟩
theorem witness_exit : lanes.ctx = some xl ∧ xl.g.handler = false ∧ xl.f.looping = false ∧ xl.g.splits = [] ∧ xl.g.spilled = [] ∧
    (∀ f ∈ xl.g.frags, f.joins = false) ∧ lanes.noneAtBarrier ∧ xl.f.threads &&& ~~~xl.f.k0 ≠ 0 :=
  ⟨by decide, by decide, by decide, by decide, by decide, by decide, none_at_barrier _ (by decide), by decide⟩
theorem witness_group_ends : placed.ctx = some x0 ∧ x0.g.frags = [x0.f] ∧ x0.frag = 0 ∧ x0.f.threads &&& ~~~x0.f.k0 = 0 ∧
    (∀ k ∈ x0.g.classes.values, k.ops = []) ∧ x0.g.step = none ∧ x0.g.log = none ∧ x0.g.late = [] ∧ x0.team.leaving ≠ 3 ∧
    placed.noneAtBarrier :=
  ⟨by decide, by decide, by decide, by decide, by decide, by decide, by decide, by decide, by decide, none_at_barrier _ (by decide)⟩
/-- A bin of the die holds records of the launch for the entry at 16. -/
def spawning : State := { lanes with
  launches := lanes.launches.modify 1 fun l => { l with kernel := { l.kernel with spawnPool := 1 } }
  bins := [(0, ⟨1, 16, []⟩)] }
theorem witness_spawn : spawning.ctx = some (ctxOf spawning) ∧ (ctxOf spawning).launch.image.holds (16 : W32).toNat = true ∧
    (ctxOf spawning).legal ((ctxOf spawning).wordsAway 4) ∧ (ctxOf spawning).launch.kernel.spawnPool ≠ 0 ∧ (ctxOf spawning).binTakes spawning 0 16 (ctxOf spawning).f.k0 ∧
    (ctxOf spawning).f.threads &&& ~~~(ctxOf spawning).f.k0 ≠ 0 :=
  ⟨by decide, by decide, by unfold Ctx.legal; decide, by decide,
    ⟨by decide, by decide, by decide, by decide, by decide, by decide, by intro b h; cases h; decide⟩, by decide⟩

/-- The last word of a body of two words, at the end of which v1 steps, and the group runs the body. -/
def looping : State := withGroup fun g => { g with
  loops := [⟨0, 8, 16, 0, 0, 0, 0, 0, 0, 1⟩], lc := g.lc.setZ 0 2
  frags := g.frags.map fun f => { f with pc := 12, looping := true } }
theorem witness_loop : placed.ctx = some x0 ∧ (∀ f ∈ x0.g.frags, f.looping = false) ∧ x0.launch.image.opensTwo (x0.wordsOn 3).toNat = false ∧
    x0.ready [98, 127] ∧ x0.uni 98 = 0 ∧ looping.ctx = some (ctxOf looping) ∧
    (ctxOf looping).g.loops = [⟨0, 8, 16, 0, 0, 0, 0, 0, 0, 1⟩] ∧ (ctxOf looping).wordsOn 1 = 16 ∧
    ¬((8 : Int) ≤ (ctxOf looping).wordsAway 5 ∧ (ctxOf looping).wordsAway 5 < 16) :=
  ⟨by decide, by decide, by decide, rfl, by decide, by decide, by decide, by decide, by decide⟩
theorem witness_pause : placed.ctx = some x0 ∧ x0.f.looping = false ∧
    (withGroup fun g => { g with frags := g.frags.map fun f => { f with wait := .paused } }).groups.find (slotKey 0 0) =
      some { x0.g with frags := [{ x0.f with wait := .paused }] } := by decide

theorem witness_sysreg : placed.ctx = some x0 ∧ SysReads placed x0 0x025 (wrap ((x0.g.cls 5).nextSeq * 2 ^ 8 +
      (if ((x0.g.cls 5).ops.headD default).parked.isSome = true then 2 ^ 7 else 0) + (x0.g.cls 5).ops.length : Nat)) ∧ x0.ready [97] ∧
    SysWrites x0.g (x0.uni 97) 0x010 { x0.g with fpmode := wrap ((x0.uni 97).toNat % 2 ^ 9 : Nat) } :=
  ⟨by decide, .classCnt 5 (by decide), rfl, .fpmode⟩
theorem witness_registers : (0x00A : Nat) ∉ sysAssigned ∧ 0x00B ∉ sysWritten ∧ 0x030 ∈ sysAssigned ∧ x0.g.step = none ∧
    (placed.queue 0 0).owner ≠ some x0.g.team ∧ (placed.hod 0 false).claim ≠ some x0.g.team ∧
    (hodState.hod 0 false).claim = some 0 := by decide
/-- An image header at 0 of the unit store, whose code is four bytes at 0, and a free load hod. -/
def hodLoading : State := { placed with mem := ⟨[(unitKey 0 4, 4)]⟩, hods := Map.empty.set 0 Hod.off }
theorem witness_hod_start : hodLoading.ctx = some (ctxOf hodLoading) ∧ hodLoading.hods.find 0 = some Hod.off ∧ Hod.off.ops = [] ∧ Hod.off.late = [] ∧
    Hod.off.status = 0 ∧ Hod.off.claim = none ∧ hodLoading.secureBlock 0 8 = false ∧ (ctxOf hodLoading).team.lhsrc = 0 ∧
    (ctxOf hodLoading).unitNumber hodLoading 4 4 = 4 ∧
    (∀ o, o ∈ [0, 8, 12, 16, 20] → (ctxOf hodLoading).unitNumber hodLoading o 4 = 0) ∧
    (ctxOf hodLoading).unitNumber hodLoading 32 32 = 0 ∧ (ctxOf hodLoading).unitFree hodLoading 0 64 :=
  ⟨by decide, by decide, by decide, by decide, by decide, by decide, by decide, by decide, by decide, by decide, by decide,
    ⟨by decide, by decide, by decide, by decide⟩⟩
theorem witness_hod_stop : hodState.groups.find 0 ≠ none ∧ (hodState.hods.find 0).map (fun h => (h.status, h.claim, h.ops, h.late)) =
    some (2, some 0, [], []) := by decide

/-- The team has a handler at 16. -/
def handling : State := withTeam fun t => { t with kernel := { t.kernel with trapEntry := some 16 } }
theorem witness_trap_entered : handling.ctx = some (ctxOf handling) ∧ handling.mem.wf = true ∧ (ctxOf handling).g.handler = false ∧
    (ctxOf handling).f.looping = false ∧ (ctxOf handling).team.kernel.trapEntry = some 16 ∧
    256 * ((ctxOf handling).g.gix + 1) ≤ (ctxOf handling).team.kernel.unit ∧ (∀ o ∈ ((ctxOf handling).g.cls 1).ops, o.order ≠ 0) ∧
    (handling.debugOf 0).bpen = false := by decide
theorem witness_trap_unhandled : placed.ctx = some x0 ∧ x0.team.kernel.trapEntry = none ∧ x0.f.looping = false ∧ x0.team.kind = 0 ∧
    x0.launch.ending = none := by decide
theorem witness_breakpoint : ({ placed with debugs := Map.empty.set 0 ⟨false, false, true, false⟩ } : State).ctx = some x0 ∧
    (({ placed with debugs := Map.empty.set 0 ⟨false, false, true, false⟩ } : State).debugOf 0).bpen = true := by decide
theorem witness_tret : (withGroup fun g => { g with handler := true }).ctx = some (ctxOf (withGroup fun g => { g with handler := true })) ∧
    (ctxOf (withGroup fun g => { g with handler := true })).g.handler = true ∧
    ∀ p ∈ (ctxOf (withGroup fun g => { g with handler := true })).g.pend, p.handlerBank = false := by decide
/-- One operation of class 2 is outstanding, whose handle stands in g1; the fragment may wait for it already. -/
def calibrating : State := withGroup fun g => { (g.writeG false 1 0x20000001) with
  classes := g.classes.set 2 ⟨2, 1, [⟨1, .issued, false, none, [], 0, .kiln .kcal, 1, 0, 0, []⟩]⟩ }
theorem witness_completion : calibrating.ctx = some (ctxOf calibrating) ∧ (ctxOf calibrating).uni 97 = 0x20000001 ∧
    (((ctxOf calibrating).g.cls 2).ops.any fun o => o.seq = 1) = true ∧ (ctxOf calibrating).ready [97] ∧
    (ctxOf calibrating).g.cls 1 = ⟨1, 0, []⟩ ∧ ((ctxOf calibrating).g.cls 2).ops ≠ [] ∧ (ctxOf calibrating).awaited = none ∧
    ({ ctxOf calibrating with f := { (ctxOf calibrating).f with awaits := some (0, 0x20000001) } } : Ctx).awaited = some 0x20000001 ∧
    ({ ctxOf calibrating with f := { (ctxOf calibrating).f with awaits := some (0, 0x20000002) } } : Ctx).awaited = some 0x20000002 ∧
    (∃ o ∈ ((ctxOf calibrating).g.cls 2).ops, o.seq = 1) ∧ ∀ o ∈ ((ctxOf calibrating).g.cls 2).ops, o.seq ≠ 2 :=
  ⟨by decide, by decide, by decide, rfl, by decide, by decide, by decide, by decide, by decide, by decide, by decide⟩

theorem placed_groups (k : Nat) (g : Group) (h : placed.groups.find k = some g) : k = 0 ∧ g = x0.g := by
  rw [show placed.groups = (Map.empty : Map Group).set 0 x0.g from by decide, Map.find_set] at h
  split at h
  · exact ⟨by assumption, (Option.some.inj h).symm⟩
  · simp at h

/-- The one group of the team: it is the last to arrive. -/
theorem witness_barrier : placed.ctx = some x0 ∧ BarrierDoes x0 false (.barT false 0) 0 0 0 [x0.g.team] ∧ x0.f.looping = false ∧
    atBarrier 0 0 x0.f.saved = false ∧ placed.groups.rising ∧ x0.team.kind ≠ 1 ∧ x0.g.team ∈ [x0.g.team] ∧
    x0.team.core = x0.core ∧ x0.g.handler = false ∧ (∀ f ∈ x0.g.frags, atBarrier 1 0 f.saved = false) ∧
    (∀ j f, x0.g.frags[j]? = some f → j ≠ x0.frag → f.arrivedAt 0 0 = true) ∧
    ∀ k g, placed.groups.find k = some g → k ≠ slotKey x0.core x0.slot → g.team ∈ [x0.g.team] → g.frags ≠ [] →
      ∀ f ∈ g.frags, f.arrivedAt 0 0 = true := by
  refine ⟨by decide, .barT 0, by decide, by decide, by unfold Map.rising; decide, by decide, by decide, by decide, by decide, by decide, ?_, ?_⟩
  · intro j f h hj
    have hf : x0.g.frags = [x0.f] := by decide
    have h0 : x0.frag = 0 := by decide
    rw [hf] at h; rw [h0] at hj
    cases j with
    | zero => exact absurd rfl hj
    | succ n => simp at h
  · intro k g h hk
    exact absurd (placed_groups k g h).1 hk
/-- Package barrier 2 is bound at phase 0xFFFF, and every thread has arrived. -/
def atPackage : State := { withGroup fun g => { g with arrived := g.arrived.setZ 2 (-1) } with
  launches := placed.launches.modify 1 fun l => { l with barriers := l.barriers.set 2 ⟨0xFFFF, true⟩ } }
def xp : Ctx := ctxOf atPackage
theorem witness_package_arrives : atPackage.ctx = some xp ∧ xp.team.kind = 0 ∧ (xp.launch.barrier 2).bound = true ∧ xp.f.looping = false ∧
    (xp.launch.barrier 2).phase < 65536 ∧ xp.ready [1] := ⟨by decide, by decide, by decide, by decide, by decide, rfl⟩
theorem witness_package_releases : atPackage.launches.find 1 = some xp.launch ∧ (xp.launch.barrier 2).bound = true ∧ xp.launch.ending = none ∧
    atPackage.saved = [] ∧ (∀ f ∈ xp.g.frags, f.threads &&& ~~~(xp.g.arrived.getZ 2) = 0) ∧
    (∃ e ∈ atPackage.groups.entries, atPackage.groups.find e.1 = some e.2 ∧ e.2.arrived.getZ 2 ≠ 0 ∧
      ((atPackage.teams.find e.2.team).map fun t => t.launch) = some 1) ∧ atPackage.groups.rising ∧
    (∀ ix, ix < xp.launch.gridx * xp.launch.gridy → ix ∈ xp.launch.ended ∨ ∃ e ∈ atPackage.teams.entries,
      e.2.launch = 1 ∧ e.2.kind = 0 ∧ e.2.teamIx = ix ∧ atPackage.teams.find e.1 = some e.2) ∧ atPackage.mergeLaunch 1 = atPackage :=
  ⟨by decide, by decide, by decide, by decide, by decide, by decide, by unfold Map.rising; decide, by decide, by decide⟩

/-- Queue 3 of the core is the team's, and holds five entries. -/
def queued : State := lanes.putQueue 0 3 ⟨some 0, [1, 2, 3, 4, 5], 0⟩
theorem witness_queue : queued.ctx = some xl ∧ xl.ready [1] ∧ (queued.queue 0 3).owner = some xl.g.team ∧ xl.f.k0 ≠ 0 ∧ xl.launch.form = 0 ∧
    xl.active.length ≤ (queued.queue 0 3).items.length ∧ (queued.queue 0 3).items.length + xl.active.length ≤ 64 ∧
    (queued.queue 0 4).owner ≠ some xl.g.team := ⟨by decide, rfl, by decide, by decide, by decide, by decide, by decide, by decide⟩
/-- A record of rank 1 with four 32-bit elements, at 0 of the unit store. -/
def row4 : IterSlot := ⟨0, 0, 2, 1, false, 0, [4, 0, 0, 0], [4, 0, 0, 0], [0, 0, 0, 0]⟩
def iterating : State := { withGroup fun g => { g with its := g.its.set 1 row4 } with
  mem := ⟨[(unitKey 0 9, 2), (unitKey 0 10, 1), (unitKey 0 16, 4), (unitKey 0 32, 4)]⟩ }
def xi : Ctx := ctxOf iterating
theorem row4_ok : RecordOk row4 := ⟨by decide, by decide, by decide, by decide, by decide, by decide, by decide⟩
theorem witness_iterator : iterating.ctx = some xi ∧ xi.ready [1] ∧ (xi.uni 1).toNat % 64 = 0 ∧ xi.unitFree iterating (xi.uni 1).toNat 64 ∧
    xi.g.sweepBusy 1 = false ∧ iterating.mem.wf = true ∧ RecordOk row4 ∧ RecordAt xi iterating (xi.uni 1).toNat row4 ∧ xi.g.slotIt 1 = row4 :=
  ⟨by decide, rfl, by decide, ⟨by decide, by decide, by decide, by decide⟩, by decide, by decide, row4_ok,
    ⟨by decide, by decide, by decide, by decide, by decide, by decide, by decide, by decide, by decide⟩, by decide⟩
def placeRow (p : Nat) : Place := ⟨(List.range 4).map fun i => (unitKey 0 (4 * p + i), .unit 0), some 0⟩
theorem witness_sweep : iterating.ctx = some xi ∧ xi.g.slotIt 1 = row4 ∧ RecordOk row4 ∧ row4.elem = 2 ∧ xi.f.k0 ≠ 0 ∧ xi.launch.form = 0 ∧
    xi.g.staging = none ∧ xi.g.hstaging = none ∧ row4.count = 4 ∧ (∀ p, p < 4 → row4.elementOffset p = 4 * p) ∧
    ∀ p t, p < 4 → checkAccess xi iterating .read ⟨t, .unit, 4 * p, 4⟩ = .ok (placeRow p) ∧ (placeRow p).bytes.length = 4 ∧
      ∀ b ∈ (placeRow p).bytes, iterating.covered b.1 = false ∧ iterating.lostSite b.2 = none := by
  refine ⟨by decide, by decide, row4_ok, by decide, by decide, by decide, by decide, by decide, by decide, by decide, ?_⟩
  intro p t hp
  rcases p with _ | _ | _ | _ | p
  all_goals first | omega | exact ⟨rfl, by decide, by decide⟩
/-- g1 holds 16 and the launch is in FORM 1. -/
def ranging : State := { withGroup fun g => g.writeG false 1 16 with launches := placed.launches.modify 1 fun l => { l with form := 1 } }
theorem witness_write_range : ranging.ctx = some (ctxOf ranging) ∧ (ctxOf ranging).ready [97, 97] ∧ (ctxOf ranging).launch.form = 1 ∧
    (ctxOf ranging).uni 97 = 16 ∧ 16 + 16 ≤ (ctxOf ranging).launch.dieWin ∧
    (∀ e ∈ ranging.teams.entries, e.1 ≠ (ctxOf ranging).g.team → e.2.launch = (ctxOf ranging).team.launch → e.2.ranges.values = []) ∧
    ranging.saved = [] := ⟨by decide, rfl, by decide, by decide, by decide, by decide, by decide⟩
/-- g1 holds 0x102, a ring of two slots of 32 bytes; ring 5 is the team's, with one slot filled. -/
def ringed : State := (withGroup fun g => g.writeG false 1 0x102).putRing 0 5 ⟨some 0, 0, 32, 2, 0, 1, []⟩
theorem witness_ring : ringed.ctx = some (ctxOf ringed) ∧ (ctxOf ringed).ready [98, 97] ∧ ((ctxOf ringed).uni 97).toNat = 1 * 2 ^ 8 + 2 ∧
    ((ctxOf ringed).uni 98).toNat % 32 = 0 ∧ ((ctxOf ringed).uni 98).toNat + 2 * (32 * 1) ≤ (ctxOf ringed).team.kernel.unit ∧
    (ringed.ring 0 5).owner = some (ctxOf ringed).g.team ∧ (ringed.ring 0 5).reserved = [] ∧ 0 < (ringed.ring 0 5).nfill ∧
    (ringed.ring 0 5).nfill ≤ 1 ∧ 1 < (ringed.ring 0 5).count ∧ (ringed.ring 0 6).owner ≠ some (ctxOf ringed).g.team :=
  ⟨by decide, rfl, by decide, by decide, by decide, by decide, by decide, by decide, by decide, by decide, by decide⟩
/-- A descriptor at 0 of the unit store of a `tmvl` of 32 bytes from 0 to 64. -/
def copying : State := { placed with mem := ⟨[(unitKey 0 0x24, 64), (unitKey 0 0x28, 32)]⟩ }
def copy32 : CopyCmd := ⟨4, ⟨0, 0, [0, 0, 0, 0], 0, false, false, false, 0, 0, 0, 0, 0, 64, 32, 0, 0, false, false, 0⟩, none, [], none, 0, false, [], 0, [],
  ⟨false, false, false, 0⟩, ⟨false, false, false, 0⟩, []⟩
theorem witness_copy : copying.ctx = some (ctxOf copying) ∧ CopyDoes (.tmvl false 97 98) false 4 97 98 none ∧ (ctxOf copying).ready [98] ∧
    copying.checkCopy (ctxOf copying).env (fun r => r.owner == some (ctxOf copying).g.team) 4 ((ctxOf copying).uni 98).toNat
      ((ctxOf copying).indices none) = .ok copy32 ∧ ((ctxOf copying).g.cls 0).ops.length < 127 ∧
    (copying.scoreboard.filter fun e => e.core = (ctxOf copying).core).length < 32 ∧ copy32.desc.ring = false :=
  ⟨by decide, .tmvl .., rfl, by decide, by decide, by decide, by decide⟩
theorem witness_matrix : placed.ctx = some x0 ∧ MatrixDoes x0 (.tzero false 15)
      { m := false, n := 1, srcs := [], alloc := x0.mayTile 15, ok := True, work := .tzero 15, owns := [15] } ∧ x0.ready [] ∧
    x0.mayTile 15 = true ∧ x0.mayTile 16 = false ∧ x0.g.recording = false ∧ (x0.g.cls 1).ops.length < 127 ∧ x0.free placed [15] ∧
    (∀ o ∈ (x0.g.cls 1).ops, o.order ≠ 0) ∧ x0.g.holdsBatch x0.team = false ∧
    (ctxOf (withGroup fun g => { g with step := some (0, 0, 0), pendingRegs := [⟨false, 29, 0, 1⟩] })).g.step ≠ none ∧
    ¬(ctxOf (withGroup fun g => { g with step := some (0, 0, 0), pendingRegs := [⟨false, 29, 0, 1⟩] })).ready [125] :=
  ⟨by decide, .tzero .., rfl, by decide, by decide, by decide, by decide, by unfold Ctx.free; decide, by decide, by decide, by decide,
    by unfold Ctx.ready; decide⟩
/-- Tiles 0 and 1 have shapes that fit, and a descriptor of `mmah` is at 0 of the unit store: SET into accumulator 0. -/
def handled : State := { withTeam fun t => { t with
    tileShapes := (Map.empty.set 0 ⟨32, 32, 8, false, false, 0⟩).set 1 ⟨32, 32, 8, true, false, 0⟩ } with
  mem := ⟨[(unitKey 0 2, 1), (unitKey 0 4, 1), (unitKey 0 11, 0x40)]⟩ }
def xh : Ctx := ctxOf handled
def desc0 : HandleDesc :=
  { acc := 0, ta := 0, ts0 := 1, ts1 := 1, mode := 1, seq := false, sva := 0, svb := 0, edim := 0, lrec := 2 ^ 30, stg0 := 0, stg1 := 0
    salt := 0, origin := [0, 0, 0, 0], counts := [], experts := [] }
theorem witness_handled : handled.ctx = some xh ∧ xh.ready [98] ∧ (xh.uni 98).toNat = 0 ∧
    readHandleDesc false (handled.mem.bytes (unitKey xh.core xh.team.base) 64) = some desc0 ∧ desc0.lrec / 2 ^ 30 ≠ 0 ∧
    (xh.mayTile 0 && xh.mayTile 1 && xh.mayAcc 0) = true ∧ (xh.team.tileShape 0).axis = false ∧ (xh.team.tileShape 1).axis = true ∧
    (xh.team.tileShape 1).mapped = false ∧ (xh.team.tileShape 1).rows = (xh.team.tileShape 0).cols ∧
    (xh.team.tileShape 1).imageSize ≤ xh.team.kernel.unit ∧ xh.g.recording = false ∧ xh.free handled [32, 0, 1, 1] ∧
    xh.g.holdsBatch xh.team = false :=
  ⟨by decide, rfl, by decide, by decide, by decide, by decide, by decide, by decide, by decide, by decide, by decide, by decide,
    by unfold Ctx.free; decide, by decide⟩

/-- The oldest operation of class 1 is a `tzero` that has been accepted; a skipped and a cancelled one. -/
def opOf (cmd : Cmd) : Op := ⟨1, .issued, false, none, [15], 0, cmd, 1, 0, 0, []⟩
def working (c : Nat) (o : Op) : State := withGroup fun g => { g with classes := g.classes.set c ⟨2, 1, [o]⟩ }
theorem witness_matrix_turn : (working 1 (opOf (.matrix (.tzero 15) none))).groups.find (slotKey 0 0) =
      some (ctxOf (working 1 (opOf (.matrix (.tzero 15) none)))).g ∧ placed.teams.find 0 = some x0.team ∧ (placed.debugOf 0).frozen = false ∧
    (ctxOf (working 1 (opOf (.matrix (.tzero 15) none)))).g.nextMatrix = some (0, opOf (.matrix (.tzero 15) none)) ∧
    (ctxOf (working 1 (opOf (.matrix .skipped none)))).g.nextMatrix = some (0, opOf (.matrix .skipped none)) ∧
    (ctxOf (working 1 { opOf (.matrix (.tzero 15) none) with cancel := true })).g.nextMatrix =
      some (0, { opOf (.matrix (.tzero 15) none) with cancel := true }) ∧
    (working 1 (opOf (.matrix (.tzero 15) none))).signatureFirst 0 (opOf (.matrix (.tzero 15) none)) = false := by decide
/-- Works of the matrix engine on a tile or an accumulator of 32 rows and columns. -/
def square : TileShape := ⟨32, 32, 8, false, false, 0⟩
def matrixWorks : List MatrixWork := [.mma 1 0 0 1 square { square with axis := true },
  .mmag 1 0 0 square [⟨0, 0, 32, 1, some 0, 1, { square with axis := true }, 0⟩] 0, .aop 1 0 1 2 32 32 0, .tmovi 5 square 0 0,
  .tdmap 5 { square with cols := 64, mapped := true, dupcap := 32 } (some 0), .tmovo 5 square 0 0, .afil 0 32 32 0 0, .adrn 0 32 32 0 0 3 8 false]
theorem witness_matrix_turns : ∀ w ∈ matrixWorks, (working 1 (opOf (.matrix w none))).matrixTurns 0 0 0
    (ctxOf (working 1 (opOf (.matrix w none)))).g x0.team (opOf (.matrix w none)) w := by
  unfold State.matrixTurns; decide

theorem witness_batch_ends : (withGroup fun g => { g with batches := [⟨3, none, 0⟩] }).groups.find (slotKey 0 0) =
      some { x0.g with batches := [⟨3, none, 0⟩] } ∧ ∀ o ∈ (x0.g.cls 1).ops, o.seq ≠ 3 := by decide
/-- A `tmvl` of 32 bytes from 0 to 64 that begins. -/
theorem witness_move : (working 0 (opOf (.copy copy32))).copyOps 0 0 = [opOf (.copy copy32)] ∧ copy32.desc.img + copy32.desc.len ≤ copy32.desc.dst ∧
    copy32.desc.sspace = 0 ∧ copy32.desc.dspace = 0 ∧ copy32.fetch = 0 ∧ copy32.desc.len = 32 ∧ copy32.desc.dst + 32 ≤ x0.team.kernel.unit ∧
    (working 0 (opOf (.copy copy32))).mem.wf = true ∧ ((working 0 (opOf (.copy copy32))).copyEnv 0 0).isSome = true := by decide
def cancelled : State := working 0 { opOf (.copy copy32) with cancel := true }
theorem witness_copy_cancelled : (cancelled.debugOf 0).frozen = false ∧ (cancelled.copyEnv 0 0).isSome = true ∧
    cancelled.copyOps 0 0 = [{ opOf (.copy copy32) with cancel := true }] := by decide
def retiring : State := working 2 { opOf (.kiln .kcal) with phase := .done 0 }
theorem witness_retire : (retiring.debugOf 0).frozen = false ∧ retiring.groups.find (slotKey 0 0) = some (ctxOf retiring).g ∧
    retiring.teams.find 0 = some (ctxOf retiring).team ∧ retiring.launches.find 1 = some (ctxOf retiring).launch ∧
    ((ctxOf retiring).g.cls 2).ops = [{ opOf (.kiln .kcal) with phase := .done 0 }] ∧ (ctxOf retiring).g.frags ≠ [] ∧
    (ctxOf retiring).team.stopped = false := by decide
/-- A copy of a group, whose operands stand in a header of an image of one row of 32 zeros at 0 of the unit store. -/
def copyOf (fn : Nat) (img dst : Nat) (r : Option LayoutRec) (rows : List Int) : CopyCmd :=
  { copy32 with fn := fn, desc := { copy32.desc with img := img, dst := dst }, record := r, rows := rows }
def row32 : LayoutRec := ⟨1024, 0, [32, 1, 1, 1], [0, 0, 0], 1, 32, 0x25, 8, 1, 1, 0, 2, 0, false, false, false, 0, [0, 0, 0, 0]⟩
def copyWork (c : CopyCmd) : State := { working 0 (opOf (.copy c)) with mem := ⟨[(unitKey 0 0, 1), (unitKey 0 2, 32), (unitKey 0 4, 8)]⟩ }
def envOf (s : State) : CopyEnv := (s.copyEnv 0 0).getD default
theorem copy_begins (fn : Nat) (r : Option LayoutRec) (rows : List Int) (img dst : Nat) :
    (copyWork (copyOf fn img dst r rows)).copyBegins 0 0 (envOf (copyWork (copyOf fn img dst r rows))) (opOf (.copy (copyOf fn img dst r rows)))
      (copyOf fn img dst r rows) := by
  refine ⟨by decide, rfl, rfl, rfl, rfl, rfl, rfl, rfl, rfl, rfl, rfl, rfl, rfl, rfl, rfl, rfl⟩
/-- `cpyi` of a row of 32 integers at 1024 of the unit store into an image at 256; and an idle gather. -/
theorem row32_legal : row32.legal := by unfold LayoutRec.legal; decide
def expanding : State := copyWork (copyOf 0 256 0 (some row32) [])
theorem expanding_place : expanding.imagePlace (envOf expanding) (copyOf 0 256 0 (some row32) []) 0 256 96 (fun i => unitKey 0 i) := by
  refine ⟨by decide, 65536, .inl ⟨rfl, rfl, fun i => ?_⟩, .inr ⟨rfl, by decide, rfl, by decide⟩⟩
  rw [show (envOf expanding).core = 0 from rfl, show (envOf expanding).team.base = 0 from rfl, Nat.zero_add]
theorem expanding_holds (col : Nat) (h : col < 32) : expanding.tensorHolds (envOf expanding) row32 (fun k => if k = 0 then col else 0)
    (.fin false 0 0) := by
  have hb : row32.bitAt (fun k => if k = 0 then col else 0) = 8 * (1024 + (col : Int)) := by
    simp [LayoutRec.bitAt, row32, storageBits]; omega
  have h1 : (row32.bitAt (fun k => if k = 0 then col else 0) % 8).toNat = 0 := by rw [hb]; omega
  have h2 : row32.bitAt (fun k => if k = 0 then col else 0) / 8 = 1024 + (col : Int) := by rw [hb]; omega
  refine ⟨0, 0, ?_, fun hf => absurd hf (by decide), ?_⟩
  · refine ⟨1024 + col, [(unitKey 0 (1024 + col), .unit 0)], ⟨fun hf => absurd hf (by decide), fun _ => by rw [h2]; rfl⟩, ?_, ?_, ?_⟩
    · rw [h1]; clear hb h1 h2; revert col; decide
    · intro q hq; simp at hq; subst hq; rfl
    · clear hb h1 h2; revert col; decide
  · refine ⟨fun hf => absurd hf.1 (by decide), fun hf => absurd hf.1 (by decide), ?_, ?_, fun hf => absurd hf (by decide)⟩
    · intro F hF; simp [row32] at hF
    · intro _; exact ⟨⟨false, 0, 0, rfl⟩, by simp [Num.real, signedOf]⟩
theorem expanding_mirrored (col k : Nat) (h : col < 32) (hk : k < 4) : mirrored row32.sym (row32.sizeOf k)
    ((copyOf 0 256 0 (some row32) []).coordinate row32 0 col k) (if k = 0 then col else 0) := by
  unfold mirrored
  revert col
  rcases k with _ | _ | _ | _ | k
  all_goals first | omega | decide
theorem witness_expands (h : Claims.CopyExpands) : ∃ s', exec (.copyTransferStart 0 0) expanding = .next s' := by
  obtain ⟨s', l, img, fl, h1, -⟩ := (h expanding 0 0 _ _ _ row32 (copy_begins 0 (some row32) [] 256 0)).2 ⟨row32_legal, .inl rfl⟩ (.inl rfl)
    0 256 _ (fun _ _ => .fin false 0 0) expanding_place (fun hr => absurd hr (by decide)) (by
      intro i col hi hc
      have hi : i < 1 := hi
      obtain rfl : i = 0 := by omega
      exact ⟨_, fun k hk => expanding_mirrored col k hc hk, expanding_holds col hc⟩)
  exact ⟨s', h1⟩
theorem witness_idle_gather (h : Claims.CopyExpands) (h' : Claims.CopyPresses) :
    (∃ s', exec (.copyTransferStart 0 0) (copyWork (copyOf 2 256 0 (some row32) [])) = .next s') ∧
    ∃ s', exec (.copyTransferStart 0 0) (copyWork (copyOf 3 0 0 (some row32) [])) = .next s' := by
  obtain ⟨s', h1, -⟩ := (h _ 0 0 _ _ _ row32 (copy_begins 2 (some row32) [] 256 0)).1 rfl rfl
  obtain ⟨t', h2, -⟩ := (h' _ 0 0 _ _ _ row32 (copy_begins 3 (some row32) [] 0 0)).1 rfl rfl
  exact ⟨⟨s', h1⟩, t', h2⟩

/-- `cpyo` of the image at 0 into that tensor. -/
def pressing : State := copyWork (copyOf 1 0 0 (some row32) [])
def head32 : ImageHead := ⟨1, 32, 8, false, 0, false, false, false, false⟩
/-- A bit that fields have written lies in one of them. -/
theorem lastBit_some (l : List (Nat × Nat × Nat)) (k : Nat) (h : (lastBit l k).isSome = true) :
    ∃ f ∈ l, f.1 ≤ k ∧ k < f.1 + f.2.1 := by
  by_contra hn
  have h1 : ∀ (l : List (Nat × Nat × Nat)) (b : Option Bool), (∀ f ∈ l, ¬(f.1 ≤ k ∧ k < f.1 + f.2.1)) →
      l.foldl (fun b f => if f.1 ≤ k ∧ k < f.1 + f.2.1 then some (f.2.2.testBit (k - f.1)) else b) b = b := by
    intro l
    induction l with
    | nil => intros; rfl
    | cons f l ih =>
      intro b hl
      rw [List.foldl_cons, if_neg (hl f (by simp))]
      exact ih b fun g hg => hl g (by simp [hg])
  rw [lastBit, h1 l none fun f hf hk => hn ⟨f, hf, hk⟩] at h
  simp at h
theorem lastBit_within (l : List (Nat × Nat × Nat)) (k lo hi : Nat) (hl : ∀ f ∈ l, lo ≤ f.1 ∧ f.1 + f.2.1 ≤ hi)
    (h : (lastBit l k).isSome = true) : lo ≤ k ∧ k < hi := by
  obtain ⟨f, hf, hk⟩ := lastBit_some l k h
  have := hl f hf
  omega
theorem image_zero (c : CopyCmd) (i : Nat) (h : 5 ≤ i) : (copyWork c).mem.byte (unitKey 0 (0 + i)) = 0 := by
  simp only [copyWork, Memory.byte, findCell, unitKey, Nat.zero_add]
  split_ifs <;> first | rfl | (exfalso; omega)
theorem image_merges (c : CopyCmd) (i col : Nat) :
    head32.merges (fun i => (copyWork c).mem.byte (unitKey 0 (0 + i))) i col (.fin false 0 0) := by
  refine ⟨fun _ => .fin false 0 0, fun j _ => ⟨fun hk => absurd hk (by decide), fun hk => absurd hk (by decide),
    fun hk => absurd hk (by decide), fun _ => ?_⟩, fun _ => rfl, fun ⟨j, hj⟩ => absurd hj.1 (Nat.not_lt_zero j)⟩
  have he (n : Nat) : (copyWork c).mem.byte (unitKey 0 (0 + (head32.expsAt + n))) = 0 :=
    image_zero c _ (by have : head32.expsAt = 32 := rfl; omega)
  have hm (n : Nat) : (copyWork c).mem.byte (unitKey 0 (0 + (head32.elemsAt + n))) = 0 :=
    image_zero c _ (by have : head32.elemsAt = 64 := rfl; omega)
  refine ⟨fun h => ?_, fun _ => ⟨?_, false, 0, 0, rfl, fun _ => rfl⟩⟩
  · simp only [he] at h; exact absurd h (by decide)
  · simp only [hm, Num.real]; simp [signedOf]
set_option maxRecDepth 20000 in
theorem witness_presses (h : Claims.CopyPresses) : ∃ s', exec (.copyTransferStart 0 0) pressing = .next s' := by
  refine (fun ⟨s', _, _, h1, _⟩ => ⟨s', h1⟩) ((h pressing 0 0 _ _ _ row32 (copy_begins 1 (some row32) [] 0 0)).2 ⟨row32_legal, .inl rfl⟩ (.inl rfl)
    (fun hr => absurd hr (by decide)) (fun i => unitKey 0 i) (fun i => unitKey 0 i) 65536 head32 (by decide) (.inl ⟨rfl, rfl, fun i => by
        rw [show (envOf (copyWork (copyOf 1 0 0 (some row32) []))).core = 0 from rfl,
          show (envOf (copyWork (copyOf 1 0 0 (some row32) []))).team.base = 0 from rfl, Nat.zero_add]⟩)
    (by decide) (by decide) rfl rfl (fun _ _ => .fin false 0 0) (fun i col _ _ => image_merges _ i col) (fun _ _ => 0) (fun _ _ => 0)
    (fun _ _ => False) (fun _ _ => False) Int.toNat
    (fun i b hi hb => ⟨fun hr => absurd hr (by decide), fun _ => ?_⟩)
    (fun f hf => ⟨fun hr => absurd hr (by decide), fun _ => ?_⟩) ?_ ?_ (fun hr => absurd hr (by decide)))
  · refine ⟨by decide, fun F hF => by simp [row32] at hF, fun n hn => ?_⟩
    obtain rfl : n = 8 := by simpa [row32] using hn
    have hm : (copyOf 1 0 0 (some row32) []).rounding (envOf (copyWork (copyOf 1 0 0 (some row32) []))) 3 i b = .rne := rfl
    rw [hm]; decide
  · revert f; decide
  · refine ⟨fun a n ⟨j, hj, hw⟩ ⟨j', hj', hw'⟩ _ => ?_, fun a b i j _ _ _ _ hk => by simp only [unitKey] at hk; omega⟩
    have h1 := lastBit_within _ _ 8192 8448 (by decide) hw
    have h2 := lastBit_within _ _ 8192 8448 (by decide) hw'
    refine ⟨(List.range (n + 1)).map fun i => (unitKey 0 (a + i), .unit 0), ?_, ?_, ?_⟩
    · have hc : pressing.copyPlaces (envOf (copyWork (copyOf 1 0 0 (some row32) []))) .write 0 a (n + 1) =
          if 65536 < a + (n + 1) then .error (.err 2) else .ok ((List.range (n + 1)).map fun i => (unitKey 0 (0 + a + i), .unit 0)) := rfl
      rw [show ([3, 1, 0].getD row32.space 0) = 0 from rfl, hc, if_neg (by omega)]
      simp
    · intro q hq; simp at hq; obtain ⟨i, _, rfl⟩ := hq; rfl
    · intro i hi; simp [show i < n + 1 by omega]
  · intro p hp q hq b b' hb hb'
    revert hb'; revert b'; revert hb; revert b; revert hq; revert q; revert hp; revert p
    decide
/-- `cpyx` of the image at 0 to 512. -/
theorem witness_reblocks (h : Claims.CopyReblocks) : ∃ s', exec (.copyTransferStart 0 0) (copyWork (copyOf 5 0 512 none [])) = .next s' := by
  have hp : ∀ i, unitKey 0 i = unitKey (envOf (copyWork (copyOf 5 0 512 none []))).core
      ((envOf (copyWork (copyOf 5 0 512 none []))).team.base + i) := fun i => by
    rw [show (envOf (copyWork (copyOf 5 0 512 none []))).core = 0 from rfl,
      show (envOf (copyWork (copyOf 5 0 512 none []))).team.base = 0 from rfl, Nat.zero_add]
  refine (fun ⟨s', _, _, _, h1, _⟩ => ⟨s', h1⟩) (h _ 0 0 _ _ _ (copy_begins 5 none [] 0 512) rfl (fun i => unitKey 0 i) (fun i => unitKey 0 i)
    65536 0 512 head32 (by decide) (.inl ⟨rfl, rfl, hp⟩) (by decide) (by decide) (by decide) (fun hm => absurd hm (by decide)) (.inl rfl)
    1 32 8 false rfl rfl rfl rfl (by decide) (fun hx => absurd hx (by decide))
    ⟨by decide, 65536, .inl ⟨rfl, rfl, hp⟩, .inr ⟨rfl, by decide, rfl, by decide⟩⟩ (fun i j hi _ hk => ?_) (fun _ _ _ _ => rfl))
  have : head32.size = 96 := by decide
  have : (copyOf 5 0 512 none []).desc.img = 0 := rfl
  simp only [unitKey] at hk
  omega
/-- A collective of the module alone, with a timeout. -/
def coll1 : CollCmd := ⟨2, 0, false, false, false, none, 0, 0, 0, 0, 64, 0, [], 0, 0, 5, 1, 0, [Config.moduleIndex], 1000, 0, none, none⟩
theorem witness_exchange : (working 4 (opOf (.coll coll1))).groups.find (slotKey 0 0) = some (ctxOf (working 4 (opOf (.coll coll1)))).g ∧
    unexchanged ((ctxOf (working 4 (opOf (.coll coll1)))).g.cls 4).ops = [(opOf (.coll coll1), coll1)] ∧
    ((ctxOf (working 4 (opOf (.coll coll1)))).g.cls 4).ops = [] ++ opOf (.coll coll1) :: [] ∧
    (∀ p ∈ [] ++ [opOf (.coll coll1)], p.parked = none) ∧ coll1.timeout ≠ 0 ∧
    placed.unreachable = [] ∧ coll1.mismatch [] = false ∧ coll1.complete [] = true :=
  ⟨rfl, rfl, rfl, by simp [opOf], by decide, rfl, by simp [CollCmd.mismatch, coll1], by simp [CollCmd.complete, coll1]⟩
/-- A message of rank 1 of a `cagth` of two members, with 64 bytes. -/
def coll2 : CollCmd := { coll1 with nrank := 2, members := [Config.moduleIndex, Config.moduleIndex + 1] }
def message1 (fn : Nat) : MemberMessage := ⟨Config.moduleIndex + 1, 1, fn, 0, 0, 64, 0, 0, true, 2, 0, false, [], zeroBytes 64⟩
theorem witness_headers : coll2.mismatch [message1 4] = true ∧ coll2.myrank < coll2.nrank ∧
    coll2.hears [message1 2] (fun _ => message1 2) ∧ (zeroBytes 64).length = coll2.nv ∧ (message1 2).data.length = coll2.nv ∧
    coll2.members.Nodup ∧ coll2.root < coll2.nrank ∧ coll2.nrank = 2 ^ 1 ∧
    (∃ p ∈ [Config.moduleIndex + 1], p ∈ coll2.members ∧ p ≠ Config.moduleIndex) := by
  refine ⟨by simp [CollCmd.mismatch, CollCmd.agrees, coll2, coll1, message1], by decide, ?_, by decide, by decide, by simp [coll2], by decide, by decide,
    ⟨Config.moduleIndex + 1, by simp, by simp [coll2], by simp⟩⟩
  intro r hr h0
  have h2 : coll2.nrank = 2 := rfl
  have h1 : coll2.myrank = 0 := rfl
  obtain rfl : r = 1 := by omega
  rfl
/-- The collective of the module alone has exchanged its headers and is to write 64 bytes at 0x1000 in the host's memory. -/
def collecting : Op := { opOf (.coll { coll1 with dst := 0x1000, exchanged := some ([], none), transfer := some ⟨zeroBytes 64, [], 0, 0⟩ }) with
  phase := .begun }
def collState : State := { working 4 collecting with mem := ⟨[(0, 0x3B), (7, 1)]⟩ }
set_option maxRecDepth 20000 in
theorem witness_collective_writes : (collState.debugOf 0).frozen = false ∧ collState.groups.find (slotKey 0 0) = some (ctxOf collState).g ∧
    collState.teams.find (ctxOf collState).g.team = some (ctxOf collState).team ∧
    collState.launches.find (ctxOf collState).team.launch = some (ctxOf collState).launch ∧ (ctxOf collState).g.frags ≠ [] ∧
    (ctxOf collState).team.stopped = false ∧ ((ctxOf collState).g.cls 4).ops = [collecting] ∧
    (collState.collPlaces 0 0 .write 0x1000 32).isOk = true := ⟨rfl, rfl, rfl, rfl, by decide, by decide, rfl, by decide⟩

/-- A kiln of one free node of class 0, and a `ksweep` of one class. -/
def ksweep1 : Op := opOf (.kiln (.ksweep 1 none 0 2 0))
def sweepingOn (f : Kiln → Kiln) : State := { working 2 ksweep1 with
  mem := ⟨[(unitKey 0 0, 2)]⟩
  teams := placed.teams.set 1 { x0.team with core := 1, logicalCore := 1 }
  kilns := (Map.empty.set 0 (f { Kiln.fresh with seeded := true, claim := some 0, nnodes := 1, nodes := Map.empty.set 0 ⟨false, false, 0, 0, 0⟩ })).set 1
    { Kiln.fresh with claim := some 1 } }
theorem sweeping_on (f : Kiln → Kiln) : ((sweepingOn f).debugOf 0).frozen = false ∧ (sweepingOn f).kilnTurn 0 = some (0, ksweep1) ∧
    (sweepingOn f).groups.find (slotKey 0 0) = some (ctxOf (sweepingOn f)).g ∧
    (sweepingOn f).teams.find (ctxOf (sweepingOn f)).g.team = some (ctxOf (sweepingOn f)).team ∧
    (sweepingOn f).launches.find (ctxOf (sweepingOn f)).team.launch = some (ctxOf (sweepingOn f)).launch := ⟨rfl, rfl, rfl, rfl, rfl⟩
theorem witness_sweep_runs (h : Claims.SweepRuns) : ∃ s', exec (.sweep 0) (sweepingOn id) = .next s' := by
  obtain ⟨h1, h2, h3, h4, h5⟩ := sweeping_on id
  have hu : ∃ v', ((sweepingOn id).kiln 0).updates (sweepingOn id).tick 0 0 0 (fun _ => []) [] (fun i => (((sweepingOn id).kiln 0).node i).up) v' :=
    ⟨_, fun i => rfl⟩
  obtain ⟨v1, hv⟩ := hu
  obtain ⟨s', h6, -⟩ := (h _ 0 0 _ _ _ ksweep1 1 0 2 0 0 none [] h1 h2 h3 h4 h5 rfl nofun (by decide) (by decide)
      (.inr ⟨by decide, rfl, rfl, by decide, by decide, by decide, fun hp => absurd hp (by decide), by decide⟩)).1
    (fun _ _ => []) (fun c => if c = 0 then fun i => (((sweepingOn id).kiln 0).node i).up else v1)
    (fun c _ _ i _ _ _ => by simp [sweepingOn, State.kiln, Map.get, Map.find_set]; rfl) (fun i => rfl)
    (fun c _ hc => by
      obtain rfl : c = 0 := by omega
      exact hv)
  exact ⟨s', h6⟩
/-- A streamed block with two entries where one may be; an import of a node that the source lacks, and one of an array not yet seeded. -/
def streaming : State := sweepingOn fun k => { k with couplings := .streamed 0 0 1 }
theorem witness_sweep_bad (h : Claims.SweepRuns) : ∃ s', exec (.sweep 0) streaming = .next s' := by
  obtain ⟨h1, h2, h3, h4, h5⟩ := sweeping_on fun k => { k with couplings := .streamed 0 0 1 }
  obtain ⟨s', h6, -⟩ := (h _ 0 0 _ _ _ ksweep1 1 0 2 0 0 none [] h1 h2 h3 h4 h5 rfl nofun (by decide) (by decide)
      (.inr ⟨by decide, rfl, rfl, by decide, by decide, by decide, fun hp => absurd hp (by decide), by decide⟩)).2
    0 0 0 0 1 (by decide) (by decide) (by decide) (fun c hc hb => by omega) (by decide) (by decide) (by decide) (by decide)
  exact ⟨s', h6⟩
theorem witness_imports : (sweepingOn fun k => { k with imports := [(0, 5)] }).sweepStart x0.team
      ((sweepingOn fun k => { k with imports := [(0, 5)] }).kiln 0) = .bad ∧
    (sweepingOn fun k => { k with imports := [(1, 0)] }).sweepStart x0.team
      ((sweepingOn fun k => { k with imports := [(1, 0)] }).kiln 0) = .wait ∧
    ((sweepingOn id).sweepStart x0.team ((sweepingOn id).kiln 0)) = .values [] ∧ (ctxOf (sweepingOn id)).team.leaving < 2 ∧
    ((sweepingOn fun k => { k with seeded := false }).kiln 0).seeded = false ∧ ((sweepingOn id).kiln 0).sweeping = none := by decide

/-- A segment of 128 bytes at 64 of the unit store. -/
def logging : State := { withGroup fun g => g.writeG false 1 64 with mem := ⟨[(unitKey 0 64, 128), (unitKey 0 68, 5)]⟩ }
def xr : Ctx := ctxOf logging
theorem witness_recon : logging.ctx = some xr ∧ logging.mem.wf = true ∧ xr.ready [97] ∧ xr.g.recording = false ∧ xr.g.handler = false ∧
    logging.SegOk xr.team 0 (xr.uni 97).toNat ∧ xr.team.logs = [] ∧ logging.headHeld xr.team 0 64 = false :=
  ⟨by decide, by decide, rfl, by decide, by decide, ⟨by decide, by decide, by decide, by decide, by decide⟩, by decide, by decide⟩
/-- The group records into that segment. -/
def log0 : LogCtx := ⟨0, 64, 64, 128, [], 0, 0, 128, 0, 0, 1, 0, Map.empty, [], [0]⟩
def recorded : State := { logging with
  groups := logging.groups.modify 0 fun g => { g with recording := true, log := some ⟨0, 64, 0⟩ }
  teams := logging.teams.modify 0 fun t => { t with logs := [log0] } }
def xrec : Ctx := ctxOf recorded
theorem witness_recorded : recorded.ctx = some xrec ∧ recorded.mem.wf = true ∧ xrec.g.recording = true ∧ (xrec.g.cls 1).ops = [] ∧
    xrec.team.logFor xrec.g.log = some log0 ∧ log0.members = [xrec.slot] ∧ log0.next + log0.reservedEntries < 2 ^ 24 - 1 ∧
    log0.entryEnd + log0.reserved + 32 ≤ log0.dtop ∧ log0.earlier = [] ∧ xrec.slot < 256 ∧
    recorded.headHeld xrec.team 0 64 = false ∧ recorded.spanHeld xrec.team 0 (log0.seg + log0.entryEnd) 32 = false := by decide
/-- A second segment for `rlog`, of 128 bytes at 256. -/
def relogging : State := { recorded with
  mem := ⟨[(unitKey 0 64, 128), (unitKey 0 68, 5), (unitKey 0 256, 128)]⟩
  groups := recorded.groups.modify 0 fun g => g.writeG false 1 256 }
theorem witness_rlog : relogging.ctx = some (ctxOf relogging) ∧ (ctxOf relogging).team.logFor (ctxOf relogging).g.log = some log0 ∧
    (ctxOf relogging).ready [97] ∧ ((ctxOf relogging).uni 97).toNat = 256 ∧ relogging.segField (ctxOf relogging).team 0 256 0 4 = 128 ∧
    256 + 128 ≤ relogging.storeEnd (ctxOf relogging).team 0 ∧ log0.seg + 64 ≤ 256 :=
  ⟨by decide, by decide, rfl, by decide, by decide, by decide, by decide⟩
/-- A walk at its lowest entry, one with entries left, and no log. -/
def walk0 : Reversal := ⟨-1, 0, 0xFFFFFFFF, none, 0, 7, true, false, [], false⟩
def reversing : State := withGroup fun g => { g with reversal := some walk0 }
theorem witness_trvs : placed.ctx = some x0 ∧ x0.g.handler = false ∧ x0.g.recording = false ∧ x0.ready [98] ∧ x0.g.reversing = none ∧
    (x0.g.cls 1).ops = [] ∧ x0.g.log = none ∧ reversing.ctx = some (ctxOf reversing) ∧ (ctxOf reversing).g.reversing = some walk0 ∧
    walk0.threads = (ctxOf reversing).f.threads ∧ walk0.pc = (ctxOf reversing).f.pc ∧ walk0.next ≤ 0 :=
  ⟨by decide, by decide, by decide, rfl, by decide, by decide, by decide, by decide, by decide, by decide, by decide, by decide⟩

/-- A segment of 1024 bytes at 64 of the unit store with two entries, its one group in a walk that is at the first of them; accumulators 1
and 2, of 32 rows and columns, are bound to value registers 3 and 34. A descriptor of `mmah` and the header of a B image are saved at 256 of
the segment; a log whose entry has A = 6 has an expert gradient area. -/
def logRef : LogRef := ⟨0, 64, 0⟩
def walkCells (e c : LogEntry) : List Host.Cell :=
  [(64, 0), (65, 4), (68, 5)] ++ ((leBytes 4 (if e.opa = 6 then 0x1000 else noIndex)).zipIdx.map fun b => (76 + b.2, b.1)) ++
    [(80, 2), (89, 4), (96, 0xFF), (97, 0xFF), (98, 0xFF), (99, 0xFF)] ++ ((e.bytes ++ c.bytes).zipIdx.map fun b => (128 + b.2, b.1)) ++
    [(322, 1), (324, 1), (331, 0x40), (384, 32), (386, 32), (388, 8), (389, 1)]
def walkMem (e c : LogEntry) : Memory := ⟨(walkCells e c).filterMap fun b => if b.2 = 0 then none else some (unitKey 0 b.1, b.2)⟩
def walking (e c : LogEntry) : State := { placed with
  groups := placed.groups.modify 0 fun g =>
    { g with reversal := some { walk0 with next := 1, log := some logRef }, binds := (Map.empty.set 34 2).set 3 1 }
  teams := placed.teams.modify 0 fun t => { t with
    accShapes := (Map.empty.set 2 (32, 32)).set 1 (32, 32), tileShapes := Map.empty.set 4 ⟨32, 32, 8, true, false, 0⟩ }
  mem := walkMem e c }
def xw (e c : LogEntry) : Ctx := ctxOf (walking e c)
def walkEnv (e c : LogEntry) : RevEnv := ((xw e c).revEnv (walking e c) logRef).toOption.getD default
/-- An entry for 32 rows and columns, and one whose saved data lie at 256 of the segment. -/
def entryOf (kind major fn dst opa opb : Nat) (carry : Nat) : LogEntry :=
  ⟨kind, major, fn, 0, dst, opa, opb, 10, 0x1F00, 8, 8, 0, 0, noIndex, 0, carry⟩
def carryEntry : LogEntry := { entryOf 1 0x3A 3 5 0 0 1 with doff := 256 }
def reuseEntry : LogEntry := { entryOf 2 0 0 34 0 0 noIndex with proda := 1 }
def eTcfg : LogEntry := entryOf 1 0x3A 0 5 0 0 noIndex
def eTmovi : LogEntry := entryOf 1 0x3A 1 34 0 0 noIndex
def eTmovo : LogEntry := entryOf 1 0x3A 2 0xFF 34 0 noIndex
def eCopy : LogEntry := entryOf 1 0x3B 7 34 34 0 1
def eMma : LogEntry := entryOf 1 0x38 1 34 3 4 noIndex
def eRelu : LogEntry := entryOf 1 0x3B 0 34 34 0 noIndex
def eOther : LogEntry := { entryOf 1 0x3B 7 34 34 0 noIndex with shape := 0x1E00 }
def eMark : LogEntry := entryOf 3 0 0 0 0 0 noIndex
def eMmah (opa : Nat) : LogEntry := { entryOf 1 0x39 0 34 opa 4 noIndex with modes := 6, doff := 256 }
def walkEntries : List LogEntry := [eTcfg, eTmovi, eTmovo, reuseEntry, eCopy, eMma, eRelu, eOther, eMark, eMmah 3, eMmah 6]
set_option maxRecDepth 20000 in
theorem walks_at : ∀ e ∈ walkEntries, (walking e carryEntry).ctx = some (xw e carryEntry) ∧ (xw e carryEntry).g.handler = false ∧
    (xw e carryEntry).g.reversing = some { walk0 with next := 1, log := some logRef } ∧ walk0.threads = (xw e carryEntry).f.threads ∧
    walk0.pc = (xw e carryEntry).f.pc ∧ (xw e carryEntry).revEnv (walking e carryEntry) logRef = .ok (walkEnv e carryEntry) ∧
    (walkEnv e carryEntry).entry ⟨walking e carryEntry, (xw e carryEntry).team, false, false, false⟩ 0 = .ok (e, 64) ∧
    (walking e carryEntry).mem.wf = true ∧ (walking e carryEntry).launches.find (xw e carryEntry).team.launch = some (xw e carryEntry).launch := by
  decide
theorem walks_of (e : LogEntry) (h : e ∈ walkEntries) :
    (xw e carryEntry).walks (walking e carryEntry) { walk0 with next := 1, log := some logRef } (walkEnv e carryEntry) e 64 := by
  obtain ⟨-, h1, h2, h3, h4, h5, h6, h7, h8⟩ := walks_at e h
  exact ⟨h1, ⟨h2, h3, h4⟩, by decide, ⟨_, rfl, h5⟩, h6, h7, fun _ => rfl, h8⟩
set_option maxRecDepth 20000 in
theorem bound_at : ∀ e ∈ walkEntries, (walkEnv e carryEntry).binds.find 34 = some 2 ∧ (walkEnv e carryEntry).binds.find 0 = none ∧
    (walkEnv e carryEntry).binds.find 3 = some 1 ∧ (walkEnv e carryEntry).binds.find 4 = none ∧ (walkEnv e carryEntry).binds.find 5 = none ∧
    (walkEnv e carryEntry).binds.find 6 = none ∧ (xw e carryEntry).team.accShape 1 = (32, 32) ∧
    (xw e carryEntry).team.accShape 2 = (32, 32) := by decide
set_option maxRecDepth 20000 in
theorem carry_at : ∀ e ∈ [reuseEntry, eCopy], (walkEnv e carryEntry).entry ⟨walking e carryEntry, (xw e carryEntry).team, false, false, false⟩ 1 =
    .ok (carryEntry, 64) := by decide
theorem bound34 (e : LogEntry) (h : e ∈ walkEntries) : (walkEnv e carryEntry).bound (xw e carryEntry).team 34 32 32 (some 2) :=
  ⟨(bound_at e h).1, fun n hn => by cases hn; exact (bound_at e h).2.2.2.2.2.2.2⟩
/-- The step of `trvs` at an entry. -/
noncomputable def walkStep (e : LogEntry) : Host.Outcome State Fault Refusal := exec (.trvs false 97 98) (walking e carryEntry)
set_option maxRecDepth 20000 in
theorem witness_adjoint_shape (h : Claims.AdjointMoves) : ∃ s', walkStep eOther = .next s' := by
  have he : eOther ∈ walkEntries := by decide
  obtain ⟨g, -, h1⟩ := (h _ _ false 97 98 _ _ _ 64 (walks_at eOther he).1 (walks_of eOther he)).1 2 (.inl ⟨rfl, by decide⟩) (bound_at eOther he).1
    (by decide)
  exact ⟨_, h1⟩
set_option maxRecDepth 20000 in
theorem witness_adjoint_moves (h : Claims.AdjointMoves) : (∃ s', walkStep eTcfg = .next s') ∧ (∃ s', walkStep eTmovi = .next s') ∧
    (∃ s', walkStep eTmovo = .next s') ∧ (∃ s', walkStep reuseEntry = .next s') ∧ ∃ s', walkStep eCopy = .next s' := by
  refine ⟨?_, ?_, ?_, ?_, ?_⟩
  · have he : eTcfg ∈ walkEntries := by decide
    obtain ⟨s, t, h1, -⟩ := (h _ _ false 97 98 _ _ _ 64 (walks_at eTcfg he).1 (walks_of eTcfg he)).2.1 none
      ⟨(bound_at eTcfg he).2.2.2.2.1, nofun⟩ (by decide) (by decide) (by decide) (by decide)
    exact ⟨_, h1.1⟩
  · have he : eTmovi ∈ walkEntries := by decide
    obtain ⟨s, t, b, n, more, h1, -⟩ := ((h _ _ false 97 98 _ _ _ 64 (walks_at eTmovi he).1 (walks_of eTmovi he)).2.2.1 (some 2) 32 0 0
      (bound34 eTmovi he) (by decide) (by decide) (by decide) (by decide)).2 (by decide) (by decide) (by decide) (by decide) (by decide)
      (by decide) ⟨by decide, by decide, fun h => absurd h (by decide)⟩ (fun _ h => absurd h (by decide))
    exact ⟨_, h1.1⟩
  · have he : eTmovo ∈ walkEntries := by decide
    obtain ⟨s, t, b, n, more, h1, -⟩ := (h _ _ false 97 98 _ _ _ 64 (walks_at eTmovo he).1 (walks_of eTmovo he)).2.2.2.1 (some 2) 0 0
      (bound34 eTmovo he) (by decide) (by decide) (by decide) (by decide) (by decide) (by decide)
      ⟨by decide, by decide, fun h => absurd h (by decide)⟩
    exact ⟨_, h1.1⟩
  · have he : reuseEntry ∈ walkEntries := by decide
    obtain ⟨s, t, b, n, o, h1, -⟩ := ((h _ _ false 97 98 _ _ _ 64 (walks_at reuseEntry he).1 (walks_of reuseEntry he)).2.2.2.2.1 2
      (bound34 reuseEntry he) (by decide) (by decide) (by decide)).2 carryEntry 64 carryEntry 64 (by decide) (carry_at reuseEntry (by decide))
      (by decide) (carry_at reuseEntry (by decide)) ⟨by decide, by decide, fun h => absurd h (by decide)⟩
    exact ⟨_, h1.1⟩
  · have he : eCopy ∈ walkEntries := by decide
    obtain ⟨s, t, b, n, b', n', g, o, h1, -⟩ := (h _ _ false 97 98 _ _ _ 64 (walks_at eCopy he).1 (walks_of eCopy he)).2.2.2.2.2 (some 2)
      (some 2) carryEntry 64 (by decide) (by decide) (by decide) (bound34 eCopy he) (bound34 eCopy he) (by decide)
      (carry_at eCopy (by decide)) ⟨by decide, by decide, fun h => absurd h (by decide)⟩
    exact ⟨_, h1.1⟩
/-- `mma` with its operands kept in the registers; `mmah` into the accumulator of A, and into the expert gradient area. -/
theorem ok_of {ε α : Type} [Inhabited α] (v : Except ε α) (h : v.isOk = true) : v = .ok (v.toOption.getD default) := by
  cases v with
  | error => simp [Except.isOk, Except.toBool] at h
  | ok => rfl
theorem bound3 (e : LogEntry) (h : e ∈ walkEntries) : (walkEnv e carryEntry).bound (xw e carryEntry).team 3 32 32 (some 1) :=
  ⟨(bound_at e h).2.2.1, fun n hn => by cases hn; exact (bound_at e h).2.2.2.2.2.2.1⟩
set_option maxRecDepth 20000 in
theorem witness_adjoint_product (h : Claims.AdjointProducts) : ∃ s', walkStep eMma = .next s' := by
  have he : eMma ∈ walkEntries := by decide
  obtain ⟨s, t, b, n, l, r, h1, -⟩ := (h _ _ false 97 98 _ _ _ 64 (walks_at eMma he).1 (walks_of eMma he) (by decide) (by decide) 2
    (bound34 eMma he)).1 (some 1) none ⟨TileShape.created, (xw eMma carryEntry).team.tile 3⟩
    ⟨⟨32, 32, 8, true, false, 0⟩, (xw eMma carryEntry).team.tile 4⟩ (by decide) (by decide) (bound3 eMma he) (by decide)
    ⟨(bound_at eMma he).2.2.2.1, nofun⟩ (by decide)
  exact ⟨_, h1.1⟩
set_option maxRecDepth 20000 in
theorem witness_adjoint_op (h : Claims.AdjointOps) : ∃ s', walkStep eRelu = .next s' := by
  have he : eRelu ∈ walkEntries := by decide
  obtain ⟨s, t, b, n, b', n', c, c', h1, -⟩ := h.1 _ _ false 97 98 _ _ _ 64 (walks_at eRelu he).1 (walks_of eRelu he) (by decide) (by decide)
    (by decide) (by decide) 2 (some 2) none _ []
    (bound34 eRelu he) (bound34 eRelu he) (fun hf => absurd hf (by decide)) (fun _ => rfl) (fun _ => ok_of _ (by decide)) (fun hf => absurd hf (by decide))
    (fun hf => absurd hf (by decide)) (fun hf => absurd hf (by decide))
  exact ⟨_, h1.1⟩
set_option maxRecDepth 20000 in
theorem witness_adjoint_handled (h : Claims.AdjointProducts) : (∃ s', walkStep (eMmah 3) = .next s') ∧ ∃ s', walkStep (eMmah 6) = .next s' := by
  constructor
  · have he : eMmah 3 ∈ walkEntries := by decide
    obtain ⟨s, t, b, n, l, h1, -⟩ := ((h _ _ false 97 98 _ _ _ 64 (walks_at (eMmah 3) he).1 (walks_of (eMmah 3) he) (by decide) (by decide) 2
      (bound34 (eMmah 3) he)).2 false desc0 ⟨TileShape.created, (xw (eMmah 3) carryEntry).team.tile 3⟩ (some 1) (by decide) (by decide)
      (by decide) (bound3 (eMmah 3) he) (by decide) (by decide) (by decide) [(0, 0, 32)] (by decide) (by decide)).1 (by decide) 1 _ rfl
      (fun b hb => ok_of _ (by
        obtain rfl : b = 0 := Nat.lt_one_iff.mp hb.1
        decide))
    exact ⟨_, h1.1⟩
  · have he : eMmah 6 ∈ walkEntries := by decide
    obtain ⟨s, t, b, n, l, _, _, _, h1, -⟩ := ((h _ _ false 97 98 _ _ _ 64 (walks_at (eMmah 6) he).1 (walks_of (eMmah 6) he) (by decide)
      (by decide) 2 (bound34 (eMmah 6) he)).2 false desc0 ⟨TileShape.created, (xw (eMmah 6) carryEntry).team.tile 6⟩ none (by decide)
      (by decide) (by decide) ⟨(bound_at (eMmah 6) he).2.2.2.2.2.1, nofun⟩ (by decide) (by decide) (by decide) [(0, 0, 32)] (by decide)
      (by decide)).2 (by decide) (by decide) (by decide) (fun b hb => by
        obtain rfl : b = 0 := Nat.lt_one_iff.mp hb.1
        exact ⟨by decide, by decide, by decide, fun h => absurd h (by decide)⟩)
    exact ⟨_, h1.1⟩
/-- A mark entry: for Obligations.ReverseResult's clause on it. -/
theorem witness_mark : eMark ∈ walkEntries ∧ eMark.kind = 3 := by decide
/-- Register 3 of the placed team has its created shape, and no other; accumulator 2 has the created one. -/
theorem witness_kept : x0.team.tileShape 3 = ⟨32, 32, 8, false, false, 0⟩ ∧ (∀ m n, x0.team.tileShape 3 ≠ ⟨16, 32, 8, false, m, n⟩) ∧
    x0.team.accShape (34 - 32) = (256, 256) ∧ x0.team.accShape (34 - 32) ≠ (32, 32) ∧ ∀ k, placed.covered k = false := by
  have h : x0.team.tileShape 3 = ⟨32, 32, 8, false, false, 0⟩ := by decide
  exact ⟨h, fun m n => by rw [h]; simp, by decide, by decide, fun _ => rfl⟩
/-- A descriptor of `sqcfg` at 0 of the unit store: a grid of one tile, whose records are at 256. -/
def sequencing : State := { placed with mem := ⟨[(unitKey 0 0, 1), (unitKey 0 2, 1), (unitKey 0 9, 1)]⟩ }
def seq1 : SeqCfg := ⟨1, 1, 0, 0, 256, 0⟩
set_option maxRecDepth 20000 in
theorem witness_sequencer : sequencing.ctx = some (ctxOf sequencing) ∧ (ctxOf sequencing).g.handler = false ∧ (ctxOf sequencing).ready [97, 98] ∧
    ((ctxOf sequencing).uni 97).toNat = 0 ∧ readSeqDesc (sequencing.storeRead (ctxOf sequencing).team 0 0 64) = some (seq1, false) ∧
    sequencing.boundSlot 0 0 0 = none ∧ seq1.tbase + 160 * seq1.tiles ≤ sequencing.storeEnd (ctxOf sequencing).team 0 ∧
    sequencing.freeSlot 0 = some 0 ∧ ((ctxOf sequencing).g.cls 3).ops.length < 127 :=
  ⟨by decide, by decide, rfl, by decide, by decide, by decide, by decide, by decide, by decide⟩
/-- Slot 0 of the sequencer is bound, and the oldest class 3 operation is one of these. -/
def slot0 : SeqSlot := ⟨0, 0, seq1, 0, none, [], [], 0, 0, 0, none, false⟩
def seqState (o : Op) : State := { working 3 o with seqSlots := Map.empty.set 0 slot0 }
def seqOps : List (SeqWork × Bool) := [(.sqfull, false), (.sqfree, false), (.sqcfg 0 seq1 false, false), (.sqsig 0 seq1 3 square 0, false),
  (.sqsig 0 seq1 3 square 0, true)]
def seqOp (w : SeqWork × Bool) : Op := { opOf (.seqr w.1) with cancel := w.2 }
theorem witness_sequencer_turn : ∀ w ∈ seqOps, ((seqState (seqOp w)).debugOf 0).frozen = false ∧
    (seqState (seqOp w)).groups.find (slotKey 0 0) = some (ctxOf (seqState (seqOp w))).g ∧
    (seqState (seqOp w)).teams.find 0 = some x0.team ∧ (seqState (seqOp w)).launches.find x0.team.launch = some x0.launch ∧
    (ctxOf (seqState (seqOp w))).g.frags ≠ [] ∧ x0.team.stopped = false ∧ ((ctxOf (seqState (seqOp w))).g.cls 3).ops = [seqOp w] ∧
    (seqState (seqOp w)).seqReady 0 0 (seqOp w) w.1 = true ∧ (seqOp w).written ≤ w.1.accesses ∧
    (seqState (seqOp w)).mem.wf = true ∧ (seqState (seqOp w)).seqSlots.find 0 = some slot0 := by decide
/-- Another group has a step open on the slot. -/
theorem witness_step_open : ({ placed with seqSlots := Map.empty.set 0 { slot0 with openBy := some 5 } } : State).boundSlot 0 0 0 =
    some (0, { slot0 with openBy := some 5 }) ∧ x0.g.step = none ∧ x0.ready [98] ∧ (x0.uni 98).toNat < 256 := ⟨by decide, by decide, rfl, by decide⟩
theorem witness_kiln : placed.ctx = some x0 ∧ KilnDoes placed x0 (.kcal false 97) { m := false, h := 97, srcs := [], work := .kcal, ok := True } ∧
    x0.g.handler = false ∧ (placed.kiln 0).claim = none ∧ x0.ready [] ∧ (x0.g.cls 2).ops.length < 127 :=
  ⟨by decide, .kcal .., by decide, by decide, rfl, by decide⟩
/-- Another team holds the kiln. -/
theorem witness_kiln_held : (({ placed with kilns := Map.empty.set 0 { Kiln.fresh with claim := some 9 } } : State).kiln 0).claim = some 9 ∧
    (9 : Nat) ≠ x0.g.team := by decide

theorem witness_hod : hodState.hodCtx = some (hodState.hodCtx.getD ⟨0, false, Hod.off, 0, x0.team, x0.launch⟩) ∧
    HodDoes Hod.off 4 (.lui 1 2) ⟨1, BitVec.ofInt 64 (signedOf 32 ((2 : BitVec 20).toNat * 2 ^ 12)), Hod.off.pc + BitVec.ofNat 64 4⟩ ∧
    hodState.hodCtx.isSome = true := ⟨by decide, .lui .., by decide⟩
/-- A hod's double word at 8 of its data store is granted, and nothing lies at 0x7FFFFFF8. -/
theorem witness_hod_access : (hodState.hodCtx.bind fun x => x.places .load 0x10008 8).isSome = true ∧
    (hodState.hodCtx.map fun x => x.places .store 0x7FFFFFF8 8) = some none := by decide

/-- The hod's team owns queue 2 with one entry, and ring 5 with one filled slot. -/
def hodUnits : State := (hodState.putQueue 0 2 ⟨some 0, [9], 0⟩).putRing 0 5 ⟨some 0, 0, 32, 2, 0, 1, []⟩
theorem witness_hod_units : hodUnits.hodCtx.isSome = true ∧ (hodUnits.queue 0 2).owner = hodUnits.hodCtx.map (·.uid) ∧
    (hodUnits.queue 0 2).items = [9] ∧ (hodUnits.ring 0 5).count ≠ 0 ∧ (hodUnits.ring 0 5).owner = some 0 ∧
    (hodUnits.teams.find 0).map (·.launch) = hodUnits.hodCtx.map (fun x => x.team.launch) ∧ 0 < (hodUnits.ring 0 5).nfill ∧
    (hodUnits.queue 0 3).owner ≠ hodUnits.hodCtx.map (·.uid) := by decide

/-- A packet of a type with LEN and a body for context 0, in the host's memory at 0 behind port 0, and ring 3 over it. The one entry of
the context's table, at 0 of HBM, maps its memory onto the host's with every right. -/
def packetHead (type len : Nat) : List Byte := [BitVec.ofNat 8 type, 0] ++ leBytes 2 len ++ leBytes 2 0 ++ leBytes 2 1 ++ leBytes 4 0x55
def packet (type len : Nat) (body : List Byte) : List Byte :=
  packetHead type len ++ leBytes 2 (crc16 (packetHead type len ++ [0, 0, 0, 0])).toNat ++ [0, 0] ++ body
def ringing (type len : Nat) (body : List Byte) : State :=
  { ({ placed with
      ready := true
      mem := ⟨[(0, 0x3B), (7, 1)]⟩
      workRings := Map.empty.set 3 ⟨0x8000000000000000, 256, true, false, false, BitVec.ofNat 32 (16 * len), 0, [], [], none, none⟩ } : State).storeBytes
        (hostKey 0 0) (packet type len body) with cur := .none }
def headOf (s : State) (len : Nat) : Packet := ⟨0, 3, 1, false, 0, 1, 0x55, (s.ringBytes 0 (s.workRing 0 3) (16 * len)).drop 16⟩
set_option maxRecDepth 20000 in
theorem witness_barrier_packet : (headOf (ringing 5 2 (zeroBytes 16)) 2).atHead (ringing 5 2 (zeroBytes 16)) 5 ∧
    field (headOf (ringing 5 2 (zeroBytes 16)) 2).body 8 8 = 0 := by
  unfold Packet.atHead; decide
/-- A wait for a value that is not 0 at 0x1000. -/
def waitBody : List Byte := leBytes 8 0x1000 ++ zeroBytes 8 ++ leBytes 8 0xFF ++ [1] ++ zeroBytes 7
set_option maxRecDepth 20000 in
theorem witness_wait_value : (headOf (ringing 3 3 waitBody) 3).atHead (ringing 3 3 waitBody) 3 ∧
    (headOf (ringing 3 3 waitBody) 3).current (ringing 3 3 waitBody) = true ∧
    (ringing 3 3 waitBody).readVirt 0 0x1000 8 = some (zeroBytes 8) ∧ field waitBody 24 1 ≤ 3 ∧ field waitBody 25 7 = 0 := by
  unfold Packet.atHead; decide
/-- A signal that stores 7 at 0x1000. -/
def signalBody : List Byte := leBytes 8 0x1000 ++ leBytes 8 7 ++ zeroBytes 16
set_option maxRecDepth 20000 in
theorem witness_signal : (headOf (ringing 4 3 signalBody) 3).atHead (ringing 4 3 signalBody) 4 ∧
    (headOf (ringing 4 3 signalBody) 3).current (ringing 4 3 signalBody) = true ∧ field signalBody 16 1 ≤ 1 ∧ field signalBody 17 15 = 0 ∧
    ((ringing 4 3 signalBody).writeVirt 0 0x1000 (leBytes 8 7)).isSome = true := by
  unfold Packet.atHead; decide
set_option maxRecDepth 20000 in
theorem witness_launch_packet : (headOf (ringing 1 10 (zeroBytes 144)) 10).atHead (ringing 1 10 (zeroBytes 144)) 1 ∧
    (headOf (ringing 1 10 (zeroBytes 144)) 10).current (ringing 1 10 (zeroBytes 144)) = true := by
  unfold Packet.atHead; decide
set_option maxRecDepth 20000 in
theorem witness_destroy : (headOf (ringing 7 2 (zeroBytes 16)) 2).atHead (ringing 7 2 (zeroBytes 16)) 7 ∧
    (headOf (ringing 7 2 (zeroBytes 16)) 2).current (ringing 7 2 (zeroBytes 16)) = true ∧
    ∀ e ∈ (ringing 7 2 (zeroBytes 16)).contexts.entries, e.2.destroying = none := by
  unfold Packet.atHead; decide
/-- CONTEXT_CREATE of context 0 where it is not live. -/
def creating : State := { ringing 6 5 (zeroBytes 64) with contexts := Map.empty }
set_option maxRecDepth 20000 in
theorem witness_create : (headOf creating 5).atHead creating 6 ∧ (creating.context 0).live = false ∧
    (headOf creating 5).body = zeroBytes 64 := by
  unfold Packet.atHead; decide
/-- A task packet for the launch, of one group at entry 0 without a handler. -/
def taskDesc : List Byte := zeroBytes 6 ++ [1] ++ zeroBytes 9 ++ [0xFF, 0xFF, 0xFF, 0xFF] ++ zeroBytes 12 ++
  (List.replicate 6 (zeroBytes 12 ++ [0xFF, 0, 0, 0])).flatten ++ zeroBytes 32
def taskBody : List Byte := leBytes 4 1 ++ zeroBytes 12 ++ taskDesc
set_option maxRecDepth 20000 in
theorem witness_task_packet : (headOf (ringing 2 12 taskBody) 12).atHead (ringing 2 12 taskBody) 2 ∧
    (headOf (ringing 2 12 taskBody) 12).current (ringing 2 12 taskBody) = true ∧
    (headOf (ringing 2 12 taskBody) 12).body = taskBody ∧ field taskBody 0 4 = 1 ∧ (ringing 2 12 taskBody).tasks.entries = [] := by
  unfold Packet.atHead; decide
set_option maxRecDepth 20000 in
theorem witness_task_desc : firstBad (taskLimits taskDesc x0.launch.image) = none ∧ firstBad (windowLimits taskDesc x0.launch.dieWin) = none ∧
    taskDesc.length = 160 ∧ x0.launch.form ≠ 1 := by decide
/-- The descriptor at 0 of the unit store, for `tspn`. -/
def tasking : State := placed.storeBytes (unitKey 0 0) taskDesc
set_option maxRecDepth 20000 in
theorem witness_tspn : tasking.ctx = some (ctxOf tasking) ∧ (ctxOf tasking).ready [98] ∧ ((ctxOf tasking).uni 98).toNat = 0 ∧
    (ctxOf tasking).g.handler = false ∧ (ctxOf tasking).team.kind ≠ 1 ∧ (ctxOf tasking).unitFree tasking 0 160 ∧
    tasking.mem.bytes (unitKey 0 0) 160 = taskDesc ∧ (tasking.context (ctxOf tasking).ctxNum).gen = (ctxOf tasking).launch.gen :=
  ⟨by decide, rfl, by decide, by decide, by decide, by unfold Ctx.unitFree; decide, by decide, by decide⟩
/-- A task whose turn it is, and a completed one. -/
def kernel0 : Kernel := { placedKernel with unit := 512, tiles := 0, accs := 0, caps := 0 }
def task0 (st : TaskState) : Task := ⟨1, 0, kernel0, 0, false, [], [], [], [none, none], st, [], [], [], [], [], false, 0, none, [], 0⟩
def tasks (st : TaskState) : State := { placed with tasks := Map.empty.set 4 (task0 st), cur := .none }
def seat1 : Seat := ⟨0, 1, 0, [0]⟩
/-- Every core has at least 8 MiB of unit store (R16). -/
theorem unitCap_holds (die : Nat) : 512 ≤ unitCap die := by unfold unitCap; split <;> omega
theorem seat_of (s : State) (h : Config.fusedCore 1 = false)
    (hs : (s.dieReset.get 0 0 == 0 && ((s.teamsOn 1).all fun t => t.leaving != 1) && decide ((s.teamsOn 1).length < 8)
      && decide (((s.teamsOn 1).map fun t => t.slots.length).sum + 1 ≤ 64) && decide (((s.teamsOn 1).map fun t => t.kernel.tiles).sum ≤ 16)
      && decide (((s.teamsOn 1).map fun t => t.kernel.accs).sum ≤ 32)
      && decide (((s.teamsOn 1).map fun t => (s.launchOf t).regions.length).sum + x0.launch.regions.length ≤ 8)
      && s.codeFits 1 x0.launch.image && s.windowFits 0 x0.launch && ((s.teamsOn 1).all fun t => apart 0 512 t.base t.kernel.unit)
      && s.slotFree 1 0) = true) : s.seatFits x0.launch kernel0 1 seat1 = true := by
  have := unitCap_holds 0
  simp only [Bool.and_eq_true] at hs
  obtain ⟨⟨⟨⟨⟨⟨⟨⟨⟨⟨h1, h2⟩, h3⟩, h4⟩, h5⟩, h6⟩, h7⟩, h8⟩, h9⟩, h10⟩, h11⟩ := hs
  simp only [State.seatFits, State.coreFits, coreServes, seat1, h, dieOf, kernel0, rising]
  simp_all
set_option maxRecDepth 20000 in
/-- A seat on core 1, where the part's repairs left core 1 on (which cores are fused is the part's). -/
theorem witness_seat (h : Config.fusedCore 1 = false) : (tasks .queued).seatFits x0.launch kernel0 1 seat1 = true :=
  seat_of _ h (by decide)

/-! ### Teams, tasks and the scheduler -/

set_option maxRecDepth 20000 in
/-- A task starts where core 1 is on: for the clauses of TASK_START. -/
theorem witness_task_start (h : Config.fusedCore 1 = false) : (tasks .queued).tasks.find 4 = some (task0 .queued) ∧
    (tasks .queued).launches.find 1 = some x0.launch ∧ x0.launch.ending = none ∧ (tasks .queued).taskCancelled 4 = false ∧
    (task0 .queued).shapeFits x0.launch = true ∧ dieOf seat1.core = 0 ∧ seat1.teamIx = 0 ∧
    (tasks .queued).seatFits x0.launch kernel0 1 seat1 = true := by
  refine ⟨by decide, by decide, by decide, by decide, ?_, by decide, by decide, witness_seat h⟩
  have hu := unitCap_holds 0
  simp only [Task.shapeFits, List.any_eq_true]
  refine ⟨1, by decide, ?_⟩
  have hd : x0.launch.dieWin ≤ dieCap 0 := by
    have : x0.launch.dieWin = 65536 := by decide
    rw [this]; unfold dieCap; split <;> omega
  simp [coreServes, task0, kernel0, h, dieOf, hu, hd]
  decide
set_option maxRecDepth 20000 in
theorem witness_task_no_core : (task0 .queued).state = .queued ∧
    ({ task0 .queued with kernel := { kernel0 with unit := 2 ^ 30 } } : Task).shapeFits x0.launch = false := by
  refine ⟨by decide, ?_⟩
  have hu : ¬ 2 ^ 30 ≤ unitCap 0 := by unfold unitCap; split <;> omega
  have hu' (d : Nat) : ¬ 1073741824 ≤ unitCap d := by unfold unitCap; split <;> omega
  simp [Task.shapeFits, coreServes, task0, hu']
theorem witness_task_commit : (tasks .completed).tasks.find 4 = some (task0 .completed) ∧ (task0 .completed).host = none ∧
    (∀ o ∈ (task0 .completed).renamed, o = none) ∧ (∀ e ∈ (tasks .completed).teams.entries, e.2.task ≠ some 4) ∧
    (∀ v ∈ (tasks .completed).saved, v.team.task ≠ some 4) := by decide

/-- A launch of one team of 512 bytes that has not been placed. -/
def launch1 : Launch := { x0.launch with kernel := kernel0, unplaced := [0] }
def placing : State := { placed with launches := Map.empty.set 1 launch1, teams := Map.empty, groups := Map.empty, cur := .none }
theorem seat_of_launch (s : State) (l : Launch) (h : Config.fusedCore 1 = false) (hi : l.image = x0.launch.image)
    (hr : l.regions = []) (ht : s.teams = Map.empty) (hg : s.groups = Map.empty) (hd : s.dieReset = Map.empty)
    (hw : s.windowFits 0 l = true) (k : Kernel) (hk : k.unit = 512 ∧ k.caps % 2 = 0 ∧ k.tiles ≤ 16 ∧ k.accs ≤ 32) :
    s.seatFits l k 1 seat1 = true := by
  have hu := unitCap_holds 0
  have hn : s.teamsOn 1 = [] := by rw [State.teamsOn, ht]; rfl
  have hc : s.codeFits 1 l.image = true := by
    rw [hi]; simp only [State.codeFits, State.imagesOn, hn, List.map_nil, List.dedup_nil]; decide
  have hz : s.slotFree 1 0 = true := by rw [State.slotFree, hn, hg]; decide
  have hz2 : (s.dieReset.get 0 0 == 0) = true := by rw [hd]; decide
  simp [State.seatFits, State.coreFits, coreServes, seat1, h, dieOf, rising, hn, hr, hz, hk.1, hk.2.1, hk.2.2.1, hk.2.2.2, hu, hw, hc]
  simpa using hz2
set_option maxRecDepth 20000 in
theorem witness_team_placement (h : Config.fusedCore 1 = false) : placing.launches.find 1 = some launch1 ∧ launch1.cogrid = false ∧
    launch1.kernel.clw = 1 ∧ launch1.kernel.clh = 1 ∧ launch1.ending = none ∧ seat1.teamIx ∈ launch1.unplaced ∧
    seat1.teamIx ∉ launch1.ended ∧ seat1.teamIx < launch1.gridx * launch1.gridy ∧ placing.seatFits launch1 launch1.kernel launch1.kernel.groups seat1 = true ∧
    placing.mem.wf = true :=
  ⟨by decide, by decide, by decide, by decide, by decide, by decide, by decide, by decide,
    seat_of_launch _ _ h (by decide) (by decide) (by decide) (by decide) (by decide) (by decide) _ (by decide), by decide⟩
/-- A record, a bin of it, and a launch with epochs that holds it. -/
def rec0 : Rec := ⟨0, [], 0, 0⟩
def binned : State := { placing with bins := [(0, ⟨1, 0, [rec0]⟩)] }
theorem witness_bin : binned.bins[0]? = some (0, ⟨1, 0, [rec0]⟩) ∧ binned.launches.find 1 = some launch1 ∧
    (∀ g ∈ binned.groupsOf 1, launch1.groupStuck g = true) := by decide
def epochLaunch : Launch := { launch1 with form := 1, spheld := [rec0], unplaced := [] }
def epoch : State := { placing with launches := Map.empty.set 1 epochLaunch }
theorem witness_epoch : epoch.launches.find 1 = some epochLaunch ∧ epochLaunch.form ≠ 0 ∧ epochLaunch.spheld ≠ [] ∧
    epochLaunch.unplaced = [] ∧ (∀ f ∈ epoch.formed, f.2.launch ≠ 1) ∧ (∀ g ∈ epoch.groupsOf 1, g.frags = []) ∧
    (∀ v ∈ epoch.saved, v.team.launch ≠ 1) ∧
    epochLaunch.formIx + epochLaunch.spheld.length ≤ 65536 - epochLaunch.gridx * epochLaunch.gridy := by decide
def spawnLaunch : Launch := { launch1 with kernel := { kernel0 with spawnPool := 1 } }
def formed : State := { placing with launches := Map.empty.set 1 spawnLaunch, formed := [(0, ⟨1, 0, [rec0], 0⟩)] }
theorem witness_spawn_team (h : Config.fusedCore 1 = false) : formed.formed[0]? = some (0, ⟨1, 0, [rec0], 0⟩) ∧
    formed.launches.find 1 = some spawnLaunch ∧ spawnLaunch.ending = none ∧
    ((formed.teams.values ++ formed.saved.map (·.team)).filter fun t => t.launch = 1 ∧ t.kind = 1).length < spawnLaunch.kernel.spawnPool ∧
    ({ seat1 with teamIx := 1 } : Seat).teamIx = spawnLaunch.gridx * spawnLaunch.gridy + 0 % (65536 - spawnLaunch.gridx * spawnLaunch.gridy) ∧
    (∀ t ∈ formed.teams.values ++ formed.saved.map (·.team), t.launch = 1 → t.kind = 1 → t.teamIx ≠ 1) ∧
    formed.seatFits spawnLaunch spawnLaunch.kernel 1 { seat1 with teamIx := 1 } = true :=
  ⟨by decide, by decide, by decide, by decide, by decide, by decide,
    seat_of_launch _ _ h (by decide) (by decide) (by decide) (by decide) (by decide) (by decide) _ (by decide)⟩

/-- A launch of class 2 with a team to place that needs a tile asks for the team of the placed launch, which is of class 0 and has them
all, where the part has no other core. -/
def launch2 : Launch := { launch1 with kernel := { kernel0 with tiles := 1 }, latclass := 2 }
def asked : State := { placed with launches := placed.launches.set 2 launch2 }
def demand2 : Demand := ⟨launch2.kernel, 1, List.range 8, [(1, 1)]⟩
set_option maxRecDepth 20000 in
theorem assignable_one (room : Nat → Nat) (hz : ∀ c, c ≠ 0 → room c = 0) :
    assignable room [(1, 1)] Map.empty = decide (0 < room 0) := by
  by_cases h : 0 < room 0
  · rw [decide_eq_true h]
    simp only [assignable, List.any_eq_true]
    refine ⟨(0, 0, 0), by decide, ?_⟩
    simp [rectLies, rectCores, rectCore, Map.get, Map.find, Map.empty, findEntry, h]
  · have : room = fun _ => 0 := by
      funext c
      by_cases hc : c = 0
      · subst hc; omega
      · exact hz c hc
    subst this
    decide
theorem room_zero (h : ∀ c, Config.fusedCore c = decide (c ≠ 0)) (s : State) (d : Demand) (c : Nat) (hc : c ≠ 0) :
    s.demandRoom launch2 d c = 0 := by
  simp [State.demandRoom, State.roomNow, State.coreFits, coreServes, h, hc]
theorem room_taken : asked.demandRoom launch2 demand2 0 = 0 := by
  have h1 : asked.teamsOn 0 = [x0.team] := by decide
  have h2 : x0.team.kernel.tiles = 16 := by decide
  simp [State.demandRoom, State.roomNow, State.coreFits, h1, h2, demand2, launch2]
theorem room_made (h : ∀ c, Config.fusedCore c = decide (c ≠ 0)) : 0 < (asked.withoutBelow 2).demandRoom launch2 demand2 0 := by
  have hn : (asked.withoutBelow 2).teamsOn 0 = [] := by decide
  have hc : (asked.withoutBelow 2).codeFits 0 x0.launch.image = true := by
    simp only [State.codeFits, State.imagesOn, hn, List.map_nil, List.dedup_nil]; decide
  have hz : (asked.withoutBelow 2).dieReset.get 0 0 = 0 := by decide
  have hu := unitCap_holds 0
  have hf : (asked.withoutBelow 2).coreFits 0 launch2 demand2.kernel 1 = true := by
    simp [State.coreFits, coreServes, h, hn, hz, dieOf, demand2, launch2, launch1, kernel0, hu]
    exact ⟨by decide, hc⟩
  have hp : 0 < placesLeft (unitCap 0) 512 8 [] := by simp [placesLeft, hu]
  have hd : demand2.dies.contains (dieOf 0) = true := by decide
  have hg : demand2.groups = 1 := rfl
  simp only [State.demandRoom, hd, if_true, State.roomNow, hg, hf, hn]
  simp [demand2, launch2, launch1, kernel0, dieOf] at hp ⊢
  exact ⟨by decide, hp⟩
set_option maxRecDepth 20000 in
theorem witness_preemption (h : ∀ c, Config.fusedCore c = decide (c ≠ 0)) : asked.teamNamed 0 1 0 = some 0 ∧
    asked.teams.find 0 = some x0.team ∧ x0.team.leaving = 0 ∧ asked.mayRequest x0.team 200 = true ∧ placed.mayRequest x0.team 200 = false ∧
    asked.companions 0 = [0] ∧ (asked.debugOf x0.team.core).halted = false ∧
    ∀ k g, asked.groups.find k = some g → g.team = 0 → (g.cls 1).ops = [] := by
  refine ⟨by decide, by decide, by decide, ?_, by decide, by decide, by decide, ?_⟩
  · have hm : asked.needs launch2 demand2 0 = true := by
      have hz := room_zero h asked demand2
      have hz' := room_zero h (asked.withoutBelow 2) demand2
      have hs : demand2.shapes = [(1, 1)] := rfl
      have hl : launch2.latclass = 2 := rfl
      simp only [State.needs, State.meets, hs, hl, assignable_one _ hz, assignable_one _ hz', room_taken]
      simp only [room_made h, decide_true, Bool.and_true, decide_false, Bool.not_false, List.any_eq_true, Bool.true_and,
        List.mem_singleton, exists_eq_left, Nat.lt_irrefl]
      refine ⟨(0, 0, 0), by decide, ?_⟩
      simp [rectLies, rectCores, rectCore, room_made h]
    have ha : asked.launches.entries = [(1, x0.launch), (2, launch2)] := by decide
    have hd : asked.demands 2 launch2 = [demand2] := by decide
    have hv : asked.teams.values = [x0.team] := by decide
    have hc : x0.team.core = 0 := by decide
    have hw : asked.wants 2 launch2 x0.team = true := by
      have h1 : (launch2.ending.isNone && decide (x0.team.leaving = 0) && decide ((asked.launchOf x0.team).latclass < launch2.latclass)) = true := by
        decide
      simp [State.wants, h1, hd, hc, hm]
    have hb : (200 == classBound launch2.latclass) = true := by decide
    simp [State.mayRequest, ha, hv, hw, hb]
  · intro k g hk _
    rw [show asked.groups = placed.groups from rfl] at hk
    rw [(placed_groups k g hk).2]; decide
theorem witness_methods : [(0, x0.team)] ≠ [] ∧
    [(0, x0.team)].map (fun p => (p.1, some p.2)) = [0].map (fun u => (u, placed.teams.find u)) := by decide
theorem witness_drain : (withTeam fun t => { t with leaving := 1 }).teams.find 0 = some { x0.team with leaving := 1 } ∧
    (withTeam fun t => { t with leaving := 1 }).companions 0 = [0] ∧
    ((withTeam fun t => { t with leaving := 1 }).debugOf 0).halted = false ∧
    (({ placed with debugs := Map.empty.set 0 ⟨true, false, false, false⟩ } : State).debugOf 0).halted = true := by decide
def sliced : State := withLaunch fun l => { l with tslice := true, unplaced := [0] }
theorem witness_timeslice : sliced.launches.find 1 = some { x0.launch with tslice := true, unplaced := [0] } ∧
    (sliced.teams.entries.filter fun e => e.2.launch = 1) = [(0, x0.team)] ∧ sliced.companions 0 = [0] ∧
    (∀ e ∈ sliced.hods.entries, e.2.claim ≠ some 0) ∧ sliced.demands 1 { x0.launch with tslice := true, unplaced := [0] } ≠ [] ∧
    placed.demands 1 x0.launch = [] ∧ (sliced.debugOf 0).halted = false := by decide
/-- A saved spawn team, whose area at 0x1000 is not good: nothing maps it. -/
def saved1 : SavedTeam := { (default : SavedTeam) with
  uid := 9
  team := { x0.team with kind := 1, kernel := kernel0 }
  groups := [x0.g]
  area := 0x1000
  total := 64 }
def restoring : State := { placing with saved := [saved1] }
theorem witness_restore_bad : restoring.launches.find 1 = some launch1 ∧
    (restoring.saved.filter fun w => w.team.launch = 1 ∧ w.team.teamIx = seat1.teamIx) = [saved1] ∧ (restoring.saved.filter fun w => w.uid = 9) = [saved1] ∧
    restoring.areaGood saved1 = false ∧ saved1.team.kind ≠ 0 := by decide
set_option maxRecDepth 20000 in
theorem witness_restore_fits (h : Config.fusedCore 1 = false) : restoring.restoreFits launch1 saved1 seat1 = true := by
  have := seat_of_launch restoring launch1 h (by decide) (by decide) (by decide) (by decide) (by decide) (by decide) kernel0 (by decide)
  have h1 : saved1.team.kernel = kernel0 := by decide
  have h2 : saved1.groups.length = 1 := by decide
  simp only [State.restoreFits, h1, h2, this]
  decide
/-- The same with an area of 64 bytes in the host's memory that the table maps, whose FORMAT, TOTAL and CRC are good. -/
def area1 (crc : Nat) : List Byte := leBytes 4 0x10000 ++ zeroBytes 12 ++ leBytes 8 64 ++ zeroBytes 16 ++ leBytes 4 crc ++ zeroBytes 20
def restorable : State := ({ restoring with mem := ⟨[(0, 0x3B), (7, 1)]⟩ } : State).storeBytes (hostKey 0 0x1000)
  (area1 (crc32c (area1 0)).toNat)
set_option maxRecDepth 20000 in
theorem witness_restore_good : restorable.areaGood saved1 = true ∧ restorable.mem.wf = true ∧ (Memory.mk saved1.unitBytes).wf = true ∧
    (∀ c ∈ saved1.unitBytes, c.1 < saved1.team.kernel.unit) ∧ saved1.seqSlots = [] ∧ (∀ g ∈ saved1.groups, g.step = none) := by decide
set_option maxRecDepth 20000 in
/-- Its cluster is the team alone; one seat too many, and a grid team by itself. -/
theorem witness_clusters_return (h : Config.fusedCore 1 = false) : restorable.savedMates launch1 saved1 = [saved1] ∧
    [saved1].length ≠ [seat1, seat1].length ∧ (State.restoreAll launch1 [seat1] ([saved1].zip [seat1]) restorable).isSome = true := by
  refine ⟨by decide, by decide, ?_⟩
  have h1 : saved1.team.kernel = kernel0 := by decide
  have h2 : saved1.groups.length = 1 := by decide
  have h3 : (saved1.team.kind = 0) = False := by decide
  have h4 : restorable.restoreFits launch1 saved1 seat1 = true := by
    have := seat_of_launch restorable launch1 h (by decide) (by decide) (by decide) (by decide) (by decide) (by decide) kernel0 (by decide)
    simp only [State.restoreFits, h1, h2, this]
    decide
  simp [State.restoreAll, h3, h4]
theorem witness_grid_team : ({ saved1 with team := { saved1.team with kind := 0, ownHalf := [9], otherHalf := [] } } : SavedTeam).team.ownHalf = [saved1.uid] ∧
    launch1.cogrid = false ∧ launch1.kernel.clw = 1 ∧ launch1.kernel.clh = 1 ∧ saved1.team.teamIx < launch1.gridx * launch1.gridy := by decide

/-! ### The system controller, the host side and the fabric -/

/-- The module is up and a command with arguments is in progress at port 0. -/
def commandedBy (s : State) (op : Nat) (b : List Byte) : State := { s with
  ready := true
  cur := .none
  mailboxes := Map.empty.set 0 ⟨BitVec.ofNat 32 op, 1, b, some (op, b), false⟩ }
set_option maxRecDepth 20000 in
theorem witness_invalidation : (commandedBy placed 1 (zeroBytes 32)).commanded 0 1 (zeroBytes 32) ∧
    (commandedBy placed 1 (zeroBytes 32)).ownContext 0 0 = true ∧
    (commandedBy placed 1 (leBytes 4 7 ++ zeroBytes 28)).ownContext 0 7 = false := by unfold State.commanded; decide
def preemptArgs : List Byte := leBytes 4 0 ++ leBytes 4 1 ++ leBytes 4 0 ++ leBytes 4 20 ++ zeroBytes 16
set_option maxRecDepth 20000 in
theorem witness_preempt_command : (commandedBy placed 2 preemptArgs).commanded 0 2 preemptArgs ∧
    ((commandedBy placed 2 preemptArgs).mailbox 0).begun = false ∧ (commandedBy placed 2 preemptArgs).ownContext 0 0 = true ∧
    (commandedBy placed 2 preemptArgs).teamNamed 0 1 0 = some 0 ∧ (commandedBy placed 2 preemptArgs).companions 0 = [0] ∧
    ((commandedBy placed 2 preemptArgs).debugOf 0).halted = false := by
  unfold State.commanded; decide
/-- An entry that makes the first 64 KiB secure, in the host's memory at 0, and an open session. -/
def securing : State := commandedBy { State.reset with mem := ⟨[(hostKey 0 8, 1), (hostKey 0 12, 1)]⟩, sessions := [0] } 5
  (leBytes 8 0 ++ leBytes 4 16 ++ zeroBytes 20)
set_option maxRecDepth 20000 in
theorem witness_security : securing.commanded 0 5 (leBytes 8 0 ++ leBytes 4 16 ++ zeroBytes 20) ∧ securing.launches.entries = [] ∧
    (0 ∈ securing.sessions) ∧ field (securing.mem.bytes (hostKey 0 0) 16) 0 8 % 2 ^ 16 = 0 ∧
    field (securing.mem.bytes (hostKey 0 0) 16) 12 1 = 1 ∧ field (securing.mem.bytes (hostKey 0 0) 16) 13 3 = 0 := by
  unfold State.commanded; decide
def dieArgs (level : Nat) : List Byte := leBytes 4 7 ++ leBytes 4 level ++ zeroBytes 24
set_option maxRecDepth 20000 in
theorem witness_die_reset : (commandedBy placed 3 (dieArgs 2)).commanded 0 3 (dieArgs 2) ∧ field (dieArgs 2) 0 4 = 7 ∧
    (commandedBy placed 3 (dieArgs 2)).dieInUse 7 = false ∧ (commandedBy placed 3 (dieArgs 2)).dieInUse 0 = true ∧
    routesKeep (7 :: (commandedBy placed 3 (dieArgs 2)).downDies) = true ∧ ((commandedBy placed 3 (dieArgs 2)).mailbox 0).begun = false ∧
    ({ commandedBy placed 3 (dieArgs 2) with mailboxes := Map.empty.set 0 ⟨3, 1, dieArgs 2, some (3, dieArgs 2), true⟩ } : State).commanded
      0 3 (dieArgs 2) := by unfold State.commanded; decide
def updateArgs : List Byte := zeroBytes 12 ++ leBytes 4 1 ++ zeroBytes 16
set_option maxRecDepth 20000 in
/-- An image of no bytes is named; whether it verifies, and its version, are the part's. -/
theorem witness_update : (commandedBy State.reset 4 updateArgs).commanded 0 4 updateArgs ∧
    (commandedBy State.reset 4 updateArgs).update = none ∧ (commandedBy State.reset 4 updateArgs).resetting 0 = false ∧
    field updateArgs 12 4 = 1 - (commandedBy State.reset 4 updateArgs).fwSlot ∧ (commandedBy State.reset 4 updateArgs).fwVersion = 0 ∧
    field updateArgs 0 8 + field updateArgs 8 4 ≤ 2 ^ 48 ∧
    ({ commandedBy State.reset 4 updateArgs with
        mailboxes := (commandedBy State.reset 4 updateArgs).mailboxes.set 1 ⟨3, 1, dieArgs 2, some (3, dieArgs 2), true⟩ } : State).resetting
      0 = true ∧
    ({ commandedBy State.reset 4 updateArgs with update := some (0, 1), fwImages := Map.empty.set 1 ⟨[], 3, []⟩ } : State).commanded
      0 4 updateArgs := by
  unfold State.commanded; decide
theorem witness_bring_up : State.reset.ready = false ∧ State.reset.failed = false ∧ State.reset.mem.wf = true ∧ State.reset.noneStuck := by
  unfold State.noneStuck; decide
/-- An access of the host to HBM and one of a peer; the domain and the peer's number are the part's. -/
theorem witness_outside : (commandedBy State.reset 4 updateArgs).ready = true ∧
    (commandedBy State.reset 4 updateArgs).outerPlaces 64 (outerSize (.write [1, 2])) = some 64 ∧ 64 + outerSize (.read 8) ≤ 2 ^ 48 := by
  refine ⟨by decide, ?_, by decide⟩
  simp [State.outerPlaces, outerSize, hbmBacked, hbmBytes, hbmPlace, commandedBy, State.securePa, State.reset, Map.empty, Map.get, Map.find]
  decide
set_option maxRecDepth 20000 in
/-- The host has answered fault 5 of context 0 with ACTION 0: the table maps 0x1000 onto the host's memory. -/
def answered : State := ({ placed with
  ready := true
  mem := ⟨[(0, 0x3B), (7, 1)]⟩
  contexts := placed.contexts.modify 0 fun c => { c with faultResp := 0x1000, faultRing := 0x2000 }
  faults := Map.empty.set 5 ⟨0, zeroBytes 32, true, none⟩ } : State).storeBytes (hostKey 0 0x1000)
    (leBytes 4 1 ++ leBytes 4 1 ++ zeroBytes 56 ++ [5])
set_option maxRecDepth 20000 in
theorem witness_fault_answer : (answered.context 0).live = true ∧ (answered.context 0).faultResp = 0x1000 ∧
    (answered.readVirt 0 0x1000 12).map (fun b => (field b 0 4, field b 4 4, field b 8 4)) = some (1, 1, 0) ∧
    answered.readVirt 0 0x1040 8 = some [5, 0, 0, 0, 0, 0, 0, 0] ∧
    (answered.writeVirt 0 0x1008 (leBytes 4 1)).map (fun s => s.faults.find 5) = some (some ⟨0, zeroBytes 32, true, none⟩) ∧
    answered.faultRing 0 = some (0, 0, 0) ∧ answered.heldRecords 0 = [] ∧
    (((List.range 4).mapM fun i => answered.placeOf 0 ((answered.context 0).faultRing.toNat + 8 + i)).isSome) = true := by decide
set_option maxRecDepth 20000 in
/-- A broadcast of one module: the domain's size is the part's. -/
def broadcasting : State := { placed with mem := ⟨[(unitKey 0 0, 128), (unitKey 0 16, 64), (unitKey 0 28, 64), (unitKey 0 136, 1)]⟩ }
def broadcast : CollCmd := ⟨4, 0, false, false, false, none, 0, 64, 0, 0, 64, 0, [], 0, 0, 0, 1, 0, [0], 0, 0, none, none⟩
set_option maxRecDepth 20000 in
theorem witness_collective (h : 0 < Config.domainSize) : broadcasting.ctx = some (ctxOf broadcasting) ∧ (ctxOf broadcasting).ready [98] ∧
    (ctxOf broadcasting).g.handler = false ∧ CollAt broadcasting (ctxOf broadcasting) 4 ((ctxOf broadcasting).uni 98).toNat broadcast := by
  refine ⟨by decide, rfl, by decide, ?_⟩
  exact ⟨by decide, by decide, by decide, by decide, by decide, by decide, by decide, by decide, by decide, by decide, by decide,
    ⟨⟨0, 1, 0, 0, [0]⟩, by decide, by simp [CommRecord.good, h]; decide, by decide, by decide, by decide, by decide, by decide⟩,
    ⟨by decide, by decide, by rw [if_neg (by decide)]; decide⟩, by decide, fun _ _ hq => absurd hq (by simp [broadcast]), by decide⟩

/-! ### The machine as a whole -/

/-- The group is to run one word in a turn that leaves accesses behind. -/
def leaving (s : State) (w : W32) : State := { s with
  turns := [.groupLate 0 0]
  cur := .none
  launches := s.launches.modify 1 fun l => { l with image := ⟨[w, w], []⟩ } }
/-- R211 and R214: a store of 5 by four threads to 8 of the unit store is left behind. -/
noncomputable def left : State := (nextOf (step (leaving (withLanes 5 8) 0x29404100))).getD placed
theorem test_store_left : (left.groups.find 0).map (fun g => g.late.length) = some 4 ∧ left.mem.byte (unitKey 0 8) = 0 := by decide
/-- R219: the turn of one thread's access performs it. -/
theorem test_store_performed : (nextOf (step { left with turns := [.perform (.group 0 0) 0 0 0] })).map (fun s =>
    ((s.groups.find 0).map fun g => g.late.length, s.mem.byte (unitKey 0 8))) = some (some 3, 5) := by decide
/-- A store of the group has still to be performed where a copy writes, and a `fence` comes next. -/
noncomputable def fenced : State := { leaving { left with scoreboard := [⟨0, 0, 1, [(0, 1)]⟩] } 0xA8617F80 with turns := [] }
theorem witness_step_waits : ((fenced.aim 0 0 0).ctx.bind fun x => x.settled false (fenced.aim 0 0 0)) = none ∧
    (fenced.aim 0 0 0).ctx.isSome = true ∧ ((fenced.groups.find 0).map fun g => g.issuers x0.team) = some [0] := by decide
/-- No agent of the machine of one group has left anything behind. -/
theorem none_late (a : Actor) : placed.lateOf a = [] ∧ placed.viewsOf a = [] := by
  cases a with
  | group core slot =>
    simp only [State.lateOf, State.viewsOf]
    cases h : placed.groups.find (slotKey core slot) with
    | none => simp
    | some g => rw [(placed_groups _ g h).2]; decide
  | hod core store =>
    have : placed.hods = Map.empty := by decide
    simp [State.lateOf, State.viewsOf, this]
  | host => exact ⟨rfl, rfl⟩
  | peer => exact ⟨rfl, rfl⟩
theorem witness_step : ({ placed with turns := [.group 0 0], cur := .none } : State).groups.find (slotKey 0 0) = some x0.g ∧
    ({ placed with turns := [] } : State).mayIssue 0 x0.g x0.team = true ∧ (x0.g.issuers x0.team).head? = some 0 ∧ x0.g.late = [] ∧
    x0.g.claim = none ∧ x0.g.overlap = [] ∧ x0.g.views = [] ∧ x0.claimMet (.nop false) = false ∧ x0.claimants placed (.nop false) = [] ∧
    (({ placed with turns := [] } : State).aim 0 0 0).ctx.isSome = true ∧
    decodeAt (x0.launch.image.code.getD 0 0) (x0.launch.image.code.drop 1) = .ok (.nop false) 1 ∧
    isEvent (.throttling 0) = true := by decide
theorem witness_round_trip : Instr.wellFormed (.add true 95 127 0) = true ∧ encode (.add true 95 127 0) ≠ [] ∧
    fromHod (.add true 95 127 0) = false ∧ Instr.wellFormed (.hqPop 1 2) = true ∧ encode (.hqPop 1 2) ≠ [] ∧ fromHod (.hqPop 1 2) = true := by
  decide

end Sys2Proof.Tests
end

section
/-!
PROOFS. System registers and completion views (01_architecture): handles, class waits, fences, batches and margins (O24), and what
LHPC reads of a hod in a state that no step reaches (O20).
-/

namespace Sys2Proof.Machine

/-! ### Completion views (R24, R117, R118, R206, R207, R305, R306, R311) -/

theorem Group.handleRetired_eq (g : Group) (h : W32) :
    g.handleRetired h = (decide (6 ≤ h.toNat / 2 ^ 28) ||
      !((g.cls (h.toNat / 2 ^ 28)).ops.any fun o => o.seq = h.toNat % 2 ^ 24)) := rfl

theorem Group.handleRetired_iff (g : Group) (h : W32) : g.handleRetired h = true ↔
    6 ≤ h.toNat / 2 ^ 28 ∨ ∀ o ∈ (g.cls (h.toNat / 2 ^ 28)).ops, o.seq ≠ h.toNat % 2 ^ 24 := by
  simp [Group.handleRetired_eq]

/-- A wait on another class than 1 seals no batch. -/
theorem State.sealForWait_of_ne (s : State) (core slot : Nat) {c : Nat} (h : c ≠ 1) : s.sealForWait core slot c = s := by
  unfold State.sealForWait
  split
  · rfl
  · exact if_neg fun hc => h hc.1

section
variable {s : State} {x : Ctx} (hx : s.ctx = some x)
include hx

theorem execHwait_of_retired (m : Bool) (a : Nat) (hr : x.g.handleRetired (x.awaited.getD (x.uni a)) = true) :
    execHwait m a s = .next (x.completes s (if x.awaited.isSome then x.awaiting none else x.g) m 1) := by
  rw [execHwait, onFrag_of hx]; simp only [hr, if_true]; rfl

/-- Outside class 1 a fragment that waits changes nothing but the handle that it waits for. -/
theorem execHwait_of_outstanding (m : Bool) (a : Nat) (h : W32) (hh : x.awaited.getD (x.uni a) = h)
    (hr : x.g.handleRetired h = false) (hc : h.toNat / 2 ^ 28 ≠ 1) : execHwait m a s = .next (x.put s (x.awaiting (some h))) := by
  rw [execHwait, onFrag_of hx]
  simp only [hh, hr, Bool.false_eq_true, if_false]
  rw [State.sealForWait_of_ne _ _ _ (show handleClass h ≠ 1 from hc)]

theorem execHcancel_of_retired (m : Bool) (a : Nat) (hr : x.g.handleRetired (x.uni a) = true) :
    execHcancel m a s = .next (x.completes s x.g m 1) := by
  rw [execHcancel, onFrag_of hx]
  refine if_pos ?_
  simpa [Group.handleRetired] using hr

/-- `hcancel` marks the operation that its handle names (R118). -/
theorem execHcancel_of_outstanding (m : Bool) (a : Nat) (hr : x.g.handleRetired (x.uni a) = false) :
    ∃ g', execHcancel m a s = .next (x.completes s g' m 1) ∧ g' = { x.g with classes := g'.classes } ∧
      (∀ c, c ≠ handleClass (x.uni a) → g'.cls c = x.g.cls c) ∧
      (g'.cls (handleClass (x.uni a))).ops = (x.g.cls (handleClass (x.uni a))).ops.map fun o =>
        if o.seq = handleSeq (x.uni a) then { o with cancel := true } else o := by
  refine ⟨{ x.g with classes := x.g.classes.set (handleClass (x.uni a)) { x.g.cls (handleClass (x.uni a)) with
    ops := (x.g.cls (handleClass (x.uni a))).ops.map fun o => if o.seq = handleSeq (x.uni a) then { o with cancel := true } else o } },
    ?_, rfl, fun c hc => ?_, ?_⟩
  · rw [execHcancel, onFrag_of hx]
    refine if_neg ?_
    simpa [Group.handleRetired] using hr
  · simp [Group.cls, hc]
  · simp [Group.cls]

theorem execCwait_of_few (m : Bool) (c n : Nat) (h : 6 ≤ c ∨ (x.g.cls c).ops.length ≤ n) :
    execCwait m c n s = .next (x.completes s x.g m 1) := by
  rw [execCwait, onFrag_of hx]
  refine if_pos ?_
  simp only [Group.out]; split <;> omega

theorem execCwait_of_many (m : Bool) (c n : Nat) (h6 : c < 6) (h : n < (x.g.cls c).ops.length) (h1 : c ≠ 1) :
    execCwait m c n s = .next s := by
  rw [execCwait, onFrag_of hx]
  simp only [Group.out, if_neg (Nat.not_le.2 h6), if_neg (Nat.not_le.2 h), State.sealForWait_of_ne _ _ _ h1]

end

/-- A class that a `fence` waits for is one of its classes, and has an operation outstanding. -/
theorem Group.fenceWaits_some {g : Group} {ks c : Nat} (h : g.fenceWaits ks = some c) :
    c < 6 ∧ ks / 2 ^ c % 2 = 1 ∧ (g.cls c).ops ≠ [] := by
  unfold Group.fenceWaits at h
  have hp := List.find?_some h
  obtain ⟨hb, ho⟩ := of_decide_eq_true hp
  rw [Group.out] at ho
  split at ho
  · exact absurd rfl ho
  · next hc => exact ⟨by omega, hb, fun h0 => ho (by simp [h0])⟩

theorem Group.fenceWaits_none_iff (g : Group) (ks : Nat) :
    g.fenceWaits ks = none ↔ ∀ c, c < 6 → ks / 2 ^ c % 2 = 1 → (g.cls c).ops = [] := by
  rw [Group.fenceWaits, List.find?_eq_none]
  constructor
  · intro h c hc hb
    by_contra h0
    refine h c (List.mem_range.2 (by omega)) (decide_eq_true ⟨hb, ?_⟩)
    rw [Group.out, if_neg (by omega)]
    exact mt List.eq_nil_of_length_eq_zero h0
  · intro h c _ hw
    obtain ⟨hb, ho⟩ := of_decide_eq_true hw
    rw [Group.out] at ho
    split at ho
    · exact ho rfl
    · next hc => exact ho (by rw [h c (by omega) hb]; rfl)

theorem execFence_of_clear {s : State} {x : Ctx} (hx : s.ctx = some x) (m : Bool) (o : Order) (c : Scope) (ks : Nat)
    (h : ∀ k, k < 6 → ks / 2 ^ k % 2 = 1 → (x.g.cls k).ops = []) (hd : x.deferredFailure s o c = false) :
    execFence m o c ks s = .next (x.completes s x.g m 1) := by
  rw [execFence, onFrag_of hx, (x.g.fenceWaits_none_iff ks).2 h]
  simp [hd, Ctx.done_eq]

theorem execFence_of_outstanding {s : State} {x : Ctx} (hx : s.ctx = some x) (m : Bool) (o : Order) (c : Scope) (ks : Nat)
    (h1 : ks / 2 % 2 = 0) (h : ∃ k, k < 6 ∧ ks / 2 ^ k % 2 = 1 ∧ (x.g.cls k).ops ≠ []) : execFence m o c ks s = .next s := by
  obtain ⟨k, hk, hb, ho⟩ := h
  rw [execFence, onFrag_of hx]
  cases hw : x.g.fenceWaits ks with
  | none => exact absurd ((x.g.fenceWaits_none_iff ks).1 hw k hk hb) ho
  | some j =>
    obtain ⟨-, hj, -⟩ := Group.fenceWaits_some hw
    have hj1 : j ≠ 1 := by rintro rfl; simp only [pow_one] at hj; omega
    simp [h1, State.sealForWait_of_ne _ _ _ hj1]

/-! ### Sealing and accepting batches (R283, R305, R307) -/

/-- Nothing is left of the operations for a log where the engine has accepted all. -/
theorem toLog_of_accepted {o : Op} (h : o.order ≠ 0) : o.toLog = none := by
  unfold Op.toLog; split
  · next h0 _ => exact absurd h0 h
  · rfl

theorem filterMap_toLog_of_accepted {ops : List Op} (h : ∀ o ∈ ops, o.order ≠ 0) : ops.filterMap Op.toLog = [] :=
  List.filterMap_eq_nil_iff.2 fun o ho => toLog_of_accepted (h o ho)

/-- No entries, no bytes of a log that a copy could cover. -/
theorem State.logHeld_nil (s : State) (t : Team) (r : Option LogRef) : s.logHeld t r [] = false := by
  unfold State.logHeld
  split
  · rfl
  · simp [State.spanHeld]

theorem acceptOps_of_accepted (slot : Nat) (r : Option LogRef) : ∀ (ops : List Op) (s : State) (t : Team),
    (∀ o ∈ ops, o.order ≠ 0) → acceptOps slot r ops s t = (s, t, ops)
  | [], _, _, _ => rfl
  | o :: rest, s, t, h => by
    rw [acceptOps, if_pos (h o (List.mem_cons_self ..)),
      acceptOps_of_accepted slot r rest s t fun o ho => h o (List.mem_cons_of_mem _ ho)]

/-- A group with another class. -/
def Group.putClass (g : Group) (c : Nat) (k : ClassState) : Group := { g with classes := g.classes.set c k }

@[simp] theorem Group.putClass_team (g : Group) (c : Nat) (k : ClassState) : (g.putClass c k).team = g.team := rfl

@[simp] theorem Group.cls_putClass (g : Group) (c n : Nat) (k : ClassState) :
    (g.putClass c k).cls n = if n = c then k else g.cls n := by
  simp only [Group.cls, Group.putClass, Map.get_set]

/-- Where all of class 1 is accepted, acceptance changes nothing but what the maps of groups and teams list again. -/
theorem State.acceptBatch_of_accepted {s : State} {core slot : Nat} {g : Group} {t : Team}
    (hg : s.groups.find (slotKey core slot) = some g) (ht : s.teams.find g.team = some t) (h : ∀ o ∈ (g.cls 1).ops, o.order ≠ 0) :
    s.acceptBatch core slot = (s.putGroup core slot (g.putClass 1 (g.cls 1))).putTeam g.team t := by
  unfold State.acceptBatch
  simp only [hg, ht]
  have hn : ∀ n, ∀ o ∈ (g.cls 1).ops.take n, o.order ≠ 0 := fun n o ho => h o (List.mem_of_mem_take ho)
  rw [if_neg (by rw [filterMap_toLog_of_accepted (hn _), State.logHeld_nil]; simp), acceptOps_of_accepted _ _ _ _ _ (hn _)]
  simp only [List.take_append_drop]
  rfl

/-- A sealed group is as before but for its batches; classes may be listed again. -/
theorem Group.sealBatch_fields (g : Group) : g.sealBatch.1.team = g.team ∧ g.sealBatch.1.cls = g.cls ∧
    ∀ k, let g₁ := g.sealBatch.1.putClass 1 k
      g₁.batch = 0 ∧ g₁.batches.map (·.last) = g.batches.map (·.last) ++ (if g.batch = 0 then [] else [(g.cls 1).last]) ∧
      { g₁ with
        classes := g.classes, batch := g.batch, batches := g.batches, openLevel := g.openLevel, openReplays := g.openReplays } = g := by
  by_cases h : g.batch = 0
  · have e : g.sealBatch.1 = g := by rw [Group.sealBatch]; simp only [h, if_true]
    rw [e, if_pos h, List.append_nil]
    exact ⟨rfl, rfl, fun k => ⟨h, rfl, rfl⟩⟩
  · have e : g.sealBatch.1 = { g with
        batch := 0, openLevel := none, openReplays := 0, batches := g.batches ++ [⟨(g.cls 1).last, g.openLevel, g.openReplays⟩] } := by
      rw [Group.sealBatch]; simp only [h, if_false]
    rw [e, if_neg h]
    exact ⟨rfl, rfl, fun k => ⟨rfl, List.map_append, rfl⟩⟩

/-- R305: `mbatch` closes the batch. -/
theorem execMbatch_of_accepted {s : State} {x : Ctx} (hx : s.ctx = some x) (m : Bool) (d : Nat)
    (h : ∀ o ∈ (x.g.cls 1).ops, o.order ≠ 0) :
    ∃ (s' : State) (g₁ g' : Group), { s' with groups := s.groups, teams := s.teams } = s ∧
      { g₁ with
        classes := x.g.classes
        batch := x.g.batch
        batches := x.g.batches
        openLevel := x.g.openLevel
        openReplays := x.g.openReplays } = x.g ∧ g₁.batch = 0 ∧
      g₁.batches.map (·.last) = x.g.batches.map (·.last) ++ (if x.g.batch = 0 then [] else [(x.g.cls 1).last]) ∧
      { x with g := g₁ }.uniformSet g' d (wrap ((x.g.cls 1).last : Nat)) ∧
      execMbatch m d s = .next (x.completes s' g' m 1) := by
  obtain ⟨-, hg, -, ht, -⟩ := State.ctx_eq_some hx
  obtain ⟨hteam, hcls, hf⟩ := x.g.sealBatch_fields
  obtain ⟨hb, hl, hrest⟩ := hf (x.g.cls 1)
  have hs : s.sealGroup x.core x.slot = ((x.put s x.g.sealBatch.1).putGroup x.core x.slot
      (x.g.sealBatch.1.putClass 1 (x.g.cls 1))).putTeam x.g.team x.team := by
    rw [State.sealGroup, hg]
    simp only
    rw [State.acceptBatch_of_accepted (g := x.g.sealBatch.1) (t := x.team) (by simp) (by rw [hteam]; exact ht) (by rw [hcls]; exact h),
      hcls, hteam]
    rfl
  generalize x.g.sealBatch.1.putClass 1 (x.g.cls 1) = g₁ at hb hl hrest hs
  refine ⟨s.sealGroup x.core x.slot, g₁, _, by rw [hs]; rfl, hrest, hb, hl, Ctx.uniformSet_writeUni { x with g := g₁ } d _, ?_⟩
  rw [execMbatch, onFrag_of hx, hs]
  simp only [State.putTeam_groups, State.putGroup_groups, Map.find_set, if_true, Option.getD_some, wrap_natCast]
  rfl

/-- R306: `mwait` of a retired number writes MERR and clears it. -/
theorem execMwait_of_retired {s : State} {x : Ctx} (hx : s.ctx = some x) (m : Bool) (d a : Nat) (ha : x.ready [a])
    (h : ∀ o ∈ (x.g.cls 1).ops, o.seq ≠ (x.uni a).toNat % 2 ^ 24) :
    ∃ g', { x with g := { x.g with merr := 0 } }.uniformSet g' d (x.g.merr.setWidth 32) ∧
      execMwait m d a s = .next (x.completes s g' m 1) := by
  have hr : x.g.retired 1 (handleSeq (x.uni a)) = true := by
    rw [Group.retired, Bool.not_eq_true', List.any_eq_false]
    exact fun o ho hd => h o ho (of_decide_eq_true hd)
  refine ⟨_, Ctx.uniformSet_writeUni { x with g := { x.g with merr := 0 } } d _, ?_⟩
  rw [execMwait, onFrag_of hx, if_neg (by rw [Ctx.ready] at ha; simp [ha]), if_pos hr]
  rfl

/-- R311: `marg` sets the margin request of its core. -/
theorem execMarg_request {s : State} {x : Ctx} (hx : s.ctx = some x) (m : Bool) (n : Nat) :
    ∃ margins, (∀ c, margins.find c = if c = x.core then some { s.margin x.core with req := n, pend := true } else s.margins.find c) ∧
      execMarg m n s = .next (x.completes { s with margins := margins } x.g m 1) :=
  ⟨_, fun _ => Map.find_set .., by rw [execMarg, onFrag_of hx]; rfl⟩

/-- Settles O24: each completion view by the lemma on its meaning. -/
theorem completionViews : Obligations.CompletionViews := by
  intro s x m hx
  simp only [exec_hwait, exec_htest, exec_hstat, exec_hcancel, exec_cwait, exec_fence, exec_mwait, exec_mbatch, exec_marg]
  refine ⟨fun d a => ⟨fun hn => ⟨fun hg => ?_, fun hg hc => ?_⟩, ?_, ?_, fun hg => ?_, fun hg => ?_⟩, fun a w hw => ⟨fun hg => ?_, ?_⟩,
    fun c n => ⟨execCwait_of_few hx m c n, execCwait_of_many hx m c n⟩,
    fun o c ks => ⟨execFence_of_clear hx m o c ks, execFence_of_outstanding hx m o c ks⟩,
    fun d a => execMwait_of_retired hx m d a, fun d _ => execMbatch_of_accepted hx m d, execMarg_request hx m⟩
  · rw [execHwait_of_retired hx m a (by rw [hn]; exact hg), hn]; rfl
  · exact execHwait_of_outstanding hx m a _ (by rw [hn]; rfl) hg hc
  · exact ⟨_, x.uniformSet_writeUni d _, by rw [execHtest, onFrag_of hx]; rfl⟩
  · exact ⟨_, x.uniformSet_writeUni d _, by rw [execHstat, onFrag_of hx]; rfl⟩
  · exact execHcancel_of_retired hx m a hg
  · exact execHcancel_of_outstanding hx m a hg
  · rw [execHwait_of_retired hx m a (by rw [hw]; exact (x.g.handleRetired_iff w).2 hg), hw]; rfl
  · intro h6 h1 ho
    refine execHwait_of_outstanding hx m a w (by rw [hw]; rfl) ?_ h1
    rw [Bool.eq_false_iff, Ne, Group.handleRetired_iff]
    obtain ⟨o, ho, hseq⟩ := ho
    rintro (h | h)
    · omega
    · exact h o ho hseq

/-! ### System registers (R46, R114, R466) -/

/-- What LHPC and SHPC can read: the PC of a halted hod of the team, or 0 of another team's hod or of one whose STATUS is below 3 (R466). -/
theorem SysReads.hodpc_cases {s : State} {x : Ctx} {v : W32} {store : Bool} (h : SysReads s x (0x112 + 8 * store.toNat) v) :
    (s.hod x.core store).claim ≠ some x.g.team ∨ (s.hod x.core store).status ≤ 4 := by
  generalize hn : 0x112 + 8 * store.toNat = n at h
  have hb : ∀ b c : Bool, 0x112 + 8 * b.toNat = 0x112 + 8 * c.toNat → b = c := by decide
  cases h with
  | hodpc c h hh hc hs => cases hb _ _ hn; subst hh; right; omega
  | noPc c h hh hc => cases hb _ _ hn; subst hh; exact hc.imp_right (by omega)
  | _ => have := store.toNat_le; omega

/-- A hod that the group's team has claimed, with a STATUS of 5, which names no state of a hod (R466). -/
def strangeHod : State := { (default : State) with
  cur := .group 0 0 0
  groups := Map.empty.set (slotKey 0 0) { (default : Group) with team := 1, frags := [default] }
  teams := Map.empty.set 1 default
  launches := Map.empty.set 0 default
  hods := Map.empty.set (hodKey 0 false) { Hod.off with claim := some 1, status := 5 } }

theorem strangeHod_ctx : ∃ x, strangeHod.ctx = some x ∧ (strangeHod.hod x.core false).claim = some x.g.team ∧
    (strangeHod.hod x.core false).status = 5 :=
  ⟨⟨0, 0, 0, { (default : Group) with team := 1, frags := [default] }, default, default, default⟩, rfl, rfl, rfl⟩

/-- Refutes O20: LHPC is assigned, and no rule of `SysReads` gives it a value where the team's hod has a STATUS above 4. No step brings a
hod there, but the statement is about every state. -/
theorem not_systemRegisters : ¬ Obligations.SystemRegisters := by
  rintro ⟨hread, -⟩
  obtain ⟨x, hx, hc, hs⟩ := strangeHod_ctx
  obtain ⟨v, hv⟩ := (hread strangeHod x false 0 0x112 hx).2.1 (by decide)
  rcases SysReads.hodpc_cases (store := false) hv with h | h
  · exact h hc
  · omega

end Sys2Proof.Machine
end

section
/-!
PROOFS. What the issue of an asynchronous operation leaves of its group (R20, R22, R26), and with it the issue of the sampling engine's
instructions (O42) and of collectives (O43).
-/

namespace Sys2Proof.Machine

/-! ### Issue of an asynchronous operation (R20, R22, R26, R58) -/

theorem Group.cls_issueOp (g : Group) (c n : Nat) (cmd : Cmd) (owns : List Nat) (order stamp : Nat) :
    (g.issueOp c cmd owns order stamp).cls n = if n = c then
      { nextSeq := seqAfter (g.cls c).nextSeq, last := (g.cls c).nextSeq
        ops := (g.cls c).ops ++ [⟨(g.cls c).nextSeq, .issued, false, none, owns, 0, cmd, order, stamp, 0, []⟩] }
      else g.cls n := by
  simp only [Group.issueOp, Group.cls, Map.get_set]

theorem Group.cls_sendHandle (g : Group) (word : W32) (c inst n : Nat) (k : Nat) : (g.sendHandle word c inst n).cls k = g.cls k := by
  unfold Group.sendHandle; split <;> rfl

/-- What an instruction that issues an operation leaves of its group: the number of the operation and its handle. -/
theorem Group.issues_sendHandle (g : Group) (word : W32) (c inst h : Nat) (cmd : Cmd) (order stamp : Nat) :
    g.Issues ((g.issueOp c cmd [] order stamp).sendHandle word c inst (h - 96)) word c inst h cmd order stamp where
  number := by rw [Group.cls_sendHandle, Group.cls_issueOp, if_pos rfl]; rfl
  others n hn := by rw [Group.cls_sendHandle, Group.cls_issueOp, if_neg hn]
  none hh := by rw [Group.sendHandle, if_pos (by omega)]; rfl
  handle hh := by
    rw [Group.sendHandle, if_neg (by omega)]
    refine ⟨_, rfl, rfl, rfl, rfl, rfl, rfl, rfl, ?_⟩
    rw [Group.cls_issueOp, if_pos rfl]; rfl
  rest := by unfold Group.sendHandle; split <;> rfl

theorem not_waitsOn {x : Ctx} {srcs : List Nat} (h : x.ready srcs) : ¬x.waitsOn srcs = true := by
  rw [show x.waitsOn srcs = false from h]; exact Bool.false_ne_true

theorem Group.not_full {g : Group} {c : Nat} (h : (g.cls c).ops.length < 127) : ¬g.full c = true := by
  simp only [Group.full, decide_eq_true_eq]; omega

/-! ### The sampling engine (R371, R384, R385) -/

section
variable {s : State} {x : Ctx} (hx : s.ctx = some x)
include hx

theorem kilnIssue_illegal (srcs : List Nat) (act : Ctx → Out)
    (h : x.g.handler = true ∨ ∃ t, (s.kiln x.core).claim = some t ∧ t ≠ x.g.team) : kilnIssue srcs s act = x.illegal s 0 := by
  rw [kilnIssue, onFrag_of hx]
  by_cases hh : x.g.handler = true
  · rw [if_pos hh]
  · obtain ⟨t, ht, hne⟩ := h.resolve_left hh
    rw [if_neg hh]
    exact if_pos (by simp [ht, hne])

theorem kilnIssue_of_free {srcs : List Nat} (act : Ctx → Out) (hh : x.g.handler = false)
    (hc : (s.kiln x.core).claim = none ∨ (s.kiln x.core).claim = some x.g.team) (hr : x.ready srcs) :
    kilnIssue srcs s act = act x := by
  rw [kilnIssue, onFrag_of hx, if_neg (by simp [hh])]
  have : ¬((s.kiln x.core).claim.isSome = true ∧ (s.kiln x.core).claim ≠ some x.g.team) := by rcases hc with hc | hc <;> simp [hc]
  simp only [if_neg this, if_neg (not_waitsOn hr)]

end

/-- R20, R371: what the issue of class 2 work leaves. -/
theorem Ctx.enterKiln_issues (x : Ctx) (s : State) (h : Nat) (w : KilnWork) (m : Bool) (hf : (x.g.cls 2).ops.length < 127) :
    ∃ s' g', x.g.Issues g' s.ir 2 0 h (.kiln w) (s.nextOrder + 1) s.tick ∧ x.enterKiln s h w m = .next (x.completes s' g' m 1) ∧
      s'.kiln x.core = { s.kiln x.core with claim := some x.g.team } ∧ (∀ c, c ≠ x.core → s'.kiln c = s.kiln c) ∧
      { s' with kilns := s.kilns, nextOrder := s.nextOrder } = s ∧ s'.nextOrder = s.nextOrder + 1 := by
  refine ⟨{ s.putKiln x.core { s.kiln x.core with claim := some x.g.team } with nextOrder := s.nextOrder + 1 }, _,
    x.g.issues_sendHandle .., ?_, ?_, fun c hc => ?_, rfl, rfl⟩
  · rw [Ctx.enterKiln, if_neg (Group.not_full hf)]; rfl
  · simp [State.kiln, State.putKiln]
  · simp [State.kiln, State.putKiln, hc]

theorem field_zeros (b : List Byte) (i n : Nat) : zeros b i n = true ↔ field b i n = 0 := by simp [zeros]

/-- An instruction with a descriptor whose place, fields and ranges are as they should be issues its work. -/
theorem kilnDesc_enters {s : State} {x : Ctx} (hx : s.ctx = some x) {m : Bool} {h a n : Nat} {srcs : List Nat}
    {read : Ctx → Nat → List Byte → Except W32 (KilnWork × List KilnRange)} (hh : x.g.handler = false)
    (hc : (s.kiln x.core).claim = none ∨ (s.kiln x.core).claim = some x.g.team) (hr : x.ready srcs)
    (hp : x.descAt (x.uni a).toNat n) {w : KilnWork} {ranges : List KilnRange}
    (hw : read x (x.uni a).toNat (s.storeRead x.team 0 (x.uni a).toNat n) = .ok (w, ranges))
    (hs : ∀ r ∈ ranges, r.addr + r.len ≤ s.storeEnd x.team r.space) :
    kilnDesc m h a n srcs s read = x.enterKiln s h w m := by
  obtain ⟨hal, hin⟩ := hp
  rw [kilnDesc, kilnIssue_of_free hx _ hh hc hr]
  have hf : ranges.find? (fun r => decide (s.storeEnd x.team r.space < r.addr + r.len)) = none :=
    List.find?_eq_none.2 fun r hr => by simpa using hs r hr
  simp only [hal, not_lt.2 hin, hw, hf, ne_eq, not_true_eq_false, if_false]

theorem getD_three {a b c n : Nat} (h : n ≤ 2) : [a, b, c].getD n 0 = if n = 0 then a else if n = 1 then b else c := by
  interval_cases n <;> rfl

/-- Settles O42: each row's descriptor is read as its instruction reads it, so that the row's work is issued. -/
theorem kilnIssues : Obligations.KilnIssues := by
  intro s x i r hx hd
  constructor
  · intro hbad
    cases hd <;> exact kilnIssue_illegal hx _ _ hbad
  · intro hh hc hr hok hf
    cases hd with
    | kldj m h a =>
      obtain ⟨hat, h1, h2, h3, h4, h5, h6, h7, h8, h9, h10, h11⟩ := hok
      rw [exec_kldj, execKldj, kilnDesc_enters hx hh hc hr hat
        (if_pos ⟨h1, h2, h3, h4, h5.trans_eq (getD_three h1).symm, (field_zeros ..).2 h6, h7, h8, (field_zeros ..).2 h9⟩)]
      · exact x.enterKiln_issues s h _ m hf
      · simpa [h10] using h11
    | kbias m h a =>
      obtain ⟨hat, h1, h2, h3, h4⟩ := hok
      rw [exec_kbias, execKbias, kilnDesc_enters hx hh hc hr hat (if_pos ⟨h1, h2, (field_zeros ..).2 h3⟩) (by simpa using h4)]
      exact x.enterKiln_issues s h _ m hf
    | kclamp m h a =>
      rw [exec_kclamp, execKclamp, kilnDesc_enters hx hh hc hr hok rfl (by simp)]
      exact x.enterKiln_issues s h _ m hf
    | kseed m h a =>
      obtain ⟨hat, h1, h2, h3, h4⟩ := hok
      rw [exec_kseed, execKseed, kilnDesc_enters hx hh hc hr hat (if_pos ⟨h1, h2, (field_zeros ..).2 h3, h4⟩) (by simp)]
      exact x.enterKiln_issues s h _ m hf
    | ksweep m h a b =>
      obtain ⟨hat, h1, h2, h3, h4, h5, h6, h7, h8, h9⟩ := hok
      rw [exec_ksweep, execKsweep, kilnDesc_enters hx hh hc hr hat
        ((if_pos ⟨h1, h2, h3, h4, (field_zeros ..).2 h5, (field_zeros ..).2 h6, (field_zeros ..).2 h7, h8⟩).trans (if_neg (not_le.2 h9)))
        (by simp)]
      exact x.enterKiln_issues s h _ m hf
    | kread m h a =>
      obtain ⟨hat, h1, h2, h3, h4, h5, h6⟩ := hok
      rw [exec_kread, execKread, kilnDesc_enters hx hh hc hr hat
        (if_pos ⟨h1, h2, (field_zeros ..).2 h3, h4, (field_zeros ..).2 h5⟩)]
      · exact x.enterKiln_issues s h _ m hf
      · rw [getD_three h2]; simpa using h6
    | khealth m h b =>
      rw [exec_khealth, execKhealth, kilnIssue_of_free hx _ hh hc hr]
      simp only [if_neg (not_lt.2 hok)]
      exact x.enterKiln_issues s h _ m hf
    | kcal m h =>
      rw [exec_kcal, execKcal, kilnIssue_of_free hx _ hh hc hr]
      exact x.enterKiln_issues s h _ m hf

theorem Memory.bytes_append (m : Memory) (a n k : Nat) : m.bytes a (n + k) = m.bytes a n ++ m.bytes (a + n) k := by
  simp [Memory.bytes, List.range_add, Nat.add_assoc]

theorem State.storeKey_add (s : State) (t : Team) (space off n : Nat) : s.storeKey t space (off + n) = s.storeKey t space off + n := by
  unfold State.storeKey
  split <;> simp [unitKey, dieKey, Nat.add_assoc]

theorem State.storeRead_append (s : State) (t : Team) (space off n k : Nat) :
    s.storeRead t space off (n + k) = s.storeRead t space off n ++ s.storeRead t space (off + n) k := by
  simp only [State.storeRead, Memory.bytes_append, State.storeKey_add]

/-! ### The issue of collectives (R443 to R447) -/

/-- The descriptor of a collective, its communicator record's first 64 bytes, and the record. -/
def Ctx.collDesc (x : Ctx) (s : State) (i : Nat) : List Byte := s.storeRead x.team 0 i 64
def Ctx.commHead (x : Ctx) (s : State) (i : Nat) : List Byte := s.storeRead x.team 0 (field (x.collDesc s i) 0 4) 64
def Ctx.commSize (x : Ctx) (s : State) (i : Nat) : Nat := 64 + min (field (x.commHead s i) 8 2) 256
def Ctx.comm (x : Ctx) (s : State) (i : Nat) : CommRecord :=
  readComm (x.commHead s i ++ s.storeRead x.team 0 (field (x.collDesc s i) 0 4 + 64) (x.commSize s i - 64))

theorem Ctx.comm_eq (x : Ctx) (s : State) (i : Nat) :
    x.comm s i = readComm (s.storeRead x.team 0 (field (x.collDesc s i) 0 4) (x.commSize s i)) := by
  rw [Ctx.comm, Ctx.commHead, ← State.storeRead_append, Ctx.commSize, Nat.add_sub_cancel_left]

/-- The collective that a descriptor and its communicator record describe (R445, R447). -/
def Ctx.collCmd (x : Ctx) (s : State) (fn i : Nat) : CollCmd :=
  let b := x.collDesc s i
  let r := x.comm s i
  let db (k : Nat) : Nat := (x.launch.db.getD k 0).toNat
  { fn := fn, etype := field b 4 1, arrival := field b 5 1 % 2 = 1 ∧ !decide (x.launch.form ≠ 0)
    rootform := field b 5 1 / 2 % 2 = 1, subst := field b 5 1 % 2 = 1 ∧ x.launch.form ≠ 0
    queue := if field b 5 1 / 4 % 2 = 1 then some (field b 34 1, BitVec.ofNat 32 (field b 36 4)) else none
    src := (db (field b 6 1 % 4) + field b 8 8) % 2 ^ 64, dst := (db (field b 6 1 / 4 % 4) + field b 16 8) % 2 ^ 64
    logl := field b 7 1, ng := field b 24 4, nv := field b 28 4, root := field b 32 2
    sendCounts := if fn = 3 then (List.range r.nrank).map fun k => leNat (s.storeRead x.team 0 (field b 40 4 + 4 * k) 4) else []
    rcnt := field b 44 4, rcap := field b 48 4, ckey := r.ckey, nrank := r.nrank, myrank := r.myrank
    members := r.members, timeout := r.timeout, ckeySeq := s.instance_ r.ckey, exchanged := none, transfer := none }

theorem CollAt.eq_collCmd {s : State} {x : Ctx} {fn i : Nat} {c : CollCmd} (h : CollAt s x fn i c) : c = x.collCmd s fn i := by
  obtain ⟨r, hr, -, hkey, hrank, hmy, hmem, htime⟩ := h.members
  have hr' : r = x.comm s i := hr.trans (x.comm_eq s i).symm
  obtain ⟨hlogl, hng, hnv, hroot⟩ := h.sizes
  obtain ⟨hrcnt, hrcap, hsend⟩ := h.counts
  obtain ⟨hseq, hex, htr⟩ := h.fresh
  have hcounts : c.sendCounts = (x.collCmd s fn i).sendCounts := by
    simp only [Ctx.collCmd]
    by_cases hfn : fn = 3
    · rw [if_pos hfn] at hsend
      rw [if_pos hfn, hsend.1, hrank, hr']; rfl
    · rw [if_neg hfn] at hsend
      rw [if_neg hfn, hsend]
  have harr := h.order
  have hroot' := h.root
  have hsub := h.subst
  have hq := h.queue
  have hsrc := h.src
  have hdst := h.dst
  have hfn := h.isFn
  have het := h.etype
  cases c
  subst hr'
  simp only [Ctx.collCmd, CollCmd.mk.injEq] at *
  refine ⟨hfn, het, ?_, hroot', hsub, hq, hsrc, hdst, hlogl, hng, hnv, hroot, hcounts, hrcnt, hrcap, hkey, hrank, hmy, hmem,
    htime, by rw [hseq, hkey], hex, htr⟩
  rw [harr]
  simp [Ctx.collDesc]

/-- What is wrong with a place in the team's allocation: KIND 1 or 2. -/
def Ctx.placeKind (x : Ctx) (p n align : Nat) : Option Nat :=
  if p % align ≠ 0 then some 1 else if x.team.kernel.unit < p + n then some 2 else none

theorem Ctx.placeKind_of_good {x : Ctx} {p n align : Nat} (h : p % align = 0 ∧ p + n ≤ x.team.kernel.unit) : x.placeKind p n align = none := by
  rw [Ctx.placeKind, if_neg (by simp [h.1]), if_neg (not_lt.2 h.2)]

/-- The first thing that is wrong with the places of a collective's descriptor, communicator and tables (R445). -/
def Ctx.collPlaces (x : Ctx) (s : State) (fn i : Nat) : Option Nat :=
  let counts := 4 * min (x.comm s i).nrank 256
  ([x.placeKind i 64 64] ++ (if x.placeKind i 64 64 = none then
    [x.placeKind (field (x.collDesc s i) 0 4) (x.commSize s i) 64] ++
      (if fn = 3 then [x.placeKind (field (x.collDesc s i) 40 4) counts 4, x.placeKind (field (x.collDesc s i) 44 4) counts 4] else [])
    else [])).findSome? id

/-- A descriptor names one address as its source and its destination. -/
def sameAddress (b : List Byte) : Bool := decide (field b 8 8 = field b 16 8 ∧ field b 6 1 % 4 = field b 6 1 / 4 % 4)

/-- The checks of a collective's fields, its stalls and its issue (R447). -/
def Ctx.collIssue (x : Ctx) (s : State) (fn : Nat) (m : Bool) (h i : Nat) : Out :=
  let b := x.collDesc s i
  let c := x.collCmd s fn i
  let owned := c.queue.all fun q => (s.queue x.core q.1).owner == some x.g.team
  if !((x.comm s i).good (x.commHead s i) && c.good b (sameAddress b) && owned) || s.keysFull x.ctxNum c.ckey then
    x.illegal s (BitVec.ofNat 32 i)
  else if x.launch.form = 1 ∧ c.spans.2 ≠ 0 ∧ !inRanges x.team 0 c.dst c.spans.2 then x.trap s 5 (accessInfo 1 0 1 0xFF)
  else if x.g.full 4 ∨ 64 ≤ s.inFlight then .next s
  else x.done { s.takeInstance x.ctxNum c.ckey with nextOrder := s.nextOrder + 1 }
    ((x.g.issueOp 4 (.coll c) [] (s.nextOrder + 1) s.tick).sendHandle s.ir 4 0 (h - 96)) m 1

theorem collective_eq {s : State} {x : Ctx} (hx : s.ctx = some x) (fn : Nat) (m : Bool) (h a : Nat) :
    collective fn m h a s =
      if x.g.handler then x.illegal s 0
      else if x.waitsOn [a] then .next s
      else
        match x.collPlaces s fn (x.uni a).toNat with
        | some k => x.trap s 10 (accessInfo 0 0 k 0xFF)
        | none => x.collIssue s fn m h (x.uni a).toNat := by
  rw [collective, onFrag_of hx]
  rfl

theorem CollAt.collPlaces_none {s : State} {x : Ctx} {fn i : Nat} {c : CollCmd} (h : CollAt s x fn i c) : x.collPlaces s fn i = none := by
  have hd : x.placeKind i 64 64 = none := Ctx.placeKind_of_good h.place
  have hc : x.placeKind (field (x.collDesc s i) 0 4) (x.commSize s i) 64 = none :=
    Ctx.placeKind_of_good ⟨h.comm.1, (Nat.add_assoc ..).symm.trans_le h.comm.2⟩
  by_cases hfn : fn = 3
  · obtain ⟨-, -, hcnt⟩ := h.counts
    rw [if_pos hfn, h.eq_collCmd] at hcnt
    have ht (p : Nat) (hp : p = field (x.collDesc s i) 40 4 ∨ p = field (x.collDesc s i) 44 4) :
        x.placeKind p (4 * min (x.comm s i).nrank 256) 4 = none := Ctx.placeKind_of_good (hcnt.2 p hp)
    simp [Ctx.collPlaces, hd, hc, if_pos hfn, ht _ (.inl rfl), ht _ (.inr rfl)]
  · simp [Ctx.collPlaces, hd, hc, if_neg hfn]

theorem collective_issues {s : State} {x : Ctx} (hx : s.ctx = some x) {fn : Nat} (m : Bool) (h a : Nat) {c : CollCmd}
    (hh : x.g.handler = false) (hr : x.ready [a]) (hc : CollAt s x fn (x.uni a).toNat c)
    (hk : s.keysFull x.ctxNum c.ckey = false) (hw : x.launch.form = 1 → c.spans.2 ≠ 0 → inRanges x.team 0 c.dst c.spans.2 = true)
    (hf : (x.g.cls 4).ops.length < 127) (hi : s.inFlight < 64) :
    collective fn m h a s = .next (x.completes { s.takeInstance x.ctxNum c.ckey with nextOrder := s.nextOrder + 1 }
      ((x.g.issueOp 4 (.coll c) [] (s.nextOrder + 1) s.tick).sendHandle s.ir 4 0 (h - 96)) m 1) := by
  rw [collective_eq hx, if_neg (by simp [hh]), if_neg (not_waitsOn hr), hc.collPlaces_none]
  obtain ⟨r, hcomm, hgood, -⟩ := hc.members
  have hcomm' : x.comm s (x.uni a).toNat = r := (x.comm_eq ..).trans hcomm.symm
  have howned : (c.queue.all fun q => (s.queue x.core q.1).owner == some x.g.team) = true := by
    rw [Option.all_eq_true]
    intro q hq
    simpa using hc.owned q.1 q.2 hq
  have hbad : ¬(x.launch.form = 1 ∧ c.spans.2 ≠ 0 ∧ (!inRanges x.team 0 c.dst c.spans.2) = true) := by
    rintro ⟨h1, h2, h3⟩
    simp [hw h1 h2] at h3
  have hroom : ¬(x.g.full 4 = true ∨ 64 ≤ s.inFlight) := not_or.2 ⟨Group.not_full hf, not_le.2 hi⟩
  have hgood' : r.good (x.commHead s (x.uni a).toNat) = true := hgood
  have hlim : c.good (x.collDesc s (x.uni a).toNat) (sameAddress (x.collDesc s (x.uni a).toNat)) = true := hc.limits
  have hok : ¬((!(r.good (x.commHead s (x.uni a).toNat) && c.good (x.collDesc s (x.uni a).toNat) (sameAddress (x.collDesc s (x.uni a).toNat)) &&
      c.queue.all fun q => (s.queue x.core q.1).owner == some x.g.team) || s.keysFull x.ctxNum c.ckey) = true) := by
    rw [hgood', hlim, howned, hk]; exact Bool.false_ne_true
  simp only [Ctx.collIssue, ← hc.eq_collCmd, hcomm']
  rw [if_neg hok, if_neg hbad, if_neg hroom]
  rfl

/-- A key of a context is counted, and its number rises (R444). -/
theorem State.takeInstance_fields (s : State) (ctx : Nat) (k : W64) :
    (ctx, k) ∈ (s.takeInstance ctx k).ckeys ∧ (∀ p, p ∈ s.ckeys → p ∈ (s.takeInstance ctx k).ckeys) ∧
      (s.takeInstance ctx k).instance_ k = s.instance_ k + 1 ∧ ∀ j, j ≠ k → (s.takeInstance ctx k).instance_ j = s.instance_ j := by
  refine ⟨?_, fun p hp => ?_, by simp [State.takeInstance, State.instance_], fun j hj => ?_⟩
  · simp only [State.takeInstance, List.contains_iff_mem]
    split
    · assumption
    · simp
  · simp only [State.takeInstance]
    split
    · exact hp
    · exact List.mem_append_left _ hp
  · have hjk : ¬k = j := fun h => hj h.symm
    have hfind : (s.instances.filter fun p => p.1 ≠ k).find? (fun p => p.1 = j) = s.instances.find? fun p => p.1 = j := by
      rw [List.find?_filter]
      congr 1
      funext p
      by_cases hp : p.1 = j
      · simp [hp, hj]
      · simp [hp]
    simp only [State.takeInstance, State.instance_, List.find?_cons, hjk, decide_false, hfind]

theorem CollDoes.exec_eq {i : Instr} {fn h a : Nat} {m : Bool} (hd : CollDoes i fn m h a) (s : State) : exec i s = collective fn m h a s := by
  cases hd <;> rfl

/-- Sizes of domains are at most 256, so that the fields of `cstat` hold them (R462). -/
theorem Config.domain_word : Config.domainSize % 2 ^ 9 * 2 ^ 16 + Config.moduleIndex % 2 ^ 8 =
    Config.domainSize * 2 ^ 16 + Config.moduleIndex := by
  have hf := Nat.mod_lt Config.domainFound (show 0 < 256 by decide)
  have hs : Config.domainSize ≤ 256 := by simp only [Config.domainSize]; omega
  have hi : Config.moduleIndex < Config.domainSize := Nat.mod_lt _ (by simp only [Config.domainSize]; omega)
  rw [Nat.mod_eq_of_lt (by omega), Nat.mod_eq_of_lt (by omega)]

/-- Settles O43: a descriptor that `CollAt` reads passes the checks of its instruction, which issues what it describes; `cstat` reads its
die's copy. -/
theorem collectiveIssues : Obligations.CollectiveIssues := by
  intro s x m hx
  refine ⟨fun i fn h a c hd => ⟨fun hh => ?_, fun hh hr hc hk hw hf hi => ?_⟩,
    fun d => ⟨?_, ?_, ?_, fun n hn => ?_, fun die => ⟨rfl, fun j => ?_⟩⟩⟩
  · rw [hd.exec_eq, collective_eq hx, if_pos hh]; rfl
  · have hkey : s.keysFull x.ctxNum c.ckey = false := by
      rcases hk with hk | hk
      · simp only [State.keysFull, Ctx.ctxNum, List.contains_iff_mem.2 hk, Bool.not_true, Bool.false_and]
      · exact Bool.and_eq_false_iff.2 (.inr (decide_eq_false (not_le.2 hk)))
    obtain ⟨hin, hkeep, hinst, hother⟩ := s.takeInstance_fields x.ctxNum c.ckey
    exact ⟨{ s.takeInstance x.ctxNum c.ckey with nextOrder := s.nextOrder + 1 }, _, x.g.issues_sendHandle ..,
      by rw [hd.exec_eq, collective_issues hx m h a hh hr hc hkey hw hf hi], hin, hkeep, hinst, hother,
      rfl, rfl⟩
  · refine ⟨_, x.uniformSet_writeUni d _, ?_⟩
    rw [exec_cstat, execCstat, onFrag_of hx, wrap_natCast, ← Config.domain_word]
    rfl
  · exact ⟨_, x.uniformSet_writeUni d _, by rw [exec_cstat, execCstat, onFrag_of hx, wrap_natCast]; rfl⟩
  · exact ⟨_, x.uniformSet_writeUni d _, by rw [exec_cstat, execCstat, onFrag_of hx, wrap_natCast]; rfl⟩
  · rw [exec_cstat, execCstat, onFrag_of hx]; simp only [if_pos hn]; rfl
  · simp only [State.copyStatus, Map.get_set]; rfl

end Sys2Proof.Machine
end

section
/-!
PROOFS. The issue of copies (O32): the slot that a copy reserves and the sectors that its scoreboard entry covers (R27, R263).
-/

namespace Sys2Proof.Machine

/-! ### What a copy that passes its checks holds (R252, R253) -/

/-- The fields of a descriptor that is within its limits, as the issue of its copy needs them. -/
theorem readDesc_limits {fn : Nat} {b : List Byte} {d : CopyDesc} (h : readDesc fn b = some d) :
    d.rnum < 16 ∧ d.ispace ≤ 1 ∧ d.dspace ≤ 2 ∧ (d.ring = true → fn ≠ 1 ∧ fn ≠ 3) := by
  obtain ⟨hc, hd⟩ := Option.ite_none_right_eq_some.1 h
  obtain ⟨-, -, -, hr, -, -, -, -, hs, hds, -, -, -, hring⟩ := hc
  cases hd
  refine ⟨hr, by simp only; omega, hds.trans ?_, fun hr => ⟨(hring hr).1, (hring hr).2.1⟩⟩
  split
  · exact le_rfl
  · split <;> omega

/-- What `checkCopy` lets pass: the command of a descriptor within its limits, on a ring that the copy may use. -/
theorem State.checkCopy_ok {s : State} {e : CopyEnv} {ringOk : SlotRing → Bool} {fn a : Nat} {rows : List Int} {c : CopyCmd}
    (h : s.checkCopy e ringOk fn a rows = .ok c) : ∃ (d : CopyDesc) (r : Option LayoutRec),
      c = CopyCmd.fresh fn d r rows none 0 ∧ (∃ b, readDesc fn b = some d) ∧ (d.ring = true → ringOk (s.ring e.core d.rnum) = true) := by
  unfold State.checkCopy at h
  simp only [Bool.and_eq_true, Bool.not_eq_true', bne_iff_ne] at h
  split_ifs at h with h1 h2
  split at h
  · cases h
  · next d hd =>
    generalize (if (fn < 4 ∧ d.lrec / 2 ^ 30 = 0) ∧ d.lrec % 2 ^ 30 % 64 = 0 ∧ d.lrec % 2 ^ 30 + 64 ≤ e.team.kernel.unit then
      readLayout (s.mem.bytes (unitKey e.core (e.team.base + d.lrec % 2 ^ 30)) 64) else none) = record at h
    generalize List.any _ (s.outsideRanges e) = outside at h
    split_ifs at h with h3
    · split at h <;> cases h
    · split at h
      · cases h
      · cases h
        exact ⟨d, _, rfl, ⟨_, hd⟩, fun hr => by simpa [hr] using h3⟩

/-! ### Reservation (R27, R263) -/

/-- What issue knows of a fresh copy's destination in the unit store, as sectors (R27). -/
theorem CopyCmd.issueSpan_fresh {x : Ctx} {fn : Nat} {d : CopyDesc} {r : Option LayoutRec} {rows : List Int} {b : List Byte}
    (hd : readDesc fn b = some d) (slot : Option Nat) (size : Nat) :
    (CopyCmd.fresh fn d r rows slot 0).issueSpan x.env size =
      (x.covers (CopyCmd.fresh fn d r rows none 0) (slot.map fun a => (a, size))).map fun q => spanOf q.1 q.2 := by
  obtain ⟨-, hi, hds, -⟩ := readDesc_limits hd
  cases slot with
  | some a => rfl
  | none =>
    have hs : d.dspace = 0 ∨ d.dspace = 1 ∨ d.dspace = 2 := by omega
    have his : d.ispace = 0 ∨ d.ispace = 1 := by omega
    by_cases h4 : fn = 4
    · subst h4
      rcases hs with hs | hs | hs <;> simp [CopyCmd.issueSpan, CopyCmd.target, CopyCmd.fresh, Ctx.covers, hs, Ctx.env, apply_ite (Option.map _)]
    by_cases h5 : fn = 5
    · subst h5
      rcases hs with hs | hs | hs <;> simp [CopyCmd.issueSpan, CopyCmd.target, CopyCmd.fresh, Ctx.covers, hs, Ctx.env]
    by_cases h13 : fn = 1 ∨ fn = 3
    · rcases h13 with rfl | rfl <;> rcases his with his | his <;> cases r <;>
        simp [CopyCmd.issueSpan, CopyCmd.target, CopyCmd.fresh, Ctx.covers, his, Ctx.env, apply_ite (Option.map _)]
    · simp only [not_or] at h13
      rcases his with his | his <;> simp [CopyCmd.issueSpan, CopyCmd.target, CopyCmd.fresh, Ctx.covers, his, Ctx.env, h4, h5, h13]

theorem State.ring_putRing_self (s : State) (core n : Nat) (r : SlotRing) : (s.putRing core n r).ring core n = r := by
  simp only [State.ring, State.putRing]
  split
  · next h => simp [Map.get, h]
  · simp

theorem State.ring_putRing_other (s : State) {core n j k : Nat} (r : SlotRing) (hn : n < 16) (hk : k < 16) (h : j ≠ core ∨ k ≠ n) :
    (s.putRing core n r).ring j k = s.ring j k := by
  have hne : ringKey j k ≠ ringKey core n := by simp only [ringKey]; omega
  simp only [State.ring, State.putRing]
  split <;> simp [Map.get, hne]

/-- The scoreboard with an entry for the sectors that an operation may write, if there are any. -/
def State.addEntry (s : State) (core agent seq : Nat) (span : Option (Nat × Nat)) : State :=
  { s with scoreboard := s.scoreboard ++ (span.map fun p => (⟨core, agent, seq, [p]⟩ : ScoreEntry)).toList }

theorem State.addEntry_none (s : State) (core agent seq : Nat) : s.addEntry core agent seq none = s := by
  simp [State.addEntry]

/-- A copy without a ring reserves its entry, where the scoreboard has room. -/
theorem State.reserveCopy_plain {s : State} {e : CopyEnv} {c : CopyCmd} (hr : c.desc.ring = false) (seq : Nat)
    (hsb : (s.scoreboard.filter fun p => p.core = e.core).length < 32) :
    s.reserveCopy e seq c = some (s.addEntry e.core e.agent seq (c.issueSpan e (s.ring e.core c.desc.rnum).slotsz), c) := by
  simp only [State.reserveCopy, hr, Bool.false_eq_true, false_and, if_false]
  cases c.issueSpan e (s.ring e.core c.desc.rnum).slotsz with
  | none => rw [State.addEntry_none]
  | some span => exact if_neg (not_le.2 hsb)

/-- A copy to a ring with room reserves the next slot, and its entry. -/
theorem State.reserveCopy_ring {s : State} {e : CopyEnv} {c : CopyCmd} (hr : c.desc.ring = true) (seq : Nat)
    (hsb : (s.scoreboard.filter fun p => p.core = e.core).length < 32)
    (hroom : (s.ring e.core c.desc.rnum).nfill + (s.ring e.core c.desc.rnum).reserved.length < (s.ring e.core c.desc.rnum).count) :
    let r := s.ring e.core c.desc.rnum
    let c' : CopyCmd := { c with slotAddr := some (s.nextSlot r) }
    s.reserveCopy e seq c = some ((s.putRing e.core c.desc.rnum { r with reserved := r.reserved ++ [(e.agent, seq)] }).addEntry
      e.core e.agent seq (c'.issueSpan e r.slotsz), c') := by
  intro r c'
  simp only [State.reserveCopy, hr, true_and, if_neg (not_le.2 hroom), if_true]
  split
  · next h => rw [show c'.issueSpan e r.slotsz = none from h, State.addEntry_none]
  · next span h => rw [show c'.issueSpan e r.slotsz = some span from h]; exact if_neg (not_le.2 hsb)

/-- What a copy that the rings and the scoreboard have room for reserves: a slot if it names a ring, and an entry if issue knows that it
may write the core's unit store. -/
theorem State.reserveCopy_ok {s : State} {x : Ctx} (hx : s.ctx = some x) {fn : Nat} {d : CopyDesc} {r : Option LayoutRec} {rows : List Int}
    {b : List Byte} (hd : readDesc fn b = some d) (hown : d.ring = true → (s.ring x.core d.rnum).owner = some x.g.team) (seq : Nat)
    (hsb : (s.scoreboard.filter fun e => e.core = x.core).length < 32)
    (hroom : d.ring = true → (s.ring x.core d.rnum).nfill + (s.ring x.core d.rnum).reserved.length < (s.ring x.core d.rnum).count) :
    let c := CopyCmd.fresh fn d r rows none 0
    let ring := s.ring x.core d.rnum
    let used := ring.nfill + ring.reserved.length
    ∃ (s' : State) (slot : Option Nat), s.reserveCopy x.env seq c = some (s', { c with slotAddr := slot }) ∧
      (d.ring = false → slot = none ∧ s'.rings = s.rings) ∧
      (d.ring = true → slot = some (x.team.base + (ring.base + (ring.rdi + used) % ring.count * ring.slotsz)) ∧
        s'.ring x.core d.rnum = { ring with reserved := ring.reserved ++ [(x.slot, seq)] } ∧
        ∀ j n, n < 16 → (j ≠ x.core ∨ n ≠ d.rnum) → s'.ring j n = s.ring j n) ∧
      s'.scoreboard = s.scoreboard ++ ((x.covers c (slot.map fun a => (a, ring.slotsz))).map fun q =>
        (⟨x.core, x.slot, seq, [(q.1 / 32, (q.1 + q.2 + 31) / 32)]⟩ : ScoreEntry)).toList ∧
      { s' with rings := s.rings, scoreboard := s.scoreboard } = s := by
  intro c ring used
  obtain ⟨-, -, -, ht, -⟩ := State.ctx_eq_some hx
  obtain ⟨hn, -⟩ := readDesc_limits hd
  have hspan (slot : Option Nat) : (CopyCmd.fresh fn d r rows slot 0).issueSpan x.env ring.slotsz = _ :=
    CopyCmd.issueSpan_fresh (x := x) hd slot ring.slotsz
  cases hr : d.ring with
  | false =>
    refine ⟨_, none, State.reserveCopy_plain hr seq hsb, fun _ => ⟨rfl, rfl⟩, by simp, ?_, rfl⟩
    change (s.addEntry x.core x.slot seq ((CopyCmd.fresh fn d r rows none 0).issueSpan x.env ring.slotsz)).scoreboard = _
    rw [hspan none, State.addEntry, Option.map_map]
    rfl
  | true =>
    have hslot : s.nextSlot ring = x.team.base + (ring.base + (ring.rdi + used) % ring.count * ring.slotsz) := by
      simp only [State.nextSlot, show ring.owner = some x.g.team from hown hr, Option.bind_some, ht]
      rfl
    refine ⟨_, some (s.nextSlot ring), State.reserveCopy_ring hr seq hsb (hroom hr), by simp, fun _ => ⟨by rw [hslot], ?_, fun j n hj h => ?_⟩,
      ?_, rfl⟩
    · exact State.ring_putRing_self ..
    · exact State.ring_putRing_other s _ hn hj h
    · change ((s.putRing x.core d.rnum _).addEntry x.core x.slot seq
        ((CopyCmd.fresh fn d r rows (some (s.nextSlot ring)) 0).issueSpan x.env ring.slotsz)).scoreboard = _
      rw [hspan (some (s.nextSlot ring)), State.addEntry, Option.map_map]
      rfl

/-- A copy whose sources are there and whose checks pass goes on to its issue. -/
theorem copyOp_of_checked {s : State} {x : Ctx} (hx : s.ctx = some x) {m : Bool} {fn h a : Nat} {b : Option Nat} {c : CopyCmd}
    (hr : x.ready (a :: b.toList))
    (hc : s.checkCopy x.env (fun r => r.owner == some x.g.team) fn (x.uni a).toNat (x.indices b) = .ok c) :
    copyOp m fn h a b s = x.issueCopy s m h c := by
  have hready : x.waitsOn [a] = false ∧ x.waitsOn b.toList = false := by simpa [Ctx.ready, Ctx.waitsOn] using hr
  rw [copyOp, onFrag_of hx, if_neg (by simp [hready])]
  cases b with
  | none =>
    change (match s.checkCopy x.env _ fn (x.uni a).toNat (x.indices none) with | .ok c => _ | .fail order kind acc info => _) = _
    rw [hc]
  | some r =>
    change (match s.checkCopy x.env _ fn (x.uni a).toNat (x.indices (some r)) with | .ok c => _ | .fail order kind acc info => _) = _
    rw [hc]

theorem Ctx.issueCopy_of_reserved {s s' : State} {x : Ctx} {c c' : CopyCmd} (m : Bool) (h : Nat) (hf : (x.g.cls 0).ops.length < 127)
    (hr : s.reserveCopy x.env (x.g.cls 0).nextSeq c = some (s', c')) :
    x.issueCopy s m h c = .next (x.completes s' ((x.g.issueOp 0 (.copy c') [] 0 s'.tick).sendHandle s'.ir 0 0 (h - 96)) m 1) := by
  rw [Ctx.issueCopy, if_neg (Group.not_full hf), hr]
  rfl

/-- Settles O32: the copy's checks give its command; class 0, its ring and the scoreboard then give it its places. -/
theorem copyIssues : Obligations.CopyIssues := by
  intro s x i m fn h a b c hx hi hr hc hf hsb r used hroom
  obtain ⟨d, rec_, rfl, ⟨bytes, hd⟩, hown⟩ := State.checkCopy_ok hc
  obtain ⟨s', slot, hres, hno, hyes, hscore, hrest⟩ := State.reserveCopy_ok hx (r := rec_) (rows := x.indices b) hd
    (fun hring => beq_iff_eq.1 (hown hring)) (x.g.cls 0).nextSeq hsb hroom
  have hexec : exec i s = copyOp m fn h a b s := by cases hi <;> rfl
  have htick : s'.tick = s.tick := (congrArg State.tick hrest :)
  have hir : s'.ir = s.ir := (congrArg State.ir hrest :)
  refine ⟨s', _, slot, x.g.issues_sendHandle .., ?_, hno, hyes, hscore, hrest⟩
  rw [hexec, copyOp_of_checked hx hr hc, Ctx.issueCopy_of_reserved m h hf hres, htick, hir]

end Sys2Proof.Machine
end

section
/-!
PROOFS. The issue of class 1 operations (O33): what moving a fragment on leaves alone, the acceptance of one operation more (R283), and
the request that each row's instruction makes.
-/

namespace Sys2Proof.Machine

/-! ### What the end of an instruction leaves alone (R62, R109, R173) -/

/-- g with the team, classes, batch and log of h. -/
def Group.withBooks (g h : Group) : Group :=
  { g with team := h.team, classes := h.classes, batch := h.batch, recording := h.recording, log := h.log }

theorem Group.withBooks_self (g : Group) : g.withBooks g = g := rfl

theorem Group.writeLanes_withBooks (hb : Bool) (r : Nat) (f : Nat → W32) (h : Group) : ∀ (ts : List Nat) (g : Group),
    (g.withBooks h).writeLanes hb r f ts = (g.writeLanes hb r f ts).withBooks h
  | [], _ => rfl
  | t :: rest, g => by
    have hw : (g.withBooks h).writeV hb r t (f t) = (g.writeV hb r t (f t)).withBooks h := by
      unfold Group.writeV; split <;> rfl
    rw [Group.writeLanes, hw, Group.writeLanes_withBooks hb r f h rest]; rfl

theorem Group.writeG_withBooks (g h : Group) (hb : Bool) (n : Nat) (v : W32) :
    (g.withBooks h).writeG hb n v = (g.writeG hb n v).withBooks h := by
  have hp : (g.withBooks h).putG hb n v = (g.putG hb n v).withBooks h := by
    unfold Group.putG; split
    · rfl
    · split <;> rfl
  rw [Group.writeG, hp]; rfl

theorem Group.stepField_withBooks (g h : Group) (k : Mask) (r : Nat) (v : W32) :
    (g.withBooks h).stepField k r v = (g.stepField k r v).withBooks h := by
  unfold Group.stepField
  split
  · exact Group.writeLanes_withBooks ..
  · exact Group.writeG_withBooks ..

theorem Group.stepRegister_withBooks (g h : Group) (due : Option Mask) (k : Mask) (l : LoopLevel) :
    (g.withBooks h).stepRegister due k l = (g.stepRegister due k l).withBooks h := by
  unfold Group.stepRegister
  split
  · exact Group.stepField_withBooks ..
  · rfl

/-- A pass of loop level l has ended: its register has stepped, and its count and index have moved on. -/
def Group.passed (g : Group) (due : Option Mask) (k : Mask) (l : LoopLevel) : Group :=
  let g := g.stepRegister due k l
  { g with lc := g.lc.setZ l.level (g.lc.getZ l.level - 1), li := g.li.setZ l.level (g.li.getZ l.level + 1) }

theorem Group.passed_withBooks (g h : Group) (due : Option Mask) (k : Mask) (l : LoopLevel) :
    (g.withBooks h).passed due k l = (g.passed due k l).withBooks h := by
  simp only [Group.passed, Group.stepRegister_withBooks]; rfl

theorem loopEnds_cons (due : Option Mask) (k : Mask) (pc : W32) (l : LoopLevel) (rest : List LoopLevel) (g : Group) :
    loopEnds due k pc (l :: rest) g =
      if pc = l.stop then
        if (g.stepRegister due k l).lc.getZ l.level - 1 = 0 then loopEnds due k pc rest (g.passed due k l)
        else (l.start, { g.passed due k l with loops := l :: rest })
      else (pc, { g with loops := l :: rest }) := rfl

theorem loopEnds_withBooks (due : Option Mask) (k : Mask) (pc : W32) (h : Group) : ∀ (ls : List LoopLevel) (g : Group),
    loopEnds due k pc ls (g.withBooks h) = ((loopEnds due k pc ls g).1, (loopEnds due k pc ls g).2.withBooks h)
  | [], _ => rfl
  | l :: rest, g => by
    have hn : ((g.withBooks h).stepRegister due k l).lc = (g.stepRegister due k l).lc := by rw [Group.stepRegister_withBooks]; rfl
    rw [loopEnds_cons, loopEnds_cons, Group.passed_withBooks, hn, loopEnds_withBooks due k pc h rest]
    split
    · split <;> rfl
    · rfl

/-- How a fragment that stands in the group moves on. -/
theorem Group.gotoStep_eq {g : Group} {i : Nat} {f : Fragment} (hf : g.frags[i]? = some f) (later : Bool) (pc : W32) :
    g.gotoStep i later pc =
      if (f.looping && !g.handler) = true then
        let r := loopEnds (if later then some f.threads else none) f.k0 pc g.loops g
        r.2.setFrag i { f with pc := r.1, looping := !r.2.loops.isEmpty }
      else g.setFrag i { f with pc := pc } := by
  rw [Group.gotoStep, hf]

theorem Group.gotoStep_withBooks (g h : Group) (i : Nat) (later : Bool) (pc : W32) :
    (g.withBooks h).gotoStep i later pc = (g.gotoStep i later pc).withBooks h := by
  cases hf : g.frags[i]? with
  | none => rw [Group.gotoStep, Group.gotoStep, hf, show (g.withBooks h).frags[i]? = none from hf]
  | some f =>
    rw [Group.gotoStep_eq hf, Group.gotoStep_eq (show (g.withBooks h).frags[i]? = some f from hf)]
    change (if (f.looping && !g.handler) = true then _ else _) = _
    split
    · simp only [show (g.withBooks h).loops = g.loops from rfl, loopEnds_withBooks]; rfl
    · rfl

theorem Group.park62_withBooks (g h : Group) (m : Bool) : (g.withBooks h).park62 m = (g.park62 m).withBooks h := by
  unfold Group.park62
  change (if (m && !g.pend.isEmpty) = true then (if g.handler = true then _ else _) else _) = _
  split
  · split <;> rfl
  · rfl

/-- The end of an instruction neither reads nor changes the books of its group. -/
theorem Group.advance_withBooks (g h : Group) (i : Nat) (m : Bool) (n : Nat) :
    (g.withBooks h).advance i m n = (g.advance i m n).withBooks h := by
  cases hf : g.frags[i]? with
  | none => rw [Group.advance, Group.advance, hf, show (g.withBooks h).frags[i]? = none from hf]
  | some f =>
    rw [Group.advance, Group.advance, hf, show (g.withBooks h).frags[i]? = some f from hf]
    simp only [Group.move, Group.gotoStep_withBooks, Group.park62_withBooks]
    rfl

theorem Group.advance_books (g : Group) (i : Nat) (m : Bool) (n : Nat) : (g.advance i m n).withBooks g = g.advance i m n := by
  rw [← Group.advance_withBooks, Group.withBooks_self]

/-! ### Acceptance of one operation more (R283) -/

theorem acceptOps_append (slot : Nat) (r : Option LogRef) (rest : List Op) (s : State) (t : Team) : ∀ (old : List Op),
    (∀ o ∈ old, o.order ≠ 0) → acceptOps slot r (old ++ rest) s t =
      ((acceptOps slot r rest s t).1, (acceptOps slot r rest s t).2.1, old ++ (acceptOps slot r rest s t).2.2)
  | [], _ => rfl
  | o :: old, h => by
    rw [List.cons_append, acceptOps, if_pos (h o (List.mem_cons_self ..)),
      acceptOps_append slot r rest s t old fun o ho => h o (List.mem_cons_of_mem _ ho)]
    rfl

/-- The engine accepts a new operation that logs nothing: it gets the next place in the engine's order. -/
theorem State.acceptBatch_of_new {s : State} {core slot : Nat} {g : Group} {t : Team} {old : List Op} {o : Op} {w : MatrixWork}
    (hg : s.groups.find (slotKey core slot) = some g) (ht : s.teams.find g.team = some t) (hb : g.holdsBatch t = false)
    (hops : (g.cls 1).ops = old ++ [o]) (hold : ∀ o ∈ old, o.order ≠ 0) (ho : o.order = 0) (hw : o.cmd = .matrix w none) :
    s.acceptBatch core slot =
      (({ s with nextOrder := s.nextOrder + 1 } : State).putGroup core slot
        (g.putClass 1 { g.cls 1 with ops := old ++ [{ o with order := s.nextOrder + 1 }] })).putTeam g.team t := by
  have hlog : (old ++ [o]).filterMap Op.toLog = [] := by
    rw [List.filterMap_append, filterMap_toLog_of_accepted hold, List.nil_append]
    exact List.filterMap_eq_nil_iff.2 fun q hq => by rw [List.mem_singleton.1 hq, Op.toLog, ho, hw]; rfl
  have hacc : acceptOps slot g.log [o] s t =
      ({ s with nextOrder := s.nextOrder + 1 }, t, [{ o with order := s.nextOrder + 1 }]) := by
    simp only [acceptOps, ho, hw, ne_eq, not_true_eq_false, if_false]
  unfold State.acceptBatch
  simp only [hg, ht, hb, Bool.false_eq_true, if_false, List.take_length, List.drop_length, List.append_nil]
  rw [hops, hlog, State.logHeld_nil, if_neg Bool.false_ne_true, acceptOps_append _ _ _ _ _ _ hold, hacc]
  rfl

/-! ### The issue of one operation -/

theorem Ctx.blocked_of_free {x : Ctx} {s : State} {owns : List Nat} (h : x.free s owns) : x.blocked s owns = false := by
  simp only [Ctx.blocked, List.any_eq_false, Bool.and_eq_true, Bool.or_eq_true, bne_iff_ne, beq_iff_eq, not_and, not_or]
  rintro e he ⟨hk, ht⟩
  obtain ⟨hops, hrev⟩ := h e he hk ht
  constructor
  · simp only [List.any_eq_true, List.contains_iff_mem]
    rintro ⟨o, ho, n, hn, hin⟩
    exact hops o ho n hn hin
  · simp only [Option.any_eq_true, List.any_eq_true, List.contains_iff_mem]
    rintro ⟨r, hr, n, hn, hin⟩
    exact hrev r hr n hn hin

theorem Ctx.sequenced_eq_false {x : Ctx} {seq : Bool} (h : seq = false ∨ x.g.handler = true ∨ x.g.step = none) : x.sequenced seq = false := by
  rcases h with h | h | h <;> simp [Ctx.sequenced, h]

/-- Outside record mode and skipped work an operation whose checks pass goes on to its issue. -/
theorem Ctx.gateMatrix_of_good {x : Ctx} {s : State} {r : MatrixReq} (act : Bool → Option LogPlan → Out)
    (hseq : x.sequenced r.seq = false) (hrec : x.g.recording = false ∨ x.g.handler = true) (hsp : r.spans.findSome? id = none)
    (hf : (x.g.cls 1).ops.length < 127) (hfree : x.free s r.owns) : x.gateMatrix s r act = act false none := by
  have hlog : x.logNow = none := by rcases hrec with h | h <;> simp [Ctx.logNow, h]
  have hdec : x.decision s r.seq = some false := by simp [Ctx.decision, hseq]
  unfold Ctx.gateMatrix
  simp only [hdec, hlog, hsp, Option.map_none, Option.bind_none, if_neg (Group.not_full hf), Ctx.blocked_of_free hfree, Bool.false_eq_true,
    if_false]

/-- The team with the shapes that an operation leaves. -/
def Team.withShapes (t : Team) (r : MatrixReq) : Team :=
  { t with
    tileShapes := r.tiles.foldl (fun m p => m.set p.1 p.2) t.tileShapes
    accShapes := r.accs.foldl (fun m p => m.set p.1 p.2) t.accShapes }

/-- The group with an operation of class 1 more that the engine has not accepted. -/
def Ctx.entered (x : Ctx) (s : State) (r : MatrixReq) : Group :=
  { x.g.issueOp 1 (.matrix r.work none) r.owns 0 s.tick with batch := x.g.batch + 1 }

/-- The issue of an operation outside record mode: acceptance follows at once. -/
theorem Ctx.enterMatrix_plain {x : Ctx} {s : State} (hx : s.ctx = some x) (r : MatrixReq) (m : Bool) (n : Nat)
    (hb : x.g.holdsBatch x.team = false) (hold : ∀ o ∈ (x.g.cls 1).ops, o.order ≠ 0) :
    let o : Op := ⟨(x.g.cls 1).nextSeq, .issued, false, none, r.owns, 0, .matrix r.work none, s.nextOrder + 1, s.tick, 0, []⟩
    let g' := ((x.g.advance x.frag m n).withBooks (x.entered s r)).putClass 1
      { nextSeq := seqAfter (x.g.cls 1).nextSeq, last := (x.g.cls 1).nextSeq, ops := (x.g.cls 1).ops ++ [o] }
    ∃ s', x.enterMatrix s x.g r false none m n = .next s' ∧
      (∀ k, s'.groups.find k = if k = slotKey x.core x.slot then some g' else s.groups.find k) ∧
      (∀ k, s'.teams.find k = if k = x.g.team then some (x.team.withShapes r) else s.teams.find k) ∧
      { s' with groups := s.groups, teams := s.teams, nextOrder := s.nextOrder } = s ∧ s'.nextOrder = s.nextOrder + 1 := by
  intro o g'
  obtain ⟨-, -, -, ht, -⟩ := State.ctx_eq_some hx
  have hbooks : (x.entered s r).advance x.frag m n = (x.g.advance x.frag m n).withBooks (x.entered s r) :=
    Group.advance_withBooks x.g (x.entered s r) x.frag m n
  have hcls : ((x.g.advance x.frag m n).withBooks (x.entered s r)).cls 1 = _ :=
    (x.g.cls_issueOp 1 1 (.matrix r.work none) r.owns 0 s.tick).trans (if_pos rfl)
  have hhold : ((x.g.advance x.frag m n).withBooks (x.entered s r)).holdsBatch (x.team.withShapes r) = false := hb
  let s₁ := (x.put s ((x.g.advance x.frag m n).withBooks (x.entered s r))).putTeam x.g.team (x.team.withShapes r)
  have hacc := State.acceptBatch_of_new (s := s₁) (core := x.core) (slot := x.slot) (w := r.work)
    (g := (x.g.advance x.frag m n).withBooks (x.entered s r)) (t := x.team.withShapes r)
    (old := (x.g.cls 1).ops) (o := { o with order := 0 }) (by simp [s₁, Ctx.put])
    ((Map.find_set ..).trans (if_pos rfl)) hhold (by rw [hcls]) hold rfl rfl
  rw [hcls] at hacc
  refine ⟨(({ s₁ with nextOrder := s.nextOrder + 1 } : State).putGroup x.core x.slot g').putTeam x.g.team (x.team.withShapes r),
    ?_, fun k => ?_, fun k => ?_, rfl, rfl⟩
  · have henter : x.enterMatrix s x.g r false none m n = .next (
        let s' := (x.put s ((x.entered s r).advance x.frag m n)).putTeam x.g.team (x.team.withShapes r)
        if (x.entered s r).holdsBatch (x.team.withShapes r) && (x.entered s r).full 1 then s'.sealGroup x.core x.slot
        else s'.acceptBatch x.core x.slot) := by
      unfold Ctx.enterMatrix; simp only [ht]; rfl
    rw [henter, show (x.entered s r).holdsBatch (x.team.withShapes r) = false from hb, hbooks]
    exact congrArg Host.Outcome.next hacc
  · simp only [State.putTeam_groups, State.putGroup_groups, s₁, Ctx.put, Map.find_set]
    split <;> rfl
  · simp only [State.putTeam_teams, State.putGroup_teams, s₁, Ctx.put, Map.find_set]
    split <;> rfl

/-! ### The rows of class 1 (R281, R290, R297 to R304) -/

/-- The instruction of a row asks for the row's operation: its work, registers and shapes, and where the row's checks pass nothing is
wrong with its shapes and spans. -/
def MatrixRow.asked (r : MatrixRow) (x : Ctx) (i : Instr) (s : State) : Prop :=
  ∃ (bad : Option IssueTrap) (req : MatrixReq), exec i s = x.issueMatrix s r.m r.n r.alloc bad req r.info ∧
    req.work = r.work ∧ req.owns = r.owns ∧ req.seq = r.seq ∧ req.tiles = r.tile.toList ∧ req.accs = r.acc.toList ∧
    (r.ok → bad = none ∧ req.spans.findSome? id = none)

theorem Ctx.spanTrap_of_ok {x : Ctx} {space a n align : Nat} {write : Bool} (hal : a % align = 0)
    (hin : a + n ≤ (if space = 0 then x.team.kernel.unit else x.launch.dieWin))
    (hw : write = true → space = 1 → x.launch.form = 1 → inRanges x.team 1 a n = true) : x.spanTrap space a n align write = none := by
  have hbad : ¬(write && space == 1 && x.launch.form == 1 && !inRanges x.team 1 a n) = true := by
    simp only [Bool.and_eq_true, beq_iff_eq, Bool.not_eq_true', not_and, Bool.not_eq_false]
    rintro ⟨⟨h1, h2⟩, h3⟩
    exact hw h1 h2 h3
  simp only [Ctx.spanTrap, hal, ne_eq, not_true_eq_false, if_false, if_neg (not_lt.2 hin)]
  exact if_neg hbad

theorem Ctx.spanTraps_of_ok {x : Ctx} {space a n : Nat} {write : Bool} (h : x.spanOk space a n write) :
    [x.spanTrap space a n 32 write].findSome? id = none := by
  rw [Ctx.spanTrap_of_ok h.1 h.2.1 h.2.2]; rfl

/-- A product's row is what its instruction asks for (R290). -/
theorem Ctx.productRow_asked {s : State} {x : Ctx} (hx : s.ctx = some x) (mode : Nat) (m : Bool) (c a b : Nat) (q : Bool) (sva svb : Nat) {i : Instr}
    (hi : exec i s = matrixProduct mode m c a b q sva svb s) : (x.productRow mode m c a b q).asked x i s := by
  refine ⟨_, _, by rw [hi, matrixProduct, onFrag_of hx]; rfl, rfl, rfl, rfl, rfl, ?_, fun hok => ⟨?_, rfl⟩⟩
  · simp only [Ctx.productRow]; split <;> rfl
  · obtain ⟨h1, h2, h3, h4, h5⟩ := hok
    have htarget : ¬(mode ≠ 1 ∧ x.team.accShape c ≠ ((x.team.tileShape a).rows, (x.team.tileShape b).cols)) := fun h => h.2 (h5 h.1)
    simp [productTrap, h1, h2, h3, h4, Ctx.targetTrap, if_neg htarget]

/-- An accumulator operation's row is what its instruction asks for (R304). -/
theorem Ctx.aopRow_asked {s : State} {x : Ctx} (fn : Nat) (m q : Bool) (d src : Nat) (t : Option Nat) (srcs : List Nat) (w : W32)
    (code : Nat) (kept : List Kept) (after : Nat → Nat → List LogItem) {i : Instr}
    (hi : exec i s = accOp fn m q d src t w code kept after x s) : (x.aopRow fn m q d src t srcs w).asked x i s := by
  refine ⟨_, _, hi.trans rfl, rfl, rfl, rfl, rfl, rfl, fun hok => ⟨?_, ?_⟩⟩
  · cases t with
    | none => rfl
    | some u =>
      have hu : x.team.accShape u = x.team.accShape src := hok.1 u rfl
      exact if_neg (show ¬(x.team.accShape u != x.team.accShape src) = true by rw [hu, bne_self_eq_false]; exact Bool.false_ne_true)
  · by_cases hfn : fn = 4
    · obtain ⟨hal, hin⟩ := hok.2 hfn
      subst hfn
      change [x.spanTrap 0 w.toNat (4 * (x.team.accShape src).2) 4 false].findSome? id = none
      rw [Ctx.spanTrap_of_ok hal hin (fun h => absurd h Bool.false_ne_true)]; rfl
    · change (if fn = 4 then [x.spanTrap 0 w.toNat (4 * (x.team.accShape src).2) 4 false] else []).findSome? id = none
      rw [if_neg hfn]; rfl

/-- The fields of a shape word (R282). -/
theorem shapeWord_wrap {rows cols space : Nat} (spaces : Bool) (hr : 1 ≤ rows) (hr' : rows ≤ 256) (hc : 1 ≤ cols) (hc' : cols ≤ 8)
    (hs : space ≤ 1) (h0 : spaces = false → space = 0) :
    shapeWord (wrap (space * 2 ^ 16 + (rows - 1 : Nat) * 2 ^ 8 + (cols - 1 : Nat) : Nat)) spaces = some (rows, 32 * cols, space) := by
  obtain ⟨rows, rfl⟩ := Nat.exists_eq_add_of_le' hr
  obtain ⟨cols, rfl⟩ := Nat.exists_eq_add_of_le' hc
  have hv : (wrap ((space * 2 ^ 16 + rows * 2 ^ 8 + cols : Nat) : Int)).toNat = space * 2 ^ 16 + rows * 2 ^ 8 + cols := by
    rw [wrap_natCast, BitVec.toNat_ofNat]; omega
  have hgood : ¬((space * 2 ^ 16 + rows * 2 ^ 8 + cols) / 2 ^ 17 ≠ 0 ∨ (space * 2 ^ 16 + rows * 2 ^ 8 + cols) / 8 % 32 ≠ 0 ∨
      ((!spaces) = true ∧ (space * 2 ^ 16 + rows * 2 ^ 8 + cols) / 2 ^ 16 % 2 = 1)) := by
    cases spaces with
    | true => simp; omega
    | false => simp [h0 rfl]; omega
  simp only [Nat.add_sub_cancel]
  rw [shapeWord]
  simp only [hv]
  rw [if_neg hgood]
  congr 2
  · omega
  · congr 1 <;> omega

/-- Each row is what its instruction asks for once its sources are there. -/
theorem MatrixDoes.asked {s : State} {x : Ctx} (hx : s.ctx = some x) {i : Instr} {r : MatrixRow} (hd : MatrixDoes x i r) (hr : x.ready r.srcs) :
    r.asked x i s := by
  cases hd with
  | tcfg m t dup axis cols rows wd =>
    have hinfo : wrap (dup * 2 ^ 24 + (if axis then 2 ^ 23 else 0) + cols * 2 ^ 20 + rows * 2 ^ 12 + wd * 2 ^ 9 : Nat) =
        BitVec.ofNat 32 (dup * 2 ^ 24 + axis.toNat * 2 ^ 23 + cols * 2 ^ 20 + rows * 2 ^ 12 + wd * 2 ^ 9) := by
      rw [wrap_natCast]; cases axis <;> rfl
    refine ⟨_, _, by
      rw [exec_tcfg, execTcfg, onFrag_of hx]
      exact congrArg (fun w => x.issueMatrix s m 2 (x.mayTile t) none _ w) hinfo.symm, rfl, rfl, rfl, rfl, rfl, fun _ => ?_⟩
    exact ⟨rfl, rfl⟩
  | tmovi m t a p =>
    exact ⟨_, _, by rw [exec_tmovi, execTmovi, onFrag_of hx, if_neg (not_waitsOn hr)], rfl, rfl, rfl, rfl, rfl,
      fun hok => ⟨rfl, Ctx.spanTraps_of_ok hok⟩⟩
  | tmovo m t a p =>
    exact ⟨_, _, by rw [exec_tmovo, execTmovo, onFrag_of hx, if_neg (not_waitsOn hr)], rfl, rfl, rfl, rfl, rfl,
      fun hok => ⟨rfl, Ctx.spanTraps_of_ok hok⟩⟩
  | tzero m t =>
    exact ⟨_, _, by rw [exec_tzero, execTzero, onFrag_of hx], rfl, rfl, rfl, rfl, rfl, fun _ => ⟨rfl, rfl⟩⟩
  | tdmap m t a ha =>
    refine ⟨_, _, by rw [exec_tdmap, execTdmap, onFrag_of hx, if_neg fun h => not_waitsOn hr h.2], ?_, rfl, rfl, rfl, rfl,
      fun hok => ⟨if_pos hok.1, ?_⟩⟩
    · simp only [if_neg ha]
    · simp only [if_neg ha]; exact Ctx.spanTraps_of_ok hok.2
  | unmap m t =>
    exact ⟨_, _, by rw [exec_tdmap, execTdmap, onFrag_of hx, if_neg fun h => h.1 rfl], rfl, rfl, rfl, rfl, rfl,
      fun hok => ⟨if_pos hok, rfl⟩⟩
  | azero m n b rows cols hw h1 h2 h3 h4 =>
    have hshape : shapeWord (x.uni b) false = some (rows, 32 * cols, 0) := by
      rw [hw, ← shapeWord_wrap false h1 h2 h3 h4 (Nat.zero_le 1) fun _ => rfl]; simp
    refine ⟨_, _, by rw [exec_azero, execAzero, onFrag_of hx, if_neg (not_waitsOn hr)]; simp only [hshape]; rfl, rfl, rfl, rfl, rfl, rfl,
      fun _ => ⟨rfl, rfl⟩⟩
  | afil m n a b rows cols space hw hs h1 h2 h3 h4 =>
    have hshape : shapeWord (x.uni b) true = some (rows, 32 * cols, space) := by
      rw [hw, shapeWord_wrap true h1 h2 h3 h4 hs fun h => absurd h.symm Bool.false_ne_true]
    refine ⟨_, _, by rw [exec_afil, execAfil, onFrag_of hx, if_neg (not_waitsOn hr)]; simp only [hshape]; rfl, rfl, rfl, rfl, rfl, rfl,
      fun hok => ⟨rfl, Ctx.spanTraps_of_ok hok⟩⟩
  | adrn m q n a b d hdrain =>
    refine ⟨_, _, by rw [exec_adrn, execAdrn, onFrag_of hx, if_neg (not_waitsOn hr)]; simp only [hdrain]; rfl, rfl, rfl, rfl, rfl, rfl,
      fun hok => ⟨rfl, Ctx.spanTraps_of_ok hok⟩⟩
  | mmaAcc m c a b q sva svb => exact x.productRow_asked hx 0 m c a b q sva svb rfl
  | mmaSet m c a b q sva svb => exact x.productRow_asked hx 1 m c a b q sva svb rfl
  | mmaSub m c a b q sva svb => exact x.productRow_asked hx 2 m c a b q sva svb rfl
  | aact m q d src f =>
    exact Ctx.aopRow_asked _ _ _ _ _ _ _ _ (activationCode f) [keptAcc x src false] (fun _ _ => [])
      (by rw [exec_aact, execAact, onFrag_of hx, wrap_natCast])
  | aadd m q d src t =>
    exact Ctx.aopRow_asked _ _ _ _ _ _ _ _ 0 [] (fun _ _ => []) (by rw [exec_aadd, execAadd, onFrag_of hx])
  | aemul m q d src t =>
    exact Ctx.aopRow_asked _ _ _ _ _ _ _ _ 0 [keptAcc x src false, keptAcc x t true] (fun _ _ => [])
      (by rw [exec_aemul, execAemul, onFrag_of hx])
  | ascal m q d src g =>
    have hg : x.ready [g] := hr
    exact Ctx.aopRow_asked _ _ _ _ _ _ _ _ 0 [] (fun _ _ => []) (by rw [exec_ascal, execAscal, onFrag_of hx, if_neg (not_waitsOn hg)])
  | abias m q d src g =>
    have hg : x.ready [g] := hr
    exact Ctx.aopRow_asked _ _ _ _ _ _ _ _ 0 [] (fun _ _ => []) (by rw [exec_abias, execAbias, onFrag_of hx, if_neg (not_waitsOn hg)])
  | arsum m q d src =>
    exact Ctx.aopRow_asked _ _ _ _ _ _ _ _ 0 [] (fun _ _ => []) (by rw [exec_arsum, execArsum, onFrag_of hx])
  | armax m q d src =>
    exact Ctx.aopRow_asked _ _ _ _ _ _ _ _ 0 [] (fun r c => [.indices src r c]) (by rw [exec_armax, execArmax, onFrag_of hx])
  | acpy m q d src =>
    exact Ctx.aopRow_asked _ _ _ _ _ _ _ _ 0 [] (fun _ _ => []) (by rw [exec_acpy, execAcpy, onFrag_of hx])

/-! ### The obligation (O33) -/

/-- A map to which at most one shape has been written. -/
theorem Map.holds_foldl {α : Type} (m : Map α) (e : Option (Nat × α)) : Map.holds (e.toList.foldl (fun m p => m.set p.1 p.2) m) m e := by
  cases e with
  | none => exact fun k => rfl
  | some p => exact fun k => Map.find_set ..

theorem Ctx.issueMatrix_waits {x : Ctx} {s : State} {m : Bool} {n : Nat} {ok : Bool} {bad : Option IssueTrap} {r : MatrixReq} {w : W32}
    (hseq : r.seq = true) (hh : x.g.handler = false) (hst : x.g.step ≠ none) (hw : ¬x.ready [125]) :
    x.issueMatrix s m n ok bad r w = .next s := by
  have hwait : x.awaitsIndex r.seq = true := by
    rw [Ctx.awaitsIndex, Ctx.sequenced, hseq, hh, Option.isSome_iff_ne_none.2 hst, Bool.eq_true_of_not_eq_false hw]; rfl
  unfold Ctx.issueMatrix
  rw [if_pos hwait]

theorem Ctx.awaitsIndex_eq_false {x : Ctx} {seq : Bool} (h : seq = false ∨ x.g.handler = true ∨ x.g.step = none ∨ x.ready [125]) :
    x.awaitsIndex seq = false := by
  rcases h with h | h | h | h
  · simp [Ctx.awaitsIndex, Ctx.sequenced, h]
  · simp [Ctx.awaitsIndex, Ctx.sequenced, h]
  · simp [Ctx.awaitsIndex, Ctx.sequenced, h]
  · rw [Ctx.awaitsIndex, show x.waitsOn [125] = false from h, Bool.and_false]

theorem Ctx.issueMatrix_illegal {x : Ctx} {s : State} {m : Bool} {n : Nat} {bad : Option IssueTrap} {r : MatrixReq} {w : W32}
    (h : x.awaitsIndex r.seq = false) : x.issueMatrix s m n false bad r w = x.illegal s w := by
  unfold Ctx.issueMatrix
  rw [h]; rfl

theorem Ctx.issueMatrix_good {x : Ctx} {s : State} {m : Bool} {n : Nat} {r : MatrixReq} {w : W32}
    (h : x.awaitsIndex r.seq = false) :
    x.issueMatrix s m n true none r w = x.gateMatrix s r fun skip plan => x.enterMatrix s x.g r skip plan m n := by
  unfold Ctx.issueMatrix
  rw [h]; rfl

/-- Settles O33: each row asks for its operation, and one operation more is issued and accepted at once. -/
theorem matrixIssues : Obligations.MatrixIssues := by
  unfold Obligations.MatrixIssues
  intro s x i r hx hd hr
  obtain ⟨bad, req, hexec, hwork, howns, hseq, htile, hacc, hgood⟩ := hd.asked hx hr
  rw [hexec, ← hseq]
  refine ⟨fun h1 h2 h3 h4 => Ctx.issueMatrix_waits h1 h2 h3 h4, fun h1 h2 => ?_, fun halloc hok hrec hbatch hstep hfull hfree hold => ?_⟩
  · rw [h2, Ctx.issueMatrix_illegal (Ctx.awaitsIndex_eq_false h1)]; rfl
  · obtain ⟨hbad, hspans⟩ := hgood hok
    have hnow : x.awaitsIndex req.seq = false :=
      Ctx.awaitsIndex_eq_false (hstep.imp_right fun h => h.imp_right Or.inl)
    obtain ⟨s', hs', hgroups, hteams, hrest, horder⟩ := Ctx.enterMatrix_plain hx req r.m r.n hbatch hold
    refine ⟨s', _, x.team.withShapes req, ?_, (hgroups _).trans (if_pos rfl), (hteams _).trans (if_pos rfl), ?_, ?_, rfl, ?_, ?_, ?_, rfl,
      fun k hk => (hgroups k).trans (if_neg hk), fun k hk => (hteams k).trans (if_neg hk), hrest, horder⟩
    · rw [halloc, hbad, Ctx.issueMatrix_good hnow,
        Ctx.gateMatrix_of_good _ (Ctx.sequenced_eq_false hstep) hrec hspans hfull (howns ▸ hfree), hs']
    · rw [Group.cls_putClass, if_pos rfl, hwork, howns]; rfl
    · intro c hc
      rw [Group.cls_putClass, if_neg hc]
      exact (x.g.cls_issueOp 1 c (.matrix req.work none) req.owns 0 s.tick).trans (if_neg hc)
    · exact x.g.advance_books x.frag r.m r.n
    · rw [Team.withShapes, htile]; exact Map.holds_foldl x.team.tileShapes r.tile
    · rw [Team.withShapes, hacc]; exact Map.holds_foldl x.team.accShapes r.acc

end Sys2Proof.Machine
end

section
/-!
PROOFS. Record mode (O39): bytes that a store reads back, fields of segment headers and entries, and the four instructions that write a log.
-/

namespace Sys2Proof.Machine

/-! ### Numbers in bytes (R5) -/

theorem leBytes_length : ∀ n v : Nat, (leBytes n v).length = n
  | 0, _ => rfl
  | n + 1, v => congrArg (· + 1) (leBytes_length n (v / 256))

theorem leNat_leBytes : ∀ n v : Nat, leNat (leBytes n v) = v % 256 ^ n
  | 0, v => (Nat.mod_one v).symm
  | n + 1, v => by
    rw [leBytes, leNat, leNat_leBytes n, Nat.pow_succ', Nat.mod_mul, BitVec.toNat_ofNat]

theorem field_leBytes (n v : Nat) : field (leBytes n v) 0 n = v % 256 ^ n := by
  rw [field, List.drop_zero, List.take_of_length_le (leBytes_length n v).le, leNat_leBytes]

theorem field_append_skip (p b : List Byte) (i n : Nat) (h : p.length ≤ i) : field (p ++ b) i n = field b (i - p.length) n := by
  rw [field, field, List.drop_append, List.drop_of_length_le h, List.nil_append]

/-- The first number of a record. -/
theorem field_leBytes_head (n v : Nat) (b : List Byte) : field (leBytes n v ++ b) 0 n = v % 256 ^ n := by
  rw [field, List.drop_zero, List.take_left' (leBytes_length n v), leNat_leBytes]

/-- A number further on in a record. -/
theorem field_leBytes_skip (k v : Nat) (b : List Byte) (i n : Nat) (h : k ≤ i) : field (leBytes k v ++ b) i n = field b (i - k) n := by
  rw [field_append_skip _ _ _ _ (by rwa [leBytes_length]), leBytes_length]

/-! ### Bytes read back (R28) -/

theorem Memory.bytes_putBytes_self {m : Memory} (h : m.wf = true) (a : Nat) (b : List Byte) : (m.putBytes a b).bytes a b.length = b := by
  refine List.ext_getElem (by simp [Memory.bytes]) fun i hi hb => ?_
  simp [Memory.bytes, Memory.byte_putBytes b m h, hb]

theorem Memory.bytes_putBytes_other {m : Memory} (h : m.wf = true) {a c n : Nat} {b : List Byte} (hd : c + n ≤ a ∨ a + b.length ≤ c) :
    (m.putBytes a b).bytes c n = m.bytes c n := by
  refine List.map_congr_left fun i hi => ?_
  have hi := List.mem_range.1 hi
  rw [Memory.byte_putBytes b m h, if_neg (by omega)]

theorem State.storeRead_storeWrite_self {s : State} (h : s.mem.wf = true) (t : Team) (space off : Nat) (b : List Byte) :
    (s.storeWrite t space off b).storeRead t space off b.length = b := Memory.bytes_putBytes_self h ..

theorem State.storeRead_storeWrite_other {s : State} (h : s.mem.wf = true) (t : Team) {space off at_ n : Nat} {b : List Byte}
    (hd : at_ + n ≤ off ∨ off + b.length ≤ at_) :
    (s.storeWrite t space off b).storeRead t space at_ n = s.storeRead t space at_ n := by
  refine Memory.bytes_putBytes_other h ?_
  have h1 := s.storeKey_add t space 0 at_
  have h2 := s.storeKey_add t space 0 off
  rw [Nat.zero_add] at h1 h2
  change s.storeKey t space at_ + n ≤ s.storeKey t space off ∨ s.storeKey t space off + b.length ≤ s.storeKey t space at_
  omega

theorem State.storeWrite_outside {s : State} (h : s.mem.wf = true) (t : Team) (space off : Nat) (b : List Byte) {n : Nat} (hn : b.length = n) :
    s.sameOutside (s.storeWrite t space off b) (s.storeKey t space off) n := fun c hc =>
  (Memory.byte_putBytes b s.mem h _ c).trans (if_neg (by omega))

/-! ### Segment headers (R319) -/

/-- The D fields of a context's current segment with a NEXT. -/
def LogCtx.head (c : LogCtx) (next : Nat) : List Byte :=
  leBytes 4 c.nent ++ leBytes 4 c.base ++ leBytes 4 c.dtop ++ leBytes 4 (c.earlier.headD noIndex) ++ leBytes 4 next ++ leBytes 28 0

theorem LogCtx.head_length (c : LogCtx) (next : Nat) : (c.head next).length = 48 := by
  simp [LogCtx.head, leBytes_length]

theorem State.writeBack_eq (s : State) (t : Team) (c : LogCtx) (next : Nat) :
    s.writeBack t c next = s.storeWrite t c.space (c.seg + 0x10) (c.head next) := rfl

/-- A field among those that the device writes. -/
theorem State.segField_writeBack {s : State} (h : s.mem.wf = true) (t : Team) (c : LogCtx) (next : Nat) {i n : Nat} (hi : 16 ≤ i) :
    (s.writeBack t c next).segField t c.space c.seg i n = field (c.head next) (i - 16) n := by
  have hr := State.storeRead_storeWrite_self h t c.space (c.seg + 0x10) (c.head next)
  rw [LogCtx.head_length] at hr
  have h16 : ((s.writeBack t c next).storeRead t c.space c.seg 16).length = 16 := by simp [State.storeRead, Memory.bytes]
  rw [State.segField, State.storeRead_append _ t c.space c.seg 16 48, field_append_skip _ _ _ _ (by omega), h16]
  exact congrArg (field · (i - 16) n) hr

theorem State.writeBack_holds {s : State} (h : s.mem.wf = true) (t : Team) (c : LogCtx) {next : Nat} (h1 : c.nent < 2 ^ 32)
    (h2 : c.base < 2 ^ 32) (h3 : c.dtop < 2 ^ 32) (h4 : c.earlier.headD noIndex < 2 ^ 32) (h5 : next < 2 ^ 32) :
    (s.writeBack t c next).segHolds t c.space c.seg c.nent c.base c.dtop (c.earlier.headD noIndex) next := by
  simp only [State.segHolds, State.segField_writeBack h, LogCtx.head, Nat.reduceLeDiff, Nat.reduceSub, List.append_assoc, field_leBytes_head,
    field_leBytes_skip, Nat.le_refl]
  exact ⟨Nat.mod_eq_of_lt h1, Nat.mod_eq_of_lt h2, Nat.mod_eq_of_lt h3, Nat.mod_eq_of_lt h4, Nat.mod_eq_of_lt h5⟩

theorem State.writeBack_zero {s : State} (h : s.mem.wf = true) (t : Team) (c : LogCtx) (next : Nat) :
    (s.writeBack t c next).segField t c.space c.seg 0x24 28 = 0 := by
  simp only [State.segField_writeBack h, LogCtx.head, Nat.reduceLeDiff, Nat.reduceSub, List.append_assoc, field_leBytes, field_leBytes_skip,
    Nat.le_refl, Nat.zero_mod]

theorem State.writeBack_outside {s : State} (h : s.mem.wf = true) (t : Team) (c : LogCtx) (next : Nat) :
    s.sameOutside (s.writeBack t c next) (s.storeKey t c.space (c.seg + 0x10)) 48 :=
  State.storeWrite_outside h t c.space _ _ (c.head_length next)

/-- A header elsewhere in the store stays as it is. -/
theorem State.segField_writeBack_other {s : State} (h : s.mem.wf = true) (t : Team) (c : LogCtx) (next : Nat) {seg : Nat}
    (hd : seg + 64 ≤ c.seg ∨ c.seg + 64 ≤ seg) (i n : Nat) :
    (s.writeBack t c next).segField t c.space seg i n = s.segField t c.space seg i n := by
  rw [State.segField, State.writeBack_eq, State.storeRead_storeWrite_other h t (by rw [LogCtx.head_length]; omega)]; rfl

theorem State.writeBack_launches (s : State) (t : Team) (c : LogCtx) (next : Nat) : (s.writeBack t c next).launches = s.launches := by
  rw [State.writeBack_eq, State.storeWrite, State.storeBytes_launches]

theorem State.storeKey_writeBack (s : State) (t : Team) (c : LogCtx) (next : Nat) (t' : Team) (space off : Nat) :
    (s.writeBack t c next).storeKey t' space off = s.storeKey t' space off := by
  simp only [State.storeKey, State.writeBack_launches]

theorem State.writeBack_wf {s : State} (h : s.mem.wf = true) (t : Team) (c : LogCtx) (next : Nat) : (s.writeBack t c next).mem.wf = true :=
  Memory.wf_putBytes _ _ _ h

theorem State.segField_congr {s s' : State} (hm : s'.mem = s.mem) (hl : s'.launches = s.launches) (t : Team) (space seg i n : Nat) :
    s'.segField t space seg i n = s.segField t space seg i n := by
  simp only [State.segField, State.storeRead, State.storeKey, hm, hl]

theorem State.segHolds_congr {s s' : State} (hm : s'.mem = s.mem) (hl : s'.launches = s.launches) {t : Team} {space seg n b d p q : Nat}
    (h : s.segHolds t space seg n b d p q) : s'.segHolds t space seg n b d p q := by
  simpa only [State.segHolds, State.segField_congr hm hl] using h

/-- A team's change with a store to its log. -/
def State.logs (s : State) (uid : Nat) (t' t : Team) (space off : Nat) (b : List Byte) : State :=
  (s.putTeam uid t').storeWrite t space off b

theorem State.logs_rest (s : State) (uid : Nat) (t' t : Team) (space off : Nat) (b : List Byte) :
    { s.logs uid t' t space off b with teams := s.teams, mem := s.mem, hods := s.hods } = s := rfl

theorem State.storeWrite_rest (s : State) (t : Team) (space off : Nat) (b : List Byte) (uid : Nat) (t' : Team) :
    { (s.storeWrite t space off b).putTeam uid t' with teams := s.teams, mem := s.mem, hods := s.hods } = s := rfl

theorem State.putTeam_logMem (s : State) (uid : Nat) (t : Team) : (s.putTeam uid t).mem = s.mem := rfl

theorem State.storeRead_putTeam (s : State) (uid : Nat) (t' t : Team) (space off n : Nat) :
    (s.putTeam uid t').storeRead t space off n = s.storeRead t space off n := rfl

theorem State.segField_putTeam (s : State) (uid : Nat) (t' t : Team) (space seg i n : Nat) :
    (s.putTeam uid t').segField t space seg i n = s.segField t space seg i n := rfl

theorem State.segHolds_putTeam {s : State} {t : Team} {space seg n b d p q : Nat} (h : s.segHolds t space seg n b d p q) (uid : Nat) (t' : Team) :
    (s.putTeam uid t').segHolds t space seg n b d p q := State.segHolds_congr (s.putTeam_logMem uid t') (s.putTeam_launches uid t') h

/-- Two stores to a log and a team's change leave the rest of the state. -/
theorem State.twoWrites_rest (s : State) (t : Team) (sp off : Nat) (b : List Byte) (sp' off' : Nat) (b' : List Byte) (uid : Nat) (t' : Team) :
    { ((s.storeWrite t sp off b).storeWrite t sp' off' b').putTeam uid t' with teams := s.teams, mem := s.mem, hods := s.hods } = s := rfl

theorem State.twoWriteBacks_rest (s : State) (t : Team) (c c' : LogCtx) (n n' uid : Nat) (t' : Team) :
    { ((s.writeBack t c n).writeBack t c' n').putTeam uid t' with teams := s.teams, mem := s.mem, hods := s.hods } = s := by
  rw [State.writeBack_eq, State.writeBack_eq]
  exact s.twoWrites_rest ..

/-! ### Opening a log (R327, R328) -/

/-- A segment inside the store, where the team may write, passes the checks of R328. -/
theorem Ctx.segTrap_of_ok {x : Ctx} {s : State} {space a : Nat} (hal : a % 64 = 0) (hlen : 128 ≤ s.segField x.team space a 0 4)
    (hin : a + s.segField x.team space a 0 4 ≤ s.storeEnd x.team space) (hw : space = 1 → x.launch.form ≠ 1) : x.segTrap s space a = none := by
  have hsl : (s.segAt x.team space a).seglen = s.segField x.team space a 0 4 := rfl
  unfold Ctx.segTrap
  simp only [hsl]
  rw [if_neg (by omega), if_neg (by omega), if_neg fun h => hw h.1 h.2.1]

theorem SegHead.firstOk_of_ok {s : State} {t : Team} {space seg : Nat} (h : s.SegOk t space seg) :
    (readSeg (s.storeRead t space seg 64)).firstOk (s.storeRead t space seg 64) = true := by
  obtain ⟨-, ⟨l1, l2, l3⟩, ⟨s1, s2, s3⟩, ⟨w1, w2⟩, hz⟩ := h
  simp only [SegHead.firstOk, Bool.and_eq_true, field_zeros]
  refine ⟨⟨decide_eq_true ⟨l1, l2, l3⟩, decide_eq_true ⟨s1, s2, ?_, w1, w2⟩⟩, hz⟩
  exact (Nat.div_pos s3 (by decide)).ne'

/-- The context that `recon` opens on a first segment. -/
def Ctx.opened (x : Ctx) (s : State) (space seg : Nat) : LogCtx :=
  openLog space seg false (s.segAt x.team space seg) (s.segAt x.team space seg) [seg] x.slot

/-- The team with a context more, and its fields written. -/
def Ctx.opens (x : Ctx) (s : State) (space seg : Nat) : State :=
  (s.putTeam x.g.team { x.team with logs := x.team.logs ++ [x.opened s space seg] }).writeBack x.team (x.opened s space seg) noIndex

theorem Ctx.opens_teams (x : Ctx) (s : State) (space seg : Nat) :
    (x.opens s space seg).teams = s.teams.set x.g.team { x.team with logs := x.team.logs ++ [x.opened s space seg] } := rfl

theorem Ctx.opens_rest (x : Ctx) (s : State) (space seg : Nat) :
    { x.opens s space seg with teams := s.teams, mem := s.mem, hods := s.hods } = s := s.logs_rest ..

theorem execRecon_first {s : State} {x : Ctx} (hx : s.ctx = some x) (m : Bool) {a : Nat} {p : Bool} (hr : x.ready [a])
    (hrec : x.g.recording = false) (hh : x.g.handler = false) (hok : s.SegOk x.team p.toNat (x.uni a).toNat)
    (hform : p = true → x.launch.form ≠ 1) (hnew : ∀ c ∈ x.team.logs, c.space = p.toNat → c.first ≠ (x.uni a).toNat)
    (hroom : x.team.logs.length < 4) (hheld : s.headHeld x.team p.toNat (x.uni a).toNat = false) :
    execRecon m a false p s = x.done (x.opens s p.toNat (x.uni a).toNat)
      { x.g with recording := true, log := some ⟨p.toNat, (x.uni a).toNat, 0⟩ } m 1 := by
  have htrap : x.segTrap s p.toNat (x.uni a).toNat = none :=
    Ctx.segTrap_of_ok hok.place.1 hok.length.2.1 hok.place.2 fun h => hform (by cases p <;> simp_all)
  have hfind : (x.team.logs.find? fun c => c.space = p.toNat ∧ c.first = (x.uni a).toNat) = none :=
    List.find?_eq_none.2 fun c hc => by simpa using hnew c hc
  rw [execRecon, onFrag_of hx]
  simp only [show x.waitsOn [a] = false from hr, hheld, Bool.or_false, Bool.false_eq_true, if_false, htrap, hrec, hh,
    SegHead.firstOk_of_ok hok, Bool.not_true, hfind, if_neg (not_le.2 hroom)]
  rfl

/-! ### Leaving a log (R329) -/

theorem Ctx.put_group (x : Ctx) (s : State) (g : Group) : (x.put s g).groups.find (slotKey x.core x.slot) = some g :=
  (Map.find_set ..).trans (if_pos rfl)

theorem Ctx.put_mem (x : Ctx) (s : State) (g : Group) : (x.put s g).mem = s.mem := rfl

theorem Ctx.put_launches (x : Ctx) (s : State) (g : Group) : (x.put s g).launches = s.launches := rfl

/-- The team without a log's context. -/
def Team.dropLog (t : Team) (c : LogCtx) : Team := { t with logs := t.logs.filter fun d => !(d.space == c.space && d.first == c.first) }

theorem Team.logFor_some {t : Team} {r : Option LogRef} {c : LogCtx} (h : t.logFor r = some c) :
    ∃ q, r = some q ∧ c.space = q.space ∧ c.first = q.first := by
  cases r with
  | none => exact absurd h (Option.some_ne_none c).symm
  | some q => exact ⟨q, rfl, by simpa using List.find?_some h⟩

theorem Team.logFor_dropLog {t : Team} {r : Option LogRef} {c : LogCtx} (h : t.logFor r = some c) : (t.dropLog c).logFor r = none := by
  obtain ⟨q, rfl, hs, hf⟩ := Team.logFor_some h
  simp only [Team.logFor, Team.dropLog, List.find?_eq_none, List.mem_filter]
  rintro d ⟨-, hd⟩
  simpa [hs, hf, imp_iff_not_or] using hd

/-- The end of an instruction in a group that has left its log. -/
theorem Group.advance_leaves {g : Group} {l : Option LogRef} (hrec : g.recording = true) (i : Nat) (m : Bool) (n : Nat) :
    let g' := ({ g with recording := false, log := l } : Group).advance i m n
    g'.recording = false ∧ { g' with recording := true, log := g.log } = g.advance i m n := by
  intro g'
  have hg' : g' = (g.advance i m n).withBooks { g with recording := false, log := l } :=
    Group.advance_withBooks g { g with recording := false, log := l } i m n
  refine ⟨by rw [hg']; rfl, ?_⟩
  rw [hg', ← g.advance_books i m n, ← hrec]
  rfl

/-- A group of the team whose log ends keeps where it ended. -/
def Group.keepsEnd (uid : Nat) (c : LogCtx) (g : Group) : Group :=
  if g.team = uid then
    { g with log := g.log.map fun q => if q.space = c.space ∧ q.first = c.first then { q with final := c.next } else q }
  else g

theorem Group.keepsEnd_eq {g : Group} {uid : Nat} (hg : g.team = uid) (c : LogCtx) : ∃ l, g.keepsEnd uid c = { g with log := l } :=
  ⟨_, if_pos hg⟩

/-- The context is gone from the team. -/
def State.dropsLog (s : State) (uid : Nat) (t : Team) (c : LogCtx) : State :=
  { s with teams := s.teams.set uid (t.dropLog c), groups := s.groups.mapValues fun _ => Group.keepsEnd uid c }

theorem State.dropsLog_mem (s : State) (uid : Nat) (t : Team) (c : LogCtx) : (s.dropsLog uid t c).mem = s.mem := rfl

theorem State.dropsLog_launches (s : State) (uid : Nat) (t : Team) (c : LogCtx) : (s.dropsLog uid t c).launches = s.launches := rfl

/-- The context has ended: its header is written back, and it is gone from the team. -/
def State.endsLog (s : State) (uid : Nat) (t : Team) (c : LogCtx) : State := (s.writeBack t c noIndex).dropsLog uid t c

theorem State.endsLog_groups (s : State) (uid : Nat) (t : Team) (c : LogCtx) :
    (s.endsLog uid t c).groups = s.groups.mapValues fun _ => Group.keepsEnd uid c := rfl

theorem State.endsLog_teams (s : State) (uid : Nat) (t : Team) (c : LogCtx) :
    (s.endsLog uid t c).teams = s.teams.set uid (t.dropLog c) := rfl

theorem State.endsLog_mem (s : State) (uid : Nat) (t : Team) (c : LogCtx) : (s.endsLog uid t c).mem = (s.writeBack t c noIndex).mem := by
  rw [State.endsLog, State.dropsLog_mem]

theorem State.endsLog_launches (s : State) (uid : Nat) (t : Team) (c : LogCtx) : (s.endsLog uid t c).launches = s.launches := by
  rw [State.endsLog, State.dropsLog_launches, State.writeBack_launches]

/-- The header of a log that ends, and the memory outside it. -/
theorem State.endsLog_writes {s : State} (h : s.mem.wf = true) (uid : Nat) (t : Team) (c : LogCtx) (h1 : c.nent < 2 ^ 32)
    (h2 : c.base < 2 ^ 32) (h3 : c.dtop < 2 ^ 32) (he : c.earlier = []) :
    (s.endsLog uid t c).segHolds t c.space c.seg c.nent c.base c.dtop 0xFFFFFFFF 0xFFFFFFFF ∧
      s.sameOutside (s.endsLog uid t c) (s.storeKey t c.space (c.seg + 0x10)) 48 := by
  have hprev : c.earlier.headD noIndex = noIndex := by rw [he]; rfl
  have hb := State.writeBack_holds h t c (next := noIndex) h1 h2 h3 (by rw [hprev]; decide) (by decide)
  rw [hprev] at hb
  refine ⟨State.segHolds_congr (s.endsLog_mem uid t c) ((s.endsLog_launches uid t c).trans (s.writeBack_launches ..).symm) hb, fun b hb => ?_⟩
  rw [State.endsLog_mem]
  exact State.writeBack_outside h t c noIndex b hb

theorem State.endsLog_group {s : State} {uid k : Nat} {g : Group} (t : Team) (c : LogCtx) (h : s.groups.find k = some g) :
    (s.endsLog uid t c).groups.find k = some (g.keepsEnd uid c) := by
  rw [State.endsLog_groups, Map.find_mapValues, h]; rfl

theorem State.endsLog_team (s : State) (uid : Nat) (t : Team) (c : LogCtx) : (s.endsLog uid t c).teams.find uid = some (t.dropLog c) := by
  rw [State.endsLog_teams, Map.find_set, if_pos rfl]

theorem State.leaveLog_last {s : State} {slot uid : Nat} {r : Option LogRef} {t : Team} {c : LogCtx} (ht : s.teams.find uid = some t)
    (hc : t.logFor r = some c) (hm : c.members = [slot]) : s.leaveLog uid slot r = s.endsLog uid t { c with members := [] } := by
  have hin : ¬(!c.members.contains slot) = true := by simp [hm]
  have hout : c.members.filter (· ≠ slot) = [] := by simp [hm]
  unfold State.leaveLog
  simp only [ht, hc]
  rw [if_neg hin, hout, if_pos rfl]
  rfl

/-- The last group of a log leaves it. -/
theorem State.quitLog_last {s : State} {core slot uid : Nat} {r : Option LogRef} {t : Team} {c : LogCtx} (ht : s.teams.find uid = some t)
    (hc : t.logFor r = some c) (hm : c.members = [slot]) : s.quitLog core slot uid r = s.endsLog uid t { c with members := [] } := by
  have hteam : (s.endsLog uid t { c with members := [] }).teams.find uid = some (t.dropLog c) := s.endsLog_team ..
  unfold State.quitLog
  simp only [State.leaveLog_last ht hc hm, hteam, Option.bind_some, Team.logFor_dropLog hc, Option.map_none]

theorem execRecoff_off {s : State} {x : Ctx} (hx : s.ctx = some x) (m : Bool) (hrec : x.g.recording = false) :
    execRecoff m s = x.done s x.g m 1 := by
  rw [execRecoff, onFrag_of hx, hrec]; rfl

theorem execRecoff_waits {s : State} {x : Ctx} (hx : s.ctx = some x) (m : Bool) (hrec : x.g.recording = true) (hops : (x.g.cls 1).ops ≠ []) :
    execRecoff m s = .next s := by
  have hout : x.g.out 1 ≠ 0 := fun h => hops (List.length_eq_zero_iff.1 h)
  rw [execRecoff, onFrag_of hx, hrec]
  simp [hout]

theorem execRecoff_last {s : State} {x : Ctx} (hx : s.ctx = some x) (m : Bool) {c : LogCtx} (hrec : x.g.recording = true)
    (hops : (x.g.cls 1).ops = []) (hc : x.team.logFor x.g.log = some c) (hm : c.members = [x.slot])
    (hheld : s.headHeld x.team c.space c.seg = false) :
    ∃ l, execRecoff m s = x.done (s.endsLog x.g.team x.team { c with members := [] }) { x.g with recording := false, log := l } m 1 := by
  obtain ⟨-, hg, -, ht, -⟩ := State.ctx_eq_some hx
  obtain ⟨l, hl⟩ := Group.keepsEnd_eq (g := x.g) rfl { c with members := [] }
  have hgrp : ((s.endsLog x.g.team x.team { c with members := [] }).groups.find (slotKey x.core x.slot)).getD x.g =
      { x.g with log := l } := by
    rw [State.endsLog_group x.team _ hg, Option.getD_some, hl]
  have hout : x.g.out 1 = 0 := List.length_eq_zero_iff.2 hops
  refine ⟨l, ?_⟩
  rw [execRecoff, onFrag_of hx, hrec]
  simp only [Bool.not_true, Bool.false_eq_true, if_false, hout, ne_eq, not_true_eq_false, decide_false, Bool.false_or, hc, Option.any_some, hheld,
    State.quitLog_last ht hc hm, hgrp]

/-- R327 to R329. -/
theorem recordModeOpens : Sys2Proof.Claims.RecordModeOpens := by
  intro s x m hx hw
  refine ⟨fun a p hr hrec hh hok hform hnew hroom hheld => ?_, execRecoff_off hx m, execRecoff_waits hx m,
    fun c hrec hops hc hm h1 h2 h3 he hheld => ?_⟩
  · have hlen : s.segField x.team p.toNat (x.uni a).toNat 0 4 < 2 ^ 32 := lt_of_le_of_lt hok.length.2.2 (by decide)
    refine ⟨x.opens s p.toNat (x.uni a).toNat, x.opened s p.toNat (x.uni a).toNat,
      execRecon_first hx m hr hrec hh hok hform hnew hroom hheld, by rw [Ctx.opens_teams, Map.find_set, if_pos rfl],
      fun k hk => by rw [Ctx.opens_teams, Map.find_set, if_neg hk], rfl, rfl, rfl, rfl, rfl, rfl, rfl, rfl, rfl, rfl, rfl, rfl, rfl, ?_, ?_,
      x.opens_rest s _ _⟩
    · exact State.writeBack_holds hw x.team (x.opened s p.toNat (x.uni a).toNat) (Nat.two_pow_pos 32)
        (Nat.two_pow_pos 32) hlen (show noIndex < 2 ^ 32 by decide) (by decide)
    · exact State.writeBack_outside hw x.team (x.opened s p.toNat (x.uni a).toNat) noIndex
  · obtain ⟨l, hexec⟩ := execRecoff_last hx m hrec hops hc hm hheld
    obtain ⟨hoff, hrest⟩ := Group.advance_leaves (l := l) hrec x.frag m 1
    obtain ⟨hhead, hout⟩ := State.endsLog_writes hw x.g.team x.team { c with members := [] } h1 h2 h3 he
    refine ⟨_, _, hexec, x.put_group .., hoff, hrest, ?_, ?_, ?_⟩
    · refine (congrArg (Option.map (·.logs)) (s.endsLog_team x.g.team x.team { c with members := [] })).trans ?_
      simp only [Option.map_some, Team.dropLog, Bool.decide_and, decide_not]
      rfl
    · exact State.segHolds_congr (x.put_mem ..) (x.put_launches ..) hhead
    · intro b hb
      rw [Ctx.put_mem]
      exact hout b hb

/-! ### Marks and new segments (R330, R331) -/

theorem LogEntry.bytes_length (e : LogEntry) : e.bytes.length = 32 := by
  simp [LogEntry.bytes, leBytes_length]

/-- The fields of a mark's entry (R320). -/
theorem markEntry_fields {slot dtop seg : Nat} (hs : slot < 256) (hd : dtop < 2 ^ 32) (hg : seg < 2 ^ 32) :
    let b := (markEntry slot dtop seg).bytes
    field b 0 1 = 3 ∧ field b 1 1 = 0 ∧ field b 2 1 = 0 ∧ field b 3 1 = slot ∧ field b 4 3 = 0xFFFFFF ∧ field b 7 1 = 0 ∧
      field b 8 2 = 0 ∧ field b 10 2 = 0 ∧ field b 12 4 = dtop ∧ field b 16 4 = seg ∧ field b 20 4 = 0xFFFFFFFF ∧
      field b 28 4 = 0xFFFFFFFF := by
  have h1 : slot % 256 ^ 1 = slot := Nat.mod_eq_of_lt hs
  have h2 : dtop % 256 ^ 4 = dtop := Nat.mod_eq_of_lt hd
  have h3 : seg % 256 ^ 4 = seg := Nat.mod_eq_of_lt hg
  simp only [LogEntry.bytes, markEntry, List.append_assoc, field_leBytes_head, field_leBytes_skip, field_leBytes, Nat.reduceLeDiff,
    Nat.reduceSub, Nat.le_refl, h1, h2, h3]
  exact ⟨rfl, rfl, rfl, trivial, by simp [field, leBytes, leNat], rfl, rfl, rfl, trivial, trivial, by decide, by decide⟩

theorem execRmark_writes {s : State} {x : Ctx} (hx : s.ctx = some x) (m : Bool) (d : Nat) {c : LogCtx} (hrec : x.g.recording = true)
    (hc : x.team.logFor x.g.log = some c) (hidx : c.next + c.reservedEntries < 2 ^ 24 - 1) (hroom : c.entryEnd + c.reserved + 32 ≤ c.dtop)
    (hacc : ∀ o ∈ (x.g.cls 1).ops, o.order ≠ 0) (hheld : s.spanHeld x.team c.space (c.seg + c.entryEnd) 32 = false) :
    execRmark m d s = x.done ((s.storeWrite x.team c.space (c.seg + c.entryEnd) (markEntry x.slot c.dtop c.seg).bytes).putTeam x.g.team
      (x.team.putLog { c with nent := c.nent + 1 })) (x.writeUni x.g d (BitVec.ofNat 32 c.next)) m 1 := by
  have hfits : c.overflow 32 = none := by rw [LogCtx.overflow, if_neg (by omega), if_neg (by omega)]
  have hready : ((x.g.cls 1).ops.any fun o => o.order = 0) = false := List.any_eq_false.2 fun o ho => by simpa using hacc o ho
  rw [execRmark, onFrag_of hx, hrec]
  simp only [if_true, hc, hfits, hready, hheld, Bool.or_false, Bool.false_eq_true, if_false]

/-- The context that goes on in a new segment. -/
def LogCtx.goesOn (c : LogCtx) (seg len : Nat) : LogCtx :=
  { c with seg := seg, seglen := len, earlier := c.seg :: c.earlier, nent := 0, base := c.next, dtop := len }

/-- What the two headers hold once the log has gone on, and what stays as it was. -/
theorem LogCtx.goesOn_writes {s : State} (hw : s.mem.wf = true) (t : Team) (c : LogCtx) (uid : Nat) (t' : Team) {seg len : Nat}
    (hseg : c.seg < 2 ^ 32) (hnext : c.next < 2 ^ 32) (hlen : len < 2 ^ 32) (hat : seg < 2 ^ 32)
    (hapart : seg + 64 ≤ c.seg ∨ c.seg + 64 ≤ seg) :
    let s' := ((s.writeBack t c seg).writeBack t (c.goesOn seg len) noIndex).putTeam uid t'
    s'.segHolds t c.space seg 0 c.next len c.seg 0xFFFFFFFF ∧
      (c.nent < 2 ^ 32 → c.base < 2 ^ 32 → c.dtop < 2 ^ 32 → (∀ p ∈ c.earlier, p < 2 ^ 32) →
        s'.segHolds t c.space c.seg c.nent c.base c.dtop (c.earlier.headD 0xFFFFFFFF) seg) ∧
      s'.segField t c.space seg 0x24 28 = 0 ∧ s'.segField t c.space c.seg 0x24 28 = 0 ∧
      (∀ b, (b < s.storeKey t c.space (seg + 0x10) ∨ s.storeKey t c.space (seg + 0x10) + 48 ≤ b) →
        (b < s.storeKey t c.space (c.seg + 0x10) ∨ s.storeKey t c.space (c.seg + 0x10) + 48 ≤ b) →
        s'.mem.byte b = s.mem.byte b) ∧
      { s' with teams := s.teams, mem := s.mem, hods := s.hods } = s := by
  have hw' : (s.writeBack t c seg).mem.wf = true := State.writeBack_wf hw ..
  have hold : ∀ i n, ((s.writeBack t c seg).writeBack t (c.goesOn seg len) noIndex).segField t c.space c.seg i n =
      (s.writeBack t c seg).segField t c.space c.seg i n := fun i n =>
    State.segField_writeBack_other hw' t (c.goesOn seg len) noIndex (seg := c.seg) (Or.comm.1 hapart) i n
  refine ⟨?_, fun h1 h2 h3 h4 => ?_, ?_, ?_, fun b hb hb' => ?_, s.twoWriteBacks_rest ..⟩
  · refine State.segHolds_putTeam ?_ uid t'
    exact State.writeBack_holds hw' t (c.goesOn seg len) (Nat.two_pow_pos 32) hnext hlen hseg (by decide)
  · have hprev : c.earlier.headD noIndex < 2 ^ 32 := by
      cases he : c.earlier with
      | nil => decide
      | cons p ps => exact h4 p (he ▸ List.mem_cons_self ..)
    have hb := State.writeBack_holds hw t c h1 h2 h3 hprev hat
    refine State.segHolds_putTeam ?_ uid t'
    unfold State.segHolds at hb ⊢
    rw [hold, hold, hold, hold, hold]
    exact hb
  · rw [State.segField_putTeam]
    exact State.writeBack_zero hw' t (c.goesOn seg len) noIndex
  · rw [State.segField_putTeam, hold]
    exact State.writeBack_zero hw t c seg
  · rw [← State.storeKey_writeBack s t c seg] at hb
    rw [State.putTeam_logMem, State.writeBack_outside hw' t (c.goesOn seg len) noIndex b hb, State.writeBack_outside hw t c seg b hb']

theorem execRlog_goesOn {s : State} {x : Ctx} (hx : s.ctx = some x) (m : Bool) {a : Nat} {c : LogCtx} (hrec : x.g.recording = true)
    (hc : x.team.logFor x.g.log = some c) (hr : x.ready [a]) (htrap : x.segTrap s c.space (x.uni a).toNat = none)
    (hlen : (s.segAt x.team c.space (x.uni a).toNat).lenOk = true) (h1 : s.headHeld x.team c.space (x.uni a).toNat = false)
    (h2 : s.headHeld x.team c.space c.seg = false) :
    let c' := c.goesOn (x.uni a).toNat (s.segField x.team c.space (x.uni a).toNat 0 4)
    execRlog m a s = x.done (((s.writeBack x.team c (x.uni a).toNat).writeBack x.team c' noIndex).putTeam x.g.team (x.team.putLog c')) x.g m 1 := by
  rw [execRlog, onFrag_of hx, hrec]
  simp only [if_true, hc, show x.waitsOn [a] = false from hr, h1, h2, Bool.or_false, Bool.false_eq_true, if_false, htrap, hlen, Bool.not_true]
  rfl

/-- The group has no log to write. -/
theorem Ctx.noLog {x : Ctx} (h : x.g.recording = false ∨ x.team.logFor x.g.log = none) :
    (if x.g.recording then x.team.logFor x.g.log else none) = none := by
  rcases h with h | h <;> simp [h]

theorem execRmark_illegal {s : State} {x : Ctx} (hx : s.ctx = some x) (m : Bool) (d : Nat)
    (h : x.g.recording = false ∨ x.team.logFor x.g.log = none) : execRmark m d s = x.illegal s 0 := by
  rw [execRmark, onFrag_of hx, Ctx.noLog h]

theorem execRlog_illegal {s : State} {x : Ctx} (hx : s.ctx = some x) (m : Bool) (a : Nat)
    (h : x.g.recording = false ∨ x.team.logFor x.g.log = none) : execRlog m a s = x.illegal s 0 := by
  rw [execRlog, onFrag_of hx]
  simp only [Ctx.noLog h]

/-! ### Bindings and status (R332, R333) -/

theorem execRgrad_binds {s : State} {x : Ctx} (hx : s.ctx = some x) (m : Bool) {v c : Nat}
    (hv : v < 16 ∧ x.mayTile v = true ∨ 32 ≤ v ∧ v < 64 ∧ x.mayAcc (v - 32) = true) (hc : c = 127 ∨ c ≠ 127 ∧ x.mayAcc c = true) :
    execRgrad m v c s = x.done s { x.g with binds := if c = 127 then x.g.binds.erase v else x.g.binds.set v c } m 1 := by
  have hvalue : x.mayValue v = true := by
    unfold Ctx.mayValue
    rcases hv with ⟨h1, h2⟩ | ⟨h1, h2, h3⟩
    · rw [if_pos h1, h2]
    · rw [if_neg (by omega), if_pos ⟨h1, h2⟩, h3]
  have hacc : (c == 127 || x.mayAcc c) = true := by rcases hc with h | h <;> simp [h]
  rw [execRgrad, onFrag_of hx, if_neg (by omega), hvalue, hacc]
  rfl

theorem execRgrad_illegal {s : State} {x : Ctx} (hx : s.ctx = some x) (m : Bool) {v c : Nat} (hc : c ≠ 127)
    (hv : v = 127 ∨ (16 ≤ v ∧ v < 32) ∨ 64 ≤ v) : execRgrad m v c s = x.illegal s 0 := by
  rw [execRgrad, onFrag_of hx]
  by_cases h : v = 127
  · rw [if_pos h, if_neg hc]
  · have hvalue : x.mayValue v = false := by rw [Ctx.mayValue, if_neg (by omega), if_neg (by omega)]
    rw [if_neg h, hvalue]
    rfl

theorem execRstat_reads {s : State} {x : Ctx} (hx : s.ctx = some x) (m : Bool) (d : Nat) {n : Nat} (hn : n ≤ 2) :
    let c := if x.g.recording then x.team.logFor x.g.log else none
    execRstat m d n s = x.done s (x.writeUni x.g d (if n = 0 then x.recStat else if n = 1 then BitVec.ofNat 32 ((c.map (·.free)).getD 0)
      else BitVec.ofNat 32 ((c.map (·.seg)).getD noIndex))) m 1 := by
  rw [execRstat, onFrag_of hx]
  interval_cases n <;> rfl

theorem execRstat_illegal {s : State} {x : Ctx} (hx : s.ctx = some x) (m : Bool) (d : Nat) {n : Nat} (hn : 2 < n) :
    execRstat m d n s = x.illegal s 0 := by
  rw [execRstat, onFrag_of hx]
  exact if_pos hn

theorem execRgrad_clears {s : State} {x : Ctx} (hx : s.ctx = some x) (m : Bool) :
    execRgrad m 127 127 s = x.done s { x.g with binds := Map.empty } m 1 := by
  rw [execRgrad, onFrag_of hx]; rfl

/-- R330 to R333. -/
theorem recordModeWrites : Sys2Proof.Claims.RecordModeWrites := by
  intro s x m hx hw
  refine ⟨fun c hrec hc hidx hroom hdtop hseg hslot hacc hheld d => ?_,
    fun c a hrec hc hr hal hlen64 hlen hlen24 hin hspace hform hnext hseg hapart h1 h2 => ?_,
    fun h d a => ⟨execRmark_illegal hx m d h, execRlog_illegal hx m a h⟩,
    fun v c hv hc => ⟨_, fun k => ?_, execRgrad_binds hx m hv hc⟩, ⟨_, fun _ => rfl, execRgrad_clears hx m⟩,
    fun v c hc hv => execRgrad_illegal hx m hc hv, fun d => ⟨?_, ?_, ?_, fun n hn => execRstat_illegal hx m d hn⟩⟩
  · refine ⟨_, _, wrap_natCast c.next ▸ x.uniformSet_writeUni d _, execRmark_writes hx m d hrec hc hidx hroom hacc hheld,
      (Map.find_set ..).trans (if_pos rfl), ?_, ?_, s.storeWrite_rest ..⟩
    · have hb := State.storeRead_storeWrite_self hw x.team c.space (c.seg + c.entryEnd) (markEntry x.slot c.dtop c.seg).bytes
      rw [LogEntry.bytes_length] at hb
      rw [State.storeRead_putTeam, hb]
      exact markEntry_fields hslot hdtop hseg
    · intro b hb
      rw [State.putTeam_logMem]
      exact State.storeWrite_outside hw x.team c.space _ _ (LogEntry.bytes_length _) b hb
  · have htrap : x.segTrap s c.space (x.uni a).toNat = none := Ctx.segTrap_of_ok hal hlen hin hform
    have hlenOk : (s.segAt x.team c.space (x.uni a).toNat).lenOk = true := decide_eq_true ⟨hlen64, hlen, hlen24⟩
    exact ⟨_, execRlog_goesOn hx m hrec hc hr htrap hlenOk h1 h2, (Map.find_set ..).trans (if_pos rfl),
      LogCtx.goesOn_writes hw x.team c x.g.team _ hseg hnext (by omega) (by omega) hapart⟩
  · by_cases hc : c = 127
    · rw [if_pos hc, if_pos hc, Map.find_erase]
    · rw [if_neg hc, if_neg hc, Map.find_set]
  · exact ⟨_, x.uniformSet_writeUni d _, execRstat_reads hx m d (Nat.zero_le 2)⟩
  · rw [wrap_natCast]
    exact ⟨_, x.uniformSet_writeUni d _, execRstat_reads hx m d (Nat.le_succ 1)⟩
  · rw [wrap_natCast]
    exact ⟨_, x.uniformSet_writeUni d _, execRstat_reads hx m d le_rfl⟩

/-- Settles O39: each instruction answers a store to its log with a change of its team, and the store's bytes read back. -/
theorem recordMode : Obligations.RecordMode := ⟨recordModeOpens, recordModeWrites⟩

end Sys2Proof.Machine
end

section
/-!
PROOFS. The header exchange refuted (O37), and the two claims about retirement that a malformed group or slot table falsifies (O36,
O41).
-/

namespace Sys2Proof.Machine

/-! ### The header exchange of one collective (R448) -/

/-- With one collective that waits for its exchange, HEADER_EXCHANGE is about that one. -/
theorem execHeaderExchange_one {s : State} {core slot : Nat} {g : Group} {o : Op} {c : CollCmd} (peers : List MemberMessage) (e : InstanceEnd)
    (hg : s.groups.find (slotKey core slot) = some g) (hone : unexchanged ((g.cls 4).ops.takeWhile fun o => o.parked.isNone) = [(o, c)]) :
    execHeaderExchange core slot peers e s =
      .next (s.putGroup core slot (g.putOp 4 (c.exchange o peers (if c.losesMember s.unreachable then .unreachable else e)))) := by
  simp only [execHeaderExchange, hg, hone, List.length_singleton, Nat.mod_one, List.getElem?_cons_zero]

/-- Headers that do not agree end the collective with ERR 1, also where a member cannot be reached. -/
theorem CollCmd.exchange_mismatch {c : CollCmd} {peers : List MemberMessage} (o : Op) {e : InstanceEnd} (hm : c.mismatch peers = true)
    (he : e ≠ .aborted) : c.exchange o peers e = { o with phase := .done (c.err 1) } := by
  unfold CollCmd.exchange
  rw [if_neg he, if_pos hm]

theorem Group.cls_putOp (g : Group) (c : Nat) (o : Op) :
    (g.putOp c o).cls c = { g.cls c with ops := (g.cls c).ops.map fun p => if p.seq = o.seq then o else p } := by
  rw [Group.putOp, Group.cls, Map.get_set, if_pos rfl]

/-- A collective of two members, this module and the next one, whose function is `callr`. -/
def splitColl : CollCmd := { (default : CollCmd) with members := [Config.moduleIndex, Config.moduleIndex + 1], nrank := 2 }
/-- It waits for its header exchange. -/
def splitOp : Op := { (default : Op) with cmd := .coll splitColl }
/-- Its group. -/
def splitGroup : Group := { (default : Group) with classes := Map.empty.set 4 { (default : ClassState) with ops := [splitOp] } }
/-- The other member cannot be reached. -/
def splitState : State := { (default : State) with groups := Map.empty.set (slotKey 0 0) splitGroup, unreachable := [Config.moduleIndex + 1] }
/-- The other member's header, of a `crsct`. -/
def otherHeader : MemberMessage := { (default : MemberMessage) with fn := 1 }

theorem splitColl_mismatch : splitColl.mismatch [otherHeader] = true := by
  have hfn : splitColl.agrees otherHeader = false := decide_eq_false fun h => absurd h.1 (by decide)
  simp [CollCmd.mismatch, hfn]

theorem splitState_exchange : exec (.headerExchange 0 0 [otherHeader] .ok) splitState =
    .next (splitState.putGroup 0 0 (splitGroup.putOp 4 { splitOp with phase := .done (splitColl.err 1) })) := by
  rw [exec_headerExchange, execHeaderExchange_one (g := splitGroup) (o := splitOp) (c := splitColl) _ _ rfl rfl,
    CollCmd.exchange_mismatch _ splitColl_mismatch (by split <;> decide)]

/-- Refutes O37: the claim about the header exchange has ERR 4 wherever a member cannot be reached, but headers that have arrived and do
not agree end the collective with ERR 1 there too. -/
theorem not_collectiveExchange : ¬ Obligations.CollectiveExchange := by
  rintro ⟨hex, -⟩
  obtain ⟨-, -, hlost, -⟩ := hex splitState 0 0 splitGroup splitOp splitColl [otherHeader] rfl rfl ⟨[], [], rfl, by decide⟩
  have hunreached : ¬∀ p ∈ splitState.unreachable, p ∈ splitColl.members → p = Config.moduleIndex := fun h =>
    absurd (h (Config.moduleIndex + 1) (List.mem_singleton_self _) (List.mem_cons_of_mem _ (List.mem_singleton_self _))) (Nat.succ_ne_self _)
  obtain ⟨s', hs', g', hg', ⟨hops, -⟩, -⟩ := hlost hunreached
  rw [splitState_exchange] at hs'
  cases hs'
  rw [State.putGroup_groups, Map.find_set, if_pos rfl] at hg'
  cases hg'
  rw [Group.cls_putOp] at hops
  exact absurd (congrArg (fun k => k.ops.map (·.phase)) hops) (by decide)

/-! ### Retirement in groups and slot tables that no step makes (R21, R365) -/

/-- The sequencer's turn for work that accesses no store: it is done at once. -/
theorem State.turnSeq_noAccess {s : State} {core slot : Nat} {g : Group} {t : Team} {o : Op} {w : SeqWork} (hw : w.accesses = 0)
    (hnew : o.written = 0) (hphase : o.phase = .issued) (hcancel : o.cancel = false) (hready : s.seqReady core g.team o w = true) :
    s.turnSeq core slot g t o w = ((w.finish (w.start s) t o.got).1).putGroup core slot
      (g.putOp 3 { o with phase := .done (w.finish (w.start s) t o.got).2 }) := by
  unfold State.turnSeq
  rw [if_neg (by simp [hcancel]), if_pos hready, if_pos hphase]
  simp only [hw, hnew, Nat.sub_self, Nat.zero_add, Nat.mod_one, SeqWork.accessMany, Nat.le_refl, if_true]

theorem State.workOp_seqr {s : State} {core slot : Nat} {g : Group} {t : Team} {l : Launch} {o : Op} {w : SeqWork} (hphase : o.phase = .issued)
    (hcmd : o.cmd = .seqr w) : s.workOp core slot g t l o = s.turnSeq core slot g t o w := by
  simp only [State.workOp, hphase, hcmd]

/-- OPERATION_RETIRE where the oldest operation of the class is done after the engine's turn. -/
theorem execOperationRetire_done {s s₁ : State} {core slot c : Nat} {g g₁ : Group} {t : Team} {l : Launch} {o o₁ : Op}
    {rest : List Op} {word : W32}
    (hslot : slot < 64) (hfrozen : (s.debugOf core).frozen = false) (hg : s.groups.find (slotKey core slot) = some g)
    (ht : s.teams.find g.team = some t) (hl : s.launches.find t.launch = some l) (hops : (g.cls c).ops = o :: rest)
    (hwork : s.workOp core slot g t l ((s.worked c (o :: rest)).getD o) = s₁) (hg₁ : s₁.groups.find (slotKey core slot) = some g₁)
    (hhead : (g₁.cls c).ops.head? = some o₁) (hdone : o₁.phase = .done word) :
    execOperationRetire core slot c s = .next (s₁.retireGroup core slot c o₁ word) := by
  unfold execOperationRetire
  simp only [hfrozen, Bool.false_eq_true, if_false, hslot, if_true, hg, hops, ht, hl, hwork, hg₁, Option.map_some, hhead, Option.join_some, hdone]

/-- A class 3 operation that finds every slot bound. -/
def fullOp : Op := { (default : Op) with cmd := .seqr .sqfull }
/-- Its group. -/
def fullGroup : Group :=
  { (default : Group) with team := 1, frags := [default], classes := Map.empty.set 3 { (default : ClassState) with ops := [fullOp] } }
/-- A slot of number n. -/
def slotOf (n : Nat) : SeqSlot := { (default : SeqSlot) with num := n }
/-- Two slots, the first of them freed, stand under key 0. -/
def twiceState : State := { (default : State) with
  groups := Map.empty.set (slotKey 0 0) fullGroup
  teams := Map.empty.set 1 default
  launches := Map.empty.set 0 default
  seqSlots := ⟨[(0, slotOf 256), (0, slotOf 0)]⟩ }

theorem twiceState_retires : ∃ s', exec (.operationRetire 0 0 3) twiceState = .next s' ∧ s'.seqSlots.find 0 = some (slotOf 0) := by
  have hwork : twiceState.workOp 0 0 fullGroup default default fullOp =
      twiceState.putGroup 0 0 (fullGroup.putOp 3 { fullOp with phase := .done 0x44000000 }) :=
    (State.workOp_seqr (w := .sqfull) rfl rfl).trans (State.turnSeq_noAccess rfl rfl rfl rfl rfl)
  refine ⟨_, (exec_operationRetire ..).trans (execOperationRetire_done (by decide) rfl rfl rfl rfl rfl hwork rfl rfl rfl), ?_⟩
  rfl

/-- Refutes O41: the claim about the sequencer's turn keeps every bound slot, but where a freed slot and a bound one stand under one key,
the sweep of freed slots uncovers the bound one. No step makes such a table, but the statement is about every state. -/
theorem not_sequencerIssues : ¬ Obligations.SequencerIssues := by
  rintro ⟨-, -, -, -, hturn⟩
  obtain ⟨-, hgoes⟩ := hturn twiceState 0 0 fullGroup default default fullOp .sqfull (by decide) rfl rfl rfl rfl (by decide) rfl rfl rfl
    (.inl rfl) rfl (Nat.le_refl 0)
  obtain ⟨n, hn, s', hs', -, hdone⟩ := hgoes (.inl rfl)
  obtain rfl : n = 0 := Nat.le_zero.1 ((Nat.zero_add n).symm.trans_le hn)
  obtain ⟨-, hslots, -⟩ := hdone rfl
  obtain ⟨s₁, hs₁, hfound⟩ := twiceState_retires
  rw [hs'] at hs₁
  cases hs₁
  have hkept : twiceState.seqSlots.find 0 = some (slotOf 0) := (hslots 0 (slotOf 0) (by decide)).1 hfound
  exact absurd (congrArg (Option.map (·.num)) hkept) (by decide)

/-- A class 1 operation whose work is done. -/
def skippedOp : Op := { (default : Op) with cmd := .matrix .skipped none, phase := .done 0 }
/-- The work of a `sqbeg` on slot 0. -/
def beginOp : Op := { (default : Op) with seq := 1, cmd := .seqr (.sqbeg 0 0) }
/-- A group whose class 1 holds both. -/
def mixedGroup : Group :=
  { (default : Group) with
    team := 1, frags := [default], classes := Map.empty.set 1 { (default : ClassState) with ops := [skippedOp, beginOp] } }
/-- Its core has slot 0, with no step open. -/
def mixedState : State := { (default : State) with
  groups := Map.empty.set (slotKey 0 0) mixedGroup
  teams := Map.empty.set 1 default
  launches := Map.empty.set 0 default
  seqSlots := Map.empty.set 0 (slotOf 0) }

theorem mixedState_retires : ∃ s', exec (.operationRetire 0 0 1) mixedState = .next s' ∧
    (s'.seqSlots.find 0).map (·.mapOpen) = some true := by
  have hwork : mixedState.workOp 0 0 mixedGroup default default beginOp =
      ((SeqWork.sqbeg 0 0).start mixedState).putGroup 0 0 (mixedGroup.putOp 3 { beginOp with phase := .done 0 }) :=
    (State.workOp_seqr (w := .sqbeg 0 0) rfl rfl).trans (State.turnSeq_noAccess rfl rfl rfl rfl rfl)
  refine ⟨_, (exec_operationRetire ..).trans (execOperationRetire_done (by decide) rfl rfl rfl rfl rfl hwork rfl rfl rfl), ?_⟩
  rfl

/-- Refutes O36: the claim about retirement lets a class below 2 hold sequencer work after its oldest operation, whose turn then changes the
slot. No issue puts it there, but the statement is about every group. -/
theorem not_operationsEnd : ¬ Obligations.OperationsEnd := by
  rintro ⟨-, -, -, -, -, hretires⟩
  obtain ⟨s', g', hs', -, -, -, -, -, -, -, -, -, -, -, -, hrest⟩ := hretires mixedState 0 0 1 mixedGroup default default skippedOp [beginOp] 0
    (by decide) rfl rfl rfl rfl rfl rfl (by decide) (by decide) rfl (fun d h => by cases h) (fun n q b k f h => by cases h) (fun d h => by cases h)
    (fun w h => by cases h) (fun h => by omega)
  obtain ⟨s₁, hs₁, hopen⟩ := mixedState_retires
  rw [hs'] at hs₁
  cases hs₁
  have hslots : s'.seqSlots = mixedState.seqSlots := (congrArg State.seqSlots hrest :)
  rw [hslots] at hopen
  exact absurd hopen (by decide)

end Sys2Proof.Machine
end

section
/-!
PROOFS. The words of an instruction decode to it (R49 to R68, R469, R472; O57, O58): a word is the digits of its fields, and a decoder
that cuts out the fields finds them again.
-/

namespace Sys2Proof

/-! ### Codes of the closed sets -/

theorem IntCond.ofCode_code (c : IntCond) : IntCond.ofCode c.code = some c := by cases c <;> rfl
theorem IntCond.code_lt (c : IntCond) : c.code < 8 := by cases c <;> decide
theorem FloatCond.ofCode_code (c : FloatCond) : FloatCond.ofCode c.code = some c := by cases c <;> rfl
theorem FloatCond.code_lt (c : FloatCond) : c.code < 8 := by cases c <;> decide
theorem BranchCond.ofCode_code (c : BranchCond) : BranchCond.ofCode c.code = some c := by cases c <;> rfl
theorem BranchCond.code_lt (c : BranchCond) : c.code < 8 := by cases c <;> decide
theorem FloatType.ofCode_code (c : FloatType) : FloatType.ofCode c.code = some c := by cases c <;> rfl
theorem FloatType.code_lt (c : FloatType) : c.code < 8 := by cases c <;> decide
theorem Rounding.ofCode_code (c : Rounding) : Rounding.ofCode c.code = some c := by cases c <;> rfl
theorem Rounding.code_lt (c : Rounding) : c.code < 8 := by cases c <;> decide
theorem ReduceOp.ofCode_code (c : ReduceOp) : ReduceOp.ofCode c.code = some c := by cases c <;> rfl
theorem ReduceOp.code_lt (c : ReduceOp) : c.code < 8 := by cases c <;> decide
theorem ShiftKind.ofCode_code (c : ShiftKind) : ShiftKind.ofCode c.code = some c := by cases c <;> rfl
theorem ShiftKind.code_lt (c : ShiftKind) : c.code < 4 := by cases c <;> decide
theorem Order.ofCode_code (c : Order) : Order.ofCode c.code = some c := by cases c <;> rfl
theorem Order.code_lt (c : Order) : c.code < 4 := by cases c <;> decide
theorem Scope.ofCode_code (c : Scope) : Scope.ofCode c.code = some c := by cases c <;> rfl
theorem Scope.code_lt (c : Scope) : c.code < 8 := by cases c <;> decide
theorem Width.ofCode_code (c : Width) : Width.ofCode c.code = some c := by cases c <;> rfl
theorem Width.code_lt (c : Width) : c.code < 8 := by cases c <;> decide
theorem Space.ofCode_code (c : Space) : Space.ofCode c.code = some c := by cases c <;> rfl
theorem Space.code_lt (c : Space) : c.code < 4 := by cases c <;> decide
theorem NumType.ofCode_code (c : NumType) : NumType.ofCode c.code = some c := by cases c <;> rfl
theorem NumType.code_lt (c : NumType) : c.code < 9 := by cases c <;> decide
theorem Activation.ofCode_code (c : Activation) : Activation.ofCode c.code = some c := by cases c <;> rfl
theorem Activation.code_lt (c : Activation) : c.code < 128 := by cases c <;> decide
theorem cvtCode_code (a b : NumType) : cvtCode (a.code * 9 + b.code) = some (a, b) := by cases a <;> cases b <;> rfl

end Sys2Proof

namespace Sys2Proof.Machine

/-! ### Fields -/

/-- How many bits the fields take, each a width and a value. -/
@[simp] def fieldsWidth : List (Nat × Nat) → Nat
  | [] => 0
  | (k, _) :: fs => k + fieldsWidth fs

/-- The number whose bits are the fields, the highest first. -/
@[simp] def packed : List (Nat × Nat) → Nat
  | [] => 0
  | (_, v) :: fs => v * 2 ^ fieldsWidth fs + packed fs

/-- Every value fits its field. -/
@[simp] def FieldsFit : List (Nat × Nat) → Prop
  | [] => True
  | (k, v) :: fs => v < 2 ^ k ∧ FieldsFit fs

/-- Cutting the fields out of n gives their values. -/
def FieldsOf (n : Nat) : List (Nat × Nat) → Prop
  | [] => True
  | (k, v) :: fs => fld n (fieldsWidth fs) k = v ∧ FieldsOf n fs

theorem packed_lt {fs : List (Nat × Nat)} (h : FieldsFit fs) : packed fs < 2 ^ fieldsWidth fs := by
  induction fs with
  | nil => exact Nat.one_pos
  | cons f fs ih =>
    have hlo := ih h.2
    have hhi : (f.2 + 1) * 2 ^ fieldsWidth fs ≤ 2 ^ f.1 * 2 ^ fieldsWidth fs := Nat.mul_le_mul_right _ h.1
    simp only [packed, fieldsWidth, pow_add]
    rw [Nat.add_mul, Nat.one_mul] at hhi
    omega

/-- Whatever stands above the fields, they are found again. -/
theorem fieldsOf_packed {fs : List (Nat × Nat)} (h : FieldsFit fs) (H : Nat) : FieldsOf (H * 2 ^ fieldsWidth fs + packed fs) fs := by
  induction fs generalizing H with
  | nil => trivial
  | cons f fs ih =>
    have hsplit : H * 2 ^ fieldsWidth (f :: fs) + packed (f :: fs) = (H * 2 ^ f.1 + f.2) * 2 ^ fieldsWidth fs + packed fs := by
      simp only [packed, fieldsWidth, pow_add]
      ring
    rw [hsplit]
    refine ⟨?_, ih h.2 _⟩
    rw [fld, Nat.add_comm, Nat.add_mul_div_right _ _ (Nat.two_pow_pos _), Nat.div_eq_of_lt (packed_lt h.2), Nat.zero_add, Nat.add_comm,
      Nat.add_mul_mod_self_right, Nat.mod_eq_of_lt h.1]

/-! ### Words -/

theorem w32_toNat {n : Nat} (h : n < 2 ^ 32) : (w32 n).toNat = n := by rw [w32, BitVec.toNat_ofNat, Nat.mod_eq_of_lt h]

theorem toNat_beq_one (m : Bool) : (m.toNat == 1) = m := by cases m <;> rfl

/-- Decoding the words of i gives i back, and takes exactly them. -/
def Reads (i : Instr) : Prop := ∃ w ws, encode i = w :: ws ∧ ∀ rest, decodeAt w (ws ++ rest) = .ok i (ws.length + 1)

/-- What the decoder of a word n takes for its second word, where ws are the words after it. -/
def secondWord (n : Nat) (ws : List W32) : W32 := if ws.length = 1 ∧ fld n 24 6 ≠ 0x1B then ws.headD 0 else 0

/-- An instruction is read back from a word n and words ws after it, if n asks for as many words and decodes with them. -/
theorem reads_of {i : Instr} {n : Nat} {ws : List W32} (henc : encode i = w32 n :: ws) (hn : n < 2 ^ 32) (h0 : n ≠ 0)
    (hx : extraWords n = ws.length) (hdec : decodeWord (fld n 30 1 == 1) n (secondWord n ws).toNat ws = some i) : Reads i := by
  refine ⟨_, ws, henc, fun rest => ?_⟩
  have hw : w32 n ≠ 0 := fun h => h0 (by rw [← w32_toNat hn, h]; rfl)
  have hlen : ¬(ws ++ rest).length < ws.length := by rw [List.length_append]; omega
  have hsecond : (if ws.length = 1 ∧ fld n 24 6 ≠ 0x1B then (ws ++ rest).headD 0 else 0) = secondWord n ws := by
    cases ws with
    | nil => rfl
    | cons => rfl
  simp only [decodeAt, w32_toNat hn, hx, if_neg hw, if_neg hlen, List.take_left, hsecond, hdec]

/-- A word of the major u × 64 + M with marker m and the 24 bits that the fields give. -/
def instrWord (u M : Nat) (m : Bool) (fs : List (Nat × Nat)) : Nat := packed ((1, u) :: (1, m.toNat) :: (6, M) :: fs)

theorem instrWord_fields {u M : Nat} {m : Bool} {fs : List (Nat × Nat)} (hu : u < 2) (hM : M < 64) (hw : fieldsWidth fs = 24)
    (hfit : FieldsFit fs) :
    instrWord u M m fs < 2 ^ 32 ∧ fld (instrWord u M m fs) 31 1 = u ∧ fld (instrWord u M m fs) 30 1 = m.toNat ∧
      fld (instrWord u M m fs) 24 6 = M ∧ FieldsOf (instrWord u M m fs) fs := by
  have hall : FieldsFit ((1, u) :: (1, m.toNat) :: (6, M) :: fs) := ⟨hu, m.toNat_lt, hM, hfit⟩
  have hlt := packed_lt hall
  have hof := fieldsOf_packed hall 0
  rw [Nat.zero_mul, Nat.zero_add] at hof
  simp only [FieldsOf, fieldsWidth, hw] at hof hlt
  exact ⟨hlt, hof⟩

/-- The majors some of whose instructions have more words than one. -/
def longMajors : List Nat := [0x0E, 0x4E, 0x5B, 0x5C, 0x5E, 0x60, 0x62, 0x7A]

theorem extraWords_of_short {n M : Nat} (h : fld n 31 1 * 64 + fld n 24 6 = M) (hM : M ∉ longMajors) : extraWords n = 0 := by
  subst h
  simp only [longMajors, List.mem_cons, List.not_mem_nil, or_false, not_or] at hM
  obtain ⟨h1, h2, h3, h4, h5, h6, h7, h8⟩ := hM
  simp only [extraWords]

/-- Only the major and the function say whether words follow. -/
theorem extraWords_of_function {n K : Nat} (h : fld n 31 1 * 64 + fld n 24 6 = fld K 31 1 * 64 + fld K 24 6) (hf : fld n 21 3 = fld K 21 3)
    (hK : extraWords K = 0) : extraWords n = 0 := by
  unfold extraWords at hK ⊢
  rw [h, hf]
  split at hK <;> simp_all

theorem foldl_add_eq (c : Nat) (ls : List Nat) : ls.foldl (· + ·) c = c + ls.sum := by
  induction ls generalizing c with
  | nil => rfl
  | cons x ls ih => rw [List.foldl_cons, ih, List.sum_cons, Nat.add_assoc]

/-- The first word of an instruction, as the encoder adds it up (its marker, a constant with the major, and the summands ls), by its
fields. -/
theorem foldl_eq_instrWord {m : Bool} {K : Nat} {ls : List Nat} {fs : List (Nat × Nat)} (hK : fld K 30 1 = 0 ∧ K < 4294967296)
    (hsum : K % 16777216 + ls.sum = packed fs) (hw : fieldsWidth fs = 24) :
    ls.foldl (· + ·) (m.toNat * 1073741824 + K) = instrWord (fld K 31 1) (fld K 24 6) m fs := by
  rw [foldl_add_eq]
  simp only [instrWord, packed, fieldsWidth, hw, ← hsum]
  simp only [fld] at hK ⊢
  omega

/-- An instruction is read back from its first word and the words ws after it, by the major of that word and the fields of its 24 low
bits. -/
theorem reads_words {i : Instr} {m : Bool} {K : Nat} {ls : List Nat} {fs : List (Nat × Nat)} {ws : List W32}
    (henc : encode i = w32 (ls.foldl (· + ·) (m.toNat * 1073741824 + K)) :: ws) (hK : fld K 30 1 = 0 ∧ 0 < K ∧ K < 4294967296)
    (hw : fieldsWidth fs = 24) (hsum : K % 16777216 + ls.sum = packed fs ∧ FieldsFit fs)
    (hdec : ∀ n, fld n 31 1 * 64 + fld n 24 6 = K / 2147483648 % 2 * 64 + K / 16777216 % 64 → FieldsOf n fs →
      extraWords n = ws.length ∧ decodeWord m n (secondWord n ws).toNat ws = some i) :
    Reads i := by
  obtain ⟨hbit, hpos, hlt⟩ := hK
  have hu : fld K 31 1 < 2 := Nat.mod_lt _ (by decide)
  have hM : fld K 24 6 < 64 := Nat.mod_lt _ (by decide)
  have hsplit := foldl_eq_instrWord (m := m) ⟨hbit, hlt⟩ hsum.1 hw
  obtain ⟨hn, hu, hm, hM, hof⟩ := instrWord_fields (m := m) hu hM hw hsum.2
  rw [← hsplit] at hn hu hm hM hof
  obtain ⟨hx, hdec⟩ := hdec _ (by rw [hu, hM]; rfl) hof
  refine reads_of henc hn ?_ hx (by rw [hm, toNat_beq_one, hdec])
  rw [foldl_add_eq]
  omega

/-- An instruction of one word that the decoder dec of its major reads from the fields fs of its 24 low bits; ls are what the encoder adds
to the marker and a constant with the major. -/
theorem reads_fields {i : Instr} {m : Bool} {K : Nat} (dec : Bool → Nat → Option Instr) (ls : List Nat) (fs : List (Nat × Nat))
    (henc : encode i = [w32 (ls.foldl (· + ·) (m.toNat * 1073741824 + K))])
    (hK : (fld K 30 1 = 0 ∧ 0 < K ∧ K < 4294967296) ∧ fld K 31 1 * 64 + fld K 24 6 ∉ longMajors) (hw : fieldsWidth fs = 24)
    (hsum : K % 16777216 + ls.sum = packed fs ∧ FieldsFit fs)
    (hM : ∀ n, fld n 31 1 * 64 + fld n 24 6 = K / 2147483648 % 2 * 64 + K / 16777216 % 64 → decodeWord m n 0 [] = dec m n)
    (hdec : ∀ n, FieldsOf n fs → dec m n = some i) : Reads i :=
  reads_words henc hK.1 hw hsum fun n h hf => ⟨extraWords_of_short h hK.2, (hM n h).trans (hdec n hf)⟩

/-- The same where the function code stands above 21 bits of fields (R50). -/
theorem reads_function {i : Instr} {m : Bool} {K : Nat} (dec : Bool → Nat → Option Instr) (ls : List Nat) (fs : List (Nat × Nat))
    (henc : encode i = [w32 (ls.foldl (· + ·) (m.toNat * 1073741824 + K))])
    (hK : (fld K 30 1 = 0 ∧ 0 < K ∧ K < 4294967296) ∧ extraWords K = 0) (hw : fieldsWidth fs = 21)
    (hsum : K % 2097152 + ls.sum = packed fs ∧ FieldsFit fs)
    (hM : ∀ n, fld n 31 1 * 64 + fld n 24 6 = K / 2147483648 % 2 * 64 + K / 16777216 % 64 → decodeWord m n 0 [] = dec m n)
    (hdec : ∀ n, fld n 21 3 = K / 2097152 % 8 → FieldsOf n fs → dec m n = some i) : Reads i := by
  have hfn {n} (hof : FieldsOf n ((3, fld K 21 3) :: fs)) : fld n 21 3 = fld K 21 3 := hw ▸ hof.1
  refine reads_words henc hK.1 (fs := (3, fld K 21 3) :: fs) (by rw [fieldsWidth, hw]) ⟨?_, Nat.mod_lt _ (by decide), hsum.2⟩
    fun n h hof => ⟨extraWords_of_function h (hfn hof) hK.2, (hM n h).trans (hdec n (hfn hof) hof.2)⟩
  rw [packed, hw, ← hsum.1]
  simp only [fld]
  omega

/-- An instruction with three fields of seven bits under its major and function. -/
theorem reads_three {i : Instr} {m : Bool} {K d a b : Nat} (dec : Bool → Nat → Option Instr)
    (henc : encode i = [w32 (m.toNat * 1073741824 + K + d * 16384 + a * 128 + b)]) (hr : d < 128 ∧ a < 128 ∧ b < 128)
    (hK : ((fld K 30 1 = 0 ∧ 0 < K ∧ K < 4294967296) ∧ extraWords K = 0) ∧ K % 2097152 = 0)
    (hM : ∀ n, fld n 31 1 * 64 + fld n 24 6 = K / 2147483648 % 2 * 64 + K / 16777216 % 64 → decodeWord m n 0 [] = dec m n)
    (hdec : ∀ n, fld n 21 3 = K / 2097152 % 8 → fld n 14 7 = d → fld n 7 7 = a → fld n 0 7 = b → dec m n = some i) : Reads i := by
  refine reads_function dec [_, _, _] [(7, d), (7, a), (7, b)] henc hK.1 rfl ?_ hM fun n hfn hf => hdec n hfn hf.1 hf.2.1 hf.2.2.1
  simp only [hK.2, packed, fieldsWidth, FieldsFit, List.sum_cons, List.sum_nil, and_true]
  omega

/-- An instruction with two such fields, and zeros below. -/
theorem reads_two {i : Instr} {m : Bool} {K d a : Nat} (dec : Bool → Nat → Option Instr)
    (henc : encode i = [w32 (m.toNat * 1073741824 + K + d * 16384 + a * 128)]) (hr : d < 128 ∧ a < 128)
    (hK : ((fld K 30 1 = 0 ∧ 0 < K ∧ K < 4294967296) ∧ extraWords K = 0) ∧ K % 2097152 = 0)
    (hM : ∀ n, fld n 31 1 * 64 + fld n 24 6 = K / 2147483648 % 2 * 64 + K / 16777216 % 64 → decodeWord m n 0 [] = dec m n)
    (hdec : ∀ n, fld n 21 3 = K / 2097152 % 8 → fld n 14 7 = d → fld n 7 7 = a → fld n 0 7 = 0 → dec m n = some i) : Reads i :=
  reads_three dec (b := 0) (henc.trans (by rw [Nat.add_zero])) ⟨hr.1, hr.2, by decide⟩ hK hM hdec

/-- The part of the opcode table that an instruction's row stands in (R65, R67): 1 integer, bit and move instructions of the lane engine;
  2 floating-point, special-function and exchange instructions; 3 memory instructions of the lane engine; 4 scalar instructions of the
  uniform engine; 5 control, copy, sampling and wait instructions; 6 system, tensor, recording and collective instructions; 7 instructions
  with more words than one; 0 what a group does not fetch. -/
def tablePart : Instr → Nat
  | .add .. | .sub .. | .and .. | .or .. | .xor .. | .andn .. | .minS32 .. | .maxS32 .. | .minZ32 .. | .maxZ32 .. | .addsatS32 .. |
    .subsatS32 .. | .addsatZ32 .. | .subsatZ32 .. | .absd .. | .abs .. | .shl .. | .shr .. | .sar .. | .rol .. | .ror .. | .mul .. |
    .mulhS32 .. | .mulhZ32 .. | .mulhSz32 .. | .divS32 .. | .divZ32 .. | .remS32 .. | .remZ32 .. | .mad .. | .msb .. | .clz .. |
    .ctz .. | .popc .. | .brev .. | .bswap .. | .sxb .. | .sxh .. | .zxh .. | .bfxS32 .. | .bfxZ32 .. | .bfi .. | .addi .. | .andi .. |
    .ori .. | .xori .. | .shi .. | .muli .. | .lea .. | .icmp .. | .fcmp .. | .sel .. | .mov .. | .kbit .. | .tid .. | .sysv .. => 1
  | .fadd .. | .fsub .. | .fmul .. | .ffma .. | .fmin .. | .fmax .. | .fminnum .. | .fmaxnum .. | .fabs .. | .fneg .. | .fcpys .. |
    .fxsgn .. | .fcls .. | .cvt .. | .frnd .. | .rcp .. | .rsq .. | .sqrt .. | .exp2 .. | .log2 .. | .sin .. | .cos .. | .tanh .. |
    .sigm .. | .erf .. | .gelu .. | .silu .. | .idx .. | .upw .. | .dnw .. | .xorw .. | .rotw .. | .xred .. | .xscn .. | .ballot .. |
    .all .. | .any .. | .uni .. | .xbc .. => 2
  | .ld .. | .st .. | .ldc .. | .stc .. | .ldd .. | .std .. | .ldg .. | .stg .. | .atomAdd .. | .atomXch .. | .atomMinS32 .. |
    .atomMaxS32 .. | .atomMinZ32 .. | .atomMaxZ32 .. | .atomAnd .. | .atomOr .. | .atomXor .. | .atomAddB64 .. | .atomXchB64 .. |
    .atomMinS64 .. | .atomMaxS64 .. | .atomMinZ64 .. | .atomMaxZ64 .. | .atomCasB64 .. | .atomfFadd .. | .atomfFmin .. | .atomfFmax .. |
    .atomfAddBf16x2 .. | .atomoFadd .. | .atomoClose .. | .cas .. | .pop .. | .popnb .. | .push .. | .pushnb .. | .swp .. | .swr .. => 3
  | .nop .. | .yield .. | .pause .. | .uadd .. | .usub .. | .uand .. | .uor .. | .uxor .. | .uandn .. | .uminS32 .. | .umaxS32 .. |
    .uminZ32 .. | .umaxZ32 .. | .uaddsatS32 .. | .usubsatS32 .. | .uaddsatZ32 .. | .usubsatZ32 .. | .uabsd .. | .uabs .. | .ushl .. |
    .ushr .. | .usar .. | .urol .. | .uror .. | .umul .. | .umulhS32 .. | .umulhZ32 .. | .umulhSz32 .. | .udivS32 .. | .udivZ32 .. |
    .uremS32 .. | .uremZ32 .. | .uaddi .. | .ulea .. | .ucmp .. | .kand .. | .kor .. | .kxor .. | .kandn .. | .knot .. | .kfrom .. |
    .kto .. | .kpopc .. | .umov .. | .rdlow .. | .rdth .. => 4
  | .bra .. | .brc .. | .call .. | .ret .. | .join .. | .joinl .. | .exit .. | .exitg .. | .lbrk .. | .tspn .. | .cpyi .. | .cpyo .. |
    .cpyg .. | .cpys .. | .tmvl .. | .cpyx .. | .rcfg .. | .rawait .. | .rrel .. | .rnst .. | .kldj .. | .kbias .. | .kclamp .. |
    .kseed .. | .ksweep .. | .kread .. | .khealth .. | .kcal .. | .sqcfg .. | .sqbeg .. | .sqsig .. | .sqmap .. | .sqend .. | .sqrst .. |
    .fence .. | .cwait .. | .hwait .. | .htest .. | .hcancel .. | .hstat .. | .barT .. | .barTe .. | .barC .. | .barCx .. | .barP .. |
    .arriveP .. | .waitP .. | .mbatch .. | .mwait .. | .marg .. => 5
  | .sysrd .. | .syswr .. | .trap .. | .tret .. | .brk .. | .itld .. | .itst .. | .qcfg .. | .dreg .. | .dclr .. | .mmaAcc .. |
    .mmaSet .. | .mmaSub .. | .mmah .. | .mmag .. | .tmovi .. | .tmovo .. | .tzero .. | .azero .. | .adrn .. | .afil .. | .tdmap .. |
    .aact .. | .aadd .. | .aemul .. | .ascal .. | .abias .. | .arsum .. | .armax .. | .acpy .. | .recon .. | .recoff .. | .rmark .. |
    .trvs .. | .rlog .. | .rgrad .. | .rstat .. | .callr .. | .crsct .. | .cagth .. | .ca2a .. | .cbcst .. | .cstat .. => 6
  | .movl .. | .addl .. | .andl .. | .orl .. | .umovl .. | .uaddl .. | .uandl .. | .uorl .. | .jmpt .. | .callt .. | .bdiv .. |
    .disp .. | .loop .. | .spwn .. | .spwnf .. | .tcfg .. => 7
  | _ => 0

/-- The integer, bit and move instructions of the lane engine are read back from their words. -/
theorem reads_lane (i : Instr) (hp : tablePart i = 1) (hwf : i.wellFormed = true) : Reads i := by
  have hw := hwf
  cases i
  any_goals exact absurd hp (Nat.ne_of_beq_eq_false rfl)
  all_goals
    unfold Instr.wellFormed at hw
    simp only [vReg, n7, Bool.and_eq_true, decide_eq_true_eq] at hw
  case add | sub | and | or | xor | andn | minS32 | maxS32 =>
    exact reads_three decL01 rfl (by omega) (by decide) (fun n h => by rw [decodeWord, h]; rfl) fun n hfn hd ha hb => by
      simp [decL01, hfn, hd, ha, hb, ok, hwf]
  case minZ32 | maxZ32 | addsatS32 | subsatS32 | addsatZ32 | subsatZ32 | absd =>
    exact reads_three decL02 rfl (by omega) (by decide) (fun n h => by rw [decodeWord, h]; rfl) fun n hfn hd ha hb => by
      simp [decL02, hfn, hd, ha, hb, ok, hwf]
  case shl | shr | sar | rol | ror =>
    exact reads_three decL03 rfl (by omega) (by decide) (fun n h => by rw [decodeWord, h]; rfl) fun n hfn hd ha hb => by
      simp [decL03, hfn, hd, ha, hb, ok, hwf]
  case mul | mulhS32 | mulhZ32 | mulhSz32 | divS32 | divZ32 | remS32 | remZ32 =>
    exact reads_three decL04 rfl (by omega) (by decide) (fun n h => by rw [decodeWord, h]; rfl) fun n hfn hd ha hb => by
      simp [decL04, hfn, hd, ha, hb, ok, hwf]
  case mad | msb =>
    exact reads_three decL05 rfl (by omega) (by decide) (fun n h => by rw [decodeWord, h]; rfl) fun n hfn hd ha hb => by
      simp [decL05, hfn, hd, ha, hb, ok, hwf]
  case bfxS32 | bfxZ32 | bfi =>
    exact reads_three decL07 rfl (by omega) (by decide) (fun n h => by rw [decodeWord, h]; rfl) fun n hfn hd ha hb => by
      simp [decL07, hfn, hd, ha, hb, ok, hwf]
  case abs =>
    exact reads_two decL02 rfl (by omega) (by decide) (fun n h => by rw [decodeWord, h]; rfl) fun n hfn hd ha hb => by
      simp [decL02, hfn, hd, ha, hb, zf, ok, hwf]
  case clz | ctz | popc | brev | bswap | sxb | sxh | zxh =>
    exact reads_two decL06 rfl (by omega) (by decide) (fun n h => by rw [decodeWord, h]; rfl) fun n hfn hd ha hb => by
      simp [decL06, hfn, hd, ha, hb, zf, ok, hwf]
  case mov | sysv =>
    exact reads_two decL13 rfl (by omega) (by decide) (fun n h => by rw [decodeWord, h]; rfl) fun n hfn hd ha hb => by
      simp [decL13, hfn, hd, ha, hb, zf, ok, hwf]
  case addi =>
    rename_i m d a i
    exact reads_fields decL08 [_, _, _] [(7, d), (7, a), (10, i.toNat)] rfl (by decide) rfl (by simp; omega)
      (fun n h => by rw [decodeWord, h]; rfl) fun n hf => by
      simp only [FieldsOf, fieldsWidth, Nat.reduceAdd, and_true] at hf
      simp [decL08, hf, ok, hwf]
  case andi =>
    rename_i m d a i
    exact reads_fields decL09 [_, _, _] [(7, d), (7, a), (10, i.toNat)] rfl (by decide) rfl (by simp; omega)
      (fun n h => by rw [decodeWord, h]; rfl) fun n hf => by
      simp only [FieldsOf, fieldsWidth, Nat.reduceAdd, and_true] at hf
      simp [decL09, hf, ok, hwf]
  case ori =>
    rename_i m d a i
    exact reads_fields decL0A [_, _, _] [(7, d), (7, a), (10, i.toNat)] rfl (by decide) rfl (by simp; omega)
      (fun n h => by rw [decodeWord, h]; rfl) fun n hf => by
      simp only [FieldsOf, fieldsWidth, Nat.reduceAdd, and_true] at hf
      simp [decL0A, hf, ok, hwf]
  case xori =>
    rename_i m d a i
    exact reads_fields decL0B [_, _, _] [(7, d), (7, a), (10, i.toNat)] rfl (by decide) rfl (by simp; omega)
      (fun n h => by rw [decodeWord, h]; rfl) fun n hf => by
      simp only [FieldsOf, fieldsWidth, Nat.reduceAdd, and_true] at hf
      simp [decL0B, hf, ok, hwf]
  case muli =>
    rename_i m d a i
    exact reads_fields decL0D [_, _, _] [(7, d), (7, a), (10, i.toNat)] rfl (by decide) rfl (by simp; omega)
      (fun n h => by rw [decodeWord, h]; rfl) fun n hf => by
      simp only [FieldsOf, fieldsWidth, Nat.reduceAdd, and_true] at hf
      simp [decL0D, hf, ok, hwf]
  case shi =>
    rename_i m d a k n
    have := k.code_lt
    exact reads_fields decL0C [_, _, _, _] [(7, d), (7, a), (2, k.code), (3, 0), (5, n)] rfl (by decide) rfl (by simp; omega)
      (fun n h => by rw [decodeWord, h]; rfl) fun n hf => by
      simp only [FieldsOf, fieldsWidth, Nat.reduceAdd, and_true] at hf
      simp [decL0C, hf, ShiftKind.ofCode_code, zf, ok, hwf]
  case lea =>
    rename_i m h d a b
    exact reads_fields decL0F [_, _, _, _] [(3, h), (7, d), (7, a), (7, b)] rfl (by decide) rfl (by simp; omega)
      (fun n h => by rw [decodeWord, h]; rfl) fun n hf => by
      simp only [FieldsOf, fieldsWidth, Nat.reduceAdd, and_true] at hf
      simp [decL0F, hf, ok, hwf]
  case icmp =>
    rename_i m c k a b
    have := c.code_lt
    exact reads_fields decL10 [_, _, _, _] [(3, c.code), (4, 0), (3, k), (7, a), (7, b)] rfl (by decide) rfl (by simp; omega)
      (fun n h => by rw [decodeWord, h]; rfl) fun n hf => by
      simp only [FieldsOf, fieldsWidth, Nat.reduceAdd, and_true] at hf
      simp [decL10, hf, IntCond.ofCode_code, zf, ok, hwf]
  case fcmp =>
    rename_i m c k a b
    have := c.code_lt
    exact reads_fields decL11 [_, _, _, _] [(3, c.code), (4, 0), (3, k), (7, a), (7, b)] rfl (by decide) rfl (by simp; omega)
      (fun n h => by rw [decodeWord, h]; rfl) fun n hf => by
      simp only [FieldsOf, fieldsWidth, Nat.reduceAdd, and_true] at hf
      simp [decL11, hf, FloatCond.ofCode_code, zf, ok, hwf]
  case sel =>
    rename_i m k d a b
    exact reads_fields decL12 [_, _, _, _] [(3, k), (7, d), (7, a), (7, b)] rfl (by decide) rfl (by simp; omega)
      (fun n h => by rw [decodeWord, h]; rfl) fun n hf => by
      simp only [FieldsOf, fieldsWidth, Nat.reduceAdd, and_true] at hf
      simp [decL12, hf, ok, hwf]
  case kbit =>
    rename_i m d k
    exact reads_function decL13 [_, _] [(7, d), (4, 0), (3, k), (7, 0)] rfl (by decide) rfl (by simp; omega)
      (fun n h => by rw [decodeWord, h]; rfl) fun n hfn hf => by
      simp only [FieldsOf, fieldsWidth, Nat.reduceAdd, and_true] at hf
      simp [decL13, hfn, hf, zf, ok, hwf]
  case tid =>
    rename_i m d
    exact reads_function decL13 [_] [(7, d), (14, 0)] rfl (by decide) rfl (by simp; omega)
      (fun n h => by rw [decodeWord, h]; rfl) fun n hfn hf => by
      simp only [FieldsOf, fieldsWidth, Nat.reduceAdd, and_true] at hf
      simp [decL13, hfn, hf, zf, ok, hwf]

/-- The floating-point, special-function and exchange instructions are read back from their words. -/
theorem reads_float (i : Instr) (hp : tablePart i = 2) (hwf : i.wellFormed = true) : Reads i := by
  have hw := hwf
  cases i
  any_goals exact absurd hp (Nat.ne_of_beq_eq_false rfl)
  all_goals
    unfold Instr.wellFormed at hw
    simp only [vReg, n7, Bool.and_eq_true, decide_eq_true_eq] at hw
  case fmin | fmax | fminnum | fmaxnum =>
    exact reads_three decL18 rfl (by omega) (by decide) (fun n h => by rw [decodeWord, h]; rfl) fun n hfn hd ha hb => by
      simp [decL18, hfn, hd, ha, hb, ok, hwf]
  case fcpys | fxsgn =>
    exact reads_three decL19 rfl (by omega) (by decide) (fun n h => by rw [decodeWord, h]; rfl) fun n hfn hd ha hb => by
      simp [decL19, hfn, hd, ha, hb, ok, hwf]
  case idx | upw | dnw | xorw | rotw =>
    exact reads_three decL20 rfl (by omega) (by decide) (fun n h => by rw [decodeWord, h]; rfl) fun n hfn hd ha hb => by
      simp [decL20, hfn, hd, ha, hb, ok, hwf]
  case xbc =>
    exact reads_three decL24 rfl (by omega) (by decide) (fun n h => by rw [decodeWord, h]; rfl) fun n hfn hd ha hb => by
      simp [decL24, hfn, hd, ha, hb, ok, hwf]
  case fabs | fneg =>
    exact reads_two decL19 rfl (by omega) (by decide) (fun n h => by rw [decodeWord, h]; rfl) fun n hfn hd ha hb => by
      simp [decL19, hfn, hd, ha, hb, zf, ok, hwf]
  case fcls =>
    exact reads_two decL1A rfl (by omega) (by decide) (fun n h => by rw [decodeWord, h]; rfl) fun n hfn hd ha hb => by
      simp [decL1A, hfn, hd, ha, hb, zf, ok, hwf]
  case rcp | rsq | sqrt | exp2 | log2 | sin | cos | tanh =>
    exact reads_two decL1D rfl (by omega) (by decide) (fun n h => by rw [decodeWord, h]; rfl) fun n hfn hd ha hb => by
      simp [decL1D, hfn, hd, ha, hb, zf, ok, hwf]
  case sigm | erf | gelu | silu =>
    exact reads_two decL1E rfl (by omega) (by decide) (fun n h => by rw [decodeWord, h]; rfl) fun n hfn hd ha hb => by
      simp [decL1E, hfn, hd, ha, hb, zf, ok, hwf]
  case all | any | uni =>
    exact reads_two decL23 rfl (by omega) (by decide) (fun n h => by rw [decodeWord, h]; rfl) fun n hfn hd ha hb => by
      simp [decL23, hfn, hd, ha, hb, zf, ok, hwf]
  case fadd =>
    rename_i m f d a b
    have := f.code_lt
    exact reads_fields decL14 [_, _, _, _] [(3, f.code), (7, d), (7, a), (7, b)] rfl (by decide) rfl (by simp; omega)
      (fun n h => by rw [decodeWord, h]; rfl) fun n hf => by
      simp only [FieldsOf, fieldsWidth, Nat.reduceAdd, and_true] at hf
      simp [decL14, hf, FloatType.ofCode_code, ok, hwf]
  case fsub =>
    rename_i m f d a b
    have := f.code_lt
    exact reads_fields decL15 [_, _, _, _] [(3, f.code), (7, d), (7, a), (7, b)] rfl (by decide) rfl (by simp; omega)
      (fun n h => by rw [decodeWord, h]; rfl) fun n hf => by
      simp only [FieldsOf, fieldsWidth, Nat.reduceAdd, and_true] at hf
      simp [decL15, hf, FloatType.ofCode_code, ok, hwf]
  case fmul =>
    rename_i m f d a b
    have := f.code_lt
    exact reads_fields decL16 [_, _, _, _] [(3, f.code), (7, d), (7, a), (7, b)] rfl (by decide) rfl (by simp; omega)
      (fun n h => by rw [decodeWord, h]; rfl) fun n hf => by
      simp only [FieldsOf, fieldsWidth, Nat.reduceAdd, and_true] at hf
      simp [decL16, hf, FloatType.ofCode_code, ok, hwf]
  case ffma =>
    rename_i m f d a b
    have := f.code_lt
    exact reads_fields decL17 [_, _, _, _] [(3, f.code), (7, d), (7, a), (7, b)] rfl (by decide) rfl (by simp; omega)
      (fun n h => by rw [decodeWord, h]; rfl) fun n hf => by
      simp only [FieldsOf, fieldsWidth, Nat.reduceAdd, and_true] at hf
      simp [decL17, hf, FloatType.ofCode_code, ok, hwf]
  case cvt =>
    rename_i m r d a src dst
    have := src.code_lt
    have := dst.code_lt
    have := r.code_lt
    exact reads_fields decL1B [_, _, _, _, _] [(3, r.code), (7, d), (7, a), (7, src.code * 9 + dst.code)] rfl
      (by decide) rfl (by simp; omega) (fun n h => by rw [decodeWord, h]; rfl) fun n hf => by
      simp only [FieldsOf, fieldsWidth, Nat.reduceAdd, and_true] at hf
      simp [decL1B, hf, Rounding.ofCode_code, cvtCode_code, ok, hwf]
  case frnd =>
    rename_i m r d a
    have := r.code_lt
    exact reads_fields decL1C [_, _, _] [(3, r.code), (7, d), (7, a), (7, 0)] rfl (by decide) rfl (by simp; omega)
      (fun n h => by rw [decodeWord, h]; rfl) fun n hf => by
      simp only [FieldsOf, fieldsWidth, Nat.reduceAdd, and_true] at hf
      simp [decL1C, hf, Rounding.ofCode_code, zf, ok, hwf]
  case xred =>
    rename_i m o d a
    have := o.code_lt
    exact reads_fields decL21 [_, _, _] [(3, o.code), (7, d), (7, a), (7, 0)] rfl (by decide) rfl (by simp; omega)
      (fun n h => by rw [decodeWord, h]; rfl) fun n hf => by
      simp only [FieldsOf, fieldsWidth, Nat.reduceAdd, and_true] at hf
      simp [decL21, hf, ReduceOp.ofCode_code, zf, ok, hwf]
  case xscn =>
    rename_i m o d a
    have := o.code_lt
    exact reads_fields decL22 [_, _, _] [(3, o.code), (7, d), (7, a), (7, 0)] rfl (by decide) rfl (by simp; omega)
      (fun n h => by rw [decodeWord, h]; rfl) fun n hf => by
      simp only [FieldsOf, fieldsWidth, Nat.reduceAdd, and_true] at hf
      simp [decL22, hf, ReduceOp.ofCode_code, zf, ok, hwf]
  case ballot =>
    rename_i m k a
    exact reads_function decL23 [_, _] [(4, 0), (3, k), (7, a), (7, 0)] rfl (by decide) rfl (by simp; omega)
      (fun n h => by rw [decodeWord, h]; rfl) fun n hfn hf => by
      simp only [FieldsOf, fieldsWidth, Nat.reduceAdd, and_true] at hf
      simp [decL23, hfn, hf, zf, ok, hwf]

/-- The memory instructions of the lane engine are read back from their words. -/
theorem reads_memory (i : Instr) (hp : tablePart i = 3) (hwf : i.wellFormed = true) : Reads i := by
  have hw := hwf
  cases i
  any_goals exact absurd hp (Nat.ne_of_beq_eq_false rfl)
  all_goals
    unfold Instr.wellFormed at hw
    simp only [vReg, n7, Bool.and_eq_true, decide_eq_true_eq] at hw
  case ld =>
    rename_i m wid d a o c
    have := wid.code_lt
    have := o.code_lt
    have := c.code_lt
    exact reads_fields decL28 [_, _, _, _, _] [(3, wid.code), (7, d), (7, a), (2, o.code), (3, c.code), (2, 0)] rfl
      (by decide) rfl (by simp; omega) (fun n h => by rw [decodeWord, h]; rfl) fun n hf => by
      simp only [FieldsOf, fieldsWidth, Nat.reduceAdd, and_true] at hf
      simp [decL28, hf, Order.ofCode_code, Scope.ofCode_code, Width.ofCode_code, zf, ok, hwf]
  case st =>
    rename_i m wid d a o c
    have := wid.code_lt
    have := o.code_lt
    have := c.code_lt
    exact reads_fields decL29 [_, _, _, _, _] [(3, wid.code), (7, d), (7, a), (2, o.code), (3, c.code), (2, 0)] rfl
      (by decide) rfl (by simp; omega) (fun n h => by rw [decodeWord, h]; rfl) fun n hf => by
      simp only [FieldsOf, fieldsWidth, Nat.reduceAdd, and_true] at hf
      simp [decL29, hf, Order.ofCode_code, Scope.ofCode_code, Width.ofCode_code, zf, ok, hwf]
  case ldd =>
    rename_i m wid d a o c
    have := wid.code_lt
    have := o.code_lt
    have := c.code_lt
    exact reads_fields decL2C [_, _, _, _, _] [(3, wid.code), (7, d), (7, a), (2, o.code), (3, c.code), (2, 0)] rfl
      (by decide) rfl (by simp; omega) (fun n h => by rw [decodeWord, h]; rfl) fun n hf => by
      simp only [FieldsOf, fieldsWidth, Nat.reduceAdd, and_true] at hf
      simp [decL2C, hf, Order.ofCode_code, Scope.ofCode_code, Width.ofCode_code, zf, ok, hwf]
  case std =>
    rename_i m wid d a o c
    have := wid.code_lt
    have := o.code_lt
    have := c.code_lt
    exact reads_fields decL2D [_, _, _, _, _] [(3, wid.code), (7, d), (7, a), (2, o.code), (3, c.code), (2, 0)] rfl
      (by decide) rfl (by simp; omega) (fun n h => by rw [decodeWord, h]; rfl) fun n hf => by
      simp only [FieldsOf, fieldsWidth, Nat.reduceAdd, and_true] at hf
      simp [decL2D, hf, Order.ofCode_code, Scope.ofCode_code, Width.ofCode_code, zf, ok, hwf]
  case ldc =>
    rename_i m wid d a o c s
    have := wid.code_lt
    have := o.code_lt
    have := c.code_lt
    exact reads_fields decL2A [_, _, _, _, _, _] [(3, wid.code), (7, d), (7, a), (2, o.code), (3, c.code), (2, s)] rfl
      (by decide) rfl (by simp; omega) (fun n h => by rw [decodeWord, h]; rfl) fun n hf => by
      simp only [FieldsOf, fieldsWidth, Nat.reduceAdd, and_true] at hf
      simp [decL2A, hf, Order.ofCode_code, Scope.ofCode_code, Width.ofCode_code, ok, hwf]
  case stc =>
    rename_i m wid d a o c s
    have := wid.code_lt
    have := o.code_lt
    have := c.code_lt
    exact reads_fields decL2B [_, _, _, _, _, _] [(3, wid.code), (7, d), (7, a), (2, o.code), (3, c.code), (2, s)] rfl
      (by decide) rfl (by simp; omega) (fun n h => by rw [decodeWord, h]; rfl) fun n hf => by
      simp only [FieldsOf, fieldsWidth, Nat.reduceAdd, and_true] at hf
      simp [decL2B, hf, Order.ofCode_code, Scope.ofCode_code, Width.ofCode_code, ok, hwf]
  case ldg =>
    rename_i m wid d a o c s
    have := wid.code_lt
    have := o.code_lt
    have := c.code_lt
    exact reads_fields decL2E [_, _, _, _, _, _] [(3, wid.code), (7, d), (7, a), (2, o.code), (3, c.code), (2, s)] rfl
      (by decide) rfl (by simp; omega) (fun n h => by rw [decodeWord, h]; rfl) fun n hf => by
      simp only [FieldsOf, fieldsWidth, Nat.reduceAdd, and_true] at hf
      simp [decL2E, hf, Order.ofCode_code, Scope.ofCode_code, Width.ofCode_code, ok, hwf]
  case stg =>
    rename_i m wid d a o c s
    have := wid.code_lt
    have := o.code_lt
    have := c.code_lt
    exact reads_fields decL2F [_, _, _, _, _, _] [(3, wid.code), (7, d), (7, a), (2, o.code), (3, c.code), (2, s)] rfl
      (by decide) rfl (by simp; omega) (fun n h => by rw [decodeWord, h]; rfl) fun n hf => by
      simp only [FieldsOf, fieldsWidth, Nat.reduceAdd, and_true] at hf
      simp [decL2F, hf, Order.ofCode_code, Scope.ofCode_code, Width.ofCode_code, ok, hwf]
  case atomAdd | atomXch | atomMinS32 | atomMaxS32 | atomMinZ32 | atomMaxZ32 | atomAnd | atomOr =>
    rename_i m d a o c p
    have := o.code_lt
    have := c.code_lt
    have := p.code_lt
    exact reads_function decL30 [_, _, _, _, _] [(7, d), (7, a), (2, o.code), (3, c.code), (2, p.code)] rfl
      (by decide) rfl (by simp; omega) (fun n h => by rw [decodeWord, h]; rfl) fun n hfn hf => by
      simp only [FieldsOf, fieldsWidth, Nat.reduceAdd, and_true] at hf
      simp [decL30, hfn, hf, Order.ofCode_code, Scope.ofCode_code, Space.ofCode_code, ok, hwf]
  case atomXor | atomAddB64 | atomXchB64 | atomMinS64 | atomMaxS64 | atomMinZ64 | atomMaxZ64 | atomCasB64 =>
    rename_i m d a o c p
    have := o.code_lt
    have := c.code_lt
    have := p.code_lt
    exact reads_function decL31 [_, _, _, _, _] [(7, d), (7, a), (2, o.code), (3, c.code), (2, p.code)] rfl
      (by decide) rfl (by simp; omega) (fun n h => by rw [decodeWord, h]; rfl) fun n hfn hf => by
      simp only [FieldsOf, fieldsWidth, Nat.reduceAdd, and_true] at hf
      simp [decL31, hfn, hf, Order.ofCode_code, Scope.ofCode_code, Space.ofCode_code, ok, hwf]
  case atomfFadd | atomfFmin | atomfFmax | atomfAddBf16x2 =>
    rename_i m d a o c p
    have := o.code_lt
    have := c.code_lt
    have := p.code_lt
    exact reads_function decL32 [_, _, _, _, _] [(7, d), (7, a), (2, o.code), (3, c.code), (2, p.code)] rfl
      (by decide) rfl (by simp; omega) (fun n h => by rw [decodeWord, h]; rfl) fun n hfn hf => by
      simp only [FieldsOf, fieldsWidth, Nat.reduceAdd, and_true] at hf
      simp [decL32, hfn, hf, Order.ofCode_code, Scope.ofCode_code, Space.ofCode_code, ok, hwf]
  case atomoFadd =>
    rename_i m d a o c p
    have := o.code_lt
    have := c.code_lt
    have := p.code_lt
    exact reads_function decL33 [_, _, _, _, _] [(7, d), (7, a), (2, o.code), (3, c.code), (2, p.code)] rfl
      (by decide) rfl (by simp; omega) (fun n h => by rw [decodeWord, h]; rfl) fun n hfn hf => by
      simp only [FieldsOf, fieldsWidth, Nat.reduceAdd, and_true] at hf
      simp [decL33, hfn, hf, Order.ofCode_code, Scope.ofCode_code, Space.ofCode_code, ok, hwf]
  case cas =>
    rename_i m d a o c p
    have := o.code_lt
    have := c.code_lt
    have := p.code_lt
    exact reads_function decL34 [_, _, _, _, _] [(7, d), (7, a), (2, o.code), (3, c.code), (2, p.code)] rfl
      (by decide) rfl (by simp; omega) (fun n h => by rw [decodeWord, h]; rfl) fun n hfn hf => by
      simp only [FieldsOf, fieldsWidth, Nat.reduceAdd, and_true] at hf
      simp [decL34, hfn, hf, Order.ofCode_code, Scope.ofCode_code, Space.ofCode_code, ok, hwf]
  case atomoClose =>
    rename_i m a o c p
    have := o.code_lt
    have := c.code_lt
    have := p.code_lt
    exact reads_function decL33 [_, _, _, _] [(7, 0), (7, a), (2, o.code), (3, c.code), (2, p.code)] rfl
      (by decide) rfl (by simp; omega) (fun n h => by rw [decodeWord, h]; rfl) fun n hfn hf => by
      simp only [FieldsOf, fieldsWidth, Nat.reduceAdd, and_true] at hf
      simp [decL33, hfn, hf, Order.ofCode_code, Scope.ofCode_code, Space.ofCode_code, zf, ok, hwf]
  case pop | push | pushnb =>
    rename_i m d q
    exact reads_function decL36 [_, _] [(7, d), (11, 0), (3, q)] rfl (by decide) rfl (by simp; omega)
      (fun n h => by rw [decodeWord, h]; rfl) fun n hfn hf => by
      simp only [FieldsOf, fieldsWidth, Nat.reduceAdd, and_true] at hf
      simp [decL36, hfn, hf, zf, ok, hwf]
  case popnb =>
    rename_i m d k q
    exact reads_function decL36 [_, _, _] [(7, d), (4, 0), (3, k), (4, 0), (3, q)] rfl (by decide) rfl (by simp; omega)
      (fun n h => by rw [decodeWord, h]; rfl) fun n hfn hf => by
      simp only [FieldsOf, fieldsWidth, Nat.reduceAdd, and_true] at hf
      simp [decL36, hfn, hf, zf, ok, hwf]
  case swp =>
    rename_i m d i
    exact reads_function decL38 [_, _] [(7, d), (5, 0), (2, i), (7, 0)] rfl (by decide) rfl (by simp; omega)
      (fun n h => by rw [decodeWord, h]; rfl) fun n hfn hf => by
      simp only [FieldsOf, fieldsWidth, Nat.reduceAdd, and_true] at hf
      simp [decL38, hfn, hf, zf, ok, hwf]
  case swr =>
    rename_i m o d i b
    have := o.code_lt
    exact reads_fields decL39 [_, _, _, _] [(3, o.code), (7, d), (5, 0), (2, i), (7, b)] rfl (by decide) rfl (by simp; omega)
      (fun n h => by rw [decodeWord, h]; rfl) fun n hf => by
      simp only [FieldsOf, fieldsWidth, Nat.reduceAdd, and_true] at hf
      simp [decL39, hf, ReduceOp.ofCode_code, zf, ok, hwf]

/-- The scalar instructions of the uniform engine are read back from their words. -/
theorem reads_scalar (i : Instr) (hp : tablePart i = 4) (hwf : i.wellFormed = true) : Reads i := by
  have hw := hwf
  cases i
  any_goals exact absurd hp (Nat.ne_of_beq_eq_false rfl)
  all_goals
    unfold Instr.wellFormed at hw
    simp only [vReg, n7, gBlockOk, Bool.and_eq_true, decide_eq_true_eq] at hw
  case uadd | usub | uand | uor | uxor | uandn | uminS32 | umaxS32 =>
    exact reads_three decU01 rfl (by omega) (by decide) (fun n h => by rw [decodeWord, h]; rfl) fun n hfn hd ha hb => by
      simp [decU01, hfn, hd, ha, hb, ok, hwf]
  case uminZ32 | umaxZ32 | uaddsatS32 | usubsatS32 | uaddsatZ32 | usubsatZ32 | uabsd =>
    exact reads_three decU02 rfl (by omega) (by decide) (fun n h => by rw [decodeWord, h]; rfl) fun n hfn hd ha hb => by
      simp [decU02, hfn, hd, ha, hb, ok, hwf]
  case ushl | ushr | usar | urol | uror =>
    exact reads_three decU03 rfl (by omega) (by decide) (fun n h => by rw [decodeWord, h]; rfl) fun n hfn hd ha hb => by
      simp [decU03, hfn, hd, ha, hb, ok, hwf]
  case umul | umulhS32 | umulhZ32 | umulhSz32 | udivS32 | udivZ32 | uremS32 | uremZ32 =>
    exact reads_three decU04 rfl (by omega) (by decide) (fun n h => by rw [decodeWord, h]; rfl) fun n hfn hd ha hb => by
      simp [decU04, hfn, hd, ha, hb, ok, hwf]
  case rdth =>
    exact reads_three decU14 rfl (by omega) (by decide) (fun n h => by rw [decodeWord, h]; rfl) fun n hfn hd ha hb => by
      simp [decU14, hfn, hd, ha, hb, ok, hwf]
  case uabs =>
    exact reads_two decU02 rfl (by omega) (by decide) (fun n h => by rw [decodeWord, h]; rfl) fun n hfn hd ha hb => by
      simp [decU02, hfn, hd, ha, hb, zf, ok, hwf]
  case umov =>
    exact reads_two decU14 rfl (by omega) (by decide) (fun n h => by rw [decodeWord, h]; rfl) fun n hfn hd ha hb => by
      simp [decU14, hfn, hd, ha, hb, zf, ok, hwf]
  case uaddi =>
    rename_i m d a i
    exact reads_fields decU08 [_, _, _] [(7, d), (7, a), (10, i.toNat)] rfl (by decide) rfl (by simp; omega)
      (fun n h => by rw [decodeWord, h]; rfl) fun n hf => by
      simp only [FieldsOf, fieldsWidth, Nat.reduceAdd, and_true] at hf
      simp [decU08, hf, ok, hwf]
  case ulea =>
    rename_i m h d a b
    exact reads_fields decU0F [_, _, _, _] [(3, h), (7, d), (7, a), (7, b)] rfl (by decide) rfl (by simp; omega)
      (fun n h => by rw [decodeWord, h]; rfl) fun n hf => by
      simp only [FieldsOf, fieldsWidth, Nat.reduceAdd, and_true] at hf
      simp [decU0F, hf, ok, hwf]
  case nop | yield | pause =>
    exact reads_function decU00 [] [(21, 0)] rfl (by decide) rfl (by simp) (fun n h => by rw [decodeWord, h]; rfl) fun n hfn hf => by
      simp only [FieldsOf, fieldsWidth, and_true] at hf
      simp [decU00, hfn, hf, zf, ok, hwf]
  case ucmp =>
    rename_i m c d a b
    have := c.code_lt
    exact reads_fields decU10 [_, _, _, _] [(3, c.code), (7, d), (7, a), (7, b)] rfl (by decide) rfl (by simp; omega)
      (fun n h => by rw [decodeWord, h]; rfl) fun n hf => by
      simp only [FieldsOf, fieldsWidth, Nat.reduceAdd, and_true] at hf
      simp [decU10, hf, IntCond.ofCode_code, ok, hwf]
  case kand | kor | kxor | kandn =>
    rename_i m kd ka kb
    exact reads_function decU13 [_, _, _] [(4, 0), (3, kd), (4, 0), (3, ka), (4, 0), (3, kb)] rfl (by decide) rfl (by simp; omega)
      (fun n h => by rw [decodeWord, h]; rfl) fun n hfn hf => by
      simp only [FieldsOf, fieldsWidth, Nat.reduceAdd, and_true] at hf
      simp [decU13, hfn, hf, zf, ok, hwf]
  case knot =>
    rename_i m kd ka
    exact reads_function decU13 [_, _] [(4, 0), (3, kd), (4, 0), (3, ka), (7, 0)] rfl (by decide) rfl (by simp; omega)
      (fun n h => by rw [decodeWord, h]; rfl) fun n hfn hf => by
      simp only [FieldsOf, fieldsWidth, Nat.reduceAdd, and_true] at hf
      simp [decU13, hfn, hf, zf, ok, hwf]
  case kfrom =>
    rename_i m kd g
    exact reads_function decU13 [_, _] [(4, 0), (3, kd), (7, g), (7, 0)] rfl (by decide) rfl (by simp; omega)
      (fun n h => by rw [decodeWord, h]; rfl) fun n hfn hf => by
      simp only [FieldsOf, fieldsWidth, Nat.reduceAdd, and_true] at hf
      simp [decU13, hfn, hf, zf, ok, hwf]
  case kto =>
    rename_i m g ka
    exact reads_function decU13 [_, _] [(7, g), (4, 0), (3, ka), (7, 0)] rfl (by decide) rfl (by simp; omega)
      (fun n h => by rw [decodeWord, h]; rfl) fun n hfn hf => by
      simp only [FieldsOf, fieldsWidth, Nat.reduceAdd, and_true] at hf
      simp [decU13, hfn, hf, zf, ok, hwf]
  case kpopc =>
    rename_i m d ka
    exact reads_function decU13 [_, _] [(7, d), (4, 0), (3, ka), (7, 0)] rfl (by decide) rfl (by simp; omega)
      (fun n h => by rw [decodeWord, h]; rfl) fun n hfn hf => by
      simp only [FieldsOf, fieldsWidth, Nat.reduceAdd, and_true] at hf
      simp [decU13, hfn, hf, zf, ok, hwf]
  case rdlow =>
    rename_i m d ka
    exact reads_function decU14 [_, _] [(7, d), (4, 0), (3, ka), (7, 0)] rfl (by decide) rfl (by simp; omega)
      (fun n h => by rw [decodeWord, h]; rfl) fun n hfn hf => by
      simp only [FieldsOf, fieldsWidth, Nat.reduceAdd, and_true] at hf
      simp [decU14, hfn, hf, zf, ok, hwf]

/-- The control, copy, sampling and wait instructions are read back from their words. -/
theorem reads_control (i : Instr) (hp : tablePart i = 5) (hwf : i.wellFormed = true) : Reads i := by
  have hw := hwf
  cases i
  any_goals exact absurd hp (Nat.ne_of_beq_eq_false rfl)
  all_goals
    unfold Instr.wellFormed at hw
    simp only [n7, gReg, Bool.and_eq_true, decide_eq_true_eq] at hw
  case cpyg | cpys =>
    exact reads_three decU24 rfl (by omega) (by decide) (fun n h => by rw [decodeWord, h]; rfl) fun n hfn hd ha hb => by
      simp [decU24, hfn, hd, ha, hb, ok, hwf]
  case ksweep =>
    exact reads_three decU26 rfl (by omega) (by decide) (fun n h => by rw [decodeWord, h]; rfl) fun n hfn hd ha hb => by
      simp [decU26, hfn, hd, ha, hb, ok, hwf]
  case sqcfg | sqmap =>
    exact reads_three decU27 rfl (by omega) (by decide) (fun n h => by rw [decodeWord, h]; rfl) fun n hfn hd ha hb => by
      simp [decU27, hfn, hd, ha, hb, ok, hwf]
  case htest | hstat =>
    exact reads_two decU2A rfl (by omega) (by decide) (fun n h => by rw [decodeWord, h]; rfl) fun n hfn hd ha hb => by
      simp [decU2A, hfn, hd, ha, hb, zf, ok, hwf]
  case mwait =>
    exact reads_two decU2C rfl (by omega) (by decide) (fun n h => by rw [decodeWord, h]; rfl) fun n hfn hd ha hb => by
      simp [decU2C, hfn, hd, ha, hb, zf, ok, hwf]
  case tspn =>
    exact reads_two decU23 rfl (by omega) (by decide) (fun n h => by rw [decodeWord, h]; rfl) fun n hfn hd ha hb => by
      simp [decU23, hfn, hd, ha, hb, zf, ok, hwf]
  case cpyi | cpyo | tmvl | cpyx =>
    exact reads_two decU24 rfl (by omega) (by decide) (fun n h => by rw [decodeWord, h]; rfl) fun n hfn hd ha hb => by
      simp [decU24, hfn, hd, ha, hb, zf, ok, hwf]
  case kldj | kbias | kclamp | kseed | kread =>
    exact reads_two decU26 rfl (by omega) (by decide) (fun n h => by rw [decodeWord, h]; rfl) fun n hfn hd ha hb => by
      simp [decU26, hfn, hd, ha, hb, zf, ok, hwf]
  case mbatch =>
    rename_i m d
    exact reads_function decU2C [_] [(7, d), (14, 0)] rfl (by decide) rfl (by simp; omega)
      (fun n h => by rw [decodeWord, h]; rfl) fun n hfn hf => by
      simp only [FieldsOf, fieldsWidth, Nat.reduceAdd, and_true] at hf
      simp [decU2C, hfn, hf, zf, ok, hwf]
  case ret =>
    exact reads_function (decU1B · · []) [] [(21, 0)] rfl (by decide) rfl (by simp)
      (fun n h => by rw [decodeWord, h]; rfl) fun n hfn hf => by
      simp only [FieldsOf, fieldsWidth, and_true] at hf
      simp [decU1B, hfn, hf, zf, ok, hwf]
  case join | joinl =>
    exact reads_function decU1D [] [(21, 0)] rfl (by decide) rfl (by simp) (fun n h => by rw [decodeWord, h]; rfl) fun n hfn hf => by
      simp only [FieldsOf, fieldsWidth, and_true] at hf
      simp [decU1D, hfn, hf, zf, ok, hwf]
  case exit | exitg =>
    exact reads_function decU1F [] [(21, 0)] rfl (by decide) rfl (by simp) (fun n h => by rw [decodeWord, h]; rfl) fun n hfn hf => by
      simp only [FieldsOf, fieldsWidth, and_true] at hf
      simp [decU1F, hfn, hf, zf, ok, hwf]
  case bra =>
    rename_i m o
    exact reads_fields decU18 [_] [(24, o.toNat)] rfl (by decide) rfl (by simp; omega)
      (fun n h => by rw [decodeWord, h]; rfl) fun n hf => by
      simp only [FieldsOf, fieldsWidth, and_true] at hf
      simp [decU18, hf, ok, hwf]
  case call =>
    rename_i m o
    exact reads_fields decU1A [_] [(24, o.toNat)] rfl (by decide) rfl (by simp; omega)
      (fun n h => by rw [decodeWord, h]; rfl) fun n hf => by
      simp only [FieldsOf, fieldsWidth, and_true] at hf
      simp [decU1A, hf, ok, hwf]
  case brc =>
    rename_i m c r o
    have := c.code_lt
    exact reads_fields decU19 [_, _, _] [(3, c.code), (7, r), (14, o.toNat)] rfl (by decide) rfl (by simp; omega)
      (fun n h => by rw [decodeWord, h]; rfl) fun n hf => by
      simp only [FieldsOf, fieldsWidth, Nat.reduceAdd, and_true] at hf
      simp [decU19, hf, BranchCond.ofCode_code, ok, hwf]
  case lbrk =>
    rename_i m c r o
    have := c.code_lt
    exact reads_fields decU21 [_, _, _] [(3, c.code), (7, r), (14, o.toNat)] rfl (by decide) rfl (by simp; omega)
      (fun n h => by rw [decodeWord, h]; rfl) fun n hf => by
      simp only [FieldsOf, fieldsWidth, Nat.reduceAdd, and_true] at hf
      simp [decU21, hf, BranchCond.ofCode_code, ok, hwf]
  case rcfg =>
    rename_i m d a r
    exact reads_function decU25 [_, _, _] [(7, d), (7, a), (3, 0), (4, r)] rfl (by decide) rfl (by simp; omega)
      (fun n h => by rw [decodeWord, h]; rfl) fun n hfn hf => by
      simp only [FieldsOf, fieldsWidth, Nat.reduceAdd, and_true] at hf
      simp [decU25, hfn, hf, zf, ok, hwf]
  case rawait =>
    rename_i m d k r
    exact reads_function decU25 [_, _, _] [(7, d), (1, 0), (6, k), (3, 0), (4, r)] rfl (by decide) rfl (by simp; omega)
      (fun n h => by rw [decodeWord, h]; rfl) fun n hfn hf => by
      simp only [FieldsOf, fieldsWidth, Nat.reduceAdd, and_true] at hf
      simp [decU25, hfn, hf, zf, ok, hwf]
  case rrel =>
    rename_i m k r
    exact reads_function decU25 [_, _] [(8, 0), (6, k), (3, 0), (4, r)] rfl (by decide) rfl (by simp; omega)
      (fun n h => by rw [decodeWord, h]; rfl) fun n hfn hf => by
      simp only [FieldsOf, fieldsWidth, Nat.reduceAdd, and_true] at hf
      simp [decU25, hfn, hf, zf, ok, hwf]
  case rnst =>
    rename_i m d r
    exact reads_function decU25 [_, _] [(7, d), (10, 0), (4, r)] rfl (by decide) rfl (by simp; omega)
      (fun n h => by rw [decodeWord, h]; rfl) fun n hfn hf => by
      simp only [FieldsOf, fieldsWidth, Nat.reduceAdd, and_true] at hf
      simp [decU25, hfn, hf, zf, ok, hwf]
  case khealth =>
    rename_i m h b
    exact reads_function decU26 [_, _] [(7, h), (7, 96), (7, b)] rfl (by decide) rfl (by simp; omega)
      (fun n h => by rw [decodeWord, h]; rfl) fun n hfn hf => by
      simp only [FieldsOf, fieldsWidth, Nat.reduceAdd, and_true] at hf
      simp [decU26, hfn, hf, ok, hwf]
  case kcal =>
    rename_i m h
    exact reads_function decU26 [_] [(7, h), (7, 96), (7, 0)] rfl (by decide) rfl (by simp; omega)
      (fun n h => by rw [decodeWord, h]; rfl) fun n hfn hf => by
      simp only [FieldsOf, fieldsWidth, Nat.reduceAdd, and_true] at hf
      simp [decU26, hfn, hf, zf, ok, hwf]
  case sqbeg | sqrst =>
    rename_i m h b
    exact reads_function decU27 [_, _] [(7, h), (7, 0), (7, b)] rfl (by decide) rfl (by simp; omega)
      (fun n h => by rw [decodeWord, h]; rfl) fun n hfn hf => by
      simp only [FieldsOf, fieldsWidth, Nat.reduceAdd, and_true] at hf
      simp [decU27, hfn, hf, zf, ok, hwf]
  case sqsig =>
    rename_i m h t
    exact reads_function decU27 [_, _] [(7, h), (10, 0), (4, t)] rfl (by decide) rfl (by simp; omega)
      (fun n h => by rw [decodeWord, h]; rfl) fun n hfn hf => by
      simp only [FieldsOf, fieldsWidth, Nat.reduceAdd, and_true] at hf
      simp [decU27, hfn, hf, zf, ok, hwf]
  case sqend =>
    rename_i m h
    exact reads_function decU27 [_] [(7, h), (14, 0)] rfl (by decide) rfl (by simp; omega)
      (fun n h => by rw [decodeWord, h]; rfl) fun n hfn hf => by
      simp only [FieldsOf, fieldsWidth, Nat.reduceAdd, and_true] at hf
      simp [decU27, hfn, hf, zf, ok, hwf]
  case fence =>
    rename_i m o c ks
    have := o.code_lt
    have := c.code_lt
    exact reads_fields decU28 [_, _, _] [(1, 0), (2, o.code), (4, 0), (3, c.code), (7, ks), (7, 0)] rfl
      (by decide) rfl (by simp; omega) (fun n h => by rw [decodeWord, h]; rfl) fun n hf => by
      simp only [FieldsOf, fieldsWidth, Nat.reduceAdd, and_true] at hf
      simp [decU28, hf, Order.ofCode_code, Scope.ofCode_code, zf, ok, hwf]
  case cwait =>
    rename_i m c n
    exact reads_fields decU29 [_, _] [(3, c), (7, n), (14, 0)] rfl (by decide) rfl (by simp; omega)
      (fun n h => by rw [decodeWord, h]; rfl) fun n hf => by
      simp only [FieldsOf, fieldsWidth, Nat.reduceAdd, and_true] at hf
      simp [decU29, hf, zf, ok, hwf]
  case hwait | hcancel =>
    rename_i m a
    exact reads_function decU2A [_] [(7, 0), (7, a), (7, 0)] rfl (by decide) rfl (by simp; omega)
      (fun n h => by rw [decodeWord, h]; rfl) fun n hfn hf => by
      simp only [FieldsOf, fieldsWidth, Nat.reduceAdd, and_true] at hf
      simp [decU2A, hfn, hf, zf, ok, hwf]
  case waitP =>
    rename_i m a
    exact reads_function decU2B [_] [(7, 0), (7, a), (7, 0)] rfl (by decide) rfl (by simp; omega)
      (fun n h => by rw [decodeWord, h]; rfl) fun n hfn hf => by
      simp only [FieldsOf, fieldsWidth, Nat.reduceAdd, and_true] at hf
      simp [decU2B, hfn, hf, zf, ok, hwf]
  case barT =>
    rename_i m id
    exact reads_function decU2B [_] [(19, 0), (2, id)] rfl (by decide) rfl (by simp; omega)
      (fun n h => by rw [decodeWord, h]; rfl) fun n hfn hf => by
      simp only [FieldsOf, fieldsWidth, Nat.reduceAdd, and_true] at hf
      simp [decU2B, hfn, hf, zf, ok, hwf]
  case barTe =>
    rename_i m d id
    exact reads_function decU2B [_, _] [(7, d), (12, 0), (2, id)] rfl (by decide) rfl (by simp; omega)
      (fun n h => by rw [decodeWord, h]; rfl) fun n hfn hf => by
      simp only [FieldsOf, fieldsWidth, Nat.reduceAdd, and_true] at hf
      simp [decU2B, hfn, hf, zf, ok, hwf]
  case barC | barCx =>
    rename_i m id
    exact reads_function decU2B [_] [(20, 0), (1, id)] rfl (by decide) rfl (by simp; omega)
      (fun n h => by rw [decodeWord, h]; rfl) fun n hfn hf => by
      simp only [FieldsOf, fieldsWidth, Nat.reduceAdd, and_true] at hf
      simp [decU2B, hfn, hf, zf, ok, hwf]
  case barP =>
    rename_i m id
    exact reads_function decU2B [_] [(18, 0), (3, id)] rfl (by decide) rfl (by simp; omega)
      (fun n h => by rw [decodeWord, h]; rfl) fun n hfn hf => by
      simp only [FieldsOf, fieldsWidth, Nat.reduceAdd, and_true] at hf
      simp [decU2B, hfn, hf, zf, ok, hwf]
  case arriveP =>
    rename_i m d id
    exact reads_function decU2B [_, _] [(7, d), (11, 0), (3, id)] rfl (by decide) rfl (by simp; omega)
      (fun n h => by rw [decodeWord, h]; rfl) fun n hfn hf => by
      simp only [FieldsOf, fieldsWidth, Nat.reduceAdd, and_true] at hf
      simp [decU2B, hfn, hf, zf, ok, hwf]
  case marg =>
    rename_i m n
    exact reads_function decU2D [_] [(18, 0), (3, n)] rfl (by decide) rfl (by simp; omega)
      (fun n h => by rw [decodeWord, h]; rfl) fun n hfn hf => by
      simp only [FieldsOf, fieldsWidth, Nat.reduceAdd, and_true] at hf
      simp [decU2D, hfn, hf, zf, ok, hwf]

/-- The system, tensor, recording and collective instructions are read back from their words. -/
theorem reads_system (i : Instr) (hp : tablePart i = 6) (hwf : i.wellFormed = true) : Reads i := by
  have hw := hwf
  cases i
  any_goals exact absurd hp (Nat.ne_of_beq_eq_false rfl)
  all_goals
    unfold Instr.wellFormed at hw
    simp only [n7, gReg, Bool.and_eq_true, decide_eq_true_eq] at hw
  case trvs | rstat | rgrad =>
    exact reads_two decU3C rfl (by omega) (by decide) (fun n h => by rw [decodeWord, h]; rfl) fun n hfn hd ha hb => by
      simp [decU3C, hfn, hd, ha, hb, zf, ok, hwf]
  case callr | crsct | cagth | ca2a | cbcst =>
    exact reads_two decU3D rfl (by omega) (by decide) (fun n h => by rw [decodeWord, h]; rfl) fun n hfn hd ha hb => by
      simp [decU3D, hfn, hd, ha, hb, zf, ok, hwf]
  case rmark =>
    rename_i m d
    exact reads_function decU3C [_] [(7, d), (14, 0)] rfl (by decide) rfl (by simp; omega)
      (fun n h => by rw [decodeWord, h]; rfl) fun n hfn hf => by
      simp only [FieldsOf, fieldsWidth, Nat.reduceAdd, and_true] at hf
      simp [decU3C, hfn, hf, zf, ok, hwf]
  case tret =>
    exact reads_function decU33 [] [(21, 0)] rfl (by decide) rfl (by simp) (fun n h => by rw [decodeWord, h]; rfl) fun n hfn hf => by
      simp only [FieldsOf, fieldsWidth, and_true] at hf
      simp [decU33, hfn, hf, zf, ok, hwf]
  case recoff =>
    exact reads_function decU3C [] [(21, 0)] rfl (by decide) rfl (by simp) (fun n h => by rw [decodeWord, h]; rfl) fun n hfn hf => by
      simp only [FieldsOf, fieldsWidth, and_true] at hf
      simp [decU3C, hfn, hf, zf, ok, hwf]
  case rlog =>
    rename_i m a
    exact reads_function decU3C [_] [(7, 0), (7, a), (7, 0)] rfl (by decide) rfl (by simp; omega)
      (fun n h => by rw [decodeWord, h]; rfl) fun n hfn hf => by
      simp only [FieldsOf, fieldsWidth, Nat.reduceAdd, and_true] at hf
      simp [decU3C, hfn, hf, zf, ok, hwf]
  case sysrd =>
    rename_i m d n
    exact reads_fields decU30 [_, _] [(7, d), (5, 0), (12, n)] rfl (by decide) rfl (by simp; omega)
      (fun n h => by rw [decodeWord, h]; rfl) fun n hf => by
      simp only [FieldsOf, fieldsWidth, Nat.reduceAdd, and_true] at hf
      simp [decU30, hf, zf, ok, hwf]
  case syswr =>
    rename_i m d n
    exact reads_fields decU31 [_, _] [(7, d), (5, 0), (12, n)] rfl (by decide) rfl (by simp; omega)
      (fun n h => by rw [decodeWord, h]; rfl) fun n hf => by
      simp only [FieldsOf, fieldsWidth, Nat.reduceAdd, and_true] at hf
      simp [decU31, hf, zf, ok, hwf]
  case trap =>
    rename_i m c
    exact reads_function decU32 [_] [(14, 0), (7, c)] rfl (by decide) rfl (by simp; omega)
      (fun n h => by rw [decodeWord, h]; rfl) fun n hfn hf => by
      simp only [FieldsOf, fieldsWidth, Nat.reduceAdd, and_true] at hf
      simp [decU32, hfn, hf, zf, ok, hwf]
  case brk =>
    rename_i m c
    exact reads_function decU34 [_] [(14, 0), (7, c)] rfl (by decide) rfl (by simp; omega)
      (fun n h => by rw [decodeWord, h]; rfl) fun n hfn hf => by
      simp only [FieldsOf, fieldsWidth, Nat.reduceAdd, and_true] at hf
      simp [decU34, hfn, hf, zf, ok, hwf]
  case itld | itst =>
    rename_i m i a
    exact reads_function decU35 [_, _] [(5, 0), (2, i), (7, a), (7, 0)] rfl (by decide) rfl (by simp; omega)
      (fun n h => by rw [decodeWord, h]; rfl) fun n hfn hf => by
      simp only [FieldsOf, fieldsWidth, Nat.reduceAdd, and_true] at hf
      simp [decU35, hfn, hf, zf, ok, hwf]
  case qcfg =>
    rename_i m a q
    exact reads_function decU36 [_, _] [(7, 0), (7, a), (4, 0), (3, q)] rfl (by decide) rfl (by simp; omega)
      (fun n h => by rw [decodeWord, h]; rfl) fun n hfn hf => by
      simp only [FieldsOf, fieldsWidth, Nat.reduceAdd, and_true] at hf
      simp [decU36, hfn, hf, zf, ok, hwf]
  case dreg =>
    rename_i m p s a b
    exact reads_function decU37 [_, _, _, _] [(2, 0), (2, p), (3, s), (7, a), (7, b)] rfl (by decide) rfl (by simp; omega)
      (fun n h => by rw [decodeWord, h]; rfl) fun n hfn hf => by
      simp only [FieldsOf, fieldsWidth, Nat.reduceAdd, and_true] at hf
      simp [decU37, hfn, hf, zf, ok, hwf]
  case dclr =>
    rename_i m every s
    have := every.toNat_lt
    exact reads_function decU37 [_, _] [(3, 0), (1, every.toNat), (3, s), (14, 0)] rfl (by decide) rfl (by simp; omega)
      (fun n h => by rw [decodeWord, h]; rfl) fun n hfn hf => by
      simp only [FieldsOf, fieldsWidth, Nat.reduceAdd, and_true] at hf
      simp [decU37, hfn, hf, zf, ok, hwf]
  case mmaAcc | mmaSet | mmaSub =>
    rename_i m c a b q x y
    have := q.toNat_lt
    exact reads_function decU38 [_, _, _, _, _, _] [(5, c), (4, a), (4, b), (1, q.toNat), (2, x), (2, y), (3, 0)] rfl
      (by decide) rfl (by simp; omega) (fun n h => by rw [decodeWord, h]; rfl) fun n hfn hf => by
      simp only [FieldsOf, fieldsWidth, Nat.reduceAdd, and_true] at hf
      simp [decU38, hfn, hf, zf, ok, hwf]
  case mmah | mmag =>
    rename_i m a
    exact reads_function decU39 [_] [(7, 96), (7, a), (7, 0)] rfl (by decide) rfl (by simp; omega)
      (fun n h => by rw [decodeWord, h]; rfl) fun n hfn hf => by
      simp only [FieldsOf, fieldsWidth, Nat.reduceAdd, and_true] at hf
      simp [decU39, hfn, hf, zf, ok, hwf]
  case tmovi | tmovo =>
    rename_i m t a p
    have := p.toNat_lt
    exact reads_function (decU3A · · 0) [_, _, _] [(3, 0), (4, t), (7, a), (6, 0), (1, p.toNat)] rfl
      (by decide) rfl (by simp; omega) (fun n h => by rw [decodeWord, h]; rfl) fun n hfn hf => by
      simp only [FieldsOf, fieldsWidth, Nat.reduceAdd, and_true] at hf
      simp [decU3A, hfn, hf, zf, ok, hwf]
  case tzero =>
    rename_i m t
    exact reads_function (decU3A · · 0) [_] [(3, 0), (4, t), (14, 0)] rfl (by decide) rfl (by simp; omega)
      (fun n h => by rw [decodeWord, h]; rfl) fun n hfn hf => by
      simp only [FieldsOf, fieldsWidth, Nat.reduceAdd, and_true] at hf
      simp [decU3A, hfn, hf, zf, ok, hwf]
  case azero =>
    rename_i m n b
    exact reads_function (decU3A · · 0) [_, _] [(2, 0), (5, n), (7, 0), (7, b)] rfl (by decide) rfl (by simp; omega)
      (fun n h => by rw [decodeWord, h]; rfl) fun n hfn hf => by
      simp only [FieldsOf, fieldsWidth, Nat.reduceAdd, and_true] at hf
      simp [decU3A, hfn, hf, zf, ok, hwf]
  case adrn =>
    rename_i m q n a b
    have := q.toNat_lt
    exact reads_function (decU3A · · 0) [_, _, _, _] [(1, q.toNat), (1, 0), (5, n), (7, a), (7, b)] rfl
      (by decide) rfl (by simp; omega) (fun n h => by rw [decodeWord, h]; rfl) fun n hfn hf => by
      simp only [FieldsOf, fieldsWidth, Nat.reduceAdd, and_true] at hf
      simp [decU3A, hfn, hf, zf, ok, hwf]
  case afil =>
    rename_i m n a b
    exact reads_function (decU3A · · 0) [_, _, _] [(2, 0), (5, n), (7, a), (7, b)] rfl (by decide) rfl (by simp; omega)
      (fun n h => by rw [decodeWord, h]; rfl) fun n hfn hf => by
      simp only [FieldsOf, fieldsWidth, Nat.reduceAdd, and_true] at hf
      simp [decU3A, hfn, hf, zf, ok, hwf]
  case tdmap =>
    rename_i m t a
    exact reads_function (decU3A · · 0) [_, _] [(3, 0), (4, t), (7, a), (7, 0)] rfl (by decide) rfl (by simp; omega)
      (fun n h => by rw [decodeWord, h]; rfl) fun n hfn hf => by
      simp only [FieldsOf, fieldsWidth, Nat.reduceAdd, and_true] at hf
      simp [decU3A, hfn, hf, zf, ok, hwf]
  case aact =>
    rename_i m q d s f
    have := f.code_lt
    have := q.toNat_lt
    exact reads_function decU3B [_, _, _, _] [(1, q.toNat), (1, 0), (5, d), (2, 0), (5, s), (7, f.code)] rfl
      (by decide) rfl (by simp; omega) (fun n h => by rw [decodeWord, h]; rfl) fun n hfn hf => by
      simp only [FieldsOf, fieldsWidth, Nat.reduceAdd, and_true] at hf
      simp [decU3B, hfn, hf, Activation.ofCode_code, zf, ok, hwf]
  case aadd | aemul =>
    rename_i m q d s t
    have := q.toNat_lt
    exact reads_function decU3B [_, _, _, _] [(1, q.toNat), (1, 0), (5, d), (2, 0), (5, s), (2, 0), (5, t)] rfl
      (by decide) rfl (by simp; omega) (fun n h => by rw [decodeWord, h]; rfl) fun n hfn hf => by
      simp only [FieldsOf, fieldsWidth, Nat.reduceAdd, and_true] at hf
      simp [decU3B, hfn, hf, zf, ok, hwf]
  case ascal | abias =>
    rename_i m q d s g
    have := q.toNat_lt
    exact reads_function decU3B [_, _, _, _] [(1, q.toNat), (1, 0), (5, d), (2, 0), (5, s), (7, g)] rfl
      (by decide) rfl (by simp; omega) (fun n h => by rw [decodeWord, h]; rfl) fun n hfn hf => by
      simp only [FieldsOf, fieldsWidth, Nat.reduceAdd, and_true] at hf
      simp [decU3B, hfn, hf, zf, ok, hwf]
  case arsum | armax | acpy =>
    rename_i m q d s
    have := q.toNat_lt
    exact reads_function decU3B [_, _, _] [(1, q.toNat), (1, 0), (5, d), (2, 0), (5, s), (7, 0)] rfl
      (by decide) rfl (by simp; omega) (fun n h => by rw [decodeWord, h]; rfl) fun n hfn hf => by
      simp only [FieldsOf, fieldsWidth, Nat.reduceAdd, and_true] at hf
      simp [decU3B, hfn, hf, zf, ok, hwf]
  case recon =>
    rename_i m a cont p
    have := cont.toNat_lt
    have := p.toNat_lt
    exact reads_function decU3C [_, _, _] [(7, 0), (7, a), (5, 0), (1, cont.toNat), (1, p.toNat)] rfl
      (by decide) rfl (by simp; omega) (fun n h => by rw [decodeWord, h]; rfl) fun n hfn hf => by
      simp only [FieldsOf, fieldsWidth, Nat.reduceAdd, and_true] at hf
      simp [decU3C, hfn, hf, zf, ok, hwf]
  case cstat =>
    rename_i m d n
    exact reads_function decU3D [_, _] [(7, d), (7, 96), (7, n)] rfl (by decide) rfl (by simp; omega)
      (fun n h => by rw [decodeWord, h]; rfl) fun n hfn hf => by
      simp only [FieldsOf, fieldsWidth, Nat.reduceAdd, and_true] at hf
      simp [decU3D, hfn, hf, ok, hwf]

/-! ### Instructions with more words than one -/

theorem secondWord_one {n M : Nat} (lit : W32) (h : fld n 31 1 * 64 + fld n 24 6 = M) (hM : M % 64 ≠ 0x1B) : secondWord n [lit] = lit := by
  have hlt : fld n 24 6 < 64 := Nat.mod_lt _ (by decide)
  exact if_pos ⟨rfl, by omega⟩

/-- The fields of a word are found in it. -/
theorem fieldsOf_w32 {x : Nat} {fs : List (Nat × Nat)} (h : x = packed fs ∧ FieldsFit fs) (hw : fieldsWidth fs = 32) :
    FieldsOf (w32 x).toNat fs := by
  have hlt := packed_lt h.2
  have hof := fieldsOf_packed h.2 0
  rw [Nat.zero_mul, Nat.zero_add] at hof
  rw [h.1, w32_toNat (hw ▸ hlt)]
  exact hof

/-- An instruction of two words that is decoded by its major, the fields fs of its first word, and the second word beside it. -/
theorem reads_pair {i : Instr} {m : Bool} {K : Nat} {lit : W32} (ls : List Nat) (fs : List (Nat × Nat))
    (henc : encode i = [w32 (ls.foldl (· + ·) (m.toNat * 1073741824 + K)), lit])
    (hK : (fld K 30 1 = 0 ∧ 0 < K ∧ K < 4294967296) ∧ (K / 2147483648 % 2 * 64 + K / 16777216 % 64) % 64 ≠ 0x1B)
    (hw : fieldsWidth fs = 24) (hsum : K % 16777216 + ls.sum = packed fs ∧ FieldsFit fs)
    (hdec : ∀ n, fld n 31 1 * 64 + fld n 24 6 = K / 2147483648 % 2 * 64 + K / 16777216 % 64 → FieldsOf n fs →
      extraWords n = 1 ∧ decodeWord m n lit.toNat [lit] = some i) : Reads i :=
  reads_words henc hK.1 hw hsum fun n h hf => by
    rw [secondWord_one lit h hK.2]
    exact hdec n h hf

/-- An instruction with a literal: a register in seven bits and a function code in three, and zeros below (R52). -/
theorem reads_literal {i : Instr} {m : Bool} {K d : Nat} {lit : W32}
    (henc : encode i = [w32 (m.toNat * 1073741824 + K + d * 131072), lit]) (hd : d < 128)
    (hK : ((fld K 30 1 = 0 ∧ 0 < K ∧ K < 4294967296) ∧ (K / 2147483648 % 2 * 64 + K / 16777216 % 64) % 64 ≠ 0x1B) ∧
      K % 16777216 = K / 16384 % 8 * 16384)
    (hdec : ∀ n, fld n 31 1 * 64 + fld n 24 6 = K / 2147483648 % 2 * 64 + K / 16777216 % 64 → fld n 17 7 = d →
      fld n 14 3 = K / 16384 % 8 → fld n 0 14 = 0 → extraWords n = 1 ∧ decodeWord m n lit.toNat [lit] = some i) : Reads i := by
  refine reads_pair [_] [(7, d), (3, K / 16384 % 8), (14, 0)] henc hK.1 rfl ?_ fun n h hf => hdec n h hf.1 hf.2.1 hf.2.2.1
  simp only [hK.2, packed, fieldsWidth, FieldsFit, List.sum_cons, List.sum_nil, and_true]
  omega

/-- A jump through a table of one to 128 words (R60). -/
theorem reads_table {i : Instr} {m : Bool} {K a : Nat} {table : List W32}
    (henc : encode i = w32 (m.toNat * 1073741824 + K + a * 128 + (table.length - 1)) :: table)
    (hr : a < 128 ∧ 1 ≤ table.length ∧ table.length ≤ 128)
    (hK : (fld K 30 1 = 0 ∧ 0 < K ∧ K < 4294967296) ∧ K / 2147483648 % 2 * 64 + K / 16777216 % 64 = 0x5B ∧
      (K / 2097152 % 8 = 1 ∨ K / 2097152 % 8 = 2) ∧ K % 2097152 = 0)
    (hdec : ∀ n, fld n 21 3 = K / 2097152 % 8 → fld n 14 7 = 0 → fld n 7 7 = a → decU1B m n table = some i) : Reads i := by
  obtain ⟨hK, hmajor, hfn, hlow⟩ := hK
  refine reads_words (ls := [_, _]) (fs := [(3, K / 2097152 % 8), (7, 0), (7, a), (7, table.length - 1)]) henc hK rfl
    (by simp only [packed, fieldsWidth, FieldsFit, List.sum_cons, List.sum_nil, and_true]; omega) fun n h hf => ?_
  obtain ⟨hf, h0, ha, hlen, -⟩ := hf
  rw [hmajor] at h
  constructor
  · rw [extraWords, h]
    exact (if_pos (hf.symm ▸ hfn)).trans (by rw [show fld n 0 7 = _ from hlen]; omega)
  · rw [decodeWord, h]
    exact hdec n hf h0 ha

/-- The instructions with more words than one are read back from their words. -/
theorem reads_long (i : Instr) (hp : tablePart i = 7) (hwf : i.wellFormed = true) : Reads i := by
  have hw := hwf
  cases i
  any_goals exact absurd hp (Nat.ne_of_beq_eq_false rfl)
  all_goals
    unfold Instr.wellFormed at hw
    simp only [vReg, n7, Bool.and_eq_true, decide_eq_true_eq] at hw
  case movl | addl | andl | orl =>
    exact reads_literal rfl (by omega) (by decide) fun n h hd hfn h0 => ⟨by rw [extraWords, h]; rfl, by
      rw [decodeWord, h]
      simp [decL0E, hd, hfn, h0, zf, ok, hwf]⟩
  case umovl | uaddl | uandl | uorl =>
    exact reads_literal rfl (by omega) (by decide) fun n h hd hfn h0 => ⟨by rw [extraWords, h]; rfl, by
      rw [decodeWord, h]
      simp [decU0E, hd, hfn, h0, zf, ok, hwf]⟩
  case bdiv m k o reconv =>
    refine reads_pair [_, _] [(3, k), (21, o.toNat)] rfl (by decide) rfl (by simp; omega)
      fun n h hf => ⟨by rw [extraWords, h]; rfl, ?_⟩
    simp only [FieldsOf, fieldsWidth, Nat.reduceAdd, and_true] at hf
    rw [decodeWord, h]
    simp [decU1C, hf, ok, hwf]
  case disp m k o live =>
    refine reads_pair [_, _] [(3, k), (21, o.toNat)] rfl (by decide) rfl (by simp; omega)
      fun n h hf => ⟨by rw [extraWords, h]; rfl, ?_⟩
    simp only [FieldsOf, fieldsWidth, Nat.reduceAdd, and_true] at hf
    rw [decodeWord, h]
    simp [decU1E, hf, ok, hwf]
  case spwn m f n entry =>
    refine reads_pair [_, _] [(3, 0), (7, f), (4, n), (10, 0)] rfl (by decide) rfl (by simp; omega)
      fun n h hf => ⟨by rw [extraWords, h]; rfl, ?_⟩
    simp only [FieldsOf, fieldsWidth, Nat.reduceAdd, and_true] at hf
    rw [decodeWord, h]
    simp [decU22, hf, zf, ok, hwf]
  case spwnf m entry =>
    refine reads_pair [] [(3, 1), (21, 0)] rfl (by decide) rfl (by simp)
      fun n h hf => ⟨by rw [extraWords, h]; rfl, ?_⟩
    simp only [FieldsOf, fieldsWidth, Nat.reduceAdd, and_true] at hf
    rw [decodeWord, h]
    simp [decU22, hf, zf, ok, hwf]
  case loop m lv cnt len incd inca incb incta inctb incacc step =>
    refine reads_pair [_, _, _] [(3, lv), (7, cnt), (8, len), (6, 0)] rfl (by decide) rfl (by simp; omega)
      fun n h hf => ⟨by rw [extraWords, h]; rfl, ?_⟩
    have hx := fieldsOf_w32 (x := incd.toNat * 268435456 + inca.toNat * 16777216 + incb.toNat * 1048576 + incta.toNat * 65536 +
        inctb.toNat * 4096 + incacc.toNat * 128 + step)
      (fs := [(4, incd.toNat), (4, inca.toNat), (4, incb.toNat), (4, incta.toNat), (4, inctb.toNat), (5, incacc.toNat), (7, step)])
      (by simp only [packed, fieldsWidth, FieldsFit, and_true]; omega) rfl
    simp only [FieldsOf, fieldsWidth, Nat.reduceAdd, and_true] at hf hx
    rw [decodeWord, h]
    simp [decU20, hf, hx, zf, ok, hwf]
  case tcfg m t dup axis cols rows wd =>
    have := axis.toNat_lt
    refine reads_pair [_] [(3, 0), (4, t), (17, 0)] rfl (by decide) rfl (by simp; omega)
      fun n h hf => ⟨by rw [extraWords, h]; exact if_pos hf.1, ?_⟩
    have hx := fieldsOf_w32 (x := dup * 16777216 + axis.toNat * 8388608 + cols * 1048576 + rows * 4096 + wd * 512)
      (fs := [(2, 0), (6, dup), (1, axis.toNat), (3, cols), (8, rows), (3, wd), (9, 0)])
      (by simp only [packed, fieldsWidth, FieldsFit, and_true]; omega) rfl
    simp only [FieldsOf, fieldsWidth, Nat.reduceAdd, and_true] at hf hx
    rw [decodeWord, h]
    simp [decU3A, hf, hx, zf, ok, hwf]
  case jmpt | callt =>
    exact reads_table rfl (by omega) (by decide) fun n hfn h0 ha => by simp [decU1B, hfn, h0, ha, zf, ok, hwf]

/-! ### The words of a hod -/

end Sys2Proof.Machine

namespace Sys2Proof

theorem RvBranch.ofCode_code (c : RvBranch) : RvBranch.ofCode c.code = some c := by cases c <;> rfl
theorem RvBranch.code_lt (c : RvBranch) : c.code < 8 := by cases c <;> decide
theorem RvLoad.ofCode_code (c : RvLoad) : RvLoad.ofCode c.code = some c := by cases c <;> rfl
theorem RvLoad.code_lt (c : RvLoad) : c.code < 8 := by cases c <;> decide
theorem RvStore.ofCode_code (c : RvStore) : RvStore.ofCode c.code = some c := by cases c <;> rfl
theorem RvStore.code_lt (c : RvStore) : c.code < 8 := by cases c <;> decide
theorem RvAmo.ofCode_code (c : RvAmo) : RvAmo.ofCode c.code = some c := by cases c <;> rfl
theorem RvAmo.code_lt (c : RvAmo) : c.code < 32 := by cases c <;> decide
theorem RvOp.ofCode_code (c : RvOp) : RvOp.ofCode (c.code / 8 * 8 + c.code % 8) = some c := by cases c <;> rfl
theorem RvOp.code_lt (c : RvOp) : c.code < 1024 := by cases c <;> decide
theorem RvOp32.ofCode_code (c : RvOp32) : RvOp32.ofCode (c.code / 8 * 8 + c.code % 8) = some c := by cases c <;> rfl
theorem RvOp32.code_lt (c : RvOp32) : c.code < 1024 := by cases c <;> decide
theorem RvAmo.code_ne (c : RvAmo) : c.code ≠ 2 ∧ c.code ≠ 3 := by cases c <;> decide

end Sys2Proof

namespace Sys2Proof.Machine


/-- Decoding the word of a hod's instruction i gives i back. -/
def HodReads (i : Instr) : Prop := ∃ w, encode i = [w] ∧ decodeHod w = some (i, 4)

/-- An instruction of a hod is read back from its word, by the fields of it. -/
theorem hodReads_fields {i : Instr} {n : Nat} (fs : List (Nat × Nat)) (henc : encode i = [w32 n])
    (hsum : n = packed fs ∧ FieldsFit fs) (hw : fieldsWidth fs = 32)
    (hdec : ∀ n, FieldsOf n fs → fld n 0 2 = 3 ∧ decodeHod32 n = some i) : HodReads i := by
  obtain ⟨hlow, h32⟩ := hdec _ (fieldsOf_w32 hsum hw)
  exact ⟨_, henc, by rw [decodeHod, if_pos hlow, h32]; rfl⟩

theorem fld_low_two {n c : Nat} (h : fld n 0 7 = c) : fld n 0 2 = c % 4 := by
  simp only [fld] at h ⊢
  omega

theorem ne_of_fld {n c k : Nat} (h : fld n 0 7 = c) (hk : k % 128 ≠ c) : n ≠ k := by
  simp only [fld] at h
  omega

/-- A word with the opcode of a custom instruction is one (R472). -/
theorem decodeHod32_custom {n c : Nat} (h : fld n 0 7 = c) (hc : c = 0x0B ∨ c = 0x2B) : decodeHod32 n = decodeHodCustom n := by
  unfold decodeHod32
  rw [if_neg (ne_of_fld h (by omega)), if_neg (ne_of_fld h (by omega)), if_pos (by rw [h]; exact hc)]

/-- A word with another opcode than a custom instruction's or SYSTEM's is a base instruction's (R469). -/
theorem decodeHod32_base {n c : Nat} (h : fld n 0 7 = c) (hc : c ≠ 0x0B ∧ c ≠ 0x2B ∧ c ≠ 0x73) :
    decodeHod32 n = (decodeRv n).map (.hodInstruction false) := by
  unfold decodeHod32
  rw [if_neg (ne_of_fld h (by omega)), if_neg (ne_of_fld h (by omega)), if_neg (by rw [h]; omega)]

/-- A custom instruction: funct7, three registers, funct3 and opcode (R472). -/
theorem hodReads_custom {i : Instr} {n : Nat} (f7 rs2 rs1 f3 rd c : Nat) (hc : (c = 0x0B ∨ c = 0x2B) ∧ c % 4 = 3)
    (henc : encode i = [w32 n])
    (hsum : n = packed [(7, f7), (5, rs2), (5, rs1), (3, f3), (5, rd), (7, c)] ∧
      FieldsFit [(7, f7), (5, rs2), (5, rs1), (3, f3), (5, rd), (7, c)])
    (hdec : ∀ n, fld n 25 7 = f7 → fld n 20 5 = rs2 → fld n 15 5 = rs1 → fld n 12 3 = f3 → fld n 7 5 = rd → fld n 0 7 = c →
      decodeHodCustom n = some i) : HodReads i :=
  hodReads_fields _ henc hsum rfl fun n hf => by
    obtain ⟨h7, h2, h1, h3, hd, hop, -⟩ := hf
    exact ⟨(fld_low_two hop).trans hc.2, (decodeHod32_custom hop hc.1).trans (hdec n h7 h2 h1 h3 hd hop)⟩

theorem fieldsOf_append {n : Nat} {fs gs : List (Nat × Nat)} (h : FieldsOf n (fs ++ gs)) : FieldsOf n gs := by
  induction fs with
  | nil => exact h
  | cons f fs ih => exact ih h.2

/-- A base instruction, by the fields of its word, the opcode c last (R469). -/
theorem hodReads_base {i : HodInstr} (fs : List (Nat × Nat)) (c : Nat) (hc : (c ≠ 0x0B ∧ c ≠ 0x2B ∧ c ≠ 0x73) ∧ c % 4 = 3)
    (hw : fieldsWidth (fs ++ [(7, c)]) = 32) (hsum : encodeRv i = packed (fs ++ [(7, c)]) ∧ FieldsFit (fs ++ [(7, c)]))
    (hdec : ∀ n, fld n 0 7 = c → FieldsOf n (fs ++ [(7, c)]) → decodeRv n = some i) : HodReads (.hodInstruction false i) :=
  hodReads_fields _ rfl hsum hw fun n hf => by
    have hop : fld n 0 7 = c := (fieldsOf_append hf).1
    exact ⟨(fld_low_two hop).trans hc.2, by rw [decodeHod32_base hop hc.1, hdec n hop hf]; rfl⟩

/-- The bits of an immediate whose lowest bit is 0, from the fields of a branch. -/
theorem immB_bits {off : BitVec 13} (h : off.getLsbD 0 = false) :
    BitVec.ofNat 13 (fld off.toNat 12 1 * 4096 + fld off.toNat 11 1 * 2048 + fld off.toNat 5 6 * 32 + fld off.toNat 1 4 * 2) = off := by
  have hlow : off.toNat % 2 = 0 := by simpa [BitVec.getLsbD, Nat.testBit_zero] using h
  have hlt := off.isLt
  apply BitVec.eq_of_toNat_eq
  rw [BitVec.toNat_ofNat]
  simp only [fld]
  omega

/-- The same for a jump. -/
theorem immJ_bits {off : BitVec 21} (h : off.getLsbD 0 = false) :
    BitVec.ofNat 21 (fld off.toNat 20 1 * 1048576 + fld off.toNat 12 8 * 4096 + fld off.toNat 11 1 * 2048 + fld off.toNat 1 10 * 2) =
      off := by
  have hlow : off.toNat % 2 = 0 := by simpa [BitVec.getLsbD, Nat.testBit_zero] using h
  have hlt := off.isLt
  apply BitVec.eq_of_toNat_eq
  rw [BitVec.toNat_ofNat]
  simp only [fld]
  omega

/-- The bits of a store's immediate. -/
theorem immS_bits (imm : BitVec 12) : BitVec.ofNat 12 (fld imm.toNat 5 7 * 32 + fld imm.toNat 0 5) = imm := by
  have hlt := imm.isLt
  apply BitVec.eq_of_toNat_eq
  rw [BitVec.toNat_ofNat]
  simp only [fld]
  omega

theorem fld_lt (w lo n : Nat) : fld w lo n < 2 ^ n := Nat.mod_lt _ (Nat.two_pow_pos n)

/-- An instruction with an immediate of twelve bits above rs1, funct3, rd and the opcode. -/
theorem hodReads_immediate {i : HodInstr} (imm : BitVec 12) (rs1 f3 rd c : Nat)
    (hc : (c < 128 ∧ c ≠ 0x0B ∧ c ≠ 0x2B ∧ c ≠ 0x73) ∧ c % 4 = 3) (hr : (rd < 32 ∧ rs1 < 32) ∧ f3 < 8)
    (henc : encodeRv i = (0 + imm.toNat) * 1048576 + rs1 * 32768 + f3 * 4096 + rd * 128 + c)
    (hdec : ∀ n, fld n 0 7 = c → fld n 20 12 = imm.toNat → fld n 15 5 = rs1 → fld n 12 3 = f3 → fld n 7 5 = rd → decodeRv n = some i) :
    HodReads (.hodInstruction false i) := by
  refine hodReads_base [(12, imm.toNat), (5, rs1), (3, f3), (5, rd)] c ⟨hc.1.2, hc.2⟩ rfl ?_ fun n hop hf => ?_
  · simp only [henc, List.cons_append, List.nil_append, packed, fieldsWidth, FieldsFit, and_true]
    omega
  · obtain ⟨hi, h1, h3, hd, -⟩ := hf
    exact hdec n hop hi h1 h3 hd

/-- A shift by an amount of six bits with a function of six bits above it. -/
theorem hodReads_shift {i : HodInstr} (hi : Nat) (imm : BitVec 12) (rs1 f3 rd : Nat) (hh : hi < 64 ∧ f3 < 8)
    (hr : (rd < 32 ∧ rs1 < 32) ∧ imm.toNat < 64)
    (henc : encodeRv i = (hi * 64 + imm.toNat) * 1048576 + rs1 * 32768 + f3 * 4096 + rd * 128 + 0x13)
    (hdec : ∀ n, fld n 26 6 = hi → fld n 20 6 = imm.toNat → fld n 15 5 = rs1 → fld n 12 3 = f3 → fld n 7 5 = rd → decodeOpImm n = some i) :
    HodReads (.hodInstruction false i) := by
  refine hodReads_base [(6, hi), (6, imm.toNat), (5, rs1), (3, f3), (5, rd)] 0x13 (by decide) rfl ?_ fun n hop hf => ?_
  · simp only [henc, List.cons_append, List.nil_append, packed, fieldsWidth, FieldsFit, and_true]
    omega
  · obtain ⟨hh, hi, h1, h3, hd, -⟩ := hf
    rw [decodeRv, hop]
    exact hdec n hh hi h1 h3 hd

/-- A shift of a word by an amount of five bits with a function of seven bits above it. -/
theorem hodReads_shift32 {i : HodInstr} (hi : Nat) (imm : BitVec 12) (rs1 f3 rd : Nat) (hh : hi < 128 ∧ f3 < 8)
    (hr : (rd < 32 ∧ rs1 < 32) ∧ imm.toNat < 32)
    (henc : encodeRv i = (hi * 32 + imm.toNat) * 1048576 + rs1 * 32768 + f3 * 4096 + rd * 128 + 0x1B)
    (hdec : ∀ n, fld n 25 7 = hi → fld n 20 5 = imm.toNat → fld n 15 5 = rs1 → fld n 12 3 = f3 → fld n 7 5 = rd → decodeOpImm32 n = some i) :
    HodReads (.hodInstruction false i) := by
  refine hodReads_base [(7, hi), (5, imm.toNat), (5, rs1), (3, f3), (5, rd)] 0x1B (by decide) rfl ?_ fun n hop hf => ?_
  · simp only [henc, List.cons_append, List.nil_append, packed, fieldsWidth, FieldsFit, and_true]
    omega
  · obtain ⟨hh, hi, h1, h3, hd, -⟩ := hf
    rw [decodeRv, hop]
    exact hdec n hh hi h1 h3 hd

theorem hodReads_opImm (fn : RvOpImm) (rd rs1 : Nat) (imm : BitVec 12) (hwf : (HodInstr.opImm fn rd rs1 imm).wellFormed = true) :
    HodReads (.hodInstruction false (.opImm fn rd rs1 imm)) := by
  cases fn <;> simp only [HodInstr.wellFormed, Bool.and_eq_true, decide_eq_true_eq, and_true] at hwf
  case slli => exact hodReads_shift 0 imm rs1 1 rd (by decide) hwf rfl fun n hh hi h1 h3 hd => by simp [decodeOpImm, hh, hi, h1, h3, hd]
  case srli => exact hodReads_shift 0 imm rs1 5 rd (by decide) hwf rfl fun n hh hi h1 h3 hd => by simp [decodeOpImm, hh, hi, h1, h3, hd]
  case srai => exact hodReads_shift 16 imm rs1 5 rd (by decide) hwf rfl fun n hh hi h1 h3 hd => by simp [decodeOpImm, hh, hi, h1, h3, hd]
  case addi =>
    exact hodReads_immediate imm rs1 0 rd 0x13 (by decide) ⟨hwf, by decide⟩ rfl
      fun n hop hi h1 h3 hd => by simp [decodeRv, decodeOpImm, immI, hop, hi, h1, h3, hd]
  case slti =>
    exact hodReads_immediate imm rs1 2 rd 0x13 (by decide) ⟨hwf, by decide⟩ rfl
      fun n hop hi h1 h3 hd => by simp [decodeRv, decodeOpImm, immI, hop, hi, h1, h3, hd]
  case sltiu =>
    exact hodReads_immediate imm rs1 3 rd 0x13 (by decide) ⟨hwf, by decide⟩ rfl
      fun n hop hi h1 h3 hd => by simp [decodeRv, decodeOpImm, immI, hop, hi, h1, h3, hd]
  case xori =>
    exact hodReads_immediate imm rs1 4 rd 0x13 (by decide) ⟨hwf, by decide⟩ rfl
      fun n hop hi h1 h3 hd => by simp [decodeRv, decodeOpImm, immI, hop, hi, h1, h3, hd]
  case ori =>
    exact hodReads_immediate imm rs1 6 rd 0x13 (by decide) ⟨hwf, by decide⟩ rfl
      fun n hop hi h1 h3 hd => by simp [decodeRv, decodeOpImm, immI, hop, hi, h1, h3, hd]
  case andi =>
    exact hodReads_immediate imm rs1 7 rd 0x13 (by decide) ⟨hwf, by decide⟩ rfl
      fun n hop hi h1 h3 hd => by simp [decodeRv, decodeOpImm, immI, hop, hi, h1, h3, hd]

theorem hodReads_opImm32 (fn : RvOpImm32) (rd rs1 : Nat) (imm : BitVec 12) (hwf : (HodInstr.opImm32 fn rd rs1 imm).wellFormed = true) :
    HodReads (.hodInstruction false (.opImm32 fn rd rs1 imm)) := by
  cases fn <;> simp only [HodInstr.wellFormed, Bool.and_eq_true, decide_eq_true_eq, and_true] at hwf
  case addiw =>
    exact hodReads_immediate imm rs1 0 rd 0x1B (by decide) ⟨hwf, by decide⟩ rfl
      fun n hop hi h1 h3 hd => by simp [decodeRv, decodeOpImm32, immI, hop, hi, h1, h3, hd]
  case slliw => exact hodReads_shift32 0 imm rs1 1 rd (by decide) hwf rfl fun n hh hi h1 h3 hd => by simp [decodeOpImm32, hh, hi, h1, h3, hd]
  case srliw => exact hodReads_shift32 0 imm rs1 5 rd (by decide) hwf rfl fun n hh hi h1 h3 hd => by simp [decodeOpImm32, hh, hi, h1, h3, hd]
  case sraiw => exact hodReads_shift32 32 imm rs1 5 rd (by decide) hwf rfl fun n hh hi h1 h3 hd => by simp [decodeOpImm32, hh, hi, h1, h3, hd]

/-- Every well-formed base instruction of a hod is read back from its word. -/
theorem hodReads_hodInstruction (i : HodInstr) (hwf : i.wellFormed = true) : HodReads (.hodInstruction false i) := by
  cases i
  case opImm fn rd rs1 imm => exact hodReads_opImm fn rd rs1 imm hwf
  case opImm32 fn rd rs1 imm => exact hodReads_opImm32 fn rd rs1 imm hwf
  all_goals simp only [HodInstr.wellFormed, Bool.and_eq_true, decide_eq_true_eq, Bool.not_eq_true'] at hwf
  case lui rd imm =>
    refine hodReads_base [(20, imm.toNat), (5, rd)] 0x37
      (by decide) rfl (by unfold encodeRv; simp; omega) fun n hop hf => ?_
    simp only [List.cons_append, List.nil_append, FieldsOf, fieldsWidth, Nat.reduceAdd, and_true] at hf
    simp [decodeRv, hf]
  case auipc rd imm =>
    refine hodReads_base [(20, imm.toNat), (5, rd)] 0x17
      (by decide) rfl (by unfold encodeRv; simp; omega) fun n hop hf => ?_
    simp only [List.cons_append, List.nil_append, FieldsOf, fieldsWidth, Nat.reduceAdd, and_true] at hf
    simp [decodeRv, hf]
  case jal rd off =>
    have h1 := fld_lt off.toNat 20 1
    have h2 := fld_lt off.toNat 1 10
    have h3 := fld_lt off.toNat 11 1
    have h4 := fld_lt off.toNat 12 8
    refine hodReads_base [(1, fld off.toNat 20 1), (10, fld off.toNat 1 10), (1, fld off.toNat 11 1), (8, fld off.toNat 12 8), (5, rd)] 0x6F
      (by decide) rfl (by unfold encodeRv; simp; omega) fun n hop hf => ?_
    simp only [List.cons_append, List.nil_append, FieldsOf, fieldsWidth, Nat.reduceAdd, and_true] at hf
    simp only [decodeRv, hf, immJ, immJ_bits hwf.2]
  case jalr rd rs1 imm =>
    exact hodReads_immediate imm rs1 0 rd 0x67 (by decide) ⟨hwf, by decide⟩ (by unfold encodeRv; simp)
      fun n hop hi h1 h3 hd => by simp [decodeRv, immI, hop, hi, h1, h3, hd]
  case branch c rs1 rs2 off =>
    have := c.code_lt
    have h1 := fld_lt off.toNat 12 1
    have h2 := fld_lt off.toNat 5 6
    have h3 := fld_lt off.toNat 1 4
    have h4 := fld_lt off.toNat 11 1
    refine hodReads_base [(1, fld off.toNat 12 1), (6, fld off.toNat 5 6), (5, rs2), (5, rs1), (3, c.code), (4, fld off.toNat 1 4),
      (1, fld off.toNat 11 1)] 0x63
      (by decide) rfl (by unfold encodeRv; simp; omega) fun n hop hf => ?_
    simp only [List.cons_append, List.nil_append, FieldsOf, fieldsWidth, Nat.reduceAdd, and_true] at hf
    simp only [decodeRv, hf, RvBranch.ofCode_code, immB, immB_bits hwf.2, Option.map_some]
  case load k rd rs1 imm =>
    exact hodReads_immediate imm rs1 k.code rd 0x03 (by decide) ⟨hwf, k.code_lt⟩ (by unfold encodeRv; simp)
      fun n hop hi h1 h3 hd => by simp [decodeRv, immI, hop, hi, h1, h3, hd, RvLoad.ofCode_code]
  case store k rs1 rs2 imm =>
    have := k.code_lt
    have h1 := fld_lt imm.toNat 5 7
    have h2 := fld_lt imm.toNat 0 5
    refine hodReads_base [(7, fld imm.toNat 5 7), (5, rs2), (5, rs1), (3, k.code), (5, fld imm.toNat 0 5)] 0x23
      (by decide) rfl (by unfold encodeRv; simp; omega) fun n hop hf => ?_
    simp only [List.cons_append, List.nil_append, FieldsOf, fieldsWidth, Nat.reduceAdd, and_true] at hf
    simp only [decodeRv, hf, RvStore.ofCode_code, immS, immS_bits, Option.map_some]
  case op fn rd rs1 rs2 =>
    have := fn.code_lt
    refine hodReads_base [(7, fn.code / 8), (5, rs2), (5, rs1), (3, fn.code % 8), (5, rd)] 0x33
      (by decide) rfl (by unfold encodeRv; simp; omega) fun n hop hf => ?_
    simp only [List.cons_append, List.nil_append, FieldsOf, fieldsWidth, Nat.reduceAdd, and_true] at hf
    simp only [decodeRv, hf, RvOp.ofCode_code, Option.map_some]
  case op32 fn rd rs1 rs2 =>
    have := fn.code_lt
    refine hodReads_base [(7, fn.code / 8), (5, rs2), (5, rs1), (3, fn.code % 8), (5, rd)] 0x3B
      (by decide) rfl (by unfold encodeRv; simp; omega) fun n hop hf => ?_
    simp only [List.cons_append, List.nil_append, FieldsOf, fieldsWidth, Nat.reduceAdd, and_true] at hf
    simp only [decodeRv, hf, RvOp32.ofCode_code, Option.map_some]
  case fence fm pred succ rd rs1 =>
    refine hodReads_base [(4, fm), (4, pred), (4, succ), (5, rs1), (3, 0), (5, rd)] 0x0F
      (by decide) rfl (by unfold encodeRv; simp; omega) fun n hop hf => ?_
    simp only [List.cons_append, List.nil_append, FieldsOf, fieldsWidth, Nat.reduceAdd, and_true] at hf
    simp [decodeRv, hf]
  case lr dword aq rl rd rs1 =>
    have := dword.toNat_lt
    have := aq.toNat_lt
    have := rl.toNat_lt
    refine hodReads_base [(5, 2), (1, aq.toNat), (1, rl.toNat), (5, 0), (5, rs1), (3, 2 + dword.toNat), (5, rd)] 0x2F
      (by decide) rfl (by unfold encodeRv; simp; omega) fun n hop hf => ?_
    simp only [List.cons_append, List.nil_append, FieldsOf, fieldsWidth, Nat.reduceAdd, and_true] at hf
    cases dword <;> simp [decodeRv, decodeAmo, hf]
  case sc dword aq rl rd rs1 rs2 =>
    have := dword.toNat_lt
    have := aq.toNat_lt
    have := rl.toNat_lt
    refine hodReads_base [(5, 3), (1, aq.toNat), (1, rl.toNat), (5, rs2), (5, rs1), (3, 2 + dword.toNat), (5, rd)] 0x2F
      (by decide) rfl (by unfold encodeRv; simp; omega) fun n hop hf => ?_
    simp only [List.cons_append, List.nil_append, FieldsOf, fieldsWidth, Nat.reduceAdd, and_true] at hf
    cases dword <;> simp [decodeRv, decodeAmo, hf]
  case amo op dword aq rl rd rs1 rs2 =>
    have := dword.toNat_lt
    have := aq.toNat_lt
    have := rl.toNat_lt
    have := op.code_lt
    refine hodReads_base [(5, op.code), (1, aq.toNat), (1, rl.toNat), (5, rs2), (5, rs1), (3, 2 + dword.toNat), (5, rd)] 0x2F
      (by decide) rfl (by unfold encodeRv; simp; omega) fun n hop hf => ?_
    simp only [List.cons_append, List.nil_append, FieldsOf, fieldsWidth, Nat.reduceAdd, and_true] at hf
    cases dword <;> simp [decodeRv, decodeAmo, hf, op.code_ne, RvAmo.ofCode_code]

/-- Every well-formed custom instruction of a hod is read back from its word (R472). -/
theorem hodReads_of_fromHod (i : Instr) (hf : fromHod i = true) (hwf : i.wellFormed = true) (hne : encode i ≠ []) : HodReads i := by
  cases i
  any_goals exact absurd hf (Bool.eq_false_iff.1 rfl)
  case hodInstruction compressed i =>
    cases compressed
    · exact hodReads_hodInstruction i hwf
    · exact absurd rfl hne
  case ecall => exact ⟨_, rfl, rfl⟩
  case ebreak compressed =>
    cases compressed
    · exact ⟨_, rfl, rfl⟩
    · exact absurd rfl hne
  all_goals
    have hw := hwf
    unfold Instr.wellFormed at hw
    simp only [Bool.and_eq_true, decide_eq_true_eq] at hw
  case hcpyCpyi rd rs1 =>
    exact hodReads_custom 0 0 rs1 0 rd 0x0B (by decide) rfl (by simp; omega) fun n h7 h2 h1 h3 hd hop => by
      simp [decodeHodCustom, zf, ok, hwf, h7, h2, h1, h3, hd, hop]
  case hcpyCpyo rd rs1 =>
    exact hodReads_custom 1 0 rs1 0 rd 0x0B (by decide) rfl (by simp; omega) fun n h7 h2 h1 h3 hd hop => by
      simp [decodeHodCustom, zf, ok, hwf, h7, h2, h1, h3, hd, hop]
  case hcpyCpyg rd rs1 rs2 =>
    exact hodReads_custom 2 rs2 rs1 0 rd 0x0B (by decide) rfl (by simp; omega) fun n h7 h2 h1 h3 hd hop => by
      simp [decodeHodCustom, ok, hwf, h7, h2, h1, h3, hd, hop]
  case hcpyCpys rd rs1 rs2 =>
    exact hodReads_custom 3 rs2 rs1 0 rd 0x0B (by decide) rfl (by simp; omega) fun n h7 h2 h1 h3 hd hop => by
      simp [decodeHodCustom, ok, hwf, h7, h2, h1, h3, hd, hop]
  case hcpyTmvl rd rs1 =>
    exact hodReads_custom 4 0 rs1 0 rd 0x0B (by decide) rfl (by simp; omega) fun n h7 h2 h1 h3 hd hop => by
      simp [decodeHodCustom, zf, ok, hwf, h7, h2, h1, h3, hd, hop]
  case hcpyCpyx rd rs1 =>
    exact hodReads_custom 5 0 rs1 0 rd 0x0B (by decide) rfl (by simp; omega) fun n h7 h2 h1 h3 hd hop => by
      simp [decodeHodCustom, zf, ok, hwf, h7, h2, h1, h3, hd, hop]
  case hringAwait rd rs1 rs2 =>
    exact hodReads_custom 0 rs2 rs1 1 rd 0x0B (by decide) rfl (by simp; omega) fun n h7 h2 h1 h3 hd hop => by
      simp [decodeHodCustom, ok, hwf, h7, h2, h1, h3, hd, hop]
  case hringRel rd rs1 rs2 =>
    exact hodReads_custom 1 rs2 rs1 1 rd 0x0B (by decide) rfl (by simp; omega) fun n h7 h2 h1 h3 hd hop => by
      simp [decodeHodCustom, ok, hwf, h7, h2, h1, h3, hd, hop]
  case hringStat rd rs2 =>
    exact hodReads_custom 2 rs2 0 1 rd 0x0B (by decide) rfl (by simp; omega) fun n h7 h2 h1 h3 hd hop => by
      simp [decodeHodCustom, zf, ok, hwf, h7, h2, h1, h3, hd, hop]
  case hqPop rd rs2 =>
    exact hodReads_custom 0 rs2 0 0 rd 0x2B (by decide) rfl (by simp; omega) fun n h7 h2 h1 h3 hd hop => by
      simp [decodeHodCustom, zf, ok, hwf, h7, h2, h1, h3, hd, hop]
  case hqPopnb rd rs2 =>
    exact hodReads_custom 1 rs2 0 0 rd 0x2B (by decide) rfl (by simp; omega) fun n h7 h2 h1 h3 hd hop => by
      simp [decodeHodCustom, zf, ok, hwf, h7, h2, h1, h3, hd, hop]
  case hqPush rs1 rs2 =>
    exact hodReads_custom 2 rs2 rs1 0 0 0x2B (by decide) rfl (by simp; omega) fun n h7 h2 h1 h3 hd hop => by
      simp [decodeHodCustom, zf, ok, hwf, h7, h2, h1, h3, hd, hop]
  case hqPushnb rd rs1 rs2 =>
    exact hodReads_custom 3 rs2 rs1 0 rd 0x2B (by decide) rfl (by simp; omega) fun n h7 h2 h1 h3 hd hop => by
      simp [decodeHodCustom, ok, hwf, h7, h2, h1, h3, hd, hop]
  case hwtWait rd rs1 =>
    exact hodReads_custom 0 0 rs1 1 rd 0x2B (by decide) rfl (by simp; omega) fun n h7 h2 h1 h3 hd hop => by
      simp [decodeHodCustom, zf, ok, hwf, h7, h2, h1, h3, hd, hop]
  case hwtTest rd rs1 =>
    exact hodReads_custom 1 0 rs1 1 rd 0x2B (by decide) rfl (by simp; omega) fun n h7 h2 h1 h3 hd hop => by
      simp [decodeHodCustom, zf, ok, hwf, h7, h2, h1, h3, hd, hop]
  case hwtCnt rd =>
    refine hodReads_fields [(7, 2), (10, 0), (3, 1), (5, rd), (7, 0x2B)] rfl (by simp; omega) rfl fun n hf => ?_
    obtain ⟨h7, h0, h3, hd, hop, -⟩ := hf
    simp only [fieldsWidth, Nat.reduceAdd] at h7 h0 h3 hd hop
    exact ⟨fld_low_two hop, by rw [decodeHod32_custom hop (.inr rfl)]; simp [decodeHodCustom, zf, ok, hwf, h7, h0, h3, hd, hop]⟩
  case hwtCancel rd rs1 =>
    exact hodReads_custom 3 0 rs1 1 rd 0x2B (by decide) rfl (by simp; omega) fun n h7 h2 h1 h3 hd hop => by
      simp [decodeHodCustom, zf, ok, hwf, h7, h2, h1, h3, hd, hop]

/-! ### Every instruction -/

theorem tablePart_le (i : Instr) : tablePart i ≤ 7 := by
  cases i <;> exact Nat.le_of_ble_eq_true rfl

theorem encode_or_fromHod_of_tablePart {i : Instr} (hp : tablePart i = 0) : encode i = [] ∨ fromHod i = true := by
  cases i
  any_goals exact absurd hp (Nat.ne_of_beq_eq_false rfl)
  any_goals exact .inl rfl
  all_goals exact .inr rfl

/-- Every well-formed instruction that a group fetches is read back from its words. -/
theorem reads_of_not_fromHod {i : Instr} (hf : fromHod i = false) (hwf : i.wellFormed = true) (hne : encode i ≠ []) : Reads i := by
  have hle := tablePart_le i
  have hpart : tablePart i = 0 ∨ tablePart i = 1 ∨ tablePart i = 2 ∨ tablePart i = 3 ∨ tablePart i = 4 ∨ tablePart i = 5 ∨
      tablePart i = 6 ∨ tablePart i = 7 := by omega
  obtain hp | hp | hp | hp | hp | hp | hp | hp := hpart
  · obtain henc | hhod := encode_or_fromHod_of_tablePart hp
    · exact absurd henc hne
    · exact absurd hhod (Bool.eq_false_iff.1 hf)
  · exact reads_lane i hp hwf
  · exact reads_float i hp hwf
  · exact reads_memory i hp hwf
  · exact reads_scalar i hp hwf
  · exact reads_control i hp hwf
  · exact reads_system i hp hwf
  · exact reads_long i hp hwf

/-- Settles O58: the digits of a word are its fields, so each decoder finds what the encoder put there. -/
theorem decodeEncode : Obligations.DecodeEncode := by
  unfold Obligations.DecodeEncode
  intro i hwf hne
  exact ⟨fun hf => reads_of_not_fromHod hf hwf hne, fun hf => hodReads_of_fromHod i hf hwf hne⟩

/-- Settles O57: the decoders evaluate on the seventeen words. -/
theorem decodeWords : Obligations.DecodeWords := by
  unfold Obligations.DecodeWords
  decide

end Sys2Proof.Machine
end

section
/-!
PROOFS. The integer, bit, sign and move instructions of the lane engine (R137 to R142, R148; O1).
-/
namespace Sys2Proof.Machine

/-- A lane instruction that is one map over the active threads does what its row says if the map gives the row's value in every thread. -/
theorem laneRow_completes {s : State} {x : Ctx} {i : Instr} {r : LaneRow} (h : s.ctx = some x) (hr : x.f.k0 = 0 ∨ x.ready r.srcs)
    (f : Ctx → Nat → W32) (hexec : exec i s = laneMap r.m r.n r.d r.srcs f s) (hf : ∀ t, t < 64 → f x t = r.value x t) :
    ∃ g', x.g.lanesSet g' r.d x.f.k0 (r.value x) ∧ exec i s = .next (x.completes s g' r.m r.n) := by
  rw [hexec]
  exact laneMap_completes h r.m r.n r.d r.srcs f r.value hr hf

theorem imm10_eq (i : BitVec 10) : imm10 i = immWord i := rfl

theorem withSign_eq (sgn a : W32) : withSign sgn a = wordOf fun i => (if i = 31 then sgn else a).getLsbD i := by
  apply eq_wordOf
  intro i hi
  interval_cases i <;> simp [withSign]

theorem withSign_zero (a : W32) : withSign 0 a = wordOf fun i => decide (i ≠ 31) && a.getLsbD i := by
  rw [withSign_eq]
  congr 1
  funext i
  by_cases h : i = 31 <;> simp [h]

theorem withSign_not (a : W32) : withSign (~~~a) a = wordOf fun i => a.getLsbD i != decide (i = 31) := by
  rw [withSign_eq]
  congr 1
  funext i
  by_cases h : i = 31 <;> simp [h]

theorem withSign_xor (a b : W32) : withSign (a ^^^ b) a = wordOf fun i => a.getLsbD i != (decide (i = 31) && b.getLsbD i) := by
  rw [withSign_eq]
  congr 1
  funext i
  by_cases h : i = 31 <;> simp [h]

/-- An f32 pattern by its sign, exponent and fraction (R143). -/
theorem decodeNum_f32 (w : Nat) : decodeNum f32 false w =
    if w / 2 ^ 23 % 2 ^ 8 = 255 then
      if w % 2 ^ 23 = 0 then .inf (w / 2 ^ 31 % 2 == 1) else .nan (decide (w % 2 ^ 23 < 2 ^ 22))
    else if w / 2 ^ 23 % 2 ^ 8 = 0 then .fin (w / 2 ^ 31 % 2 == 1) (w % 2 ^ 23) (-149)
    else .fin (w / 2 ^ 31 % 2 == 1) (w % 2 ^ 23 + 2 ^ 23) (-149 + ((w / 2 ^ 23 % 2 ^ 8 : Nat) - 1 : Int)) := by
  have hinf : f32.hasInf = true := rfl
  unfold decodeNum
  by_cases he : w / 2 ^ 23 % 2 ^ 8 = 255
  · rw [if_pos he]
    exact if_pos ⟨he, hinf⟩
  · rw [if_neg he]
    refine (if_neg fun h => he h.1).trans ((if_neg fun h => h.1 hinf).trans ?_)
    rfl

theorem fpClass_eq (a : W32) : fpClass a.toNat = wrap (2 ^ classOf a.toNat : Nat) := by
  have hlt := a.isLt
  generalize a.toNat = w at hlt
  have hsign : (w / 2 ^ 31 % 2 == 1) = decide (2 ^ 31 ≤ w) := by
    rw [Bool.eq_iff_iff, beq_iff_eq, decide_eq_true_eq]
    omega
  rw [fpClass, decodeNum_f32, hsign, wrap_natCast]
  unfold classOf
  by_cases he : w / 2 ^ 23 % 2 ^ 8 = 255
  · by_cases hf : w % 2 ^ 23 = 0 <;> by_cases hneg : 2 ^ 31 ≤ w <;> by_cases hq : w % 2 ^ 23 < 2 ^ 22 <;>
      simp only [he, hf, hneg, hq, if_true, if_false, decide_true, decide_false] <;> rfl
  · by_cases h0 : w / 2 ^ 23 % 2 ^ 8 = 0
    · have hlow : w % 2 ^ 23 < 2 ^ 23 := Nat.mod_lt _ (by decide)
      have h255 : ¬(0 = 255) := by decide
      by_cases hf : w % 2 ^ 23 = 0 <;> by_cases hneg : 2 ^ 31 ≤ w <;>
        simp only [h0, h255, hf, hneg, hlow, if_true, if_false, decide_true, decide_false] <;> rfl
    · have hhi : ¬w % 2 ^ 23 + 2 ^ 23 < 2 ^ 23 := by omega
      have hz : ¬w % 2 ^ 23 + 2 ^ 23 = 0 := by omega
      by_cases hneg : 2 ^ 31 ≤ w <;> simp only [he, h0, hneg, hhi, hz, if_true, if_false, decide_true, decide_false] <;> rfl

theorem length_filter_threadsOf (k : Mask) (p : Nat → Bool) :
    ((threadsOf k).filter p).length = (List.range 64).countP fun u => k.getLsbD u && p u := by
  rw [threadsOf, List.filter_filter, List.countP_eq_length_filter]
  congr 2
  funext u
  exact Bool.and_comm ..

theorem countOf_eq (k : Mask) : countOf k = (List.range 64).countP fun u => k.getLsbD u := by
  rw [countOf, threadsOf, List.countP_eq_length_filter]

theorem ofNat_mod_word (n : Nat) : BitVec.ofNat 32 (n % 2 ^ 32) = BitVec.ofNat 32 n := by
  apply BitVec.eq_of_toNat_eq
  simp

/-- The special values of sysv (R142). -/
theorem special_eq (x : Ctx) (n t : Nat) : x.special n t =
    if n = 0 then wrap ((x.team.teamIx * x.launch.kernel.groups + x.g.gix) * 64 + t)
    else if n = 1 then wrap ((List.range 64).countP fun u => x.f.k0.getLsbD u && decide (u < t))
    else if n = 2 then wrap ((List.range 64).countP fun u => x.f.k0.getLsbD u)
    else x.g.srcnt.getZ t := by
  unfold Ctx.special
  split
  · rw [if_pos rfl, Ctx.lthread, ofNat_mod_word, ← wrap_natCast]
    push_cast
    rfl
  · rw [if_neg (by decide), if_pos rfl, length_filter_threadsOf, wrap_natCast]
  · rw [if_neg (by decide), if_neg (by decide), if_pos rfl, countOf_eq, wrap_natCast]
  · rw [if_neg (by omega), if_neg (by omega), if_neg (by omega)]

theorem wrap_add (a b : Int) : wrap (a + b) = wrap a + wrap b := BitVec.ofInt_add ..
theorem wrap_mul (a b : Int) : wrap (a * b) = wrap a * wrap b := BitVec.ofInt_mul ..
theorem wrap_sub (a b : Int) : wrap (a - b) = wrap a - wrap b := by
  rw [Int.sub_eq_add_neg, wrap_add, BitVec.sub_eq_add_neg, wrap, wrap, wrap, BitVec.ofInt_neg]
theorem mad_spec (d a b : W32) : d + a * b = wrap (d.toInt + a.toInt * b.toInt) := by
  rw [wrap_add, wrap_mul, wrap_toInt, wrap_toInt, wrap_toInt]
theorem msb_spec (d a b : W32) : d - a * b = wrap (d.toInt - a.toInt * b.toInt) := by
  rw [wrap_sub, wrap_mul, wrap_toInt, wrap_toInt, wrap_toInt]

/-- Settles O1: each instruction is one map over the active threads, of the function that the rule gives. -/
theorem laneIntegerResult : Obligations.LaneIntegerResult := by
  intro s x i r h hwf hd hr
  cases hd
  case add | sub | and | or | xor | andn | minS32 | maxS32 | minZ32 | maxZ32 | addsatS32 | subsatS32 | addsatZ32 | subsatZ32 | absd =>
    exact laneRow_completes h hr _ rfl fun t _ => by
      simp only [laneTwo, aluAdd_spec, aluSub_spec, aluAnd_spec, aluOr_spec, aluXor_spec, aluAndn_spec, aluMinS_spec, aluMaxS_spec,
        aluMinZ_spec, aluMaxZ_spec, aluAddsatS_spec, aluSubsatS_spec, aluAddsatZ_spec, aluSubsatZ_spec, aluAbsd_spec]
  case shl | shr | sar | rol | ror | mul | mulhS32 | mulhZ32 | mulhSz32 | divS32 | divZ32 | remS32 | remZ32 =>
    exact laneRow_completes h hr _ rfl fun t _ => by
      simp only [laneTwo, aluShl_spec, aluShr_spec, aluSar_spec, aluRol_spec, aluRor_spec, aluMul_spec, aluMulhS_spec, aluMulhZ_spec,
        aluMulhSz_spec, aluDivS_spec, aluDivZ_spec, aluRemS_spec, aluRemZ_spec]
  case abs | clz | ctz | popc | brev | bswap | sxb | sxh | zxh =>
    exact laneRow_completes h hr _ rfl fun t _ => by
      simp only [laneOne, aluAbs_spec, aluClz_spec, aluCtz_spec, aluPopc_spec, aluBrev_spec, aluBswap_spec, aluSxb_spec, aluSxh_spec,
        aluZxh_spec]
  case mad => exact laneRow_completes h hr _ rfl fun t _ => mad_spec ..
  case msb => exact laneRow_completes h hr _ rfl fun t _ => msb_spec ..
  case bfxS32 => exact laneRow_completes h hr _ rfl fun t _ => aluBfxS_spec ..
  case bfxZ32 => exact laneRow_completes h hr _ rfl fun t _ => aluBfxZ_spec ..
  case bfi => exact laneRow_completes h hr _ rfl fun t _ => aluBfi_spec ..
  case addi => exact laneRow_completes h hr _ rfl fun t _ => aluAdd_spec ..
  case andi => exact laneRow_completes h hr _ rfl fun t _ => aluAnd_spec ..
  case ori => exact laneRow_completes h hr _ rfl fun t _ => aluOr_spec ..
  case xori => exact laneRow_completes h hr _ rfl fun t _ => aluXor_spec ..
  case muli => exact laneRow_completes h hr _ rfl fun t _ => aluMul_spec ..
  case shi m d a k n =>
    have hn : n < 32 := by
      simp only [Instr.wellFormed, Bool.and_eq_true, decide_eq_true_eq] at hwf
      exact hwf.2
    exact laneRow_completes h hr _ rfl fun t _ => (aluShi_spec k _ n hn).trans (by cases k <;> rfl)
  case addl => exact laneRow_completes h hr _ rfl fun t _ => aluAdd_spec ..
  case andl => exact laneRow_completes h hr _ rfl fun t _ => aluAnd_spec ..
  case orl => exact laneRow_completes h hr _ rfl fun t _ => aluOr_spec ..
  case lea => exact laneRow_completes h hr _ rfl fun t _ => lea_spec ..
  case movl | sel | mov | kbit => exact laneRow_completes h hr _ rfl fun t _ => rfl
  case tid => exact laneRow_completes h hr _ rfl fun t _ => (wrap_natCast t).symm
  case sysv => exact laneRow_completes h hr _ rfl fun t _ => special_eq ..
  case fabs => exact laneRow_completes h hr _ rfl fun t _ => withSign_zero _
  case fneg => exact laneRow_completes h hr _ rfl fun t _ => withSign_not _
  case fcpys => exact laneRow_completes h hr _ rfl fun t _ => withSign_eq ..
  case fxsgn => exact laneRow_completes h hr _ rfl fun t _ => withSign_xor ..
  case fcls => exact laneRow_completes h hr _ rfl fun t _ => fpClass_eq _
end Sys2Proof.Machine
end

section
/-!
PROOFS. The uniform scalar instructions, branches, calls and returns (R43, R45, R52, R53, R59, R100, R101, R111 to R113; O12, O14, O54).
-/
namespace Sys2Proof.Machine

/-! ### Uniform scalar instructions -/

theorem uniMap_eq {s : State} {x : Ctx} (h : s.ctx = some x) (m : Bool) (n d : Nat) (srcs : List Nat) (f : Ctx → W32)
    (hr : x.ready srcs) : uniMap m n d srcs f s = .next (x.completes s (x.writeUni x.g d (f x)) m n) := by
  rw [uniMap, onFrag_of h, if_neg (by rw [show x.waitsOn srcs = false from hr]; exact Bool.false_ne_true)]
  rfl

theorem lowestOf_eq (k : Mask) : lowestOf k = ((List.range 64).find? fun t => k.getLsbD t).getD 64 := by
  rw [lowestOf, threadsOf, ← List.head?_filter]
  exact List.headD_eq_head?_getD

theorem lowestOf_of_first {k : Mask} {t : Nat} (ht : t < 64) (hk : k.getLsbD t = true) (hlow : ∀ u, u < t → k.getLsbD u = false) :
    lowestOf k = t := by
  have hfind : (List.range 64).find? (fun t => k.getLsbD t) = some t := by
    rw [List.find?_range_eq_some]
    exact ⟨hk, List.mem_range.2 ht, fun u hu => by rw [hlow u hu]; rfl⟩
  rw [lowestOf_eq, hfind]
  rfl

/-- A uniform scalar instruction writes its row's value uniformly. -/
theorem exec_of_uniDoes {s : State} {x : Ctx} {i : Instr} {r : UniRow} (h : s.ctx = some x) (hd : UniDoes i r) (hr : x.ready r.srcs) :
    exec i s = .next (x.completes s (x.writeUni x.g r.d (r.value x)) r.m r.n) := by
  have hmap (f : Ctx → W32) (hexec : exec i s = uniMap r.m r.n r.d r.srcs f s) (hf : f x = r.value x) :
      exec i s = .next (x.completes s (x.writeUni x.g r.d (r.value x)) r.m r.n) := by
    rw [hexec, uniMap_eq h _ _ _ _ _ hr, hf]
  cases hd
  case uadd | usub | uand | uor | uxor | uandn | uminS32 | umaxS32 | uminZ32 | umaxZ32 | uaddsatS32 | usubsatS32 | uaddsatZ32 |
      usubsatZ32 | uabsd =>
    exact hmap _ rfl (by
      simp only [uniTwo, aluAdd_spec, aluSub_spec, aluAnd_spec, aluOr_spec, aluXor_spec, aluAndn_spec, aluMinS_spec, aluMaxS_spec,
        aluMinZ_spec, aluMaxZ_spec, aluAddsatS_spec, aluSubsatS_spec, aluAddsatZ_spec, aluSubsatZ_spec, aluAbsd_spec])
  case ushl | ushr | usar | urol | uror | umul | umulhS32 | umulhZ32 | umulhSz32 | udivS32 | udivZ32 | uremS32 | uremZ32 =>
    exact hmap _ rfl (by
      simp only [uniTwo, aluShl_spec, aluShr_spec, aluSar_spec, aluRol_spec, aluRor_spec, aluMul_spec, aluMulhS_spec, aluMulhZ_spec,
        aluMulhSz_spec, aluDivS_spec, aluDivZ_spec, aluRemS_spec, aluRemZ_spec])
  case uabs => exact hmap _ rfl (aluAbs_spec _)
  case uaddi | uaddl => exact hmap _ rfl (aluAdd_spec ..)
  case uandl => exact hmap _ rfl (aluAnd_spec ..)
  case uorl => exact hmap _ rfl (aluOr_spec ..)
  case ulea => exact hmap _ rfl (lea_spec ..)
  case ucmp => exact hmap _ rfl (by simp only [uniTwo, intHolds_spec])
  case umovl | umov | rdth => exact hmap _ rfl rfl
  case rdlow => exact hmap _ rfl (by rw [lowestOf_eq]; exact (wrap_natCast _).symm)
  case kpopc => exact hmap _ rfl (by rw [countOf_eq]; exact (wrap_natCast _).symm)

theorem threadsOf_zero : threadsOf 0 = [] := by
  simp [threadsOf]

/-- With no active thread a uniform write to a v register changes nothing. -/
theorem Ctx.writeUni_inactive (x : Ctx) {d : Nat} (v : W32) (hd : d < 96) (hk : x.f.k0 = 0) : x.writeUni x.g d v = x.g := by
  rw [Ctx.writeUni, if_pos hd, hk, threadsOf_zero]
  rfl

/-- Settles O12: reading takes the lowest active thread; the rows are maps of the functions of the lane instructions. -/
theorem uniformResult : Obligations.UniformResult := by
  refine ⟨fun x a ha => ⟨fun hk => ?_, fun t ht hk hlow => ?_⟩, fun s x i r h hd hr => ⟨?_, fun hv hk => ?_⟩⟩
  · rw [Ctx.uni, if_pos ha, if_pos hk]
  · have hne : x.f.k0 ≠ 0 := fun h0 => by rw [h0] at hk; simp at hk
    rw [Ctx.uni, if_pos ha, if_neg hne, lowestOf_of_first ht hk hlow]
  · exact ⟨_, x.uniformSet_writeUni r.d (r.value x), exec_of_uniDoes h hd hr⟩
  · rw [exec_of_uniDoes h hd hr, x.writeUni_inactive _ hv hk]

/-! ### Branches, calls and returns -/

theorem asPc_offset (x : Ctx) (n : Int) : asPc (x.offset n) = x.wordsOn n := by
  change wrap ((x.f.pc.toNat : Int) + 4 * n) = _
  rw [wrap_add, wrap_toNat]
  rfl

theorem after_eq (x : Ctx) (n : Nat) : x.after n = x.wordsOn n := by
  rw [Ctx.after, Ctx.wordsOn, ← wrap_natCast]
  push_cast
  rfl

theorem reaches_iff (x : Ctx) (target : Int) : x.reaches target = true ↔ x.legal target := by
  rw [Ctx.reaches, Bool.and_eq_true, decide_eq_true_eq]
  rfl

theorem kall_iff (k w : Mask) : (k &&& ~~~w == 0) = true ↔ ∀ t, t < 64 → k.getLsbD t = true → w.getLsbD t = true := by
  rw [beq_iff_eq]
  constructor
  · intro h t ht hk
    have := congrArg (·.getLsbD t) h
    simpa [hk, ht] using this
  · intro h
    apply BitVec.eq_of_getLsbD_eq
    intro t ht
    cases hk : k.getLsbD t
    · simp [hk]
    · simp [hk, h t ht hk]

theorem kany_iff (k w : Mask) : (k &&& w != 0) = true ↔ ∃ t, t < 64 ∧ k.getLsbD t = true ∧ w.getLsbD t = true := by
  rw [bne_iff_ne]
  constructor
  · intro h
    by_contra hno
    refine h (BitVec.eq_of_getLsbD_eq fun t ht => ?_)
    cases hk : k.getLsbD t
    · simp [hk]
    · cases hw : w.getLsbD t
      · simp [hw]
      · exact absurd ⟨t, ht, hk, hw⟩ hno
  · rintro ⟨t, ht, hk, hw⟩ h0
    have := congrArg (·.getLsbD t) h0
    simp [hk, hw] at this

/-- The conditions of R101. -/
theorem condHolds_iff (x : Ctx) (c : BranchCond) (r : Nat) : x.condHolds c r = true ↔ branchHolds x c r := by
  cases c
  case kall => exact kall_iff ..
  case kany => exact kany_iff ..
  all_goals simp [Ctx.condHolds, branchHolds]

theorem condRegs_eq (c : BranchCond) (r : Nat) : condRegs c r = if c = .kall ∨ c = .kany then [] else [r] := by
  cases c <;> rfl

/-- A fragment outside loop bodies, or in handler mode, moves to pc. -/
theorem Group.move_of_plain {g : Group} {x : Ctx} (hf : g.frags[x.frag]? = some x.f) (hl : (x.f.looping && !g.handler) = false) (m : Bool)
    (pc : W32) : g.move x.frag m pc = x.goesTo g m pc := by
  rw [Group.move, Group.gotoStep_eq hf, hl, if_neg Bool.false_ne_true]
  rfl

theorem inBody_eq_false {x : Ctx} (hl : x.f.looping = false ∨ x.g.handler = true) : x.inBody = false := by
  rw [Ctx.inBody]
  obtain hl | hl := hl <;> simp [hl]

theorem inBody_eq_true {x : Ctx} (hl : x.f.looping = true) (hh : x.g.handler = false) : x.inBody = true := by
  rw [Ctx.inBody, hl, hh]
  rfl

/-- The group once a call has written the return address, or as it was. -/
def Ctx.linked (x : Ctx) : Option W32 → Group
  | none => x.g
  | some v => x.g.writeG x.g.handler 30 v

theorem Ctx.linked_frame (x : Ctx) (v : Option W32) : (x.linked v).frags = x.g.frags ∧ (x.linked v).handler = x.g.handler := by
  cases v with
  | none => exact ⟨rfl, rfl⟩
  | some v => rw [linked, Group.writeG_frame]; exact ⟨rfl, rfl⟩

theorem Ctx.moveTo_linked {s : State} {x : Ctx} (h : s.ctx = some x) (hl : x.inBody = false) (v : Option W32) (m : Bool) (pc : W32) :
    x.moveTo s (x.linked v) m pc = .next (x.put s (x.goesTo (x.linked v) m pc)) := by
  obtain ⟨hfrags, hhandler⟩ := x.linked_frame v
  rw [Ctx.moveTo, Group.move_of_plain (hfrags ▸ (State.ctx_eq_some h).2.2.1) (by rw [hhandler]; exact hl)]

/-- What a branch, call or return does once its sources are there (R52, R100, R111). -/
def JumpRow.outcome (r : JumpRow) (x : Ctx) (s : State) (goes : Bool) : Out :=
  match r.target x with
  | some target =>
    if x.inBody then x.noTransfer s target
    else if goes then x.transfer s (x.linked (r.link x)) r.m target
    else x.moveTo s (x.linked (r.link x)) r.m (r.next x)
  | none => if x.inBody then x.illegal s 0 else x.moveTo s (x.linked (r.link x)) r.m (r.next x)

theorem tableTransfer_eq {s : State} {x : Ctx} (h : s.ctx = some x) (m link : Bool) (a : Nat) (table : List W32) (hr : x.ready [a]) :
    tableTransfer m link a table s =
      match (table[(x.uni a).toNat]?).map fun o => x.wordsAway o.toInt with
      | some target =>
        if x.inBody then x.noTransfer s target
        else x.transfer s (x.linked (if link then some (x.wordsOn (1 + table.length)) else none)) m target
      | none =>
        if x.inBody then x.illegal s 0
        else x.moveTo s (x.linked (if link then some (x.wordsOn (1 + table.length)) else none)) m (x.wordsOn (1 + table.length)) := by
  have hnext : x.after (1 + table.length) = x.wordsOn (1 + table.length) := by
    rw [after_eq]
    push_cast
    rfl
  rw [tableTransfer, onFrag_of h, if_neg (by rw [show x.waitsOn [a] = false from hr]; exact Bool.false_ne_true)]
  simp only [hnext]
  cases table[(x.uni a).toNat]? <;> cases link <;> rfl

theorem exec_of_jumpDoes {s : State} {x : Ctx} {i : Instr} {r : JumpRow} (h : s.ctx = some x) (hd : JumpDoes i r) (hr : x.ready r.srcs) :
    ∃ goes : Bool, (goes = true ↔ r.goes x) ∧ exec i s = r.outcome x s goes := by
  cases hd with
  | bra m o => exact ⟨true, by simp, onFrag_of h _⟩
  | call m o =>
    refine ⟨true, by simp, (onFrag_of h _).trans ?_⟩
    simp only [after_eq]
    rfl
  | brc m c r o =>
    refine ⟨x.condHolds c r, condHolds_iff .., (onFrag_of h _).trans ?_⟩
    have hw : x.waitsOn (condRegs c r) = false := by rw [condRegs_eq]; exact hr
    simp only [hw, JumpRow.outcome]
    cases hb : x.inBody
    · cases x.condHolds c r
      · have hf := (State.ctx_eq_some h).2.2.1
        have hdone : x.done s x.g m 1 = x.moveTo s x.g m (x.wordsOn 1) := by
          rw [Ctx.done, Group.advance, hf, Ctx.moveTo, show x.wordsOn 1 = x.after 1 from (after_eq x 1).symm]
          rfl
        exact hdone
      · rfl
    · rfl
  | ret m =>
    have hw : x.waitsOn [126] = false := hr
    refine ⟨true, by simp, (onFrag_of h _).trans ?_⟩
    simp only [hw]
    rfl
  | jmpt m a table => exact ⟨true, by simp, (tableTransfer_eq h m false a table hr).trans rfl⟩
  | callt m a table => exact ⟨true, by simp, (tableTransfer_eq h m true a table hr).trans rfl⟩

/-- A branch that does not trap leaves the fragment at its target or at the next instruction. -/
theorem claim_branchResult : Sys2Proof.Claims.BranchResult := by
  intro s x i r h hd hl hr
  obtain ⟨goes, hgoes, hexec⟩ := exec_of_jumpDoes h hd hr
  have hb := inBody_eq_false hl
  refine ⟨x.linked (r.link x), fun v hv => ?_, fun hv => by rw [hv]; rfl, fun target ht hg hlegal => ?_, fun hstay => ?_⟩
  · rw [hv]
    exact Group.scalarSet_writeG ..
  · rw [hexec, JumpRow.outcome, ht, hgoes.2 hg]
    simp only [hb]
    exact (if_pos ((reaches_iff ..).2 hlegal)).trans (Ctx.moveTo_linked h hb ..)
  · have hmove : r.outcome x s goes = x.moveTo s (x.linked (r.link x)) r.m (r.next x) := by
      rw [JumpRow.outcome]
      cases ht : r.target x with
      | none => simp only [hb]; rfl
      | some target =>
        have hno : goes = false := by
          rw [Bool.eq_false_iff]
          exact fun hg => hstay.elim (fun h0 => by rw [h0] at ht; cases ht) fun hn => hn (hgoes.1 hg)
        simp only [hb, hno]
        rfl
    rw [hexec, hmove, Ctx.moveTo_linked h hb]

/-- Where a target is illegal, or the branch stands in a loop body, it traps. -/
theorem claim_branchIllegal : Sys2Proof.Claims.BranchIllegal := by
  intro s x i r h hd hr
  obtain ⟨goes, hgoes, hexec⟩ := exec_of_jumpDoes h hd hr
  refine ⟨fun hl hh => ?_, fun hl target ht hg hno => ?_⟩
  · have hb := inBody_eq_true hl hh
    refine ⟨fun target ht hno => ?_, fun hlegal => ?_⟩
    · rw [hexec, JumpRow.outcome, ht]
      simp only [hb, if_true, Ctx.noTransfer]
      rw [if_neg (fun hreach => hno ((reaches_iff ..).1 hreach))]
      rfl
    · rw [hexec, JumpRow.outcome]
      cases ht : r.target x with
      | none => simp only [hb, if_true]; rfl
      | some target =>
        simp only [hb, if_true, Ctx.noTransfer]
        rw [if_pos ((reaches_iff ..).2 (hlegal target ht))]
        rfl
  · rw [hexec, JumpRow.outcome, ht, hgoes.2 hg]
    simp only [inBody_eq_false hl]
    exact if_neg fun hreach => hno ((reaches_iff ..).1 hreach)

/-- Settles O14: a jump is one transfer, whose target decides. -/
theorem branchResult : Obligations.BranchResult := ⟨claim_branchResult, claim_branchIllegal⟩

/-! ### The register g0 and the return address -/

/-- A uniform write of g0 changes no register. -/
theorem Group.scalarSet_zero {g g' : Group} {v : W32} (h : g.scalarSet g' 0 v) :
    (∀ b k, g'.readG b k = g.readG b k) ∧ ∀ b k t, g'.readV b k t = g.readV b k t := by
  obtain ⟨hread, -, hframe⟩ := h
  refine ⟨fun b k => ?_, fun b k t => ?_⟩
  · rw [hread, if_neg fun h0 => h0.2.1 rfl]
  · rw [hframe]
    rfl

/-- Settles O54: what O12 and O14 say of the registers g0 and g30. -/
theorem registerZero : Obligations.RegisterZero := by
  refine ⟨fun x t => ⟨rfl, rfl⟩, fun s x i r h hd h96 hr => ?_, fun s x m o h hl hlegal => ?_, fun s x m a table o h hl hr ho hlegal => ?_,
    fun s x m lit h => ?_⟩
  · have hset := x.uniformSet_writeUni r.d (r.value x)
    rw [Ctx.uniformSet, h96, if_neg (by decide)] at hset
    obtain ⟨hG, hV⟩ := Group.scalarSet_zero hset
    exact ⟨_, hG, hV, by rw [exec_of_uniDoes h hd hr, h96]⟩
  · obtain ⟨g', hlink, -, hgo, -⟩ := claim_branchResult s x _ _ h (.call m o) hl rfl
    exact ⟨g', hlink _ rfl, (hgo _ rfl trivial hlegal).trans (by rw [← asPc_offset]; rfl)⟩
  · obtain ⟨g', hlink, -, hgo, -⟩ := claim_branchResult s x _ _ h (.callt m a table) hl hr
    exact ⟨g', hlink _ rfl, (hgo _ (by simp only [ho]; rfl) trivial hlegal).trans (by rw [← asPc_offset]; rfl)⟩
  · exact ⟨_, x.uniformSet_writeUni 126 lit, exec_of_uniDoes h (.umovl m 126 lit) rfl⟩

end Sys2Proof.Machine
end

section
/-!
PROOFS. The landing of variable-latency results (R62, R63, R97, R115, R127, R133 to R135; O5, O6).
-/
namespace Sys2Proof.Machine

/-! ### Values that land -/

theorem insertEntry_keys {α : Type} (k : Nat) (v : α) : ∀ (l : List (Nat × α)) (e : Nat × α), e ∈ insertEntry k v l →
    e.1 = k ∨ e ∈ l
  | [], e, he => .inl (by rw [insertEntry, List.mem_singleton] at he; rw [he])
  | (j, w) :: rest, e, he => by
    rw [insertEntry] at he
    split at he
    · obtain rfl | he := List.mem_cons.1 he
      · exact .inl rfl
      · exact .inr he
    · split at he
      · obtain rfl | he := List.mem_cons.1 he
        · exact .inl rfl
        · exact .inr (List.mem_cons_of_mem _ he)
      · obtain rfl | he := List.mem_cons.1 he
        · exact .inr (List.mem_cons_self ..)
        · exact (insertEntry_keys k v rest e he).imp_right (List.mem_cons_of_mem _)

theorem insertEntry_rising {α : Type} (k : Nat) (v : α) : ∀ l : List (Nat × α), l.Pairwise (fun a b => a.1 < b.1) →
    (insertEntry k v l).Pairwise fun a b => a.1 < b.1
  | [], _ => List.pairwise_singleton ..
  | (j, w) :: rest, h => by
    obtain ⟨hj, hrest⟩ := List.pairwise_cons.1 h
    rw [insertEntry]
    split
    · next hk =>
      refine List.pairwise_cons.2 ⟨fun e he => ?_, h⟩
      obtain rfl | he := List.mem_cons.1 he
      · exact hk
      · exact hk.trans (hj e he)
    · next hk =>
      split
      · next hkj => exact List.pairwise_cons.2 ⟨fun e he => hkj ▸ hj e he, hrest⟩
      · next hkj =>
        refine List.pairwise_cons.2 ⟨fun e he => ?_, insertEntry_rising k v rest hrest⟩
        obtain he | he := insertEntry_keys k v rest e he
        · change j < e.1
          omega
        · exact hj e he

theorem Map.rising_set {α : Type} {m : Map α} (h : m.rising) (k : Nat) (v : α) : (m.set k v).rising :=
  insertEntry_rising k v m.entries h

theorem insertEntry_insertEntry {α : Type} (k : Nat) (v w : α) : ∀ l : List (Nat × α),
    insertEntry k v (insertEntry k w l) = insertEntry k v l
  | [] => by simp [insertEntry]
  | (j, u) :: rest => by
    by_cases h1 : k < j
    · simp [insertEntry, h1]
    · by_cases h2 : k = j
      · simp [insertEntry, h2]
      · simp [insertEntry, h1, h2, insertEntry_insertEntry k v w rest]

/-- Only the last of two values stored at one key stays. -/
theorem Map.set_set {α : Type} (m : Map α) (k : Nat) (v w : α) : (m.set k w).set k v = m.set k v := by
  rw [Map.set, Map.set, Map.set, insertEntry_insertEntry]

theorem State.putGroup_putGroup (s : State) (core slot : Nat) (g h : Group) :
    (s.putGroup core slot g).putGroup core slot h = s.putGroup core slot h := by
  simp only [State.putGroup, Map.set_set]

theorem rising_pendVals (d : Nat) (f : Nat → List W32) (ts : List Nat) : (pendVals d f ts).rising := by
  have hset (m : Map W32) (t : Nat) (vs : List W32) (h : m.rising) : ∀ is : List Nat,
      (is.foldl (fun vals i => vals.set ((d + i) * 64 + t) (vs.getD i 0)) m).rising := fun is =>
    List.foldlRecOn is _ h fun _ hm _ _ => Map.rising_set hm ..
  exact List.foldlRecOn ts _ (motive := Map.rising) List.Pairwise.nil fun m hm t _ => hset m t (f t) hm _

theorem findEntry_none {α : Type} (k : Nat) : ∀ l : List (Nat × α), (∀ e ∈ l, k < e.1) → findEntry k l = none
  | [], _ => rfl
  | (j, w) :: rest, h => by
    have hj : k < j := h _ (List.mem_cons_self ..)
    rw [findEntry, if_neg (by omega)]
    exact findEntry_none k rest fun e he => h e (List.mem_cons_of_mem _ he)

/-- Each listed thread holds the value that is listed for it, in the bank that issued the result. -/
theorem Group.readV_landVals (hb b : Bool) (ts : Mask) (r t : Nat) (ht : t < 64) : ∀ (l : List (Nat × W32)) (g : Group),
    l.Pairwise (fun a b => a.1 < b.1) → (g.landVals hb ts l).readV b r t =
      if ts.getLsbD t = true ∧ (80 ≤ r → b = hb) then (findEntry (r * 64 + t) l).getD (g.readV b r t) else g.readV b r t
  | [], g, _ => by
    split <;> rfl
  | (i, v) :: rest, g, h => by
    obtain ⟨hi, hrest⟩ := List.pairwise_cons.1 h
    rw [landVals, Group.readV_landVals hb b ts r t ht rest _ hrest, findEntry]
    have hread : (if ts.getLsbD (i % 64) = true then g.writeV hb (i / 64) (i % 64) v else g).readV b r t =
        if ts.getLsbD t = true ∧ (80 ≤ r → b = hb) ∧ r * 64 + t = i then v else g.readV b r t := by
      split
      · next hts =>
        rw [Group.readV_writeV _ _ _ _ _ _ _ _ (Nat.mod_lt _ (by decide)) ht]
        by_cases heq : r * 64 + t = i
        · have hr : i / 64 = r := by omega
          have hu : i % 64 = t := by omega
          rw [hu] at hts
          simp only [heq, hr, hu, hts, true_and, and_true]
        · rw [if_neg (by omega), if_neg fun hc => heq hc.2.2]
      · next hts =>
        refine (if_neg ?_).symm
        rintro ⟨hts', -, rfl⟩
        exact hts (by rw [show (r * 64 + t) % 64 = t by omega]; exact hts')
    rw [hread]
    by_cases hc : ts.getLsbD t = true ∧ (80 ≤ r → b = hb)
    · rw [if_pos hc, if_pos hc]
      by_cases heq : r * 64 + t = i
      · rw [if_pos ⟨hc.1, hc.2, heq⟩, if_pos heq, findEntry_none _ _ (heq ▸ hi)]
        rfl
      · rw [if_neg fun h => heq h.2.2, if_neg heq]
    · rw [if_neg hc, if_neg hc, if_neg fun h => hc ⟨h.1, h.2.1⟩]

theorem Group.landVals_frame (hb : Bool) (ts : Mask) : ∀ (l : List (Nat × W32)) (g : Group),
    g.landVals hb ts l = { g with v := (g.landVals hb ts l).v, hv := (g.landVals hb ts l).hv }
  | [], _ => rfl
  | (i, v) :: rest, g => by
    rw [landVals, Group.landVals_frame hb ts rest]
    split
    · rw [Group.writeV_frame g]
    · rfl

/-! ### Steps that waited -/

theorem Group.stepField_frame (g : Group) (k : Mask) (r : Nat) (σ : W32) : ∃ v hv gs hg ps,
    g.stepField k r σ = { g with v := v, hv := hv, g := gs, hg := hg, pendingRegs := ps } := by
  rw [Group.stepField]
  split
  · rw [Group.writeLanes_frame]
    exact ⟨_, _, g.g, g.hg, g.pendingRegs, rfl⟩
  · rw [Group.writeG_frame]
    exact ⟨g.v, g.hv, _, _, _, rfl⟩

/-- The steps that waited for results write registers and nothing else. -/
theorem Group.stepDue_frame (g : Group) : ∃ v hv gs hg ps,
    g.stepDue = { g with v := v, hv := hv, g := gs, hg := hg, pendingRegs := ps, due := [] } := by
  have hfold (ds : List DueStep) : ∀ h : Group, (∃ v hv gs hg ps, h =
      { g with v := v, hv := hv, g := gs, hg := hg, pendingRegs := ps, due := [] }) → ∃ v hv gs hg ps,
      ds.foldl (fun g d => g.stepField (g.activeIn d.threads) d.reg d.stride) h =
        { g with v := v, hv := hv, g := gs, hg := hg, pendingRegs := ps, due := [] } := by
    induction ds with
    | nil => exact fun h hh => hh
    | cons d ds ih =>
      rintro h ⟨v, hv, gs, hg, ps, rfl⟩
      refine ih _ ?_
      obtain ⟨v', hv', gs', hg', ps', hstep⟩ := Group.stepField_frame
        { g with v := v, hv := hv, g := gs, hg := hg, pendingRegs := ps, due := [] } (Group.activeIn
        { g with v := v, hv := hv, g := gs, hg := hg, pendingRegs := ps, due := [] } d.threads) d.reg d.stride
      exact ⟨v', hv', gs', hg', ps', hstep⟩
  exact hfold g.due _ ⟨g.v, g.hv, g.g, g.hg, g.pendingRegs, rfl⟩

theorem Group.stepDue_of_none {g : Group} (h : g.due = []) : g.stepDue = g := by
  rw [Group.stepDue, h, List.foldl_nil, ← h]

theorem Group.unpark62_eq (g : Group) : g.unpark62 = g.freed := by
  rw [Group.unpark62, Group.freed]
  simp only [List.isEmpty_iff]

theorem Group.freed_frame (g : Group) : ∃ v hv gs hg ps ds mk hm, g.freed =
    { g with v := v, hv := hv, g := gs, hg := hg, pendingRegs := ps, due := ds, marker := mk, hmarker := hm } := by
  rw [Group.freed]
  split
  · obtain ⟨v, hv, gs, hg, ps, hstep⟩ := g.stepDue_frame
    rw [hstep]
    exact ⟨v, hv, gs, hg, ps, [], false, false, rfl⟩
  · exact ⟨g.v, g.hv, g.g, g.hg, g.pendingRegs, g.due, g.marker, g.hmarker, rfl⟩

/-- With no step waiting only the parks of R62 end. -/
theorem Group.freed_of_none {g : Group} (h : g.due = []) : ∃ mk hm, g.freed = { g with marker := mk, hmarker := hm } := by
  rw [Group.freed, Group.stepDue_of_none h]
  split
  · exact ⟨false, false, rfl⟩
  · exact ⟨g.marker, g.hmarker, rfl⟩

/-! ### The event -/

theorem Group.raise_zero (g : Group) : g.raise 0 = g := by
  simp [Group.raise]

theorem State.landed_of_quiet {s : State} {core slot : Nat} {g : Group} {p : Pend} (hfl : p.flags = 0) :
    s.landed core slot g p = s.putGroup core slot g.freed := by
  rw [State.landed, hfl, Group.raise_zero, Group.unpark62_eq]
  simp

/-- The bits of a mask result land with its values. -/
def Group.landBits (g : Group) (ts : Mask) : Option (Nat × Mask) → Group
  | some (k, v) => g.landMask k v ts
  | none => g

/-- What the event answers for a result of values and mask bits, none of which is held back. -/
theorem exec_of_lands {s : State} {core slot ix : Nat} {threads : Mask} {g : Group} {p : Pend}
    (hg : s.groups.find (slotKey core slot) = some g) (hp : g.pend[ix]? = some p) (hh : p.handle = none)
    (hst : p.stamp = 0 ∨ g.outstanding p.stamp = 0) (hq : g.queuesBehind ix = false) :
    let g₁ := (g.landVals p.handlerBank (p.threads &&& threads) p.vals.entries).landBits (p.threads &&& threads) p.mask
    exec (.variableLatencyResult core slot ix threads) s =
      if p.threads &&& ~~~threads = 0 then .next (s.landed core slot { g₁ with pend := g.pend.eraseIdx ix } p)
      else .next (s.putGroup core slot { g₁ with pend := g.pend.set ix { p with threads := p.threads &&& ~~~threads } }) := by
  have hts : p.threads &&& threads &&& ~~~(if p.stamp = 0 then 0 else g.outstanding p.stamp) = p.threads &&& threads := by
    have h0 : (if p.stamp = 0 then 0 else g.outstanding p.stamp) = 0 := by
      obtain h0 | h0 := hst
      · exact if_pos h0
      · rw [h0, ite_self]
    rw [h0]
    exact BitVec.and_allOnes
  have hleft : p.threads &&& ~~~(p.threads &&& threads) = p.threads &&& ~~~threads := by
    apply BitVec.eq_of_getLsbD_eq
    intro i hi
    simp only [BitVec.getLsbD_and, BitVec.getLsbD_not, hi]
    cases p.threads.getLsbD i <;> simp
  have hpend : ∀ g' : Group, (g'.landBits (p.threads &&& threads) p.mask).pend = g'.pend := by
    intro g'
    rcases p.mask with _ | ⟨k, v⟩
    · rfl
    · rw [Group.landBits, Group.landMask]
      split <;> rfl
  have hpend' : (g.landVals p.handlerBank (p.threads &&& threads) p.vals.entries).pend = g.pend := by
    rw [Group.landVals_frame]
  have hexec : exec (.variableLatencyResult core slot ix threads) s = execVariableLatencyResult core slot ix threads s := rfl
  rw [hexec, execVariableLatencyResult]
  simp only [hg, hp, hq, hh, hts, hleft, Bool.false_eq_true, if_false]
  change (if p.threads &&& ~~~threads = 0 then
      Host.Outcome.next (s.landed core slot
        { (_ : Group).landBits _ p.mask with pend := List.eraseIdx (Group.landBits _ _ p.mask).pend ix } _)
    else Host.Outcome.next (s.putGroup core slot
        { (_ : Group).landBits _ p.mask with pend := List.set (Group.landBits _ _ p.mask).pend ix _ })) = _
  rw [hpend, hpend']
  by_cases h0 : p.threads &&& ~~~threads = 0
  · rw [if_pos h0, if_pos h0]
    rfl
  · rw [if_neg h0, if_neg h0]

theorem exec_of_queues {s : State} {core slot ix : Nat} {threads : Mask} {g : Group}
    (hg : s.groups.find (slotKey core slot) = some g) (hq : g.queuesBehind ix = true) :
    exec (.variableLatencyResult core slot ix threads) s = .next s := by
  have hexec : exec (.variableLatencyResult core slot ix threads) s = execVariableLatencyResult core slot ix threads s := rfl
  rw [hexec, execVariableLatencyResult]
  simp only [hg, hq, if_true]
  split <;> rfl

/-- The registers that a result of values leaves. -/
theorem Group.readV_landed {g : Group} {p : Pend} {d : Nat} {f : Nat → List W32} {a ts : Mask} (hv : p.vals = pendVals d f (threadsOf a))
    (b : Bool) (r t : Nat) (ht : t < 64) : (g.landVals p.handlerBank ts p.vals.entries).readV b r t =
      if ts.getLsbD t = true ∧ (80 ≤ r → b = p.handlerBank) then (p.vals.find (r * 64 + t)).getD (g.readV b r t) else g.readV b r t :=
  Group.readV_landVals _ _ _ _ _ ht _ _ (hv ▸ rising_pendVals ..)

/-- Settles O5: the listed values are written one by one, and their keys differ. -/
theorem lanesLand : Obligations.LanesLand := by
  intro s core slot ix threads g p d f a hg hp hh hm hfl hv hst
  refine ⟨exec_of_queues hg, fun hq => ⟨_, fun b r t ht => Group.readV_landed hv b r t ht, Group.landVals_frame .., ?_⟩⟩
  rw [exec_of_lands hg hp hh hst hq, hm, State.landed_of_quiet hfl]
  simp only [Group.landBits]
  split <;> rfl

/-! ### Mask bits and handle words -/

theorem and_of_none_left {p threads : Mask} (h : p &&& ~~~threads = 0) : p &&& threads = p := by
  apply BitVec.eq_of_getLsbD_eq
  intro i hi
  have hbit := congrArg (·.getLsbD i) h
  simp only [BitVec.getLsbD_and, BitVec.getLsbD_not, hi] at hbit ⊢
  cases hp : p.getLsbD i <;> cases ht : threads.getLsbD i <;> simp_all

/-- The bits of the awaited threads of mask 1 to 7. -/
theorem getLsbD_merge (old v ts : Mask) (t : Nat) (ht : t < 64) :
    ((old &&& ~~~ts) ||| (v &&& ts)).getLsbD t = if ts.getLsbD t = true then v.getLsbD t else old.getLsbD t := by
  simp only [BitVec.getLsbD_or, BitVec.getLsbD_and, BitVec.getLsbD_not, ht]
  cases ts.getLsbD t <;> simp

theorem exec_of_landsMask {s : State} {core slot ix k : Nat} {threads v : Mask} {g : Group} {p : Pend}
    (hg : s.groups.find (slotKey core slot) = some g) (hp : g.pend[ix]? = some p) (hh : p.handle = none) (hm : p.mask = some (k, v))
    (hfl : p.flags = 0) (hv : p.vals = Map.empty) (hall : p.threads &&& ~~~threads = 0) (hst : p.stamp = 0)
    (hq : g.queuesBehind ix = false) : exec (.variableLatencyResult core slot ix threads) s =
      .next (s.putGroup core slot (Group.freed { g.landMask k v p.threads with pend := g.pend.eraseIdx ix })) := by
  rw [exec_of_lands hg hp hh (.inl hst) hq, if_pos hall, State.landed_of_quiet hfl, hm, hv, and_of_none_left hall]
  rfl

theorem Group.freed_keeps (g : Group) :
    g.freed.k = g.k ∧ g.freed.frags = g.frags ∧ g.freed.handler = g.handler ∧ g.freed.held = g.held := by
  obtain ⟨v, hv, gs, hg, ps, ds, mk, hm, h⟩ := g.freed_frame
  rw [h]
  exact ⟨rfl, rfl, rfl, rfl⟩

theorem Group.landMask_of_ne {g : Group} {k : Nat} (hk : k ≠ 0) (v ts : Mask) :
    g.landMask k v ts = { g with k := g.k.setZ k ((g.k.getZ k &&& ~~~ts) ||| (v &&& ts)) } := if_neg hk

theorem claim_maskLands (s : State) (core slot ix k : Nat) (threads v : Mask) (g : Group) (p : Pend)
    (hg : s.groups.find (slotKey core slot) = some g) (hp : g.pend[ix]? = some p) (hh : p.handle = none) (hm : p.mask = some (k, v))
    (hfl : p.flags = 0) (hv : p.vals = Map.empty) (hall : p.threads &&& ~~~threads = 0) (hst : p.stamp = 0)
    (hq : g.queuesBehind ix = false) :
    ∃ g' : Machine.Group, exec (.variableLatencyResult core slot ix threads) s = .next (s.putGroup core slot g') ∧
      (k ≠ 0 → g' = Group.freed { g with k := g'.k, pend := g.pend.eraseIdx ix } ∧
        ∀ (n t : Nat), t < 64 → (g'.k.getZ n).getLsbD t =
          if n = k ∧ p.threads.getLsbD t = true then v.getLsbD t else (g.k.getZ n).getLsbD t) ∧
      (k = 0 → g' = Group.freed { g with frags := g'.frags, pend := g.pend.eraseIdx ix } ∧
        ∀ (i t : Nat), t < 64 → (g'.frags[i]?.map fun f : Fragment => f.k0.getLsbD t) =
          (g.frags[i]?.map fun f : Fragment => if f.threads.getLsbD t = true ∧ p.threads.getLsbD t = true then v.getLsbD t
            else f.k0.getLsbD t)) := by
  obtain ⟨hk, hfrags, -, -⟩ := Group.freed_keeps { g.landMask k v p.threads with pend := g.pend.eraseIdx ix }
  refine ⟨_, exec_of_landsMask hg hp hh hm hfl hv hall hst hq, fun h0 => ?_, ?_⟩
  · rw [hk, Group.landMask_of_ne h0]
    refine ⟨rfl, fun n t ht => ?_⟩
    rw [Map.getZ_setZ]
    by_cases hn : n = k
    · rw [if_pos hn, getLsbD_merge _ _ _ _ ht, hn]
      simp only [true_and]
    · rw [if_neg hn, if_neg fun h => hn h.1]
  · rintro rfl
    rw [hfrags]
    refine ⟨rfl, fun i t ht => ?_⟩
    change ((g.frags.map _)[i]?.map _) = _
    rw [List.getElem?_map, Option.map_map]
    congr 1
    funext f
    change ((f.k0 &&& ~~~(p.threads &&& f.threads)) ||| (v &&& p.threads &&& f.threads)).getLsbD t = _
    rw [BitVec.and_assoc v, getLsbD_merge _ _ _ _ ht]
    simp only [BitVec.getLsbD_and, Bool.and_eq_true, and_comm]

/-- The register of a handle word holds the word, or the result word of an operation that has retired. -/
theorem Group.readG_landHandle (g : Group) (hb b : Bool) (h : HandleDest) (k : Nat) :
    (g.landHandle hb h).readG b k =
      if k = h.reg ∧ h.reg ≠ 0 ∧ (24 ≤ h.reg → b = hb) then h.result.getD h.word else g.readG b k := by
  rw [Group.landHandle]
  cases h.result with
  | none => exact Group.readG_putG (g.unpend hb h.reg) ..
  | some r => exact Group.readG_putG (g.unpend hb h.reg) ..

theorem Group.isPending_putG (g : Group) (hb b : Bool) (n k : Nat) (v : W32) :
    (g.putG hb n v).isPending b k = g.isPending b k := by
  rw [Group.putG_frame]
  rfl

theorem Group.isPending_unpend (g : Group) (hb b : Bool) (n k : Nat) :
    (g.unpend hb n).isPending b k = (g.isPending b k && decide (k ≠ n ∨ bankOf b k ≠ bankOf hb n)) := by
  have hput : (g.writeG hb n 0).isPending b k = (g.unpend hb n).isPending b k := by
    rw [Group.writeG_frame]
    rfl
  rw [Bool.eq_iff_iff, ← hput, Group.isPending_writeG, Bool.and_eq_true, decide_eq_true_eq]
  refine and_congr_right fun _ => ?_
  by_cases hk : k = n
  · rw [hk]
  · exact iff_of_true (.inl hk) (.inl hk)

theorem Group.isPending_landHandle (g : Group) (hb b : Bool) (h : HandleDest) (k : Nat) :
    (g.landHandle hb h).isPending b k =
      if k = h.reg ∧ bankOf b k = bankOf hb h.reg then h.result.isNone else g.isPending b k := by
  have hother : ¬(k = h.reg ∧ bankOf b k = bankOf hb h.reg) → (k ≠ h.reg ∨ bankOf b k ≠ bankOf hb h.reg) := fun hc => by tauto
  rw [Group.landHandle]
  cases h.result with
  | some r =>
    change ((g.unpend hb h.reg).putG hb h.reg r).isPending b k = _
    rw [Group.isPending_putG, Group.isPending_unpend]
    by_cases hc : k = h.reg ∧ bankOf b k = bankOf hb h.reg
    · rw [if_pos hc, decide_eq_false (by tauto), Bool.and_false]
      rfl
    · rw [if_neg hc, decide_eq_true (hother hc), Bool.and_true]
  | none =>
    let q : PendingReg := ⟨bankOf hb h.reg, h.reg, h.word.toNat / 2 ^ 28, h.word.toNat % 2 ^ 24⟩
    have hnew : ∀ g' : Group, ({ g' with pendingRegs := g'.pendingRegs ++ [q] } : Group).isPending b k =
        (g'.isPending b k || (decide (h.reg = k) && bankOf hb h.reg == bankOf b k)) := fun g' => by
      simp only [Group.isPending, List.any_append, List.any_cons, List.any_nil, Bool.or_false]
      rfl
    refine (hnew _).trans ?_
    rw [Group.isPending_putG, Group.isPending_unpend]
    by_cases hc : k = h.reg ∧ bankOf b k = bankOf hb h.reg
    · rw [if_pos hc, hc.2, decide_eq_true hc.1.symm]
      simp
    · rw [if_neg hc, decide_eq_true (hother hc)]
      have hno : (decide (h.reg = k) && bankOf hb h.reg == bankOf b k) = false := by
        rw [Bool.and_eq_false_iff, decide_eq_false_iff_not, beq_eq_false_iff_ne]
        tauto
      rw [hno, Bool.and_true, Bool.or_false]

theorem Group.landHandle_frame (g : Group) (hb : Bool) (h : HandleDest) : g.landHandle hb h =
    { g with g := (g.landHandle hb h).g, hg := (g.landHandle hb h).hg, pendingRegs := (g.landHandle hb h).pendingRegs } := by
  rw [Group.landHandle]
  cases h.result <;> (simp only []; rw [Group.putG_frame]; rfl)

theorem exec_of_landsHandle {s : State} {core slot ix : Nat} {threads : Mask} {g : Group} {p : Pend} {h : HandleDest}
    (hg : s.groups.find (slotKey core slot) = some g) (hp : g.pend[ix]? = some p) (hh : p.handle = some h) (hfl : p.flags = 0)
    (hq : g.queuesBehind ix = false) : exec (.variableLatencyResult core slot ix threads) s =
      .next (s.putGroup core slot (({ g with pend := g.pend.eraseIdx ix } : Group).landHandle p.handlerBank h).freed) := by
  have hexec : exec (.variableLatencyResult core slot ix threads) s = execVariableLatencyResult core slot ix threads s := rfl
  rw [hexec, execVariableLatencyResult]
  simp only [hg, hp, hq, hh, Bool.false_eq_true, if_false, State.landed_of_quiet hfl]

theorem bankOf_eq_iff {b hb : Bool} {n : Nat} : bankOf b n = bankOf hb n ↔ (24 ≤ n → b = hb) := by
  by_cases h : 24 ≤ n <;> simp [bankOf, h]

/-- Mask bits land in the awaited threads; a handle word lands in its register, which is pending until its operation retires. -/
theorem claim_maskAndHandleLand : Sys2Proof.Claims.MaskAndHandleLand := by
  refine ⟨claim_maskLands, fun s core slot ix threads g p h hg hp hh hfl h0 hq hdue => ?_⟩
  let G : Group := ({ g with pend := g.pend.eraseIdx ix } : Group).landHandle p.handlerBank h
  have hG : G.due = [] := by
    rw [show G = _ from Group.landHandle_frame ..]
    exact hdue
  obtain ⟨mk, hm, hfreed⟩ := Group.freed_of_none hG
  have hread : ∀ b k, G.freed.readG b k = G.readG b k := fun b k => by
    rw [hfreed]
    rfl
  have hpending : ∀ b k, G.freed.isPending b k = G.isPending b k := fun b k => by
    rw [hfreed]
    rfl
  refine ⟨_, exec_of_landsHandle hg hp hh hfl hq, ?_, ?_, fun b k hk => ⟨?_, ?_⟩, ?_⟩
  · exact (hread ..).trans ((Group.readG_landHandle ..).trans (if_pos ⟨rfl, h0, fun _ => rfl⟩))
  · exact (hpending ..).trans ((Group.isPending_landHandle ..).trans (if_pos ⟨rfl, rfl⟩))
  · refine (hread ..).trans ((Group.readG_landHandle ..).trans (if_neg ?_))
    rintro ⟨rfl, -, hb⟩
    exact hk.elim (fun hk => hk rfl) fun hk => hk (bankOf_eq_iff.2 hb)
  · exact (hpending ..).trans ((Group.isPending_landHandle ..).trans (if_neg fun hc => by tauto))
  · change G.freed = _
    have hkeep : G.freed.g = G.g ∧ G.freed.hg = G.hg ∧ G.freed.pendingRegs = G.pendingRegs := by
      rw [hfreed]
      exact ⟨rfl, rfl, rfl⟩
    obtain ⟨e1, e2, e3⟩ := hkeep
    rw [e1, e2, e3]
    exact congrArg Group.freed (Group.landHandle_frame ..)

/-! ### Flags -/

theorem mem_foldl_threads (t : Nat) : ∀ (fs : List Fragment) (m : Mask),
    (fs.foldl (fun m f => m ||| f.threads) m).getLsbD t = true ↔ m.getLsbD t = true ∨ ∃ f ∈ fs, f.threads.getLsbD t = true
  | [], m => by simp
  | f :: fs, m => by
    rw [List.foldl_cons, mem_foldl_threads t fs, BitVec.getLsbD_or, Bool.or_eq_true]
    simp only [List.mem_cons, exists_eq_or_imp, or_assoc]

theorem lowestOf_of_none {k : Mask} (h : ∀ t, t < 64 → k.getLsbD t = false) : lowestOf k = 64 := by
  rw [show k = 0 from BitVec.eq_of_getLsbD_eq fun t ht => by rw [h t ht]; simp, lowestOf, threadsOf_zero]
  rfl

/-- The fragment that takes the trap of a result (notes/assumptions/17.md). -/
theorem Group.holderOf_of_trapsIn {g : Group} {issued : Mask} {i : Nat} {f : Fragment} (ht : g.trapsIn issued i)
    (hf : g.frags[i]? = some f) : g.holderOf issued = some i := by
  let left (t : Nat) : Prop := issued.getLsbD t = true ∧ ∃ f ∈ g.frags, f.threads.getLsbD t = true
  have hleft (t : Nat) : (issued &&& g.frags.foldl (fun m f => m ||| f.threads) 0).getLsbD t = true ↔ left t := by
    rw [BitVec.getLsbD_and, Bool.and_eq_true, mem_foldl_threads]
    simp [left]
  have hnot {t : Nat} (h : ¬left t) : (issued &&& g.frags.foldl (fun m f => m ||| f.threads) 0).getLsbD t = false :=
    Bool.eq_false_iff.2 fun hb => h ((hleft t).1 hb)
  rw [Group.holderOf]
  obtain ⟨t, q, hlt, hl, hlow, hq, hqt, hfirst⟩ | ⟨hnone, rfl⟩ := ht
  · rw [lowestOf_of_first hlt ((hleft t).2 hl) fun u hu => hnot (hlow u hu), if_neg (by omega), List.findIdx?_eq_some_iff_getElem]
    obtain ⟨hi, hgi⟩ := List.getElem?_eq_some_iff.1 hq
    refine ⟨hi, by rw [hgi]; exact hqt, fun j hj => ?_⟩
    rw [hfirst j _ hj (List.getElem?_eq_getElem (by omega))]
    exact Bool.false_ne_true
  · rw [lowestOf_of_none fun t ht => hnot (hnone t ht), if_pos rfl, if_neg]
    intro h0
    rw [h0] at hf
    cases hf

/-- What the landing of the last values of a result answers (R134, R135). -/
theorem State.landed_eq (s : State) (core slot : Nat) (g : Group) (p : Pend) :
    let g' := (g.raise p.flags).freed
    let hit := p.flags &&& p.trapen
    s.landed core slot g p =
      if hit = 0 then s.putGroup core slot g'
      else if (g.handler && !p.handlerBank) = true then
        s.putGroup core slot { g' with held := some (match g.held with
          | some h => { h with flags := h.flags ||| hit }
          | none => ⟨p.word, hit⟩) }
      else match g.holderOf p.issued with
        | none => s.putGroup core slot g'
        | some i => takeTrap core slot i 3 ((g.frags[i]?.map (·.pc)).getD 0) p.word (hit.setWidth 32) (s.putGroup core slot g') := by
  obtain ⟨-, hfrags, hhandler, hheld⟩ := (g.raise p.flags).freed_keeps
  have hholder : (g.raise p.flags).freed.holderOf p.issued = g.holderOf p.issued := by
    rw [Group.holderOf, hfrags]
    rfl
  rw [State.landed, Group.unpark62_eq]
  simp only [State.putGroup_putGroup, hholder, hfrags, hhandler, hheld]
  rfl

/-- Which fragment takes the trap of a result is a matter of the fragments alone. -/
theorem Group.holderOf_congr {g h : Group} (hf : h.frags = g.frags) (issued : Mask) : h.holderOf issued = g.holderOf issued := by
  rw [Group.holderOf, Group.holderOf, hf]

/-- The flags of a result are raised with its last values, and those that were enabled trap. -/
theorem claim_flagsLand : Sys2Proof.Claims.FlagsLand := by
  intro s core slot ix threads g p d v a hg hp hh hm hv hall hst hq
  obtain ⟨g₁, hg₁⟩ : ∃ g₁, g₁ = g.landVals p.handlerBank p.threads p.vals.entries := ⟨_, rfl⟩
  have hframe : g₁ = { g with v := g₁.v, hv := g₁.hv } := hg₁ ▸ Group.landVals_frame ..
  obtain ⟨h, hh₁⟩ : ∃ h : Group, h = { g₁ with pend := g.pend.eraseIdx ix } := ⟨_, rfl⟩
  obtain ⟨g', hg'⟩ : ∃ g', g' =
      Group.freed { g₁ with pend := g.pend.eraseIdx ix, fpflags := g.fpflags ||| p.flags.setWidth 32 } := ⟨_, rfl⟩
  have hexec : exec (.variableLatencyResult core slot ix threads) s = .next (s.landed core slot h p) := by
    rw [exec_of_lands hg hp hh hst hq, hm, if_pos hall, and_of_none_left hall, hh₁, hg₁]
    rfl
  have hraise : (h.raise p.flags).freed = g' := by
    rw [hg', hh₁, hframe]
    rfl
  obtain ⟨hfrags, hhandler, hheld⟩ : h.frags = g.frags ∧ h.handler = g.handler ∧ h.held = g.held := by
    rw [hh₁, hframe]
    exact ⟨rfl, rfl, rfl⟩
  have hlanded := State.landed_eq s core slot h p
  simp only [hraise, hfrags, hhandler, hheld, Group.holderOf_congr hfrags] at hlanded
  refine ⟨g₁, fun b r t ht => hg₁ ▸ Group.readV_landed hv b r t ht, hframe, ?_⟩
  rw [hexec, hlanded, ← hg']
  refine ⟨fun h0 => by rw [if_pos h0], fun h0 h1 h2 h3 => ?_, fun q h0 h1 h2 h3 => ?_, fun i f h0 h1 h2 h3 => ?_⟩
  · rw [if_neg h0, h1, h2, h3]
    rfl
  · rw [if_neg h0, h1, h2, h3]
    rfl
  · have hnot : ¬(g.handler && !p.handlerBank) = true := by
      obtain h1 | h1 := h1 <;> simp [h1]
    rw [if_neg h0, if_neg hnot, Group.holderOf_of_trapsIn h2 h3]
    simp only [h3]
    rfl

/-- Settles O6: mask bits, handle words and flags land each by one change of the group. -/
theorem resultsLand : Obligations.ResultsLand := ⟨claim_maskAndHandleLand, claim_flagsLand⟩

end Sys2Proof.Machine
end

section
/-!
PROOFS. The loads of the lane engine, and the stores (R55, R62, R190, R194 to R196, R226, R227; O7, O8).
-/
namespace Sys2Proof.Machine

/-! ### Numbers and their bytes (R55, R195) -/

theorem leNat_drop : ∀ (n : Nat) (l : List Byte), leNat (l.drop n) = leNat l / 256 ^ n
  | 0, l => by simp
  | n + 1, [] => by simp [leNat]
  | n + 1, b :: l => by
    have hb := b.isLt
    rw [List.drop_succ_cons, leNat_drop n l, leNat, Nat.pow_succ', ← Nat.div_div_eq_div_mul]
    congr 1
    omega

theorem leNat_take : ∀ (n : Nat) (l : List Byte), leNat (l.take n) = leNat l % 256 ^ n
  | 0, l => by simp [leNat, Nat.mod_one]
  | n + 1, [] => by simp [leNat]
  | n + 1, b :: l => by
    have hb := b.isLt
    have hdiv : (b.toNat + 256 * leNat l) / 256 = leNat l := by omega
    rw [List.take_succ_cons, leNat, leNat_take n l, leNat, Nat.pow_succ', Nat.mod_mul, hdiv]
    omega

/-- Register i of a loaded number. -/
theorem ofNat_field (b : List Byte) (i : Nat) : BitVec.ofNat 32 (field b (4 * i) 4) = BitVec.ofNat 32 (leNat b / 2 ^ (32 * i)) := by
  rw [field, leNat_take, leNat_drop, show (256 : Nat) ^ 4 = 2 ^ 32 by decide, show (256 : Nat) ^ (4 * i) = 2 ^ (32 * i) by
    rw [show (256 : Nat) = 2 ^ 8 by decide, ← Nat.pow_mul]
    congr 1
    omega]
  exact ofNat_mod_word _

theorem widen_eq (w : Width) (b : List Byte) : widen w b = loadedRegs w (leNat b) := by
  have h0 := ofNat_field b 0
  have h1 := ofNat_field b 1
  have h2 := ofNat_field b 2
  have h3 := ofNat_field b 3
  simp only [Nat.mul_zero, Nat.pow_zero, Nat.div_one] at h0
  cases w
  case s8 | s16 => rfl
  case b8 | b16 | b32 => exact congrArg (fun v => [v]) h0
  case b64 =>
    change [_, _] = [_, _]
    rw [← h0, ← h1]
  case b128 =>
    change [_, _, _, _] = [_, _, _, _]
    rw [← h0, ← h1, ← h2, ← h3]

/-! ### Accesses whose checks pass (R190) -/

/-- The accesses of the active threads with their places. -/
def Ctx.accesses (x : Ctx) (req : Nat → Req) (place : Nat → Place) : List (Req × Place) :=
  (threadsOf x.f.k0).map fun t => (req t, place t)

theorem Ctx.requests_eq (x : Ctx) (r : MemRow) : x.requests r.p r.a r.sel (widthBytes r.w) = (threadsOf x.f.k0).map (r.req x) := rfl

theorem judge_of_passing {reqs : List Req} {check : Req → Except Denied Place} {ts : List Nat} {req : Nat → Req} {place : Nat → Place}
    (hreqs : reqs = ts.map req) (h : ∀ t ∈ ts, check (req t) = .ok (place t)) :
    judge (reqs.map fun r => (r, check r)) [] = .ok (ts.map fun t => (req t, place t)) := by
  have hall : (reqs.map fun r => (r, check r)) = ts.map fun t => (req t, .ok (place t)) := by
    rw [hreqs, List.map_map]
    exact List.map_congr_left fun t ht => by rw [Function.comp, h t ht]
  rw [hall]
  simp [judge, List.filterMap_map]

/-- Recording the translations that accesses used changes the translation buffers only (R188). -/
theorem State.fillTlb_frame (s : State) (ctx va : Nat) : ∃ tlb, s.fillTlb ctx va = { s with tlb := tlb } := by
  refine List.foldlRecOn _ _ (motive := fun t : State => ∃ tlb, t = { s with tlb := tlb }) ⟨s.tlb, rfl⟩ ?_
  rintro t ⟨tlb, rfl⟩ w -
  dsimp only
  split
  · exact ⟨tlb, rfl⟩
  · exact ⟨_, rfl⟩

theorem Ctx.fill_frame (x : Ctx) (s : State) (places : List (Req × Place)) : ∃ tlb, x.fill s places = { s with tlb := tlb } := by
  refine List.foldlRecOn _ _ (motive := fun t : State => ∃ tlb, t = { s with tlb := tlb }) ⟨s.tlb, rfl⟩ ?_
  rintro t ⟨tlb, rfl⟩ p -
  split
  · obtain ⟨tlb', h⟩ := State.fillTlb_frame { s with tlb := tlb } x.ctxNum p.1.addr
    exact ⟨tlb', h⟩
  · exact ⟨tlb, rfl⟩

section
variable {x : Ctx} {s : State} {a : Access} {req : Nat → Req} {place : Nat → Place}

theorem Ctx.granted_of_mem (h : x.granted s a req place) {t : Nat} (ht : t ∈ threadsOf x.f.k0) :
    checkAccess x s a (req t) = .ok (place t) ∧ (place t).bytes.length = (req t).size ∧
      ∀ b ∈ (place t).bytes, s.covered b.1 = false ∧ s.lostSite b.2 = none := by
  obtain ⟨hlt, hk⟩ := (mem_threadsOf _ t).1 ht
  exact h t hlt hk

theorem Ctx.stalls_of_granted (h : x.granted s a req place) : s.stalls (x.accesses req place) = false := by
  rw [State.stalls, accesses, List.any_map, List.any_eq_false]
  intro t ht
  obtain ⟨-, -, hb⟩ := Ctx.granted_of_mem h ht
  rw [Function.comp, List.any_eq_true]
  rintro ⟨b, hmem, hcov⟩
  rw [(hb b hmem).1] at hcov
  cases hcov

theorem Ctx.firstLost_of_granted (h : x.granted s a req place) (tlb : List TlbEntry) :
    State.firstLost { s with tlb := tlb } (x.accesses req place) = none := by
  rw [State.firstLost, accesses, List.findSome?_map, List.findSome?_eq_none_iff]
  intro t ht
  obtain ⟨-, -, hb⟩ := Ctx.granted_of_mem h ht
  rw [Function.comp, List.findSome?_eq_none_iff]
  intro b hmem
  have hlost : State.lostSite { s with tlb := tlb } b.2 = none := (hb b hmem).2
  rw [hlost]
  rfl

/-- Accesses that are granted go ahead, where the instruction as a whole is not denied (R28, R190, R438, R492). -/
theorem Ctx.gate_of_granted (h : x.granted s a req place) {o : Order} {c : Scope} (hdef : x.deferredFailure s o c = false)
    {reqs : List Req} (hreqs : reqs = (threadsOf x.f.k0).map req) (source : Nat)
    (more : List (Req × Place) → List (Req × Place) → List (Nat × Denied))
    (hmore : more (passing (reqs.map fun r => (r, checkRange x s a r))) (passing (reqs.map fun r => (r, checkAccess x s a r))) = [])
    (act : State → List (Req × Place) → Out) :
    ∃ tlb, x.gate s source a o c reqs more act = act { s with tlb := tlb } (x.accesses req place) := by
  obtain ⟨tlb, htlb⟩ := x.fill_frame s (x.accesses req place)
  refine ⟨tlb, ?_⟩
  have hjudge : judge (reqs.map fun r => (r, checkAccess x s a r)) [] = .ok (x.accesses req place) :=
    judge_of_passing hreqs fun t ht => (Ctx.granted_of_mem h ht).1
  rw [Ctx.gate, hmore]
  simp only [hjudge, Ctx.stalls_of_granted h, hdef, Bool.and_false, Bool.false_eq_true, if_false, htlb]

end

/-! ### Loads (R195, R227) -/

/-- A load finds in its bytes the number that it is to see. -/
theorem Ctx.leNat_loadBytes (x : Ctx) (s : State) (r : Req) (p : Place) (hlen : p.bytes.length = r.size) :
    leNat (x.loadBytes s r p) = x.seen s r p := by
  rw [Ctx.seen, Ctx.loadBytes]
  congr 1
  have hmem : s.gather (p.bytes.map (·.1)) = (List.range r.size).map fun j => s.mem.byte ((p.bytes.map (·.1)).getD j 0) := by
    rw [State.gather]
    apply List.ext_getElem (by simp [hlen])
    intro i h1 h2
    have hi : i < (p.bytes.map (·.1)).length := by simpa using h1
    simp only [List.getElem_map, List.getElem_range, List.getD_eq_getElem _ _ hi]
  by_cases hf : x.launch.form = 2 ∧ isOutward x r p = true
  · rw [if_pos (by simp [hf]), hmem]
    apply List.ext_getElem (by simp [Ctx.mergedBytes])
    intro i h1 h2
    have hi : i < r.size := by simpa using h2
    simp [Ctx.mergedBytes, hf, hi]
  · rw [if_neg (by simpa using hf), hmem]
    simp only [if_neg hf, Option.getD_none]

/-- The access of a thread among those of the active ones. -/
theorem Ctx.find_accesses (x : Ctx) (r : MemRow) (place : Nat → Place) {t : Nat} (ht : t < 64) (hk : x.f.k0.getLsbD t = true) :
    (x.accesses (r.req x) place).find? (fun q => q.1.thread = t) = some (r.req x t, place t) := by
  rw [Ctx.accesses, List.find?_map]
  have hfind : (threadsOf x.f.k0).find? ((fun q : Req × Place => decide (q.1.thread = t)) ∘ fun t => (r.req x t, place t)) = some t := by
    rw [List.find?_eq_some_iff_getElem]
    obtain ⟨i, hi, hget⟩ := List.getElem_of_mem ((mem_threadsOf _ t).2 ⟨ht, hk⟩)
    refine ⟨by simp [MemRow.req], i, hi, hget, fun j hj => ?_⟩
    have hne : (threadsOf x.f.k0)[j] ≠ t := fun h => by
      have hnodup : (threadsOf x.f.k0).Nodup := List.nodup_range.filter _
      exact absurd ((hnodup.getElem_inj_iff).1 (h.trans hget.symm)) (by omega)
    simpa [MemRow.req] using hne
  rw [hfind]
  rfl

/-- What each thread of a load is to receive. -/
theorem Ctx.loadNow_eq (x : Ctx) (s : State) (r : MemRow) (place : Nat → Place) (tlb : List TlbEntry)
    (hlen : ∀ t, t < 64 → x.f.k0.getLsbD t = true → (place t).bytes.length = (r.req x t).size) :
    ∃ g', x.sent x.g g' s.ir r.d (fun t => loadedRegs r.w (x.seen s (r.req x t) (place t))) none 0 ∧
      x.loadNow r.m r.w r.d { s with tlb := tlb } (x.accesses (r.req x) place) = .next (x.completes { s with tlb := tlb } g' r.m 1) := by
  refine ⟨_, Ctx.sent_congr (x.sent_sendLanes x.g s.ir r.d _ none 0) fun t ht hk => ?_, rfl⟩
  simp only [x.find_accesses r place ht hk, widen_eq]
  rw [x.leNat_loadBytes _ _ _ (hlen t ht hk)]
  rfl

theorem exec_of_loadDoes {i : Instr} {r : MemRow} (h : LoadDoes i r) (s : State) :
    exec i s = laneLoad r.p r.m r.w r.d r.a r.o r.c r.sel s := by
  cases h <;> rfl

/-- Settles O7: the accesses are granted, and each thread is sent what it sees. -/
theorem loadResultSent : Obligations.LoadResultSent := by
  intro s x i r place h hd hr hgranted hdef
  obtain ⟨tlb, hgate⟩ := Ctx.gate_of_granted hgranted hdef (x.requests_eq r) 0 (fun _ _ => []) rfl fun s places =>
    match s.firstLost places with
    | some (t, site) => x.trap s 7 (machineCheckInfo site t)
    | none => x.loadNow r.m r.w r.d s places
  obtain ⟨g', hsent, hnow⟩ := x.loadNow_eq s r place tlb fun t ht hk => (hgranted t ht hk).2.1
  refine ⟨g', tlb, hsent, ?_⟩
  rw [exec_of_loadDoes hd, laneLoad, onFrag_of h, Ctx.withLoad, if_neg (not_waits hr)]
  refine hgate.trans ?_
  simp only [Ctx.firstLost_of_granted hgranted]
  exact hnow

/-! ### A store where the merge buffer holds too much (R226) -/

/-- A launch in merge form, whose teams have a merge buffer of no bytes. -/
def fullLaunch : Launch := { (default : Launch) with form := 2 }
/-- A team with a unit store of one byte, whose merge buffer holds an entry all the same. -/
def fullTeam : Team := { (default : Team) with kernel := { (default : Kernel) with unit := 1 }, merge := [default] }
/-- Thread 0 is about to store a byte at 0 of the unit store. -/
def fullFrag : Fragment := { (default : Fragment) with threads := 1, k0 := 1 }
/-- Its group. -/
def storingGroup : Group := { (default : Group) with team := 1, frags := [fullFrag] }
/-- Its context. -/
def fullCtx : Ctx := ⟨0, 0, 0, storingGroup, fullFrag, fullTeam, fullLaunch⟩
/-- The state: one group, on its team and launch. -/
def fullState : State := { (default : State) with
  groups := Map.empty.set (slotKey 0 0) storingGroup, teams := Map.empty.set 1 fullTeam, launches := Map.empty.set 0 fullLaunch
  cur := .group 0 0 0 }
/-- The store, and the place of its byte. -/
def fullRow : MemRow := ⟨false, .b8, 1, 2, .relaxed, .group, 0, .unit⟩
def fullPlace (_ : Nat) : Place := ⟨[(unitKey 0 0, .unit 0)], some 1⟩

theorem fullState_granted : fullCtx.granted fullState .write (fullRow.req fullCtx) fullPlace := by
  intro t ht hk
  obtain rfl : t = 0 := by
    by_contra h0
    have hbit : (1 : Mask).getLsbD t = false := by simp [BitVec.getLsbD_one, h0]
    exact absurd (hk.symm.trans hbit) (by decide)
  exact ⟨by decide, rfl, by decide⟩

theorem fullState_traps : ∃ s', exec (.st false .b8 1 2 .relaxed .group) fullState = .next s' ∧
    ((s'.launches.find 0).bind (·.ending)).isSome = true := by
  refine ⟨_, rfl, ?_⟩
  decide

/-- Refutes O8: a store that stays in its team's own allocation is denied too where the merge buffer holds more entries than it has room
for. No step fills it so, but the statement is about every state. -/
theorem not_storeWritesBytes : ¬ Obligations.StoreWritesBytes := by
  rintro ⟨hstore, -⟩
  obtain ⟨s₁, honly, hexec, -⟩ := hstore fullState fullCtx _ fullRow fullPlace rfl (.st ..) rfl (.inr rfl) fullState_granted rfl
    fun _ t ht hk => rfl
  obtain ⟨s', hs', hend⟩ := fullState_traps
  rw [hexec] at hs'
  cases hs'
  obtain ⟨hsame, -⟩ := honly
  have hlaunch : s₁.launches = fullState.launches := (congrArg State.launches hsame :)
  have hnone : ((s₁.launches.find 0).bind (·.ending)).isSome = false := by
    rw [hlaunch]
    decide
  exact absurd (hend.symm.trans hnone) (by decide)

end Sys2Proof.Machine
end

section
/-!
PROOFS. Failures of the fabric, and the illegal instruction (R53, R437, R438, R459, R493; O53).
-/
namespace Sys2Proof.Machine

/-- What an operation becomes when no path to a peer is left (R438, R459). -/
def Op.withoutPeer (peer : Nat) (o : Op) : Op :=
  match o.cmd, o.phase with
  | _, .done _ => o
  | .coll c, _ =>
    if !c.members.contains peer ∨ peer = Config.moduleIndex then o
    else
      match c.exchanged with
      | some (peers, none) => { o with cmd := .coll { c with exchanged := some (peers, some 4) } }
      | some (_, some _) => o
      | none => if o.cancel then o else { o with phase := .done (c.err 4) }
  | _, _ => o

theorem Op.withoutPeer_of_done {o : Op} {w : W32} (peer : Nat) (h : o.phase = .done w) : o.withoutPeer peer = o := by
  rw [withoutPeer, h]

theorem Op.withoutPeer_of_other {o : Op} (peer : Nat) (h : ∀ q, o.cmd ≠ .coll q) : o.withoutPeer peer = o := by
  rw [withoutPeer]
  split
  · rfl
  · next c hc _ => exact absurd hc (h c)
  · rfl

/-- A collective that is not done (R459). -/
theorem Op.withoutPeer_of_coll {o : Op} {q : CollCmd} (peer : Nat) (hq : o.cmd = .coll q) (hd : ∀ w, o.phase ≠ .done w) :
    o.withoutPeer peer =
      if !q.members.contains peer ∨ peer = Config.moduleIndex then o
      else
        match q.exchanged with
        | some (peers, none) => { o with cmd := .coll { q with exchanged := some (peers, some 4) } }
        | some (_, some _) => o
        | none => if o.cancel then o else { o with phase := .done (q.err 4) } := by
  rw [withoutPeer]
  split
  · next w hw => exact absurd hw (hd w)
  · next c hc _ =>
    cases hq.symm.trans hc
    rfl
  · next hno _ => exact absurd hq (hno q)

/-- A group whose operations have lost a peer. -/
def Group.withoutPeer (g : Group) (peer : Nat) : Group :=
  { g with classes := g.classes.mapValues fun _ k => { k with ops := k.ops.map (Op.withoutPeer peer) } }

theorem Group.cls_withoutPeer (g : Group) (peer c : Nat) :
    ((g.withoutPeer peer).cls c).ops = (g.cls c).ops.map (Op.withoutPeer peer) := by
  simp only [Group.cls, Group.withoutPeer, Map.get, Map.find_mapValues]
  cases g.classes.find c <;> rfl

theorem exec_peerUnreachable_eq (peer : Nat) (s : State) : exec (.peerUnreachable peer) s = .next { s with
    unreachable := if s.unreachable.contains peer then s.unreachable else peer :: s.unreachable
    groups := s.groups.mapValues fun _ g => g.withoutPeer peer } := rfl

theorem mem_listed {α : Type} [DecidableEq α] (a q : α) (l : List α) (p : Prop) [Decidable p] :
    q ∈ (if l.contains a ∨ p then l else a :: l) ↔ (q = a ∧ ¬p) ∨ q ∈ l := by
  split
  · next h =>
    refine ⟨.inr, fun hq => hq.elim ?_ id⟩
    rintro ⟨rfl, hp⟩
    exact h.elim List.contains_iff_mem.1 fun h => absurd h hp
  · next h =>
    rw [List.mem_cons]
    simp [not_or.1 h]

theorem mem_listed_always {α : Type} [DecidableEq α] (a q : α) (l : List α) :
    q ∈ (if l.contains a then l else a :: l) ↔ q = a ∨ q ∈ l := by
  simpa using mem_listed a q l False

/-- Settles O53: each event changes one list, and PEER_UNREACHABLE the collectives that count on the peer. -/
theorem fabricFailures : Obligations.FabricFailures := by
  refine ⟨fun s peer => ⟨_, exec_peerUnreachable_eq peer s, fun q => mem_listed_always .., rfl, fun k g hg => ?_⟩,
    fun s link => ⟨_, rfl, fun q => mem_listed_always .., rfl, fun n hn => ?_, ?_, rfl⟩,
    fun s link => ⟨_, rfl, fun q => ?_, rfl⟩, fun s link => rfl, fun s x word info1 h => onFrag_of h _⟩
  · refine ⟨g.withoutPeer peer, by rw [Map.find_mapValues, hg]; rfl, rfl, fun c i o ho => ⟨o.withoutPeer peer, ?_, ?_, ?_, ?_⟩⟩
    · rw [Group.cls_withoutPeer, List.getElem?_map, ho]
      rfl
    · exact fun w => o.withoutPeer_of_done peer
    · exact o.withoutPeer_of_other peer
    · intro q hq hd
      have hcoll := o.withoutPeer_of_coll peer hq hd
      refine ⟨fun hout => ?_, fun hin hpeer => ⟨fun ms hms => ?_, fun hnone hcancel => ?_⟩⟩
      · rw [hcoll, if_pos (by simpa using hout)]
      · rw [hcoll, if_neg (by simp [hin, hpeer]), hms]
      · rw [hcoll, if_neg (by simp [hin, hpeer]), hnone, hcancel]
        rfl
  · exact (Map.find_set ..).trans (if_neg hn)
  · refine (congrArg (Option.map LogLine.kind) ((Map.find_set ..).trans (if_pos rfl))).trans rfl
  · refine (mem_listed link q s.linksDown (36 ≤ link)).trans ?_
    rw [not_le]

end Sys2Proof.Machine
end

section
/-!
PROOFS. A step runs what is fetched (R49, R52, R110, R469; O56): that the accesses left behind leave the fragment where it stands, and the
turns of groups, hods and events.
-/
namespace Sys2Proof.Machine

/-! ### Performing accesses leaves the fragment where it stands -/

/-- The fragment of x is the current one, in a group of its team. -/
def Ctx.StandsIn (x : Ctx) (s : State) : Prop :=
  s.cur = .group x.core x.slot x.frag ∧
    (∃ g, s.groups.find (slotKey x.core x.slot) = some g ∧ g.frags = x.g.frags ∧ g.team = x.g.team) ∧
    x.g.frags[x.frag]? = some x.f ∧ s.teams.find x.g.team = some x.team ∧ s.launches.find x.team.launch = some x.launch

theorem Ctx.standsIn_of_ctx {s : State} {x : Ctx} (h : s.ctx = some x) : x.StandsIn s := by
  obtain ⟨hcur, hg, hf, ht, hl⟩ := State.ctx_eq_some h
  exact ⟨hcur, ⟨x.g, hg, rfl, rfl⟩, hf, ht, hl⟩

theorem Ctx.StandsIn.ctx {s : State} {x : Ctx} (h : x.StandsIn s) : ∃ y, s.ctx = some y := by
  obtain ⟨hcur, ⟨g, hg, hfrags, hteam⟩, hf, ht, hl⟩ := h
  rw [← hfrags] at hf
  rw [← hteam] at ht
  refine ⟨⟨x.core, x.slot, x.frag, g, x.f, x.team, x.launch⟩, ?_⟩
  simp only [State.ctx, hcur, hg, hf, ht, hl]

/-- The states agree in the agent that acts, the groups, the teams and the launches. -/
def State.SameAgents (s s' : State) : Prop := s'.cur = s.cur ∧ s'.groups = s.groups ∧ s'.teams = s.teams ∧ s'.launches = s.launches

theorem Ctx.StandsIn.of_same {s s' : State} {x : Ctx} (h : x.StandsIn s) (he : s.SameAgents s') : x.StandsIn s' := by
  obtain ⟨h1, h2, h3, h4⟩ := he
  rwa [StandsIn, h1, h2, h3, h4]

/-- A change of a group that leaves its fragments and its team alone keeps the fragment where it stands. -/
theorem Ctx.StandsIn.modify {s : State} {x : Ctx} (h : x.StandsIn s) (k : Nat) {f : Group → Group}
    (hf : ∀ g, (f g).frags = g.frags ∧ (f g).team = g.team) : x.StandsIn { s with groups := s.groups.modify k f } := by
  obtain ⟨hcur, ⟨g, hg, hfrags, hteam⟩, hrest⟩ := h
  refine ⟨hcur, ?_, hrest⟩
  rw [Map.find_modify]
  split
  · next hk =>
    subst hk
    exact ⟨f g, by rw [hg]; rfl, (hf g).1.trans hfrags, (hf g).2.trans hteam⟩
  · exact ⟨g, hg, hfrags, hteam⟩

theorem State.scatter_keeps : ∀ (l : List (Nat × Byte)) (s : State), s.SameAgents (s.scatter l)
  | [], _ => ⟨rfl, rfl, rfl, rfl⟩
  | (a, b) :: rest, s => State.scatter_keeps rest (s.storeBytes a [b])

theorem State.scatterBy_keeps (a : Actor) (l : List (Nat × Byte)) (s : State) : s.SameAgents (s.scatterBy a l) := by
  cases a with
  | hod core store => exact List.foldlRecOn l _ (motive := s.SameAgents) ⟨rfl, rfl, rfl, rfl⟩ fun t ht p _ => ht
  | group | host | peer => exact State.scatter_keeps l s

/-- Performing an access touches memory, the reservations of hods and what is staged, and no more of the state. -/
theorem Late.perform_keeps (e : Late) (a : Actor) (piece : Option Nat) (mem : Memory) (s : State) :
    s.SameAgents (e.perform a piece mem s).s := by
  have hsame : s.SameAgents s := ⟨rfl, rfl, rfl, rfl⟩
  cases hw : e.work <;> simp only [Late.perform, hw]
  case store bytes => split <;> split <;> exact State.scatterBy_keeps ..
  case atomic | close => exact State.scatter_keeps ..
  case amo => exact State.scatterBy_keeps ..
  case load | hodLoad | sweep => split <;> exact hsame
  all_goals exact hsame

namespace Ctx.StandsIn
variable {s : State} {x : Ctx}

theorem hods (h : x.StandsIn s) (m : Map Hod) : x.StandsIn { s with hods := m } := h

theorem setLate (h : x.StandsIn s) (a : Actor) (l : List Late) : x.StandsIn (s.setLate a l) := by
  cases a with
  | group core slot => exact h.modify _ fun g => ⟨rfl, rfl⟩
  | hod | host | peer => exact h

theorem setViews (h : x.StandsIn s) (a : Actor) (l : List View) : x.StandsIn (s.setViews a l) := by
  cases a with
  | group core slot => exact h.modify _ fun g => ⟨rfl, rfl⟩
  | hod | host | peer => exact h

theorem performAt (h : x.StandsIn s) (a : Actor) (ix : Nat) (piece : Option Nat) (src : Nat) : x.StandsIn (s.performAt a ix piece src) := by
  rw [State.performAt]
  split
  · exact h
  · next e _ =>
    have hp (mem : Memory) (late : List Late) (views : List View) :
        x.StandsIn (((e.perform a piece mem s).s.setLate a late).setViews a views) :=
      ((h.of_same (e.perform_keeps a piece mem s)).setLate a late).setViews a views
    cases a with
    | group core slot => exact (hp ..).modify _ fun g => ⟨rfl, rfl⟩
    | hod core store => exact (hp ..).hods _
    | host | peer => exact hp ..

theorem trim (h : x.StandsIn s) (a : Actor) : x.StandsIn (s.trim a) := h.setLate a _

theorem performNamed (a : Actor) : ∀ (l : List (Nat × Nat)) (s : State), x.StandsIn s →
    ∀ s', State.performNamed a l s = some s' → x.StandsIn s'
  | [], s, h, s', hs' => by
    cases hs'
    exact h.trim a
  | n :: rest, s, h, s', hs' => by
    rw [State.performNamed] at hs'
    split at hs'
    · exact performNamed a rest s h s' hs'
    · split at hs'
      · cases hs'
      · exact performNamed a rest _ (h.performAt ..) s' hs'

/-- What an acquire finds performed. -/
theorem acquire (h : x.StandsIn s) (y : Actor) (c : Scope) (places : Option (List Nat)) (sc : Bool) :
    ∀ s', s.acquire y c places sc = some s' → x.StandsIn s' := by
  refine List.foldlRecOn s.actors _ (motive := fun o : Option State => ∀ s', o = some s' → x.StandsIn s') ?_ fun o ho z _ s' hs' => ?_
  · rintro s' ⟨⟩
    exact h
  · obtain ⟨t, ht, hs'⟩ := Option.bind_eq_some_iff.1 hs'
    split at hs'
    · exact Option.some.inj hs' ▸ ho t ht
    · exact performNamed z _ t (ho t ht) s' hs'

theorem act (h : x.StandsIn s) (a : Actor) (n : Nat × Nat) (piece : Option Nat) (src : Nat) :
    ∀ s', s.act a n piece src = some s' → x.StandsIn s' := by
  intro s' hs'
  rw [State.act] at hs'
  split at hs'
  · cases hs'
    exact h
  · obtain ⟨t, ht, hs'⟩ := Option.bind_eq_some_iff.1 hs'
    have hstands : x.StandsIn t := by
      split at ht
      · exact h.acquire _ _ _ _ t ht
      · cases ht
        exact h
    split at hs'
    · cases hs'
      exact hstands
    · split at hs'
      · cases hs'
      · cases hs'
        exact ((hstands.setLate a _).performAt a _ piece src).trim a

theorem actAll (a : Actor) : ∀ (l : List (Nat × Nat)) (s : State), x.StandsIn s →
    ∀ s', State.actAll a l s = some s' → x.StandsIn s'
  | [], s, h, s', hs' => by
    cases hs'
    exact h
  | n :: rest, s, h, s', hs' => by
    rw [State.actAll] at hs'
    obtain ⟨t, ht, hs'⟩ := Option.bind_eq_some_iff.1 hs'
    exact actAll a rest t (h.act a n none _ t ht) s' hs'

/-- The accesses that come before an instruction. -/
theorem settled (h : x.StandsIn s) (y : Ctx) (late : Bool) : ∀ s', y.settled late s = some s' → x.StandsIn s' := by
  intro s' hs'
  rw [Ctx.settled] at hs'
  split at hs'
  · cases hs'
    exact h
  · obtain ⟨t, ht, hs'⟩ := Option.bind_eq_some_iff.1 hs'
    have hstands : x.StandsIn t := actAll _ _ s h t ht
    split at hs'
    · exact hstands.acquire _ _ _ _ s' hs'
    · cases hs'
      exact hstands

end Ctx.StandsIn

/-! ### What is fetched -/

theorem Ctx.word_of_holds {x : Ctx} (h : x.launch.image.holds x.f.pc.toNat = true) :
    x.word = x.launch.image.code.getD (x.f.pc.toNat / 4) 0 := by
  rw [Image.holds, Bool.and_eq_true, Bool.and_eq_true, beq_iff_eq] at h
  exact if_pos h.1.1

/-- Outside loop bodies the words at the PC are decoded as they stand. -/
theorem Ctx.fetched_of_plain {x : Ctx} {i : Instr} {n : Nat} (h : x.launch.image.holds x.f.pc.toNat = true) (hb : x.inBody = false)
    (hd : decodeAt (x.launch.image.code.getD (x.f.pc.toNat / 4) 0) (x.launch.image.code.drop (x.f.pc.toNat / 4 + 1)) = .ok i n) :
    x.fetched = i := by
  rw [Ctx.fetched]
  simp only [h, hb, Ctx.word_of_holds h, hd]
  simp

/-- In a loop body the first word is stepped (R110). -/
theorem Ctx.fetched_of_body {x : Ctx} {i j : Instr} {n v : Nat} (h : x.launch.image.holds x.f.pc.toNat = true) (hb : x.inBody = true)
    (hd : decodeAt (x.launch.image.code.getD (x.f.pc.toNat / 4) 0) (x.launch.image.code.drop (x.f.pc.toNat / 4 + 1)) = .ok i n)
    (hv : stepWord x.g.steps (x.launch.image.code.getD (x.f.pc.toNat / 4) 0).toNat = some v)
    (hj : decodeAt (BitVec.ofNat 32 v) (x.launch.image.code.drop (x.f.pc.toNat / 4 + 1)) = .ok j n) : x.fetched = j := by
  rw [Ctx.fetched]
  simp only [h, hb, Ctx.word_of_holds h, hd, hv, if_true, Bool.not_true, Bool.false_eq_true, if_false]
  split
  · next heq =>
    rw [heq, BitVec.ofNat_toNat, BitVec.setWidth_eq, hd] at hj
    cases hj
    rfl
  · rw [hj]

theorem Hod.fetched_of_decodes {h : Hod} {i : Instr} {n : Nat} (heven : h.pc.toNat % 2 = 0) (hin : h.pc.toNat + n ≤ 0x10000)
    (hn : n = (if (h.istore.getZ h.pc.toNat).toNat % 4 = 3 then 4 else 2))
    (hd : decodeHod (BitVec.ofNat 32 (leNat ((List.range n).map fun k => h.istore.getZ (h.pc.toNat + k)))) = some (i, n)) :
    h.fetched = .instr i := by
  have hlow : (h.fetchWord 2).toNat % 4 = (h.istore.getZ h.pc.toNat).toNat % 4 := by
    have h0 := (h.istore.getZ h.pc.toNat).isLt
    have h1 := (h.istore.getZ (h.pc.toNat + 1)).isLt
    simp only [Hod.fetchWord, show List.range 2 = [0, 1] from rfl, List.map_cons, List.map_nil, leNat, BitVec.toNat_ofNat, Nat.add_zero,
      Nat.mul_zero]
    omega
  have hbig : 2 ≤ n := by
    rw [hn]
    split <;> decide
  rw [Hod.fetched, if_neg (by omega)]
  simp only [hlow, ← hn]
  rw [if_neg (by omega), Hod.fetchWord, hd]

/-! ### The turn of a group -/

theorem step_of_turn {s : State} {t : Turn} {rest : List Turn} (h : s.turns = t :: rest) {s' : State}
    (hrun : ({ s with turns := rest } : State).runTurn t = .next s') : step s = .next s'.endTurn := by
  have htake : s.takeTurn = { s with turns := rest } := by
    rw [State.takeTurn, h]
    rfl
  rw [step, State.nextTurn, htake, h, List.headD_cons, hrun]

theorem State.hasIssued_self (s s' : State) (core slot uid : Nat) (hg : s'.groups = s.groups) (ht : s'.teams = s.teams) :
    s.hasIssued s' core slot uid = false := by
  rw [State.hasIssued, hg, ht, bne_self_eq_false, bne_self_eq_false]
  rfl

theorem State.hasIssued_of_ne {s s' : State} {core slot uid : Nat}
    (h : s'.groups.find (slotKey core slot) ≠ s.groups.find (slotKey core slot) ∨ s'.teams.find uid ≠ s.teams.find uid) :
    s.hasIssued s' core slot uid = true := by
  rw [State.hasIssued, Bool.or_eq_true, bne_iff_ne, bne_iff_ne]
  exact h

/-- The group in which the instruction of x issues: nothing that ends with it is in flight any more. -/
def Ctx.resume (x : Ctx) (s : State) : State :=
  { s with groups := s.groups.modify (slotKey x.core x.slot) fun g => (g.resumed x.f).keepViews x.f false x.word.toNat }

theorem Group.keepViews_keeps (g : Group) (f : Fragment) (late : Bool) (w : Nat) :
    (g.keepViews f late w).frags = g.frags ∧ (g.keepViews f late w).team = g.team := by
  rw [Group.keepViews]
  split <;> exact ⟨rfl, rfl⟩

theorem Ctx.StandsIn.resume {s : State} {x : Ctx} (h : x.StandsIn s) (y : Ctx) : x.StandsIn (y.resume s) :=
  h.modify _ fun g => Group.keepViews_keeps (g.resumed y.f) ..

/-- The instruction of a fragment that is not refused (R191), once the accesses that come before it are performed. -/
theorem State.runFragment_of_settled {s s₄ : State} {x : Ctx} (h : s.ctx = some x) (hr : x.refusal = none)
    (hs : x.settled false { s with ir := x.word } = some s₄) {i : Instr} (hi : x.fetched = i) (hmet : x.claimMet i = false)
    (hclaim : x.claimants (x.resume s₄) i = []) : s.runFragment false = exec i (x.resume s₄) := by
  have hctx : ({ s with ir := x.word } : State).ctx = some x := h
  have hstands : x.StandsIn (x.resume s₄) := ((Ctx.standsIn_of_ctx hctx).settled x false s₄ hs).resume x
  obtain ⟨y, hy⟩ := hstands.ctx
  have hissue : ({ s with ir := x.word } : State).issue false =
      match (x.resume s₄).ctx with
      | none => .next (x.resume s₄)
      | some y =>
        if x.claimMet x.fetched then y.bothTrap (x.resume s₄) []
        else if x.claimants (x.resume s₄) x.fetched ≠ [] ∧ Config.choice (x.resume s₄).tick 0x628 % 2 = 1 then
          y.bothTrap (x.resume s₄) (x.claimants (x.resume s₄) x.fetched)
        else exec x.fetched (x.resume s₄) := by
    rw [State.issue]
    simp only [hctx, hs]
    rfl
  rw [State.runFragment]
  simp only [h, hr]
  rw [hissue, hy, hi]
  simp only [hmet, hclaim]
  simp

theorem State.runFragment_of_held {s : State} {x : Ctx} (h : s.ctx = some x) (hr : x.refusal = none)
    (hs : x.settled false { s with ir := x.word } = none) : s.runFragment false = .next { s with ir := x.word } := by
  have hctx : ({ s with ir := x.word } : State).ctx = some x := h
  rw [State.runFragment]
  simp only [h, hr]
  rw [State.issue]
  simp only [hctx, hs]

section
variable {s : State} {core slot k : Nat} {g : Group} {t : Team}

theorem State.groupTurn_eq (hg : s.groups.find (slotKey core slot) = some g) (ht : s.teams.find g.team = some t)
    (hmay : s.mayIssue core g t = true) : s.groupTurn core slot false = State.issueFirst core slot g.team false (g.issuers t) s := by
  rw [State.groupTurn]
  simp only [hg, ht, hmay, if_true]

theorem State.groupTurn_issues (hg : s.groups.find (slotKey core slot) = some g) (ht : s.teams.find g.team = some t)
    (hmay : s.mayIssue core g t = true) (hk : (g.issuers t).head? = some k) {s' : State}
    (hrun : (s.aim core slot k).runFragment false = .next s') (hissued : (s.aim core slot k).hasIssued s' core slot g.team = true) :
    s.groupTurn core slot false = .next s' := by
  obtain ⟨l, hl⟩ := List.head?_eq_some_iff.1 hk
  rw [State.groupTurn_eq hg ht hmay, hl, State.issueFirst, hrun]
  simp only [hissued, if_true]

theorem State.groupTurn_waits (hg : s.groups.find (slotKey core slot) = some g) (ht : s.teams.find g.team = some t)
    (hmay : s.mayIssue core g t = true) (hk : g.issuers t = [k]) {s' : State}
    (hrun : (s.aim core slot k).runFragment false = .next s') (hissued : (s.aim core slot k).hasIssued s' core slot g.team = false) :
    s.groupTurn core slot false = .next s := by
  rw [State.groupTurn_eq hg ht hmay, hk, State.issueFirst, hrun]
  simp only [hissued]
  rfl

/-- With nothing in flight that ends with the instruction, its group goes on as it stands. -/
theorem Ctx.resume_of_idle {x : Ctx} (hg : s.groups.find (slotKey core slot) = some g) (hx : (s.aim core slot k).ctx = some x)
    (hc : g.claim = none) (ho : g.overlap = []) (hv : g.views = []) (w : W32) :
    x.resume { s.aim core slot k with ir := w } = { s.aim core slot k with ir := w } := by
  obtain ⟨hcur, -⟩ := State.ctx_eq_some hx
  have hkey : x.core = core ∧ x.slot = slot := by
    cases hcur
    exact ⟨rfl, rfl⟩
  obtain ⟨g₁, hg₁⟩ : ∃ g₁ : Group, g₁ = { g with ptr := if k + 1 < g.frags.length then k + 1 else 0 } := ⟨_, rfl⟩
  have haim : (s.aim core slot k).groups = s.groups.set (slotKey core slot) g₁ := by
    rw [hg₁]
    change s.groups.modify _ _ = _
    rw [Map.modify, hg]
  have hidle : (g₁.resumed x.f).keepViews x.f false x.word.toNat = g₁ := by
    rw [Group.resumed_of_idle (by rw [hg₁]; exact hc) (by rw [hg₁]; exact ho), Group.keepViews_of_none (by rw [hg₁]; exact hv)]
  have hmodify : (s.aim core slot k).groups.modify (slotKey x.core x.slot)
      (fun g => (g.resumed x.f).keepViews x.f false x.word.toNat) = (s.aim core slot k).groups := by
    rw [haim, hkey.1, hkey.2, Map.modify, Map.find_set, if_pos rfl]
    simp only [hidle, Map.set_set]
  exact congrArg (fun m => ({ s.aim core slot k with ir := w, groups := m } : State)) hmodify

end

/-! ### The turn of a hod -/

section
variable {s : State} {core : Nat} {store : Bool} {x : HodCtx} {i : Instr}

theorem State.hodTurn_eq (hx : ({ s with cur := .hod core store } : State).hodCtx = some x) (hrun : x.h.status = 2)
    (hstop : x.team.stopped = false) (hhalt : (s.debugOf core).halted = false) (hi : x.h.fetched = .instr i) :
    s.hodTurn core store false =
      match ({ s with cur := .hod core store } : State).hodSettled core store i with
      | none => .next s
      | some s' => exec i s' := by
  rw [State.hodTurn]
  simp only [hx]
  rw [if_neg (by simp [hrun, hstop, hhalt])]
  simp only [hi]
  rfl

end

/-! ### Events -/

theorem State.finishEvery_of_none {s : State} (h : ∀ a, s.lateOf a = [] ∧ s.viewsOf a = []) : s.finishEvery = s := by
  have hfinish : s.actors.foldl State.finishAll s = s :=
    List.foldlRecOn _ _ (motive := fun t => t = s) rfl fun t ht a _ => by rw [ht, State.finishAll_of_none_late (h a).1]
  rw [State.finishEvery, hfinish, State.forgetViews]
  exact List.foldlRecOn _ _ (motive := fun t => t = s) rfl fun t ht a _ => by rw [ht, if_pos (h a).2]

theorem State.forgetViews_of_none {s : State} (h : ∀ a, s.viewsOf a = []) : s.forgetViews = s :=
  List.foldlRecOn _ _ (motive := fun t => t = s) rfl fun t ht a _ => by rw [ht, if_pos (h a)]

/-- An event finds nothing to perform where no agent has left anything behind. -/
theorem State.beforeEvent_of_none {s : State} (h : ∀ a, s.lateOf a = [] ∧ s.viewsOf a = []) (i : Instr) : s.beforeEvent i = some s := by
  have hcovered : s.anyCovered = false := by
    rw [State.anyCovered, List.any_eq_false]
    intro a _
    rw [(h a).1]
    exact Bool.false_ne_true
  rw [State.beforeEvent, State.finishEvery_of_none h, State.forgetViews_of_none fun a => (h a).2, hcovered]
  split
  · rfl
  · split
    · rfl
    · split
      · exact State.acquire_of_none_late (fun a => (h a).1) ..
      · rfl

theorem step_of_held_event {s : State} {rest : List Turn} {i : Instr}
    (h : s.turns = .event i :: rest ∨ ∃ w, s.turns = .eventError i w :: rest)
    (hb : ({ s with turns := rest } : State).beforeEvent i = none) : step s = .next ({ s with turns := rest } : State).endTurn := by
  obtain h | ⟨w, h⟩ := h <;>
  · refine step_of_turn h ?_
    rw [State.runTurn]
    simp only [hb]
    split <;> rfl

/-- Settles O56: a turn is what the group, the hod or the event does, and the end of the turn. -/
theorem stepRunsDecoded : Obligations.StepRunsDecoded := by
  intro s rest
  refine ⟨fun core slot g t k x i n hturn hg ht hmay hk hx hr hholds => ?_, fun core store x i hturn hx hrun hstop hhalt => ?_,
    fun i h => State.beforeEvent_of_none h i, fun i hturn hb => step_of_held_event hturn hb,
    fun i s₄ s₃ hturn hev hb hexec => ?_, fun i w s₄ s₃ hturn hev hb hexec => ?_⟩
  · have hword := Ctx.word_of_holds hholds
    have hkey : x.core = core ∧ x.slot = slot := by
      obtain ⟨hcur, -⟩ := State.ctx_eq_some hx
      cases hcur
      exact ⟨rfl, rfl⟩
    obtain ⟨rfl, rfl⟩ := hkey
    refine ⟨Ctx.fetched_of_plain hholds, fun hb hd v j hv hj => Ctx.fetched_of_body hholds hb hd hv hj, ?_⟩
    rw [← hword]
    refine ⟨fun hlate hc ho hv => ⟨Ctx.settled_of_none_late hlate false, ?_⟩, fun hs hone => ?_,
      fun s₄ s₃ hs hmet hclaim hi hexec hissued => ?_⟩
    · exact Ctx.resume_of_idle (s := { s with turns := rest }) hg hx hc ho hv x.word
    · exact step_of_turn hturn (s' := { s with turns := rest }) (State.groupTurn_waits (s := { s with turns := rest })
        hg ht hmay hone (State.runFragment_of_held hx hr hs)
        (State.hasIssued_self _ _ _ _ _ rfl rfl))
    · exact step_of_turn hturn (s' := s₃) (State.groupTurn_issues (s := { s with turns := rest }) hg ht hmay hk
        ((State.runFragment_of_settled hx hr hs hi hmet hclaim).trans hexec) (State.hasIssued_of_ne hissued))
  · refine ⟨fun n heven hin hn hd => Hod.fetched_of_decodes heven hin hn hd, fun hi => ?_⟩
    have hhod := State.hodTurn_eq (s := { s with turns := rest }) hx hrun hstop hhalt hi
    refine ⟨fun hlate hv => State.hodSettled_of_none_late hlate hv i, fun hs => step_of_turn hturn (s' := { s with turns := rest }) ?_,
      fun s₄ s₃ hs hexec =>
      step_of_turn hturn (s' := s₃) ?_⟩
    · exact hhod.trans (by rw [hs])
    · exact hhod.trans (by rw [hs]; exact hexec)
  · refine step_of_turn hturn (s' := s₃) ?_
    rw [State.runTurn]
    simp only [hev, if_true, hb, hexec]
  · refine (step_of_turn hturn (s' := { s₃ with portFails := none }) ?_).trans rfl
    rw [State.runTurn]
    simp only [hev, if_true, hb, hexec]

end Sys2Proof.Machine
end

section
/-!
PROOFS. The loop buffer (R62, R108, R109, R111, R173; O18).
-/
namespace Sys2Proof.Machine

/-! ### The step of a register at the end of a body (R173) -/

theorem Group.stepsTo_stepField (g : Group) (k : Mask) (d : Nat) (σ : W32) : g.stepsTo (g.stepField k d σ) d k σ := by
  rw [stepsTo, stepField]
  split
  · refine ⟨fun b r t ht => ?_, ?_⟩
    · refine (Group.readV_writeLanes false b d r t _ ht _ g fun t h => ((mem_threadsOf k t).1 h).1).trans ?_
      simp only [mem_threadsOf, ht, true_and]
      rfl
    · rw [Group.writeLanes_frame]
  · have hread := fun b k => Group.readG_writeG g false b (d - 96) k (g.readG false (d - 96) + σ)
    have hpend := fun b k => Group.isPending_writeG g b (d - 96) k false (g.readG false (d - 96) + σ)
    have hframe : g.writeG false (d - 96) (g.readG false (d - 96) + σ) =
        { g with
          g := (g.writeG false (d - 96) (g.readG false (d - 96) + σ)).g, hg := (g.writeG false (d - 96) (g.readG false (d - 96) + σ)).hg
          pendingRegs := (g.writeG false (d - 96) (g.readG false (d - 96) + σ)).pendingRegs } := by
      rw [Group.writeG_frame]
    generalize g.writeG false (d - 96) (g.readG false (d - 96) + σ) = g' at hread hpend hframe ⊢
    exact ⟨hread, hpend, by rw [hframe]⟩

/-- The step of a body's end, made at once or left for when the results have landed (R62). -/
theorem Group.stepRegister_eq (g : Group) (due : Option Mask) (k : Mask) (l : LoopLevel) : g.stepRegister due k l =
    match due with
    | none => g.stepField k l.stepReg (g.lsig.getZ l.level)
    | some ts => { g with due := g.due ++ [⟨l.stepReg, g.lsig.getZ l.level, ts⟩] } := rfl

theorem Group.passed_frame (g : Group) (due : Option Mask) (k : Mask) (l : LoopLevel) :
    g.passed due k l = { g.stepRegister due k l with
      lc := g.lc.setZ l.level (g.lc.getZ l.level - 1), li := g.li.setZ l.level (g.li.getZ l.level + 1) } := by
  rw [Group.passed, Group.stepRegister_eq]
  cases due with
  | none =>
    obtain ⟨v, hv, gs, hg, ps, h⟩ := g.stepField_frame k l.stepReg (g.lsig.getZ l.level)
    simp only [h]
  | some ts => rfl

/-- The end of a pass of the one open level (R109). -/
theorem loopEnds_one {g : Group} {due : Option Mask} {k : Mask} {l : LoopLevel} :
    loopEnds due k l.stop [l] g =
      if g.lc.getZ l.level = 1 then (l.stop, { g.passed due k l with loops := [] })
      else (l.start, { g.passed due k l with loops := [l] }) := by
  have hlc : (g.stepRegister due k l).lc = g.lc := by
    rw [Group.stepRegister_eq]
    cases due with
    | none =>
      obtain ⟨v, hv, gs, hg, ps, h⟩ := g.stepField_frame k l.stepReg (g.lsig.getZ l.level)
      simp only [h]
    | some ts => rfl
  rw [loopEnds_cons, if_pos rfl, hlc]
  by_cases h1 : g.lc.getZ l.level = 1
  · rw [if_pos h1, if_pos (sub_eq_zero.2 h1)]
    rfl
  · rw [if_neg h1, if_neg fun h0 => h1 (sub_eq_zero.1 h0)]

/-! ### The instructions of the loop buffer -/

/-- A fragment in a loop body reaches pc (R109). -/
theorem Group.move_of_looping {g : Group} {i : Nat} {f : Fragment} (hf : g.frags[i]? = some f) (hl : f.looping = true)
    (hh : g.handler = false) (m : Bool) (pc : W32) : g.move i m pc =
      let r := loopEnds (if m && !g.pend.isEmpty then some f.threads else none) f.k0 pc g.loops g
      (r.2.setFrag i { f with pc := r.1, looping := !r.2.loops.isEmpty }).park62 m := by
  rw [Group.move, Group.gotoStep_eq hf, hl, hh]
  rfl

theorem Ctx.done_eq_moveTo {s : State} {x : Ctx} {g : Group} (hf : g.frags[x.frag]? = some x.f) (m : Bool) (n : Nat) :
    x.done s g m n = x.moveTo s g m (x.wordsOn n) := by
  rw [Ctx.done, Group.advance, hf, ← after_eq]
  rfl

/-- The group once a level is open in its fragment, with its counter, index and step value (R109, R173). -/
def Ctx.opensLevel (x : Ctx) (l : LoopLevel) (count : W32) : Group :=
  { x.g with
    loops := [l], lc := x.g.lc.setZ l.level count, li := x.g.li.setZ l.level 0, lsig := x.g.lsig.setZ l.level (x.g.readG false 31)
    frags := x.g.frags.set x.frag { x.f with looping := true } }

section
variable {s : State} {x : Ctx} (h : s.ctx = some x)
include h

/-- A `loop` outside loop bodies whose body does not end in a two-word instruction (R61, R108, R109). -/
theorem exec_loop_of_closed (hh : x.g.handler = false) (hl : ∀ f ∈ x.g.frags, f.looping = false) (m : Bool) (lv cnt len : Nat)
    (hopens : x.launch.image.opensTwo (x.wordsOn (1 + len)).toNat = false) (incd inca incb incta inctb : BitVec 4) (incacc : BitVec 5)
    (step : Nat) : exec (.loop m lv cnt len incd inca incb incta inctb incacc step) s =
      if lv ≠ 0 then x.illegal s (loopWord incd inca incb incta inctb incacc step)
      else if x.waitsOn [cnt, 127] then .next s
      else if x.uni cnt = 0 then x.moveTo s x.g m (x.wordsOn (2 + len))
      else x.moveTo s (x.opensLevel ⟨lv, x.wordsOn 2, x.wordsOn (2 + len), incd.toInt, inca.toInt, incb.toInt, incta.toNat, inctb.toNat,
        incacc.toNat, step⟩ (x.uni cnt)) m (x.wordsOn 2) := by
  have hf := (State.ctx_eq_some h).2.2.1
  have hxl : x.f.looping = false := hl x.f (List.mem_of_getElem? hf)
  have hany : x.g.frags.any (·.looping) = false := by
    rw [List.any_eq_false]
    exact fun f hm => by rw [hl f hm]; exact Bool.false_ne_true
  have h1 : x.after (1 + len) = x.wordsOn (1 + len) := (after_eq ..).trans (by push_cast; rfl)
  have h2 : x.after (2 + len) = x.wordsOn (2 + len) := (after_eq ..).trans (by push_cast; rfl)
  refine (onFrag_of h _).trans ?_
  refine (if_neg (by rw [hh]; exact Bool.false_ne_true)).trans ((if_neg (by rw [hany, Bool.and_false]; exact Bool.false_ne_true)).trans ?_)
  rw [hxl, h1, h2, hopens, show x.after 2 = x.wordsOn 2 from after_eq x 2]
  by_cases hlv : lv = 0
  · rw [hlv]
    rfl
  · refine (if_pos ?_).trans (if_pos hlv).symm
    simp [hlv]

theorem exec_lbrk_of_one {l : LoopLevel} (hh : x.g.handler = false) (hl : x.f.looping = true) (hloops : x.g.loops = [l]) (m : Bool)
    (c : BranchCond) (r : Nat) (o : BitVec 14)
    (hout : ¬((l.start.toNat : Int) ≤ x.wordsAway o.toInt ∧ x.wordsAway o.toInt < l.stop.toNat))
    (hready : x.ready (if c = .kall ∨ c = .kany then [] else [r])) : exec (.lbrk m c r o) s =
      if x.condHolds c r then x.transfer s { x.g with loops := [], lc := x.g.lc.setZ l.level 0 } m (x.wordsAway o.toInt)
      else x.done s x.g m 1 := by
  have hinside : (decide ((l.start.toNat : Int) ≤ x.offset o.toInt) && decide (x.offset o.toInt < l.stop.toNat)) = false := by
    rw [Bool.eq_false_iff, Ne, Bool.and_eq_true, decide_eq_true_eq, decide_eq_true_eq]
    exact hout
  have hw : x.waitsOn (condRegs c r) = false := by
    rw [condRegs_eq]
    exact hready
  refine (onFrag_of h _).trans ?_
  simp only [hh, hl, hloops, hinside, hw]
  rfl

end

/-! ### The clauses of O18 -/

theorem loop_opens (s : State) (x : Ctx) (m : Bool) (cnt len : Nat) (incd inca incb incta inctb : BitVec 4) (incacc : BitVec 5) (step : Nat)
    (h : s.ctx = some x) (hh : x.g.handler = false) (hl : ∀ f ∈ x.g.frags, f.looping = false)
    (hopens : x.launch.image.opensTwo (x.wordsOn (1 + len)).toNat = false) (hready : x.ready [cnt, 127]) :
    (x.uni cnt = 0 → exec (.loop m 0 cnt len incd inca incb incta inctb incacc step) s =
      .next (x.put s (x.goesTo x.g m (x.wordsOn (2 + len))))) ∧
    (x.uni cnt ≠ 0 → x.wordsOn 2 ≠ x.wordsOn (2 + len) →
      exec (.loop m 0 cnt len incd inca incb incta inctb incacc step) s = .next (x.put s (Group.park62
      { x.g with
        loops := [⟨0, x.wordsOn 2, x.wordsOn (2 + len), incd.toInt, inca.toInt, incb.toInt, incta.toNat, inctb.toNat, incacc.toNat, step⟩]
        lc := x.g.lc.setZ 0 (x.uni cnt)
        li := x.g.li.setZ 0 0
        lsig := x.g.lsig.setZ 0 (x.g.readG false 31)
        frags := x.g.frags.set x.frag { x.f with looping := true, pc := x.wordsOn 2 } } m))) ∧
    (exec (.loop m 1 cnt len incd inca incb incta inctb incacc step) s = .next (takeTrap x.core x.slot x.frag 1 x.f.pc s.ir
      (loopWord incd inca incb incta inctb incacc step) s)) := by
  have hf := (State.ctx_eq_some h).2.2.1
  have hxl : x.f.looping = false := hl x.f (List.mem_of_getElem? hf)
  have hexec := fun lv => exec_loop_of_closed h hh hl m lv cnt len hopens incd inca incb incta inctb incacc step
  have hwait : ¬x.waitsOn [cnt, 127] = true := by rw [show x.waitsOn [cnt, 127] = false from hready]; exact Bool.false_ne_true
  refine ⟨fun h0 => ?_, fun h0 hne => ?_, (hexec 1).trans (if_pos (by decide))⟩
  · rw [hexec 0, if_neg (by decide), if_neg hwait, if_pos h0, Ctx.moveTo, Group.move_of_plain hf (by rw [hxl]; rfl)]
  · have hset (l : LoopLevel) (c : W32) : (x.opensLevel l c).frags[x.frag]? = some { x.f with looping := true } := getElem?_set_self hf _
    rw [hexec 0, if_neg (by decide), if_neg hwait, if_neg h0, Ctx.moveTo, Group.move_of_looping (hset ..) rfl hh]
    rw [show (x.opensLevel _ _).loops = [_] from rfl, loopEnds_cons, if_neg hne]
    simp only [Ctx.opensLevel, Group.setFrag, List.set_set]
    rfl

theorem nop_ends_body (s : State) (x : Ctx) (m : Bool) (l : LoopLevel) (h : s.ctx = some x) (hh : x.g.handler = false)
    (hl : x.f.looping = true) (hloops : x.g.loops = [l]) (hstop : x.wordsOn 1 = l.stop) :
    ∃ g₁, x.g.stepsTo g₁ l.stepReg x.f.k0 (x.g.lsig.getZ l.level) ∧ g₁.handler = false ∧
      let last := decide (x.g.lc.getZ l.level = 1)
      let g₂ : Group :=
        if m = true ∧ x.g.pend ≠ [] then { x.g with due := x.g.due ++ [⟨l.stepReg, x.g.lsig.getZ l.level, x.f.threads⟩] } else g₁
      exec (.nop m) s = .next (x.put s (Group.park62
        { g₂ with
          lc := x.g.lc.setZ l.level (x.g.lc.getZ l.level - 1)
          li := x.g.li.setZ l.level (x.g.li.getZ l.level + 1)
          loops := if last then [] else [l]
          frags := x.g.frags.set x.frag
            { x.f with pc := if last then l.stop else l.start, looping := !last } } m)) := by
  have hf := (State.ctx_eq_some h).2.2.1
  obtain ⟨v, hv, gs, hg, ps, hstep⟩ := x.g.stepField_frame x.f.k0 l.stepReg (x.g.lsig.getZ l.level)
  refine ⟨_, Group.stepsTo_stepField .., by rw [hstep]; exact hh, ?_⟩
  have hexec : exec (.nop m) s = x.moveTo s x.g m (x.wordsOn 1) := (onFrag_of h _).trans (Ctx.done_eq_moveTo hf m 1)
  have hlater : (m && !x.g.pend.isEmpty) = decide (m = true ∧ x.g.pend ≠ []) := by
    rw [Bool.eq_iff_iff]
    simp
  have hfrags (due : Option Mask) : (x.g.stepRegister due x.f.k0 l).frags = x.g.frags := by
    rw [Group.stepRegister_eq]
    cases due with
    | none => simp only [hstep]
    | some ts => rfl
  have hreg : x.g.stepRegister (if (m && !x.g.pend.isEmpty) = true then some x.f.threads else none) x.f.k0 l =
      if m = true ∧ x.g.pend ≠ [] then { x.g with due := x.g.due ++ [⟨l.stepReg, x.g.lsig.getZ l.level, x.f.threads⟩] }
      else x.g.stepField x.f.k0 l.stepReg (x.g.lsig.getZ l.level) := by
    rw [hlater]
    by_cases hm : m = true ∧ x.g.pend ≠ []
    · rw [if_pos hm, decide_eq_true hm, if_pos rfl]
      rfl
    · rw [if_neg hm, decide_eq_false hm]
      rfl
  rw [hexec, Ctx.moveTo, Group.move_of_looping hf hl hh, hloops, hstop, loopEnds_one, ← hreg]
  by_cases h1 : x.g.lc.getZ l.level = 1
  · simp only [if_pos h1, decide_eq_true h1, Group.passed_frame, Group.setFrag, hfrags]
    rfl
  · simp only [if_neg h1, decide_eq_false h1, Group.passed_frame, Group.setFrag, hfrags]
    rfl

theorem getLsbD_activeIn (g : Group) (ts : Mask) (t : Nat) : (g.activeIn ts).getLsbD t = true ↔
    ts.getLsbD t = true ∧ ∃ f ∈ g.frags, f.threads.getLsbD t = true ∧ f.k0.getLsbD t = true := by
  have hfold : ∀ (fs : List Fragment) (m : Mask), (fs.foldl (fun m f => m ||| (f.k0 &&& f.threads &&& ts)) m).getLsbD t = true ↔
      m.getLsbD t = true ∨ ts.getLsbD t = true ∧ ∃ f ∈ fs, f.threads.getLsbD t = true ∧ f.k0.getLsbD t = true := by
    intro fs
    induction fs with
    | nil => simp
    | cons f fs ih =>
      intro m
      rw [List.foldl_cons, ih]
      simp only [BitVec.getLsbD_or, BitVec.getLsbD_and, Bool.or_eq_true, Bool.and_eq_true, List.mem_cons, exists_eq_or_imp]
      tauto
  rw [Group.activeIn, hfold]
  simp

theorem due_step_made (g : Group) (d : DueStep) (hdue : g.due = [d]) : ∃ (g₁ : Group) (k : Mask),
    (∀ t, t < 64 → (k.getLsbD t = true ↔ d.threads.getLsbD t = true ∧
      ∃ f ∈ g.frags, f.threads.getLsbD t = true ∧ f.k0.getLsbD t = true)) ∧
      { g with due := [] }.stepsTo g₁ d.reg k d.stride ∧ g.stepDue = { g₁ with handler := g.handler } := by
  refine ⟨g.stepDue, g.activeIn d.threads, fun t _ => getLsbD_activeIn g d.threads t, ?_, ?_⟩
  · rw [Group.stepDue, hdue]
    exact Group.stepsTo_stepField { g with due := [] } (g.activeIn d.threads) d.reg d.stride
  · obtain ⟨v, hv, gs, hg, ps, hstep⟩ := g.stepDue_frame
    rw [hstep]

theorem lbrk_closes (s : State) (x : Ctx) (m : Bool) (c : BranchCond) (r : Nat) (o : BitVec 14) (l : LoopLevel) (h : s.ctx = some x)
    (hh : x.g.handler = false) (hl : x.f.looping = true) (hloops : x.g.loops = [l])
    (hout : ¬((l.start.toNat : Int) ≤ x.wordsAway o.toInt ∧ x.wordsAway o.toInt < l.stop.toNat))
    (hready : x.ready (if c = .kall ∨ c = .kany then [] else [r])) :
    (branchHolds x c r → x.legal (x.wordsAway o.toInt) →
      exec (.lbrk m c r o) s = .next (x.put s (Group.park62
        { x.g with
          loops := []
          lc := x.g.lc.setZ l.level 0
          frags := x.g.frags.set x.frag { x.f with pc := x.wordsOn o.toInt, looping := false } } m))) ∧
    (¬branchHolds x c r → x.wordsOn 1 ≠ l.stop →
      exec (.lbrk m c r o) s = .next (x.put s (x.goesTo x.g m (x.wordsOn 1)))) := by
  have hf := (State.ctx_eq_some h).2.2.1
  have hexec := exec_lbrk_of_one h hh hl hloops m c r o hout hready
  refine ⟨fun hholds hlegal => ?_, fun hno hne => ?_⟩
  · rw [hexec, if_pos ((condHolds_iff ..).2 hholds), Ctx.transfer, if_pos ((reaches_iff ..).2 hlegal), Ctx.moveTo,
      Group.move_of_looping (g := { x.g with loops := [], lc := x.g.lc.setZ l.level 0 }) hf hl hh]
    simp only [← asPc_offset]
    rfl
  · rw [hexec, if_neg fun hc => hno ((condHolds_iff ..).1 hc), Ctx.done_eq_moveTo hf, Ctx.moveTo, Group.move_of_looping hf hl hh, hloops,
      Nat.cast_one, loopEnds_cons, if_neg hne, ← hloops]
    simp only [Group.setFrag, hloops]
    rw [show (!([l] : List LoopLevel).isEmpty) = x.f.looping from hl.symm, Ctx.goesTo, ← hloops]

/-- Settles O18: each clause is one move of the fragment, at which the open level ends or not. -/
theorem loopResult : Obligations.LoopResult :=
  ⟨loop_opens, fun s x m l h hh hl hloops hstop _ => nop_ends_body s x m l h hh hl hloops hstop, fun g d hdue _ => due_step_made g d hdue,
    lbrk_closes⟩

end Sys2Proof.Machine
end

section
/-!
PROOFS. The split table: what no barrier waits for stays, the live entries, and the joins that fragments wait at (R88 to R96, R119; O15).
-/
namespace Sys2Proof.Machine

/-! ### Barriers that nothing waits at (R119) -/

/-- No fragment of the group waits at a team or cluster barrier. -/
def Group.OffBarriers (g : Group) : Prop := ∀ f ∈ g.frags, ∀ fn id, atBarrier fn id f.wait = false ∧ atBarrier fn id f.saved = false

theorem Group.OffBarriers.hasArrived {g : Group} (h : g.OffBarriers) (fn id : Nat) : g.hasArrived fn id = false := by
  rw [Group.hasArrived]
  cases hfs : g.frags with
  | nil => rfl
  | cons f fs =>
    have hall (q : Fragment) (hq : q ∈ f :: fs) := h q (hfs ▸ hq) fn id
    have hfirst : f.arrivedAt fn id = false := by
      rw [Fragment.arrivedAt, (hall f (List.mem_cons_self ..)).1, (hall f (List.mem_cons_self ..)).2]
      rfl
    have hany : ((f :: fs).any fun q => q.trapping && atBarrier fn id q.wait) = false :=
      List.any_eq_false.2 fun q hq => by simp [(hall q hq).1]
    rw [hany, List.all_cons, hfirst]
    simp

theorem State.tryRelease_of_noneAtBarrier {s : State} (h : s.noneAtBarrier) (uids : List Nat) (fn id : Nat)
    (epilogue : List (Nat × Group) → Nat) : s.tryRelease uids fn id epilogue = s := by
  rw [State.tryRelease]
  refine if_neg fun hall => ?_
  obtain ⟨hlive, hall⟩ := (Bool.and_eq_true ..).mp hall
  cases hl : s.groups.entries.filter fun e => uids.contains e.2.team && !e.2.frags.isEmpty with
  | nil =>
    rw [hl] at hlive
    cases hlive
  | cons e es =>
    have he : e ∈ s.groups.entries := (List.mem_filter.1 (hl ▸ List.mem_cons_self ..)).1
    rw [hl, List.all_cons, Group.OffBarriers.hasArrived (h e he)] at hall
    cases hall

theorem State.evalBarriers_of_noneAtBarrier {s : State} (h : s.noneAtBarrier) (uid : Nat) (t : Team) : s.evalBarriers uid t = s := by
  have hone (fn id : Nat) : s.evalBarrier uid t fn id = s := by
    rw [State.evalBarrier]
    split <;> exact State.tryRelease_of_noneAtBarrier h ..
  have hteam (l : List Nat) : l.foldl (fun s id => s.evalBarrier uid t 0 id) s = s := by
    induction l with
    | nil => rfl
    | cons id l ih => rw [List.foldl_cons, hone, ih]
  have hcluster (l : List Nat) : l.foldl (fun s id => (s.evalBarrier uid t 2 id).evalBarrier uid t 3 id) s = s := by
    induction l with
    | nil => rfl
    | cons id l ih => rw [List.foldl_cons, hone, hone, ih]
  rw [State.evalBarriers, hteam, hcluster]

theorem mem_insertEntry {α : Type} (k : Nat) (v : α) : ∀ (l : List (Nat × α)) (e : Nat × α), e ∈ insertEntry k v l → e = (k, v) ∨ e ∈ l
  | [], e, he => .inl (List.mem_singleton.1 he)
  | (j, w) :: rest, e, he => by
    rw [insertEntry] at he
    split at he
    · obtain rfl | he := List.mem_cons.1 he
      · exact .inl rfl
      · exact .inr he
    · split at he
      · obtain rfl | he := List.mem_cons.1 he
        · exact .inl rfl
        · exact .inr (List.mem_cons_of_mem _ he)
      · obtain rfl | he := List.mem_cons.1 he
        · exact .inr (List.mem_cons_self ..)
        · exact (mem_insertEntry k v rest e he).imp_right (List.mem_cons_of_mem _)

theorem mem_of_findEntry {α : Type} (k : Nat) (v : α) : ∀ l : List (Nat × α), findEntry k l = some v → ∃ e ∈ l, e.2 = v
  | [], h => by cases h
  | (j, w) :: rest, h => by
    rw [findEntry] at h
    split at h
    · exact ⟨_, List.mem_cons_self .., Option.some.inj h⟩
    · obtain ⟨e, he, hv⟩ := mem_of_findEntry k v rest h
      exact ⟨e, List.mem_cons_of_mem _ he, hv⟩

theorem Ctx.noneAtBarrier_put {s : State} (h : s.noneAtBarrier) (x : Ctx) {g : Group} (hg : g.OffBarriers) : (x.put s g).noneAtBarrier := by
  intro e he
  obtain rfl | he := mem_insertEntry _ _ _ _ he
  · exact hg
  · exact h e he

theorem Ctx.offBarriers {s : State} {x : Ctx} (h : s.ctx = some x) (hn : s.noneAtBarrier) : x.g.OffBarriers := by
  obtain ⟨e, he, hv⟩ := mem_of_findEntry _ _ _ (State.ctx_eq_some h).2.1
  exact hv ▸ hn e he

/-- A fragment waits where f does, or at a join, or not at all. -/
def Fragment.WaitsLike (q f : Fragment) : Prop := q.saved = f.saved ∧ (q.wait = f.wait ∨ q.wait = .none ∨ ∃ lateral, q.wait = .join lateral)

theorem Fragment.WaitsLike.trans {p q f : Fragment} (h : p.WaitsLike q) (h' : q.WaitsLike f) : p.WaitsLike f := by
  obtain ⟨hs, hw | hw | hw⟩ := h
  · exact ⟨hs.trans h'.1, hw ▸ h'.2⟩
  · exact ⟨hs.trans h'.1, .inr (.inl hw)⟩
  · exact ⟨hs.trans h'.1, .inr (.inr hw)⟩

theorem Group.OffBarriers.of_waitsLike {g g' : Group} (h : g.OffBarriers) (hg : ∀ q ∈ g'.frags, ∃ f ∈ g.frags, q.WaitsLike f) :
    g'.OffBarriers := by
  intro q hq fn id
  obtain ⟨f, hf, hs, hw⟩ := hg q hq
  refine ⟨?_, by rw [hs]; exact (h f hf fn id).2⟩
  obtain hw | hw | ⟨_, hw⟩ := hw
  · rw [hw]
    exact (h f hf fn id).1
  · rw [hw]
    rfl
  · rw [hw]
    rfl

/-! ### Parking (R62) leaves the table alone -/

/-- Parking sets one of the two markers, so a field that neither of them is keeps its value. -/
theorem Group.park62_keeps {α : Type} (field : Group → α) (hmarker : ∀ g : Group, field { g with hmarker := true } = field g)
    (marker : ∀ g : Group, field { g with marker := true } = field g) (g : Group) (m : Bool) : field (g.park62 m) = field g := by
  unfold Group.park62
  split
  · split
    · exact hmarker g
    · exact marker g
  · rfl

@[simp] theorem Group.park62_frags (g : Group) (m : Bool) : (g.park62 m).frags = g.frags :=
  Group.park62_keeps (·.frags) (fun _ => rfl) (fun _ => rfl) g m
@[simp] theorem Group.park62_splits (g : Group) (m : Bool) : (g.park62 m).splits = g.splits :=
  Group.park62_keeps (·.splits) (fun _ => rfl) (fun _ => rfl) g m
@[simp] theorem Group.park62_spilled (g : Group) (m : Bool) : (g.park62 m).spilled = g.spilled :=
  Group.park62_keeps (·.spilled) (fun _ => rfl) (fun _ => rfl) g m
@[simp] theorem Group.park62_ptr (g : Group) (m : Bool) : (g.park62 m).ptr = g.ptr :=
  Group.park62_keeps (·.ptr) (fun _ => rfl) (fun _ => rfl) g m
@[simp] theorem Group.park62_handler (g : Group) (m : Bool) : (g.park62 m).handler = g.handler :=
  Group.park62_keeps (·.handler) (fun _ => rfl) (fun _ => rfl) g m

/-- The group with other fragments, another table and another pointer (R86, R88). -/
def Group.withTable (g : Group) (frags : List Fragment) (splits : List Split) (spilled : List (Nat × Split)) (ptr : Nat) : Group :=
  { g with frags := frags, splits := splits, spilled := spilled, ptr := ptr }

theorem Group.park62_withTable (g : Group) (m : Bool) (frags : List Fragment) (splits : List Split) (spilled : List (Nat × Split)) (ptr : Nat) :
    (g.park62 m).withTable frags splits spilled ptr = (g.withTable frags splits spilled ptr).park62 m := by
  unfold Group.park62
  show Group.withTable (if (m && !g.pend.isEmpty) = true then _ else _) _ _ _ _ = if (m && !g.pend.isEmpty) = true then _ else _
  split
  · show Group.withTable (if g.handler = true then _ else _) _ _ _ _ = if g.handler = true then _ else _
    split <;> rfl
  · rfl

/-! ### Live entries (R88) -/

theorem find?_eq_of_unique {α : Type} {p : α → Bool} {l : List α} {a : α} (ha : a ∈ l) (hp : p a = true)
    (hu : ∀ b ∈ l, p b = true → b = a) : l.find? p = some a := by
  cases hf : l.find? p with
  | none => exact absurd hp (List.find?_eq_none.1 hf a ha)
  | some b => rw [hu b (List.mem_of_find?_eq_some hf) (List.find?_some hf)]

theorem Group.entry_of_hasSplit {g : Group} {e : Split} (h : g.hasSplit e) : g.entry e.num = some e := by
  rw [Group.entry, Group.entries, List.find?_append,
    find?_eq_of_unique h.1 (decide_eq_true rfl) fun b hb hn => h.2 b hb (of_decide_eq_true hn)]
  rfl

theorem Group.innerOf_of_entry {g : Group} {f : Fragment} {e : Split} {n : Nat} (hi : f.inner = some n) (he : g.entry n = some e) :
    g.innerOf f = some e := by rw [Group.innerOf, hi, Option.bind_some, he]

theorem Group.num_of_innerOf {g : Group} {f : Fragment} {e : Split} (h : g.innerOf f = some e) : f.inner = some e.num ∧ e ∈ g.entries := by
  rw [Group.innerOf, Option.bind_eq_some_iff] at h
  obtain ⟨n, hi, he⟩ := h
  have hn := of_decide_eq_true (List.find?_some (p := fun e : Split => decide (e.num = n)) he)
  exact ⟨by rw [hi, hn], List.mem_of_find?_eq_some he⟩

/-! ### Joins that go on waiting (R93, R95) -/

theorem Group.findIdx?_joinDone_none {g : Group} (h : ∀ f ∈ g.frags, f.joins = true → ∃ e, g.innerOf f = some e ∧ e.reconvPc = f.pc) :
    g.frags.findIdx? g.joinDone = none := by
  rw [List.findIdx?_eq_none_iff]
  intro f hf
  rw [Group.joinDone]
  cases hj : f.joins with
  | false => rfl
  | true =>
    obtain ⟨e, he, hpc⟩ := h f hf hj
    simp [he, hpc]

/-- A fragment that waits at a `joinl` waits at a join. -/
theorem Fragment.joins_of_lateral {f : Fragment} (h : f.joinsLateral = true) : f.joins = true := by
  rw [Fragment.joins, beq_iff_eq.1 h]

/-- No two entries merge where all fragments at a `joinl` name one (R95). -/
theorem Group.lateralPair_none {g : Group} {n : Nat} (h : ∀ f ∈ g.frags, f.joins = true → f.inner = some n) : g.lateralPair = none := by
  have hnum (e : Split) (he : e ∈ (g.frags.filter (·.joinsLateral)).filterMap fun f =>
      match g.innerOf f with
      | some e => if e.reconvPc = f.pc then some e else none
      | none => none) : e.num = n := by
    obtain ⟨f, hf, hfe⟩ := List.mem_filterMap.1 he
    obtain ⟨hf, hl⟩ := List.mem_filter.1 hf
    split at hfe
    · next d hd =>
      split at hfe
      · rw [← Option.some.inj hfe]
        exact Option.some.inj ((g.num_of_innerOf hd).1.symm.trans (h f hf (Fragment.joins_of_lateral hl)))
      · cases hfe
    · cases hfe
  rw [Group.lateralPair]
  refine List.findSome?_eq_none_iff.2 fun a ha => List.findSome?_eq_none_iff.2 fun b hb => if_neg fun hab => ?_
  exact hab.1 ((hnum a ha).trans (hnum b hb).symm)

/-- The places of the fragments that wait at fragment f's join for the entry of number n (R93). -/
def Group.members (g : Group) (f : Fragment) (n : Nat) : List Nat :=
  (List.range g.frags.length).filter fun i => (g.frags[i]?.map fun h => h.joins && h.pc == f.pc && h.inner == some n).getD false

theorem Group.mem_members {g : Group} {f : Fragment} {n i : Nat} :
    i ∈ g.members f n ↔ ∃ h, g.frags[i]? = some h ∧ h.joins = true ∧ h.pc = f.pc ∧ h.inner = some n := by
  rw [Group.members, List.mem_filter, List.mem_range]
  cases hi : g.frags[i]? with
  | none => simp
  | some h =>
    have hlt := (List.getElem?_eq_some_iff.1 hi).1
    simp [hlt, and_assoc]

/-- The threads that listed fragments hold. -/
def Group.heldBy (g : Group) (ixs : List Nat) : Mask := ixs.foldl (fun m i => m ||| ((g.frags[i]?.map (·.threads)).getD 0)) 0

theorem Group.fusible_eq (g : Group) (f : Fragment) : g.fusible f =
    match g.innerOf f with
    | none => none
    | some e =>
      if f.joins && e.reconvPc == f.pc && e.mask &&& ~~~(g.heldBy (g.members f e.num)) == 0 then some (e, g.members f e.num) else none := rfl

theorem Group.fusible_of_passing {g : Group} {f : Fragment} (h : f.joins = false) : g.fusible f = none := by
  rw [Group.fusible_eq, h]
  split <;> rfl

theorem Group.fusible_of_spread {g : Group} {f : Fragment} {e : Split} (he : g.innerOf f = some e)
    (hs : e.mask &&& ~~~(g.heldBy (g.members f e.num)) ≠ 0) : g.fusible f = none := by
  rw [Group.fusible_eq, he]
  refine if_neg fun h => hs ?_
  simp only [Bool.and_eq_true, beq_iff_eq] at h
  exact h.2

theorem Group.fusible_of_covered {g : Group} {f : Fragment} {e : Split} (he : g.innerOf f = some e) (hj : f.joins = true)
    (hpc : e.reconvPc = f.pc) (hs : e.mask &&& ~~~(g.heldBy (g.members f e.num)) = 0) : g.fusible f = some (e, g.members f e.num) := by
  rw [Group.fusible_eq, he]
  refine if_pos ?_
  simp only [Bool.and_eq_true, beq_iff_eq]
  exact ⟨⟨hj, hpc⟩, hs⟩

/-- Lists of places that rise and have the same members are the same. -/
theorem eq_of_rising {l l' : List Nat} (h : l.Pairwise (· < ·)) (h' : l'.Pairwise (· < ·)) (hm : ∀ i, i ∈ l ↔ i ∈ l') : l = l' := by
  have hperm : l.Perm l' := (List.perm_ext_iff_of_nodup (h.imp fun hlt => Nat.ne_of_lt hlt) (h'.imp fun hlt => Nat.ne_of_lt hlt)).2 hm
  exact hperm.eq_of_pairwise (fun a b _ _ hab hba => absurd hab (Nat.lt_asymm hba)) h h'

theorem Group.members_rising (g : Group) (f : Fragment) (n : Nat) : (g.members f n).Pairwise (· < ·) :=
  List.pairwise_lt_range.filter _

theorem Group.members_one {g : Group} {f : Fragment} {n i : Nat} (hm : ∀ k, k ∈ g.members f n ↔ k = i) : g.members f n = [i] :=
  eq_of_rising (g.members_rising f n) (List.pairwise_singleton ..) fun k => (hm k).trans List.mem_singleton.symm

theorem Group.members_two {g : Group} {f : Fragment} {n i j : Nat} (hij : i < j) (hm : ∀ k, k ∈ g.members f n ↔ k = i ∨ k = j) :
    g.members f n = [i, j] := by
  refine eq_of_rising (g.members_rising f n) ?_ fun k => (hm k).trans (by simp)
  simp [hij]

theorem Group.heldBy_one {g : Group} {i : Nat} {f : Fragment} (h : g.frags[i]? = some f) : g.heldBy [i] = f.threads := by
  simp [Group.heldBy, h]

theorem Group.heldBy_two {g : Group} {i j : Nat} {f h : Fragment} (hf : g.frags[i]? = some f) (hh : g.frags[j]? = some h) :
    g.heldBy [i, j] = f.threads ||| h.threads := by
  simp [Group.heldBy, hf, hh]

/-! ### Turns of the joins' evaluation -/

/-- Nothing changes where no join is done, no entries merge and no fragments fuse. -/
theorem Ctx.evalJoins_of_quiet {x : Ctx} {w : Work} (hdone : w.g.frags.findIdx? w.g.joinDone = none)
    (hlat : x.launch.form = 0 → w.g.lateralPair = none) (hfus : ∀ f ∈ w.g.frags, w.g.fusible f = none) (n : Nat) :
    x.evalJoins (n + 1) w = .ok w := by
  have hlat' : (if x.launch.form = 0 then w.g.lateralPair else none) = none := by
    split
    · next h => exact hlat h
    · rfl
  rw [Ctx.evalJoins, hdone, hlat', List.findSome?_eq_none_iff.2 hfus]

theorem Ctx.evalJoins_done {x : Ctx} {w : Work} {i : Nat} {f : Fragment} (hdone : w.g.frags.findIdx? w.g.joinDone = some i)
    (hf : w.g.frags[i]? = some f) (n : Nat) :
    x.evalJoins (n + 1) w = x.evalJoins n { w with g := (w.g.setFrag i { f with wait := .none }).goto i (f.pc + 4) } := by
  rw [Ctx.evalJoins, hdone]
  simp only [hf]

theorem Ctx.evalJoins_fuse {x : Ctx} {w w₁ w₂ w₃ : Work} {e : Split} {ixs : List Nat} (hdone : w.g.frags.findIdx? w.g.joinDone = none)
    (hlat : w.g.lateralPair = none) (hfus : w.g.frags.findSome? w.g.fusible = some (e, ixs)) (hback : x.bringBack w e.num = .ok w₁)
    (hrel : x.release { w₁ with g := w₁.g.fuse e ixs } e = .ok w₂) (hall : x.releaseAll 64 w₂ = .ok w₃) (n : Nat) :
    x.evalJoins (n + 1) w = x.evalJoins n w₃ := by
  rw [Ctx.evalJoins, hdone, hlat, ite_self, hfus]
  simp only [hback, hrel, hall, bind, Except.bind]

theorem Ctx.releaseAll_of_none {x : Ctx} {w : Work} (h : ∀ e ∈ w.g.entries, w.g.releasable e = false) (n : Nat) :
    x.releaseAll n w = .ok w := by
  cases n with
  | zero => rfl
  | succ n => rw [Ctx.releaseAll, List.find?_eq_none.2 fun e he => by rw [h e he]; exact Bool.false_ne_true]

theorem Group.releasable_of_spread {g : Group} {e : Split} (hmask : e.mask ≠ 0) (h : ∀ f ∈ g.frags, e.spread f.threads) :
    g.releasable e = false := by
  rw [Group.releasable, beq_eq_false_iff_ne.2 hmask, Bool.false_or, List.any_eq_false]
  intro f hf
  simp only [Bool.and_eq_true, beq_iff_eq, not_and]
  exact fun _ => h f hf

theorem Split.mask_ne_zero_of_spread {e : Split} {T : Mask} (h : e.spread T) : e.mask ≠ 0 := by
  intro h0
  exact h (by rw [h0]; exact BitVec.zero_and)

end Sys2Proof.Machine
end

section
/-!
PROOFS. Spilled entries: the 32 bytes of one (R91), the slot they are written to and read back from, and the oldest entry (O15).
-/
namespace Sys2Proof.Machine

/-! ### Bytes at listed places -/

theorem Hod.afterWrite_reservation (h : Hod) (a n : Nat) :
    ∃ r : Bool, h.afterWrite a n = { h with reservation := if r then none else h.reservation } := by
  rw [Hod.afterWrite]
  split
  · split
    · exact ⟨true, rfl⟩
    · exact ⟨false, rfl⟩
  · exact ⟨false, rfl⟩

theorem State.onlyMemory_refl (s : State) : s.onlyMemory s :=
  ⟨rfl, fun k => ⟨false, by cases s.hods.find k <;> rfl⟩⟩

theorem State.onlyMemory.trans {s t u : State} (h : s.onlyMemory t) (h' : t.onlyMemory u) : s.onlyMemory u := by
  refine ⟨by rw [h'.1, h.1], fun k => ?_⟩
  obtain ⟨r, hr⟩ := h.2 k
  obtain ⟨r', hr'⟩ := h'.2 k
  refine ⟨r || r', ?_⟩
  rw [hr', hr, Option.map_map]
  congr 1
  funext q
  cases r <;> cases r' <;> rfl

theorem State.onlyMemory_storeBytes (s : State) (a : Nat) (b : List Byte) : s.onlyMemory (s.storeBytes a b) := by
  refine ⟨rfl, fun k => ?_⟩
  rw [State.storeBytes_hods, Map.find_mapValues]
  cases s.hods.find k with
  | none => exact ⟨false, rfl⟩
  | some q =>
    obtain ⟨r, hr⟩ := q.afterWrite_reservation a b.length
    exact ⟨r, congrArg some hr⟩

theorem State.onlyMemory_scatter : ∀ (l : List (Nat × Byte)) (s : State), s.onlyMemory (s.scatter l)
  | [], s => s.onlyMemory_refl
  | (a, b) :: rest, s => (s.onlyMemory_storeBytes a [b]).trans (State.onlyMemory_scatter rest _)

theorem State.byte_scatter_outside : ∀ (l : List (Nat × Byte)) (s : State), s.mem.wf = true → ∀ c, c ∉ l.map (·.1) →
    (s.scatter l).mem.byte c = s.mem.byte c
  | [], _, _, _, _ => rfl
  | (a, b) :: rest, s, hw, c, hc => by
    rw [List.map_cons, List.mem_cons, not_or] at hc
    exact (State.byte_scatter_outside rest _ (s.mem.wf_put a b hw) c hc.2).trans ((s.mem.byte_put hw a c b).trans (if_neg hc.1))

/-- What is written to distinct places is read back there. -/
theorem State.gather_scatter : ∀ (l : List (Nat × Byte)) (s : State), s.mem.wf = true → (l.map (·.1)).Nodup →
    (s.scatter l).gather (l.map (·.1)) = l.map (·.2)
  | [], _, _, _ => rfl
  | (a, b) :: rest, s, hw, hd => by
    rw [List.map_cons, List.nodup_cons] at hd
    have hw' := s.mem.wf_put a b hw
    have hfirst : ((s.storeBytes a [b]).scatter rest).mem.byte a = b :=
      (State.byte_scatter_outside rest (s.storeBytes a [b]) hw' a hd.1).trans ((s.mem.byte_put hw a a b).trans (if_pos rfl))
    have hrest := State.gather_scatter rest (s.storeBytes a [b]) hw' hd.2
    rw [State.gather] at hrest ⊢
    rw [List.map_cons, List.map_cons, List.map_cons, ← hrest]
    exact congrArg (· :: _) hfirst

/-! ### The bytes of an entry (R91) -/

theorem Split.bytes_length (e : Split) : e.bytes.length = 32 := by
  simp only [Split.bytes, List.length_append, leBytes_length]

/-- The number at an offset of a slot, read byte by byte. -/
theorem State.slot_field (s : State) {places : List Nat} (hl : places.length = 32) {off n : Nat} (hn : off + n ≤ 32) :
    leNat ((List.range n).map fun i => s.mem.byte (places.getD (off + i) 0)) = field (s.gather places) off n := by
  rw [field]
  congr 1
  refine List.ext_getElem? fun i => ?_
  rw [List.getElem?_map, List.getElem?_take, List.getElem?_drop, State.gather, List.getElem?_map]
  by_cases hi : i < n
  · have hlt : off + i < places.length := by omega
    rw [if_pos hi, List.getElem?_range hi, List.getElem?_eq_getElem hlt, Option.map_some, Option.map_some, List.getD_eq_getElem _ _ hlt]
  · rw [if_neg hi, List.getElem?_eq_none (by rw [List.length_range]; omega)]
    rfl

theorem State.slotHolds_iff (s : State) {places : List Nat} (hl : places.length = 32) (e : Split) : s.slotHolds places e ↔
    field (s.gather places) 0 16 = e.mask.toNat ∧ field (s.gather places) 16 4 = e.takenPc.toNat ∧
      field (s.gather places) 20 4 = e.fallPc.toNat ∧ field (s.gather places) 24 4 = e.reconvPc.toNat ∧
      field (s.gather places) 28 2 = e.num ∧ field (s.gather places) 30 2 = e.parent.getD 0xFFFF := by
  simp only [State.slotHolds, ← s.slot_field hl (by decide : 0 + 16 ≤ 32), ← s.slot_field hl (by decide : 16 + 4 ≤ 32),
    ← s.slot_field hl (by decide : 20 + 4 ≤ 32), ← s.slot_field hl (by decide : 24 + 4 ≤ 32),
    ← s.slot_field hl (by decide : 28 + 2 ≤ 32), ← s.slot_field hl (by decide : 30 + 2 ≤ 32)]

theorem Split.parent_lt {e : Split} (h : e.small) : e.parent.getD 0xFFFF < 65536 := by
  cases hp : e.parent with
  | none => decide
  | some p => exact Nat.lt_trans (h.2 p hp) (by decide)

/-- A slot that the bytes of an entry were written to holds it. -/
theorem State.slotHolds_of_gather {s : State} {places : List Nat} {e : Split} (hl : places.length = 32) (he : e.small)
    (hb : s.gather places = e.bytes) : s.slotHolds places e := by
  have hm : e.mask.toNat < 256 ^ 16 := Nat.lt_trans e.mask.isLt (by decide)
  have hn : e.num < 256 ^ 2 := Nat.lt_trans he.1 (by decide)
  rw [s.slotHolds_iff hl, hb, Split.bytes]
  simp only [List.append_assoc, field_leBytes_head, field_leBytes_skip, Nat.reduceLeDiff, Nat.reduceSub, field_leBytes]
  exact ⟨Nat.mod_eq_of_lt hm, Nat.mod_eq_of_lt e.takenPc.isLt, Nat.mod_eq_of_lt e.fallPc.isLt, Nat.mod_eq_of_lt e.reconvPc.isLt,
    Nat.mod_eq_of_lt hn, Nat.mod_eq_of_lt (Split.parent_lt he)⟩

/-- An entry is read back from the slot that holds it. -/
theorem Split.ofBytes_of_slotHolds {s : State} {places : List Nat} {e : Split} (hl : places.length = 32) (he : e.small)
    (h : s.slotHolds places e) : Split.ofBytes (s.gather places) e = e := by
  obtain ⟨hmask, htaken, hfall, hreconv, hnum, hparent⟩ := (s.slotHolds_iff hl e).1 h
  have hmask8 : field (s.gather places) 0 8 = e.mask.toNat := by
    have h16 : (field (s.gather places) 0 16) % 256 ^ 8 = field (s.gather places) 0 8 := by
      rw [field, ← leNat_take, List.take_take, field]
      rfl
    rw [← h16, hmask]
    exact Nat.mod_eq_of_lt e.mask.isLt
  have hp : (if field (s.gather places) 30 2 = 0xFFFF then none else some (field (s.gather places) 30 2)) = e.parent := by
    rw [hparent]
    cases hpar : e.parent with
    | none => rfl
    | some p => exact if_neg (Nat.ne_of_lt (he.2 p hpar))
  rw [Split.ofBytes, hmask8, htaken, hfall, hreconv, hnum, hp]
  simp only [BitVec.ofNat_toNat, BitVec.setWidth_eq]

/-! ### The oldest entry -/

theorem oldestOf_eq {l : List Split} {old : Split} (hm : old ∈ l) (ho : ∀ e ∈ l, e ≠ old → old.age < e.age) : oldestOf l = some old := by
  have hfold (rest : List Split) (a : Split) (hold : old = a ∨ old ∈ rest) (hall : ∀ e, e = a ∨ e ∈ rest → e ≠ old → old.age < e.age) :
      rest.foldl (fun a b => if b.age < a.age then b else a) a = old := by
    induction rest generalizing a with
    | nil => exact (hold.resolve_right (List.not_mem_nil)).symm
    | cons b rest ih =>
      rw [List.foldl_cons]
      by_cases hba : b.age < a.age
      · rw [if_pos hba]
        refine ih b ?_ fun e he => hall e (.inr (List.mem_cons.2 he))
        obtain rfl | hold := hold
        · by_cases hb : b = old
          · exact .inl hb.symm
          · exact absurd (hall b (.inr (List.mem_cons_self ..)) hb) (Nat.lt_asymm hba)
        · exact List.mem_cons.1 hold
      · rw [if_neg hba]
        refine ih a ?_ fun e he => hall e (he.imp_right (List.mem_cons_of_mem _))
        obtain hold | hold := hold
        · exact .inl hold
        · obtain rfl | hold := List.mem_cons.1 hold
          · by_cases ha : a = old
            · exact .inl ha.symm
            · exact absurd (hall a (.inl rfl) ha) hba
          · exact .inr hold
  cases l with
  | nil => cases hm
  | cons a rest => exact congrArg some (hfold rest a (List.mem_cons.1 hm) fun e he => ho e (List.mem_cons.2 he))

/-! ### Spilling and refilling (R91) -/

theorem Ctx.spillAddress_eq (x : Ctx) (slot : Nat) : x.spillAddress slot = x.slotAddress slot := by
  rw [Ctx.spillAddress, Ctx.slotAddress, Nat.mul_assoc]

theorem find?_range_eq {p : Nat → Bool} {n j : Nat} (hj : j < n) (hp : p j = true) (hlow : ∀ i, i < j → p i = false) :
    (List.range n).find? p = some j := by
  rw [List.find?_range_eq_some]
  exact ⟨hp, List.mem_range.2 hj, fun i hi => by rw [hlow i hi]; rfl⟩

/-- The oldest entry goes to the lowest free slot, and stands there. -/
theorem Ctx.spillOldest_eq {x : Ctx} {w : Work} {old : Split} {slot : Nat} {places : List Nat} (hw : w.s.mem.wf = true)
    (hold : old ∈ w.g.splits) (hsmall : old.small) (holdest : ∀ e ∈ w.g.splits, e ≠ old → old.age < e.age)
    (hslot : x.spillsTo w.s w.g.spilled slot places) : ∃ s₁, w.s.spilledTo s₁ places old ∧
      x.spillOldest w = .ok { w with
        s := s₁, g := { w.g with splits := w.g.splits.filter (·.num ≠ old.num), spilled := w.g.spilled ++ [(slot, old)] } } := by
  obtain ⟨hlt, hfree, hlow, hplaces, hdistinct, hlen⟩ := hslot
  have hfind : (List.range 64).find? (fun j => !w.g.spilled.any fun p => p.1 = j) = some slot := by
    refine find?_range_eq hlt ?_ fun i hi => ?_
    · rw [Bool.not_eq_true', List.any_eq_false]
      exact fun p hp => by simpa using hfree p hp
    · obtain ⟨p, hp, hpi⟩ := hlow i hi
      rw [Bool.not_eq_false', List.any_eq_true]
      exact ⟨p, hp, decide_eq_true hpi⟩
  have hzip : (places.zip old.bytes).map (·.1) = places := List.map_fst_zip (by rw [hlen, old.bytes_length])
  have hzip' : (places.zip old.bytes).map (·.2) = old.bytes := List.map_snd_zip (by rw [hlen, old.bytes_length])
  refine ⟨w.s.scatter (places.zip old.bytes), ⟨State.onlyMemory_scatter .., ?_, fun b hb => ?_⟩, ?_⟩
  · refine State.slotHolds_of_gather hlen hsmall ?_
    have hg := State.gather_scatter (places.zip old.bytes) w.s hw (by rwa [hzip])
    rwa [hzip, hzip'] at hg
  · exact State.byte_scatter_outside _ _ hw b (by rwa [hzip])
  · rw [Ctx.spillOldest, oldestOf_eq hold holdest]
    simp only [hfind, Option.getD_some, Ctx.writeSpill, old.bytes_length, x.spillAddress_eq, hplaces, bind, Except.bind, pure, Except.pure]

/-- The entry of the i-th place of the spill order comes back from the slot that holds it. -/
theorem Ctx.refill_eq {x : Ctx} {w : Work} {i slot : Nat} {e : Split} {places : List Nat} (hi : w.g.spilled[i]? = some (slot, e))
    (hplaces : x.spillPlaces w.s .read (x.slotAddress slot) 32 = .ok places) (hlen : places.length = 32) (hsmall : e.small)
    (hholds : w.s.slotHolds places e) (hclean : w.dirty = []) :
    x.refill w i = .ok { w with g := { w.g with splits := w.g.splits ++ [e], spilled := w.g.spilled.eraseIdx i } } := by
  rw [Ctx.refill, hi]
  simp only [x.spillAddress_eq, hplaces, bind, Except.bind, pure, Except.pure, hclean, List.contains_nil, Bool.false_eq_true, if_false,
    Split.ofBytes_of_slotHolds hlen hsmall hholds]

theorem Ctx.bringBack_of_resident {x : Ctx} {w : Work} {num : Nat} (h : ∀ p ∈ w.g.spilled, p.2.num ≠ num) :
    x.bringBack w num = .ok w := by
  rw [Ctx.bringBack, List.findIdx?_eq_none_iff.2 fun p hp => decide_eq_false (h p hp)]

/-- No slot is rewritten where no spilled entry's mask has changed. -/
theorem Ctx.rewriteMasks_of_clean {x : Ctx} {w : Work} (h : w.dirty = []) : x.rewriteMasks w = .ok w := by
  have hfold (l : List (Nat × Split)) : l.foldlM (fun (w : Work) (p : Nat × Split) =>
      if w.dirty.contains p.2.num then x.writeSpill w p.1 (leBytes 16 p.2.mask.toNat) else .ok w) w = .ok w := by
    induction l with
    | nil => rfl
    | cons p l ih =>
      rw [List.foldlM_cons, h, List.contains_nil, if_neg Bool.false_ne_true]
      exact ih
  exact hfold _

end Sys2Proof.Machine
end

section
/-!
PROOFS. Divergent branches (R88, R90, R91; O15).
-/
namespace Sys2Proof.Machine

/-! ### The number and the age of a new entry (R88) -/

/-- A free number is found, or every number that was tried is taken. -/
theorem Group.freeNumber_spec (g : Group) : ∀ fuel n, n ≤ 65535 →
    (g.freeNumber fuel n ≤ 0xFFFE ∧ ∀ e ∈ g.entries, e.num ≠ g.freeNumber fuel n) ∨
      ∀ k, k < fuel → (n + k) % 65535 ∈ g.entries.map (·.num)
  | 0, _, _ => .inr fun k hk => absurd hk (Nat.not_lt_zero k)
  | fuel + 1, n, hn => by
    have hwrap : (if 0xFFFE < n then 0 else n) = n % 65535 := by
      split <;> omega
    rw [Group.freeNumber, hwrap]
    have hlt : n % 65535 < 65535 := Nat.mod_lt _ (by decide)
    by_cases hused : g.entries.any (·.num = n % 65535)
    · rw [if_pos hused]
      refine (g.freeNumber_spec fuel (n % 65535 + 1) hlt).imp_right fun htried k hk => ?_
      cases k with
      | zero =>
        obtain ⟨e, he, hnum⟩ := List.any_eq_true.1 hused
        exact List.mem_map.2 ⟨e, he, of_decide_eq_true hnum⟩
      | succ k =>
        have hk' := htried k (Nat.lt_of_succ_lt_succ hk)
        rwa [show (n % 65535 + 1 + k) % 65535 = (n + (k + 1)) % 65535 by omega] at hk'
    · rw [if_neg hused]
      refine .inl ⟨Nat.le_of_lt_succ hlt, fun e he hnum => hused (List.any_eq_true.2 ⟨e, he, decide_eq_true hnum⟩)⟩

/-- With fewer than 128 live entries a free number is found (R88). -/
theorem Group.freeNumber_free (g : Group) (h : g.entries.length < 128) (n : Nat) :
    g.freeNumber 128 n ≤ 0xFFFE ∧ ∀ e ∈ g.entries, e.num ≠ g.freeNumber 128 n := by
  have hstart : g.freeNumber 128 n = g.freeNumber 128 (if 0xFFFE < n then 0 else n) := by
    by_cases hn : 0xFFFE < n
    · rw [if_pos hn, Group.freeNumber, if_pos hn]
      rfl
    · rw [if_neg hn]
  rw [hstart]
  refine (g.freeNumber_spec 128 _ (by split <;> omega)).resolve_right fun hall => ?_
  generalize (if 0xFFFE < n then 0 else n) = n' at hall
  have hsub : (Finset.range 128).image (fun k => (n' + k) % 65535) ⊆ (g.entries.map (·.num)).toFinset := by
    intro v hv
    obtain ⟨k, hk, rfl⟩ := Finset.mem_image.1 hv
    exact List.mem_toFinset.2 (hall k (Finset.mem_range.1 hk))
  have hcard : ((Finset.range 128).image fun k => (n' + k) % 65535).card = 128 := by
    rw [Finset.card_image_of_injOn, Finset.card_range]
    intro a ha b hb hab
    have ha' := Finset.mem_range.1 ha
    have hb' := Finset.mem_range.1 hb
    simp only at hab
    omega
  have hle := (Finset.card_le_card hsub).trans (List.toFinset_card_le _)
  rw [hcard, List.length_map] at hle
  omega

theorem foldl_max_age (l : List Split) : ∀ a, a ≤ l.foldl (fun a e => max a (e.age + 1)) a ∧
    ∀ e ∈ l, e.age < l.foldl (fun a e => max a (e.age + 1)) a := by
  induction l with
  | nil => exact fun a => ⟨Nat.le_refl a, fun e he => absurd he (List.not_mem_nil)⟩
  | cons q l ih =>
    intro a
    obtain ⟨hle, hall⟩ := ih (max a (q.age + 1))
    refine ⟨(Nat.le_max_left ..).trans hle, fun e he => ?_⟩
    obtain rfl | he := List.mem_cons.1 he
    · exact Nat.lt_of_succ_le ((Nat.le_max_right ..).trans hle)
    · exact hall e he

/-- The entry that a split makes once there is room for it. -/
theorem Ctx.newEntry_eq {x : Ctx} {s : State} {taken fall reconv : W32} {w : Work}
    (hroom : (if 16 ≤ x.g.splits.length then x.spillOldest ⟨s, x.g, []⟩ else .ok ⟨s, x.g, []⟩) = .ok w) (hlen : w.g.entries.length < 128) :
    ∃ num age, num ≤ 0xFFFE ∧ (∀ e ∈ w.g.entries, e.num ≠ num ∧ e.age < age) ∧ x.newEntry s taken fall reconv =
      .ok ({ w with g := { w.g with
        splits := w.g.splits ++ [⟨x.f.threads, taken, fall, reconv, num, x.f.inner, age⟩], nextSplit := num + 1 } }, num) := by
  obtain ⟨hnum, hfree⟩ := w.g.freeNumber_free hlen w.g.nextSplit
  refine ⟨_, _, hnum, fun e he => ⟨hfree e he, (foldl_max_age w.g.entries 0).2 e he⟩, ?_⟩
  rw [Ctx.newEntry]
  simp only [bind, Except.bind, pure, Except.pure]
  by_cases hfull : 16 ≤ x.g.splits.length
  · rw [if_pos hfull] at hroom ⊢
    rw [hroom]
  · rw [if_neg hfull] at hroom ⊢
    cases hroom
    rfl

/-! ### The branch -/

section
variable {s : State} {x : Ctx} (h : s.ctx = some x)
include h

theorem exec_bdiv_of_legal (hh : x.g.handler = false) (hl : x.f.looping = false) (m : Bool) (k : Nat) (o : BitVec 21) (reconv : W32)
    (ht : x.legal (x.wordsAway o.toInt)) : exec (.bdiv m k o reconv) s =
      if x.f.k0 &&& x.mask k = 0 then x.done s x.g m 2
      else if x.f.k0 &&& ~~~x.mask k = 0 then
        x.moveTo s (x.g.setFrag x.frag { x.f with k0 := x.f.k0 &&& x.mask k }) m (x.wordsOn o.toInt)
      else
        match x.newEntry s (x.wordsOn o.toInt) (x.wordsOn 2) (x.wordsOn reconv.toNat) with
        | .error e => x.spillDenied s e
        | .ok (w, num) => .next (x.put w.s ((w.g.divide x.frag x.f (x.f.k0 &&& x.mask k) (x.f.k0 &&& ~~~x.mask k) (x.wordsOn o.toInt)
            (x.wordsOn 2) num).park62 m)) := by
  have hreach : x.reaches (x.offset o.toInt) = true := (reaches_iff ..).2 ht
  have hbody : x.inBody = false := inBody_eq_false (.inl hl)
  refine (onFrag_of h _).trans ((if_neg (by rw [hreach]; exact Bool.false_ne_true)).trans
    ((if_neg (by rw [hh, hbody]; exact Bool.false_ne_true)).trans ?_))
  rw [asPc_offset, asPc_offset, show x.after 2 = x.wordsOn 2 from after_eq x 2] <;> rfl

theorem claim_bdivResult (hh : x.g.handler = false) (hl : x.f.looping = false) (m : Bool) (k : Nat) (o : BitVec 21) (reconv : W32)
    (ht : x.legal (x.wordsAway o.toInt)) :
    let T := x.f.k0 &&& x.mask k
    let N := x.f.k0 &&& ~~~x.mask k
    (T = 0 → exec (.bdiv m k o reconv) s = .next (x.put s (x.goesTo x.g m (x.wordsOn 2)))) ∧
    (T ≠ 0 → N = 0 → exec (.bdiv m k o reconv) s = .next (x.put s (Group.park62
      { x.g with frags := x.g.frags.set x.frag { x.f with k0 := T, pc := x.wordsOn o.toInt } } m))) := by
  have hf := (State.ctx_eq_some h).2.2.1
  refine ⟨fun h0 => ?_, fun h0 h1 => ?_⟩
  · rw [exec_bdiv_of_legal h hh hl m k o reconv ht, if_pos h0, Ctx.done_eq_moveTo hf, Ctx.moveTo,
      Group.move_of_plain hf (by rw [hl]; rfl)]
    rfl
  · have hset := getElem?_set_self hf { x.f with k0 := x.f.k0 &&& x.mask k }
    rw [exec_bdiv_of_legal h hh hl m k o reconv ht, if_neg h0, if_pos h1, Ctx.moveTo, Group.move,
      Group.gotoStep_eq (g := x.g.setFrag x.frag _) hset]
    simp only [hl, Bool.false_and, Bool.false_eq_true, if_false, Group.setFrag, List.set_set]

/-- A branch whose threads diverge, where w is the table with room for the new entry (R90). -/
theorem exec_bdiv_divides (hh : x.g.handler = false) (hl : x.f.looping = false) (m : Bool) (k : Nat) (o : BitVec 21) (reconv : W32)
    (ht : x.legal (x.wordsAway o.toInt)) (h0 : x.f.k0 &&& x.mask k ≠ 0) (h1 : x.f.k0 &&& ~~~x.mask k ≠ 0) {w : Work}
    (hroom : (if 16 ≤ x.g.splits.length then x.spillOldest ⟨s, x.g, []⟩ else .ok ⟨s, x.g, []⟩) = .ok w) (hlen : w.g.entries.length < 128) :
    ∃ num age, num ≤ 0xFFFE ∧ (∀ e ∈ w.g.entries, e.num ≠ num ∧ e.age < age) ∧
      exec (.bdiv m k o reconv) s = .next (x.put w.s ((Group.divide { w.g with
          splits := w.g.splits ++ [⟨x.f.threads, x.wordsOn o.toInt, x.wordsOn 2, x.wordsOn reconv.toNat, num, x.f.inner, age⟩]
          nextSplit := num + 1 } x.frag x.f (x.f.k0 &&& x.mask k) (x.f.k0 &&& ~~~x.mask k) (x.wordsOn o.toInt)
        (x.wordsOn 2) num).park62 m)) := by
  obtain ⟨num, age, hnum, hall, hnew⟩ := Ctx.newEntry_eq (x := x) (taken := x.wordsOn o.toInt) (fall := x.wordsOn 2)
    (reconv := x.wordsOn reconv.toNat) hroom hlen
  refine ⟨num, age, hnum, hall, ?_⟩
  rw [exec_bdiv_of_legal h hh hl m k o reconv ht, if_neg h0, if_neg h1, hnew]

end

theorem bdivResult : Sys2Proof.Claims.BdivResult := by
  intro s x m k o reconv h hh hl ht
  obtain ⟨hfall, htaken⟩ := claim_bdivResult h hh hl m k o reconv ht
  refine ⟨hfall, htaken, fun h0 h1 hlen hlive => ?_⟩
  obtain ⟨num, age, hnum, hall, hexec⟩ := exec_bdiv_divides h hh hl m k o reconv ht h0 h1 (w := ⟨s, x.g, []⟩)
    (if_neg (Nat.not_le.2 hlen)) (Nat.lt_trans hlive (by decide))
  exact ⟨num, age, _, hnum, hall, hexec⟩

theorem bdivSpills : Sys2Proof.Claims.BdivSpills := by
  intro s x m k o reconv old slot places h hh hl ht hw h0 h1 hlen hlive hold hsmall holdest hslot
  obtain ⟨s₁, hspilled, hspill⟩ := Ctx.spillOldest_eq (w := ⟨s, x.g, []⟩) hw hold.1 hsmall holdest hslot
  have hmem (e : Split) (he : e ∈ x.g.entries) :
      e ∈ (x.g.splits.filter (·.num ≠ old.num)) ++ (x.g.spilled ++ [(slot, old)]).map (·.2) := by
    simp only [List.mem_append, List.mem_filter, List.map_append, List.map_cons, List.map_nil, List.mem_singleton]
    obtain he | he := List.mem_append.1 he
    · by_cases hn : e.num = old.num
      · exact .inr (.inr (hold.2 e he hn))
      · exact .inl ⟨he, decide_eq_true hn⟩
    · exact .inr (.inl he)
  have hlen' : ((x.g.splits.filter (·.num ≠ old.num)) ++ (x.g.spilled ++ [(slot, old)]).map (·.2)).length < 128 := by
    have hfil := List.length_filter_le (fun e : Split => decide (e.num ≠ old.num)) x.g.splits
    rw [Group.entries, List.length_append, List.length_map] at hlive
    simp only [List.length_append, List.length_map, List.length_cons, List.length_nil]
    omega
  obtain ⟨num, age, hnum, hall, hexec⟩ := exec_bdiv_divides h hh hl m k o reconv ht h0 h1 ((if_pos hlen.ge).trans hspill) hlen'
  exact ⟨s₁, num, age, _, hspilled, hnum, fun e he => hall e (hmem e he), hexec⟩

end Sys2Proof.Machine
end

section
/-!
PROOFS. Joins: fragments that wait, fuse, or merge their entries, and spilled entries that come back (R91, R93, R95; O15).
-/
namespace Sys2Proof.Machine

/-! ### Lists -/

theorem findSome?_eq_of_agree {α β : Type} {f : α → Option β} {l : List α} {r : β} (hall : ∀ a ∈ l, f a = none ∨ f a = some r) {a : α}
    (ha : a ∈ l) (hr : f a = some r) : l.findSome? f = some r := by
  induction l with
  | nil => cases ha
  | cons b l ih =>
    rw [List.findSome?_cons]
    obtain hb | hb := hall b (List.mem_cons_self ..)
    · rw [hb]
      obtain rfl | ha := List.mem_cons.1 ha
      · rw [hr] at hb
        cases hb
      · exact ih (fun c hc => hall c (List.mem_cons_of_mem _ hc)) ha
    · rw [hb]

/-- Changing the fragments all over, setting one and erasing a later one commute; what stood in their places before does not count. -/
theorem set_map_eraseIdx {α : Type} (u : α → α) (l : List α) {lo hi k : Nat} (hlt : lo < hi) (hk : k = lo ∨ k = hi) (a b c : α) :
    ((((l.set k a).set lo b).eraseIdx hi).map u).set lo c = ((l.map u).set lo c).eraseIdx hi := by
  refine List.ext_getElem? fun i => ?_
  simp only [List.getElem?_set, List.getElem?_eraseIdx, List.getElem?_map, List.length_map, List.length_set, List.length_eraseIdx]
  obtain h | h | h := Nat.lt_trichotomy lo i
  · have h1 : lo ≠ i := Nat.ne_of_lt h
    have h2 : lo ≠ i + 1 := by omega
    by_cases hi' : i < hi
    · have h3 : k ≠ i := by omega
      simp [h1, hi', h3]
    · have h3 : k ≠ i + 1 := by omega
      simp [h1, h2, hi', h3]
  · subst h
    simp only [hlt, if_true]
    by_cases hl : hi < l.length
    · have h4 : lo < l.length - 1 := by omega
      have h5 : lo < l.length := by omega
      simp [hl, h4, h5]
    · simp [hl]
  · have h1 : lo ≠ i := Nat.ne_of_gt h
    have h2 : i < hi := h.trans hlt
    have h3 : k ≠ i := by omega
    simp [h1, h2, h3]

/-! ### Fragments that arrive at a join -/

/-- The fragments once the one that acts waits at a join. -/
def Ctx.atJoin (x : Ctx) (lateral : Bool) : List Fragment := x.g.frags.set x.frag { x.f with wait := .join lateral }

theorem exec_join_eq (m lateral : Bool) (s : State) :
    exec (if lateral then Instr.joinl m else Instr.join m) s = joinAt m lateral s := by cases lateral <;> rfl

theorem Fragment.joins_of_wait {f : Fragment} {lateral : Bool} (h : f.wait = .join lateral) : f.joins = true := by rw [Fragment.joins, h]

section
variable {s : State} {x : Ctx} (h : s.ctx = some x)
include h

theorem Ctx.getElem?_atJoin (lateral : Bool) (i : Nat) :
    (x.atJoin lateral)[i]? = if i = x.frag then some { x.f with wait := .join lateral } else x.g.frags[i]? := by
  have hf := (State.ctx_eq_some h).2.2.1
  by_cases hi : i = x.frag
  · rw [if_pos hi, hi]
    exact getElem?_set_self hf _
  · rw [if_neg hi]
    exact List.getElem?_set_ne fun hc => hi hc.symm

theorem Ctx.waitsLike_atJoin (lateral : Bool) (q : Fragment) (hq : q ∈ x.atJoin lateral) : ∃ f ∈ x.g.frags, q.WaitsLike f := by
  obtain ⟨i, hi⟩ := List.mem_iff_getElem?.1 hq
  rw [Ctx.getElem?_atJoin h] at hi
  split at hi
  · exact ⟨x.f, List.mem_of_getElem? (State.ctx_eq_some h).2.2.1, by rw [← Option.some.inj hi]; exact ⟨rfl, .inr (.inr ⟨_, rfl⟩)⟩⟩
  · exact ⟨q, List.mem_of_getElem? hi, rfl, .inl rfl⟩

/-- A join at which the fragment's innermost entry reconverges: w₀ has that entry resident, w₁ is what the joins come to. -/
theorem exec_join_of_here (hh : x.g.handler = false) (hl : x.f.looping = false) (hn : s.noneAtBarrier) (m lateral : Bool) {e : Split}
    {w₀ w₁ : Work} (hi : x.f.inner = some e.num) (hpc : e.reconvPc = x.f.pc) (hback : x.bringBack ⟨s, x.g, []⟩ e.num = .ok w₀)
    (hent : w₀.g.entry e.num = some e)
    (heval : x.evalJoins 256 { w₀ with g := (w₀.g.setFrag x.frag { x.f with wait := .join lateral }).park62 m } = .ok w₁)
    (hclean : w₁.dirty = []) (hgroups : w₁.s.groups = s.groups) (hlike : ∀ q ∈ w₁.g.frags, ∃ f ∈ x.g.frags, q.WaitsLike f) :
    exec (if lateral then Instr.joinl m else Instr.join m) s = .next (x.put w₁.s w₁.g) := by
  have hn₁ : (x.put w₁.s w₁.g).noneAtBarrier := by
    refine Ctx.noneAtBarrier_put (fun e he => hn e (hgroups ▸ he)) x ?_
    exact (Ctx.offBarriers h hn).of_waitsLike hlike
  have hhere : (w₀.g.innerOf x.f).any (fun (e : Split) => e.reconvPc = x.f.pc) = true := by
    rw [Group.innerOf_of_entry hi hent, Option.any_some, hpc]
    exact decide_eq_true rfl
  rw [exec_join_eq]
  refine (onFrag_of h _).trans ((if_neg (by rw [inBody_eq_false (.inl hl)]; exact Bool.false_ne_true)).trans ?_)
  generalize ({ x.f with wait := .join lateral } : Fragment) = f' at heval ⊢
  simp only [hi, hback, hhere, if_true, bind, Except.bind, hh, Bool.not_false, Bool.and_self, heval, Ctx.rewriteMasks_of_clean hclean]
  rw [State.evalBarriers_of_noneAtBarrier hn₁]

/-- A join that does not concern the fragment. -/
theorem exec_join_of_elsewhere (hl : x.f.looping = false) (hsp : x.g.spilled = []) (hn : s.noneAtBarrier)
    (m lateral : Bool) (hpc : ∀ e, x.g.innerOf x.f = some e → e.reconvPc ≠ x.f.pc) :
    exec (if lateral then Instr.joinl m else Instr.join m) s = .next (x.put s (x.goesTo x.g m (x.wordsOn 1))) := by
  have hf := (State.ctx_eq_some h).2.2.1
  have hadv : x.g.advance x.frag m 1 = x.goesTo x.g m (x.wordsOn 1) := by
    rw [Group.advance, hf]
    refine (Group.move_of_plain hf (by rw [hl]; rfl) m _).trans ?_
    rw [show x.wordsOn 1 = x.f.pc + BitVec.ofNat 32 (4 * 1) from (after_eq x 1).symm]
  have hn₁ : (x.put s (x.goesTo x.g m (x.wordsOn 1))).noneAtBarrier := by
    refine Ctx.noneAtBarrier_put hn x ((Ctx.offBarriers h hn).of_waitsLike fun q hq => ?_)
    rw [Ctx.goesTo, Group.park62_frags] at hq
    obtain hq | rfl := List.mem_or_eq_of_mem_set hq
    · exact ⟨q, hq, rfl, .inl rfl⟩
    · exact ⟨x.f, List.mem_of_getElem? hf, rfl, .inl rfl⟩
  have hback (num : Nat) : x.bringBack ⟨s, x.g, []⟩ num = .ok ⟨s, x.g, []⟩ :=
    Ctx.bringBack_of_resident fun p hp => absurd hp (by rw [hsp]; exact List.not_mem_nil)
  have hhere : (x.g.innerOf x.f).any (fun (e : Split) => e.reconvPc = x.f.pc) = false := by
    cases he : x.g.innerOf x.f with
    | none => rfl
    | some e => exact decide_eq_false (hpc e he)
  rw [exec_join_eq]
  refine (onFrag_of h _).trans ((if_neg (by rw [inBody_eq_false (.inl hl)]; exact Bool.false_ne_true)).trans ?_)
  have hclean : x.rewriteMasks ⟨s, x.goesTo x.g m (x.wordsOn 1), []⟩ = .ok ⟨s, x.goesTo x.g m (x.wordsOn 1), []⟩ :=
    Ctx.rewriteMasks_of_clean rfl
  cases x.f.inner <;>
    simp only [bind, Except.bind, hback, hhere, Bool.false_eq_true, if_false, Bool.false_and, hadv, hclean,
      State.evalBarriers_of_noneAtBarrier hn₁]

/-! ### One fragment waits -/

theorem Ctx.joins_atJoin {lateral : Bool} {l : List Nat} (hno : x.g.noOtherJoins (x.frag :: l)) {i : Nat} {f : Fragment}
    (hi : (x.atJoin lateral)[i]? = some f) (hj : f.joins = true) :
    i = x.frag ∧ f = { x.f with wait := .join lateral } ∨ i ∈ l ∧ i ≠ x.frag ∧ x.g.frags[i]? = some f := by
  rw [Ctx.getElem?_atJoin h] at hi
  split at hi
  · next hx => exact .inl ⟨hx, (Option.some.inj hi).symm⟩
  · next hx =>
    refine .inr ⟨?_, hx, hi⟩
    by_contra hl
    rw [hno i f hi (by simp [hx, hl])] at hj
    cases hj

/-- The fragment that arrives waits while threads of its entry are elsewhere and no other fragment waits at a join (R93). -/
theorem Ctx.evalJoins_waits {lateral : Bool} {w : Work} {e : Split} (hfr : w.g.frags = x.atJoin lateral) (hent : w.g.entry e.num = some e)
    (hi : x.f.inner = some e.num) (hpc : e.reconvPc = x.f.pc) (hspread : e.spread x.f.threads) (hno : x.g.noOtherJoins [x.frag]) (n : Nat) :
    x.evalJoins (n + 1) w = .ok w := by
  have hat : w.g.frags[x.frag]? = some { x.f with wait := .join lateral } := by rw [hfr, Ctx.getElem?_atJoin h, if_pos rfl]
  have honly (i : Nat) (f : Fragment) (hf : w.g.frags[i]? = some f) (hj : f.joins = true) :
      i = x.frag ∧ f = { x.f with wait := .join lateral } :=
    (Ctx.joins_atJoin h hno (hfr ▸ hf) hj).resolve_right fun hc => absurd hc.1 (List.not_mem_nil)
  have harrives (f : Fragment) (hf : f ∈ w.g.frags) (hj : f.joins = true) : f = { x.f with wait := .join lateral } := by
    obtain ⟨i, hi⟩ := List.mem_iff_getElem?.1 hf
    exact (honly i f hi hj).2
  have hinner : w.g.innerOf { x.f with wait := .join lateral } = some e := Group.innerOf_of_entry hi hent
  refine Ctx.evalJoins_of_quiet (Group.findIdx?_joinDone_none fun f hf hj => ?_) (fun _ => Group.lateralPair_none (n := e.num) fun f hf hj => ?_)
    (fun f hf => ?_) n
  · rw [harrives f hf hj]
    exact ⟨e, hinner, hpc⟩
  · rw [harrives f hf hj]
    exact hi
  · by_cases hj : f.joins = true
    · rw [harrives f hf hj]
      refine Group.fusible_of_spread hinner ?_
      rw [Group.members_one (i := x.frag) fun k => ?_, Group.heldBy_one hat]
      · exact hspread
      · rw [Group.mem_members]
        refine ⟨fun ⟨q, hq, hqj, _⟩ => (honly k q hq hqj).1, ?_⟩
        rintro rfl
        exact ⟨_, hat, rfl, rfl, hi⟩
    · exact Group.fusible_of_passing (Bool.eq_false_iff.2 hj)

end

/-! ### Two fragments fuse (R93) -/

/-- Fragment f once it holds all of an entry's threads, with those of h among them. -/
def Fragment.fused (f h : Fragment) (e : Split) : Fragment :=
  { f with threads := e.mask, k0 := (f.k0 ||| h.k0) &&& e.mask, inner := e.parent }

theorem Group.fuse_two {g : Group} {i j : Nat} {f h : Fragment} (hf : g.frags[i]? = some f) (hh : g.frags[j]? = some h) (e : Split) :
    g.fuse e [i, j] = (g.setFrag i (f.fused h e)).removeFrag j := by
  simp [Group.fuse, hf, hh, Fragment.fused]

theorem Split.above_parent (e : Split) : e.above e.parent = e.parent := ite_self ..

theorem Group.dropEntry_frags (g : Group) (e : Split) : (g.dropEntry e).frags = g.frags.map fun f => { f with inner := e.above f.inner } := rfl

/-- Fragments that wait at no join go on waiting for what they wait for. -/
theorem Ctx.evalJoins_of_passing {x : Ctx} {w : Work} (h : ∀ f ∈ w.g.frags, f.joins = false) (n : Nat) : x.evalJoins (n + 1) w = .ok w := by
  have hno (f : Fragment) (hf : f ∈ w.g.frags) (hj : f.joins = true) : False := by
    rw [h f hf] at hj
    cases hj
  exact Ctx.evalJoins_of_quiet (Group.findIdx?_joinDone_none fun f hf hj => (hno f hf hj).elim)
    (fun _ => Group.lateralPair_none (n := 0) fun f hf hj => (hno f hf hj).elim) (fun f hf => Group.fusible_of_passing (h f hf)) n

/-- The group in which the fused fragment, in the place of f, has gone on past the join. -/
def Group.joined (g : Group) (lo : Nat) (f h : Fragment) (e : Split) : Group :=
  { g with frags := g.frags.set lo { f.fused h e with wait := .none, pc := f.pc + 4 } }

section
variable {x : Ctx} {w : Work} {e : Split} {lo hi : Nat} {f h : Fragment} (hlo : w.g.frags[lo]? = some f) (hhi : w.g.frags[hi]? = some h)
  (hlt : lo < hi) (hjf : f.joins = true) (hjh : h.joins = true) (hif : f.inner = some e.num) (hih : h.inner = some e.num)
  (hpcf : f.pc = e.reconvPc) (hpch : h.pc = e.reconvPc) (hno : w.g.noOtherJoins [lo, hi]) (hent : w.g.entry e.num = some e)
include hlo hhi hjf hjh hif hih hpcf hpch hno hent

omit hjf hjh hif hih hpcf hpch hent in
theorem Group.joins_at_two {q : Fragment} (hq : q ∈ w.g.frags) (hj : q.joins = true) : q = f ∨ q = h := by
  obtain ⟨i, hi'⟩ := List.mem_iff_getElem?.1 hq
  by_cases h1 : i = lo
  · rw [h1, hlo] at hi'
    exact .inl (Option.some.inj hi').symm
  · by_cases h2 : i = hi
    · rw [h2, hhi] at hi'
      exact .inr (Option.some.inj hi').symm
    · rw [hno i q hi' (by simp [h1, h2])] at hj
      cases hj

omit hent in
include hlt in
theorem Group.members_at_two {q : Fragment} (hq : q = f ∨ q = h) : w.g.members q e.num = [lo, hi] := by
  have hpcq : q.pc = e.reconvPc := by
    obtain rfl | rfl := hq
    · exact hpcf
    · exact hpch
  refine Group.members_two hlt fun k => ?_
  rw [Group.mem_members]
  constructor
  · rintro ⟨p, hp, hpj, -⟩
    by_contra hk
    rw [hno k p hp (by simpa using hk)] at hpj
    cases hpj
  · rintro (rfl | rfl)
    · exact ⟨f, hlo, hjf, hpcf.trans hpcq.symm, hif⟩
    · exact ⟨h, hhi, hjh, hpch.trans hpcq.symm, hih⟩

include hlt in
/-- Two fragments that hold all of an entry fuse, and the fused one goes on, where w₂ is the table without the entry (R89, R93). -/
theorem Ctx.evalJoins_fusion (hall : e.mask &&& ~~~(f.threads ||| h.threads) = 0) (hplain : f.looping = false)
    (hres : ∀ p ∈ w.g.spilled, p.2.num ≠ e.num) {w₂ : Work} (hrel : x.release { w with g := w.g.fuse e [lo, hi] } e = .ok w₂)
    (hfr : w₂.g.frags = ((w.g.frags.set lo (f.fused h e)).eraseIdx hi).map fun q => { q with inner := e.above q.inner })
    (hkeep : ∀ q ∈ w₂.g.entries, q.mask ≠ 0 ∧ ∀ p ∈ w₂.g.frags, q.spread p.threads)
    (hup : ∀ q ∈ w₂.g.entries, e.parent = some q.num → q.reconvPc ≠ e.reconvPc) (n : Nat) :
    x.evalJoins (n + 3) w = .ok { w₂ with g := w₂.g.joined lo f h e } := by
  have hinner (q : Fragment) (hq : q = f ∨ q = h) : w.g.innerOf q = some e := by
    obtain rfl | rfl := hq
    · exact Group.innerOf_of_entry hif hent
    · exact Group.innerOf_of_entry hih hent
  have hpc (q : Fragment) (hq : q = f ∨ q = h) : e.reconvPc = q.pc := by
    obtain rfl | rfl := hq
    · exact hpcf.symm
    · exact hpch.symm
  have htwo {q : Fragment} (hq : q ∈ w.g.frags) (hj : q.joins = true) :=
    Group.joins_at_two hlo hhi hno hq hj
  have hmem {q : Fragment} (hq : q = f ∨ q = h) := Group.members_at_two hlo hhi hlt hjf hjh hif hih hpcf hpch hno hq
  have hfus (q : Fragment) (hq : q = f ∨ q = h) (hj : q.joins = true) : w.g.fusible q = some (e, [lo, hi]) := by
    rw [Group.fusible_of_covered (hinner q hq) hj (hpc q hq), hmem hq]
    rw [hmem hq, Group.heldBy_two hlo hhi]
    exact hall
  -- the fused fragment stands at lo, and the others pass
  have hat : w₂.g.frags[lo]? = some (f.fused h e) := by
    have hlen := (List.getElem?_eq_some_iff.1 hlo).1
    rw [hfr, List.getElem?_map, List.getElem?_eraseIdx_of_lt hlt, List.getElem?_set_self hlen, Option.map_some]
    exact congrArg some (by rw [Fragment.fused, Split.above_parent])
  have hother (i : Nat) (q : Fragment) (hq : w₂.g.frags[i]? = some q) (hi : i ≠ lo) : q.joins = false := by
    rw [hfr, List.getElem?_map, Option.map_eq_some_iff] at hq
    obtain ⟨p, hp, rfl⟩ := hq
    rw [List.getElem?_eraseIdx] at hp
    split at hp
    · next hlt' =>
      rw [List.getElem?_set_ne fun hc => hi hc.symm] at hp
      exact hno i p hp (by simp [hi]; omega)
    · next hge =>
      rw [List.getElem?_set_ne (by omega)] at hp
      exact hno (i + 1) p hp (by simp; omega)
  have hdone : w₂.g.frags.findIdx? w₂.g.joinDone = some lo := by
    have hlen := (List.getElem?_eq_some_iff.1 hat).1
    rw [List.findIdx?_eq_some_iff_getElem]
    refine ⟨hlen, ?_, fun i hi => ?_⟩
    · rw [(List.getElem?_eq_some_iff.1 hat).2, Group.joinDone, show (f.fused h e).joins = true from hjf]
      rw [Bool.true_and, Bool.not_eq_true', Option.any_eq_false]
      intro q hq
      obtain ⟨hnum, hqm⟩ := Group.num_of_innerOf hq
      exact decide_eq_false fun hc => hup q hqm hnum (hc.trans hpcf)
    · rw [Group.joinDone, hother i _ (List.getElem?_eq_getElem (hi.trans hlen)) (Nat.ne_of_lt hi)]
      exact Bool.false_ne_true
  rw [Ctx.evalJoins_fuse (w₁ := w) (w₂ := w₂) (w₃ := w₂) (e := e) (ixs := [lo, hi])]
  · rw [Ctx.evalJoins_done hdone hat]
    have hgo : (w₂.g.setFrag lo { f.fused h e with wait := .none }).goto lo ((f.fused h e).pc + 4) = w₂.g.joined lo f h e := by
      have hlen := (List.getElem?_eq_some_iff.1 hat).1
      rw [Group.goto_of_plain _ _ { f.fused h e with wait := .none } _ (List.getElem?_set_self hlen)
        (by rw [show ({ f.fused h e with wait := .none } : Fragment).looping = false from hplain]; rfl)]
      rw [Group.setFrag, List.set_set]
      rfl
    rw [hgo]
    refine Ctx.evalJoins_of_passing (fun q hq => ?_) n
    obtain ⟨i, hi⟩ := List.mem_iff_getElem?.1 hq
    by_cases hil : i = lo
    · have hlen := (List.getElem?_eq_some_iff.1 hat).1
      rw [hil, Group.joined, List.getElem?_set_self hlen] at hi
      rw [← Option.some.inj hi]
      rfl
    · rw [Group.joined, List.getElem?_set_ne fun hc => hil hc.symm] at hi
      exact hother i q hi hil
  · exact Group.findIdx?_joinDone_none fun q hq hj => ⟨e, hinner q (htwo hq hj), hpc q (htwo hq hj)⟩
  · refine Group.lateralPair_none (n := e.num) fun q hq hj => ?_
    exact (Group.num_of_innerOf (hinner q (htwo hq hj))).1
  · refine findSome?_eq_of_agree (fun q hq => ?_) (List.mem_of_getElem? hlo) (hfus f (.inl rfl) hjf)
    by_cases hj : q.joins = true
    · exact .inr (hfus q (htwo hq hj) hj)
    · exact .inl (Group.fusible_of_passing (Bool.eq_false_iff.2 hj))
  · exact Ctx.bringBack_of_resident hres
  · exact hrel
  · exact Ctx.releaseAll_of_none (fun q hq => Group.releasable_of_spread (hkeep q hq).1 (hkeep q hq).2) 64

end

end Sys2Proof.Machine
end

section
/-!
PROOFS. Joins of two fragments, and the claims about joins (R91, R93, R95; O15).
-/
namespace Sys2Proof.Machine

/-! ### Entries that merge (R95) -/

/-- The table once entry b has merged into entry a. -/
def Group.merged (g : Group) (a b : Split) : Group :=
  Group.dropEntry { g with splits := g.splits.map fun q => if q.num = a.num then { q with mask := q.mask ||| b.mask } else q }
    { b with parent := some a.num }

theorem Ctx.release_of_unspilled {x : Ctx} {w : Work} (h : w.g.spilled = []) (e : Split) :
    x.release w e = .ok { w with g := w.g.dropEntry e } := by
  have hnone : (w.g.dropEntry e).spilled = [] := by
    rw [Group.dropEntry, h]
    rfl
  rw [Ctx.release]
  simp only [hnone, List.isEmpty_nil, Bool.not_true, Bool.and_false, Bool.false_eq_true, if_false]

theorem Ctx.evalJoins_merge {x : Ctx} {w : Work} {a b : Split} (hform : x.launch.form = 0) (hsp : w.g.spilled = [])
    (hdone : w.g.frags.findIdx? w.g.joinDone = none) (hlat : w.g.lateralPair = some (a, b))
    (hkeep : ∀ q ∈ (w.g.merged a b).entries, (w.g.merged a b).releasable q = false) (n : Nat) :
    x.evalJoins (n + 1) w = x.evalJoins n { w with g := w.g.merged a b } := by
  have hrel := Ctx.release_of_unspilled (x := x)
    (w := { w with g := { w.g with splits := w.g.splits.map fun q => if q.num = a.num then { q with mask := q.mask ||| b.mask } else q } })
    hsp { b with parent := some a.num }
  have hall := Ctx.releaseAll_of_none (x := x) (w := { w with g := w.g.merged a b }) hkeep 64
  rw [Ctx.evalJoins, hdone, if_pos hform, hlat]
  simp only [hsp, List.map_nil, List.any_nil, Bool.false_eq_true, if_false] at hrel ⊢
  rw [hrel]
  simp only [Group.merged, hsp] at hall ⊢
  exact (congrArg (· >>= x.evalJoins n) hall).trans rfl

section
variable {x : Ctx} {w : Work} {a b : Split} {i j : Nat} {f h : Fragment} (hi : w.g.frags[i]? = some f) (hj : w.g.frags[j]? = some h)
  (hwf : f.wait = .join true) (hwh : h.wait = .join true) (hif : f.inner = some a.num) (hih : h.inner = some b.num)
  (ha : w.g.hasSplit a) (hb : w.g.hasSplit b) (hnum : a.num ≠ b.num) (hpca : a.reconvPc = f.pc) (hpcb : b.reconvPc = h.pc)
  (hno : w.g.noOtherJoins [i, j])
include hi hj hno

theorem Group.place_of_joins {k : Nat} {q : Fragment} (hq : w.g.frags[k]? = some q) (hjoins : q.joins = true) :
    k = i ∧ q = f ∨ k = j ∧ q = h := by
  by_cases h1 : k = i
  · subst h1
    exact .inl ⟨rfl, Option.some.inj (hq.symm.trans hi)⟩
  · by_cases h2 : k = j
    · subst h2
      exact .inr ⟨rfl, Option.some.inj (hq.symm.trans hj)⟩
    · rw [hno k q hq (by simp [h1, h2])] at hjoins
      cases hjoins

theorem Group.eq_of_joins {q : Fragment} (hq : q ∈ w.g.frags) (hjoins : q.joins = true) : q = f ∨ q = h := by
  obtain ⟨k, hk⟩ := List.mem_iff_getElem?.1 hq
  exact (Group.place_of_joins hi hj hno hk hjoins).imp (·.2) (·.2)

include hwf hwh hif hih ha hb hpca hpcb

theorem Group.innerOf_of_joins {q : Fragment} (hq : q ∈ w.g.frags) (hjoins : q.joins = true) :
    ∃ e, w.g.innerOf q = some e ∧ e.reconvPc = q.pc ∧ (q = f ∧ e = a ∨ q = h ∧ e = b) := by
  obtain rfl | rfl := Group.eq_of_joins hi hj hno hq hjoins
  · exact ⟨a, Group.innerOf_of_entry hif (Group.entry_of_hasSplit ha), hpca, .inl ⟨rfl, rfl⟩⟩
  · exact ⟨b, Group.innerOf_of_entry hih (Group.entry_of_hasSplit hb), hpcb, .inr ⟨rfl, rfl⟩⟩

/-- The two entries that reconverge here, the older one first (R95). -/
theorem Group.lateralPair_two (hpc : f.pc = h.pc) (hnum : a.num ≠ b.num) (hpar : a.parent = b.parent) (hage : a.age < b.age) :
    w.g.lateralPair = some (a, b) := by
  have hwaiting (e : Split) : e ∈ ((w.g.frags.filter (·.joinsLateral)).filterMap fun f =>
      match w.g.innerOf f with
      | some e => if e.reconvPc = f.pc then some e else none
      | none => none) ↔ e = a ∨ e = b := by
    rw [List.mem_filterMap]
    constructor
    · rintro ⟨q, hq, hqe⟩
      obtain ⟨hq, hl⟩ := List.mem_filter.1 hq
      obtain ⟨d, hd, hdpc, hcase⟩ := Group.innerOf_of_joins hi hj hwf hwh hif hih ha hb hpca hpcb hno hq (Fragment.joins_of_lateral hl)
      rw [hd] at hqe
      simp only [hdpc, if_true] at hqe
      rw [← Option.some.inj hqe]
      exact hcase.imp (·.2) (·.2)
    · rintro (rfl | rfl)
      · refine ⟨f, List.mem_filter.2 ⟨List.mem_of_getElem? hi, by rw [Fragment.joinsLateral, hwf]; rfl⟩, ?_⟩
        rw [Group.innerOf_of_entry hif (Group.entry_of_hasSplit ha)]
        exact if_pos hpca
      · refine ⟨h, List.mem_filter.2 ⟨List.mem_of_getElem? hj, by rw [Fragment.joinsLateral, hwh]; rfl⟩, ?_⟩
        rw [Group.innerOf_of_entry hih (Group.entry_of_hasSplit hb)]
        exact if_pos hpcb
  have hpair : (if a.num ≠ b.num ∧ a.reconvPc = b.reconvPc ∧ a.parent = b.parent ∧ a.age < b.age then some (a, b) else none) = some (a, b) :=
    if_pos ⟨hnum, by rw [hpca, hpcb, hpc], hpar, hage⟩
  rw [Group.lateralPair]
  refine findSome?_eq_of_agree (a := a) (fun c hc => ?_) ((hwaiting a).2 (.inl rfl)) ?_
  · obtain rfl | rfl := (hwaiting c).1 hc
    · refine .inr (findSome?_eq_of_agree (a := b) (fun d hd => ?_) ((hwaiting b).2 (.inr rfl)) hpair)
      obtain rfl | rfl := (hwaiting d).1 hd
      · exact .inl (if_neg fun hc => hc.1 rfl)
      · exact .inr hpair
    · refine .inl (List.findSome?_eq_none_iff.2 fun d hd => if_neg fun hc => ?_)
      obtain ⟨hne, -, -, hlt⟩ := hc
      obtain rfl | rfl := (hwaiting d).1 hd
      · exact Nat.lt_asymm hage hlt
      · exact hne rfl
  · refine findSome?_eq_of_agree (a := b) (fun d hd => ?_) ((hwaiting b).2 (.inr rfl)) hpair
    obtain rfl | rfl := (hwaiting d).1 hd
    · exact .inl (if_neg fun hc => hc.1 rfl)
    · exact .inr hpair

/-- Two fragments that wait for different entries, none of which is held by the one that names it, go on waiting where no entries merge. -/
theorem Ctx.evalJoins_apart (hform : x.launch.form ≠ 0) (hnum : a.num ≠ b.num) (hsa : a.spread f.threads) (hsb : b.spread h.threads)
    (n : Nat) : x.evalJoins (n + 1) w = .ok w := by
  have hinner {q : Fragment} (hq : q ∈ w.g.frags) (hjoins : q.joins = true) :=
    Group.innerOf_of_joins hi hj hwf hwh hif hih ha hb hpca hpcb hno hq hjoins
  refine Ctx.evalJoins_of_quiet (Group.findIdx?_joinDone_none fun q hq hjoins => ?_) (fun hc => absurd hc hform) (fun q hq => ?_) n
  · obtain ⟨e, he, hpc, -⟩ := hinner hq hjoins
    exact ⟨e, he, hpc⟩
  by_cases hjoins : q.joins = true
  · obtain ⟨e, he, hpc, ⟨rfl, rfl⟩ | ⟨rfl, rfl⟩⟩ := hinner hq hjoins
    · refine Group.fusible_of_spread he ?_
      rw [Group.members_one (i := i) fun k => ?_, Group.heldBy_one hi]
      · exact hsa
      · rw [Group.mem_members]
        constructor
        · rintro ⟨p, hp, hpj, -, hpi⟩
          refine ((Group.place_of_joins hi hj hno hp hpj).resolve_right fun hc => hnum ?_).1
          rw [hc.2, hih] at hpi
          exact (Option.some.inj hpi).symm
        · rintro rfl
          exact ⟨q, hi, hjoins, rfl, hif⟩
    · refine Group.fusible_of_spread he ?_
      rw [Group.members_one (i := j) fun k => ?_, Group.heldBy_one hj]
      · exact hsb
      · rw [Group.mem_members]
        constructor
        · rintro ⟨p, hp, hpj, -, hpi⟩
          refine ((Group.place_of_joins hi hj hno hp hpj).resolve_left fun hc => hnum ?_).1
          rw [hc.2, hif] at hpi
          exact Option.some.inj hpi
        · rintro rfl
          exact ⟨q, hj, hjoins, rfl, hih⟩
  · exact Group.fusible_of_passing (Bool.eq_false_iff.2 hjoins)

end

/-! ### Two fragments that name one entry -/

/-- Fragments that wait for one entry, some threads of which are in neither, go on waiting (R93). -/
theorem Ctx.evalJoins_together {x : Ctx} {w : Work} {e : Split} {i j : Nat} {f h : Fragment} (hi : w.g.frags[i]? = some f)
    (hj : w.g.frags[j]? = some h) (hij : i ≠ j) (hjf : f.joins = true) (hjh : h.joins = true) (hif : f.inner = some e.num)
    (hih : h.inner = some e.num) (hpcf : e.reconvPc = f.pc) (hpch : e.reconvPc = h.pc) (hent : w.g.entry e.num = some e)
    (hno : w.g.noOtherJoins [i, j]) (hs : e.mask &&& ~~~(f.threads ||| h.threads) ≠ 0) (n : Nat) : x.evalJoins (n + 1) w = .ok w := by
  have hat {q : Fragment} (hq : q ∈ w.g.frags) (hjoins : q.joins = true) : q.inner = some e.num ∧ e.reconvPc = q.pc := by
    obtain rfl | rfl := Group.eq_of_joins hi hj hno hq hjoins
    · exact ⟨hif, hpcf⟩
    · exact ⟨hih, hpch⟩
  refine Ctx.evalJoins_of_quiet (Group.findIdx?_joinDone_none fun q hq hjoins => ?_)
    (fun _ => Group.lateralPair_none fun q hq hjoins => (hat hq hjoins).1) (fun q hq => ?_) n
  · exact ⟨e, Group.innerOf_of_entry (hat hq hjoins).1 hent, (hat hq hjoins).2⟩
  by_cases hjoins : q.joins = true
  · obtain ⟨hqi, hqpc⟩ := hat hq hjoins
    refine Group.fusible_of_spread (Group.innerOf_of_entry hqi hent) ?_
    have hmem (k : Nat) : k ∈ w.g.members q e.num ↔ k = i ∨ k = j := by
      rw [Group.mem_members]
      constructor
      · rintro ⟨p, hp, hpj, -⟩
        exact (Group.place_of_joins hi hj hno hp hpj).imp (·.1) (·.1)
      · rintro (rfl | rfl)
        · exact ⟨f, hi, hjf, hpcf.symm.trans hqpc, hif⟩
        · exact ⟨h, hj, hjh, hpch.symm.trans hqpc, hih⟩
    obtain hlt | hlt := Nat.lt_or_gt_of_ne hij
    · rw [Group.members_two hlt hmem, Group.heldBy_two hi hj]
      exact hs
    · rw [Group.members_two hlt fun k => (hmem k).trans or_comm, Group.heldBy_two hj hi, BitVec.or_comm]
      exact hs
  · exact Group.fusible_of_passing (Bool.eq_false_iff.2 hjoins)

/-! ### The merge (R95) -/

/-- A fragment once entry b has merged into entry a. -/
def Fragment.merged (f : Fragment) (a b : Split) : Fragment := { f with inner := if f.inner = some b.num then some a.num else f.inner }

theorem Group.merged_frags (g : Group) (a b : Split) :
    (g.merged a b).frags = g.frags.map fun f => f.merged a b := rfl

theorem Group.merged_splits (g : Group) (a b : Split) : (g.merged a b).splits =
    ((g.splits.map fun q => if q.num = a.num then { q with mask := q.mask ||| b.mask } else q).filter fun q => q.num ≠ b.num).map fun q =>
      { q with parent := if q.parent = some b.num then some a.num else q.parent } := rfl

/-- An entry that the merge leaves. -/
theorem Group.mem_merged_splits {g : Group} {a b q : Split} : q ∈ (g.merged a b).splits ↔ ∃ p ∈ g.splits, p.num ≠ b.num ∧
    q = { p with
      mask := if p.num = a.num then p.mask ||| b.mask else p.mask
      parent := if p.parent = some b.num then some a.num else p.parent } := by
  rw [Group.merged_splits]
  constructor
  · intro hq
    obtain ⟨r, hr, rfl⟩ := List.mem_map.1 hq
    obtain ⟨hr, hn⟩ := List.mem_filter.1 hr
    obtain ⟨p, hp, rfl⟩ := List.mem_map.1 hr
    refine ⟨p, hp, ?_, ?_⟩
    · intro hc
      have hn := of_decide_eq_true hn
      split at hn <;> exact hn hc
    · split <;> rfl
  · rintro ⟨p, hp, hn, rfl⟩
    refine List.mem_map.2 ⟨if p.num = a.num then { p with mask := p.mask ||| b.mask } else p, List.mem_filter.2
      ⟨List.mem_map.2 ⟨p, hp, rfl⟩, ?_⟩, ?_⟩
    · refine decide_eq_true ?_
      split <;> exact hn
    · split <;> rfl

theorem Ctx.evalJoins_merges {x : Ctx} {w : Work} {a b : Split} {i j : Nat} {f h : Fragment} (hi : w.g.frags[i]? = some f)
    (hj : w.g.frags[j]? = some h) (hij : i ≠ j) (hwf : f.wait = .join true) (hwh : h.wait = .join true) (hif : f.inner = some a.num)
    (hih : h.inner = some b.num) (ha : w.g.hasSplit a) (hb : w.g.hasSplit b) (hnum : a.num ≠ b.num) (hpca : a.reconvPc = f.pc)
    (hpcb : b.reconvPc = h.pc) (hno : w.g.noOtherJoins [i, j]) (hpc : f.pc = h.pc) (hpar : a.parent = b.parent)
    (hparb : a.parent ≠ some b.num) (hage : a.age < b.age) (hform : x.launch.form = 0) (hsp : w.g.spilled = [])
    (hs : (a.mask ||| b.mask) &&& ~~~(f.threads ||| h.threads) ≠ 0)
    (hkeep : ∀ q ∈ w.g.splits, q.num ≠ b.num → ∀ p ∈ w.g.frags,
      (if q.num = a.num then q.mask ||| b.mask else q.mask) &&& ~~~p.threads ≠ 0) (n : Nat) :
    x.evalJoins (n + 2) w = .ok { w with g := w.g.merged a b } := by
  have hlat := Group.lateralPair_two hi hj hwf hwh hif hih ha hb hpca hpcb hno hpc hnum hpar hage
  have hdone : w.g.frags.findIdx? w.g.joinDone = none := Group.findIdx?_joinDone_none fun q hq hjoins => by
    obtain ⟨e, he, hpc, -⟩ := Group.innerOf_of_joins hi hj hwf hwh hif hih ha hb hpca hpcb hno hq hjoins
    exact ⟨e, he, hpc⟩
  have hfrag {k : Nat} {q : Fragment} (hq : w.g.frags[k]? = some q) :
      (w.g.merged a b).frags[k]? = some (q.merged a b) := by
    rw [Group.merged_frags, List.getElem?_map, hq, Option.map_some]
  have hgrown : (w.g.merged a b).hasSplit { a with mask := a.mask ||| b.mask } := by
    refine ⟨Group.mem_merged_splits.2 ⟨a, ha.1, hnum, ?_⟩, fun q hq hqn => ?_⟩
    · rw [if_pos rfl, if_neg hparb]
    · obtain ⟨p, hp, -, rfl⟩ := Group.mem_merged_splits.1 hq
      rw [ha.2 p hp hqn, if_pos rfl, if_neg hparb]
  rw [Ctx.evalJoins_merge hform hsp hdone hlat fun q hq => ?_]
  · refine Ctx.evalJoins_together (f := f.merged a b) (h := h.merged a b) (e := { a with mask := a.mask ||| b.mask }) (hfrag hi)
      (hfrag hj) hij (Fragment.joins_of_wait hwf)
      (Fragment.joins_of_wait hwh) ?_ ?_ hpca (hpca.trans hpc) (Group.entry_of_hasSplit hgrown) (fun k q hq hk => ?_) hs n
    · show (if f.inner = some b.num then some a.num else f.inner) = some a.num
      rw [hif, if_neg fun hc => hnum (Option.some.inj hc)]
    · show (if h.inner = some b.num then some a.num else h.inner) = some a.num
      rw [if_pos hih]
    · rw [Group.merged_frags, List.getElem?_map, Option.map_eq_some_iff] at hq
      obtain ⟨p, hp, rfl⟩ := hq
      exact hno k p hp hk
  · have hq' : q ∈ (w.g.merged a b).splits := by
      obtain hq | hq := List.mem_append.1 hq
      · exact hq
      · rw [Group.merged, Group.dropEntry] at hq
        simp [hsp] at hq
    obtain ⟨p, hp, hpn, rfl⟩ := Group.mem_merged_splits.1 hq'
    refine Group.releasable_of_spread (Split.mask_ne_zero_of_spread (T := f.threads) (hkeep p hp hpn f (List.mem_of_getElem? hi))) ?_
    intro r hr
    rw [Group.merged_frags] at hr
    obtain ⟨r', hr', rfl⟩ := List.mem_map.1 hr
    exact hkeep p hp hpn r' hr'

end Sys2Proof.Machine
end

section
/-!
PROOFS. What joins do to the group (R91, R93, R95), and where control instructions are illegal (R53, R107, R111, R127, R416; O15).
-/
namespace Sys2Proof.Machine

/-! ### A fragment waits -/

theorem Group.entry_congr {g g' : Group} (hs : g'.splits = g.splits) (hp : g'.spilled = g.spilled) (n : Nat) : g'.entry n = g.entry n := by
  rw [Group.entry, Group.entry, Group.entries, Group.entries, hs, hp]

/-- The group once the acting fragment waits at a join. -/
def Ctx.arrives (x : Ctx) (g : Group) (m lateral : Bool) : Group := (g.setFrag x.frag { x.f with wait := .join lateral }).park62 m

theorem Ctx.arrives_frags {x : Ctx} {g : Group} (hg : g.frags = x.g.frags) (m lateral : Bool) :
    (x.arrives g m lateral).frags = x.atJoin lateral := by
  rw [Ctx.arrives, Group.park62_frags, Group.setFrag, hg]
  rfl

theorem Ctx.entry_arrives (x : Ctx) (g : Group) (m lateral : Bool) (n : Nat) : (x.arrives g m lateral).entry n = g.entry n := by
  refine Group.entry_congr ?_ ?_ n
  · rw [Ctx.arrives, Group.park62_splits]
    rfl
  · rw [Ctx.arrives, Group.park62_spilled]
    rfl

theorem Group.setFrag_withTable (g : Group) (i : Nat) (f : Fragment) (F : List Fragment) (S : List Split) (P : List (Nat × Split)) (p : Nat) :
    (g.setFrag i f).withTable F S P p = g.withTable F S P p := rfl

theorem Group.park62_retable (g : Group) (m : Bool) (F : List Fragment) (S : List Split) (P : List (Nat × Split)) (p : Nat) :
    { (g.withTable F S P p).park62 m with splits := g.splits, spilled := g.spilled, frags := g.frags } = Group.park62 { g with ptr := p } m := by
  refine Eq.trans ?_ ((g.withTable F S P p).park62_withTable m g.frags g.splits g.spilled p)
  show Group.withTable _ _ _ _ ((g.withTable F S P p).park62 m).ptr = _
  rw [Group.park62_ptr]
  rfl

section
variable {s : State} {x : Ctx} (h : s.ctx = some x) (hh : x.g.handler = false) (hl : x.f.looping = false) (hn : s.noneAtBarrier)
include h hh hl hn

/-- The acting fragment waits at a join while threads of its entry are elsewhere; w₀ has that entry resident (R91, R93). -/
theorem exec_join_waits (m lateral : Bool) {e : Split} {w₀ : Work} (hi : x.f.inner = some e.num) (hpc : e.reconvPc = x.f.pc)
    (hback : x.bringBack ⟨s, x.g, []⟩ e.num = .ok w₀) (hent : w₀.g.entry e.num = some e) (hfr : w₀.g.frags = x.g.frags)
    (hclean : w₀.dirty = []) (hgroups : w₀.s.groups = s.groups) (hspread : e.spread x.f.threads) (hno : x.g.noOtherJoins [x.frag]) :
    exec (if lateral then Instr.joinl m else Instr.join m) s = .next (x.put w₀.s (x.arrives w₀.g m lateral)) := by
  refine exec_join_of_here h hh hl hn m lateral hi hpc hback hent (w₁ := { w₀ with g := x.arrives w₀.g m lateral }) ?_ hclean hgroups ?_
  · exact Ctx.evalJoins_waits h (Ctx.arrives_frags hfr m lateral) ((x.entry_arrives ..).trans hent) hi hpc hspread hno 255
  · intro q hq
    rw [Ctx.arrives_frags hfr] at hq
    exact Ctx.waitsLike_atJoin h lateral q hq

/-! ### Two fragments fuse -/

/-- The fragments once those at lo and hi have become one, with the threads of an entry (R93). -/
def Group.fusedFrags (g : Group) (lo hi : Nat) (q : Fragment) (e : Split) : List Fragment :=
  ((g.frags.map fun f => { f with inner := e.above f.inner }).set lo q).eraseIdx hi

/-- The acting fragment and another fuse at a join where the release of their entry leaves the tables S and P; lo and hi are their
places, f and q the two as they wait there (R89, R93). -/
theorem exec_join_fuses_at (m lateral : Bool) {e : Split} {lo hi : Nat} {f q : Fragment} {S : List Split} {P : List (Nat × Split)}
    (he : x.g.hasSplit e) (hres : ∀ p ∈ x.g.spilled, p.2.num ≠ e.num) (hi' : x.f.inner = some e.num) (hpc : e.reconvPc = x.f.pc)
    (hlt : lo < hi) (hk : x.frag = lo ∨ x.frag = hi) (hlo : (x.atJoin lateral)[lo]? = some f) (hhi : (x.atJoin lateral)[hi]? = some q)
    (hwf : f.wait = .join lateral) (hwq : q.wait = .join lateral) (hif : f.inner = some e.num) (hiq : q.inner = some e.num)
    (hpcf : f.pc = x.f.pc) (hpcq : q.pc = x.f.pc) (hplain : f.looping = false)
    (hno : ∀ (i : Nat) p, (x.atJoin lateral)[i]? = some p → i ∉ [lo, hi] → p.joins = false)
    (hall : e.mask &&& ~~~(f.threads ||| q.threads) = 0)
    (hrel : ∀ g : Group, g.splits = x.g.splits → g.spilled = x.g.spilled →
      x.release ⟨s, g, []⟩ e = .ok ⟨s, g.withTable (g.dropEntry e).frags S P g.ptr, []⟩)
    (hkeep : ∀ r ∈ S ++ P.map (·.2), r.mask ≠ 0 ∧ r.spread e.mask ∧ ∀ p ∈ x.g.frags, r.spread p.threads)
    (hup : ∀ r ∈ S ++ P.map (·.2), e.parent = some r.num → r.reconvPc ≠ x.f.pc) :
    ∃ ptr, exec (if lateral then Instr.joinl m else Instr.join m) s = .next (x.put s (Group.park62
      (x.g.withTable (x.g.fusedFrags lo hi { f.fused q e with wait := .none, pc := x.wordsOn 1 } e) S P ptr) m)) := by
  set g₁ := x.arrives x.g m lateral with hg₁
  have hfr : g₁.frags = x.atJoin lateral := Ctx.arrives_frags rfl m lateral
  have hspl : g₁.splits = x.g.splits := by
    rw [hg₁, Ctx.arrives, Group.park62_splits]
    rfl
  have hspi : g₁.spilled = x.g.spilled := by
    rw [hg₁, Ctx.arrives, Group.park62_spilled]
    rfl
  have hlo₁ : g₁.frags[lo]? = some f := hfr ▸ hlo
  have hhi₁ : g₁.frags[hi]? = some q := hfr ▸ hhi
  have hent : x.g.entry e.num = some e := Group.entry_of_hasSplit he
  have hent₁ : g₁.entry e.num = some e := (x.entry_arrives ..).trans hent
  have hfuse : g₁.fuse e [lo, hi] = (g₁.setFrag lo (f.fused q e)).removeFrag hi := Group.fuse_two hlo₁ hhi₁ e
  have hrel₁ := hrel (g₁.fuse e [lo, hi]) (by rw [hfuse]; exact hspl) (by rw [hfuse]; exact hspi)
  set g₂ := (g₁.fuse e [lo, hi]).withTable ((g₁.fuse e [lo, hi]).dropEntry e).frags S P (g₁.fuse e [lo, hi]).ptr with hg₂
  have hfr₂ : g₂.frags = ((g₁.frags.set lo (f.fused q e)).eraseIdx hi).map fun p => { p with inner := e.above p.inner } := by
    rw [hg₂, hfuse]
    rfl
  have hfrags : (g₂.joined lo f q e).frags = x.g.fusedFrags lo hi { f.fused q e with wait := .none, pc := x.wordsOn 1 } e := by
    have hnext : f.pc + 4 = x.wordsOn 1 := by
      rw [hpcf]
      rfl
    rw [Group.joined, hfr₂, hfr, Ctx.atJoin, set_map_eraseIdx _ _ hlt hk, hnext]
    rfl
  have hthreads (p : Fragment) (hp : p ∈ g₂.frags) : p.threads = e.mask ∨ ∃ p' ∈ x.g.frags, p.threads = p'.threads := by
    rw [hfr₂] at hp
    obtain ⟨p', hp', rfl⟩ := List.mem_map.1 hp
    obtain hp' | rfl := List.mem_or_eq_of_mem_set (List.mem_of_mem_eraseIdx hp')
    · rw [hfr, Ctx.atJoin] at hp'
      obtain hp' | rfl := List.mem_or_eq_of_mem_set hp'
      · exact .inr ⟨p', hp', rfl⟩
      · exact .inr ⟨x.f, List.mem_of_getElem? (State.ctx_eq_some h).2.2.1, rfl⟩
    · exact .inl rfl
  refine ⟨(g₁.fuse e [lo, hi]).ptr, (exec_join_of_here h hh hl hn m lateral hi' hpc (Ctx.bringBack_of_resident hres) hent
    (w₁ := ⟨s, g₂.joined lo f q e, []⟩) ?_ rfl rfl ?_).trans ?_⟩
  · refine Ctx.evalJoins_fusion (x := x) (w := ⟨s, g₁, []⟩) (w₂ := ⟨s, g₂, []⟩) hlo₁ hhi₁ hlt (Fragment.joins_of_wait hwf)
      (Fragment.joins_of_wait hwq) hif hiq (hpcf.trans hpc.symm) (hpcq.trans hpc.symm) (fun i p hp hi => hno i p (hfr ▸ hp) hi) hent₁ hall
      hplain (fun p hp => hres p (hspi ▸ hp)) hrel₁ hfr₂ (fun r hr => ?_) (fun r hr hpar => ?_) 253
    · obtain ⟨hmask, hspread, hfrags⟩ := hkeep r hr
      refine ⟨hmask, fun p hp => ?_⟩
      obtain ht | ⟨p', hp', ht⟩ := hthreads p hp
      · rw [ht]
        exact hspread
      · rw [ht]
        exact hfrags p' hp'
    · rw [hpc]
      exact hup r hr hpar
  · intro p hp
    rw [hfrags] at hp
    obtain hp | rfl := List.mem_or_eq_of_mem_set (List.mem_of_mem_eraseIdx hp)
    · obtain ⟨p', hp', rfl⟩ := List.mem_map.1 hp
      exact ⟨p', hp', rfl, .inl rfl⟩
    · obtain ⟨f', hf', hsaved, -⟩ := Ctx.waitsLike_atJoin h lateral f (List.mem_of_getElem? hlo)
      exact ⟨f', hf', hsaved, .inr (.inl rfl)⟩
  · have htable : g₂.joined lo f q e = g₁.withTable (g₂.joined lo f q e).frags S P (g₁.fuse e [lo, hi]).ptr := by
      rw [hg₂, hfuse]
      rfl
    refine congrArg (fun g => Host.Outcome.next (x.put s g)) (htable.trans ?_)
    rw [hfrags, hg₁, Ctx.arrives, Group.park62_withTable, Group.setFrag_withTable]

/-- The same in the terms of the claims: the fused fragment takes the place of the older one. -/
theorem exec_join_fuses (m lateral : Bool) {e : Split} {j : Nat} {other : Fragment} {S : List Split} {P : List (Nat × Split)}
    (he : x.g.hasSplit e) (hres : ∀ p ∈ x.g.spilled, p.2.num ≠ e.num) (hi : x.f.inner = some e.num) (hpc : e.reconvPc = x.f.pc)
    (hj : x.g.frags[j]? = some other) (hjne : j ≠ x.frag) (hio : other.inner = some e.num) (hpco : other.pc = x.f.pc)
    (hwo : other.wait = .join lateral) (hlo : other.looping = false) (hall : e.mask &&& ~~~(x.f.threads ||| other.threads) = 0)
    (hno : x.g.noOtherJoins [x.frag, j])
    (hrel : ∀ g : Group, g.splits = x.g.splits → g.spilled = x.g.spilled →
      x.release ⟨s, g, []⟩ e = .ok ⟨s, g.withTable (g.dropEntry e).frags S P g.ptr, []⟩)
    (hkeep : ∀ r ∈ S ++ P.map (·.2), r.mask ≠ 0 ∧ r.spread e.mask ∧ ∀ p ∈ x.g.frags, r.spread p.threads)
    (hup : ∀ r ∈ S ++ P.map (·.2), e.parent = some r.num → r.reconvPc ≠ x.f.pc) :
    ∃ ptr, exec (if lateral then Instr.joinl m else Instr.join m) s = .next (x.put s (Group.park62
      (x.g.withTable (x.g.fusedFrags (min x.frag j) (max x.frag j) { (if x.frag < j then x.f else other) with
        threads := e.mask, k0 := (x.f.k0 ||| other.k0) &&& e.mask, inner := e.parent, wait := .none, pc := x.wordsOn 1 } e) S P ptr) m)) := by
  have hx : (x.atJoin lateral)[x.frag]? = some { x.f with wait := .join lateral } := by rw [Ctx.getElem?_atJoin h, if_pos rfl]
  have ho : (x.atJoin lateral)[j]? = some other := by rw [Ctx.getElem?_atJoin h, if_neg hjne, hj]
  have hno' (i : Nat) (p : Fragment) (hp : (x.atJoin lateral)[i]? = some p) (hx : i ≠ x.frag) (hj : i ≠ j) : p.joins = false := by
    rw [Ctx.getElem?_atJoin h, if_neg hx] at hp
    exact hno i p hp (by simp [hx, hj])
  obtain hlt | hlt := Nat.lt_or_gt_of_ne hjne
  · obtain ⟨ptr, hexec⟩ := exec_join_fuses_at h hh hl hn m lateral he hres hi hpc hlt (.inr rfl) ho hx hwo rfl hio hi hpco rfl hlo
      (fun i p hp hi => hno' i p hp (by simp at hi; exact hi.2) (by simp at hi; exact hi.1)) (by rw [BitVec.or_comm]; exact hall) hrel hkeep hup
    refine ⟨ptr, ?_⟩
    rw [hexec, Nat.min_eq_right hlt.le, Nat.max_eq_left hlt.le, if_neg (Nat.lt_asymm hlt), Fragment.fused, BitVec.or_comm]
  · obtain ⟨ptr, hexec⟩ := exec_join_fuses_at h hh hl hn m lateral he hres hi hpc hlt (.inl rfl) hx ho rfl hwo hi hio rfl hpco hl
      (fun i p hp hi => hno' i p hp (by simp at hi; exact hi.1) (by simp at hi; exact hi.2)) hall hrel hkeep hup
    refine ⟨ptr, ?_⟩
    rw [hexec, Nat.min_eq_left hlt.le, Nat.max_eq_right hlt.le, if_pos hlt]
    rfl

end

theorem joinResult : Sys2Proof.Claims.JoinResult := by
  intro s x m lateral h hh hl hsp hn
  have hres (n : Nat) : ∀ p ∈ x.g.spilled, p.2.num ≠ n := fun p hp => absurd hp (by rw [hsp]; exact List.not_mem_nil)
  refine ⟨exec_join_of_elsewhere h hl hsp hn m lateral, fun e he hi hpc hspread => ⟨fun hno => ?_, ?_⟩⟩
  · exact exec_join_waits h hh hl hn m lateral (w₀ := ⟨s, x.g, []⟩) hi hpc (Ctx.bringBack_of_resident (hres _)) (Group.entry_of_hasSplit he)
      rfl rfl rfl hspread hno
  · intro j other hj hjne hio hpco hwo hlo hall hso hparent hno hkeep hup
    have hleft (r : Split) (hr : r ∈ x.g.splitsWithout e ++ ([] : List (Nat × Split)).map (·.2)) :
        ∃ q ∈ x.g.splits, q ≠ e ∧ r = { q with parent := e.above q.parent } := by
      rw [List.map_nil, List.append_nil, Group.splitsWithout] at hr
      obtain ⟨q, hq, rfl⟩ := List.mem_map.1 hr
      obtain ⟨hq, hqn⟩ := List.mem_filter.1 hq
      exact ⟨q, hq, fun hc => of_decide_eq_true hqn (by rw [hc]), rfl⟩
    have hrel (g : Group) (hgs : g.splits = x.g.splits) (hgp : g.spilled = x.g.spilled) : x.release ⟨s, g, []⟩ e =
        .ok ⟨s, g.withTable (g.dropEntry e).frags (x.g.splitsWithout e) [] g.ptr, []⟩ := by
      have hgsp : g.spilled = [] := hgp.trans hsp
      rw [Ctx.release_of_unspilled hgsp]
      simp only [Group.dropEntry, Group.withTable, hgs, hgsp]
      rfl
    obtain ⟨ptr, hexec⟩ := exec_join_fuses h hh hl hn m lateral he (hres _) hi hpc hj hjne hio hpco hwo hlo hall hno hrel
      (fun r hr => by
        obtain ⟨q, hq, hqe, rfl⟩ := hleft r hr
        obtain ⟨hqm, hqf⟩ := hkeep q hq hqe
        exact ⟨Split.mask_ne_zero_of_spread hqm, hqm, hqf⟩)
      fun r hr hpar => by
        obtain ⟨q, hq, -, rfl⟩ := hleft r hr
        exact hup q hq hpar
    refine ⟨ptr, hexec.trans ?_⟩
    rw [Group.withTable, ← hsp]
    rfl

/-! ### Entries merge -/

theorem joinlMerges : Sys2Proof.Claims.JoinlMerges := by
  intro s x m mine theirs j other h hh hl hsp hn hmine htheirs hnum hi hj hjne hio hpco hwo hpcm hpct hpar hparm hpart hage hno hsm hst waits
  have hent := Group.entry_of_hasSplit hmine
  set g₁ := x.arrives x.g m true with hg₁
  have hfr : g₁.frags = x.atJoin true := Ctx.arrives_frags rfl m true
  have hspl : g₁.splits = x.g.splits := by
    rw [hg₁, Ctx.arrives, Group.park62_splits]
    rfl
  have hspi : g₁.spilled = [] := by
    rw [hg₁, Ctx.arrives, Group.park62_spilled]
    exact hsp
  have hx : g₁.frags[x.frag]? = some { x.f with wait := .join true } := by rw [hfr, Ctx.getElem?_atJoin h, if_pos rfl]
  have ho : g₁.frags[j]? = some other := by rw [hfr, Ctx.getElem?_atJoin h, if_neg hjne, hj]
  have hm₁ : g₁.hasSplit mine := by
    rw [Group.hasSplit, hspl]
    exact hmine
  have ht₁ : g₁.hasSplit theirs := by
    rw [Group.hasSplit, hspl]
    exact htheirs
  have hno₁ : g₁.noOtherJoins [x.frag, j] := fun i p hp hij => by
    rw [hfr, Ctx.getElem?_atJoin h, if_neg (by simp at hij; exact hij.1)] at hp
    exact hno i p hp hij
  have hrun {w₁ : Work} (heval : x.evalJoins 256 ⟨s, g₁, []⟩ = .ok w₁) (hclean : w₁.dirty = []) (hs : w₁.s = s)
      (hlike : ∀ q ∈ w₁.g.frags, ∃ f ∈ g₁.frags, q.WaitsLike f) : exec (.joinl m) s = .next (x.put s w₁.g) := by
    have hexec := exec_join_of_here h hh hl hn m true hi hpcm (w₀ := ⟨s, x.g, []⟩)
      (Ctx.bringBack_of_resident fun p hp => absurd hp (by rw [hsp]; exact List.not_mem_nil)) hent heval hclean (by rw [hs]) fun q hq => by
        obtain ⟨f, hf, hqf⟩ := hlike q hq
        obtain ⟨f', hf', hff⟩ := Ctx.waitsLike_atJoin h true f (hfr ▸ hf)
        exact ⟨f', hf', hqf.trans hff⟩
    rw [hs] at hexec
    exact hexec
  refine ⟨fun hform => ?_, fun hform hs hkeep => ?_⟩
  · exact hrun (Ctx.evalJoins_apart (w := ⟨s, g₁, []⟩) hx ho rfl hwo hi hio hm₁ ht₁ hpcm (hpct.trans hpco.symm) hno₁ hform hnum hsm hst 255)
      rfl rfl fun q hq => ⟨q, hq, rfl, .inl rfl⟩
  · have hlike (a b : Split) (q : Fragment) (hq : q ∈ (g₁.merged a b).frags) : ∃ f ∈ g₁.frags, q.WaitsLike f := by
      rw [Group.merged_frags] at hq
      obtain ⟨p, hp, rfl⟩ := List.mem_map.1 hq
      exact ⟨p, hp, rfl, .inl rfl⟩
    have hthreads (p : Fragment) (hp : p ∈ g₁.frags) : ∃ p' ∈ x.g.frags, p.threads = p'.threads := by
      rw [hfr, Ctx.atJoin] at hp
      obtain hp | rfl := List.mem_or_eq_of_mem_set hp
      · exact ⟨p, hp, rfl⟩
      · exact ⟨x.f, List.mem_of_getElem? (State.ctx_eq_some h).2.2.1, rfl⟩
    -- the merge of b into a, whichever is the older
    have hmerged (a b : Split) (ha : x.g.hasSplit a) (hb : x.g.hasSplit b) (hab : a = mine ∧ b = theirs ∨ a = theirs ∧ b = mine)
        (heval : x.evalJoins 256 ⟨s, g₁, []⟩ = .ok ⟨s, g₁.merged a b, []⟩) : exec (.joinl m) s = .next (x.put s (Group.park62
          { x.g with
            splits := ((x.g.splits.map fun q => if q.num = a.num then { q with mask := mine.mask ||| theirs.mask } else q).filter
              fun q => q.num ≠ b.num).map fun q => { q with parent := if q.parent = some b.num then some a.num else q.parent }
            frags := (waits x.g).frags.map fun f => { f with inner := if f.inner = some b.num then some a.num else f.inner } } m)) := by
      have hgrow : (x.g.splits.map fun q => if q.num = a.num then { q with mask := q.mask ||| b.mask } else q) =
          x.g.splits.map fun q => if q.num = a.num then { q with mask := mine.mask ||| theirs.mask } else q := by
        refine List.map_congr_left fun q hq => ?_
        split
        · next hqn =>
          rw [ha.2 q hq hqn]
          obtain ⟨rfl, rfl⟩ | ⟨rfl, rfl⟩ := hab
          · rfl
          · rw [BitVec.or_comm]
        · rfl
      rw [hrun heval rfl rfl (hlike a b), ← hgrow]
      have htable : g₁.merged a b = g₁.withTable (g₁.merged a b).frags (g₁.merged a b).splits [] g₁.ptr := by
        rw [Group.merged]
        simp only [Group.dropEntry, Group.withTable, hspi, List.filter_nil, List.map_nil]
      rw [htable, Group.merged_frags, Group.merged_splits, hspl, hfr, hg₁, Ctx.arrives, Group.park62_ptr, Group.park62_withTable, ← hsp]
      rfl
    have hkeep' (a b : Split) (ha : x.g.hasSplit a) (hb : x.g.hasSplit b) (hab : a = mine ∧ b = theirs ∨ a = theirs ∧ b = mine)
        (q : Split) (hq : q ∈ g₁.splits) (hqb : q.num ≠ b.num) (p : Fragment) (hp : p ∈ g₁.frags) :
        (if q.num = a.num then q.mask ||| b.mask else q.mask) &&& ~~~p.threads ≠ 0 := by
      obtain ⟨p', hp', ht⟩ := hthreads p hp
      have hspread := hkeep q (hspl ▸ hq) p' hp'
      have hunion : (if q.num = a.num then q.mask ||| b.mask else q.mask) =
          if q = mine ∨ q = theirs then mine.mask ||| theirs.mask else q.mask := by
        have hqa : q.num = a.num ↔ q = a := ⟨ha.2 q (hspl ▸ hq), fun hc => by rw [hc]⟩
        have hqb' : q ≠ b := fun hc => hqb (by rw [hc])
        obtain ⟨rfl, rfl⟩ | ⟨rfl, rfl⟩ := hab
        · by_cases hc : q = a
          · simp [hc]
          · simp [hqa, hc, hqb']
        · by_cases hc : q = a
          · simp [hc, BitVec.or_comm]
          · simp [hqa, hc, hqb']
      rw [hunion, ht]
      exact hspread
    by_cases hlt : mine.age < theirs.age
    · simp only [if_pos hlt]
      exact hmerged mine theirs hmine htheirs (.inl ⟨rfl, rfl⟩) (Ctx.evalJoins_merges (w := ⟨s, g₁, []⟩) hx ho hjne.symm rfl hwo hi hio hm₁
        ht₁ hnum hpcm (hpct.trans hpco.symm) hno₁ hpco.symm hpar hpart hlt hform hspi hs
        (hkeep' mine theirs hmine htheirs (.inl ⟨rfl, rfl⟩)) 254)
    · simp only [if_neg hlt]
      have hno₂ : g₁.noOtherJoins [j, x.frag] := fun i p hp hij => hno₁ i p hp (by simp at hij ⊢; exact ⟨hij.2, hij.1⟩)
      refine hmerged theirs mine htheirs hmine (.inr ⟨rfl, rfl⟩) (Ctx.evalJoins_merges (w := ⟨s, g₁, []⟩) ho hx hjne hwo rfl hio hi ht₁ hm₁
        hnum.symm (hpct.trans hpco.symm) hpcm hno₂ hpco hpar.symm (hpar ▸ hparm) (by omega) hform hspi ?_
        (hkeep' theirs mine htheirs hmine (.inr ⟨rfl, rfl⟩)) 254)
      rw [BitVec.or_comm, BitVec.or_comm other.threads]
      exact hs

/-! ### Spilled entries come back -/

theorem findIdx?_append_last {α : Type} {p : α → Bool} {l : List α} {a : α} (hl : ∀ b ∈ l, p b = false) (ha : p a = true) :
    (l ++ [a]).findIdx? p = some l.length := by
  rw [List.findIdx?_append, List.findIdx?_eq_none_iff.2 hl]
  simp [ha]

/-- The entry spilled last comes back, and the oldest of the 16 resident ones takes a free slot (R91). -/
theorem Ctx.bringBack_swaps {x : Ctx} {s : State} {spilled : List (Nat × Split)} {slot free : Nat} {e old : Split} {places at_ : List Nat}
    (hw : s.mem.wf = true) (hsp : x.g.spilled = spilled ++ [(slot, e)]) (hsmall : e.small)
    (hplaces : x.spillPlaces s .read (x.slotAddress slot) 32 = .ok places) (hlen : places.length = 32) (hholds : s.slotHolds places e)
    (hout : ∀ q ∈ x.g.splits, q.num ≠ e.num) (hothers : ∀ p ∈ spilled, p.2.num ≠ e.num) (hfull : x.g.splits.length = 16)
    (hold : old ∈ x.g.splits) (holds : old.small) (holdest : ∀ q ∈ x.g.splits, q ≠ old → old.age < q.age)
    (hfree : x.spillsTo s spilled free at_) : ∃ s₁, s.spilledTo s₁ at_ old ∧ x.bringBack ⟨s, x.g, []⟩ e.num = .ok ⟨s₁, { x.g with
      splits := (x.g.splits.filter fun q => q.num ≠ old.num) ++ [e], spilled := spilled ++ [(free, old)] }, []⟩ := by
  have hfind : x.g.spilled.findIdx? (fun p => p.2.num = e.num) = some spilled.length := by
    rw [hsp]
    exact findIdx?_append_last (fun p hp => decide_eq_false (hothers p hp)) (decide_eq_true rfl)
  have hlast : x.g.spilled[spilled.length]? = some (slot, e) := by rw [hsp, List.getElem?_concat_length]
  have herase : x.g.spilled.eraseIdx spilled.length = spilled := by
    rw [hsp, List.eraseIdx_append_of_length_le (Nat.le_refl _), Nat.sub_self]
    exact List.append_nil _
  have hrefill := Ctx.refill_eq (x := x) (w := ⟨s, x.g, []⟩) hlast hplaces hlen hsmall hholds rfl
  have hresident : (x.g.splits ++ [e]).filter (·.num ≠ e.num) = x.g.splits := by
    rw [List.filter_append, List.filter_eq_self.2 fun q hq => decide_eq_true (hout q hq)]
    simp
  have hmine : (x.g.splits ++ [e]).filter (·.num = e.num) = [e] := by
    rw [List.filter_append, List.filter_eq_nil_iff.2 fun q hq hc => hout q hq (of_decide_eq_true hc)]
    simp
  obtain ⟨s₁, hs₁, hspill⟩ := Ctx.spillOldest_eq (x := x) (w := ⟨s, { x.g with splits := x.g.splits, spilled := spilled }, []⟩) hw hold holds
    holdest hfree
  refine ⟨s₁, hs₁, ?_⟩
  rw [Ctx.bringBack, hfind]
  simp only [hrefill, herase, bind, Except.bind]
  rw [if_pos (by rw [List.length_append, hfull]; exact Nat.lt_succ_self 16)]
  simp only [hresident, hmine, hspill, pure, Except.pure]

theorem joinRefills : Sys2Proof.Claims.JoinRefills := by
  intro s x m lateral spilled slot e places h hh hl hn hw hsp hsmall hplaces hlen hholds hout hothers
  refine ⟨fun old free at_ hi hpc hspread hno hfull hold holds holdest hfree => ?_, ?_⟩
  · obtain ⟨s₁, hs₁, hback⟩ := Ctx.bringBack_swaps hw hsp hsmall hplaces hlen hholds hout hothers hfull hold.1 holds holdest hfree
    refine ⟨s₁, hs₁, exec_join_waits h hh hl hn m lateral hi hpc hback ?_ rfl rfl ?_ hspread hno⟩
    · refine Group.entry_of_hasSplit ⟨List.mem_append_right _ (List.mem_singleton_self e), fun q hq hqn => ?_⟩
      obtain hq | hq := List.mem_append.1 hq
      · exact absurd hqn (hout q (List.mem_filter.1 hq).1)
      · exact List.mem_singleton.1 hq
    · rw [hs₁.1.1]
  · intro d j other hd hdres hi hpc hspread hj hjne hio hpco hwo hlo hall hso hno hdpar hkeep
    have hlast : x.g.spilled[x.g.spilled.length - 1]? = some (slot, e) := by
      rw [hsp, List.length_append, List.length_singleton, Nat.add_sub_cancel, List.getElem?_concat_length]
    have herase : x.g.spilled.eraseIdx (x.g.spilled.length - 1) = spilled := by
      rw [hsp, List.length_append, List.length_singleton, Nat.add_sub_cancel, List.eraseIdx_append_of_length_le (Nat.le_refl _), Nat.sub_self]
      exact List.append_nil _
    have hup (q : Split) (hq : q ∈ x.g.entries) (hqn : q.num ≠ d.num) : { q with parent := d.above q.parent } = q := by
      rw [Split.above, if_neg (hkeep q hq fun hc => hqn (by rw [hc])).1]
    have hspl : (x.g.splits.filter (·.num ≠ d.num)).map (fun q => { q with parent := d.above q.parent }) =
        x.g.splits.filter (·.num ≠ d.num) := by
      refine (List.map_congr_left fun q hq => ?_).trans (List.map_id _)
      obtain ⟨hq, hqn⟩ := List.mem_filter.1 hq
      exact hup q (List.mem_append_left _ hq) (of_decide_eq_true hqn)
    have hspi : (x.g.spilled.filter (·.2.num ≠ d.num)).map (fun q => (q.1, { q.2 with parent := d.above q.2.parent })) = x.g.spilled := by
      rw [List.filter_eq_self.2 fun p hp => decide_eq_true (hdres p hp)]
      refine (List.map_congr_left fun p hp => ?_).trans (List.map_id _)
      rw [hup p.2 (List.mem_append_right _ (List.mem_map.2 ⟨p, hp, rfl⟩)) (hdres p hp)]
      rfl
    have hentries (r : Split) (hr : r ∈ (x.g.splits.filter (·.num ≠ d.num) ++ [e]) ++ spilled.map (·.2)) : r ∈ x.g.entries ∧ r ≠ d := by
      rw [List.append_assoc, List.mem_append] at hr
      obtain hr | hr := hr
      · obtain ⟨hr, hrn⟩ := List.mem_filter.1 hr
        exact ⟨List.mem_append_left _ hr, fun hc => of_decide_eq_true hrn (by rw [hc])⟩
      · have hmem : r ∈ x.g.spilled.map (·.2) := by
          rw [hsp, List.map_append, List.mem_append]
          exact (List.mem_append.1 hr).symm
        obtain ⟨p, hp, rfl⟩ := List.mem_map.1 hmem
        exact ⟨List.mem_append_right _ hmem, fun hc => hdres p hp (by rw [hc])⟩
    have hrel (g : Group) (hgs : g.splits = x.g.splits) (hgp : g.spilled = x.g.spilled) : x.release ⟨s, g, []⟩ d =
        .ok ⟨s, g.withTable (g.dropEntry d).frags (x.g.splits.filter (·.num ≠ d.num) ++ [e]) spilled g.ptr, []⟩ := by
      have hres : g.splits.any (·.num = d.num) = true := by
        rw [hgs, List.any_eq_true]
        exact ⟨d, hd.1, decide_eq_true rfl⟩
      have hdrop : g.dropEntry d = g.withTable (g.dropEntry d).frags (x.g.splits.filter (·.num ≠ d.num)) x.g.spilled g.ptr := by
        rw [← hspl, ← hspi, ← hgs, ← hgp]
        rfl
      have hne : x.g.spilled.isEmpty = false := by
        rw [hsp]
        cases spilled <;> rfl
      rw [Ctx.release]
      simp only [hres, Bool.true_and]
      rw [hdrop, if_pos (by rw [Group.withTable, hne]; rfl)]
      refine (Ctx.refill_eq (w := ⟨s, g.withTable (g.dropEntry d).frags (x.g.splits.filter (·.num ≠ d.num)) x.g.spilled g.ptr, []⟩) hlast
        hplaces hlen hsmall hholds rfl).trans ?_
      simp only [Group.withTable, herase]
    obtain ⟨ptr, hexec⟩ := exec_join_fuses h hh hl hn m lateral hd hdres hi hpc hj hjne hio hpco hwo hlo hall hno hrel
      (fun r hr => by
        obtain ⟨hr, hrd⟩ := hentries r hr
        obtain ⟨-, hrm, hrf⟩ := hkeep r hr hrd
        exact ⟨Split.mask_ne_zero_of_spread hrm, hrm, hrf⟩)
      fun r hr hpar => by
        rw [hdpar] at hpar
        cases hpar
    refine ⟨_, ptr, hexec, ?_, ?_, ?_, ?_⟩
    · rw [Group.park62_splits]
      rfl
    · rw [Group.park62_spilled]
      rfl
    · rw [Group.park62_frags, Group.withTable, hdpar]
      rfl
    · exact Group.park62_retable ..

end Sys2Proof.Machine
end

section
/-!
PROOFS. Where divergence, dispersal, exits, spawns and loops are illegal (R53, R107, R111, R127, R416), and O15.
-/
namespace Sys2Proof.Machine

theorem handler_or_inBody {x : Ctx} (ha : x.g.handler = true ∨ x.f.looping = true ∧ x.g.handler = false) :
    (x.g.handler || x.inBody) = true := by
  obtain hh | ⟨hl, hh⟩ := ha
  · rw [hh]
    rfl
  · rw [inBody_eq_true hl hh, Bool.or_true]

theorem noTransfer_of_legal {x : Ctx} {t : Int} (s : State) (ht : x.legal t) : x.noTransfer s t = x.illegal s 0 :=
  congrArg (x.illegal s) (if_pos ((reaches_iff ..).2 ht))

theorem noTransfer_of_not_legal {x : Ctx} {t : Int} (s : State) (ht : ¬x.legal t) : x.noTransfer s t = x.illegal s (wrap t) :=
  congrArg (x.illegal s) (if_neg fun hc => ht ((reaches_iff ..).1 hc))

section
variable {s : State} {x : Ctx} (h : s.ctx = some x)
include h

/-- An illegal target of a divergent branch or a dispersal (R52, R53). -/
theorem traps_of_illegal_target (m : Bool) (k : Nat) (o : BitVec 21) (w : W32) (ht : ¬x.legal (x.wordsAway o.toInt)) :
    exec (.bdiv m k o w) s = x.illegal s (wrap (x.wordsAway o.toInt)) ∧ exec (.disp m k o w) s = x.illegal s (wrap (x.wordsAway o.toInt)) := by
  have hreach : (!x.reaches (x.offset o.toInt)) = true := by
    rw [Bool.not_eq_true', Bool.eq_false_iff]
    exact fun hc => ht ((reaches_iff ..).1 hc)
  exact ⟨(onFrag_of h _).trans (if_pos hreach), (onFrag_of h _).trans (if_pos hreach)⟩

/-- A divergent branch or a dispersal in handler mode or a loop body (R107, R111, R127). -/
theorem traps_of_divergence_away (m : Bool) (k : Nat) (o : BitVec 21) (w : W32) (ht : x.legal (x.wordsAway o.toInt))
    (ha : x.g.handler = true ∨ x.f.looping = true ∧ x.g.handler = false) :
    exec (.bdiv m k o w) s = x.illegal s w ∧ exec (.disp m k o w) s = x.illegal s w := by
  have hreach : ¬(!x.reaches (x.offset o.toInt)) = true := by
    rw [show x.reaches (x.offset o.toInt) = true from (reaches_iff ..).2 ht]
    exact Bool.false_ne_true
  exact ⟨(onFrag_of h _).trans ((if_neg hreach).trans (if_pos (handler_or_inBody ha))),
    (onFrag_of h _).trans ((if_neg hreach).trans (if_pos (handler_or_inBody ha)))⟩

theorem spwn_traps (m : Bool) (f n : Nat) (entry : W32) (hbad : (x.g.handler = true ∨ x.f.looping = true ∧ x.g.handler = false) ∨
    x.launch.image.holds entry.toNat = false ∨ x.launch.kernel.spawnPool = 0) : exec (.spwn m f n entry) s = x.illegal s entry := by
  refine (onFrag_of h _).trans (if_pos ?_)
  obtain ha | hi | hp := hbad
  · rw [Bool.or_assoc (!_), handler_or_inBody ha, Bool.or_true, Bool.true_or]
  · rw [hi]
    rfl
  · rw [hp]
    exact Bool.or_true _

theorem spwnf_traps (m : Bool) (entry : W32) (hbad : (x.g.handler = true ∨ x.f.looping = true ∧ x.g.handler = false) ∨
    x.launch.kernel.spawnPool = 0 ∨ (entry ≠ 0xFFFFFFFC ∧ x.launch.image.code.length ≤ entry.toNat / 4)) :
    exec (.spwnf m entry) s = x.illegal s entry := by
  refine (onFrag_of h _).trans (if_pos ?_)
  obtain ha | hp | ⟨he, hc⟩ := hbad
  · rw [handler_or_inBody ha, Bool.true_or, Bool.true_or]
  · simp [hp]
  · rw [decide_eq_false he, decide_eq_true hc]
    exact Bool.or_true _

theorem lbrk_traps (hb : x.g.handler = true ∨ x.f.looping = false) (m : Bool) (c : BranchCond) (r : Nat) (o : BitVec 14) :
    exec (.lbrk m c r o) s = x.noTransfer s (x.wordsAway o.toInt) := by
  refine (onFrag_of h _).trans (if_pos ?_)
  obtain hh | hl := hb
  · rw [hh]
    rfl
  · rw [hl]
    exact Bool.or_true _

end

theorem controlIllegal : Sys2Proof.Claims.ControlIllegal := by
  intro s x m h traps body away
  refine ⟨fun k o w => ⟨traps_of_illegal_target h m k o w, traps_of_divergence_away h m k o w⟩, fun ⟨hl, hh⟩ => ?_, fun ha => ?_,
    spwn_traps h m, spwnf_traps h m, fun hh lv cnt len incd inca incb incta inctb incacc step => (onFrag_of h _).trans (if_pos hh),
    fun hb c r o => ⟨fun ht => ?_, fun ht => ?_⟩⟩
  · have hbody := inBody_eq_true hl hh
    exact ⟨(onFrag_of h _).trans (if_pos hbody), (onFrag_of h _).trans (if_pos hbody), (onFrag_of h _).trans (if_pos hbody)⟩
  · refine (onFrag_of h _).trans (if_pos ?_)
    rw [Bool.or_comm]
    exact handler_or_inBody ha
  · exact (lbrk_traps h hb m c r o).trans (noTransfer_of_legal s ht)
  · exact (lbrk_traps h hb m c r o).trans (noTransfer_of_not_legal s ht)

/-- Settles O15: a split makes one entry and a second fragment; joins are evaluated until every fragment waits or has gone on; the table
spills and refills one entry at a time. -/
theorem divergenceResult : Obligations.DivergenceResult :=
  ⟨bdivResult, bdivSpills, joinResult, joinlMerges, joinRefills, controlIllegal⟩

end Sys2Proof.Machine
end

section
/-!
PROOFS. Accesses to the unit store and their trap (R123, R177, R190, R193; O9).
-/
namespace Sys2Proof.Machine

/-! ### The checks of an access to the unit store (R177, R190) -/

/-- Write-range form does not check accesses to the unit store (R225). -/
theorem rangeDenied_unit (x : Ctx) (a : Access) (t addr n : Nat) (p : Place) : rangeDenied x a ⟨t, .unit, addr, n⟩ p = false := by
  rw [rangeDenied, show isOutward x ⟨t, .unit, addr, n⟩ p = false from rfl, Bool.and_false, Bool.false_and]

/-- The place of a read or write of the unit store that touches no merge buffer, or its denial. -/
theorem checkAccess_unit (x : Ctx) (s : State) {a : Access} (t : Nat) {addr n : Nat} (ha : a ≠ .atomic)
    (hm : touchesMerge x.launch x.team addr n = false) :
    checkAccess x s a ⟨t, .unit, addr, n⟩ =
      if addr + n ≤ x.team.kernel.unit then .ok ⟨unitPlaces x.team addr n, some x.g.team⟩ else .error ⟨1, 10, 2, 0, addr, 0⟩ := by
  have hrange : checkRange x s a ⟨t, .unit, addr, n⟩ =
      if addr + n ≤ x.team.kernel.unit then .ok ⟨unitPlaces x.team addr n, some x.g.team⟩ else .error ⟨1, 10, 2, 0, addr, 0⟩ := by
    rw [checkRange, if_neg fun hc => ha hc.1]
    by_cases hin : addr + n ≤ x.team.kernel.unit
    · simp only [hm, if_pos hin, if_neg (Nat.not_lt.2 hin)]
      rfl
    · simp only [if_neg hin, if_pos (Nat.not_le.1 hin)]
  rw [checkAccess, hrange]
  by_cases hin : addr + n ≤ x.team.kernel.unit
  · simp only [if_pos hin, rangeDenied_unit]
    rfl
  · simp only [if_neg hin]

theorem unitStorePlaces : Sys2Proof.Claims.UnitStorePlaces := by
  intro s x a t n addr ha hm
  exact checkAccess_unit x s t ha hm

/-! ### The denial that decides (R190) -/

/-- Without merge form nothing lies in a merge buffer (R226). -/
theorem touchesMerge_of_form {l : Launch} (h : l.form ≠ 2) (t : Team) (lo n : Nat) : touchesMerge l t lo n = false := by
  rw [touchesMerge, mergeBuffer, if_neg h]
  simp

theorem mergeOverflow_of_form {x : Ctx} (h : x.launch.form ≠ 2) (data : Nat → List Byte) (places : List (Req × Place)) :
    mergeOverflow x data places = [] := if_neg h

/-- Of denials of one precedence the first decides where no later thread is lower. -/
theorem foldl_worse_of_least (e : Nat × Denied) : ∀ l : List (Nat × Denied), (∀ e' ∈ l, e'.2.prec = e.2.prec ∧ e.1 ≤ e'.1) → l.foldl worse e = e
  | [], _ => rfl
  | e' :: l, h => by
    obtain ⟨hp, ht⟩ := h e' (List.mem_cons_self ..)
    rw [List.foldl_cons, worse, if_neg (by omega)]
    exact foldl_worse_of_least e l fun e' he' => h e' (List.mem_cons_of_mem _ he')

/-- The denials of an instruction's accesses, in the order of its threads. -/
def denialsOf (results : List (Req × Except Denied Place)) : List (Nat × Denied) :=
  results.filterMap fun r => match r.2 with
    | .error d => some (r.1.thread, d)
    | .ok _ => none

/-- The first of an instruction's denials decides where no later one has another precedence or a lower thread. -/
theorem judge_of_least {results : List (Req × Except Denied Place)} {t : Nat} {d : Denied} {rest : List (Nat × Denied)}
    (h : denialsOf results = (t, d) :: rest) (hrest : ∀ e ∈ rest, e.2.prec = d.prec ∧ t ≤ e.1) : judge results [] = .denied t d := by
  have herrs : denialsOf results ++ [] = (t, d) :: rest := by rw [List.append_nil, h]
  rw [judge]
  change (match denialsOf results ++ [] with
    | e :: rest => _
    | [] => _) = _
  rw [herrs]
  simp only [foldl_worse_of_least (t, d) rest hrest]

/-- Where every denial has one precedence, the denial of the lowest of the threads that are denied comes first. -/
theorem denialsOf_of_lowest {req : Nat → Req} {check : Req → Except Denied Place} {t : Nat} {d : Denied} (hreq : ∀ u, (req u).thread = u)
    (ht : check (req t) = .error d) (hprec : ∀ u d', check (req u) = .error d' → d'.prec = d.prec) : ∀ ts : List Nat, ts.Pairwise (· < ·) → t ∈ ts →
    (∀ u ∈ ts, u < t → ∃ p, check (req u) = .ok p) → ∃ rest, denialsOf (ts.map fun u => (req u, check (req u))) = (t, d) :: rest ∧
      ∀ e ∈ rest, e.2.prec = d.prec ∧ t ≤ e.1
  | u :: ts, hts, hmem, hlow => by
    obtain ⟨hu, hts⟩ := List.pairwise_cons.1 hts
    by_cases hut : u = t
    · subst hut
      refine ⟨denialsOf (ts.map fun v => (req v, check (req v))), List.filterMap_cons_some (by simp only [ht, hreq]), fun e he => ?_⟩
      obtain ⟨r, hr, he⟩ := List.mem_filterMap.1 he
      obtain ⟨v, hv, rfl⟩ := List.mem_map.1 hr
      simp only [hreq] at he
      split at he
      · next d' hd' =>
        rw [← Option.some.inj he]
        exact ⟨hprec v d' hd', (hu v hv).le⟩
      · cases he
    · have htail : t ∈ ts := (List.mem_cons.1 hmem).resolve_left fun h => hut h.symm
      obtain ⟨p, hp⟩ := hlow u (List.mem_cons_self ..) (hu t htail)
      obtain ⟨rest, hrest, hle⟩ := denialsOf_of_lowest hreq ht hprec ts hts htail fun v hv => hlow v (List.mem_cons_of_mem _ hv)
      exact ⟨rest, (List.filterMap_cons_none (by simp only [hp])).trans hrest, hle⟩

theorem threadsOf_rising (k : Mask) : (threadsOf k).Pairwise (· < ·) := List.pairwise_lt_range.filter _

/-! ### ld and st past the end of the allocation (R123, R193) -/

section
variable {x : Ctx} {r : MemRow} {t : Nat} (s : State) (hform : x.launch.form ≠ 2) (ht : t < 64)
  (hact : x.f.k0.getLsbD t = true) (hpast : x.team.kernel.unit < (x.lane r.a t).toNat + widthBytes r.w)
  (hlow : ∀ u, u < t → x.f.k0.getLsbD u = true → (x.lane r.a u).toNat + widthBytes r.w ≤ x.team.kernel.unit)
include hform ht hact hpast hlow

/-- An instruction whose thread t is the lowest to run past the end of the allocation takes that thread's access-fault trap. -/
theorem Ctx.gate_past_unit {a : Access} (ha : a ≠ .atomic) (o : Order) (c : Scope)
    {more : List (Req × Place) → List (Req × Place) → List (Nat × Denied)} (hmore : ∀ p q, more p q = [])
    (act : State → List (Req × Place) → Out) :
    x.gate s 0 a o c (x.requests .unit r.a 0 (widthBytes r.w)) more act = x.trap s 10 (accessInfo a.code 0 2 t) := by
  have hcheck (u : Nat) := checkAccess_unit x s u ha (touchesMerge_of_form hform x.team (x.lane r.a u).toNat (widthBytes r.w))
  obtain ⟨rest, hrest, hle⟩ := denialsOf_of_lowest (req := fun u => ⟨u, .unit, (x.lane r.a u).toNat, widthBytes r.w⟩)
    (check := checkAccess x s a) (fun _ => rfl) ((hcheck t).trans (if_neg (Nat.not_le.2 hpast))) (fun u d' hd' => by
      rw [hcheck u] at hd'
      split at hd'
      · cases hd'
      · cases hd'
        rfl) (threadsOf x.f.k0) (threadsOf_rising _) ((mem_threadsOf ..).2 ⟨ht, hact⟩)
    fun u hu hut => ⟨_, (hcheck u).trans (if_pos (hlow u hut ((mem_threadsOf ..).1 hu).2))⟩
  have hverdict : judge ((x.requests .unit r.a 0 (widthBytes r.w)).map fun q => (q, checkAccess x s a q)) [] = .denied t _ :=
    judge_of_least (by rw [Ctx.requests, List.map_map]; exact hrest) hle
  rw [Ctx.gate]
  simp only [hmore, hverdict]
  exact if_neg (show (10 : Nat) ≠ 0 by decide)

end

theorem unitRangeTrap : Sys2Proof.Claims.UnitRangeTrap := by
  intro s x r t h hform _ ht hact hpast hlow
  refine ⟨fun hr => ?_, fun hr => ?_⟩
  · refine (onFrag_of h _).trans ?_
    rw [Ctx.withLoad, if_neg (not_waits (srcs := addressRegs .unit r.a 0) (.inr hr)), Ctx.gate_past_unit s hform ht hact hpast hlow (by decide) r.o r.c fun _ _ => rfl]
    simp [Ctx.trap, accessInfo, Access.code]
  · refine (onFrag_of h _).trans ?_
    rw [Ctx.withStore, if_neg (not_waits (srcs := (List.range (widthRegs r.w)).map (r.d + ·) ++ addressRegs .unit r.a 0) (.inr hr)), Ctx.gate_past_unit s hform ht hact hpast hlow (by decide) r.o r.c
      fun _ _ => mergeOverflow_of_form hform ..]
    simp [Ctx.trap, accessInfo, Access.code]

/-- Settles O9: the check of an access to the unit store, and the lowest thread that it denies. -/
theorem unitStoreAccess : Obligations.UnitStoreAccess := ⟨unitStorePlaces, unitRangeTrap⟩

end Sys2Proof.Machine
end

section
/-!
PROOFS. Mask instructions and the NOP major (R87, R97, R99; O13, O19).
-/
namespace Sys2Proof.Machine

/-! ### The end of an instruction outside loop bodies (R109) -/

/-- A fragment outside loop bodies is at the next instruction once one of n words has completed. -/
theorem Group.advance_of_plain {g : Group} {x : Ctx} (hf : g.frags[x.frag]? = some x.f) (hl : (x.f.looping && !g.handler) = false) (m : Bool)
    (n : Nat) : g.advance x.frag m n = x.goesTo g m (x.wordsOn n) := by
  rw [Group.advance, hf]
  exact (Group.move_of_plain hf hl m _).trans (congrArg (x.goesTo g m) (after_eq x n))

/-- An instruction of n words that leaves its group as it was, outside loop bodies or in handler mode. -/
theorem Ctx.done_of_plain {s : State} {x : Ctx} (h : s.ctx = some x) (hl : x.f.looping = false ∨ x.g.handler = true) (s' : State) (m : Bool)
    (n : Nat) : x.done s' x.g m n = .next (x.put s' (x.goesTo x.g m (x.wordsOn n))) := by
  rw [Ctx.done, Group.advance_of_plain (State.ctx_eq_some h).2.2.1 (inBody_eq_false hl)]

/-- Parking sees no fragment. -/
theorem Group.setFrag_park62 (g : Group) (m : Bool) (i : Nat) (f : Fragment) : (g.park62 m).setFrag i f = (g.setFrag i f).park62 m := by
  unfold Group.park62
  change Group.setFrag (if (m && !g.pend.isEmpty) = true then _ else _) _ _ =
    if (m && !g.pend.isEmpty) = true then (if g.handler = true then _ else _) else _
  split
  · split <;> rfl
  · rfl

/-- The acting fragment once it has gone on, with something more of it changed. -/
theorem Ctx.setFrag_goesTo (x : Ctx) (g : Group) (m : Bool) (pc : W32) (f : Fragment) :
    (x.goesTo g m pc).setFrag x.frag f = Group.park62 { g with frags := g.frags.set x.frag f } m := by
  rw [Ctx.goesTo, Group.setFrag_park62, Group.setFrag, List.set_set]

theorem Ctx.goesTo_frag {g : Group} {x : Ctx} (hf : g.frags[x.frag]? = some x.f) (m : Bool) (pc : W32) :
    (x.goesTo g m pc).frags[x.frag]? = some { x.f with pc := pc } := by
  rw [Ctx.goesTo, Group.park62_frags, List.getElem?_set_self', hf]
  rfl

/-! ### The NOP major (R87) -/

theorem execPause_of_plain {s : State} {x : Ctx} (h : s.ctx = some x) (hl : x.f.looping = false ∨ x.g.handler = true) (m : Bool) :
    exec (.pause m) s = .next (x.put s (Group.park62
      { x.g with frags := x.g.frags.set x.frag { x.f with pc := x.wordsOn 1, wait := .paused } } m)) := by
  have hf := (State.ctx_eq_some h).2.2.1
  refine (onFrag_of h _).trans ?_
  simp only [Group.advance_of_plain hf (inBody_eq_false hl), Ctx.goesTo_frag hf, Ctx.setFrag_goesTo]
  rfl

/-- Settles O19: `nop` and `yield` complete, `pause` completes and waits, and PAUSE_EXPIRY ends the wait. -/
theorem nopResult : Obligations.NopResult := by
  refine ⟨fun s x m h hl => ⟨?_, ?_, execPause_of_plain h hl m⟩, fun s core slot frag g f hg hf hw => ?_⟩
  · exact (onFrag_of h _).trans (Ctx.done_of_plain h hl s m 1)
  · exact (onFrag_of h _).trans (Ctx.done_of_plain h hl s m 1)
  · change execPauseExpiry core slot frag s = _
    rw [execPauseExpiry]
    simp only [hg, hf, hw, if_true]
    rfl

/-! ### Mask instructions (R97, R99) -/

/-- A uniform write of mask k1 to k7 reaches the bits of the fragment's threads. -/
theorem Ctx.maskSet_writeMaskUni {s : State} {x : Ctx} (h : s.ctx = some x) {k : Nat} (hk : k ≠ 0) (v : Mask) :
    x.maskSet (x.writeMaskUni x.g k v) k x.f.threads v := by
  rw [show x.writeMaskUni x.g k v = x.writeMaskLane x.g k x.f.threads v from (if_neg hk).trans (if_neg hk).symm]
  exact Ctx.maskSet_writeMaskLane (State.ctx_eq_some h).2.2.1 ..

/-- Bit t of a register pair (R44). -/
theorem getLsbD_uniPair (x : Ctx) (r t : Nat) :
    (x.uniPair r).getLsbD t = if t < 32 then (x.uni r).getLsbD t else (x.uni (r + 1)).getLsbD (t - 32) := by
  rw [Ctx.uniPair, pairOf]
  exact BitVec.getLsbD_append

/-- Each row is one map of masks, whose bits are the row's. -/
theorem exec_of_maskDoes {s : State} {x : Ctx} {i : Instr} {r : MaskRow} (h : s.ctx = some x) (hd : MaskDoes i r) (hr : x.ready r.srcs) :
    ∃ v : Mask, (∀ t, t < 64 → v.getLsbD t = r.bit x t) ∧ exec i s = .next (x.completes s (x.writeMaskUni x.g r.d v) r.m 1) := by
  have hmap (f : Ctx → Mask) (hexec : exec i s = maskMap r.m r.d r.srcs f s) :
      exec i s = .next (x.completes s (x.writeMaskUni x.g r.d (f x)) r.m 1) := by
    rw [hexec, maskMap, onFrag_of h, if_neg (not_waitsOn hr)]
    rfl
  cases hd
  case kand m d a b => exact ⟨x.mask a &&& x.mask b, fun t _ => BitVec.getLsbD_and, hmap (fun x => x.mask a &&& x.mask b) (exec_kand ..)⟩
  case kor m d a b => exact ⟨x.mask a ||| x.mask b, fun t _ => BitVec.getLsbD_or, hmap (fun x => x.mask a ||| x.mask b) (exec_kor ..)⟩
  case kxor m d a b => exact ⟨x.mask a ^^^ x.mask b, fun t _ => BitVec.getLsbD_xor, hmap (fun x => x.mask a ^^^ x.mask b) (exec_kxor ..)⟩
  case kandn m d a b => exact ⟨x.mask a &&& ~~~x.mask b, fun t ht => by simp [ht], hmap (fun x => x.mask a &&& ~~~x.mask b) (exec_kandn ..)⟩
  case knot m d a => exact ⟨~~~x.mask a, fun t ht => by simp [ht], hmap (fun x => ~~~x.mask a) (exec_knot ..)⟩
  case kfrom m d a => exact ⟨x.uniPair a, fun t _ => getLsbD_uniPair x a t, hmap (fun x => x.uniPair a) (exec_kfrom ..)⟩

theorem Ctx.writeUni_scalar (x : Ctx) (g : Group) {r : Nat} (hr : 96 ≤ r) (v : W32) : x.writeUni g r v = g.writeG g.handler (r - 96) v :=
  if_neg (Nat.not_lt.2 hr)

/-- Settles O13: each row is one map of masks; `kto` is two uniform writes. -/
theorem maskResult : Obligations.MaskResult := by
  refine ⟨fun s x i r h hd _ hr => ?_, fun s x m r k h hr _ => ?_⟩
  · obtain ⟨v, hv, hexec⟩ := exec_of_maskDoes h hd hr
    exact ⟨_, v, hv, fun h0 => if_pos h0, fun hk => Ctx.maskSet_writeMaskUni h hk v, hexec⟩
  · refine ⟨_, _, Group.scalarSet_writeG x.g (r - 96) _, Group.scalarSet_writeG _ (r + 1 - 96) _, (onFrag_of h _).trans ?_⟩
    rw [Ctx.writeUni_scalar _ _ hr, Ctx.writeUni_scalar _ _ (Nat.le_succ_of_le hr)]
    rfl

end Sys2Proof.Machine
end

section
/-!
PROOFS. exitg leaves its group nothing (R103; O55).
-/
namespace Sys2Proof.Machine

/-! ### A group without fragments and entries -/

/-- Where the group still has its slot, no fragment, no split entry and no spilled slot is left to it. -/
def State.hasNothingLeft (s : State) (key : Nat) : Prop := ∀ g, s.groups.find key = some g → g.frags = [] ∧ g.splits = [] ∧ g.spilled = []

/-- The end of a team frees no group's slot and changes no group. -/
theorem State.settleTeam_groups (s : State) (uid : Nat) : (s.settleTeam uid).groups = s.groups := by
  rw [State.settleTeam]
  split
  · rfl
  · split
    · rfl
    · split <;> rfl

/-- A slot that becomes free holds no group, and one that does not is as before. -/
theorem State.hasNothingLeft_settle {s : State} {core slot : Nat} (h : s.hasNothingLeft (slotKey core slot)) :
    (s.settle core slot).hasNothingLeft (slotKey core slot) := by
  rw [State.settle]
  split
  · exact h
  · split
    · exact h
    · split
      · intro g hg
        rw [State.settleTeam_groups, Map.find_erase, if_pos rfl] at hg
        cases hg
      · exact h

theorem State.hasNothingLeft_endGroup (s : State) (core slot : Nat) : (s.endGroup core slot).hasNothingLeft (slotKey core slot) := by
  rw [State.endGroup]
  split
  · next hnone => exact fun g hg => nomatch hnone.symm.trans hg
  · refine State.hasNothingLeft_settle fun g hg => ?_
    rw [State.putGroup, Map.find_set, if_pos rfl] at hg
    cases hg
    exact ⟨rfl, rfl, rfl⟩

/-- A barrier's release gives a group without fragments none. -/
theorem State.hasNothingLeft_evalBarrier {s : State} {key : Nat} (h : s.hasNothingLeft key) (uid : Nat) (t : Team) (fn id : Nat) :
    (s.evalBarrier uid t fn id).hasNothingLeft key := by
  have htry (uids : List Nat) (epilogue : List (Nat × Group) → Nat) : (s.tryRelease uids fn id epilogue).hasNothingLeft key := by
    rw [State.tryRelease]
    split
    · intro g hg
      rw [Map.find_mapValues] at hg
      obtain ⟨g₀, hg₀, rfl⟩ := Option.map_eq_some_iff.1 hg
      have hpass (flag : W32) : g₀.passBarrier fn id flag = g₀ := by rw [Group.passBarrier, (h g₀ hg₀).1]; rfl
      rw [hpass, ite_self]
      exact h g₀ hg₀
    · exact h
  rw [State.evalBarrier]
  split
  · exact htry _ _
  · exact htry _ _

theorem State.hasNothingLeft_evalBarriers {s : State} {key : Nat} (h : s.hasNothingLeft key) (uid : Nat) (t : Team) :
    (s.evalBarriers uid t).hasNothingLeft key := by
  have hbarrier {s : State} (h : s.hasNothingLeft key) (fn id : Nat) := State.hasNothingLeft_evalBarrier h uid t fn id
  have hteam : ((List.range 4).foldl (fun (s : State) id => s.evalBarrier uid t 0 id) s).hasNothingLeft key :=
    List.foldlRecOn (motive := fun s : State => s.hasNothingLeft key) _ _ h fun _ h _ _ => hbarrier h _ _
  exact List.foldlRecOn (motive := fun s : State => s.hasNothingLeft key) _ _ hteam fun _ h _ _ => hbarrier (hbarrier h _ _) _ _

/-- Settles O55: the end of the group takes its fragments and entries, and what follows gives it none. -/
theorem exitgEndsAll : Obligations.ExitgEndsAll := by
  refine ⟨fun rest => ?_, fun s x m h hl => ?_⟩
  · obtain ⟨w, ws, henc, hdec⟩ := reads_of_not_fromHod (i := .exitg false) rfl rfl (fun h => nomatch h)
    obtain ⟨rfl, rfl⟩ := List.cons.inj (show [w32 2669674496] = w :: ws from henc)
    exact hdec rest
  · refine ⟨_, (onFrag_of h _).trans (if_neg (by rw [inBody_eq_false hl]; exact Bool.false_ne_true)), ?_⟩
    exact State.hasNothingLeft_evalBarriers (by
      intro g hg
      exact State.hasNothingLeft_endGroup _ _ _ g hg) _ _

end Sys2Proof.Machine
end

section
/-!
PROOFS. tret restores the frame's masks and resumes the fragment (R126, R127, R129, R135; O23).
-/
namespace Sys2Proof.Machine

/-! ### Numbers in a team's allocation -/

theorem unitKey_add (core a i : Nat) : unitKey core (a + i) = unitKey core a + i := (Nat.add_assoc ..).symm

theorem Ctx.unitNumber_eq (x : Ctx) (s : State) (i n : Nat) :
    x.unitNumber s i n = leNat (s.mem.bytes (unitKey x.core (x.team.base + i)) n) := by
  rw [Ctx.unitNumber, Memory.bytes]
  simp only [unitKey_add]

/-! ### The masks of a frame (R125, R129) -/

/-- Mask i of a frame is the number in the first 8 of its 16 bytes. -/
theorem frameMasks_getD (x : Ctx) (s : State) {i : Nat} (hi : i < 8) :
    (frameMasks s (unitKey x.core (x.team.base + frameOffset x.team x.g.gix))).getD i 0 =
      BitVec.ofNat 64 (x.unitNumber s (x.frameAt + 0x40 + 16 * i) 8) := by
  rw [x.unitNumber_eq, frameMasks, List.getD_eq_getElem?_getD, List.getElem?_map, List.getElem?_range hi, Nat.add_assoc x.frameAt,
    ← Nat.add_assoc x.team.base, unitKey_add _ (_ + _), ← Nat.add_assoc]
  rfl

/-- Setting entries 1 to m one after another. -/
theorem Map.getZ_foldl_setZ {w : Nat} (v : Nat → BitVec w) (k : Map (BitVec w)) (m n : Nat) :
    ((List.range m).foldl (fun k i => k.setZ (i + 1) (v (i + 1))) k).getZ n = if 1 ≤ n ∧ n < m + 1 then v n else k.getZ n := by
  induction m with
  | zero => exact (if_neg (by omega)).symm
  | succ m ih =>
    rw [List.range_succ, List.foldl_append, List.foldl_cons, List.foldl_nil, Map.getZ_setZ, ih]
    by_cases hn : n = m + 1
    · rw [if_pos hn, if_pos (by omega), hn]
    · rw [if_neg hn]
      exact if_congr (by omega) rfl rfl

/-- Settles O23: in handler mode the return puts the frame's masks and the fragment's place back, and then takes a held trap. -/
theorem trapReturns : Obligations.TrapReturns := by
  intro s x m h
  have hexec := onFrag_of h fun x =>
    if !x.g.handler then x.illegal s 0 else if x.g.pend.any (·.handlerBank) then .next s else .next (returnFromTrap x m s)
  refine ⟨fun hh hp => ?_, fun hh => hexec.trans (if_pos (by rw [hh]; rfl))⟩
  have hany : ¬(x.g.pend.any fun p => p.handlerBank) = true := by simpa using hp
  have htret : exec (.tret m) s = .next (returnFromTrap x m s) := hexec.trans ((if_neg (by rw [hh]; decide)).trans (if_neg hany))
  refine ⟨_, fun n => (Map.getZ_foldl_setZ (fun i => (frameMasks s (unitKey x.core (x.team.base + frameOffset x.team x.g.gix))).getD i 0)
    x.g.k 7 n).trans ?_, fun hnone => ?_, fun held hsome => ?_⟩
  · split
    · next hn => exact frameMasks_getD x s hn.2
    · rfl
  · rw [htret, returnFromTrap, hnone, frameMasks_getD x s (by omega)]
  · rw [htret, returnFromTrap, hsome, frameMasks_getD x s (by omega)]

end Sys2Proof.Machine
end

section
/-!
PROOFS. Package barriers: arrivals, waits on a phase, and the release (R119, R121, R440, R442; O26).
-/
namespace Sys2Proof.Machine

/-! ### Arrivals and waits on a phase (R121, R440) -/

/-- The acting fragment goes on and waits. -/
theorem Ctx.waitFor_goesTo {g : Group} {x : Ctx} (hf : g.frags[x.frag]? = some x.f) (m : Bool) (pc : W32) (w : Wait) :
    (x.goesTo g m pc).waitFor x.frag w = Group.park62 { g with frags := g.frags.set x.frag { x.f with pc := pc, wait := w } } m := by
  rw [Group.waitFor, Ctx.goesTo_frag hf]
  exact Ctx.setFrag_goesTo ..

/-- A package barrier that is bound stays so. -/
theorem Ctx.bindBarrier_of_bound {s : State} {x : Ctx} (h : s.ctx = some x) {id : Nat} (hb : (x.launch.barrier id).bound = true) :
    s.bindBarrier x.team.launch id = some s := by
  rw [State.bindBarrier, (State.ctx_eq_some h).2.2.2.2]
  exact if_pos hb

/-- A phase has not been passed while it is at most 2^15 ahead of the counter (R121). -/
theorem phaseWaits_iff {counter phase : Nat} (hc : counter < 65536) :
    phaseWaits counter phase = true ↔ ((phase : Int) - (counter : Int)) % 65536 ≤ 2 ^ 15 := by
  rw [phaseWaits, decide_eq_true_eq]
  omega

section
variable {s : State} {x : Ctx} {g : Group} {id : Nat} (hf : g.frags[x.frag]? = some x.f) (hl : (x.f.looping && !g.handler) = false)
  (hP : (x.launch.barrier id).phase < 65536) (m : Bool) (fn : Nat) {phase : Nat}
include hf hl hP

theorem Ctx.awaitPhase_of_ahead (h : ((phase : Int) - ((x.launch.barrier id).phase : Int)) % 65536 ≤ 2 ^ 15) : x.awaitPhase s g m fn id phase =
    .next (x.put s (Group.park62 { g with frags := g.frags.set x.frag { x.f with pc := x.wordsOn 1, wait := .phase fn id phase } } m)) := by
  rw [Ctx.awaitPhase, if_pos ((phaseWaits_iff hP).2 h), Group.advance_of_plain hf hl, Ctx.waitFor_goesTo hf]
  rfl

theorem Ctx.awaitPhase_of_passed (h : (2 ^ 15 : Int) < ((phase : Int) - ((x.launch.barrier id).phase : Int)) % 65536) :
    x.awaitPhase s g m fn id phase = .next (x.put s (x.goesTo g m (x.wordsOn 1))) := by
  rw [Ctx.awaitPhase, if_neg fun hw => absurd ((phaseWaits_iff hP).1 hw) (by omega), Group.advance_of_plain hf hl]
  rfl

end

/-- `wait.p` waits on the phase that its token names, if the token has no other bits. -/
theorem execWaitP_of_ready {s : State} {x : Ctx} (h : s.ctx = some x) (hk : x.team.kind = 0) (m : Bool) {a : Nat} (hr : x.ready [a]) :
    exec (.waitP m a) s = if (x.uni a).toNat / 8 % 8192 ≠ 0 then x.illegal s (x.uni a)
      else x.awaitPhase s x.g m 6 ((x.uni a).toNat % 8) ((x.uni a).toNat / 65536) :=
  (onFrag_of h _).trans ((if_neg fun hn => hn hk).trans (if_neg (not_waitsOn hr)))

theorem packageBarrierArrives : Sys2Proof.Claims.PackageBarrierArrives := by
  intro s x m id h hk hb hl P
  have hf := (State.ctx_eq_some h).2.2.1
  have hplain := inBody_eq_false hl
  have hbound := Ctx.bindBarrier_of_bound h hb
  refine ⟨⟨(x.reach x.g id).arrived, fun n => ?_, fun hP => ?_, fun d => ?_⟩, fun a hr hid => ?_⟩
  · rw [Ctx.reach, Map.getZ_setZ]
  · refine ((onFrag_of h _).trans (if_neg fun hn => hn hk)).trans ?_
    rw [hbound]
    exact Ctx.awaitPhase_of_ahead (g := x.reach x.g id) hf hplain hP m 4 (by omega)
  · refine ⟨_, Ctx.uniformSet_writeUni { x with g := x.reach x.g id } d _, ((onFrag_of h _).trans (if_neg fun hn => hn hk)).trans ?_⟩
    rw [hbound]
    rfl
  · refine ⟨fun h0 hP => ⟨fun hw => ?_, fun hw => ?_⟩, fun h0 => ?_⟩
    · rw [execWaitP_of_ready h hk m hr, if_neg fun hn => hn h0, hid]
      exact Ctx.awaitPhase_of_ahead hf hplain hP m 6 hw
    · rw [execWaitP_of_ready h hk m hr, if_neg fun hn => hn h0, hid]
      exact Ctx.awaitPhase_of_passed hf hplain hP m 6 hw
    · exact (execWaitP_of_ready h hk m hr).trans (if_pos h0)

/-! ### The release (R119, R442) -/

/-- The phase that follows a phase passes it (R121). -/
theorem phaseWaits_next (phase : Nat) : phaseWaits ((phase + 1) % 65536) phase = false := by
  rw [phaseWaits, decide_eq_false_iff_not]
  omega

/-- A wait on the phase that ends is over (R121). -/
theorem Wait.atPhase_next (fn id phase : Nat) : (Wait.phase fn id phase).atPhase id ((phase + 1) % 65536) = .none :=
  if_pos ⟨rfl, by rw [phaseWaits_next]; rfl⟩

/-- In a map whose keys rise each entry is found under its key. -/
theorem Map.find_of_mem {α : Type} {m : Map α} (h : m.rising) {e : Nat × α} (he : e ∈ m.entries) : m.find e.1 = some e.2 := by
  have hfind : ∀ l : List (Nat × α), (l.Pairwise fun a b => a.1 < b.1) → e ∈ l → findEntry e.1 l = some e.2 := by
    intro l hl he
    induction l with
    | nil => cases he
    | cons d l ih =>
      obtain ⟨hd, hl⟩ := List.pairwise_cons.1 hl
      obtain rfl | he := List.mem_cons.1 he
      · simp [findEntry]
      · have := hd e he
        simp only [findEntry, if_neg (show ¬e.1 = d.1 by omega)]
        exact ih hl he
  exact hfind _ h he

section
variable {s : State} {key id : Nat} {l : Launch}

/-- A grid team counts as arrived that has ended, or all of whose groups have arrived (R119, R441). -/
theorem State.teamReached_of {ix : Nat} (hreach : ∀ e ∈ s.groups.entries, ((s.teams.find e.2.team).map fun t => t.launch) = some key →
      ∀ f ∈ e.2.frags, f.threads &&& ~~~(e.2.arrived.getZ id) = 0)
    (h : ix ∈ l.ended ∨ ∃ e ∈ s.teams.entries, e.2.launch = key ∧ e.2.kind = 0 ∧ e.2.teamIx = ix ∧ s.teams.find e.1 = some e.2) :
    s.teamReached key l id ix = true := by
  rw [State.teamReached, Bool.or_eq_true, Bool.or_eq_true]
  obtain hended | ⟨e, he, hkey, hkind, hix, hfind⟩ := h
  · exact .inl (.inl (List.contains_iff_mem.2 hended))
  · refine .inl (.inr (List.any_eq_true.2 ⟨e, he, ?_⟩))
    simp only [hkey, hkind, hix, decide_true, Bool.true_and, List.all_eq_true, Bool.or_eq_true, bne_iff_ne]
    intro g hg
    obtain ⟨p, hp, rfl⟩ := List.mem_map.1 hg
    by_cases hteam : p.2.team = e.1
    · refine .inr (List.all_eq_true.2 fun f hf => beq_iff_eq.2 (hreach p hp ?_ f hf))
      rw [hteam, hfind, Option.map_some, hkey]
    · exact .inl hteam

end

theorem packageBarrierReleases : Sys2Proof.Claims.PackageBarrierReleases := by
  intro s key id l hl hb he hsaved hgroups hsome hrising hix hmerge
  have hown (g : Machine.Group) (k : Nat) (hg : s.groups.find k = some g) (hkey : ((s.teams.find g.team).map fun t => t.launch) = some key) :
      ((s.teams.find g.team).map fun t => decide (t.launch = key) && decide (t.kind = 0)).getD false = true := by
    obtain ⟨t, ht, hlaunch⟩ := Option.map_eq_some_iff.1 hkey
    simp [ht, hlaunch, (hgroups k g hg hkey).1 t ht]
  have hreached : (List.range (l.gridx * l.gridy)).all (s.teamReached key l id) = true := List.all_eq_true.2 fun ix hlt =>
    State.teamReached_of (fun e he hkey => (hgroups _ _ (Map.find_of_mem hrising he) hkey).2) (hix ix (List.mem_range.1 hlt))
  obtain ⟨e, hmem, hfind, harr, hkey⟩ := hsome
  have hany : (s.groups.values.any fun g => ((s.teams.find g.team).map fun t => decide (t.launch = key) && decide (t.kind = 0)).getD false &&
      g.arrived.getZ id != 0) = true :=
    List.any_eq_true.2 ⟨e.2, List.mem_map_of_mem hmem, by rw [hown _ _ hfind hkey, Bool.true_and]; exact bne_iff_ne.2 harr⟩
  have hexec : exec (.packageBarrierRelease key id) s = execPackageBarrierRelease key id s := rfl
  rw [hexec, execPackageBarrierRelease]
  simp only [hl, hb, he, hany, hreached, hmerge]
  refine ⟨_, rfl, rfl, ?_, fun k g hg hkey => ⟨g.passPhase id (((l.barrier id).phase + 1) % 65536), ?_, ?_, fun i fn f hf hw => ?_⟩⟩
  · simp [Map.find_modify, hl, Launch.barrier]
  · simp [Map.find_mapValues, hg, hown g k hg hkey]
  · simp [Group.passPhase, Map.getZ, Map.get]
  · simp [Group.passPhase, hf, hw, Wait.atPhase_next]

/-- Settles O26: arrivals record and wait; the release raises the phase and ends the waits on the old one. -/
theorem packageBarriers : Obligations.PackageBarriers := ⟨packageBarrierArrives, packageBarrierReleases⟩

end Sys2Proof.Machine
end

section
/-!
PROOFS. The end of threads, and of a group whose last thread has ended (R89, R102 to R104; O16).
-/
namespace Sys2Proof.Machine

/-! ### What the end of threads does to the group (R89, R102) -/

/-- The entry without the threads of A. -/
def Split.without (e : Split) (A : Mask) : Split := { e with mask := e.mask &&& ~~~A }

/-- The fragment without the threads of A: all that it has left are active (R102). -/
def Fragment.without (f : Fragment) (A : Mask) : Fragment := { f with threads := f.threads &&& ~~~A, k0 := f.threads &&& ~~~A }

/-- The group once the threads of A have left every entry. -/
def Group.cutEntries (g : Group) (A : Mask) : Group :=
  { g with splits := g.splits.map (·.without A), spilled := g.spilled.map fun p => (p.1, p.2.without A) }

/-- The group once the threads of A have left the acting fragment too, before entries are released and joins evaluated. -/
def Ctx.cutThreads (x : Ctx) (g : Group) (A : Mask) (n : Nat) : Group :=
  let F := x.f.threads &&& ~~~A
  match g.frags[x.frag]? with
  | none => g.cutEntries A
  | some f =>
    if F = 0 then (g.cutEntries A).removeFrag x.frag
    else ((g.cutEntries A).setFrag x.frag { f with threads := F, k0 := F }).goto x.frag (f.pc + BitVec.ofNat 32 (4 * n))

/-- With no entry spilled, the end of threads is the cut, the release of entries and the evaluation of joins. -/
theorem Ctx.endThreads_of_unspilled {x : Ctx} {s : State} {g : Group} (hsp : g.spilled = []) (A : Mask) (n : Nat) {w₁ w₂ : Work}
    (hrel : x.releaseAll 64 ⟨s, x.cutThreads g A n, []⟩ = .ok w₁) (heval : x.evalJoins 256 w₁ = .ok w₂) (hclean : w₂.dirty = []) :
    x.endThreads s g A n = .ok w₂ := by
  have heq : x.endThreads s g A n = (x.releaseAll 64 ⟨s, x.cutThreads g A n,
      (g.spilled.filter fun (p : Nat × Split) => p.2.mask &&& A != 0).map (·.2.num)⟩ >>= fun w => x.evalJoins 256 w >>= x.rewriteMasks) := rfl
  rw [heq, hsp, List.filter_nil, List.map_nil, hrel]
  show (x.evalJoins 256 w₁ >>= x.rewriteMasks) = _
  rw [heval]
  exact Ctx.rewriteMasks_of_clean hclean

section
variable {x : Ctx} {g : Group} (hf : g.frags[x.frag]? = some x.f) {A : Mask} (n : Nat)
include hf

/-- The fragment goes on with the threads that it has left. -/
theorem Ctx.cutThreads_of_left (hl : (x.f.looping && !g.handler) = false) (hF : x.f.threads &&& ~~~A ≠ 0) : x.cutThreads g A n =
    { g.cutEntries A with frags := g.frags.set x.frag { x.f.without A with pc := x.wordsOn n } } := by
  have hset : ((g.cutEntries A).setFrag x.frag (x.f.without A)).frags[x.frag]? = some (x.f.without A) :=
    (List.getElem?_set_self' ..).trans (by rw [show (g.cutEntries A).frags = g.frags from rfl, hf]; rfl)
  rw [Ctx.cutThreads]
  simp only [hf, if_neg hF]
  refine (Group.goto_of_plain ((g.cutEntries A).setFrag x.frag (x.f.without A)) x.frag (x.f.without A) _ hset hl).trans ?_
  rw [← after_eq, Group.setFrag, List.set_set]
  rfl

/-- A fragment that has no thread left is there no more. -/
theorem Ctx.cutThreads_of_none (hF : x.f.threads &&& ~~~A = 0) : x.cutThreads g A n = (g.cutEntries A).removeFrag x.frag := by
  rw [Ctx.cutThreads]
  simp only [hf, if_pos hF]

/-- Threads end, others of their fragment are left, no fragment waits at a join and no entry lies in one fragment. -/
theorem Ctx.endThreads_of_left (s : State) (hl : (x.f.looping && !g.handler) = false) (hsp : g.spilled = []) (hF : x.f.threads &&& ~~~A ≠ 0)
    (hj : ∀ f ∈ g.frags, f.joins = false) (hs : ∀ q ∈ g.splits, (q.without A).spread (x.f.threads &&& ~~~A) ∧
      ∀ (i : Nat) f, g.frags[i]? = some f → i ≠ x.frag → (q.without A).spread f.threads) :
    x.endThreads s g A n =
      .ok ⟨s, { g.cutEntries A with frags := g.frags.set x.frag { x.f.without A with pc := x.wordsOn n } }, []⟩ := by
  have hcut := Ctx.cutThreads_of_left hf n hl hF
  rw [← hcut]
  refine Ctx.endThreads_of_unspilled hsp A n (w₁ := ⟨s, _, []⟩) (Ctx.releaseAll_of_none (fun e he => ?_) 64) ?_ rfl
  · rw [hcut, Group.entries, Group.cutEntries, hsp, List.map_nil, List.map_nil, List.append_nil] at he
    obtain ⟨q, hq, rfl⟩ := List.mem_map.1 he
    obtain ⟨hacting, hothers⟩ := hs q hq
    refine Group.releasable_of_spread (Split.mask_ne_zero_of_spread hacting) fun f hfm => ?_
    rw [hcut] at hfm
    obtain ⟨i, hi⟩ := List.mem_iff_getElem?.1 hfm
    by_cases hix : i = x.frag
    · rw [hix, List.getElem?_set_self', hf] at hi
      rw [← Option.some.inj hi]
      exact hacting
    · rw [List.getElem?_set_ne fun hc => hix hc.symm] at hi
      exact hothers i f hi hix
  · rw [hcut]
    refine Ctx.evalJoins_of_passing (fun f hfm => ?_) 255
    obtain hfm | rfl := List.mem_or_eq_of_mem_set hfm
    · exact hj f hfm
    · exact hj x.f (List.mem_of_getElem? hf)

end

/-! ### After the end of threads (R102 to R104, R119) -/

/-- s' is s but that the acting group is g, and for the teams. -/
def Ctx.becomes (x : Ctx) (s s' : State) (g : Group) : Prop :=
  s'.groups.find (slotKey x.core x.slot) = some g ∧ (∀ k, k ≠ slotKey x.core x.slot → s'.groups.find k = s.groups.find k) ∧
    { s' with groups := s.groups, teams := s.teams } = s

theorem Group.OffBarriers.park62 {g : Group} (h : g.OffBarriers) (m : Bool) : (g.park62 m).OffBarriers := by
  rw [Group.OffBarriers, Group.park62_frags]
  exact h

/-- A group that has threads left and waits at no barrier goes on. -/
theorem Ctx.afterEnd_of_left {x : Ctx} {s : State} {g : Group} (hne : g.frags ≠ []) (hg : g.OffBarriers) (hn : s.noneAtBarrier) (m : Bool) :
    ∃ s', x.afterEnd s g m = .next s' ∧ x.becomes s s' (g.park62 m) ∧ s'.bins = s.bins ∧ s'.mem = s.mem := by
  have hempty : ¬g.frags.isEmpty = true := by rwa [List.isEmpty_iff]
  have hnone (f : Team → Team) : ((x.put s (g.park62 m)).modTeam x.g.team f).noneAtBarrier := Ctx.noneAtBarrier_put hn x (hg.park62 m)
  rw [Ctx.afterEnd]
  simp only [if_neg hempty, State.evalBarriers_of_noneAtBarrier (hnone _)]
  exact ⟨_, rfl, ⟨(Map.find_set ..).trans (if_pos rfl), fun k hk => (Map.find_set ..).trans (if_neg hk), rfl⟩, rfl, rfl⟩

section
variable {s : State} {x : Ctx} (h : s.ctx = some x) (hh : x.g.handler = false) (hl : x.f.looping = false)
include h hh hl

/-- What `exit` does once it is known how its threads end. -/
theorem exec_exit_of_endThreads (m : Bool) {g : Group} (hend : x.endThreads s x.g x.f.k0 1 = .ok ⟨s, g, []⟩) :
    exec (.exit m) s = x.afterEnd s g m := by
  refine (onFrag_of h _).trans ((if_neg (by rw [inBody_eq_false (.inl hl), hh]; exact Bool.false_ne_true)).trans ?_)
  rw [hend]

/-- `exit` where threads of the group are left. -/
theorem exec_exit_becomes (hn : s.noneAtBarrier) (m : Bool) {g : Group} (hend : x.endThreads s x.g x.f.k0 1 = .ok ⟨s, g, []⟩)
    (hne : g.frags ≠ []) (hlike : ∀ q ∈ g.frags, ∃ f ∈ x.g.frags, q.WaitsLike f) :
    ∃ s', exec (.exit m) s = .next s' ∧ x.becomes s s' (g.park62 m) := by
  obtain ⟨s', hexec, hbecomes, -⟩ := Ctx.afterEnd_of_left (x := x) hne ((Ctx.offBarriers h hn).of_waitsLike hlike) hn m
  exact ⟨s', (exec_exit_of_endThreads h hh hl m hend).trans hexec, hbecomes⟩

/-- `exit` where threads of the fragment are left. -/
theorem exec_exit_of_left (hn : s.noneAtBarrier) (m : Bool) (hsp : x.g.spilled = []) (hF : x.f.threads &&& ~~~x.f.k0 ≠ 0)
    (hj : ∀ f ∈ x.g.frags, f.joins = false) (hs : ∀ q ∈ x.g.splits, (q.without x.f.k0).spread (x.f.threads &&& ~~~x.f.k0) ∧
      ∀ (i : Nat) f, x.g.frags[i]? = some f → i ≠ x.frag → (q.without x.f.k0).spread f.threads) :
    ∃ s', exec (.exit m) s = .next s' ∧ x.becomes s s' (Group.park62
      { x.g.cutEntries x.f.k0 with frags := x.g.frags.set x.frag { x.f.without x.f.k0 with pc := x.wordsOn 1 } } m) := by
  have hf := (State.ctx_eq_some h).2.2.1
  refine exec_exit_becomes h hh hl hn m (Ctx.endThreads_of_left hf 1 s (by rw [hl]; rfl) hsp hF hj hs) ?_ fun q hq => ?_
  · rw [Ne, List.set_eq_nil_iff]
    exact List.ne_nil_of_mem (List.mem_of_getElem? hf)
  · obtain hq | rfl := List.mem_or_eq_of_mem_set hq
    · exact ⟨q, hq, rfl, .inl rfl⟩
    · exact ⟨x.f, List.mem_of_getElem? hf, rfl, .inl rfl⟩

end

theorem Group.cutEntries_of_unspilled {g : Group} (hsp : g.spilled = []) (A : Mask) :
    g.cutEntries A = { g with splits := g.splits.map (·.without A) } := by
  rw [Group.cutEntries, hsp, List.map_nil, ← hsp]

theorem claim_exitResult : Sys2Proof.Claims.ExitResult := by
  intro s x m h hh hl hs hsp hj hn F hF
  obtain ⟨s', hexec, hg, hk, hs'⟩ := exec_exit_of_left h hh hl hn m hsp hF hj (by rw [hs]; exact fun q hq => absurd hq List.not_mem_nil)
  rw [Group.cutEntries_of_unspilled hsp, hs, List.map_nil, ← hs] at hg
  exact ⟨s', hexec, hg, hk, hs'⟩

/-! ### The last thread of a fragment inside a split ends (R89) -/

/-- A join that no longer concerns fragment f has let it go on; another fragment stays. -/
def Fragment.passes (f : Fragment) : Fragment :=
  { f with wait := if f.joins = true then .none else f.wait, pc := if f.joins = true then f.pc + 4 else f.pc }

theorem Fragment.passes_of_joins {f : Fragment} (h : f.joins = true) : f.passes = { f with wait := .none, pc := f.pc + 4 } := by
  rw [Fragment.passes, if_pos h, if_pos h]

theorem Fragment.passes_of_not_joins {f : Fragment} (h : f.joins = false) : f.passes = f := by
  rw [Fragment.passes, h]
  rfl

/-- Where only fragment j may wait at a join, and one that concerns it no more, the joins' evaluation lets it go on. -/
theorem Ctx.evalJoins_passes {x : Ctx} {w : Work} {j : Nat} {f : Fragment} (hj : w.g.frags[j]? = some f) (hl : f.looping = false)
    (hno : w.g.noOtherJoins [j]) (hdone : ∀ e, w.g.innerOf f = some e → e.reconvPc ≠ f.pc) (n : Nat) :
    x.evalJoins (n + 2) w = .ok { w with g := { w.g with frags := w.g.frags.set j f.passes } } := by
  have hlt := (List.getElem?_eq_some_iff.1 hj).1
  by_cases hjoins : f.joins = true
  · have hfind : w.g.frags.findIdx? w.g.joinDone = some j := by
      rw [List.findIdx?_eq_some_iff_getElem]
      refine ⟨hlt, ?_, fun i hi => ?_⟩
      · rw [(List.getElem?_eq_some_iff.1 hj).2, Group.joinDone, hjoins, Bool.true_and, Bool.not_eq_true', Option.any_eq_false]
        exact fun e he => decide_eq_false (hdone e he)
      · rw [Group.joinDone, hno i _ (List.getElem?_eq_getElem (hi.trans hlt)) (by simp; omega)]
        exact Bool.false_ne_true
    have hgo : (w.g.setFrag j { f with wait := .none }).goto j (f.pc + 4) = { w.g with frags := w.g.frags.set j f.passes } := by
      refine (Group.goto_of_plain (w.g.setFrag j { f with wait := .none }) j { f with wait := .none } _ (List.getElem?_set_self hlt)
        (by rw [show ({ f with wait := .none } : Fragment).looping = false from hl]; rfl)).trans ?_
      rw [Group.setFrag, List.set_set, Fragment.passes_of_joins hjoins]
    rw [Ctx.evalJoins_done hfind hj, hgo]
    refine Ctx.evalJoins_of_passing (fun q hq => ?_) n
    obtain ⟨i, hi⟩ := List.mem_iff_getElem?.1 hq
    by_cases hij : i = j
    · rw [hij, List.getElem?_set_self hlt, Fragment.passes_of_joins hjoins] at hi
      rw [← Option.some.inj hi]
      rfl
    · rw [List.getElem?_set_ne fun hc => hij hc.symm] at hi
      exact hno i q hi (by simpa using hij)
  · have hjoins := Bool.eq_false_iff.2 hjoins
    have hself : w.g.frags.set j f = w.g.frags := by
      rw [← (List.getElem?_eq_some_iff.1 hj).2]
      exact List.set_getElem_self hlt
    rw [Fragment.passes_of_not_joins hjoins, hself]
    refine Ctx.evalJoins_of_passing (fun q hq => ?_) (n + 1)
    obtain ⟨i, hi⟩ := List.mem_iff_getElem?.1 hq
    by_cases hij : i = j
    · rw [hij, hj] at hi
      rw [← Option.some.inj hi]
      exact hjoins
    · exact hno i q hi (by simpa using hij)

/-- Where one entry is releasable and none is once it has been released (R89). -/
theorem Ctx.releaseAll_one {x : Ctx} {w : Work} {e : Split} (hsp : w.g.spilled = []) (hfind : w.g.splits.find? w.g.releasable = some e)
    (hkeep : ∀ q ∈ (w.g.dropEntry e).splits, (w.g.dropEntry e).releasable q = false) (n : Nat) :
    x.releaseAll (n + 1) w = .ok { w with g := w.g.dropEntry e } := by
  have hentries : w.g.entries = w.g.splits := by rw [Group.entries, hsp, List.map_nil, List.append_nil]
  have hleft : (w.g.dropEntry e).entries = (w.g.dropEntry e).splits := by
    rw [Group.entries, Group.dropEntry, hsp, List.filter_nil, List.map_nil, List.map_nil, List.append_nil]
  rw [Ctx.releaseAll, hentries, hfind]
  show (x.release w e >>= x.releaseAll n) = _
  rw [Ctx.release_of_unspilled hsp]
  exact Ctx.releaseAll_of_none (fun q hq => hkeep q (hleft ▸ hq)) n

/-- Erasing place i moves place j to one place, and no other place to it. -/
theorem exists_place_eraseIdx {i j : Nat} (hij : j ≠ i) : ∃ j', (∀ l : List Fragment, (l.eraseIdx i)[j']? = l[j]?) ∧
    (∀ (l : List Fragment) (a : Fragment), (l.set j a).eraseIdx i = (l.eraseIdx i).set j' a) ∧
    ∀ k, k ≠ j' → ∃ k', k' ≠ i ∧ k' ≠ j ∧ ∀ l : List Fragment, (l.eraseIdx i)[k]? = l[k']? := by
  obtain hlt | hlt := Nat.lt_or_gt_of_ne hij
  · refine ⟨j, fun l => List.getElem?_eraseIdx_of_lt hlt, fun l a => List.eraseIdx_set_gt hlt, fun k hk => ?_⟩
    by_cases hki : k < i
    · exact ⟨k, by omega, hk, fun l => List.getElem?_eraseIdx_of_lt hki⟩
    · exact ⟨k + 1, by omega, by omega, fun l => List.getElem?_eraseIdx_of_ge (by omega)⟩
  · refine ⟨j - 1, fun l => ?_, fun l a => List.eraseIdx_set_lt hlt, fun k hk => ?_⟩
    · rw [List.getElem?_eraseIdx_of_ge (by omega), Nat.sub_add_cancel (by omega)]
    by_cases hki : k < i
    · exact ⟨k, by omega, by omega, fun l => List.getElem?_eraseIdx_of_lt hki⟩
    · exact ⟨k + 1, by omega, by omega, fun l => List.getElem?_eraseIdx_of_ge (by omega)⟩

/-- The fragments once fragment i has ended and the entry e of the other one, at j, is released. -/
def Group.fragsReleased (g : Group) (i j : Nat) (other : Fragment) (e : Split) : List Fragment :=
  ((g.frags.map fun f => { f with inner := e.above f.inner }).set j { other with inner := e.parent }.passes).eraseIdx i

section
variable {s : State} {x : Ctx} (h : s.ctx = some x) (hsp : x.g.spilled = []) {A : Mask} (hF : x.f.threads &&& ~~~A = 0)
  {e : Split} {j : Nat} {other : Fragment} (he : x.g.hasSplit e) (hj : x.g.frags[j]? = some other) (hjx : j ≠ x.frag)
  (hin : other.inner = some e.num) (hall : (e.without A).mask &&& ~~~other.threads = 0) (hplain : other.looping = false)
  (hno : x.g.noOtherJoins [x.frag, j]) (hup : ∀ q ∈ x.g.splits, e.parent = some q.num → q.reconvPc ≠ other.pc)
  (hspread : ∀ q ∈ x.g.splits, q ≠ e → ∀ (i : Nat) f, x.g.frags[i]? = some f → i ≠ x.frag → (q.without A).spread f.threads)
include h hsp hF he hj hjx hin hall hplain hno hup hspread

/-- The last threads of a fragment end and another fragment holds what is left of its entry, which is released. -/
theorem Ctx.endThreads_releases (n : Nat) : ∃ ptr, x.endThreads s x.g A n =
    .ok ⟨s, x.g.withTable (x.g.fragsReleased x.frag j other e)
      (((x.g.splits.map (·.without A)).filter fun q => q.num ≠ e.num).map fun q => { q with parent := e.above q.parent }) [] ptr, []⟩ := by
  have hf := (State.ctx_eq_some h).2.2.1
  obtain ⟨j', hat, hset, hothers⟩ := exists_place_eraseIdx hjx
  set g₁ := (x.g.cutEntries A).removeFrag x.frag with hg₁
  have hcut : x.cutThreads x.g A n = g₁ := Ctx.cutThreads_of_none hf n hF
  have hsp₁ : g₁.spilled = [] := by
    show x.g.spilled.map _ = []
    rw [hsp, List.map_nil]
  have hmem (f : Fragment) (hfm : f ∈ g₁.frags) : ∃ i, i ≠ x.frag ∧ x.g.frags[i]? = some f := List.mem_eraseIdx_iff_getElem?.1 hfm
  have hother : other ∈ g₁.frags := List.mem_eraseIdx_iff_getElem?.2 ⟨j, hjx, hj⟩
  have hkept (q : Split) (hq : q ∈ x.g.splits) (hne : q ≠ e) (f : Fragment) (hfm : f ∈ g₁.frags) : (q.without A).spread f.threads := by
    obtain ⟨i, hix, hi⟩ := hmem f hfm
    exact hspread q hq hne i f hi hix
  have hfind : g₁.splits.find? g₁.releasable = some (e.without A) := by
    refine find?_eq_of_unique (List.mem_map_of_mem he.1) ?_ fun b hb hrel => ?_
    · rw [Group.releasable, Bool.or_eq_true, List.any_eq_true]
      refine .inr ⟨other, hother, ?_⟩
      rw [hin, hall]
      simp [Split.without]
    · obtain ⟨q, hq, rfl⟩ := List.mem_map.1 hb
      by_contra hne
      have hqe : q ≠ e := fun hc => hne (congrArg (·.without A) hc)
      rw [Group.releasable_of_spread (Split.mask_ne_zero_of_spread (hkept q hq hqe other hother)) (hkept q hq hqe)] at hrel
      cases hrel
  set g₂ := g₁.dropEntry (e.without A) with hg₂
  have hfr₂ : g₂.frags = (x.g.frags.eraseIdx x.frag).map fun f => { f with inner := e.above f.inner } := rfl
  have hspl₂ : g₂.splits =
    ((x.g.splits.map (·.without A)).filter fun q => q.num ≠ e.num).map fun q => { q with parent := e.above q.parent } := rfl
  have hsp₂ : g₂.spilled = [] := by
    rw [hg₂, Group.dropEntry, hsp₁]
    rfl
  have hleft (r : Split) (hr : r ∈ g₂.splits) : ∃ q ∈ x.g.splits, q ≠ e ∧ r = { q.without A with parent := e.above q.parent } := by
    rw [hspl₂] at hr
    obtain ⟨r', hr', rfl⟩ := List.mem_map.1 hr
    obtain ⟨hr', hnum⟩ := List.mem_filter.1 hr'
    obtain ⟨q, hq, rfl⟩ := List.mem_map.1 hr'
    exact ⟨q, hq, fun hc => of_decide_eq_true hnum (by rw [hc]; rfl), rfl⟩
  have hrel : x.releaseAll 64 ⟨s, x.cutThreads x.g A n, []⟩ = .ok ⟨s, g₂, []⟩ := by
    rw [hcut]
    refine Ctx.releaseAll_one (w := ⟨s, g₁, []⟩) hsp₁ hfind (fun r hr => ?_) 63
    obtain ⟨q, hq, hne, rfl⟩ := hleft r hr
    refine Group.releasable_of_spread (Split.mask_ne_zero_of_spread (hkept q hq hne other hother)) fun p hp => ?_
    rw [hfr₂] at hp
    obtain ⟨p', hp', rfl⟩ := List.mem_map.1 hp
    exact hkept q hq hne p' hp'
  have hplace : g₂.frags[j']? = some { other with inner := e.parent } := by
    rw [hfr₂, List.getElem?_map, hat, hj, Option.map_some, hin, Split.above, if_pos rfl]
  have heval : x.evalJoins 256 ⟨s, g₂, []⟩ = .ok ⟨s, { g₂ with frags := g₂.frags.set j' { other with inner := e.parent }.passes }, []⟩ := by
    refine Ctx.evalJoins_passes (w := ⟨s, g₂, []⟩) hplace hplain (fun k q hq hk => ?_) (fun d hd => ?_) 254
    · obtain ⟨k', hkx, hkj, hkk⟩ := hothers k (by simpa using hk)
      rw [hfr₂, List.getElem?_map, hkk, Option.map_eq_some_iff] at hq
      obtain ⟨p, hp, rfl⟩ := hq
      exact hno k' p hp (by simp [hkx, hkj])
    · obtain ⟨hnum, hdm⟩ := Group.num_of_innerOf hd
      rw [Group.entries, hsp₂, List.map_nil, List.append_nil] at hdm
      obtain ⟨q, hq, -, rfl⟩ := hleft d hdm
      exact hup q hq hnum
  have hfinal : g₂.frags.set j' { other with inner := e.parent }.passes = x.g.fragsReleased x.frag j other e := by
    rw [Group.fragsReleased, hset, hfr₂, List.eraseIdx_map]
  refine ⟨g₁.ptr, (Ctx.endThreads_of_unspilled hsp A n hrel heval rfl).trans ?_⟩
  rw [hfinal]
  refine congrArg (fun g => Except.ok (⟨s, g, []⟩ : Work)) ?_
  rw [← hsp₂]
  rfl

end

theorem exitInSplit : Sys2Proof.Claims.ExitInSplit := by
  intro s x m h hh hl hsp hn F cut becomes
  refine ⟨fun hF hj hs => ?_, fun hF e j other he hj hjx hin hall _ hplain hno hup hspread => ?_⟩
  · obtain ⟨s', hexec, hg, hk, hs'⟩ := exec_exit_of_left h hh hl hn m hsp hF hj hs
    rw [Group.cutEntries_of_unspilled hsp] at hg
    exact ⟨s', hexec, hg, hk, hs'⟩
  · obtain ⟨ptr, hend⟩ := Ctx.endThreads_releases h hsp hF he hj hjx hin hall hplain hno hup hspread 1
    have hotherm : other ∈ x.g.frags := List.mem_of_getElem? hj
    obtain ⟨s', hexec, hg, hk, hs'⟩ := exec_exit_becomes h hh hl hn m hend
      (List.ne_nil_of_mem (List.mem_eraseIdx_iff_getElem?.2 ⟨j, hjx, (List.getElem?_set_self (by
        rw [List.length_map]
        exact (List.getElem?_eq_some_iff.1 hj).1))⟩)) fun q hq => by
        obtain hq | rfl := List.mem_or_eq_of_mem_set (List.mem_of_mem_eraseIdx hq)
        · obtain ⟨f, hf, rfl⟩ := List.mem_map.1 hq
          exact ⟨f, hf, rfl, .inl rfl⟩
        · refine ⟨other, hotherm, rfl, ?_⟩
          by_cases hjoins : other.joins = true
          · exact .inr (.inl (if_pos hjoins))
          · exact .inl (if_neg hjoins)
    refine ⟨ptr, s', hexec, ?_, hk, hs'⟩
    rw [hg, ← hsp]
    rfl

end Sys2Proof.Machine
end

section
/-!
PROOFS. A group whose last thread has ended frees its slot (R103, R104; O16).
-/
namespace Sys2Proof.Machine

/-! ### What leaving a core leaves alone -/

/-- s' is s, in memory and in every group, but that the group of the key is gone; what its map of groups lists again has no fragment. -/
def State.freedSlot (s s' : State) (key : Nat) : Prop :=
  s'.groups.find key = none ∧ (∀ k, k ≠ key → s'.groups.find k = s.groups.find k) ∧ s'.mem = s.mem ∧
    ∀ e ∈ s'.groups.entries, e ∈ s.groups.entries ∨ e.2.frags = []

theorem State.noneAtBarrier_freedSlot {s s' : State} {key : Nat} (hn : s.noneAtBarrier) (h : s.freedSlot s' key) : s'.noneAtBarrier := by
  obtain ⟨-, -, -, hentries⟩ := h
  intro e he f hf
  obtain he | he := hentries e he
  · exact hn e he f hf
  · rw [he] at hf
    cases hf

/-- The end of a team is no write. -/
theorem State.settleTeam_mem (s : State) (uid : Nat) : (s.settleTeam uid).mem = s.mem := by
  rw [State.settleTeam]
  split
  · rfl
  · split
    · rfl
    · split <;> rfl

/-- The end of batches changes margins only (R313). -/
theorem State.endBatches_frame (s : State) (core : Nat) (g : Group) (n : Nat) :
    ∃ margins, s.endBatches core g n = ({ s with margins := margins }, { g with batches := g.batches.drop n }) := by
  have hone (s : State) (b : Batch) (beats : Nat) : ∃ margins, s.batchEnds core b beats = { s with margins := margins } := by
    rw [State.batchEnds]
    split
    · exact ⟨_, rfl⟩
    · exact ⟨s.margins, rfl⟩
  have hall (l : List Batch) : ∀ s : State, ∃ margins,
      l.foldl (fun s b => s.batchEnds core b (Config.choice s.tick (2 ^ 16 * b.last + 0x610))) s = { s with margins := margins } := by
    induction l with
    | nil => exact fun s => ⟨s.margins, rfl⟩
    | cons b l ih =>
      intro s
      obtain ⟨margins, h⟩ := hone s b (Config.choice s.tick (2 ^ 16 * b.last + 0x610))
      obtain ⟨margins', h'⟩ := ih { s with margins := margins }
      exact ⟨margins', by rw [List.foldl_cons, h, h']⟩
  obtain ⟨margins, h⟩ := hall (g.batches.take n) s
  exact ⟨margins, congrArg (Prod.mk · _) h⟩

theorem State.quitLog_none (s : State) (core slot uid : Nat) : s.quitLog core slot uid none = s := by
  have hleave : s.leaveLog uid slot none = s := by
    rw [State.leaveLog]
    split
    · rfl
    · rfl
  rw [State.quitLog, hleave]
  cases s.teams.find uid <;> rfl

/-- A group with no fragment and nothing outstanding frees its slot, and leaves memory and the other groups alone. -/
theorem State.settle_frees {s : State} {core slot : Nat} {g : Group} {t : Team} (hg : s.groups.find (slotKey core slot) = some g)
    (ht : s.teams.find g.team = some t) (hfr : g.frags = []) (hleaving : t.leaving ≠ 3) (hops : ∀ k ∈ g.classes.values, k.ops = [])
    (hlate : g.late = []) (hlog : g.log = none) : s.freedSlot (s.settle core slot) (slotKey core slot) := by
  have hquiet : ((g.frags.isEmpty || t.stopped) && t.leaving != 3 && g.classes.values.all (fun k => k.ops.isEmpty) &&
      g.late.all fun e => !e.places.any s.covered) = true := by
    simp only [hfr, hlate, List.isEmpty_nil, Bool.true_or, List.all_nil, Bool.and_true, Bool.true_and, Bool.and_eq_true, bne_iff_ne]
    exact ⟨hleaving, List.all_eq_true.2 fun k hk => by rw [hops k hk]; rfl⟩
  obtain ⟨margins, hend⟩ := s.endBatches_frame core g.sealBatch.1 g.sealBatch.1.batches.length
  have hfinish : ∃ g', g'.frags = [] ∧ s.finishBatches core slot = State.putGroup { s with margins := margins } core slot g' := by
    refine ⟨_, ?_, by rw [State.finishBatches, hg]; simp only [hend]; rfl⟩
    rw [← hfr, Group.sealBatch]
    split <;> rfl
  obtain ⟨g', hfr', hfinish⟩ := hfinish
  rw [State.settle, hg]
  simp only [ht, if_pos hquiet, State.finishAll_of_none_late ((State.lateOf_of_find hg).trans hlate), hfinish, hlog, State.quitLog_none]
  refine ⟨?_, fun k hk => ?_, State.settleTeam_mem .., fun e he => ?_⟩
  · rw [State.settleTeam_groups]
    exact (Map.find_erase ..).trans (if_pos rfl)
  · rw [State.settleTeam_groups]
    exact (Map.find_erase ..).trans ((if_neg hk).trans ((Map.find_set ..).trans (if_neg hk)))
  · rw [State.settleTeam_groups] at he
    obtain rfl | he := mem_insertEntry _ _ _ _ (List.mem_of_mem_filter he)
    · exact .inr hfr'
    · exact .inl he

/-! ### The end of a group (R104) -/

/-- Listing a class again adds no operation. -/
theorem Group.ops_putClass {g : Group} (hops : ∀ k ∈ g.classes.values, k.ops = []) (n : Nat) :
    (g.cls n).ops = [] ∧ ∀ k ∈ (g.putClass n (g.cls n)).classes.values, k.ops = [] := by
  have hcls : (g.cls n).ops = [] := by
    rw [Group.cls, Map.get]
    cases hf : g.classes.find n with
    | none => rfl
    | some k =>
      obtain ⟨e, he, rfl⟩ := mem_of_findEntry n k g.classes.entries hf
      exact hops _ (List.mem_map_of_mem he)
  refine ⟨hcls, fun k hk => ?_⟩
  obtain ⟨e, he, rfl⟩ := List.mem_map.1 hk
  obtain rfl | he := mem_insertEntry _ _ _ _ he
  · exact hcls
  · exact hops _ (List.mem_map_of_mem he)

/-- What the end of a group asks for: nothing of it is outstanding. -/
structure Group.Idle (g : Group) : Prop where
  ops : ∀ k ∈ g.classes.values, k.ops = []
  step : g.step = none
  log : g.log = none
  late : g.late = []

/-- The group once its open batch is sealed (R305), with class 1 listed again. -/
def Group.sealed (g : Group) : Group := g.sealBatch.1.putClass 1 (g.sealBatch.1.cls 1)

theorem Group.sealed_frame (g : Group) : ∃ batches level replays, g.sealed =
    { g with batch := 0, batches := batches, openLevel := level, openReplays := replays, classes := g.classes.set 1 (g.cls 1) } := by
  by_cases hb : g.batch = 0
  · have hseal : g.sealBatch.1 = g := by
      rw [Group.sealBatch]
      simp only [if_pos hb]
    refine ⟨g.batches, g.openLevel, g.openReplays, ?_⟩
    rw [Group.sealed, hseal, ← hb]
    rfl
  · refine ⟨g.batches ++ [⟨(g.cls 1).last, g.openLevel, g.openReplays⟩], none, 0, ?_⟩
    rw [Group.sealed, Group.sealBatch]
    simp only [if_neg hb]
    rfl

theorem Group.sealed_team (g : Group) : g.sealed.team = g.team := g.sealBatch_fields.1

/-- Sealing a group whose class 1 operations are accepted changes the group alone. -/
theorem State.sealGroup_of_accepted {s : State} {core slot : Nat} {g : Group} {t : Team} (hg : s.groups.find (slotKey core slot) = some g)
    (ht : s.teams.find g.team = some t) (h : ∀ o ∈ (g.cls 1).ops, o.order ≠ 0) :
    s.sealGroup core slot = (s.putGroup core slot g.sealed).putTeam g.team t := by
  obtain ⟨hteam, hcls, -⟩ := g.sealBatch_fields
  rw [State.sealGroup, hg]
  simp only
  rw [State.acceptBatch_of_accepted (g := g.sealBatch.1) (t := t) ((Map.find_set ..).trans (if_pos rfl)) (by rw [hteam]; exact ht)
    (by rw [hcls]; exact h), hteam, State.putGroup_putGroup]
  rfl

theorem State.endGroup_frees {s : State} {core slot : Nat} {g : Group} {t : Team} (hg : s.groups.find (slotKey core slot) = some g)
    (ht : s.teams.find g.team = some t) (hleaving : t.leaving ≠ 3) (hidle : g.Idle) :
    s.freedSlot (s.endGroup core slot) (slotKey core slot) := by
  obtain ⟨hops1, hopsall⟩ := Group.ops_putClass hidle.ops 1
  obtain ⟨batches, level, replays, hsealed⟩ := g.sealed_frame
  set g₁ := g.sealed with hg₁
  have hstep : g₁.step = none := by rw [hsealed]; exact hidle.step
  have hlog : g₁.log = none := by rw [hsealed]; exact hidle.log
  have hclasses : ∀ k ∈ g₁.classes.values, k.ops = [] := by rw [hsealed]; exact hopsall
  have hteam₁ : g₁.team = g.team := g.sealed_team
  set s₁ := (s.putGroup core slot g₁).putTeam g.team t with hs₁
  have hfind₁ : s₁.groups.find (slotKey core slot) = some g₁ := (Map.find_set ..).trans (if_pos rfl)
  have hseal : (s.finishAll (.group core slot)).sealGroup core slot = s₁ := by
    rw [State.finishAll_of_none_late ((State.lateOf_of_find hg).trans hidle.late)]
    exact State.sealGroup_of_accepted hg ht (by rw [hops1]; exact fun o ho => absurd ho List.not_mem_nil)
  have hclose : s₁.closeStep core slot = s₁ := by
    rw [State.closeStep, hfind₁]
    simp only [hstep]
  have hend : s.endGroup core slot = (s₁.putGroup core slot g₁.ended).settle core slot := by
    rw [State.endGroup]
    simp only [hseal, hclose, hfind₁]
  have hput : (s₁.putGroup core slot g₁.ended).groups = s.groups.set (slotKey core slot) g₁.ended := Map.set_set ..
  obtain ⟨hnone, hothers, hmem, hentries⟩ : (s₁.putGroup core slot g₁.ended).freedSlot (s.endGroup core slot) (slotKey core slot) := by
    rw [hend]
    exact State.settle_frees ((Map.find_set ..).trans (if_pos rfl)) (by
      rw [show g₁.ended.team = g.team from hteam₁]
      exact (Map.find_set ..).trans (if_pos rfl)) rfl hleaving hclasses rfl hlog
  rw [hput] at hothers hentries
  refine ⟨hnone, fun k hk => (hothers k hk).trans ((Map.find_set ..).trans (if_neg hk)), hmem, fun e he => ?_⟩
  obtain he | he := hentries e he
  · obtain rfl | he := mem_insertEntry _ _ _ _ he
    · exact .inr rfl
    · exact .inl he
  · exact .inr he

/-- Where the group's last thread has ended and nothing of it is outstanding, its slot is free afterwards. -/
theorem Ctx.afterEnd_frees {s : State} {x : Ctx} (h : s.ctx = some x) {g : Group} (hfr : g.frags = []) (hteam : g.team = x.g.team)
    (hidle : ∀ m, (g.park62 m).Idle) (hleaving : x.team.leaving ≠ 3) (hn : s.noneAtBarrier) (m : Bool) :
    ∃ s', x.afterEnd s g m = .next s' ∧ s'.groups.find (slotKey x.core x.slot) = none ∧
      (∀ k, k ≠ slotKey x.core x.slot → s'.groups.find k = s.groups.find k) ∧ s'.mem = s.mem := by
  have hparked : (g.park62 m).team = x.g.team := (Group.park62_keeps (·.team) (fun _ => rfl) (fun _ => rfl) g m).trans hteam
  have hfreed := State.endGroup_frees (s := x.put s (g.park62 m)) (core := x.core) (slot := x.slot) (g := g.park62 m) (t := x.team)
    ((Map.find_set ..).trans (if_pos rfl)) (by rw [hparked]; exact (State.ctx_eq_some h).2.2.2.1) hleaving (hidle m)
  have hoff : (g.park62 m).OffBarriers := by
    rw [Group.OffBarriers, Group.park62_frags, hfr]
    exact fun f hf => absurd hf List.not_mem_nil
  have hnone (f : Team → Team) : (((x.put s (g.park62 m)).endGroup x.core x.slot).modTeam x.g.team f).noneAtBarrier :=
    State.noneAtBarrier_freedSlot (Ctx.noneAtBarrier_put hn x hoff) hfreed
  obtain ⟨hgone, hothers, hmem, -⟩ := hfreed
  rw [Ctx.afterEnd]
  simp only [hfr, List.isEmpty_nil, if_true, State.evalBarriers_of_noneAtBarrier (hnone _)]
  exact ⟨_, rfl, hgone, fun k hk => (hothers k hk).trans ((Map.find_set ..).trans (if_neg hk)), hmem⟩

theorem groupEnds : Sys2Proof.Claims.GroupEnds := by
  intro s x m i h hl hi hops hstep hlog hlate hleaving hn
  have hidle (g : Machine.Group) (hg : g.withTable x.g.frags x.g.splits x.g.spilled x.g.ptr = x.g) (m : Bool) : (g.park62 m).Idle := by
    have hfield {α : Type} (field : Machine.Group → α) (hm : ∀ g : Machine.Group, field { g with hmarker := true } = field g)
        (hm' : ∀ g : Machine.Group, field { g with marker := true } = field g)
        (ht : field (g.withTable x.g.frags x.g.splits x.g.spilled x.g.ptr) = field g) : field (g.park62 m) = field x.g :=
      (Group.park62_keeps field hm hm' g m).trans (ht.symm.trans (congrArg field hg))
    have hclasses := hfield (·.classes) (fun _ => rfl) (fun _ => rfl) rfl
    exact ⟨fun k hk => hops k (hclasses ▸ hk), (hfield (·.step) (fun _ => rfl) (fun _ => rfl) rfl).trans hstep,
      (hfield (·.log) (fun _ => rfl) (fun _ => rfl) rfl).trans hlog, (hfield (·.late) (fun _ => rfl) (fun _ => rfl) rfl).trans hlate⟩
  obtain rfl | ⟨rfl, hh, hfrags, hfrag, hs, hsp, hF⟩ := hi
  · obtain ⟨s', hexec, hfreed⟩ := Ctx.afterEnd_frees h (g := { x.g with frags := [] }) rfl rfl (hidle _ rfl) hleaving hn m
    refine ⟨s', ((onFrag_of h _).trans (if_neg ?_)).trans hexec, hfreed⟩
    rw [inBody_eq_false hl]
    exact Bool.false_ne_true
  · have hl' : x.f.looping = false := hl.resolve_right (by rw [hh]; exact Bool.false_ne_true)
    have hcut := Ctx.cutThreads_of_none (State.ctx_eq_some h).2.2.1 1 hF
    set g := (x.g.cutEntries x.f.k0).removeFrag x.frag with hg
    have hfr : g.frags = [] := by
      show x.g.frags.eraseIdx x.frag = []
      rw [hfrags, hfrag]
      rfl
    have hend : x.endThreads s x.g x.f.k0 1 = .ok ⟨s, g, []⟩ := by
      refine Ctx.endThreads_of_unspilled hsp _ _ (w₁ := ⟨s, g, []⟩) ?_ (Ctx.evalJoins_of_passing (by
        rw [hfr]
        exact fun f hf => absurd hf List.not_mem_nil) 255) rfl
      rw [hcut]
      refine Ctx.releaseAll_of_none (w := ⟨s, g, []⟩) (fun e he => absurd he ?_) 64
      rw [show g.entries = [] by
        show (x.g.splits.map _) ++ ((x.g.spilled.map _).map _) = []
        rw [hs, hsp]
        rfl]
      exact List.not_mem_nil
    obtain ⟨s', hexec, hfreed⟩ := Ctx.afterEnd_frees h hfr rfl (hidle _ rfl) hleaving hn m
    exact ⟨s', (exec_exit_of_endThreads h hh hl' m hend).trans hexec, hfreed⟩

/-- Settles O16: threads leave their fragment and every entry, and a group without threads and with nothing outstanding frees its slot. -/
theorem exitResult : Obligations.ExitResult := ⟨claim_exitResult, exitInSplit, groupEnds⟩

end Sys2Proof.Machine
end

section
/-!
PROOFS. Records handed to the pallet former (R105, R106, R413, R416; O17).
-/
namespace Sys2Proof.Machine

/-! ### A bin takes records (R413) -/

/-- A bin with more records. -/
def binWith (rs : List Rec) (b : Nat × Bin) : Nat × Bin := (b.1, { b.2 with recs := b.2.recs ++ rs })

theorem modify_binWith (bins : List (Nat × Bin)) (i : Nat) (rs rs' : List Rec) :
    (bins.modify i (binWith rs)).modify i (binWith rs') = bins.modify i (binWith (rs ++ rs')) := by
  rw [List.modify_modify_eq]
  congr 1
  funext b
  simp [binWith, List.append_assoc]

/-- Bin i of the die holds records of the launch with this entry, and has room for n more without becoming full. -/
structure State.BinOpen (s : State) (x : Ctx) (i : Nat) (entry : W32) (n : Nat) : Prop where
  launch : s.launches.find x.team.launch = some x.launch
  form : x.launch.form = 0
  gen : (s.context (x.team.launch / 2 ^ 20)).gen = x.launch.gen
  found : (s.bins.findIdx? fun b => b.1 = x.die ∧ b.2.launch = x.team.launch ∧ b.2.entry = entry) = some i
  room : ∀ b, s.bins[i]? = some b → b.2.recs.length + n < 64

/-- A bin is found again once it has taken records. -/
theorem findIdx?_modify {α : Type} {p : α → Bool} {f : α → α} (hf : ∀ a, p (f a) = p a) {l : List α} {i : Nat} (h : l.findIdx? p = some i) :
    (l.modify i f).findIdx? p = some i := by
  rw [List.findIdx?_eq_some_iff_getElem] at h ⊢
  obtain ⟨hlt, hi, hlow⟩ := h
  refine ⟨by rwa [List.length_modify], ?_, fun j hj => ?_⟩
  · rw [List.getElem_modify, if_pos rfl, hf]
    exact hi
  · rw [List.getElem_modify, if_neg (Nat.ne_of_gt hj)]
    exact hlow j hj

theorem State.BinOpen.take {s : State} {x : Ctx} {i n : Nat} {entry : W32} (h : s.BinOpen x i entry (n + 1)) (r : Rec) :
    { s with bins := s.bins.modify i (binWith [r]) : State }.BinOpen x i entry n where
  launch := h.launch
  form := h.form
  gen := h.gen
  found := findIdx?_modify (f := binWith [r]) (fun _ => rfl) h.found
  room b hb := by
    rw [List.getElem?_modify_eq, Option.map_eq_map, Option.map_eq_some_iff] at hb
    obtain ⟨b', hb', rfl⟩ := hb
    have hroom := h.room b' hb'
    simp only [binWith, List.length_append, List.length_singleton]
    omega

theorem State.handRecord_of_open {s : State} {x : Ctx} {i n : Nat} {entry : W32} (h : s.BinOpen x i entry (n + 1)) {r : Rec}
    (hr : r.entry = entry) :
    s.handRecord x.die x.team.launch r = .accepted { s with bins := s.bins.modify i (binWith [r]) } := by
  subst hr
  have hnotfull : (({ s with bins := s.bins.modify i (binWith [r]) : State }.bins[i]?).map fun b => b.2.recs.length) ≠ some 64 := by
    intro hc
    obtain ⟨b, hb, hlen⟩ := Option.map_eq_some_iff.1 hc
    have := (h.take r).room b hb
    omega
  rw [State.handRecord, h.launch]
  simp only [h.gen, h.form, h.found, ne_eq, not_true_eq_false, if_false]
  exact congrArg Handed.accepted (if_neg hnotfull)

/-! ### Records of several threads (R416) -/

/-- The spawn counts once each listed thread has handed a record over. -/
def countedIn (spcnt : Map W32) (ts : List Nat) : Map W32 := ts.foldl (fun m t => m.setZ t (m.getZ t + 1)) spcnt

theorem countedIn_getZ (u : Nat) : ∀ (ts : List Nat) (spcnt : Map W32), ts.Nodup →
    (countedIn spcnt ts).getZ u = spcnt.getZ u + if u ∈ ts then 1 else 0
  | [], spcnt, _ => (BitVec.add_zero _).symm
  | t :: ts, spcnt, h => by
    obtain ⟨ht, hts⟩ := List.nodup_cons.1 h
    rw [countedIn, List.foldl_cons, ← countedIn, countedIn_getZ u ts _ hts, Map.getZ_setZ]
    by_cases hu : u = t
    · subst hu
      simp [ht]
    · simp [hu]

theorem Ctx.handAll_of_open {x : Ctx} {i : Nat} {entry : W32} {regs : Nat → List W32} : ∀ (ts : List Nat) {s : State} (g : Group) (done : Mask),
    ts.Nodup → s.BinOpen x i entry ts.length → ∃ done', x.handAll entry regs ts g done s =
      ({ s with bins := s.bins.modify i (binWith (ts.map fun t => ⟨entry, regs t, x.lthread t, (g.spcnt.getZ t).toNat⟩)) },
        some ({ g with spcnt := countedIn g.spcnt ts }, done', true))
  | [], s, g, done, _, _ => by
    refine ⟨done, ?_⟩
    have hsame : s.bins.modify i (binWith []) = s.bins := by
      rw [show binWith [] = id from funext fun b => by simp [binWith], List.modify_id]
    rw [List.map_nil, hsame]
    rfl
  | t :: ts, s, g, done, hts, h => by
    obtain ⟨ht, hts⟩ := List.nodup_cons.1 hts
    obtain ⟨done', hrest⟩ := Ctx.handAll_of_open (regs := regs) ts { g with spcnt := g.spcnt.setZ t (g.spcnt.getZ t + 1) }
      (done ||| BitVec.twoPow 64 t) hts (h.take ⟨entry, regs t, x.lthread t, (g.spcnt.getZ t).toNat⟩)
    refine ⟨done', ?_⟩
    rw [Ctx.handAll, State.handRecord_of_open h rfl]
    simp only [hrest, modify_binWith, List.map_cons, List.singleton_append]
    have hlater : ts.map (fun u => (⟨entry, regs u, x.lthread u, ((g.spcnt.setZ t (g.spcnt.getZ t + 1)).getZ u).toNat⟩ : Rec)) =
        ts.map fun u => ⟨entry, regs u, x.lthread u, (g.spcnt.getZ u).toNat⟩ := by
      refine List.map_congr_left fun u hu => ?_
      rw [Map.getZ_setZ, if_neg fun hc : u = t => ht (hc ▸ hu)]
    rw [hlater]
    rfl

theorem mem_threadsOf_iff_getLsbD {k : Mask} {t : Nat} (ht : t < 64) : t ∈ threadsOf k ↔ k.getLsbD t = true := by
  rw [mem_threadsOf]
  exact and_iff_right ht

/-- The records of the threads of a mask, in ascending order (R106). -/
def Ctx.records (x : Ctx) (entry : W32) (regs : Nat → List W32) (ts : Mask) : List Rec :=
  (threadsOf ts).map fun t => ⟨entry, regs t, x.lthread t, (x.g.spcnt.getZ t).toNat⟩

/-- The group once each thread of a mask has handed a record over. -/
def Ctx.counted (x : Ctx) (ts : Mask) : Group := { x.g with spcnt := countedIn x.g.spcnt (threadsOf ts) }

section
variable {s : State} {x : Ctx} (h : s.ctx = some x) {i : Nat} {entry : W32} {ts : Mask} (hbin : x.binTakes s i entry ts)
include h hbin

/-- All records of an instruction that hands over none yet go into an open bin, and it goes on. -/
theorem Ctx.handOver_of_open (regs : Nat → List W32) (fin : State → Group → Out) :
    x.handOver s (x.handing ts) entry regs fin =
      fin { s with bins := s.bins.modify i (binWith (x.records entry regs ts)) } (x.counted ts) := by
  obtain ⟨hform, hgen, hhanded, hhanding, hat, hfound, hroom⟩ := hbin
  obtain ⟨done, hall⟩ := Ctx.handAll_of_open (regs := regs) (threadsOf ts) x.g 0 ((threadsOf_rising ts).imp fun hlt => Nat.ne_of_lt hlt)
    ⟨(State.ctx_eq_some h).2.2.2.2, hform, hgen, hfound, hroom⟩
  have hself : ({ x.f with handed := 0, handing := 0, handAt := 0 } : Fragment) = x.f := by
    show _ = ({ x.f with handed := x.f.handed, handing := x.f.handing, handAt := x.f.handAt } : Fragment)
    rw [hhanded, hhanding, hat]
  have hset : x.g.frags.set x.frag x.f = x.g.frags := by
    obtain ⟨hlt, hf⟩ := List.getElem?_eq_some_iff.1 (State.ctx_eq_some h).2.2.1
    rw [← hf]
    exact List.set_getElem_self hlt
  rw [Ctx.handOver, Ctx.handing, if_pos hhanded, hhanded, show ts &&& ~~~(0 : Mask) = ts from BitVec.and_allOnes, hall]
  simp only [hself, Group.setFrag, hset]
  rfl

end

theorem exec_spwn_of_open {s : State} {x : Ctx} (h : s.ctx = some x) (hh : x.g.handler = false) (hl : x.f.looping = false) (m : Bool)
    (f n : Nat) {entry : W32} {i : Nat} (hentry : x.launch.image.holds entry.toNat = true) (hpool : x.launch.kernel.spawnPool ≠ 0)
    (hbin : x.binTakes s i entry x.f.k0) : exec (.spwn m f n entry) s = .next (x.put
      { s with bins := s.bins.modify i (binWith (x.records entry (fun t => (List.range n).map fun j => x.lane (f + j) t) x.f.k0)) }
      (x.goesTo (x.counted x.f.k0) m (x.wordsOn 2))) := by
  have hf := (State.ctx_eq_some h).2.2.1
  refine (onFrag_of h _).trans ((if_neg (by simp [hentry, hh, inBody_eq_false (.inl hl), hpool])).trans ?_)
  rw [Ctx.handOver_of_open h hbin, Ctx.done]
  exact congrArg (fun g => Host.Outcome.next (x.put _ g))
    (Group.advance_of_plain (g := x.counted x.f.k0) hf (by rw [hl]; rfl) m 2)

/-- `spwnf` where the die has no bin of the launch, or the launch none at all. -/
theorem exec_spwnf_of_none {s : State} {x : Ctx} (h : s.ctx = some x) (hh : x.g.handler = false) (hl : x.f.looping = false) (m : Bool)
    {entry : W32} (hpool : x.launch.kernel.spawnPool ≠ 0) (hentry : entry = 0xFFFFFFFC ∨ entry.toNat / 4 < x.launch.image.code.length)
    (hnone : x.launch.form ≠ 0 ∨ ∀ b ∈ s.bins, ¬(b.1 = x.die ∧ b.2.launch = x.team.launch)) :
    exec (.spwnf m entry) s = .next (x.put s (x.goesTo x.g m (x.wordsOn 2))) := by
  have hlegal : ¬(x.g.handler || x.inBody || x.launch.kernel.spawnPool == 0 ||
      (!decide (entry = 0xFFFFFFFC) && decide (x.launch.image.code.length ≤ entry.toNat / 4))) = true := by
    simp only [hh, inBody_eq_false (.inl hl), Bool.false_or, Bool.or_eq_true, beq_iff_eq, hpool, false_or, Bool.and_eq_true,
      Bool.not_eq_true', decide_eq_false_iff_not, decide_eq_true_eq, not_and]
    exact fun hne => Nat.not_le.2 (hentry.resolve_left hne)
  refine (onFrag_of h _).trans ((if_neg hlegal).trans ?_)
  by_cases hform : x.launch.form = 0
  · have hbins := hnone.resolve_left fun hc => hc hform
    have hfind : (s.bins.findIdx? fun b => b.1 = x.die && b.2.launch = x.team.launch &&
        (decide (entry = 0xFFFFFFFC) || b.2.entry = entry)) = none := by
      rw [List.findIdx?_eq_none_iff]
      intro b hb
      rw [Bool.and_eq_false_iff, Bool.and_eq_false_iff]
      exact .inl ((not_and_or.1 (hbins b hb)).imp (fun hc => decide_eq_false hc) fun hc => decide_eq_false hc)
    refine (if_neg fun hc => hc hform).trans (Eq.trans ?_ (Ctx.done_of_plain h (.inl hl) s m 2))
    refine congrArg (fun s' => x.done s' x.g m 2) (List.foldl_fixed' (fun _ => ?_) _)
    rw [hfind]
  · exact (if_pos hform).trans (Ctx.done_of_plain h (.inl hl) s m 2)

/-! ### Dispersal (R105) -/

section
variable {s : State} {x : Ctx} (h : s.ctx = some x) (hh : x.g.handler = false) (hl : x.f.looping = false)
include h hh hl

theorem exec_disp_of_legal (m : Bool) (k : Nat) {o : BitVec 21} (live : W32) (ht : x.legal (x.wordsAway o.toInt)) (hhanded : x.f.handed = 0) :
    exec (.disp m k o live) s =
      if x.f.k0 &&& x.mask k = 0 then x.done s x.g m 2
      else
        match x.endThreads s x.g (x.f.k0 &&& x.mask k) 2 with
        | .error e => x.spillDenied s e
        | .ok _ => x.handOver s (x.handing (x.f.k0 &&& x.mask k)) (x.wordsOn o.toInt)
            (fun t => (liveRegs live).map fun n => x.g.readV false n t) fun s g =>
          match x.endThreads s g (x.f.k0 &&& x.mask k) 2 with
          | .error e => x.spillDenied s e
          | .ok w => x.afterEnd w.s w.g m := by
  have hreach : x.reaches (x.offset o.toInt) = true := (reaches_iff ..).2 ht
  have hD : x.handing (x.f.k0 &&& x.mask k) = x.f.k0 &&& x.mask k := if_pos hhanded
  refine (onFrag_of h _).trans ((if_neg (by rw [hreach]; exact Bool.false_ne_true)).trans
    ((if_neg (by rw [hh, inBody_eq_false (.inl hl)]; exact Bool.false_ne_true)).trans ?_))
  simp only [hD, asPc_offset] <;> rfl

/-- A dispersal of some of a fragment's threads, outside splits. -/
theorem exec_disp_of_left (m : Bool) (k : Nat) {o : BitVec 21} (live : W32) {i : Nat} (ht : x.legal (x.wordsAway o.toInt))
    (hs : x.g.splits = []) (hsp : x.g.spilled = []) (hj : ∀ f ∈ x.g.frags, f.joins = false) (hn : s.noneAtBarrier)
    (hD : x.f.k0 &&& x.mask k ≠ 0) (hF : x.f.threads &&& ~~~(x.f.k0 &&& x.mask k) ≠ 0)
    (hbin : x.binTakes s i (x.wordsOn o.toInt) (x.f.k0 &&& x.mask k)) :
    ∃ s', exec (.disp m k o live) s = .next s' ∧
      s'.bins = s.bins.modify i (binWith (x.records (x.wordsOn o.toInt) (fun t => (liveRegs live).map fun n => x.g.readV false n t)
        (x.f.k0 &&& x.mask k))) ∧
      s'.groups.find (slotKey x.core x.slot) = some (Group.park62
        { x.counted (x.f.k0 &&& x.mask k) with
          frags := x.g.frags.set x.frag { x.f.without (x.f.k0 &&& x.mask k) with pc := x.wordsOn 2 } } m) ∧ s'.mem = s.mem := by
  have hf := (State.ctx_eq_some h).2.2.1
  have hspread (g : Group) (hg : g.splits = []) : ∀ q ∈ g.splits, (q.without (x.f.k0 &&& x.mask k)).spread
      (x.f.threads &&& ~~~(x.f.k0 &&& x.mask k)) ∧
        ∀ (i : Nat) f, g.frags[i]? = some f → i ≠ x.frag → (q.without (x.f.k0 &&& x.mask k)).spread f.threads := by
    rw [hg]
    exact fun q hq => absurd hq List.not_mem_nil
  have hplain : (x.f.looping && !x.g.handler) = false := by rw [hl]; rfl
  set D := x.f.k0 &&& x.mask k with hDdef
  set regs := fun t => (liveRegs live).map fun n => x.g.readV false n t with hregs
  set s₁ : State := { s with bins := s.bins.modify i (binWith (x.records (x.wordsOn o.toInt) regs D)) } with hs₁
  have hend₁ := Ctx.endThreads_of_left (n := 2) (g := x.counted D) hf s₁ hplain hsp hF hj (hspread (x.counted D) hs)
  rw [Group.cutEntries_of_unspilled (g := x.counted D) hsp, show (x.counted D).splits.map (·.without D) = (x.counted D).splits by
    rw [show (x.counted D).splits = [] from hs]
    rfl] at hend₁
  set g₁ : Group := { x.counted D with frags := x.g.frags.set x.frag { x.f.without D with pc := x.wordsOn 2 } } with hg₁
  have hend : x.endThreads s₁ (x.counted D) D 2 = .ok ⟨s₁, g₁, []⟩ := hend₁
  have hoff : g₁.OffBarriers := (Ctx.offBarriers h hn).of_waitsLike fun q hq => by
    obtain hq | rfl := List.mem_or_eq_of_mem_set hq
    · exact ⟨q, hq, rfl, .inl rfl⟩
    · exact ⟨x.f, List.mem_of_getElem? hf, rfl, .inl rfl⟩
  have hne : g₁.frags ≠ [] := by
    show x.g.frags.set x.frag _ ≠ []
    rw [Ne, List.set_eq_nil_iff]
    exact List.ne_nil_of_mem (List.mem_of_getElem? hf)
  obtain ⟨s', hexec, ⟨hg, -, -⟩, hb, hmem⟩ := Ctx.afterEnd_of_left (x := x) (s := s₁) hne hoff hn m
  refine ⟨s', ?_, hb, hg, hmem⟩
  rw [exec_disp_of_legal h hh hl m k live ht hbin.2.2.1, if_neg hD, Ctx.endThreads_of_left hf 2 s hplain hsp hF hj (hspread _ hs)]
  refine (Ctx.handOver_of_open h hbin _ _).trans ?_
  simp only [← hregs, ← hs₁, ← hDdef, hend]
  exact hexec

end

theorem countedIn_threadsOf (spcnt : Map W32) (k : Mask) (t : Nat) (ht : t < 64) :
    (countedIn spcnt (threadsOf k)).getZ t = spcnt.getZ t + if k.getLsbD t = true then 1 else 0 := by
  rw [countedIn_getZ _ _ _ ((threadsOf_rising k).imp fun hlt => Nat.ne_of_lt hlt)]
  simp only [mem_threadsOf_iff_getLsbD ht]

/-- Settles O17: records go into the open bin thread by thread, and the threads that a dispersal hands over end. -/
theorem spawnResult : Obligations.SpawnResult := by
  intro s x m h hh hl
  refine ⟨fun f n entry i hentry hpool hbin => ?_, fun entry hpool hentry hnone => exec_spwnf_of_none h hh hl m hpool hentry hnone,
    fun k o live ht hhanded hD => ?_, fun k o live i ht hs hsp hj hn => ?_⟩
  · exact ⟨_, countedIn_threadsOf _ _, exec_spwn_of_open h hh hl m f n hentry hpool hbin⟩
  · rw [exec_disp_of_legal h hh hl m k live ht hhanded, if_pos hD]
    exact Ctx.done_of_plain h (.inl hl) s m 2
  · intro D F hD hF hbin
    obtain ⟨s', hexec, hbins, hg, hmem⟩ := exec_disp_of_left h hh hl m k live ht hs hsp hj hn hD hF hbin
    exact ⟨s', _, hexec, countedIn_threadsOf _ _, hbins, hg, hmem⟩

end Sys2Proof.Machine
end

section
/-!
PROOFS. What stopping a team or a launch keeps: stopped teams stay so, and launches keep their ending (R104, R404, R409; O22).
-/
namespace Sys2Proof.Machine

/-! ### States whose teams go on no more -/

/-- Every team of s' is one of s, of the same launch, stopped if it was, and every launch has the ending that it had. -/
def State.stoppingKept (s s' : State) : Prop :=
  (∀ uid t', s'.teams.find uid = some t' → ∃ t, s.teams.find uid = some t ∧ t'.launch = t.launch ∧ (t.stopped = true → t'.stopped = true)) ∧
    ∀ key, (s'.launches.find key).bind (·.ending) = (s.launches.find key).bind (·.ending)

theorem State.stoppingKept_of_same {s s' : State} (ht : s'.teams = s.teams) (hl : s'.launches = s.launches) : s.stoppingKept s' :=
  ⟨fun uid t' h => ⟨t', ht ▸ h, rfl, id⟩, fun key => by rw [hl]⟩

theorem State.stoppingKept.trans {s s₁ s₂ : State} (h : s.stoppingKept s₁) (h' : s₁.stoppingKept s₂) : s.stoppingKept s₂ := by
  refine ⟨fun uid t₂ h₂ => ?_, fun key => (h'.2 key).trans (h.2 key)⟩
  obtain ⟨t₁, h₁, hl₁, hs₁⟩ := h'.1 uid t₂ h₂
  obtain ⟨t, ht, hl, hs⟩ := h.1 uid t₁ h₁
  exact ⟨t, ht, hl₁.trans hl, fun hstop => hs₁ (hs hstop)⟩

/-- One team of s' is listed again, of the same launch and stopped if it was. -/
theorem State.stoppingKept.set {s s₁ : State} (h : s.stoppingKept s₁) {uid : Nat} {t t' : Team} (ht : s.teams.find uid = some t)
    (hl : t'.launch = t.launch) (hs : t.stopped = true → t'.stopped = true) {s' : State} (hteams : s'.teams = s₁.teams.set uid t')
    (hlaunches : s'.launches = s₁.launches) : s.stoppingKept s' := by
  refine ⟨fun k v hv => ?_, fun key => by rw [hlaunches]; exact h.2 key⟩
  rw [hteams, Map.find_set] at hv
  split at hv
  · next hk =>
    cases hv
    exact ⟨t, hk ▸ ht, hl, hs⟩
  · exact h.1 k v hv

/-! ### Accesses, batches and logs -/

theorem State.performAt_keeps (s : State) (a : Actor) (ix : Nat) (piece : Option Nat) (src : Nat) :
    (s.performAt a ix piece src).teams = s.teams ∧ (s.performAt a ix piece src).launches = s.launches := by
  rw [State.performAt]
  split
  · exact ⟨rfl, rfl⟩
  · next e _ =>
    have hp (mem : Memory) := e.perform_keeps a piece mem s
    cases a <;> exact ⟨(hp _).2.2.1, (hp _).2.2.2⟩

theorem State.setLate_keeps (s : State) (a : Actor) (l : List Late) :
    (s.setLate a l).teams = s.teams ∧ (s.setLate a l).launches = s.launches := by
  cases a <;> exact ⟨rfl, rfl⟩

theorem State.finishAll_keeps (s : State) (a : Actor) : (s.finishAll a).teams = s.teams ∧ (s.finishAll a).launches = s.launches := by
  rw [State.finishAll]
  split
  · exact ⟨rfl, rfl⟩
  · obtain ⟨ht, hl⟩ := List.foldlRecOn (motive := fun t : State => t.teams = s.teams ∧ t.launches = s.launches)
      ((s.lateOf a).filter Late.isAccess) (fun s e => match findLate e.name (s.lateOf a) with
        | none => s
        | some ix => s.performAt a ix none (s.viewsOf a).length) ⟨rfl, rfl⟩ fun t ht e _ => by
          split
          · exact ht
          · exact ⟨(t.performAt_keeps ..).1.trans ht.1, (t.performAt_keeps ..).2.trans ht.2⟩
    exact ⟨(State.setLate_keeps ..).1.trans ht, (State.setLate_keeps ..).2.trans hl⟩

theorem State.finishBatches_keeps (s : State) (core slot : Nat) :
    (s.finishBatches core slot).teams = s.teams ∧ (s.finishBatches core slot).launches = s.launches := by
  rw [State.finishBatches]
  split
  · exact ⟨rfl, rfl⟩
  · next g _ =>
    obtain ⟨margins, hend⟩ := s.endBatches_frame core g.sealBatch.1 g.sealBatch.1.batches.length
    simp only [hend]
    exact ⟨rfl, rfl⟩

theorem State.acceptEntry_keeps (s : State) (t : Team) (r : Option LogRef) (slot : Nat) (p : LogPlan) :
    (s.acceptEntry t r slot p).1.teams = s.teams ∧ (s.acceptEntry t r slot p).1.launches = s.launches ∧
      (s.acceptEntry t r slot p).2.1.launch = t.launch ∧ (s.acceptEntry t r slot p).2.1.stopped = t.stopped := by
  rw [State.acceptEntry]
  split
  · exact ⟨rfl, rfl, rfl, rfl⟩
  · refine ⟨?_, ?_, rfl, rfl⟩
    · simp only
      split <;> simp only [State.storeWrite, State.storeBytes_teams]
    · simp only
      split <;> simp only [State.storeWrite, State.storeBytes_launches]

theorem acceptOps_keeps (slot : Nat) (r : Option LogRef) : ∀ (ops : List Op) (s : State) (t : Team),
    (acceptOps slot r ops s t).1.teams = s.teams ∧ (acceptOps slot r ops s t).1.launches = s.launches ∧
      (acceptOps slot r ops s t).2.1.launch = t.launch ∧ (acceptOps slot r ops s t).2.1.stopped = t.stopped
  | [], _, _ => ⟨rfl, rfl, rfl, rfl⟩
  | o :: rest, s, t => by
    rw [acceptOps]
    split
    · exact acceptOps_keeps slot r rest s t
    · simp only
      split
      · next w p _ =>
        obtain ⟨ht, hl, hlaunch, hstopped⟩ := acceptOps_keeps slot r rest
          (State.acceptEntry { s with nextOrder := s.nextOrder + 1 } t r slot p).1
          (State.acceptEntry { s with nextOrder := s.nextOrder + 1 } t r slot p).2.1
        obtain ⟨ht', hl', hlaunch', hstopped'⟩ := State.acceptEntry_keeps { s with nextOrder := s.nextOrder + 1 } t r slot p
        exact ⟨ht.trans ht', hl.trans hl', hlaunch.trans hlaunch', hstopped.trans hstopped'⟩
      · exact acceptOps_keeps slot r rest { s with nextOrder := s.nextOrder + 1 } t

theorem State.stoppingKept_acceptBatch (s : State) (core slot : Nat) : s.stoppingKept (s.acceptBatch core slot) := by
  have hsame : s.stoppingKept s := State.stoppingKept_of_same rfl rfl
  rw [State.acceptBatch]
  split
  · exact hsame
  · split
    · exact hsame
    · next g _ _ t ht =>
      simp only
      generalize (if g.holdsBatch t = true then (g.cls 1).ops.length - g.batch else (g.cls 1).ops.length) = n
      split
      · exact hsame
      · generalize hops : acceptOps slot g.log _ s t = r
        obtain ⟨hteams, hlaunches, hlaunch, hstopped⟩ := acceptOps_keeps slot g.log
          ((g.cls 1).ops.take n) s t
        rw [hops] at hteams hlaunches hlaunch hstopped
        exact hsame.set ht hlaunch (fun hs => hstopped.trans hs) (congrArg (·.set g.team r.2.1) hteams) hlaunches

theorem State.writeBack_keeps (s : State) (t : Team) (c : LogCtx) (next : Nat) :
    (s.writeBack t c next).teams = s.teams ∧ (s.writeBack t c next).launches = s.launches := by
  rw [State.writeBack, State.storeWrite]
  exact ⟨State.storeBytes_teams .., State.storeBytes_launches ..⟩

theorem State.stoppingKept_leaveLog (s : State) (uid slot : Nat) (r : Option LogRef) : s.stoppingKept (s.leaveLog uid slot r) := by
  have hsame : s.stoppingKept s := State.stoppingKept_of_same rfl rfl
  rw [State.leaveLog]
  split
  · exact hsame
  · next t ht =>
    split
    · exact hsame
    · split
      · exact hsame
      · next c _ _ =>
        generalize ({ c with members := c.members.filter (· ≠ slot) } : LogCtx) = left
        simp only
        split
        · obtain ⟨hteams, hlaunches⟩ := s.writeBack_keeps t left noIndex
          generalize s.writeBack t left noIndex = s₁ at hteams hlaunches ⊢
          refine (State.stoppingKept_of_same hteams hlaunches).set ht ?_ ?_ rfl rfl
          · rfl
          · exact id
        · refine hsame.set ht ?_ ?_ rfl rfl
          · rfl
          · exact id

theorem State.stoppingKept_quitLog (s : State) (core slot uid : Nat) (r : Option LogRef) : s.stoppingKept (s.quitLog core slot uid r) := by
  rw [State.quitLog]
  split
  · exact (s.stoppingKept_leaveLog uid slot r).trans (State.stoppingKept_acceptBatch ..)
  · exact s.stoppingKept_leaveLog uid slot r

/-! ### Slots, teams and launches -/

theorem State.stoppingKept_settleTeam (s : State) (uid : Nat) : s.stoppingKept (s.settleTeam uid) := by
  have hsame : s.stoppingKept s := State.stoppingKept_of_same rfl rfl
  rw [State.settleTeam]
  split
  · exact hsame
  · next t ht =>
    split
    · exact hsame
    · split
      · exact State.stoppingKept_of_same rfl rfl
      · refine ⟨fun k v hv => ?_, fun key => ?_⟩
        · rw [Map.find_erase] at hv
          split at hv
          · cases hv
          · exact ⟨v, hv, rfl, id⟩
        · simp only [Map.find_modify]
          split
          · next hk =>
            subst hk
            cases s.launches.find t.launch <;> rfl
          · rfl

theorem State.stoppingKept_settle (s : State) (core slot : Nat) : s.stoppingKept (s.settle core slot) := by
  have hsame : s.stoppingKept s := State.stoppingKept_of_same rfl rfl
  rw [State.settle]
  split
  · exact hsame
  · split
    · exact hsame
    · next g _ _ t ht =>
      split
      · have hquit : s.stoppingKept (((s.finishAll (.group core slot)).finishBatches core slot).quitLog core slot g.team g.log) := by
          refine State.stoppingKept.trans (State.stoppingKept_of_same ?_ ?_) (State.stoppingKept_quitLog ..)
          · exact (State.finishBatches_keeps ..).1.trans (State.finishAll_keeps ..).1
          · exact (State.finishBatches_keeps ..).2.trans (State.finishAll_keeps ..).2
        generalize ((s.finishAll (.group core slot)).finishBatches core slot).quitLog core slot g.team g.log = s₁ at hquit ⊢
        refine State.stoppingKept.trans ?_ (State.stoppingKept_settleTeam ..)
        obtain ⟨t₁, ht₁, hlaunch, hstopped⟩ : ∃ t₁, (s₁.teams.find g.team).getD t = t₁ ∧ t₁.launch = t.launch ∧
            (t.stopped = true → t₁.stopped = true) := by
          cases hfind : s₁.teams.find g.team with
          | none => exact ⟨t, rfl, rfl, id⟩
          | some t₁ =>
            obtain ⟨t₀, ht₀, hlaunch, hstopped⟩ := hquit.1 g.team t₁ hfind
            cases ht.symm.trans ht₀
            exact ⟨t₁, rfl, hlaunch, hstopped⟩
        simp only [ht₁]
        refine hquit.set ht ?_ ?_ rfl rfl
        · exact hlaunch
        · exact hstopped
      · exact hsame

/-- A team that is stopped stays so, and whatever else was stopped. -/
theorem State.stoppingKept_stopTeam (s : State) (uid : Nat) :
    s.stoppingKept (s.stopTeam uid) ∧ ∀ t, (s.stopTeam uid).teams.find uid = some t → t.stopped = true := by
  set s₁ : State := { s with
    teams := s.teams.modify uid fun t => { t with stopped := true, leaving := 0 }
    groups := s.groups.mapValues fun _ g => if g.team = uid then g.cancelAll else g } with hs₁
  have hfirst : s.stoppingKept s₁ := by
    refine ⟨fun k v hv => ?_, fun key => rfl⟩
    rw [hs₁, Map.find_modify] at hv
    split at hv
    · next hk =>
      obtain ⟨t, ht, rfl⟩ := Option.map_eq_some_iff.1 hv
      exact ⟨t, hk ▸ ht, rfl, fun _ => rfl⟩
    · exact ⟨v, hv, rfl, id⟩
  have hrest : s₁.stoppingKept (s.stopTeam uid) := by
    rw [State.stopTeam]
    simp only
    split
    · exact State.stoppingKept_of_same rfl rfl
    · next t _ =>
      exact List.foldlRecOn (motive := fun s : State => s₁.stoppingKept s) t.slots _ (State.stoppingKept_of_same rfl rfl)
        fun s hs slot _ => hs.trans (s.stoppingKept_settle ..)
  refine ⟨hfirst.trans hrest, fun t ht => ?_⟩
  obtain ⟨t₁, ht₁, -, hstopped⟩ := hrest.1 uid t ht
  rw [hs₁, Map.find_modify, if_pos rfl] at ht₁
  obtain ⟨t₀, -, rfl⟩ := Option.map_eq_some_iff.1 ht₁
  exact hstopped rfl

theorem Map.mem_of_find {α : Type} {m : Map α} {k : Nat} {v : α} (h : m.find k = some v) : (k, v) ∈ m.entries := by
  have hmem : ∀ l : List (Nat × α), findEntry k l = some v → (k, v) ∈ l := by
    intro l
    induction l with
    | nil => exact fun h => nomatch h
    | cons e l ih =>
      intro h
      rw [findEntry] at h
      split at h
      · next hk =>
        cases h
        exact hk ▸ List.mem_cons_self ..
      · exact List.mem_cons_of_mem _ (ih h)
  exact hmem m.entries h

theorem Map.mem_keys_of_find {α : Type} {m : Map α} {k : Nat} {v : α} (h : m.find k = some v) : k ∈ m.keys :=
  List.mem_map_of_mem (Map.mem_of_find h)

/-- The launch that stops has no team that issues on (R404). -/
theorem State.stoppingKept_stopLaunch (s : State) (key : Nat) : s.stoppingKept (s.stopLaunch key) ∧
    ∀ uid t, (s.stopLaunch key).teams.find uid = some t → t.launch = key → t.stopped = true := by
  set f := fun (s : State) (uid : Nat) => match s.teams.find uid with
    | some t => if t.launch = key then s.stopTeam uid else s
    | none => s with hf
  have hstep (s : State) (uid : Nat) : s.stoppingKept (f s uid) ∧ ∀ t, (f s uid).teams.find uid = some t → t.launch = key → t.stopped = true := by
    simp only [hf]
    split
    · next t ht =>
      split
      · exact ⟨(s.stoppingKept_stopTeam uid).1, fun t' ht' _ => (s.stoppingKept_stopTeam uid).2 t' ht'⟩
      · next hne =>
        refine ⟨State.stoppingKept_of_same rfl rfl, fun t' ht' hlaunch => absurd ?_ hne⟩
        cases ht.symm.trans ht'
        exact hlaunch
    · next hnone => exact ⟨State.stoppingKept_of_same rfl rfl, fun t' ht' => nomatch hnone.symm.trans ht'⟩
  have hall : ∀ (uids : List Nat) (s : State), s.stoppingKept (uids.foldl f s) ∧
      ∀ uid ∈ uids, ∀ t, (uids.foldl f s).teams.find uid = some t → t.launch = key → t.stopped = true := by
    intro uids
    induction uids with
    | nil => exact fun s => ⟨State.stoppingKept_of_same rfl rfl, fun uid huid => absurd huid List.not_mem_nil⟩
    | cons u uids ih =>
      intro s
      obtain ⟨hkept, hstopped⟩ := ih (f s u)
      refine ⟨(hstep s u).1.trans hkept, fun uid huid t ht hlaunch => ?_⟩
      obtain rfl | huid := List.mem_cons.1 huid
      · obtain ⟨t₁, ht₁, hlaunch₁, hs₁⟩ := hkept.1 uid t ht
        exact hs₁ ((hstep s uid).2 t₁ ht₁ (hlaunch₁.symm.trans hlaunch))
      · exact hstopped uid huid t ht hlaunch
  obtain ⟨hkept, hstopped⟩ := hall s.teams.keys s
  refine ⟨hkept, fun uid t ht hlaunch => ?_⟩
  obtain ⟨t₀, ht₀, -⟩ := hkept.1 uid t ht
  exact hstopped uid (Map.mem_keys_of_find ht₀) t ht hlaunch

/-- A launch that ends so keeps that ending, and its teams issue no more (R409). -/
theorem State.endLaunchWith_ends {s : State} {key : Nat} {l : Launch} (hl : s.launches.find key = some l) (hnone : l.ending = none)
    (e : Ending) : ((s.endLaunchWith key e).launches.find key).bind (·.ending) = some e ∧
      ∀ uid t₀, s.teams.find uid = some t₀ → t₀.launch = key → ∀ t, (s.endLaunchWith key e).teams.find uid = some t → t.stopped = true := by
  rw [State.endLaunchWith, hl]
  simp only [hnone, if_true]
  obtain ⟨hkept, hstopped⟩ := State.stoppingKept_stopLaunch { s with launches := s.launches.set key { l with ending := some e } } key
  refine ⟨(hkept.2 key).trans ?_, fun uid t₀ ht₀ hkey t ht => ?_⟩
  · rw [Map.find_set, if_pos rfl]
    rfl
  · obtain ⟨t₁, ht₁, hlaunch, -⟩ := hkept.1 uid t ht
    cases ht₀.symm.trans ht₁
    exact hstopped uid t ht (hlaunch.trans hkey)

end Sys2Proof.Machine
end

section
/-!
PROOFS. trap and brk: the group's handler with its frame, the launch's end, and the debug halt (R123, R125, R126, R128, R409, R496; O22).
-/
namespace Sys2Proof.Machine

/-! ### The frame in memory (R125) -/

/-- A number inside bytes that were written is read back from them. -/
theorem leNat_bytes_putBytes {m : Memory} (h : m.wf = true) (a : Nat) (b : List Byte) {off n : Nat} (hn : off + n ≤ b.length) :
    leNat ((m.putBytes a b).bytes (a + off) n) = field b off n := by
  rw [field]
  congr 1
  refine List.ext_getElem? fun i => ?_
  rw [Memory.bytes, List.getElem?_map, List.getElem?_take, List.getElem?_drop]
  by_cases hi : i < n
  · rw [if_pos hi, List.getElem?_range hi, Option.map_some, Memory.byte_putBytes _ _ h, if_pos (by omega),
      List.getD_eq_getElem _ _ (by omega), List.getElem?_eq_getElem (by omega)]
    congr 2
    omega
  · rw [if_neg hi, List.getElem?_eq_none (by rw [List.length_range]; omega)]
    rfl

theorem trapFrame_length (g : Group) (f : Fragment) (cause batch : Nat) (pc info0 info1 : W32) :
    (trapFrame g f cause batch pc info0 info1).length = 256 := by
  simp [trapFrame, leBytes_length, List.range_succ]

/-- Memory that holds the frame at the group's frame address holds its fields where R125 puts them. -/
theorem Ctx.frameHolds_of_stored {x : Ctx} {s' : State} {m : Memory} (hw : m.wf = true) {g : Group} {f : Fragment} {cause : Nat}
    {pc info0 info1 : W32} (hmem : s'.mem = m.putBytes (unitKey x.core (x.team.base + x.frameAt))
      (trapFrame g f cause (x.g.cls 1).last pc info0 info1)) (hinner : f.inner = x.f.inner) (hk0 : f.k0 = x.f.k0)
    (hloop : f.looping = x.f.looping) (hfrags : g.frags.length = x.g.frags.length) (hloops : g.loops = x.g.loops) (hlc : g.lc = x.g.lc)
    (hk : g.k = x.g.k) : x.frameHolds s' cause pc info0 info1 := by
  have hfield (off n : Nat) (hn : off + n ≤ 256) :
      x.unitNumber s' (x.frameAt + off) n = field (trapFrame g f cause (x.g.cls 1).last pc info0 info1) off n := by
    have hplace : unitKey x.core (x.team.base + (x.frameAt + off)) = unitKey x.core (x.team.base + x.frameAt) + off := by
      rw [← Nat.add_assoc, unitKey_add]
    rw [x.unitNumber_eq, hplace, hmem]
    exact leNat_bytes_putBytes hw _ _ (by rwa [trapFrame_length])
  have hmod (w : W32) : w.toNat % 256 ^ 4 = w.toNat := Nat.mod_eq_of_lt w.isLt
  have hmask (k : Mask) : k.toNat % 256 ^ 16 = k.toNat := Nat.mod_eq_of_lt (Nat.lt_trans k.isLt (by norm_num))
  have hfields : ∀ off n, off + n ≤ 256 → x.unitNumber s' (x.frameAt + off) n = field (leBytes 4 pc.toNat ++ (leBytes 4 cause ++
      (leBytes 4 info0.toNat ++ (leBytes 4 info1.toNat ++ (leBytes 4 (x.f.inner.getD 0xFFFF) ++ (leBytes 4 (x.g.cls 1).last ++
      (leBytes 4 x.g.frags.length ++ (leBytes 4 (if x.f.looping = true then x.g.loops.length else 0) ++
      (leBytes 4 (x.g.lc.getZ 0).toNat ++ (leBytes 4 (x.g.lc.getZ 1).toNat ++ (leBytes 4 (x.g.lc.getZ 2).toNat ++ (leBytes 20 0 ++
      (leBytes 16 (x.mask 0).toNat ++ (leBytes 16 (x.mask 1).toNat ++ (leBytes 16 (x.mask 2).toNat ++ (leBytes 16 (x.mask 3).toNat ++
      (leBytes 16 (x.mask 4).toNat ++ (leBytes 16 (x.mask 5).toNat ++ (leBytes 16 (x.mask 6).toNat ++ (leBytes 16 (x.mask 7).toNat ++
      leBytes 64 0)))))))))))))))))))) off n := by
    intro off n hn
    rw [hfield off n hn, trapFrame, hinner, hk0, hloop, hfrags, hloops, hlc, hk]
    simp [List.range_succ, Ctx.mask]
  simp only [Ctx.frameHolds]
  refine ⟨?_, ?_, ?_, ?_, ?_, ?_, ?_, ?_, fun i hi => ?_, ?_, fun i hi => ?_, ?_⟩
  case refine_9 =>
    interval_cases i <;> rw [hfields _ _ (by decide)] <;>
      simp only [field_leBytes_head, field_leBytes_skip, Nat.reduceLeDiff, Nat.reduceSub, Nat.reduceMul, Nat.reduceAdd, hmod]
  case refine_11 =>
    interval_cases i <;> rw [hfields _ _ (by decide)] <;>
      simp only [field_leBytes_head, field_leBytes_skip, Nat.reduceLeDiff, Nat.reduceSub, Nat.reduceMul, Nat.reduceAdd, hmask]
  all_goals
    rw [hfields _ _ (by decide)]
    simp only [field_leBytes_head, field_leBytes_skip, field_leBytes, Nat.reduceLeDiff, Nat.reduceSub, hmod]
  all_goals rfl

/-! ### The handler (R126) -/

/-- Parking sets markers only. -/
theorem Group.park62_frame (g : Group) (m : Bool) : ∃ mark hmark, g.park62 m = { g with marker := mark, hmarker := hmark } := by
  rw [Group.park62]
  split
  · split
    · exact ⟨_, _, rfl⟩
    · exact ⟨_, _, rfl⟩
  · exact ⟨_, _, rfl⟩

/-- The group whose fragment f, at place frag, has trapped, in its handler (R124 to R126). -/
def Group.inHandler (g : Group) (frag : Nat) (f : Fragment) (cause : Nat) (pc info0 info1 : W32) (entry off : Nat) : Group :=
  Group.writeG { g.sealed with
    trapCause := BitVec.ofNat 32 cause, trapPc := pc, trapInfo0 := info0, trapInfo1 := info1
    handler := true, hmarker := false, hpark := none, hfault := none, hawaits := none, overlap := []
    frags := g.sealed.frags.set frag { f with pc := BitVec.ofNat 32 entry, trapping := true, wait := .none, saved := f.wait.kept } }
    true 24 (BitVec.ofNat 32 off)

section
variable {s : State} {core slot frag entry : Nat} {g : Group} {f : Fragment} {t : Team} (hg : s.groups.find (slotKey core slot) = some g)
  (hf : g.frags[frag]? = some f) (ht : s.teams.find g.team = some t) (cause : Nat) (pc info0 info1 : W32)
include hg hf ht

/-- A trap of a group whose class 1 operations are accepted enters its handler and writes the frame. -/
theorem takeTrap_of_handler (hh : g.handler = false) (hentry : t.kernel.trapEntry = some entry) (hops : ∀ o ∈ (g.cls 1).ops, o.order ≠ 0) :
    takeTrap core slot frag cause pc info0 info1 s =
      State.storeBytes (((s.putGroup core slot g.sealed).putTeam g.team t).putGroup core slot
          (g.inHandler frag f cause pc info0 info1 entry (frameOffset t g.gix)))
        (unitKey core (t.base + frameOffset t g.gix)) (trapFrame g f cause (g.cls 1).last pc info0 info1) := by
  have hfind : ((s.putGroup core slot g.sealed).putTeam g.team t).groups.find (slotKey core slot) = some g.sealed :=
    (Map.find_set ..).trans (if_pos rfl)
  rw [takeTrap, hg]
  simp only [hf, ht, hh, hentry, Bool.false_eq_true, if_false, State.sealGroup_of_accepted hg ht hops, hfind, Option.getD_some]
  rfl

/-- A trap that no handler takes goes to the work scheduler (R126). -/
theorem takeTrap_unhandled (hnone : g.handler = true ∨ t.kernel.trapEntry = none) :
    takeTrap core slot frag cause pc info0 info1 s = s.unhandledTrap core g t cause pc info0 info1 := by
  have hentry : (if g.handler = true then none else t.kernel.trapEntry) = none := by
    obtain hh | hn := hnone
    · exact if_pos hh
    · rw [hn, ite_self]
  rw [takeTrap, hg]
  simp only [hf, ht, hentry]

end

/-- A trap of one word outside loop bodies, or in handler mode, names the next instruction (R123). -/
theorem Ctx.trapHere_of_plain {s : State} {x : Ctx} (h : s.ctx = some x) (hl : x.f.looping = false ∨ x.g.handler = true) (cause code : Nat)
    (m : Bool) : x.trapHere s cause code m = .next (takeTrap x.core x.slot x.frag cause (x.wordsOn 1) s.ir (BitVec.ofNat 32 code)
      (x.put s (x.goesTo x.g m (x.wordsOn 1)))) := by
  have hf := (State.ctx_eq_some h).2.2.1
  rw [Ctx.trapHere, Ctx.trapNext]
  simp only [Group.advance_of_plain hf (inBody_eq_false hl), Ctx.goesTo_frag hf, Option.map_some, Option.getD_some]
  rfl

theorem exec_trapping {s : State} {x : Ctx} (h : s.ctx = some x) {m : Bool} {i : Instr} {cause code : Nat}
    (hi : (i = .trap m code ∧ cause = 8) ∨ (i = .brk m code ∧ cause = 9 ∧ (s.debugOf x.core).bpen = false)) :
    exec i s = x.trapHere s cause code m := by
  obtain ⟨rfl, rfl⟩ | ⟨rfl, rfl, hb⟩ := hi
  · exact onFrag_of h _
  · exact (onFrag_of h _).trans (if_neg (by rw [hb]; exact Bool.false_ne_true))

/-- Nothing of the group but what a trap changes: its handler's registers, mode and frame address, and its open batch (R124 to R127). -/
theorem Group.inHandler_frame (g : Group) (frag : Nat) (f : Fragment) (cause : Nat) (pc info0 info1 : W32) (entry off : Nat) :
    let G := g.inHandler frag f cause pc info0 info1 entry off
    G = { g with
      v := G.v, hv := G.hv, g := G.g, hg := G.hg, pendingRegs := G.pendingRegs, batch := 0, batches := G.batches, openLevel := G.openLevel
      openReplays := G.openReplays, classes := G.classes, trapCause := BitVec.ofNat 32 cause, trapPc := pc, trapInfo0 := info0
      trapInfo1 := info1, handler := true, hmarker := false, hpark := none, hfault := none, hawaits := none, overlap := []
      frags := g.frags.set frag { f with pc := BitVec.ofNat 32 entry, trapping := true, wait := .none, saved := f.wait.kept } } ∧
    (∀ b r t, G.readV b r t = g.readV b r t) ∧ ∀ b r, G.readG b r = if b = true ∧ r = 24 then BitVec.ofNat 32 off else g.readG b r := by
  obtain ⟨batches, level, replays, hsealed⟩ := g.sealed_frame
  rw [Group.inHandler, hsealed]
  refine ⟨?_, fun b r t => ?_, fun b r => ?_⟩
  · rw [Group.writeG_frame]
  · rw [Group.writeG_frame]
    rfl
  · rw [Group.readG_writeG]
    exact if_congr (by simp [and_comm]) rfl rfl

theorem trapEntered : Sys2Proof.Claims.TrapEntered := by
  intro s x m i cause code entry h hw hh hl hentry _ hops hi
  obtain ⟨-, -, hf, ht, -⟩ := State.ctx_eq_some h
  obtain ⟨mark, hmark, hgo⟩ := Group.park62_frame { x.g with frags := x.g.frags.set x.frag { x.f with pc := x.wordsOn 1 } } m
  set g := x.goesTo x.g m (x.wordsOn 1)
  have hgo : g = { x.g with frags := x.g.frags.set x.frag { x.f with pc := x.wordsOn 1 }, marker := mark, hmarker := hmark } := hgo
  have htrap := takeTrap_of_handler (s := x.put s g) (core := x.core) (slot := x.slot) (g := g) (t := x.team)
    ((Map.find_set ..).trans (if_pos rfl)) (Ctx.goesTo_frag hf m _) (by rw [hgo]; exact ht) cause (x.wordsOn 1) s.ir
    (BitVec.ofNat 32 code) (by rw [hgo]; exact hh) hentry (by rw [hgo]; exact hops)
  rw [show frameOffset x.team g.gix = x.frameAt by rw [hgo]; rfl] at htrap
  obtain ⟨hG, hv, hgr⟩ := g.inHandler_frame x.frag { x.f with pc := x.wordsOn 1 } cause (x.wordsOn 1) s.ir (BitVec.ofNat 32 code) entry x.frameAt
  set G := g.inHandler x.frag { x.f with pc := x.wordsOn 1 } cause (x.wordsOn 1) s.ir (BitVec.ofNat 32 code) entry x.frameAt
  set s' := State.storeBytes _ _ _ with hs'
  have hlast : (g.cls 1).last = (x.g.cls 1).last := by rw [hgo]; rfl
  refine ⟨s', G, (exec_trapping h hi).trans ((Ctx.trapHere_of_plain h (.inl hl) ..).trans (congrArg _ htrap)),
    (Map.find_set ..).trans (if_pos rfl), ?_, ?_, ?_, ?_, ?_, ?_, ?_, ?_, fun b r t => ?_, fun b r hbr => ?_, ?_, ?_, ?_, ?_, ?_, fun b hb => ?_,
    fun k hk => ?_⟩
  · rw [wrap_natCast, hG]
  · rw [hG]
  · rw [hG]
  · rw [wrap_natCast, hG]
  · rw [hG]
  · rw [hgr, if_pos ⟨rfl, rfl⟩, wrap_natCast]
  · rw [hG]
  · rw [hG, hgo, wrap_natCast]
    exact List.set_set ..
  · rw [hv, hgo]
    rfl
  · rw [hgr, if_neg hbr, hgo]
    rfl
  · rw [hG, hgo]
  · rw [hG, hgo]
  · rw [hG, hgo]
  · rw [hG, hgo]
  · rw [wrap_natCast]
    refine Ctx.frameHolds_of_stored (m := s.mem) (g := g) (f := { x.f with pc := x.wordsOn 1 }) hw ?_ rfl rfl rfl ?_ ?_ ?_ ?_
    · rw [hs', State.storeBytes_mem, hlast]
      rfl
    · rw [hgo]
      exact List.length_set
    all_goals rw [hgo]
  · rw [hs', State.storeBytes_mem, Memory.byte_putBytes _ _ (by exact hw), trapFrame_length]
    exact if_neg (by omega)
  · exact (Map.find_set ..).trans ((if_neg hk).trans ((Map.find_set ..).trans ((if_neg hk).trans ((Map.find_set ..).trans (if_neg hk)))))

/-! ### No handler (R126, R409) -/

theorem unhandledTrapEndsLaunch : Sys2Proof.Claims.UnhandledTrapEndsLaunch := by
  intro s x m code h hnone hl hkind hending
  obtain ⟨-, -, hf, ht, hlaunch⟩ := State.ctx_eq_some h
  set g := x.goesTo x.g m (x.wordsOn 1) with hg
  have hteam : g.team = x.g.team := Group.park62_keeps (·.team) (fun _ => rfl) (fun _ => rfl) _ m
  have hhandler : g.handler = x.g.handler := Group.park62_handler ..
  have htrap := takeTrap_unhandled (s := x.put s g) (core := x.core) (slot := x.slot) (g := g) (t := x.team)
    ((Map.find_set ..).trans (if_pos rfl)) (Ctx.goesTo_frag hf m _) (by rw [hteam]; exact ht) 8 (x.wordsOn 1) s.ir (BitVec.ofNat 32 code)
    (by rw [hhandler]; exact hnone)
  have hends : (x.put s g).unhandledTrap x.core g x.team 8 (x.wordsOn 1) s.ir (BitVec.ofNat 32 code) =
      (x.put s g).endLaunchWith x.team.launch ⟨4, 8, BitVec.ofNat 32 x.team.teamIx, x.wordsOn 1, s.ir, BitVec.ofNat 32 code⟩ := by
    rw [State.unhandledTrap]
    obtain hk | hk := hkind
    · rw [hk]
      cases x.team.task <;> rfl
    · rw [hk]
      cases x.team.task <;> rfl
  obtain ⟨hending, hstopped⟩ := State.endLaunchWith_ends (s := x.put s g) hlaunch hending
    ⟨4, 8, BitVec.ofNat 32 x.team.teamIx, x.wordsOn 1, s.ir, BitVec.ofNat 32 code⟩
  refine ⟨_, (exec_trapping h (.inl ⟨rfl, rfl⟩)).trans ((Ctx.trapHere_of_plain h hl ..).trans (congrArg _ (htrap.trans hends))), ?_,
    hstopped x.g.team x.team ht rfl⟩
  rw [hending, wrap_natCast, wrap_natCast]

/-! ### Debug halts (R496) -/

theorem breakpointHalts : Sys2Proof.Claims.BreakpointHalts := by
  intro s x m code h hb
  refine ⟨s.haltCore x.core, (onFrag_of h _).trans (if_pos hb), ?_, fun c hc => ?_, rfl, rfl, fun st hod hhod hstatus => ?_⟩
  · rw [State.debugOf, Map.get, State.haltCore, Map.find_set, if_pos rfl]
    rfl
  · rw [State.debugOf, State.debugOf, Map.get, Map.get, State.haltCore, Map.find_set, if_neg hc]
  · rw [State.haltCore]
    simp only [Map.find_modify]
    cases st
    · simp only [Bool.toNat_false, Nat.add_zero] at hhod ⊢
      rw [if_neg (by omega), if_pos trivial, hhod, Option.map_some, if_pos hstatus]
    · simp only [Bool.toNat_true] at hhod ⊢
      rw [if_pos trivial, if_neg (by omega), hhod, Option.map_some, if_pos hstatus]

/-- Settles O22: the handler with its frame, the end of the launch where there is none, and the halt at a breakpoint. -/
theorem trapTaken : Obligations.TrapTaken := ⟨trapEntered, unhandledTrapEndsLaunch, breakpointHalts⟩

end Sys2Proof.Machine
end

section
/-!
PROOFS. What the release of a team or cluster barrier does to a group: its waits, and the registers of its `bar.te`s (R119, R120; O25).
-/
namespace Sys2Proof.Machine

/-! ### One fragment passes (R120, R126) -/

/-- Fragment i passes barrier id (R126). -/
def Group.passAt (fn id : Nat) (flag : W32) (g : Group) (i : Nat) : Group :=
  match g.frags[i]? with
  | none => g
  | some f =>
    let g := if atBarrier fn id f.wait then g.endWait (g.handler && f.trapping) flag f.wait else g
    let g := if atBarrier fn id f.saved then g.endWait false flag f.saved else g
    g.setFrag i { f with
      wait := if atBarrier fn id f.wait then .none else f.wait
      saved := if atBarrier fn id f.saved then .none else f.saved }

theorem Group.passBarrier_eq (g : Group) (fn id : Nat) (flag : W32) :
    g.passBarrier fn id flag = (List.range g.frags.length).foldl (Group.passAt fn id flag) g := rfl

/-- The end of a wait writes registers only (R120). -/
theorem Group.endWait_keeps (g : Group) (hb : Bool) (flag : W32) (w : Wait) :
    (g.endWait hb flag w).frags = g.frags ∧ (g.endWait hb flag w).handler = g.handler := by
  unfold Group.endWait
  split
  · split
    · rw [Group.writeLanes_frame]
      exact ⟨rfl, rfl⟩
    · rw [Group.writeG_frame]
      exact ⟨rfl, rfl⟩
  · exact ⟨rfl, rfl⟩

theorem Group.passAt_keeps {g : Group} {i : Nat} {f : Fragment} (hf : g.frags[i]? = some f) (fn id : Nat) (flag : W32) :
    (g.passAt fn id flag i).frags = g.frags.set i (f.released fn id) ∧ (g.passAt fn id flag i).handler = g.handler := by
  have hkeep (g : Group) (hb c : Bool) (w : Wait) : (if c = true then g.endWait hb flag w else g).frags = g.frags ∧
      (if c = true then g.endWait hb flag w else g).handler = g.handler := by
    split
    · exact g.endWait_keeps hb flag w
    · exact ⟨rfl, rfl⟩
  rw [Group.passAt, hf]
  obtain ⟨hfr, hh⟩ := hkeep g (g.handler && f.trapping) (atBarrier fn id f.wait) f.wait
  obtain ⟨hfr', hh'⟩ := hkeep (if atBarrier fn id f.wait = true then g.endWait (g.handler && f.trapping) flag f.wait else g) false
    (atBarrier fn id f.saved) f.saved
  exact ⟨congrArg (·.set i (f.released fn id)) (hfr'.trans hfr), hh'.trans hh⟩

/-- The group once its first n fragments have passed. -/
def Group.passed₁ (g : Group) (fn id : Nat) (flag : W32) (n : Nat) : Group := (List.range n).foldl (Group.passAt fn id flag) g

theorem Group.passed₁_succ (g : Group) (fn id : Nat) (flag : W32) (n : Nat) :
    g.passed₁ fn id flag (n + 1) = (g.passed₁ fn id flag n).passAt fn id flag n := by
  rw [Group.passed₁, List.range_succ, List.foldl_append]
  rfl

/-- Fragments pass one after another. -/
theorem Group.passed₁_keeps (g : Group) (fn id : Nat) (flag : W32) : ∀ n, n ≤ g.frags.length →
    (∀ j, (g.passed₁ fn id flag n).frags[j]? = (g.frags[j]?).map fun f => if j < n then f.released fn id else f) ∧
      (g.passed₁ fn id flag n).handler = g.handler
  | 0, _ => ⟨fun j => by simp [Group.passed₁], rfl⟩
  | n + 1, hn => by
    obtain ⟨hfr, hh⟩ := Group.passed₁_keeps g fn id flag n (Nat.le_of_succ_le hn)
    have hat : (g.passed₁ fn id flag n).frags[n]? = some g.frags[n] := by
      rw [hfr, List.getElem?_eq_getElem hn, Option.map_some, if_neg (Nat.lt_irrefl n)]
    obtain ⟨hfr', hh'⟩ := Group.passAt_keeps hat fn id flag
    rw [Group.passed₁_succ]
    refine ⟨fun j => ?_, hh'.trans hh⟩
    rw [hfr', List.getElem?_set]
    by_cases hj : n = j
    · subst hj
      rw [if_pos rfl, if_pos ((List.getElem?_eq_some_iff.1 hat).1), List.getElem?_eq_getElem hn, Option.map_some, if_pos (Nat.lt_succ_self n)]
    · rw [if_neg hj, hfr]
      congr 1
      funext f
      exact if_congr (by omega) rfl rfl

/-- Every fragment of a released group waits at the barrier no more. -/
theorem Group.passBarrier_frags (g : Group) (fn id : Nat) (flag : W32) : (g.passBarrier fn id flag).frags = g.frags.map (·.released fn id) := by
  refine List.ext_getElem? fun j => ?_
  rw [g.passBarrier_eq, ← Group.passed₁, (g.passed₁_keeps fn id flag _ (Nat.le_refl _)).1, List.getElem?_map]
  cases hj : g.frags[j]? with
  | none => rfl
  | some f => rw [Option.map_some, if_pos (List.getElem?_eq_some_iff.1 hj).1, Option.map_some]

/-! ### What a register holds afterwards (R43, R120) -/

/-- What waits that end one after another leave in a register: each of which p gives a step writes the flag and its step. -/
def flagOf (p : Wait → Option W32) (flag v : W32) (ws : List Wait) : W32 := ws.foldl (fun v w => (p w).elim v (flag + ·)) v

theorem flagOf_of_none {p : Wait → Option W32} (flag v : W32) : ∀ {ws : List Wait}, (∀ w ∈ ws, p w = none) → flagOf p flag v ws = v
  | [], _ => rfl
  | w :: ws, h => by
    rw [flagOf, List.foldl_cons, h w (List.mem_cons_self ..)]
    exact flagOf_of_none flag v fun w hw => h w (List.mem_cons_of_mem _ hw)

theorem flagOf_append (p : Wait → Option W32) (flag v : W32) (ws : List Wait) (w : Wait) :
    flagOf p flag v (ws ++ [w]) = (p w).elim (flagOf p flag v ws) (flag + ·) := by
  rw [flagOf, List.foldl_append]
  rfl

/-- Where none of the waits has a step, the register holds the flag itself. -/
theorem flagOf_of_plain {p : Wait → Option W32} (flag v : W32) {ws : List Wait} (hstep : ∀ w ∈ ws, ∀ step, p w = some step → step = 0)
    (hsome : ∃ w ∈ ws, (p w).isSome = true) : flagOf p flag v ws = flag := by
  induction ws using List.reverseRecOn with
  | nil => obtain ⟨w, hw, -⟩ := hsome; cases hw
  | append_singleton ws w ih =>
    rw [flagOf_append]
    cases hp : p w with
    | some step =>
      rw [hstep w (by simp) step hp]
      exact BitVec.add_zero flag
    | none =>
      exact ih (fun u hu => hstep u (List.mem_append_left _ hu)) (by
        obtain ⟨u, hu, hpu⟩ := hsome
        obtain hu | hu := List.mem_append.1 hu
        · exact ⟨u, hu, hpu⟩
        · rw [List.mem_singleton.1 hu, hp] at hpu
          cases hpu)

section
variable {reg : Group → W32} {p : Wait → Option W32} {fn id : Nat} {flag : W32} (hset : ∀ g i f, reg (Group.setFrag g i f) = reg g)
  (hend : ∀ g w, atBarrier fn id w = true → reg (Group.endWait g false flag w) = (p w).elim (reg g) (flag + ·))
  (hoff : ∀ w, atBarrier fn id w = false → p w = none)
include hset hend hoff

/-- A register that the end of each wait writes as p says holds, once all fragments have passed, what the waits leave in it. -/
theorem Group.reg_passBarrier {g : Group} (hh : g.handler = false) (hs : ∀ f ∈ g.frags, atBarrier fn id f.saved = false) :
    reg (g.passBarrier fn id flag) = flagOf p flag (reg g) (g.frags.map (·.wait)) := by
  have hall : ∀ n, n ≤ g.frags.length → reg (g.passed₁ fn id flag n) = flagOf p flag (reg g) ((g.frags.take n).map (·.wait)) := by
    intro n
    induction n with
    | zero => exact fun _ => rfl
    | succ n ih =>
      intro hn
      obtain ⟨hfr, hhn⟩ := g.passed₁_keeps fn id flag n (Nat.le_of_succ_le hn)
      have hat : (g.passed₁ fn id flag n).frags[n]? = some g.frags[n] := by
        rw [hfr, List.getElem?_eq_getElem hn, Option.map_some, if_neg (Nat.lt_irrefl n)]
      rw [Group.passed₁_succ, Group.passAt, hat]
      simp only [hset, hs _ (List.getElem_mem hn), Bool.false_eq_true, if_false, hhn, hh, Bool.false_and]
      rw [List.take_succ_eq_append_getElem hn, List.map_append, List.map_singleton, flagOf_append, ← ih (Nat.le_of_succ_le hn)]
      by_cases hw : atBarrier fn id g.frags[n].wait = true
      · rw [if_pos hw, hend _ _ hw]
      · rw [if_neg hw, hoff _ (Bool.eq_false_iff.2 hw)]
        rfl
  rw [g.passBarrier_eq, ← Group.passed₁, hall _ (Nat.le_refl _), List.take_length]

end

/-- The step that the end of a wait adds to the flag in thread t of v d. -/
def Wait.laneStep (id d t : Nat) : Wait → Option W32
  | .barrier 1 i d' a step => if i = id ∧ d' = d ∧ a.getLsbD t = true then some step else Option.none
  | _ => Option.none
/-- The step that the end of a wait adds to the flag in g n. -/
def Wait.scalarStep (id n : Nat) : Wait → Option W32
  | .barrier 1 i d' _ step => if i = id ∧ d' = 96 + n then some step else Option.none
  | _ => Option.none

theorem Wait.laneStep_eq_some {id d t : Nat} {w : Wait} {step : W32} :
    w.laneStep id d t = some step ↔ ∃ a, w = .barrier 1 id d a step ∧ a.getLsbD t = true := by
  constructor
  · intro h
    unfold Wait.laneStep at h
    split at h
    · next i d' a st =>
      split at h
      · next hc =>
        obtain ⟨rfl, rfl, ha⟩ := hc
        cases h
        exact ⟨a, rfl, ha⟩
      · cases h
    · cases h
  · rintro ⟨a, rfl, ha⟩
    exact if_pos ⟨rfl, rfl, ha⟩

theorem Wait.scalarStep_eq_some {id n : Nat} {w : Wait} {step : W32} :
    w.scalarStep id n = some step ↔ ∃ a, w = .barrier 1 id (96 + n) a step := by
  constructor
  · intro h
    unfold Wait.scalarStep at h
    split at h
    · next i d' a st =>
      split at h
      · next hc =>
        obtain ⟨rfl, rfl⟩ := hc
        cases h
        exact ⟨a, rfl⟩
      · cases h
    · cases h
  · rintro ⟨a, rfl⟩
    exact if_pos ⟨rfl, rfl⟩

/-- A wait that a step belongs to is one at the barrier. -/
theorem atBarrier_te {fn id : Nat} (hfn : fn ≤ 1) (d : Nat) (a : Mask) (step : W32) : atBarrier fn id (.barrier 1 id d a step) = true := by
  simp [atBarrier, hfn]

theorem atBarrier_congr {fn id : Nat} (hfn : fn ≤ 1) (w : Wait) : atBarrier fn id w = atBarrier 1 id w := by
  cases w <;> simp [atBarrier, hfn]

/-- The id of a wait at a barrier. -/
theorem id_of_atBarrier {fn id f i d : Nat} {a : Mask} {step : W32} (h : atBarrier fn id (.barrier f i d a step) = true) : i = id := by
  simp only [atBarrier, Bool.and_eq_true, beq_iff_eq] at h
  exact h.2

section
variable {g : Group} {fn id : Nat} (flag : W32)

theorem Group.readV_endWait {w : Wait} (hw : atBarrier fn id w = true) {d t : Nat} (hd : d < 96) (ht : t < 64) :
    (g.endWait false flag w).readV false d t = (w.laneStep id d t).elim (g.readV false d t) (flag + ·) := by
  unfold Group.endWait
  split
  · next i d' a step =>
    have hi := id_of_atBarrier hw
    subst hi
    by_cases hd' : d' < 96
    · rw [if_pos hd', Group.readV_writeLanes _ _ _ _ _ _ ht _ _ fun u hu => ((mem_threadsOf ..).1 hu).1]
      by_cases hc : d = d' ∧ a.getLsbD t = true
      · obtain ⟨rfl, ha⟩ := hc
        rw [if_pos ⟨rfl, (mem_threadsOf ..).2 ⟨ht, ha⟩, fun _ => rfl⟩, Wait.laneStep, if_pos ⟨rfl, rfl, ha⟩]
        rfl
      · rw [if_neg fun h => hc ⟨And.left h, ((mem_threadsOf ..).1 (And.right h).1).2⟩, Wait.laneStep, if_neg fun h : i = i ∧ d' = d ∧ a.getLsbD t = true => hc ⟨h.2.1.symm, h.2.2⟩]
        rfl
    · rw [if_neg hd', Group.writeG_frame, Wait.laneStep, if_neg fun h : i = i ∧ d' = d ∧ a.getLsbD t = true => hd' (h.2.1 ▸ hd)]
      rfl
  · next hne =>
    have hnone : w.laneStep id d t = none := by
      refine Option.eq_none_iff_forall_ne_some.2 fun step hs => ?_
      obtain ⟨a, rfl, -⟩ := Wait.laneStep_eq_some.1 hs
      exact hne _ _ _ _ rfl
    rw [hnone]
    rfl

theorem Group.readG_endWait {w : Wait} (hw : atBarrier fn id w = true) {n : Nat} (hn : n ≠ 0) :
    (g.endWait false flag w).readG false n = (w.scalarStep id n).elim (g.readG false n) (flag + ·) := by
  unfold Group.endWait
  split
  · next i d' a step =>
    have hi := id_of_atBarrier hw
    subst hi
    by_cases hd' : d' < 96
    · rw [if_pos hd', Group.writeLanes_frame, Wait.scalarStep, if_neg fun h => by omega]
      rfl
    · rw [if_neg hd', Group.readG_writeG]
      by_cases hc : d' = 96 + n
      · rw [if_pos ⟨by omega, by omega, fun _ => rfl⟩, Wait.scalarStep, if_pos ⟨rfl, hc⟩]
        rfl
      · rw [if_neg fun h => hc (by omega), Wait.scalarStep, if_neg fun h => hc h.2]
        rfl
  · next hne =>
    have hnone : w.scalarStep id n = none := by
      refine Option.eq_none_iff_forall_ne_some.2 fun step hs => ?_
      obtain ⟨a, rfl⟩ := Wait.scalarStep_eq_some.1 hs
      exact hne _ _ _ _ rfl
    rw [hnone]
    rfl

/-- A released group outside handler mode has the flag in the destinations of its `bar.te`s (R120). -/
theorem Group.flagged_passBarrier (hfn : fn ≤ 1) (hh : g.handler = false) (hs : ∀ f ∈ g.frags, atBarrier 1 id f.saved = false) :
    g.flagged (g.passBarrier fn id flag) id flag := by
  have hs' : ∀ f ∈ g.frags, atBarrier fn id f.saved = false := fun f hf => (atBarrier_congr hfn _).trans (hs f hf)
  refine ⟨fun d t ht hd => ?_, fun n => ?_⟩
  · have hreg := Group.reg_passBarrier (reg := fun g => g.readV false d t) (p := Wait.laneStep id d t) (flag := flag) (fun g i f => rfl)
      (fun g w hw => Group.readV_endWait flag hw hd ht) (fun w hw => Option.eq_none_iff_forall_ne_some.2 fun step hstep => by
        obtain ⟨a, rfl, -⟩ := Wait.laneStep_eq_some.1 hstep
        rw [atBarrier_te hfn] at hw
        cases hw) hh hs'
    refine ⟨fun hno => hreg.trans (flagOf_of_none _ _ fun w hw => Option.eq_none_iff_forall_ne_some.2 fun step hstep => ?_),
      fun hsome hplain => hreg.trans (flagOf_of_plain _ _ (fun w hw step hstep => ?_) ?_)⟩
    · obtain ⟨f, hf, rfl⟩ := List.mem_map.1 hw
      obtain ⟨a, hwait, ha⟩ := Wait.laneStep_eq_some.1 hstep
      rw [hno f hf a step hwait] at ha
      cases ha
    · obtain ⟨f, hf, rfl⟩ := List.mem_map.1 hw
      obtain ⟨a, hwait, -⟩ := Wait.laneStep_eq_some.1 hstep
      exact hplain f hf a step hwait
    · obtain ⟨f, hf, a, step, hwait, ha⟩ := hsome
      exact ⟨_, List.mem_map_of_mem hf, by rw [Wait.laneStep_eq_some.2 ⟨a, hwait, ha⟩]; rfl⟩
  · by_cases hn : n = 0
    · subst hn
      exact ⟨fun _ => rfl, fun _ _ => rfl⟩
    · have hreg := Group.reg_passBarrier (reg := fun g => g.readG false n) (p := Wait.scalarStep id n) (flag := flag) (fun g i f => rfl)
        (fun g w hw => Group.readG_endWait flag hw hn) (fun w hw => Option.eq_none_iff_forall_ne_some.2 fun step hstep => by
          obtain ⟨a, rfl⟩ := Wait.scalarStep_eq_some.1 hstep
          rw [atBarrier_te hfn] at hw
          cases hw) hh hs'
      refine ⟨fun hno => hreg.trans (flagOf_of_none _ _ fun w hw => Option.eq_none_iff_forall_ne_some.2 fun step hstep => ?_),
        fun hsome hplain => hreg.trans ((flagOf_of_plain _ _ (fun w hw step hstep => ?_) ?_).trans (if_neg hn).symm)⟩
      · obtain ⟨f, hf, rfl⟩ := List.mem_map.1 hw
        obtain ⟨a, hwait⟩ := Wait.scalarStep_eq_some.1 hstep
        exact hno f hf a step hwait
      · obtain ⟨f, hf, rfl⟩ := List.mem_map.1 hw
        obtain ⟨a, hwait⟩ := Wait.scalarStep_eq_some.1 hstep
        exact hplain f hf a step hwait
      · obtain ⟨f, hf, a, step, hwait⟩ := hsome
        exact ⟨_, List.mem_map_of_mem hf, by rw [Wait.scalarStep_eq_some.2 ⟨a, hwait⟩]; rfl⟩

end

/-- What the flags say of a group speaks of its fragments' waits and of its registers outside handler mode. -/
theorem Group.flagged_congr {g g₁ g' : Group} {id : Nat} {flag : W32} (hw : ∀ w, (∃ f ∈ g.frags, f.wait = w) ↔ ∃ f ∈ g₁.frags, f.wait = w)
    (hv : ∀ d t, g.readV false d t = g₁.readV false d t) (hg : ∀ n, g.readG false n = g₁.readG false n) (h : g₁.flagged g' id flag) :
    g.flagged g' id flag := by
  have hall {P : Wait → Prop} : (∀ f ∈ g.frags, P f.wait) ↔ ∀ f ∈ g₁.frags, P f.wait := by
    constructor
    · intro h f hf
      obtain ⟨f', hf', hfw⟩ := (hw f.wait).2 ⟨f, hf, rfl⟩
      exact hfw ▸ h f' hf'
    · intro h f hf
      obtain ⟨f', hf', hfw⟩ := (hw f.wait).1 ⟨f, hf, rfl⟩
      exact hfw ▸ h f' hf'
  have hex {P : Wait → Prop} (hP : ∃ f ∈ g.frags, P f.wait) : ∃ f ∈ g₁.frags, P f.wait := by
    obtain ⟨f, hf, hPf⟩ := hP
    obtain ⟨f', hf', hfw⟩ := (hw f.wait).1 ⟨f, hf, rfl⟩
    exact ⟨f', hf', hfw ▸ hPf⟩
  obtain ⟨hlanes, hscalars⟩ := h
  refine ⟨fun d t ht hd => ⟨fun hno => ?_, fun hsome hplain => ?_⟩, fun n => ⟨fun hno => ?_, fun hsome hplain => ?_⟩⟩
  · rw [hv]
    exact (hlanes d t ht hd).1 ((hall (P := fun w => ∀ a step, w = .barrier 1 id d a step → a.getLsbD t = false)).1 hno)
  · exact (hlanes d t ht hd).2 (hex (P := fun w => ∃ a step, w = .barrier 1 id d a step ∧ a.getLsbD t = true) hsome)
      ((hall (P := fun w => ∀ a step, w = .barrier 1 id d a step → step = 0)).1 hplain)
  · rw [hg]
    exact (hscalars n).1 ((hall (P := fun w => ∀ a step, w ≠ .barrier 1 id (96 + n) a step)).1 hno)
  · exact (hscalars n).2 (hex (P := fun w => ∃ a step, w = .barrier 1 id (96 + n) a step) hsome)
      ((hall (P := fun w => ∀ a step, w = .barrier 1 id (96 + n) a step → step = 0)).1 hplain)

end Sys2Proof.Machine
end

section
/-!
PROOFS. Arrivals at a team or cluster barrier, and its release (R119, R120, R122, R414; O25).
-/
namespace Sys2Proof.Machine

/-! ### Which groups a barrier releases (R119) -/

/-- A group takes part in a barrier of the listed teams: it has threads. -/
def Group.partakes (g : Group) (uids : List Nat) : Bool := uids.contains g.team && !g.frags.isEmpty

theorem Group.partakes_iff {g : Group} {uids : List Nat} : g.partakes uids = true ↔ g.team ∈ uids ∧ g.frags ≠ [] := by
  rw [Group.partakes, Bool.and_eq_true, List.contains_iff_mem, Bool.not_eq_true', ← Bool.not_eq_true, List.isEmpty_iff]

/-- The groups that take part, with their keys. -/
def State.partakers (s : State) (uids : List Nat) : List (Nat × Group) := s.groups.entries.filter fun e => e.2.partakes uids

theorem State.mem_partakers {s : State} (hr : s.groups.rising) {uids : List Nat} {k : Nat} {g : Group} :
    (k, g) ∈ s.partakers uids ↔ s.groups.find k = some g ∧ g.team ∈ uids ∧ g.frags ≠ [] := by
  rw [State.partakers, List.mem_filter, Group.partakes_iff]
  exact and_congr_left' ⟨fun h => Map.find_of_mem hr h, fun h => Map.mem_of_find h⟩

/-- A group has arrived: all its fragments wait at the barrier, or its handler does (R119, R122). -/
theorem Group.hasArrived_iff {g : Group} {fn id : Nat} : g.hasArrived fn id = true ↔ g.frags ≠ [] ∧
    ((∀ f ∈ g.frags, f.arrivedAt fn id = true) ∨ (g.handler = true ∧ ∃ f ∈ g.frags, f.trapping = true ∧ atBarrier fn id f.wait = true)) := by
  rw [Group.hasArrived, Bool.and_eq_true, Bool.or_eq_true, Bool.and_eq_true, List.any_eq_true, List.all_eq_true, Bool.not_eq_true',
    ← Bool.not_eq_true, List.isEmpty_iff, or_comm]
  simp only [Bool.and_eq_true]

section
variable {s : State} (hr : s.groups.rising) {uids : List Nat} {fn id : Nat} {epilogue : List (Nat × Group) → Nat}
include hr

/-- Once all that take part have arrived, they pass (R119). -/
theorem State.tryRelease_of_all {k₀ : Nat} {g₀ : Group} (hsome : s.groups.find k₀ = some g₀ ∧ g₀.team ∈ uids ∧ g₀.frags ≠ [])
    (hall : ∀ k g, s.groups.find k = some g → g.team ∈ uids → g.frags ≠ [] → g.hasArrived fn id = true) (k : Nat) :
    (s.tryRelease uids fn id epilogue).groups.find k = (s.groups.find k).map fun g =>
      if g.partakes uids then g.passBarrier fn id (if k = epilogue (s.partakers uids) then 1 else 0) else g := by
  have hlive : (!(s.partakers uids).isEmpty && (s.partakers uids).all fun e => e.2.hasArrived fn id) = true := by
    rw [Bool.and_eq_true, List.all_eq_true, Bool.not_eq_true', ← Bool.not_eq_true, List.isEmpty_iff]
    refine ⟨List.ne_nil_of_mem ((State.mem_partakers hr).2 hsome), fun e he => ?_⟩
    obtain ⟨hfind, hteam, hne⟩ := (State.mem_partakers hr).1 (show (e.1, e.2) ∈ s.partakers uids from he)
    exact hall _ _ hfind hteam hne
  have hany (g : Group) (hg : s.groups.find k = some g) : ((s.partakers uids).any fun e => e.1 = k) = g.partakes uids := by
    rw [Bool.eq_iff_iff, List.any_eq_true, Group.partakes_iff]
    constructor
    · rintro ⟨e, he, hk⟩
      obtain ⟨hfind, hpart⟩ := (State.mem_partakers hr).1 (show (e.1, e.2) ∈ s.partakers uids from he)
      rw [of_decide_eq_true hk, hg] at hfind
      exact Option.some.inj hfind ▸ hpart
    · exact fun hpart => ⟨(k, g), (State.mem_partakers hr).2 ⟨hg, hpart⟩, decide_eq_true rfl⟩
  have hstate : (s.tryRelease uids fn id epilogue).groups = s.groups.mapValues fun k g =>
      if (s.partakers uids).any fun e => e.1 = k then g.passBarrier fn id (if k = epilogue (s.partakers uids) then 1 else 0) else g := by
    rw [State.tryRelease]
    exact congrArg State.groups (if_pos hlive)
  rw [hstate, Map.find_mapValues]
  cases hg : s.groups.find k with
  | none => rfl
  | some g => rw [Option.map_some, Option.map_some, hany g hg]

/-- While a group that takes part is missing, nothing happens (R119). -/
theorem State.tryRelease_of_missing {k : Nat} {g : Group} (hg : s.groups.find k = some g) (hteam : g.team ∈ uids) (hne : g.frags ≠ [])
    (hmiss : g.hasArrived fn id = false) : s.tryRelease uids fn id epilogue = s := by
  rw [State.tryRelease]
  refine if_neg fun hall => ?_
  have hmem : (k, g) ∈ s.partakers uids := (State.mem_partakers hr).2 ⟨hg, hteam, hne⟩
  rw [Bool.and_eq_true, List.all_eq_true] at hall
  rw [hall.2 (k, g) hmem] at hmiss
  cases hmiss

end

theorem State.tryRelease_keeps (s : State) (uids : List Nat) (fn id : Nat) (epilogue : List (Nat × Group) → Nat) :
    (s.tryRelease uids fn id epilogue).mem = s.mem ∧ (s.tryRelease uids fn id epilogue).launches = s.launches := by
  rw [State.tryRelease]
  simp only
  split <;> exact ⟨rfl, rfl⟩

/-! ### The epilogue group (R120) -/

/-- The last of the groups of the highest GROUP_IX. -/
def topOf (live : List (Nat × Group)) : Nat × Group :=
  live.foldl (fun best e => if best.2.gix ≤ e.2.gix then e else best) (live.headD default)

theorem topOf_spec {live : List (Nat × Group)} (hne : live ≠ []) : topOf live ∈ live ∧ ∀ e ∈ live, e.2.gix ≤ (topOf live).2.gix := by
  have hfold : ∀ (l : List (Nat × Group)) (b : Nat × Group),
      (l.foldl (fun best e => if best.2.gix ≤ e.2.gix then e else best) b = b ∨
        l.foldl (fun best e => if best.2.gix ≤ e.2.gix then e else best) b ∈ l) ∧
      b.2.gix ≤ (l.foldl (fun best e => if best.2.gix ≤ e.2.gix then e else best) b).2.gix ∧
      ∀ e ∈ l, e.2.gix ≤ (l.foldl (fun best e => if best.2.gix ≤ e.2.gix then e else best) b).2.gix := by
    intro l
    induction l with
    | nil => exact fun b => ⟨.inl rfl, Nat.le_refl _, fun e he => absurd he List.not_mem_nil⟩
    | cons e l ih =>
      intro b
      rw [List.foldl_cons]
      obtain ⟨hmem, hle, hall⟩ := ih (if b.2.gix ≤ e.2.gix then e else b)
      by_cases hbe : b.2.gix ≤ e.2.gix
      · rw [if_pos hbe] at hmem hle hall ⊢
        refine ⟨.inr (List.mem_cons.2 hmem), hbe.trans hle, fun q hq => ?_⟩
        obtain rfl | hq := List.mem_cons.1 hq
        · exact hle
        · exact hall q hq
      · rw [if_neg hbe] at hmem hle hall ⊢
        refine ⟨hmem.imp_right (List.mem_cons_of_mem _), hle, fun q hq => ?_⟩
        obtain rfl | hq := List.mem_cons.1 hq
        · exact (Nat.le_of_lt (Nat.not_le.1 hbe)).trans hle
        · exact hall q hq
  cases live with
  | nil => exact absurd rfl hne
  | cons e l =>
    obtain ⟨hmem, -, hall⟩ := hfold (e :: l) e
    exact ⟨hmem.elim (fun h => by rw [topOf, List.headD_cons, h]; exact List.mem_cons_self ..) id, hall⟩

theorem epilogueOf_of_form {form : Nat} (hform : form ≠ 0) (last : Option Nat) (live : List (Nat × Group)) :
    epilogueOf form last live = (topOf live).1 := by
  unfold epilogueOf
  split
  · exact absurd rfl hform
  · rfl

/-! ### The barrier instructions -/

/-- The group whose acting fragment has arrived at the barrier. -/
def Ctx.arrivedGroup (x : Ctx) (m : Bool) (fn id d : Nat) : Group :=
  Group.park62 { x.g with frags := x.g.frags.set x.frag { x.f with pc := x.wordsOn 1, wait := .barrier fn id d x.f.k0 0 } } m

/-- The state in which a team or cluster barrier is evaluated: the fragment waits, and its group may be the last at a team barrier. -/
def Ctx.arrivedState (x : Ctx) (s : State) (m : Bool) (fn id d : Nat) : State :=
  if fn ≤ 1 && (x.arrivedGroup m fn id d).hasArrived fn id then
    (x.put s (x.arrivedGroup m fn id d)).modTeam x.g.team fun t => { t with lastArrival := t.lastArrival.set id x.slot }
  else x.put s (x.arrivedGroup m fn id d)

/-- The group whose `bar.te`s receive 1 (R120), for a barrier of the acting fragment's team. -/
def Ctx.epilogue (x : Ctx) (s : State) (id : Nat) : List (Nat × Group) → Nat :=
  epilogueOf (((s.launches.find x.team.launch).map (·.form)).getD 0)
    (((s.teams.find x.g.team).bind fun t => t.lastArrival.find id).map (slotKey x.team.core))

section
variable {s : State} {x : Ctx} (h : s.ctx = some x) {m : Bool} {i : Instr} {fn id d : Nat} {uids : List Nat}
  (hi : BarrierDoes x m i fn id d uids)
include h hi

omit h in
theorem BarrierDoes.exec : exec i s = barrierAt m fn id d s := by cases hi <;> rfl

/-- Outside spawn teams a barrier instruction arrives and evaluates the barrier of its teams. -/
theorem exec_barrier_arrives (hl : x.f.looping = false ∨ x.g.handler = true) (hk : x.team.kind ≠ 1) : ∃ epilogue,
    exec i s = .next ((x.arrivedState s m fn id d).tryRelease uids fn id epilogue) ∧
      (fn ≤ 1 → epilogue = x.epilogue (x.arrivedState s m fn id d) id) := by
  have hf := (State.ctx_eq_some h).2.2.1
  have hstep (v : W32) : (if x.f.looping && !x.g.handler then v else 0) = 0 :=
    if_neg (by rw [show (x.f.looping && !x.g.handler) = false from inBody_eq_false hl]; exact Bool.false_ne_true)
  have heval : exec i s = .next ((x.arrivedState s m fn id d).evalBarrier x.g.team x.team fn id) := by
    rw [hi.exec]
    refine ((onFrag_of h _).trans (if_neg hk)).trans ?_
    simp only [hstep, Group.advance_of_plain hf (inBody_eq_false hl), Ctx.waitFor_goesTo hf]
    rfl
  have hteam (hfn : fn ≤ 1) : exec i s = .next ((x.arrivedState s m fn id d).tryRelease [x.g.team] fn id
      (x.epilogue (x.arrivedState s m fn id d) id)) := heval.trans (congrArg Host.Outcome.next (if_pos hfn))
  have hcluster (hfn : ¬fn ≤ 1) : exec i s = .next ((x.arrivedState s m fn id d).tryRelease
      (if fn = 2 then x.team.ownHalf else x.team.ownHalf ++ x.team.otherHalf) fn id fun _ => 0) := heval.trans (congrArg Host.Outcome.next (if_neg hfn))
  cases hi with
  | barT => exact ⟨_, hteam (by decide), fun _ => rfl⟩
  | barTe => exact ⟨_, hteam (by decide), fun _ => rfl⟩
  | barC => exact ⟨_, hcluster (by decide), fun hfn => absurd hfn (by decide)⟩
  | barCx => exact ⟨_, hcluster (by decide), fun hfn => absurd hfn (by decide)⟩

/-- In a spawn team `bar.t` and `bar.te` complete at once, and the cluster barriers are illegal (R414). -/
theorem exec_barrier_of_spawned (hk : x.team.kind = 1) : exec i s =
    if 2 ≤ fn then x.illegal s 0 else x.done s (if fn = 1 then x.writeUni x.g d 1 else x.g) m 1 := by
  rw [hi.exec]
  exact (onFrag_of h _).trans (if_pos hk)

end

/-! ### The state once the fragment has arrived -/

section
variable (s : State) (x : Ctx) (m : Bool) (fn id d : Nat)

theorem Ctx.arrivedState_keeps : (x.arrivedState s m fn id d).groups = s.groups.set (slotKey x.core x.slot) (x.arrivedGroup m fn id d) ∧
    (x.arrivedState s m fn id d).mem = s.mem ∧ (x.arrivedState s m fn id d).launches = s.launches := by
  unfold Ctx.arrivedState
  split <;> exact ⟨rfl, rfl, rfl⟩

theorem Ctx.arrivedState_own : (x.arrivedState s m fn id d).groups.find (slotKey x.core x.slot) = some (x.arrivedGroup m fn id d) := by
  rw [(x.arrivedState_keeps s m fn id d).1, Map.find_set, if_pos rfl]

theorem Ctx.arrivedState_other {k : Nat} (hk : k ≠ slotKey x.core x.slot) :
    (x.arrivedState s m fn id d).groups.find k = s.groups.find k := by
  rw [(x.arrivedState_keeps s m fn id d).1, Map.find_set, if_neg hk]

theorem Ctx.arrivedGroup_frame : ∃ mark hmark, x.arrivedGroup m fn id d =
    { x.g with
      frags := x.g.frags.set x.frag { x.f with pc := x.wordsOn 1, wait := .barrier fn id d x.f.k0 0 }
      marker := mark
      hmarker := hmark } := Group.park62_frame _ m

theorem Ctx.arrivedGroup_frags :
    (x.arrivedGroup m fn id d).frags = x.g.frags.set x.frag { x.f with pc := x.wordsOn 1, wait := .barrier fn id d x.f.k0 0 } :=
  Group.park62_frags _ m

theorem atBarrier_self : atBarrier fn id (.barrier fn id d x.f.k0 0) = true := by simp [atBarrier]

end

section
variable {s : State} {x : Ctx} (h : s.ctx = some x) (m : Bool) {fn id : Nat} (d : Nat)
include h

theorem Ctx.arrivedGroup_frags_ne : (x.arrivedGroup m fn id d).frags ≠ [] := by
  have hlt := (List.getElem?_eq_some_iff.1 (State.ctx_eq_some h).2.2.1).1
  intro hnil
  have hlen := congrArg List.length (x.arrivedGroup_frags m fn id d)
  rw [hnil, List.length_set] at hlen
  exact absurd hlt (hlen ▸ Nat.not_lt_zero _)

/-- The acting fragment's group has arrived where its other fragments stand at the barrier, or where its handler runs (R119, R122). -/
theorem Ctx.arrivedGroup_hasArrived (hmine : (∀ j f, x.g.frags[j]? = some f → j ≠ x.frag → f.arrivedAt fn id = true) ∨
    (x.g.handler = true ∧ x.f.trapping = true)) : (x.arrivedGroup m fn id d).hasArrived fn id = true := by
  have hf := (State.ctx_eq_some h).2.2.1
  have hself := atBarrier_self x fn id d
  have hown : { x.f with pc := x.wordsOn 1, wait := .barrier fn id d x.f.k0 0 } ∈ (x.arrivedGroup m fn id d).frags := by
    rw [Ctx.arrivedGroup_frags]
    exact List.mem_set (List.getElem?_eq_some_iff.1 hf).1 _
  refine Group.hasArrived_iff.2 ⟨Ctx.arrivedGroup_frags_ne h m d, hmine.imp (fun hall f hmem => ?_) fun ⟨hh, ht⟩ => ⟨?_, _, hown, ht, hself⟩⟩
  · rw [Ctx.arrivedGroup_frags] at hmem
    obtain ⟨j, hj⟩ := List.mem_iff_getElem?.1 hmem
    rw [List.getElem?_set] at hj
    split at hj
    · split at hj
      · cases hj
        rw [Fragment.arrivedAt, hself, Bool.true_or]
      · cases hj
    · next hne => exact hall j f hj (Ne.symm hne)
  · obtain ⟨mark, hmark, heq⟩ := x.arrivedGroup_frame m fn id d
    rw [heq]
    exact hh

omit h in
/-- Its fragments once the barrier releases: the acting one waits no more. -/
theorem Ctx.arrivedGroup_released (hsaved : atBarrier fn id x.f.saved = false) : (x.arrivedGroup m fn id d).frags.map (·.released fn id) =
    ((x.goesTo x.g m (x.wordsOn 1)).frags.set x.frag { x.f with pc := x.wordsOn 1, wait := .none }).map (·.released fn id) := by
  have hself := atBarrier_self x fn id d
  have hgo : (x.goesTo x.g m (x.wordsOn 1)).frags = x.g.frags.set x.frag { x.f with pc := x.wordsOn 1 } := Group.park62_frags _ m
  rw [Ctx.arrivedGroup_frags, hgo, List.set_set, List.map_set, List.map_set]
  congr 1
  simp only [Fragment.released, hself, hsaved, if_true]
  split <;> rfl

end

/-! ### The release -/

/-- Who takes part in the barrier that the acting fragment completes: its own group, which waits at it now, and the others (R119). -/
def Ctx.takesPart (x : Ctx) (s : State) (uids : List Nat) (fn id d k : Nat) (g : Group) : Prop :=
  (k = slotKey x.core x.slot ∧ g = { x.g with frags := x.g.frags.set x.frag { x.f with wait := .barrier fn id d x.f.k0 0 } }) ∨
    (k ≠ slotKey x.core x.slot ∧ s.groups.find k = some g ∧ g.team ∈ uids ∧ g.frags ≠ [])

section
variable {s : State} {x : Ctx} (h : s.ctx = some x) (m : Bool) {fn id : Nat} (d : Nat) {uids : List Nat} (hteam : x.g.team ∈ uids)
  (hr : s.groups.rising)
include h hteam hr

omit h hteam in
theorem Ctx.arrivedState_rising : (x.arrivedState s m fn id d).groups.rising := by
  rw [(x.arrivedState_keeps s m fn id d).1]
  exact Map.rising_set hr _ _

omit h hr in
theorem Ctx.arrivedGroup_team : (x.arrivedGroup m fn id d).team ∈ uids := by
  obtain ⟨mark, hmark, heq⟩ := x.arrivedGroup_frame m fn id d
  rw [heq]
  exact hteam

/-- Each group that takes part is one of those that the release looks at, with the same GROUP_IX and the same waits and registers. -/
theorem Ctx.mem_partakers_of_takesPart {k : Nat} {g : Group} (hp : x.takesPart s uids fn id d k g) :
    ∃ g₁, (k, g₁) ∈ (x.arrivedState s m fn id d).partakers uids ∧ g₁.gix = g.gix ∧ g₁.handler = g.handler ∧
      ((∀ f ∈ g.frags, atBarrier 1 id f.saved = false) → ∀ f ∈ g₁.frags, atBarrier 1 id f.saved = false) ∧
      ∀ g' flag, g₁.flagged g' id flag → g.flagged g' id flag := by
  obtain ⟨rfl, rfl⟩ | ⟨hk, hg, hpart⟩ := hp
  · have hlt := (List.getElem?_eq_some_iff.1 (State.ctx_eq_some h).2.2.1).1
    refine ⟨x.arrivedGroup m fn id d, (State.mem_partakers (Ctx.arrivedState_rising m d hr)).2
      ⟨x.arrivedState_own s m fn id d, Ctx.arrivedGroup_team m d hteam, Ctx.arrivedGroup_frags_ne h m d⟩, ?_⟩
    obtain ⟨mark, hmark, heq⟩ := x.arrivedGroup_frame m fn id d
    rw [heq]
    have hmem {f₁ f₂ : Fragment} (hw : f₁.wait = f₂.wait) (hs : f₁.saved = f₂.saved) {f : Fragment} (hf : f ∈ x.g.frags.set x.frag f₁) :
        ∃ f' ∈ x.g.frags.set x.frag f₂, f'.wait = f.wait ∧ f'.saved = f.saved := by
      obtain ⟨j, hj⟩ := List.mem_iff_getElem?.1 hf
      rw [List.getElem?_set] at hj
      split at hj
      · next hjf =>
        cases hj
        exact ⟨f₂, List.mem_set hlt _, hw.symm, hs.symm⟩
      · next hjf =>
        exact ⟨f, List.mem_iff_getElem?.2 ⟨j, by rw [List.getElem?_set, if_neg hjf]; exact hj⟩, rfl, rfl⟩
    have hgone {f : Fragment} := hmem (f₁ := { x.f with pc := x.wordsOn 1, wait := .barrier fn id d x.f.k0 0 })
      (f₂ := { x.f with wait := .barrier fn id d x.f.k0 0 }) rfl rfl (f := f)
    have hcome {f : Fragment} := hmem (f₁ := { x.f with wait := .barrier fn id d x.f.k0 0 })
      (f₂ := { x.f with pc := x.wordsOn 1, wait := .barrier fn id d x.f.k0 0 }) rfl rfl (f := f)
    refine ⟨rfl, rfl, fun hs f hf => ?_, fun g' flag hflag => Group.flagged_congr (fun w => ⟨?_, ?_⟩) (fun _ _ => ?_) (fun _ => ?_) hflag⟩
    · obtain ⟨f', hf', -, hsaved⟩ := hgone hf
      exact hsaved ▸ hs f' hf'
    · rintro ⟨f, hf, rfl⟩
      obtain ⟨f', hf', hw, -⟩ := hcome hf
      exact ⟨f', hf', hw⟩
    · rintro ⟨f, hf, rfl⟩
      obtain ⟨f', hf', hw, -⟩ := hgone hf
      exact ⟨f', hf', hw⟩
    · rfl
    · rfl
  · exact ⟨g, (State.mem_partakers (Ctx.arrivedState_rising m d hr)).2 ⟨(x.arrivedState_other s m fn id d hk).trans hg, hpart⟩,
      rfl, rfl, fun hs => hs, fun _ _ hflag => hflag⟩

omit h hteam in
/-- Each group that the release looks at takes part. -/
theorem Ctx.takesPart_of_mem_partakers {k : Nat} {g₁ : Group} (hmem : (k, g₁) ∈ (x.arrivedState s m fn id d).partakers uids) :
    ∃ g, x.takesPart s uids fn id d k g ∧ g.gix = g₁.gix := by
  obtain ⟨hfind, hpart⟩ := (State.mem_partakers (Ctx.arrivedState_rising m d hr)).1 hmem
  by_cases hk : k = slotKey x.core x.slot
  · rw [hk, x.arrivedState_own] at hfind
    cases hfind
    obtain ⟨mark, hmark, heq⟩ := x.arrivedGroup_frame m fn id d
    exact ⟨_, .inl ⟨hk, rfl⟩, by rw [heq]⟩
  · exact ⟨g₁, .inr ⟨hk, (x.arrivedState_other s m fn id d hk).symm.trans hfind, hpart⟩, rfl⟩

omit hteam hr in
/-- Once the others stand at the barrier as well, all that take part have arrived. -/
theorem Ctx.all_arrived (hmine : (∀ j f, x.g.frags[j]? = some f → j ≠ x.frag → f.arrivedAt fn id = true) ∨
      (x.g.handler = true ∧ x.f.trapping = true))
    (hothers : ∀ k g, s.groups.find k = some g → k ≠ slotKey x.core x.slot → g.team ∈ uids → g.frags ≠ [] →
      (∀ f ∈ g.frags, f.arrivedAt fn id = true) ∨ (g.handler = true ∧ ∃ f ∈ g.frags, f.trapping = true ∧ atBarrier fn id f.wait = true))
    (k : Nat) (g : Group) (hg : (x.arrivedState s m fn id d).groups.find k = some g) (hgt : g.team ∈ uids) (hne : g.frags ≠ []) :
    g.hasArrived fn id = true := by
  by_cases hk : k = slotKey x.core x.slot
  · rw [hk, x.arrivedState_own] at hg
    cases hg
    exact Ctx.arrivedGroup_hasArrived h m d hmine
  · exact Group.hasArrived_iff.2 ⟨hne, hothers k g ((x.arrivedState_other s m fn id d hk).symm.trans hg) hk hgt hne⟩

omit hteam hr in
/-- The group that arrived last at a team barrier is the acting one (R120). -/
theorem Ctx.epilogue_of_form_zero (hfn : fn ≤ 1) (hown : (x.arrivedGroup m fn id d).hasArrived fn id = true) (hform : x.launch.form = 0)
    (live : List (Nat × Group)) : x.epilogue (x.arrivedState s m fn id d) id live = slotKey x.team.core x.slot := by
  obtain ⟨-, -, -, ht, hla⟩ := State.ctx_eq_some h
  have hlast : ((x.arrivedState s m fn id d).teams.find x.g.team).bind (fun t => t.lastArrival.find id) = some x.slot := by
    have hstate : (x.arrivedState s m fn id d).teams =
        s.teams.modify x.g.team fun t => { t with lastArrival := t.lastArrival.set id x.slot } := by
      rw [Ctx.arrivedState, if_pos (by rw [decide_eq_true hfn, hown]; rfl)]
      rfl
    rw [hstate, Map.find_modify, if_pos rfl, ht, Option.map_some, Option.bind_some, Map.find_set, if_pos rfl]
  rw [Ctx.epilogue, hlast, (x.arrivedState_keeps s m fn id d).2.2, hla, Option.map_some, Option.getD_some, hform]
  rfl

omit hteam hr in
theorem Ctx.epilogue_of_form (hform : x.launch.form ≠ 0) (live : List (Nat × Group)) :
    x.epilogue (x.arrivedState s m fn id d) id live = (topOf live).1 := by
  obtain ⟨-, -, -, -, hla⟩ := State.ctx_eq_some h
  rw [Ctx.epilogue, (x.arrivedState_keeps s m fn id d).2.2, hla]
  exact epilogueOf_of_form hform _ _

/-- With FORM non-zero a group whose GROUP_IX is highest receives 1 (R120). -/
theorem Ctx.top_eq_of_highest {k : Nat} {g : Group} (hp : x.takesPart s uids fn id d k g)
    (hhigh : ∀ j g', x.takesPart s uids fn id d j g' → j ≠ k → g'.gix < g.gix) :
    (topOf ((x.arrivedState s m fn id d).partakers uids)).1 = k := by
  obtain ⟨g₁, hmem, hgix, -⟩ := Ctx.mem_partakers_of_takesPart h m d hteam hr hp
  obtain ⟨htop, hmax⟩ := topOf_spec (List.ne_nil_of_mem hmem)
  obtain ⟨g', hp', hgix'⟩ := Ctx.takesPart_of_mem_partakers m d hr (k := (topOf _).1) (g₁ := (topOf _).2) htop
  by_contra hne
  have hlt := hhigh _ _ hp' hne
  have hle := hmax _ hmem
  rw [hgix', ← hgix] at hlt
  exact absurd hlt (Nat.not_lt.2 hle)

/-- With FORM non-zero a group below another receives 0 (R120). -/
theorem Ctx.top_ne_of_lower {k : Nat} {g : Group} (hp : x.takesPart s uids fn id d k g)
    (hlow : ∃ j g', x.takesPart s uids fn id d j g' ∧ g.gix < g'.gix) :
    k ≠ (topOf ((x.arrivedState s m fn id d).partakers uids)).1 := by
  obtain ⟨g₁, hmem, hgix, -⟩ := Ctx.mem_partakers_of_takesPart h m d hteam hr hp
  obtain ⟨j, g', hp', hlt⟩ := hlow
  obtain ⟨g₁', hmem', hgix', -⟩ := Ctx.mem_partakers_of_takesPart h m d hteam hr hp'
  obtain ⟨htop, hmax⟩ := topOf_spec (List.ne_nil_of_mem hmem)
  intro heq
  have hfind := ((State.mem_partakers (Ctx.arrivedState_rising m d hr)).1 hmem).1
  have hfind' := ((State.mem_partakers (Ctx.arrivedState_rising m d hr)).1 (show ((topOf _).1, (topOf _).2) ∈ _ from htop)).1
  have hsame : g₁ = (topOf ((x.arrivedState s m fn id d).partakers uids)).2 := Option.some.inj (hfind.symm.trans (heq ▸ hfind'))
  have hle := hmax _ hmem'
  rw [← hsame, hgix', hgix] at hle
  exact absurd hlt (Nat.not_lt.2 hle)

end

section
variable {s : State} {x : Ctx} (h : s.ctx = some x) (m : Bool) {fn id : Nat} (d : Nat) {uids : List Nat} (hteam : x.g.team ∈ uids)
  (hr : s.groups.rising) {epilogue : List (Nat × Group) → Nat}
  (hall : ∀ k g, (x.arrivedState s m fn id d).groups.find k = some g → g.team ∈ uids → g.frags ≠ [] → g.hasArrived fn id = true)
include h hteam hr hall

/-- What the release leaves of each group. -/
theorem Ctx.find_released (k : Nat) :
    ((x.arrivedState s m fn id d).tryRelease uids fn id epilogue).groups.find k =
      ((x.arrivedState s m fn id d).groups.find k).map fun g => if g.partakes uids then
        g.passBarrier fn id (if k = epilogue ((x.arrivedState s m fn id d).partakers uids) then 1 else 0) else g :=
  State.tryRelease_of_all (Ctx.arrivedState_rising m d hr)
    ⟨x.arrivedState_own s m fn id d, Ctx.arrivedGroup_team m d hteam, Ctx.arrivedGroup_frags_ne h m d⟩ hall k

/-- The acting group's fragments after the release. -/
theorem Ctx.released_own (hsaved : atBarrier fn id x.f.saved = false) :
    (((x.arrivedState s m fn id d).tryRelease uids fn id epilogue).groups.find (slotKey x.core x.slot)).map (·.frags) =
      some (((x.goesTo x.g m (x.wordsOn 1)).frags.set x.frag { x.f with pc := x.wordsOn 1, wait := .none }).map (·.released fn id)) := by
  rw [Ctx.find_released h m d hteam hr hall, x.arrivedState_own, Option.map_some, Option.map_some,
    if_pos (Group.partakes_iff.2 ⟨Ctx.arrivedGroup_team m d hteam, Ctx.arrivedGroup_frags_ne h m d⟩), Group.passBarrier_frags,
    x.arrivedGroup_released m d hsaved]

/-- The other groups' fragments after the release. -/
theorem Ctx.released_other {k : Nat} {g : Group} (hg : s.groups.find k = some g) (hk : k ≠ slotKey x.core x.slot) :
    (((x.arrivedState s m fn id d).tryRelease uids fn id epilogue).groups.find k).map (·.frags) =
      some (if g.team ∈ uids then g.frags.map (·.released fn id) else g.frags) := by
  rw [Ctx.find_released h m d hteam hr hall, x.arrivedState_other s m fn id d hk, hg, Option.map_some, Option.map_some]
  by_cases hgt : g.team ∈ uids
  · rw [if_pos hgt]
    by_cases hne : g.frags = []
    · rw [if_neg fun hp => (Group.partakes_iff.1 hp).2 hne, hne]
      rfl
    · rw [if_pos (Group.partakes_iff.2 ⟨hgt, hne⟩), Group.passBarrier_frags]
  · rw [if_neg hgt, if_neg fun hp => hgt (Group.partakes_iff.1 hp).1]

/-- The registers of a group that takes part after the release. -/
theorem Ctx.released_flagged (hfn : fn ≤ 1) {k : Nat} {g : Group} (hp : x.takesPart s uids fn id d k g) (hh : g.handler = false)
    (hs : ∀ f ∈ g.frags, atBarrier 1 id f.saved = false) :
    ∃ g', ((x.arrivedState s m fn id d).tryRelease uids fn id epilogue).groups.find k = some g' ∧
      g.flagged g' id (if k = epilogue ((x.arrivedState s m fn id d).partakers uids) then 1 else 0) := by
  obtain ⟨g₁, hmem, -, hh₁, hs₁, hflag⟩ := Ctx.mem_partakers_of_takesPart h m d hteam hr hp
  obtain ⟨hfind, hpart⟩ := (State.mem_partakers (Ctx.arrivedState_rising m d hr)).1 hmem
  refine ⟨_, ?_, hflag _ _ (Group.flagged_passBarrier _ hfn (hh₁.trans hh) (hs₁ hs))⟩
  rw [Ctx.find_released h m d hteam hr hall, hfind, Option.map_some, if_pos (Group.partakes_iff.2 hpart)]

end

/-- Settles O25: the last arrival releases the barrier, an earlier one waits, and spawn teams know no cluster barrier. -/
theorem barrierResult : Obligations.BarrierResult := by
  intro s x m i fn id d uids h hi hl hsaved hr
  refine ⟨fun hk hteam hmine hothers => ?_, fun hk hteam hmiss => ?_, fun hk => ⟨fun hfn => ?_, fun hfn => ?_, fun hfn => ?_⟩⟩
  · obtain ⟨epilogue, hexec, hepi⟩ := exec_barrier_arrives h hi hl hk
    have hall := Ctx.all_arrived h m d hmine hothers
    obtain ⟨hgroups, hmem, hlaunches⟩ := x.arrivedState_keeps s m fn id d
    obtain ⟨hmem', hlaunches'⟩ := (x.arrivedState s m fn id d).tryRelease_keeps uids fn id epilogue
    refine ⟨_, hexec, hmem'.trans hmem, hlaunches'.trans hlaunches, Ctx.released_own h m d hteam hr hall hsaved,
      fun k g hg hne => Ctx.released_other h m d hteam hr hall hg hne, fun hfn hcore k g hp hh hs => ?_⟩
    obtain ⟨g', hg', hflag⟩ := Ctx.released_flagged h m d hteam hr hall (epilogue := epilogue) hfn hp hh hs
    rw [hepi hfn] at hflag
    refine ⟨g', hg', fun hform => ?_, fun hform hhigh => ?_, fun hform hlow => ?_⟩
    · rwa [Ctx.epilogue_of_form_zero h m d hfn (Ctx.arrivedGroup_hasArrived h m d hmine) hform, hcore] at hflag
    · rwa [Ctx.epilogue_of_form h m d hform, if_pos (Ctx.top_eq_of_highest h m d hteam hr hp hhigh).symm] at hflag
    · rwa [Ctx.epilogue_of_form h m d hform, if_neg (Ctx.top_ne_of_lower h m d hteam hr hp hlow)] at hflag
  · obtain ⟨epilogue, hexec, -⟩ := exec_barrier_arrives h hi hl hk
    simp only [not_forall] at hmiss
    obtain ⟨k, g, hg, hne, hgt, hfr, hno⟩ := hmiss
    rw [State.tryRelease_of_missing (Ctx.arrivedState_rising m d hr) ((x.arrivedState_other s m fn id d hne).trans hg) hgt hfr
      (Bool.eq_false_iff.2 fun harr => hno (Group.hasArrived_iff.1 harr).2)] at hexec
    obtain ⟨hgroups, hmem, hlaunches⟩ := x.arrivedState_keeps s m fn id d
    exact ⟨_, hexec, hmem, hlaunches, x.arrivedState_own s m fn id d, fun k hne => x.arrivedState_other s m fn id d hne⟩
  · rw [exec_barrier_of_spawned h hi hk, hfn]
    rfl
  · rw [exec_barrier_of_spawned h hi hk, hfn]
    exact ⟨_, x.uniformSet_writeUni d 1, rfl⟩
  · rw [exec_barrier_of_spawned h hi hk, if_pos hfn]
    rfl

end Sys2Proof.Machine
end

section
/-!
PROOFS. A load of an image without an exponent plane into a tile register (R233, R297; O35).
-/
namespace Sys2Proof.Machine
open Sys2Proof.Tests

/-- A tile of one row of 32 elements whose width is the kind of an f32 image. `tcfg` configures widths 2 to 8 only (R281), and O35 speaks
of every shape. -/
def unplaned : TileShape := ⟨1, 32, 0x10, false, false, 0⟩
/-- The unit store holds the header of such an image at 0, and 1 in the byte after it. -/
def loadingUnplaned : State := { working 1 (opOf (.matrix (.tmovi 5 unplaned 0 0) none)) with
  mem := ⟨[(unitKey 0 0, 1), (unitKey 0 2, 32), (unitKey 0 4, 0x10), (unitKey 0 32, 1)]⟩ }

/-- The matrix engine's next operation is the load, and nothing makes it wait. -/
theorem loadingUnplaned_turns : loadingUnplaned.matrixTurns 0 0 0 (ctxOf loadingUnplaned).g x0.team
    (opOf (.matrix (.tmovi 5 unplaned 0 0) none)) (.tmovi 5 unplaned 0 0) := by
  unfold State.matrixTurns
  decide

/-- The image matches the tile (R297). -/
theorem unplaned_matched : unplaned.matched (loadingUnplaned.storeByte x0.team 0 0) :=
  ⟨⟨1, 32, 0x10, false, 0, false, false, false, false⟩, by decide, by decide⟩

/-- The first mantissa of tile 5 of team 0 in the next state. -/
def mantissaOf : Out → Option Byte
  | .next s => (s.teams.find 0).map fun t => (t.tile 5).mants.getZ 0
  | _ => none

theorem mantissaOf_next {s : State} {t : Team} (ht : s.teams.find 0 = some t) :
    mantissaOf (.next s) = some ((t.tile 5).mants.getZ 0) := by rw [mantissaOf, ht, Option.map_some]

/-- An image that is no block-format one has no exponent plane, so that its elements begin right after the header (R233). -/
theorem mantissaOf_turn : mantissaOf (exec (.matrixOperationBegin 0 0 0) loadingUnplaned) = some 1 := by decide

/-- The claim about tile moves fails: it places the mantissas after an exponent plane whatever the width of the tile. -/
theorem not_tileMoves : ¬Sys2Proof.Claims.TileMoves := by
  intro h
  obtain ⟨s', t', hexec, -, -, -, ⟨hmatched, -⟩, merr, -, -, hleaves⟩ := (h _ _ _ _ _ _ _ _ _ loadingUnplaned_turns).1 5 unplaned 0 0 rfl
  obtain ⟨g', -, hteam, -⟩ := hleaves
  obtain ⟨-, hmants, -⟩ := hmatched unplaned_matched
  have hturn := mantissaOf_turn
  rw [hexec, mantissaOf_next hteam, hmants 0 (by decide)] at hturn
  revert hturn
  decide

/-- Refutes O35: a `tmovi` into a tile whose width is the kind of an f32 image takes its mantissas from the byte after the header, where the
image's elements begin (R233), and O35 from a sector later: its claim about `tmovi` does not ask that the width be at most 8, as `tcfg`
makes it (R281). The other parts of O35 are left open. -/
theorem not_matrixTurn : ¬Obligations.MatrixTurn := by
  unfold Obligations.MatrixTurn
  rintro ⟨-, -, -, -, -, hmoves, -⟩
  exact not_tileMoves hmoves

end Sys2Proof.Machine
end
